-- ==== Sys2Proof/Word.lean ====
section
/-! DEFINITION. Words, bytes and bit fields of natural numbers (R1). -/

namespace Sys2Proof

/-- A 64-bit register value. -/
abbrev Word := BitVec 64

/-- One byte of memory. -/
abbrev Byte := BitVec 8

/-- A table from an index to a value, indexes strictly rising; an unlisted index has the default the reader names. -/
abbrev Tbl (α : Type) := List (Nat × α)

/-- Bits `hi:lo` of `v` as a natural number (R6). -/
def bits (v hi lo : Nat) : Nat := v / 2 ^ lo % 2 ^ (hi + 1 - lo)

/-- Bit `i` of `v`. -/
def bit (v i : Nat) : Bool := v / 2 ^ i % 2 == 1

end Sys2Proof
end

