-- ==== Sys2Proof/Syntax.lean ====
section
/-! DEFINITION. The steps of the machine: one constructor of `Instr` for each row of the opcode table (R158-R183 for
the lanes; the events of the other chapters). Fields hold the encoded numbers; `WellFormed` says which are allowed. -/

namespace Sys2Proof

/-- Format R of the A and S streams (R165). -/
structure RFmt where
  d : Nat
  a : Nat
  b : Nat
  ng : Nat
  fn : Nat
  g : Nat
  ta : Nat
  tb : Nat
  deriving DecidableEq, Repr, Inhabited

/-- Format I. -/
structure IFmt where
  d : Nat
  a : Nat
  imm : Nat
  ta : Nat
  deriving DecidableEq, Repr, Inhabited

/-- Format IC. -/
structure ICFmt where
  kd : Nat
  cond : Nat
  a : Nat
  imm : Nat
  ta : Nat
  deriving DecidableEq, Repr, Inhabited

/-- Format U; bit K is the constructor (`limm` or `limmK`). -/
structure UFmt where
  d : Nat
  hw : Nat
  rsv : Nat
  imm : Nat
  deriving DecidableEq, Repr, Inhabited

/-- Format B. -/
structure BFmt where
  g : Nat
  n : Nat
  lane : Nat
  disp : Nat
  deriving DecidableEq, Repr, Inhabited

/-- Format M (loads and stores). -/
structure MemFmt where
  d : Nat
  a : Nat
  sz : Nat
  sx : Nat
  off : Nat
  td : Nat
  ta : Nat
  deriving DecidableEq, Repr, Inhabited

/-- Format Q. -/
structure QFmt where
  reg : Nat
  q : Nat
  h : Nat
  t : Nat
  rsv : Nat
  ng : Nat
  mf : Nat
  kp : Nat
  g : Nat
  tr : Nat
  rsv0 : Nat
  deriving DecidableEq, Repr, Inhabited

/-- Format P (`LOOP`). -/
structure PFmt where
  l : Nat
  a : Nat
  ta : Nat
  elane : Nat
  len : Nat
  deriving DecidableEq, Repr, Inhabited

/-- Format PQ (`LOOPQ`). -/
structure PQFmt where
  l : Nat
  q : Nat
  elane : Nat
  len : Nat
  deriving DecidableEq, Repr, Inhabited

/-- The two words of a V instruction (R168-R172). -/
structure VFmt where
  tok : Nat
  d : Nat
  mg : Nat
  rm : Nat
  fmt : Nat
  a : Nat
  b : Nat
  c : Nat
  deriving DecidableEq, Repr, Inhabited

/-- The M format (R181, R272). -/
structure StrokeFmt where
  tok : Nat
  arr : Nat
  x : Nat
  q : Nat
  f : Nat
  p : Nat
  h : Nat
  deriving DecidableEq, Repr, Inhabited

/-- The L and W format (R181, R324). -/
structure LWFmt where
  tok : Nat
  s : Nat
  q : Nat
  d : Nat
  b : Nat
  deriving DecidableEq, Repr, Inhabited

/-- An engine command lane (R173). -/
structure LaneFmt where
  a : Nat
  b : Nat
  d : Nat
  ver : Nat
  fn : Nat
  rsv : Nat
  ta : Nat
  tb : Nat
  deriving DecidableEq, Repr, Inhabited

/-- Whose scalar registers an arrival or a wake concerns: a cox thread's, or those of a crew's sequencer half. -/
inductive Owner where
  | thread (t : Nat)
  | crew (c : Nat)
  deriving DecidableEq, Repr, Inhabited

/-- What a read of a memory sector finds (R465, R467-R469). -/
inductive Upset where
  | clean
  | corrected
  | transient
  | lasting
  deriving DecidableEq, Repr, Inhabited

/-- Where the graph sequencer places a ready entry; the choices R438 leaves unspecified are operands. -/
structure Placement where
  part : Nat
  index : Nat
  cluster : Nat
  thread : Nat
  deriving DecidableEq, Repr, Inhabited

/-- One component of a shuffle header flit: name (SHID, SRC, BLK) and length (R398). -/
structure Comp where
  shid : Nat
  len : Nat
  src : Nat
  blk : Nat
  deriving DecidableEq, Repr, Inhabited

/-- A shuffle packet (R397-R399). -/
structure Packet where
  pkind : Nat
  sender : Nat
  dmask : Nat
  comps : List Comp
  payload : List Byte
  deriving DecidableEq, Repr, Inhabited

/-- An active message of a gang (R376, R380, R381): the sending package, the receiving context, the leader's context and
identifier of the gang, the member's rank and the number of members, the status it carries, the leader's tenant, the
launch record, and the crews a report counts; `seq` is its sender's sequence number. -/
structure GangMsg where
  sender : Nat
  seq : Nat := 0
  ctx : Nat
  lctx : Nat
  gangId : Nat
  rank : Nat
  nmem : Nat
  status : Nat
  tenant : Option Nat
  record : List Byte
  count : Nat
  events : Nat
  deriving DecidableEq, Repr, Inhabited

/-- A completion report (R371, R381): a crew's, by its place among those on their way, or a gang member's. -/
inductive ReportMsg where
  | crew (index : Nat)
  | member (msg : GangMsg)
  deriving DecidableEq, Repr, Inhabited

/-- What a signed image holds (R497). -/
inductive ImageKind where
  | firmware
  | identity
  | attestation
  deriving DecidableEq, Repr, Inhabited

/-- A signed image as the mailbox receives it (R497): its bytes, and its RSA-3072 and SLH-DSA-SHA2-192s signatures. -/
structure FirmwareImage where
  kind : ImageKind := .firmware
  bytes : List Byte
  rsa : List Byte
  slh : List Byte
  deriving DecidableEq, Repr, Inhabited

/-- Where a host access goes (R493, R498): a physical address, which device memory, the launch window and above them host memory
take up, an offset in BAR0, or the size register of a CXL DVSEC range. -/
inductive HostAddr where
  | memory (addr : Nat)
  | bar0 (offset : Nat)
  | dvsec (range : Nat)
  deriving DecidableEq, Repr, Inhabited

/-- What an engine request does at its home port (R120, R312, R317, R318). -/
inductive PortAct where
  /-- an ACCW: its code 0x10 to 0x1C, `.w`, the expected value of CAS, and the operand -/
  | acc (code : Nat) (narrow : Bool) (expected v : Nat)
  /-- the add of a CSIG -/
  | signal (n : Nat)
  /-- an accumulate element of SCAT in free mode: format, OP and operand -/
  | element (efmt op v : Nat)
  /-- an accumulate of an ordered epoch: EPID, NSRC, its sequence in the epoch, format, OP and operand -/
  | hold (epid nsrc seq efmt op v : Nat)
  /-- the close of an ordered epoch -/
  | close (epid nsrc : Nat)
  deriving DecidableEq, Repr, Inhabited

/-- An engine request at a port of this package (R313), and the source package where that is another one, with the address and
what is asked there. -/
structure PortReq where
  port : Nat
  pkg : Option Nat := none
  pa : Nat := 0
  act : PortAct := .signal 0
  deriving DecidableEq, Repr, Inhabited

/-- The steps of the machine. -/
inductive Instr where
  /-- `ADD` (R189). -/
  | add (o : RFmt)
  /-- `SUB` (R189). -/
  | sub (o : RFmt)
  /-- `MUL` (R189). -/
  | mul (o : RFmt)
  /-- `MULH` (R190). -/
  | mulh (o : RFmt)
  /-- `MULHN` (R190). -/
  | mulhn (o : RFmt)
  /-- `DIV` (R192). -/
  | div (o : RFmt)
  /-- `DIVN` (R192). -/
  | divn (o : RFmt)
  /-- `REM` (R192). -/
  | rem (o : RFmt)
  /-- `REMN` (R192). -/
  | remn (o : RFmt)
  /-- `NEG` (R189). -/
  | neg (o : RFmt)
  /-- `ABS` (R189). -/
  | abs (o : RFmt)
  /-- `MIN` (R191). -/
  | min (o : RFmt)
  /-- `MAX` (R191). -/
  | max (o : RFmt)
  /-- `MINN` (R191). -/
  | minn (o : RFmt)
  /-- `MAXN` (R191). -/
  | maxn (o : RFmt)
  /-- `AND` (R194). -/
  | and (o : RFmt)
  /-- `OR` (R194). -/
  | or (o : RFmt)
  /-- `XOR` (R194). -/
  | xor (o : RFmt)
  /-- `ANDN` (R194). -/
  | andn (o : RFmt)
  /-- `SHL` (R195). -/
  | shl (o : RFmt)
  /-- `SHR` (R195). -/
  | shr (o : RFmt)
  /-- `SAR` (R195). -/
  | sar (o : RFmt)
  /-- `ROTL` (R195). -/
  | rotl (o : RFmt)
  /-- `CLZ` (R196). -/
  | clz (o : RFmt)
  /-- `CTZ` (R196). -/
  | ctz (o : RFmt)
  /-- `POPC` (R196). -/
  | popc (o : RFmt)
  /-- `BSWAP` (R196). -/
  | bswap (o : RFmt)
  /-- `EXT` (R197). -/
  | ext (o : RFmt)
  /-- `INS` (R197). -/
  | ins (o : RFmt)
  /-- `MORT` (R198). -/
  | mort (o : RFmt)
  /-- `DEMORT` (R198). -/
  | demort (o : RFmt)
  /-- `ADDI` (R193). -/
  | addi (o : IFmt)
  /-- `ANDI` (R194). -/
  | andi (o : IFmt)
  /-- `ORI` (R194). -/
  | ori (o : IFmt)
  /-- `XORI` (R194). -/
  | xori (o : IFmt)
  /-- `SHLI` (R195). -/
  | shli (o : IFmt)
  /-- `SHRI` (R195). -/
  | shri (o : IFmt)
  /-- `SARI` (R195). -/
  | sari (o : IFmt)
  /-- `CMPI` (R201). -/
  | cmpi (o : ICFmt)
  /-- `LIMM` (R199). -/
  | limm (o : UFmt)
  /-- `LIMM_K` (R199). -/
  | limmK (o : UFmt)
  /-- `MOV` (R200). -/
  | mov (o : RFmt)
  /-- `SEL` (R200). -/
  | sel (o : RFmt)
  /-- `CMP` (R201). -/
  | cmp (o : RFmt)
  /-- `PAND` (R202). -/
  | pand (o : RFmt)
  /-- `POR` (R202). -/
  | por (o : RFmt)
  /-- `PXOR` (R202). -/
  | pxor (o : RFmt)
  /-- `PNOT` (R202). -/
  | pnot (o : RFmt)
  /-- `BR` (R219). -/
  | br (o : BFmt)
  /-- `BC` (R219). -/
  | bc (o : BFmt)
  /-- `CALL` (R220). -/
  | call (o : BFmt)
  /-- `JR` (R221). -/
  | jr (o : RFmt)
  /-- `CALLR` (R220). -/
  | callr (o : RFmt)
  /-- `RET` (R222). -/
  | ret (o : RFmt)
  /-- `WAITC` (R121). -/
  | waitc (o : RFmt)
  /-- `NOP` (R223). -/
  | nop (o : RFmt)
  /-- `QPUSH` (R225). -/
  | qpush (o : QFmt)
  /-- `QPUSHM` (R225). -/
  | qpushm (o : QFmt)
  /-- `QPOP` (R226). -/
  | qpop (o : QFmt)
  /-- `LD` (R206). -/
  | ld (o : MemFmt)
  /-- `ST` (R207). -/
  | st (o : MemFmt)
  /-- `LDX` (R206). -/
  | ldx (o : RFmt)
  /-- `STX` (R207). -/
  | stx (o : RFmt)
  /-- `PREF` (R210). -/
  | pref (o : MemFmt)
  /-- `PIN` (R214). -/
  | pin (o : RFmt)
  /-- `UNPIN` (R216). -/
  | unpin (o : RFmt)
  /-- `PHASE` (R117). -/
  | phase (o : RFmt)
  /-- `MADR` (R203). -/
  | madr (o : RFmt)
  /-- `TADR` (R204). -/
  | tadr (o : RFmt)
  /-- `QPEEK` (R226). -/
  | qpeek (o : QFmt)
  /-- `QSKIP` (R227). -/
  | qskip (o : QFmt)
  /-- `QSTAT` (R228). -/
  | qstat (o : QFmt)
  /-- `YIELD` (R223). -/
  | yield (o : RFmt)
  /-- `LOOP` (R233). -/
  | loop (o : PFmt)
  /-- `LOOPQ` (R233). -/
  | loopq (o : PQFmt)
  /-- `TSRD` (R236). -/
  | tsrd (o : IFmt)
  /-- `HRD` (R238). -/
  | hrd (o : IFmt)
  /-- `HWR` (R239). -/
  | hwr (o : RFmt)
  /-- `FCFG` (R242). -/
  | fcfg (o : RFmt)
  /-- `FARM` (R242). -/
  | farm (o : RFmt)
  /-- `FWAIT` (R242). -/
  | fwait (o : RFmt)
  /-- `FCOMMIT` (R352). -/
  | fcommit (o : RFmt)
  /-- `STOP` (R243). -/
  | stop (o : RFmt)
  /-- `CTLR` (R437). -/
  | ctlr (o : IFmt)
  /-- `CTLW` (R437). -/
  | ctlw (o : IFmt)
  /-- `FEATQ` (R481). -/
  | featq (o : IFmt)
  /-- `BKPT` (R445). -/
  | bkpt (o : IFmt)
  /-- `SYSC` (R445). -/
  | sysc (o : IFmt)
  /-- `ERET` (R445). -/
  | eret (o : RFmt)
  /-- `TLBI` (R462). -/
  | tlbi (o : RFmt)
  /-- `IFENCE` (R211). -/
  | ifence (o : RFmt)
  /-- `HALT` (R446). -/
  | halt (o : RFmt)
  /-- `QCLOSE` (R156). -/
  | qclose (o : QFmt)
  /-- `VADD` (R251). -/
  | vadd (o : VFmt)
  /-- `VSUB` (R251). -/
  | vsub (o : VFmt)
  /-- `VMUL` (R251). -/
  | vmul (o : VFmt)
  /-- `VFMA` (R251). -/
  | vfma (o : VFmt)
  /-- `VFMS` (R251). -/
  | vfms (o : VFmt)
  /-- `VFNMA` (R251). -/
  | vfnma (o : VFmt)
  /-- `VMIN` (R47). -/
  | vmin (o : VFmt)
  /-- `VMAX` (R47). -/
  | vmax (o : VFmt)
  /-- `VABS` (R251). -/
  | vabs (o : VFmt)
  /-- `VNEG` (R251). -/
  | vneg (o : VFmt)
  /-- `VCPS` (R251). -/
  | vcps (o : VFmt)
  /-- `VCLASS` (R268). -/
  | vclass (o : VFmt)
  /-- `VRCPE` (R74). -/
  | vrcpe (o : VFmt)
  /-- `VRSQE` (R74). -/
  | vrsqe (o : VFmt)
  /-- `VEXP2` (R252). -/
  | vexp2 (o : VFmt)
  /-- `VLOG2` (R252). -/
  | vlog2 (o : VFmt)
  /-- `VCVT` (R253). -/
  | vcvt (o : VFmt)
  /-- `VQNT` (R254). -/
  | vqnt (o : VFmt)
  /-- `VDQNT` (R255). -/
  | vdqnt (o : VFmt)
  /-- `VCMP` (R256). -/
  | vcmp (o : VFmt)
  /-- `VSEL` (R257). -/
  | vsel (o : VFmt)
  /-- `VMAND` (R257). -/
  | vmand (o : VFmt)
  /-- `VMOR` (R257). -/
  | vmor (o : VFmt)
  /-- `VMNOT` (R257). -/
  | vmnot (o : VFmt)
  /-- `VAND` (R258). -/
  | vand (o : VFmt)
  /-- `VOR` (R258). -/
  | vor (o : VFmt)
  /-- `VXOR` (R258). -/
  | vxor (o : VFmt)
  /-- `VSHL` (R258). -/
  | vshl (o : VFmt)
  /-- `VSHR` (R258). -/
  | vshr (o : VFmt)
  /-- `VSAR` (R258). -/
  | vsar (o : VFmt)
  /-- `VPOPC` (R258). -/
  | vpopc (o : VFmt)
  /-- `VCLZ` (R258). -/
  | vclz (o : VFmt)
  /-- `VSCAN` (R259). -/
  | vscan (o : VFmt)
  /-- `VRED` (R259). -/
  | vred (o : VFmt)
  /-- `VDOT` (R260). -/
  | vdot (o : VFmt)
  /-- `VMINX` (R261). -/
  | vminx (o : VFmt)
  /-- `VMAXX` (R261). -/
  | vmaxx (o : VFmt)
  /-- `VMOV` (R262). -/
  | vmov (o : VFmt)
  /-- `VBCAST` (R262). -/
  | vbcast (o : VFmt)
  /-- `VGET` (R171). -/
  | vget (o : VFmt)
  /-- `VSET` (R262). -/
  | vset (o : VFmt)
  /-- `VPOP` (R263). -/
  | vpop (o : VFmt)
  /-- `VPUSH` (R264). -/
  | vpush (o : VFmt)
  /-- `VPERM` (R262). -/
  | vperm (o : VFmt)
  /-- `VTOPK` (R265). -/
  | vtopk (o : VFmt)
  /-- `VCMPV` (R266). -/
  | vcmpv (o : VFmt)
  /-- `VSELV` (R267). -/
  | vselv (o : VFmt)
  /-- `MLDS` (R273). -/
  | mlds (o : StrokeFmt)
  /-- `MLDSP` (R273). -/
  | mldsp (o : StrokeFmt)
  /-- `MSWAP` (R276). -/
  | mswap (o : StrokeFmt)
  /-- `MRUN` (R277). -/
  | mrun (o : StrokeFmt)
  /-- `MVER` (R289). -/
  | mver (o : StrokeFmt)
  /-- `MZERO` (R278). -/
  | mzero (o : StrokeFmt)
  /-- `MDRAIN` (R283). -/
  | mdrain (o : StrokeFmt)
  /-- `MDRAINV` (R284). -/
  | mdrainv (o : StrokeFmt)
  /-- `MMASK` (R274). -/
  | mmask (o : StrokeFmt)
  /-- `MBND` (R275). -/
  | mbnd (o : StrokeFmt)
  /-- `MWAIT` (R286). -/
  | mwait (o : StrokeFmt)
  /-- `MSTAT` (R287). -/
  | mstat (o : StrokeFmt)
  /-- `AGDEF` (R325). -/
  | agdef (o : LWFmt)
  /-- `AGRUN` (R326). -/
  | agrun (o : LWFmt)
  /-- `AGPUT` (R327). -/
  | agput (o : LWFmt)
  /-- `AGIDX` (R327). -/
  | agidx (o : LWFmt)
  /-- `AGBANK` (R327). -/
  | agbank (o : LWFmt)
  /-- `AGTAKE` (R327). -/
  | agtake (o : LWFmt)
  /-- `AGMARK` (R327). -/
  | agmark (o : LWFmt)
  /-- `COPY` (R304). -/
  | copy (o : LaneFmt)
  /-- `COPY2` (R305). -/
  | copy2 (o : LaneFmt)
  /-- `FILL` (R306). -/
  | fill (o : LaneFmt)
  /-- `CSIG` (R120). -/
  | csig (o : LaneFmt)
  /-- `STRMQ` (R307). -/
  | strmq (o : LaneFmt)
  /-- `DRAINQ` (R308). -/
  | drainq (o : LaneFmt)
  /-- `SHUF` (R405). -/
  | shuf (o : LaneFmt)
  /-- `LAUNCH` (R378). -/
  | launch (o : LaneFmt)
  /-- `CEFENCE` (R311). -/
  | cefence (o : LaneFmt)
  /-- `PREFL2` (R309). -/
  | prefl2 (o : LaneFmt)
  /-- `ACCW_ADD` (R312). -/
  | accwAdd (o : LaneFmt)
  /-- `ACCW_MIN` (R312). -/
  | accwMin (o : LaneFmt)
  /-- `ACCW_MINN` (R312). -/
  | accwMinn (o : LaneFmt)
  /-- `ACCW_MAX` (R312). -/
  | accwMax (o : LaneFmt)
  /-- `ACCW_MAXN` (R312). -/
  | accwMaxn (o : LaneFmt)
  /-- `ACCW_AND` (R312). -/
  | accwAnd (o : LaneFmt)
  /-- `ACCW_OR` (R312). -/
  | accwOr (o : LaneFmt)
  /-- `ACCW_XOR` (R312). -/
  | accwXor (o : LaneFmt)
  /-- `ACCW_XCHG` (R312). -/
  | accwXchg (o : LaneFmt)
  /-- `ACCW_CAS` (R312). -/
  | accwCas (o : LaneFmt)
  /-- `ACCW_FADD_F32` (R312). -/
  | accwFaddF32 (o : LaneFmt)
  /-- `ACCW_FADD_BF16` (R312). -/
  | accwFaddBf16 (o : LaneFmt)
  /-- `ACCW_FMAX` (R312). -/
  | accwFmax (o : LaneFmt)
  /-- `GATH` (R316). -/
  | gath (o : LaneFmt)
  /-- `SCAT` (R317). -/
  | scat (o : LaneFmt)
  /-- `BAGS` (R320). -/
  | bags (o : LaneFmt)
  /-- `ISECT` (R321). -/
  | isect (o : LaneFmt)
  /-- `MSORT` (R322). -/
  | msort (o : LaneFmt)
  /-- `SPSRCH` (R323). -/
  | spsrch (o : LaneFmt)
  /-- `IXFENCE` (R311). -/
  | ixfence (o : LaneFmt)
  /-- `ELEMENT_SRC` (R338). -/
  | elementSrc (crew sec el : Nat)
  /-- `ELEMENT_SNK` (R338). -/
  | elementSnk (crew sec el : Nat)
  /-- `ELEMENT_AGEN` (R341). -/
  | elementAgen (crew sec el : Nat)
  /-- `ELEMENT_ADD` (R338). -/
  | elementAdd (crew sec el : Nat)
  /-- `ELEMENT_SUB` (R338). -/
  | elementSub (crew sec el : Nat)
  /-- `ELEMENT_MUL` (R338). -/
  | elementMul (crew sec el : Nat)
  /-- `ELEMENT_MAC` (R338). -/
  | elementMac (crew sec el : Nat)
  /-- `ELEMENT_MIN` (R338). -/
  | elementMin (crew sec el : Nat)
  /-- `ELEMENT_MAX` (R338). -/
  | elementMax (crew sec el : Nat)
  /-- `ELEMENT_AND` (R338). -/
  | elementAnd (crew sec el : Nat)
  /-- `ELEMENT_OR` (R338). -/
  | elementOr (crew sec el : Nat)
  /-- `ELEMENT_XOR` (R338). -/
  | elementXor (crew sec el : Nat)
  /-- `ELEMENT_SHL` (R338). -/
  | elementShl (crew sec el : Nat)
  /-- `ELEMENT_SHR` (R338). -/
  | elementShr (crew sec el : Nat)
  /-- `ELEMENT_SAR` (R338). -/
  | elementSar (crew sec el : Nat)
  /-- `ELEMENT_CMP` (R338). -/
  | elementCmp (crew sec el : Nat)
  /-- `ELEMENT_SEL` (R338). -/
  | elementSel (crew sec el : Nat)
  /-- `ELEMENT_CVT` (R338). -/
  | elementCvt (crew sec el : Nat)
  /-- `ELEMENT_STEER` (R338). -/
  | elementSteer (crew sec el : Nat)
  /-- `ELEMENT_MERGE` (R338). -/
  | elementMerge (crew sec el : Nat)
  /-- `ELEMENT_CARRY` (R344). -/
  | elementCarry (crew sec el : Nat)
  /-- `ELEMENT_JOIN` (R127). -/
  | elementJoin (crew sec el : Nat)
  /-- `ELEMENT_FORK` (R338). -/
  | elementFork (crew sec el : Nat)
  /-- `ELEMENT_WIDEN` (R128). -/
  | elementWiden (crew sec el : Nat)
  /-- `ELEMENT_RED` (R339). -/
  | elementRed (crew sec el : Nat)
  /-- `ELEMENT_ACC` (R339). -/
  | elementAcc (crew sec el : Nat)
  /-- `ELEMENT_CNT` (R338). -/
  | elementCnt (crew sec el : Nat)
  /-- `ELEMENT_CONST` (R338). -/
  | elementConst (crew sec el : Nat)
  /-- `ELEMENT_PASS` (R338). -/
  | elementPass (crew sec el : Nat)
  /-- `ELEMENT_DELAY` (R338). -/
  | elementDelay (crew sec el : Nat)
  /-- `ELEMENT_COMMIT` (R352). -/
  | elementCommit (crew sec el : Nat)
  /-- `MARKER_FORWARD` (R348). -/
  | markerForward (crew sec el : Nat)
  /-- `ALIGNMENT_ABORT` (R353). -/
  | alignmentAbort (crew sec : Nat)
  /-- `CONFIGURATION_LOAD` (R358). -/
  | configurationLoad (crew : Nat)
  /-- `SKIP_TOKEN` (R149). -/
  | skipToken (crew : Nat)
  /-- `CLUSTER_EXCEPTION_DELIVERY` (R444). -/
  | clusterExceptionDelivery (crew : Nat)
  /-- `LOAD_DATA_ARRIVAL` (R206). -/
  | loadDataArrival (own : Owner) (reg : Nat)
  /-- `PIN_HANDLE_ARRIVAL` (R214). -/
  | pinHandleArrival (thread reg : Nat)
  /-- `HRD_MERGE` (R238). -/
  | hrdMerge (crew h : Nat)
  /-- `WAITC_WAKE` (R35). -/
  | waitcWake (own : Owner)
  /-- `UNPIN_RELEASE` (R216). -/
  | unpinRelease (handle : Nat)
  /-- `TLBI_WAKE` (R462). -/
  | tlbiWake (thread : Nat)
  /-- `EPOCH_APPLY` (R318). -/
  | epochApply (epid : Nat)
  /-- `PORT_REQUEST_REPLAY` (R313). -/
  | portRequestReplay (source sequence : Nat) (req : PortReq)
  /-- `START_CLUSTER_HALF` (R23). -/
  | startClusterHalf (crew : Nat)
  /-- `START_COX_THREAD` (R23). -/
  | startCoxThread (crew : Nat)
  /-- `CREW_DISPATCH` (R438). -/
  | crewDispatch (place : Placement)
  /-- `CREW_COMPLETE` (R26). -/
  | crewComplete (crew : Nat)
  /-- `COMPLETION_REPORT` (R371). -/
  | completionReport (msg : ReportMsg)
  /-- `QUANTUM_EXPIRY` (R441). -/
  | quantumExpiry (cluster : Nat)
  /-- `AGEING` (R438). -/
  | ageing (part index : Nat)
  /-- `PREEMPTION` (R442). -/
  | preemption (crew : Nat)
  /-- `SAVE_COMPLETE` (R442). -/
  | saveComplete (crew : Nat)
  /-- `WATCHDOG_EXPIRY` (R448). -/
  | watchdogExpiry (own : Owner)
  /-- `CTX_CREATE` (R434). -/
  | ctxCreate (thread descriptor : Nat)
  /-- `CTX_TEAR` (R435). -/
  | ctxTear (thread context : Nat)
  /-- `CREW_CMD_RESUME` (R449). -/
  | crewCmdResume (part handle : Nat)
  /-- `CREW_CMD_END` (R449). -/
  | crewCmdEnd (part handle : Nat)
  /-- `CREW_CMD_SUSPEND` (R449). -/
  | crewCmdSuspend (part handle : Nat)
  /-- `QCFG_WRITE` (R133). -/
  | qcfgWrite (crew queue value : Nat)
  /-- `QSTAT_WRITE` (R142). -/
  | qstatWrite (crew queue value : Nat)
  /-- `LAUNCH_PORT_WRITE` (R369). -/
  | launchPortWrite (offset : Nat) (data : List Byte)
  /-- `LAUNCH_ACCEPT` (R368). -/
  | launchAccept (context : Nat)
  /-- `LAUNCH_COMPLETE` (R374). -/
  | launchComplete (launch : Nat)
  /-- `GANG_ARM` (R381). -/
  | gangArm (msg : GangMsg)
  /-- `GANG_ACKNOWLEDGE` (R381). -/
  | gangAcknowledge (msg : GangMsg)
  /-- `GANG_ARM_TIMEOUT` (R381). -/
  | gangArmTimeout (launch : Nat)
  /-- `GANG_COMMIT` (R381). -/
  | gangCommit (msg : GangMsg)
  /-- `GANG_ABORT` (R382). -/
  | gangAbort (msg : GangMsg)
  /-- `READY` (R407). -/
  | ready (pkt : Packet)
  /-- `SOLO` (R410). -/
  | solo (pkt : Packet)
  /-- `CODED` (R410). -/
  | coded (pkt : Packet)
  /-- `REPE` (R410). -/
  | repe (pkt : Packet)
  /-- `RREQ` (R413). -/
  | rreq (pkt : Packet)
  /-- `CLOSE` (R414). -/
  | close (pkt : Packet)
  /-- `QUIT` (R415). -/
  | quit (pkt : Packet)
  /-- `PAIRING_DEADLINE` (R407). -/
  | pairingDeadline (shid group : Nat)
  /-- `FLIT_RETRANSMIT` (R475). -/
  | flitRetransmit (port failures : Nat)
  /-- `LANE_WITHDRAWAL` (R476). -/
  | laneWithdrawal (port : Nat)
  /-- `PACKAGE_DECLARED_FAILED` (R478). -/
  | packageDeclaredFailed (pkg : Nat)
  /-- `FAILURE_NOTIFICATION` (R478). -/
  | failureNotification (pkg : Nat)
  /-- `SCRUB_READ` (R467). -/
  | scrubRead (sector : Nat) (found : Upset)
  /-- `HOST_READ` (R494). -/
  | hostRead (addr : HostAddr) (len : Nat)
  /-- `HOST_WRITE` (R494). -/
  | hostWrite (addr : HostAddr) (data : List Byte)
  /-- `MAILBOX_ASSIGN_UNITS` (R496). -/
  | mailboxAssignUnits (part : Nat) (units : List Nat)
  /-- `MAILBOX_ASSIGN_TENANT` (R496). -/
  | mailboxAssignTenant (part tenant : Nat)
  /-- `MAILBOX_REGISTER_KEY` (R496). -/
  | mailboxRegisterKey (tenant slot : Nat) (key : List Byte)
  /-- `MAILBOX_SET_CACHE_QUOTA` (R496). -/
  | mailboxSetCacheQuota (tenant quota : Nat)
  /-- `MAILBOX_SET_POWER_LIMIT` (R496). -/
  | mailboxSetPowerLimit (watts : Nat)
  /-- `MAILBOX_READ_ERROR_COUNTERS` (R496). -/
  | mailboxReadErrorCounters
  /-- `MAILBOX_UPDATE_FIRMWARE` (R497). -/
  | mailboxUpdateFirmware (image : FirmwareImage)
  /-- `MAILBOX_ATTESTATION` (R497). -/
  | mailboxAttestation (nonce : List Byte)
  /-- `RESET_RELEASE` (R498). -/
  | resetRelease (failedStep : Nat)
  /-- `THERMAL_WARNING` (R499). -/
  | thermalWarning
  /-- `THERMAL_TRIP` (R499). -/
  | thermalTrip
  /-- `ARITHMETIC_CLOCK_RECOVERY` (R499). -/
  | arithmeticClockRecovery
  deriving DecidableEq, Repr

/-- The unit a step runs for. -/
inductive UnitId where
  /-- cox thread `t` -/
  | thread (t : Nat)
  /-- the sequencer of cluster `cl`, for its active crew -/
  | seq (cl : Nat)
  /-- the V stream of cluster `cl` -/
  | vec (cl : Nat)
  /-- the M stream of cluster `cl`, at position `pos` of its command queue -/
  | stroke (cl pos : Nat)
  /-- the L stream of cluster `cl` -/
  | lgen (cl : Nat)
  /-- the W stream of cluster `cl` -/
  | wgen (cl : Nat)
  /-- the copy engine of cluster `cl` -/
  | copyEng (cl : Nat)
  /-- the index engine of cluster `cl` -/
  | indexEng (cl : Nat)
  /-- the package: an event acts on it, and its bring-up goes on by a step (R498) -/
  | package
  deriving DecidableEq, Repr, Inhabited

/-- What the part's storage, arithmetic or sensors give: an upset, which an access or a Stroke row meets later (R467-R472), or a
reading (R499). The upset of a register, a queue entry or a buffered block stands for the read that decodes it (log 19). -/
inductive Glitch where
  /-- the next read of the 32-byte sector that holds `addr` finds an upset -/
  | sector (addr : Nat) (found : Upset)
  /-- the residue of the next block on row `row` of array `arr` of cluster `cl` mismatches `times` times -/
  | residue (cl arr row times : Nat)
  /-- an upset in the storage of entry `index` of a queue of a crew -/
  | entry (crew q index : Nat) (found : Upset)
  /-- an upset in the 64-bit scratchpad word that holds `addr` -/
  | word (crew addr : Nat) (found : Upset)
  /-- an SRAM bank of a cluster has a lasting fault -/
  | bank (cl bank : Nat)
  /-- an upset in a register, or in what a thread's data cache holds -/
  | register (own : Owner) (found : Upset)
  /-- an upset in a plane, accumulator or tile status word of a Stroke array -/
  | stroke (crew arr : Nat) (found : Upset)
  /-- an upset in a crew's save state in transit, or in its frame -/
  | save (crew : Nat) (found : Upset)
  /-- a parity error in a token or an element's configuration of a section -/
  | token (crew sec : Nat)
  /-- a parity error in an instruction cache or a TLB -/
  | parity
  /-- an upset in a word of a cox data cache that an access of a thread to `va` reads -/
  | cache (thread va : Nat) (found : Upset)
  /-- an upset in the entry `index` of Chervil's cache: its byte `offset` changes to `value` -/
  | sealed (index offset value : Nat)
  /-- the sensors read a power in W and temperatures (R499) -/
  | sensors (power : Nat) (temps : List Nat)
  /-- an upset in a block waiting in the pairing buffer, or in a packet in the decode buffer -/
  | pairing (shid entry : Nat) (found : Upset)
  | decoding (shid index : Nat) (found : Upset)
  /-- a data lane of an HBM4E pseudo-channel has a lasting fault -/
  | channel (chan : Nat)
  deriving DecidableEq, Repr, Inhabited

/-- One turn: which unit moves next, or which event occurs. -/
inductive Turn where
  | run (u : UnitId)
  | event (i : Instr)
  | upset (f : Glitch)
  deriving DecidableEq, Repr, Inhabited

end Sys2Proof
end

