-- ==== Sys2Proof/WellFormed.lean ====
section
/-! DEFINITION. Which field values are instructions (R4, R165, R168-R173, R178-R184, R248, R249, R272, R324, R398).
A lane that fails raises the illegal-instruction exception, an engine lane the version fault (R184). -/

namespace Sys2Proof

/-- Fields in range; guard 0 is never inverted (R165). -/
def RFmt.ranged (o : RFmt) : Bool :=
  o.d < 32 && o.a < 32 && o.b < 32 && o.ng < 2 && o.fn < 16 && o.g < 8 && o.ta < 2 && o.tb < 2 && (o.g != 0 || o.ng == 0)

/-- A predicate destination from k1 to k7. -/
def RFmt.predDest (o : RFmt) : Bool := 1 ≤ o.d && o.d ≤ 7

/-- No register field in use. -/
def RFmt.noRegs (o : RFmt) : Bool := o.d == 0 && o.a == 0 && o.b == 0 && o.ta == 0 && o.tb == 0

def IFmt.ranged (o : IFmt) : Bool := o.d < 32 && o.a < 32 && o.imm < 16384 && o.ta < 2
def ICFmt.ranged (o : ICFmt) : Bool := o.kd < 8 && o.cond < 16 && o.a < 32 && o.imm < 4096 && o.ta < 2
def UFmt.ranged (o : UFmt) : Bool := o.d < 32 && o.hw < 4 && o.rsv < 2 && o.imm < 65536
def BFmt.ranged (o : BFmt) : Bool := o.g < 8 && o.n < 2 && o.lane < 8 && o.disp < 262144
def MemFmt.ranged (o : MemFmt) : Bool :=
  o.d < 32 && o.a < 32 && o.sz < 4 && o.sx < 2 && o.off < 1024 && o.td < 2 && o.ta < 2

/-- Fields in range, reserved bits zero, guard 0 not inverted. -/
def QFmt.ranged (o : QFmt) : Bool :=
  o.reg < 32 && o.q < 64 && o.h < 2 && o.t < 2 && o.rsv == 0 && o.ng < 2 && o.mf < 2 && o.kp < 8 && o.g < 8 && o.tr < 2 &&
  o.rsv0 == 0 && (o.g != 0 || o.ng == 0)

/-- The mark-reading form writes three predicates from kp, 1 to 5; otherwise kp is zero (R224). -/
def QFmt.marksOk (o : QFmt) : Bool := if o.mf = 0 then o.kp == 0 else 1 ≤ o.kp && o.kp ≤ 5

def PFmt.ranged (o : PFmt) : Bool := o.l < 4 && o.a < 32 && o.ta < 2 && o.elane < 8 && o.len < 16384
def PQFmt.ranged (o : PQFmt) : Bool := o.l < 4 && o.q < 64 && o.elane < 8 && o.len < 16384

/-- Classes of an 11-bit V operand field (R168). -/
inductive VClass where
  | none
  | matrix
  | mask
  | thr
  | scalar
  | queue
  deriving DecidableEq, Repr

/-- A value of a V operand field is legal in its class. -/
def VClass.ok : VClass → Nat → Bool
  | .none, x => x == 0
  | .matrix, x => x < 2048
  | .mask, x => x < 1024 && x % 128 == 0
  | .thr, x => x < 2048 && x % 128 == 0
  | .scalar, x => x < 32
  | .queue, x => x < 64

/-- The c field: an immediate up to its limit, or an index override of a matrix operand whose own index is zero (R170). -/
def VFmt.cOk (o : VFmt) (cd ca cb : VClass) : Option Nat → Bool
  | some limit => o.c ≤ limit
  | none =>
    match o.c / 256 with
    | 0 => o.c == 0
    | ck =>
      o.c / 32 % 8 == 0 &&
        (if ck = 1 then cd == .matrix && o.d % 32 == 0
         else if ck = 2 then ca == .matrix && o.a % 32 == 0
         else cb == .matrix && o.b % 32 == 0)

def VFmt.classes (o : VFmt) (cd ca cb : VClass) (limit : Option Nat) : Bool :=
  cd.ok o.d && ca.ok o.a && cb.ok o.b && o.cOk cd ca cb limit

def VFmt.ranged (o : VFmt) : Bool := o.tok < 16 && o.mg < 8 && o.rm < 8 && o.fmt < 16 && o.c < 1024

/-- Element width of a V format code (R244). -/
def vWidth (fmt : Nat) : Nat :=
  if fmt = 0 ∨ fmt = 7 ∨ fmt = 8 then 32 else if fmt = 1 ∨ fmt = 2 ∨ fmt = 5 ∨ fmt = 6 then 16 else 8

/-- Number of elements of a vector (R244). -/
def VFmt.count (o : VFmt) : Nat := 1024 / vWidth o.fmt

/-- rm of an instruction that rounds: a rounding code, or wrap and saturate for an integer format (R248). -/
def VFmt.roundOk (o : VFmt) : Bool := if o.fmt ≤ 2 then o.rm ≤ 5 else o.rm ≤ 1

/-- VCVT: source format, part number, destination of `nf`, and rm (R248, R253). -/
def VFmt.cvtOk (o : VFmt) : Bool :=
  let src := o.c % 16
  let p := o.c / 16
  let nS := 1024 / vWidth src
  let nD := 1024 / vWidth o.fmt
  src ≤ 9 && p < max nS nD / min nS nD && (src != 9 || o.fmt ≤ 2) &&
  (if src ≤ 2 ∨ src = 9 ∨ o.fmt ≤ 2 then o.rm ≤ 5 else o.rm ≤ 1)

def StrokeFmt.ranged (o : StrokeFmt) : Bool :=
  o.tok < 16 && o.arr < 2 && o.x < 8 && o.q < 64 && o.f < 16 && o.p < 8 && o.h < 16
def LWFmt.ranged (o : LWFmt) : Bool := o.tok < 16 && o.s < 32 && o.q < 64 && o.d < 16 && o.b < 64
def LaneFmt.ranged (o : LaneFmt) : Bool :=
  o.a < 32 && o.b < 32 && o.d < 32 && o.ver < 8 && o.fn < 16 && o.rsv < 2 && o.ta < 2 && o.tb < 2

/-- Inline version 0 and the reserved bit zero (R173). -/
def LaneFmt.base (o : LaneFmt) : Bool := o.ver == 0 && o.rsv == 0

/-- A shuffle header flit whose fields are in range (R398). -/
def Packet.wf (p : Packet) : Bool :=
  let n := p.comps.length
  let big := p.comps.foldl (fun m c => max m c.len) 0
  let control : Bool := match p.comps with
    | [c] => c.shid < 65536 && c.len == 0 && c.src == 0 && c.blk == 0
    | _ => false
  let named := p.comps.all fun c => c.shid < 65536 && 1 ≤ c.len && c.len ≤ 4096 && c.src < 2 ^ 20 && c.blk < 2 ^ 32
  p.sender < 2 ^ 20 && p.dmask < 2 ^ 64 &&
  (if p.pkind = 0x20 ∨ p.pkind = 0x22 then named && n == 1 && p.payload.length == big
   else if p.pkind = 0x21 then named && 2 ≤ n && n ≤ 4 && p.payload.length == big
   else if p.pkind = 0x23 then named && n == 1 && p.payload.isEmpty
   else 0x24 ≤ p.pkind && p.pkind ≤ 0x26 && control && p.payload.isEmpty)

/-- The instruction's fields are legal. -/
def Instr.wf (i : Instr) : Bool :=
  match i with
  | .add o => o.ranged && o.fn ≤ 2
  | .sub o => o.ranged && o.fn ≤ 2
  | .mul o => o.ranged && o.fn ≤ 2
  | .mulh o => o.ranged && o.fn == 0
  | .mulhn o => o.ranged && o.fn == 0
  | .div o => o.ranged && o.fn == 0
  | .divn o => o.ranged && o.fn == 0
  | .rem o => o.ranged && o.fn == 0
  | .remn o => o.ranged && o.fn == 0
  | .neg o => o.ranged && o.fn ≤ 2 && o.b == 0 && o.tb == 0
  | .abs o => o.ranged && o.fn ≤ 2 && o.b == 0 && o.tb == 0
  | .min o => o.ranged && o.fn == 0
  | .max o => o.ranged && o.fn == 0
  | .minn o => o.ranged && o.fn == 0
  | .maxn o => o.ranged && o.fn == 0
  | .and o => o.ranged && o.fn == 0
  | .or o => o.ranged && o.fn == 0
  | .xor o => o.ranged && o.fn == 0
  | .andn o => o.ranged && o.fn == 0
  | .shl o => o.ranged && o.fn == 0
  | .shr o => o.ranged && o.fn == 0
  | .sar o => o.ranged && o.fn == 0
  | .rotl o => o.ranged && o.fn == 0
  | .clz o => o.ranged && o.fn == 0 && o.b == 0 && o.tb == 0
  | .ctz o => o.ranged && o.fn == 0 && o.b == 0 && o.tb == 0
  | .popc o => o.ranged && o.fn == 0 && o.b == 0 && o.tb == 0
  | .bswap o => o.ranged && o.fn == 0 && o.b == 0 && o.tb == 0
  | .ext o => o.ranged && o.fn == 0
  | .ins o => o.ranged && o.fn == 0
  | .mort o => o.ranged && o.fn == 0
  | .demort o => o.ranged && o.fn == 0
  | .addi o => o.ranged
  | .andi o => o.ranged
  | .ori o => o.ranged
  | .xori o => o.ranged
  | .shli o => o.ranged && o.imm ≤ 63
  | .shri o => o.ranged && o.imm ≤ 63
  | .sari o => o.ranged && o.imm ≤ 63
  | .cmpi o => o.ranged && 1 ≤ o.kd && o.cond ≤ 9
  | .limm o => o.ranged && o.rsv == 0
  | .limmK o => o.ranged && o.rsv == 0
  | .mov o => o.ranged && o.fn == 0 && o.b == 0 && o.tb == 0
  | .sel o => o.ranged && o.fn ≤ 7
  | .cmp o => o.ranged && o.predDest && o.fn ≤ 9
  | .pand o => o.ranged && o.predDest && o.a ≤ 7 && o.b ≤ 7 && o.fn == 0 && o.ta == 0 && o.tb == 0
  | .por o => o.ranged && o.predDest && o.a ≤ 7 && o.b ≤ 7 && o.fn == 0 && o.ta == 0 && o.tb == 0
  | .pxor o => o.ranged && o.predDest && o.a ≤ 7 && o.b ≤ 7 && o.fn == 0 && o.ta == 0 && o.tb == 0
  | .pnot o => o.ranged && o.predDest && o.a ≤ 7 && o.b == 0 && o.fn == 0 && o.ta == 0 && o.tb == 0
  | .br o => o.ranged && o.g == 0 && o.n == 0 && 1 ≤ o.lane
  | .bc o => o.ranged && (o.g != 0 || o.n == 0) && 1 ≤ o.lane
  | .call o => o.ranged && o.g == 0 && o.n == 0 && 1 ≤ o.lane
  | .jr o => o.ranged && o.d == 0 && o.b == 0 && o.fn == 0 && o.tb == 0
  | .callr o => o.ranged && o.d == 0 && o.b == 0 && o.fn == 0 && o.tb == 0
  | .ret o => o.ranged && o.d == 0 && o.b == 0 && o.fn == 0 && o.tb == 0
  | .waitc o => o.ranged && o.d == 0 && o.fn ≤ 6
  | .nop o => o.ranged && o.noRegs && o.fn == 0
  | .qpush o => o.ranged && o.h == 0 && o.t == 0 && o.mf == 0 && o.kp == 0
  | .qpushm o => o.ranged && (o.h == 1 || o.t == 1) && o.mf == 0 && o.kp == 0
  | .qpop o => o.ranged && o.h == 0 && o.t == 0 && o.marksOk && o.tr == 0
  | .ld o => o.ranged && o.td == 0 && (o.sz != 3 || o.sx == 0)
  | .st o => o.ranged && o.sx == 0
  | .ldx o => o.ranged && o.fn % 2 == 0 && (o.fn / 4 != 3 || o.fn == 12)
  | .stx o => o.ranged && o.fn % 4 == 0
  | .pref o => o.ranged && o.d == 0 && o.sx == 0 && o.td == 0
  | .pin o => o.ranged && o.fn == 0 && o.b == 0 && o.tb == 0
  | .unpin o => o.ranged && o.d == 0 && o.b == 0 && o.fn == 0 && o.tb == 0
  | .phase o => o.ranged && o.noRegs && o.fn ≤ 6
  | .madr o => o.ranged
  | .tadr o => o.ranged && o.fn == 0
  | .qpeek o => o.ranged && o.h == 0 && o.t == 0 && o.marksOk && o.tr == 0
  | .qskip o => o.ranged && o.h == 0 && o.t == 0 && o.mf == 0 && o.kp == 0 && o.tr == 0 && o.reg == 0
  | .qstat o => o.ranged && o.h == 0 && o.t == 0 && o.mf == 0 && o.kp == 0 && o.tr == 0
  | .yield o => o.ranged && o.noRegs && o.fn == 0
  | .loop o => o.ranged && 1 ≤ o.elane
  | .loopq o => o.ranged && 1 ≤ o.elane
  | .tsrd o => o.ranged && o.a == 0 && o.ta == 0 && o.imm < 512
  | .hrd o => o.ranged && o.d ≤ 15 && o.imm % 4 == 0
  | .hwr o => o.ranged && o.d ≤ 15 && o.b == 0 && o.fn == 0 && o.tb == 0
  | .fcfg o => o.ranged && o.d == 0 && o.fn == 0
  | .farm o => o.ranged && o.d == 0 && o.fn == 0
  | .fwait o => o.ranged && o.d == 0 && o.b == 0 && o.fn == 0 && o.tb == 0
  | .fcommit o => o.ranged && o.d == 0 && o.b == 0 && o.fn == 0 && o.tb == 0
  | .stop o => o.ranged && o.noRegs && o.fn == 0
  | .ctlr o => o.ranged && o.a == 0 && o.ta == 0
  | .ctlw o => o.ranged && o.d == 0
  | .featq o => o.ranged && o.a == 0 && o.ta == 0
  | .bkpt o => o.ranged && o.d == 0 && o.a == 0 && o.ta == 0
  | .sysc o => o.ranged && o.d == 0 && o.a == 0 && o.ta == 0
  | .eret o => o.ranged && o.noRegs && o.fn == 0 && o.g == 0
  | .tlbi o => o.ranged && o.d == 0 && o.fn ≤ 2
  | .ifence o => o.ranged && o.noRegs && o.fn == 0 && o.g == 0
  | .halt o => o.ranged && o.noRegs && o.fn == 0 && o.g == 0
  | .qclose o => o.ranged && o.h == 0 && o.t == 0 && o.mf == 0 && o.kp == 0
  | .vadd o => o.ranged && o.classes .matrix .matrix .matrix none && o.fmt ≤ 8 && o.roundOk
  | .vsub o => o.ranged && o.classes .matrix .matrix .matrix none && o.fmt ≤ 8 && o.roundOk
  | .vmul o => o.ranged && o.classes .matrix .matrix .matrix none && o.fmt ≤ 8 && o.roundOk
  | .vfma o => o.ranged && o.classes .matrix .matrix .matrix none && o.fmt ≤ 2 && o.rm ≤ 5
  | .vfms o => o.ranged && o.classes .matrix .matrix .matrix none && o.fmt ≤ 2 && o.rm ≤ 5
  | .vfnma o => o.ranged && o.classes .matrix .matrix .matrix none && o.fmt ≤ 2 && o.rm ≤ 5
  | .vmin o => o.ranged && o.classes .matrix .matrix .matrix none && o.fmt ≤ 8 && o.rm == 0
  | .vmax o => o.ranged && o.classes .matrix .matrix .matrix none && o.fmt ≤ 8 && o.rm == 0
  | .vabs o => o.ranged && o.classes .matrix .matrix .none none && (o.fmt ≤ 3 || o.fmt == 5 || o.fmt == 7) && o.rm == 0
  | .vneg o => o.ranged && o.classes .matrix .matrix .none none && (o.fmt ≤ 3 || o.fmt == 5 || o.fmt == 7) && o.rm == 0
  | .vcps o => o.ranged && o.classes .matrix .matrix .matrix none && o.fmt ≤ 2 && o.rm == 0
  | .vclass o => o.ranged && o.classes .matrix .matrix .none none && o.fmt ≤ 2 && o.rm == 0
  | .vrcpe o => o.ranged && o.classes .matrix .matrix .none none && o.fmt == 0 && o.rm == 0
  | .vrsqe o => o.ranged && o.classes .matrix .matrix .none none && o.fmt == 0 && o.rm == 0
  | .vexp2 o => o.ranged && o.classes .matrix .matrix .none none && o.fmt ≤ 2 && o.rm ≤ 5
  | .vlog2 o => o.ranged && o.classes .matrix .matrix .none none && o.fmt ≤ 2 && o.rm ≤ 5
  | .vcvt o => o.ranged && o.classes .matrix .matrix .none (some 63) && o.fmt ≤ 8 && o.cvtOk
  | .vqnt o => o.ranged && o.classes .matrix .matrix .matrix none && o.fmt == 9 && o.rm ≤ 5 && o.mg == 0
  | .vdqnt o => o.ranged && o.classes .matrix .matrix .matrix none && o.fmt == 9 && o.rm ≤ 5 && o.mg == 0
  | .vcmp o => o.ranged && o.classes .mask .matrix .matrix (some 5) && o.fmt ≤ 8 && o.rm == 0
  | .vsel o => o.ranged && o.classes .matrix .matrix .matrix (some 7) && o.fmt ≤ 8 && o.rm == 0
  | .vmand o => o.ranged && o.classes .mask .mask .mask none && o.fmt == 0 && o.rm == 0 && o.mg == 0
  | .vmor o => o.ranged && o.classes .mask .mask .mask none && o.fmt == 0 && o.rm == 0 && o.mg == 0
  | .vmnot o => o.ranged && o.classes .mask .mask .none none && o.fmt == 0 && o.rm == 0 && o.mg == 0
  | .vand o => o.ranged && o.classes .matrix .matrix .matrix none && o.fmt ≤ 8 && o.rm == 0
  | .vor o => o.ranged && o.classes .matrix .matrix .matrix none && o.fmt ≤ 8 && o.rm == 0
  | .vxor o => o.ranged && o.classes .matrix .matrix .matrix none && o.fmt ≤ 8 && o.rm == 0
  | .vshl o => o.ranged && o.classes .matrix .matrix .none (some 31) && 3 ≤ o.fmt && o.fmt ≤ 8 && o.rm == 0
  | .vshr o => o.ranged && o.classes .matrix .matrix .none (some 31) && 3 ≤ o.fmt && o.fmt ≤ 8 && o.rm == 0
  | .vsar o => o.ranged && o.classes .matrix .matrix .none (some 31) && 3 ≤ o.fmt && o.fmt ≤ 8 && o.rm == 0
  | .vpopc o => o.ranged && o.classes .matrix .matrix .none none && 3 ≤ o.fmt && o.fmt ≤ 8 && o.rm == 0
  | .vclz o => o.ranged && o.classes .matrix .matrix .none none && 3 ≤ o.fmt && o.fmt ≤ 8 && o.rm == 0
  | .vscan o => o.ranged && o.classes .matrix .matrix .none (some 2) && o.fmt ≤ 8 && o.roundOk
  | .vred o => o.ranged && o.classes .matrix .matrix .none (some 2) && o.fmt ≤ 8 && o.roundOk
  | .vdot o => o.ranged && o.classes .matrix .matrix .matrix none && o.fmt ≤ 6 && o.roundOk
  | .vminx o => o.ranged && o.classes .matrix .matrix .none none && o.fmt ≤ 8 && o.rm == 0
  | .vmaxx o => o.ranged && o.classes .matrix .matrix .none none && o.fmt ≤ 8 && o.rm == 0
  | .vmov o => o.ranged && o.classes .matrix .matrix .none none && o.fmt ≤ 8 && o.rm == 0
  | .vbcast o => o.ranged && o.classes .matrix .scalar .none none && o.fmt ≤ 8 && o.rm == 0
  | .vget o => o.ranged && o.classes .scalar .matrix .none (some (o.count - 1)) && o.fmt ≤ 8 && o.rm == 0 && o.mg == 0
  | .vset o => o.ranged && o.classes .matrix .scalar .none (some (o.count - 1)) && o.fmt ≤ 8 && o.rm == 0 && o.mg == 0
  | .vpop o => o.ranged && o.classes .matrix .queue .none none && o.fmt == 0 && o.rm == 0 && o.mg == 0
  | .vpush o => o.ranged && o.classes .queue .matrix .none (some 3) && o.fmt == 0 && o.rm == 0 && o.mg == 0
  | .vperm o => o.ranged && o.classes .matrix .matrix .matrix none && o.fmt ≤ 8 && o.rm == 0
  | .vtopk o => o.ranged && o.classes .matrix .matrix .matrix (some 127) && o.fmt == 0 && 1 ≤ o.c && o.rm == 0
  | .vcmpv o => o.ranged && o.classes .mask .matrix .thr (some 5) && o.fmt == 0 && o.rm == 0
  | .vselv o => o.ranged && o.classes .matrix .matrix .matrix none && o.fmt == 0 && o.rm == 0
  | .mlds o => o.ranged && o.x == 0 && o.f ≤ 11 && o.p == 0 && o.h == 0
  | .mldsp o => o.ranged && o.x == 0 && o.f ≤ 11 && o.p == 0 && o.h == 0
  | .mswap o => o.ranged && o.x == 0 && o.q == 0 && o.f == 0 && o.p == 0 && o.h == 0
  | .mrun o => o.ranged && o.f ≤ 11 && o.p == 0 && o.h == 0
  | .mver o => o.ranged && o.f == 9 && o.p ≤ 3 && (o.p != 0 || o.h == 0)
  | .mzero o => o.ranged && o.q == 0 && o.f == 0 && o.p == 0 && o.h == 0
  | .mdrain o => o.ranged && o.f ≤ 11 && o.p ≤ 5 && o.h ≤ 1
  | .mdrainv o => o.ranged && o.f == 0 && o.p == 0 && o.h ≤ 1
  | .mmask o => o.ranged && o.x == 0 && o.f == 0 && o.p == 0 && o.h == 0
  | .mbnd o => o.ranged && o.x == 0 && o.f == 0 && o.p == 0 && o.h == 0
  | .mwait o => o.ranged && o.q == 0 && o.f == 0 && o.p == 0 && o.h == 0
  | .mstat o => o.ranged && o.f == 0 && o.p == 0 && o.h == 0
  | .agdef o => o.ranged && o.q == 0 && o.b == 0
  | .agrun o => o.ranged && o.s == 0 && o.b == 0
  | .agput o => o.ranged && o.d == 0 && o.b ≤ 3
  | .agidx o => o.ranged && o.s == 0 && o.b == 0
  | .agbank o => o.ranged && o.q == 0 && o.d == 0 && o.b ≤ 9
  | .agtake o => o.ranged && o.s == 0 && o.q == 0 && o.d == 0 && o.b ≤ 9
  | .agmark o => o.ranged && o.s == 0 && o.d == 0 && 1 ≤ o.b && o.b ≤ 3
  | .copy o => o.ranged && o.base && o.b == 0 && o.d == 0 && o.fn == 0 && o.tb == 0
  | .copy2 o => o.ranged && o.base && o.b == 0 && o.d == 0 && o.fn == 0 && o.tb == 0
  | .fill o => o.ranged && o.base && o.b == 0 && o.d == 0 && o.fn == 0 && o.tb == 0
  | .csig o => o.ranged && o.base && o.d == 0 && o.fn ≤ 6
  | .strmq o => o.ranged && o.base && o.b == 0 && o.d == 0 && o.fn == 0 && o.tb == 0
  | .drainq o => o.ranged && o.base && o.b == 0 && o.d == 0 && o.fn == 0 && o.tb == 0
  | .shuf o => o.ranged && o.base && o.b == 0 && o.d == 0 && o.fn == 0 && o.tb == 0
  | .launch o => o.ranged && o.base && o.b == 0 && o.d == 0 && o.fn == 0 && o.tb == 0
  | .cefence o => o.ranged && o.base && o.a == 0 && o.b == 0 && o.d == 0 && o.fn == 0 && o.ta == 0 && o.tb == 0
  | .prefl2 o => o.ranged && o.base && o.d == 0 && o.fn == 0
  | .accwAdd o => o.ranged && o.base && o.fn ≤ 13
  | .accwMin o => o.ranged && o.base && o.fn ≤ 13
  | .accwMinn o => o.ranged && o.base && o.fn ≤ 13
  | .accwMax o => o.ranged && o.base && o.fn ≤ 13
  | .accwMaxn o => o.ranged && o.base && o.fn ≤ 13
  | .accwAnd o => o.ranged && o.base && o.fn ≤ 13
  | .accwOr o => o.ranged && o.base && o.fn ≤ 13
  | .accwXor o => o.ranged && o.base && o.fn ≤ 13
  | .accwXchg o => o.ranged && o.base && o.fn ≤ 13
  | .accwCas o => o.ranged && o.base && o.fn ≤ 13
  | .accwFaddF32 o => o.ranged && o.base && o.fn ≤ 12 && o.fn % 2 == 0
  | .accwFaddBf16 o => o.ranged && o.base && o.fn ≤ 12 && o.fn % 2 == 0
  | .accwFmax o => o.ranged && o.base && o.fn ≤ 12 && o.fn % 2 == 0
  | .gath o => o.ranged && o.base && o.b == 0 && o.d == 0 && o.fn == 0 && o.tb == 0
  | .scat o => o.ranged && o.base && o.b == 0 && o.d == 0 && o.fn == 0 && o.tb == 0
  | .bags o => o.ranged && o.base && o.b == 0 && o.d == 0 && o.fn == 0 && o.tb == 0
  | .isect o => o.ranged && o.base && o.b == 0 && o.d == 0 && o.fn == 0 && o.tb == 0
  | .msort o => o.ranged && o.base && o.b == 0 && o.d == 0 && o.fn == 0 && o.tb == 0
  | .spsrch o => o.ranged && o.base && o.b == 0 && o.d == 0 && o.fn == 0 && o.tb == 0
  | .ixfence o => o.ranged && o.base && o.a == 0 && o.b == 0 && o.d == 0 && o.fn == 0 && o.ta == 0 && o.tb == 0
  | .elementSrc _ sec el => decide (sec < 64) && decide (el < 4096)
  | .elementSnk _ sec el => decide (sec < 64) && decide (el < 4096)
  | .elementAgen _ sec el => decide (sec < 64) && decide (el < 4096)
  | .elementAdd _ sec el => decide (sec < 64) && decide (el < 4096)
  | .elementSub _ sec el => decide (sec < 64) && decide (el < 4096)
  | .elementMul _ sec el => decide (sec < 64) && decide (el < 4096)
  | .elementMac _ sec el => decide (sec < 64) && decide (el < 4096)
  | .elementMin _ sec el => decide (sec < 64) && decide (el < 4096)
  | .elementMax _ sec el => decide (sec < 64) && decide (el < 4096)
  | .elementAnd _ sec el => decide (sec < 64) && decide (el < 4096)
  | .elementOr _ sec el => decide (sec < 64) && decide (el < 4096)
  | .elementXor _ sec el => decide (sec < 64) && decide (el < 4096)
  | .elementShl _ sec el => decide (sec < 64) && decide (el < 4096)
  | .elementShr _ sec el => decide (sec < 64) && decide (el < 4096)
  | .elementSar _ sec el => decide (sec < 64) && decide (el < 4096)
  | .elementCmp _ sec el => decide (sec < 64) && decide (el < 4096)
  | .elementSel _ sec el => decide (sec < 64) && decide (el < 4096)
  | .elementCvt _ sec el => decide (sec < 64) && decide (el < 4096)
  | .elementSteer _ sec el => decide (sec < 64) && decide (el < 4096)
  | .elementMerge _ sec el => decide (sec < 64) && decide (el < 4096)
  | .elementCarry _ sec el => decide (sec < 64) && decide (el < 4096)
  | .elementJoin _ sec el => decide (sec < 64) && decide (el < 4096)
  | .elementFork _ sec el => decide (sec < 64) && decide (el < 4096)
  | .elementWiden _ sec el => decide (sec < 64) && decide (el < 4096)
  | .elementRed _ sec el => decide (sec < 64) && decide (el < 4096)
  | .elementAcc _ sec el => decide (sec < 64) && decide (el < 4096)
  | .elementCnt _ sec el => decide (sec < 64) && decide (el < 4096)
  | .elementConst _ sec el => decide (sec < 64) && decide (el < 4096)
  | .elementPass _ sec el => decide (sec < 64) && decide (el < 4096)
  | .elementDelay _ sec el => decide (sec < 64) && decide (el < 4096)
  | .elementCommit _ sec el => decide (sec < 64) && decide (el < 4096)
  | .markerForward _ sec el => decide (sec < 64) && decide (el < 4096)
  | .alignmentAbort .. => true
  | .configurationLoad .. => true
  | .skipToken .. => true
  | .clusterExceptionDelivery .. => true
  | .loadDataArrival .. => true
  | .pinHandleArrival .. => true
  | .hrdMerge .. => true
  | .waitcWake .. => true
  | .unpinRelease .. => true
  | .tlbiWake .. => true
  | .epochApply .. => true
  | .portRequestReplay .. => true
  | .startClusterHalf .. => true
  | .startCoxThread .. => true
  | .crewDispatch .. => true
  | .crewComplete .. => true
  | .completionReport .. => true
  | .quantumExpiry .. => true
  | .ageing .. => true
  | .preemption .. => true
  | .saveComplete .. => true
  | .watchdogExpiry .. => true
  | .ctxCreate .. => true
  | .ctxTear .. => true
  | .crewCmdResume .. => true
  | .crewCmdEnd .. => true
  | .crewCmdSuspend .. => true
  | .qcfgWrite .. => true
  | .qstatWrite .. => true
  | .launchPortWrite .. => true
  | .launchAccept .. => true
  | .launchComplete .. => true
  | .gangArm .. => true
  | .gangAcknowledge .. => true
  | .gangArmTimeout .. => true
  | .gangCommit .. => true
  | .gangAbort .. => true
  | .ready pkt => pkt.pkind == 0x24 && pkt.wf
  | .solo pkt => pkt.pkind == 0x20 && pkt.wf
  | .coded pkt => pkt.pkind == 0x21 && pkt.wf
  | .repe pkt => pkt.pkind == 0x22 && pkt.wf
  | .rreq pkt => pkt.pkind == 0x23 && pkt.wf
  | .close pkt => pkt.pkind == 0x25 && pkt.wf
  | .quit pkt => pkt.pkind == 0x26 && pkt.wf
  | .pairingDeadline .. => true
  | .flitRetransmit port _ => decide (port < 24)
  | .laneWithdrawal port => decide (port < 24)
  | .packageDeclaredFailed .. => true
  | .failureNotification .. => true
  | .scrubRead .. => true
  | .hostRead .. => true
  | .hostWrite .. => true
  | .mailboxAssignUnits .. => true
  | .mailboxAssignTenant .. => true
  | .mailboxRegisterKey _ slot _ => decide (slot < 8)
  | .mailboxSetCacheQuota .. => true
  | .mailboxSetPowerLimit .. => true
  | .mailboxReadErrorCounters => true
  | .mailboxUpdateFirmware .. => true
  | .mailboxAttestation .. => true
  | .resetRelease failed => decide (failed ≤ 6)
  | .thermalWarning => true
  | .thermalTrip => true
  | .arithmeticClockRecovery => true

/-- Instructions only the A stream has (R178). -/
def Instr.aOnly : Instr → Bool
  | .ld _ | .st _ | .ldx _ | .stx _ | .pref _ | .pin _ | .unpin _ | .phase _ | .madr _ | .tadr _ | .qpeek _ | .qskip _
  | .qstat _ | .yield _ | .sysc _ | .eret _ | .tlbi _ | .ifence _ | .halt _ | .qclose _ => true
  | _ => false

/-- Instructions only the S stream has (R178). -/
def Instr.sOnly : Instr → Bool
  | .loop _ | .loopq _ | .tsrd _ | .hrd _ | .hwr _ | .fcfg _ | .farm _ | .fwait _ | .fcommit _ | .stop _ => true
  | _ => false

/-- The instruction only L has of those L and W share (R181). -/
def Instr.lOnly : Instr → Bool
  | .agidx _ => true
  | _ => false

end Sys2Proof
end

