-- ==== Sys2Proof/Decode.lean ====
section
/-! DEFINITION. Code lines, the decoder of every stream, and the encoder (R158-R184). -/

namespace Sys2Proof

/-! ### Formats of the lanes -/

def rOf (w : Nat) : RFmt :=
  { d := bits w 24 20, a := bits w 19 15, b := bits w 14 10, ng := bits w 9 9, fn := bits w 8 5, g := bits w 4 2,
    ta := bits w 1 1, tb := bits w 0 0 }
def iOf (w : Nat) : IFmt := { d := bits w 24 20, a := bits w 19 15, imm := bits w 14 1, ta := bits w 0 0 }
def icOf (w : Nat) : ICFmt :=
  { kd := bits w 24 22, cond := bits w 21 18, a := bits w 17 13, imm := bits w 12 1, ta := bits w 0 0 }
def uOf (w : Nat) : UFmt := { d := bits w 24 20, hw := bits w 19 18, rsv := bits w 16 16, imm := bits w 15 0 }
def bOf (w : Nat) : BFmt := { g := bits w 24 22, n := bits w 21 21, lane := bits w 20 18, disp := bits w 17 0 }
def memOf (w : Nat) : MemFmt :=
  { d := bits w 24 20, a := bits w 19 15, sz := bits w 14 13, sx := bits w 12 12, off := bits w 11 2, td := bits w 1 1,
    ta := bits w 0 0 }
def qOf (w : Nat) : QFmt :=
  { reg := bits w 24 20, q := bits w 19 14, h := bits w 13 13, t := bits w 12 12, rsv := bits w 11 10, ng := bits w 9 9,
    mf := bits w 8 8, kp := bits w 7 5, g := bits w 4 2, tr := bits w 1 1, rsv0 := bits w 0 0 }
def pOf (w : Nat) : PFmt :=
  { l := bits w 24 23, a := bits w 22 18, ta := bits w 17 17, elane := bits w 16 14, len := bits w 13 0 }
def pqOf (w : Nat) : PQFmt := { l := bits w 24 23, q := bits w 22 17, elane := bits w 16 14, len := bits w 13 0 }
def vOf (w w1 : Nat) : VFmt :=
  { tok := bits w 24 21, d := bits w 20 10, mg := bits w 9 7, rm := bits w 6 4, fmt := bits w 3 0, a := bits w1 31 21,
    b := bits w1 20 10, c := bits w1 9 0 }
def strokeOf (w : Nat) : StrokeFmt :=
  { tok := bits w 24 21, arr := bits w 20 20, x := bits w 19 17, q := bits w 16 11, f := bits w 10 7, p := bits w 6 4,
    h := bits w 3 0 }
def lwOf (w : Nat) : LWFmt :=
  { tok := bits w 24 21, s := bits w 20 16, q := bits w 15 10, d := bits w 9 6, b := bits w 5 0 }
def laneOf (w : Nat) : LaneFmt :=
  { a := bits w 24 20, b := bits w 19 15, d := bits w 14 10, ver := bits w 9 7, fn := bits w 6 3, rsv := bits w 2 2,
    ta := bits w 1 1, tb := bits w 0 0 }

def RFmt.word (o : RFmt) : Nat :=
  o.d * 2 ^ 20 + o.a * 2 ^ 15 + o.b * 2 ^ 10 + o.ng * 2 ^ 9 + o.fn * 2 ^ 5 + o.g * 2 ^ 2 + o.ta * 2 + o.tb
def IFmt.word (o : IFmt) : Nat := o.d * 2 ^ 20 + o.a * 2 ^ 15 + o.imm * 2 + o.ta
def ICFmt.word (o : ICFmt) : Nat := o.kd * 2 ^ 22 + o.cond * 2 ^ 18 + o.a * 2 ^ 13 + o.imm * 2 + o.ta
def UFmt.word (o : UFmt) : Nat := o.d * 2 ^ 20 + o.hw * 2 ^ 18 + o.rsv * 2 ^ 16 + o.imm
def BFmt.word (o : BFmt) : Nat := o.g * 2 ^ 22 + o.n * 2 ^ 21 + o.lane * 2 ^ 18 + o.disp
def MemFmt.word (o : MemFmt) : Nat :=
  o.d * 2 ^ 20 + o.a * 2 ^ 15 + o.sz * 2 ^ 13 + o.sx * 2 ^ 12 + o.off * 2 ^ 2 + o.td * 2 + o.ta
def QFmt.word (o : QFmt) : Nat :=
  o.reg * 2 ^ 20 + o.q * 2 ^ 14 + o.h * 2 ^ 13 + o.t * 2 ^ 12 + o.rsv * 2 ^ 10 + o.ng * 2 ^ 9 + o.mf * 2 ^ 8 +
  o.kp * 2 ^ 5 + o.g * 2 ^ 2 + o.tr * 2 + o.rsv0
def PFmt.word (o : PFmt) : Nat := o.l * 2 ^ 23 + o.a * 2 ^ 18 + o.ta * 2 ^ 17 + o.elane * 2 ^ 14 + o.len
def PQFmt.word (o : PQFmt) : Nat := o.l * 2 ^ 23 + o.q * 2 ^ 17 + o.elane * 2 ^ 14 + o.len
def VFmt.word0 (o : VFmt) : Nat := o.tok * 2 ^ 21 + o.d * 2 ^ 10 + o.mg * 2 ^ 7 + o.rm * 2 ^ 4 + o.fmt
def VFmt.word1 (o : VFmt) : Nat := o.a * 2 ^ 21 + o.b * 2 ^ 10 + o.c
def StrokeFmt.word (o : StrokeFmt) : Nat :=
  o.tok * 2 ^ 21 + o.arr * 2 ^ 20 + o.x * 2 ^ 17 + o.q * 2 ^ 11 + o.f * 2 ^ 7 + o.p * 2 ^ 4 + o.h
def LWFmt.word (o : LWFmt) : Nat := o.tok * 2 ^ 21 + o.s * 2 ^ 16 + o.q * 2 ^ 10 + o.d * 2 ^ 6 + o.b
def LaneFmt.word (o : LaneFmt) : Nat :=
  o.a * 2 ^ 20 + o.b * 2 ^ 15 + o.d * 2 ^ 10 + o.ver * 2 ^ 7 + o.fn * 2 ^ 3 + o.rsv * 2 ^ 2 + o.ta * 2 + o.tb

/-- The A and S opcode map (R178). -/
def scalarOp (op w : Nat) : Option Instr :=
  match op with
  | 0x00 => some (.add (rOf w))
  | 0x01 => some (.sub (rOf w))
  | 0x02 => some (.mul (rOf w))
  | 0x03 => some (.mulh (rOf w))
  | 0x04 => some (.mulhn (rOf w))
  | 0x05 => some (.div (rOf w))
  | 0x06 => some (.divn (rOf w))
  | 0x07 => some (.rem (rOf w))
  | 0x08 => some (.remn (rOf w))
  | 0x09 => some (.neg (rOf w))
  | 0x0A => some (.abs (rOf w))
  | 0x0B => some (.min (rOf w))
  | 0x0C => some (.max (rOf w))
  | 0x0D => some (.minn (rOf w))
  | 0x0E => some (.maxn (rOf w))
  | 0x10 => some (.and (rOf w))
  | 0x11 => some (.or (rOf w))
  | 0x12 => some (.xor (rOf w))
  | 0x13 => some (.andn (rOf w))
  | 0x14 => some (.shl (rOf w))
  | 0x15 => some (.shr (rOf w))
  | 0x16 => some (.sar (rOf w))
  | 0x17 => some (.rotl (rOf w))
  | 0x18 => some (.clz (rOf w))
  | 0x19 => some (.ctz (rOf w))
  | 0x1A => some (.popc (rOf w))
  | 0x1B => some (.bswap (rOf w))
  | 0x1C => some (.ext (rOf w))
  | 0x1D => some (.ins (rOf w))
  | 0x1E => some (.mort (rOf w))
  | 0x1F => some (.demort (rOf w))
  | 0x20 => some (.addi (iOf w))
  | 0x21 => some (.andi (iOf w))
  | 0x22 => some (.ori (iOf w))
  | 0x23 => some (.xori (iOf w))
  | 0x24 => some (.shli (iOf w))
  | 0x25 => some (.shri (iOf w))
  | 0x26 => some (.sari (iOf w))
  | 0x27 => some (.cmpi (icOf w))
  | 0x28 => some (if bit w 17 then .limmK (uOf w) else .limm (uOf w))
  | 0x29 => some (.mov (rOf w))
  | 0x2A => some (.sel (rOf w))
  | 0x2B => some (.cmp (rOf w))
  | 0x2C => some (.pand (rOf w))
  | 0x2D => some (.por (rOf w))
  | 0x2E => some (.pxor (rOf w))
  | 0x2F => some (.pnot (rOf w))
  | 0x30 => some (.br (bOf w))
  | 0x31 => some (.bc (bOf w))
  | 0x32 => some (.call (bOf w))
  | 0x33 => some (.jr (rOf w))
  | 0x34 => some (.callr (rOf w))
  | 0x35 => some (.ret (rOf w))
  | 0x36 => some (.waitc (rOf w))
  | 0x37 => some (.nop (rOf w))
  | 0x38 => some (.qpush (qOf w))
  | 0x39 => some (.qpushm (qOf w))
  | 0x3A => some (.qpop (qOf w))
  | 0x40 => some (.ld (memOf w))
  | 0x41 => some (.st (memOf w))
  | 0x42 => some (.ldx (rOf w))
  | 0x43 => some (.stx (rOf w))
  | 0x44 => some (.pref (memOf w))
  | 0x45 => some (.pin (rOf w))
  | 0x46 => some (.unpin (rOf w))
  | 0x47 => some (.phase (rOf w))
  | 0x48 => some (.madr (rOf w))
  | 0x49 => some (.tadr (rOf w))
  | 0x4A => some (.qpeek (qOf w))
  | 0x4B => some (.qskip (qOf w))
  | 0x4C => some (.qstat (qOf w))
  | 0x4D => some (.yield (rOf w))
  | 0x50 => some (.loop (pOf w))
  | 0x51 => some (.loopq (pqOf w))
  | 0x52 => some (.tsrd (iOf w))
  | 0x53 => some (.hrd (iOf w))
  | 0x54 => some (.hwr (rOf w))
  | 0x55 => some (.fcfg (rOf w))
  | 0x56 => some (.farm (rOf w))
  | 0x57 => some (.fwait (rOf w))
  | 0x58 => some (.fcommit (rOf w))
  | 0x59 => some (.stop (rOf w))
  | 0x60 => some (.ctlr (iOf w))
  | 0x61 => some (.ctlw (iOf w))
  | 0x62 => some (.featq (iOf w))
  | 0x63 => some (.bkpt (iOf w))
  | 0x64 => some (.sysc (iOf w))
  | 0x65 => some (.eret (rOf w))
  | 0x66 => some (.tlbi (rOf w))
  | 0x67 => some (.ifence (rOf w))
  | 0x68 => some (.halt (rOf w))
  | 0x69 => some (.qclose (qOf w))
  | _ => none

/-- The row of the A and S streams a word names. -/
def scalarOf (w : Nat) : Option Instr := scalarOp (w / 2 ^ 25 % 128) w

/-- The V opcode map (R180). -/
def vectorOp (op w w1 : Nat) : Option Instr :=
  match op with
  | 0x00 => some (.vadd (vOf w w1))
  | 0x01 => some (.vsub (vOf w w1))
  | 0x02 => some (.vmul (vOf w w1))
  | 0x03 => some (.vfma (vOf w w1))
  | 0x04 => some (.vfms (vOf w w1))
  | 0x05 => some (.vfnma (vOf w w1))
  | 0x06 => some (.vmin (vOf w w1))
  | 0x07 => some (.vmax (vOf w w1))
  | 0x08 => some (.vabs (vOf w w1))
  | 0x09 => some (.vneg (vOf w w1))
  | 0x0A => some (.vcps (vOf w w1))
  | 0x0B => some (.vclass (vOf w w1))
  | 0x0C => some (.vrcpe (vOf w w1))
  | 0x0D => some (.vrsqe (vOf w w1))
  | 0x0E => some (.vexp2 (vOf w w1))
  | 0x0F => some (.vlog2 (vOf w w1))
  | 0x10 => some (.vcvt (vOf w w1))
  | 0x11 => some (.vqnt (vOf w w1))
  | 0x12 => some (.vdqnt (vOf w w1))
  | 0x13 => some (.vcmp (vOf w w1))
  | 0x14 => some (.vsel (vOf w w1))
  | 0x15 => some (.vmand (vOf w w1))
  | 0x16 => some (.vmor (vOf w w1))
  | 0x17 => some (.vmnot (vOf w w1))
  | 0x18 => some (.vand (vOf w w1))
  | 0x19 => some (.vor (vOf w w1))
  | 0x1A => some (.vxor (vOf w w1))
  | 0x1B => some (.vshl (vOf w w1))
  | 0x1C => some (.vshr (vOf w w1))
  | 0x1D => some (.vsar (vOf w w1))
  | 0x1E => some (.vpopc (vOf w w1))
  | 0x1F => some (.vclz (vOf w w1))
  | 0x20 => some (.vscan (vOf w w1))
  | 0x21 => some (.vred (vOf w w1))
  | 0x22 => some (.vdot (vOf w w1))
  | 0x23 => some (.vminx (vOf w w1))
  | 0x24 => some (.vmaxx (vOf w w1))
  | 0x25 => some (.vmov (vOf w w1))
  | 0x26 => some (.vbcast (vOf w w1))
  | 0x27 => some (.vget (vOf w w1))
  | 0x28 => some (.vset (vOf w w1))
  | 0x29 => some (.vpop (vOf w w1))
  | 0x2A => some (.vpush (vOf w w1))
  | 0x2B => some (.vperm (vOf w w1))
  | 0x2C => some (.vtopk (vOf w w1))
  | 0x2D => some (.vcmpv (vOf w w1))
  | 0x2E => some (.vselv (vOf w w1))
  | _ => none

/-- The row of the V stream two words name. -/
def vectorOf (w w1 : Nat) : Option Instr := vectorOp (w / 2 ^ 25 % 128) w w1

/-- The M opcode map (R181). -/
def strokeInstrOp (op w : Nat) : Option Instr :=
  match op with
  | 0x00 => some (.mlds (strokeOf w))
  | 0x01 => some (.mldsp (strokeOf w))
  | 0x02 => some (.mswap (strokeOf w))
  | 0x03 => some (.mrun (strokeOf w))
  | 0x04 => some (.mver (strokeOf w))
  | 0x05 => some (.mzero (strokeOf w))
  | 0x06 => some (.mdrain (strokeOf w))
  | 0x07 => some (.mdrainv (strokeOf w))
  | 0x08 => some (.mmask (strokeOf w))
  | 0x09 => some (.mbnd (strokeOf w))
  | 0x0A => some (.mwait (strokeOf w))
  | 0x0B => some (.mstat (strokeOf w))
  | _ => none

/-- The row of the M stream a word names. -/
def strokeInstrOf (w : Nat) : Option Instr := strokeInstrOp (w / 2 ^ 25 % 128) w

/-- The L and W opcode map (R181). -/
def lwInstrOp (op w : Nat) : Option Instr :=
  match op with
  | 0x00 => some (.agdef (lwOf w))
  | 0x01 => some (.agrun (lwOf w))
  | 0x02 => some (.agput (lwOf w))
  | 0x03 => some (.agidx (lwOf w))
  | 0x04 => some (.agbank (lwOf w))
  | 0x05 => some (.agtake (lwOf w))
  | 0x06 => some (.agmark (lwOf w))
  | _ => none

/-- The row of the L and W streams a word names. -/
def lwInstrOf (w : Nat) : Option Instr := lwInstrOp (w / 2 ^ 25 % 128) w

/-- The copy-engine opcode map (R182). -/
def copyOp (op w : Nat) : Option Instr :=
  match op with
  | 0x00 => some (.copy (laneOf w))
  | 0x01 => some (.copy2 (laneOf w))
  | 0x02 => some (.fill (laneOf w))
  | 0x03 => some (.csig (laneOf w))
  | 0x04 => some (.strmq (laneOf w))
  | 0x05 => some (.drainq (laneOf w))
  | 0x06 => some (.shuf (laneOf w))
  | 0x07 => some (.launch (laneOf w))
  | 0x08 => some (.cefence (laneOf w))
  | 0x09 => some (.prefl2 (laneOf w))
  | 0x10 => some (.accwAdd (laneOf w))
  | 0x11 => some (.accwMin (laneOf w))
  | 0x12 => some (.accwMinn (laneOf w))
  | 0x13 => some (.accwMax (laneOf w))
  | 0x14 => some (.accwMaxn (laneOf w))
  | 0x15 => some (.accwAnd (laneOf w))
  | 0x16 => some (.accwOr (laneOf w))
  | 0x17 => some (.accwXor (laneOf w))
  | 0x18 => some (.accwXchg (laneOf w))
  | 0x19 => some (.accwCas (laneOf w))
  | 0x1A => some (.accwFaddF32 (laneOf w))
  | 0x1B => some (.accwFaddBf16 (laneOf w))
  | 0x1C => some (.accwFmax (laneOf w))
  | _ => none

/-- The copy-engine row a word names. -/
def copyOf (w : Nat) : Option Instr := copyOp (w / 2 ^ 25 % 128) w

/-- The index-engine opcode map (R182). -/
def indexOp (op w : Nat) : Option Instr :=
  match op with
  | 0x00 => some (.gath (laneOf w))
  | 0x01 => some (.scat (laneOf w))
  | 0x02 => some (.bags (laneOf w))
  | 0x03 => some (.isect (laneOf w))
  | 0x04 => some (.msort (laneOf w))
  | 0x05 => some (.spsrch (laneOf w))
  | 0x06 => some (.ixfence (laneOf w))
  | _ => none

/-- The index-engine row a word names. -/
def indexOf (w : Nat) : Option Instr := indexOp (w / 2 ^ 25 % 128) w

/-- The word of a one-lane instruction. -/
def enc1 (op body : Nat) : Option (List Nat) := some [op * 2 ^ 25 + body]

/-- The words of a V instruction. -/
def enc2 (op : Nat) (o : VFmt) : Option (List Nat) := some [op * 2 ^ 25 + o.word0, o.word1]

/-- The words of an instruction, from the encoding tables of R165, R168, R173, R181; none for an event. -/
def encode (i : Instr) : Option (List Nat) :=
  match i with
  | .add o => enc1 0x00 o.word
  | .sub o => enc1 0x01 o.word
  | .mul o => enc1 0x02 o.word
  | .mulh o => enc1 0x03 o.word
  | .mulhn o => enc1 0x04 o.word
  | .div o => enc1 0x05 o.word
  | .divn o => enc1 0x06 o.word
  | .rem o => enc1 0x07 o.word
  | .remn o => enc1 0x08 o.word
  | .neg o => enc1 0x09 o.word
  | .abs o => enc1 0x0A o.word
  | .min o => enc1 0x0B o.word
  | .max o => enc1 0x0C o.word
  | .minn o => enc1 0x0D o.word
  | .maxn o => enc1 0x0E o.word
  | .and o => enc1 0x10 o.word
  | .or o => enc1 0x11 o.word
  | .xor o => enc1 0x12 o.word
  | .andn o => enc1 0x13 o.word
  | .shl o => enc1 0x14 o.word
  | .shr o => enc1 0x15 o.word
  | .sar o => enc1 0x16 o.word
  | .rotl o => enc1 0x17 o.word
  | .clz o => enc1 0x18 o.word
  | .ctz o => enc1 0x19 o.word
  | .popc o => enc1 0x1A o.word
  | .bswap o => enc1 0x1B o.word
  | .ext o => enc1 0x1C o.word
  | .ins o => enc1 0x1D o.word
  | .mort o => enc1 0x1E o.word
  | .demort o => enc1 0x1F o.word
  | .addi o => enc1 0x20 o.word
  | .andi o => enc1 0x21 o.word
  | .ori o => enc1 0x22 o.word
  | .xori o => enc1 0x23 o.word
  | .shli o => enc1 0x24 o.word
  | .shri o => enc1 0x25 o.word
  | .sari o => enc1 0x26 o.word
  | .cmpi o => enc1 0x27 o.word
  | .limm o => enc1 0x28 o.word
  | .limmK o => enc1 0x28 (2 ^ 17 + o.word)
  | .mov o => enc1 0x29 o.word
  | .sel o => enc1 0x2A o.word
  | .cmp o => enc1 0x2B o.word
  | .pand o => enc1 0x2C o.word
  | .por o => enc1 0x2D o.word
  | .pxor o => enc1 0x2E o.word
  | .pnot o => enc1 0x2F o.word
  | .br o => enc1 0x30 o.word
  | .bc o => enc1 0x31 o.word
  | .call o => enc1 0x32 o.word
  | .jr o => enc1 0x33 o.word
  | .callr o => enc1 0x34 o.word
  | .ret o => enc1 0x35 o.word
  | .waitc o => enc1 0x36 o.word
  | .nop o => enc1 0x37 o.word
  | .qpush o => enc1 0x38 o.word
  | .qpushm o => enc1 0x39 o.word
  | .qpop o => enc1 0x3A o.word
  | .ld o => enc1 0x40 o.word
  | .st o => enc1 0x41 o.word
  | .ldx o => enc1 0x42 o.word
  | .stx o => enc1 0x43 o.word
  | .pref o => enc1 0x44 o.word
  | .pin o => enc1 0x45 o.word
  | .unpin o => enc1 0x46 o.word
  | .phase o => enc1 0x47 o.word
  | .madr o => enc1 0x48 o.word
  | .tadr o => enc1 0x49 o.word
  | .qpeek o => enc1 0x4A o.word
  | .qskip o => enc1 0x4B o.word
  | .qstat o => enc1 0x4C o.word
  | .yield o => enc1 0x4D o.word
  | .loop o => enc1 0x50 o.word
  | .loopq o => enc1 0x51 o.word
  | .tsrd o => enc1 0x52 o.word
  | .hrd o => enc1 0x53 o.word
  | .hwr o => enc1 0x54 o.word
  | .fcfg o => enc1 0x55 o.word
  | .farm o => enc1 0x56 o.word
  | .fwait o => enc1 0x57 o.word
  | .fcommit o => enc1 0x58 o.word
  | .stop o => enc1 0x59 o.word
  | .ctlr o => enc1 0x60 o.word
  | .ctlw o => enc1 0x61 o.word
  | .featq o => enc1 0x62 o.word
  | .bkpt o => enc1 0x63 o.word
  | .sysc o => enc1 0x64 o.word
  | .eret o => enc1 0x65 o.word
  | .tlbi o => enc1 0x66 o.word
  | .ifence o => enc1 0x67 o.word
  | .halt o => enc1 0x68 o.word
  | .qclose o => enc1 0x69 o.word
  | .vadd o => enc2 0x00 o
  | .vsub o => enc2 0x01 o
  | .vmul o => enc2 0x02 o
  | .vfma o => enc2 0x03 o
  | .vfms o => enc2 0x04 o
  | .vfnma o => enc2 0x05 o
  | .vmin o => enc2 0x06 o
  | .vmax o => enc2 0x07 o
  | .vabs o => enc2 0x08 o
  | .vneg o => enc2 0x09 o
  | .vcps o => enc2 0x0A o
  | .vclass o => enc2 0x0B o
  | .vrcpe o => enc2 0x0C o
  | .vrsqe o => enc2 0x0D o
  | .vexp2 o => enc2 0x0E o
  | .vlog2 o => enc2 0x0F o
  | .vcvt o => enc2 0x10 o
  | .vqnt o => enc2 0x11 o
  | .vdqnt o => enc2 0x12 o
  | .vcmp o => enc2 0x13 o
  | .vsel o => enc2 0x14 o
  | .vmand o => enc2 0x15 o
  | .vmor o => enc2 0x16 o
  | .vmnot o => enc2 0x17 o
  | .vand o => enc2 0x18 o
  | .vor o => enc2 0x19 o
  | .vxor o => enc2 0x1A o
  | .vshl o => enc2 0x1B o
  | .vshr o => enc2 0x1C o
  | .vsar o => enc2 0x1D o
  | .vpopc o => enc2 0x1E o
  | .vclz o => enc2 0x1F o
  | .vscan o => enc2 0x20 o
  | .vred o => enc2 0x21 o
  | .vdot o => enc2 0x22 o
  | .vminx o => enc2 0x23 o
  | .vmaxx o => enc2 0x24 o
  | .vmov o => enc2 0x25 o
  | .vbcast o => enc2 0x26 o
  | .vget o => enc2 0x27 o
  | .vset o => enc2 0x28 o
  | .vpop o => enc2 0x29 o
  | .vpush o => enc2 0x2A o
  | .vperm o => enc2 0x2B o
  | .vtopk o => enc2 0x2C o
  | .vcmpv o => enc2 0x2D o
  | .vselv o => enc2 0x2E o
  | .mlds o => enc1 0x00 o.word
  | .mldsp o => enc1 0x01 o.word
  | .mswap o => enc1 0x02 o.word
  | .mrun o => enc1 0x03 o.word
  | .mver o => enc1 0x04 o.word
  | .mzero o => enc1 0x05 o.word
  | .mdrain o => enc1 0x06 o.word
  | .mdrainv o => enc1 0x07 o.word
  | .mmask o => enc1 0x08 o.word
  | .mbnd o => enc1 0x09 o.word
  | .mwait o => enc1 0x0A o.word
  | .mstat o => enc1 0x0B o.word
  | .agdef o => enc1 0x00 o.word
  | .agrun o => enc1 0x01 o.word
  | .agput o => enc1 0x02 o.word
  | .agidx o => enc1 0x03 o.word
  | .agbank o => enc1 0x04 o.word
  | .agtake o => enc1 0x05 o.word
  | .agmark o => enc1 0x06 o.word
  | .copy o => enc1 0x00 o.word
  | .copy2 o => enc1 0x01 o.word
  | .fill o => enc1 0x02 o.word
  | .csig o => enc1 0x03 o.word
  | .strmq o => enc1 0x04 o.word
  | .drainq o => enc1 0x05 o.word
  | .shuf o => enc1 0x06 o.word
  | .launch o => enc1 0x07 o.word
  | .cefence o => enc1 0x08 o.word
  | .prefl2 o => enc1 0x09 o.word
  | .accwAdd o => enc1 0x10 o.word
  | .accwMin o => enc1 0x11 o.word
  | .accwMinn o => enc1 0x12 o.word
  | .accwMax o => enc1 0x13 o.word
  | .accwMaxn o => enc1 0x14 o.word
  | .accwAnd o => enc1 0x15 o.word
  | .accwOr o => enc1 0x16 o.word
  | .accwXor o => enc1 0x17 o.word
  | .accwXchg o => enc1 0x18 o.word
  | .accwCas o => enc1 0x19 o.word
  | .accwFaddF32 o => enc1 0x1A o.word
  | .accwFaddBf16 o => enc1 0x1B o.word
  | .accwFmax o => enc1 0x1C o.word
  | .gath o => enc1 0x00 o.word
  | .scat o => enc1 0x01 o.word
  | .bags o => enc1 0x02 o.word
  | .isect o => enc1 0x03 o.word
  | .msort o => enc1 0x04 o.word
  | .spsrch o => enc1 0x05 o.word
  | .ixfence o => enc1 0x06 o.word
  | .elementSrc .. => none
  | .elementSnk .. => none
  | .elementAgen .. => none
  | .elementAdd .. => none
  | .elementSub .. => none
  | .elementMul .. => none
  | .elementMac .. => none
  | .elementMin .. => none
  | .elementMax .. => none
  | .elementAnd .. => none
  | .elementOr .. => none
  | .elementXor .. => none
  | .elementShl .. => none
  | .elementShr .. => none
  | .elementSar .. => none
  | .elementCmp .. => none
  | .elementSel .. => none
  | .elementCvt .. => none
  | .elementSteer .. => none
  | .elementMerge .. => none
  | .elementCarry .. => none
  | .elementJoin .. => none
  | .elementFork .. => none
  | .elementWiden .. => none
  | .elementRed .. => none
  | .elementAcc .. => none
  | .elementCnt .. => none
  | .elementConst .. => none
  | .elementPass .. => none
  | .elementDelay .. => none
  | .elementCommit .. => none
  | .markerForward .. => none
  | .alignmentAbort .. => none
  | .configurationLoad .. => none
  | .skipToken .. => none
  | .clusterExceptionDelivery .. => none
  | .loadDataArrival .. => none
  | .pinHandleArrival .. => none
  | .hrdMerge .. => none
  | .waitcWake .. => none
  | .unpinRelease .. => none
  | .tlbiWake .. => none
  | .epochApply .. => none
  | .portRequestReplay .. => none
  | .startClusterHalf .. => none
  | .startCoxThread .. => none
  | .crewDispatch .. => none
  | .crewComplete .. => none
  | .completionReport .. => none
  | .quantumExpiry .. => none
  | .ageing .. => none
  | .preemption .. => none
  | .saveComplete .. => none
  | .watchdogExpiry .. => none
  | .ctxCreate .. => none
  | .ctxTear .. => none
  | .crewCmdResume .. => none
  | .crewCmdEnd .. => none
  | .crewCmdSuspend .. => none
  | .qcfgWrite .. => none
  | .qstatWrite .. => none
  | .launchPortWrite .. => none
  | .launchAccept .. => none
  | .launchComplete .. => none
  | .gangArm .. => none
  | .gangAcknowledge .. => none
  | .gangArmTimeout .. => none
  | .gangCommit .. => none
  | .gangAbort .. => none
  | .ready .. => none
  | .solo .. => none
  | .coded .. => none
  | .repe .. => none
  | .rreq .. => none
  | .close .. => none
  | .quit .. => none
  | .pairingDeadline .. => none
  | .flitRetransmit .. => none
  | .laneWithdrawal .. => none
  | .packageDeclaredFailed .. => none
  | .failureNotification .. => none
  | .scrubRead .. => none
  | .hostRead .. => none
  | .hostWrite .. => none
  | .mailboxAssignUnits .. => none
  | .mailboxAssignTenant .. => none
  | .mailboxRegisterKey .. => none
  | .mailboxSetCacheQuota .. => none
  | .mailboxSetPowerLimit .. => none
  | .mailboxReadErrorCounters => none
  | .mailboxUpdateFirmware .. => none
  | .mailboxAttestation .. => none
  | .resetRelease .. => none
  | .thermalWarning => none
  | .thermalTrip => none
  | .arithmeticClockRecovery => none

/-! ### Decoding of a lane -/

/-- The streams lanes belong to (R158). -/
inductive Stream where
  | a
  | s
  | v
  | m
  | l
  | w
  | copy
  | index
  deriving DecidableEq, Repr, Inhabited

/-- Why a lane is no instruction (R184). -/
inductive DecodeError where
  /-- undefined code, wrong stream, or an illegal field: illegal-instruction exception -/
  | illegal
  /-- a malformed engine lane: version fault -/
  | version
  deriving DecidableEq, Repr, Inhabited

/-- The row an opcode names in a stream, before its fields are checked. -/
def rawOf (st : Stream) (w w1 : Nat) : Option Instr :=
  match st with
  | .a => (scalarOf w).filter fun i => !i.sOnly
  | .s => (scalarOf w).filter fun i => !i.aOnly
  | .v => vectorOf w w1
  | .m => strokeInstrOf w
  | .l => lwInstrOf w
  | .w => (lwInstrOf w).filter fun i => !i.lOnly
  | .copy => copyOf w
  | .index => indexOf w

/-- The streams of which an instruction is a lane (R178-R182); none for an event. -/
def Instr.streams : Instr → List Stream
  | .add _ | .sub _ | .mul _ | .mulh _ | .mulhn _ | .div _ | .divn _ | .rem _ | .remn _ | .neg _ | .abs _
  | .min _ | .max _ | .minn _ | .maxn _ | .and _ | .or _ | .xor _ | .andn _ | .shl _ | .shr _ | .sar _
  | .rotl _ | .clz _ | .ctz _ | .popc _ | .bswap _ | .ext _ | .ins _ | .mort _ | .demort _ | .addi _
  | .andi _ | .ori _ | .xori _ | .shli _ | .shri _ | .sari _ | .cmpi _ | .limmK _ | .limm _ | .mov _ | .sel _
  | .cmp _ | .pand _ | .por _ | .pxor _ | .pnot _ | .br _ | .bc _ | .call _ | .jr _ | .callr _ | .ret _
  | .waitc _ | .nop _ | .qpush _ | .qpushm _ | .qpop _ | .ctlr _ | .ctlw _ | .featq _ | .bkpt _ => [.a, .s]
  | .ld _ | .st _ | .ldx _ | .stx _ | .pref _ | .pin _ | .unpin _ | .phase _ | .madr _ | .tadr _ | .qpeek _
  | .qskip _ | .qstat _ | .yield _ | .sysc _ | .eret _ | .tlbi _ | .ifence _ | .halt _ | .qclose _ => [.a]
  | .loop _ | .loopq _ | .tsrd _ | .hrd _ | .hwr _ | .fcfg _ | .farm _ | .fwait _ | .fcommit _ | .stop _ => [.s]
  | .vadd _ | .vsub _ | .vmul _ | .vfma _ | .vfms _ | .vfnma _ | .vmin _ | .vmax _ | .vabs _ | .vneg _
  | .vcps _ | .vclass _ | .vrcpe _ | .vrsqe _ | .vexp2 _ | .vlog2 _ | .vcvt _ | .vqnt _ | .vdqnt _ | .vcmp _
  | .vsel _ | .vmand _ | .vmor _ | .vmnot _ | .vand _ | .vor _ | .vxor _ | .vshl _ | .vshr _ | .vsar _
  | .vpopc _ | .vclz _ | .vscan _ | .vred _ | .vdot _ | .vminx _ | .vmaxx _ | .vmov _ | .vbcast _ | .vget _
  | .vset _ | .vpop _ | .vpush _ | .vperm _ | .vtopk _ | .vcmpv _ | .vselv _ => [.v]
  | .mlds _ | .mldsp _ | .mswap _ | .mrun _ | .mver _ | .mzero _ | .mdrain _ | .mdrainv _ | .mmask _
  | .mbnd _ | .mwait _ | .mstat _ => [.m]
  | .agdef _ | .agrun _ | .agput _ | .agbank _ | .agtake _ | .agmark _ => [.l, .w]
  | .agidx _ => [.l]
  | .copy _ | .copy2 _ | .fill _ | .csig _ | .strmq _ | .drainq _ | .shuf _ | .launch _ | .cefence _
  | .prefl2 _ | .accwAdd _ | .accwMin _ | .accwMinn _ | .accwMax _ | .accwMaxn _ | .accwAnd _ | .accwOr _
  | .accwXor _ | .accwXchg _ | .accwCas _ | .accwFaddF32 _ | .accwFaddBf16 _ | .accwFmax _ => [.copy]
  | .gath _ | .scat _ | .bags _ | .isect _ | .msort _ | .spsrch _ | .ixfence _ => [.index]
  | .elementSrc .. | .elementSnk .. | .elementAgen .. | .elementAdd .. | .elementSub .. | .elementMul ..
  | .elementMac .. | .elementMin .. | .elementMax .. | .elementAnd .. | .elementOr .. | .elementXor ..
  | .elementShl .. | .elementShr .. | .elementSar .. | .elementCmp .. | .elementSel .. | .elementCvt ..
  | .elementSteer .. | .elementMerge .. | .elementCarry .. | .elementJoin .. | .elementFork ..
  | .elementWiden .. | .elementRed .. | .elementAcc .. | .elementCnt .. | .elementConst .. | .elementPass ..
  | .elementDelay .. | .elementCommit .. | .markerForward .. | .alignmentAbort .. | .configurationLoad ..
  | .skipToken .. | .clusterExceptionDelivery .. | .loadDataArrival .. | .pinHandleArrival .. | .hrdMerge ..
  | .waitcWake .. | .unpinRelease .. | .tlbiWake .. | .epochApply .. | .portRequestReplay ..
  | .startClusterHalf .. | .startCoxThread .. | .crewDispatch .. | .crewComplete .. | .completionReport ..
  | .quantumExpiry .. | .ageing .. | .preemption .. | .saveComplete .. | .watchdogExpiry .. | .ctxCreate ..
  | .ctxTear .. | .crewCmdResume .. | .crewCmdEnd .. | .crewCmdSuspend .. | .qcfgWrite .. | .qstatWrite ..
  | .launchPortWrite .. | .launchAccept .. | .launchComplete .. | .gangArm .. | .gangAcknowledge ..
  | .gangArmTimeout .. | .gangCommit .. | .gangAbort .. | .ready .. | .solo .. | .coded .. | .repe ..
  | .rreq .. | .close .. | .quit .. | .pairingDeadline .. | .flitRetransmit .. | .laneWithdrawal ..
  | .packageDeclaredFailed .. | .failureNotification .. | .scrubRead .. | .hostRead .. | .hostWrite ..
  | .mailboxAssignUnits .. | .mailboxAssignTenant .. | .mailboxRegisterKey .. | .mailboxSetCacheQuota ..
  | .mailboxSetPowerLimit .. | .mailboxReadErrorCounters | .mailboxUpdateFirmware .. | .mailboxAttestation ..
  | .resetRelease .. | .thermalWarning | .thermalTrip | .arithmeticClockRecovery => []

/-- The name of the refusal in a stream. -/
def errorOf : Stream → DecodeError
  | .copy => .version
  | .index => .version
  | _ => .illegal

/-- Decode one lane, with the next lane's word for a V instruction. -/
def decodeLane (st : Stream) (w w1 : Nat) : Except DecodeError Instr :=
  match rawOf st w w1 with
  | some i => if i.wf then .ok i else .error (errorOf st)
  | none => .error (errorOf st)

/-- The stream a word of the opcode table belongs to is not in the word: two words are a V instruction, and one word is
read as the A or S stream reads it, then as M, L, copy and index read it (log 4). -/
def decodeTableWord (nbits w : Nat) : Option Instr :=
  let w0 := w % 2 ^ 32
  if 32 < nbits then (decodeLane .v w0 (w / 2 ^ 32 % 2 ^ 32)).toOption
  else
    ((decodeLane .a w0 0).toOption).orElse fun _ =>
    ((decodeLane .s w0 0).toOption).orElse fun _ =>
    ((decodeLane .m w0 0).toOption).orElse fun _ =>
    ((decodeLane .l w0 0).toOption).orElse fun _ =>
    ((decodeLane .copy w0 0).toOption).orElse fun _ =>
    (decodeLane .index w0 0).toOption

/-- The stream in which `decodeTableWord` reads a word. -/
def tableStream (nbits w : Nat) : Stream :=
  let w0 := w % 2 ^ 32
  if 32 < nbits then .v
  else if (decodeLane .a w0 0).toOption.isSome then .a
  else if (decodeLane .s w0 0).toOption.isSome then .s
  else if (decodeLane .m w0 0).toOption.isSome then .m
  else if (decodeLane .l w0 0).toOption.isSome then .l
  else if (decodeLane .copy w0 0).toOption.isSome then .copy
  else .index

/-! ### Code lines (R158-R163) -/

/-- A code line: the header word and lanes 1 to 7. -/
structure Line where
  hdr : Nat
  lanes : List Nat
  deriving DecidableEq, Repr, Inhabited

/-- A little-endian number (R1). -/
def leNat : List Byte → Nat
  | [] => 0
  | b :: t => b.toNat + 256 * leNat t

/-- `n` little-endian bytes of a number. -/
def leBytes : Nat → Nat → List Byte
  | 0, _ => []
  | n + 1, v => BitVec.ofNat 8 v :: leBytes n (v / 256)

/-- The field of `n` bytes at an offset of a record. -/
def fieldAt (bs : List Byte) (off n : Nat) : Nat := leNat ((bs.drop off).take n)

/-- The line held by 32 bytes. -/
def Line.ofBytes (bs : List Byte) : Line :=
  { hdr := fieldAt bs 0 4, lanes := [4, 8, 12, 16, 20, 24, 28].map fun o => fieldAt bs o 4 }

namespace Line

def kind (l : Line) : Nat := l.hdr % 8
def isEntry (l : Line) : Bool := bit l.hdr 3
def sid (l : Line) (k : Nat) : Nat := bits l.hdr (4 * k + 2) (4 * k)
def bt (l : Line) (k : Nat) : Bool := bit l.hdr (4 * k + 3)
def word (l : Line) (k : Nat) : Nat := l.lanes.getD (k - 1) 0

/-- Lane `k` holds an instruction, or the second word of one. -/
def used (l : Line) (k : Nat) : Bool := l.sid k != 0

/-- V lanes pair up from lane `k` on (R159). -/
def pairsFrom (l : Line) : Nat → Nat → Bool
  | 0, _ => true
  | n + 1, k =>
    if 7 < k then true
    else if l.sid k = 2 then k != 7 && l.sid (k + 1) == 2 && !l.bt (k + 1) && pairsFrom l n (k + 2)
    else pairsFrom l n (k + 1)

/-- Lanes whose nibble and word an empty lane leaves zero, and whose SID the line's kind allows. -/
def lanesOk (l : Line) (cox : Bool) : Bool :=
  [1, 2, 3, 4, 5, 6, 7].all fun k =>
    let s := l.sid k
    (if s = 0 then !l.bt k && l.word k == 0 else true) && (!cox || s == 0 || s == 1 || s == 6 || s == 7)

/-- Well formed on a fetch by a cox thread or by a sequencer (R159). -/
def wf (l : Line) (cox : Bool) (addr : Nat) : Bool :=
  l.kind == (if cox then 0 else 1) && (!l.isEntry || addr % 128 == 0) && l.lanesOk cox && (cox || l.pairsFrom 7 1)

/-- The first lane of an instruction at or after lane `k`. -/
def firstFrom (l : Line) : Nat → Nat → Option Nat
  | 0, _ => none
  | n + 1, k => if 7 < k then none else if l.used k then some k else firstFrom l n (k + 1)

def first (l : Line) (k : Nat) : Option Nat := l.firstFrom 7 k

/-- The stream of a lane. -/
def stream (l : Line) (cox : Bool) (k : Nat) : Stream :=
  match l.sid k with
  | 6 => .copy
  | 7 => .index
  | 2 => .v
  | 3 => .m
  | 4 => .l
  | 5 => .w
  | _ => if cox then .a else .s

/-- The bytes of a line with one instruction in lane 1 (and 2 for V), the rest empty. -/
def single (cox : Bool) (sid w w1 : Nat) : List Byte :=
  let hdr := (if cox then 0 else 1) + 8 + (8 + sid) * 16 + (if sid = 2 ∧ !cox then 2 * 256 else 0)
  leBytes 4 hdr ++ leBytes 4 w ++ leBytes 4 (if sid = 2 ∧ !cox then w1 else 0) ++ List.replicate 20 0

end Line

/-! ### Code pointers (R161) -/

/-- The line address of a code pointer. -/
def ptrLine (p : Nat) : Nat := p / 32 * 32
/-- The lane of a code pointer. -/
def ptrLane (p : Nat) : Nat := p % 8
/-- A code pointer names a lane from 1 to 7 and has bits 4:3 zero. -/
def ptrOk (p : Nat) : Bool := bits p 4 3 == 0 && ptrLane p != 0
/-- The pointer after a lane: the next lane, or lane 1 of the next line. -/
def ptrNext (p n : Nat) : Nat :=
  if ptrLane p + n ≤ 7 then (ptrLine p + ptrLane p + n) % 2 ^ 64 else (ptrLine p + 33) % 2 ^ 64

end Sys2Proof
end

