-- ==== Sys2Proof/Config.lean ====
section
/-! DEFINITION. What an implementation fixes and the free values: constants without a body, so that nothing in Lean can
evaluate them. A claim about them holds for every value. -/

namespace Sys2Proof.Config

/-- The draw numbered `n` of an outcome the manual calls unspecified (R5), reduced by its user to the outcomes listed. -/
opaque freeNat : Nat → Nat

/-- The turn taken when the agenda is empty: interleavings are unspecified (R21, R23, R297). -/
opaque schedule : Nat → Turn

/-- Which of the values it may hold a scratchpad byte has at dispatch (R98): by the crew's handle and the address. -/
opaque spadChoice : Nat → Nat → Nat

/-- The home port of a 1 KiB physical frame, by frame number: the mapping is not architectural (R77, R313). -/
opaque portOf : Nat → Nat

/-- This package's identifier, 20 bits (R481 word 4). -/
opaque packageId : Nat
/-- The identifier of this package's group, the lowest in it, as far below this package's as it may be (R481 word 5). -/
opaque groupId : Nat
/-- The number of packages in the group beside this one (R481 word 5). -/
opaque groupSize : Nat
/-- The stepping of the part, 8 bits (R481 word 0). -/
opaque stepping : Nat

/-- The device key, from which tenant keys are derived (R488). -/
opaque deviceKey : List Byte

/-- The keys that firmware, identity and attestation images are signed with (R497): an RSA modulus and an SLH-DSA public key. -/
opaque imageModulus : Nat
opaque imageKey : List Byte

/-- The image of a kind that the part was shipped with, its boot ROM, and the configuration that attestation measures (R497). -/
opaque shippedImage : ImageKind → List Byte
opaque bootRom : List Byte
opaque configuration : List Byte

/-- The rollback version an image holds (R497): the manual gives it no place. -/
opaque imageVersion : List Byte → Nat

/-- The device attestation key (R497): modulus and private exponent, and an SLH-DSA private key. -/
opaque attestModulus : Nat
opaque attestExponent : Nat
opaque attestKey : List Byte

/-- What the fuses say of spares (R473, R498): rows in use by cluster and array, lanes by pseudo-channel, banks by cluster. -/
opaque fusedRows : Nat → Nat → Nat
opaque fusedLanes : Nat → Nat
opaque fusedBank : Nat → Nat

/-- Which GiB of HBM4E a withdrawn pseudo-channel takes with it (R473): a displacement. -/
opaque channelShift : Nat

/-- Which entry of a tenant's cache leaves when it needs room (R489): by tenant and the number of its evictions so far. -/
opaque cacheVictim : Nat → Nat → Nat

/-- Bytes of LPDDR-6 that are installed, at most 2 TiB (R12). -/
opaque lpddrBytes : Nat

/-- Where the boot status word and the MSI-X table stand in BAR0 (R493): byte offsets. -/
opaque bootStatusAt : Nat
opaque msixTableAt : Nat

/-- The rollback version in the fuses (R497). -/
opaque fusedVersion : Nat

/-- Where the exception record of a thread bound to no crew stands (R443 gives a frame only to crews): by thread. -/
opaque unboundRecord : Nat → Nat

end Sys2Proof.Config
end

