-- ==== Sys2Proof/Machine/Numbers.lean ====
section
/-! DEFINITION. Integers, floating and narrow formats, rounding, block scales and exact summation (R41-R76). -/

namespace Sys2Proof

/-! ### Integers (R41-R43) -/

/-- `v` as an `n`-bit two's complement integer (R177 `SExt`). -/
def sext (v n : Nat) : Int :=
  let u := v % 2 ^ n
  if u < 2 ^ (n - 1) then (u : Int) else (u : Int) - (2 : Int) ^ n

/-- The residue of an integer modulo `2^n` (R42 `Wrap`). -/
def wrapN (v : Int) (n : Nat) : Nat := (v % (2 : Int) ^ n).toNat

/-- Clamp to the `n`-bit range, signed or natural, as bits (R42 `Sat`). -/
def satN (v : Int) (n : Nat) (signed : Bool) : Nat :=
  let lo : Int := if signed then -(2 : Int) ^ (n - 1) else 0
  let hi : Int := if signed then (2 : Int) ^ (n - 1) - 1 else (2 : Int) ^ n - 1
  wrapN (if v < lo then lo else if hi < v then hi else v) n

/-- Quotient and remainder (R43). -/
def divI (a b : Int) (n : Nat) (signed : Bool) : Int × Int :=
  if b = 0 then (if signed then -1 else (2 : Int) ^ n - 1, a)
  else if signed && a == -(2 : Int) ^ (n - 1) && b == -1 then (a, 0)
  else (a.tdiv b, a - b * a.tdiv b)

/-- Number of set bits among the low `n`. -/
def popCount (v : Nat) : Nat → Nat
  | 0 => 0
  | n + 1 => popCount v n + v / 2 ^ n % 2

/-- Leading zeros of an `n`-bit value. -/
def leadZeros (v : Nat) : Nat → Nat
  | 0 => 0
  | n + 1 => if v / 2 ^ n % 2 = 1 then 0 else leadZeros v n + 1

/-- Trailing zeros, at most `n`. -/
def trailZeros (v : Nat) : Nat → Nat
  | 0 => 0
  | n + 1 => if v % 2 = 1 then 0 else trailZeros (v / 2) n + 1

/-! ### Exact values -/

/-- An exact real with IEEE classes: magnitude `n / d` with `d > 0`, and a sign that zero keeps. -/
inductive Ex where
  | nan
  | inf (neg : Bool)
  | fin (neg : Bool) (n d : Nat)
  deriving DecidableEq, Repr, Inhabited

namespace Ex

def zero : Ex := .fin false 0 1

/-- `±m × 2^e`. -/
def scaled (neg : Bool) (m : Nat) (e : Int) : Ex :=
  if e < 0 then .fin neg m (2 ^ (-e).toNat) else .fin neg (m * 2 ^ e.toNat) 1

def ofInt (v : Int) : Ex := .fin (v < 0) v.natAbs 1

def isNaN : Ex → Bool
  | nan => true
  | _ => false

def isInf : Ex → Bool
  | inf _ => true
  | _ => false

def isZero : Ex → Bool
  | fin _ n _ => n == 0
  | _ => false

def negative : Ex → Bool
  | nan => false
  | inf s => s
  | fin s _ _ => s

def neg : Ex → Ex
  | nan => nan
  | inf s => inf !s
  | fin s n d => fin (!s) n d

def abs : Ex → Ex
  | nan => nan
  | inf _ => inf false
  | fin _ n d => fin false n d

/-- Exact product; `0 × ∞` is NaN (R251). -/
def mul : Ex → Ex → Ex
  | nan, _ => nan
  | _, nan => nan
  | inf s, inf t => inf (s != t)
  | inf s, fin t n _ => if n = 0 then nan else inf (s != t)
  | fin s n _, inf t => if n = 0 then nan else inf (s != t)
  | fin s n d, fin t m e => fin (s != t) (n * m) (d * e)

/-- Sum over a common denominator; a zero sum takes the sign `z`, unless both terms are zeros of one sign. -/
def addZ (z : Bool) : Ex → Ex → Ex
  | nan, _ => nan
  | _, nan => nan
  | inf s, inf t => if s = t then inf s else nan
  | inf s, fin .. => inf s
  | fin .., inf t => inf t
  | fin s n d, fin t m e =>
    if n = 0 ∧ m = 0 then fin (if s = t then s else z) 0 1
    else
      let x : Int := if s then -((n * e : Nat) : Int) else (n * e : Nat)
      let y : Int := if t then -((m * d : Nat) : Int) else (m * d : Nat)
      let v := x + y
      if v = 0 then fin z 0 1 else fin (v < 0) v.natAbs (d * e)

/-- IEEE sum of two operands: an exact cancellation is `+0`, in mode RDN `-0` (R50). -/
def add (mode : Nat) (a b : Ex) : Ex := addZ (mode == 3) a b

/-- Order of two values, `none` when either is NaN; zeros are equal. -/
def cmp : Ex → Ex → Option Ordering
  | nan, _ => none
  | _, nan => none
  | inf s, inf t => some (if s = t then .eq else if s then .lt else .gt)
  | inf s, fin .. => some (if s then .lt else .gt)
  | fin .., inf t => some (if t then .gt else .lt)
  | fin s n d, fin t m e =>
    let x : Int := if s then -((n * e : Nat) : Int) else (n * e : Nat)
    let y : Int := if t then -((m * d : Nat) : Int) else (m * d : Nat)
    some (compare x y)

def lt (a b : Ex) : Bool := cmp a b == some .lt
def le (a b : Ex) : Bool := cmp a b == some .lt || cmp a b == some .eq
def eqv (a b : Ex) : Bool := cmp a b == some .eq

/-- Order with `-0` below `+0` (R47, R237). -/
def ltZ (a b : Ex) : Bool := lt a b || (a.isZero && b.isZero && a.negative && !b.negative)

/-- Quotient by a finite non-zero value. -/
def divFin : Ex → Ex → Ex
  | nan, _ => nan
  | inf s, fin t _ _ => inf (s != t)
  | fin s n d, fin t m e => fin (s != t) (n * e) (d * m)
  | _, _ => nan

/-- Exact sum with IEEE specials (R71): NaN first, then infinities, then the real sum; a zero sum is `-0` only when
every term is `-0`. -/
def sum (l : List Ex) : Ex :=
  if l.any isNaN then nan
  else if l.any isInf then
    if l.any (· == inf true) && l.any (· == inf false) then nan
    else if l.any (· == inf true) then inf true else inf false
  else
    match l with
    | [] => zero
    | x :: t =>
      let r := t.foldl (addZ false) x
      if r.isZero then fin (l.all fun e => e.negative) 0 1 else r

end Ex

/-! ### Floating formats (R44) -/

/-- Exponent and fraction widths; the bias is `2^(ew-1) - 1`. -/
structure FFmt where
  ew : Nat
  fw : Nat
  deriving DecidableEq, Repr, Inhabited

namespace FFmt

def f32 : FFmt := ⟨8, 23⟩
def bf16 : FFmt := ⟨8, 7⟩
def f16 : FFmt := ⟨5, 10⟩

def bias (f : FFmt) : Int := 2 ^ (f.ew - 1) - 1
def emax (f : FFmt) : Int := f.bias
def emin (f : FFmt) : Int := 1 - f.bias
def width (f : FFmt) : Nat := f.ew + f.fw + 1
def signBit (f : FFmt) : Nat := 2 ^ (f.ew + f.fw)
def infBits (f : FFmt) (neg : Bool) : Nat := (2 ^ f.ew - 1) * 2 ^ f.fw + (if neg then f.signBit else 0)
/-- Canonical quiet NaN (R44). -/
def qnan (f : FFmt) : Nat := (2 ^ f.ew - 1) * 2 ^ f.fw + 2 ^ (f.fw - 1)
def maxBits (f : FFmt) (neg : Bool) : Nat := f.infBits neg - 1
/-- Largest finite value. -/
def maxFinite (f : FFmt) : Ex := Ex.scaled false (2 ^ (f.fw + 1) - 1) (f.emax - f.fw)

def expOf (f : FFmt) (x : Nat) : Nat := x / 2 ^ f.fw % 2 ^ f.ew
def fracOf (f : FFmt) (x : Nat) : Nat := x % 2 ^ f.fw
def negOf (f : FFmt) (x : Nat) : Bool := x / f.signBit % 2 == 1
def isNaN (f : FFmt) (x : Nat) : Bool := f.expOf x == 2 ^ f.ew - 1 && f.fracOf x != 0
def isSNaN (f : FFmt) (x : Nat) : Bool := f.isNaN x && f.fracOf x < 2 ^ (f.fw - 1)
def isSubnormal (f : FFmt) (x : Nat) : Bool := f.expOf x == 0 && f.fracOf x != 0

/-- The exact value of an encoding (R76 `DecodeF`). -/
def decode (f : FFmt) (x : Nat) : Ex :=
  let e := f.expOf x
  let m := f.fracOf x
  let s := f.negOf x
  if e = 2 ^ f.ew - 1 then (if m = 0 then .inf s else .nan)
  else if e = 0 then Ex.scaled s m (f.emin - f.fw)
  else Ex.scaled s (2 ^ f.fw + m) ((e : Int) - f.bias - f.fw)

end FFmt

/-! ### Status flags (R52) -/

/-- A set of flags in the `VSTAT` layout. -/
abbrev Flags := Nat

namespace Flag
def nv : Flags := 1
def dz : Flags := 2
def of : Flags := 4
def uf : Flags := 8
def nx : Flags := 16
def sx : Flags := 32
def sat : Flags := 64
def ufl : Flags := 128
def nfb : Flags := 256
def rsv : Flags := 512
end Flag

/-- Union of two flag sets. -/
def orf (a b : Flags) : Flags := a ||| b

/-- A flag when a condition holds. -/
def flagIf (b : Bool) (f : Flags) : Flags := if b then f else 0

/-! ### Rounding (R48-R51) -/

/-- `floor (log2 (n / d))` for a positive quotient. -/
def floorLog2 (n d : Nat) : Int :=
  let e : Int := (n.log2 : Int) - d.log2
  let ge : Bool := if e < 0 then d ≤ n * 2 ^ (-e).toNat else d * 2 ^ e.toNat ≤ n
  if ge then e else e - 1

/-- `(n / d) / 2^k` as a numerator and a denominator. -/
def scaleBy (n d : Nat) (k : Int) : Nat × Nat := if k < 0 then (n * 2 ^ (-k).toNat, d) else (n, d * 2 ^ k.toNat)

/-- Whether the neighbour away from zero is chosen, for the remainder `r / D` and the neighbour index `t` (R49). -/
def roundUp (mode rnd : Nat) (neg : Bool) (t r D : Nat) : Bool :=
  if r = 0 then false
  else if mode = 0 then D < 2 * r || (2 * r == D && t % 2 == 1)
  else if mode = 2 then !neg
  else if mode = 3 then neg
  else if mode = 4 then rnd < r * 2 ^ 32 / D
  else false

/-- Round a magnitude to a multiple of `2^k`. -/
def roundUnits (mode rnd : Nat) (neg : Bool) (n d : Nat) (k : Int) : Nat × Bool :=
  let (N, D) := scaleBy n d k
  let t := N / D
  let r := N % D
  (if roundUp mode rnd neg t r D then t + 1 else t, r != 0)

/-- `Round` of a value to a floating format: encoding and flags NX, OF, UF (R49). A NaN gives the canonical quiet NaN
and no flag here. -/
def roundF (v : Ex) (f : FFmt) (mode rnd : Nat) : Nat × Flags :=
  match v with
  | .nan => (f.qnan, 0)
  | .inf s => (f.infBits s, 0)
  | .fin s n d =>
    let sb := if s then f.signBit else 0
    if n = 0 then (sb, 0)
    else
      let e := floorLog2 n d
      if f.emax < e then
        let up := mode == 0 || (mode == 2 && !s) || (mode == 3 && s) || mode == 4
        (if up then f.infBits s else f.maxBits s, orf Flag.nx Flag.of)
      else
        let k := (if e < f.emin then f.emin else e) - f.fw
        let (m, inex) := roundUnits mode rnd s n d k
        let m' := m
        let normal := decide (2 ^ f.fw ≤ m')
        let (m2, k2) := if m' = 2 ^ (f.fw + 1) then (2 ^ f.fw, k + 1) else (m', k)
        let ex : Int := k2 + f.fw + f.bias
        if normal && decide (f.emax < k2 + f.fw) then (f.infBits s, orf Flag.nx Flag.of)
        else
          let enc := if normal then ex.toNat * 2 ^ f.fw + (m2 - 2 ^ f.fw) else m2
          let (mu, _) := roundUnits mode rnd s n d (e - f.fw)
          let tiny := decide (e < f.emin) && decide (mu ≠ 0) && !(mu == 2 ^ (f.fw + 1) && decide (e + 1 = f.emin))
          (sb + enc, orf (flagIf inex Flag.nx) (flagIf (inex && tiny) Flag.uf))

/-- `RoundNE_f32` of an exact value. -/
def roundNE (v : Ex) : Nat := (roundF v .f32 0 0).1

/-- Round to an integer in a mode, with the inexact mark (R66). -/
def roundInt (v : Ex) (mode rnd : Nat) : Option (Int × Bool) :=
  match v with
  | .fin s n d =>
    let (m, inex) := roundUnits mode rnd s n d 0
    some (if s then -(m : Int) else m, inex)
  | _ => none

/-- Mixing step of the random hash (R51). -/
def mix (z0 : Nat) : Nat :=
  let z1 := (z0 ^^^ (z0 / 2 ^ 30)) * 0xBF58476D1CE4E5B9 % 2 ^ 64
  let z2 := (z1 ^^^ (z1 / 2 ^ 27)) * 0x94D049BB133111EB % 2 ^ 64
  z2 ^^^ (z2 / 2 ^ 31)

/-- Random bits of stochastic rounding (R51). -/
def srHash (seed tid c0 c1 c2 c3 e : Nat) : Nat :=
  let ka := (tid + e * 2 ^ 12 + c0 % 2 ^ 16 * 2 ^ 24 + c1 % 2 ^ 16 * 2 ^ 40) % 2 ^ 64
  let kb := c2 % 2 ^ 16 + c3 % 2 ^ 16 * 2 ^ 16
  bits (mix (mix (seed ^^^ ka) ^^^ kb)) 63 32

/-! ### The scratched value (R62) -/

def isSCR (w : Nat) : Bool := w / 2 ^ 20 % 2 ^ 12 == 0x7FA
def makeSCR (reason k v : Nat) : Nat := 0x7FA00000 + reason * 2 ^ 16 + k * 2 + v

/-! ### Narrow formats and block scales (R56-R61) -/

/-- A decoded narrow format descriptor (R56). -/
structure NF where
  w : Nat
  sgn : Nat
  e : Nat
  b : Int
  spec : Nat
  deriving DecidableEq, Repr, Inhabited

namespace NF

def ofDesc (x : Nat) : NF :=
  { w := bits x 15 13 + 4, sgn := bits x 12 12, e := bits x 11 9, b := sext (bits x 8 2) 7, spec := bits x 1 0 }

/-- Mantissa width. -/
def m (d : NF) : Nat := d.w - d.sgn - d.e

/-- Validity (R57). -/
def valid (d : NF) : Bool :=
  d.w ≤ 8 && d.spec != 3 && d.sgn + d.e ≤ d.w && 1 ≤ d.e + d.m &&
  (d.spec != 1 || 2 ≤ d.e + d.m) && (d.spec != 2 || (2 ≤ d.e && 1 ≤ d.m))

/-- Decode before scaling (R58). -/
def decode (d : NF) (c : Nat) : Ex :=
  let s := d.sgn == 1 && bit c (d.w - 1)
  let ex := c / 2 ^ d.m % 2 ^ d.e
  let fr := c % 2 ^ d.m
  if d.spec = 1 ∧ c % 2 ^ (d.w - d.sgn) = 2 ^ (d.w - d.sgn) - 1 then .nan
  else if d.spec = 2 ∧ ex = 2 ^ d.e - 1 then (if fr ≠ 0 then .nan else .inf s)
  else if d.e = 0 then Ex.scaled s fr (-d.b)
  else if ex = 0 then Ex.scaled s fr (1 - d.b - d.m)
  else Ex.scaled s (2 ^ d.m + fr) ((ex : Int) - d.b - d.m)

/-- The code of the largest finite magnitude. -/
def maxCode (d : NF) : Nat :=
  if d.spec = 1 then 2 ^ (d.w - d.sgn) - 2
  else if d.spec = 2 then (2 ^ d.e - 1) * 2 ^ d.m - 1
  else 2 ^ (d.w - d.sgn) - 1

/-- `Fmax` (R58). -/
def fmax (d : NF) : Ex := d.decode d.maxCode

/-- The code with the sign of `neg` and every other bit zero (R67 `SignOnly`). -/
def signOnly (d : NF) (neg : Bool) : Nat := if d.sgn = 1 ∧ neg then 2 ^ (d.w - 1) else 0

/-- Round a finite value onto the format's finite grid: code and whether the result lies above `Fmax` (then clamped). -/
def roundGrid (d : NF) (v : Ex) (mode rnd : Nat) : Nat × Bool :=
  match v with
  | .fin s n dd =>
    let sc := d.signOnly s
    if n = 0 then (sc, false)
    else if d.e = 0 then
      let (m, _) := roundUnits mode rnd s n dd (-d.b)
      if d.maxCode < m then (sc + d.maxCode, true) else (sc + m, false)
    else
      let e := floorLog2 n dd
      let emin : Int := 1 - d.b
      let k := (if e < emin then emin else e) - d.m
      let (m, _) := roundUnits mode rnd s n dd k
      let (m2, k2) := if m = 2 ^ (d.m + 1) then (2 ^ d.m, k + 1) else (m, k)
      let enc : Int := if m2 < 2 ^ d.m then m2 else (k2 + d.m + d.b) * 2 ^ d.m + (m2 - 2 ^ d.m)
      if (d.maxCode : Int) < enc then (sc + d.maxCode, true) else (sc + enc.toNat, false)
  | .inf s => (d.signOnly s + d.maxCode, true)
  | .nan => (0, false)

end NF

/-- Classes of an S10 scale (R60). -/
inductive Scale where
  | zero
  | inf
  | nan (reserved : Bool)
  | fin (v : Ex)
  deriving DecidableEq, Repr, Inhabited

/-- Decode of an S10 code (R60). -/
def decodeS10 (c : Nat) : Scale :=
  let e := c / 4 % 256
  let m := c % 4
  if e = 0 then (if m = 0 then .zero else .fin (Ex.scaled false m (-128)))
  else if e = 255 then (if m = 0 then .inf else .nan (1 < m))
  else .fin (Ex.scaled false (4 + m) ((e : Int) - 129))

/-- `ScaledValue` (R61). -/
def scaledValue (d : NF) (c σ : Nat) : Ex :=
  let s := d.sgn == 1 && bit c (d.w - 1)
  match decodeS10 σ with
  | .zero => .fin s 0 1
  | .inf => .inf s
  | .nan _ => .nan
  | .fin v => (d.decode c).mul v

/-- `ScaleUp` (R61): the smallest code whose value is at least `q`. -/
def scaleUp (q : Ex) : Nat :=
  match q with
  | .fin _ n d =>
    if n = 0 then 0
    else
      let e := floorLog2 n d
      if e < -126 then
        let (N, D) := scaleBy n d (-128)
        let m := (N + D - 1) / D
        if m < 1 then 1 else m
      else
        let (N, D) := scaleBy n d (e - 2)
        let m := (N + D - 1) / D
        let code : Int := (e + 127) * 4 + (m - 4)
        if 0x3FB < code then 0x3FC else code.toNat
  | _ => 0x3FC

/-- Quantisation of one block of values given as f32 words (R67): scale, codes, flags. `rnd i` serves element `i`. -/
def quantise (ws : List Nat) (d : NF) (mode : Nat) (rnd : Nat → Nat) : Nat × List Nat × Flags :=
  let vs := ws.map (FFmt.f32.decode ·)
  let sgns := ws.map fun w => d.signOnly (FFmt.f32.negOf w)
  if vs.any Ex.isNaN then
    (0x3FD, sgns, orf Flag.nfb (flagIf (ws.any fun w => FFmt.f32.isSNaN w && !isSCR w) Flag.nv))
  else if vs.any Ex.isInf then (0x3FC, sgns, Flag.nfb)
  else
    let amax := vs.foldl (fun a v => if a.lt v.abs then v.abs else a) Ex.zero
    if amax.isZero then (0, sgns, 0)
    else
      let q := amax.divFin d.fmax
      let big := (Ex.scaled false 7 125).lt q
      if !big && q.lt (Ex.scaled false 1 (-128)) then (0, sgns, Flag.ufl)
      else
        let σ := if big then 0x3FB else scaleUp q
        let sv := match decodeS10 σ with
          | .fin v => v
          | _ => Ex.scaled false 1 0
        let rs := vs.zipIdx.map fun (v, i) =>
          let x := v.divFin sv
          let (c, ovf) := d.roundGrid x mode (rnd i)
          if d.sgn = 0 ∧ v.negative ∧ !v.isZero then (0, orf Flag.sat Flag.nx)
          else (c, orf (flagIf ovf Flag.sat) (flagIf (!(d.decode c).eqv x) Flag.nx))
        (σ, rs.map Prod.fst, rs.foldl (fun a r => orf a r.2) (flagIf big Flag.sat))

/-- `Dequantise` (R69). -/
def dequantise (d : NF) (c σ : Nat) (f : FFmt) (mode rnd : Nat) : Nat × Flags :=
  let (r, fl) := roundF (scaledValue d c σ) f mode rnd
  (r, orf fl (flagIf (decodeS10 σ == .nan true) Flag.rsv))

/-! ### Element formats of V and M (R172) -/

/-- Element format codes 0 to 11 (R172). -/
inductive EF where
  | flt (f : FFmt)
  | int (w : Nat) (signed : Bool)
  | nf
  deriving DecidableEq, Repr, Inhabited

def EF.ofCode : Nat → Option EF
  | 0 => some (.flt .f32)
  | 1 => some (.flt .bf16)
  | 2 => some (.flt .f16)
  | 3 => some (.int 8 true)
  | 4 => some (.int 8 false)
  | 5 => some (.int 16 true)
  | 6 => some (.int 16 false)
  | 7 => some (.int 32 true)
  | 8 => some (.int 32 false)
  | 9 => some .nf
  | 10 => some (.int 4 true)
  | 11 => some (.int 4 false)
  | _ => none

/-- Element format codes of tensors (R78 EFMT). -/
def EF.ofEfmt : Nat → Option EF
  | 0 => some (.int 4 true)
  | 1 => some (.int 8 true)
  | 2 => some (.int 16 true)
  | 3 => some (.int 32 true)
  | 4 => some (.int 64 true)
  | 5 => some (.int 4 false)
  | 6 => some (.int 8 false)
  | 7 => some (.int 16 false)
  | 8 => some (.int 32 false)
  | 9 => some (.int 64 false)
  | 10 => some (.flt .f32)
  | 11 => some (.flt .bf16)
  | 12 => some (.flt .f16)
  | 13 => some .nf
  | _ => none

/-- Element width in bits; `nf` occupies a byte in V (R244). -/
def EF.width : EF → Nat
  | .flt f => f.width
  | .int w _ => w
  | .nf => 8

def EF.isFlt : EF → Bool
  | .flt _ => true
  | _ => false

/-- Exact value of an encoding that is not narrow. -/
def EF.decode : EF → Nat → Ex
  | .flt f, x => f.decode x
  | .int w true, x => Ex.ofInt (sext x w)
  | .int w false, x => Ex.ofInt (x % 2 ^ w : Nat)
  | .nf, x => Ex.ofInt (x : Nat)

def EF.isSNaN : EF → Nat → Bool
  | .flt f, x => f.isSNaN x
  | _, _ => false

/-- An f32 word that holds the scratched value. -/
def EF.isScr : EF → Nat → Bool
  | .flt f, x => f == .f32 && isSCR x
  | _, _ => false

/-- Conversion of an exact value into an element format (R66): floating by `Round`, integer by rounding and clamping. -/
def convertTo (v : Ex) (dst : EF) (mode rnd : Nat) : Nat × Flags :=
  match dst with
  | .flt f => roundF v f mode rnd
  | .int w s =>
    match v with
    | .nan => (0, Flag.nv)
    | .inf neg => (satN (if neg then -(2 : Int) ^ 200 else (2 : Int) ^ 200) w s, Flag.nv)
    | .fin .. =>
      match roundInt v mode rnd with
      | none => (0, Flag.nv)
      | some (i, inex) =>
        let r := satN i w s
        let back : Int := if s then sext r w else (r : Int)
        if back = i then (r, flagIf inex Flag.nx) else (r, Flag.nv)
  | .nf => (0, 0)

/-! ### Minimum and maximum (R47) -/

/-- `VMIN` and `VMAX` on encodings of a floating format. -/
def fminmax (f : FFmt) (max : Bool) (x y : Nat) : Nat × Flags :=
  if f.isSNaN x || f.isSNaN y then (f.qnan, Flag.nv)
  else if f.isNaN x then (if f.isNaN y then f.qnan else y, 0)
  else if f.isNaN y then (x, 0)
  else
    let ylt := (f.decode y).ltZ (f.decode x)
    (if max then (if ylt then x else y) else (if ylt then y else x), 0)

/-! ### Seeds and special functions (R74, R252) -/

/-- Integer square root, by bits from `2^fuel`. -/
def isqrt (n : Nat) : Nat → Nat → Nat
  | 0, acc => acc
  | k + 1, acc =>
    let c := acc + 2 ^ k
    isqrt n k (if c * c ≤ n then c else acc)

/-- The seed format: f32 values whose fraction bits 7:0 are zero. -/
def seedFmt : FFmt := ⟨8, 15⟩

/-- Encoding of the seed format as an f32 word. -/
def seedWord (x : Nat) : Nat := x * 2 ^ 8

/-- Special inputs shared by the seeds; `rsq` selects `VRSQE`. -/
def seedOf (rsq : Bool) (x : Nat) : Nat × Flags :=
  let f := FFmt.f32
  if isSCR x then (f.qnan, Flag.sx)
  else if f.isSNaN x then (f.qnan, Flag.nv)
  else if f.isNaN x then (f.qnan, 0)
  else
    match f.decode x with
    | .nan => (f.qnan, 0)
    | .inf neg => if rsq then (if neg then (f.qnan, Flag.nv) else (0, 0)) else (if neg then f.signBit else 0, 0)
    | .fin neg n d =>
      if n = 0 then (f.infBits (!rsq && neg), Flag.dz)
      else if rsq then
        if neg then (f.qnan, Flag.nv)
        else
          -- the root is taken to 64 bits beyond the seed, with a sticky unit when inexact
          let sc : Nat := 400
          let N := d * 2 ^ (2 * sc) / n
          let r := isqrt N (N.log2 / 2 + 1) 0
          let exact := r * r * n == d * 2 ^ (2 * sc)
          let v := Ex.fin false (if exact then 2 * r else 2 * r + 1) (2 ^ (sc + 1))
          (seedWord (roundF v seedFmt 0 0).1, 0)
      else
        let (r, fl) := roundF (.fin neg d n) seedFmt 0 0
        (seedWord r, if fl / 4 % 2 = 1 then orf Flag.of Flag.nx else 0)

/-- Fraction bits carried by the special functions. -/
def sfBits : Nat := 400

/-- `ln 2` times `2^sfBits`, by the series `2 Σ 1 / ((2i+1) 3^(2i+1))`. -/
def ln2Fix : Nat → Nat → Nat
  | 0, _ => 0
  | k + 1, i => 2 * 2 ^ sfBits / ((2 * i + 1) * 3 ^ (2 * i + 1)) + ln2Fix k (i + 1)

/-- Exponential series: `Σ t^i / i!` in fixed point. -/
def expFix (t : Nat) : Nat → Nat → Nat → Nat
  | 0, _, _ => 0
  | k + 1, i, term => term + expFix t k (i + 1) (term * t / 2 ^ sfBits / (i + 1))

/-- Series of `2 atanh z` in fixed point. -/
def atanhFix (z2 : Nat) : Nat → Nat → Nat → Nat
  | 0, _, _ => 0
  | k + 1, i, p => 2 * p / (2 * i + 1) + atanhFix z2 k (i + 1) (p * z2 / 2 ^ sfBits)

/-- A value between `n / 2^sfBits` and the next multiple, for rounding an irrational (log 6). -/
def sticky (neg : Bool) (n : Nat) (e : Int) : Ex := Ex.scaled neg (2 * n + 1) (e - sfBits - 1)

/-- `2^v` for a finite `v` (R252); exact for an integer. -/
def exp2Ex (v : Ex) : Ex :=
  match v with
  | .fin s n d =>
    let i : Int := if s then -(((n + d - 1) / d : Nat) : Int) else (n / d : Nat)
    let fr : Nat := if s then ((n + d - 1) / d) * d - n else n % d
    if fr = 0 then Ex.scaled false 1 (if i < -400 then -400 else if 400 < i then 400 else i)
    else if i < -400 then Ex.scaled false 3 (-400)
    else if 400 < i then Ex.scaled false 3 400
    else
      let t := fr * 2 ^ sfBits / d * ln2Fix 130 0 / 2 ^ sfBits
      sticky false (expFix t 90 0 (2 ^ sfBits)) i
  | _ => .nan

/-- `log2 v` for a positive finite `v`; exact for a power of two. -/
def log2Ex (v : Ex) : Ex :=
  match v with
  | .fin _ n d =>
    let e := floorLog2 n d
    let (N, D) := scaleBy n d e
    if N = D then Ex.ofInt e
    else
      let z := (N - D) * 2 ^ sfBits / (N + D)
      let l := atanhFix (z * z / 2 ^ sfBits) 140 0 z * 2 ^ sfBits / ln2Fix 130 0
      let tot : Int := e * 2 ^ sfBits + l
      if tot < 0 then sticky true ((-tot).toNat - 1) 0 else sticky false tot.toNat 0
  | _ => .nan

/-- `VEXP2` on an encoding (R252). -/
def vexp2 (f : FFmt) (x mode rnd : Nat) : Nat × Flags :=
  if f.isSNaN x then (f.qnan, Flag.nv)
  else
    match f.decode x with
    | .nan => (f.qnan, 0)
    | .inf true => (0, 0)
    | .inf false => (f.infBits false, 0)
    | v => roundF (exp2Ex v) f mode rnd

/-- `VLOG2` on an encoding (R252). -/
def vlog2 (f : FFmt) (x mode rnd : Nat) : Nat × Flags :=
  if f.isSNaN x then (f.qnan, Flag.nv)
  else
    match f.decode x with
    | .nan => (f.qnan, 0)
    | .inf true => (f.qnan, Flag.nv)
    | .inf false => (f.infBits false, 0)
    | .fin s n d =>
      if n = 0 then (f.infBits true, Flag.dz)
      else if s then (f.qnan, Flag.nv)
      else roundF (log2Ex (.fin s n d)) f mode rnd

end Sys2Proof
end

