-- ==== Sys2Proof/Machine/Tables.lean ====
section
/-! DEFINITION. Tables in canonical form: indexes strictly rising, and no listed value equal to the default. -/

namespace Sys2Proof.Tbl

variable {α : Type}

/-- The value listed at `k`. -/
def find? : Tbl α → Nat → Option α
  | [], _ => none
  | (i, v) :: t, k => if i = k then some v else find? t k

/-- The value at `k`, `d` where none is listed. -/
def getD (t : Tbl α) (k : Nat) (d : α) : α := (t.find? k).getD d

/-- List `v` at `k`. -/
def insert : Tbl α → Nat → α → Tbl α
  | [], k, v => [(k, v)]
  | (i, w) :: t, k, v =>
    if i = k then (k, v) :: t else if k < i then (k, v) :: (i, w) :: t else (i, w) :: insert t k v

/-- List nothing at `k`. -/
def erase : Tbl α → Nat → Tbl α
  | [], _ => []
  | (i, w) :: t, k => if i = k then erase t k else (i, w) :: erase t k

/-- Make the value at `k` equal to `v` where unlisted indexes have value `d`. -/
def put [DecidableEq α] (t : Tbl α) (k : Nat) (v d : α) : Tbl α := if v = d then t.erase k else t.insert k v

/-- Change the value listed at `k`, if any. -/
def modify (t : Tbl α) (k : Nat) (f : α → α) : Tbl α :=
  match t.find? k with
  | some v => t.insert k (f v)
  | none => t

/-- Change every listed value. -/
def mapVals {β : Type} (f : α → β) : Tbl α → Tbl β
  | [] => []
  | (i, v) :: t => (i, f v) :: mapVals f t

/-- Every listed index is above `k`. -/
def above (k : Nat) : Tbl α → Bool
  | [] => true
  | (i, _) :: t => k < i && above k t

/-- Indexes strictly rise. -/
def sorted : Tbl α → Bool
  | [] => true
  | (i, _) :: t => above i t && sorted t

/-- Canonical form: sorted, and no listed value is the default. -/
def wf [DecidableEq α] (d : α) (t : Tbl α) : Bool := sorted t && t.all fun e => !decide (e.2 = d)

end Sys2Proof.Tbl
end

