-- ==== Sys2Proof/Machine/State.lean ====
section
/-! DEFINITION. The state of one Calfer 940 package as plain data, why a step can stop, and the state after reset. Values
with no listed index have the default the field's comment names (INVENTORY.md lists every piece with its rule). -/

namespace Sys2Proof.Machine

/-- Reasons the machine stops. -/
inductive Fault where
  /-- Raised by `step` after a thermal trip (R499), a halt of the whole package: no step follows. Safe: nothing runs. -/
  | packageHalted
  deriving DecidableEq, Repr

/-- Reasons the model gives no meaning. -/
inductive Refusal where
  /-- Raised by `exec` for an instruction whose meaning is not written. Safe: nothing is claimed of it. -/
  | notModelled (mnemonic : String)
  deriving DecidableEq, Repr

/-! ### Memory and views (R105-R132) -/

/-- Agents of the memory model (R105). -/
inductive Agent where
  /-- a cox thread -/
  | thread (t : Nat)
  /-- the cluster half of a crew -/
  | half (crew : Nat)
  /-- an engine command -/
  | cmd (id : Nat)
  /-- the host -/
  | host
  /-- the graph sequencer and Course switch, which act for agents at package scope (R105, R500) -/
  | hub
  deriving DecidableEq, Repr, Inhabited

/-- A publication: its scope code, the cluster it was made from (64 where made from the hub or the host), the crew that made
it, the crews that its scope held at that instant (R111), and the first name not yet given then. -/
structure Pub where
  scope : Nat
  cl : Nat
  crew : Option Nat := none
  crews : List Nat := []
  upto : Nat := 0
  deriving DecidableEq, Repr, Inhabited

/-- One write of an agent to one line (R110); cells are physical addresses, rising. -/
structure Write where
  id : Nat
  agent : Agent
  cells : Tbl Byte
  pubs : List Pub
  deriving DecidableEq, Repr, Inhabited

/-- The snapshot of a phase: per line the names of the writes in the chosen prefix, the bytes written in the phase, and what
its acquire and those before it gained (R112-R115). -/
structure Phase where
  snap : Tbl (List Nat) := []
  fresh : Tbl Byte := []
  gained : List Nat := []
  /-- lanes with names below this read under it (R121) -/
  upto : Nat := 0
  deriving DecidableEq, Repr, Inhabited

/-- What an agent knows of memory (R112-R115). -/
structure View where
  /-- own writes no release of it has published, in program order -/
  pend : List Write := []
  /-- names of those that its issuer handed over (R125) -/
  handed : List Nat := []
  /-- names of its writes that are published -/
  made : List Nat := []
  /-- names of writes gained at its acquires -/
  gained : List Nat := []
  /-- bytes it wrote since its last acquire -/
  fresh : Tbl Byte := []
  /-- per line, the names of the writes in the chosen prefix -/
  snap : Tbl (List Nat) := []
  /-- earlier phases of a cluster half that lanes handed over before its acquires still read under, oldest first (R121) -/
  past : List Phase := []
  /-- names published by its completed copy-engine and index-engine commands (R311) -/
  fenceCE : List Nat := []
  fenceIX : List Nat := []
  /-- the launch it works for, whose gang may hold its releases -/
  launch : Option Nat := none
  /-- phases begun: acquires so far -/
  phase : Nat := 0
  /-- for a command: its crew, the cluster it was issued to, its issuer, and names of writes its issuer made after the issue
  under another number (R125) -/
  crew : Option Nat := none
  cl : Nat := 64
  issuer : Option Agent := none
  hidden : List Nat := []
  deriving DecidableEq, Repr, Inhabited

/-- Memory: initial contents (unlisted bytes are zero), the coherence order of the published writes, poisoned 32-byte
sectors (by sector number), and the upsets a read will find. -/
structure Memory where
  cells : List Host.Cell := []
  log : List Write := []
  poison : List Nat := []
  upsets : List (Nat × Upset) := []
  deriving DecidableEq, Repr, Inhabited

/-! ### Translation (R451-R464) -/

/-- A leaf translation: virtual base, size, physical base, and the permission bits. -/
structure Leaf where
  va : Nat
  size : Nat
  pa : Nat
  mem : Nat
  w : Bool
  x : Bool
  u : Bool
  deriving DecidableEq, Repr, Inhabited

/-- A TLB entry (R458). -/
structure TlbEntry where
  ctx : Nat
  leaf : Leaf
  deriving DecidableEq, Repr, Inhabited

/-- Who holds a pin. -/
inductive PinOwner where
  | crew (c : Nat)
  | thread (t : Nat)
  /-- the issue pin of a command (R298) -/
  | cmd (id : Nat)
  /-- the code pin of a launch, for the code object of a card (R457) -/
  | launch (id card : Nat)
  deriving DecidableEq, Repr, Inhabited

/-- A registered pin (R214, R459): byte ranges covered, write admission, translations. -/
structure Pin where
  handle : Nat
  owner : PinOwner
  ctx : Nat
  ranges : List (Nat × Nat)
  w : Bool
  leaves : List Leaf
  /-- the pages of the TID's descriptor, which the cluster half may read (R214, R280) -/
  descPages : List Leaf := []
  revoked : Bool := false
  /-- UNPIN seen; the names of the operations it waits for (R216) -/
  leaving : Option (List Nat) := none
  deriving DecidableEq, Repr, Inhabited

/-! ### Scalar halves: cox thread and sequencer -/

/-- A load in flight (R206, R212): its virtual and physical address, bytes, whether it extends the sign, the level that
translated it, the first name not given at its issue, and the value that will arrive. -/
structure Loading where
  va : Nat
  pa : Nat
  n : Nat
  signed : Bool
  level : Nat
  upto : Nat
  v : Word
  deriving DecidableEq, Repr, Inhabited

/-- A request in flight for an empty register (R167, R212). -/
inductive Pend where
  /-- the value that will arrive -/
  | value (v : Word)
  /-- a load -/
  | load (l : Loading)
  /-- a pin handle that will arrive -/
  | pin (h : Word)
  /-- the result of a command -/
  | cmd (id : Nat)
  /-- a `VGET` handed over; the value before it -/
  | vget (old : Word)
  deriving DecidableEq, Repr, Inhabited

/-- Registers and control of a thread or sequencer (R10). Unlisted registers hold zero. -/
structure Scalar where
  regs : Tbl Word := []
  full : BitVec 32 := BitVec.allOnes 32
  preds : BitVec 8 := 1#8
  pc : Word := 0
  depth : BitVec 32 := 0
  pend : Tbl Pend := []
  /-- lines fetched since the last IFENCE, by virtual address (R164) -/
  lines : Tbl (List Byte) := []
  /-- the line whose lanes are being executed, by virtual address -/
  line : Option Nat := none
  /-- the owner's view at its last IFENCE, or at its dispatch, and the names of the writes published to it then (R164, R211) -/
  fence : View := {}
  fenceSeen : List Nat := []
  /-- the present instruction has begun a stall episode (R142) -/
  stalled : Bool := false
  deriving DecidableEq, Repr, Inhabited

/-- States of a cox thread (R15). -/
inductive ThreadMode where
  | free
  | bound
  | ready
  /-- parked in `WAITC`: counter's physical address, value, scope, and its virtual address -/
  | waitc (pa v scope va : Nat)
  | returned
  /-- parked in `TLBI`: handles awaited -/
  | tlbi (pins : List Nat)
  | halted
  deriving DecidableEq, Repr, Inhabited

/-- A cox thread (R10, R15, R436). -/
structure Thread where
  mode : ThreadMode := .free
  sc : Scalar := {}
  level : BitVec 2 := 0
  inexc : Bool := false
  /-- crew it is bound to -/
  crew : Option Nat := none
  ctx : Nat := 0
  /-- address of the current exception record -/
  excRec : Word := 0
  /-- that record is the cluster record -/
  recCluster : Bool := false
  ctxResult : Word := 0
  /-- loss of decoupling reached the threshold at the pop of this pointer; whether that pop has completed (R150) -/
  lossDue : Option (Word × Bool) := none
  /-- the mode to return to after a handler taken while parked (R15, R444) -/
  parkedBefore : Option ThreadMode := none
  /-- the mode it goes on in after a pre-emption -/
  haltedFrom : ThreadMode := .ready
  /-- a stall event was written for the present wait (R448) -/
  reported : Bool := false
  /-- its crew's stall event was written and it has issued nothing since (R448) -/
  idle : Bool := false
  deriving DecidableEq, Repr, Inhabited

/-! ### Queues (R133-R157) -/

/-- A queue entry: data bytes and marks (R137). -/
structure QEntry where
  data : List Byte
  h : Bool := false
  t : Bool := false
  p : Bool := false
  deriving DecidableEq, Repr, Inhabited

/-- An architectural queue of a crew. -/
structure Queue where
  /-- `QCFG` image -/
  cfg : BitVec 32 := 0
  /-- closed by `QCLOSE` in this crew -/
  lost : Bool := false
  entries : List QEntry := []
  /-- entries the fabric popped since its last commit -/
  window : List QEntry := []
  /-- entries the fabric pushed since its last commit, poppable at the commit -/
  held : List QEntry := []
  /-- entries of the burst being assembled on a queue with WHOLE set -/
  part : List QEntry := []
  /-- a poisoned burst is being discarded on arrival (R140) -/
  dropping : Bool := false
  /-- skip-pending (R144) -/
  skip : Bool := false
  /-- skip-pending for an MVER, which reads the header of the burst as it goes by: its first entry, once there (R289, R293) -/
  watch : Option (List Byte) := none
  /-- the consumer has popped part of a burst (R156) -/
  mid : Bool := false
  empty : BitVec 16 := 0
  fullc : BitVec 16 := 0
  disc : BitVec 16 := 0
  deriving DecidableEq, Repr, Inhabited

/-! ### Faults posted by streams -/

/-- An exception as its record will hold it (R444). -/
structure Exc where
  cause : Nat
  addr : Word := 0
  info : Word := 0
  deriving DecidableEq, Repr, Inhabited

/-- A cluster exception posted to the crew's thread. -/
structure Posted where
  stream : Nat
  exc : Exc
  pc : Word
  resume : Word
  mmask : BitVec 16 := 0
  after : Bool := false
  deriving DecidableEq, Repr, Inhabited

/-! ### Contexts, partitions, crews -/

/-- Who queued a launch record: the host, with the writes its acceptance publishes (R370), or a LAUNCH command with the
cluster whose engine runs it (R378). -/
inductive Origin where
  | host (ids : List Nat)
  | command (id cl : Nat)
  deriving DecidableEq, Repr, Inhabited

/-- A launch record in a port queue. -/
structure PortRec where
  record : List Byte
  origin : Origin
  deriving DecidableEq, Repr, Inhabited

/-- A context's registers (R434, R436). -/
structure Context where
  part : Nat := 0
  sys : Bool := false
  ptRoot : Word := 0
  tidTable : Word := 0
  excVec : Word := 0
  saveBase : Word := 0
  saveSlots : Nat := 1
  dcplThr : BitVec 32 := 0
  quantum : BitVec 16 := 10
  prioCeil : BitVec 3 := 0
  wdog : BitVec 16 := 0
  dbgCtl : Bool := false
  evqBase : Word := 0
  evqHead : Word := 0
  evqTail : BitVec 32 := 0
  ctxTime : Word := 0
  launchDrop : Word := 0
  sitq : Nat := 0
  shufStat : Word := 0
  /-- save frames in use -/
  frames : List Nat := []
  /-- dispatches into each frame (R437); unlisted 0 -/
  frameCount : Tbl Nat := []
  /-- records queued at the launch port (R369) -/
  port : List PortRec := []
  /-- MSI-X vector (R495) -/
  vector : Nat := 1
  deriving DecidableEq, Repr, Inhabited

/-- An entry of a ready pool (R438). -/
structure PoolEntry where
  /-- a pre-empted crew, by number; else a node instance -/
  crew : Option Nat := none
  launch : Nat := 0
  card : Nat := 0
  inst : Nat := 0
  ctx : Nat := 0
  level : Nat := 0
  /-- a crew was pre-empted at the end of its quantum to place this entry (R441) -/
  promised : Bool := false
  deriving DecidableEq, Repr, Inhabited

/-- A partition (R433): its units, tenant and ready pool, oldest first. -/
structure Partition where
  units : List Nat := []
  tenant : Option Nat := none
  pool : List PoolEntry := []
  deriving DecidableEq, Repr, Inhabited

/-- Stages of a crew. -/
inductive Stage where
  /-- resident in a context slot -/
  | resident
  /-- halted, its save in progress: whether it will be suspended, and the cause -/
  | saving (suspend : Bool) (cause : Nat)
  /-- saved, in the pool -/
  | evicted
  | suspended
  /-- gone: completed or ended -/
  | gone
  deriving DecidableEq, Repr, Inhabited

/-- States of the S stream (R231). -/
inductive SMode where
  /-- the start message has not arrived -/
  | waiting
  | running
  /-- parked in `WAITC`: its counter as for a thread, and the name of this wait -/
  | waitc (pa v scope va name : Nat)
  | stopped
  /-- an exception is posted and not yet returned from -/
  | faulted
  deriving DecidableEq, Repr, Inhabited

/-- A loop register (R232, R440). -/
structure LoopRec where
  active : Bool := false
  /-- order of starting, for loops that share an end lane (R234) -/
  born : Nat := 0
  depth : BitVec 32 := 0
  cnt : Word := 0
  start : Word := 0
  stop : Word := 0
  deriving DecidableEq, Repr, Inhabited

/-- Progress of a command or stream entry through its steps. -/
structure Progress where
  begun : Bool := false
  pos : Nat := 0
  count : Nat := 0
  events : Nat := 0
  nums : List Nat := []
  bytes : List Byte := []
  deriving DecidableEq, Repr, Inhabited

/-- A lane handed over to the V, M, L or W stream (R20), with what is read at handover. -/
structure Entry where
  name : Nat
  instr : Instr
  pc : Word
  /-- s registers read at handover -/
  sval : Word := 0
  sidx : Nat := 0
  /-- `VCTL` and `RND_SEED` as they stand for this instruction (R55) -/
  vctl : BitVec 32 := 0
  seed : Word := 0
  /-- narrow format descriptor of `VNF_TID` at handover, none where its TID fails (R245) -/
  vnf : Option Nat := none
  /-- that descriptor lies outside every pin: its address (R459) -/
  vnfAt : Option Nat := none
  vnfTid : Nat := 0
  /-- the lane is no instruction: its stream raises the illegal-instruction exception (R184) -/
  bad : Bool := false
  /-- token bits already taken by this instruction (R147) -/
  popped : Bool := false
  /-- finished, waiting to push its tokens -/
  finished : Bool := false
  /-- tokens it has pushed (R147) -/
  pushed : Nat := 0
  /-- its place in the order of completion, as a name, once it has completed with tokens to push (R148) -/
  done : Nat := 0
  /-- a stall episode is open -/
  stalled : Bool := false
  /-- an M exception found, taken once every earlier M instruction has completed (R280) -/
  exc : Option Exc := none
  prog : Progress := {}
  deriving DecidableEq, Repr

/-! ### Stroke arrays (R269) -/

/-- Standing of an accumulator cell. -/
inductive CellState where
  | live
  /-- abandoned: reason, verdict, block index -/
  | gone (reason verdict k : Nat)
  | complete
  deriving DecidableEq, Repr, Inhabited

/-- An accumulator cell: value, error bound, standing. -/
structure Cell where
  acc : BitVec 32 := 0
  err : BitVec 32 := 0
  st : CellState := .live
  deriving DecidableEq, Repr, Inhabited

/-- A plane: exact stationary values by column (unlisted: all +0), masks by column (unlisted: all ones), bounds. -/
structure Plane where
  vals : Tbl (List Ex) := []
  mask : Tbl (BitVec 256) := []
  mq : Tbl (BitVec 32) := []
  mqv : Bool := false
  origin : Nat := 0
  deriving DecidableEq, Repr, Inhabited

/-- An accumulator tile: cells by row × 256 + column, verdict record, tag, and the reserved-code mark of R285. -/
structure XTile where
  cells : Tbl Cell := []
  vtid : Nat := 0
  np : Nat := 0
  settled : Bool := false
  c1 : Nat := 0
  c2 : Nat := 0
  c3 : Nat := 0
  origin : Nat := 0
  rsv : Bool := false
  deriving DecidableEq, Repr, Inhabited

structure Stroke where
  front : Plane := {}
  shadow : Plane := {}
  tiles : Tbl XTile := []
  tsf : Tbl (BitVec 32) := []
  dsn : BitVec 8 := 0
  deriving DecidableEq, Repr, Inhabited

/-! ### The Sweep fabric (R328-R361) -/

/-- A token (R332). -/
inductive Tok where
  | data (w : BitVec 32) (tag : Nat) (h t : Bool) (eod : Nat)
  | pred (v : Bool) (tag : Nat)
  | marker (k : Nat)
  deriving DecidableEq, Repr, Inhabited

/-- What an element keeps between firings, and a checkpoint holds (R349). -/
structure ElemState where
  /-- RED's group, ACC's accumulator, DELAY's line, or the words an SNK or a write-mode AGEN has collected -/
  nums : List Nat := []
  /-- tokens a source has made and not emitted -/
  out : List Tok := []
  /-- CNT's count, or an AGEN's walk position -/
  pos : Nat := 0
  /-- CARRY in its loop state; a source inside a tile; a group or entry whose head carried H -/
  flag : Bool := false
  head : Bool := false
  /-- tiles a source has begun and ended -/
  begun : Nat := 0
  ended : Nat := 0
  /-- by tile, what `moved` was when a queue's source ended it (R350) -/
  ends : Tbl Nat := []
  /-- marker a source emits next -/
  mark : Option Nat := none
  /-- queue entries popped or pushed, or writes logged, since load -/
  moved : Nat := 0
  deriving DecidableEq, Repr, Inhabited

/-- A logged write (R343): element, its number there, bank bytes or physical bytes, and the scope it is published at. -/
structure Logged where
  el : Nat
  seq : Nat
  bank : Bool
  cells : Tbl Byte
  scope : Nat
  /-- its virtual address, and the page that translated it -/
  va : Nat := 0
  leaf : Option Leaf := none
  /-- a TLBI has removed that translation: the pins through which it may still commit (R462, R463) -/
  needs : Option (List Nat) := none
  deriving DecidableEq, Repr, Inhabited

/-- A loaded section (R329). -/
structure Section where
  image : List Byte
  /-- `VCTL.DRM` at the load (R337) -/
  drm : Nat := 0
  armed : Nat := 0
  committed : Nat := 0
  /-- tile indexes made due by requests (R352) -/
  due : List Nat := []
  /-- the index an FCOMMIT waits for -/
  wanted : Option Nat := none
  /-- input queues by element × 4 + input -/
  inq : Tbl (List Tok) := []
  /-- element states, unlisted as at load -/
  elems : Tbl ElemState := []
  /-- element states at the last commit -/
  base : Tbl ElemState := []
  /-- checkpoints of markers forwarded and not committed: element, marker, state -/
  ckpts : List (Nat × Nat × ElemState) := []
  log : List Logged := []
  /-- marker of the last aborted commit (R353) -/
  aborted : Option Nat := none
  /-- scope at which the reads of a subgraph acquire since a `WIDEN` token (R128) -/
  widened : Tbl Nat := []
  /-- names of a subgraph's committed sink writes (R128) -/
  sunk : Tbl (List Nat) := []
  deriving DecidableEq, Repr, Inhabited

/-- A configuration given to the loader by a stalled FCFG (R242): pointer, section, and the loader's answer (0 loaded). -/
structure LoadReq where
  ptr : Nat
  sec : Nat
  answer : Option Nat := none
  deriving DecidableEq, Repr, Inhabited

/-- An engine command (R296-R302). Its name is its order among the crew's operations (R126). -/
structure Cmd where
  id : Nat
  instr : Instr
  issuer : Owner
  crew : Option Nat
  ctx : Nat
  av : Word
  bv : Word
  /-- the value `ACCW.CAS` expects -/
  dv : Word := 0
  /-- the register it fetches into -/
  fetch : Option Nat := none
  /-- `RND_SEED` at issue (R408) -/
  seed : Word := 0
  /-- scope of its completion release, reply and counter addresses, declared footprint (R174, R301) -/
  scope : Nat := 2
  reply : Nat := 0
  cntr : Nat := 0
  decl : Bool := false
  /-- the fields of its reply record so far -/
  flags : Nat := 0
  events : Nat := 0
  count : Nat := 0
  /-- progress; `bytes` holds the command block once taken -/
  prog : Progress := {}
  /-- its status, once only completion is left -/
  status : Option Nat := none
  /-- a stall episode is open (R142) -/
  stalled : Bool := false
  /-- a replay fell outside its port's window: it never completes (R477) -/
  lost : Bool := false
  /-- a page that its held accumulates go to has been revoked (R318, R463) -/
  revoked : Bool := false
  /-- its reply stands and its completion release waits for its gang's commit (R119, R302) -/
  replied : Bool := false
  deriving DecidableEq, Repr

/-- A crew: one dispatched node instance (R22-R27, R373, R439). -/
structure Crew where
  ctx : Nat := 0
  launch : Nat := 0
  card : Nat := 0
  cardAddr : Word := 0
  cardBytes : List Byte := []
  inst : Nat := 0
  cl : Nat := 0
  /-- the cluster it was dispatched to -/
  born : Nat := 0
  slot : Nat := 0
  thread : Nat := 0
  frame : Nat := 0
  /-- count of dispatches into the frame, in the handle (R437) -/
  count : Nat := 0
  /-- pool level (R438) -/
  level : Nat := 0
  /-- order of dispatch, for the choice of R441 -/
  order : Nat := 0
  spad : Nat := 0
  stage : Stage := .resident
  /-- messages of R23 not yet arrived -/
  startThread : Bool := true
  /-- start pointer of a loop record that failed its checks on resumption: S takes the target fault (R440) -/
  loopFault : Option Word := none
  sc : Scalar := {}
  loops : Tbl LoopRec := []
  smode : SMode := .waiting
  /-- a stall event was written for the present wait (R448) -/
  reported : Bool := false
  /-- the crew's stall event was written and its cluster half has issued and completed nothing since (R448) -/
  idle : Bool := false
  /-- names of lanes, commands and writes of the crew, in order -/
  vq : List Entry := []
  mq : List Entry := []
  lq : List Entry := []
  wq : List Entry := []
  /-- streams stopped by an exception: 2 V, 3 M, 4 L, 5 W -/
  stopped : List Nat := []
  /-- dependence-token counts by FIFO: 0 L→V, 1 V→L, 2 L→M, 3 M→L, 4 W→V, 5 V→W, 6 W→M, 7 M→W -/
  tokens : Tbl Nat := []
  /-- exceptions posted and not yet delivered, oldest first (R444) -/
  posted : List Posted := []
  /-- the one being handled -/
  handling : Option Posted := none
  /-- matrix words: register × 1024 + row × 32 + column; unlisted 0 -/
  m : Tbl (BitVec 32) := []
  /-- lane masks w0-w7; unlisted 0 -/
  w : Tbl (BitVec 128) := []
  /-- threshold registers; unlisted 0xFF80_0000 (R237) -/
  h : Tbl (BitVec 32) := []
  /-- HRD reads not yet merged: register, value, where the merge is suppressed none (R238, R471) -/
  hrds : List (Nat × Option (BitVec 32)) := []
  vstat : BitVec 32 := 0
  vctl : BitVec 32 := 0x20
  /-- CTLW writes of V's control registers waiting for the V instruction named to complete (R55): name, register, value -/
  vwrites : List (Nat × Nat × Word) := []
  rndSeed : Word := 0
  rndCtr : Word := 0
  vnfTid : Word := 0
  strokeOut : Tbl Word := []
  ceFlags : BitVec 32 := 0
  ixFlags : BitVec 32 := 0
  fstat : Word := 0
  dcplCnt : BitVec 32 := 0
  queues : Tbl Queue := []
  /-- skip tokens waiting for a free branch-queue entry, oldest first; whether S's waiting push reached the queue before (R149) -/
  skipToks : List (Word × Bool) := []
  /-- the stall episode that S last began was of a push to the branch queue (R149) -/
  atBrq : Bool := false
  /-- descriptor copies by TID (R81) -/
  tids : Tbl (List Byte) := []
  /-- writes published at package scope when it was dispatched: what its descriptor copies are read from (R81) -/
  seen : List Nat := []
  /-- the two Stroke arrays (R269) -/
  strokes : Tbl Stroke := []
  /-- descriptor slots of L and W, 64 bytes each; unlisted slots are empty (R324) -/
  lslots : Tbl (List Byte) := []
  wslots : Tbl (List Byte) := []
  /-- sections with a loaded configuration, and the crew's section count (R241) -/
  sections : Tbl Section := []
  sectionCount : Nat := 1
  /-- scope of the crew's level (R345) -/
  levelScope : Nat := 2
  /-- bank tokens held by sections, as section + 1; unlisted banks are the streams' (R100) -/
  banks : Tbl Nat := []
  loading : Option LoadReq := none
  /-- commands saved with the crew: copy engine's, index engine's (R300) -/
  savedCE : List Cmd := []
  savedIX : List Cmd := []
  /-- scratchpad bytes by address; unlisted bytes are what the bank held (free values, R98) -/
  sp : Tbl Byte := []
  /-- 64-bit scratchpad words with a lasting error, by address / 8 (R467, R471) -/
  spBad : List Nat := []
  /-- a lasting error stands in its save state, which its save or restore will meet (R467, R471, R474) -/
  saveBad : Bool := false
  deriving DecidableEq, Repr

/-- An execute cluster. -/
structure Cluster where
  /-- the crew of each context slot -/
  slots : Tbl Nat := []
  /-- the active slot (R24) -/
  active : Option Nat := none
  copyQ : List Cmd := []
  indexQ : List Cmd := []
  withdrawn : Bool := false
  /-- the context slot that last fired at an element of the fabric, plus 1, by row × 64 + column (R328) -/
  fired : Tbl Nat := []
  /-- spare rows left per array, and spare banks left (R473); unlisted, what the fuses give (R498) -/
  spareRows : Tbl Nat := []
  spareBank : Option Nat := none
  /-- residue mismatches pending: array, row, times -/
  residues : List (Nat × Nat × Nat) := []
  deriving DecidableEq, Repr

/-- One level of a launch (R366). -/
structure Level where
  count : Nat
  domain : Nat
  scope : Nat
  deriving DecidableEq, Repr, Inhabited

/-- Gang standing of a launch (R380-R382). -/
inductive GangRole where
  | none
  /-- leader: identifier, members (package, context) by rank, ranks that acknowledged and that reported, committed -/
  | leader (gang : Nat) (members : List (Nat × Nat)) (acks reports : List Nat) (committed : Bool)
  /-- member: identifier, rank, leader's package and context, committed -/
  | member (gang rank leader lctx : Nat) (committed : Bool)
  deriving DecidableEq, Repr, Inhabited

/-- A job card as accepted (R363). -/
structure Card where
  bytes : List Byte
  /-- entry code pointers of the access and cluster code -/
  aent : Word := 0
  cent : Word := 0
  /-- queue images opened at dispatch -/
  qcfg : List (Nat × Nat) := []
  /-- scratchpad banks, a spill bank included -/
  spad : Nat := 0
  lodor : Bool := false
  deriving DecidableEq, Repr, Inhabited

/-- Standing of a node instance. -/
inductive InstState where
  | waiting
  | ready
  | dispatched (crew : Nat)
  /-- completed, its report not yet acted on -/
  | ended
  | reported
  /-- its crew was ended -/
  | failed
  deriving DecidableEq, Repr, Inhabited

/-- An accepted launch (R368-R375). -/
structure Launch where
  ctx : Nat
  /-- place in the order of acceptance (R370) -/
  order : Nat
  record : List Byte
  levels : List Level := []
  graph : Nat := 0
  reply : Nat := 0
  cntr : Nat := 0
  prio : Nat := 0
  stream : Nat := 0
  cards : List Card := []
  /-- standing of instances, by index × 4,096 + card; unlisted waiting -/
  insts : Tbl InstState := []
  /-- status that stopped its dispatch (R375) -/
  stopped : Option Nat := none
  completed : Nat := 0
  residues : Nat := 0
  gang : GangRole := .none
  /-- releases held back until the gang commits (R119): scope, cluster, names -/
  held : List (Nat × Nat × List Nat) := []
  finished : Bool := false
  deriving DecidableEq, Repr, Inhabited

/-! ### Memory ports (R313, R318, R319) -/

/-- A port's record of one source: its next sequence, and the last 4,096 applied with their old values (R313);
none where the read met a lasting error. -/
structure PortLog where
  next : Nat := 0
  recent : List (Nat × Option Nat) := []
  deriving DecidableEq, Repr, Inhabited

/-- A held ordered accumulate (R318): source package where it is another, source cluster, sequence, command, physical and
virtual address, format, operation, operand. -/
structure HeldAdd where
  pkg : Option Nat := none
  cl : Nat
  seq : Nat
  cmd : Nat
  pa : Nat
  va : Nat := 0
  efmt : Nat
  op : Nat
  v : Nat
  deriving DecidableEq, Repr, Inhabited

/-- What a port keeps for an epoch. -/
structure EpochPort where
  held : List HeldAdd := []
  /-- it overflowed: contributions are refused (R319) -/
  refused : Bool := false
  applied : Bool := false
  deriving DecidableEq, Repr, Inhabited

/-- An epoch (R318): closes received, its ports, the next sequence by cluster, and the commands waiting with the ports
they reached. -/
structure Epoch where
  nsrc : Nat := 1
  closes : Nat := 0
  ports : Tbl EpochPort := []
  seqs : Tbl Nat := []
  waiting : List (Nat × List Nat) := []
  deriving DecidableEq, Repr, Inhabited

/-! ### The hub: reports, the Course, shuffles (R376, R397-R416) -/

/-- A completion report on its way to the graph sequencer (R26). -/
structure Report where
  launch : Nat
  card : Nat
  inst : Nat
  cl : Nat
  /-- entries discarded; the residue flag is set when there are any -/
  discarded : Nat
  /-- the sender's sequence number (R376) -/
  seq : Nat := 0
  deriving DecidableEq, Repr, Inhabited

/-- A message on the Course. -/
inductive CourseMsg where
  | arm (m : GangMsg)
  | ack (m : GangMsg)
  | commit (m : GangMsg)
  | abort (m : GangMsg)
  | report (m : GangMsg)
  | packet (p : Packet)
  /-- the broadcast of R478 -/
  | failed (pkg : Nat)
  deriving DecidableEq, Repr, Inhabited

/-- The name of a block (R399). -/
structure Name where
  shid : Nat
  src : Nat
  blk : Nat
  deriving DecidableEq, Repr, Inhabited

/-- States of a side-information entry other than FREE (R404). -/
inductive SiState where
  | pinned
  | expect
  | held
  | failed
  | retained
  deriving DecidableEq, Repr, Inhabited

/-- A side-information entry (R404): for the shuffle named, to be kept after it or not, and the order of its binding. -/
structure SiEntry where
  ctx : Nat
  name : Name
  addr : Nat
  len : Nat
  st : SiState
  shid : Nat
  ret : Bool := false
  bound : Nat := 0
  deriving DecidableEq, Repr, Inhabited

/-- A send entry of a plan; it has left, or not. -/
structure SendEntry where
  name : Name
  len : Nat
  /-- elements of a quantised entry, else 0 -/
  nelem : Nat
  addr : Nat
  dmask : Nat
  left : Bool := false
  deriving DecidableEq, Repr, Inhabited

/-- A bound shuffle (R405). -/
structure Shuffle where
  /-- the SHUF command: its cluster and name -/
  cl : Nat
  cmd : Nat
  ctx : Nat
  rank : Nat
  parts : List Nat
  mtrap : Bool
  qrm : Nat
  qtid : Nat
  /-- narrow format descriptor of quantised sends -/
  nfd : Nat
  bcntr : Nat
  sends : List SendEntry
  groups : List (List Nat)
  /-- send entries still to be read, in order -/
  todo : List Nat
  /-- send entries whose blocks the pairing buffer holds -/
  waiting : List (Nat × List Byte) := []
  /-- groups whose deadline has passed -/
  broken : List Nat := []
  /-- ranks whose READY has come -/
  ready : List Nat := []
  closed : Bool := false
  /-- ranks whose CLOSE has come -/
  closes : List Nat := []
  /-- packets in the decode buffer, oldest first -/
  held : List Packet := []
  deriving DecidableEq, Repr, Inhabited

/-- What a mailbox command returns beside its status (R496, R497, R499): the management counters with the addresses of errors, the
power and temperatures the sensors last gave, or an attestation report with its measurements, feature vector, nonce and the
signatures of both algorithms. -/
inductive MailAnswer where
  | none
  | counters (t : Tbl Nat) (addrs : List Nat) (power : Nat) (temps : List Nat)
  | report (measurements features nonce rsa slh : List Byte)
  deriving DecidableEq, Repr, Inhabited

/-- An entry of Chervil's cache (R488): its tenant and key, and the artefact window sealed with AES-256-GCM under the tenant's key:
nonce, ciphertext and tag. -/
structure CacheEntry where
  tenant : Nat
  key : List Byte
  nonce : List Byte
  cipher : List Byte
  tag : List Byte
  deriving DecidableEq, Repr, Inhabited

/-- A withdrawn unit whose crews are still being saved (R474): the unit and instance of its report, those crews, and the contexts of
the crews moved and of those ended so far. -/
structure Withdrawal where
  unit : Nat
  inst : Nat
  waiting : List Nat
  moved : List Nat := []
  ended : List Nat := []
  deriving DecidableEq, Repr, Inhabited

/-- The package. -/
structure State where
  /-- boot status word (R498) -/
  boot : BitVec 16 := 0
  /-- the step at which the bring-up under way will fail, 0 for none (the environment's, R498) -/
  bootFail : Nat := 0
  halted : Bool := false
  /-- arithmetic clock stepped down (R499) -/
  slowClock : Bool := false
  mem : Memory := {}
  views : List (Agent × View) := []
  tlb : Tbl (List TlbEntry) := []
  pins : List Pin := []
  threads : Tbl Thread := []
  /-- the thread of each cox core that last issued, by its number within the core plus 1 (R16) -/
  turns : Tbl Nat := []
  clusters : Tbl Cluster := []
  crews : Tbl Crew := []
  contexts : Tbl Context := []
  partitions : Tbl Partition := []
  launches : Tbl Launch := []
  /-- management counters: errors by class × 2^24 + unit × 2^16 + instance, and discards by their own numbers (R465, R466,
  R488, R493); unlisted 0 -/
  counters : Tbl Nat := []
  /-- physical addresses of the sectors in which errors were found, oldest first (R465) -/
  errorAddrs : List Nat := []
  /-- MSI-X vectors signalled (R495) -/
  msix : List Nat := []
  /-- port records by port × 128 + source cluster × 2, 1 more for its index engine (R313) -/
  portLogs : Tbl PortLog := []
  /-- uses of epochs in progress, by EPID in bits 31:0 of the key (R318) -/
  epochs : Tbl Epoch := []
  /-- completion reports on their way (R26) -/
  reports : List Report := []
  /-- by package, the sequence number after its last active message received (R377) -/
  heard : Tbl Nat := []
  /-- messages sent to other packages, by destination, oldest first -/
  outbox : List (Nat × CourseMsg) := []
  /-- gang messages this package sent to itself and has not yet received (R381) -/
  selfbox : List CourseMsg := []
  /-- bound shuffles by SHID, and the side-information table (R404, R405) -/
  shuffles : Tbl Shuffle := []
  sit : List SiEntry := []
  /-- sound lanes of a Course link by port (R476); unlisted 8, 0 where it is down -/
  links : Tbl Nat := []
  /-- spare data lanes left of an HBM4E pseudo-channel (R473); unlisted, what the fuses give (R498) -/
  laneSpares : Tbl Nat := []
  /-- pseudo-channels withdrawn (R473) -/
  channelsGone : List Nat := []
  /-- withdrawn units not yet reported to contexts (R474) -/
  withdrawals : List Withdrawal := []
  /-- signing keys by tenant × 8 + slot, cache quotas by tenant, and Chervil's cache (R486-R489) -/
  keys : Tbl (List Byte) := []
  quotas : Tbl Nat := []
  cache : List CacheEntry := []
  /-- evictions of each tenant from its part of the cache -/
  evictions : Tbl Nat := []
  /-- package power limit in W, and the power in W and temperatures the sensors last gave (R496, R499) -/
  powerLimit : Nat := 2800
  power : Nat := 0
  temps : List Nat := []
  /-- images installed since the part was shipped, at most one of a kind, and those staged for the next bring-up (R497) -/
  images : List FirmwareImage := []
  staged : List FirmwareImage := []
  /-- bytes of the MSI-X table in BAR0 (R493, R495); unlisted 0 -/
  msixTable : Tbl Byte := []
  /-- what the last host read returned; none is poison (R494, R498) -/
  hostAnswer : Option (List Byte) := some []
  /-- status and answer of the last mailbox command (R496) -/
  mailStatus : BitVec 16 := 0
  mailAnswer : MailAnswer := .none
  /-- the unit of the present step (model's own, log 2) -/
  cur : UnitId := .package
  /-- SID of the lane the present unit fetched: 4 for L, 5 for W (model's own, log 2) -/
  lane : Nat := 0
  /-- turns still to come (model's own, log 2) -/
  agenda : List Turn := []
  /-- draws made from the free values (model's own, log 3) -/
  draws : Nat := 0
  /-- next fresh name of a write, command, lane or crew (model's own, log 3) -/
  nextId : Nat := 1
  deriving DecidableEq, Repr

/-- The machine right after reset: bring-up has not begun (R498), memory lists nothing. -/
def State.reset : State := {}

end Sys2Proof.Machine
end

