-- ==== Sys2Proof/Machine/Access.lean ====
section
/-! DEFINITION. Reading and changing the parts of the state, the monad of the meanings, and the draws of free values. -/

namespace Sys2Proof.Machine

/-- Why a meaning ends with none of its effect. -/
inductive Stop where
  /-- it stalls in issue (R17) -/
  | stall
  /-- it stalls on a queue, at a pop or a push (R141, R142); whether that is a loss of decoupling (R150) -/
  | stallQ (q : Nat) (push loss : Bool)
  /-- it raises an exception (R8) -/
  | trap (e : Exc)
  /-- a queue operation traps after counting its episode (R143) -/
  | trapQ (q : Nat) (push : Bool) (e : Exc)
  /-- it raises an exception, and what it did before stands (R233) -/
  | trapKeep (e : Exc)
  /-- it met a lasting error in memory, at a virtual address (R471, first row) -/
  | lasting (va : Nat)
  /-- a command ends with a completion status; what it did before stands (R302) -/
  | status (n : Nat)
  deriving DecidableEq, Repr, Inhabited

/-- A meaning: it changes the state, or stops. -/
abbrev M := EStateM Stop State

/-- The outcome of a machine step. -/
abbrev Out := Host.Outcome State Fault Refusal

namespace State

def thread (s : State) (t : Nat) : Thread := s.threads.getD t {}
def setThread (s : State) (t : Nat) (v : Thread) : State := { s with threads := s.threads.put t v {} }
def cluster (s : State) (c : Nat) : Cluster := s.clusters.getD c {}
def setCluster (s : State) (c : Nat) (v : Cluster) : State := { s with clusters := s.clusters.put c v {} }
def crew (s : State) (c : Nat) : Crew := s.crews.getD c { stage := .gone }
def setCrew (s : State) (c : Nat) (v : Crew) : State := { s with crews := s.crews.insert c v }
def context (s : State) (c : Nat) : Context := s.contexts.getD c {}
def setContext (s : State) (c : Nat) (v : Context) : State := { s with contexts := s.contexts.insert c v }
def partition (s : State) (p : Nat) : Partition := s.partitions.getD p {}
def setPartition (s : State) (p : Nat) (v : Partition) : State := { s with partitions := s.partitions.insert p v }

/-- The crew active on a cluster. -/
def activeCrew (s : State) (cl : Nat) : Option Nat :=
  let c := s.cluster cl
  match c.active with
  | some k => c.slots.find? k
  | none => none

def bump (s : State) (k n : Nat) : State := { s with counters := s.counters.put k (s.counters.getD k 0 + n) 0 }

/-- An error of a class is counted for its unit and instance (R465, R466). -/
def countError (s : State) (cls unit inst : Nat) : State := s.bump (cls * 2 ^ 24 + unit * 2 ^ 16 + inst) 1

def lookupView (l : List (Agent × View)) (a : Agent) : View :=
  match l with
  | [] => {}
  | (b, v) :: t => if a = b then v else lookupView t a

def replaceView (l : List (Agent × View)) (a : Agent) (v : View) : List (Agent × View) :=
  match l with
  | [] => [(a, v)]
  | (b, w) :: t => if a = b then (a, v) :: t else (b, w) :: replaceView t a v

def view (s : State) (a : Agent) : View := lookupView s.views a
def setView (s : State) (a : Agent) (v : View) : State := { s with views := replaceView s.views a v }
def dropView (s : State) (a : Agent) : State := { s with views := s.views.filter fun e => decide (e.1 ≠ a) }

/-- Registers of a thread or of a crew's sequencer. -/
def scalar (s : State) : Owner → Scalar
  | .thread t => (s.thread t).sc
  | .crew c => (s.crew c).sc

def setScalar (s : State) (o : Owner) (v : Scalar) : State :=
  match o with
  | .thread t => s.setThread t { s.thread t with sc := v }
  | .crew c => s.setCrew c { s.crew c with sc := v }

end State

/-! ### Free values (R5) -/

/-- An outcome from `lo` to `hi`; nothing is drawn where there is one outcome. -/
def pick (lo hi : Nat) : M Nat := fun s =>
  if hi ≤ lo then .ok lo s
  else .ok (lo + Config.freeNat s.draws % (hi - lo + 1)) { s with draws := s.draws + 1 }

/-- A fresh name. -/
def freshId : M Nat := fun s => .ok s.nextId { s with nextId := s.nextId + 1 }

def trap {α} (cause : Nat) (addr info : Word := 0) : M α := throw (.trap { cause := cause, addr := addr, info := info })

/-- Change the state by a function. -/
def upd (f : State → State) : M Unit := modify f

/-- Cluster of a thread's home (R18). -/
def homeCluster (t : Nat) : Nat := t / 32

/-- Where an agent stands: its cluster, 64 for the host and the hub; a command of a crew stands with its crew (R108). -/
def placeOf (s : State) : Agent → Nat
  | .thread t =>
    match (s.thread t).crew with
    | some c => (s.crew c).cl
    | none => homeCluster t
  | .half c => (s.crew c).cl
  | .cmd id =>
    match (s.view (.cmd id)).crew with
    | some c => (s.crew c).cl
    | none => (s.view (.cmd id)).cl
  | .host => 64
  | .hub => 64

/-- The commands of the package: those in engines, with the engine's cluster, and those saved with crews (R296, R300). -/
def commandsOf (s : State) : List (Nat × Cmd) :=
  (s.clusters.flatMap fun e => (e.2.copyQ ++ e.2.indexQ).map fun c => (e.1, c)) ++
  s.crews.flatMap fun e => if e.2.stage == .gone then [] else (e.2.savedCE ++ e.2.savedIX).map fun c => (e.2.cl, c)

/-- A command by its name. -/
def findCmd (s : State) (id : Nat) : Option Cmd := ((commandsOf s).find? fun e => e.2.id == id).map (·.2)

/-- Change a command wherever it stands. -/
def updAnyCmd (id : Nat) (f : Cmd → Cmd) (s : State) : State :=
  let one (c : Cmd) : Cmd := if c.id = id then f c else c
  { s with
    clusters := Tbl.mapVals (fun v => { v with copyQ := v.copyQ.map one, indexQ := v.indexQ.map one }) s.clusters
    crews := Tbl.mapVals (fun k => { k with savedCE := k.savedCE.map one, savedIX := k.savedIX.map one }) s.crews }

/-- The context of an owner. -/
def ctxOf (s : State) : Owner → Nat
  | .thread t => (s.thread t).ctx
  | .crew c => (s.crew c).ctx

/-- The crew of an owner. -/
def crewOf (s : State) : Owner → Option Nat
  | .thread t => (s.thread t).crew
  | .crew c => some c

/-- The agent of an owner (R105). -/
def agentOf : Owner → Agent
  | .thread t => .thread t
  | .crew c => .half c

/-- The handle of a crew (R437). -/
def handleOf (k : Crew) : Nat := k.ctx + k.frame * 2 ^ 16 + k.count % 2 ^ 32 * 2 ^ 32

/-- Order on names for sorted lists. -/
def addName (l : List Nat) (n : Nat) : List Nat := if l.contains n then l else l ++ [n]

def unionNames (a b : List Nat) : List Nat := b.foldl addName a

end Sys2Proof.Machine
end

