-- ==== Sys2Proof/Machine/Consist.lean ====
section
/-! DEFINITION. Phase consistency: writes, coherence order, snapshots, releases and acquires (R105-R132), and what a read
of a poisoned sector does (R467-R469). -/

namespace Sys2Proof.Machine

/-- Memory's canonical form: listed bytes are not zero, addresses rise; so do the cells of every write. -/
def Memory.wf (m : Memory) : Bool := Tbl.wf (0 : Byte) m.cells && m.log.all fun w => Tbl.sorted w.cells

/-- Write a byte of the initial contents. -/
def Memory.poke (m : Memory) (a : Nat) (b : Byte) : Memory := { m with cells := Tbl.put m.cells a b 0 }

/-- Write bytes of the initial contents from an address on. -/
def Memory.pokes (m : Memory) (a : Nat) : List Byte → Memory
  | [] => m
  | b :: t => (m.poke a b).pokes (a + 1) t

/-- The initial byte at an address. -/
def Memory.base (m : Memory) (a : Nat) : Byte := Tbl.getD m.cells a 0

/-- Whether the agents of `clA` reach those of `clB` at a scope (R108). -/
def reach (scope clA clB : Nat) : Bool := 4 ≤ scope || (scope == 3 && clA / 16 == clB / 16) || clA == clB

/-- A crew holds a slot of its cluster and a thread. -/
def onUnit (k : Crew) : Bool :=
  match k.stage with
  | .resident => true
  | .saving .. => true
  | _ => false

/-- The crew an agent belongs to. -/
def agentCrew (s : State) : Agent → Option Nat
  | .thread t => (s.thread t).crew
  | .half c => some c
  | .cmd id => (s.view (.cmd id)).crew
  | _ => none

/-- When an agent of a crew came into being, as a name, and at which cluster. -/
def birth (s : State) (a : Agent) (c : Nat) : Nat × Nat :=
  match a with
  | .cmd id => (id, (s.view a).cl)
  | _ => (c, (s.crew c).born)

/-- Whether a publication covered an agent at its completion instant (R109, R111). An agent that came later is placed where it
came into being (log 78). -/
def Pub.covers (s : State) (p : Pub) (a : Agent) : Bool :=
  4 ≤ p.scope ||
  match agentCrew s a with
  | some c => if (birth s a c).1 < p.upto then p.crews.contains c else reach p.scope p.cl (birth s a c).2
  | none => reach p.scope p.cl (placeOf s a)

/-- Where the agent that published stands now; one that stands nowhere, where it stood (R109, log 78). -/
def Pub.place (s : State) (p : Pub) : Nat :=
  match p.crew with
  | some c => if onUnit (s.crew c) then (s.crew c).cl else p.cl
  | none => p.cl

/-- Scope codes 0 and 1 act as cluster (R108); the host and the hub act at package scope at least (R500). -/
def clampScope (cl scope : Nat) : Nat := if cl = 64 then max scope 4 else max scope 2

/-- The last write of a list covering a byte, if any. -/
def lastCover (l : List Write) (pa : Nat) : Option Byte :=
  match l with
  | [] => none
  | w :: t =>
    match lastCover t pa with
    | some b => some b
    | none => w.cells.find? pa

/-- The byte at its home port: the last of the coherence order (R121, R124). -/
def Memory.port (m : Memory) (pa : Nat) : Byte := (lastCover m.log pa).getD (m.base pa)

/-- The latest byte published at package scope (R453, R494). -/
def Memory.published (m : Memory) (pa : Nat) : Byte :=
  (lastCover (m.log.filter fun w => w.pubs.any fun p => 4 ≤ p.scope) pa).getD (m.base pa)

def touches (w : Write) (line : Nat) : Bool := w.cells.any fun c => c.1 / 1024 == line

/-- Whether a write has been published to an agent (R111). -/
def publishedTo (s : State) (a : Agent) (w : Write) : Bool :=
  (s.view a).made.contains w.id || (s.view a).gained.contains w.id || w.pubs.any fun p => p.covers s a

/-- Position after the last element with a property. -/
def afterLast {α : Type} (p : α → Bool) : List α → Nat
  | [] => 0
  | w :: t =>
    let n := afterLast p t
    if n = 0 then (if p w then 1 else 0) else n + 1

/-- A write that the issuer of a command made after the issue, which the command does not see (R125). -/
def issuedAfter (v : View) (a : Agent) (w : Write) : Bool :=
  match a with
  | .cmd id => v.hidden.contains w.id || (v.issuer == some w.agent && id < w.id)
  | _ => false

/-- The visible order of a line for an agent, before its prefix is chosen (R112). -/
def visible (s : State) (a : Agent) (line : Nat) : List Write :=
  s.mem.log.filter fun w => touches w line && publishedTo s a w && !issuedAfter (s.view a) a w

/-- What snapshots already chosen say of a write that also touches their lines: a block and its scale are read from one write
(R132, log 94). A cox thread has no such guarantee. -/
def decided (v : View) (a : Agent) (line : Nat) (w : Write) : Option Bool :=
  match a with
  | .thread _ => none
  | _ => (List.find? (fun e => e.1 != line && touches w e.1) v.snap).map fun e => e.2.contains w.id

/-- Choose a prefix of a visible order (R112): it holds what the agent gained, published itself or has seen part of, and nothing
that it has chosen not to see. -/
def choosePrefix (v : View) (dec : Write → Option Bool) (vis : List Write) : M (List Nat) := do
  let n := afterLast (fun w => v.made.contains w.id || v.gained.contains w.id || dec w == some true) vis
  let front := (vis.take n).filter fun w => dec w != some false
  let rest := (vis.drop n).takeWhile fun w => dec w != some false
  let k ← pick 0 rest.length
  return (front ++ rest.take k).map (·.id)

/-- Choose the agent's snapshot of a line at its first read (R112). -/
def chooseSnap (a : Agent) (line : Nat) : M Unit := do
  let s ← get
  match (s.view a).snap.find? line with
  | some _ => pure ()
  | none =>
    let ids ← choosePrefix (s.view a) (decided (s.view a) a line) (visible s a line)
    upd fun s => let v := s.view a
      s.setView a { v with snap := v.snap.insert line ids }

/-- The byte a view reads once its line's snapshot is chosen (R112, R113). A write its issuer handed over counts as gained: it is
read in its place where the snapshot holds it (R125). -/
def byteUnder (s : State) (v : View) (pa : Nat) : Byte :=
  match v.fresh.find? pa with
  | some b => b
  | none =>
    let ids := v.snap.getD (pa / 1024) []
    match lastCover (v.pend.filter fun w => !(v.handed.contains w.id && ids.contains w.id)) pa with
    | some b => b
    | none =>
      (lastCover (s.mem.log.filter fun w => ids.contains w.id) pa).getD (s.mem.base pa)

/-- The byte an agent reads. -/
def byteSeen (s : State) (a : Agent) (pa : Nat) : Byte := byteUnder s (s.view a) pa

/-- Bytes of HBM4E (R12), which stand first in device memory (R493). -/
def hbmBytes : Nat := 768 * 2 ^ 30

/-- The memory that holds a physical sector, as a page's MEM field names it: 0 HBM4E, 1 LPDDR-6. -/
def sectorMem (sec : Nat) : Nat := if sec * 32 < hbmBytes then 0 else 1

/-- The unit that held a sector of a memory, and its instance (R466): a pseudo-channel not withdrawn of the 12 stacks of 64, an
LPDDR-6 channel, or one of 64 L2 slices. Which one it was is not architectural (R77), so it is free (log 19). -/
def memoryUnit (mem : Option Nat) : M (Nat × Nat) := do
  let s ← get
  let k ← pick 0 1
  let u ← if k = 1 then pure 3 else match mem with
    | some m => pure (m + 1)
    | none => pick 1 2
  if u = 3 then
    let i ← pick 0 63
    return (3, i)
  else if u = 1 then
    let i ← pick 0 (767 - s.channelsGone.length)
    return (1, if s.channelsGone.isEmpty then i else ((List.range 768).filter fun n => !s.channelsGone.contains n).getD i 0)
  else
    let i ← pick 0 0xFFFF
    return (2, i)

/-- An error of memory is counted. -/
def countSector (cls sec : Nat) : M Unit := do
  let (u, i) ← memoryUnit (some (sectorMem sec))
  upd fun s => s.countError cls u i

/-- The GiB of HBM4E that a withdrawn pseudo-channel took with it holds a sector: capacity has fallen by it (R473, log 111). -/
def lostSector (s : State) (sec : Nat) : Bool :=
  s.channelsGone.any fun k => (k + Config.channelShift) % 768 == sec * 32 / 2 ^ 30

/-- A read meets the sector's upsets and poison (R467-R469): whether the data may be used. -/
def checkSector (sec : Nat) : M Bool := do
  let s ← get
  if s.mem.poison.contains sec || lostSector s sec then return false
  match s.mem.upsets.lookup sec with
  | none => return true
  | some u =>
    upd fun s => { s with
      mem := { s.mem with upsets := s.mem.upsets.filter fun e => e.1 != sec }
      errorAddrs := if u == .clean then s.errorAddrs else s.errorAddrs ++ [sec * 32] }
    match u with
    | .clean => return true
    | .corrected => countSector 1 sec; return true
    | .transient => countSector 2 sec; return true
    | .lasting =>
      upd fun s => { s with mem := { s.mem with poison := sec :: s.mem.poison } }
      return false

def checkSectors : List Nat → M Bool
  | [] => return true
  | k :: t => do
    let a ← checkSector k
    let b ← checkSectors t
    return a && b

/-- Hardware that answers for an error itself reads sectors: each lasting one is counted (R465). -/
def checkCounted : List Nat → M Bool
  | [] => return true
  | k :: t => do
    let a ← checkSector k
    if !a then countSector 3 k
    let b ← checkCounted t
    return a && b

/-- The sectors of `n` bytes from an address. -/
def sectorsOf (pa n : Nat) : List Nat :=
  if n = 0 then [] else List.range' (pa / 32) ((pa + n - 1) / 32 - pa / 32 + 1)

def chooseSnaps (a : Agent) : List Nat → M Unit
  | [] => pure ()
  | l :: t => do chooseSnap a l; chooseSnaps a t

/-- Lines of `n` bytes from an address. -/
def linesOf (pa n : Nat) : List Nat :=
  if n = 0 then [] else List.range' (pa / 1024) ((pa + n - 1) / 1024 - pa / 1024 + 1)

/-- An agent's read of physical bytes; `none` where it meets a lasting error. -/
def readPhys (a : Agent) (pa n : Nat) : M (Option (List Byte)) := do
  let ok ← checkSectors (sectorsOf pa n)
  if !ok then return none
  chooseSnaps a (linesOf pa n)
  let s ← get
  return some ((List.range n).map fun i => byteSeen s a (pa + i))

/-- A read at the home port. -/
def readPort (pa n : Nat) : M (Option (List Byte)) := do
  let ok ← checkSectors (sectorsOf pa n)
  if !ok then return none
  let s ← get
  return some ((List.range n).map fun i => s.mem.port (pa + i))

/-- A read of what is published at package scope, by hardware that answers for the error itself: a lasting one is counted
(R465). -/
def readPublished (pa n : Nat) : M (Option (List Byte)) := do
  let ok ← checkCounted (sectorsOf pa n)
  if !ok then return none
  let s ← get
  return some ((List.range n).map fun i => s.mem.published (pa + i))

def cellsAt (pa : Nat) (bs : List Byte) : Tbl Byte := bs.zipIdx.map fun (b, i) => (pa + i, b)

/-- The parts of a store by line (R110): at most `fuel` lines. -/
def splitLines : Nat → Nat → List Byte → List (Nat × List Byte)
  | 0, _, _ => []
  | n + 1, pa, bs =>
    if bs.isEmpty then []
    else
      let k := 1024 - pa % 1024
      (pa, bs.take k) :: splitLines n (pa + k) (bs.drop k)

/-- Whole sectors written lose their poison (R469). -/
def clearPoison (m : Memory) (pa n : Nat) : Memory :=
  if m.poison.isEmpty && m.upsets.isEmpty then m
  else
    let whole (k : Nat) : Bool := pa ≤ 32 * k && 32 * k + 32 ≤ pa + n
    { m with poison := m.poison.filter fun k => !whole k, upsets := m.upsets.filter fun e => !whole e.1 }

def insertAll (t : Tbl Byte) : Tbl Byte → Tbl Byte
  | [] => t
  | (k, v) :: r => insertAll (t.insert k v) r

/-- One write of an agent to one line: private until a release (R110, R113). -/
def writeLine (s : State) (a : Agent) (pa : Nat) (bs : List Byte) : State :=
  let v := s.view a
  let cells := cellsAt pa bs
  let w : Write := { id := s.nextId, agent := a, cells := cells, pubs := [] }
  { s.setView a { v with pend := v.pend ++ [w], fresh := insertAll v.fresh cells } with
    nextId := s.nextId + 1, mem := clearPoison s.mem pa bs.length }

/-- An agent's store of physical bytes. -/
def writePhys (a : Agent) (pa : Nat) (bs : List Byte) : M Unit :=
  upd fun s => (splitLines (bs.length / 1024 + 2) pa bs).foldl (fun s e => writeLine s a e.1 e.2) s

/-- One write of an agent whose cells lie in several lines: a block-scaled tile with its scales (R132). -/
def writeUnit (a : Agent) (parts : List (Nat × List Byte)) : M Unit :=
  upd fun s =>
    let v := s.view a
    let cells := parts.foldl (fun t e => insertAll t (cellsAt e.1 e.2)) ([] : Tbl Byte)
    let w : Write := { id := s.nextId, agent := a, cells := cells, pubs := [] }
    { s.setView a { v with pend := v.pend ++ [w], fresh := insertAll v.fresh cells } with
      nextId := s.nextId + 1
      mem := parts.foldl (fun m e => clearPoison m e.1 e.2.length) s.mem }

/-- A write applied at its home port at this instant (R120, R124), entering the coherence order at once. -/
def writePort (a : Agent) (pa : Nat) (bs : List Byte) : M Unit :=
  upd fun s =>
    let v := s.view a
    let cells := cellsAt pa bs
    let w : Write := { id := s.nextId, agent := a, cells := cells, pubs := [] }
    let s1 := s.setView a { v with made := v.made ++ [s.nextId], fresh := insertAll v.fresh cells }
    { s1 with
      nextId := s.nextId + 1
      mem := { clearPoison s.mem pa bs.length with log := s.mem.log ++ [w] } }

def addPub (ids : List Nat) (p : Pub) (w : Write) : Write :=
  if ids.contains w.id && !w.pubs.contains p then { w with pubs := w.pubs ++ [p] } else w

/-- The writes a release of the agent publishes (R114). -/
def releaseIds (v : View) : List Nat := v.pend.map (·.id) ++ v.made ++ v.gained

/-- The publication a release of an agent makes now. -/
def pubBy (s : State) (a : Agent) (scope : Nat) : Pub :=
  let cl := placeOf s a
  let sc := clampScope cl scope
  let within := s.crews.filter fun e => onUnit e.2 && reach sc cl e.2.cl
  { scope := sc, cl := cl, crew := agentCrew s a, crews := if 4 ≤ sc then [] else within.map (·.1), upto := s.nextId }

/-- Publish named writes as an agent, from its view and from another that holds some of them (R111, R114). Only a release of the
agent itself ends their being private to it (R113). -/
def publishAs (s : State) (a b : Agent) (scope : Nat) (ids : List Nat) : State :=
  let known := s.mem.log.map (·.id)
  let pend := (s.view a).pend ++ if b = a then [] else (s.view b).pend.filter fun w => !(s.view a).pend.any (·.id == w.id)
  let fresh := pend.filter fun w => ids.contains w.id && !known.contains w.id
  let log := (s.mem.log ++ fresh).map (addPub ids (pubBy s a scope))
  let settle (v : View) : View := { v with
    pend := v.pend.filter fun w => !ids.contains w.id
    made := v.made ++ (v.pend.filter fun w => ids.contains w.id).map (·.id) }
  let s := { s.setView a (settle (s.view a)) with mem := { s.mem with log := log } }
  if b = a then s else s.setView b (settle (s.view b))

/-- Publish named writes of an agent's view at a scope. -/
def publishIds (s : State) (a : Agent) (scope : Nat) (ids : List Nat) : State := publishAs s a a scope ids

/-- Whether a launch's gang holds releases beyond package scope (R119). -/
def launchHolds (s : State) (l : Nat) : Bool :=
  match (s.launches.getD l default).gang with
  | .member _ _ _ _ false => true
  | .leader _ _ _ _ false => true
  | _ => false

/-- Whether the agent's gang holds its releases beyond package scope (R119). -/
def gangHolds (s : State) (a : Agent) : Bool :=
  match (s.view a).launch with
  | none => false
  | some l => launchHolds s l

/-- Publish named writes; at group scope or wider, while the agent's gang is not committed, they are published at package
scope and the rest of the release is held (R119). -/
def releaseNames (s : State) (a : Agent) (scope : Nat) (ids : List Nat) : State :=
  if 5 ≤ scope && gangHolds s a then
    let s := publishIds s a 4 ids
    match (s.view a).launch with
    | some l => { s with launches := s.launches.modify l fun x => { x with held := x.held ++ [(scope, placeOf s a, ids)] } }
    | none => s
  else publishIds s a scope ids

/-- A release (R114). -/
def release (s : State) (a : Agent) (scope : Nat) : State := releaseNames s a scope (releaseIds (s.view a))

/-- The writes an acquire gains (R109, R115). -/
def acquireIds (s : State) (a : Agent) (scope : Nat) : List Nat :=
  let cl := placeOf s a
  (s.mem.log.filter fun w => w.pubs.any fun p => p.covers s a && reach (clampScope cl scope) cl (p.place s)).map (·.id)

/-- Phases that lanes handed over earlier still read under: those of a cluster half with such a lane (R121). -/
def pastOf (s : State) (a : Agent) : List Phase :=
  let v := s.view a
  match a with
  | .half c =>
    let k := s.crew c
    let names := (k.lq ++ k.wq).map (·.name)
    (v.past ++ [({ snap := v.snap, fresh := v.fresh, gained := v.gained, upto := s.nextId } : Phase)]).filter fun p =>
      names.any fun n => decide (n < p.upto)
  | _ => []

/-- Gain named writes: a new phase begins (R112, R113, R115). -/
def gainIds (s : State) (a : Agent) (ids : List Nat) : State :=
  let v := s.view a
  s.setView a { v with gained := unionNames v.gained ids, snap := [], fresh := [], past := pastOf s a, phase := v.phase + 1 }

/-- An acquire (R115). -/
def acquire (s : State) (a : Agent) (scope : Nat) : State := gainIds s a (acquireIds s a scope)

/-- The view a command starts with (R125): the issuer's writes and gains all count as gained. -/
def commandView (v : View) (issuer : Agent) (crew : Option Nat) (cl : Nat) : View :=
  { pend := v.pend, handed := v.pend.map (·.id), gained := unionNames (unionNames v.gained v.made) (v.pend.map (·.id))
    launch := v.launch, crew := crew, cl := cl, issuer := some issuer }

/-- Run a meaning under another phase of an agent: its answer, and the phase after it. The agent's own phase stands. -/
def underPhase {α : Type} (a : Agent) (p : Phase) (m : M α) : M (α × Phase) := fun s =>
  let v := s.view a
  let back (t : State) : State × Phase :=
    let w := t.view a
    (t.setView a { w with snap := v.snap, fresh := v.fresh, gained := v.gained }, { p with snap := w.snap, fresh := w.fresh })
  match m (s.setView a { v with snap := p.snap, fresh := p.fresh, gained := p.gained }) with
  | .ok r t => .ok (r, (back t).2) (back t).1
  | .error e t => .error e (back t).1

/-- Run a lane of a cluster half under the phase it was handed over in (R121). -/
def inPhase {α : Type} (c name : Nat) (m : M α) : M α := do
  let s ← get
  match (s.view (.half c)).past.find? fun p => name < p.upto with
  | none => m
  | some p =>
    let (r, q) ← underPhase (.half c) p m
    upd fun s => let v := s.view (.half c)
      s.setView (.half c) { v with past := v.past.map fun x => if x.upto == p.upto then q else x }
    return r

end Sys2Proof.Machine
end

