-- ==== Sys2Proof/Machine/Translate.lean ====
section
/-! DEFINITION. Address translation: the walk, the TLBs, page faults, and accesses through pins (R451-R464). -/

namespace Sys2Proof.Machine

/-- Log of the page size, index bits and log of the table's size, by depth (R451). -/
def walkDepths : List (Nat × Nat × Nat) := [(34, 14, 17), (30, 4, 7), (21, 9, 12), (16, 5, 8)]

/-- A page-table entry that breaks R452 at a depth. -/
def pteMalformed (e depth : Nat) : Bool :=
  let (pg, _, _) := walkDepths.getD depth (16, 5, 8)
  let pa := e % 2 ^ 52 / 2 ^ 7 * 2 ^ 7
  bits e 63 52 != 0 ||
  (if bit e 1 then 1 < bits e 6 5 || pa % 2 ^ pg != 0
   else depth == 3 || bits e 6 2 != 0 || pa % 2 ^ (walkDepths.getD (depth + 1) (0, 0, 0)).2.2 != 0)

/-- Reason and depth of a failed walk, or the leaf (R453). Rows are what is left of `walkDepths`. -/
def walkFrom (va t depth : Nat) : List (Nat × Nat × Nat) → M (Except (Nat × Nat) Leaf)
  | [] => return .error (5, 3)
  | (pg, idx, _) :: rest => do
    let at_ := t + 8 * (va / 2 ^ pg % 2 ^ idx)
    let got ← readPublished at_ 8
    match got with
    | none => return .error (5, depth)
    | some bs =>
      let e := leNat bs
      if !bit e 0 then return .error (1, depth)
      else if pteMalformed e depth then return .error (5, depth)
      else
        let pa := e % 2 ^ 52 / 2 ^ 7 * 2 ^ 7
        if bit e 1 then
          return .ok
            { va := va / 2 ^ pg * 2 ^ pg, size := 2 ^ pg, pa := pa, mem := bits e 6 5, w := bit e 2, x := bit e 3,
              u := bit e 4 }
        else walkFrom va pa (depth + 1) rest

/-- Whether a leaf admits an access (R455): the failing reason. -/
def leafRefuses (l : Leaf) (level : Nat) (write fetch : Bool) : Option Nat :=
  if level = 0 ∧ !l.u then some 4 else if write && !l.w then some 2 else if fetch && !l.x then some 3 else none

def depthOf (l : Leaf) : Nat :=
  if l.size = 2 ^ 34 then 0 else if l.size = 2 ^ 30 then 1 else if l.size = 2 ^ 21 then 2 else 3

/-- `Walk` (R453), permission included. -/
def walk (ctx level va : Nat) (write fetch : Bool) : M (Except (Nat × Nat) Leaf) := do
  if 2 ^ 48 ≤ va then return .error (6, 0)
  let s ← get
  let r ← walkFrom va (bits (s.context ctx).ptRoot.toNat 51 17 * 2 ^ 17) 0 walkDepths
  match r with
  | .error e => return .error e
  | .ok l =>
    match leafRefuses l level write fetch with
    | some n => return .error (n, depthOf l)
    | none => return .ok l

/-- The page-fault record fields (R455). -/
def pageFault (va : Nat) (write fetch : Bool) (reason depth : Nat) : Exc :=
  { cause := 5, addr := BitVec.ofNat 64 va
    info := BitVec.ofNat 64 (depth + reason * 16 + (if write then 256 else 0) + (if fetch then 512 else 0)) }

def Leaf.holds (l : Leaf) (va : Nat) : Bool := l.va ≤ va && va < l.va + l.size

/-- A TLB keeps at most 1,024 entries; which one leaves is not architectural (R458). -/
def fillTlb (s : State) (core : Nat) (e : TlbEntry) : State :=
  let l := s.tlb.getD core []
  if l.contains e then s else { s with tlb := s.tlb.put core ((e :: l).take 1024) [] }

/-- Translation at issue by a cox thread through its core's TLB (R458): the physical address, or a page fault. An entry
may have been replaced since it was filled, so a walk that would give another answer is a second outcome. -/
def translate (t level va : Nat) (write fetch : Bool) : M Nat := do
  let s ← get
  let ctx := (s.thread t).ctx
  let w ← walk ctx level va write fetch
  let asOf (l : Leaf) : Except (Nat × Nat) Leaf :=
    match leafRefuses l level write fetch with
    | some n => .error (n, depthOf l)
    | none => .ok l
  let held := if va < 2 ^ 48 then
      ((s.tlb.getD (t / 8) []).filter fun e => e.ctx == ctx && e.leaf.holds va).map fun e => asOf e.leaf
    else []
  let r ← (match held with
    | [] => pure w
    | h :: rest => do
      if (h :: rest).all fun r => decide (r = w) then pure w
      else
        let k ← pick 0 held.length
        pure (held.getD k w))
  match r with
  | .error (reason, depth) => throw (.trap (pageFault va write fetch reason depth))
  | .ok l =>
    upd fun s => fillTlb s (t / 8) { ctx := ctx, leaf := l }
    return l.pa + (va - l.va)

/-! ### Pins (R214, R459) -/

/-- Leaves covering `n` bytes from an address, or the lowest fault: address, reason, depth. -/
def walkRange (ctx level : Nat) (write fetch : Bool) : Nat → Nat → Nat → M (Except (Nat × Nat × Nat) (List Leaf))
  | 0, _, _ => return .ok []
  | k + 1, va, n => do
    if n = 0 then return .ok []
    let r ← walk ctx level va write fetch
    match r with
    | .error (reason, depth) => return .error (va, reason, depth)
    | .ok l =>
      let step := l.va + l.size - va
      let rest ← walkRange ctx level write fetch k (va + step) (n - step)
      return rest.map fun ls => l :: ls

/-- Leaves of every page of some byte ranges, or the lowest fault among them. -/
def walkRanges (ctx level : Nat) (write fetch : Bool) :
    List (Nat × Nat) → M (Except (Nat × Nat × Nat) (List Leaf))
  | [] => return .ok []
  | (va, n) :: t => do
    let a ← walkRange ctx level write fetch (n / 65536 + 2) va n
    let b ← walkRanges ctx level write fetch t
    match a, b with
    | .ok x, .ok y => return .ok (unionL x y)
    | .error x, .error y => return .error (if y.1 < x.1 then y else x)
    | .error x, .ok _ => return .error x
    | .ok _, .error y => return .error y
where
  unionL (x y : List Leaf) : List Leaf := y.foldl (fun l e => if l.contains e then l else l ++ [e]) x

/-- Join adjoining byte ranges. -/
def joinRanges : List (Nat × Nat) → List (Nat × Nat)
  | [] => []
  | (a, n) :: t =>
    match joinRanges t with
    | (b, m) :: r => if a + n = b then (a, n + m) :: r else (a, n) :: (b, m) :: r
    | [] => [(a, n)]

/-- Why an access through pins is refused. -/
inductive Bad where
  | footprint
  | revoked
  | ecc
  deriving DecidableEq, Repr, Inhabited

def Pin.covers (p : Pin) (va n : Nat) (write : Bool) : Bool :=
  (!write || p.w) && p.ranges.any fun r => r.1 ≤ va && va + n ≤ r.1 + r.2

/-- Physical address of bytes that lie in one 1 KiB line through some pins. -/
def pinnedPart (ps : List Pin) (va n : Nat) (write : Bool) : Option Nat :=
  match ps with
  | [] => none
  | p :: t =>
    if p.covers va n write then
      match p.leaves.find? (·.holds va) with
      | some l => some (l.pa + (va - l.va))
      | none => pinnedPart t va n write
    else pinnedPart t va n write

/-- Physical parts of an access through pins. -/
def pinnedParts (ps : List Pin) (va : Nat) (write : Bool) : List (Nat × Nat) → Option (List (Nat × Nat))
  | [] => some []
  | (a, n) :: t =>
    let here : Option (List (Nat × Nat)) :=
      match pinnedPart ps a n write with
      | some pa => some [(pa, n)]
      | none => (List.range n).mapM fun i => (pinnedPart ps (a + i) 1 write).map fun pa => (pa, 1)
    match here, pinnedParts ps va write t with
    | some x, some y => some (x ++ y)
    | _, _ => none

/-- The parts of a byte range by line. -/
def lineParts : Nat → Nat → Nat → List (Nat × Nat)
  | 0, _, _ => []
  | k + 1, va, n =>
    if n = 0 then []
    else
      let m := min n (1024 - va % 1024)
      (va, m) :: lineParts k (va + m) (n - m)

/-- Resolve an access through pins (R14, R214, R463). -/
def resolve (s : State) (holds : Pin → Bool) (va n : Nat) (write : Bool) : Except Bad (List (Nat × Nat)) :=
  let ps := s.pins.filter holds
  let parts := lineParts (n / 1024 + 2) va n
  match pinnedParts (ps.filter fun p => !p.revoked) va write parts with
  | some l => .ok l
  | none =>
    match pinnedParts ps va write parts with
    | some _ => .error .revoked
    | none => .error .footprint

def readParts (a : Agent) : List (Nat × Nat) → M (Option (List Byte))
  | [] => return some []
  | (pa, n) :: t => do
    let x ← readPhys a pa n
    let y ← readParts a t
    match x, y with
    | some b, some c => return some (b ++ c)
    | _, _ => return none

/-- An execute-side read of virtual bytes. -/
def readPinned (a : Agent) (holds : Pin → Bool) (va n : Nat) : M (Except Bad (List Byte)) := do
  let s ← get
  match resolve s holds va n false with
  | .error e => return .error e
  | .ok parts =>
    let r ← readParts a parts
    match r with
    | some bs => return .ok bs
    | none => return .error .ecc

def writeParts (a : Agent) : List (Nat × Nat) → List Byte → M Unit
  | [], _ => pure ()
  | (pa, n) :: t, bs => do
    writePhys a pa (bs.take n)
    writeParts a t (bs.drop n)

/-- The bytes that go to each physical part. -/
def cutParts : List (Nat × Nat) → List Byte → List (Nat × List Byte)
  | [], _ => []
  | (pa, n) :: t, bs => (pa, bs.take n) :: cutParts t (bs.drop n)

/-- An execute-side write of virtual bytes. -/
def writePinned (a : Agent) (holds : Pin → Bool) (va : Nat) (bs : List Byte) : M (Except Bad Unit) := do
  let s ← get
  match resolve s holds va bs.length true with
  | .error e => return .error e
  | .ok parts => writeParts a parts bs; return .ok ()

/-- Pins the cluster half of a crew may use. -/
def crewPins (c : Nat) (p : Pin) : Bool := p.owner == .crew c

/-- A pin revoked and then released with UNPIN stands, refusing, for the operations issued before (R216, R463). -/
def Pin.ended (p : Pin) : Bool := p.revoked && p.leaving.isSome

/-- Pins a command may use: its issue pins and its issuer's (R14, R298); one that ended before it was issued is not among them. -/
def cmdPins (id : Nat) (issuer : Owner) (crew : Option Nat) (p : Pin) : Bool :=
  (!p.ended || (p.leaving.getD []).contains id) &&
  (p.owner == .cmd id ||
  match crew, issuer with
  | some c, _ => p.owner == .crew c
  | none, .thread t => p.owner == .thread t
  | none, .crew c => p.owner == .crew c)

/-- The memory that holds a context's page, as its table entry says (R452): none where no page maps the address. -/
def memOf (s : State) (ctx va : Nat) : Option Nat :=
  match walk ctx 2 va false false s with
  | .ok (.ok l) _ => some l.mem
  | _ => none

end Sys2Proof.Machine
end

