-- ==== Sys2Proof/Machine/Ops.lean ====
section
/-! DEFINITION. The named operations: scalar registers, events, queues, taking an exception and returning from one, ending
a crew, fetching a line, and the frame every A and S instruction runs in. -/

namespace Sys2Proof.Machine

/-! ### Scalar registers (R167, R177) -/

def Scalar.reg (c : Scalar) (r : Nat) : Word := c.regs.getD r 0
def Scalar.isFull (c : Scalar) (r : Nat) : Bool := c.full.getLsbD r
def Scalar.pred (c : Scalar) (k : Nat) : Bool := k == 0 || c.preds.getLsbD k
def setBit {n : Nat} (v : BitVec n) (i : Nat) (b : Bool) : BitVec n :=
  if b then v ||| BitVec.twoPow n i else v &&& ~~~ BitVec.twoPow n i
def Scalar.write (c : Scalar) (r : Nat) (v : Word) : Scalar :=
  { c with regs := c.regs.put r v 0, full := setBit c.full r true, pend := c.pend.erase r }
def Scalar.await (c : Scalar) (r : Nat) (p : Pend) : Scalar :=
  { c with full := setBit c.full r false, pend := c.pend.insert r p }
def Scalar.setPred (c : Scalar) (k : Nat) (b : Bool) : Scalar := { c with preds := setBit c.preds k b }

/-- `g0`, which reads zero and discards writes (R10). -/
def isG0 : Owner → Nat → Bool
  | .thread _, r => r == 0
  | .crew _, _ => false

def updScalar (o : Owner) (f : Scalar → Scalar) : M Unit := upd fun s => s.setScalar o (f (s.scalar o))

/-- `ReadReg` (R177). -/
def readReg (o : Owner) (r ta : Nat) : M Word := do
  if isG0 o r then return 0
  let s ← get
  let c := s.scalar o
  if c.isFull r then return c.reg r
  if ta = 1 then trap 3 0 (BitVec.ofNat 64 r) else throw .stall

/-- A destination must be full before it is written or marked empty (R167). -/
def destReady (o : Owner) (r : Nat) : M Unit := do
  if isG0 o r then return ()
  let s ← get
  if (s.scalar o).isFull r then return () else throw .stall

/-- `WriteReg` (R177). -/
def writeReg (o : Owner) (r : Nat) (v : Word) : M Unit := do
  destReady o r
  if isG0 o r then return () else updScalar o (·.write r v)

/-- Mark a destination empty until its value arrives (R167). -/
def awaitReg (o : Owner) (r : Nat) (p : Pend) : M Unit := do
  destReady o r
  if isG0 o r then return () else updScalar o (·.await r p)

def readPred (o : Owner) (k : Nat) : M Bool := do
  let s ← get
  return (s.scalar o).pred k

def writePred (o : Owner) (k : Nat) (b : Bool) : M Unit := updScalar o (·.setPred k b)

/-- Whether the guard lets the instruction execute (R165, R166). -/
def guardHolds (o : Owner) (g ng : Nat) : M Bool := do
  let p ← readPred o g
  return p != (ng == 1)

def illegal {α} : M α := trap 1
def privileged {α} (info : Word := 0) : M α := trap 2 0 info

/-- Level of an owner: a cluster half runs at level 0 (R432). -/
def levelOf (s : State) : Owner → Nat
  | .thread t => (s.thread t).level.toNat
  | .crew _ => 0

/-! ### Writes of the hub: records and events, published at package scope -/

/-- A write of the hub, published at once: at package scope (R447, R500), or wider where a launch says so (R374). -/
def hubWrite (pa : Nat) (bs : List Byte) (scope : Nat := 4) : M Unit :=
  upd fun s => (splitLines (bs.length / 1024 + 2) pa bs).foldl (fun s e =>
    { s with
      nextId := s.nextId + 1
      mem := { clearPoison s.mem e.1 e.2.length with
        log := s.mem.log ++
          [{ id := s.nextId, agent := .hub, cells := cellsAt e.1 e.2, pubs := [{ scope := scope, cl := 64 }] }] } }) s

/-- Physical parts of a range of a context's memory, as privileged hardware walks it; none where a page is missing. -/
def hubParts (ctx : Nat) (write : Bool) : List (Nat × Nat) → M (Option (List (Nat × Nat)))
  | [] => return some []
  | (va, n) :: t => do
    let w ← walk ctx 2 va write false
    let rest ← hubParts ctx write t
    match w, rest with
    | .ok l, some r => return some ((l.pa + (va - l.va), n) :: r)
    | _, _ => return none

def hubWriteParts (scope : Nat) : List (Nat × Nat) → List Byte → M Unit
  | [], _ => pure ()
  | (pa, n) :: t, bs => do
    hubWrite pa (bs.take n) scope
    hubWriteParts scope t (bs.drop n)

/-- The hub writes a context's memory; where no page takes the write, nothing is written (log 12). -/
def hubStore (ctx va : Nat) (bs : List Byte) (scope : Nat := 4) : M Unit := do
  let p ← hubParts ctx true (lineParts (bs.length / 1024 + 2) va bs.length)
  match p with
  | some l => hubWriteParts scope l bs
  | none => pure ()

def hubLoadParts : List (Nat × Nat) → M (Option (List Byte))
  | [] => return some []
  | (pa, n) :: t => do
    let x ← readPublished pa n
    let y ← hubLoadParts t
    match x, y with
    | some b, some c => return some (b ++ c)
    | _, _ => return none

/-- The hub reads a context's memory as published at package scope. -/
def hubLoad (ctx va n : Nat) : M (Option (List Byte)) := do
  let p ← hubParts ctx false (lineParts (n / 1024 + 2) va n)
  match p with
  | some l => hubLoadParts l
  | none => return none

/-- Write an event into a context's ring (R447), and signal its vector (R495). -/
def event (ctx type cause crew addr info : Nat) : M Unit := do
  let s ← get
  match s.contexts.find? ctx with
  | none => pure ()
  | some c =>
    let base := bits c.evqBase.toNat 63 12 * 4096
    let cap := 2 ^ (bits c.evqBase.toNat 3 0 + 12) / 32
    let head := bits c.evqHead.toNat 31 0
    let lost := bits c.evqHead.toNat 63 48
    if (head + 2 ^ 32 - c.evqTail.toNat) % 2 ^ 32 = cap then
      upd (·.setContext ctx { c with
        evqHead := BitVec.ofNat 64 (head + (if lost = 0xFFFF then lost else lost + 1) * 2 ^ 48) })
    else
      hubStore ctx (base + head % cap * 32)
        (leBytes 1 type ++ leBytes 1 cause ++ leBytes 6 0 ++ leBytes 8 crew ++ leBytes 8 addr ++ leBytes 8 info)
      upd fun s =>
        let s := s.setContext ctx { c with evqHead := BitVec.ofNat 64 ((head + 1) % 2 ^ 32 + lost * 2 ^ 48) }
        if head = c.evqTail.toNat then { s with msix := addName s.msix c.vector } else s

/-- An error report of class 3 (R466, R471). Unit 3 stands for a memory sector: which unit holds it is not architectural
(R77), so that unit and its instance are free values (log 19). -/
def containReport (ctx crew addr unit inst kind detail : Nat) : M Unit := do
  let s ← get
  let (unit, inst) ← if unit = 3 then memoryUnit (memOf s ctx addr) else pure (unit, inst)
  upd fun s => s.countError 3 unit inst
  event ctx 8 3 crew addr (detail + kind * 2 ^ 32 + inst * 2 ^ 40 + unit * 2 ^ 56)

/-- An error report of a class in a context's ring (R466). -/
def errorReport (ctx cls unit inst kind detail : Nat) : M Unit :=
  event ctx 8 cls 0 0 (detail + kind * 2 ^ 32 + inst * 2 ^ 40 + unit * 2 ^ 56)

/-! ### Crews of a withdrawn unit (R474) -/

/-- A crew of a withdrawn unit has been moved, its save done, or has ended. -/
def settleMove (s : State) (c : Nat) (ended : Bool) : State :=
  let ctx := (s.crew c).ctx
  { s with withdrawals := s.withdrawals.map fun w =>
      if !w.waiting.contains c then w
      else if ended then { w with waiting := w.waiting.erase c, ended := w.ended ++ [ctx] }
      else { w with waiting := w.waiting.erase c, moved := w.moved ++ [ctx] } }

/-- One class 4 report of kind 4 to each of some contexts, with how many of its crews were moved and ended (R466, R474). -/
def moveReports (w : Withdrawal) : List Nat → M Unit
  | [] => pure ()
  | x :: rest => do
    if rest.contains x then pure ()
    else errorReport x 4 w.unit w.inst 4 ((w.moved.filter (· == x)).length + (w.ended.filter (· == x)).length * 2 ^ 16)
    moveReports w rest

/-- Withdrawals all of whose crews have been moved or ended are reported. -/
def reportWithdrawals : List Withdrawal → M Unit
  | [] => pure ()
  | w :: rest => do
    moveReports w (w.moved ++ w.ended)
    reportWithdrawals rest

def reportMoves : M Unit := do
  let s ← get
  let (now, later) := s.withdrawals.partition fun w => w.waiting.isEmpty
  upd fun s => { s with withdrawals := later }
  reportWithdrawals now

/-! ### Queues (R133-R157) -/

namespace Queue

def field (q : Queue) (hi lo : Nat) : Nat := bits q.cfg.toNat hi lo
def isOpen (q : Queue) : Bool := q.cfg.getLsbD 31
def width (q : Queue) : Nat := q.field 30 29
def brq (q : Queue) : Bool := q.cfg.getLsbD 28
def prod (q : Queue) : Nat := q.field 27 24
def cons (q : Queue) : Nat := q.field 23 20
def trapE (q : Queue) : Bool := q.cfg.getLsbD 19
def trapF (q : Queue) : Bool := q.cfg.getLsbD 18
def whole (q : Queue) : Bool := q.cfg.getLsbD 17
def depth (q : Queue) : Nat := q.field 15 0 + 1
/-- Entries of a tile burst (R138). -/
def burst (q : Queue) : Nat := if q.width = 2 then 5 else 20
def occ (q : Queue) : Nat := q.entries.length + q.window.length + q.held.length + q.part.length
def isFull (q : Queue) : Bool := q.depth ≤ q.occ

end Queue

/-- Bytes of an entry by width code (R133). -/
def entryBytes (w : Nat) : Nat := if w = 0 then 8 else if w = 1 then 64 else 256

/-- A counter of `QSTAT`, saturating (R142). -/
def satAdd (v : BitVec 16) (n : Nat) : BitVec 16 := BitVec.ofNat 16 (min 0xFFFF (v.toNat + n))

def Queue.discard (q : Queue) (n : Nat) : Queue := { q with disc := satAdd q.disc n }

/-- Reserved header bytes of entry `k` of a burst that are not zero (R138, R139). -/
def headerBad (width k : Nat) (bs : List Byte) : Bool :=
  let zero (lo hi : Nat) : Bool := ((bs.drop lo).take (hi - lo)).all (· == 0)
  let first : Bool := fieldAt bs 0 2 < 4096 && fieldAt bs 2 2 < 2 && zero 4 8
  if width = 2 then k == 0 && !(first && zero 0x18 0x80)
  else if k = 0 then !(first && zero 0x18 0x40)
  else if k = 1 then !zero 0 0x40
  else false

/-- An entry arrives on a queue with WHOLE set (R139, R140). -/
def Queue.arriveWhole (q : Queue) (e : QEntry) : Queue :=
  let q := if e.h && q.dropping then { q with dropping := false } else q
  if q.dropping then
    let q := q.discard 1
    if e.t then { q with dropping := false } else q
  else
    let q := if e.h && !q.part.isEmpty then { q.discard q.part.length with part := [] } else q
    if !e.h && q.part.isEmpty then q.discard 1
    else
      let n := q.part.length + 1
      let bad := e.p || headerBad q.width (n - 1) e.data
      if bad || (e.t && n != q.burst) then
        { q.discard n with part := [], dropping := !e.t }
      else if e.t then { q with entries := q.entries ++ q.part ++ [e], part := [] }
      else if n = q.burst then { q.discard n with part := [] }
      else { q with part := q.part ++ [e] }

/-- A queue that an MVER skips keeps the first entry of the burst's header for it (R289, R293). -/
def Queue.spot (q : Queue) (e : QEntry) : Queue := if q.watch == some [] && e.h then { q with watch := some e.data } else q

/-- An entry arrives at a queue's end (R139, R144). -/
def Queue.arrive (q : Queue) (e : QEntry) : Queue :=
  if q.skip then
    let q := (q.discard 1).spot e
    if e.t then { q with skip := false, mid := false } else q
  else if q.whole then q.arriveWhole e
  else { q with entries := q.entries ++ [e] }

/-- Entries after the first tail, and how many come up to it; none where no tail stands. -/
def dropToTail : List QEntry → Nat → Option (List QEntry × Nat)
  | [], _ => none
  | e :: t, n => if e.t then some (t, n + 1) else dropToTail t (n + 1)

/-- Skip to the tail of the current group (R144). -/
def Queue.skipTail (q : Queue) : Queue :=
  if q.skip then q
  else
    match dropToTail q.entries 0 with
    | some (rest, n) => { q.discard n with entries := rest, mid := false }
    | none => { q.discard (q.entries.length + q.part.length) with entries := [], part := [], skip := true, mid := false }

/-- Entries cut into bursts: each ends at its tail, or before the next header. -/
def bursts : List QEntry → List (List QEntry)
  | [] => []
  | e :: t =>
    match bursts t with
    | [] => [[e]]
    | b :: r => if e.t || (b.head?.any fun x => x.h) then [e] :: b :: r else (e :: b) :: r

/-- How many entries of the front burst the whole-tile consumer of a queue has taken and not yet used (R140). -/
def Queue.taken (q : Queue) : Nat := if q.whole && q.mid then ((bursts q.entries).headD []).length else 0

/-- The bursts of a queue with WHOLE set that hardware poisoned are discarded (R140); one that the consumer has begun was taken
whole. -/
def Queue.dropPoisoned (q : Queue) : Queue :=
  let left := q.entries.take q.taken ++ ((bursts (q.entries.drop q.taken)).filter fun b => !b.any (·.p)).flatten
  { q.discard (q.entries.length - left.length) with entries := left }

/-- Poison the entry at a place of a list (R471). -/
def poisonAt (l : List QEntry) (i : Nat) : List QEntry := l.modify i fun e => { e with p := true }

/-- The storage of an entry is lost: of one poppable, one the fabric may rewind to, one it has not committed, or one of the burst
being assembled, by its place in this order. It is delivered with P set, on a queue with WHOLE set its burst is discarded (R140,
R354, R471). -/
def Queue.lose (q : Queue) (i : Nat) : Queue :=
  let a := q.entries.length
  let b := a + q.window.length
  let d := b + q.held.length
  if i < q.taken then q
  else if i < a then (let v := { q with entries := poisonAt q.entries i }; if q.whole then v.dropPoisoned else v)
  else if i < b then { q with window := poisonAt q.window (i - a) }
  else if i < d then { q with held := poisonAt q.held (i - b) }
  else { q.discard q.part.length with part := [], dropping := true }

/-- The fabric's pops since its last commit are undone (R154, R354). -/
def Queue.rewound (q : Queue) : Queue :=
  let v := { q with entries := q.window ++ q.entries, window := [], mid := q.mid && q.window.isEmpty }
  if q.whole then v.dropPoisoned else v

def getQueue (c q : Nat) : M Queue := do
  let s ← get
  return (s.crew c).queues.getD q {}

def setQueue (c q : Nat) (v : Queue) : M Unit :=
  upd fun s => let k := s.crew c
    s.setCrew c { k with queues := k.queues.put q v {} }

/-- Why a queue refuses an endpoint (R136, R156): cause 10 or 13. -/
def queueRefuses (v : Queue) (ep width : Nat) (push : Bool) : Option Nat :=
  if !v.isOpen then
    (if !v.lost then some 10
     else if !push && !v.entries.isEmpty && v.cons == ep && v.width == width then none   -- the poison tail (R156)
     else some 13)
  else if (if push then v.prod else v.cons) != ep || v.width != width then some 10
  else none

def queueExc (cause q : Nat) : Exc := { cause := cause, info := BitVec.ofNat 64 q }

/-- The checks of `Pop` and `Push` (R136). -/
def checkQueue (c q ep width : Nat) (push : Bool) : M Queue := do
  let v ← getQueue c q
  match queueRefuses v ep width push with
  | some cause => throw (.trap (queueExc cause q))
  | none => return v

/-- Stall on an empty queue, or trap; a skip-pending queue counts no episode (R141, R143, R144, R150, R226). -/
def emptyStop (q : Nat) (v : Queue) (thread pop : Bool) : Stop :=
  if v.skip && v.entries.isEmpty then if v.trapE && !v.brq then .trap (queueExc 11 q) else .stall
  else if v.trapE && !v.brq then .trapQ q false (queueExc 11 q)
  else .stallQ q false (v.brq && thread && pop)

/-- Take the oldest poppable entry off a queue. On a line or row queue an entry with H opens a burst, which the entry with T
ends (R138, R156, log 80). -/
def Queue.popped (v : Queue) (e : QEntry) (rest : List QEntry) : Queue :=
  { v with entries := rest, mid := v.width != 0 && !e.t && (e.h || v.mid), window := if v.cons = 8 then v.window ++ [e] else v.window }

/-- `Pop` (R177) for an endpoint. -/
def popQueue (c q ep width : Nat) (thread : Bool := false) : M QEntry := do
  let v ← checkQueue c q ep width false
  match v.entries with
  | [] => throw (emptyStop q v thread true)
  | e :: rest => setQueue c q (v.popped e rest); return e

/-- A skip token as it enters the branch queue (R149). -/
def tokenEntry (w : Word) : QEntry := { data := leBytes 8 w.toNat, h := true }

/-- Skip tokens that reached the branch queue before S's push enter it first, as far as it has room (R149). -/
def enterTokens (v : Queue) : List (Word × Bool) → Queue × List (Word × Bool)
  | [] => (v, [])
  | (w, late) :: rest => if late || (v.isFull && !v.skip) then (v, (w, late) :: rest) else enterTokens (v.arrive (tokenEntry w)) rest

/-- The branch queue as a push finds it, and the skip tokens still waiting: none but those that came after it, if it may enter. -/
def tokensFirst (k : Crew) (v : Queue) : Queue × List (Word × Bool) :=
  if v.brq then enterTokens v k.skipToks else (v, k.skipToks)

/-- `Push` (R177) for an endpoint. -/
def pushQueue (c q ep width : Nat) (e : QEntry) : M Unit := do
  let v ← checkQueue c q ep width true
  let s ← get
  let (v, toks) := tokensFirst (s.crew c) v
  if (v.isFull && !v.skip) || (v.brq && toks.any fun w => !w.2) then
    if v.trapF then throw (.trapQ q true (queueExc 12 q)) else throw (.stallQ q true false)
  else
    setQueue c q (v.arrive e)
    if v.brq then upd fun s => s.setCrew c { s.crew c with skipToks := toks.map fun w => (w.1, false) }

/-- Count a stall episode (R142, R150). -/
def countEpisode (s : State) (c q : Nat) (push loss : Bool) : State :=
  let k := s.crew c
  let v := k.queues.getD q {}
  let v' := if push then { v with fullc := satAdd v.fullc 1 } else { v with empty := satAdd v.empty 1 }
  let d := BitVec.ofNat 32 (min (2 ^ 32 - 1) (k.dcplCnt.toNat + 1))
  let k' := { k with queues := k.queues.put q v' {}, dcplCnt := if loss then d else k.dcplCnt }
  let s' := s.setCrew c k'
  let thr := (s.context k.ctx).dcplThr
  if loss && thr != 0 && d == thr && k.dcplCnt != d then
    s'.setThread k.thread { s'.thread k.thread with lossDue := some ((s'.thread k.thread).sc.pc, false) }
  else s'

/-! ### Fetching (R158-R164) -/

/-- What an owner's fetches read from after an IFENCE or a dispatch: its view, and the writes published to it (R164, R211). -/
def fenceNow (s : State) (o : Owner) : State :=
  let seen := (s.mem.log.filter fun w => publishedTo s (agentOf o) w).map (·.id)
  s.setScalar o { s.scalar o with lines := [], line := none, fence := s.view (agentOf o), fenceSeen := seen }

/-- A line as the owner's snapshot and its own stores were at its last IFENCE (R211). -/
def lineBefore (o : Owner) (pa : Nat) : M (List Byte) := do
  let s ← get
  let c := s.scalar o
  let v := s.view (agentOf o)
  let f ← if v.phase = c.fence.phase then pure { v with pend := c.fence.pend, fresh := c.fence.fresh }
    else match c.fence.snap.find? (pa / 1024) with
      | some _ => pure c.fence
      | none => do
        let vis := s.mem.log.filter fun w => touches w (pa / 1024) && c.fenceSeen.contains w.id
        let ids ← choosePrefix c.fence (fun _ => none) vis
        pure { c.fence with snap := c.fence.snap.insert (pa / 1024) ids }
  if v.phase ≠ c.fence.phase then updScalar o fun c => { c with fence := f }
  return (List.range 32).map fun i => byteUnder s f (pa + i)

/-- Fetch a line: wholly old or wholly new where they differ and no IFENCE came between (R164). -/
def fetchBytes (o : Owner) (va pa : Nat) : M (List Byte) := do
  let got ← readPhys (agentOf o) pa 32
  match got with
  | none => throw (.lasting va)
  | some bs =>
    let s ← get
    let old ← match (s.scalar o).lines.find? va with
      | some l => pure l
      | none => lineBefore o pa
    let k ← if old = bs then pure 1 else pick 0 1
    let got := if k = 0 then old else bs
    updScalar o fun c => { c with lines := c.lines.insert va got, line := some va }
    return got

/-- The code pin a sequencer fetches through: that of its own code object (R164, R457). -/
def codePin (s : State) (c : Nat) (p : Pin) : Bool :=
  let k := s.crew c
  p.owner == .launch k.launch k.card &&
  match s.launches.find? k.launch with
  | some l =>
    let cent := (l.cards.getD k.card default).cent.toNat
    p.ranges.any fun r => r.1 ≤ cent && cent < r.1 + r.2
  | none => true

/-- The bytes of the line at a virtual address, as an owner fetches it. The lanes of a line being executed come from one fetch
of it (R456). -/
def fetchLine (o : Owner) (va : Nat) : M (List Byte) := do
  let s ← get
  match (if (s.scalar o).line = some va then (s.scalar o).lines.find? va else none), o with
  | some bs, _ => return bs
  | none, o =>
  match o with
  | .thread t =>
    let pa ← translate t (levelOf s o) va false true
    fetchBytes o va pa
  | .crew c =>
    match resolve s (codePin s c) va 32 false with
    | .ok ((pa, _) :: _) => fetchBytes o va pa
    | _ => throw (.trap { cause := 16, info := BitVec.ofNat 64 va })

def isCox : Owner → Bool
  | .thread _ => true
  | .crew _ => false

/-- A line looked at: none where it cannot be fetched. A lasting error stops the crew like that of a fetch (R471). -/
def lookLine (o : Owner) (va : Nat) : M (Option Line) := fun s =>
  match fetchLine o va s with
  | .ok bs s' => .ok (some (Line.ofBytes bs)) (s'.setScalar o { s'.scalar o with line := (s.scalar o).line })
  | .error (.lasting x) s' => .error (.lasting x) s'
  | .error _ s' => .ok none s'

/-- The target check of a transfer (R162): a code pointer to a non-empty lane with BT set. A target line that a thread
cannot translate is checked no further: its fetch raises the page fault (log 14). -/
def targetOk (o : Owner) (p : Nat) (entry : Bool) : M Bool := do
  if !ptrOk p then return false
  match ← lookLine o (ptrLine p) with
  | none => return isCox o
  | some l =>
    return l.sid (ptrLane p) != 0 && l.bt (ptrLane p) && (!entry || l.isEntry)

/-! ### The active crew of a cluster (R24, R25) -/

/-- A crew that could use the sequencer or its streams if it were active. -/
def hasWork (k : Crew) : Bool :=
  let queued := !(k.vq.isEmpty && k.mq.isEmpty && k.lq.isEmpty && k.wq.isEmpty)
  k.stage == .resident &&
  match k.smode with
  | .running => true
  | .stopped => queued
  | .faulted => queued
  | .waiting => false
  | .waitc .. => false

/-- The first of some slots whose crew has work. -/
def firstSlot (s : State) (c : Cluster) : List Nat → Option Nat
  | [] => none
  | i :: t =>
    match c.slots.find? (i % 4) with
    | some k => if hasWork (s.crew k) then some (i % 4) else firstSlot s c t
    | none => firstSlot s c t

/-- Charge the active crew's time to its context: the number of ns is not modelled, a free value (R441, log 15). -/
def chargeTime (s : State) (cl : Nat) : State :=
  match s.activeCrew cl with
  | none => s
  | some c =>
    let x := s.context (s.crew c).ctx
    { s.setContext (s.crew c).ctx { x with ctxTime := x.ctxTime + BitVec.ofNat 64 (Config.freeNat s.draws) } with
      draws := s.draws + 1 }

/-- The next other resident crew with work in round-robin order of slots becomes active, if there is one. -/
def rotate (s : State) (cl : Nat) : State :=
  let c := s.cluster cl
  let a := c.active.getD 3
  match firstSlot s c ((if c.active.isSome then [1, 2, 3] else [1, 2, 3, 4]).map (a + ·)) with
  | some slot =>
    let s := chargeTime s cl
    s.setCluster cl { s.cluster cl with active := some slot }
  | none => s

/-- A cluster whose active crew has no work, or that has none, turns to a crew with work. -/
def rouse (s : State) (cl : Nat) : State :=
  match s.activeCrew cl with
  | some c => if hasWork (s.crew c) then s else rotate s cl
  | none => rotate s cl

/-! ### Ending and halting crews (R446) -/

/-- Release every pin of an owner (R26, R216). -/
def dropPins (s : State) (f : Pin → Bool) : State := { s with pins := s.pins.filter fun p => !f p }

/-- The active crew of a slot stops being active: another takes over, or none. -/
def leave (s : State) (cl slot : Nat) : State :=
  let r := rotate s cl
  if (r.cluster cl).active == some slot then chargeTime r cl else r

/-- Take a crew off its context slot. -/
def leaveSlot (s : State) (c : Nat) : State :=
  let k := s.crew c
  let cl := s.cluster k.cl
  if cl.slots.find? k.slot == some c then
    let s := if cl.active == some k.slot then leave s k.cl k.slot else s
    let cl := s.cluster k.cl
    s.setCluster k.cl { cl with
      slots := cl.slots.erase k.slot
      active := if cl.active == some k.slot then none else cl.active }
  else s

/-- Take a crew off its cluster: its slot, its thread and the active mark. -/
def vacate (s : State) (c : Nat) : State :=
  let s := leaveSlot s c
  let t := (s.crew c).thread
  if (s.thread t).crew == some c then s.setThread t {} else s

/-- This package's identifier (R481). -/
def selfId : Nat := Config.packageId % 2 ^ 20

/-- A message to another package leaves for it; one to this package waits for its receipt (R376). -/
def send (s : State) (pkg : Nat) (m : CourseMsg) : State :=
  if pkg = selfId then { s with selfbox := s.selfbox ++ [m] } else { s with outbox := s.outbox ++ [(pkg, m)] }

/-- Ranks of the other participants of a shuffle, as a mask. -/
def Shuffle.others (x : Shuffle) : Nat := 2 ^ x.parts.length - 1 - 2 ^ x.rank

/-- Send a shuffle packet to the ranks its mask names (R398). -/
def sendPacket (s : State) (x : Shuffle) (p : Packet) : State :=
  x.parts.zipIdx.foldl (fun s e => if bit p.dmask e.2 then send s e.1 (.packet p) else s) s

/-- A control packet of a shuffle to every other participant. -/
def sendAll (s : State) (shid kind : Nat) (x : Shuffle) : State :=
  sendPacket s x { pkind := kind, sender := selfId, dmask := x.others
                   comps := [{ shid := shid, len := 0, src := 0, blk := 0 }], payload := [] }

/-- A shuffle leaves the package: its held packets, side-information entries and binding go (R415, R501). -/
def unbind (s : State) (shid : Nat) : State :=
  { s with
    shuffles := s.shuffles.erase shid
    sit := s.sit.filter fun e => e.st == .retained || e.shid != shid }

/-- Shuffles end with QUIT to their peers (R415). -/
def quitShuffles (s : State) (f : Shuffle → Bool) : State :=
  s.shuffles.foldl (fun s e => if f e.2 then unbind (sendAll s e.1 0x26 e.2) e.1 else s) s

/-- Commands that a condition names leave their engines, with their issue pins and views; their shuffles end. -/
def dropCmds (s : State) (f : Cmd → Bool) : State :=
  let gone := s.clusters.flatMap fun e => ((e.2.copyQ ++ e.2.indexQ).filter f).map fun c => (e.1, c.id)
  let drop (v : Cluster) : Cluster := { v with
    copyQ := v.copyQ.filter fun e => !f e, indexQ := v.indexQ.filter fun e => !f e }
  let s := { s with clusters := Tbl.mapVals drop s.clusters }
  let s := gone.foldl (fun s e => (dropPins s fun p => p.owner == .cmd e.2).dropView (.cmd e.2)) s
  quitShuffles s fun x => gone.contains (x.cl, x.cmd)

/-- End a crew without a completion release (R34, R382, R435, R446): its unpublished writes, commands, pins and frame go. -/
def endCrew (s : State) (c : Nat) : State :=
  let k := s.crew c
  if k.stage == .gone then s
  else
    let s := settleMove s c true
    let s := vacate s c
    let s := dropPins s fun p => p.owner == .crew c
    let s := dropCmds s fun e => e.crew == some c
    let saved := (k.savedCE ++ k.savedIX).map fun e => PinOwner.cmd e.id
    let s := dropPins s fun p => saved.contains p.owner
    let s := (s.dropView (.half c)).dropView (.thread k.thread)
    let x := s.context k.ctx
    let s := if (s.contexts.find? k.ctx).isSome then s.setContext k.ctx { x with frames := x.frames.filter (· != k.frame) }
      else s
    let clean (v : Partition) : Partition := { v with pool := v.pool.filter fun p => p.crew != some c }
    let s := { s with partitions := Tbl.mapVals clean s.partitions }
    s.setCrew c { k with stage := .gone }

/-- Instances of a launch leave the pools. -/
def purge (s : State) (l : Nat) : State :=
  let keep (p : PoolEntry) : Bool := p.crew.isSome || p.launch != l
  let clean (v : Partition) : Partition := { v with pool := v.pool.filter keep }
  { s with partitions := Tbl.mapVals clean s.partitions }

/-- Stop a launch's dispatching with a status (R375). -/
def stopLaunch (s : State) (l status : Nat) : State :=
  match s.launches.find? l with
  | some v => purge { s with launches := s.launches.insert l { v with stopped := some (v.stopped.getD status) } } l
  | none => s

/-- Index of an instance of a card. -/
def instKey (card inst : Nat) : Nat := inst * 4096 + card

/-- An instance of a launch will run no more: its crew was ended. -/
def endInstance (s : State) (k : Crew) : State :=
  match s.launches.find? k.launch with
  | some v => { s with launches := s.launches.insert k.launch { v with insts := v.insts.insert (instKey k.card k.inst) .failed } }
  | none => s

/-- End a crew for a fault not handled in it, or for a command to end it (R375, R446): CREW_END with the cause. -/
def failCrew (c cause : Nat) : M Unit := do
  let s ← get
  let k := s.crew c
  event k.ctx 5 cause (handleOf k) 0 cause
  upd fun s => stopLaunch (endInstance (endCrew s c) k) k.launch 38
  reportMoves

/-- What a thread is after its pre-emption: one parked in WAITC or TLBI re-executes it (R15, R218, R462). -/
def resumedMode (m : ThreadMode) : ThreadMode :=
  match m with
  | .waitc .. => .ready
  | .tlbi _ => .ready
  | m => m

/-- Stop a thread with its crew (R15, R442). -/
def haltThread (th : Thread) : Thread := { th with mode := .halted, haltedFrom := resumedMode th.mode }

/-- A crew is stopped for a save (R442): whether it will be suspended, and the cause. Its commands not begun are saved
with it (R300), and another crew of its cluster becomes active (R25). -/
def haltCrew (s : State) (c : Nat) (suspend : Bool) (cause : Nat) : State :=
  let k := s.crew c
  let cl := s.cluster k.cl
  let waits (e : Cmd) : Bool := e.crew == some c && !e.prog.begun
  let k' := { k with
    stage := .saving suspend cause
    savedCE := k.savedCE ++ cl.copyQ.filter waits, savedIX := k.savedIX ++ cl.indexQ.filter waits }
  let s := s.setCluster k.cl { cl with
    copyQ := cl.copyQ.filter fun e => !waits e, indexQ := cl.indexQ.filter fun e => !waits e }
  let s := s.setCrew c k'
  rouse (s.setThread k.thread (haltThread (s.thread k.thread))) k.cl

/-- HALT, an unhandled exception, or an uncorrectable error stops a thread and its crew (R446, R471). -/
def haltOwner (t cause : Nat) : M Unit := do
  let s ← get
  let th := s.thread t
  match th.crew with
  | none => upd (·.setThread t { th with mode := .halted })
  | some c =>
    let k := s.crew c
    if (s.context k.ctx).dbgCtl then
      upd fun s => haltCrew s c true cause
    else failCrew c cause

/-! ### Taking an exception, and returning from one (R443-R446) -/

/-- Offset of a crew's save frame region. -/
def frameAddr (s : State) (c : Nat) : Nat :=
  let k := s.crew c
  (s.context k.ctx).saveBase.toNat + k.frame * 0x900000

/-- Where an exception record of the thread stands (R439, R443; log 13 for a thread of no crew). -/
def recordAddr (s : State) (t : Nat) (cluster : Bool) : Nat :=
  match (s.thread t).crew with
  | some c => frameAddr s c + (if cluster then 0x180 else 0x100)
  | none => Config.unboundRecord t

/-- The record's bytes (R444). -/
def recordBytes (th : Thread) (handle : Nat) (p : Posted) (tpc : Word) : List Byte :=
  leBytes 1 p.exc.cause ++ leBytes 1 p.stream ++
  leBytes 2 ((if p.after then 2 else 0) + th.level.toNat * 4) ++ leBytes 4 p.mmask.toNat ++
  leBytes 8 p.pc.toNat ++ leBytes 8 p.resume.toNat ++ leBytes 8 p.exc.addr.toNat ++ leBytes 8 p.exc.info.toNat ++
  leBytes 8 handle ++ leBytes 8 tpc.toNat ++ leBytes 8 0 ++
  leBytes 8 (th.sc.reg 28).toNat ++ leBytes 8 (th.sc.reg 29).toNat ++ leBytes 8 (th.sc.reg 30).toNat ++
  leBytes 8 (th.sc.reg 31).toNat ++ leBytes 1 (th.sc.preds.toNat / 2 * 2) ++ leBytes 31 0

/-- Physical parts of a thread's supervisor access to its record. -/
def recordParts (t va n : Nat) (write : Bool) : M (Option (List (Nat × Nat))) := do
  let s ← get
  hubParts (s.thread t).ctx write (lineParts 3 va n)

/-- The target check of the handler, whose lasting error is the crew's (R471). -/
def handlerOk (t : Nat) (vec : Nat) : M (Option Bool) := fun s =>
  match targetOk (.thread t) vec true s with
  | .ok b s' => .ok (some b) s'
  | .error _ s' => .ok none s'

/-- Enter the handler (R443): the record is filled and stored, `g28` names it, INEXC is set, the level is at least 1, and
the thread goes to EXC_VEC. An exception that is unhandled acts as HALT at that point. `cluster` selects the cluster record.
While one of `g28`-`g31` awaits a value the exception waits for it (log 81). -/
def takeException (t : Nat) (p : Posted) (cluster : Bool) : M Unit := do
  let s ← get
  let th := s.thread t
  let vec := (s.context th.ctx).excVec
  if !(th.sc.isFull 28 && th.sc.isFull 29 && th.sc.isFull 30 && th.sc.isFull 31) then throw .stall
  let handle := match th.crew with
    | some c => handleOf (s.crew c)
    | none => 0
  let addr := recordAddr s t cluster
  let parts ← recordParts t addr 128 true
  upd (·.setThread t { th with
    sc := { th.sc.write 28 (BitVec.ofNat 64 addr) with stalled := false }, inexc := true
    level := if th.level == 0 then 1 else th.level
    excRec := BitVec.ofNat 64 addr, recCluster := cluster, mode := .ready
    parkedBefore := match th.mode with
      | .returned => some .returned
      | _ => none })
  match parts with
  | some ps => writeParts (.thread t) ps (recordBytes th handle p (if cluster then th.sc.pc else 0))
  | none => pure ()
  if th.inexc || vec == 0 || parts.isNone then haltOwner t p.exc.cause
  else
    match ← handlerOk t vec.toNat with
    | some true => upd fun s => let x := s.thread t
        s.setThread t { x with sc := { x.sc with pc := vec, line := none } }
    | some false => haltOwner t p.exc.cause
    | none =>
      containReport th.ctx handle vec.toNat 3 0 1 2
      haltOwner t 0

/-- Post a cluster exception to the crew's thread (R444). -/
def postException (s : State) (c : Nat) (p : Posted) : State :=
  let k := s.crew c
  let k := { k with posted := k.posted ++ [p] }
  s.setCrew c (if p.stream = 1 then { k with smode := .faulted }
    else if p.stream = 8 then k
    else { k with stopped := addName k.stopped p.stream })

/-- Run a command of the machine that never stops; where it does, nothing happens. -/
def runM (m : M Unit) (s : State) : State :=
  match m s with
  | .ok _ s' => s'
  | .error _ _ => s

/-- An owner whose crew is off its unit, or being saved. -/
def ownerAway (s : State) (o : Owner) : Bool :=
  match crewOf s o with
  | some c => (s.crew c).stage != .resident
  | none => false

/-- The crew stops for an uncorrectable error (R471, first row): a report, then as an unhandled exception with cause 0. -/
def containOwner (o : Owner) (unit addr : Nat) : M Unit := do
  let s ← get
  match o with
  | .thread t =>
    let h := match (s.thread t).crew with
      | some c => handleOf (s.crew c)
      | none => 0
    containReport (s.thread t).ctx h addr unit (t / 8) 1 2
    haltOwner t 0
  | .crew c =>
    let k := s.crew c
    containReport k.ctx (handleOf k) addr unit k.cl 1 2
    haltOwner k.thread 0

/-! ### The frame of A and S instructions -/

/-- An owner raises an exception at an instruction (R8, R443, R444). `after` names the next instruction for RESUME. -/
def raiseAt (o : Owner) (e : Exc) (pc resume : Word) (after : Bool) : M Unit :=
  match o with
  | .thread t => takeException t { stream := 0, exc := e, pc := pc, resume := resume, after := after } false
  | .crew c => upd fun s => postException s c { stream := 1, exc := e, pc := pc, resume := resume, after := after }

/-- Loops of a crew whose end lane is at a pointer and whose call depth is the present one, latest first (R234). -/
def loopsEnding (k : Crew) (p : Nat) : List (Nat × LoopRec) :=
  let l := k.loops.filter fun e => e.2.active && e.2.stop.toNat == p && e.2.depth == k.sc.depth
  l.foldl (fun acc e => insertBorn e acc) []
where
  insertBorn (e : Nat × LoopRec) : List (Nat × LoopRec) → List (Nat × LoopRec)
    | [] => [e]
    | x :: t => if x.2.born < e.2.born then e :: x :: t else x :: insertBorn e t

/-- Evaluate back edges from the latest loop outward (R234): the pointer to go on at, if one is taken. -/
def backEdges (k : Crew) : List (Nat × LoopRec) → Crew × Option Word
  | [] => (k, none)
  | (i, l) :: t =>
    if 1 < l.cnt.toNat then ({ k with loops := k.loops.insert i { l with cnt := l.cnt - 1 } }, some l.start)
    else backEdges { k with loops := k.loops.insert i { l with active := false, cnt := 0 } } t

/-- An owner's instruction has issued, and leaves these registers. -/
def land (s : State) (o : Owner) (c : Scalar) : State :=
  match o with
  | .thread t => s.setThread t { s.thread t with sc := c, idle := false }
  | .crew k => s.setCrew k { s.crew k with sc := c, idle := false }

/-- Go on after an instruction of `n` lanes at the present pointer (R161, R234). -/
def advance (s : State) (o : Owner) (n : Nat) : State :=
  let c := s.scalar o
  let nxt := BitVec.ofNat 64 (ptrNext c.pc.toNat n)
  match o with
  | .thread _ => land s o { c with pc := nxt, stalled := false }
  | .crew k =>
    let (v, to?) := backEdges (s.crew k) (loopsEnding (s.crew k) (c.pc.toNat + n - 1))
    s.setCrew k { v with sc := { v.sc with pc := to?.getD nxt, stalled := false }, idle := false }

/-- The next pointer after a `SKIP` or an instruction with AFTER: no back edge is evaluated. -/
def nextPtr (pc : Word) (n : Nat) : Word := BitVec.ofNat 64 (ptrNext pc.toNat n)

/-- How an instruction's body ends: it goes on, it transfers, or it has set the pointer itself. -/
inductive Flow where
  | next
  | goto (p : Word)
  | stay
  deriving DecidableEq, Repr, Inhabited

/-- What a read found out about memory stays found, though the instruction that made it has no effect (R465, R469). -/
def keepErrors (s found : State) : State :=
  { s with
    mem := { s.mem with poison := found.mem.poison, upsets := found.mem.upsets }
    errorAddrs := found.errorAddrs, counters := found.counters, draws := found.draws }

/-- The state after an exception of an instruction at the owner's pointer that met it in `s1`; while the exception cannot be
taken yet (log 81) the instruction waits in `s`. -/
def raisedAt (o : Owner) (e : Exc) (s s1 : State) : State :=
  let pc := (s.scalar o).pc
  match raiseAt o e pc pc false (s1.setScalar o { s1.scalar o with stalled := false }) with
  | .ok _ s' => s'
  | .error _ _ => s

/-- An A or S instruction begins a stall episode on a queue (R142); S at its push to the branch queue has reached it (R149). -/
def beginEpisode (o : Owner) (k q : Nat) (push loss : Bool) (s : State) : State :=
  let s' := countEpisode s k q push loss
  let s' := s'.setScalar o { s'.scalar o with stalled := true }
  match o with
  | .thread _ => s'
  | .crew c => s'.setCrew c { s'.crew c with atBrq := push && ((s'.crew c).queues.getD q {}).brq }

/-- The states after an A or S instruction of `n` lanes whose body is given: its effect and the pointer's advance, a
stall that leaves all as it was but counts its episode, or its exception. -/
def scalarStep (o : Owner) (n : Nat) (body : M Flow) (s : State) : State :=
  let c := s.scalar o
  let episode (q : Nat) (push loss : Bool) : State :=
    match crewOf s o with
    | some k =>
      if c.stalled then s else beginEpisode o k q push loss s
    | none => s
  match body s with
  | .ok .next s' => advance s' o n
  | .ok (.goto p) s' => land s' o { s'.scalar o with pc := p, line := none, stalled := false }
  | .ok .stay s' => s'
  | .error .stall _ => s
  | .error (.stallQ q push loss) _ => episode q push loss
  | .error (.trap e) s' => raisedAt o e (keepErrors s s') (keepErrors s s')
  | .error (.trapQ q push e) _ => raisedAt o e s (match crewOf s o with
      | some k => countEpisode s k q push false
      | none => s)
  | .error (.trapKeep e) s' => raisedAt o e s s'
  | .error (.lasting va) s' => runM (containOwner o 3 va) (keepErrors s s')
  | .error (.status _) _ => s

/-- The owner a scalar instruction runs for: the present thread or the active crew of the present cluster. -/
def curOwner (s : State) : Option Owner :=
  match s.cur with
  | .thread t => some (.thread t)
  | .seq cl => (s.activeCrew cl).map .crew
  | _ => none

/-- Run a scalar instruction for the present unit; nothing runs for any other unit. -/
def runScalar (body : Owner → M Flow) (s : State) : Out :=
  match curOwner s with
  | some o => .next (scalarStep o 1 (body o) s)
  | none => .next s

/-- An instruction only the A stream has raises the illegal-instruction exception in S (R178). -/
def runA (body : Nat → M Flow) (s : State) : Out :=
  runScalar (fun o => match o with
    | .thread t => body t
    | .crew _ => illegal) s

/-- An instruction only the S stream has raises the illegal-instruction exception in A (R178). -/
def runS (body : Nat → M Flow) (s : State) : Out :=
  runScalar (fun o => match o with
    | .thread _ => illegal
    | .crew c => body c) s

/-- The body under a guard (R166). -/
def guarded (o : Owner) (g ng : Nat) (body : M Flow) : M Flow := do
  if ← guardHolds o g ng then body else return .next

end Sys2Proof.Machine
end

