-- ==== Sys2Proof/Machine/Integer.lean ====
section
/-! DEFINITION. Integer arithmetic, logic, shifts, bit operations, constants, moves, compares and predicates of the A and S
streams (R189-R202). -/

namespace Sys2Proof.Machine

/-! ### Shapes -/

/-- Format R with two sources. -/
def regBin (o : RFmt) (f : Word → Word → Word) (w : Owner) : M Flow :=
  guarded w o.g o.ng do
    let x ← readReg w o.a o.ta
    let y ← readReg w o.b o.tb
    writeReg w o.d (f x y)
    return .next

/-- Format R with one source. -/
def regUn (o : RFmt) (f : Word → Word) (w : Owner) : M Flow :=
  guarded w o.g o.ng do
    let x ← readReg w o.a o.ta
    writeReg w o.d (f x)
    return .next

/-- Format I with a source and an immediate. -/
def regImm (o : IFmt) (f : Word → Nat → Word) (w : Owner) : M Flow := do
  let x ← readReg w o.a o.ta
  writeReg w o.d (f x o.imm)
  return .next

/-- An integer as a register value. -/
def ofInt64 (v : Int) : Word := BitVec.ofNat 64 (wrapN v 64)

/-- Wrap or saturate an exact value by fn (R189). -/
def narrow (fn : Nat) (v : Int) : Word :=
  if fn = 0 then ofInt64 v else BitVec.ofNat 64 (satN v 64 (fn == 1))

/-- An operand as fn reads it (R189). -/
def operand (fn : Nat) (x : Word) : Int := if fn = 2 then (x.toNat : Int) else x.toInt

/-! ### Arithmetic (R189-R193) -/

def addOp (fn : Nat) (x y : Word) : Word := narrow fn (operand fn x + operand fn y)
def subOp (fn : Nat) (x y : Word) : Word := narrow fn (operand fn x - operand fn y)
def mulOp (fn : Nat) (x y : Word) : Word := narrow fn (operand fn x * operand fn y)
def mulhOp (x y : Word) : Word := ofInt64 (x.toInt * y.toInt / 2 ^ 64)
def mulhnOp (x y : Word) : Word := BitVec.ofNat 64 (x.toNat * y.toNat / 2 ^ 64)
def divOp (x y : Word) : Word := ofInt64 (divI x.toInt y.toInt 64 true).1
def divnOp (x y : Word) : Word := ofInt64 (divI x.toNat y.toNat 64 false).1
def remOp (x y : Word) : Word := ofInt64 (divI x.toInt y.toInt 64 true).2
def remnOp (x y : Word) : Word := ofInt64 (divI x.toNat y.toNat 64 false).2
def negOp (fn : Nat) (x : Word) : Word := narrow fn (-operand fn x)
def absOp (fn : Nat) (x : Word) : Word := narrow fn (x.toInt.natAbs : Int)
def minOp (x y : Word) : Word := if y.toInt < x.toInt then y else x
def maxOp (x y : Word) : Word := if x.toInt < y.toInt then y else x
def minnOp (x y : Word) : Word := if y.toNat < x.toNat then y else x
def maxnOp (x y : Word) : Word := if x.toNat < y.toNat then y else x

def execAdd (o : RFmt) (s : State) : Out := runScalar (regBin o (addOp o.fn)) s
def execSub (o : RFmt) (s : State) : Out := runScalar (regBin o (subOp o.fn)) s
def execMul (o : RFmt) (s : State) : Out := runScalar (regBin o (mulOp o.fn)) s
def execMulh (o : RFmt) (s : State) : Out := runScalar (regBin o mulhOp) s
def execMulhn (o : RFmt) (s : State) : Out := runScalar (regBin o mulhnOp) s
def execDiv (o : RFmt) (s : State) : Out := runScalar (regBin o divOp) s
def execDivn (o : RFmt) (s : State) : Out := runScalar (regBin o divnOp) s
def execRem (o : RFmt) (s : State) : Out := runScalar (regBin o remOp) s
def execRemn (o : RFmt) (s : State) : Out := runScalar (regBin o remnOp) s
def execNeg (o : RFmt) (s : State) : Out := runScalar (regUn o (negOp o.fn)) s
def execAbs (o : RFmt) (s : State) : Out := runScalar (regUn o (absOp o.fn)) s
def execMin (o : RFmt) (s : State) : Out := runScalar (regBin o minOp) s
def execMax (o : RFmt) (s : State) : Out := runScalar (regBin o maxOp) s
def execMinn (o : RFmt) (s : State) : Out := runScalar (regBin o minnOp) s
def execMaxn (o : RFmt) (s : State) : Out := runScalar (regBin o maxnOp) s

/-! ### Logic and shifts (R194, R195) -/

def shlOp (x : Word) (n : Nat) : Word := if 64 ≤ n then 0 else x <<< n
def shrOp (x : Word) (n : Nat) : Word := if 64 ≤ n then 0 else x >>> n
def sarOp (x : Word) (n : Nat) : Word := x.sshiftRight (min n 63)
def rotlOp (x : Word) (n : Nat) : Word := x.rotateLeft (n % 64)

def execAnd (o : RFmt) (s : State) : Out := runScalar (regBin o fun x y => x &&& y) s
def execOr (o : RFmt) (s : State) : Out := runScalar (regBin o fun x y => x ||| y) s
def execXor (o : RFmt) (s : State) : Out := runScalar (regBin o fun x y => x ^^^ y) s
def execAndn (o : RFmt) (s : State) : Out := runScalar (regBin o fun x y => x &&& ~~~y) s
def execShl (o : RFmt) (s : State) : Out := runScalar (regBin o fun x y => shlOp x y.toNat) s
def execShr (o : RFmt) (s : State) : Out := runScalar (regBin o fun x y => shrOp x y.toNat) s
def execSar (o : RFmt) (s : State) : Out := runScalar (regBin o fun x y => sarOp x y.toNat) s
def execRotl (o : RFmt) (s : State) : Out := runScalar (regBin o fun x y => rotlOp x y.toNat) s
def execAddi (o : IFmt) (s : State) : Out :=
  runScalar (regImm o fun x i => ofInt64 (x.toInt + sext i 14)) s
def execAndi (o : IFmt) (s : State) : Out := runScalar (regImm o fun x i => x &&& BitVec.ofNat 64 i) s
def execOri (o : IFmt) (s : State) : Out := runScalar (regImm o fun x i => x ||| BitVec.ofNat 64 i) s
def execXori (o : IFmt) (s : State) : Out := runScalar (regImm o fun x i => x ^^^ BitVec.ofNat 64 i) s
def execShli (o : IFmt) (s : State) : Out := runScalar (regImm o fun x i => shlOp x (i % 64)) s
def execShri (o : IFmt) (s : State) : Out := runScalar (regImm o fun x i => shrOp x (i % 64)) s
def execSari (o : IFmt) (s : State) : Out := runScalar (regImm o fun x i => sarOp x (i % 64)) s

/-! ### Bit operations (R196-R198) -/

/-- Reverse the low `n` bytes. -/
def swapBytes : Nat → Nat → Nat
  | 0, _ => 0
  | n + 1, v => v % 256 * 256 ^ n + swapBytes n (v / 256)

/-- Width an `EXT` or `INS` operand word gives at its position. -/
def fieldWidth (y : Nat) : Nat := min (bits y 14 8) (64 - bits y 5 0)

def extOp (x y : Word) : Word := BitVec.ofNat 64 (x.toNat / 2 ^ bits y.toNat 5 0 % 2 ^ fieldWidth y.toNat)

def insOp (old x y : Word) : Word :=
  let p := bits y.toNat 5 0
  let w := fieldWidth y.toNat
  let mask := (2 ^ w - 1) * 2 ^ p
  BitVec.ofNat 64 ((old.toNat &&& (2 ^ 64 - 1 - mask)) + x.toNat % 2 ^ w * 2 ^ p)

/-- Interleave the low `n` bits: `x` at even, `y` at odd places. -/
def interleave (x y : Nat) : Nat → Nat
  | 0 => 0
  | n + 1 => interleave x y n + (x / 2 ^ n % 2) * 4 ^ n + (y / 2 ^ n % 2) * 2 * 4 ^ n

/-- Every second bit of `x` from place `b` on, `n` of them. -/
def separate (x b : Nat) : Nat → Nat
  | 0 => 0
  | n + 1 => separate x b n + x / 2 ^ (2 * n + b) % 2 * 2 ^ n

def mortOp (x y : Word) : Word := BitVec.ofNat 64 (interleave x.toNat y.toNat 32)
def demortOp (x y : Word) : Word :=
  if 1 < y.toNat then 0 else BitVec.ofNat 64 (separate x.toNat y.toNat 32)

def execClz (o : RFmt) (s : State) : Out := runScalar (regUn o fun x => BitVec.ofNat 64 (leadZeros x.toNat 64)) s
def execCtz (o : RFmt) (s : State) : Out := runScalar (regUn o fun x => BitVec.ofNat 64 (trailZeros x.toNat 64)) s
def execPopc (o : RFmt) (s : State) : Out := runScalar (regUn o fun x => BitVec.ofNat 64 (popCount x.toNat 64)) s
def execBswap (o : RFmt) (s : State) : Out := runScalar (regUn o fun x => BitVec.ofNat 64 (swapBytes 8 x.toNat)) s
def execExt (o : RFmt) (s : State) : Out := runScalar (regBin o extOp) s
def execMort (o : RFmt) (s : State) : Out := runScalar (regBin o mortOp) s
def execDemort (o : RFmt) (s : State) : Out := runScalar (regBin o demortOp) s

def execIns (o : RFmt) (s : State) : Out :=
  runScalar (fun w => guarded w o.g o.ng do
    let x ← readReg w o.a o.ta
    let y ← readReg w o.b o.tb
    let old ← readReg w o.d 0
    writeReg w o.d (insOp old x y)
    return .next) s

/-! ### Constants, moves, compares and predicates (R199-R202) -/

def execLimm (o : UFmt) (s : State) : Out :=
  runScalar (fun w => do
    writeReg w o.d (BitVec.ofNat 64 (o.imm * 2 ^ (16 * o.hw)))
    return .next) s

def limmKOp (old : Word) (hw imm : Nat) : Word :=
  let m := 0xFFFF * 2 ^ (16 * hw)
  BitVec.ofNat 64 ((old.toNat &&& (2 ^ 64 - 1 - m)) + imm * 2 ^ (16 * hw))

def execLimmK (o : UFmt) (s : State) : Out :=
  runScalar (fun w => do
    let old ← readReg w o.d 0
    writeReg w o.d (limmKOp old o.hw o.imm)
    return .next) s

def execMov (o : RFmt) (s : State) : Out := runScalar (regUn o fun x => x) s

def execSel (o : RFmt) (s : State) : Out :=
  runScalar (fun w => guarded w o.g o.ng do
    let k ← readPred w (o.fn % 8)
    let x ← readReg w o.a o.ta
    let y ← readReg w o.b o.tb
    writeReg w o.d (if k then x else y)
    return .next) s

/-- The comparison a condition code names (R165). -/
def condHolds (cc : Nat) (x y : Word) : Bool :=
  match cc with
  | 0 => x == y
  | 1 => x != y
  | 2 => x.toInt < y.toInt
  | 3 => x.toInt ≤ y.toInt
  | 4 => y.toInt < x.toInt
  | 5 => y.toInt ≤ x.toInt
  | 6 => x.toNat < y.toNat
  | 7 => x.toNat ≤ y.toNat
  | 8 => y.toNat < x.toNat
  | _ => y.toNat ≤ x.toNat

def execCmp (o : RFmt) (s : State) : Out :=
  runScalar (fun w => guarded w o.g o.ng do
    let x ← readReg w o.a o.ta
    let y ← readReg w o.b o.tb
    writePred w (o.d % 8) (condHolds o.fn x y)
    return .next) s

def execCmpi (o : ICFmt) (s : State) : Out :=
  runScalar (fun w => do
    let x ← readReg w o.a o.ta
    writePred w o.kd (condHolds o.cond x (ofInt64 (sext o.imm 12)))
    return .next) s

/-- A predicate operation. -/
def predBin (o : RFmt) (f : Bool → Bool → Bool) (w : Owner) : M Flow :=
  guarded w o.g o.ng do
    let x ← readPred w (o.a % 8)
    let y ← readPred w (o.b % 8)
    writePred w (o.d % 8) (f x y)
    return .next

def execPand (o : RFmt) (s : State) : Out := runScalar (predBin o fun x y => x && y) s
def execPor (o : RFmt) (s : State) : Out := runScalar (predBin o fun x y => x || y) s
def execPxor (o : RFmt) (s : State) : Out := runScalar (predBin o fun x y => x != y) s
def execPnot (o : RFmt) (s : State) : Out := runScalar (predBin o fun x _ => !x) s

end Sys2Proof.Machine
end

