-- ==== Sys2Proof/Machine/Tensor.lean ====
section
/-! DEFINITION. Tensor descriptors, tiles, scales, padding, and footprint records (R78-R96, R213). -/

namespace Sys2Proof.Machine

/-- A TID descriptor (R78). -/
structure Desc where
  base : Nat
  scale : Nat
  side : Nat
  aux : Nat
  dim0 : Nat
  dim1 : Nat
  dim2 : Nat
  dim3 : Nat
  str1 : Nat
  str2 : Nat
  str3 : Nat
  ctl : Nat
  deriving DecidableEq, Repr, Inhabited

namespace Desc

def ofBytes (b : List Byte) : Desc :=
  { base := fieldAt b 0 8, scale := fieldAt b 8 8, side := fieldAt b 0x10 8, aux := fieldAt b 0x18 8
    dim0 := fieldAt b 0x20 4, dim1 := fieldAt b 0x24 4, dim2 := fieldAt b 0x28 4, dim3 := fieldAt b 0x2C 4
    str1 := fieldAt b 0x30 4, str2 := fieldAt b 0x34 4, str3 := fieldAt b 0x38 4, ctl := fieldAt b 0x3C 4 }

/-- TID 0: the linear address space (R86), whose tile c0 is bytes 1024 × c0 on, one tile row deep and without padding. -/
def linear : Desc :=
  { base := 0, scale := 0, side := 0, aux := 0, dim0 := 2 ^ 43, dim1 := 32, dim2 := 1, dim3 := 1, str1 := 0, str2 := 0
    str3 := 0, ctl := 0x80640000 }

def ro (d : Desc) : Bool := bit d.ctl 30
def kind (d : Desc) : Nat := bits d.ctl 29 27
def rax (d : Desc) : Nat := bits d.ctl 26 26
def efmt (d : Desc) : Nat := bits d.ctl 23 20
/-- Number of dimensions. -/
def nd (d : Desc) : Nat := bits d.ctl 19 18 + 1
def nfd (d : Desc) : Nat := bits d.ctl 15 0
def nf (d : Desc) : NF := NF.ofDesc d.nfd

/-- Width of an element in memory, in bits (R82, R83). -/
def elemBits (d : Desc) : Nat :=
  match d.efmt with
  | 0 => 4
  | 1 => 8
  | 2 => 16
  | 3 => 32
  | 4 => 64
  | 5 => 4
  | 6 => 8
  | 7 => 16
  | 8 => 32
  | 9 => 64
  | 10 => 32
  | 11 => 16
  | 12 => 16
  | _ => if d.nf.w = 4 then 4 else 8

/-- Elements of a tile row (R83). -/
def epr (d : Desc) : Nat := 256 / d.elemBits

def dimOf (d : Desc) (n : Nat) : Nat :=
  let v := match n with
    | 0 => d.dim0
    | 1 => d.dim1
    | 2 => d.dim2
    | _ => d.dim3
  if n < d.nd then v else 1

/-- The grid's extents (R84). -/
def grid (d : Desc) (n : Nat) : Nat :=
  if n = 0 then (d.dimOf 0 + d.epr - 1) / d.epr else if n = 1 then (d.dimOf 1 + 31) / 32 else d.dimOf n

/-- Blocks of 32 along dim0 (R90). -/
def nb (d : Desc) : Nat := (d.dim0 + 31) / 32

/-- The cold narrow format of a `ROWCLASS` table. -/
def coldNf (d : Desc) : NF := NF.ofDesc (d.scale % 2 ^ 16)

/-- R79 with the per-kind conditions of R89 to R95. -/
def valid (d : Desc) : Bool :=
  let k := d.kind
  let tiled := k ≤ 1
  let dims := [d.dim0, d.dim1, d.dim2, d.dim3]
  bit d.ctl 31 && bits d.ctl 25 24 == 0 && bits d.ctl 17 16 == 0 && k < 6 && d.efmt < 14 &&
  (if d.efmt = 13 ∨ k = 4 then d.nfd % 2 ^ 16 < 2 ^ 16 && d.nf.valid else d.nfd == 0) &&
  ((List.range 4).all fun n => if n < d.nd then dims.getD n 0 != 0 else dims.getD n 0 == 0) &&
  d.base % 1024 == 0 && (k == 4 || d.scale % 1024 == 0) && d.side % 1024 == 0 && d.aux % 1024 == 0 &&
  (d.efmt == 13 || d.rax == 0) && (d.efmt == 13 || k == 4 || d.scale == 0) &&
  (if k = 0 ∨ k = 4 then d.side == 0 else true) && (if k = 0 ∨ (k = 3 ∧ d.nd = 1) then d.aux == 0 else true) &&
  (if tiled then (1 < d.nd || d.str1 == 0) && (2 < d.nd || d.str2 == 0) && (3 < d.nd || d.str3 == 0)
   else d.str1 == 0 && d.str2 == 0 && d.str3 == 0) &&
  (match k with
   | 0 => true
   | 1 => d.nd == 2 && d.efmt == 13 && d.rax == 0 && d.dim0 ≤ 1048544
   | 2 => 2 ≤ d.nd && d.efmt ≤ 12
   | 3 => d.nd ≤ 2 && d.efmt ≤ 12
   | 4 => d.nd == 2 && d.efmt == 11 && bits d.nfd 15 13 == 4 && d.scale < 2 ^ 16 && bits d.scale 15 13 == 0 &&
      d.coldNf.valid
   | _ => d.nd == 2 && d.efmt ≤ 12)

/-- `TileAddr` (R83). -/
def tileAddr (d : Desc) (c0 c1 c2 c3 : Nat) : Nat :=
  (d.base + 1024 * (c0 + c1 * d.str1 + c2 * d.str2 + c3 * d.str3)) % 2 ^ 64

/-- Address of a tile's 128 bytes of scales (R87). -/
def scaleAddr (d : Desc) (tile : Nat) : Nat := (d.scale + (tile + 2 ^ 64 - d.base) % 2 ^ 64 / 8) % 2 ^ 64

def inGrid (d : Desc) (c0 c1 c2 c3 : Nat) : Bool :=
  c0 < d.grid 0 && c1 < d.grid 1 && c2 < d.grid 2 && c3 < d.grid 3

/-- Whether position (row, element) of a tile is padding (R84). -/
def padding (d : Desc) (c0 c1 row pos : Nat) : Bool :=
  d.dimOf 0 ≤ c0 * d.epr + pos || d.dimOf 1 ≤ c1 * 32 + row

/-- Tiles of a column have a byte whose low 4-bit element alone stands in the tensor (R84). -/
def halfPads (d : Desc) (c0 : Nat) : Bool := d.elemBits == 4 && d.dimOf 0 % 2 == 1 && d.dimOf 0 < (c0 + 1) * d.epr

/-- Whether a byte of a tile holds only padding. A byte of two 4-bit elements is padding when both are. -/
def padByte (d : Desc) (c0 c1 i : Nat) : Bool :=
  d.padding c0 c1 (i / 32) (i % 32 * 8 / d.elemBits)

/-- Zero the padding elements of a tile's bytes (R84): a byte that is half padding keeps its low element. -/
def maskPadding (d : Desc) (c0 c1 : Nat) (bs : List Byte) : List Byte :=
  bs.zipIdx.map fun (b, i) =>
    let row := i / 32
    let pos := i % 32 * 8 / d.elemBits
    if d.padding c0 c1 row pos then 0
    else if d.elemBits = 4 ∧ d.padding c0 c1 row (pos + 1) then b &&& 0x0F
    else b

/-- The bytes a write of a tile leaves: padding keeps what memory held (R84). -/
def mergePadding (d : Desc) (c0 c1 : Nat) (new old : List Byte) : List Byte :=
  (new.zip old).zipIdx.map fun ((b, o), i) =>
    let row := i / 32
    let pos := i % 32 * 8 / d.elemBits
    if d.padding c0 c1 row pos then o
    else if d.elemBits = 4 ∧ d.padding c0 c1 row (pos + 1) then (b &&& 0x0F) ||| (o &&& 0xF0)
    else b

/-- The halfword of the block that holds (row, pos) in a tile's scales (R87). -/
def scaleIndex (d : Desc) (row pos : Nat) : Nat := if d.rax = 0 then row * (d.epr / 32) + pos / 32 else pos

/-- Halfwords a tile's blocks use. -/
def scaleUsed (d : Desc) (h : Nat) : Bool := if d.rax = 0 then h < 32 * (d.epr / 32) else h < d.epr

/-- Whether the block of a halfword lies wholly in padding (R87). -/
def scalePad (d : Desc) (c0 c1 h : Nat) : Bool :=
  if d.rax = 0 then
    let per := d.epr / 32
    d.padding c0 c1 (h / per) (h % per * 32)
  else d.padding c0 c1 0 h

/-- A tile's scales with those that no block uses and those of blocks in padding zero, as a reader finds them (R87). -/
def padScales (d : Desc) (c0 c1 : Nat) (sc : List Nat) : List Nat :=
  sc.zipIdx.map fun (v, h) => if !d.scaleUsed h || d.scalePad c0 c1 h then 0 else v

/-- The scales a write of a tile leaves (R87). -/
def maskScales (d : Desc) (c0 c1 : Nat) (sc : List Nat) : List Nat := d.padScales c0 c1 (sc.map (· % 1024))

end Desc

/-- Halfwords of bytes, and bytes of halfwords. -/
def halves : List Byte → List Nat
  | a :: b :: t => (a.toNat + 256 * b.toNat) :: halves t
  | _ => []

def unhalves (l : List Nat) : List Byte := l.flatMap fun v => leBytes 2 v

/-- A byte as a crew's descriptor copy reads it: from the writes published when it was dispatched (R81). -/
def byteAtDispatch (s : State) (ids : List Nat) (pa : Nat) : Byte :=
  (lastCover (s.mem.log.filter fun w => ids.contains w.id) pa).getD (s.mem.base pa)

/-- Pins whose translations an agent of the execute side may read a descriptor through: its crew's, a command's issue pins, or
those of the unbound thread that issued it (R14, R298). -/
def descPins (s : State) (crew : Option Nat) (a : Agent) (p : Pin) : Bool :=
  match p.owner with
  | .crew c => crew == some c
  | .cmd id => a == .cmd id
  | .thread t => crew.isNone && (s.view a).issuer == some (.thread t)
  | .launch _ _ => false

/-- Where a descriptor entry stands through registered pins: in a descriptor page that one of them translated, or in a footprint
(R214, R459). -/
def descAt (s : State) (va : Nat) (crew : Option Nat) (a : Agent) : Except Bad Nat :=
  let ps := s.pins.filter (descPins s crew a)
  let page (l : List Pin) : Option Leaf := (l.flatMap (·.descPages)).find? (·.holds va)
  match page (ps.filter fun p => !p.revoked) with
  | some l => .ok (l.pa + (va - l.va))
  | none =>
    match resolve s (descPins s crew a) va 64 false with
    | .ok ((pa, _) :: _) => .ok pa
    | .ok [] => .error .footprint
    | .error b => .error (if (page ps).isSome then .revoked else b)

/-- Where a descriptor entry stands: a cox thread's by the tables, any other agent's through registered pins alone (R456, R459,
log 16). -/
def descPlace (ctx va : Nat) (crew : Option Nat) (a : Agent) : M (Except Bad (Option Nat)) := do
  match a with
  | .thread _ =>
    match ← walk ctx 2 va false false with
    | .error _ => return .ok none
    | .ok l => return .ok (some (l.pa + (va - l.va)))
  | _ =>
    let s ← get
    return (descAt s va crew a).map some

/-- The 64 bytes of a descriptor entry, as an owner of a context reads them. A table that no page maps reads as zeros for a
thread, which no descriptor check passes (log 16). -/
def descEntry (ctx tid : Nat) (crew : Option Nat) (a : Agent) : M (Except Bad (List Byte)) := do
  let s ← get
  let va := ((s.context ctx).tidTable.toNat + 64 * tid) % 2 ^ 64
  match crew.bind fun c => (s.crew c).tids.find? tid with
  | some bs => return .ok bs
  | none =>
    match ← descPlace ctx va crew a with
    | .error b => return .error b
    | .ok none => return .ok (List.replicate 64 0)
    | .ok (some pa) =>
      match crew with
      | none =>
        match ← readPhys a pa 64 with
        | none => return .error .ecc
        | some bs => return .ok bs
      | some c =>
        if !(← checkSectors (sectorsOf pa 64)) then return .error .ecc
        let s ← get
        let bs := (List.range 64).map fun i => byteAtDispatch s (s.crew c).seen (pa + i)
        upd fun s => s.setCrew c { s.crew c with tids := (s.crew c).tids.insert tid bs }
        return .ok bs

/-- What naming a TID gives (R80, R459, R471). -/
inductive Named where
  | ok (d : Desc)
  | bad
  /-- a lasting error, at the descriptor's address -/
  | ecc (va : Nat)
  /-- outside every pin, or in revoked ones alone, at the descriptor's address -/
  | refused (why : Bad) (va : Nat)
  deriving DecidableEq, Repr, Inhabited

/-- The descriptor of a TID for a crew or an unbound thread. -/
def nameTid (ctx tid : Nat) (crew : Option Nat) (a : Agent) : M Named := do
  if tid = 0 then return .ok .linear
  let s ← get
  let va := ((s.context ctx).tidTable.toNat + 64 * tid) % 2 ^ 64
  match ← descEntry ctx tid crew a with
  | .error .ecc => return .ecc va
  | .error b => return .refused b va
  | .ok bs =>
    let d := Desc.ofBytes bs
    return if d.valid then .ok d else .bad

/-- The descriptor, in a stream: a failing one raises the descriptor fault (R80), one outside every pin the footprint fault (R14,
R459), a lasting error stops the crew (R471). -/
def tidOrTrap (ctx tid : Nat) (crew : Option Nat) (a : Agent) : M Desc := do
  match ← nameTid ctx tid crew a with
  | .ok d => return d
  | .bad => trap 6 0 (BitVec.ofNat 64 tid)
  | .ecc va => throw (.lasting va)
  | .refused _ va => trap 9 (BitVec.ofNat 64 va)

/-! ### Footprint records (R213) -/

/-- A footprint record. -/
structure Footprint where
  tid : Nat
  flags : Nat
  rsv : Nat
  lo : List Nat
  hi : List Nat
  lenb : Nat
  lens : Nat
  lena : Nat
  deriving DecidableEq, Repr, Inhabited

def Footprint.ofBytes (b : List Byte) : Footprint :=
  { tid := fieldAt b 0 2, flags := fieldAt b 2 2, rsv := fieldAt b 4 4
    lo := [fieldAt b 8 4, fieldAt b 12 4, fieldAt b 16 4, fieldAt b 20 4]
    hi := [fieldAt b 24 4, fieldAt b 28 4, fieldAt b 32 4, fieldAt b 36 4]
    lenb := fieldAt b 40 8, lens := fieldAt b 48 8, lena := fieldAt b 56 8 }

def Footprint.w (f : Footprint) : Bool := bit f.flags 0

/-- The record's own form. -/
def Footprint.formOk (f : Footprint) : Bool := f.tid < 4096 && f.flags < 2 && f.rsv == 0

/-- The record fits the descriptor (R213). -/
def Footprint.fits (f : Footprint) (d : Desc) : Bool :=
  if d.kind ≤ 1 then
    ((List.range 4).all fun i => f.lo.getD i 0 ≤ f.hi.getD i 0 && f.hi.getD i 0 < d.grid i) &&
      f.lenb == 0 && f.lens == 0 && f.lena == 0
  else f.lo.all (· == 0) && f.hi.all (· == 0)

/-- Inclusive ranges. -/
def span (lo hi : Nat) : List Nat := List.range' lo (hi + 1 - lo)

/-- The runs of tiles of a box, one for each (c1, c2, c3). -/
def boxRuns (d : Desc) (lo hi : List Nat) : List (Nat × Nat) :=
  (span (lo.getD 3 0) (hi.getD 3 0)).flatMap fun c3 =>
  (span (lo.getD 2 0) (hi.getD 2 0)).flatMap fun c2 =>
  (span (lo.getD 1 0) (hi.getD 1 0)).map fun c1 =>
    (d.tileAddr (lo.getD 0 0) c1 c2 c3, 1024 * (hi.getD 0 0 + 1 - lo.getD 0 0))

/-- Byte ranges a box of tiles covers with its scales, directory rows and sidecar tiles (R213). -/
def boxRanges (d : Desc) (lo hi : List Nat) : List (Nat × Nat) :=
  let tiles := boxRuns d lo hi
  let scales := if d.efmt = 13 then tiles.map fun r => (d.scaleAddr r.1, r.2 / 8) else []
  let chunks := if d.kind = 1 then
      (span (lo.getD 1 0) (hi.getD 1 0)).flatMap fun c1 =>
        let rows := 1024 * ((d.nb + 511) / 512)
        let tb := 1024 * ((d.nb + 15) / 16)
        [(d.aux + c1 * rows, rows), (d.side + c1 * tb, tb)]
    else []
  joinRanges tiles ++ joinRanges scales ++ chunks

/-- Byte ranges of a footprint. -/
def Footprint.ranges (f : Footprint) (d : Desc) : List (Nat × Nat) :=
  if d.kind ≤ 1 then boxRanges d f.lo f.hi
  else [(d.base, f.lenb), (d.side, f.lens), (d.aux, f.lena)].filter fun r => r.2 != 0

end Sys2Proof.Machine
end

