-- ==== Sys2Proof/Machine/Tiles.lean ====
section
/-! DEFINITION. Boxes of tiles, reading and writing a tile with its scales through pins, and address-generator descriptors
(R84, R87, R132, R304, R324, R325). -/

namespace Sys2Proof.Machine

/-! ### Boxes (R304) -/

/-- A box of tiles, coordinates 0 to 3. -/
structure Box where
  lo : List Nat
  hi : List Nat
  deriving DecidableEq, Repr, Inhabited

def Box.extent (b : Box) (n : Nat) : Nat := b.hi.getD n 0 + 1 - b.lo.getD n 0
def Box.count (b : Box) : Nat := b.extent 0 * b.extent 1 * b.extent 2 * b.extent 3

/-- Coordinates of the position `p` of a box, coordinate 0 fastest. -/
def Box.coords (b : Box) (p : Nat) : List Nat :=
  let e0 := b.extent 0
  let e1 := b.extent 1
  let e2 := b.extent 2
  [b.lo.getD 0 0 + p % e0, b.lo.getD 1 0 + p / e0 % e1, b.lo.getD 2 0 + p / (e0 * e1) % e2,
   b.lo.getD 3 0 + p / (e0 * e1 * e2)]

def Box.contains (b : Box) (c : List Nat) : Bool :=
  (List.range 4).all fun i => b.lo.getD i 0 ≤ c.getD i 0 && c.getD i 0 ≤ b.hi.getD i 0

/-- The box lies in the tile grid. -/
def Box.inGrid (b : Box) (d : Desc) : Bool :=
  (List.range 4).all fun i => b.lo.getD i 0 ≤ b.hi.getD i 0 && b.hi.getD i 0 < d.grid i

/-- Bit n: coordinates 0 to n all stand at their highest (R327). -/
def Box.endBits (b : Box) (c : List Nat) : Nat :=
  let top (i : Nat) : Bool := c.getD i 0 == b.hi.getD i 0
  let e0 := top 0
  let e1 := e0 && top 1
  let e2 := e1 && top 2
  let e3 := e2 && top 3
  (if e0 then 1 else 0) + (if e1 then 2 else 0) + (if e2 then 4 else 0) + (if e3 then 8 else 0)

/-- Boxes that meet in every coordinate (R130). -/
def Box.meets (a b : Box) : Bool :=
  (List.range 4).all fun i => a.lo.getD i 0 ≤ b.hi.getD i 0 && b.lo.getD i 0 ≤ a.hi.getD i 0

/-! ### Tiles through pins -/

/-- What a tile read gives. -/
inductive TileRead where
  | ok (body : List Byte) (scales : List Nat)
  | bad (b : Bad)
  /-- a scale halfword with non-zero high bits (R87) -/
  | layout
  deriving DecidableEq, Repr, Inhabited

def Desc.tile (d : Desc) (c : List Nat) : Nat := d.tileAddr (c.getD 0 0) (c.getD 1 0) (c.getD 2 0) (c.getD 3 0)

/-- Read a tile, and its scales where it is narrow, padding as zeros. -/
def readTile (a : Agent) (holds : Pin → Bool) (d : Desc) (c : List Nat) : M TileRead := do
  let va := d.tile c
  let c0 := c.getD 0 0
  let c1 := c.getD 1 0
  if d.efmt = 13 then
    let sa := d.scaleAddr va
    match ← readPinned a holds va 1024 with
    | .error e => return .bad e
    | .ok body =>
      match ← readPinned a holds sa 128 with
      | .error e => return .bad e
      | .ok sc =>
        let hs := d.padScales c0 c1 (halves sc)
        if hs.any fun h => 1024 ≤ h then return .layout
        return .ok (d.maskPadding c0 c1 body) hs
  else
    match ← readPinned a holds va 1024 with
    | .error e => return .bad e
    | .ok body => return .ok (d.maskPadding c0 c1 body) []

/-- Physical addresses of the bytes of some parts. -/
def physOf (parts : List (Nat × Nat)) : List Nat := parts.flatMap fun e => (List.range e.2).map fun i => e.1 + i

/-- Sectors wholly covered lose their poison (R469). -/
def clearSectors (m : Memory) (cells : Tbl Byte) : Memory :=
  if m.poison.isEmpty && m.upsets.isEmpty then m
  else
    let whole (k : Nat) : Bool := (List.range 32).all fun i => (cells.find? (32 * k + i)).isSome
    { m with poison := m.poison.filter fun k => !whole k, upsets := m.upsets.filter fun e => !whole e.1 }

/-- One write of an agent made of the given cells. -/
def writeCells (a : Agent) (cells : Tbl Byte) : M Unit :=
  upd fun s =>
    let v := s.view a
    let w : Write := { id := s.nextId, agent := a, cells := cells, pubs := [] }
    { s.setView a { v with pend := v.pend ++ [w], fresh := insertAll v.fresh cells } with
      nextId := s.nextId + 1, mem := clearSectors s.mem cells }

/-- A byte whose code bits above a narrow width are zero (R83). -/
def Desc.trimCode (d : Desc) (b : Byte) : Byte :=
  if d.efmt = 13 ∧ 4 < d.nf.w then BitVec.ofNat 8 (b.toNat % 2 ^ d.nf.w) else b

/-- The cells a tile write makes: padding bytes are left out, a byte half padding keeps its other half (R84, R132). -/
def tileCells (s : State) (a : Agent) (d : Desc) (c : List Nat) (pas : List Nat) (body : List Byte) : Tbl Byte :=
  let c0 := c.getD 0 0
  let c1 := c.getD 1 0
  (pas.zip body).zipIdx.foldl (fun (t : Tbl Byte) ((pa, b), i) =>
    let row := i / 32
    let pos := i % 32 * 8 / d.elemBits
    if d.padding c0 c1 row pos then t
    else if d.elemBits = 4 ∧ d.padding c0 c1 row (pos + 1) then
      t.insert pa ((b &&& 0x0F) ||| (byteSeen s a pa &&& 0xF0))
    else t.insert pa (d.trimCode b)) []

/-- The cells of a tile and of its scales, through pins. -/
def tileUnit (s : State) (a : Agent) (holds : Pin → Bool) (d : Desc) (c : List Nat) (body : List Byte)
    (scales : List Nat) : Except Bad (Tbl Byte) := do
  let va := d.tile c
  let p ← resolve s holds va 1024 true
  let cells := tileCells s a d c (physOf p) body
  if d.efmt = 13 then
    let q ← resolve s holds (d.scaleAddr va) 128 true
    let bs := unhalves (d.maskScales (c.getD 0 0) (c.getD 1 0) scales)
    return ((physOf q).zip bs).foldl (fun (t : Tbl Byte) e => t.insert e.1 e.2) cells
  else return cells

/-- Write a tile, with its scales where it is narrow, as one write (R132). The other half of a byte that is half padding comes
from the writer's view. -/
def writeTile (a : Agent) (holds : Pin → Bool) (d : Desc) (c : List Nat) (body : List Byte) (scales : List Nat) :
    M (Except Bad Unit) := do
  let s0 ← get
  if d.halfPads (c.getD 0 0) then
    match resolve s0 holds (d.tile c) 1024 true with
    | .ok parts => chooseSnaps a (parts.map fun p => p.1 / 1024)
    | .error _ => pure ()
  let s ← get
  match tileUnit s a holds d c body scales with
  | .error e => return .error e
  | .ok cells =>
    writeCells a cells
    return .ok ()

/-! ### Tile bursts (R138) -/

/-- The 1,280 bytes of a burst. -/
def burstBytes (tid : Nat) (sc : Bool) (c : List Nat) (scales : List Nat) (body : List Byte) : List Byte :=
  leBytes 2 tid ++ leBytes 2 (if sc then 1 else 0) ++ leBytes 4 0 ++ c.flatMap (leBytes 4) ++ List.replicate 104 0 ++
  (if sc then unhalves scales else List.replicate 128 0) ++ body

/-- The entries of a burst on a queue of the given width code. -/
def burstEntries (width : Nat) (bs : List Byte) : List QEntry :=
  let n := entryBytes width
  let count := 1280 / n
  (List.range count).map fun i => { data := (bs.drop (n * i)).take n, h := i == 0, t := i + 1 == count }

/-- Fields of a burst's header. -/
def burstTid (b : List Byte) : Nat := fieldAt b 0 2
def burstSc (b : List Byte) : Bool := fieldAt b 2 2 % 2 == 1
def burstCoords (b : List Byte) : List Nat := [fieldAt b 8 4, fieldAt b 12 4, fieldAt b 16 4, fieldAt b 20 4]
def burstScales (b : List Byte) : List Nat := halves ((b.drop 128).take 128)
def burstBody (b : List Byte) : List Byte := b.drop 256

/-- A header keeps R138: its reserved fields are zero. -/
def headerOk (b : List Byte) : Bool :=
  burstTid b < 4096 && fieldAt b 2 2 < 2 && fieldAt b 4 4 == 0 && ((b.drop 24).take 104).all (· == 0) &&
  (burstSc b || ((b.drop 128).take 128).all (· == 0))

/-! ### Address-generator descriptors (R324, R325) -/

structure AgDesc where
  kind : Nat
  decl : Bool
  bank : Nat
  tid : Nat
  count : Nat
  box : Box
  offset : Nat
  length : Nat
  deriving DecidableEq, Repr, Inhabited

def AgDesc.ofBytes (b : List Byte) : AgDesc :=
  { kind := fieldAt b 0 1 % 8, decl := bit (fieldAt b 0 1) 3, bank := fieldAt b 1 1, tid := fieldAt b 2 2
    count := fieldAt b 4 4
    box := { lo := [fieldAt b 8 4, fieldAt b 12 4, fieldAt b 16 4, fieldAt b 20 4]
             hi := [fieldAt b 24 4, fieldAt b 28 4, fieldAt b 32 4, fieldAt b 36 4] }
    offset := fieldAt b 40 4, length := fieldAt b 44 4 }

/-- Reserved fields are zero, the kind is defined, and unused fields are zero. -/
def agFormOk (b : List Byte) (w : Bool) : Bool :=
  let a := AgDesc.ofBytes b
  let zero (lo n : Nat) : Bool := ((b.drop lo).take n).all (· == 0)
  fieldAt b 0 1 < 16 && zero 0x30 16 &&
  (match a.kind with
   | 0 => a.tid < 4096 && a.bank == 0 && zero 4 4 && zero 0x28 8
   | 1 => zero 2 6 && zero 8 0x20 && a.offset % 8 == 0 && a.length % 8 == 0
   | 2 => w && !a.decl && a.bank == 0 && a.tid == 0 && zero 8 0x28
   | _ => false)

/-- What the check of R325 gives. -/
inductive AgCheck where
  | ok
  | descriptor
  | bounds
  /-- a lasting error, at an address -/
  | ecc (va : Nat)
  /-- the tensor's descriptor lies outside every pin: at its address -/
  | refused (va : Nat)
  deriving DecidableEq, Repr, Inhabited

/-- Check a descriptor for a crew (R325). -/
def agCheck (c : Nat) (b : List Byte) (w : Bool) : M AgCheck := do
  if !agFormOk b w then return .descriptor
  let a := AgDesc.ofBytes b
  let s ← get
  let k := s.crew c
  match a.kind with
  | 0 =>
    match ← nameTid k.ctx a.tid (some c) (.half c) with
    | .ecc va => return .ecc va
    | .refused _ va => return .refused va
    | .bad => return .descriptor
    | .ok d => return if 1 < d.kind then .descriptor else if a.box.inGrid d then .ok else .bounds
  | 1 => return if a.bank < k.spad && a.offset + a.length ≤ 524288 then .ok else .bounds
  | _ => return .ok

/-! ### Scratchpad banks (R98, R100) -/

/-- What a bank's byte may hold at dispatch: zero, or a value of the crew (R98), which then has none but those of its job card
(log 8). -/
def bankFree (k : Crew) (addr : Nat) : Byte :=
  let own := 0 :: k.cardBytes
  own.getD (Config.spadChoice (handleOf k) addr % own.length) 0

/-- A byte of a bank: what the crew wrote, or what it held at dispatch (R98). -/
def bankByte (k : Crew) (addr : Nat) : Byte :=
  match k.sp.find? addr with
  | some b => b
  | none => bankFree k addr

def bankRead (k : Crew) (bank off n : Nat) : List Byte := (List.range n).map fun i => bankByte k (bank * 524288 + off + i)

/-- Bytes enter a crew's banks; a word written whole loses its lasting error. -/
def spWrite (k : Crew) (cells : Tbl Byte) : Crew :=
  let whole (n : Nat) : Bool := (List.range 8).all fun i => (cells.find? (8 * n + i)).isSome
  { k with
    sp := insertAll k.sp cells
    spBad := if k.spBad.isEmpty then [] else k.spBad.filter fun n => !whole n }

def bankWrite (k : Crew) (bank off : Nat) (bs : List Byte) : Crew := spWrite k (cellsAt (bank * 524288 + off) bs)

/-- A read of a bank meets a lasting error (R471). -/
def bankLost (k : Crew) (bank off n : Nat) : Bool :=
  k.spBad.any fun w => bank * 524288 + off < 8 * w + 8 && 8 * w < bank * 524288 + off + n

/-- Report a lasting error of a crew's scratchpad (R471); which physical bank held it is free (log 19). -/
def bankReport (c detail : Nat) : M Unit := do
  let s ← get
  let k := s.crew c
  let b ← pick 0 11
  containReport k.ctx (handleOf k) 0 4 (k.cl * 16 + b) 1 detail

end Sys2Proof.Machine
end

