-- ==== Sys2Proof/Machine/Control.lean ====
section
/-! DEFINITION. Control transfers, hardware loops, waits, phases and the ends of streams (R117, R121, R217-R223, R232-R235,
R243). -/

namespace Sys2Proof.Machine

/-! ### Transfers (R162, R219-R222, R235) -/

/-- A transfer inside or out of loop bodies: a loop of the present depth whose body the target leaves is deactivated. -/
def leaveLoops (k : Crew) (target : Nat) : Crew :=
  let out (l : LoopRec) : Bool := l.active && l.depth == k.sc.depth && (target < l.start.toNat || l.stop.toNat < target)
  { k with loops := k.loops.map fun e => (e.1, if out e.2 then { e.2 with active := false, cnt := 0 } else e.2) }

/-- A taken transfer: the target is checked, and loops it leaves end. -/
def transfer (o : Owner) (target : Word) (entry leaves : Bool) : M Flow := do
  if !(← targetOk o target.toNat entry) then trap 15 0 target
  match o with
  | .crew c => if leaves then upd fun s => s.setCrew c (leaveLoops (s.crew c) target.toNat)
  | .thread _ => pure ()
  return .goto target

/-- The target of a format B transfer (R219). -/
def branchTarget (pc : Word) (o : BFmt) : Word :=
  BitVec.ofNat 64 (ptrLine pc.toNat) + ofInt64 (32 * sext o.disp 18) + BitVec.ofNat 64 o.lane

def pcOf (o : Owner) : M Word := do
  let s ← get
  return (s.scalar o).pc

def depthOfCall (o : Owner) : M (BitVec 32) := do
  let s ← get
  return (s.scalar o).depth

def execBr (o : BFmt) (s : State) : Out :=
  runScalar (fun w => do
    let pc ← pcOf w
    transfer w (branchTarget pc o) false true) s

def execBc (o : BFmt) (s : State) : Out :=
  runScalar (fun w => guarded w o.g o.n do
    let pc ← pcOf w
    transfer w (branchTarget pc o) false true) s

/-- Enter a function: depth, target checks, link in register 31 (R220, R222). -/
def callTo (w : Owner) (target : Word) : M Flow := do
  let pc ← pcOf w
  let d ← depthOfCall w
  if d == BitVec.allOnes 32 then trap 17
  destReady w 31
  let f ← transfer w target true false
  writeReg w 31 (nextPtr pc 1)
  updScalar w fun c => { c with depth := d + 1 }
  return f

def execCall (o : BFmt) (s : State) : Out :=
  runScalar (fun w => do
    let pc ← pcOf w
    callTo w (branchTarget pc o)) s

def execCallr (o : RFmt) (s : State) : Out :=
  runScalar (fun w => guarded w o.g o.ng do
    let x ← readReg w o.a o.ta
    callTo w x) s

def execJr (o : RFmt) (s : State) : Out :=
  runScalar (fun w => guarded w o.g o.ng do
    let x ← readReg w o.a o.ta
    transfer w x false true) s

/-- RET at depth 0 ends a thread's access code (R27, R222). The pins of a thread bound to no crew go with it (log 114). -/
def endAccess (t : Nat) : M Flow := do
  upd fun s =>
    let th := s.thread t
    match th.crew with
    | some _ => s.setThread t { th with mode := .returned }
    | none => (dropPins s fun p => p.owner == .thread t).setThread t {}
  return .stay

def execRet (o : RFmt) (s : State) : Out :=
  runScalar (fun w => guarded w o.g o.ng do
    let d ← depthOfCall w
    let x ← readReg w o.a o.ta
    if d == 0 then
      match w with
      | .thread t => endAccess t
      | .crew _ => trap 17
    else
      if !ptrOk x.toNat then trap 15 0 x
      updScalar w fun c => { c with depth := d - 1 }
      return .goto x) s

def execNop (o : RFmt) (s : State) : Out := runScalar (fun w => guarded w o.g o.ng (return .next)) s

/-- `YIELD` only ends the issue turn (R223). -/
def execYield (o : RFmt) (s : State) : Out :=
  runA (fun t => guarded (.thread t) o.g o.ng (return .next)) s

/-! ### Loops (R232-R235) -/

/-- The first non-empty lane from a pointer on, looking through at most `fuel` lines up to the end pointer. -/
def firstLane (o : Owner) : Nat → Nat → Nat → M (Option (Nat × Line))
  | 0, _, _ => return none
  | n + 1, p, stop => do
    if ptrLine stop < ptrLine p then return none
    let l := Line.ofBytes (← fetchLine o (ptrLine p))
    match l.first (ptrLane p) with
    | some k => return some (ptrLine p + k, l)
    | none => firstLane o n (ptrLine p + 33) stop

/-- Start a loop (R233). The pointer in INFO of its target fault is that of its start lane, or of its end where there is no start
lane (log 117). -/
def startLoop (c l n : Nat) (elane len : Nat) : M Flow := do
  let pc ← pcOf (.crew c)
  let stop := ptrLine pc.toNat + 32 * len + elane
  let first ← firstLane (.crew c) (len + 2) (ptrNext pc.toNat 1) stop
  let endLine := Line.ofBytes (← fetchLine (.crew c) (ptrLine stop))
  if !endLine.wf false (ptrLine stop) then
    throw (.trap { cause := 16, info := BitVec.ofNat 64 (ptrLine stop) })
  match first with
  | none => throw (.trap { cause := 15, info := BitVec.ofNat 64 stop })
  | some (start, line) =>
    if stop < start || !line.bt (ptrLane start) || endLine.sid elane == 0 then
      throw (.trap { cause := 15, info := BitVec.ofNat 64 start })
    let k := (← get).crew c
    if n = 0 then
      upd fun s => s.setCrew c { k with loops := k.loops.put l {} {} }
      return .goto (nextPtr (BitVec.ofNat 64 stop) 1)
    else
      let id ← freshId
      let r : LoopRec := { active := true, born := id, depth := k.sc.depth, cnt := BitVec.ofNat 64 n
                           start := BitVec.ofNat 64 start, stop := BitVec.ofNat 64 stop }
      upd fun s => s.setCrew c { s.crew c with loops := (s.crew c).loops.insert l r }
      return .goto r.start

def execLoop (o : PFmt) (s : State) : Out :=
  runS (fun c => do
    let pc ← pcOf (.crew c)
    if o.elane = 0 ∨ (o.len = 0 ∧ o.elane ≤ ptrLane pc.toNat) then illegal
    let n ← readReg (.crew c) o.a o.ta
    startLoop c o.l n.toNat o.elane o.len) s

def execLoopq (o : PQFmt) (s : State) : Out :=
  runS (fun c => do
    let pc ← pcOf (.crew c)
    if o.elane = 0 ∨ (o.len = 0 ∧ o.elane ≤ ptrLane pc.toNat) then illegal
    let e ← popQueue c o.q 1 0
    if e.p then throw (.trapKeep (queueExc 10 o.q))
    startLoop c o.l (leNat e.data) o.elane o.len) s

/-! ### STOP, PHASE, WAITC (R117, R121, R217, R218, R243) -/

def execStop (o : RFmt) (s : State) : Out :=
  runS (fun c => guarded (.crew c) o.g o.ng do
    upd fun s =>
      let k := s.crew c
      s.setCrew c { k with smode := .stopped, loops := [], sc := { k.sc with stalled := false } }
    return .stay) s

/-- `PHASE` (R117): the release completes, then the acquire starts; a gang not committed holds it. -/
def phase (a : Agent) (scope : Nat) : M Unit := do
  let s ← get
  if 5 ≤ scope && gangHolds s a then throw .stall
  upd fun s => acquire (release s a scope) a scope

def execPhase (o : RFmt) (s : State) : Out :=
  runA (fun t => guarded (.thread t) o.g o.ng do
    phase (.thread t) o.fn
    return .next) s

/-- The counter of a `WAITC`: its physical address, checked as the owner's kind requires (R218, R230). -/
def counterAddr (w : Owner) (x : Nat) : M Nat := do
  if x % 8 ≠ 0 then trap 4 (BitVec.ofNat 64 x) 8
  let s ← get
  match w with
  | .thread t => translate t (levelOf s w) x false false
  | .crew c =>
    match resolve s (crewPins c) x 8 false with
    | .ok ((pa, _) :: _) => return pa
    | _ => trap 9 (BitVec.ofNat 64 x)

/-- Park an owner in `WAITC` (R15, R25, R121). -/
def parkWait (w : Owner) (pa v scope va : Nat) : M Unit := do
  match w with
  | .thread t => upd fun s => s.setThread t { s.thread t with mode := .waitc pa v scope va, reported := false }
  | .crew c =>
    let name ← freshId
    upd fun s => s.setCrew c { s.crew c with smode := .waitc pa v scope va name, reported := false }
    upd fun s => rouse s (s.crew c).cl

def execWaitc (o : RFmt) (s : State) : Out :=
  runScalar (fun w => guarded w o.g o.ng do
    let x ← readReg w o.a o.ta
    let v ← readReg w o.b o.tb
    let pa ← counterAddr w x.toNat
    match ← readPort pa 8 with
    | none => throw (.lasting x.toNat)
    | some bs =>
      if v.toNat ≤ leNat bs then
        upd fun s => acquire s (agentOf w) o.fn
        return .next
      else
        parkWait w pa v.toNat o.fn x.toNat
        return .stay) s

end Sys2Proof.Machine
end

