-- ==== Sys2Proof/Machine/Loads.lean ====
section
/-! DEFINITION. Loads, stores, address formation, prefetch and IFENCE of the A stream (R203-R211). -/

namespace Sys2Proof.Machine

/-- The effective address of format M (R205). -/
def memEa (x : Word) (o : MemFmt) : Word := x + ofInt64 (sext o.off 10 * 2 ^ o.sz)

/-- The effective address of LDX and STX. -/
def indexEa (x y : Word) (sz : Nat) : Word := x + BitVec.ofNat 64 (y.toNat * 2 ^ sz)

/-- Check and translate a data access (R205). -/
def dataAddr (t : Nat) (ea : Word) (sz : Nat) (write : Bool) : M Nat := do
  if ea.toNat % 2 ^ sz ≠ 0 then trap 4 ea (BitVec.ofNat 64 (2 ^ sz))
  let s ← get
  translate t (s.thread t).level.toNat ea.toNat write false

/-- What a load writes (R206). -/
def loaded (bs : List Byte) (sz sx : Nat) : Word :=
  if sx = 1 then ofInt64 (sext (leNat bs) (8 * 2 ^ sz)) else BitVec.ofNat 64 (leNat bs)

/-- A load issues: translation, access, and the destination awaits its value (R206, log 17). -/
def load (t d : Nat) (ea : Word) (sz sx : Nat) : M Flow := do
  destReady (.thread t) d
  let pa ← dataAddr t ea sz false
  match ← readPhys (.thread t) pa (2 ^ sz) with
  | none => throw (.lasting ea.toNat)
  | some bs =>
    let s ← get
    awaitReg (.thread t) d (.load { va := ea.toNat, pa := pa, n := 2 ^ sz, signed := sx == 1
                                    level := (s.thread t).level.toNat, upto := s.nextId, v := loaded bs sz sx })
    return .next

/-- A store issues (R207). -/
def store (t : Nat) (v ea : Word) (sz : Nat) : M Flow := do
  let pa ← dataAddr t ea sz true
  writePhys (.thread t) pa (leBytes (2 ^ sz) v.toNat)
  return .next

def execLd (o : MemFmt) (s : State) : Out :=
  runA (fun t => do
    let x ← readReg (.thread t) o.a o.ta
    load t o.d (memEa x o) o.sz o.sx) s

def execSt (o : MemFmt) (s : State) : Out :=
  runA (fun t => do
    let x ← readReg (.thread t) o.a o.ta
    let v ← readReg (.thread t) o.d o.td
    store t v (memEa x o) o.sz) s

def execLdx (o : RFmt) (s : State) : Out :=
  runA (fun t => guarded (.thread t) o.g o.ng do
    let x ← readReg (.thread t) o.a o.ta
    let y ← readReg (.thread t) o.b o.tb
    load t o.d (indexEa x y (bits o.fn 3 2)) (bits o.fn 3 2) (bits o.fn 1 1)) s

def execStx (o : RFmt) (s : State) : Out :=
  runA (fun t => guarded (.thread t) o.g o.ng do
    let x ← readReg (.thread t) o.a o.ta
    let y ← readReg (.thread t) o.b o.tb
    let v ← readReg (.thread t) o.d 0
    store t v (indexEa x y (bits o.fn 3 2)) (bits o.fn 3 2)) s

/-- `PREF` reads its address register, raises nothing and changes no architectural state (R210). -/
def execPref (o : MemFmt) (s : State) : Out :=
  runA (fun t => do
    let _ ← readReg (.thread t) o.a 0
    return .next) s

def madrOp (fn : Nat) (x y : Word) : Word := x + BitVec.ofNat 64 (y.toNat * 2 ^ fn)

def execMadr (o : RFmt) (s : State) : Out :=
  runA (fun t => regBin o (madrOp o.fn) (.thread t)) s

/-- The tile address `TADR` forms (R204), or its fault. -/
def tadrAddr (t x : Nat) (y : Word) : M Word := do
  let s ← get
  let th := s.thread t
  let tid := x % 4096
  let info := BitVec.ofNat 64 tid
  if 4096 ≤ x then trap 6 0 info
  let d ← tidOrTrap th.ctx tid th.crew (.thread t)
  if 1 < d.kind then trap 8 0 info
  let c0 := bits y.toNat 15 0
  let c1 := bits y.toNat 31 16
  let c2 := bits y.toNat 47 32
  let c3 := bits y.toNat 63 48
  if !d.inGrid c0 c1 c2 c3 then trap 7 0 info
  return BitVec.ofNat 64 (d.tileAddr c0 c1 c2 c3)

def execTadr (o : RFmt) (s : State) : Out :=
  runA (fun t => guarded (.thread t) o.g o.ng do
    let x ← readReg (.thread t) o.a o.ta
    let y ← readReg (.thread t) o.b o.tb
    let v ← tadrAddr t x.toNat y
    writeReg (.thread t) o.d v
    return .next) s

/-- `IFENCE`: later fetches read from the present snapshot and the thread's own stores (R211). -/
def execIfence (o : RFmt) (s : State) : Out :=
  runA (fun t => guarded (.thread t) o.g o.ng do
    upd fun s => fenceNow s (.thread t)
    return .next) s

end Sys2Proof.Machine
end

