-- ==== Sys2Proof/Machine/QueueInstrs.lean ====
section
/-! DEFINITION. The queue instructions of the A and S streams (R224-R228) and QCLOSE (R156). -/

namespace Sys2Proof.Machine

/-- The crew whose queues an owner names; an unbound thread has none (R224). -/
def queueCrew (w : Owner) (q : Nat) : M Nat := do
  let s ← get
  match crewOf s w with
  | some c => return c
  | none => throw (.trap (queueExc 10 q))

/-- Endpoint code of an owner (R133). -/
def endpointOf : Owner → Nat
  | .thread _ => 0
  | .crew _ => 1

/-- Push a register's word (R225). -/
def pushReg (o : QFmt) (h t : Bool) (w : Owner) : M Flow :=
  guarded w o.g o.ng do
    let c ← queueCrew w o.q
    let v ← readReg w o.reg o.tr
    pushQueue c o.q (endpointOf w) 0 { data := leBytes 8 v.toNat, h := h, t := t }
    return .next

def execQpush (o : QFmt) (s : State) : Out := runScalar (pushReg o false false) s

def execQpushm (o : QFmt) (s : State) : Out :=
  runScalar (fun w => if o.h = 0 ∧ o.t = 0 then illegal else pushReg o (o.h == 1) (o.t == 1) w) s

/-- Write an entry's marks where the mark-reading form asks for them (R165). -/
def writeMarks (w : Owner) (o : QFmt) (e : QEntry) : M Unit := do
  if o.mf = 1 then
    writePred w o.kp e.h
    writePred w (o.kp + 1) e.t
    writePred w (o.kp + 2) e.p

/-- A thread's pop completes: the exception of a loss of decoupling that its stall made due is taken next (R150). -/
def settleLoss (w : Owner) : M Unit :=
  match w with
  | .thread t => upd fun s =>
    let th := s.thread t
    match th.lossDue with
    | some (pc, false) => if pc == th.sc.pc then s.setThread t { th with lossDue := some (pc, true) } else s
    | _ => s
  | .crew _ => pure ()

def popReg (o : QFmt) (w : Owner) : M Flow :=
  guarded w o.g o.ng do
    let c ← queueCrew w o.q
    destReady w o.reg
    let e ← popQueue c o.q (endpointOf w) 0 (isCox w)
    awaitReg w o.reg (.value (BitVec.ofNat 64 (leNat e.data)))
    writeMarks w o e
    settleLoss w
    return .next

def execQpop (o : QFmt) (s : State) : Out := runScalar (popReg o) s

def execQpeek (o : QFmt) (s : State) : Out :=
  runA (fun t => guarded (.thread t) o.g o.ng do
    let c ← queueCrew (.thread t) o.q
    destReady (.thread t) o.reg
    let v ← checkQueue c o.q 0 0 false
    match v.entries with
    | [] => throw (emptyStop o.q v true false)
    | e :: _ =>
      awaitReg (.thread t) o.reg (.value (BitVec.ofNat 64 (leNat e.data)))
      writeMarks (.thread t) o e
      return .next) s

def execQskip (o : QFmt) (s : State) : Out :=
  runA (fun t => guarded (.thread t) o.g o.ng do
    let c ← queueCrew (.thread t) o.q
    let v ← checkQueue c o.q 0 0 false
    setQueue c o.q v.skipTail
    return .next) s

/-- `QSTAT[n]` (R142). -/
def Queue.stat (v : Queue) : Word :=
  BitVec.ofNat 64 (v.occ + v.disc.toNat * 2 ^ 16 + v.fullc.toNat * 2 ^ 32 + v.empty.toNat * 2 ^ 48)

/-- QSTAT (R224, R228). A thread bound to no crew gets 0 (log 116), and a queue never opened its counts, which are 0 (log 115). -/
def execQstat (o : QFmt) (s : State) : Out :=
  runA (fun t => guarded (.thread t) o.g o.ng do
    let s ← get
    let v := match (s.thread t).crew with
      | some c => (s.crew c).queues.getD o.q {}
      | none => {}
    writeReg (.thread t) o.reg v.stat
    return .next) s

/-- Destroy an open queue (R156): what it held is discarded; a consumer in the middle of a burst gets one poison tail. One that is
not open stays as it is (log 115). -/
def Queue.closed (v : Queue) : Queue :=
  if !v.isOpen then v
  else
    { v.discard v.occ with
      cfg := v.cfg &&& 0x7FFFFFFF#32, lost := true, window := [], held := [], part := [], dropping := false
      skip := false, mid := false
      entries := if v.mid && !v.whole then
          [{ data := List.replicate (entryBytes v.width) 0, t := true, p := true }]
        else [] }

/-- The crew a handle names, of those that exist or have existed: the latest, where an identifier came to be used again
(R437). -/
def crewByHandle (s : State) (h : Nat) : Option Nat :=
  ((s.crews.filter fun e => handleOf e.2 == h).getLast?).map (·.1)

def execQclose (o : QFmt) (s : State) : Out :=
  runA (fun t => guarded (.thread t) o.g o.ng do
    let s ← get
    let th := s.thread t
    if th.level == 0 then privileged
    let h ← readReg (.thread t) o.reg o.tr
    match crewByHandle s h.toNat with
    | none => privileged
    | some c =>
      if (s.crew c).stage == .gone then return .next
      let own := th.crew == some c
      let same := (s.context (s.crew c).ctx).part == (s.context th.ctx).part
      if !(own || (th.level == 2 && same)) then privileged
      let v ← getQueue c o.q
      setQueue c o.q v.closed
      return .next) s

end Sys2Proof.Machine
end

