-- ==== Sys2Proof/Machine/Pinning.lean ====
section
/-! DEFINITION. PIN, UNPIN and TLBI (R213-R216, R459-R464). -/

namespace Sys2Proof.Machine

/-- Who holds the pins a thread makes. -/
def pinOwnerOf (s : State) (t : Nat) : PinOwner :=
  match (s.thread t).crew with
  | some c => .crew c
  | none => .thread t

/-- Pins a crew or an unbound thread may hold (R215). -/
def pinLimit : PinOwner → Nat
  | .crew _ => 64
  | _ => 16

/-- Footprint fault in a thread. -/
def badFootprint {α} (addr : Word) : M α := trap 9 addr

/-- The range of a TID's descriptor. -/
def descRange (s : State) (ctx tid : Nat) : List (Nat × Nat) :=
  if tid = 0 then [] else [((s.context ctx).tidTable.toNat + 64 * tid, 64)]

/-- The lower of two page faults, each with its kind of access (R456). -/
def lowerFault (a b : Option (Nat × Nat × Nat × Bool)) : Option (Nat × Nat × Nat × Bool) :=
  match a, b with
  | some x, some y => some (if y.1 < x.1 then y else x)
  | some x, none => some x
  | none, y => y

/-- Translate the byte ranges of a pin and the page of its descriptor; a failing page raises the page fault, at the lowest
address of both (R214, R456). The descriptor's page is translated for reading, W set or not (log 112). -/
def pinLeaves (t : Nat) (write : Bool) (rs ds : List (Nat × Nat)) : M (List Leaf × List Leaf) := do
  let s ← get
  let th := s.thread t
  let a ← walkRanges th.ctx th.level.toNat write false rs
  let b ← walkRanges th.ctx th.level.toNat false false ds
  match a, b with
  | .ok x, .ok y => return (x, y)
  | _, _ =>
    let bad (r : Except (Nat × Nat × Nat) (List Leaf)) (w : Bool) : Option (Nat × Nat × Nat × Bool) :=
      match r with
      | .error (va, reason, depth) => some (va, reason, depth, w)
      | .ok _ => none
    match lowerFault (bad a write) (bad b false) with
    | some (va, reason, depth, w) => throw (.trap (pageFault va w false reason depth))
    | none => return ([], [])

/-- Read a footprint record through the thread (R213, R214). A descriptor that the crew has no copy of is read at once, so a
page of it that fails raises the page fault here (log 84). -/
def readFootprint (t : Nat) (x : Word) : M (Footprint × Desc) := do
  if x.toNat % 64 ≠ 0 then badFootprint x
  let s ← get
  let th := s.thread t
  let pa ← translate t th.level.toNat x.toNat false false
  match ← readPhys (.thread t) pa 64 with
  | none => throw (.lasting x.toNat)
  | some bs =>
    let f := Footprint.ofBytes bs
    if !f.formOk then badFootprint x
    let copied := th.crew.any fun c => ((s.crew c).tids.find? f.tid).isSome
    if !copied then let _ ← pinLeaves t false [] (descRange s th.ctx f.tid)
    let d ← tidOrTrap th.ctx f.tid th.crew (.thread t)
    if !f.fits d then badFootprint x
    return (f, d)

/-- PIN (R214, R215). One beyond the limit raises its fault before the footprint's pages are walked (log 113). -/
def execPin (o : RFmt) (s : State) : Out :=
  runA (fun t => guarded (.thread t) o.g o.ng do
    let x ← readReg (.thread t) o.a o.ta
    destReady (.thread t) o.d
    let (f, d) ← readFootprint t x
    let s ← get
    let owner := pinOwnerOf s t
    if pinLimit owner ≤ (s.pins.filter fun p => p.owner == owner && !p.ended).length then badFootprint x
    let rs := f.ranges d
    let ctx := (s.thread t).ctx
    let (ls, ds) ← pinLeaves t f.w rs (descRange s ctx f.tid)
    let h ← freshId
    upd fun s => { s with pins := s.pins ++
      [{ handle := h, owner := owner, ctx := ctx, ranges := rs, w := f.w, leaves := ls ++ ds, descPages := ds }] }
    awaitReg (.thread t) o.d (.pin (BitVec.ofNat 64 h))
    return .next) s

/-- The name of a wait the S stream is parked in. -/
def waitName (k : Crew) : List Nat :=
  match k.smode with
  | .waitc _ _ _ _ n => [n]
  | _ => []

/-- Names of the stream entries and commands of a crew, or of a thread's commands, not yet completed (R216). -/
def outstanding (s : State) (t : Nat) : List Nat :=
  let cmds := s.clusters.flatMap fun e => e.2.copyQ ++ e.2.indexQ
  match (s.thread t).crew with
  | some c =>
    let k := s.crew c
    (k.vq ++ k.mq ++ k.lq ++ k.wq).map (·.name) ++ waitName k ++ (k.savedCE ++ k.savedIX ++ cmds.filter fun e => e.crew == some c).map (·.id)
  | none => (cmds.filter fun e => e.issuer == .thread t).map (·.id)

/-- Whether a named operation is still outstanding anywhere. -/
def stillRuns (s : State) (n : Nat) : Bool :=
  (s.clusters.any fun e => (e.2.copyQ ++ e.2.indexQ).any fun x => x.id == n) ||
  (s.crews.any fun e => e.2.stage != .gone && ((waitName e.2).contains n || (e.2.vq ++ e.2.mq ++ e.2.lq ++ e.2.wq).any (fun x => x.name == n) ||
    (e.2.savedCE ++ e.2.savedIX).any fun x => x.id == n))

/-- `UNPIN`: the release waits for what was issued before (R216). A revoked pin is released without a fault, and what was issued
before still finds it revoked (R463). -/
def execUnpin (o : RFmt) (s : State) : Out :=
  runA (fun t => guarded (.thread t) o.g o.ng do
    let x ← readReg (.thread t) o.a o.ta
    let s ← get
    let owner := pinOwnerOf s t
    match s.pins.find? fun p => p.owner == owner && p.handle == x.toNat && p.leaving.isNone with
    | none => badFootprint 0
    | some p =>
      let names := outstanding s t
      upd fun s => { s with pins := s.pins.map fun q =>
        if q.handle == p.handle then { q with leaving := some names } else q }
      return .next) s

/-- `UNPIN_RELEASE`: the release takes effect once what was issued before the UNPIN has completed (R216). -/
def execUnpinRelease (handle : Nat) (s : State) : Out :=
  .next (dropPins s fun p => p.handle == handle &&
    match p.leaving with
    | some names => names.all fun n => !stillRuns s n
    | none => false)

/-! ### TLBI (R461, R462) -/

/-- Whether a leaf of a context is among the translations a TLBI removes. -/
def tlbiHits (s : State) (kind ctx part x : Nat) (c : Nat) (l : Leaf) : Bool :=
  if kind = 2 then (s.context c).part == part
  else c == ctx && (kind == 1 || l.holds x)

/-- The crew a pin's owner belongs to. -/
def pinCrew (s : State) (p : Pin) : Option Nat :=
  match p.owner with
  | .crew c => some c
  | .cmd id => (findCmd s id).bind (·.crew)
  | _ => none

def isCodePin (p : Pin) : Bool :=
  match p.owner with
  | .launch _ _ => true
  | _ => false

/-- Held accumulates of the package's own commands whose page is revoked are applied no more, and their commands end with
`REVOKED` (R318, R463). -/
def dropRevoked (s : State) : State :=
  let lost (h : HeldAdd) : Bool := h.pkg.isNone &&
    match findCmd s h.cmd with
    | some c => (match resolve s (cmdPins c.id c.issuer c.crew) h.va 1 true with
      | .error .revoked => true
      | _ => false)
    | none => false
  let gone := (s.epochs.flatMap fun e => e.2.ports.flatMap fun p => p.2.held.filter lost).map (·.cmd)
  let clean (e : Epoch) : Epoch := { e with ports := Tbl.mapVals (fun p => { p with held := p.held.filter fun h => !lost h }) e.ports }
  gone.foldl (fun s id => updAnyCmd id (fun c => { c with revoked := true }) s) { s with epochs := Tbl.mapVals clean s.epochs }

/-- Writes that elements have logged through a removed translation may commit only through a pin of the crew that still stands
then (R462, R463). -/
def markLogs (s : State) (hits : Nat → Leaf → Bool) : State :=
  let mark (c : Nat) (k : Crew) (w : Logged) : Logged :=
    if w.leaf.any (hits k.ctx) then
      { w with needs := some ((s.pins.filter fun p => crewPins c p && !p.revoked && p.covers w.va 1 true).map (·.handle)) }
    else w
  { s with crews := s.crews.map fun e =>
      (e.1, { e.2 with sections := Tbl.mapVals (fun x : Section => { x with log := x.log.map (mark e.1 e.2) }) e.2.sections }) }

/-- Remove translations from the TLBs and revoke pins (R462): the state, and the handles left to wait for. A thread parked in
WAITC whose counter was translated through one of them issues its WAITC again (log 85). -/
def removeTranslations (s : State) (t kind ctx x : Nat) (rev : Bool) : State × List Nat :=
  let th := s.thread t
  let part := (s.context th.ctx).part
  let hits := tlbiHits s kind ctx part x
  let own (core : Nat) : Bool := (s.partition part).units.contains (core / 4)
  let tlb := s.tlb.map fun e => (e.1, if own e.1 then e.2.filter fun v => !hits v.ctx v.leaf else e.2)
  let stale (e : Nat × Thread) : Bool := match e.2.mode with
    | .waitc _ _ _ va => own (e.1 / 8) && (s.tlb.getD (e.1 / 8) []).any fun v =>
        v.ctx == e.2.ctx && v.leaf.holds va && hits v.ctx v.leaf
    | _ => false
  let threads := s.threads.map fun e => (e.1, if stale e then { e.2 with mode := .ready } else e.2)
  let held (p : Pin) : Bool := !p.revoked && p.leaves.any (hits p.ctx)
  let revoke (p : Pin) : Bool :=
    held p && ((th.crew.isSome && pinCrew s p == th.crew) || p.owner == .thread t || (rev && !isCodePin p))
  let pins := s.pins.map fun p => if revoke p then { p with revoked := true } else p
  (dropRevoked (markLogs { s with threads := threads, tlb := tlb.filter fun e => !e.2.isEmpty, pins := pins } hits),
    ((pins.filter held).map (·.handle)))

def execTlbi (o : RFmt) (s : State) : Out :=
  runA (fun t => guarded (.thread t) o.g o.ng do
    let x ← readReg (.thread t) o.a o.ta
    let y ← readReg (.thread t) o.b o.tb
    let s ← get
    let th := s.thread t
    if th.level == 0 then privileged
    if 2 ^ 17 ≤ y.toNat ∨ (o.fn ≠ 0 ∧ x ≠ 0) ∨ (o.fn = 2 ∧ y.toNat % 2 ^ 16 ≠ 0) then illegal
    let named := y.toNat % 2 ^ 16
    let ctx := if named = 0 then th.ctx else named
    let part := (s.context th.ctx).part
    if (s.contexts.find? ctx).isNone || (s.context ctx).part != part then privileged
    if (o.fn = 2 ∨ ctx ≠ th.ctx) ∧ th.level ≠ 2 then privileged
    upd (release · (.thread t) 4)
    let s ← get
    let (s', wait) := removeTranslations s t o.fn ctx x.toNat (bit y.toNat 16)
    if wait.isEmpty then
      set s'
      return .next
    else
      set (s'.setThread t { s'.thread t with mode := .tlbi wait, reported := false })
      return .stay) s

/-- `TLBI_WAKE`: the parked TLBI completes when its last pin is released (R15, R462). -/
def execTlbiWake (t : Nat) (s : State) : Out :=
  .next (match (s.thread t).mode with
    | .tlbi wait =>
      if wait.any fun h => s.pins.any fun p => p.handle == h && !p.revoked then s
      else advance (s.setThread t { s.thread t with mode := .ready }) (.thread t) 1
    | _ => s)

end Sys2Proof.Machine
end

