-- ==== Sys2Proof/Machine/Fetch.lean ====
section
/-! DEFINITION. What a turn of a unit does before its instruction: delivering a cluster exception, fetching and decoding
(R15, R159-R162, R184, R444), and finding the head of a stream's or engine's queue. -/

namespace Sys2Proof.Machine

/-- The loss-of-decoupling exception of a thread whose pop has completed (R150). -/
def lossNow (s : State) (t : Nat) : Option Word :=
  match (s.thread t).lossDue with
  | some (pc, true) => some pc
  | _ => none

/-- Whether the thread can take a cluster exception now (R444). -/
def canDeliver (s : State) (t c : Nat) : Bool :=
  let th := s.thread t
  let k := s.crew c
  !k.posted.isEmpty && (lossNow s t).isNone && k.handling.isNone && !th.inexc && k.stage == .resident &&
  match th.mode with
  | .ready => true
  | .waitc .. => true
  | .returned => true
  | .tlbi _ => true
  | _ => false

/-- The crew whose cluster exception a thread takes before its next instruction. -/
def deliveryDue (s : State) (t : Nat) : Option Nat := (s.thread t).crew.filter (canDeliver s t)

/-- Deliver the oldest posted cluster exception to the crew's thread (R444). -/
def deliver (s : State) (c : Nat) : State :=
  let k := s.crew c
  if canDeliver s k.thread c then
    match k.posted with
    | [] => s
    | p :: rest =>
      match takeException k.thread p true s with
      | .ok _ s' =>
        if (s'.crew c).stage == .resident && (s'.thread k.thread).inexc then
          s'.setCrew c { s'.crew c with posted := rest, handling := some p }
        else s'
      | .error _ _ => s
  else s

/-- What a fetch gives. -/
inductive Fetched where
  /-- an instruction, at the owner's pointer -/
  | run (i : Instr)
  /-- no lane is left in the line: the pointer has moved on -/
  | moved
  /-- a lane of the V, M, L or W stream that is no instruction, with its first word -/
  | badLane (st : Stream) (w : Nat)
  deriving DecidableEq, Repr

/-- Fetch and decode at an owner's pointer (R159, R161, R184). -/
def fetchAt (o : Owner) : M Fetched := do
  let pc ← pcOf o
  if !ptrOk pc.toNat then trap 15 0 pc
  let va := ptrLine pc.toNat
  let bs ← fetchLine o va
  let l := Line.ofBytes bs
  if !l.wf (isCox o) va then throw (.trap { cause := 16, info := BitVec.ofNat 64 va })
  match l.first (ptrLane pc.toNat) with
  | none =>
    updScalar o fun c => { c with pc := BitVec.ofNat 64 (va + 33) }
    return .moved
  | some k =>
    updScalar o fun c => { c with pc := BitVec.ofNat 64 (va + k) }
    upd fun s => { s with lane := l.sid k }
    let st := l.stream (isCox o) k
    match decodeLane st (l.word k) (l.word (k + 1)) with
    | .ok i => return .run i
    | .error .version => trap 18
    | .error .illegal =>
      match st with
      | .v => return .badLane .v (l.word k)
      | .m => return .badLane .m (l.word k)
      | .l => return .badLane .l (l.word k)
      | .w => return .badLane .w (l.word k)
      | _ => illegal

/-- The first non-empty lane of the line at the owner's pointer, where a page maps the line but does not admit the fetch; the
pointer itself where no page maps it, since its lanes cannot be read then (R456, log 104). -/
def laneAfter (o : Owner) (s : State) : Word :=
  let pc := (s.scalar o).pc
  let va := ptrLine pc.toNat
  match walk (ctxOf s o) 2 va false false s with
  | .ok (.ok l) _ =>
    (match readPhys (agentOf o) (l.pa + (va - l.va)) 32 s with
     | .ok (some bs) _ => ((Line.ofBytes bs).first (ptrLane pc.toNat)).elim pc fun k => BitVec.ofNat 64 (va + k)
     | _ => pc)
  | _ => pc

/-- A fetch that raises an exception or stalls: the state after (R159, R162, R456, R471). -/
def fetchStop (o : Owner) (st : Stop) (s : State) : State :=
  let pc := match st with
    | .trap e => if e.cause = 5 then laneAfter o s else (s.scalar o).pc
    | _ => (s.scalar o).pc
  match st with
  | .trap e => runM (raiseAt o e pc pc false) s
  | .lasting va => runM (containOwner o 3 va) s
  | _ => s

/-! ### Streams and engines -/

/-- The code of a stream in exception records (R444), and its command queue. -/
def streamQueue (k : Crew) (st : Nat) : List Entry :=
  match st with
  | 2 => k.vq
  | 3 => k.mq
  | 4 => k.lq
  | _ => k.wq

def setStreamQueue (k : Crew) (st : Nat) (l : List Entry) : Crew :=
  match st with
  | 2 => { k with vq := l }
  | 3 => { k with mq := l }
  | 4 => { k with lq := l }
  | _ => { k with wq := l }

/-- The cluster and stream of a unit that runs a command queue, and the position it looks at. -/
def streamOf : UnitId → Option (Nat × Nat × Nat)
  | .vec cl => some (cl, 2, 0)
  | .stroke cl pos => some (cl, 3, pos)
  | .lgen cl => some (cl, 4, 0)
  | .wgen cl => some (cl, 5, 0)
  | _ => none

/-- The crew and entry a stream unit would run: the active crew, resident, with the stream not stopped (R19, R24); M
instructions that have begun run to completion (R280). -/
def streamHead (s : State) (u : UnitId) : Option (Nat × Nat × Entry) :=
  match streamOf u with
  | none => none
  | some (cl, st, pos) =>
    match s.activeCrew cl with
    | none => none
    | some c =>
      let k := s.crew c
      if k.stage != .resident then none
      else
        match (streamQueue k st)[pos]? with
        | some e => if k.stopped.contains st && !(st == 3 && e.prog.begun) then none else some (c, st, e)
        | none => none

/-- Post an exception of a V, M, L or W instruction (R444). -/
def raiseStream (c st : Nat) (e : Entry) (x : Exc) (mmask : BitVec 16) (s : State) : State :=
  postException s c { stream := st, exc := x, pc := e.pc, resume := e.pc, mmask := mmask }

/-- The command at the head of an engine's queue (R21, R297). -/
def engineHead (s : State) (u : UnitId) : Option (Nat × Cmd) :=
  match u with
  | .copyEng cl => (s.cluster cl).copyQ.head?.map fun e => (cl, e)
  | .indexEng cl => (s.cluster cl).indexQ.head?.map fun e => (cl, e)
  | _ => none

/-- A thread may issue or stall in issue: it is ready, or bound with its start message arrived (R15, R23). -/
def mayFetch (s : State) (t : Nat) : Bool :=
  let th := s.thread t
  let here := match th.crew with
    | some c => (s.crew c).stage == .resident && !(s.crew c).startThread
    | none => true
  here && (th.mode == .ready || th.mode == .bound)

/-- Take the loss-of-decoupling exception, before the next instruction (R150). -/
def takeLoss (t : Nat) (pc : Word) (s : State) : State :=
  let th := s.thread t
  let cnt := match th.crew with
    | some c => (s.crew c).dcplCnt
    | none => 0
  match raiseAt (.thread t) { cause := 27, info := cnt.setWidth 64 } pc th.sc.pc true
      (s.setThread t { th with lossDue := none }) with
  | .ok _ s' => s'
  | .error _ _ => s

end Sys2Proof.Machine
end

