-- ==== Sys2Proof/Machine/Streams.lean ====
section
/-! DEFINITION. Handover to the V, M, L and W streams, dependence tokens, and the frame in which a stream's instruction
runs (R19, R20, R146-R148, R171, R231). -/

namespace Sys2Proof.Machine

/-! ### Dependence tokens (R146, R147) -/

/-- FIFOs an instruction of a stream pops and pushes, by its token bits. FIFO numbers are those of `Crew.tokens`. -/
def tokenFifos (st tok : Nat) : List Nat × List Nat :=
  let fifos := match st with
    | 4 => [1, 3, 0, 2]
    | 5 => [5, 7, 4, 6]
    | 2 => [0, 4, 1, 5]
    | _ => [2, 6, 3, 7]
  let on (i : Nat) : List Nat := if bit tok (3 - i) then [fifos.getD i 0] else []
  (on 0 ++ on 1, on 2 ++ on 3)

def tokenCount (k : Crew) (f : Nat) : Nat := k.tokens.getD f 0
def addToken (k : Crew) (f : Nat) : Crew := { k with tokens := k.tokens.put f (tokenCount k f + 1) 0 }
def takeToken (k : Crew) (f : Nat) : Crew := { k with tokens := k.tokens.put f (tokenCount k f - 1) 0 }

/-! ### Entries -/

/-- Change the named entry of a stream's queue. -/
def updEntry (c st name : Nat) (f : Entry → Entry) (s : State) : State :=
  let k := s.crew c
  s.setCrew c (setStreamQueue k st ((streamQueue k st).map fun e => if e.name == name then f e else e))

/-- Writes of V's control registers apply once the instruction they follow has completed (R55). -/
def applyCtl (k : Crew) (reg : Nat) (v : Word) : Crew :=
  match reg with
  | 0 => { k with vstat := v.setWidth 32 }
  | 1 => { k with vctl := v.setWidth 32 }
  | 2 => { k with rndSeed := v }
  | _ => { k with rndCtr := v }

def settleCtl (k : Crew) (name : Nat) : Crew :=
  let k' := (k.vwrites.filter fun w => w.1 == name).foldl (fun k w => applyCtl k w.2.1 w.2.2) k
  { k' with vwrites := k.vwrites.filter fun w => w.1 != name }

/-- The value a register of V has after the writes still waiting (R55). -/
def ctlNow (k : Crew) (reg : Nat) (v : Word) : Word :=
  match (k.vwrites.filter fun w => w.2.1 == reg).getLast? with
  | some w => w.2.2
  | none => v

/-- `VCTL` with the writes still waiting. -/
def vctlNow (k : Crew) : BitVec 32 := (ctlNow k 1 (k.vctl.setWidth 64)).setWidth 32

/-- Take a completed entry off its queue. -/
def retire (c st name : Nat) (s : State) : State :=
  let k := s.crew c
  let k := setStreamQueue k st ((streamQueue k st).filter fun e => e.name != name)
  s.setCrew c { settleCtl k name with idle := false }

/-- Push tokens in turn, up to the first FIFO that is full: the crew, and how many were pushed (R147). -/
def pushTokens (k : Crew) : List Nat → Crew × Nat
  | [] => (k, 0)
  | f :: t =>
    if 8 ≤ tokenCount k f then (k, 0)
    else let r := pushTokens (addToken k f) t
      (r.1, r.2 + 1)

/-- Push an instruction's tokens not yet pushed in turn, then retire it; while a FIFO is full it stays, finished (R147). A token
waits behind those that instructions completed before it still owe a FIFO (R148). -/
def finishEntry (c st tok : Nat) (e : Entry) (s : State) (owed : List Nat := []) : State :=
  let due := (tokenFifos st tok).2.drop e.pushed
  let (k, n) := pushTokens (s.crew c) (due.takeWhile fun f => !owed.contains f)
  let s := s.setCrew c k
  if n < due.length then
    let stay (x : Entry) : Entry := { x with finished := true, pushed := e.pushed + n, done := if x.finished then x.done else s.nextId }
    updEntry c st e.name stay (if e.finished then s else { s with nextId := s.nextId + 1 })
  else retire c st e.name s

/-- Run a stream's instruction: its tokens, its body, its completion. The body answers whether it is complete. -/
def runEntry (c st tok : Nat) (e : Entry) (mmask : State → BitVec 16) (body : M Bool) (s : State) : State :=
  if e.finished then finishEntry c st tok e s
  else
    let pops := if e.popped then [] else (tokenFifos st tok).1
    if pops.any fun f => tokenCount (s.crew c) f == 0 then s
    else
      let s1 := updEntry c st e.name (fun e => { e with popped := true }) (s.setCrew c (pops.foldl takeToken (s.crew c)))
      let raise (x : Exc) (s : State) : State :=
        raiseStream c st e x (mmask s) (updEntry c st e.name (fun e => { e with stalled := false }) s)
      match body s1 with
      | .ok true s2 => finishEntry c st tok e s2
      | .ok false s2 => updEntry c st e.name (fun e => { e with stalled := false }) s2
      | .error .stall _ => s1
      | .error (.stallQ q push _) _ =>
        if e.stalled then s1 else updEntry c st e.name (fun e => { e with stalled := true }) (countEpisode s1 c q push false)
      | .error (.trap x) s2 => raise x (keepErrors s1 s2)
      | .error (.trapQ q push x) _ => raise x (countEpisode s1 c q push false)
      | .error (.trapKeep x) s2 => raise x s2
      | .error (.lasting va) s2 => runM (containOwner (.crew c) 3 va) (keepErrors s1 s2)
      | .error (.status _) _ => s1

/-! ### Handover (R20, R171) -/

/-- The command queue of a stream holds 16 entries (R20). -/
def roomFor (c st : Nat) : M Unit := do
  let s ← get
  if 16 ≤ (streamQueue (s.crew c) st).length then throw .stall

/-- Append an entry to a stream's queue, with what V's control registers hold for it (R55): a drain takes RND_SEED here too, with
VCTL.DRM (R283, log 119). -/
def handOver (c st : Nat) (e : Entry) : M Unit := do
  let name ← freshId
  upd fun s =>
    let k := s.crew c
    let e := { e with
      name := name, pc := k.sc.pc, vctl := vctlNow k, seed := ctlNow k 2 k.rndSeed }
    s.setCrew c (setStreamQueue k st (streamQueue k st ++ [e]))

/-- No HRD of a threshold register that a lane names may be outstanding (R238). -/
def hrdSettled (c h : Nat) : M Unit := do
  let s ← get
  if (s.crew c).hrds.any fun r => r.1 == h then throw .stall

/-- The register a lane of the V stream names as a VGET's destination (R171). -/
def vgetDest (st : Stream) (w : Nat) : Option Nat := if st = .v ∧ w / 2 ^ 25 = 0x27 ∧ bits w 20 10 < 32 then some (bits w 20 10) else none

/-- Hand over a lane that is no instruction, for its stream to raise the exception (R184, R231). A VGET marks its destination
empty all the same (R171). -/
def handBad (c : Nat) (st : Stream) (w : Nat) (s : State) : State :=
  let (code, n) := match st with
    | .v => (2, 2)
    | .m => (3, 1)
    | .l => (4, 1)
    | _ => (5, 1)
  scalarStep (.crew c) n (do
    roomFor c code
    match vgetDest st w with
    | none => handOver c code { name := 0, instr := .mailboxReadErrorCounters, pc := 0, bad := true }
    | some d =>
      destReady (.crew c) d
      let s ← get
      awaitReg (.crew c) d (.vget ((s.crew c).sc.reg d))
      handOver c code { name := 0, instr := .vget { tok := 0, d := d, mg := 0, rm := 0, fmt := 0, a := 0, b := 0, c := 0 }, pc := 0, bad := true }
    return .next) s

/-- Run a lane of one of the four streams: the sequencer hands it over, or its stream performs it. `lanes` is how many
lanes it takes, `hand` gives the entry that is handed over. -/
def runLane (st lanes tok : Nat) (hand : Nat → M Entry) (mmask : State → BitVec 16) (body : Nat → Entry → M Bool)
    (s : State) : Out :=
  match s.cur with
  | .seq cl =>
    match s.activeCrew cl with
    | some c => .next (scalarStep (.crew c) lanes (do
        roomFor c st
        let e ← hand c
        handOver c st e
        return .next) s)
    | none => .next s
  | u =>
    match streamHead s u with
    | some (c, st', e) => if st' = st then .next (runEntry c st tok e mmask (body c e) s) else .next s
    | none => .next s

end Sys2Proof.Machine
end

