-- ==== Sys2Proof/Machine/Operands.lean ====
section
/-! DEFINITION. Operand forms of the vector unit: matrix operands in every direction, index overrides, masks, thresholds,
and elements of every width (R168-R171, R244-R246). -/

namespace Sys2Proof.Machine

/-- A matrix operand (R168). -/
structure MatOp where
  reg : Nat
  dir : Nat
  idx : Nat
  deriving DecidableEq, Repr, Inhabited

def MatOp.ofField (x : Nat) : MatOp := { reg := bits x 10 7, dir := bits x 6 5, idx := bits x 4 0 }

/-- Row and column of the `i`-th word of an operand (R169). -/
def MatOp.place (o : MatOp) (i : Nat) : Nat × Nat :=
  match o.dir with
  | 0 => (o.idx, i)
  | 1 => (i, o.idx)
  | 2 => (i, (i + o.idx) % 32)
  | _ => (i, (o.idx + 32 - i) % 32)

/-- Index of the `i`-th word in the register file. -/
def MatOp.at (o : MatOp) (i : Nat) : Nat := o.reg * 1024 + (o.place i).1 * 32 + (o.place i).2

/-- The operand of the same register and direction `n` indexes on (R263, R265). -/
def MatOp.shift (o : MatOp) (n : Nat) : MatOp := { o with idx := (o.idx + n) % 32 }

/-- The three matrix operands of an instruction, with its index override (R170). -/
def matOperand (o : VFmt) (e : Entry) (which : Nat) : MatOp :=
  let x := MatOp.ofField (if which = 1 then o.d else if which = 2 then o.a else o.b)
  if o.c / 256 = which then { x with idx := e.sidx % 32 } else x

/-- The 32 words of an operand. -/
def readWords (k : Crew) (o : MatOp) : List Nat := (List.range 32).map fun i => (k.m.getD (o.at i) 0).toNat

/-- Elements of width `w` packed in words, low first (R169). -/
def elemsOf (w : Nat) (ws : List Nat) : List Nat :=
  ws.flatMap fun v => (List.range (32 / w)).map fun j => v / 2 ^ (w * j) % 2 ^ w

/-- The elements of an operand. -/
def readElems (k : Crew) (o : MatOp) (w : Nat) : List Nat := elemsOf w (readWords k o)

/-- Replace elements of a word from element `j` on: none leaves an element, and those past the list stay. -/
def packWord (w : Nat) (old : Nat) : Nat → List (Option Nat) → Nat
  | j, [] => old / 2 ^ (w * j) * 2 ^ (w * j)
  | j, e :: t =>
    (match e with
      | some v => v % 2 ^ w
      | none => old / 2 ^ (w * j) % 2 ^ w) * 2 ^ (w * j) + packWord w old (j + 1) t

/-- Write the words of an operand from index `i` on; none leaves a word as it is. -/
def writeWords (m : Tbl (BitVec 32)) (o : MatOp) (i : Nat) : List (Option Nat) → Tbl (BitVec 32)
  | [] => m
  | some v :: t => writeWords (m.put (o.at i) (BitVec.ofNat 32 v) 0) o (i + 1) t
  | none :: t => writeWords m o (i + 1) t

/-- The elements of a list in groups of `n`. -/
def groups (n : Nat) : Nat → List (Option Nat) → List (List (Option Nat))
  | 0, _ => []
  | k + 1, l => l.take n :: groups n k (l.drop n)

/-- Write elements of width `w` of an operand; none leaves an element as it is. -/
def writeElems (k : Crew) (o : MatOp) (w : Nat) (es : List (Option Nat)) : Crew :=
  let old := readWords k o
  let ws := (groups (32 / w) 32 es).zipIdx.map fun (g, i) =>
    if g.all (·.isNone) then none else some (packWord w (old.getD i 0) 0 g)
  { k with m := writeWords k.m o 0 ws }

/-- Whether element `e` is enabled by the guard mask (R246). -/
def enabled (k : Crew) (mg e : Nat) : Bool := mg == 0 || (k.w.getD mg 0).getLsbD e

/-- Mask register of an operand field. -/
def maskOf (x : Nat) : Nat := bits x 10 7

/-- Write bits of a mask from element results; `n` elements, higher bits cleared (R246). -/
def writeMask (k : Crew) (d n : Nat) (rs : List (Option Bool)) : Crew :=
  let old := k.w.getD d 0
  let v := rs.zipIdx.foldl (fun acc (r, i) => if r.getD (old.getLsbD i) && i < n then acc + 2 ^ i else acc) 0
  { k with w := k.w.put d (BitVec.ofNat 128 v) 0 }

/-- A threshold register; −∞ where nothing has raised it (R237). -/
def Crew.thr (k : Crew) (h : Nat) : Nat := (k.h.getD h 0xFF800000#32).toNat

/-- `MaxMerge` (R237). -/
def maxMerge (k : Crew) (h v : Nat) : Crew :=
  let x := v % 2 ^ 32
  if FFmt.f32.isNaN x then k
  else if (FFmt.f32.decode (k.thr h)).ltZ (FFmt.f32.decode x) then
    { k with h := k.h.put h (BitVec.ofNat 32 x) 0xFF800000#32 }
  else k

end Sys2Proof.Machine
end

