-- ==== Sys2Proof/Machine/Flags.lean ====
section
/-! DEFINITION. Flag computations of the vector unit: collecting, trapping, `VSTAT`, rounding modes and the invalid cases
(R46, R48, R52-R54, R63, R251, R256). -/

namespace Sys2Proof.Machine

/-- Apply collected flags (R54): trap when an enabled one is among them, else OR them into `VSTAT`. -/
def applyFlags (c : Nat) (e : Entry) (fl : Flags) : M Unit := do
  if fl &&& e.vctl.toNat &&& 0x3F ≠ 0 then trap 19 0 (BitVec.ofNat 64 fl)
  upd fun s => let k := s.crew c
    s.setCrew c { k with vstat := k.vstat ||| BitVec.ofNat 32 fl }

/-- The rounding mode an rm field resolves to (R48, R53): NSR makes a dynamic stochastic mode illegal. -/
def modeOf (e : Entry) (rm : Nat) : M Nat := do
  if rm = 5 then
    let m := bits e.vctl.toNat 10 8
    if m = 4 ∧ e.vctl.getLsbD 7 then illegal
    return m
  else return rm

/-- `RND_CTR` advances after an instruction whose mode resolved to SR (R51). -/
def advanceCtr (c mode : Nat) : M Unit :=
  if mode = 4 then upd fun s => let k := s.crew c
    s.setCrew c { k with rndCtr := BitVec.ofNat 64 ((k.rndCtr.toNat + 1) % 2 ^ 32) }
  else pure ()

/-- Random bits for the destination element `e` of width `w` of an operand (R51). -/
def vecRnd (k : Crew) (en : Entry) (o : MatOp) (w e : Nat) : Nat :=
  let per := 32 / w
  let (r, col) := o.place (e / per)
  srHash en.seed.toNat 0 o.reg (bits k.rndCtr.toNat 15 0) (bits k.rndCtr.toNat 31 16) 0 ((r * 32 + col) * 4 + e % per)

def allFlags (l : List (Nat × Flags)) : Flags := l.foldl (fun a r => orf a r.2) 0

/-- Round an exact result whose invalid cases are given: a signalling operand or an invalid operation gives the canonical
quiet NaN and NV (R46, R251). -/
def fresult (f : FFmt) (mode rnd : Nat) (invalid : Bool) (v : Ex) : Nat × Flags :=
  if invalid then (f.qnan, Flag.nv) else roundF v f mode rnd

/-- A signalling NaN other than SCR (R46, R67). -/
def signals (f : FFmt) (x : Nat) : Bool := f.isSNaN x && !(f == .f32 && isSCR x)

/-- A floating operation on operands, some of which may be SCR: SX, with the NV that its other operands raise (R46, R63). -/
def ordinary (f : FFmt) (ops : List Nat) (r : Nat × Flags) : Nat × Flags :=
  if f == .f32 && ops.any isSCR then (f.qnan, orf Flag.sx (if ops.any (signals f) then r.2 &&& Flag.nv else 0)) else r

/-- Sum of two operands (R50, R251). -/
def faddF (f : FFmt) (mode rnd : Nat) (negB : Bool) (x y : Nat) : Nat × Flags :=
  let a := f.decode x
  let b := if negB then (f.decode y).neg else f.decode y
  let v := a.add mode b
  ordinary f [x, y] (fresult f mode rnd (f.isSNaN x || f.isSNaN y || (v.isNaN && !a.isNaN && !b.isNaN)) v)

/-- Product of two operands. -/
def fmulF (f : FFmt) (mode rnd : Nat) (x y : Nat) : Nat × Flags :=
  let a := f.decode x
  let b := f.decode y
  let v := a.mul b
  ordinary f [x, y] (fresult f mode rnd (f.isSNaN x || f.isSNaN y || (v.isNaN && !a.isNaN && !b.isNaN)) v)

/-- Fused product and sum: `±(x × y) ± z`. -/
def fmaF (f : FFmt) (mode rnd : Nat) (negP negZ : Bool) (x y z : Nat) : Nat × Flags :=
  let a := f.decode x
  let b := f.decode y
  let d := if negZ then (f.decode z).neg else f.decode z
  let p := if negP then (a.mul b).neg else a.mul b
  let v := p.add mode d
  let invalid := p.isNaN && !a.isNaN && !b.isNaN
  let bad := f.isSNaN x || f.isSNaN y || f.isSNaN z || invalid || (v.isNaN && !p.isNaN && !d.isNaN)
  let r := ordinary f [x, y, z] (fresult f mode rnd bad v)
  (r.1, orf r.2 (flagIf invalid Flag.nv))

/-- Compare two floating encodings under conditions 0 to 5: the truth and NV (R256). -/
def fcompare (f : FFmt) (cc x y : Nat) : Bool × Flags :=
  let r := (f.decode x).cmp (f.decode y)
  let nan := f.isNaN x || f.isNaN y
  let snan := f.isSNaN x || f.isSNaN y
  let truth := match cc with
    | 0 => r == some .eq
    | 1 => r != some .eq
    | 2 => r == some .lt
    | 3 => r == some .lt || r == some .eq
    | 4 => r == some .gt
    | _ => r == some .gt || r == some .eq
  (truth, flagIf (if cc ≤ 1 then snan else nan) Flag.nv)

/-- Compare two integer encodings under conditions 0 to 5. -/
def icompare (w : Nat) (signed : Bool) (cc x y : Nat) : Bool :=
  let a : Int := if signed then sext x w else x
  let b : Int := if signed then sext y w else y
  match cc with
  | 0 => a == b
  | 1 => a != b
  | 2 => a < b
  | 3 => a ≤ b
  | 4 => b < a
  | _ => b ≤ a

/-- Wrap or saturate an integer result by rm (R248). -/
def iresult (w : Nat) (signed : Bool) (rm : Nat) (v : Int) : Nat := if rm = 1 then satN v w signed else wrapN v w

/-- An integer element's value. -/
def ival (w : Nat) (signed : Bool) (x : Nat) : Int := if signed then sext x w else x

end Sys2Proof.Machine
end

