-- ==== Sys2Proof/Machine/Vector.lean ====
section
/-! DEFINITION. The V stream's instructions (R244-R268). -/

namespace Sys2Proof.Machine

/-! ### Handover and the common operation (R171, R245, R247) -/

/-- What a V lane's handover reads besides the index override. -/
structure VNeeds where
  /-- operand a is an s register -/
  scal : Bool := false
  /-- operand d is an s register that the instruction will fill -/
  get : Bool := false
  /-- the narrow format of `VNF_TID` -/
  nf : Bool := false
  /-- operand b is a threshold register -/
  thr : Bool := false

/-- The narrow format descriptor of `VNF_TID` (R245), as the entry keeps it. -/
def readVnf (c : Nat) (e : Entry) : M Entry := do
  let s ← get
  let k := s.crew c
  let tid := bits k.vnfTid.toNat 11 0
  match ← nameTid k.ctx tid (some c) (.half c) with
  | .ecc va => throw (.lasting va)
  | .refused _ va => return { e with vnfAt := some va, vnfTid := tid }
  | .bad => return { e with vnfTid := tid }
  | .ok d => return { e with vnf := if d.efmt = 13 then some d.nfd else none, vnfTid := tid }

/-- The entry a V lane is handed over with. -/
def handV (o : VFmt) (i : Instr) (n : VNeeds) (c : Nat) : M Entry := do
  let w := Owner.crew c
  let idx ← if o.c / 256 = 0 then pure 0 else readReg w (o.c % 32) 0
  let val ← if n.scal then readReg w o.a 0 else pure 0
  if n.thr then hrdSettled c (o.b / 128)
  if n.get then
    destReady w o.d
    let s ← get
    awaitReg w o.d (.vget ((s.scalar w).reg o.d))
  let s ← get
  let e : Entry := { name := 0, instr := i, pc := (s.crew c).sc.pc, sval := val, sidx := idx.toNat % 32 }
  if n.nf then readVnf c e else return e

/-- Hand over or perform a V instruction. -/
def runV (o : VFmt) (i : Instr) (n : VNeeds) (body : Nat → Entry → M Unit) (s : State) : Out :=
  runLane 2 2 o.tok (handV o i n) (fun _ => 0) (fun c e => do body c e; return true) s

def efOf (o : VFmt) : EF := (EF.ofCode o.fmt).getD (.flt .f32)

/-- The rounding mode of an instruction that rounds; an integer format has none. -/
def vMode (o : VFmt) (e : Entry) : M Nat := if o.fmt ≤ 2 ∨ o.fmt = 9 then modeOf e o.rm else return 0

def vRandom (mode : Nat) (k : Crew) (en : Entry) (o : MatOp) (w e : Nat) : Nat := if mode = 4 then vecRnd k en o w e else 0

def gather (rs : List (Option (Nat × Flags))) : Flags :=
  rs.foldl (fun a r => match r with
    | some x => orf a x.2
    | none => a) 0

/-- The results of the enabled elements: index, random bits, A, B and D are given to `f`. -/
def elementResults (k : Crew) (e : Entry) (o : VFmt) (mode : Nat) (f : Nat → Nat → Nat → Nat → Nat → Nat × Flags) :
    List (Option (Nat × Flags)) :=
  let w := vWidth o.fmt
  let dst := matOperand o e 1
  let as := readElems k (matOperand o e 2) w
  let bs := readElems k (matOperand o e 3) w
  let ds := readElems k dst w
  (List.range o.count).map fun i =>
    if enabled k o.mg i then some (f i (vRandom mode k e dst w i) (as.getD i 0) (bs.getD i 0) (ds.getD i 0)) else none

/-- The element-wise operation (R247). -/
def elementwise (c : Nat) (e : Entry) (o : VFmt) (mode : Nat) (f : Nat → Nat → Nat → Nat → Nat → Nat × Flags) : M Unit := do
  let s ← get
  let rs := elementResults (s.crew c) e o mode f
  applyFlags c e (gather rs)
  upd fun s => s.setCrew c (writeElems (s.crew c) (matOperand o e 1) (vWidth o.fmt) (rs.map fun r => r.map (·.1)))
  advanceCtr c mode

/-- An element-wise operation given on floating and on integer elements (R247, R248, R251). -/
def vArith (o : VFmt) (i : Instr) (ff : FFmt → Nat → Nat → Nat → Nat → Nat → Nat × Flags) (fi : Int → Int → Int)
    (s : State) : Out :=
  runV o i {} (fun c e => do
    let mode ← vMode o e
    elementwise c e o mode fun _ rnd a b d => match efOf o with
      | .flt f => ff f mode rnd a b d
      | .int w sg => (iresult w sg o.rm (fi (ival w sg a) (ival w sg b)), 0)
      | .nf => (0, 0)) s

/-- An element-wise operation on bits that raises nothing. -/
def vBits (o : VFmt) (i : Instr) (f : Nat → Nat → Nat → Nat) (s : State) : Out :=
  runV o i {} (fun c e => elementwise c e o 0 fun _ _ a b _ => (f (vWidth o.fmt) a b, 0)) s

/-! ### Arithmetic (R251, R252) -/

def execVadd (o : VFmt) (s : State) : Out :=
  vArith o (.vadd o) (fun f m r a b _ => faddF f m r false a b) (· + ·) s

def execVsub (o : VFmt) (s : State) : Out :=
  vArith o (.vsub o) (fun f m r a b _ => faddF f m r true a b) (· - ·) s

def execVmul (o : VFmt) (s : State) : Out :=
  vArith o (.vmul o) (fun f m r a b _ => fmulF f m r a b) (· * ·) s

def execVfma (o : VFmt) (s : State) : Out :=
  vArith o (.vfma o) (fun f m r a b d => fmaF f m r false false a b d) (fun a _ => a) s

def execVfms (o : VFmt) (s : State) : Out :=
  vArith o (.vfms o) (fun f m r a b d => fmaF f m r false true a b d) (fun a _ => a) s

def execVfnma (o : VFmt) (s : State) : Out :=
  vArith o (.vfnma o) (fun f m r a b d => fmaF f m r true false a b d) (fun a _ => a) s

def execVmin (o : VFmt) (s : State) : Out :=
  vArith o (.vmin o) (fun f _ _ a b _ => ordinary f [a, b] (fminmax f false a b)) (fun a b => if b < a then b else a) s

def execVmax (o : VFmt) (s : State) : Out :=
  vArith o (.vmax o) (fun f _ _ a b _ => ordinary f [a, b] (fminmax f true a b)) (fun a b => if a < b then b else a) s

def execVabs (o : VFmt) (s : State) : Out :=
  vArith o (.vabs o) (fun f _ _ a _ _ => ordinary f [a] (a % f.signBit, 0)) (fun a _ => if a < 0 then -a else a) s

def execVneg (o : VFmt) (s : State) : Out :=
  vArith o (.vneg o) (fun f _ _ a _ _ => ordinary f [a] (a ^^^ f.signBit, 0)) (fun a _ => -a) s

def execVcps (o : VFmt) (s : State) : Out :=
  vArith o (.vcps o) (fun f _ _ a b _ => ordinary f [a, b] (a % f.signBit + b / f.signBit % 2 * f.signBit, 0)) (fun a _ => a) s

def execVrcpe (o : VFmt) (s : State) : Out :=
  vArith o (.vrcpe o) (fun _ _ _ a _ _ => seedOf false a) (fun a _ => a) s

def execVrsqe (o : VFmt) (s : State) : Out :=
  vArith o (.vrsqe o) (fun _ _ _ a _ _ => seedOf true a) (fun a _ => a) s

def execVexp2 (o : VFmt) (s : State) : Out :=
  vArith o (.vexp2 o) (fun f m r a _ _ => ordinary f [a] (vexp2 f a m r)) (fun a _ => a) s

def execVlog2 (o : VFmt) (s : State) : Out :=
  vArith o (.vlog2 o) (fun f m r a _ _ => ordinary f [a] (vlog2 f a m r)) (fun a _ => a) s

/-- Class code of an encoding (R268). -/
def classOf (f : FFmt) (x : Nat) : Nat :=
  let neg := f.negOf x
  if f == .f32 && isSCR x then 10 + bits x 19 16 * 2 ^ 4 + x % 2 * 2 ^ 8 + bits x 15 1 * 2 ^ 9
  else if f.isSNaN x then 9
  else if f.isNaN x then 8
  else if f.expOf x = 2 ^ f.ew - 1 then (if neg then 0 else 7)
  else if f.expOf x = 0 then
    (if f.fracOf x = 0 then (if neg then 3 else 4) else if neg then 2 else 5)
  else if neg then 1 else 6

def execVclass (o : VFmt) (s : State) : Out :=
  vArith o (.vclass o) (fun f _ _ a _ _ => (classOf f a, 0)) (fun a _ => a) s

/-! ### Conversion and quantisation (R253-R255) -/

/-- The descriptor read at handover, or the descriptor fault (R245); the footprint fault where it lies outside every pin (R459). -/
def needNf (e : Entry) : M NF :=
  match e.vnf with
  | some d => return NF.ofDesc d
  | none =>
    match e.vnfAt with
    | some va => trap 9 (BitVec.ofNat 64 va)
    | none => trap 6 0 (BitVec.ofNat 64 e.vnfTid)

/-- Convert one element (R63, R66, R253). -/
def convertElem (d : NF) (src dst : EF) (mode rm rnd x : Nat) : Nat × Flags :=
  match src with
  | .nf =>
    match dst with
    | .flt f => dequantise d x 0x1FC f mode rnd
    | _ => (0, 0)
  | .flt f =>
    if f == .f32 && isSCR x then
      (match dst with
        | .flt g => g.qnan
        | _ => 0, Flag.sx)
    else
      let r := convertTo (f.decode x) dst mode rnd
      (r.1, orf r.2 (flagIf (f.isSNaN x) Flag.nv))
  | .int w sg =>
    match dst with
    | .int v tg => (iresult v tg rm (ival w sg x), 0)
    | _ => convertTo (Ex.ofInt (ival w sg x)) dst mode rnd

/-- Whether a VCVT's rm is a rounding code (R248). -/
def cvtRounds (o : VFmt) : Bool := o.c % 16 ≤ 2 || o.c % 16 == 9 || o.fmt ≤ 2

def cvtBody (o : VFmt) (c : Nat) (e : Entry) : M Unit := do
  let mode ← if cvtRounds o then modeOf e o.rm else pure 0
  let nf ← if o.c % 16 = 9 then needNf e else pure (NF.ofDesc 0)
  let s ← get
  let k := s.crew c
  let wS := vWidth (o.c % 16)
  let wD := vWidth o.fmt
  let nS := 1024 / wS
  let nD := 1024 / wD
  let m := min nS nD
  let part := bits o.c 5 4
  let src := (EF.ofCode (o.c % 16)).getD (.flt .f32)
  let dst := matOperand o e 1
  let as := readElems k (matOperand o e 2) wS
  let rs := (List.range nD).map fun t =>
    let j := if nD > nS then t - part * m else t
    let inside := if nD > nS then part * m ≤ t && t < part * m + m else t < m
    if inside && enabled k o.mg t then
      some (convertElem nf src (efOf o) mode o.rm (vRandom mode k e dst wD t)
        (as.getD (if nS > nD then part * m + j else j) 0))
    else none
  applyFlags c e (gather rs)
  upd fun s => s.setCrew c (writeElems (s.crew c) dst wD (rs.map fun r => r.map (·.1)))
  advanceCtr c mode

def execVcvt (o : VFmt) (s : State) : Out :=
  runV o (.vcvt o) { nf := o.c % 16 == 9 } (cvtBody o) s

def qntBody (o : VFmt) (c : Nat) (e : Entry) : M Unit := do
  let nf ← needNf e
  let mode ← modeOf e o.rm
  let s ← get
  let k := s.crew c
  let dst := matOperand o e 1
  let ws := readWords k (matOperand o e 2)
  let (σ, codes, fl) := quantise ws nf mode fun i => vRandom mode k e dst 8 i
  applyFlags c e (orf fl (flagIf (ws.any isSCR) Flag.sx))
  upd fun s =>
    let k := writeElems (s.crew c) dst 8 (codes.map some)
    s.setCrew c { k with m := writeWords k.m (matOperand o e 3) 0 [some σ] }
  advanceCtr c mode

def execVqnt (o : VFmt) (s : State) : Out := runV o (.vqnt o) { nf := true } (qntBody o) s

def dqntBody (o : VFmt) (c : Nat) (e : Entry) : M Unit := do
  let nf ← needNf e
  let mode ← modeOf e o.rm
  let s ← get
  let k := s.crew c
  let dst := matOperand o e 1
  let codes := readElems k (matOperand o e 2) 8
  let σ := (readWords k (matOperand o e 3)).getD 0 0 % 1024
  let rs := (List.range 32).map fun i => dequantise nf (codes.getD i 0) σ .f32 mode (vRandom mode k e dst 32 i)
  applyFlags c e (allFlags rs)
  upd fun s => s.setCrew c (writeElems (s.crew c) dst 32 (rs.map fun r => some r.1))
  advanceCtr c mode

def execVdqnt (o : VFmt) (s : State) : Out := runV o (.vdqnt o) { nf := true } (dqntBody o) s

/-! ### Compare, select and masks (R256, R257) -/

/-- A comparison of two elements (R63, R256). -/
def compareElem (ef : EF) (cc a b : Nat) : Bool × Flags :=
  match ef with
  | .flt f =>
    if f == .f32 && (isSCR a || isSCR b) then
      let nv (x : Nat) : Bool := !isSCR x && (if cc ≤ 1 then f.isSNaN x else f.isNaN x)
      (false, orf Flag.sx (flagIf (nv a || nv b) Flag.nv))
    else fcompare f cc a b
  | .int w sg => (icompare w sg cc a b, 0)
  | .nf => (false, 0)

/-- Write a mask from the element results of a comparison (R246). -/
def compareBody (o : VFmt) (f : Crew → Nat → Nat → Bool × Flags) (c : Nat) (e : Entry) : M Unit := do
  let s ← get
  let k := s.crew c
  let w := vWidth o.fmt
  let as := readElems k (matOperand o e 2) w
  let bs := readElems k (matOperand o e 3) w
  let rs := (List.range o.count).map fun i =>
    if enabled k o.mg i then some (f k (as.getD i 0) (bs.getD i 0)) else none
  applyFlags c e (rs.foldl (fun a r => match r with
    | some x => orf a x.2
    | none => a) 0)
  upd fun s => s.setCrew c (writeMask (s.crew c) (maskOf o.d) o.count (rs.map fun r => r.map (·.1)))

def execVcmp (o : VFmt) (s : State) : Out :=
  runV o (.vcmp o) {} (compareBody o fun _ a b => compareElem (efOf o) (o.c % 16) a b) s

def execVsel (o : VFmt) (s : State) : Out :=
  runV o (.vsel o) {} (fun c e => do
    let s ← get
    let m := (s.crew c).w.getD (o.c % 8) 0
    elementwise c e o 0 fun i _ a b _ => (if m.getLsbD i then a else b, 0)) s

/-- An operation on whole masks (R257). -/
def maskOp (o : VFmt) (i : Instr) (f : BitVec 128 → BitVec 128 → BitVec 128) (s : State) : Out :=
  runV o i {} (fun c _ => upd fun s =>
    let k := s.crew c
    s.setCrew c { k with w := k.w.put (maskOf o.d) (f (k.w.getD (maskOf o.a) 0) (k.w.getD (maskOf o.b) 0)) 0 }) s

def execVmand (o : VFmt) (s : State) : Out := maskOp o (.vmand o) (· &&& ·) s
def execVmor (o : VFmt) (s : State) : Out := maskOp o (.vmor o) (· ||| ·) s
def execVmnot (o : VFmt) (s : State) : Out := maskOp o (.vmnot o) (fun a _ => ~~~ a) s

/-! ### Logic and bit operations (R258) -/

def execVand (o : VFmt) (s : State) : Out := vBits o (.vand o) (fun _ a b => a &&& b) s
def execVor (o : VFmt) (s : State) : Out := vBits o (.vor o) (fun _ a b => a ||| b) s
def execVxor (o : VFmt) (s : State) : Out := vBits o (.vxor o) (fun _ a b => a ^^^ b) s

def execVshl (o : VFmt) (s : State) : Out :=
  vBits o (.vshl o) (fun w a _ => if w ≤ o.c % 32 then 0 else a * 2 ^ (o.c % 32) % 2 ^ w) s

def execVshr (o : VFmt) (s : State) : Out :=
  vBits o (.vshr o) (fun w a _ => if w ≤ o.c % 32 then 0 else a / 2 ^ (o.c % 32)) s

def execVsar (o : VFmt) (s : State) : Out :=
  vBits o (.vsar o) (fun w a _ => wrapN (sext a w / (2 : Int) ^ min (o.c % 32) (w - 1)) w) s

def execVpopc (o : VFmt) (s : State) : Out := vBits o (.vpopc o) (fun w a _ => popCount a w) s
def execVclz (o : VFmt) (s : State) : Out := vBits o (.vclz o) (fun w a _ => leadZeros a w) s

/-! ### Reductions and scans (R63, R259-R261) -/

/-- Order of a reduction: `x` goes before `y` as least (op 1) or greatest. -/
def better (f : FFmt) (op x y : Nat) : Bool :=
  if op = 1 then (f.decode x).ltZ (f.decode y) else (f.decode y).ltZ (f.decode x)

/-- The best of encodings that are not NaN, the first among equals. -/
def bestOf (f : FFmt) (op : Nat) : List Nat → Option Nat
  | [] => none
  | x :: t =>
    match bestOf f op t with
    | none => some x
    | some y => some (if better f op y x then y else x)

/-- Minimum and maximum of floating elements (R259). -/
def reduceMinMax (f : FFmt) (op : Nat) (xs : List Nat) : Nat × Flags :=
  if xs.any f.isSNaN then (f.qnan, Flag.nv)
  else
    match bestOf f op (xs.filter fun x => !f.isNaN x) with
    | some x => (x, 0)
    | none => (if xs.isEmpty then f.infBits (op == 2) else f.qnan, 0)

/-- An exact sum of values of which some operands may be NaN, rounded once (R71). Both infinities beside a quiet NaN raise no NV
(log 118). -/
def sumF (f : FFmt) (mode rnd : Nat) (snan invalid : Bool) (vs : List Ex) : Nat × Flags :=
  let r := Ex.sum vs
  fresult f mode rnd (snan || invalid || (r.isNaN && !vs.any Ex.isNaN)) r

/-- A reduction of floating elements: op 0 add, 1 min, 2 max. A scratched operand raises SX, and a signalling NaN beside it
NV (R46, R63). -/
def reduceF (f : FFmt) (op mode rnd : Nat) (xs : List Nat) : Nat × Flags :=
  if f == .f32 && xs.any isSCR then (f.qnan, orf Flag.sx (flagIf (xs.any (signals f)) Flag.nv))
  else if op = 0 then sumF f mode rnd (xs.any f.isSNaN) false (xs.map f.decode)
  else reduceMinMax f op xs

/-- A reduction of integer elements. -/
def reduceI (w : Nat) (sg : Bool) (op rm : Nat) (xs : List Nat) : Nat :=
  let vs := xs.map (ival w sg)
  if op = 0 then iresult w sg rm (vs.foldl (· + ·) 0)
  else
    match vs with
    | [] => satN (if op = 1 then (2 : Int) ^ 200 else -(2 : Int) ^ 200) w sg
    | v :: t => wrapN (t.foldl (fun a x => if (if op = 1 then x < a else a < x) then x else a) v) w

def reduce (o : VFmt) (mode rnd : Nat) (xs : List Nat) : Nat × Flags :=
  match efOf o with
  | .flt f => reduceF f (o.c % 4) mode rnd xs
  | .int w sg => (reduceI w sg (o.c % 4) o.rm xs, 0)
  | .nf => (0, 0)

/-- The enabled elements of A, with their indexes. -/
def enabledElems (k : Crew) (e : Entry) (o : VFmt) : List (Nat × Nat) :=
  ((readElems k (matOperand o e 2) (vWidth o.fmt)).zipIdx.map fun (v, i) => (i, v)).filter fun p => enabled k o.mg p.1

def redBody (o : VFmt) (c : Nat) (e : Entry) : M Unit := do
  let mode ← vMode o e
  let s ← get
  let k := s.crew c
  let w := vWidth o.fmt
  let dst := matOperand o e 1
  let r := reduce o mode (vRandom mode k e dst w 0) ((enabledElems k e o).map (·.2))
  applyFlags c e r.2
  upd fun s => s.setCrew c (writeElems (s.crew c) dst w [some r.1])
  advanceCtr c mode

def execVred (o : VFmt) (s : State) : Out := runV o (.vred o) {} (redBody o) s

def scanBody (o : VFmt) (c : Nat) (e : Entry) : M Unit := do
  let mode ← vMode o e
  let s ← get
  let k := s.crew c
  let w := vWidth o.fmt
  let dst := matOperand o e 1
  let es := enabledElems k e o
  let rs := (List.range o.count).map fun i =>
    if enabled k o.mg i then
      some (reduce o mode (vRandom mode k e dst w i) ((es.filter fun p => p.1 ≤ i).map (·.2)))
    else none
  applyFlags c e (gather rs)
  upd fun s => s.setCrew c (writeElems (s.crew c) dst w (rs.map fun r => r.map (·.1)))
  advanceCtr c mode

def execVscan (o : VFmt) (s : State) : Out := runV o (.vscan o) {} (scanBody o) s

/-- The dot product of enabled elements (R260). -/
def dotOf (o : VFmt) (mode rnd : Nat) (ps : List (Nat × Nat)) : Nat × Flags :=
  match efOf o with
  | .flt f =>
    let bad (p : Nat × Nat) : Bool := ((f.decode p.1).mul (f.decode p.2)).isNaN && !f.isNaN p.1 && !f.isNaN p.2
    if f == .f32 && ps.any fun p => isSCR p.1 || isSCR p.2 then
      (FFmt.f32.qnan, orf Flag.sx (flagIf (ps.any fun p => signals f p.1 || signals f p.2 || bad p) Flag.nv))
    else
      sumF .f32 mode rnd (ps.any fun p => f.isSNaN p.1 || f.isSNaN p.2) (ps.any bad)
        (ps.map fun p => (f.decode p.1).mul (f.decode p.2))
  | .int w sg => (iresult 32 sg o.rm (ps.foldl (fun a p => a + ival w sg p.1 * ival w sg p.2) 0), 0)
  | .nf => (0, 0)

def dotBody (o : VFmt) (c : Nat) (e : Entry) : M Unit := do
  let mode ← vMode o e
  let s ← get
  let k := s.crew c
  let w := vWidth o.fmt
  let dst := matOperand o e 1
  let bs := readElems k (matOperand o e 3) w
  let r := dotOf o mode (vRandom mode k e dst 32 0) ((enabledElems k e o).map fun p => (p.2, bs.getD p.1 0))
  applyFlags c e r.2
  upd fun s => s.setCrew c (writeElems (s.crew c) dst 32 [some r.1])
  advanceCtr c mode

def execVdot (o : VFmt) (s : State) : Out := runV o (.vdot o) {} (dotBody o) s

/-- The element VMINX or VMAXX selects: value, index, flags (R261). -/
def selectExtreme (ef : EF) (op : Nat) (es : List (Nat × Nat)) : Nat × Nat × Flags :=
  let none_ := 0xFFFFFFFF
  let xs := es.map (·.2)
  match ef with
  | .flt f =>
    if f == .f32 && xs.any isSCR then (f.qnan, none_, orf Flag.sx (flagIf (xs.any (signals f)) Flag.nv))
    else
      let r := reduceMinMax f op xs
      if r.2 ≠ 0 then (r.1, none_, r.2)
      else
        match es.find? fun p => !f.isNaN p.2 && p.2 == r.1 with
        | some p => (p.2, p.1, 0)
        | none => (r.1, none_, 0)
  | .int w sg =>
    let r := reduceI w sg op 0 xs
    match es.find? fun p => p.2 == r with
    | some p => (p.2, p.1, 0)
    | none => (r, none_, 0)
  | .nf => (0, none_, 0)

def extremeBody (o : VFmt) (op c : Nat) (e : Entry) : M Unit := do
  let s ← get
  let k := s.crew c
  let (v, i, fl) := selectExtreme (efOf o) op (enabledElems k e o)
  applyFlags c e fl
  upd fun s => s.setCrew c (writeElems (s.crew c) (matOperand o e 1) 32 [some v, some i])

def execVminx (o : VFmt) (s : State) : Out := runV o (.vminx o) {} (extremeBody o 1) s
def execVmaxx (o : VFmt) (s : State) : Out := runV o (.vmaxx o) {} (extremeBody o 2) s

/-! ### Movement (R262) -/

def execVmov (o : VFmt) (s : State) : Out := vBits o (.vmov o) (fun _ a _ => a) s

def execVbcast (o : VFmt) (s : State) : Out :=
  runV o (.vbcast o) { scal := true } (fun c e =>
    elementwise c e o 0 fun _ _ _ _ _ => (e.sval.toNat % 2 ^ vWidth o.fmt, 0)) s

def execVget (o : VFmt) (s : State) : Out :=
  runV o (.vget o) { get := true } (fun c e => do
    let s ← get
    let v := (readElems (s.crew c) (matOperand o e 2) (vWidth o.fmt)).getD (o.c % 128) 0
    updScalar (.crew c) (·.write o.d (BitVec.ofNat 64 v))) s

def execVset (o : VFmt) (s : State) : Out :=
  runV o (.vset o) { scal := true } (fun c e => upd fun s =>
    let w := vWidth o.fmt
    s.setCrew c (writeElems (s.crew c) (matOperand o e 1) w
      ((List.range o.count).map fun i => if i = o.c % 128 then some (e.sval.toNat % 2 ^ w) else none))) s

def execVperm (o : VFmt) (s : State) : Out :=
  runV o (.vperm o) {} (fun c e => do
    let s ← get
    let as := readElems (s.crew c) (matOperand o e 2) (vWidth o.fmt)
    elementwise c e o 0 fun _ _ _ b _ => (as.getD (b % o.count) 0, 0)) s

/-! ### Queue movement (R263, R264) -/

/-- The words of an entry. -/
def wordsOf : List Byte → List Nat
  | a :: b :: c :: d :: t => leNat [a, b, c, d] :: wordsOf t
  | _ => []

/-- Write an entry's words into an operand, and past 32 words into the operand of the next index. -/
def putEntry (k : Crew) (o : MatOp) (ws : List Nat) : Crew :=
  let m := writeWords k.m o 0 ((ws.take 32).map some)
  { k with m := writeWords m (o.shift 1) 0 ((ws.drop 32).map some) }

def execVpop (o : VFmt) (s : State) : Out :=
  runV o (.vpop o) {} (fun c e => do
    let v ← getQueue c o.a
    let x ← popQueue c o.a 2 v.width
    if x.p then throw (.trapKeep (queueExc 20 o.a))
    upd fun s => s.setCrew c (putEntry (s.crew c) (matOperand o e 1) (wordsOf x.data))) s

def execVpush (o : VFmt) (s : State) : Out :=
  runV o (.vpush o) {} (fun c e => do
    let v ← getQueue c o.d
    let s ← get
    let src := matOperand o e 2
    let ws := readWords (s.crew c) src ++ readWords (s.crew c) (src.shift 1)
    let bs := (ws.take (entryBytes v.width / 4)).flatMap (leBytes 4)
    pushQueue c o.d 2 v.width { data := bs, h := bit o.c 1, t := bit o.c 0 }) s

/-! ### Verdict-aware instructions (R265-R267) -/

/-- Whether a list entry goes before another: value descending, then identifier ascending. -/
def goesBefore (x y : Nat × Nat) : Bool :=
  let a := FFmt.f32.decode x.1
  let b := FFmt.f32.decode y.1
  b.ltZ a || (!a.ltZ b && x.2 < y.2)

/-- Insert after everything it does not go before. -/
def rankIn (x : Nat × Nat) : List (Nat × Nat) → List (Nat × Nat)
  | [] => [x]
  | y :: t => if goesBefore x y then x :: y :: t else y :: rankIn x t

/-- Insert the entries whose value is a NaN, whose place R265 does not state, at free places. -/
def placeFree (l : List (Nat × Nat)) : List (Nat × Nat) → M (List (Nat × Nat))
  | [] => return l
  | x :: t => do
    let k ← pick 0 l.length
    placeFree (l.take k ++ [x] ++ l.drop k) t

/-- Word `j` of VTOPK's list, of values (`part` 0) or identifiers (`part` 1). -/
def topkWord (o : MatOp) (j part : Nat) : Nat := (o.shift (2 * (j / 32) + part)).at (j % 32)

def topkBody (o : VFmt) (c : Nat) (e : Entry) : M Unit := do
  let s ← get
  let k := s.crew c
  let n := o.c % 128
  let dst := matOperand o e 1
  let bs := readWords k (matOperand o e 3)
  let cands := (enabledElems k e o).map fun p => (p.2, bs.getD p.1 0)
  let isNaN (x : Nat × Nat) : Bool := FFmt.f32.isNaN x.1
  let word (j part : Nat) : Nat := (k.m.getD (topkWord dst j part) 0).toNat
  let cur := (List.range n).map fun j => (word j 0, word j 1)
  let ranked := ((cur ++ cands).filter fun x => !isNaN x).foldl (fun l x => rankIn x l) []
  let all ← placeFree ranked (cur.filter isNaN)
  applyFlags c e (flagIf (cands.any fun x => FFmt.f32.isSNaN x.1 && !isSCR x.1) Flag.nv)
  upd fun s =>
    let k := s.crew c
    let m := (all.take n).zipIdx.foldl (fun (m : Tbl (BitVec 32)) (x, j) =>
      (m.put (topkWord dst j 0) (BitVec.ofNat 32 x.1) 0).put (topkWord dst j 1) (BitVec.ofNat 32 x.2) 0) k.m
    s.setCrew c { k with m := m }

def execVtopk (o : VFmt) (s : State) : Out := runV o (.vtopk o) {} (topkBody o) s

/-- The truth of a condition for a value strictly above, or strictly below, the other. -/
def strictly (above : Bool) (cc : Nat) : Bool :=
  if cc = 0 then false else if cc = 1 then true else if cc ≤ 3 then !above else above

/-- VCMPV of one element (R266). -/
def compareVerdict (cc h x : Nat) : Bool × Flags :=
  if !isSCR x then fcompare .f32 cc x h
  else
    let reason := bits x 19 16
    let v := x % 2 == 1
    if reason = 1 ∨ reason = 3 then (strictly v cc, 0)
    else if reason = 2 then (strictly (!v) cc, 0)
    else if reason = 0 ∧ h % 2 ^ 31 = 0 then (strictly v cc, 0)
    else (false, Flag.nv)

def execVcmpv (o : VFmt) (s : State) : Out :=
  runV o (.vcmpv o) { thr := true } (compareBody o fun k x _ => compareVerdict (o.c % 16) (k.thr (o.b / 128)) x) s

def execVselv (o : VFmt) (s : State) : Out := vBits o (.vselv o) (fun _ a b => if isSCR a then b else a) s

end Sys2Proof.Machine
end

