-- ==== Sys2Proof/Machine/Sweep.lean ====
section
/-! DEFINITION. The Sweep fabric: sections, tokens, channels, commits, rewinds and context faults (R328-R335, R345-R356,
R359, R360). -/

namespace Sys2Proof.Machine

/-! ### Images (R357) -/

namespace Section

def origin (x : Section) : Nat × Nat := (fieldAt x.image 8 1, fieldAt x.image 9 1)
def rows (x : Section) : Nat := fieldAt x.image 10 1
def cols (x : Section) : Nat := fieldAt x.image 11 1
def interval (x : Section) : Nat := fieldAt x.image 12 1
def slots (x : Section) : Nat := fieldAt x.image 13 1
def handB (x : Section) : Nat := fieldAt x.image 14 2
def scope (x : Section) (sub : Nat) : Nat := fieldAt x.image (16 + sub) 1
def handTo (x : Section) : Nat := fieldAt x.image 24 1
def size (x : Section) : Nat := x.rows * x.cols
/-- Descriptor of a slot. -/
def slot (x : Section) (n : Nat) : List Byte := (x.image.drop (64 + 64 * n)).take 64
def recAt (x : Section) (el : Nat) : Nat := 64 + 64 * x.slots + 16 * el

end Section

/-- An element record. -/
structure ERec where
  ins : List Nat
  ctl : Nat
  imm : Nat
  deriving DecidableEq, Repr, Inhabited

def Section.record (x : Section) (el : Nat) : ERec :=
  let a := x.recAt el
  { ins := [0, 2, 4, 6].map fun o => fieldAt x.image (a + o) 2, ctl := fieldAt x.image (a + 8) 4
    imm := fieldAt x.image (a + 12) 4 }

namespace ERec

def op (r : ERec) : Nat := bits r.ctl 5 0
def fmt (r : ERec) : Nat := bits r.ctl 9 6
def lan (r : ERec) : Bool := bit r.ctl 10
def rnd (r : ERec) : Nat := bits r.ctl 13 11
def reg (r : ERec) : Nat := bits r.ctl 15 14
def subg (r : ERec) : Nat := bits r.ctl 18 16
def param (r : ERec) : Nat := bits r.ctl 31 19
def input (r : ERec) (i : Nat) : Nat := r.ins.getD i 0
def uses (r : ERec) (i : Nat) : Bool := bit (r.input i) 15
def predIn (r : ERec) (i : Nat) : Bool := bit (r.input i) 14
def portIn (r : ERec) (i : Nat) : Nat := bits (r.input i) 13 12
def srcIn (r : ERec) (i : Nat) : Nat := bits (r.input i) 11 0
def usedInputs (r : ERec) : List Nat := [0, 1, 2, 3].filter r.uses

/-- Sources of a section's tiles (R346). -/
def isSource (r : ERec) : Bool :=
  r.op == 1 || (r.op == 3 && (bits r.param 4 3 == 2 || (bits r.param 4 3 == 0 && !r.uses 0)))

def isWriter (r : ERec) : Bool := r.op == 3 && bits r.param 4 3 == 1

/-- Consumers of markers (R348). -/
def isSink (r : ERec) : Bool := r.op == 2 || r.isWriter

end ERec

/-- The input an output port of an element feeds. -/
def Section.dest (x : Section) (el port : Nat) : Option (Nat × Nat) :=
  (List.range x.size).findSome? fun e =>
    ([0, 1, 2, 3].find? fun i =>
      (x.record e).uses i && (x.record e).srcIn i == el && (x.record e).portIn i == port).map fun i => (e, i)

def Section.hasOutput (x : Section) (el : Nat) : Bool := [0, 1, 2, 3].any fun p => (x.dest el p).isSome

/-! ### Queues of elements (R333) -/

def Section.queue (x : Section) (el i : Nat) : List Tok := x.inq.getD (el * 4 + i) []
def Section.setQueue (x : Section) (el i : Nat) (l : List Tok) : Section := { x with inq := x.inq.put (el * 4 + i) l [] }
def Section.elem (x : Section) (el : Nat) : ElemState :=
  match x.elems.find? el with
  | some e => e
  | none => { nums := if (x.record el).op = 0x1E then List.replicate (bits (x.record el).param 3 0) (x.record el).imm
                      else if (x.record el).op = 0x1A then [(x.record el).imm] else [] }
def Section.setElem (x : Section) (el : Nat) (e : ElemState) : Section := { x with elems := x.elems.insert el e }

/-- Row and column of an element in the fabric. -/
def Section.place (x : Section) (el : Nat) : Nat × Nat := (x.origin.1 + el / x.cols, x.origin.2 + el % x.cols)

/-- Input entries a section takes of the fabric's element at a place: at least one for each used input. -/
def Section.entriesAt (x : Section) (p : Nat × Nat) : Nat :=
  let (r, c) := p
  if x.origin.1 ≤ r ∧ r < x.origin.1 + x.rows ∧ x.origin.2 ≤ c ∧ c < x.origin.2 + x.cols then
    let el := (r - x.origin.1) * x.cols + (c - x.origin.2)
    ((x.record el).usedInputs.map fun i => max 1 (x.queue el i).length).foldl (· + ·) 0
  else 0

/-- Input entries in use at a place of a cluster's fabric. -/
def entriesUsed (s : State) (cl : Nat) (p : Nat × Nat) : Nat :=
  ((s.cluster cl).slots.map fun e =>
    ((s.crew e.2).sections.map fun y => y.2.entriesAt p).foldl (· + ·) 0).foldl (· + ·) 0

/-- Whether an output port can emit one token: it feeds nothing, or its destination queue has a free entry. -/
def portFree (s : State) (cl : Nat) (x : Section) (el port : Nat) : Bool :=
  match x.dest el port with
  | none => true
  | some (e, i) =>
    let n := (x.queue e i).length
    n == 0 || (n < 8 && entriesUsed s cl (x.place e) < 32)

/-- The state with a section of a crew in it. -/
def State.putSection (s : State) (c sec : Nat) (x : Section) : State :=
  s.setCrew c { s.crew c with sections := (s.crew c).sections.insert sec x }

/-- Put tokens on output ports. -/
def Section.emit (x : Section) (el : Nat) : List (Nat × Tok) → Section
  | [] => x
  | (port, t) :: rest =>
    (match x.dest el port with
      | some (e, i) => x.setQueue e i (x.queue e i ++ [t])
      | none => x).emit el rest

/-- Whether an element can emit all of some tokens: each finds an entry free once those before it have theirs (R333, R334). -/
def canEmit (s : State) (c sec : Nat) (x : Section) (el : Nat) : List (Nat × Tok) → Bool
  | [] => true
  | [o] => portFree s (s.crew c).cl x el o.1
  | o :: t => portFree s (s.crew c).cl x el o.1 && canEmit (s.putSection c sec (x.emit el [o])) c sec (x.emit el [o]) el t

/-! ### Turns of the contexts at an element (R328) -/

/-- The element of a section at a place of the fabric, where it holds an operation. -/
def Section.holds (x : Section) (p : Nat × Nat) : Bool :=
  let (r, c) := p
  decide (x.origin.1 ≤ r ∧ r < x.origin.1 + x.rows ∧ x.origin.2 ≤ c ∧ c < x.origin.2 + x.cols) &&
  (x.record ((r - x.origin.1) * x.cols + (c - x.origin.2))).op != 0

/-- Slots of a cluster whose crew holds an operation at a place. -/
def holders (s : State) (cl : Nat) (p : Nat × Nat) : List Nat :=
  ((s.cluster cl).slots.filter fun e =>
    (s.crew e.2).stage == .resident && (s.crew e.2).sections.any fun y => y.2.holds p).map (·.1)

def placeKey (p : Nat × Nat) : Nat := p.1 * 64 + p.2

/-- The slots that come before a context's at an element, from the one after the last that fired there, of those that hold an
operation (R328). -/
def slotsBefore (s : State) (cl slot : Nat) (p : Nat × Nat) : List Nat :=
  let h := holders s cl p
  (((List.range 4).map fun i => ((s.cluster cl).fired.getD (placeKey p) 0 + i) % 4).takeWhile (· != slot)).filter h.contains

/-- A context has fired at an element. -/
def tookSlot (s : State) (cl slot : Nat) (p : Nat × Nat) : State :=
  let v := s.cluster cl
  s.setCluster cl { v with fired := v.fired.put (placeKey p) (slot + 1) 0 }

/-- Take the head tokens of some inputs. -/
def Section.consume (x : Section) (el : Nat) : List Nat → Section
  | [] => x
  | i :: t => (x.setQueue el i ((x.queue el i).drop 1)).consume el t

def getSection (c sec : Nat) : M (Option Section) := do
  let s ← get
  return (s.crew c).sections.find? sec

def setSection (c sec : Nat) (x : Section) : M Unit := upd fun s => s.putSection c sec x

/-- OR flags into `FSTAT` (R337). -/
def orFstat (c : Nat) (fl : Flags) : M Unit :=
  upd fun s => let k := s.crew c
    s.setCrew c { k with fstat := k.fstat ||| BitVec.ofNat 64 (fl % 1024) }

/-! ### Rewinding and faults (R154, R354, R360) -/

/-- Queue positions of a section's sources and sinks since its last commit. -/
def Section.movedSince (x : Section) (el : Nat) : Nat := (x.elem el).moved - (x.base.getD el {}).moved

/-- Undo a section's pops and held pushes on the crew's queues. -/
def rewindQueues (k : Crew) (x : Section) : Crew :=
  (List.range x.size).foldl (fun k el =>
    let r := x.record el
    let q := bits r.param 5 0
    let v := k.queues.getD q {}
    if r.op = 1 then
      { k with queues := k.queues.put q v.rewound {} }
    else if r.op = 2 then { k with queues := k.queues.put q { v with held := [] } {} }
    else k) k

/-- An element's state at the last commit: its sources begin the first tile not committed. -/
def atCommit (committed : Nat) (e : ElemState) : ElemState :=
  { e with begun := committed, ended := committed, ends := [], out := [], mark := none }

/-- Element states at the last commit, with those of the sources that have no checkpoint yet. -/
def Section.restart (x : Section) : Tbl ElemState :=
  let fresh := (List.range x.size).filter fun el => x.committed != 0 && (x.record el).isSource && (x.base.find? el).isNone
  fresh.foldl (fun t el => t.insert el (atCommit x.committed {})) (Tbl.mapVals (atCommit x.committed) x.base)

/-- Rewind a section to its last commit (R354). -/
def Section.rewound (x : Section) : Section :=
  { x with log := [], inq := [], elems := x.restart, ckpts := [], widened := [] }

/-- Rewind a section of a crew. -/
def rewindSection (k : Crew) (sec : Nat) : Crew :=
  match k.sections.find? sec with
  | none => k
  | some x =>
    let k := rewindQueues k x
    { k with sections := k.sections.insert sec x.rewound }

/-- Rewind every section of a crew. What an FCOMMIT waited for and a load in progress are dropped (R154, R242). -/
def rewindCrew (k : Crew) : Crew :=
  let k := (k.sections.map (·.1)).foldl rewindSection k
  { k with loading := none, sections := Tbl.mapVals (fun x : Section => { x with wanted := none }) k.sections }

/-- What the save area keeps of a crew's sections on pre-emption: no request and no abort stands (R354). -/
def forgetRequests (k : Crew) : Crew :=
  { k with sections := Tbl.mapVals (fun x : Section => { x with due := [], aborted := none }) k.sections }

/-- A context fault (R359, R360): every section stops and rewinds, and S will take the fabric exception. -/
def contextFault (c sec el reason : Nat) : M Unit := upd fun s =>
  let k := rewindCrew (s.crew c)
  let f := bits k.fstat.toNat 31 0 + reason * 2 ^ 32 + sec * 2 ^ 46 + el * 2 ^ 52
  let k := { k with
    fstat := BitVec.ofNat 64 f
    sections := k.sections.map fun e => (e.1, { e.2 with armed := e.2.committed }) }
  let s := s.setCrew c k
  if k.posted.any (fun p => p.stream == 8) then s
  else postException s c { stream := 8, exc := { cause := 24, info := BitVec.ofNat 64 f }, pc := k.sc.pc, resume := k.sc.pc }

/-! ### Commits (R107, R153, R350-R352) -/

/-- The state an element recorded for a marker. -/
def Section.ckpt (x : Section) (el k : Nat) : Option ElemState :=
  (x.ckpts.find? fun e => e.1 == el && e.2.1 == k).map fun e => e.2.2

/-- Whether marker `k` has been consumed by every sink of the section (R350, R351). -/
def Section.mayCommit (x : Section) (k : Nat) : Bool :=
  let els := List.range x.size
  let sinks := els.filter fun e => (x.record e).isSink
  if sinks.isEmpty then els.any fun e => (x.record e).op != 0 && !x.hasOutput e && (x.ckpt e k).isSome
  else sinks.all fun e => (x.ckpt e k).isSome

/-- Entries a source or sink of a section had moved, since load, before a marker: up to its checkpoint, or up to the end of that
tile where a source ended it without the marker (R350); all of them, where the tile or the marker is still to come. -/
def Section.movedAt (x : Section) (el m : Nat) : Nat :=
  match x.ckpt el m with
  | some e => e.moved
  | none => (x.elem el).ends.getD m (x.elem el).moved

def Section.movedBefore (x : Section) (el m : Nat) : Nat := x.movedAt el m - (x.base.getD el {}).moved

/-- Free the replay windows and release the held pushes made before a marker (R350). -/
def commitQueues (k : Crew) (x : Section) (m : Nat) : Crew :=
  (List.range x.size).foldl (fun k el =>
    let r := x.record el
    let q := bits r.param 5 0
    let v := k.queues.getD q {}
    let n := x.movedBefore el m
    if r.op = 1 then { k with queues := k.queues.put q { v with window := v.window.drop n } {} }
    else if r.op = 2 then
      { k with queues := k.queues.put q ((v.held.take n).foldl Queue.arrive { v with held := v.held.drop n }) {} }
    else k) k

/-- Write the logged bytes of one write: a bank's at once, memory's as a write of the cluster half published at the
subgraph's scope (R107, R345), whose name the subgraph's later `WIDEN` tokens release (R128). -/
def applyLogged (c sec : Nat) (w : Logged) (s : State) : State :=
  if w.bank then
    let k := s.crew c
    s.setCrew c (spWrite k w.cells)
  else
    let id := s.nextId
    let s := runM (writeCells (.half c) w.cells) s
    let s := releaseNames s (.half c) w.scope [id]
    match (s.crew c).sections.find? sec with
    | none => s
    | some x =>
      let sub := (x.record w.el).subg
      s.putSection c sec { x with sunk := x.sunk.put sub (x.sunk.getD sub [] ++ [id]) [] }

/-- A logged write of memory would go to a page whose translation has been revoked (R463). -/
def loggedRevoked (s : State) (w : Logged) : Bool :=
  match w.needs with
  | none => false
  | some hs => !s.pins.any fun p => hs.contains p.handle && !p.revoked

/-- Hand over the banks named in HANDB that a section holds (R101, R350); HANDTO may name a section that holds no
configuration (log 83). -/
def handBanks (k : Crew) (sec : Nat) (x : Section) : Crew :=
  (List.range 10).foldl (fun k b =>
    if bit x.handB b && k.banks.getD b 0 == sec + 1 then
      { k with banks := k.banks.put b (if x.handTo = 0xFF then 0 else x.handTo + 1) 0 }
    else k) k

/-- Element states that stand for a committed marker: the checkpoints of it replace earlier ones (R350), and a queue's source
that it is still to reach has its place in the queue. -/
def Section.baseAt (x : Section) (m : Nat) : Tbl ElemState :=
  let marks := x.ckpts.filter fun e => e.2.1 == m
  let base := marks.foldl (fun (t : Tbl ElemState) e => t.insert e.1 e.2.2) x.base
  let late := (List.range x.size).filter fun el => (x.record el).op == 1 && (x.ckpt el m).isNone
  late.foldl (fun t el => t.insert el { (t.getD el {}) with moved := x.movedAt el m }) base

/-- Commit marker `m` of a section (R350); a write logged for a page since revoked is a context fault, and nothing commits
(R463, log 85). -/
def commitSection (c sec m : Nat) : M Unit := do
  match ← getSection c sec with
  | none => pure ()
  | some x =>
    let before (w : Logged) : Bool := w.seq < ((x.ckpt w.el m).getD {}).moved
    let s ← get
    match (x.log.filter before).find? (loggedRevoked s) with
    | some w => contextFault c sec w.el 3
    | none =>
      upd fun s => s.setCrew c (commitQueues (s.crew c) x m)
      upd fun s => (x.log.filter before).foldl (fun s w => applyLogged c sec w s) s
      let x' := { x with
        committed := m, aborted := none
        elems := Tbl.mapVals (fun e : ElemState => { e with ends := e.ends.filter fun t => m < t.1 }) x.elems
        log := x.log.filter fun w => !before w
        base := x.baseAt m
        ckpts := x.ckpts.filter fun e => e.2.1 != m
        due := x.due.filter fun k => m < k
        sunk := ((← getSection c sec).getD x).sunk }
      setSection c sec x'
      if m = x'.armed then upd fun s => s.setCrew c (handBanks (s.crew c) sec x')

/-- Record an element's checkpoint for a marker, and commit the marker where it is due to be (R349, R350). -/
def recordMarker (c sec el m : Nat) : M Unit := do
  match ← getSection c sec with
  | none => pure ()
  | some x =>
    let st := x.elem el
    if m ≤ x.committed then
      if (x.record el).op = 1 then
        let q := bits (x.record el).param 5 0
        let v ← getQueue c q
        setQueue c q { v with window := v.window.drop (x.movedSince el) }
      setSection c sec { x with base := x.base.insert el st }
    else
      let x' := { x with ckpts := x.ckpts ++ [(el, m, st)] }
      setSection c sec x'
      if x'.mayCommit m then commitSection c sec m

/-- Markers an element has forwarded and that are not committed (R348). -/
def Section.waitingMarks (x : Section) (el : Nat) : Nat := (x.ckpts.filter fun e => e.1 == el).length

/-- Whether a tile is due at the moment its source ends it (R347). -/
def Section.isDue (x : Section) (k : Nat) : Bool :=
  (x.interval != 0 && k % x.interval == 0) || k == x.armed || x.due.contains k

/-- The lowest tile index no source has ended: what a request makes due (R352). -/
def Section.nextDue (x : Section) : Nat :=
  let ended := ((List.range x.size).filter fun e => (x.record e).isSource).map fun e => (x.elem e).ended
  ended.foldl max x.committed + 1

/-- Some tile has been begun and is not committed. -/
def Section.hasWork (x : Section) : Bool :=
  (List.range x.size).any fun e => (x.record e).isSource && x.committed < (x.elem e).begun

end Sys2Proof.Machine
end

