-- ==== Sys2Proof/Machine/Elements.lean ====
section
/-! DEFINITION. Element operations of the Sweep fabric, markers, and the alignment abort (R334-R344, R348, R353). -/

namespace Sys2Proof.Machine

/-! ### Firing (R334-R336) -/

/-- What a firing comes to: nothing yet, a context fault, or inputs taken, tokens emitted, a new state and flags. -/
inductive Fired where
  | wait
  | fault (reason : Nat)
  | go (take : List Nat) (outs : List (Nat × Tok)) (st : ElemState) (fl : Flags)
  deriving DecidableEq, Repr, Inhabited

/-- The element an event names. -/
structure ElemRef where
  c : Nat
  sec : Nat
  el : Nat
  deriving DecidableEq, Repr, Inhabited

def portIsFree (a : ElemRef) (x : Section) (port : Nat) : M Bool := do
  let s ← get
  return portFree s (s.crew a.c).cl x a.el port

/-- Consume, emit and keep the new state. -/
def applyFiring (a : ElemRef) (take : List Nat) (outs : List (Nat × Tok)) (st : ElemState) (fl : Flags) : M Unit := do
  match ← getSection a.c a.sec with
  | none => pure ()
  | some x =>
    setSection a.c a.sec (((x.consume a.el take).emit a.el outs).setElem a.el st)
    if fl ≠ 0 then orFstat a.c fl

def Tok.tag : Tok → Nat
  | .data _ t _ _ _ => t
  | .pred _ t => t
  | .marker _ => 0

def Tok.isMarker : Tok → Bool
  | .marker _ => true
  | _ => false

def Tok.bits : Tok → Nat
  | .data w _ _ _ _ => w.toNat
  | _ => 0

def Tok.truth : Tok → Bool
  | .pred v _ => v
  | _ => true

def Tok.tail : Tok → Bool
  | .data _ _ _ t _ => t
  | _ => false

def Tok.headMark : Tok → Bool
  | .data _ _ h _ _ => h
  | _ => false

def Tok.eod : Tok → Nat
  | .data _ _ _ _ e => e
  | _ => 0

/-- The token with other data. -/
def Tok.withData (t : Tok) (w : Nat) : Tok := .data (BitVec.ofNat 32 w) t.tag t.headMark t.tail t.eod

def headOf (x : Section) (el i : Nat) : Option Tok := (x.queue el i).head?

/-- The head of an input, if it is a token that a firing can use. -/
def ready (x : Section) (el i : Nat) : Option Tok := (headOf x el i).filter fun t => !t.isMarker

/-- An operation that uses one token of every used input: their tags agree, a false guard absorbs them (R335, R336). -/
def simple (guardable : Bool)
    (f : Section → ERec → ElemState → (Nat → Tok) → List (Nat × Tok) × ElemState × Flags) (a : ElemRef) (x : Section) :
    M Fired :=
  let r := x.record a.el
  let used := r.usedInputs
  let toks := used.map fun i => ready x a.el i
  if used.isEmpty || toks.any (·.isNone) then return .wait
  else
    let tok (i : Nat) : Tok := (ready x a.el i).getD (.pred true 0)
    let tags := used.map fun i => (tok i).tag
    if tags.any fun t => t != tags.headD 0 then return .fault 1
    else
      let st := x.elem a.el
      if guardable && r.uses 3 && !(tok 3).truth then return .go used [] st 0
      else
        let (outs, st', fl) := f x r st tok
        return .go used outs st' fl

/-! ### Arithmetic elements (R337, R338) -/

/-- The rounding code of an element (R337). -/
def roundCode (x : Section) (r : ERec) : Nat := if r.rnd = 5 then x.drm else r.rnd

def fmtOf (r : ERec) : EF := (EF.ofCode r.fmt).getD (.flt .f32)

/-- The second operand: `in1`, or IMM where it is unused. -/
def operandB (r : ERec) (tok : Nat → Tok) : Nat := if r.uses 1 then (tok 1).bits else r.imm

/-- One value of an arithmetic, bitwise or shift operation in an element format. -/
def elemOp (code : Nat) (ef : EF) (mode rm a b c : Nat) : Nat × Flags :=
  let w := ef.width
  let a := a % 2 ^ w
  let n := b % 32
  let b := b % 2 ^ w
  let c := c % 2 ^ w
  match code with
  | 0x0A => (a &&& b, 0)
  | 0x0B => (a ||| b, 0)
  | 0x0C => (a ^^^ b, 0)
  | 0x0D => (if w ≤ n then 0 else a * 2 ^ n % 2 ^ w, 0)
  | 0x0E => (if w ≤ n then 0 else a / 2 ^ n, 0)
  | 0x0F => (wrapN (sext a w / (2 : Int) ^ min n (w - 1)) w, 0)
  | _ =>
    match ef with
    | .flt f =>
      match code with
      | 0x04 => faddF f mode 0 false a b
      | 0x05 => faddF f mode 0 true a b
      | 0x06 => fmulF f mode 0 a b
      | 0x07 => fmaF f mode 0 false false a b c
      | 0x08 => ordinary f [a, b] (fminmax f false a b)
      | _ => ordinary f [a, b] (fminmax f true a b)
    | .int w sg =>
      let p := ival w sg a
      let q := ival w sg b
      match code with
      | 0x04 => (iresult w sg rm (p + q), 0)
      | 0x05 => (iresult w sg rm (p - q), 0)
      | 0x06 => (iresult w sg rm (p * q), 0)
      | 0x07 => (iresult w sg rm (p * q + ival w sg c), 0)
      | 0x08 => (if q < p then b else a, 0)
      | _ => (if p < q then b else a, 0)
    | .nf => (0, 0)

/-- The operation on a token's data: one value, or four 8-bit lanes. -/
def elemData (code : Nat) (x : Section) (r : ERec) (a b c : Nat) : Nat × Flags :=
  let mode := roundCode x r
  if r.lan then
    let lane (v l : Nat) : Nat := v / 2 ^ (8 * l) % 256
    let rs := [0, 1, 2, 3].map fun l => elemOp code (fmtOf r) mode r.rnd (lane a l) (lane b l) (lane c l)
    ((rs.zipIdx.map fun (v, l) => v.1 * 2 ^ (8 * l)).foldl (· + ·) 0, allFlags rs)
  else elemOp code (fmtOf r) mode r.rnd a b c

/-- ADD to SAR. -/
def arithBody (code : Nat) : ElemRef → Section → M Fired := simple true fun x r st tok =>
  let (v, fl) := elemData code x r (tok 0).bits (operandB r tok) (tok 2).bits
  ([(0, (tok 0).withData v)], st, fl)

/-- The comparison of CMP: R256 for floating formats, R201 on the decoded values for integer formats. -/
def elemCompare (ef : EF) (cc a b : Nat) : Bool × Flags :=
  match ef with
  | .flt f => compareElem (.flt f) cc (a % 2 ^ f.width) (b % 2 ^ f.width)
  | .int w sg => (condHolds cc (ofInt64 (ival w sg a)) (ofInt64 (ival w sg b)), 0)
  | .nf => (false, 0)

/-- A value of an integer format is read from its low bits. -/
def lowBits (ef : EF) (v : Nat) : Nat := v % 2 ^ ef.width

def cmpBody : ElemRef → Section → M Fired :=
  simple true fun _ r st tok =>
    let ef := fmtOf r
    let (v, fl) := elemCompare ef (bits r.param 3 0) (lowBits ef (tok 0).bits) (lowBits ef (operandB r tok))
    ([(0, .pred v (tok 0).tag)], st, fl)

def selBody : ElemRef → Section → M Fired :=
  simple false fun _ r st tok =>
    ([(0, (tok 0).withData (lowBits (fmtOf r) (if (tok 3).truth then (tok 0).bits else (tok 1).bits)))], st, 0)

def elemCvtBody : ElemRef → Section → M Fired :=
  simple true fun x r st tok =>
    let src := (EF.ofCode (bits r.param 3 0)).getD (.flt .f32)
    let (v, fl) := convertElem (NF.ofDesc 0) src (fmtOf r) (roundCode x r) r.rnd 0 (lowBits src (tok 0).bits)
    ([(0, (tok 0).withData v)], st, fl)

/-! ### Routing elements (R338, R344) -/

/-- The token with its tag one lower. -/
def Tok.lower (t : Tok) : Tok := .data (BitVec.ofNat 32 t.bits) (t.tag - 1) t.headMark t.tail t.eod

def Tok.raise (t : Tok) : Tok := .data (BitVec.ofNat 32 t.bits) (t.tag + 1) t.headMark t.tail t.eod

def steerBody : ElemRef → Section → M Fired :=
  fun a x =>
    let exit := bit (x.record a.el).param 0
    match ready x a.el 0 with
    | some t => if exit && t.tag == 0 && (ready x a.el 3).isSome then return .fault 1 else
        simple false (fun _ _ st tok =>
          ([if (tok 3).truth then (0, tok 0) else (1, if exit then (tok 0).lower else tok 0)], st, 0)) a x
    | none => return .wait

def mergeBody : ElemRef → Section → M Fired :=
  fun a x =>
    match ready x a.el 3 with
    | none => return .wait
    | some p =>
      let i := if p.truth then 0 else 1
      match ready x a.el i with
      | none => return .wait
      | some t => return if t.tag != p.tag then .fault 1 else .go [i, 3] [(0, t)] (x.elem a.el) 0

def carryBody : ElemRef → Section → M Fired :=
  fun a x =>
    let st := x.elem a.el
    if !st.flag then
      match ready x a.el 0 with
      | none => return .wait
      | some t => return if t.tag = 7 then .fault 1 else .go [0] [(0, t.raise)] { st with flag := true } 0
    else
      match ready x a.el 3 with
      | none => return .wait
      | some p =>
        if p.truth then
          match ready x a.el 1 with
          | none => return .wait
          | some t => return if t.tag != p.tag then .fault 1 else .go [1, 3] [(0, t)] st 0
        else return .go [3] [] { st with flag := false } 0

def joinBody : ElemRef → Section → M Fired :=
  fun a x =>
    let used := (x.record a.el).usedInputs
    if used.any fun i => (ready x a.el i).isNone then return .wait
    else
      let tag := ((ready x a.el (used.headD 0)).getD (.pred true 0)).tag
      return .go used ((List.range used.length).map fun p => (p, .data 0 tag false false 0)) (x.elem a.el) 0

def forkBody : ElemRef → Section → M Fired :=
  simple false fun _ r st tok =>
    ((List.range (bits r.param 1 0 + 1)).map fun p => (p, tok 0), st, 0)

/-- The subgraph that feeds a `WIDEN`. -/
def Section.feeding (x : Section) (el : Nat) : Nat := (x.record ((x.record el).srcIn 0)).subg

/-- A token or a marker passes `WIDEN` (R128): the sink writes that the source subgraph has committed are released at its scope, and
the destination subgraph's reads acquire from now on at the widest scope of those that tokens came to it with. -/
def widenPass (a : ElemRef) (x : Section) : M Unit := do
  let scope := bits (x.record a.el).param 2 0
  upd (releaseNames · (.half a.c) scope (x.sunk.getD (x.feeding a.el) []))
  match x.dest a.el 0 with
  | none => pure ()
  | some (e, _) =>
    match ← getSection a.c a.sec with
    | none => pure ()
    | some y =>
      let sub := (x.record e).subg
      setSection a.c a.sec { y with widened := y.widened.insert sub (max scope (y.widened.getD sub 0)) }

/-- `WIDEN` (R128). -/
def widenBody (a : ElemRef) (x : Section) : M Fired := do
  match ready x a.el 0 with
  | none => return .wait
  | some t =>
    if !(← portIsFree a x 0) then return .wait
    widenPass a x
    return .go [0] [(0, t)] (x.elem a.el) 0

/-! ### Groups, counts and lines (R338, R339) -/

/-- Whether a token closes its group (R339). -/
def closes (r : ERec) (t : Tok) : Bool :=
  (bit r.param 2 && t.tail) || [0, 1, 2, 3].any fun n => bit r.param (3 + n) && bit t.eod n

/-- The reduction of a group of encodings. -/
def reduceGroup (x : Section) (r : ERec) (xs : List Nat) : Nat × Flags :=
  let op := bits r.param 1 0
  match fmtOf r with
  | .flt f => reduceF f op (roundCode x r) 0 xs
  | .int w sg => (reduceI w sg op r.rnd xs, 0)
  | .nf => (0, 0)

def elemRedBody : ElemRef → Section → M Fired :=
  simple true fun x r st tok =>
    let xs := st.nums ++ [lowBits (fmtOf r) (tok 0).bits]
    if closes r (tok 0) then
      let (v, fl) := reduceGroup x r xs
      ([(0, .data (BitVec.ofNat 32 v) (tok 0).tag true true (tok 0).eod)], { st with nums := [] }, fl)
    else ([], { st with nums := xs }, 0)

def elemAccBody : ElemRef → Section → M Fired :=
  simple true fun x r st tok =>
    let code := if bits r.param 1 0 = 0 then 0x04 else if bits r.param 1 0 = 1 then 0x08 else 0x09
    let (v, fl) := elemOp code (fmtOf r) (roundCode x r) r.rnd (st.nums.headD r.imm) (tok 0).bits 0
    ([(0, (tok 0).withData v)], { st with nums := [if closes r (tok 0) then r.imm else v] }, fl)

def cntBody : ElemRef → Section → M Fired :=
  simple false fun _ r st tok =>
    let n := st.pos + 1
    ([(0, .pred (n < r.imm) (tok 0).tag)], { st with pos := if n = r.imm then 0 else n }, 0)

def constBody : ElemRef → Section → M Fired :=
  simple false fun _ r st tok => ([(0, (tok 0).withData r.imm)], st, 0)

def passBody : ElemRef → Section → M Fired :=
  simple true fun _ _ st tok => ([(0, tok 0)], st, 0)

def delayBody : ElemRef → Section → M Fired :=
  simple false fun _ r st tok =>
    let line := if (tok 0).tail then List.replicate (bits r.param 3 0) r.imm else st.nums.drop 1 ++ [(tok 0).bits]
    ([(0, (tok 0).withData (st.nums.headD r.imm))], { st with nums := line }, 0)

/-- `COMMIT` asks for the next possible marker (R352). -/
def commitBody (a : ElemRef) (x : Section) : M Fired := do
  let r := x.record a.el
  let i := if r.uses 0 then 0 else 3
  match ready x a.el i with
  | none => return .wait
  | some t =>
    let asks := if i = 0 then t.tail else t.truth
    if asks then setSection a.c a.sec { x with due := x.due ++ [x.nextDue] }
    return .go [i] [] (x.elem a.el) 0

/-! ### Sources (R340, R341, R346, R347) -/

/-- 32-bit tokens of some words: H on the first and T on the last, where asked. -/
def wordTokens (h t : Bool) (ws : List Nat) : List Tok :=
  ws.zipIdx.map fun (w, i) => .data (BitVec.ofNat 32 w) 0 (h && i == 0) (t && i + 1 == ws.length) 0

/-- Emit the marker a source owes (R347, R349). -/
def emitMark (a : ElemRef) (x : Section) (st : ElemState) (m : Nat) : M Fired := do
  if 2 ≤ x.waitingMarks a.el || !(← portIsFree a x 0) then return .wait
  setSection a.c a.sec ((x.emit a.el [(0, .marker m)]).setElem a.el { st with mark := none })
  recordMarker a.c a.sec a.el m
  return .wait

/-- Emit the next token a source has made; one with T ends its tile. -/
def emitNext (x : Section) (take : List Nat) (st : ElemState) (isSource : Bool) : Fired :=
  match st.out with
  | [] => .wait
  | t :: rest =>
    let st := { st with out := rest }
    let st := if isSource && t.tail then
        { st with ended := st.ended + 1, ends := st.ends.put (st.ended + 1) st.moved 0, flag := false, mark := if x.isDue (st.ended + 1) then some (st.ended + 1) else none }
      else st
    .go take [(0, t)] st 0

/-- A source inside a tile, or one that may begin its next (R346). -/
def admitted (x : Section) (st : ElemState) : Bool := st.flag || st.begun < x.armed

def beginTile (st : ElemState) : ElemState := if st.flag then st else { st with flag := true, begun := st.begun + 1 }

/-- `SRC` (R338, R340, R355). -/
def srcBody (a : ElemRef) (x : Section) : M Fired := do
  let st := x.elem a.el
  match st.mark with
  | some m => emitMark a x st m
  | none =>
    if !(← portIsFree a x 0) then return .wait
    if !st.out.isEmpty then return emitNext x [] st true
    if !admitted x st then return .wait
    let q := bits (x.record a.el).param 5 0
    let v ← getQueue a.c q
    match queueRefuses v 8 v.width false with
    | some _ => return .fault 8
    | none =>
      match v.entries with
      | [] => return if v.depth ≤ v.window.length then .fault 6 else .wait
      | e :: rest =>
        if e.p then return .fault 7
        setQueue a.c q (v.popped e rest)
        return emitNext x [] { beginTile st with out := wordTokens e.h e.t (wordsOf e.data), moved := st.moved + 1 } true

/-! ### Sinks (R338, R340, R355) -/

/-- Push a sink's entry as a held push: the new queue, or why not. -/
def holdEntry (v : Queue) (ws : List Nat) (h t : Bool) : Except (Option Nat) Queue :=
  match queueRefuses v 8 v.width true with
  | some _ => .error (some 8)
  | none =>
    if v.isFull then .error (if v.depth ≤ v.held.length then some 6 else none)
    else
      let bs := (ws.flatMap (leBytes 4)).take (entryBytes v.width)
      .ok { v with held := v.held ++ [{ data := bs ++ List.replicate (entryBytes v.width - bs.length) 0, h := h, t := t }] }

/-- `SNK`. -/
def snkBody (a : ElemRef) (x : Section) : M Fired := do
  let r := x.record a.el
  let st := x.elem a.el
  let q := bits r.param 5 0
  let v ← getQueue a.c q
  match ready x a.el 0 with
  | none => return .wait
  | some t =>
    if r.uses 3 && (ready x a.el 3).isNone then return .wait
    let guard := (ready x a.el 3).getD (.pred true t.tag)
    if r.uses 3 && guard.tag != t.tag then return .fault 1
    if r.uses 3 && !guard.truth then return .go r.usedInputs [] st 0
    let ws := st.nums ++ [t.bits]
    let head := if st.nums.isEmpty then t.headMark else st.head
    if t.tail || ws.length * 4 == entryBytes v.width then
      match holdEntry v ws head t.tail with
      | .error (some n) => return .fault n
      | .error none => return .wait
      | .ok v' =>
        setQueue a.c q v'
        return .go r.usedInputs [] { st with nums := [], head := false, moved := st.moved + 1 } 0
    else return .go r.usedInputs [] { st with nums := ws, head := head } 0

/-! ### Address generators (R341-R343) -/

/-- What an AGEN access gives: bytes, a context fault, or a wait for the bank's token. -/
inductive Got where
  | bytes (b : List Byte)
  | fault (reason : Nat)
  | wait
  deriving DecidableEq, Repr, Inhabited

def agenDesc (x : Section) (el : Nat) : AgDesc := AgDesc.ofBytes (x.slot (bits (x.record el).param 2 0))

/-- Bytes of memory or of a bank as the section's own logged writes leave them (R342). -/
def overlay (x : Section) (bank : Bool) (addrs : List Nat) (bs : List Byte) : List Byte :=
  (addrs.zip bs).map fun (p, b) =>
    x.log.foldl (fun b w => if w.bank == bank then (w.cells.find? p).getD b else b) b

/-- Report a lasting error an element met (R342, R471). -/
def eccReport (c va : Nat) : M Unit := do
  let s ← get
  containReport (s.crew c).ctx (handleOf (s.crew c)) va 3 0 1 5

def tileDesc (c tid : Nat) : M Named := do
  let s ← get
  nameTid (s.crew c).ctx tid (some c) (.half c)

/-- An address-generator read after a `WIDEN` token acquires for itself alone: what it gains counts as gained by the cluster
half, whose own snapshot stands (R112, R116, R128, log 48). -/
def widenedRead (c scope : Nat) (m : M (Option (List Byte))) : M (Option (List Byte)) := do
  let s ← get
  let ids := acquireIds s (.half c) scope
  upd fun s => let v := s.view (.half c)
    s.setView (.half c) { v with gained := unionNames v.gained ids }
  let s ← get
  let (r, _) ← underPhase (.half c) { gained := (s.view (.half c)).gained } m
  return r

/-- Read a tile of an AGEN's box. -/
def agenTile (a : ElemRef) (x : Section) (pos : Nat) : M Got := do
  let g := agenDesc x a.el
  match ← tileDesc a.c g.tid with
  | .bad => return .fault 3
  | .refused _ _ => return .fault 3
  | .ecc va =>
    eccReport a.c va
    return .fault 4
  | .ok d =>
    let cs := g.box.coords pos
    let va := d.tile cs
    let s ← get
    match resolve s (crewPins a.c) va 1024 false with
    | .error _ => return .fault 3
    | .ok parts =>
      let read := readParts (.half a.c) parts
      match ← (match x.widened.find? (x.record a.el).subg with
        | some scope => widenedRead a.c scope read
        | none => read) with
      | none =>
        eccReport a.c va
        return .fault 4
      | some bs => return .bytes (d.maskPadding (cs.getD 0 0) (cs.getD 1 0) (overlay x false (physOf parts) bs))

/-- Read bytes of an AGEN's bank. -/
def agenBank (a : ElemRef) (x : Section) (off n : Nat) : M Got := do
  let g := agenDesc x a.el
  let s ← get
  let k := s.crew a.c
  if k.banks.getD g.bank 0 != a.sec + 1 then return .wait
  let addrs := (List.range n).map fun i => g.bank * 524288 + g.offset + off + i
  if bankLost k g.bank (g.offset + off) n then
    bankReport a.c 5
    return .fault 4
  return .bytes (overlay x true addrs (bankRead k g.bank (g.offset + off) n))

/-- Bytes logged in a crew's sections. -/
def loggedBytes (k : Crew) : Nat :=
  ((k.sections.map fun e => (e.2.log.map fun w => w.cells.length).foldl (· + ·) 0)).foldl (· + ·) 0

/-- Log one write (R343): the section with it, or the fault. -/
def logWrite (k : Crew) (x : Section) (el : Nat) (bank : Bool) (cells : Tbl Byte) (st : ElemState) (va : Nat := 0)
    (leaf : Option Leaf := none) : Option Section :=
  if 65536 < loggedBytes k + cells.length then none
  else some { x with log := x.log ++
    [{ el := el, seq := st.moved, bank := bank, cells := cells, scope := x.scope (x.record el).subg, va := va, leaf := leaf }] }

/-- Log the words of a tile that have arrived (R341). -/
def logTile (a : ElemRef) (x : Section) (st : ElemState) (ws : List Nat) : M (Except Nat Section) := do
  let g := agenDesc x a.el
  match ← tileDesc a.c g.tid with
  | .bad => return .error 3
  | .refused _ _ => return .error 3
  | .ecc va =>
    eccReport a.c va
    return .error 4
  | .ok d =>
    let cs := g.box.coords st.pos
    let s ← get
    match resolve s (crewPins a.c) (d.tile cs) 1024 true with
    | .error _ => return .error 3
    | .ok parts =>
      if d.halfPads (cs.getD 0 0) then chooseSnaps (.half a.c) (parts.map fun p => p.1 / 1024)
      let s ← get
      let body := ws.flatMap (leBytes 4)
      let cells := tileCells s (.half a.c) d cs ((physOf parts).take body.length) body
      let leaf := ((s.pins.filter fun p => crewPins a.c p && !p.revoked && p.w).flatMap (·.leaves)).find? (·.holds (d.tile cs))
      match logWrite (s.crew a.c) x a.el false cells st (d.tile cs) leaf with
      | none => return .error 5
      | some x' => return .ok x'

/-- AGEN in write mode. -/
def agenWrite (a : ElemRef) (x : Section) : M Fired := do
  let r := x.record a.el
  let st := x.elem a.el
  let g := agenDesc x a.el
  let s ← get
  match ready x a.el 0 with
  | none => return .wait
  | some t =>
    let first := st.nums.isEmpty || g.kind == 1
    let needIdx := r.uses 1 && first
    let take := [0] ++ (if needIdx then [1] else []) ++ (if r.uses 3 then [3] else [])
    if take.any fun i => (ready x a.el i).isNone then return .wait
    let tok (i : Nat) : Tok := (ready x a.el i).getD (.pred true 0)
    if take.any fun i => (tok i).tag != t.tag then return .fault 1
    if r.uses 3 && !(tok 3).truth then return .go take [] st 0
    let pos := if needIdx then (tok 1).bits else st.pos
    if g.kind = 0 then
      if g.box.count ≤ pos then return .fault 2
      let st := { st with pos := pos, nums := st.nums ++ [t.bits] }
      if st.nums.length < 256 then return .go take [] st 0
      match ← logTile a x st st.nums with
      | .error n => return .fault n
      | .ok x' =>
        setSection a.c a.sec x'
        return .go take [] { st with nums := [], pos := if r.uses 1 then pos else pos + 1, moved := st.moved + 1 } 0
    else
      if (s.crew a.c).banks.getD g.bank 0 != a.sec + 1 then return .wait
      if g.length < 4 * pos + 4 then return .fault 2
      match logWrite (s.crew a.c) x a.el true (cellsAt (g.bank * 524288 + g.offset + 4 * pos) (leBytes 4 t.bits)) st with
      | none => return .fault 5
      | some x' =>
        setSection a.c a.sec x'
        return .go take [] { st with pos := if r.uses 1 then st.pos else pos + 1, moved := st.moved + 1 } 0

/-- AGEN in read mode, as a source: a tile of the box, or the bank's range, for each section tile. -/
def agenSource (a : ElemRef) (x : Section) (st : ElemState) : M Fired := do
  let g := agenDesc x a.el
  if !admitted x st || (g.kind == 0 && g.box.count ≤ st.pos) then return .wait
  let got ← if g.kind = 0 then agenTile a x st.pos else agenBank a x 0 g.length
  match got with
  | .wait => return .wait
  | .fault n => return .fault n
  | .bytes bs => return emitNext x [] { beginTile st with out := wordTokens true true (wordsOf bs), pos := st.pos + 1 } true

/-- AGEN in read mode, by index tokens. -/
def agenIndexed (a : ElemRef) (x : Section) (st : ElemState) : M Fired := do
  let g := agenDesc x a.el
  match ready x a.el 0 with
  | none => return .wait
  | some t =>
    if g.kind = 0 then
      if g.box.count ≤ t.bits then return .fault 2
      match ← agenTile a x t.bits with
      | .wait => return .wait
      | .fault n => return .fault n
      | .bytes bs => return emitNext x [0] { st with out := wordTokens true t.tail (wordsOf bs) } false
    else
      if g.length < 4 * t.bits + 4 then return .fault 2
      match ← agenBank a x (4 * t.bits) 4 with
      | .wait => return .wait
      | .fault n => return .fault n
      | .bytes bs => return .go [0] [(0, .data (BitVec.ofNat 32 (leNat bs)) 0 t.headMark t.tail t.eod)] st 0

/-- AGEN in index mode: one token for each tile of the box, the last with T; each section tile walks the box. -/
def agenWalk (a : ElemRef) (x : Section) (st : ElemState) : Fired :=
  let b := (agenDesc x a.el).box
  let toks : List Tok := (List.range b.count).map fun p =>
    .data (BitVec.ofNat 32 p) 0 false (p + 1 == b.count) (b.endBits (b.coords p))
  if !admitted x st then .wait else emitNext x [] { beginTile st with out := toks } true

def agenBody (a : ElemRef) (x : Section) : M Fired := do
  let r := x.record a.el
  let st := x.elem a.el
  if bits r.param 4 3 = 1 then agenWrite a x
  else
    match st.mark with
    | some m => emitMark a x st m
    | none =>
      if !(← portIsFree a x 0) then return .wait
      if !st.out.isEmpty then return emitNext x [] st r.isSource
      if bits r.param 4 3 = 2 then return agenWalk a x st
      else if r.uses 0 then agenIndexed a x st
      else agenSource a x st

/-! ### Turns of the contexts, and firing (R328) -/

/-- What an element does when it fires, by its operation. -/
def elemBody (code : Nat) : ElemRef → Section → M Fired :=
  match code with
  | 0x01 => srcBody
  | 0x02 => snkBody
  | 0x03 => agenBody
  | 0x10 => cmpBody
  | 0x11 => selBody
  | 0x12 => elemCvtBody
  | 0x13 => steerBody
  | 0x14 => mergeBody
  | 0x15 => carryBody
  | 0x16 => joinBody
  | 0x17 => forkBody
  | 0x18 => widenBody
  | 0x19 => elemRedBody
  | 0x1A => elemAccBody
  | 0x1B => cntBody
  | 0x1C => constBody
  | 0x1D => passBody
  | 0x1E => delayBody
  | 0x1F => commitBody
  | code => arithBody code

/-- Whether an element can fire now (R334); one that would raise a context fault does. -/
def canFire (a : ElemRef) (s : State) : Bool :=
  match (s.crew a.c).sections.find? a.sec with
  | none => false
  | some x =>
    match elemBody (x.record a.el).op a x s with
    | .ok (.go _ outs _ _) s' => canEmit s' a.c a.sec x a.el outs
    | .ok (.fault _) _ => true
    | _ => false

/-- The element of a context at a place of the fabric, of whichever section holds it. -/
def elemAt (s : State) (cl slot : Nat) (p : Nat × Nat) : Option ElemRef :=
  match (s.cluster cl).slots.find? slot with
  | none => none
  | some c => (List.find? (fun e : Nat × Section => e.2.holds p) (s.crew c).sections).map fun e =>
      { c := c, sec := e.1, el := (p.1 - e.2.origin.1) * e.2.cols + (p.2 - e.2.origin.2) }

/-- It is a context's turn at a place: none before it in the rotation, from the one after the last that fired there, can fire
(R328). -/
def slotTurn (s : State) (cl slot : Nat) (p : Nat × Nat) : Bool :=
  (slotsBefore s cl slot p).all fun o => match elemAt s cl o p with
    | some a => !((s.crew a.c).stage == .resident && canFire a s)
    | none => true

/-- Fire an element whose operation has the given code, if it is its context's turn and it can fire (R328, R334). -/
def fire (code : Nat) (a : ElemRef) (s : State) : Out :=
  let k := s.crew a.c
  match k.sections.find? a.sec with
  | none => .next s
  | some x =>
    if k.stage == .resident && a.el < x.size && (x.record a.el).op == code && slotTurn s k.cl k.slot (x.place a.el) then
      .next (runM (do
        match ← elemBody code a x with
        | .wait => pure ()
        | .fault r => contextFault a.c a.sec a.el r
        | .go take outs st fl =>
          let s ← get
          if canEmit s a.c a.sec x a.el outs then
            applyFiring a take outs st fl
            upd (tookSlot · k.cl k.slot (x.place a.el))) s)
    else .next s

def execElementSrc (crew sec el : Nat) (s : State) : Out := fire 0x01 ⟨crew, sec, el⟩ s
def execElementSnk (crew sec el : Nat) (s : State) : Out := fire 0x02 ⟨crew, sec, el⟩ s
def execElementAgen (crew sec el : Nat) (s : State) : Out := fire 0x03 ⟨crew, sec, el⟩ s
def execElementAdd (crew sec el : Nat) (s : State) : Out := fire 0x04 ⟨crew, sec, el⟩ s
def execElementSub (crew sec el : Nat) (s : State) : Out := fire 0x05 ⟨crew, sec, el⟩ s
def execElementMul (crew sec el : Nat) (s : State) : Out := fire 0x06 ⟨crew, sec, el⟩ s
def execElementMac (crew sec el : Nat) (s : State) : Out := fire 0x07 ⟨crew, sec, el⟩ s
def execElementMin (crew sec el : Nat) (s : State) : Out := fire 0x08 ⟨crew, sec, el⟩ s
def execElementMax (crew sec el : Nat) (s : State) : Out := fire 0x09 ⟨crew, sec, el⟩ s
def execElementAnd (crew sec el : Nat) (s : State) : Out := fire 0x0A ⟨crew, sec, el⟩ s
def execElementOr (crew sec el : Nat) (s : State) : Out := fire 0x0B ⟨crew, sec, el⟩ s
def execElementXor (crew sec el : Nat) (s : State) : Out := fire 0x0C ⟨crew, sec, el⟩ s
def execElementShl (crew sec el : Nat) (s : State) : Out := fire 0x0D ⟨crew, sec, el⟩ s
def execElementShr (crew sec el : Nat) (s : State) : Out := fire 0x0E ⟨crew, sec, el⟩ s
def execElementSar (crew sec el : Nat) (s : State) : Out := fire 0x0F ⟨crew, sec, el⟩ s
def execElementCmp (crew sec el : Nat) (s : State) : Out := fire 0x10 ⟨crew, sec, el⟩ s
def execElementSel (crew sec el : Nat) (s : State) : Out := fire 0x11 ⟨crew, sec, el⟩ s
def execElementCvt (crew sec el : Nat) (s : State) : Out := fire 0x12 ⟨crew, sec, el⟩ s
def execElementSteer (crew sec el : Nat) (s : State) : Out := fire 0x13 ⟨crew, sec, el⟩ s
def execElementMerge (crew sec el : Nat) (s : State) : Out := fire 0x14 ⟨crew, sec, el⟩ s
def execElementCarry (crew sec el : Nat) (s : State) : Out := fire 0x15 ⟨crew, sec, el⟩ s
def execElementJoin (crew sec el : Nat) (s : State) : Out := fire 0x16 ⟨crew, sec, el⟩ s
def execElementFork (crew sec el : Nat) (s : State) : Out := fire 0x17 ⟨crew, sec, el⟩ s
def execElementWiden (crew sec el : Nat) (s : State) : Out := fire 0x18 ⟨crew, sec, el⟩ s
def execElementRed (crew sec el : Nat) (s : State) : Out := fire 0x19 ⟨crew, sec, el⟩ s
def execElementAcc (crew sec el : Nat) (s : State) : Out := fire 0x1A ⟨crew, sec, el⟩ s
def execElementCnt (crew sec el : Nat) (s : State) : Out := fire 0x1B ⟨crew, sec, el⟩ s
def execElementConst (crew sec el : Nat) (s : State) : Out := fire 0x1C ⟨crew, sec, el⟩ s
def execElementPass (crew sec el : Nat) (s : State) : Out := fire 0x1D ⟨crew, sec, el⟩ s
def execElementDelay (crew sec el : Nat) (s : State) : Out := fire 0x1E ⟨crew, sec, el⟩ s
def execElementCommit (crew sec el : Nat) (s : State) : Out := fire 0x1F ⟨crew, sec, el⟩ s

/-! ### Markers (R348, R349) -/

def markAt (x : Section) (el i : Nat) : Option Nat :=
  match headOf x el i with
  | some (.marker k) => some k
  | _ => none

/-- The ports of an element that feed something. -/
def Section.ports (x : Section) (el : Nat) : List Nat := [0, 1, 2, 3].filter fun p => (x.dest el p).isSome

/-- Forward a marker from some inputs on every connected port, and record the checkpoint. -/
def forwardFrom (a : ElemRef) (x : Section) (take : List Nat) (m : Nat) (st : ElemState) : M Unit := do
  let s ← get
  let outs := x.ports a.el
  if x.waitingMarks a.el < 2 && canEmit s a.c a.sec x a.el (outs.map fun p => (p, .marker m)) then
    if (x.record a.el).op = 0x18 then widenPass a x
    match ← getSection a.c a.sec with
    | none => pure ()
    | some y =>
      let y := { x with widened := y.widened }
      setSection a.c a.sec (((y.consume a.el take).emit a.el (outs.map fun p => (p, .marker m))).setElem a.el st)
      recordMarker a.c a.sec a.el m

/-- A marker reaches a sink: a partial entry is closed, a partial tile is logged (R340, R341). -/
def sinkMarker (a : ElemRef) (x : Section) (take : List Nat) (m : Nat) : M Unit := do
  let r := x.record a.el
  let st := x.elem a.el
  if 2 ≤ x.waitingMarks a.el then pure ()
  else if r.op = 2 then
    if st.nums.isEmpty then forwardFrom a x take m st
    else
      let q := bits r.param 5 0
      let v ← getQueue a.c q
      match holdEntry v st.nums st.head false with
      | .error (some n) => contextFault a.c a.sec a.el n
      | .error none => pure ()
      | .ok v' =>
        setQueue a.c q v'
        match ← getSection a.c a.sec with
        | none => pure ()
        | some y => forwardFrom a y take m { st with nums := [], head := false, moved := st.moved + 1 }
  else if (agenDesc x a.el).kind = 1 then forwardFrom a x take m { st with pos := 0 }
  else if st.nums.isEmpty then forwardFrom a x take m st
  else
    match ← logTile a x st st.nums with
    | .error n => contextFault a.c a.sec a.el n
    | .ok y =>
      forwardFrom a y take m { st with nums := [], pos := if r.uses 1 then st.pos else st.pos + 1, moved := st.moved + 1 }

/-- A marker moves through an element (R348). -/
def markerStep (a : ElemRef) (x : Section) : M Unit := do
  let r := x.record a.el
  let used := r.usedInputs
  if r.op = 0x15 then
    match markAt x a.el 1, markAt x a.el 3, markAt x a.el 0 with
    | some _, _, _ => setSection a.c a.sec (x.consume a.el [1])
    | none, some _, _ => setSection a.c a.sec (x.consume a.el [3])
    | none, none, some m => if !(x.elem a.el).flag then forwardFrom a x [0] m (x.elem a.el)
    | none, none, none => pure ()
  else
    match used.mapM fun i => markAt x a.el i with
    | some (m :: rest) =>
      if rest.any fun k => k != m then pure ()
      else if r.isSink then sinkMarker a x used m
      else if (x.elem a.el).out.isEmpty then forwardFrom a x used m (x.elem a.el)
    | _ => pure ()

def execMarkerForward (crew sec el : Nat) (s : State) : Out :=
  let k := s.crew crew
  match k.sections.find? sec with
  | none => .next s
  | some x =>
    if k.stage == .resident && el < x.size && (x.record el).op != 0 then .next (runM (markerStep ⟨crew, sec, el⟩ x) s)
    else .next s

/-! ### The alignment abort (R353) -/

/-- Elements that hold an input for alignment while some other of their inputs stands at eight entries: number and marker held. CARRY
holds none of those that it discards at `in1` and `in3` (R348). How long they have done so is timing, so which of them gives up first is free (log 86). -/
def Section.blocked (x : Section) : List (Nat × Nat) :=
  (List.range x.size).flatMap fun el =>
    let used := (x.record el).usedInputs
    let marks := used.map fun i => markAt x el i
    if marks.all (·.isSome) && (marks.all fun m => m == marks.headD none) then []
    else (used.filter fun i => (x.record el).op != 0x15 || i == 0).filterMap fun i =>
      if used.any fun j => j != i && 8 ≤ (x.queue el j).length then (markAt x el i).map fun m => (el, m) else none

/-- Count an aborted commit in `FSTAT` (R359). -/
def countAbort (k : Crew) : Crew :=
  let f := k.fstat.toNat
  let n := bits f 31 16
  { k with fstat := BitVec.ofNat 64 (f - n * 2 ^ 16 + min 0xFFFF (n + 1) * 2 ^ 16) }

def abortSection (c sec : Nat) (x : Section) : M Unit := do
  if x.blocked.isEmpty then return ()
  let i ← pick 0 (x.blocked.length - 1)
  match x.blocked[i]? with
  | none => pure ()
  | some (el, m) =>
    upd fun s => s.setCrew c (countAbort (s.crew c))
    if x.aborted = some m then contextFault c sec el 9
    else upd fun s =>
      let k := rewindSection (s.crew c) sec
      s.setCrew c { k with sections := k.sections.modify sec fun y => { y with aborted := some m } }

def execAlignmentAbort (crew sec : Nat) (s : State) : Out :=
  let k := s.crew crew
  match k.sections.find? sec with
  | none => .next s
  | some x => if k.stage == .resident then .next (runM (abortSection crew sec x) s) else .next s

end Sys2Proof.Machine
end

