-- ==== Sys2Proof/Machine/Loader.lean ====
section
/-! DEFINITION. The configuration loader and the fabric control of the S stream: FCFG, FARM, FWAIT and FCOMMIT (R160, R241,
R242, R330, R331, R337, R338, R341, R345, R352, R357, R358, R361). -/

namespace Sys2Proof.Machine

/-! ### What operations allow (R330, R331, R338) -/

namespace ERec

/-- Output ports of an element. -/
def portCount (r : ERec) : Nat :=
  match r.op with
  | 0x00 => 0
  | 0x02 => 0
  | 0x1F => 0
  | 0x13 => 2
  | 0x16 => r.usedInputs.length
  | 0x17 => bits r.param 1 0 + 1
  | 0x03 => if r.isWriter then 0 else 1
  | _ => 1

/-- Ports that emit predicate tokens. -/
def emitsPred (r : ERec) : Bool := r.op == 0x10 || r.op == 0x1B

def guardable (r : ERec) : Bool :=
  r.op == 0x02 || (0x04 ≤ r.op && r.op ≤ 0x10) || r.op == 0x12 || r.op == 0x19 || r.op == 0x1A || r.op == 0x1D ||
  r.isWriter

/-- The used inputs are those the operation has. -/
def inputsOk (r : ERec) : Bool :=
  let u := r.uses
  let in3 := !u 3 || r.guardable
  match r.op with
  | 0x01 => r.usedInputs.isEmpty
  | 0x02 => u 0 && !u 1 && !u 2
  | 0x03 =>
    (match bits r.param 4 3 with
     | 0 => !u 1 && !u 2 && !u 3
     | 1 => u 0 && !u 2
     | _ => r.usedInputs.isEmpty)
  | 0x07 => u 0 && u 1 && u 2
  | 0x11 => u 0 && u 1 && !u 2 && u 3
  | 0x12 => u 0 && !u 1 && !u 2
  | 0x13 => u 0 && !u 1 && !u 2 && u 3
  | 0x14 => u 0 && u 1 && !u 2 && u 3
  | 0x15 => u 0 && u 1 && !u 2 && u 3
  | 0x16 => 2 ≤ r.usedInputs.length
  | 0x1F => !u 1 && !u 2 && (u 0 != u 3)
  | 0x17 => u 0 && !u 1 && !u 2 && !u 3
  | 0x18 => u 0 && !u 1 && !u 2 && !u 3
  | 0x1B => u 0 && !u 1 && !u 2 && !u 3
  | 0x1C => u 0 && !u 1 && !u 2 && !u 3
  | 0x1E => u 0 && !u 1 && !u 2 && !u 3
  | _ => if 0x04 ≤ r.op && r.op ≤ 0x10 then u 0 && !u 2 && in3 else u 0 && !u 1 && !u 2 && in3

/-- PARAM within the limits of R338 and R341, AGEN's mode and slot apart. -/
def paramOk (r : ERec) : Bool :=
  let flt := r.fmt ≤ 2
  match r.op with
  | 0x01 => r.param < 64
  | 0x02 => r.param < 64
  | 0x03 => r.param < 32
  | 0x10 => r.param ≤ (if flt then 5 else 9)
  | 0x12 => r.param ≤ 8
  | 0x13 => r.param < 2
  | 0x17 => 1 ≤ r.param && r.param ≤ 3
  | 0x18 => r.param ≤ 6
  | 0x19 => r.param < 128 && r.param % 4 != 3
  | 0x1A => r.param < 128 && r.param % 4 != 3
  | 0x1B => r.param == 0 && r.imm != 0
  | 0x1E => 1 ≤ r.param && r.param ≤ 15
  | _ => r.param == 0

/-- RND is a rounding code: of a floating format, and of a conversion from one (R248, R337). -/
def rounds (r : ERec) : Bool := r.fmt ≤ 2 || (r.op == 0x12 && bits r.param 3 0 ≤ 2)

/-- FMT, LAN and RND within the limits of R337. -/
def formatOk (r : ERec) (drm : Nat) : Bool :=
  r.fmt ≤ 8 && (!r.lan || ((r.fmt == 3 || r.fmt == 4) && 0x04 ≤ r.op && r.op ≤ 0x0F)) &&
  (if r.rounds then r.rnd ≤ 3 || (r.rnd == 5 && drm ≤ 3) else r.rnd ≤ 1)

end ERec

/-! ### The checks of a whole image (R358) -/

namespace Section

/-- Numbers of the elements that hold an operation. -/
def live (x : Section) : List Nat := (List.range x.size).filter fun e => (x.record e).op != 0

/-- Channels as source element, port, destination element, input. -/
def channels (x : Section) : List (Nat × Nat × Nat × Nat) :=
  x.live.flatMap fun e => (x.record e).usedInputs.map fun i => ((x.record e).srcIn i, (x.record e).portIn i, e, i)

/-- Reason 1: fields of the header and unused records. -/
def formBad (x : Section) : Bool :=
  let z (lo n : Nat) : Bool := ((x.image.drop lo).take n).all (· == 0)
  fieldAt x.image 0 2 != 1 || fieldAt x.image 4 4 != 64 + 64 * x.slots + 16 * x.size || !z 2 2 || !z 25 7 || !z 32 32 ||
  x.interval == 0 || 8 < x.slots || (x.handB == 0 && x.handTo != 0) ||
  ((List.range x.size).any fun e => (x.record e).op == 0 && !((x.image.drop (x.recAt e)).take 16).all (· == 0)) ||
  !(x.image.drop (fieldAt x.image 4 4)).all (· == 0)

/-- Reason 2: the rectangle. -/
def placeBad (x : Section) (others : List Section) : Bool :=
  let (r, c) := x.origin
  let hits (y : Section) : Bool :=
    let (r', c') := y.origin
    r < r' + y.rows && r' < r + x.rows && c < c' + y.cols && c' < c + x.cols
  x.rows == 0 || x.cols == 0 || 64 < r + x.rows || 64 < c + x.cols || others.any hits

/-- Reason 5: a channel. -/
def channelsBad (x : Section) : Bool :=
  let chans := x.channels
  x.live.any (fun e => (x.record e).op < 0x20 && !(x.record e).inputsOk) ||
  chans.any (fun (src, port, e, i) =>
    x.size ≤ src || ((x.record src).op < 0x20 && ((x.record src).portCount ≤ port ||
      (x.record src).emitsPred != (x.record e).predIn i)) ||
    ((x.record e).op < 0x20 && (x.record e).op != 0x16 && (x.record e).predIn i != (i == 3))) ||
  !(chans.map fun (src, port, _, _) => src * 4 + port).Nodup

/-- Reason 8: a channel between subgraphs of different scope. -/
def scopesBad (x : Section) : Bool :=
  (x.channels.filter fun ch => ch.1 < x.size).any fun (src, _, e, _) =>
    let a := x.scope (x.record src).subg
    let b := x.scope (x.record e).subg
    let widens (n : Nat) : Bool := (x.record n).op == 0x18 && max a b ≤ bits (x.record n).param 2 0
    a != b && !widens src && !widens e

/-- Grow a set of elements along channels. -/
def reach (x : Section) (chans : List (Nat × Nat × Nat × Nat)) : Nat → List Nat → List Nat
  | 0, l => l
  | n + 1, l =>
    let next := chans.foldl (fun l (src, _, e, _) => if l.contains src then addName l e else l) l
    if next.length = l.length then l else x.reach chans n next

/-- Reason 10: sources, and what they reach. -/
def sourcesBad (x : Section) : Bool :=
  let srcs := x.live.filter fun e => (x.record e).isSource
  let got := x.reach x.channels x.size srcs
  srcs.isEmpty || x.live.any fun e => !got.contains e

/-- Elements whose channels' sources have all been taken off, taken off in turn. -/
def peel (chans : List (Nat × Nat × Nat × Nat)) : Nat → List Nat → List Nat
  | 0, l => l
  | n + 1, l =>
    let next := l.filter fun e => chans.any fun (src, _, d, _) => d == e && l.contains src
    if next.length = l.length then l else peel chans n next

/-- Reason 11: a cycle apart from CARRY's `in1`. -/
def cyclesBad (x : Section) : Bool :=
  let chans := x.channels.filter fun (_, _, e, i) => !((x.record e).op == 0x15 && i == 1)
  !(peel chans x.size x.live).isEmpty

/-- Queues that the elements of an operation name. -/
def queuesOf (x : Section) (op : Nat) : List Nat :=
  (x.live.filter fun e => (x.record e).op == op).map fun e => bits (x.record e).param 5 0

/-- Reason 12: queues of sources and sinks. -/
def queuesBad (x : Section) (k : Crew) (others : List Section) : Bool :=
  let okay (snk : Bool) (q : Nat) : Bool :=
    let v := k.queues.getD q {}
    v.isOpen && v.width ≤ 1 && (if snk then v.prod else v.cons) == 8
  let all (op : Nat) : List Nat := x.queuesOf op ++ others.flatMap fun y => y.queuesOf op
  !((x.queuesOf 1).all (okay false) && (x.queuesOf 2).all (okay true)) || !(all 1).Nodup || !(all 2).Nodup

/-- Reason 13: bank handover. -/
def handBad (x : Section) (k : Crew) : Bool :=
  x.handB != 0 && (2 ^ k.spad ≤ x.handB || !(x.handTo == 0xFF || x.handTo < k.sectionCount))

end Section

/-- Reason 7: descriptor slots and AGEN modes; or the address where a lasting error is met. -/
def slotsBad (c : Nat) (x : Section) : M (Except Nat Bool) := do
  let mut bad := false
  for n in List.range x.slots do
    match ← agCheck c (x.slot n) false with
    | .ok => pure ()
    | .ecc va => return .error va
    | _ => bad := true
    let g := AgDesc.ofBytes (x.slot n)
    if g.kind = 0 then
      match ← tileDesc c g.tid with
      | .ok d => if d.efmt = 13 then bad := true
      | .bad => bad := true
      | .refused _ _ => bad := true
      | .ecc va => return .error va
  for e in x.live do
    let r := x.record e
    if r.op = 3 then
      let g := agenDesc x e
      if x.slots ≤ bits r.param 2 0 || bits r.param 4 3 == 3 || (bits r.param 4 3 == 2 && g.kind == 1) then bad := true
      if r.isWriter && g.kind == 0 then
        match ← tileDesc c g.tid with
        | .ok d => if d.ro then bad := true
        | _ => pure ()
  return .ok bad

/-- Every reason an image would be refused for, apart from reason 14 and, where it holds, with reason 1 alone. -/
def imageReasons (c sec : Nat) (x : Section) : M (Except Nat (List Nat)) := do
  let s ← get
  let k := s.crew c
  let others := (k.sections.filter fun e => e.1 != sec).map (·.2)
  if x.formBad then return .ok [1]
  let recs := x.live.map x.record
  match ← slotsBad c x with
  | .error va => return .error va
  | .ok slots =>
    let add (n : Nat) (b : Bool) : List Nat := if b then [n] else []
    return .ok (
      add 2 (x.placeBad others) ++
      add 3 (recs.any fun r => 0x20 ≤ r.op || r.reg == 3) ++
      add 4 (recs.any fun r => (r.op == 3 && r.reg != 1) || ((r.op == 0x19 || r.op == 0x1A) && r.reg != 2)) ++
      add 5 x.channelsBad ++
      add 6 (recs.any fun r => r.op < 0x20 && !(r.paramOk && r.formatOk (bits (vctlNow k).toNat 10 8))) ++
      add 7 slots ++
      add 8 x.scopesBad ++
      add 9 ((List.range 8).any (fun n => 6 < x.scope n) || recs.any fun r => k.levelScope < x.scope r.subg) ++
      add 10 x.sourcesBad ++
      add 11 x.cyclesBad ++
      add 12 (x.queuesBad k others) ++
      add 13 (x.handBad k))

/-! ### Reading an image (R160, R357) -/

/-- The payload of `n` kind 2 lines from an address; none where a line lies outside the code object or is malformed. -/
def imageLines (c : Nat) : Nat → Nat → M (Option (List Byte))
  | _, 0 => return some []
  | va, n + 1 => do
    let s ← get
    match resolve s (codePin s c) va 32 false with
    | .error _ => return none
    | .ok parts =>
      match ← readParts (.half c) parts with
      | none => throw (.lasting va)
      | some bs =>
        if fieldAt bs 0 4 ≠ 2 then return none
        let rest ← imageLines c (va + 32) n
        return rest.map fun r => bs.drop 4 ++ r

/-- The image FCFG names. A SIZE that no rectangle and slot count give is read no further: it is reason 1 alone. -/
def readImage (c ptr : Nat) : M (Option (List Byte)) := do
  match ← imageLines c ptr 1 with
  | none => return none
  | some first =>
    let size := fieldAt first 4 4
    if size < 64 ∨ 64 + 255 * 64 + 16 * 65025 < size then return some (first ++ List.replicate 64 0)
    imageLines c ptr ((size + 27) / 28)

/-- Load an image into a section (R358): banks the old configuration held return to the streams. -/
def loadSection (k : Crew) (sec : Nat) (image : List Byte) : Crew :=
  { k with
    sections := k.sections.insert sec { image := image, drm := bits (vctlNow k).toNat 10 8 }
    banks := k.banks.filter fun e => e.2 != sec + 1 }

/-- Every element of a new configuration finds an entry for each of its used inputs (R333). -/
def floorsFit (s : State) (c sec : Nat) (x : Section) : Bool :=
  let k := s.crew c
  let s' := s.setCrew c { k with sections := k.sections.erase sec }
  (List.range x.size).all fun el =>
    let n := (x.record el).usedInputs.length
    n == 0 || entriesUsed s' k.cl (x.place el) + n ≤ 32

/-- The loader takes the configuration a stalled FCFG gave it: it loads it, or answers a reason. Where several reasons
hold, any of them may be the one answered (log 18). A load whose floor entries are in use waits for them (log 86). -/
def loaderAnswer (c : Nat) (q : LoadReq) : M Unit := do
  let reply (n : Nat) : M Unit := upd fun s => s.setCrew c { s.crew c with loading := some { q with answer := some n } }
  match ← readImage c q.ptr with
  | none => reply 14
  | some image =>
    match ← imageReasons c q.sec { image := image } with
    | .error va => throw (.lasting va)
    | .ok [] =>
      if !floorsFit (← get) c q.sec { image := image } then throw .stall
      upd fun s => s.setCrew c (loadSection (s.crew c) q.sec image)
      reply 0
    | .ok l =>
      let i ← pick 0 (l.length - 1)
      reply (l.getD i 1)

def execConfigurationLoad (crew : Nat) (s : State) : Out :=
  let k := s.crew crew
  match k.loading with
  | some q =>
    if k.stage == .resident && q.answer.isNone then
      match loaderAnswer crew q s with
      | .ok _ s' => .next s'
      | .error (.lasting va) s' => .next (runM (containOwner (.crew crew) 3 va) s')
      | .error _ _ => .next s
    else .next s
  | none => .next s

/-! ### Fabric control (R241, R242, R352, R361) -/

def fabricFault {α} (reason : Nat) : M α := trap 22 0 (BitVec.ofNat 64 reason)

/-- The section number an operand names, in range. -/
def sectionArg (c : Nat) (v : Word) : M Nat := do
  let s ← get
  if (s.crew c).sectionCount ≤ v.toNat then fabricFault 1
  return v.toNat

/-- All tiles counted are committed. -/
def Section.retired (x : Section) : Bool := x.armed ≤ x.committed

def setLoading (c : Nat) (q : Option LoadReq) : M Unit := upd fun s => s.setCrew c { s.crew c with loading := q }

def execFcfg (o : RFmt) (s : State) : Out :=
  runS (fun c => guarded (.crew c) o.g o.ng do
    let x ← readReg (.crew c) o.a o.ta
    let y ← readReg (.crew c) o.b o.tb
    if x.toNat % 32 ≠ 0 ∨ 64 ≤ y.toNat then fabricFault 2
    let sec ← sectionArg c y
    let k := (← get).crew c
    let mine (q : LoadReq) : Bool := q.ptr == x.toNat && q.sec == sec
    match k.loading.filter mine with
    | some q =>
      match q.answer with
      | none => throw .stall
      | some 0 =>
        setLoading c none
        return .next
      | some n =>
        setLoading c none
        throw (.trapKeep { cause := 23, info := BitVec.ofNat 64 n })
    | none =>
      if ((k.sections.find? sec).map (·.retired)).getD true then
        setLoading c (some { ptr := x.toNat, sec := sec })
        return .stay
      else throw .stall) s

def execFarm (o : RFmt) (s : State) : Out :=
  runS (fun c => guarded (.crew c) o.g o.ng do
    let x ← readReg (.crew c) o.a o.ta
    let y ← readReg (.crew c) o.b o.tb
    if 2 ^ 32 ≤ y.toNat then fabricFault 2
    let sec ← sectionArg c x
    match ← getSection c sec with
    | none => fabricFault 3
    | some z =>
      if 2 ^ 32 ≤ z.armed - z.committed + y.toNat then fabricFault 4
      setSection c sec { z with armed := z.armed + y.toNat }
      return .next) s

def execFwait (o : RFmt) (s : State) : Out :=
  runS (fun c => guarded (.crew c) o.g o.ng do
    let x ← readReg (.crew c) o.a o.ta
    let sec ← sectionArg c x
    match ← getSection c sec with
    | none => return .next
    | some z => if z.retired then return .next else throw .stall) s

def execFcommit (o : RFmt) (s : State) : Out :=
  runS (fun c => guarded (.crew c) o.g o.ng do
    let x ← readReg (.crew c) o.a o.ta
    let sec ← sectionArg c x
    match ← getSection c sec with
    | none => return .next
    | some z =>
      match z.wanted with
      | some m =>
        if m ≤ z.committed then
          setSection c sec { z with wanted := none }
          return .next
        else throw .stall
      | none =>
        if z.hasWork then
          setSection c sec { z with wanted := some z.nextDue, due := z.due ++ [z.nextDue] }
          return .stay
        else return .next) s

end Sys2Proof.Machine
end

