-- ==== Sys2Proof/Machine/Ras.lean ====
section
/-! DEFINITION. Errors of Stroke arithmetic, spares and withdrawn units (R433, R442, R472-R474). -/

namespace Sys2Proof.Machine

def crewCmds (s : State) (c : Nat) : Bool :=
  s.clusters.any fun e => (e.2.copyQ ++ e.2.indexQ).any fun x => x.crew == some c

/-- The conditions of R26. -/
def crewDone (s : State) (c : Nat) : Bool :=
  let k := s.crew c
  k.stage == .resident && k.smode == .stopped && k.vq.isEmpty && k.mq.isEmpty && k.lq.isEmpty && k.wq.isEmpty &&
  !crewCmds s c && (s.thread k.thread).mode == .returned && k.sections.all fun e => e.2.retired

/-- A request to halt a crew; one whose completion conditions hold completes instead (R40, R480). -/
def requestHalt (s : State) (c : Nat) (suspend : Bool) (cause : Nat) : State :=
  if (s.crew c).stage == .resident && !crewDone s c then haltCrew s c suspend cause else s

/-- Pre-empt a resident crew (R441, R442). -/
def preempt (s : State) (c : Nat) : State := requestHalt s c false 0

/-- The save of a crew will meet a lasting error (R474). -/
def saveLost (k : Crew) : Bool := k.saveBad || !k.spBad.isEmpty

/-- Crews resident on a unit, by their cluster or their thread (R433). -/
def crewsOn (s : State) (cl : Nat) : List Nat :=
  (s.crews.filter fun e => e.2.stage == .resident && (e.2.cl == cl || e.2.thread / 32 == cl)).map (·.1)

/-- An error of class 4 or 5 is counted, and signals MSI-X vector 0 (R465, R495). -/
def grave (cls unit inst : Nat) : M Unit := upd fun s => let s := s.countError cls unit inst
  { s with msix := addName s.msix 0 }

/-- A unit is withdrawn (R474): it leaves its partition, its TLBs are cleared (R433, R458) and its crews are pre-empted. Their
contexts hear of it once all are moved or ended (log 110). -/
def withdrawUnit (cl unit inst : Nat) : M Unit := do
  let s ← get
  let cs := (crewsOn s cl).filter fun c => !crewDone s c
  grave 4 unit inst
  let drop (p : Partition) : Partition := { p with units := p.units.filter (· != cl) }
  upd fun s => { s with partitions := Tbl.mapVals drop s.partitions, tlb := s.tlb.filter fun e => e.1 / 4 != cl }
  upd fun s => s.setCluster cl { s.cluster cl with withdrawn := true }
  upd fun s =>
    let s := cs.foldl preempt s
    if cs.isEmpty then s else { s with withdrawals := s.withdrawals ++ [{ unit := unit, inst := inst, waiting := cs }] }

/-- Spares left (R473): what the fuses leave of them (R498), less those engaged since. -/
def rowsLeft (s : State) (cl arr : Nat) : Nat := (s.cluster cl).spareRows.getD arr (8 - Config.fusedRows cl arr)
def banksLeft (s : State) (cl : Nat) : Nat := (s.cluster cl).spareBank.getD (1 - Config.fusedBank cl)
def lanesLeft (s : State) (chan : Nat) : Nat := s.laneSpares.getD chan (2 - Config.fusedLanes chan)

/-- The residue check of a block on an array (R472): whether the block's sum stands. -/
def blockCheck (cl arr : Nat) : M Bool := do
  let s ← get
  let c := s.cluster cl
  match c.residues.find? fun r => r.1 == arr with
  | none => return true
  | some r =>
    upd fun s => s.setCluster cl { s.cluster cl with residues := (s.cluster cl).residues.erase r }
    if r.2.2 = 0 then return true
    else if r.2.2 = 1 then
      upd fun s => s.countError 2 6 (cl * 2 + arr)
      return true
    else
      let left := rowsLeft s cl arr
      if left = 0 then
        withdrawUnit cl 6 (cl * 2 + arr)
        return false
      else
        upd fun s => s.setCluster cl { s.cluster cl with spareRows := (s.cluster cl).spareRows.insert arr (left - 1) }
        grave 4 6 (cl * 2 + arr)
        return true

end Sys2Proof.Machine
end

