-- ==== Sys2Proof/Machine/Stroke.lean ====
section
/-! DEFINITION. The M stream's instructions: loading planes, accumulating, the umpire, and draining (R70-R73, R269-R293). -/

namespace Sys2Proof.Machine

/-! ### Arrays and tiles (R269) -/

def Crew.stroke (k : Crew) (a : Nat) : Stroke := k.strokes.getD a {}
def setStroke (c a : Nat) (v : Stroke) : M Unit :=
  upd fun s => let k := s.crew c
    s.setCrew c { k with strokes := k.strokes.put a v {} }
def getStroke (c a : Nat) : M Stroke := do
  let s ← get
  return (s.crew c).stroke a
def Stroke.tile (v : Stroke) (x : Nat) : XTile := v.tiles.getD x {}
def Stroke.setTile (v : Stroke) (x : Nat) (t : XTile) : Stroke := { v with tiles := v.tiles.put x t {} }

/-- Map the `n` cells from index `i` on, keeping the table's canonical form. -/
def mapCells (f : Nat → Cell → Cell) : Nat → Nat → Tbl Cell → Tbl Cell
  | 0, _, _ => []
  | n + 1, i, t =>
    let v := f i (t.getD i {})
    let rest := mapCells f n (i + 1) (if (t.headD (i + 1, {})).1 ≤ i then t.drop 1 else t)
    if v = {} then rest else (i, v) :: rest

/-- Map every cell of a tile. -/
def XTile.mapAll (t : XTile) (f : Nat → Cell → Cell) : XTile := { t with cells := mapCells f 8192 0 t.cells }

def Cell.isGone (e : Cell) : Bool :=
  match e.st with
  | .gone .. => true
  | _ => false

/-- Abandoned cells of a tile. -/
def XTile.abandoned (t : XTile) : Nat := (t.cells.filter fun e => e.2.isGone).length

/-- A tile zeroed (R278): its cells, verdict record and reserved-code mark; its tag stays. -/
def XTile.zeroed (t : XTile) : XTile := { c1 := t.c1, c2 := t.c2, c3 := t.c3, origin := t.origin }

/-! ### Order among M instructions (R148, R279) -/

/-- What an M instruction touches: array, tile, planes read or written (1 active, 2 shadow, as reads and writes), queue. -/
structure Touch where
  arr : Nat
  tile : Option Nat := none
  reads : List Nat := []
  writes : List Nat := []
  queue : Option Nat := none
  deriving DecidableEq, Repr, Inhabited

def touchOf (i : Instr) : Touch :=
  match i with
  | .mlds o => { arr := o.arr, writes := [2], queue := some o.q }
  | .mldsp o => { arr := o.arr, writes := [2], queue := some o.q }
  | .mmask o => { arr := o.arr, writes := [2], queue := some o.q }
  | .mbnd o => { arr := o.arr, writes := [2], queue := some o.q }
  | .mswap o => { arr := o.arr, writes := [1, 2] }
  | .mrun o => { arr := o.arr, tile := some o.x, reads := [1], queue := some o.q }
  | .mver o => { arr := o.arr, tile := some o.x, reads := [1], queue := some o.q }
  | .mzero o => { arr := o.arr, tile := some o.x }
  | .mwait o => { arr := o.arr, tile := some o.x }
  | .mdrain o => { arr := o.arr, tile := some o.x, queue := some o.q }
  | .mdrainv o => { arr := o.arr, tile := some o.x, queue := some o.q }
  | .mstat o => { arr := o.arr, tile := some o.x, queue := some o.q }
  | _ => { arr := 0 }

/-- Token bits of an M instruction. -/
def strokeTok (i : Instr) : Nat :=
  match i with
  | .mlds o => o.tok
  | .mldsp o => o.tok
  | .mmask o => o.tok
  | .mbnd o => o.tok
  | .mswap o => o.tok
  | .mrun o => o.tok
  | .mver o => o.tok
  | .mzero o => o.tok
  | .mwait o => o.tok
  | .mdrain o => o.tok
  | .mdrainv o => o.tok
  | .mstat o => o.tok
  | _ => 0

def popsTokens (i : Instr) : Bool := !(tokenFifos 3 (strokeTok i)).1.isEmpty

/-- Whether an earlier entry holds back the start of a later one. -/
def conflicts (j i : Entry) : Bool :=
  let a := touchOf j.instr
  let b := touchOf i.instr
  let same := a.arr == b.arr
  j.bad || i.bad || j.exc.isSome || j.finished || popsTokens j.instr || popsTokens i.instr ||
  (same && a.tile.isSome && a.tile == b.tile) ||
  (same && (a.writes.any (fun p => b.writes.contains p || b.reads.contains p) || a.reads.any b.writes.contains)) ||
  (a.queue.isSome && a.queue == b.queue)

/-- Entries before the named one. -/
def earlier (l : List Entry) (name : Nat) : List Entry := l.takeWhile fun e => e.name != name

def mayBegin (k : Crew) (e : Entry) : Bool := !(earlier k.mq e.name).any fun j => conflicts j e

/-! ### The frame of M instructions -/

/-- Raise an M exception once every earlier M instruction has completed (R280): the entry leaves the queue, later begun
instructions run on, and the stream will resume at the first later one. -/
def raiseStroke (c : Nat) (e : Entry) (x : Exc) (s : State) : State :=
  let k := s.crew c
  if !(earlier k.mq e.name).isEmpty then updEntry c 3 e.name (fun e => { e with exc := some x, stalled := false }) s
  else
    let later := k.mq.drop 1
    let mask := (later.zipIdx.filter fun (j, _) => j.prog.begun).foldl (fun m (_, i) => m + 2 ^ (i + 1)) 0
    let resume := match later.find? fun j => !j.prog.begun with
      | some j => j.pc
      | none => k.sc.pc
    let s := s.setCrew c { k with mq := later }
    postException s c { stream := 3, exc := x, pc := e.pc, resume := resume, mmask := BitVec.ofNat 16 mask }

/-- FIFOs into which M instructions that completed before an entry still have tokens to push (R148). -/
def owed (k : Crew) (e : Entry) : List Nat :=
  let before (j : Entry) : Bool := j.finished && j.name != e.name && (!e.finished || j.done < e.done)
  (k.mq.filter before).flatMap fun j => (tokenFifos 3 (strokeTok j.instr)).2.drop j.pushed

/-- A turn of an M instruction. -/
def strokeTurn (c tok : Nat) (e : Entry) (body : Nat → Entry → M Bool) (s : State) : State :=
  match e.exc with
  | some x => raiseStroke c e x s
  | none =>
    if e.finished then finishEntry c 3 tok e s (owed (s.crew c) e)
    else if !e.prog.begun && !mayBegin (s.crew c) e then s
    else
      let pops := if e.popped then [] else (tokenFifos 3 tok).1
      if pops.any fun f => tokenCount (s.crew c) f == 0 then s
      else
        let e1 := { e with popped := true, prog := { e.prog with begun := true } }
        let s1 := updEntry c 3 e.name (fun _ => e1) (s.setCrew c (pops.foldl takeToken (s.crew c)))
        match body c e1 s1 with
        | .ok true s2 => finishEntry c 3 tok e s2 (owed (s2.crew c) e)
        | .ok false s2 => updEntry c 3 e.name (fun e => { e with stalled := false }) s2
        | .error .stall _ => s1
        | .error (.stallQ q push _) _ =>
          if e.stalled then s1
          else updEntry c 3 e.name (fun e => { e with stalled := true }) (countEpisode s1 c q push false)
        | .error (.trap x) _ => raiseStroke c e1 x s1
        | .error (.trapQ q push x) _ => raiseStroke c e1 x (countEpisode s1 c q push false)
        | .error (.trapKeep x) s2 => raiseStroke c e1 x s2
        | .error (.lasting va) s2 => runM (containOwner (.crew c) 3 va) (keepErrors s1 s2)
        | .error (.status _) _ => s1

/-- Hand over or perform an M instruction. -/
def runStroke (tok : Nat) (i : Instr) (hand : Nat → Entry → M Entry) (body : Nat → Entry → M Bool) (s : State) : Out :=
  match s.cur with
  | .seq cl =>
    match s.activeCrew cl with
    | some c => .next (scalarStep (.crew c) 1 (do
        roomFor c 3
        let e ← hand c { name := 0, instr := i, pc := 0 }
        handOver c 3 e
        return .next) s)
    | none => .next s
  | u =>
    match streamHead s u with
    | some (c, 3, e) => .next (strokeTurn c tok e body s)
    | _ => .next s

/-- A lane that is no instruction, at its stream (R184, R280). -/
def badEntry (c st : Nat) (e : Entry) (s : State) : State :=
  if st = 3 then
    (if (earlier (s.crew c).mq e.name).isEmpty then raiseStroke c e { cause := 1 } s else s)
  else raiseStream c st e { cause := 1 } 0 s

/-- Nothing is read at handover. -/
def plainHand (_ : Nat) (e : Entry) : M Entry := return e

def setProg (c name : Nat) (p : Progress) : M Unit := upd (updEntry c 3 name fun e => { e with prog := p })

/-! ### Bursts (R270, R280) -/

/-- The Stroke operand fault (R280). -/
def strokeExc (reason : Nat) : Exc := { cause := 21, info := BitVec.ofNat 64 reason }
def strokeTrap {α} (reason : Nat) : M α := throw (.trap (strokeExc reason))

/-- The width an M instruction pops or pushes with: the queue's own, lines or rows. -/
def burstWidth (c q : Nat) : M Nat := do
  let v ← getQueue c q
  return if v.width = 0 then 1 else v.width

/-- Pop a burst's 1,280 bytes (R136, R140). -/
def popBurst (c q : Nat) : M (List Byte) := do
  let w ← burstWidth c q
  let v ← checkQueue c q 3 w false
  match v.entries with
  | [] => throw (emptyStop q v false true)
  | e :: rest =>
    if e.p then
      setQueue c q { v with entries := rest, mid := !e.t }
      throw (.trapKeep { cause := 20, info := BitVec.ofNat 64 q })
    let n := v.burst
    setQueue c q { v with entries := v.entries.drop n, mid := false }
    return (v.entries.take n).flatMap (·.data)

/-- The popped burst is discarded with a Stroke operand fault (R280). -/
def discardBurst {α} (c q reason : Nat) : M α := do
  let v ← getQueue c q
  setQueue c q (v.discard v.burst)
  throw (.trapKeep (strokeExc reason))

/-- EFMT that an F code requires (R270). -/
def efmtOfF (f : Nat) : Nat := [10, 11, 12, 1, 6, 2, 7, 3, 8, 13, 0, 5].getD f 15

/-- The descriptor of a TID; none where it fails R79. -/
def tidDesc (c tid : Nat) : M (Option Desc) := do
  let s ← get
  match ← nameTid (s.crew c).ctx tid (some c) (.half c) with
  | .ecc va => throw (.lasting va)
  | .refused _ va => throw (.trapKeep { cause := 9, addr := BitVec.ofNat 64 va })
  | .bad => return none
  | .ok d => return some d

/-- The footprint fault of a descriptor that the crew must read and that lies outside every pin of it (R280). A copy that the
crew keeps is not read again (R81), so the fault is found on the first burst of its TID. -/
def descFault (s : State) (c tid : Nat) : Option Exc :=
  let k := s.crew c
  let va := ((s.context k.ctx).tidTable.toNat + 64 * tid) % 2 ^ 64
  if tid = 0 ∨ (k.tids.find? tid).isSome then none
  else match descAt s va (some c) (.half c) with
    | .error _ => some { cause := 9, addr := BitVec.ofNat 64 va }
    | .ok _ => none

/-- Check a burst's header against its TID, F and the kinds allowed (R270, R280 reasons 1 and 3): its descriptor, or the exception. -/
def headerDesc (c f : Nat) (kinds : List Nat) (want : Option Nat) (b : List Byte) : M (Except Exc Desc) := do
  let tid := burstTid b
  let clash := match want with
    | some t => t != tid
    | none => false
  if clash then return .error (strokeExc 1)
  let s ← get
  match descFault s c tid with
  | some x => return .error x
  | none =>
    match ← tidDesc c tid with
    | none => return .error (strokeExc 1)
    | some d =>
      if d.efmt ≠ efmtOfF f ∨ burstSc b ≠ (d.efmt == 13) ∨ (burstScales b).any (1024 ≤ ·) then return .error (strokeExc 1)
      if !kinds.contains d.kind then return .error (strokeExc 3)
      return .ok d

/-- A popped burst's descriptor; one that fails its checks is discarded (R280). -/
def burstDesc (c q f : Nat) (kinds : List Nat) (want : Option Nat) (b : List Byte) : M Desc := do
  match ← headerDesc c f kinds want b with
  | .ok d => return d
  | .error x =>
    let v ← getQueue c q
    setQueue c q (v.discard v.burst)
    throw (.trapKeep x)

/-- The exact values of a tile row (R70, R84): padding is +0. -/
def rowValues (d : Desc) (b : List Byte) (row : Nat) : List Ex :=
  let cs := burstCoords b
  let v := leNat (((burstBody b).drop (32 * row)).take 32)
  let w := d.elemBits
  (List.range d.epr).map fun e =>
    let code := v / 2 ^ (w * e) % 2 ^ w
    if d.padding (cs.getD 0 0) (cs.getD 1 0) row e then Ex.zero
    else if d.efmt = 13 then scaledValue d.nf code ((burstScales b).getD (d.scaleIndex row e) 0)
    else ((EF.ofEfmt d.efmt).getD .nf).decode code

/-- Bursts held by an instruction. -/
def heldBurst (p : Progress) (t : Nat) : List Byte := (p.bytes.drop (1280 * t)).take 1280

/-! ### Loading planes (R273-R276) -/

/-- Write burst `n` of a load into a plane. -/
def placeBurst (d : Desc) (b : List Byte) (n : Nat) (p : Plane) : Plane :=
  let per := 256 / d.epr
  let t := n % per
  (List.range 32).foldl (fun (p : Plane) r =>
    let j := 32 * (n / per) + r
    let old := p.vals.getD j (List.replicate 256 Ex.zero)
    let col := old.take (t * d.epr) ++ rowValues d b r ++ old.drop ((t + 1) * d.epr)
    { p with vals := p.vals.put j col (List.replicate 256 Ex.zero) }) p

/-- The column bound of MLDSP (R273). -/
def columnBound (col : List Ex) : BitVec 32 :=
  if col.any fun v => v.isNaN || v.isInf then 0x7F800000#32
  else BitVec.ofNat 32 (roundF (col.foldl (fun m v => if m.lt v.abs then v.abs else m) Ex.zero) .f32 2 0).1

/-- Bursts 0 to n of a load, one each turn. -/
def loadPlane (o : StrokeFmt) (bound : Bool) (c : Nat) (e : Entry) : M Bool := do
  let p := e.prog
  let b ← popBurst c o.q
  let cs := burstCoords b
  let d ← burstDesc c o.q o.f [0, 1] (if p.count = 0 then none else p.nums.head?) b
  let per := 256 / d.epr
  let first := if p.count = 0 then cs else p.nums.drop 1
  let at_ (i : Nat) : Nat := cs.getD i 0
  let base (i : Nat) : Nat := first.getD i 0
  if at_ 1 ≠ base 1 + p.count / per ∨ at_ 2 ≠ base 2 ∨ at_ 3 ≠ base 3 ∨ (!bound && at_ 0 != base 0 + p.count % per) then
    discardBurst c o.q 2
  let v ← getStroke c o.arr
  let sh := placeBurst d b p.count v.shadow
  let sh := if p.count = 0 then { sh with origin := at_ 1 } else sh
  if p.count + 1 < 8 * per then
    setStroke c o.arr { v with shadow := sh }
    setProg c e.name { p with count := p.count + 1, nums := burstTid b :: first }
    return false
  else
    let mq : Tbl (BitVec 32) := if bound then
        (List.range 256).foldl (fun t j => t.put j (columnBound (sh.vals.getD j [])) 0) []
      else sh.mq
    setStroke c o.arr { v with shadow := { sh with mask := [], mqv := bound, mq := mq } }
    return true

def execMlds (o : StrokeFmt) (s : State) : Out := runStroke o.tok (.mlds o) plainHand (loadPlane o false) s

def execMldsp (o : StrokeFmt) (s : State) : Out := runStroke o.tok (.mldsp o) plainHand (loadPlane o true) s

def execMswap (o : StrokeFmt) (s : State) : Out :=
  runStroke o.tok (.mswap o) plainHand (fun c _ => do
    let v ← getStroke c o.arr
    setStroke c o.arr { v with front := v.shadow, shadow := v.front }
    return true) s

/-- At most two ones in each group of four bits (R274). -/
def maskOk (m : Nat) : Bool := (List.range 64).all fun g => popCount (m / 2 ^ (4 * g) % 16) 4 ≤ 2

def execMmask (o : StrokeFmt) (s : State) : Out :=
  runStroke o.tok (.mmask o) plainHand (fun c e => do
    let b ← popBurst c o.q
    let p := { e.prog with count := e.prog.count + 1, bytes := e.prog.bytes ++ burstBody b }
    if p.count < 8 then
      setProg c e.name p
      return false
    else
      let ms := (List.range 256).map fun j => leNat ((p.bytes.drop (32 * j)).take 32)
      if !ms.all maskOk then throw (.trapKeep (strokeExc 4))
      let v ← getStroke c o.arr
      let mask : Tbl (BitVec 256) :=
        ms.zipIdx.foldl (fun t (m, j) => t.put j (BitVec.ofNat 256 m) (BitVec.allOnes 256)) []
      setStroke c o.arr { v with shadow := { v.shadow with mask := mask } }
      return true) s

/-- The larger of two bounds. -/
def maxBound (a b : Nat) : Nat := if (FFmt.f32.decode a).lt (FFmt.f32.decode b) then b else a

def execMbnd (o : StrokeFmt) (s : State) : Out :=
  runStroke o.tok (.mbnd o) plainHand (fun c _ => do
    let v ← getStroke c o.arr
    if !v.shadow.mqv then strokeTrap 6
    let b ← popBurst c o.q
    let ws := (List.range 256).map fun j => fieldAt (burstBody b) (4 * j) 4
    if ws.any fun w => FFmt.f32.isNaN w || (FFmt.f32.decode w).lt Ex.zero then discardBurst c o.q 5
    let mq := ws.zipIdx.foldl (fun (t : Tbl (BitVec 32)) (w, j) =>
      t.put j (BitVec.ofNat 32 (maxBound (t.getD j 0).toNat w)) 0) v.shadow.mq
    setStroke c o.arr { v with shadow := { v.shadow with mq := mq } }
    return true) s

/-! ### Accumulating (R70, R277, R291) -/

/-- Values of a column of a plane for a block, zero where the mask prunes (R274). -/
structure ColBlock where
  vals : List Ex
  keep : List Bool
  deriving Repr, Inhabited

def Plane.block (p : Plane) (blk j : Nat) : ColBlock :=
  let m := p.mask.getD j (BitVec.allOnes 256)
  { vals := ((p.vals.getD j (List.replicate 256 Ex.zero)).drop (32 * blk)).take 32
    keep := (List.range 32).map fun u => m.getLsbD (32 * blk + u) }

/-- A product's term: +0 where the mask prunes it or the streamed element lies beyond the reduction length (R70). -/
def blockTerm (x : Option Ex) (y : Ex) (keep : Bool) : Ex :=
  match x with
  | some v => if keep then v.mul y else Ex.zero
  | none => Ex.zero

/-- `ExactSum` of a block's products (R70, R71). -/
def blockSum (a : List (Option Ex)) (b : ColBlock) : Ex :=
  Ex.sum (((a.zip b.vals).zip b.keep).map fun ((x, y), keep) => blockTerm x y keep)

/-- Unit in the last place of an f32 value (R291). -/
def ulp (a : Nat) : Ex :=
  match FFmt.f32.decode a with
  | .fin _ n d => if n = 0 then Ex.scaled false 1 (-149) else Ex.scaled false 1 (max (floorLog2 n d) (-126) - 23)
  | _ => .inf false

/-- A cell after a block's sum, with its error bound (R291). -/
def Cell.add (e : Cell) (s : Ex) : Cell :=
  let v := (FFmt.f32.decode e.acc.toNat).add 0 s
  let a := roundNE v
  let x := FFmt.f32.decode a
  let err := if x.isNaN || x.isInf then 0x7F800000
    else if x.eqv v then e.err.toNat
    else (roundF ((FFmt.f32.decode e.err.toNat).add 0 ((ulp a).mul (Ex.scaled false 1 (-1)))) .f32 2 0).1
  { e with acc := BitVec.ofNat 32 a, err := BitVec.ofNat 32 err }

/-- A block into a tile: rows of streamed values against a plane's block; abandoned cells take nothing. -/
def XTile.addBlock (t : XTile) (p : Plane) (blk : Nat) (rows : List (List (Option Ex))) : XTile :=
  let cols := (List.range 256).map fun j => p.block blk j
  t.mapAll fun i e => if e.isGone then e else e.add (blockSum (rows.getD (i / 256) []) (cols.getD (i % 256) default))

/-- A streamed tile row; none where an element lies beyond the reduction length. -/
def streamedRow (d : Desc) (b : List Byte) (row : Nat) : List (Option Ex) :=
  let c0 := (burstCoords b).getD 0 0
  (rowValues d b row).zipIdx.map fun (v, e) => if d.dimOf 0 ≤ c0 * d.epr + e then none else some v

/-- Rows 0 to 31 of block `blk` of an instruction's bursts. -/
def blockRows (d : Desc) (p : Progress) (blk : Nat) : List (List (Option Ex)) :=
  let n := d.epr
  (List.range 32).map fun r =>
    if 32 ≤ n then ((streamedRow d (heldBurst p (32 * blk / n)) r).drop (32 * blk % n)).take 32
    else (List.range (32 / n)).flatMap fun i => streamedRow d (heldBurst p (32 * blk / n + i)) r

/-- Some summed position of a block has a reserved scale (R285): those of a row's positions are one, but for scales along the other
axis (R87). -/
def blockReserved (d : Desc) (p : Progress) (blk : Nat) (t : XTile) : Bool :=
  d.efmt == 13 && (List.range 32).any fun r =>
    let b := heldBurst p (32 * blk / d.epr)
    let alive := !((List.range 256).all fun j => (t.cells.getD (r * 256 + j) {}).isGone)
    alive && (List.range 32).any fun u =>
      let e := 32 * blk % d.epr + u
      !d.padding ((burstCoords b).getD 0 0) ((burstCoords b).getD 1 0) r e &&
      (match decodeS10 ((burstScales b).getD (d.scaleIndex r e) 0) with
       | .nan reserved => reserved
       | _ => false)

/-- The tag an accumulation gives its tile (R277, R288). -/
def XTile.tagged (t : XTile) (cs : List Nat) (origin : Nat) : XTile :=
  { t with c1 := cs.getD 1 0, c2 := cs.getD 2 0, c3 := cs.getD 3 0, origin := origin }

/-- The descriptor of a TID that an instruction has already checked. -/
def knownDesc (c tid : Nat) : M Desc := do
  match ← tidDesc c tid with
  | some d => return d
  | none => strokeTrap 1

/-- Pop and check burst `count` of an MRUN. -/
def runBurst (o : StrokeFmt) (c : Nat) (e : Entry) : M Unit := do
  let p := e.prog
  let b ← popBurst c o.q
  let cs := burstCoords b
  let _ ← burstDesc c o.q o.f [0, 1] (if p.count = 0 then none else p.nums.head?) b
  let first := if p.count = 0 then cs else p.nums.drop 1
  if cs.getD 0 0 ≠ first.getD 0 0 + p.count ∨ cs.drop 1 ≠ first.drop 1 then discardBurst c o.q 2
  let v ← getStroke c o.arr
  if p.count = 0 then setStroke c o.arr (v.setTile o.x ((v.tile o.x).tagged cs v.front.origin))
  setProg c e.name { p with count := p.count + 1, nums := burstTid b :: first, bytes := p.bytes ++ b }

def execMrun (o : StrokeFmt) (s : State) : Out :=
  runStroke o.tok (.mrun o) plainHand (fun c e => do
    let p := e.prog
    if p.count = 0 then
      runBurst o c e
      return false
    let d ← knownDesc c (p.nums.headD 0)
    if 32 * p.pos + 32 ≤ p.count * d.epr then
      let s ← get
      if !(← blockCheck (s.crew c).cl o.arr) then return false
      let v ← getStroke c o.arr
      let t := (v.tile o.x).addBlock v.front p.pos (blockRows d p p.pos)
      let t := { t with rsv := t.rsv || blockReserved d p p.pos (v.tile o.x) }
      setStroke c o.arr (v.setTile o.x t)
      setProg c e.name { p with pos := p.pos + 1 }
      return p.pos = 7
    else
      runBurst o c e
      return false) s

def execMzero (o : StrokeFmt) (s : State) : Out :=
  runStroke o.tok (.mzero o) plainHand (fun c _ => do
    let v ← getStroke c o.arr
    setStroke c o.arr (v.setTile o.x (v.tile o.x).zeroed)
    return true) s

def execMwait (o : StrokeFmt) (s : State) : Out := runStroke o.tok (.mwait o) plainHand (fun _ _ => return true) s

/-! ### The umpire (R292, R293) -/

def rup (v : Ex) : Ex := FFmt.f32.decode (roundF v .f32 2 0).1
def rdn (v : Ex) : Ex := FFmt.f32.decode (roundF v .f32 3 0).1
def subEx (a b : Ex) : Ex := a.add 0 b.neg

/-- The verdict on a cell, if it is decided (R292): the bit its record keeps. -/
def verdict (pred : Nat) (acc err b T : Ex) : Option Nat :=
  if acc.isNaN || err.isInf || b.isInf then none
  else
    let lo := rdn (subEx acc err)
    let hi := rup (acc.add 0 err)
    let below := (rup (hi.add 0 b)).lt T
    let above := T.lt (rdn (subEx lo b))
    match pred with
    | 0 => if b.lt lo then some 1 else if hi.lt b.neg then some 0 else none
    | 1 => if below then some 0 else if above then some 1 else none
    | 2 => if below then some 1 else if above then some 0 else none
    | _ => if below then some 0 else none

/-- What a row's tail bound reads as: its value, and whether the code is reserved (R92, R292). -/
def tailBound (code : Nat) : Ex × Bool :=
  match decodeS10 code with
  | .zero => (Ex.zero, false)
  | .fin v => (v, false)
  | .inf => (.inf false, false)
  | .nan _ => (.inf false, true)

/-- The tail bounds of a chunk's rows at a position: read row by row through pins (R92, R471). -/
def tailBounds (c : Nat) (d : Desc) (c1 p : Nat) : List Nat → M (List (Ex × Bool))
  | [] => return []
  | r :: rest => do
    let here ← if d.padding 0 c1 r 0 then pure (Ex.zero, false) else do
      let va := d.side + 1024 * (c1 * ((d.nb + 15) / 16) + p / 16) + 32 * r
      match ← readPinned (.half c) (crewPins c) va 32 with
      | .ok bs => pure (tailBound (fieldAt bs (2 * (p % 16)) 2 % 1024))
      | .error .ecc =>
        let s ← get
        containReport (s.crew c).ctx (handleOf (s.crew c)) va 3 (s.crew c).cl 1 6
        pure (.inf false, false)
      | .error _ => throw (.trapKeep { cause := 9, addr := BitVec.ofNat 64 va })
    let more ← tailBounds c d c1 p rest
    return here :: more

/-- Whether a cell is inert (R292). -/
def inert (p : Plane) (d : Desc) (c1 i : Nat) : Bool :=
  (FFmt.f32.decode (p.mq.getD (i % 256) 0).toNat).isZero || d.padding 0 c1 (i / 256) 0

/-- The umpire after stored position `p` (R292): the tile with decided cells abandoned. -/
def umpire (pred p : Nat) (pl : Plane) (d : Desc) (c1 : Nat) (tbs : List (Ex × Bool)) (T : Ex) (t : XTile) : XTile :=
  t.mapAll fun i e =>
    if e.isGone || inert pl d c1 i then e
    else
      let tb := (tbs.getD (i / 256) (Ex.zero, false)).1
      let mq := FFmt.f32.decode (pl.mq.getD (i % 256) 0).toNat
      let b := if tb.isInf || mq.isInf then Ex.inf false else rup (tb.mul mq)
      match verdict pred (FFmt.f32.decode e.acc.toNat) (FFmt.f32.decode e.err.toNat) b T with
      | some v => { e with st := .gone pred v (p + 1) }
      | none => e

/-- A tile with no live cell that is not inert, and some abandoned cell (R293). -/
def isSettled (pl : Plane) (d : Desc) (c1 : Nat) (t : XTile) : Bool :=
  t.cells.any (fun e => e.2.isGone) &&
  (List.range 8192).all fun i => (t.cells.getD i {}).isGone || inert pl d c1 i

/-- The branch queue of a crew. -/
def branchQueue (k : Crew) : Option Nat := (List.find? (fun e : Nat × Queue => e.2.isOpen && e.2.brq) k.queues).map (·.1)

/-- S waits at a push to the branch queue, which it has reached. -/
def pushWaits (k : Crew) : Bool := k.atBrq && k.sc.stalled && k.smode == .running

/-- A skip token starts for the branch queue (R149); a crew without an open one drops it. -/
def skipToken (c arr x q : Nat) : M Unit := upd fun s =>
  let k := s.crew c
  if (branchQueue k).isSome then s.setCrew c { k with skipToks := k.skipToks ++ [(BitVec.ofNat 64 (x * 2 ^ 9 + arr * 2 ^ 8 + q), pushWaits k)] }
  else s

/-! ### MVER (R288-R293) -/

/-- Bursts an MVER pops (R289). -/
def verBursts (d : Desc) (np : Nat) : Nat := min (256 / d.epr) (((d.nb - np) * 32 + d.epr - 1) / d.epr)

/-- Pop and check burst `count` of an MVER. -/
def verBurst (o : StrokeFmt) (c : Nat) (e : Entry) : M Unit := do
  let p := e.prog
  let v ← getStroke c o.arr
  let t := v.tile o.x
  let b ← popBurst c o.q
  let cs := burstCoords b
  let d ← burstDesc c o.q o.f [1] (if t.np = 0 then none else some t.vtid) b
  let first := if p.count = 0 then cs else p.nums.drop 1
  if cs.getD 0 0 * d.epr ≠ 32 * t.np ∨ cs.drop 1 ≠ first.drop 1 then discardBurst c o.q 2
  if p.count = 0 then
    setStroke c o.arr (v.setTile o.x { t.tagged cs v.front.origin with vtid := burstTid b })
  setProg c e.name { p with count := p.count + 1, nums := burstTid b :: first, bytes := p.bytes ++ b }

/-- A tile whose NP moves on; at nb every live cell becomes complete (R289). -/
def XTile.reach (t : XTile) (nb np : Nat) : XTile :=
  let t := { t with np := min nb np }
  if nb ≤ np then t.mapAll fun _ x => if x.isGone then x else { x with st := .complete } else t

/-- One block of an MVER on a tile that is not settled. -/
def verBlock (o : StrokeFmt) (c : Nat) (e : Entry) (d : Desc) : M Unit := do
  let p := e.prog
  let v ← getStroke c o.arr
  let t := v.tile o.x
  let c1 := t.c1
  let pos := t.np
  let summed := t.addBlock v.front p.pos (blockRows d p p.pos)
  let summed := { summed with rsv := t.rsv || blockReserved d p p.pos t, np := pos + 1 }
  if pos + 1 < d.nb then
    let tbs ← tailBounds c d c1 (pos + 1) (List.range 32)
    let s ← get
    let T := FFmt.f32.decode ((s.crew c).thr o.h)
    let u := umpire o.p pos v.front d c1 tbs T summed
    let done := isSettled v.front d c1 u
    setStroke c o.arr (v.setTile o.x { u with rsv := u.rsv || tbs.any (·.2), settled := done })
    if done then skipToken c o.arr o.x o.q
  else
    setStroke c o.arr (v.setTile o.x (summed.reach d.nb (pos + 1)))
  setProg c e.name { p with pos := p.pos + 1 }

/-- A skip of R144 for an MVER: what has arrived of the burst is discarded, and its header is kept for the checks (R289). -/
def Queue.skipWatched (q : Queue) : Queue := { q.skipTail with watch := some ((q.part.head?.map (·.data)).getD []) }

/-- The header of the next burst of an MVER on a settled tile, which is discarded under R144: of one that is there, or of one that
has gone by on a queue that skips since. None while it goes by; empty where no header came (R293, log 88). -/
def skippedHeader (c q : Nat) : M (Option (List Byte)) := do
  let w ← burstWidth c q
  let v ← checkQueue c q 3 w false
  if v.skip then throw .stall
  match v.watch with
  | some b =>
    setQueue c q { v with watch := none }
    return some b
  | none =>
    if v.entries.isEmpty then
      setQueue c q v.skipWatched
      return none
    else
      let b ← popBurst c q
      let v ← getQueue c q
      setQueue c q (v.discard v.burst)
      return some b

/-- Discard the next burst of an MVER on a settled tile (R293): it is checked like any other, and the first one gives the tile its
tag (R288, R289). -/
def verDiscard (o : StrokeFmt) (c : Nat) (e : Entry) (d : Desc) : M Unit := do
  match ← skippedHeader c o.q with
  | none => pure ()
  | some b =>
    let v ← getStroke c o.arr
    let t := v.tile o.x
    let p := e.prog
    let cs := burstCoords b
    let first := if p.nums.isEmpty then cs else p.nums.drop 1
    if !b.isEmpty then
      match ← headerDesc c o.f [1] (some t.vtid) b with
      | .error x => throw (.trapKeep x)
      | .ok _ => pure ()
      if cs.getD 0 0 * d.epr ≠ 32 * t.np ∨ cs.drop 1 ≠ first.drop 1 then throw (.trapKeep (strokeExc 2))
    let t := if p.count = 0 ∧ b ≠ [] then t.tagged cs v.front.origin else t
    setStroke c o.arr (v.setTile o.x (t.reach d.nb (t.np + d.epr / 32)))
    setProg c e.name { p with
      count := p.count + 1, pos := (p.count + 1) * (d.epr / 32), nums := if b.isEmpty then p.nums else burstTid b :: first }

/-- A turn of MVER: the checks, a burst, or a block. `events` holds the bursts to pop plus one once known. -/
def verTurn (o : StrokeFmt) (c : Nat) (e : Entry) : M Bool := do
  let v ← getStroke c o.arr
  let t := v.tile o.x
  let p := e.prog
  if p.count = 0 && !v.front.mqv then strokeTrap 6
  if t.np = 0 && p.count = 0 then
    verBurst o c e
    return false
  let d ← knownDesc c t.vtid
  if p.count = 0 && p.events = 0 && d.nb ≤ t.np then strokeTrap 7
  let p := if p.events = 0 then { p with events := verBursts d (t.np - p.pos) + 1 } else p
  let e := { e with prog := p }
  if p.pos < p.count * (d.epr / 32) && t.np < d.nb then
    if t.settled then
      setStroke c o.arr (v.setTile o.x (t.reach d.nb (t.np + 1)))
      setProg c e.name { p with pos := p.pos + 1 }
      return false
    else
      let s ← get
      if !(← blockCheck (s.crew c).cl o.arr) then return false
      verBlock o c e d
      return false
  else if p.count + 1 < p.events then
    if t.settled then verDiscard o c e d else verBurst o c e
    return false
  else return true

/-- The threshold of an MVER must have no HRD outstanding at its handover (R238). -/
def execMver (o : StrokeFmt) (s : State) : Out :=
  runStroke o.tok (.mver o) (fun c e => do
    if o.p ≠ 0 then hrdSettled c o.h
    return e) (verTurn o) s

/-! ### Draining (R282-R287) -/

/-- A drain's handover: the output TID and its `TSF` entry (R282, R285). -/
def drainHand (o : StrokeFmt) (c : Nat) (e : Entry) : M Entry := do
  let s ← get
  let k := s.crew c
  let v := k.stroke o.arr
  setStroke c o.arr { v with dsn := v.dsn + 1 }
  return { e with sval := k.strokeOut.getD o.arr 0, sidx := v.dsn.toNat }

/-- The output descriptor of a drain, checked before it pushes anything (R280, R282). -/
def drainDesc (c f tid origin : Nat) (first : Bool) : M Desc := do
  let s ← get
  match (if first then descFault s c tid else none) with
  | some x => throw (.trap x)
  | none =>
    match ← tidDesc c tid with
    | none => strokeTrap 8
    | some d =>
      if d.kind ≠ 0 ∨ d.efmt ≠ efmtOfF f ∨ (d.efmt = 13 ∧ d.rax = 1) ∨ 32 * origin % d.epr ≠ 0 then strokeTrap 8
      return d

/-- Codes of width `w` packed into bytes, low first. -/
def packCodes (w : Nat) (l : List Nat) : List Byte :=
  leBytes (l.length * w / 8) (l.foldr (fun v acc => v % 2 ^ w + 2 ^ w * acc) 0)

/-- How a drain converts a row of cells: scales, codes and flags. -/
def drainRow (d : Desc) (mode : Nat) (rnd : Nat → Nat) (raw : Bool) (cells : List Cell) : List Nat × List Nat × Flags :=
  let ef := (EF.ofEfmt d.efmt).getD .nf
  let word (e : Cell) : Nat := if e.isGone then FFmt.f32.qnan else e.acc.toNat
  if raw then
    ([], cells.map fun e => match e.st with
      | .gone r v k => makeSCR r k v
      | _ => e.acc.toNat, 0)
  else if d.efmt = 13 then
    let blocks := (List.range (d.epr / 32)).map fun b =>
      quantise (((cells.drop (32 * b)).take 32).map word) d.nf mode fun i => rnd (32 * b + i)
    (blocks.map (·.1), blocks.flatMap (·.2.1), blocks.foldl (fun a r => orf a r.2.2) 0)
  else
    let rs := cells.zipIdx.map fun (e, i) =>
      if e.isGone then ((match ef with
        | .flt f => f.qnan
        | _ => 0), 0)
      else convertTo (FFmt.f32.decode e.acc.toNat) ef mode (rnd i)
    ([], rs.map (·.1), rs.foldl (fun a r => orf a r.2) 0)

/-- Burst `n` of a drain and its flags (R283, R284). -/
def drainBurst (o : StrokeFmt) (e : Entry) (d : Desc) (t : XTile) (raw : Bool) (n : Nat) : List Byte × Flags :=
  let tid := e.sval.toNat % 4096
  let cs := [(32 * t.origin / d.epr + n) % 2 ^ 32, t.c1, t.c2, t.c3]
  let mode := if o.p = 5 then bits e.vctl.toNat 10 8 else o.p
  let rows := (List.range 32).map fun i =>
    let rnd (k : Nat) : Nat :=
      if mode = 4 then srHash e.seed.toNat tid (cs.getD 0 0) t.c1 t.c2 t.c3 (i * d.epr + k) else 0
    drainRow d mode rnd raw ((List.range d.epr).map fun k => t.cells.getD (i * 256 + n * d.epr + k) {})
  let scales := rows.flatMap (·.1)
  (burstBytes tid (d.efmt == 13) cs (scales ++ List.replicate (64 - scales.length) 0)
      (rows.flatMap fun r => packCodes d.elemBits r.2.1),
   rows.foldl (fun a r => orf a r.2.2) 0)

/-- A `TSF` entry (R285): numeric flags, and what the tile held. -/
def tsfWord (o : StrokeFmt) (t : XTile) (fl : Flags) : Nat :=
  let b (x : Bool) (n : Nat) : Nat := if x then 2 ^ n else 0
  let has (p : Ex → Bool) : Bool := t.cells.any fun e => !e.2.isGone && p (FFmt.f32.decode e.2.acc.toNat)
  b (fl &&& Flag.nv != 0) 0 + b (fl &&& Flag.of != 0) 1 + b (fl &&& Flag.uf != 0) 2 + b (fl &&& Flag.nx != 0) 3 +
  b (fl &&& Flag.sat != 0) 4 + b (fl &&& Flag.ufl != 0) 5 + b (fl &&& Flag.nfb != 0) 6 + b t.rsv 7 +
  b (has Ex.isNaN) 8 + b (has Ex.isInf) 9 + b (t.abandoned != 0) 10 + b t.settled 11 + 2 ^ 12 + o.x * 2 ^ 13 +
  t.abandoned * 2 ^ 16

/-- Push entry `pos` of a burst. -/
def pushBurstEntry (c q : Nat) (b : List Byte) (pos : Nat) : M Bool := do
  let w ← burstWidth c q
  let es := burstEntries w b
  pushQueue c q 3 w (es.getD pos { data := [] })
  return pos + 1 = es.length

/-- A turn of a drain: one entry pushed, and at the end the `TSF` entry and CLR. -/
def drainTurn (o : StrokeFmt) (raw : Bool) (c : Nat) (e : Entry) : M Bool := do
  let v ← getStroke c o.arr
  let t := v.tile o.x
  let p := e.prog
  let d ← drainDesc c o.f (e.sval.toNat % 4096) t.origin (p.count == 0 && p.pos == 0)
  let (b, fl) := drainBurst o e d t raw p.count
  let last ← pushBurstEntry c o.q b p.pos
  let fl := orf p.events fl
  if !last then
    setProg c e.name { p with pos := p.pos + 1 }
    return false
  else if p.count + 1 < 256 / d.epr then
    setProg c e.name { p with pos := 0, count := p.count + 1, events := fl }
    return false
  else
    let v := { v with tsf := v.tsf.put e.sidx (BitVec.ofNat 32 (tsfWord o t fl)) 0 }
    setStroke c o.arr (if o.h % 2 = 1 then v.setTile o.x t.zeroed else v)
    return true

def execMdrain (o : StrokeFmt) (s : State) : Out :=
  runStroke o.tok (.mdrain o) (drainHand o) (drainTurn o false) s

def execMdrainv (o : StrokeFmt) (s : State) : Out :=
  runStroke o.tok (.mdrainv o) (drainHand o) (drainTurn o true) s

/-- The burst MSTAT pushes (R287). -/
def statBurst (t : XTile) : List Byte :=
  let row (i : Nat) : Nat := (List.range 256).foldl (fun acc j =>
    acc + if (t.cells.getD (i * 256 + j) {}).isGone then 2 ^ j else 0) 0
  burstBytes 0 false [t.np, t.abandoned, if t.settled then 1 else 0, 0] [] ((List.range 32).flatMap fun i => leBytes 32 (row i))

def execMstat (o : StrokeFmt) (s : State) : Out :=
  runStroke o.tok (.mstat o) plainHand (fun c e => do
    let v ← getStroke c o.arr
    let last ← pushBurstEntry c o.q (statBurst (v.tile o.x)) e.prog.pos
    if last then return true
    else
      setProg c e.name { e.prog with pos := e.prog.pos + 1 }
      return false) s

end Sys2Proof.Machine
end

