-- ==== Sys2Proof/Machine/Plans.lean ====
section
/-! DEFINITION. Shuffle plans as they stand in memory: header, entries and groups, and what makes one well formed (R402, R403). -/

namespace Sys2Proof.Machine

/-- Bytes `lo` to `lo + n − 1` of a record are zero. -/
def zeroAt (b : List Byte) (lo n : Nat) : Bool := ((b.drop lo).take n).all (· == 0)

/-- A plan entry (R403's table). -/
structure PlanEntry where
  name : Name
  src : Nat
  len : Nat
  flags : Nat
  rsv : Nat
  nelem : Nat
  addr : Nat
  dmask : Nat
  deriving DecidableEq, Repr, Inhabited

def PlanEntry.ofBytes (b : List Byte) : PlanEntry :=
  { name := { shid := fieldAt b 0xA 2, src := fieldAt b 4 4, blk := fieldAt b 0 4 }, src := fieldAt b 4 4, len := fieldAt b 8 2
    flags := fieldAt b 0xC 1, rsv := fieldAt b 0xD 1, nelem := fieldAt b 0xE 2, addr := fieldAt b 0x10 8, dmask := fieldAt b 0x18 8 }

def PlanEntry.quant (e : PlanEntry) : Bool := bit e.flags 0

/-- A local plan. -/
structure Plan where
  h : List Byte
  parts : List Nat := []
  sends : List PlanEntry := []
  recvs : List PlanEntry := []
  sides : List PlanEntry := []
  groups : List (List Nat) := []
  groupRsv : Bool := false
  deriving DecidableEq, Repr, Inhabited

namespace Plan

def shid (p : Plan) : Nat := fieldAt p.h 2 2
def npart (p : Plan) : Nat := fieldAt p.h 4 1
def rank (p : Plan) : Nat := fieldAt p.h 5 1
def pflags (p : Plan) : Nat := fieldAt p.h 6 1
def qrm (p : Plan) : Nat := p.pflags % 8
def qtid (p : Plan) : Nat := fieldAt p.h 8 2
def deadline (p : Plan) : Nat := fieldAt p.h 0xA 2
def ngrp (p : Plan) : Nat := fieldAt p.h 0xC 4
def nsend (p : Plan) : Nat := fieldAt p.h 0x10 4
def nrecv (p : Plan) : Nat := fieldAt p.h 0x14 4
def nside (p : Plan) : Nat := fieldAt p.h 0x18 4
def partsAt (p : Plan) : Nat := fieldAt p.h 0x20 8
def entriesAt (p : Plan) : Nat := fieldAt p.h 0x28 8
def groupsAt (p : Plan) : Nat := fieldAt p.h 0x30 8
def count (p : Plan) : Nat := p.nsend + p.nrecv + p.nside

/-- The header's fields are in range (R403). -/
def headOk (p : Plan) : Bool :=
  fieldAt p.h 0 2 == 1 && p.shid != 0 && 2 ≤ p.npart && p.npart ≤ 64 && p.rank < p.npart && p.pflags < 16 && p.qrm ≤ 4 &&
  zeroAt p.h 7 1 && p.qtid < 4096 && (p.deadline == 0 || 100 ≤ p.deadline) && zeroAt p.h 0x1C 4 && zeroAt p.h 0x38 8 &&
  p.nsend ≤ 65535 && p.nrecv ≤ 65535 && p.nrecv + p.nside ≤ 65536 && p.ngrp ≤ p.nsend

/-- An entry's own fields. -/
def entryOk (e : PlanEntry) : Bool :=
  e.src < 2 ^ 20 && 1 ≤ e.len && e.len ≤ 4096 && e.name.shid != 0 && e.flags < 4 && e.rsv == 0 &&
  (if e.quant then e.nelem % 32 == 0 && 32 ≤ e.nelem && e.nelem ≤ 1024 else e.nelem == 0)

/-- Group members: the indexes before the first 0xFFFF. -/
def members (r : List Byte) : List Nat := ((List.range 4).map fun k => fieldAt r (2 * k) 2).takeWhile (· != 0xFFFF)

def groupOk (nsend : Nat) (r : List Byte) : Bool :=
  let m := members r
  zeroAt r 8 8 && 2 ≤ m.length && m.all (· < nsend) &&
  ((List.range 4).drop m.length).all fun k => fieldAt r (2 * k) 2 == 0xFFFF

/-- Bytes of a quantised block (R403). -/
def quantLen (n w : Nat) : Nat := (if w = 4 then n / 2 else n) + n / 16

/-- The rest of R403, the narrow TID apart. -/
def ok (p : Plan) : Bool :=
  let names (l : List PlanEntry) : List Name := l.map (·.name)
  p.parts.Nodup && p.parts.getD p.rank 0 == selfId && (p.sends ++ p.recvs ++ p.sides).all entryOk &&
  decide (names p.sends).Nodup && decide (names p.recvs).Nodup && decide (names p.sides).Nodup &&
  (p.recvs.all fun e => !(names p.sides).contains e.name) &&
  (p.sends.all fun e => e.dmask != 0 && !bit e.dmask p.rank && e.dmask < 2 ^ p.npart && e.addr != 0 && !bit e.flags 1) &&
  (p.recvs.all fun e => e.dmask == 0 && e.addr != 0 && !e.quant) && (p.sides.all fun e => e.dmask == 0 && e.flags == 0) &&
  decide p.groups.flatten.Nodup && !p.groupRsv

end Plan

end Sys2Proof.Machine
end

