-- ==== Sys2Proof/Machine/Commands.lean ====
section
/-! DEFINITION. Engine commands: issue and issue pins, taking a block, derived edges, ports, completion, fences and PREFL2
(R106, R120, R125, R126, R130, R173-R176, R295-R303, R309, R311, R313, R463). -/

namespace Sys2Proof.Machine

/-! ### Commands in their queues -/

/-- Which engine: its name in what follows is `copy` true for the copy engine. -/
def Cluster.queueOf (c : Cluster) (copy : Bool) : List Cmd := if copy then c.copyQ else c.indexQ

def Cluster.setQueueOf (c : Cluster) (copy : Bool) (l : List Cmd) : Cluster :=
  if copy then { c with copyQ := l } else { c with indexQ := l }

/-- Change a command wherever it stands. -/
def updCmd (cl : Nat) (copy : Bool) (id : Nat) (f : Cmd → Cmd) (s : State) : State :=
  let c := s.cluster cl
  s.setCluster cl (c.setQueueOf copy ((c.queueOf copy).map fun e => if e.id == id then f e else e))

/-- Where a command runs. -/
structure Eng where
  cl : Nat
  copy : Bool
  deriving DecidableEq, Repr, Inhabited

def Eng.agent (_ : Eng) (c : Cmd) : Agent := .cmd c.id

/-- Its number among the sources of R313. -/
def Eng.source (g : Eng) : Nat := g.cl * 2 + if g.copy then 0 else 1

/-- A command ends with a status (R301). -/
def endStatus {α} (n : Nat) : M α := throw (.status n)

/-- Statuses by the exceptions a queue gives (R301). -/
def queueStatus (x : Exc) : Nat := if x.cause = 13 then 10 else 9

/-- Run a queue operation as a command does: misuse ends the command (R301, R136). -/
def asCommand {α} (m : M α) : M α := fun s =>
  match m s with
  | .error (.trap x) s' => .error (.status (queueStatus x)) s'
  | .error (.trapQ _ _ x) s' => .error (.status (queueStatus x)) s'
  | .error (.trapKeep _) s' => .error (.status 9) s'
  | .error (.lasting _) s' => .error (.status 12) s'
  | r => r

/-- The crew of a command that names a queue; an unbound thread has none (R224). -/
def Cmd.crewOrFault (c : Cmd) : M Nat :=
  match c.crew with
  | some k => return k
  | none => endStatus 9

def Cmd.pins (c : Cmd) : Pin → Bool := cmdPins c.id c.issuer c.crew

def Cmd.handle (c : Cmd) (s : State) : Nat :=
  match c.crew with
  | some k => handleOf (s.crew k)
  | none => 0

/-- The status of a refused access (R301, R463). -/
def badStatus : Bad → Nat
  | .footprint => 3
  | .revoked => 13
  | .ecc => 12

/-- A command meets a lasting error (R471): the report, and status `ECC`. -/
def eccStop {α} (c : Cmd) (va : Nat) : M α := do
  let s ← get
  containReport c.ctx (c.handle s) va 3 0 1 1
  endStatus 12

/-- A command's read. -/
def cmdRead (g : Eng) (c : Cmd) (va n : Nat) : M (List Byte) := do
  match ← readPinned (g.agent c) c.pins (va % 2 ^ 64) n with
  | .ok bs => return bs
  | .error .ecc => eccStop c va
  | .error b => endStatus (badStatus b)

/-- A command's write. -/
def cmdWrite (g : Eng) (c : Cmd) (va : Nat) (bs : List Byte) : M Unit := do
  match ← writePinned (g.agent c) c.pins (va % 2 ^ 64) bs with
  | .ok _ => return ()
  | .error b => endStatus (badStatus b)

/-- The physical address of a command's access within one line. -/
def cmdPhys (c : Cmd) (va n : Nat) (write : Bool) : M Nat := do
  let s ← get
  match resolve s c.pins va n write with
  | .ok ((pa, _) :: _) => return pa
  | .ok [] => endStatus 3
  | .error b => endStatus (badStatus b)

/-- The descriptor of a TID for a command (R314, R471): `DESCRIPTOR` where it fails R79 or a write names a read-only one. -/
def cmdDesc (g : Eng) (c : Cmd) (tid : Nat) (write : Bool) : M Desc := do
  match ← nameTid c.ctx tid c.crew (g.agent c) with
  | .ecc va => eccStop c va
  | .refused b _ => endStatus (badStatus b)
  | .bad => endStatus 4
  | .ok d => if write && d.ro then endStatus 4 else return d

def setCmd (g : Eng) (c : Cmd) : M Unit := upd (updCmd g.cl g.copy c.id fun _ => c)

/-! ### Blocks (R174, R175, R301) -/

def bodyField (b : List Byte) (off n : Nat) : Nat := fieldAt b off n

/-- Some reserved bytes of a body are not zero: `VERSION` (R175). -/
def reserved (b : List Byte) (spans : List (Nat × Nat)) : M Unit :=
  if spans.all fun e => ((b.drop e.1).take e.2).all (· == 0) then return () else endStatus 2

/-- The engine takes a command block and checks it (R175). `known` is its known size. -/
def takeBlock (g : Eng) (c : Cmd) (opc known : Nat) : M Unit := do
  let h ← cmdRead g c c.av.toNat 16
  let ver := fieldAt h 0 2
  let size := fieldAt h 2 2
  let fl := fieldAt h 5 1
  let reply := fieldAt h 8 8
  if reply % 16 ≠ 0 then endStatus 8
  let c1 := { c with reply := reply, scope := max 2 (bits fl 3 1) }
  setCmd g c1
  if ver ≠ 1 ∨ size < known ∨ size % 16 ≠ 0 ∨ 4096 < size ∨ fieldAt h 4 1 ≠ opc ∨ 16 ≤ fl ∨ bits fl 3 1 = 7 ∨
      fieldAt h 6 2 ≠ 0 then endStatus 2
  let b ← cmdRead g c c.av.toNat size
  if !(b.drop known).all (· == 0) then endStatus 2
  let cntr := fieldAt b 0x10 8
  if cntr % 8 ≠ 0 then endStatus 8
  setCmd g { c1 with cntr := cntr, decl := bit fl 0, prog := { begun := true, bytes := b.take known } }

/-- A box record of a body with its descriptor (R303 of boxes: W, R213). -/
structure BoxOp where
  tid : Nat
  d : Desc
  box : Box
  deriving DecidableEq, Repr, Inhabited

def boxOp (g : Eng) (c : Cmd) (off : Nat) (write : Bool) : M BoxOp := do
  let f := Footprint.ofBytes ((c.prog.bytes.drop off).take 64)
  if !f.formOk || f.w != write then endStatus 3
  let d ← cmdDesc g c f.tid write
  if 1 < d.kind then endStatus 6
  if !f.fits d then endStatus 3
  return { tid := f.tid, d := d, box := { lo := f.lo, hi := f.hi } }

def cmdReadTile (g : Eng) (c : Cmd) (d : Desc) (cs : List Nat) : M (List Byte × List Nat) := do
  match ← readTile (g.agent c) c.pins d cs with
  | .ok b sc => return (b, sc)
  | .layout => endStatus 6
  | .bad .ecc => eccStop c (d.tile cs)
  | .bad b => endStatus (badStatus b)

def cmdWriteTile (g : Eng) (c : Cmd) (d : Desc) (cs : List Nat) (body : List Byte) (sc : List Nat) : M Unit := do
  match ← writeTile (g.agent c) c.pins d cs body sc with
  | .ok _ => return ()
  | .error b => endStatus (badStatus b)

/-! ### Ports (R120, R124, R313) -/

/-- The home port of a physical address: one for each 1 KiB frame (R77). -/
def homePort (pa : Nat) : Nat := Config.portOf (pa / 1024)

/-- Where a request of another package's source is logged at a port (R313). -/
def logKey (pkg : Option Nat) (port src : Nat) : Nat := (pkg.map fun p => (p + 1) * 2 ^ 32).getD 0 + port * 128 + src

/-- A request is recorded in its source's replay filter (R313). -/
def logRequest (key : Nat) (old : Option Nat) (s : State) : State :=
  let p := s.portLogs.getD key {}
  { s with portLogs := s.portLogs.insert key { next := p.next + 1, recent := (p.recent ++ [(p.next, old)]).drop (p.recent.length - 4095) } }

/-- A source's request to a port is recorded with its old value (R313). -/
def logPort (src pa old : Nat) : M Unit := upd (logRequest (logKey none (homePort pa) src) (some old))

/-- Apply a read-modify-write at the home port: the old value (R124, R312, R313). -/
def portUpdate (g : Eng) (c : Cmd) (va pa n : Nat) (f : Nat → Option Nat) : M Nat := do
  match ← readPort pa n with
  | none => eccStop c va
  | some bs =>
    let old := leNat bs
    match f old with
    | some v => writePort (g.agent c) pa (leBytes n v)
    | none => pure ()
    logPort g.source pa old
    return old

/-- The add of a CSIG at its port (R120): whether it was made. -/
def portAdd (g : Eng) (c : Cmd) (va pa n : Nat) : M Bool := do
  let old ← portUpdate g c va pa 8 fun old => if 2 ^ 64 ≤ old + n then none else some (old + n)
  if 2 ^ 64 ≤ old + n then
    let s ← get
    event c.ctx 2 14 (c.handle s) va n
    return false
  else return true

/-! ### Completion (R302, R303) -/

/-- A command fault reported to the context (R447). -/
def commandFault (c : Cmd) (addr status : Nat) : M Unit := do
  let s ← get
  event c.ctx 1 status (c.handle s) addr status

/-- Try a step of completion; where it cannot be made it is skipped and reported (R302). -/
def tryStep (c : Cmd) (m : M Unit) : M Unit := fun s =>
  match m s with
  | .ok _ s' => .ok () s'
  | .error (.status n) s' => commandFault c c.av.toNat n s'
  | .error e s' => .error e s'

/-- Fill the fetch register of a command (R303, R312); that of a pre-empted issuer fills once it is resumed (R212). -/
def fillFetch (c : Cmd) (v : Word) : M Unit := upd fun s =>
  match c.fetch with
  | none => s
  | some r =>
    let k := s.scalar c.issuer
    match k.pend.find? r with
    | some (.cmd id) =>
      if id = c.id then s.setScalar c.issuer (if ownerAway s c.issuer then k.await r (.value v) else k.write r v) else s
    | _ => s

/-- OR flags into the crew's `CE_STAT` or `IX_STAT` (R303). -/
def stickyFlags (g : Eng) (c : Cmd) : M Unit := upd fun s =>
  match c.crew with
  | none => s
  | some k =>
    let v := s.crew k
    s.setCrew k (if g.copy then { v with ceFlags := v.ceFlags ||| BitVec.ofNat 32 (c.flags % 1024) }
      else { v with ixFlags := v.ixFlags ||| BitVec.ofNat 32 (c.flags % 1024) })

/-- What the issuer's fences will gain of a completed command (R311). -/
def fenceGain (g : Eng) (c : Cmd) : M Unit := upd fun s =>
  let v := s.view (g.agent c)
  let a := agentOf c.issuer
  let w := s.view a
  let ids := unionNames v.made v.gained
  s.setView a (if g.copy then { w with fenceCE := unionNames w.fenceCE ids } else { w with fenceIX := unionNames w.fenceIX ids })

/-- A command leaves its engine: its view and its issue pins go. -/
def dropCmd (g : Eng) (c : Cmd) : M Unit := upd fun s =>
  let cl := s.cluster g.cl
  let s := s.setCluster g.cl (cl.setQueueOf g.copy ((cl.queueOf g.copy).filter fun e => e.id != c.id))
  let s := dropPins s fun p => p.owner == .cmd c.id
  s.dropView (g.agent c)

/-- The reply of a command that ends with a status, or where REPLY is zero its sticky flags and command fault (R302, R303). -/
def reply (g : Eng) (c : Cmd) (status : Nat) : M Unit := do
  if c.reply ≠ 0 then
    tryStep c (cmdWrite g c c.reply
      (leBytes 2 status ++ leBytes 2 (c.flags % 1024) ++ leBytes 4 c.events ++ leBytes 8 c.count))
  else
    stickyFlags g c
    if status ≠ 1 ∧ status ≠ 14 then commandFault c c.av.toNat status
  fillFetch c 0

/-- The completion release, the counter's signal, and the command leaves (R302). A rejected block signals no counter (R175). -/
def leaveEngine (g : Eng) (c : Cmd) (status : Nat) : M Unit := do
  upd (release · (g.agent c) c.scope)
  if c.cntr ≠ 0 ∧ status ≠ 2 then
    tryStep c (do
      let pa ← cmdPhys c c.cntr 8 true
      if ← portAdd g c c.cntr pa 1 then upd (release · (g.agent c) c.scope))
  fenceGain g c
  dropCmd g c

/-- Completion of a command with a status (R302). A release at group or system scope that the command's gang holds has not
completed, so the command stays, its reply written, until the commit (R119). -/
def complete (g : Eng) (c : Cmd) (status : Nat) : M Unit := do
  if !c.replied then reply g c status
  let s ← get
  if 5 ≤ c.scope && gangHolds s (g.agent c) then
    upd (updCmd g.cl g.copy c.id fun e => { e with status := some status, replied := true })
  else leaveEngine g c status

/-! ### Derived edges (R126, R130) -/

/-- A declared footprint. -/
structure Foot where
  tid : Nat
  box : Box
  write : Bool
  deriving DecidableEq, Repr, Inhabited

def Foot.clash (a b : Foot) : Bool := a.tid == b.tid && (a.write || b.write) && a.box.meets b.box

/-- The box of every tile of a tensor. -/
def wholeBox (d : Desc) : Box := { lo := [0, 0, 0, 0], hi := [0, 1, 2, 3].map fun i => d.grid i - 1 }

/-- The box of tiles that rows `r` to `r + n - 1` of a two-dimensional tensor lie in. -/
def rowBox (d : Desc) (r n : Nat) : Box := { lo := [0, r / 32, 0, 0], hi := [d.grid 0 - 1, (r + n - 1) / 32, 0, 0] }

/-- The box of TID 0 that a byte range lies in. -/
def byteBox (va n : Nat) : Box := { lo := [va / 1024, 0, 0, 0], hi := [(va + max n 1 - 1) / 1024, 0, 0, 0] }

/-- A TID's descriptor where it is valid. -/
def peekDesc (ctx : Nat) (crew : Option Nat) (a : Agent) (tid : Nat) : M (Option Desc) := do
  match ← nameTid ctx tid crew a with
  | .ok d => return some d
  | _ => return none

/-- What an operand of a block is: a byte range, or tiles of a TID. -/
inductive Operand where
  | range (va n : Nat) (write : Bool)
  | tiles (tid : Nat) (box : Box) (write : Bool)
  /-- a TID that only its descriptor page is named by -/
  | name (tid : Nat)
  deriving DecidableEq, Repr, Inhabited

def boxOperand (b : List Byte) (off : Nat) : Operand :=
  let f := Footprint.ofBytes ((b.drop off).take 64)
  .tiles f.tid { lo := f.lo, hi := f.hi } f.w

/-- Rows of a COPY2 side. -/
def rowRanges (base pitch : Nat) (len rows : Nat) (write : Bool) : List Operand :=
  (List.range rows).map fun i => .range ((base + i * pitch) % 2 ^ 64) len write

/-- Rows `r` to `r + n − 1` of a TID, or the whole of it. -/
def denseRows (d : Option Desc) (tid r n : Nat) (write : Bool) : List Operand :=
  match d with
  | none => [.name tid]
  | some v => if v.kind ≤ 1 ∧ n ≠ 0 then [.tiles tid (rowBox v r n) write] else [.name tid]

def denseWhole (d : Option Desc) (tid : Nat) (write : Bool) : List Operand :=
  match d with
  | none => [.name tid]
  | some v => if v.kind ≤ 1 then [.tiles tid (wholeBox v) write] else [.name tid]

/-- The operands of a block that its fields give (R298). `d` gives descriptors. -/
def blockOperands (i : Instr) (b : List Byte) (d : Nat → M (Option Desc)) : M (List Operand) := do
  let f (o n : Nat) : Nat := fieldAt b o n
  let t0 := f 0x18 2 % 4096
  let t1 := f 0x1A 2 % 4096
  let t2 := f 0x1C 2 % 4096
  let opt := f 0x1C 2
  let d0 ← d t0
  let d1 ← d t1
  match i with
  | .copy _ => return [boxOperand b 0x20, boxOperand b 0x60]
  | .copy2 _ =>
    return rowRanges (f 0x18 8) (f 0x30 8) (f 0x28 4) (f 0x2C 4) false ++ rowRanges (f 0x20 8) (f 0x38 8) (f 0x28 4) (f 0x2C 4) true
  | .fill _ => return if f 0x20 1 = 0 then [boxOperand b 0x40] else [.range (f 0x28 8) (f 0x30 8) true]
  | .strmq _ => return [boxOperand b 0x20]
  | .drainq _ => return [boxOperand b 0x20]
  | .gath _ =>
    return denseWhole d0 t0 false ++ (if bit opt 1 then [] else denseRows d1 t1 (f 0x2C 4) (f 0x28 4) true) ++
      [.range (f 0x20 8) (4 * f 0x28 4) false]
  | .scat _ =>
    return (if bit opt 1 then [] else denseRows d0 t0 (f 0x2C 4) (f 0x28 4) false) ++ denseWhole d1 t1 true ++
      [.range (f 0x20 8) (4 * f 0x28 4) false] ++ (if f 0x30 8 = 0 then [] else [.range (f 0x30 8) 16 false])
  | .bags _ =>
    return [.name t0] ++ (if bit opt 1 then [] else denseRows d1 t1 (f 0x34 4) (f 0x30 4) true) ++
      [.range (f 0x28 8) (4 * (f 0x30 4 + 1)) false]
  | .isect _ => return [.name t0, .name t1]
  | .msort _ =>
    let w := match d0 with
      | some v => v.elemBits
      | none => 0
    return [.name t0, .range (f 0x20 8) (16 * f 0x30 4) false, .range (f 0x28 8) ((f 0x30 4 * w + 7) / 8) false]
  | .spsrch _ =>
    let d2 ← d t2
    return denseWhole d0 t0 false ++ denseWhole d1 t1 false ++ denseWhole d2 t2 true
  | _ => return []

/-- A TID that an index command names whatever its kind counts as its whole grid for derived edges. -/
def operandFoot (d : Nat → M (Option Desc)) (write : Bool) : Operand → M (List Foot)
  | .range va n w => return if n = 0 then [] else [{ tid := 0, box := byteBox va n, write := w }]
  | .tiles tid box w => return [{ tid := tid, box := box, write := w }]
  | .name tid => do
    match ← d tid with
    | none => return []
    | some v => return [{ tid := tid, box := wholeBox v, write := write }]

def operandFeet (d : Nat → M (Option Desc)) (write : Bool) : List Operand → M (List Foot)
  | [] => return []
  | o :: t => do
    let a ← operandFoot d write o
    let b ← operandFeet d write t
    return a ++ b

/-- A value of the state that reading may compute without changing it. -/
def peek {α} (s : State) (dflt : α) (m : M α) : α :=
  match m s with
  | .ok v _ => v
  | .error _ _ => dflt

/-- The ranges of a plan that a thread's SHUF pins (R400). -/
def planRanges (p : Plan) (va : Nat) (es : List Byte) : List Operand :=
  let entry (i : Nat) : List Operand :=
    let e := PlanEntry.ofBytes ((es.drop (32 * i)).take 32)
    if e.addr = 0 then []
    else [.range e.addr (if i < p.nsend && e.quant then 4 * e.nelem else e.len) (p.nsend ≤ i && i < p.nsend + p.nrecv)]
  [.range va 64 false, .range p.partsAt (4 * p.npart) false, .range p.entriesAt (32 * p.count) false,
    .range p.groupsAt (16 * p.ngrp) false, .name (p.qtid % 4096)] ++ (List.range p.count).flatMap entry

/-- What a SHUF block names: its plan, the tables of the plan, and the ranges of the entries (R126, R400). -/
def shufRanges (a : Agent) (holds : Pin → Bool) (block : List Byte) : M (List Operand) := do
  let va := fieldAt block 0x20 8
  match ← readPinned a holds va 64 with
  | .error _ => return []
  | .ok h =>
    let p : Plan := { h := h }
    if !p.headOk then return [.range va 64 false]
    match ← readPinned a holds p.entriesAt (32 * p.count) with
    | .error _ => return [.range va 64 false]
    | .ok es => return (planRanges p va es).filter fun o => match o with
      | .name _ => false
      | _ => true

/-- Operands whose extents depend on the data, which no issue pin covers but a declared footprint does (R126, R298): the arrays an
ISECT writes, as long as its vectors allow (log 109), and the index array of BAGS, whose length is OFS[NB]. -/
def dataOperands (i : Instr) (b : List Byte) (d : Nat → M (Option Desc)) (count : Nat → M Nat) : M (List Operand) := do
  let f (o n : Nat) : Nat := fieldAt b o n
  match i with
  | .isect _ =>
    if f 0x1C 1 ≠ 0 then return []
    let out (at_ bits n : Nat) : Operand := .range at_ ((bits * n + 7) / 8) true
    match ← d (f 0x18 2 % 4096), ← d (f 0x1A 2 % 4096) with
    | some a, some c => return [out (f 0x20 8) 32 a.dim0, out (f 0x28 8) a.elemBits a.dim0, out (f 0x30 8) c.elemBits a.dim0]
    | _, _ => return []
  | .bags _ =>
    let n ← count (f 0x28 8 + 4 * f 0x30 4)
    return [.range (f 0x20 8) (4 * n) false]
  | _ => return []

/-- The declared footprint of a command: empty where it declares none. -/
def cmdFeet (s : State) (g : Eng) (c : Cmd) : List Foot :=
  let block : List Byte :=
    if c.prog.begun then c.prog.bytes
    else match peek s (.error .footprint) (readPinned (g.agent c) c.pins c.av.toNat 160) with
      | .ok b => b
      | .error _ => peek s [] (do
        match ← readPinned (g.agent c) c.pins c.av.toNat 64 with
        | .ok b => return b
        | .error _ => return [])
  let d := peekDesc c.ctx c.crew (g.agent c)
  let isMsort := match c.instr with
    | .msort _ => true
    | _ => false
  if bit (fieldAt block 5 1) 0 then peek s [] (do
      let ops ← match c.instr with
        | .shuf _ => shufRanges (g.agent c) c.pins block
        | i => do
          let own ← blockOperands i block d
          let data ← dataOperands i block d fun va => do
            match ← readPinned (g.agent c) c.pins (va % 2 ^ 64) 4 with
            | .ok x => return leNat x
            | .error _ => return 0
          pure (own ++ data)
      operandFeet d isMsort ops)
  else []

/-- The descriptor a slot will hold when an entry of the queue runs: an earlier AGDEF's, else the slot's. -/
def slotBytes (s : State) (c : Nat) (w : Bool) (slot name : Nat) : List Byte :=
  let k := s.crew c
  let q := if w then k.wq else k.lq
  let defs := (earlier q name).filter fun e => match e.instr with
    | .agdef o => o.d == slot
    | _ => false
  match defs.getLast? with
  | some e =>
    (match peek s (.error .footprint) (readPinned (.half c) (crewPins c) e.sval.toNat 64) with
     | .ok b => b
     | .error _ => [])
  | none => (if w then k.wslots else k.lslots).getD slot []

/-- The declared footprint of an entry of the L or W queue. -/
def entryFeet (s : State) (c : Nat) (w : Bool) (e : Entry) : List Foot :=
  match e.instr with
  | .agrun o =>
    let a := AgDesc.ofBytes (slotBytes s c w o.d e.name)
    if a.decl && a.kind == 0 then [{ tid := a.tid, box := a.box, write := w }] else []
  | _ => []

/-- Footprints of a crew's declared operations issued before a name and not yet completed (R126). -/
def earlierFeet (s : State) (c name : Nat) : List Foot :=
  let k := s.crew c
  let mine (e : Cmd) : Bool := e.crew == some c && e.id < name
  let cmds (copy : Bool) : List Foot := s.clusters.flatMap fun v =>
    ((v.2.queueOf copy).filter mine).flatMap fun e => cmdFeet s { cl := v.1, copy := copy } e
  let ents (w : Bool) : List Foot :=
    (((if w then k.wq else k.lq).filter fun e => e.name < name && !e.finished).flatMap fun e => entryFeet s c w e)
  let saved (copy : Bool) : List Foot :=
    ((if copy then k.savedCE else k.savedIX).filter mine).flatMap fun e => cmdFeet s { cl := k.cl, copy := copy } e
  cmds true ++ cmds false ++ saved true ++ saved false ++ ents false ++ ents true

/-- An operation waits for the derived edges of its footprint. -/
def awaitEdges (crew : Option Nat) (name : Nat) (mine : List Foot) : M Unit := do
  match crew with
  | none => pure ()
  | some c =>
    if mine.isEmpty then pure ()
    else
      let s ← get
      let before := earlierFeet s c name
      if mine.any fun a => before.any fun b => a.clash b then throw .stall

/-! ### Issue pins (R176, R298) -/

/-- Byte ranges an operand covers, and whether for writing. -/
def operandRanges (tidTable : Nat) (d : Nat → M (Option Desc)) : Operand → M (List (Nat × Nat × Bool))
  | .range va n w => return if n = 0 then [] else [(va, n, w)]
  | .name tid => return if tid = 0 then [] else [((tidTable + 64 * tid) % 2 ^ 64, 64, false)]
  | .tiles tid box w => do
    let page := if tid = 0 then [] else [((tidTable + 64 * tid) % 2 ^ 64, 64, false)]
    match ← d tid with
    | none => return page
    | some v =>
      return page ++ if v.kind ≤ 1 && box.inGrid v then (boxRanges v box.lo box.hi).map fun r => (r.1, r.2, w) else []

def allRanges (tidTable : Nat) (d : Nat → M (Option Desc)) : List Operand → M (List (Nat × Nat × Bool))
  | [] => return []
  | o :: t => do
    let a ← operandRanges tidTable d o
    let b ← allRanges tidTable d t
    return a ++ b

/-- Translate and pin a command's issue footprint for a thread (R298): the page fault at the lowest failing address. -/
def issuePins (t id : Nat) (rs : List (Nat × Nat × Bool)) : M Unit := do
  let s ← get
  let th := s.thread t
  let part (w : Bool) : List (Nat × Nat) := (rs.filter fun r => r.2.2 == w).map fun r => (r.1, r.2.1)
  let a ← walkRanges th.ctx th.level.toNat false false (part false)
  let b ← walkRanges th.ctx th.level.toNat true false (part true)
  match a, b with
  | .ok x, .ok y =>
    let h ← freshId
    let h2 ← freshId
    upd fun s => { s with pins := s.pins ++
      [{ handle := h, owner := .cmd id, ctx := th.ctx, ranges := part false, w := false, leaves := x },
       { handle := h2, owner := .cmd id, ctx := th.ctx, ranges := part true, w := true, leaves := y }] }
  | .error e, .ok _ => throw (.trap (pageFault e.1 false false e.2.1 e.2.2))
  | .ok _, .error e => throw (.trap (pageFault e.1 true false e.2.1 e.2.2))
  | .error e, .error e' =>
    if e'.1 < e.1 then throw (.trap (pageFault e'.1 true false e'.2.1 e'.2.2))
    else throw (.trap (pageFault e.1 false false e.2.1 e.2.2))

/-- Extra operands that an instruction's own chapter gives a block (SHUF and LAUNCH). -/
abbrev MoreOperands := Nat → Nat → List Byte → M (List Operand)

/-- Read bytes of a block through a thread's translation, piece by piece. -/
def threadBlock (t : Nat) : List (Nat × Nat) → M (List Byte)
  | [] => return []
  | (va, n) :: rest => do
    let s ← get
    let pa ← translate t (s.thread t).level.toNat va false false
    match ← readPhys (.thread t) pa n with
    | none => throw (.lasting va)
    | some b =>
      let l ← threadBlock t rest
      return b ++ l

/-- The ranges a block command of a thread pins. The first line of the block gives its size, `REPLY` and `CNTR`; where a page
of these or of the block fails, they alone are answered, and `issuePins` raises the fault at the lowest address (R456). -/
def blockRanges (t : Nat) (i : Instr) (va : Nat) (more : MoreOperands) : M (List (Nat × Nat × Bool)) := do
  let s ← get
  let th := s.thread t
  let h ← threadBlock t [(va, 24)]
  let size := min 4096 (max 16 (fieldAt h 2 2 / 16 * 16))
  let reply := fieldAt h 8 8
  let cntr := if size < 24 then 0 else fieldAt h 16 8
  let own : List (Nat × Nat × Bool) := (va, size, false) :: (if reply = 0 then [] else [(reply, 16, true)]) ++
    (if cntr = 0 then [] else [(cntr, 8, true)])
  match ← walkRanges th.ctx th.level.toNat false false [(va, size)] with
  | .error _ => return own
  | .ok _ =>
    let b ← threadBlock t (lineParts 6 va size)
    let d := peekDesc th.ctx th.crew (.thread t)
    let ops ← blockOperands i (b ++ List.replicate (160 - size) 0) d
    let extra ← more t va b
    let rs ← allRanges (s.context th.ctx).tidTable.toNat d (ops ++ extra)
    return own ++ rs

/-! ### Issue (R106, R125, R173, R174, R296) -/

/-- What issuing a lane needs to know. -/
structure Issue where
  copy : Bool
  /-- a block-form command -/
  block : Bool := false
  /-- bytes at the address an inline command writes; 0 for none -/
  width : Nat := 0
  fetches : Bool := false
  cas : Bool := false
  scope : Nat := 2

/-- The cluster a lane's command goes to (R18). -/
def engineOf (s : State) : Owner → Nat
  | .thread t =>
    match (s.thread t).crew with
    | some c => (s.crew c).cl
    | none => homeCluster t
  | .crew c => (s.crew c).cl

/-- A lane of the S stream waits for the L and W lanes before it (R106). -/
def afterStreams (w : Owner) : M Unit := do
  match w with
  | .thread _ => pure ()
  | .crew c =>
    let s ← get
    if !((s.crew c).lq.isEmpty && (s.crew c).wq.isEmpty) then throw .stall

/-- Queue a command (R296). -/
def issueCmd (w : Owner) (o : LaneFmt) (i : Instr) (n : Issue) (more : MoreOperands) : M Flow := do
  let x ← readReg w o.a o.ta
  let y ← if n.block then pure 0 else readReg w o.b o.tb
  let old ← if n.cas && o.d ≠ 0 then readReg w o.d 0 else pure 0
  let fetch := if n.fetches && o.d ≠ 0 then some o.d else none
  if n.block && x.toNat % 64 ≠ 0 then trap 4 x 64
  if isCox w && n.width ≠ 0 && x.toNat % n.width ≠ 0 then trap 4 x (BitVec.ofNat 64 n.width)
  match fetch with
  | some d => destReady w d
  | none => pure ()
  afterStreams w
  let s ← get
  let cl := engineOf s w
  if 32 ≤ (((s.cluster cl).queueOf n.copy).filter fun e => !e.prog.begun).length then throw .stall
  let id ← freshId
  match w with
  | .thread t =>
    if n.block then
      let rs ← blockRanges t i x.toNat more
      issuePins t id rs
    else if n.width ≠ 0 then issuePins t id [(x.toNat, n.width, true)]
  | .crew _ => pure ()
  match fetch with
  | some d => awaitReg w d (.cmd id)
  | none => pure ()
  let s ← get
  let crew := crewOf s w
  let c : Cmd :=
    { id := id, instr := i, issuer := w, crew := crew, ctx := ctxOf s w, av := x, bv := y, dv := old, fetch := fetch,
      seed := (crew.map fun k => ctlNow (s.crew k) 2 (s.crew k).rndSeed).getD 0, scope := max 2 n.scope }
  upd fun s =>
    let s := s.setView (.cmd id) (commandView (s.view (agentOf w)) (agentOf w) crew cl)
    let q := s.cluster cl
    s.setCluster cl (q.setQueueOf n.copy (q.queueOf n.copy ++ [c]))
  return .next

/-! ### The frame of commands -/

/-- End a command with a status. -/
def finishCmd (g : Eng) (id status : Nat) : M Unit := do
  let s ← get
  match ((s.cluster g.cl).queueOf g.copy).find? fun e => e.id == id with
  | none => pure ()
  | some c =>
    complete g c status
    match c.crew with
    | some k => upd fun s => s.setCrew k { s.crew k with idle := false }
    | none => pure ()

/-- A command stalled on a queue of a crew that is being saved goes with it (R300). -/
def saveStalled (g : Eng) (c : Cmd) (s : State) : State :=
  match c.crew with
  | none => s
  | some k =>
    let v := s.crew k
    if v.stage == .resident || v.stage == .gone then s
    else
      let cl := s.cluster g.cl
      let s := s.setCluster g.cl (cl.setQueueOf g.copy ((cl.queueOf g.copy).filter fun e => e.id != c.id))
      s.setCrew k (if g.copy then { v with savedCE := c :: v.savedCE } else { v with savedIX := c :: v.savedIX })

/-- Whether a shuffle of the command uses a pin that was revoked: one of its blocks no longer resolves (R463, R501). -/
def shufRevoked (s : State) (g : Eng) (c : Cmd) : Bool :=
  let gone (va n : Nat) (w : Bool) : Bool := n != 0 && resolve s c.pins va n w matches .error .revoked
  s.shuffles.any fun e => g.copy && e.2.cl == g.cl && e.2.cmd == c.id &&
    (gone e.2.bcntr (if e.2.bcntr = 0 then 0 else 8) true || e.2.sends.any (fun x => gone x.addr (if x.nelem = 0 then x.len else 4 * x.nelem) false) ||
     s.sit.any fun x => x.ctx == e.2.ctx && x.shid == e.1 && gone x.addr x.len (x.st == .expect))

/-- A turn of the command at an engine's head: its body answers whether it is done. -/
def cmdTurn (g : Eng) (c : Cmd) (body : Eng → Cmd → M Bool) (s : State) : State :=
  let revoked := (s.pins.any fun p => p.owner == .cmd c.id && p.revoked) || shufRevoked s g c
  let started (s : State) : State := updCmd g.cl g.copy c.id (fun e => { e with prog := { e.prog with begun := true } }) s
  if c.lost then s
  else
    match c.status with
    | some st => runM (finishCmd g c.id st) s
    | none =>
      if revoked then
        runM (finishCmd g c.id 13) (quitShuffles s fun x => g.copy && x.cl == g.cl && x.cmd == c.id)
      else
        match body g c s with
        | .ok true s2 => runM (finishCmd g c.id 1) s2
        | .ok false s2 => updCmd g.cl g.copy c.id (fun e => { e with stalled := false }) s2
        | .error (.status n) s2 => runM (finishCmd g c.id n) s2
        | .error (.stallQ q push _) _ =>
          let s1 := match c.crew with
            | some k => if c.stalled then s else countEpisode s k q push false
            | none => s
          saveStalled g { c with stalled := true, prog := { c.prog with begun := true } }
            (started (updCmd g.cl g.copy c.id (fun e => { e with stalled := true }) s1))
        | .error .stall s2 =>
          let _ := s2
          saveStalled g c s
        | .error _ _ => s

/-- Issue or perform an engine command. -/
def runCommand (o : LaneFmt) (i : Instr) (n : Issue) (body : Eng → Cmd → M Bool)
    (more : MoreOperands := fun _ _ _ => return []) (s : State) : Out :=
  match curOwner s with
  | some w => .next (scalarStep w 1 (issueCmd w o i n more) s)
  | none =>
    let copy := match s.cur with
      | .copyEng _ => true
      | _ => false
    match engineHead s s.cur with
    | some (cl, c) => if copy == n.copy && c.instr == i then .next (cmdTurn { cl := cl, copy := copy } c body s) else .next s
    | none => .next s

/-- A block-form command: taken on its first turn, then performed once its derived edges allow. -/
def runBlock (o : LaneFmt) (i : Instr) (copy : Bool) (opc known : Nat) (body : Eng → Cmd → M Bool)
    (more : MoreOperands := fun _ _ _ => return []) (s : State) : Out :=
  runCommand o i { copy := copy, block := true } (fun g c => do
    if c.prog.bytes.isEmpty then
      takeBlock g c opc known
      return false
    else
      if c.decl then
        let s ← get
        awaitEdges c.crew c.id (cmdFeet s g c)
      body g c) more s

/-! ### Fences and PREFL2 (R309, R311) -/

/-- Commands of an issuer not yet completed in an engine. -/
def issuerBusy (s : State) (w : Owner) (copy : Bool) : Bool :=
  s.clusters.any fun e => (e.2.queueOf copy).any fun c => c.issuer == w

def fence (copy : Bool) (s : State) : Out :=
  runScalar (fun w => do
    afterStreams w
    let s ← get
    if issuerBusy s w copy then throw .stall
    let a := agentOf w
    let v := s.view a
    let ids := unionNames (acquireIds s a 2) (if copy then v.fenceCE else v.fenceIX)
    upd fun s => gainIds s a ids
    return .next) s

def execCefence (_ : LaneFmt) (s : State) : Out := fence true s

def execIxfence (_ : LaneFmt) (s : State) : Out := fence false s

/-- `PREFL2` changes no architectural state (R309): the command leaves its engine, and publishes nothing. -/
def execPrefl2 (o : LaneFmt) (s : State) : Out :=
  runCommand o (.prefl2 o) { copy := true } (fun g c => do
    dropCmd g c
    match c.crew with
    | some k => upd fun s => s.setCrew k { s.crew k with idle := false }
    | none => pure ()
    return false) (s := s)

end Sys2Proof.Machine
end

