-- ==== Sys2Proof/Machine/CopyEngine.lean ====
section
/-! DEFINITION. Copy-engine commands: tiles, bytes, queues, counters and atomic accumulation (R304-R308, R310, R312). -/

namespace Sys2Proof.Machine

/-! ### Tiles and bytes (R304-R306) -/

/-- Tile `count` of a COPY. -/
def copyBody (g : Eng) (c : Cmd) : M Bool := do
  reserved c.prog.bytes [(0x18, 8)]
  let src ← boxOp g c 0x20 false
  let dst ← boxOp g c 0x60 true
  if src.d.efmt ≠ dst.d.efmt ∨ src.d.nfd ≠ dst.d.nfd then endStatus 7
  if (List.range 4).any fun i => src.box.extent i != dst.box.extent i then endStatus 5
  let (b, sc) ← cmdReadTile g c src.d (src.box.coords c.count)
  cmdWriteTile g c dst.d (dst.box.coords c.count) b sc
  setCmd g { c with count := c.count + 1 }
  return c.count + 1 = src.box.count

def execCopy (o : LaneFmt) (s : State) : Out := runBlock o (.copy o) true 0x00 160 copyBody (s := s)

/-- Row `pos` of a COPY2. -/
def copy2Body (g : Eng) (c : Cmd) : M Bool := do
  let b := c.prog.bytes
  let len := bodyField b 0x28 4
  let i := c.prog.pos
  if i < bodyField b 0x2C 4 then
    if len ≠ 0 then
      let row ← cmdRead g c (bodyField b 0x18 8 + i * bodyField b 0x30 8) len
      cmdWrite g c (bodyField b 0x20 8 + i * bodyField b 0x38 8) row
    setCmd g { c with count := c.count + len, prog := { c.prog with pos := i + 1 } }
    return false
  else return true

def execCopy2 (o : LaneFmt) (s : State) : Out := runBlock o (.copy2 o) true 0x01 64 copy2Body (s := s)

/-- Byte `a` of the fill pattern. -/
def patternByte (b : List Byte) (a : Nat) : Byte := (b.drop (0x18 + a % 8)).headD 0

def fillBody (g : Eng) (c : Cmd) : M Bool := do
  let b := c.prog.bytes
  reserved b [(0x21, 1), (0x24, 4), (0x38, 8)]
  let scode := bodyField b 0x22 2
  let mode := bodyField b 0x20 1
  if 1024 ≤ scode ∨ 1 < mode then endStatus 2
  if mode = 1 then
    reserved b [(0x40, 64)]
    let len := bodyField b 0x30 8
    if len ≤ c.count then return true
    let a := (bodyField b 0x28 8 + c.count) % 2 ^ 64
    let n := min (len - c.count) (1024 - a % 1024)
    cmdWrite g c a ((List.range n).map fun i => patternByte b (a + i))
    setCmd g { c with count := c.count + n }
    return false
  else
    let dst ← boxOp g c 0x40 true
    cmdWriteTile g c dst.d (dst.box.coords c.count) ((List.range 1024).map (patternByte b)) (List.replicate 64 scode)
    let fl := flagIf (dst.d.efmt = 13 && 0x3FE ≤ scode) Flag.rsv
    setCmd g { c with count := c.count + 1, flags := orf c.flags fl }
    return c.count + 1 = dst.box.count

def execFill (o : LaneFmt) (s : State) : Out := runBlock o (.fill o) true 0x02 128 fillBody (s := s)

/-! ### Queues (R307, R308) -/

/-- The queue a command names, with its endpoint and widths allowed (R136, R314). -/
def cmdQueue (c : Cmd) (q ep : Nat) (push : Bool) (widths : List Nat) : M Queue := do
  let k ← c.crewOrFault
  let v ← getQueue k q
  let w := if widths.contains v.width then v.width else widths.headD 0
  asCommand (checkQueue k q ep w push)

/-- Push one entry of a list for a command; whether it was the last. -/
def cmdPush (c : Cmd) (q ep w : Nat) (es : List QEntry) (i : Nat) : M Bool := do
  let k ← c.crewOrFault
  match es[i]? with
  | none => return true
  | some e =>
    asCommand (pushQueue k q ep w e)
    return i + 1 = es.length

def strmqBody (g : Eng) (c : Cmd) : M Bool := do
  let b := c.prog.bytes
  reserved b [(0x19, 7)]
  if 64 ≤ bodyField b 0x18 1 then endStatus 2
  let q := bodyField b 0x18 1
  let v ← cmdQueue c q 6 true [1, 2]
  let src ← boxOp g c 0x20 false
  let cs := src.box.coords c.count
  let (body, sc) ← cmdReadTile g c src.d cs
  let es := burstEntries v.width (burstBytes src.tid (src.d.efmt == 13) cs sc body)
  if ← cmdPush c q 6 v.width es c.prog.pos then
    setCmd g { c with count := c.count + 1, prog := { c.prog with pos := 0 } }
    return c.count + 1 = src.box.count
  else
    setCmd g { c with prog := { c.prog with pos := c.prog.pos + 1 } }
    return false

def execStrmq (o : LaneFmt) (s : State) : Out := runBlock o (.strmq o) true 0x04 96 strmqBody (s := s)

def drainqBody (g : Eng) (c : Cmd) : M Bool := do
  let b := c.prog.bytes
  reserved b [(0x19, 3)]
  if 64 ≤ bodyField b 0x18 1 then endStatus 2
  let q := bodyField b 0x18 1
  let k ← c.crewOrFault
  let v ← cmdQueue c q 6 false [1, 2]
  if !v.whole then endStatus 9
  let dst ← boxOp g c 0x20 true
  if bodyField b 0x1C 4 ≤ c.count then return true
  match v.entries with
  | [] => throw (emptyStop q v false true)
  | e :: _ =>
    if e.p then endStatus 10
    let n := v.burst
    let d := (v.entries.take n).flatMap (·.data)
    let v' := { v with entries := v.entries.drop n, mid := false }
    if burstTid d ≠ dst.tid ∨ !dst.box.contains (burstCoords d) ∨ burstSc d ≠ (dst.d.efmt == 13) then
      setQueue k q (v'.discard n)
      endStatus 5
    setQueue k q v'
    cmdWriteTile g c dst.d (burstCoords d) (burstBody d) (burstScales d)
    setCmd g { c with count := c.count + 1 }
    return false

def execDrainq (o : LaneFmt) (s : State) : Out := runBlock o (.drainq o) true 0x05 96 drainqBody (s := s)

/-! ### Counters (R120, R310) -/

/-- The release of a CSIG (R116, R120): its issuer's, of every write the issuer made or gained before the lane. Where the issuer is
gone, the command releases them itself. -/
def issuerRelease (g : Eng) (c : Cmd) (s : State) : State :=
  let a := if crewOf s c.issuer = c.crew then agentOf c.issuer else g.agent c
  publishAs s a (g.agent c) c.scope (releaseIds (s.view (g.agent c)))

/-- CSIG at its engine: a gang not committed holds it (R119); the release, then the add, published at the scope. -/
def csigBody (g : Eng) (c : Cmd) : M Bool := do
  let s ← get
  if 5 ≤ c.scope && gangHolds s (g.agent c) then return false
  if c.av.toNat % 8 ≠ 0 then endStatus 8
  upd (issuerRelease g c)
  let pa ← cmdPhys c c.av.toNat 8 true
  if ← portAdd g c c.av.toNat pa c.bv.toNat then return true else endStatus 14

def execCsig (o : LaneFmt) (s : State) : Out :=
  runCommand o (.csig o) { copy := true, width := 8, scope := o.fn } csigBody (s := s)

/-! ### Atomic accumulation (R312) -/

/-- Operations of ACCW. -/
inductive Acc where
  | add
  | min (signed : Bool)
  | max (signed : Bool)
  | and
  | or
  | xor
  | xchg
  | cas
  | fadd
  | fmax
  deriving DecidableEq, Repr, Inhabited

/-- The new value, none where nothing is written, and the flags, for operands of `n` bits. -/
def accNew (op : Acc) (n : Nat) (expected old v : Nat) : Option Nat × Flags :=
  let f : FFmt := if n = 16 then .bf16 else .f32
  match op with
  | .add => (some ((old + v) % 2 ^ n), 0)
  | .min sg => (some (if ival n sg v < ival n sg old then v else old), 0)
  | .max sg => (some (if ival n sg old < ival n sg v then v else old), 0)
  | .and => (some (old &&& v), 0)
  | .or => (some (old ||| v), 0)
  | .xor => (some (old ^^^ v), 0)
  | .xchg => (some v, 0)
  | .cas => (if old = expected then some v else none, 0)
  | .fadd => let r := faddF f 0 0 false old v
             (some r.1, r.2)
  | .fmax => let r := ordinary f [old, v] (fminmax f true old v)
             (some r.1, r.2)

/-- An ACCW at its engine. -/
def accBody (op : Acc) (n : Nat) (g : Eng) (c : Cmd) : M Bool := do
  if c.av.toNat % (n / 8) ≠ 0 then endStatus 8
  let v := c.bv.toNat % 2 ^ n
  let expected := c.dv.toNat % 2 ^ n
  let pa ← cmdPhys c c.av.toNat (n / 8) true
  let old ← portUpdate g c c.av.toNat pa (n / 8) fun old => (accNew op n expected old v).1
  fillFetch c (BitVec.ofNat 64 old)
  setCmd g { c with flags := orf c.flags (accNew op n expected old v).2 }
  return true

/-- Width of an integer ACCW. -/
def accWidth (o : LaneFmt) : Nat := if o.fn % 2 = 1 then 32 else 64

/-- Issue or perform an ACCW of `n` bits. -/
def runAcc (o : LaneFmt) (i : Instr) (op : Acc) (n : Nat) (s : State) : Out :=
  runCommand o i { copy := true, width := n / 8, fetches := true, cas := op == .cas, scope := o.fn / 2 } (accBody op n) (s := s)

def execAccwAdd (o : LaneFmt) (s : State) : Out := runAcc o (.accwAdd o) .add (accWidth o) s
def execAccwMin (o : LaneFmt) (s : State) : Out := runAcc o (.accwMin o) (.min true) (accWidth o) s
def execAccwMinn (o : LaneFmt) (s : State) : Out := runAcc o (.accwMinn o) (.min false) (accWidth o) s
def execAccwMax (o : LaneFmt) (s : State) : Out := runAcc o (.accwMax o) (.max true) (accWidth o) s
def execAccwMaxn (o : LaneFmt) (s : State) : Out := runAcc o (.accwMaxn o) (.max false) (accWidth o) s
def execAccwAnd (o : LaneFmt) (s : State) : Out := runAcc o (.accwAnd o) .and (accWidth o) s
def execAccwOr (o : LaneFmt) (s : State) : Out := runAcc o (.accwOr o) .or (accWidth o) s
def execAccwXor (o : LaneFmt) (s : State) : Out := runAcc o (.accwXor o) .xor (accWidth o) s
def execAccwXchg (o : LaneFmt) (s : State) : Out := runAcc o (.accwXchg o) .xchg (accWidth o) s
def execAccwCas (o : LaneFmt) (s : State) : Out := runAcc o (.accwCas o) .cas (accWidth o) s
def execAccwFaddF32 (o : LaneFmt) (s : State) : Out := runAcc o (.accwFaddF32 o) .fadd 32 s
def execAccwFaddBf16 (o : LaneFmt) (s : State) : Out := runAcc o (.accwFaddBf16 o) .fadd 16 s
def execAccwFmax (o : LaneFmt) (s : State) : Out := runAcc o (.accwFmax o) .fmax 32 s

end Sys2Proof.Machine
end

