-- ==== Sys2Proof/Machine/IndexEngine.lean ====
section
/-! DEFINITION. Index-engine commands: gathers, scatters, ordered epochs, bags, intersections, coordinate sorting and mask
search (R314-R323). -/

namespace Sys2Proof.Machine

/-! ### Sorting -/

/-- A list with an element put before the first that it may stand before. -/
def insertBy {α : Type} (before : α → α → Bool) (x : α) : List α → List α
  | [] => [x]
  | y :: t => if before x y then x :: y :: t else y :: insertBy before x t

/-- A list sorted; elements that may stand either way keep their order. -/
def sortBy {α : Type} (before : α → α → Bool) (l : List α) : List α := l.foldr (insertBy before) []

/-! ### Operand checks (R314) -/

/-- A TID's field: its upper bits are reserved. -/
def tidField (c : Cmd) (off : Nat) : M Nat := do
  let t := bodyField c.prog.bytes off 2
  if 4096 ≤ t then endStatus 2 else return t

/-- The QUEUE field: its upper bits are reserved. -/
def queueField (c : Cmd) (off : Nat) : M Nat := do
  let q := bodyField c.prog.bytes off 2
  if 64 ≤ q then endStatus 2 else return q

/-- A condition whose failure ends the command with a status. -/
def need (status : Nat) (ok : Bool) : M Unit := if ok then return () else endStatus status

/-- A two-dimensional operand; TID 0 has one dimension (R86). -/
def plane (tid : Nat) (d : Desc) : Bool := tid != 0 && d.nd == 2

/-- The width of the queue a row command uses (R314). -/
def rowQueue (c : Cmd) (q : Nat) (push : Bool) : M Nat := do
  let v ← cmdQueue c q 7 push [1, 2]
  return v.width

/-! ### Elements in memory -/

/-- Element codes packed in bytes. -/
def unpackElems (w : Nat) (bs : List Byte) : List Nat :=
  if w = 4 then bs.flatMap fun b => [b.toNat % 16, b.toNat / 16]
  else (List.range (bs.length * 8 / w)).map fun i => fieldAt bs (i * (w / 8)) (w / 8)

/-- Bytes of element codes packed; an odd last nibble stands over a zero one. -/
def packElems (w : Nat) (l : List Nat) : List Byte :=
  if w = 4 then nibbles l else l.flatMap fun v => leBytes (w / 8) v
where
  nibbles : List Nat → List Byte
    | [] => []
    | [a] => [BitVec.ofNat 8 (a % 16)]
    | a :: b :: t => BitVec.ofNat 8 (a % 16 + b % 16 * 16) :: nibbles t

/-- Bytes of `n` packed elements. -/
def packedBytes (w n : Nat) : Nat := (n * w + 7) / 8

/-- Elements `i` to `i + n - 1` of a packed array. -/
def readPacked (g : Eng) (c : Cmd) (base w i n : Nat) : M (List Nat) := do
  if n = 0 then return []
  let lo := i * w / 8
  let hi := ((i + n) * w + 7) / 8
  let bs ← cmdRead g c (base + lo) (hi - lo)
  return ((unpackElems w bs).drop (if w = 4 then i % 2 else 0)).take n

/-- Write element `i` of a packed array; the other half of its byte stays. -/
def writePacked (g : Eng) (c : Cmd) (base w i v : Nat) : M Unit := do
  if w = 4 then
    let old ← cmdRead g c (base + i / 2) 1
    let o := leNat old
    cmdWrite g c (base + i / 2) [BitVec.ofNat 8 (if i % 2 = 0 then v % 16 + o / 16 * 16 else o % 16 + v % 16 * 16)]
  else cmdWrite g c (base + i * (w / 8)) (leBytes (w / 8) v)

/-! ### Dense rows (R315) -/

/-- The stored elements of tile row `r` of a tiled operand, with its scale halfwords where it is narrow. -/
def storedRow (g : Eng) (c : Cmd) (d : Desc) (r : Nat) : Nat → Nat → M (List Nat × List Nat)
  | 0, _ => return ([], [])
  | k + 1, c0 => do
    let va := d.tile [c0, r / 32, 0, 0]
    let per := d.epr / 32
    let ra := va + 32 * (r % 32)
    if d.efmt = 13 then
      let sa := d.scaleAddr va + 2 * per * (r % 32)
      let bs ← cmdRead g c ra 32
      let sc ← cmdRead g c sa (2 * per)
      let hs := (halves sc).zipIdx.map fun h => if d.scalePad c0 (r / 32) (per * (r % 32) + h.2) then 0 else h.1
      need 6 (hs.all (· < 1024))
      let (es, ss) ← storedRow g c d r k (c0 + 1)
      return (unpackElems d.elemBits bs ++ es, hs ++ ss)
    else
      let bs ← cmdRead g c ra 32
      let (es, ss) ← storedRow g c d r k (c0 + 1)
      return (unpackElems d.elemBits bs ++ es, ss)

/-- Whether a list names 0 to n − 1 once each. -/
def isPermutation (l : List Nat) (n : Nat) : Bool := l.length == n && (List.range n).all l.contains

/-- The position at which logical block `b` is stored. -/
def storedAt (perm : List Nat) (b : Nat) : Nat := (perm.takeWhile (· != b)).length

/-- Put codes at positions of a row of zeros; the last of equal positions stands. -/
def spread (n : Nat) (l : List (Nat × Nat)) : List Nat :=
  (List.range n).map fun i => ((l.filter fun e => e.1 == i).getLast?.map (·.2)).getD 0

/-- A coordinate entry's element position and row (R93). -/
def keyPos (k : Nat) : Nat := (List.range 6).foldl (fun a b => a + k / 2 ^ (2 * b) % 2 * 2 ^ b) 0
def keyRow (k : Nat) : Nat := (List.range 5).foldl (fun a b => a + k / 2 ^ (2 * b + 1) % 2 * 2 ^ b) 0

def ascends : List Nat → Bool
  | a :: b :: t => a < b && ascends (b :: t)
  | _ => true

/-- Elements of row `r` found in the coordinate runs of tile row `r / 32`, by element index (R93). -/
def coomRow (g : Eng) (c : Cmd) (d : Desc) (r : Nat) : Nat → Nat → M (List (Nat × Nat))
  | 0, _ => return []
  | k + 1, c0 => do
    let at_ := c0 + d.grid 0 * (r / 32)
    let last := d.grid 0 * d.grid 1
    let e ← cmdRead g c (d.aux + 8 * at_) 8
    let first := bits (leNat e) 47 0
    let len := bits (leNat e) 63 48
    need 6 (len ≤ 32 * d.epr)
    if at_ + 1 < last then
      let n ← cmdRead g c (d.aux + 8 * (at_ + 1)) 8
      need 6 (first + len ≤ bits (leNat n) 47 0)
    let ks ← if len = 0 then pure [] else cmdRead g c (d.side + 2 * first) (2 * len)
    let keys := halves ks
    need 6 (ascends keys && keys.all fun k => k < 2048 && keyPos k < d.epr)
    let vs ← readPacked g c d.base d.elemBits first len
    let here := ((keys.zip vs).filter fun e => keyRow e.1 == r % 32).map fun e => (c0 * d.epr + keyPos e.1, e.2)
    return here ++ (← coomRow g c d r k (c0 + 1))

/-- The set bits of `n` occupancy words. -/
def setBits (ws : List Nat) : List Nat :=
  ws.zipIdx.flatMap fun e => ((List.range 64).filter (bit e.1 ·)).map fun b => 64 * e.2 + b

/-- The codes and scale halfwords of dense row `r`. A `ROWCLASS` row is read by `tableRow`. -/
def denseRow (g : Eng) (c : Cmd) (d : Desc) (r : Nat) : M (List Nat × List Nat) := do
  match d.kind with
  | 0 =>
    let (es, ss) ← storedRow g c d r (d.grid 0) 0
    return (es.take d.dim0, ss.take d.nb)
  | 1 =>
    let row ← cmdRead g c (d.aux + r / 32 * 1024 * ((d.nb + 511) / 512)) (2 * d.nb)
    let perm := halves row
    need 6 (isPermutation perm d.nb)
    let (es, ss) ← storedRow g c d r (d.grid 0) 0
    let es := es.take d.dim0 ++ List.replicate 32 0
    return ((List.range d.dim0).map fun e => es.getD (32 * storedAt perm (e / 32) + e % 32) 0,
      (List.range d.nb).map fun b => ss.getD (storedAt perm b) 0)
  | 2 =>
    let l ← coomRow g c d r (d.grid 0) 0
    return (spread d.dim0 l, [])
  | 3 =>
    let n := (d.dim0 + 63) / 64
    let occ ← cmdRead g c (d.side + 8 * n * r) (8 * n)
    let ws := (List.range n).map fun i => fieldAt occ (8 * i) 8
    let on := setBits ws
    need 6 (on.all (· < d.dim0))
    let first ← if d.aux = 0 ∧ d.dimOf 1 = 1 then pure 0 else (do
      let b ← cmdRead g c (d.aux + 8 * r) 8
      pure (leNat b))
    let vs ← readPacked g c d.base d.elemBits first on.length
    return (spread d.dim0 (on.zip vs), [])
  | _ =>
    let p ← cmdRead g c (d.side + 4 * r) 8
    let lo := fieldAt p 0 4
    let hi := fieldAt p 4 4
    need 6 (lo ≤ hi)
    let cs ← if lo = hi then pure [] else cmdRead g c (d.aux + 4 * lo) (4 * (hi - lo))
    let cols := (List.range (hi - lo)).map fun i => fieldAt cs (4 * i) 4
    need 6 (cols.all (· < d.dim0))
    let vs ← readPacked g c d.base d.elemBits lo (hi - lo)
    return (spread d.dim0 (cols.zip vs), [])

/-- A read that a row of a table makes: none where it meets a lasting error. -/
def tableRead (g : Eng) (c : Cmd) (va n : Nat) : M (Option (List Byte)) := do
  match ← readPinned (g.agent c) c.pins (va % 2 ^ 64) n with
  | .ok bs => return some bs
  | .error .ecc => return none
  | .error b => endStatus (badStatus b)

/-- The exact values of row `r` of a `ROWCLASS` table (R95, R315, R320), with the flags of reading them: NV for a signalling
NaN, RSV for a reserved scale (R46, R60). Otherwise the address where it meets a lasting error. -/
def tableRow (g : Eng) (c : Cmd) (d : Desc) (r : Nat) : M (Except Nat (List Ex × Flags)) := do
  match ← tableRead g c (d.aux + 8 * r) 8 with
  | none => return .error (d.aux + 8 * r)
  | some e =>
    let e := leNat e
    need 6 (bits e 1 0 < 3 && bits e 5 2 == 0)
    let a := d.base + 64 * bits e 63 6
    if bits e 1 0 = 0 then
      match ← tableRead g c a (2 * d.dim0) with
      | none => return .error a
      | some bs =>
        let hs := halves bs
        return .ok (hs.map (FFmt.bf16.decode ·), flagIf (hs.any FFmt.bf16.isSNaN) Flag.nv)
    else
      let f := if bits e 1 0 = 1 then d.nf else d.coldNf
      let w := if bits e 1 0 = 1 then 8 else 4
      let n := packedBytes w d.dim0
      match ← tableRead g c a n, ← tableRead g c (a + n) (2 * d.nb) with
      | some bs, some sc =>
        let hs := halves sc
        need 6 (hs.all (· < 1024))
        let vs := ((unpackElems w bs).take d.dim0).zipIdx.map fun v => scaledValue f v.1 (hs.getD (v.2 / 32) 0)
        return .ok (vs, flagIf (hs.any fun h => decodeS10 h == .nan true) Flag.rsv)
      | none, _ => return .error a
      | _, none => return .error (a + n)

/-! ### Writing a row -/

/-- The cells one tile's part of a row makes, with its scales, in one write (R316, R132). -/
def rowCells (s : State) (g : Eng) (c : Cmd) (d : Desc) (r c0 : Nat) (es ss : List Nat) : Except Bad (Tbl Byte) := do
  let va := d.tile [c0, r / 32, 0, 0]
  let p ← resolve s c.pins (va + 32 * (r % 32)) 32 true
  let part := (es.drop (c0 * d.epr)).take d.epr
  let bs := packElems d.elemBits part
  let a := g.agent c
  let cells := ((physOf p).zip bs).zipIdx.foldl (fun (t : Tbl Byte) ((pa, b), i) =>
    if d.elemBits = 4 ∧ part.length ≤ 2 * i + 1 then t.insert pa ((b &&& 0x0F) ||| (byteSeen s a pa &&& 0xF0))
    else t.insert pa (d.trimCode b)) ([] : Tbl Byte)
  if d.efmt = 13 then
    let per := d.epr / 32
    let q ← resolve s c.pins (d.scaleAddr va + 2 * per * (r % 32)) (2 * per) true
    let hs := (List.range per).map fun i => ss.getD (c0 * per + i) 0 % 1024
    return ((physOf q).zip (unhalves hs)).foldl (fun (t : Tbl Byte) e => t.insert e.1 e.2) cells
  else return cells

/-- Whether a tile's part of a row ends within a byte, so that the byte's other half is read (R132). -/
def rowHalves (d : Desc) (c0 : Nat) (es : List Nat) : Bool :=
  d.elemBits == 4 && ((es.drop (c0 * d.epr)).take d.epr).length % 2 == 1

/-- Write row `r`, tile by tile. -/
def writeRow (g : Eng) (c : Cmd) (d : Desc) (r : Nat) (es ss : List Nat) : Nat → Nat → M Unit
  | 0, _ => pure ()
  | k + 1, c0 => do
    let s ← get
    if rowHalves d c0 es then
      match resolve s c.pins (d.tile [c0, r / 32, 0, 0] + 32 * (r % 32)) 32 true with
      | .ok p => chooseSnaps (g.agent c) ((physOf p).map (· / 1024))
      | .error _ => pure ()
    let s ← get
    match rowCells s g c d r c0 es ss with
    | .error b => endStatus (badStatus b)
    | .ok cells =>
      writeCells (g.agent c) cells
      writeRow g c d r es ss k (c0 + 1)

/-- The bytes of a row on a queue whose entries hold `n` bytes, padded to whole entries; scales first (R316). -/
def rowBytes (n w : Nat) (narrow : Bool) (es ss : List Nat) : List Byte :=
  let padTo (bs : List Byte) : List Byte := bs ++ List.replicate ((n - bs.length % n) % n) 0
  (if narrow then padTo (unhalves ss) else []) ++ padTo (packElems w es)

/-- Entries a row takes on a queue. -/
def rowEntries (n w dim0 : Nat) (narrow : Bool) : Nat := (if narrow then 1 else 0) + (packedBytes w dim0 + n - 1) / n

/-- Push entry `pos` of the row held in the command's progress; whether it was the last. -/
def pushRowEntry (g : Eng) (c : Cmd) (q width : Nat) : M Bool := do
  let n := entryBytes width
  let total := c.prog.nums.length / n
  let i := c.prog.pos
  let k ← c.crewOrFault
  let data := ((c.prog.nums.drop (n * i)).take n).map (BitVec.ofNat 8)
  asCommand (pushQueue k q 7 width { data := data, h := i == 0, t := i + 1 == total })
  if i + 1 = total then return true
  setCmd g { c with prog := { c.prog with pos := i + 1 } }
  return false

/-- Hold a row for the queue. -/
def holdRow (g : Eng) (c : Cmd) (bs : List Byte) : M Unit :=
  setCmd g { c with prog := { c.prog with nums := bs.map (·.toNat), pos := 0 } }

/-- Index `i` of a list of `n32`. -/
def indexAt (g : Eng) (c : Cmd) (base i : Nat) : M Nat := do
  let b ← cmdRead g c (base + 4 * i) 4
  return leNat b

/-! ### GATH (R316) -/

def gathBody (g : Eng) (c : Cmd) : M Bool := do
  let b := c.prog.bytes
  reserved b [(0x30, 16)]
  let opt := bodyField b 0x1C 2
  need 2 (opt < 4)
  let ts ← tidField c 0x18
  let td ← tidField c 0x1A
  let q ← queueField c 0x1E
  let n := bodyField b 0x28 4
  let drow := bodyField b 0x2C 4
  let qout := bit opt 1
  let src ← cmdDesc g c ts false
  let dst ← if qout then pure src else cmdDesc g c td true
  let rc := src.kind == 4
  need 6 (plane ts src && (qout || (plane td dst && dst.kind == 0 && dst.dim0 == src.dim0)))
  need 7 (src.rax == 0)
  need 7 (qout || (if rc then dst.efmt == 11 else dst.efmt == src.efmt && dst.nfd == src.nfd && dst.rax == 0))
  need 5 (qout || drow + n ≤ dst.dim1)
  let width ← if qout then rowQueue c q true else pure 0
  need 6 (if qout then td == 0 && drow == 0 else q == 0)
  let narrow := src.efmt == 13
  need 6 (!qout || !narrow || 2 * src.nb ≤ entryBytes width)
  let i := c.count
  if n ≤ i then return true
  if !c.prog.nums.isEmpty then
    if ← pushRowEntry g c q width then
      setCmd g { c with count := i + 1, prog := { c.prog with nums := [], pos := 0 } }
      return i + 1 = n
    else return false
  else
    let r ← indexAt g c (bodyField b 0x20 8) i
    let oob := src.dim1 ≤ r
    need 5 (!oob || bit opt 0)
    let (es, ss, fl) ← if oob then pure (List.replicate src.dim0 0, List.replicate src.nb 0, 0)
      else if rc then (do
        match ← tableRow g c src r with
        | .error va => eccStop c va
        | .ok (vs, fl) =>
          let rs := vs.map fun v => roundF v .bf16 0 0
          pure (rs.map (·.1), [], orf fl (allFlags rs)))
      else (do
        let (es, ss) ← denseRow g c src r
        pure (es, ss, 0))
    let c := { c with events := c.events + (if oob then 1 else 0), flags := orf c.flags fl }
    if qout then
      holdRow g c (rowBytes (entryBytes width) src.elemBits narrow es ss)
      return false
    else
      writeRow g c dst (drow + i) es ss (dst.grid 0) 0
      setCmd g { c with count := i + 1 }
      return i + 1 = n

def execGath (o : LaneFmt) (s : State) : Out := runBlock o (.gath o) false 0x00 64 gathBody (s := s)

/-! ### Ordered epochs (R318, R319) -/

/-- Held accumulates a port's ordering store has room for: 262,144 bytes at 16 bytes each. -/
def storeCap : Nat := 16384

/-- Accumulates held at a port over all epochs. -/
def heldAt (s : State) (port : Nat) : Nat :=
  s.epochs.foldl (fun n e => n + (e.2.ports.getD port {}).held.length) 0

/-- Mark that a command reached a port. -/
def reachPort (cmd port : Nat) : List (Nat × List Nat) → List (Nat × List Nat)
  | [] => [(cmd, [port])]
  | (i, ps) :: t => if i = cmd then (i, addName ps port) :: t else (i, ps) :: reachPort cmd port t

/-- The key under which a use of an EPID stands: the use that a command already takes part in, else the one whose closes are
not all in, else a new one. EPID stands in bits 31:0, so that a use may begin before every command of the last has left it
(R318). -/
def epochKey (s : State) (epid : Nat) (cmd : Option Nat) : Nat :=
  let uses := s.epochs.filter fun e => e.1 % 2 ^ 32 == epid
  match uses.find? fun e => cmd.any fun id => e.2.waiting.any fun w => w.1 == id with
  | some e => e.1
  | none =>
    match uses.find? fun e => e.2.closes < e.2.nsrc with
    | some e => e.1
    | none => (uses.getLast?.map fun e => e.1 + 2 ^ 32).getD epid

/-- An ordered accumulate arrives at its port (R318, R319); one of another package brings its own sequence. -/
def holdAdd (epid nsrc port : Nat) (a : HeldAdd) (s : State) : State :=
  let e := s.epochs.getD epid { nsrc := nsrc }
  let seq := e.seqs.getD a.cl 0
  let p := e.ports.getD port {}
  let p := if p.refused then p
    else if storeCap ≤ heldAt s port then { p with held := [], refused := true }
    else { p with held := p.held ++ [if a.pkg.isNone then { a with seq := seq } else a] }
  let e := { e with ports := e.ports.insert port p }
  let e := if a.pkg.isNone then { e with seqs := e.seqs.insert a.cl (seq + 1), waiting := reachPort a.cmd port e.waiting } else e
  { s with epochs := s.epochs.insert epid e }

/-- A command closes the epoch (R318); a close of another package's command leaves nothing waiting here. -/
def closeEpoch (epid nsrc : Nat) (cmd : Option Nat) (s : State) : State :=
  let e := s.epochs.getD epid { nsrc := nsrc }
  let w := match cmd with
    | some id => if e.waiting.any fun w => w.1 == id then e.waiting else e.waiting ++ [(id, [])]
    | none => e.waiting
  { s with epochs := s.epochs.insert epid { e with closes := e.closes + 1, waiting := w } }

/-- The ports a command reached have applied the epoch, or refused it. -/
def epochDone (s : State) (epid cmd : Nat) : Bool :=
  let e := s.epochs.getD epid {}
  (e.waiting.filter fun w => w.1 == cmd).all fun w => w.2.all fun p => (e.ports.getD p {}).applied

def epochRefused (s : State) (epid cmd : Nat) : Bool :=
  let e := s.epochs.getD epid {}
  (e.waiting.filter fun w => w.1 == cmd).any fun w => w.2.any fun p => (e.ports.getD p {}).refused

/-- A command leaves its epoch; an epoch applied everywhere and awaited by none is gone. -/
def leaveEpoch (epid : Nat) (cmd : Option Nat) (s : State) : State :=
  match s.epochs.find? epid with
  | none => s
  | some e =>
    let e := { e with waiting := e.waiting.filter fun w => some w.1 != cmd }
    if e.waiting.isEmpty && e.nsrc ≤ e.closes && e.ports.all fun p => p.2.applied then
      { s with epochs := s.epochs.erase epid }
    else { s with epochs := s.epochs.insert epid e }

/-- The accumulate of an element format: OP 1 adds, OP 2 takes the maximum. -/
def scatAcc (efmt op : Nat) : Option Acc :=
  if op = 1 then
    (if efmt = 3 ∨ efmt = 4 ∨ efmt = 8 ∨ efmt = 9 then some .add else if efmt = 10 ∨ efmt = 11 then some .fadd else none)
  else if efmt = 3 ∨ efmt = 4 then some (.max true)
  else if efmt = 8 ∨ efmt = 9 then some (.max false)
  else if efmt = 10 then some .fmax
  else none

/-- The source package of a held accumulate. -/
def HeldAdd.package (a : HeldAdd) : Nat := a.pkg.getD selfId

/-- Order of application: source package, source cluster, then sequence (R318). -/
def HeldAdd.before (a b : HeldAdd) : Bool :=
  if a.pkg == b.pkg then a.cl < b.cl || (a.cl == b.cl && a.seq ≤ b.seq)
  else a.package < b.package || (a.package == b.package && a.pkg.isNone)

/-- A held accumulate meets a lasting error (R471): nothing is written, and its command will end with `ECC`. -/
def heldLost (h : HeldAdd) : M Unit := do
  let s ← get
  match h.pkg, findCmd s h.cmd with
  | none, some c =>
    containReport c.ctx (c.handle s) h.va 3 0 1 1
    upd (updAnyCmd h.cmd fun e => { e with prog := { e.prog with events := 2 } })
  | _, _ => countSector 3 (h.pa / 32)

/-- Apply one held accumulate at its port (R313, R318): its flags go to its command. One of another package is the hub's write
here, published at package scope (log 90). -/
def applyHeld (h : HeldAdd) : M Unit := do
  match scatAcc h.efmt h.op with
  | none => pure ()
  | some op =>
    let n := if h.efmt = 4 ∨ h.efmt = 9 then 64 else if h.efmt = 11 then 16 else 32
    match ← readPort h.pa (n / 8) with
    | none => heldLost h
    | some bs =>
      let old := leNat bs
      let r := accNew op n 0 old h.v
      let new := leBytes (n / 8) (r.1.getD old)
      if h.pkg.isSome then
        writePort .hub h.pa new
        upd (release · .hub 4)
      else
        writePort (.cmd h.cmd) h.pa new
        logPort (h.cl * 2 + 1) h.pa old
        upd (updAnyCmd h.cmd fun e => { e with flags := orf e.flags r.2 })

def applyAllHeld : List HeldAdd → M Unit
  | [] => pure ()
  | h :: t => do applyHeld h; applyAllHeld t

/-- A port that has every close of an epoch applies what it holds (R318). Which port acts first is unspecified. -/
def epochApply (epid : Nat) : M Unit := do
  let s ← get
  match s.epochs.find? epid with
  | none => pure ()
  | some e =>
    if e.closes < e.nsrc then pure ()
    else
      let due := (e.ports.filter fun p => !p.2.applied).map (·.1)
      if due.isEmpty then upd (leaveEpoch epid none)
      else
        let k ← pick 0 (due.length - 1)
        let port := due.getD k 0
        let p := e.ports.getD port {}
        applyAllHeld (sortBy HeldAdd.before p.held)
        upd fun s =>
          let e := s.epochs.getD epid {}
          { s with epochs := s.epochs.insert epid { e with ports := e.ports.insert port { p with held := [], applied := true } } }
        upd (leaveEpoch epid none)

def execEpochApply (epid : Nat) (s : State) : Out := .next (runM (epochApply epid) s)

/-! ### SCAT (R317) -/

/-- The next entry of a command's H-to-T group: the bytes so far, and whether the group has ended (R314). -/
def popRowEntry (g : Eng) (c : Cmd) (q width want : Nat) : M Bool := do
  let k ← c.crewOrFault
  let e ← asCommand (popQueue k q 7 width)
  if e.p then endStatus 11
  let n := c.prog.count + 1
  if (n == 1) != e.h ∨ e.t != (n == want) then endStatus 6
  setCmd g { c with prog := { c.prog with count := n, nums := c.prog.nums ++ e.data.map (·.toNat) } }
  return e.t

/-- What SCAT's operands give. -/
structure Scat where
  dst : Desc
  src : Desc
  qin : Bool
  q : Nat
  width : Nat
  op : Nat
  oobz : Bool
  ordered : Bool
  n : Nat
  srow : Nat
  epid : Nat := 0
  nsrc : Nat := 0

def scatOperands (g : Eng) (c : Cmd) : M Scat := do
  let b := c.prog.bytes
  reserved b [(0x38, 8)]
  let opt := bodyField b 0x1C 2
  need 2 (opt < 128 && !bit opt 3 && bits opt 6 4 < 3)
  let ts ← tidField c 0x18
  let td ← tidField c 0x1A
  let q ← queueField c 0x1E
  let n := bodyField b 0x28 4
  let srow := bodyField b 0x2C 4
  let ep := bodyField b 0x30 8
  let qin := bit opt 1
  let ordered := bit opt 2
  let op := bits opt 6 4
  let dst ← cmdDesc g c td true
  let src ← if qin then pure dst else cmdDesc g c ts false
  need 6 (plane td dst && dst.kind == 0 && (qin || (plane ts src && src.kind == 0 && src.dim0 == dst.dim0)))
  need 7 (dst.rax == 0 && src.rax == 0 && src.efmt == dst.efmt)
  need 7 (op == 0 || (scatAcc dst.efmt op).isSome)
  need 5 (qin || srow + n ≤ src.dim1)
  let width ← if qin then rowQueue c q false else pure 0
  need 6 (if qin then ts == 0 && srow == 0 else q == 0)
  need 6 (if ordered then op != 0 && ep != 0 && ep % 16 == 0 else ep == 0)
  need 6 (!qin || dst.efmt != 13 || 2 * dst.nb ≤ entryBytes width)
  let x : Scat :=
    { dst := dst, src := src, qin := qin, q := q, width := width, op := op, oobz := bit opt 0, ordered := ordered, n := n
      srow := srow }
  if ordered then
    let r ← cmdRead g c ep 16
    let nsrc := fieldAt r 4 4
    need 6 (fieldAt r 8 8 == 0 && 1 ≤ nsrc && nsrc ≤ 65535)
    return { x with epid := fieldAt r 0 4, nsrc := nsrc }
  else return x

/-- Row `i` is done. -/
def scatNext (g : Eng) (c : Cmd) : M Unit :=
  setCmd g { c with count := c.count + 1, prog := { c.prog with pos := 0, count := 0, nums := [] } }

/-- The codes and scales of a row held as queue bytes. -/
def heldRow (x : Scat) (nums : List Nat) : List Nat × List Nat :=
  let n := entryBytes x.width
  let bs : List Byte := nums.map (BitVec.ofNat 8)
  let narrow := x.dst.efmt == 13
  let data := if narrow then bs.drop n else bs
  ((unpackElems x.dst.elemBits data).take x.dst.dim0, if narrow then (halves bs).take x.dst.nb else [])

/-- One element is applied at its port, or held there. -/
def scatElement (g : Eng) (c : Cmd) (x : Scat) (r e v : Nat) : M Unit := do
  match scatAcc x.dst.efmt x.op with
  | none => endStatus 7
  | some op =>
    let w := x.dst.elemBits
    let va := x.dst.tile [e / x.dst.epr, r / 32, 0, 0] + 32 * (r % 32) + e % x.dst.epr * (w / 8)
    let pa ← cmdPhys c (va % 2 ^ 64) (w / 8) true
    if x.ordered then
      upd fun s => holdAdd (epochKey s x.epid (some c.id)) x.nsrc (homePort pa)
        { cl := g.cl, seq := 0, cmd := c.id, pa := pa, va := va % 2 ^ 64, efmt := x.dst.efmt, op := x.op, v := v } s
      setCmd g { c with prog := { c.prog with pos := e + 1 } }
    else
      let old ← portUpdate g c (va % 2 ^ 64) pa (w / 8) fun old => (accNew op w 0 old v).1
      setCmd g { c with flags := orf c.flags (accNew op w 0 old v).2, prog := { c.prog with pos := e + 1 } }

def scatBody (g : Eng) (c : Cmd) : M Bool := do
  let x ← scatOperands g c
  let b := c.prog.bytes
  if x.n ≤ c.count then
    if !x.ordered then return true
    if c.prog.events = 0 then
      upd fun s => closeEpoch (epochKey s x.epid (some c.id)) x.nsrc (some c.id) s
      setCmd g { c with prog := { c.prog with events := 1 } }
      return false
    let s ← get
    let key := epochKey s x.epid (some c.id)
    if !epochDone s key c.id then return false
    let bad := epochRefused s key c.id
    upd (leaveEpoch key (some c.id))
    if bad then endStatus 15 else if c.revoked then endStatus 13 else if c.prog.events = 2 then endStatus 12 else return true
  else
    let want := rowEntries (entryBytes x.width) x.dst.elemBits x.dst.dim0 (x.dst.efmt == 13)
    let r ← indexAt g c (bodyField b 0x20 8) c.count
    let oob := x.dst.dim1 ≤ r
    need 5 (!oob || x.oobz)
    if x.qin && c.prog.count < want then
      let _ ← popRowEntry g c x.q x.width want
      return false
    if oob then
      scatNext g { c with events := c.events + 1 }
      return false
    let (es, ss) ← if x.qin then pure (heldRow x c.prog.nums) else denseRow g c x.src (x.srow + c.count)
    if x.op = 0 then
      writeRow g c x.dst r es ss (x.dst.grid 0) 0
      scatNext g c
      return false
    else
      let e := c.prog.pos
      if e < x.dst.dim0 then
        scatElement g c x r e (es.getD e 0)
        return false
      else
        scatNext g c
        return false

def execScat (o : LaneFmt) (s : State) : Out := runBlock o (.scat o) false 0x01 64 scatBody (s := s)

/-! ### BAGS (R320) -/

/-- The running state of a bag: sums, events, flags. -/
structure Bag where
  acc : List Nat
  events : Nat := 0
  flags : Flags := 0

/-- NX, OF and UF. -/
def roundFlags (f : Flags) : Flags := f &&& 0x1C

/-- Add a row to a bag's sums (R320), with the flags that reading the row raised (R46, R60). -/
def Bag.add (b : Bag) (row : List Ex) (fl : Flags := 0) : Bag :=
  let r := (b.acc.zip row).map fun e => roundF ((FFmt.f32.decode e.1).add 0 e.2) .f32 0 0
  { b with acc := r.map (·.1), flags := r.foldl (fun f e => orf f (roundFlags e.2)) (orf b.flags fl) }

/-- A row of zeros stands in a bag, and its event counts at once (R320). -/
def Bag.zeroRow (g : Eng) (c : Cmd) (b : Bag) (n : Nat) : M Bag := do
  upd (updCmd g.cl g.copy c.id fun v => { v with events := v.events + 1 })
  return { b.add (List.replicate n Ex.zero) with events := b.events + 1 }

/-- Rows `j` on of a bag, `n` of them. -/
def bagRows (g : Eng) (c : Cmd) (t : Desc) (oobz zf : Bool) (idx : Nat) : Nat → Nat → Bag → M Bag
  | 0, _, b => return b
  | n + 1, j, b => do
    let r ← indexAt g c idx j
    if t.dim1 ≤ r then
      need 5 oobz
      bagRows g c t oobz zf idx n (j + 1) (← b.zeroRow g c t.dim0)
    else
      match ← tableRow g c t r with
      | .ok (row, fl) =>
        let b := b.add row fl
        upd (updCmd g.cl g.copy c.id fun v => { v with flags := orf v.flags b.flags })
        bagRows g c t oobz zf idx n (j + 1) b
      | .error va =>
        if zf then
          let s ← get
          containReport c.ctx (c.handle s) va 3 0 1 0
          bagRows g c t oobz zf idx n (j + 1) (← b.zeroRow g c t.dim0)
        else eccStop c va

def bagsBody (g : Eng) (c : Cmd) : M Bool := do
  let b := c.prog.bytes
  reserved b [(0x38, 8)]
  let opt := bodyField b 0x1C 2
  need 2 (opt < 128 && bits opt 6 4 < 3)
  let tt ← tidField c 0x18
  let td ← tidField c 0x1A
  let q ← queueField c 0x1E
  let nb := bodyField b 0x30 4
  let drow := bodyField b 0x34 4
  let qout := bit opt 1
  let tbl ← cmdDesc g c tt false
  let dst ← if qout then pure tbl else cmdDesc g c td true
  let efmt := 10 + bits opt 6 4
  need 6 (tbl.kind == 4 && (qout || (plane td dst && dst.kind == 0 && dst.dim0 == tbl.dim0)))
  need 7 (qout || dst.efmt == efmt)
  need 5 (qout || drow + nb ≤ dst.dim1)
  let width ← if qout then rowQueue c q true else pure 0
  need 6 (if qout then td == 0 && drow == 0 else q == 0)
  let i := c.count
  if nb ≤ i then return true
  if !c.prog.nums.isEmpty then
    if ← pushRowEntry g c q width then
      setCmd g { c with count := i + 1, prog := { c.prog with nums := [], pos := 0 } }
      return i + 1 = nb
    else return false
  else
    let ofs ← cmdRead g c (bodyField b 0x28 8 + 4 * i) 8
    let lo := fieldAt ofs 0 4
    let hi := fieldAt ofs 4 4
    need 6 (lo ≤ hi)
    let bag ← bagRows g c tbl (bit opt 0) (bit opt 2) (bodyField b 0x20 8) (hi - lo) lo { acc := List.replicate tbl.dim0 0 }
    let cnt := hi - lo
    let acc := if bit opt 3 && cnt != 0 then
        bag.acc.map fun a => roundNE ((FFmt.f32.decode a).divFin (.fin false cnt 1))
      else bag.acc
    let f : FFmt := if efmt = 10 then .f32 else if efmt = 11 then .bf16 else .f16
    let outs := acc.map fun a => roundF (FFmt.f32.decode a) f 0 0
    let fl := outs.foldl (fun x e => orf x (roundFlags e.2)) bag.flags
    let c := { c with events := c.events + bag.events, flags := orf c.flags fl }
    let es := outs.map (·.1)
    if qout then
      holdRow g c (rowBytes (entryBytes width) f.width false es [])
      return false
    else
      setCmd g c
      writeRow g c dst (drow + i) es [] (dst.grid 0) 0
      setCmd g { c with count := i + 1 }
      return i + 1 = nb

def execBags (o : LaneFmt) (s : State) : Out := runBlock o (.bags o) false 0x02 64 bagsBody (s := s)

/-! ### ISECT (R321) -/

/-- The walk's position: next word, values before it of A and of B, the words in hand, the bits left of their AND, and an
emission not yet pushed. -/
structure Walk where
  w : Nat
  pa : Nat
  pb : Nat
  oa : Nat
  ob : Nat
  left : Nat
  held : List Nat

def Walk.ofNums (l : List Nat) : Walk :=
  { w := l.getD 0 0, pa := l.getD 1 0, pb := l.getD 2 0, oa := l.getD 3 0, ob := l.getD 4 0, left := l.getD 5 0
    held := l.drop 6 }

def Walk.nums (x : Walk) : List Nat := [x.w, x.pa, x.pb, x.oa, x.ob, x.left] ++ x.held

def setWalk (c : Cmd) (x : Walk) : Cmd := { c with prog := { c.prog with nums := x.nums } }

/-- The word entry of an emission (R321). -/
def emitWord (l : List Nat) (t : Bool) : QEntry :=
  { data := leBytes 8 (l.getD 0 0 % 2 ^ 32 + l.getD 1 0 % 2 ^ 16 * 2 ^ 32 + l.getD 2 0 % 2 ^ 16 * 2 ^ 48), t := t }

def pushEmission (c : Cmd) (q : Nat) (l : List Nat) (t : Bool) : M Unit := do
  let k ← c.crewOrFault
  asCommand (pushQueue k q 7 0 (emitWord l t))

/-- Occupancy word `w` of a vector. -/
def occWord (g : Eng) (c : Cmd) (d : Desc) (w : Nat) : M Nat := do
  let b ← cmdRead g c (d.side + 8 * w) 8
  let v := leNat b
  need 6 ((List.range 64).all fun i => !bit v i || 64 * w + i < d.dim0)
  return v

/-- The end of the walk: the last entry carries T (R321). -/
def isectEnd (g : Eng) (c : Cmd) (q mode : Nat) (x : Walk) : M Bool := do
  if mode = 0 then return true
  if x.held.isEmpty then
    pushEmission c q [0xFFFFFFFF, 0, 0] true
    return true
  pushEmission c q x.held true
  setCmd g { c with count := c.count + 1 }
  return true

def isectBody (g : Eng) (c : Cmd) : M Bool := do
  let b := c.prog.bytes
  reserved b [(0x1E, 2), (0x38, 8)]
  let mode := bodyField b 0x1C 1
  let q := bodyField b 0x1D 1
  need 2 (mode < 2 && q < 64)
  let ta ← tidField c 0x18
  let tb ← tidField c 0x1A
  let da ← cmdDesc g c ta false
  let db ← cmdDesc g c tb false
  need 6 (da.kind == 3 && db.kind == 3 && da.nd == 1 && db.nd == 1 && da.dim0 == db.dim0)
  need 7 (mode == 0 || (da.elemBits ≤ 16 && db.elemBits ≤ 16))
  if mode = 1 then
    let _ ← cmdQueue c q 7 true [0]
  need 6 (if mode = 0 then q == 0 else (b.drop 0x20).take 24 |>.all (· == 0))
  let x := Walk.ofNums c.prog.nums
  if x.left = 0 then
    if x.w < (da.dim0 + 63) / 64 then
      let oa ← occWord g c da x.w
      let ob ← occWord g c db x.w
      setCmd g (setWalk c { x with
        w := x.w + 1, pa := x.pa + popCount x.oa 64, pb := x.pb + popCount x.ob 64, oa := oa, ob := ob
        left := oa &&& ob })
      return false
    else isectEnd g c q mode x
  else
    let j := trailZeros x.left 64
    let va ← readPacked g c da.base da.elemBits (x.pa + popCount (x.oa % 2 ^ j) 64) 1
    let vb ← readPacked g c db.base db.elemBits (x.pb + popCount (x.ob % 2 ^ j) 64) 1
    let i := 64 * (x.w - 1) + j
    let x' := { x with left := x.left - 2 ^ j }
    if mode = 0 then
      cmdWrite g c (bodyField b 0x20 8 + 4 * c.count) (leBytes 4 i)
      writePacked g c (bodyField b 0x28 8) da.elemBits c.count (va.headD 0)
      writePacked g c (bodyField b 0x30 8) db.elemBits c.count (vb.headD 0)
      setCmd g { setWalk c x' with count := c.count + 1 }
    else if x.held.isEmpty then
      setCmd g (setWalk c { x' with held := [i, va.headD 0, vb.headD 0] })
    else
      pushEmission c q x.held false
      setCmd g { setWalk c { x' with held := [i, va.headD 0, vb.headD 0] } with count := c.count + 1 }
    return false

def execIsect (o : LaneFmt) (s : State) : Out := runBlock o (.isect o) false 0x03 64 isectBody (s := s)

/-! ### MSORT (R322) -/

/-- A coordinate entry: its tile's place in the directory, its key, its value. -/
structure Coord where
  tile : Nat
  key : Nat
  v : Nat
  deriving DecidableEq, Repr, Inhabited

def Coord.before (a b : Coord) : Bool := a.tile < b.tile || (a.tile == b.tile && a.key ≤ b.key)
def Coord.same (a b : Coord) : Bool := a.tile == b.tile && a.key == b.key

def readCoords (g : Eng) (c : Cmd) (d : Desc) (coord val : Nat) : Nat → Nat → M (List Coord)
  | 0, _ => return []
  | k + 1, i => do
    let b ← cmdRead g c (coord + 16 * i) 16
    let e (n : Nat) : Nat := fieldAt b (4 * n) 4
    need 5 ((List.range 4).all fun n => e n < d.dimOf n)
    let v ← readPacked g c val d.elemBits i 1
    let place := e 0 / d.epr + d.grid 0 * (e 1 / 32 + d.grid 1 * (e 2 + d.dimOf 2 * e 3))
    let rest ← readCoords g c d coord val k (i + 1)
    return { tile := place, key := interleave (e 0 % d.epr) (e 1 % 32) 6, v := v.headD 0 } :: rest

/-- The sum of two values of a format (R322). -/
def mergeValues (d : Desc) (a b : Nat) : Nat × Flags :=
  match EF.ofEfmt d.efmt with
  | some (.flt f) => faddF f 0 0 false a b
  | _ => ((a + b) % 2 ^ d.elemBits, 0)

/-- Merge neighbours of equal tile and key. -/
def mergeCoords (d : Desc) (dup : Bool) : List Coord → List Coord → Flags → List Coord × Flags
  | acc, [], fl => (acc.reverse, fl)
  | [], e :: t, fl => mergeCoords d dup [e] t fl
  | a :: acc, e :: t, fl =>
    if a.same e then
      let (v, f) := if dup then mergeValues d a.v e.v else (e.v, 0)
      mergeCoords d dup ({ a with v := v } :: acc) t (orf fl f)
    else mergeCoords d dup (e :: a :: acc) t fl

/-- The directory: for tile `t` on, the index of its first entry and its length (R93, R322). -/
def directory (l : List Coord) : Nat → Nat → Nat → List Byte
  | 0, _, _ => []
  | k + 1, t, first =>
    let n := (l.filter fun e => e.tile == t).length
    leBytes 8 (first + n * 2 ^ 48) ++ directory l k (t + 1) (first + n)

def msortBody (g : Eng) (c : Cmd) : M Bool := do
  let b := c.prog.bytes
  reserved b [(0x1C, 4), (0x34, 4), (0x38, 8)]
  let opt := bodyField b 0x1A 2
  need 2 (opt < 2)
  let td ← tidField c 0x18
  let d ← cmdDesc g c td true
  need 6 (d.kind == 2)
  let raw ← readCoords g c d (bodyField b 0x20 8) (bodyField b 0x28 8) (bodyField b 0x30 4) 0
  let (l, fl) := mergeCoords d (bit opt 0) [] (sortBy Coord.before raw) 0
  let n := l.length
  let c := { c with flags := orf c.flags fl }
  setCmd g c
  if d.elemBits = 4 ∧ n % 2 = 1 then
    cmdWrite g c d.base ((packElems 4 (l.map (·.v))).take (n / 2))
    writePacked g c d.base 4 (n - 1) ((l.map (·.v)).getLastD 0)
  else cmdWrite g c d.base (packElems d.elemBits (l.map (·.v)))
  cmdWrite g c d.side (unhalves (l.map (·.key)))
  cmdWrite g c d.aux (directory l (d.grid 0 * d.grid 1 * d.grid 2 * d.grid 3) 0 0)
  setCmd g { c with count := n }
  return true

def execMsort (o : LaneFmt) (s : State) : Out := runBlock o (.msort o) false 0x04 64 msortBody (s := s)

/-! ### SPSRCH (R323) -/

/-- The 90 valid patterns: two cells in each row and each column, as sets of cell indices in 16 bits. -/
def patterns : List Nat :=
  let rows := (List.range 16).filter fun r => popCount r 4 == 2
  (rows.flatMap fun a => rows.flatMap fun b => rows.flatMap fun c => rows.map fun d =>
    a + 16 * b + 256 * c + 4096 * d).filter fun p =>
      (List.range 4).all fun j => (List.range 4).foldl (fun n i => n + p / 2 ^ (4 * i + j) % 2) 0 == 2

/-- Saliency of a pair of bf16 codes: an f32 code, none for a NaN (R323), and the flags of the product: NV for a signalling NaN or
an invalid product (R46), and those of its rounding (log 108). -/
def saliency (w gr : Nat) : Option Nat × Flags :=
  let a := FFmt.bf16.decode w
  let b := FFmt.bf16.decode gr
  let v := (a.mul b).abs
  let r := fresult .f32 0 0 (FFmt.bf16.isSNaN w || FFmt.bf16.isSNaN gr || (v.isNaN && !a.isNaN && !b.isNaN)) v
  (if v.isNaN then none else some r.1, (ordinary .bf16 [w, gr] r).2)

/-- Rank of a saliency: a NaN below every number. -/
def rankOf (l : List (Option Nat)) (i : Nat) : Nat :=
  match l.getD i none with
  | some v => v + 1
  | none => 0

def salEx (l : List (Option Nat)) (i : Nat) : Ex :=
  match l.getD i none with
  | some v => FFmt.f32.decode v
  | none => .nan

/-- The greedy choice: cells in order of saliency descending, then index. -/
def greedy (l : List (Option Nat)) : Nat :=
  let order := sortBy (fun a b => rankOf l b < rankOf l a || (rankOf l a == rankOf l b && a ≤ b)) (List.range 16)
  order.foldl (fun kept i =>
    let k := kept ||| 2 ^ i
    if patterns.any fun p => k &&& p == k then k else kept) 0

/-- The swap of largest gain, if any gain is positive: the new set. -/
def bestSwap (l : List (Option Nat)) (kept : Nat) : Option Nat :=
  let pairs := (List.range 16).flatMap fun a => ((List.range 16).filter (a < ·)).map fun b => (a, b)
  let r := pairs.foldl (fun (best : Option (Ex × Nat)) p =>
    let (a, b) := p
    let x := a / 4 * 4 + b % 4
    let y := b / 4 * 4 + a % 4
    if bit kept a && bit kept b && a / 4 != b / 4 && a % 4 != b % 4 && !bit kept x && !bit kept y then
      let gain := ((salEx l x).add 0 (salEx l y)).add 0 ((salEx l a).add 0 (salEx l b)).neg
      let better := match best with
        | none => Ex.zero.lt gain
        | some e => e.1.lt gain
      if better then some (gain, kept - 2 ^ a - 2 ^ b + 2 ^ x + 2 ^ y) else best
    else best) none
  r.map (·.2)

/-- Up to `n` rounds of swaps: the set, and the number of swaps. -/
def swaps (l : List (Option Nat)) : Nat → Nat → Nat × Nat
  | 0, kept => (kept, 0)
  | n + 1, kept =>
    match bestSwap l kept with
    | none => (kept, 0)
    | some k => let r := swaps l n k
                (r.1, r.2 + 1)

/-- Element (e, r) of a dense bf16 tensor. -/
def bf16At (g : Eng) (c : Cmd) (d : Desc) (e r : Nat) : M Nat := do
  let b ← cmdRead g c (d.tile [e / 16, r / 32, 0, 0] + 32 * (r % 32) + e % 16 * 2) 2
  return leNat b

/-- Saliencies of the cells of group (gr, h) from cell index `i` on. -/
def groupSal (g : Eng) (c : Cmd) (wt gd : Desc) (gi h : Nat) : Nat → Nat → M (List (Option Nat × Flags))
  | 0, _ => return []
  | n + 1, i => do
    let w ← bf16At g c wt (4 * gi + i / 4) (4 * h + i % 4)
    let v ← bf16At g c gd (4 * gi + i / 4) (4 * h + i % 4)
    let rest ← groupSal g c wt gd gi h n (i + 1)
    return saliency w v :: rest

/-- The set kept of a group, its swaps, and the flags of its saliencies. -/
def groupMask (g : Eng) (c : Cmd) (wt gd : Desc) (gi h : Nat) : M (Nat × Nat × Flags) := do
  if wt.dim0 ≤ 4 * gi then return (0, 0, 0)
  let sals ← groupSal g c wt gd gi h 16 0
  let l := sals.map (·.1)
  let (kept, n) := swaps l 16 (greedy l)
  return (kept, n, sals.foldl (fun f e => orf f e.2) 0)

/-- Bits of row `j` of a group's set: bit `k` for cell (k, j). -/
def maskNibble (kept j : Nat) : Nat := (List.range 4).foldl (fun a k => a + kept / 2 ^ (4 * k + j) % 2 * 2 ^ k) 0

def writeMaskBytes (g : Eng) (c : Cmd) (m : Desc) (bc h a b : Nat) : Nat → M Unit
  | 0 => pure ()
  | n + 1 => do
    writeMaskBytes g c m bc h a b n
    let r := 4 * h + n
    cmdWrite g c (m.tile [bc / 32, r / 32, 0, 0] + 32 * (r % 32) + bc % 32)
      [BitVec.ofNat 8 (maskNibble a n + 16 * maskNibble b n)]

/-- Byte column and group row `pos` of the mask. -/
def spsrchBody (g : Eng) (c : Cmd) : M Bool := do
  let b := c.prog.bytes
  reserved b [(0x1E, 2)]
  let tw ← tidField c 0x18
  let tg ← tidField c 0x1A
  let tm ← tidField c 0x1C
  let wt ← cmdDesc g c tw false
  let gd ← cmdDesc g c tg false
  let mk ← cmdDesc g c tm true
  need 6 (plane tw wt && plane tg gd && plane tm mk && wt.kind == 0 && gd.kind == 0 && mk.kind == 0)
  need 7 (wt.efmt == 11 && gd.efmt == 11 && mk.efmt == 6)
  need 6 (wt.dim0 == gd.dim0 && wt.dim1 == gd.dim1 && wt.dim0 % 4 == 0 && wt.dim1 % 4 == 0 &&
    mk.dim0 == (wt.dim0 + 7) / 8 && mk.dim1 == wt.dim1)
  let nc := mk.dim0
  let p := c.prog.pos
  let bc := p % nc
  let h := p / nc
  let (a, na, fa) ← groupMask g c wt gd (2 * bc) h
  let (b2, n2, fb) ← groupMask g c wt gd (2 * bc + 1) h
  writeMaskBytes g c mk bc h a b2 4
  setCmd g { c with count := c.count + na + n2, flags := orf c.flags (orf fa fb), prog := { c.prog with pos := p + 1 } }
  return p + 1 = nc * (wt.dim1 / 4)

def execSpsrch (o : LaneFmt) (s : State) : Out := runBlock o (.spsrch o) false 0x05 32 spsrchBody (s := s)

end Sys2Proof.Machine
end

