-- ==== Sys2Proof/Machine/AddressGen.lean ====
section
/-! DEFINITION. The L and W streams: descriptor slots, runs of tiles, banks and discards, word entries, and bank tokens
(R100-R102, R324-R327, R471). -/

namespace Sys2Proof.Machine

/-- `n` bytes that are free values (R471: an erroneous sector's bits never reach a consumer). -/
def freeBytes (n : Nat) : M (List Byte) := fun s =>
  .ok (leBytes n (Config.freeNat s.draws)) { s with draws := s.draws + 1 }

/-- The stream of the lane, or of the unit that performs it: 4 for L, 5 for W. -/
def laneStream (s : State) : Nat :=
  match s.cur with
  | .lgen _ => 4
  | .wgen _ => 5
  | _ => if s.lane = 5 then 5 else 4

/-- Hand over or perform an L or W instruction. `uses` says whether its S field is read at handover. It reads memory in the
phase it was handed over in (R121). -/
def runAg (o : LWFmt) (i : Instr) (uses : Bool) (body : Nat → Nat → Entry → M Bool) (s : State) : Out :=
  let st := laneStream s
  runLane st 1 o.tok
    (fun c => do
      let v ← if uses then readReg (.crew c) o.s 0 else pure 0
      return { name := 0, instr := i, pc := 0, sval := v, sidx := o.s })
    (fun _ => 0) (fun c e => inPhase c e.name (body st c e)) s

def agSlots (k : Crew) (st : Nat) : Tbl (List Byte) := if st = 5 then k.wslots else k.lslots

/-- Progress of an entry of the L or W queue. -/
def setAg (c st name : Nat) (p : Progress) : M Unit := upd (updEntry c st name fun e => { e with prog := p })

def agTrap {α} (cause : Nat) (info : Nat) (addr : Word := 0) : M α := trap cause addr (BitVec.ofNat 64 info)

/-! ### AGDEF (R325) -/

/-- Pins that AGDEF reads through: the crew's own, and in translated code the code pin of its window, whose data page holds the
spill descriptors (R457, R459, R490, log 21). -/
def agdefPins (k : Crew) (lodor : Bool) (c : Nat) (p : Pin) : Bool :=
  crewPins c p || (lodor && p.owner == .launch k.launch k.card)

def agdefBody (o : LWFmt) (st c : Nat) (e : Entry) : M Bool := do
  let va := e.sval.toNat
  if va % 64 ≠ 0 then agTrap 4 64 e.sval
  let s ← get
  let k := s.crew c
  let lodor := ((s.launches.getD k.launch default).cards.getD k.card default).lodor
  match ← readPinned (.half c) (agdefPins k lodor c) va 64 with
  | .error .ecc => throw (.lasting va)
  | .error _ => agTrap 9 0 e.sval
  | .ok b =>
    let tid := (AgDesc.ofBytes b).tid
    match ← agCheck c b (st == 5) with
    | .ecc bad => throw (.lasting bad)
    | .refused bad => agTrap 9 0 (BitVec.ofNat 64 bad)
    | .descriptor => agTrap 6 tid
    | .bounds => agTrap 7 tid
    | .ok =>
      upd fun s => let k := s.crew c
        s.setCrew c (if st = 5 then { k with wslots := k.wslots.insert o.d b } else { k with lslots := k.lslots.insert o.d b })
      return true

def execAgdef (o : LWFmt) (s : State) : Out := runAg o (.agdef o) true (agdefBody o) s

/-! ### AGRUN (R326) -/

/-- The descriptor of a TID for a stream; a write through a read-only one raises the descriptor fault (R82). -/
def agDesc (c tid : Nat) (write : Bool) : M Desc := do
  let s ← get
  let d ← tidOrTrap (s.crew c).ctx tid (some c) (.half c)
  if write && d.ro then agTrap 6 tid else return d

/-- The width a TILE slot runs with: lines or rows (R326). -/
def tileWidth (c q ep : Nat) (push : Bool) : M Nat := do
  let v ← getQueue c q
  if v.width = 0 then agTrap 10 q
  let _ ← checkQueue c q ep v.width push
  return v.width

/-- L makes the burst of the next tile. A lasting error gives a burst whose last entry is poisoned (R471). -/
def makeBurst (c : Nat) (e : Entry) (a : AgDesc) (d : Desc) : M Unit := do
  let p := e.prog
  let cs := a.box.coords p.count
  let narrow := d.efmt == 13
  match ← readTile (.half c) (crewPins c) d cs with
  | .ok body sc =>
    setAg c 4 e.name { p with bytes := burstBytes a.tid narrow cs sc body, nums := [0] }
  | .layout => agTrap 8 a.tid
  | .bad .ecc =>
    let s ← get
    containReport (s.crew c).ctx (handleOf (s.crew c)) (d.tile cs) 3 0 1 3
    let body ← freeBytes 1024
    let sc ← freeBytes 128
    setAg c 4 e.name { p with
      bytes := burstBytes a.tid narrow cs ((halves sc).map (· % 1024)) (d.maskPadding (cs.getD 0 0) (cs.getD 1 0) body), nums := [1] }
  | .bad _ => agTrap 9 0 (BitVec.ofNat 64 (d.tile cs))

/-- L with a TILE slot: a burst is made, then pushed entry by entry. -/
def loadTiles (o : LWFmt) (c : Nat) (e : Entry) (a : AgDesc) : M Bool := do
  let w ← tileWidth c o.q 4 true
  let d ← agDesc c a.tid false
  let p := e.prog
  if p.bytes.isEmpty then
    makeBurst c e a d
    return false
  else
    let es := burstEntries w p.bytes
    let x := es.getD p.pos { data := [] }
    pushQueue c o.q 4 w { x with p := p.nums.headD 0 == 1 && x.t }
    if p.pos + 1 < es.length then
      setAg c 4 e.name { p with pos := p.pos + 1 }
      return false
    else
      setAg c 4 e.name { p with pos := 0, count := p.count + 1, bytes := [], nums := [] }
      return p.count + 1 = a.box.count

/-- A burst fails: it counts as taken, its entries are discarded through the group's tail, and the exception is raised
(R326). `n` entries of it have been popped. -/
def failBurst {α} (c q n : Nat) (ended : Bool) (e : Entry) (x : Exc) : M α := do
  let v ← getQueue c q
  let v := v.discard n
  setQueue c q (if ended then v else v.skipTail)
  setAg c 5 e.name { e.prog with pos := 0, count := e.prog.count + 1, bytes := [] }
  throw (.trapKeep x)

def boundsExc (tid : Nat) : Exc := { cause := 7, info := BitVec.ofNat 64 tid }
def poisonExc (q : Nat) : Exc := { cause := 20, info := BitVec.ofNat 64 q }

/-- W with a TILE slot: a group's entries are popped one by one, then its tile is written. -/
def storeTiles (o : LWFmt) (c : Nat) (e : Entry) (a : AgDesc) : M Bool := do
  let w ← tileWidth c o.q 5 false
  let d ← agDesc c a.tid true
  let p := e.prog
  if a.box.count ≤ p.count then return true
  let x ← popQueue c o.q 5 w
  let n := p.pos + 1
  let want := 1280 / entryBytes w
  if x.p then failBurst c o.q n x.t e (poisonExc o.q)
  let bs := p.bytes ++ x.data
  if !x.t then
    if n < want then
      setAg c 5 e.name { p with pos := n, bytes := bs }
      return false
    else failBurst c o.q n false e (boundsExc a.tid)
  else
    let cs := burstCoords bs
    if n ≠ want ∨ !headerOk bs ∨ burstTid bs ≠ a.tid ∨ burstSc bs ≠ (d.efmt == 13) ∨ !a.box.contains cs then
      failBurst c o.q n true e (boundsExc a.tid)
    match ← writeTile (.half c) (crewPins c) d cs (burstBody bs) (burstScales bs) with
    | .error _ => failBurst c o.q n true e { cause := 9, addr := BitVec.ofNat 64 (d.tile cs) }
    | .ok _ =>
      setAg c 5 e.name { p with pos := 0, count := p.count + 1, bytes := [] }
      return p.count + 1 = a.box.count

/-- A bank access waits for the streams' token (R100). -/
def awaitBank (c b : Nat) : M Unit := do
  let s ← get
  if (s.crew c).banks.getD b 0 ≠ 0 then throw .stall

/-- Entries a BANK slot moves; a length that is no multiple of the width raises the bounds fault (R326). -/
def bankEntries (c q ep : Nat) (push : Bool) (a : AgDesc) : M (Nat × Nat) := do
  let v ← getQueue c q
  let _ ← checkQueue c q ep v.width push
  let n := entryBytes v.width
  if a.length % n ≠ 0 then agTrap 7 0
  return (v.width, a.length / n)

def loadBank (o : LWFmt) (c : Nat) (e : Entry) (a : AgDesc) : M Bool := do
  let (w, n) ← bankEntries c o.q 4 true a
  let i := e.prog.count
  if n ≤ i then return true
  awaitBank c a.bank
  let s ← get
  let b := entryBytes w
  let k := s.crew c
  let bytes := bankRead k a.bank (a.offset + b * i) b
  let data ← if bankLost k a.bank (a.offset + b * i) b then freeBytes b else pure bytes
  let lost := i + 1 == n && bankLost k a.bank a.offset (b * n)
  pushQueue c o.q 4 w { data := data, h := i == 0, t := i + 1 == n, p := lost }
  if lost then bankReport c 3
  setAg c 4 e.name { e.prog with count := i + 1 }
  return i + 1 = n

def storeBank (o : LWFmt) (c : Nat) (e : Entry) (a : AgDesc) : M Bool := do
  let (w, n) ← bankEntries c o.q 5 false a
  let i := e.prog.count
  if n ≤ i then return true
  awaitBank c a.bank
  let x ← popQueue c o.q 5 w
  setAg c 5 e.name { e.prog with count := i + 1 }
  if x.p then
    let v ← getQueue c o.q
    setQueue c o.q (v.discard 1)
    throw (.trapKeep (poisonExc o.q))
  upd fun s => s.setCrew c (bankWrite (s.crew c) a.bank (a.offset + entryBytes w * i) x.data)
  return i + 1 = n

/-- W with a DROP slot: entries are discarded until COUNT tails have gone. -/
def dropGroups (o : LWFmt) (c : Nat) (e : Entry) (a : AgDesc) : M Bool := do
  let v ← getQueue c o.q
  if a.count ≤ e.prog.count then
    let _ ← checkQueue c o.q 5 v.width false
    return true
  let x ← popQueue c o.q 5 v.width
  let v ← getQueue c o.q
  setQueue c o.q (v.discard 1)
  let n := e.prog.count + (if x.t then 1 else 0)
  setAg c 5 e.name { e.prog with count := n }
  if x.p then throw (.trapKeep (poisonExc o.q))
  return n = a.count

def agrunBody (o : LWFmt) (st c : Nat) (e : Entry) : M Bool := do
  let s ← get
  match (agSlots (s.crew c) st).find? o.d with
  | none => agTrap 6 0
  | some b =>
    let a := AgDesc.ofBytes b
    awaitEdges (some c) e.name (entryFeet s c (st == 5) e)
    match a.kind with
    | 0 => if st = 4 then loadTiles o c e a else storeTiles o c e a
    | 1 => if st = 4 then loadBank o c e a else storeBank o c e a
    | _ => dropGroups o c e a

def execAgrun (o : LWFmt) (s : State) : Out := runAg o (.agrun o) false (agrunBody o) s

/-! ### Words, marks and walks (R327) -/

def execAgput (o : LWFmt) (s : State) : Out :=
  runAg o (.agput o) true (fun st c e => do
    pushQueue c o.q st 0 { data := leBytes 8 e.sval.toNat, h := bit o.b 1, t := bit o.b 0 }
    return true) s

def execAgmark (o : LWFmt) (s : State) : Out :=
  runAg o (.agmark o) false (fun st c _ => do
    let v ← getQueue c o.q
    pushQueue c o.q st v.width { data := List.replicate (entryBytes v.width) 0, h := bit o.b 1, t := bit o.b 0 }
    return true) s

/-- The word AGIDX pushes for a tile. -/
def indexWord (b : Box) (cs : List Nat) : Nat :=
  let rel (n : Nat) : Nat := (cs.getD n 0 - b.lo.getD n 0) % 2 ^ 14
  rel 0 + rel 1 * 2 ^ 14 + rel 2 * 2 ^ 28 + rel 3 * 2 ^ 42 + b.endBits cs * 2 ^ 56

def agidxBody (o : LWFmt) (st c : Nat) (e : Entry) : M Bool := do
  let s ← get
  match (agSlots (s.crew c) st).find? o.d with
  | none => agTrap 6 0
  | some b =>
    let a := AgDesc.ofBytes b
    if a.kind ≠ 0 then agTrap 6 0
    if (List.range 4).any fun n => 16384 < a.box.extent n then agTrap 7 a.tid
    let i := e.prog.count
    pushQueue c o.q st 0 { data := leBytes 8 (indexWord a.box (a.box.coords i)), t := i + 1 == a.box.count }
    setAg c st e.name { e.prog with count := i + 1 }
    return i + 1 = a.box.count

def execAgidx (o : LWFmt) (s : State) : Out := runAg o (.agidx o) false (agidxBody o) s

/-! ### Bank tokens (R100-R102, R327) -/

/-- Whether an entry of the L or W queue accesses a bank. -/
def usesBank (s : State) (c : Nat) (w : Bool) (bank : Nat) (e : Entry) : Bool :=
  match e.instr with
  | .agrun o =>
    let a := AgDesc.ofBytes (slotBytes s c w o.d e.name)
    a.kind == 1 && a.bank == bank
  | _ => false

/-- A bank number below the crew's count. -/
def bankArg (c b : Nat) : M Unit := do
  let s ← get
  if 10 ≤ b then illegal
  if (s.crew c).spad ≤ b then agTrap 7 0

def execAgbank (o : LWFmt) (s : State) : Out :=
  runAg o (.agbank o) true (fun _ c e => do
    bankArg c o.b
    let sec ← sectionArg c e.sval
    if (← getSection c sec).isNone then fabricFault 3
    awaitBank c o.b
    let s ← get
    let k := s.crew c
    let pending (w : Bool) : Bool := (if w then k.wq else k.lq).any fun x => x.name < e.name && !x.finished && usesBank s c w o.b x
    if pending false || pending true then throw .stall
    upd fun s => s.setCrew c { s.crew c with banks := (s.crew c).banks.put o.b (sec + 1) 0 }
    return true) s

def execAgtake (o : LWFmt) (s : State) : Out :=
  runAg o (.agtake o) false (fun _ c _ => do
    bankArg c o.b
    awaitBank c o.b
    return true) s

end Sys2Proof.Machine
end

