-- ==== Sys2Proof/Machine/Registers.lean ====
section
/-! DEFINITION. Control registers: who holds them, what each access needs, reading and writing them (R52-R55, R78, R133-R135,
R142, R150, R245, R282, R303, R359, R416, R436, R437, R451). -/

namespace Sys2Proof.Machine

/-! ### Queue configurations (R133-R135) -/

/-- Widths an endpoint accepts (R134). -/
def endpointTakes (ep width : Nat) : Bool :=
  if ep < 2 then width == 0 else if ep = 3 then width != 0 else if ep = 8 then width < 2 else ep < 8

/-- Bytes of storage a configuration needs (R134, R135). -/
def qcfgBytes (v : BitVec 32) : Nat := (bits v.toNat 15 0 + 1) * entryBytes (bits v.toNat 30 29)

/-- A configuration is valid by itself (R134). -/
def qcfgOk (v : BitVec 32) : Bool :=
  let width := bits v.toNat 30 29
  let prod := bits v.toNat 27 24
  let cons := bits v.toNat 23 20
  let depth := bits v.toNat 15 0 + 1
  width < 3 && prod < 9 && cons < 9 && prod != cons && endpointTakes prod width && endpointTakes cons width &&
  qcfgBytes v ≤ 262144 && (!v.getLsbD 28 || (width == 0 && prod == 1 && cons == 0)) &&
  (!v.getLsbD 19 || cons < 6) && (!v.getLsbD 18 || prod < 6) &&
  (!(v.getLsbD 17 || cons == 3) || (width != 0 && (if width = 2 then 5 else 20) ≤ depth)) &&
  (cons != 3 || v.getLsbD 17) && !v.getLsbD 16

/-- Bytes the open queues of a crew hold. -/
def openBytes (k : Crew) : Nat := k.queues.foldl (fun n e => if e.2.isOpen then n + qcfgBytes e.2.cfg else n) 0

/-- Crews resident on a cluster. -/
def residents (s : State) (cl : Nat) : List Nat := (s.cluster cl).slots.map (·.2)

/-- Queue storage free on a cluster (R135). -/
def queueRoom (s : State) (cl : Nat) : Nat := 262144 - (residents s cl).foldl (fun n c => n + openBytes (s.crew c)) 0

/-- A privileged write of `QCFG[q]` (R133). -/
def writeQcfg (c q : Nat) (x : Word) (s : State) : State :=
  let k := s.crew c
  let v := k.queues.getD q {}
  let cfg := x.setWidth 32 &&& 0xFFFEFFFF#32
  let branch := k.queues.any fun e => e.1 != q && e.2.isOpen && e.2.brq
  if v.isOpen then s
  else if !cfg.getLsbD 31 then s.setCrew c { k with queues := k.queues.put q { v with cfg := cfg } {} }
  else if qcfgOk cfg && !(cfg.getLsbD 28 && branch) && qcfgBytes cfg ≤ queueRoom s k.cl then
    s.setCrew c { k with queues := k.queues.put q { cfg := cfg } {} }
  else s

/-- A write of `QSTAT[q]`: a count whose field is written non-zero becomes zero (R142). -/
def writeQstat (c q : Nat) (x : Word) (s : State) : State :=
  let k := s.crew c
  let v := k.queues.getD q {}
  let clr (hi lo : Nat) (n : BitVec 16) : BitVec 16 := if bits x.toNat hi lo = 0 then n else 0
  s.setCrew c { k with queues := k.queues.put q { v with
    disc := clr 31 16 v.disc, fullc := clr 47 32 v.fullc, empty := clr 63 48 v.empty } {} }

/-! ### The table (R436) -/

/-- Holders of control registers. -/
inductive Holder where
  | crew
  | context
  | thread
  | partition
  deriving DecidableEq, Repr

/-- The holder and the lowest levels that may read and write; none where there is no such access. -/
def ctlRow (n : Nat) : Option (Holder × Option Nat × Option Nat) :=
  if 0x040 ≤ n ∧ n ≤ 0x07F then some (.crew, some 0, some 1)
  else if 0x080 ≤ n ∧ n ≤ 0x0BF then some (.crew, some 0, some 0)
  else match n with
    | 0x000 => some (.crew, some 0, some 0)
    | 0x001 => some (.crew, some 0, some 0)
    | 0x002 => some (.crew, some 0, some 0)
    | 0x003 => some (.crew, some 0, some 0)
    | 0x004 => some (.crew, some 0, some 0)
    | 0x005 => some (.crew, some 0, some 0)
    | 0x006 => some (.crew, some 0, some 0)
    | 0x008 => some (.crew, some 0, some 0)
    | 0x009 => some (.crew, some 0, some 0)
    | 0x00A => some (.crew, some 0, some 0)
    | 0x00B => some (.context, some 0, some 0)
    | 0x00C => some (.crew, some 0, some 1)
    | 0x00D => some (.context, some 0, some 1)
    | 0x00E => some (.crew, some 0, none)
    | 0x100 => some (.thread, some 0, none)
    | 0x101 => some (.context, some 0, none)
    | 0x102 => some (.context, some 0, none)
    | 0x103 => some (.context, some 0, some 1)
    | 0x104 => some (.context, some 1, some 1)
    | 0x105 => some (.context, some 1, some 1)
    | 0x106 => some (.thread, some 1, none)
    | 0x107 => some (.context, some 1, none)
    | 0x108 => some (.context, some 0, some 1)
    | 0x109 => some (.context, some 0, some 2)
    | 0x10A => some (.context, some 0, some 1)
    | 0x10B => some (.context, some 1, some 2)
    | 0x10C => some (.context, some 1, some 2)
    | 0x10D => some (.context, some 0, none)
    | 0x10E => some (.context, some 0, some 1)
    | 0x110 => some (.context, some 0, none)
    | 0x111 => some (.context, some 0, some 1)
    | 0x200 => some (.partition, none, some 2)
    | 0x201 => some (.thread, some 2, none)
    | 0x202 => some (.partition, none, some 2)
    | 0x203 => some (.partition, none, some 2)
    | _ => none

/-- Check an access (R179, R436). -/
def ctlCheck (w : Owner) (n : Nat) (write : Bool) : M Holder := do
  let s ← get
  match ctlRow n with
  | none => illegal
  | some (h, r, wr) =>
    match if write then wr else r with
    | none => illegal
    | some lv =>
      if h == .crew && (crewOf s w).isNone then illegal
      if levelOf s w < lv then privileged (BitVec.ofNat 64 n)
      return h

/-! ### Reading (R55, R437) -/

/-- `CE_STAT` or `IX_STAT` (R303). -/
def engStat (s : State) (k : Crew) (copy : Bool) : Word :=
  let q := (s.cluster k.cl).queueOf copy
  let busy := if q.any fun c => c.prog.begun then 1 else 0
  let occ := (q.filter fun c => !c.prog.begun).length
  BitVec.ofNat 64 (busy + occ * 2 ^ 8 + ((if copy then k.ceFlags else k.ixFlags).toNat % 1024) * 2 ^ 16)

def readCrewCtl (s : State) (c n : Nat) : Word :=
  let k := s.crew c
  if 0x040 ≤ n ∧ n ≤ 0x07F then (k.queues.getD (n - 0x040) {}).cfg.setWidth 64
  else if 0x080 ≤ n ∧ n ≤ 0x0BF then (k.queues.getD (n - 0x080) {}).stat
  else match n with
    | 0x000 => ctlNow k 0 (k.vstat.setWidth 64)
    | 0x001 => ctlNow k 1 (k.vctl.setWidth 64)
    | 0x002 => ctlNow k 2 k.rndSeed
    | 0x003 => ctlNow k 3 k.rndCtr
    | 0x004 => k.vnfTid
    | 0x005 => k.strokeOut.getD 0 0
    | 0x006 => k.strokeOut.getD 1 0
    | 0x008 => engStat s k true
    | 0x009 => engStat s k false
    | 0x00A => k.fstat
    | 0x00C => k.dcplCnt.setWidth 64
    | _ => BitVec.ofNat 64 (handleOf k)

def readContextCtl (x : Context) (id n : Nat) : Word :=
  match n with
  | 0x00B => x.shufStat
  | 0x00D => x.dcplThr.setWidth 64
  | 0x101 => BitVec.ofNat 64 id
  | 0x102 => BitVec.ofNat 64 x.part
  | 0x103 => x.tidTable
  | 0x104 => x.ptRoot
  | 0x105 => x.excVec
  | 0x107 => x.saveBase
  | 0x108 => x.quantum.setWidth 64
  | 0x109 => x.prioCeil.setWidth 64
  | 0x10A => x.wdog.setWidth 64
  | 0x10B => if x.dbgCtl then 1 else 0
  | 0x10C => x.evqBase
  | 0x10D => x.evqHead
  | 0x10E => x.evqTail.setWidth 64
  | 0x110 => x.ctxTime
  | _ => x.launchDrop

/-- A register of the issuer itself; a cluster half runs at level 0 and has no INEXC. -/
def readThreadCtl (s : State) (w : Owner) (n : Nat) : Word :=
  match w with
  | .crew _ => 0
  | .thread t =>
    let th := s.thread t
    match n with
    | 0x100 => BitVec.ofNat 64 (th.level.toNat + (if th.inexc then 4 else 0))
    | 0x106 => th.excRec
    | _ => th.ctxResult

/-- Read a control register (R437): from S, `VSTAT` waits for the V instructions handed over before (R55). -/
def readCtl (w : Owner) (n : Nat) : M Word := do
  let h ← ctlCheck w n false
  let s ← get
  match h with
  | .crew =>
    match crewOf s w with
    | none => illegal
    | some c =>
      if n = 0 && !isCox w && !(s.crew c).vq.isEmpty then throw .stall
      return readCrewCtl s c n
  | .context => return readContextCtl (s.context (ctxOf s w)) (ctxOf s w) n
  | .thread => return readThreadCtl s w n
  | .partition => illegal

/-! ### Writing (R437) -/

/-- A write of one of V's control registers takes effect after the V instructions handed over before it (R55). -/
def writeVctl (c reg : Nat) (v : Word) (s : State) : State :=
  let k := s.crew c
  s.setCrew c (match k.vq.getLast? with
    | none => applyCtl k reg v
    | some e => { k with vwrites := k.vwrites ++ [(e.name, reg, v)] })

/-- The value a write of `VCTL` leaves (R53). -/
def vctlValue (old x : Word) : Word :=
  let drm := if bits x.toNat 10 8 < 5 then bits x.toNat 10 8 else bits old.toNat 10 8
  BitVec.ofNat 64 (x.toNat % 64 + old.toNat / 128 % 2 * 128 + drm * 256)

def writeCrewCtl (c n : Nat) (x : Word) (s : State) : State :=
  let k := s.crew c
  if 0x040 ≤ n ∧ n ≤ 0x07F then writeQcfg c (n - 0x040) x s
  else if 0x080 ≤ n ∧ n ≤ 0x0BF then writeQstat c (n - 0x080) x s
  else match n with
    | 0x000 => writeVctl c 0 (x &&& 0x3FF) s
    | 0x001 => writeVctl c 1 (vctlValue (ctlNow k 1 (k.vctl.setWidth 64)) x) s
    | 0x002 => writeVctl c 2 x s
    | 0x003 => writeVctl c 3 (x &&& 0xFFFFFFFF) s
    | 0x004 => s.setCrew c { k with vnfTid := x &&& 0xFFF }
    | 0x005 => s.setCrew c { k with strokeOut := k.strokeOut.put 0 (x &&& 0xFFF) 0 }
    | 0x006 => s.setCrew c { k with strokeOut := k.strokeOut.put 1 (x &&& 0xFFF) 0 }
    | 0x008 => s.setCrew c { k with ceFlags := k.ceFlags &&& ~~~(BitVec.ofNat 32 (bits x.toNat 25 16)) }
    | 0x009 => s.setCrew c { k with ixFlags := k.ixFlags &&& ~~~(BitVec.ofNat 32 (bits x.toNat 25 16)) }
    | 0x00A => s.setCrew c { k with fstat := k.fstat &&& ~~~(x &&& 0x3FF) &&& ~~~(0xFFFF0000#64) }
    | 0x00C => s.setCrew c { k with dcplCnt := x.setWidth 32 }
    | _ => s

/-- A write of `SHUF_STAT` zeroes the fields it names with ones (R416). -/
def clearShuf (old x : Word) : Word :=
  BitVec.ofNat 64 ((List.range 4).foldl (fun a i =>
    a + (if bits x.toNat (16 * i + 15) (16 * i) = 0 then bits old.toNat (16 * i + 15) (16 * i) * 2 ^ (16 * i) else 0)) 0)

/-- A root that R451 admits. -/
def rootOk (x : Word) : Bool := x.toNat < 2 ^ 52 && x.toNat % 2 ^ 17 == 0

/-- A descriptor table address that R78 admits: virtual, 64 KiB aligned. -/
def tableOk (x : Word) : Bool := x.toNat < 2 ^ 48 && x.toNat % 2 ^ 16 == 0

def writeContextCtl (x : Context) (n : Nat) (v : Word) : Context :=
  match n with
  | 0x00B => { x with shufStat := clearShuf x.shufStat v }
  | 0x00D => if v.toNat < 2 ^ 32 then { x with dcplThr := v.setWidth 32 } else x
  | 0x103 => if tableOk v then { x with tidTable := v } else x
  | 0x104 => if rootOk v then { x with ptRoot := v } else x
  | 0x105 => { x with excVec := v }
  | 0x108 => if 10 ≤ v.toNat ∧ v.toNat < 2 ^ 16 then { x with quantum := v.setWidth 16 } else x
  | 0x109 => if v.toNat < 8 then { x with prioCeil := v.setWidth 3 } else x
  | 0x10A => if v.toNat < 2 ^ 16 then { x with wdog := v.setWidth 16 } else x
  | 0x10B => { x with dbgCtl := v.getLsbD 0 }
  | 0x10C =>
    let size := if bits v.toNat 3 0 ≤ 8 then bits v.toNat 3 0 else bits x.evqBase.toNat 3 0
    { x with evqBase := BitVec.ofNat 64 (bits v.toNat 63 12 * 4096 + size) }
  | 0x10E => { x with evqTail := v.setWidth 32 }
  | 0x111 => { x with launchDrop := v }
  | _ => x

/-! ### Feature words (R481) -/

def featureWord (n : Nat) : Word :=
  match n with
  | 0 => BitVec.ofNat 64 (940 + Config.stepping % 256 * 2 ^ 16 + 4 * 2 ^ 24)
  | 1 => 0xFF
  | 3 => 0x111111
  | 4 => BitVec.ofNat 64 (Config.packageId % 2 ^ 20)
  | 5 =>
    let own := Config.packageId % 2 ^ 20
    BitVec.ofNat 64 (own - Config.groupId % (own + 1) + (1 + Config.groupSize % 399999) * 2 ^ 20)
  | _ => 0

/-- The feature vector: words 1 and 2 (R481). -/
def featureVector : List Byte := [1, 2].flatMap fun n => leBytes 8 (featureWord n).toNat

def execFeatq (o : IFmt) (s : State) : Out :=
  runScalar (fun w => do
    writeReg w o.d (featureWord o.imm)
    return .next) s

def execCtlr (o : IFmt) (s : State) : Out :=
  runScalar (fun w => do
    destReady w o.d
    let v ← readCtl w o.imm
    writeReg w o.d v
    return .next) s

/-- A write to a queue's registers from outside the crew's own instructions acts as the CTLW does (R133, R142). -/
def execQcfgWrite (crew queue value : Nat) (s : State) : Out :=
  .next (if (s.crew crew).stage == .gone || 64 ≤ queue then s else writeQcfg crew queue (BitVec.ofNat 64 value) s)

def execQstatWrite (crew queue value : Nat) (s : State) : Out :=
  .next (if (s.crew crew).stage == .gone || 64 ≤ queue then s else writeQstat crew queue (BitVec.ofNat 64 value) s)

end Sys2Proof.Machine
end

