-- ==== Sys2Proof/Machine/System.lean ====
section
/-! DEFINITION. Tile status and thresholds, breakpoints and system calls, the return from an exception, HALT, and the
arrivals, wakes and starts of a crew (R23, R35, R121, R149, R206, R214, R236-R239, R444-R446, R448). -/

namespace Sys2Proof.Machine

/-! ### Tile status and thresholds (R236-R239, R471) -/

/-- M instructions of a crew that will write an entry of an array's tile status file. -/
def drainsTo (k : Crew) (arr entry : Nat) : Bool :=
  k.mq.any fun e => !e.finished && e.sidx == entry && match e.instr with
    | .mdrain o => o.arr == arr
    | .mdrainv o => o.arr == arr
    | _ => false

def execTsrd (o : IFmt) (s : State) : Out :=
  runS (fun c => do
    let arr := bits o.imm 8 8
    let entry := o.imm % 256
    destReady (.crew c) o.d
    let s ← get
    let k := s.crew c
    if drainsTo k arr entry then throw .stall
    writeReg (.crew c) o.d (((k.stroke arr).tsf.getD entry 0).setWidth 64)
    return .next) s

/-- Bytes an HRD reads; a lasting error suppresses the merge (R471). -/
def hrdRead (c d ea : Nat) : M Unit := do
  match ← readPinned (.half c) (crewPins c) ea 4 with
  | .error .ecc =>
    let s ← get
    containReport (s.crew c).ctx (handleOf (s.crew c)) ea 3 0 1 4
    upd fun s => s.setCrew c { s.crew c with hrds := (s.crew c).hrds ++ [(d, none)] }
  | .error _ => trap 9 (BitVec.ofNat 64 ea)
  | .ok bs => upd fun s => s.setCrew c { s.crew c with hrds := (s.crew c).hrds ++ [(d, some (BitVec.ofNat 32 (leNat bs)))] }

def execHrd (o : IFmt) (s : State) : Out :=
  runS (fun c => do
    let x ← readReg (.crew c) o.a o.ta
    let ea := x + BitVec.ofNat 64 o.imm
    if ea.toNat % 4 ≠ 0 then trap 4 ea 4
    hrdRead c o.d ea.toNat
    return .next) s

def execHwr (o : RFmt) (s : State) : Out :=
  runS (fun c => guarded (.crew c) o.g o.ng do
    let x ← readReg (.crew c) o.a o.ta
    upd fun s => s.setCrew c (maxMerge (s.crew c) o.d (x.toNat % 2 ^ 32))
    return .next) s

/-- The word of the oldest outstanding HRD of a threshold register arrives (R238). -/
def execHrdMerge (crew h : Nat) (s : State) : Out :=
  let k := s.crew crew
  match k.hrds.find? fun r => r.1 == h with
  | none => .next s
  | some r =>
    let k' := { k with hrds := k.hrds.erase r }
    .next (s.setCrew crew (match r.2 with
      | some v => maxMerge k' h v.toNat
      | none => k'))

/-! ### Breakpoints and system calls (R445) -/

/-- Raise a cause whose RESUME names the next instruction. -/
def raiseAfter (cause imm : Nat) (o : Owner) (s : State) : State :=
  let pc := (s.scalar o).pc
  runM (raiseAt o { cause := cause, info := BitVec.ofNat 64 imm } pc (nextPtr pc 1) true) s

def execBkpt (o : IFmt) (s : State) : Out :=
  match curOwner s with
  | some w => .next (raiseAfter 25 o.imm w s)
  | none => .next s

def execSysc (o : IFmt) (s : State) : Out :=
  match curOwner s with
  | some (.thread t) => .next (raiseAfter 26 o.imm (.thread t) s)
  | _ => runS (fun _ => illegal) s

/-! ### HALT (R446) -/

/-- A privileged instruction of the A stream (R179). -/
def needLevel (t n : Nat) : M Unit := do
  let s ← get
  if (s.thread t).level.toNat < n then privileged

def execHalt (_ : RFmt) (s : State) : Out :=
  runA (fun t => do
    needLevel t 1
    upd fun s => advance s (.thread t) 1
    haltOwner t 14
    return .stay) s

/-! ### ERET (R445) -/

/-- The target fault of a bad pointer (R445). -/
def targetExc (p : Word) : Exc := { cause := 15, info := p }

/-- S takes the target fault of a loop record that failed its checks, at its first instruction after a resumption (R440). -/
def loopFaultNow (c : Nat) (s : State) : State :=
  let k := s.crew c
  match k.loopFault with
  | some p =>
    if k.smode == .running then
      postException (s.setCrew c { k with loopFault := none }) c
        { stream := 1, exc := targetExc p, pc := k.sc.pc, resume := k.sc.pc }
    else s
  | none => s

/-- The S stream of a crew resumes at a pointer. -/
def resumeSeq (c : Nat) (p : Word) (s : State) : State :=
  let k := s.crew c
  let s := s.setCrew c { k with smode := .running, sc := { k.sc with pc := p, line := none, stalled := false } }
  if ptrOk p.toNat then rouse (loopFaultNow c s) k.cl
  else postException s c { stream := 1, exc := targetExc p, pc := p, resume := p }

/-- A VGET that its handler skips gives its register back the value it held (R171). -/
def unskip (c : Nat) (e : Entry) (s : State) : State :=
  match e.instr with
  | .vget o =>
    let k := s.scalar (.crew c)
    match k.pend.find? o.d with
    | some (.vget old) => s.setScalar (.crew c) (k.write o.d old)
    | _ => s
  | _ => s

/-- A stream resumes at its faulting instruction, or after it (R445); M at the first later one (R280), once no other exception
of it waits to be handled. -/
def resumeStream (c st : Nat) (skip : Bool) (s : State) : State :=
  let k := s.crew c
  let s := if k.posted.any fun p => p.stream == st then s else s.setCrew c { k with stopped := k.stopped.filter (· != st) }
  if skip && st != 3 then
    match streamQueue (s.crew c) st with
    | [] => s
    | e :: _ => retire c st e.name (unskip c e s)
  else s

/-- Resume what a cluster exception stopped. -/
def resumeCluster (c : Nat) (resume : Word) (skip : Bool) (s : State) : State :=
  let k := s.crew c
  match k.handling with
  | none => s
  | some p =>
    let s := s.setCrew c { k with handling := none }
    if p.stream = 1 then resumeSeq c (if skip then nextPtr resume 1 else resume) s
    else if p.stream = 8 then s
    else rouse (resumeStream c p.stream skip s) k.cl

/-- The level a record restores; code 3 names no level, so which one it gives is free. -/
def restoredLevel (flags : Nat) : M (BitVec 2) := do
  if bits flags 3 2 < 3 then return BitVec.ofNat 2 (bits flags 3 2)
  let k ← pick 0 2
  return BitVec.ofNat 2 k

/-- The registers and predicates a record restores. -/
def restoreScalar (sc : Scalar) (b : List Byte) : Scalar :=
  let r (c : Scalar) (n : Nat) : Scalar := c.write (28 + n) (BitVec.ofNat 64 (fieldAt b (0x40 + 8 * n) 8))
  let c := r (r (r (r sc 0) 1) 2) 3
  { c with preds := BitVec.ofNat 8 (fieldAt b 0x60 1 / 2 * 2 + 1) }

/-- Read the current record (log 20: a record that no page maps raises the page fault). -/
def readRecord (t : Nat) : M (List Byte) := do
  let s ← get
  let va := (s.thread t).excRec
  match ← recordParts t va.toNat 128 false with
  | none => throw (.trap (pageFault va.toNat false false 1 0))
  | some ps =>
    match ← readParts (.thread t) ps with
    | none => throw (.lasting va.toNat)
    | some b => return b

/-- ERET (R445). -/
def eret (t : Nat) : M Flow := do
  needLevel t 1
  let s ← get
  let th := s.thread t
  if !th.inexc then illegal
  let b ← readRecord t
  let flags := fieldAt b 2 2
  let resume := BitVec.ofNat 64 (fieldAt b 0x10 8)
  let tpc := BitVec.ofNat 64 (fieldAt b 0x30 8)
  let skip := bit flags 0
  let lv ← restoredLevel flags
  let pc := if th.recCluster then tpc else if skip then nextPtr resume 1 else resume
  upd fun s =>
    let th := s.thread t
    s.setThread t { th with
      sc := { restoreScalar th.sc b with pc := pc, line := none, stalled := false }, level := lv, inexc := false, parkedBefore := none
      lossDue := if skip && !th.recCluster then none else th.lossDue
      mode := if th.parkedBefore == some .returned then .returned else .ready, idle := false }
  if th.recCluster then
    match th.crew with
    | some c => upd (resumeCluster c resume skip)
    | none => pure ()
  if ptrOk pc.toNat || (th.recCluster && th.parkedBefore == some .returned) then return .stay
  takeException t { stream := 0, exc := targetExc pc, pc := pc, resume := pc } false
  return .stay

def execEret (_ : RFmt) (s : State) : Out := runA eret s

/-! ### Arrivals (R167, R206, R214) -/

/-- The value a register awaits arrives; that of a pre-empted crew fills its register once it is resumed (R212). -/
def arriveValue (o : Owner) (r : Nat) (s : State) : State :=
  let k := s.scalar o
  match if ownerAway s o then none else k.pend.find? r with
  | some (.value v) => s.setScalar o (k.write r v)
  | some (.load l) => s.setScalar o (k.write r l.v)
  | _ => s

def execLoadDataArrival (own : Owner) (reg : Nat) (s : State) : Out := .next (arriveValue own reg s)

def arrivePin (t r : Nat) (s : State) : State :=
  let k := s.scalar (.thread t)
  match if ownerAway s (.thread t) then none else k.pend.find? r with
  | some (.pin h) => s.setScalar (.thread t) (k.write r h)
  | _ => s

def execPinHandleArrival (thread reg : Nat) (s : State) : Out := .next (arrivePin thread reg s)

/-! ### Waking from WAITC (R15, R25, R35, R121, R122) -/

/-- A parked wait: its counter's physical address, its value, its scope, and the counter's virtual address. -/
def parkedAt (s : State) : Owner → Option (Nat × Nat × Nat × Nat)
  | .thread t =>
    let th := s.thread t
    let here : Bool := match th.crew with
      | some c => (s.crew c).stage == .resident
      | none => true
    match th.mode with
    | .waitc pa v scope va => if here = true then some (pa, v, scope, va) else none
    | _ => none
  | .crew c =>
    let k := s.crew c
    match k.smode with
    | .waitc pa v scope va _ => if k.stage == .resident then some (pa, v, scope, va) else none
    | _ => none

/-- An owner is no longer parked. -/
def unpark (o : Owner) (s : State) : State :=
  match o with
  | .thread t => s.setThread t { s.thread t with mode := .ready }
  | .crew c => s.setCrew c { s.crew c with smode := .running }

/-- Where a parked wait reads its counter: a sequencer's pin may have been released or revoked since (R459, R463). -/
def waitedAt (s : State) (o : Owner) (pa va : Nat) : Except Exc Nat :=
  match o with
  | .thread _ => .ok pa
  | .crew c =>
    match resolve s (crewPins c) va 8 false with
    | .ok ((p, _) :: _) => .ok p
    | _ => .error { cause := 9, addr := BitVec.ofNat 64 va }

/-- A parked owner raises an exception at its WAITC. -/
def raiseWoken (o : Owner) (e : Exc) (s : State) : State :=
  let pc := (s.scalar o).pc
  runM (raiseAt o e pc pc false) (unpark o s)

def wake (o : Owner) : M Unit := do
  let s ← get
  match parkedAt s o with
  | none => pure ()
  | some (pa, v, scope, va) =>
    match waitedAt s o pa va with
    | .error e => upd fun s => raiseWoken o e s
    | .ok pa =>
    match ← readPort pa 8 with
    | none => containOwner o 3 va
    | some bs =>
      if v ≤ leNat bs then
        upd fun s => acquire s (agentOf o) scope
        upd fun s => advance (unpark o s) o 1
        match o with
        | .crew c => upd fun s => rouse s (s.crew c).cl
        | .thread _ => pure ()
      else pure ()

def execWaitcWake (own : Owner) (s : State) : Out := .next (runM (wake own) s)

/-! ### Skip tokens and cluster exceptions (R149, R444) -/

/-- The oldest skip token enters the branch queue when an entry is free and no push of S that reached the queue before it waits; it
is dropped where the queue is gone. -/
def execSkipToken (crew : Nat) (s : State) : Out :=
  let k := s.crew crew
  match k.skipToks with
  | [] => .next s
  | w :: rest =>
    match branchQueue k with
    | none => .next (s.setCrew crew { k with skipToks := rest })
    | some q =>
      let v := k.queues.getD q {}
      if (v.isFull && !v.skip) || (w.2 && pushWaits k) then .next s
      else .next (s.setCrew crew { k with skipToks := rest, queues := k.queues.put q (v.arrive (tokenEntry w.1)) {} })

def execClusterExceptionDelivery (crew : Nat) (s : State) : Out := .next (deliver s crew)

/-! ### Starts (R23) -/

def execStartClusterHalf (crew : Nat) (s : State) : Out :=
  let k := s.crew crew
  if k.stage == .resident && k.smode == .waiting then
    .next (rouse (loopFaultNow crew (s.setCrew crew { k with smode := .running })) k.cl)
  else .next s

def execStartCoxThread (crew : Nat) (s : State) : Out :=
  let k := s.crew crew
  if k.stage == .resident && k.startThread then .next (s.setCrew crew { k with startThread := false }) else .next s

/-! ### The counter watchdog (R448) -/

/-- A stall event (R447). -/
def stallEvent (ctx crew addr v : Nat) : M Unit := event ctx 4 0 crew addr v

/-- A thread that waits in TLBI, which the watchdog counts as a stall (R462). -/
def inTlbi (s : State) (t : Nat) : Bool :=
  match (s.thread t).mode with
  | .tlbi _ => true
  | _ => false

/-- The watchdog of a thread's WAITC or TLBI or of a sequencer's WAITC expires, or that of a crew, wherever it is, that issues
nothing. A crew with such a wait is reported by that wait alone (log 38). -/
def watchdog (o : Owner) : M Unit := do
  let s ← get
  if (s.context (ctxOf s o)).wdog == 0 then return ()
  let h := match crewOf s o with
    | some c => handleOf (s.crew c)
    | none => 0
  match o, parkedAt s o with
  | .thread t, some (_, v, _, va) =>
    if !(s.thread t).reported then
      stallEvent (ctxOf s o) h va v
      upd fun s => s.setThread t { s.thread t with reported := true }
  | .thread t, none =>
    if inTlbi s t && !(s.thread t).reported then
      stallEvent (ctxOf s o) h 0 0
      upd fun s => s.setThread t { s.thread t with reported := true }
  | .crew c, wait =>
    match wait.filter fun _ => !(s.crew c).reported with
    | some (_, v, _, va) =>
      stallEvent (ctxOf s o) h va v
      upd fun s => s.setCrew c { s.crew c with reported := true }
    | none =>
      let k := s.crew c
      let waits := wait.isSome || (parkedAt s (.thread k.thread)).isSome || inTlbi s k.thread
      if k.stage != .gone && !waits && !(k.idle && (s.thread k.thread).idle) then
        stallEvent k.ctx h 0 0
        upd fun s => s.setCrew c { s.crew c with idle := true }
        upd fun s => s.setThread k.thread { s.thread k.thread with idle := true }

def execWatchdogExpiry (own : Owner) (s : State) : Out := .next (runM (watchdog own) s)

end Sys2Proof.Machine
end

