-- ==== Sys2Proof/Machine/Lodor.lean ====
section
/-! DEFINITION. The Lodor form: its records, the native instructions they stand for, and what of a section Chervil refuses by
its records alone (R385-R390, R393, R396, R484, R502). -/

namespace Sys2Proof.Machine

/-- A Lodor section as bytes (R385). -/
structure Lodor where
  b : List Byte
  deriving DecidableEq, Repr, Inhabited

namespace Lodor

def nblk (l : Lodor) : Nat := fieldAt l.b 2 2
def nedge (l : Lodor) : Nat := fieldAt l.b 4 2
def nins (l : Lodor) : Nat := fieldAt l.b 8 4
def blockAt (l : Lodor) (i : Nat) : List Byte := (l.b.drop (32 + 32 * i)).take 32
def edgeAt (l : Lodor) (i : Nat) : List Byte := (l.b.drop (32 + 32 * l.nblk + 16 * i)).take 16
def insAt (l : Lodor) (i : Nat) : List Byte := (l.b.drop (32 + 32 * l.nblk + 16 * l.nedge + 16 * i)).take 16
def blocks (l : Lodor) : List (List Byte) := (List.range l.nblk).map l.blockAt
def edges (l : Lodor) : List (List Byte) := (List.range l.nedge).map l.edgeAt

end Lodor

/-! ### Blocks and edges (R385, R386) -/

def blockClass (b : List Byte) : Nat := fieldAt b 0 1

/-- A block record is in range (R385). -/
def blockInRange (l : Lodor) (i : Nat) : Bool :=
  let b := l.blockAt i
  let rk := fieldAt b 1 1
  let redge := fieldAt b 2 2
  let rcount := fieldAt b 4 4
  let n := fieldAt b 0xC 4
  let e := l.edgeAt redge
  blockClass b < 3 && rk < 3 && n != 0 && n < 65536 && fieldAt b 8 4 + n ≤ l.nins && fieldAt b 0x10 2 != 0 &&
  (if rk = 2 then redge < l.nedge && fieldAt e 2 2 == i && bits (fieldAt e 6 1) 1 0 == 0 else redge == 0) &&
  (if rk = 1 then rcount != 0 else blockClass b == 2 || rcount == 0)

/-- The class of the blocks an endpoint belongs to (R386). -/
def endpointClass (ep : Nat) : Nat := if ep = 0 then 0 else if ep = 8 then 2 else 1

/-- The `QCFG` image of an edge (R133, R385). -/
def edgeCfg (e : List Byte) : Nat :=
  let f := fieldAt e 6 1
  (fieldAt e 8 4 - 1) % 2 ^ 16 + (if bit f 2 then 2 ^ 17 else 0) + fieldAt e 5 1 % 16 * 2 ^ 20 + fieldAt e 4 1 % 16 * 2 ^ 24 +
    (if bit f 3 then 2 ^ 28 else 0) + bits f 1 0 * 2 ^ 29 + 2 ^ 31

/-- An edge record that R134 and R386 admit. -/
def edgeOk (l : Lodor) (e : List Byte) : Bool :=
  let p := fieldAt e 0 2
  let c := fieldAt e 2 2
  let depth := fieldAt e 8 4
  p < l.nblk && c < l.nblk && fieldAt e 4 1 < 9 && fieldAt e 5 1 < 9 && depth != 0 && depth ≤ 65536 &&
  blockClass (l.blockAt p) == endpointClass (fieldAt e 4 1) && blockClass (l.blockAt c) == endpointClass (fieldAt e 5 1) &&
  qcfgOk (BitVec.ofNat 32 (edgeCfg e))

/-! ### Instruction records (R387-R390, R393, R502) -/

/-- The instructions of a block: a class 4 instruction is two records (R387). -/
def insRecords : Nat → List (List Byte) → List (List Byte)
  | 0, _ => []
  | _, [] => []
  | n + 1, r :: t => if fieldAt r 0 1 = 4 then (r ++ t.headD []) :: insRecords n (t.drop 1) else r :: insRecords n t

def Lodor.records (l : Lodor) (b : List Byte) : List (List Byte) :=
  let n := fieldAt b 0xC 4
  insRecords n ((List.range n).map fun i => l.insAt (fieldAt b 8 4 + i))

/-- Opcodes of the A and S streams that R178 defines. -/
def scalarCode (op : Nat) : Bool :=
  op < 0x3B && op != 0x0F || (0x40 ≤ op && op < 0x4E) || (0x50 ≤ op && op < 0x5A) || (0x60 ≤ op && op < 0x6A)

/-- Codes only the A stream has, and only the S stream (R178). -/
def aCode (op : Nat) : Bool := (0x40 ≤ op && op < 0x4E) || (0x64 ≤ op && op < 0x6A)
def sCode (op : Nat) : Bool := 0x50 ≤ op && op < 0x5A

/-- The opcode is one of the record's class and of its block's class (R387). -/
def codeKnown (cls : Nat) (r : List Byte) : Bool :=
  let op := fieldAt r 1 1
  match fieldAt r 0 1 with
  | 0 => scalarCode op && (cls == 0 && !sCode op || cls == 1 && !aCode op)
  | 1 => cls == 1 && op < 0x2F
  | 2 => cls == 1 && op < 0x0C
  | 3 => cls == 1 && op < 7
  | 4 => cls == 2 && op != 0 && op < 0x20
  | 5 => cls != 2 && (op < 2 || (op == 2 && cls == 0))
  | 6 => cls == 1 && op == 0 && bits (fieldAt r 2 1) 3 0 < 9 && fieldAt r 0xA 2 == 0 && bits (fieldAt r 0xC 4) 1 0 != 3
  | _ => false

/-- Instructions R388 and R484 refuse. -/
def codeRefused (r : List Byte) : Bool :=
  let op := fieldAt r 1 1
  match fieldAt r 0 1 with
  | 0 => [0x30, 0x31, 0x32, 0x33, 0x34, 0x35, 0x50, 0x51, 0x55, 0x56, 0x57, 0x58, 0x59, 0x62, 0x65, 0x66, 0x68, 0x69].contains op
  | 3 => op == 3 && bit (fieldAt r 2 1) 0
  | _ => false

/-- Stochastic rounding where R393 refuses it. -/
def roundsFreely (r : List Byte) : Bool :=
  (fieldAt r 0 1 == 1 || fieldAt r 0 1 == 6) && bits (fieldAt r 2 1) 6 4 == 4

/-- Reserved bits of a record that are not zero (R387). -/
def insReserved (r : List Byte) : Bool := 128 ≤ fieldAt r 2 1 || 16 ≤ fieldAt r 3 1

/-! ### Virtual values (R387, R388, R502) -/

/-- Kinds of a value (R387). -/
inductive ValKind where
  | scalar
  | pred
  | vec
  | mask
  | thr
  | arr
  | tile
  deriving DecidableEq, Repr, Inhabited

/-- How a record uses a value: it needs it written before, and it writes it, or not. An input of JOIN takes a token of either
kind (R338). -/
structure ValUse where
  v : Nat
  kind : ValKind
  reads : Bool := true
  writes : Bool := false
  either : Bool := false
  deriving DecidableEq, Repr, Inhabited

/-- Fields of a virtual record (R387). -/
structure VRec where
  op : Nat
  mode : Nat
  tok : Nat
  d : Nat
  a : Nat
  b : Nat
  g : Nat
  imm : Nat
  deriving DecidableEq, Repr, Inhabited

def vrecOf (r : List Byte) : VRec :=
  { op := fieldAt r 1 1, mode := fieldAt r 2 1 % 128, tok := fieldAt r 3 1 % 16, d := fieldAt r 4 2, a := fieldAt r 6 2,
    b := fieldAt r 8 2, g := fieldAt r 0xA 2, imm := fieldAt r 0xC 4 }

/-- The registers that values stand in: of a source, and of a destination. A vector's is the field of its row (R168). -/
structure RegMap where
  src : ValKind → Nat → Nat
  dst : ValKind → Nat → Nat

/-- The register a value stands in for the check of an encoding: 1, or 0 for no value. -/
def stand (v : Nat) : Nat := if v = 0 then 0 else 1

/-- The registers of the check: those that any value may have. -/
def standMap : RegMap :=
  let f (k : ValKind) (v : Nat) : Nat := if k = .vec ∨ k = .arr then 0 else stand v
  { src := f, dst := f }

/-- The scalar instructions of each format of R165 (R178). -/
def formI (op : Nat) : Bool := 0x20 ≤ op && op < 0x27 || op == 0x52 || op == 0x53 || 0x60 ≤ op && op < 0x65
def formQ (op : Nat) : Bool := 0x38 ≤ op && op < 0x3B || 0x4A ≤ op && op < 0x4D
def formMem (op : Nat) : Bool := op == 0x40 || op == 0x41 || op == 0x44

/-- An immediate that is a 32-bit signed number, as a field of `n` bits; `2 ^ n` where it does not fit. -/
def signedField (n imm : Nat) : Nat :=
  if imm < 2 ^ (n - 1) then imm else if 2 ^ 32 - 2 ^ (n - 1) ≤ imm then imm % 2 ^ n else 2 ^ n

/-- What a class 0 instruction's D is, where it has one (R178). -/
def scalarDest (op : Nat) : Option ValKind :=
  if [0x36, 0x37, 0x38, 0x39, 0x44, 0x46, 0x47, 0x4B, 0x4D, 0x61, 0x63, 0x64, 0x67].contains op then none
  else if op = 0x27 ∨ (0x2B ≤ op ∧ op < 0x30) then some .pred
  else if op = 0x53 ∨ op = 0x54 then some .thr
  else some .scalar

/-- The kind of a class 0 instruction's first and second source. -/
def scalarSource (op : Nat) : ValKind := if 0x2C ≤ op ∧ op < 0x30 then .pred else .scalar

/-- A class 0 instruction reads its D as data (R502). -/
def storesD (op : Nat) : Bool := op == 0x41 || op == 0x43

/-- The register of D. -/
def scalarD (m : RegMap) (r : VRec) : Nat :=
  match scalarDest r.op with
  | none => stand r.d
  | some k => if storesD r.op then m.src k r.d else m.dst k r.d

/-- The native instruction of a class 0 record (R388, R502); none where a field it does not have is not zero or a value does
not fit. -/
def scalarNative (m : RegMap) (r : VRec) : Option Instr :=
  let a := m.src (scalarSource r.op) r.a
  let b := m.src (scalarSource r.op) r.b
  let g := m.src .pred r.g
  let d := scalarD m r
  if r.tok != 0 || 16 ≤ r.mode then none
  else if r.op = 0x28 then
    if r.mode != 0 || r.a != 0 || r.b != 0 || r.g != 0 || 2 ^ 19 ≤ r.imm then none
    else
      let o : UFmt := { d := d, hw := bits r.imm 17 16, rsv := 0, imm := r.imm % 65536 }
      some (if bit r.imm 18 then .limmK o else .limm o)
  else if r.op = 0x27 then
    if r.b != 0 || r.g != 0 then none
    else some (.cmpi { kd := d, cond := r.mode, a := a, imm := signedField 12 r.imm, ta := 0 })
  else if formI r.op then
    let imm := if r.op = 0x20 then signedField 14 r.imm else r.imm
    if r.mode != 0 || r.b != 0 || r.g != 0 || 2 ^ 14 ≤ imm then none
    else scalarOp r.op ({ d := d, a := a, imm := imm, ta := 0 } : IFmt).word
  else if formMem r.op then
    let sz := r.mode % 4
    let off := signedField 32 r.imm
    if r.b != 0 || r.g != 0 || 8 ≤ r.mode || off % 2 ^ sz != 0 then none
    else
      let units : Nat := if off < 2 ^ 31 then off / 2 ^ sz else 2 ^ 32 - (2 ^ 32 - off) / 2 ^ sz
      let f := signedField 10 units
      if 2 ^ 10 ≤ f then none
      else scalarOp r.op ({ d := d, a := a, sz := sz, sx := r.mode / 4, off := f, td := 0, ta := 0 } : MemFmt).word
  else if formQ r.op then
    let push := r.op = 0x38 ∨ r.op = 0x39
    let h := bits r.imm 17 17
    let t := bits r.imm 16 16
    let mf := bits r.imm 18 18
    if r.mode != 0 || 2 ^ 19 ≤ r.imm || (push ∧ r.d ≠ 0) || (¬push ∧ r.a ≠ 0) || (mf == 0 && r.b != 0) then none
    else scalarOp r.op ({ reg := if push then a else d, q := r.imm % 64, h := h, t := t, rsv := 0, ng := 0, mf := mf
                          kp := if mf = 0 then 0 else m.dst .pred r.b, g := g, tr := 0, rsv0 := 0 } : QFmt).word
  else
    let sel := r.op = 0x2A
    if (sel ∧ r.mode ≠ 0) || (¬sel ∧ r.imm ≠ 0) || 65536 ≤ r.imm then none
    else scalarOp r.op ({ d := d, a := a, b := b, ng := 0, fn := if sel then m.src .pred r.imm else r.mode,
                          g := g, ta := 0, tb := 0 } : RFmt).word

/-- The operand classes of a V instruction's d, a and b (R180). -/
def vClasses (op : Nat) : VClass × VClass × VClass :=
  match op with
  | 0x08 => (.matrix, .matrix, .none)
  | 0x09 => (.matrix, .matrix, .none)
  | 0x0B => (.matrix, .matrix, .none)
  | 0x0C => (.matrix, .matrix, .none)
  | 0x0D => (.matrix, .matrix, .none)
  | 0x0E => (.matrix, .matrix, .none)
  | 0x0F => (.matrix, .matrix, .none)
  | 0x10 => (.matrix, .matrix, .none)
  | 0x13 => (.mask, .matrix, .matrix)
  | 0x15 => (.mask, .mask, .mask)
  | 0x16 => (.mask, .mask, .mask)
  | 0x17 => (.mask, .mask, .none)
  | 0x1B => (.matrix, .matrix, .none)
  | 0x1C => (.matrix, .matrix, .none)
  | 0x1D => (.matrix, .matrix, .none)
  | 0x1E => (.matrix, .matrix, .none)
  | 0x1F => (.matrix, .matrix, .none)
  | 0x20 => (.matrix, .matrix, .none)
  | 0x21 => (.matrix, .matrix, .none)
  | 0x23 => (.matrix, .matrix, .none)
  | 0x24 => (.matrix, .matrix, .none)
  | 0x25 => (.matrix, .matrix, .none)
  | 0x26 => (.matrix, .scalar, .none)
  | 0x27 => (.scalar, .matrix, .none)
  | 0x28 => (.matrix, .scalar, .none)
  | 0x29 => (.matrix, .queue, .none)
  | 0x2A => (.queue, .matrix, .none)
  | 0x2D => (.mask, .matrix, .thr)
  | _ => (.matrix, .matrix, .matrix)

/-- The operand field of a value, or of queue `q`; none where the class has no value and the record names one. -/
def vField (m : ValKind → Nat → Nat) (q : Nat) (c : VClass) (v : Nat) : Option Nat :=
  match c with
  | .matrix => some (m .vec v)
  | .scalar => some (m .scalar v)
  | .mask => some (m .mask v * 128)
  | .thr => some (m .thr v * 128)
  | .queue => if v = 0 then some q else none
  | .none => if v = 0 then some 0 else none

/-- VQNT writes its b operand, the scale row (R254). -/
def writesB (op : Nat) : Bool := op == 0x11

/-- The native instruction of a class 1 record (R388, R502). -/
def vectorNative (m : RegMap) (r : VRec) : Option Instr :=
  let (cd, ca, cb) := vClasses r.op
  let queue := r.op = 0x29 ∨ r.op = 0x2A
  let q := if queue then r.imm % 64 else 0
  match vField m.dst q cd r.d, vField m.src q ca r.a, vField (if writesB r.op then m.dst else m.src) q cb r.b with
  | some d, some a, some b =>
    if (r.op = 0x14 ∧ 65536 ≤ r.imm) || (queue ∧ 2 ^ 18 ≤ r.imm) || (r.op ≠ 0x14 ∧ ¬queue ∧ 256 ≤ r.imm) then none
    else
      let c := if r.op = 0x14 then m.src .mask r.imm else if queue then r.imm / 65536 else r.imm
      let o : VFmt := { tok := r.tok, d := d, mg := m.src .mask r.g, rm := r.mode / 16, fmt := r.mode % 16, a := a, b := b, c := c }
      vectorOp r.op o.word0 o.word1
  | _, _, _ => none

/-- M instructions that name a queue, and those that name a tile (R181). -/
def strokeQueue (op : Nat) : Bool := [0, 1, 3, 4, 6, 7, 8, 9, 11].contains op
def strokeTile (op : Nat) : Bool := [3, 4, 5, 6, 7, 10, 11].contains op

/-- The native instruction of a class 2 record (R388, R502). CLR of a drain is IMM bit 0, whatever edge bits 15:0 name
(log 76). -/
def strokeNative (m : RegMap) (r : VRec) : Option Instr :=
  let queue := strokeQueue r.op
  let h := if r.op = 4 then m.src .thr r.b else if r.op = 6 ∨ r.op = 7 then r.imm % 2 else if queue then 0 else r.imm
  if r.g != 0 || (r.op ≠ 4 ∧ r.b ≠ 0) || 2 ^ 16 ≤ r.imm || (!queue && 16 ≤ r.imm) then none
  else strokeInstrOp r.op ({ tok := r.tok, arr := m.src .arr r.a, x := if strokeTile r.op then m.src .tile r.d else stand r.d
                             q := if queue then r.imm % 64 else 0, f := r.mode % 16, p := r.mode / 16, h := h } : StrokeFmt).word

/-- The native instruction of a class 3 record (R388). -/
def lwNative (m : RegMap) (r : VRec) : Option Instr :=
  let edge := if [1, 2, 3, 6].contains r.op then r.imm % 65536 else 0
  let slot := if [0, 1, 3].contains r.op then bits r.imm 19 16 else 0
  let marks := if r.op = 2 ∨ r.op = 6 then bits r.imm 21 20 else 0
  let bank := if r.op = 4 ∨ r.op = 5 then bits r.imm 27 24 else 0
  if 2 ≤ r.mode || (r.mode = 1 ∧ r.op = 3) || r.d != 0 || r.b != 0 || r.g != 0 ||
      r.imm ≠ edge + slot * 2 ^ 16 + marks * 2 ^ 20 + bank * 2 ^ 24 then none
  else lwInstrOp r.op ({ tok := r.tok, s := m.src .scalar r.a, q := edge % 64, d := slot, b := marks + bank } : LWFmt).word

/-- A class 3 record names one of the card's scratchpad banks, if it names a bank (R388). -/
def bankNamed (spad : Nat) (rec : List Byte) : Bool :=
  let r := vrecOf rec
  fieldAt rec 0 1 != 3 || !(r.op == 4 || r.op == 5) || bits r.imm 27 24 < spad

/-! ### Class 4 instructions (R387, R388) -/

/-- The fields of a Sweep element's two records: R387 places in2, in3, PARAM and IMM in the second, and the edge of SRC and SNK
stands in the first one's IMM. A guard may be named as in3 or in G (log 76). -/
structure ElemFields where
  op : Nat
  fmt : Nat
  rnd : Nat
  d : Nat
  ins : List Nat
  edge : Nat
  param : Nat
  imm : Nat
  deriving DecidableEq, Repr, Inhabited

def elemFields (rec : List Byte) : ElemFields :=
  let r := vrecOf rec
  let in3 := fieldAt rec 0x16 2
  { op := r.op, fmt := r.mode % 16, rnd := r.mode / 16, d := r.d
    ins := [r.a, r.b, fieldAt rec 0x14 2, if in3 = 0 then r.g else in3], edge := r.imm, param := fieldAt rec 0x18 2 % 8192
    imm := fieldAt rec 0x1C 4 }

/-- An element names a queue's edge. -/
def elemQueue (op : Nat) : Bool := op == 1 || op == 2

/-- An element has no result: SNK and COMMIT. A CMP or CNT gives a predicate (R338). -/
def elemSilent (op : Nat) : Bool := op == 2 || op == 0x1F
def elemPred (op : Nat) : Bool := op == 0x10 || op == 0x1B

/-- The fields that R387 and R502 leave unused are zero. -/
def elemOk (rec : List Byte) : Bool :=
  let r := vrecOf rec
  let f := elemFields rec
  rec.length == 32 && r.tok == 0 && zeroAt rec 0x10 4 && fieldAt rec 0x18 4 < 8192 &&
  (if elemQueue f.op then f.edge < 65536 && f.param == 0 else f.edge == 0) && (!elemSilent f.op || f.d == 0) &&
  (r.g == 0 || fieldAt rec 0x16 2 == 0 || r.g == fieldAt rec 0x16 2)

/-- An edge instruction or `XTREE` whose fields are legal (R389, R390). `cons` is the popping endpoint of an edge and
`width` its width code. -/
def edgeRecOk (r : VRec) (edge : List Byte) : Bool :=
  let ep := if r.op = 1 then fieldAt edge 4 1 else fieldAt edge 5 1
  r.mode == 0 && r.b == 0 && r.imm < (if r.op = 1 then 2 ^ 18 else 2 ^ 16) && ep ≤ 2 &&
  (if ep = 2 then r.g == 0 && (r.op == 1 || bits (fieldAt edge 6 1) 1 0 != 2) else r.tok == 0) &&
  (if r.op = 1 then r.d == 0 else r.a == 0) && (r.op != 2 || r.d == 0)

def xtreeOk (r : VRec) : Bool :=
  r.b == 0 && r.g == 0 && r.mode % 16 < 9 && r.imm < 3 &&
  (if r.mode % 16 < 3 then r.mode / 16 ≤ 5 else r.mode / 16 ≤ 1)

/-- The edge a record names, if it names one. -/
def edgeNamed (cls : Nat) (r : VRec) : Option Nat :=
  match cls with
  | 0 => if formQ r.op then some (r.imm % 65536) else none
  | 1 => if r.op = 0x29 ∨ r.op = 0x2A then some (r.imm % 65536) else none
  | 2 => if strokeQueue r.op then some (r.imm % 65536) else none
  | 3 => if [1, 2, 3, 6].contains r.op then some (r.imm % 65536) else none
  | 4 => if elemQueue r.op then some (r.imm % 65536) else none
  | 5 => some (r.imm % 65536)
  | _ => none

/-- The endpoints an instruction of block class `bcls` pops or pushes at (R133, R388, R389). -/
def endpointsOf (bcls cls : Nat) (r : VRec) : List Nat :=
  match cls with
  | 0 => [if bcls = 0 then 0 else 1]
  | 1 => [2]
  | 2 => [3]
  | 3 => [4 + r.mode % 2]
  | 4 => [8]
  | 5 => if bcls = 0 then [0] else [1, 2]
  | _ => []

/-- A named edge is one of the block's endpoint (R388). -/
def edgeNamedOk (l : Lodor) (bi bcls cls : Nat) (r : VRec) : Bool :=
  match edgeNamed cls r with
  | none => true
  | some n =>
    let e := l.edgeAt n
    n < l.nedge && (endpointsOf bcls cls r).any fun ep =>
      fieldAt e 0 2 == bi && fieldAt e 4 1 == ep || fieldAt e 2 2 == bi && fieldAt e 5 1 == ep

/-- A record whose fields its native encoding takes (R184, R388, R389, R390, R502). What a fabric element further needs is the loader's. -/
def fieldsLegal (l : Lodor) (bi bcls : Nat) (rec : List Byte) : Bool :=
  let r := vrecOf rec
  let cls := fieldAt rec 0 1
  edgeNamedOk l bi bcls cls r &&
  match cls with
  | 0 => ((scalarNative standMap r).map Instr.wf).getD false
  | 1 => ((vectorNative standMap r).map Instr.wf).getD false
  | 2 => ((strokeNative standMap r).map Instr.wf).getD false
  | 3 => ((lwNative standMap r).map Instr.wf).getD false
  | 4 => elemOk rec
  | 5 => edgeRecOk r (l.edgeAt (r.imm % 65536))
  | 6 => xtreeOk r
  | _ => true

/-! ### Uses of values (R387) -/

def useOf (c : VClass) (v : Nat) (reads writes : Bool) : List ValUse :=
  match c with
  | .matrix => [{ v := v, kind := .vec, reads := reads, writes := writes }]
  | .scalar => [{ v := v, kind := .scalar, reads := reads, writes := writes }]
  | .mask => [{ v := v, kind := .mask, reads := reads, writes := writes }]
  | .thr => [{ v := v, kind := .thr, reads := reads, writes := writes }]
  | .queue => []
  | .none => []

def readUse (k : ValKind) (v : Nat) : ValUse := { v := v, kind := k }
def writeUse (k : ValKind) (v : Nat) : ValUse := { v := v, kind := k, reads := false, writes := true }
def bothUse (k : ValKind) (v : Nat) : ValUse := { v := v, kind := k, writes := true }

/-- Uses of a class 0 record, sources first. -/
def scalarUses (r : VRec) : List ValUse :=
  let k := scalarSource r.op
  let sources := [readUse .pred r.g, readUse k r.a, readUse k r.b]
  if r.op = 0x28 then [if bit r.imm 18 then bothUse .scalar r.d else writeUse .scalar r.d]
  else if r.op = 0x2A then readUse .pred (r.imm % 65536) :: sources ++ [writeUse .scalar r.d]
  else if r.op = 0x1D then sources ++ [bothUse .scalar r.d]
  else if storesD r.op then sources ++ [readUse .scalar r.d]
  else if formQ r.op ∧ bit r.imm 18 then
    [readUse .pred r.g, writeUse .scalar r.d, writeUse .pred r.b, writeUse .pred (r.b + 1), writeUse .pred (r.b + 2)]
  else sources ++ match scalarDest r.op with
    | none => []
    | some d => [writeUse d r.d]

/-- Uses of an element, inputs first (R387). -/
def elemUses (rec : List Byte) : List ValUse :=
  let f := elemFields rec
  let input (i : Nat) : ValUse :=
    { v := f.ins.getD i 0, kind := if i = 3 then .pred else .scalar, either := f.op == 0x16 }
  [input 0, input 1, input 2, input 3] ++ (if elemSilent f.op then [] else [writeUse (if elemPred f.op then .pred else .scalar) f.d])

/-- Uses of a record, sources first: a run and a verdict read their array and write their tile, drains, MWAIT and MSTAT read both, and
the other M instructions write what they name (log 76). -/
def valUses (l : Lodor) (bcls : Nat) (rec : List Byte) : List ValUse :=
  let r := vrecOf rec
  match fieldAt rec 0 1 with
  | 0 => scalarUses r
  | 1 =>
    let (cd, ca, cb) := vClasses r.op
    let both := [0x03, 0x04, 0x05, 0x2C].contains r.op
    (if r.g = 0 then [] else [readUse .mask r.g]) ++ (if r.op = 0x14 then [readUse .mask (r.imm % 65536)] else []) ++ useOf ca r.a true false ++
      useOf cb r.b (!writesB r.op) (writesB r.op) ++ useOf cd r.d both true
  | 2 =>
    let drains := [0x06, 0x07, 0x0A, 0x0B].contains r.op
    let reads := drains || r.op == 3 || r.op == 4
    (if r.op = 4 ∧ (r.mode / 16 ≠ 0 ∨ r.b ≠ 0) then [readUse .thr r.b] else []) ++ [if reads then readUse .arr r.a else writeUse .arr r.a] ++
      (if strokeTile r.op then [if drains then readUse .tile r.d else writeUse .tile r.d] else [])
  | 3 => [readUse .scalar r.a]
  | 4 => elemUses rec
  | 5 =>
    let e := l.edgeAt (r.imm % 65536)
    let ep := if r.op = 1 then fieldAt e 4 1 else fieldAt e 5 1
    let k : ValKind := if ep = 2 ∧ bcls = 1 then .vec else .scalar
    [readUse .pred r.g] ++ (if r.op = 1 then [readUse k r.a] else if r.op = 0 then [writeUse k r.d] else [])
  | 6 => [readUse .vec r.a, writeUse .vec r.d]
  | _ => []

/-- A record names a value wherever its instruction needs one: value 0 is g0, an S register that holds zero, or k0 where a scalar or
a predicate is read, and nothing where one is written (log 76). -/
def needsValues (l : Lodor) (bcls : Nat) (rec : List Byte) : Bool :=
  (valUses l bcls rec).all fun u => u.v != 0 || u.kind == .scalar || u.kind == .pred

/-- Values in order of their uses: a read before any write, or a use as another kind, fails (R387). Value 0 is none. -/
def usesOk : Tbl ValKind → List ValUse → Bool
  | _, [] => true
  | t, u :: rest =>
    if u.v = 0 then usesOk t rest
    else
      match t.find? u.v with
      | some k => (k == u.kind || u.either) && usesOk t rest
      | none => if u.reads then false else usesOk (if u.writes then t.insert u.v u.kind else t) rest

def valuesOk (l : Lodor) (b : List Byte) : Bool :=
  (l.records b).all (needsValues l (blockClass b)) && usesOk [] ((l.records b).flatMap (valUses l (blockClass b)))

/-- Every value a block's records use is numbered to `NVAL`. -/
def valuesNumbered (l : Lodor) (b : List Byte) : Bool :=
  ((l.records b).flatMap (valUses l (blockClass b))).all fun u => u.v ≤ fieldAt b 0x10 2

/-- Reasons a section is refused for by its records, with the card's number of banks (R396). A malformed one is refused for that
alone. -/
def lodorReasons (b : List Byte) (spad : Nat) : List Nat :=
  let l : Lodor := { b := b }
  let form := fieldAt b 0 2 == 1 && l.nblk != 0 && l.nblk ≤ 4096 && l.nedge ≤ 62 && zeroAt b 6 2 && zeroAt b 12 20 &&
    32 + 32 * l.nblk + 16 * l.nedge + 16 * l.nins ≤ b.length &&
    (l.blocks.all fun r => zeroAt r 0x12 14) &&
    (l.edges.all fun r => bits (fieldAt r 6 1) 7 4 == 0 && zeroAt r 7 1 && zeroAt r 12 4)
  if !form then [1]
  else
    let add (n : Nat) (x : Bool) : List Nat := if x then [n] else []
    let blocks := (List.range l.nblk).all (blockInRange l)
    let recs := if blocks then (List.range l.nblk).map fun i => (i, blockClass (l.blockAt i), l.records (l.blockAt i)) else []
    let any (f : Nat → Nat → List Byte → Bool) : Bool := recs.any fun e => e.2.2.any (f e.1 e.2.1)
    let known := !any fun _ c r => !codeKnown c r
    let numbered := !blocks || l.blocks.all (valuesNumbered l)
    add 1 (any (fun _ _ r => insReserved r) || !numbered) ++ add 2 (!blocks) ++
      add 3 (!l.edges.all (edgeOk l) || 1 < (l.edges.filter fun e => bit (fieldAt e 6 1) 3).length) ++
      add 4 (!known || (any fun i c r => !codeRefused r && !(fieldsLegal l i c r && bankNamed spad r))) ++
      add 5 (blocks && known && !l.blocks.all (valuesOk l)) ++
      add 6 (any fun _ _ r => codeRefused r) ++ add 7 (any fun _ _ r => roundsFreely r)

end Sys2Proof.Machine
end

