-- ==== Sys2Proof/Machine/Chervil.lean ====
section
/-! DEFINITION. Chervil's translation of a Lodor section into native code, queues, spills and fabric images (R357, R386-R394, R490).
Its choices are those R392 leaves to it: queue n is edge n, values get registers in order of first write, and the vectors that
then find none are spilled (log 21). -/

namespace Sys2Proof.Machine

/-! ### Registers (R387, R392) -/

/-- Pools of registers: those never given out yet, from a number on, and those whose values are dead, oldest first. -/
structure Pools where
  next : Tbl Nat := []
  dead : Tbl (List Nat) := []
  deriving DecidableEq, Repr, Inhabited

/-- The pool of a kind; vectors that a long VTOPK list needs have one of their own (R265). -/
def poolOf (k : ValKind) (wide : Bool) : Nat :=
  match k with
  | .scalar => 0
  | .pred => 1
  | .vec => if wide then 7 else 2
  | .mask => 3
  | .thr => 4
  | .arr => 5
  | .tile => 6

/-- First register of a pool, and the number after its last. Registers 26 to 31, k7 of the access code, w7 and m15 are the
translation's own; rows are even, so that the row after a value's is never another value's. -/
def poolFrom (pool : Nat) : Nat := if pool = 0 ∨ pool = 1 ∨ pool = 3 then 1 else 0
def poolTo (cls pool : Nat) : Nat :=
  match pool with
  | 0 => 26
  | 1 => if cls = 0 then 7 else 8
  | 2 => 176
  | 3 => 7
  | 4 => 16
  | 5 => 2
  | 6 => 8
  | _ => 16

/-- Take a register of a pool, a fresh one while there is one. -/
def Pools.take (p : Pools) (cls pool : Nat) : Option (Nat × Pools) :=
  let n := p.next.getD pool (poolFrom pool)
  if n < poolTo cls pool then some (n, { p with next := p.next.insert pool (n + 1) })
  else match p.dead.getD pool [] with
    | r :: t => some (r, { p with dead := p.dead.insert pool t })
    | [] => none

/-- A register's value is dead. A threshold never falls, so its register serves no second value (R237). -/
def Pools.give (p : Pools) (pool r : Nat) : Pools :=
  if pool = 4 then p else { p with dead := p.dead.insert pool (p.dead.getD pool [] ++ [r]) }

/-- Where the values of a block stand: pool and register. -/
abbrev Places := Tbl (Nat × Nat)

/-- The number or operand field of a register of a pool (R168). -/
def placeField (pool r : Nat) : Nat :=
  if pool = 2 then r / 16 * 128 + r % 16 * 2 else if pool = 7 then (11 + r / 4) * 128 + r % 4 * 8 else r

/-- The registers of a block's values. A result that no value takes goes to a register nothing reads. -/
def regMap (cls : Nat) (t : Places) : RegMap :=
  let at_ (v : Nat) : Nat := match t.find? v with
    | some (pool, r) => placeField pool r
    | none => 0
  { src := fun _ v => at_ v
    dst := fun k v => if v = 0 ∧ k = .scalar ∧ cls = 1 then 27 else at_ v }

/-! ### Native instructions (R388-R390) -/

/-- A lane of native code: its stream, its instruction, the virtual instruction it stands for (R394), and where a branch goes
to or a loop ends, by place in its code. -/
structure Item where
  sid : Nat
  instr : Instr
  block : Nat
  ins : Nat
  jump : Option Nat := none
  deriving DecidableEq, Repr

/-- Rows of m15 that XTREE uses, and the one a row entry is pushed from. -/
def spareRow (n : Nat) : Nat := 15 * 128 + n

/-- A V instruction without tokens. -/
def laneV (fmt rm mg d a b c : Nat) : VFmt := { tok := 0, d := d, mg := mg, rm := rm, fmt := fmt, a := a, b := b, c := c }

/-- The natural format of an element format's width. -/
def naturalOf (fmt : Nat) : Nat := if fmt = 0 ∨ 7 ≤ fmt then 8 else if fmt = 3 ∨ fmt = 4 then 4 else 6

/-- Elements of an operand (R244). -/
def elementsOf (fmt : Nat) : Nat := if fmt = 0 ∨ 7 ≤ fmt then 32 else if fmt = 3 ∨ fmt = 4 then 128 else 64

/-- A number in every element of a row of m15. -/
def fillRow (nat row n : Nat) : List (Nat × Instr) :=
  [(1, .limm { d := 26, hw := 0, rsv := 0, imm := n }), (2, .vbcast (laneV nat 0 0 (spareRow row) 26 0 0))]

/-- Elements 0 to `n - 1` in w7: row 1 of m15 holds 0, 1, 2, ... -/
def firstElements (nat n : Nat) : List (Nat × Instr) :=
  fillRow nat 4 n ++ [(2, .vcmp (laneV nat 0 0 (7 * 128) (spareRow 1) (spareRow 4) 2))]

/-- The combining operation of a tree on two rows of m15 under w7, into a third. -/
def treeOp (fmt rm op d a b : Nat) : Nat × Instr :=
  let o := laneV fmt (if op = 0 then rm else 0) 7 (spareRow d) (spareRow a) (spareRow b) 0
  (2, if op = 0 then .vadd o else if op = 1 then .vmin o else .vmax o)

/-- Row `row` of m15, moved on by the `n` elements that stand before it, joins those collected in row `all`. Row 12 and w7 are
those of `treeLevel`. -/
def collectRow (nat fmt row all : Nat) : List (Nat × Instr) :=
  [(2, .vperm (laneV fmt 0 0 (spareRow 10) (spareRow row) (spareRow 12) 0)),
   (2, .vsel (laneV nat 0 0 (spareRow all) (spareRow all) (spareRow 10) 7))]

/-- One level of the tree with `m` results: even and odd elements of row `x` are brought side by side and combined where a
result stands, in row 7. Its operands join those of the levels before in rows 8 and 9, which hold `before` of them. -/
def treeLevel (fmt rm op x m before : Nat) : List (Nat × Instr) :=
  let nat := naturalOf fmt
  firstElements nat m ++
  [(2, .vperm (laneV fmt 0 0 (spareRow 5) x (spareRow 2) 0)),
   (2, .vperm (laneV fmt 0 0 (spareRow 6) x (spareRow 3) 0)),
   treeOp fmt rm op 7 5 6] ++
  firstElements nat before ++ [(2, .vsub (laneV nat 0 0 (spareRow 12) (spareRow 1) (spareRow 4) 0))] ++
  collectRow nat fmt 5 8 ++ collectRow nat fmt 6 9

/-- The levels of the tree, of `m` results and fewer. -/
def treeLevels (fmt rm op : Nat) : Nat → Nat → Nat → Nat → List (Nat × Instr)
  | 0, _, _, _ => []
  | n + 1, x, m, before =>
    if m = 0 then [] else treeLevel fmt rm op x m before ++ treeLevels fmt rm op n (spareRow 7) (m / 2) (before + m)

/-- Control registers of V read and written by S (R436). -/
def ctlrLane (d reg : Nat) : Nat × Instr := (1, .ctlr { d := d, a := 0, imm := reg, ta := 0 })
def ctlwLane (a reg : Nat) : Nat × Instr := (1, .ctlw { d := 0, a := a, imm := reg, ta := 0 })

/-- `XTREE` (R390) in native instructions: rows 2 and 3 of m15 hold the even and odd numbers. The levels run with every trap
disabled and leave the operands of every Op side by side; then one instruction repeats every Op under the crew's own `VCTL`, so
that its flags, and the exception they raise, are those of R54 over the whole tree. Only elements that the tree has are combined
(R431). `drains` says that no earlier V instruction can wait for a lane still to come, so that reading `VSTAT` ends and it is
restored before that instruction (log 21). With rounding code 5 an add under an empty mask comes first, which raises what that
code raises (R53, R393). -/
def treeCode (r : VRec) (d a : Nat) (drains : Bool) : List (Nat × Instr) :=
  let fmt := r.mode % 16
  let rm := r.mode / 16
  let nat := naturalOf fmt
  let n := elementsOf fmt
  let only (b : Bool) (l : List (Nat × Instr)) : List (Nat × Instr) := if b then l else []
  fillRow nat 0 1 ++
  [(2, .vscan (laneV nat 0 0 (spareRow 1) (spareRow 0) 0 0)),
   (2, .vsub (laneV nat 0 0 (spareRow 1) (spareRow 1) (spareRow 0) 0)),
   (2, .vadd (laneV nat 0 0 (spareRow 2) (spareRow 1) (spareRow 1) 0)),
   (2, .vadd (laneV nat 0 0 (spareRow 3) (spareRow 2) (spareRow 0) 0))] ++
  only (rm == 5) [(2, .vcmp (laneV nat 0 0 (7 * 128) (spareRow 0) (spareRow 0) 1)), (2, .vadd (laneV fmt 5 7 (spareRow 7) a a 0))] ++
  only drains [ctlrLane 30 0] ++
  [ctlrLane 29 1, (1, .limm { d := 28, hw := 0, rsv := 0, imm := 0x780 }),
   (1, .and { d := 28, a := 29, b := 28, ng := 0, fn := 0, g := 0, ta := 0, tb := 0 }), ctlwLane 28 1] ++
  treeLevels fmt rm r.imm 7 a (n / 2) 0 ++
  only drains [ctlwLane 30 0] ++ [ctlwLane 29 1] ++
  firstElements nat (n - 1) ++ [treeOp fmt rm r.imm 10 8 9] ++ firstElements nat 1 ++
  [(2, .vxor (laneV nat 0 0 (spareRow 4) (spareRow 4) (spareRow 4) 0)),
   (2, .vsel { laneV nat 0 0 d (spareRow 7) (spareRow 4) 7 with tok := r.tok })]

/-- Push a vector value: the row after it is no part of a row entry (R389), so that is pushed from a row before an empty one. -/
def pushV (m : RegMap) (width q marks a tok : Nat) : List (Nat × Instr) :=
  let o (x : Nat) : VFmt := { laneV 0 0 0 q x 0 marks with tok := tok }
  if width = 2 then [(2, .vmov (laneV 8 0 0 (spareRow 30) (m.src .vec a) 0 0)), (2, .vpush (o (spareRow 30)))]
  else [(2, .vpush (o (m.src .vec a)))]

/-- An edge instruction in native form (R389). -/
def edgeCode (m : RegMap) (r : VRec) (edge : List Byte) : Option (List (Nat × Instr)) :=
  let q := r.imm % 64
  let width := bits (fieldAt edge 6 1) 1 0
  if (if r.op = 1 then fieldAt edge 4 1 else fieldAt edge 5 1) = 2 then
    some (if r.op = 1 then pushV m width q (r.imm / 65536) r.a r.tok
      else [(2, .vpop { laneV 0 0 0 (m.dst .vec r.d) q 0 0 with tok := r.tok })])
  else
    let op := if r.op = 0 then 0x3A else if r.op = 2 then 0x4B else if r.imm < 65536 then 0x38 else 0x39
    (scalarNative m { r with op := op }).map fun i => [(1, i)]

/-- No V instruction of a section waits for a queue or a token. -/
def vectorsDrain (l : Lodor) : Bool :=
  (l.blocks.filter fun b => blockClass b == 1).all fun b => (l.records b).all fun rec =>
    let r := vrecOf rec
    let cls := fieldAt rec 0 1
    !(cls == 1 || cls == 5 || cls == 6) || (r.tok == 0 && !(cls == 1 && (r.op == 0x29 || r.op == 0x2A)) && cls != 5)

/-- The native instructions of a virtual one, each with its stream (R388-R391). -/
def nativeCodeOf (l : Lodor) (m : RegMap) (rec : List Byte) : Option (List (Nat × Instr)) :=
  let r := vrecOf rec
  match fieldAt rec 0 1 with
  | 0 => (scalarNative m r).map fun i => [(1, i)]
  | 1 =>
    let e := l.edgeAt (r.imm % 65536)
    if r.op = 0x2A ∧ bits (fieldAt e 6 1) 1 0 = 2 then some (pushV m 2 (r.imm % 64) (r.imm / 65536) r.a r.tok)
    else (vectorNative m r).map fun i => [(2, i)]
  | 2 => (strokeNative m r).map fun i => [(3, i)]
  | 3 => (lwNative m r).map fun i => [(4 + r.mode, i)]
  | 5 => edgeCode m r (l.edgeAt (r.imm % 65536))
  | 6 => some (treeCode r (m.dst .vec r.d) (m.src .vec r.a) (vectorsDrain l))
  | _ => none

/-- Three marks go to consecutive predicates (R165). -/
def marksOk (t : Places) (rec : List Byte) : Bool :=
  let r := vrecOf rec
  let k (i : Nat) : Nat := ((t.find? (r.b + i)).getD (0, 0)).2
  fieldAt rec 0 1 != 0 || !(formQ r.op && bit r.imm 18) || (1 ≤ k 0 && k 1 == k 0 + 1 && k 2 == k 0 + 2)

/-- A vector is the list of a VTOPK of more than 32 entries (R265). -/
def longList (recs : List (List Byte)) (v : Nat) : Bool :=
  recs.any fun rec =>
    let r := vrecOf rec
    fieldAt rec 0 1 == 1 && r.op == 0x2C && r.d == v && 32 < r.imm % 128

/-! ### Spills (R392, log 21) -/

/-- A 32-bit constant in a register. -/
def constant (d n : Nat) : List Instr :=
  [.limm { d := d, hw := 0, rsv := 0, imm := n % 65536 }, .limmK { d := d, hw := 1, rsv := 0, imm := n / 65536 % 65536 }]

/-- Where a block's values stand: pools, registers, and for vectors that were spilled their cells of the private bank. -/
structure Alloc where
  pools : Pools := {}
  places : Places := []
  cells : Tbl Nat := []
  deriving DecidableEq, Repr, Inhabited

/-- The spill queues (R392): beyond the 62 edges a section may have. V to W, and L to V; rows, one entry each. -/
def spillOut : Nat := 62
def spillIn : Nat := 63
def spillQueues : List (Nat × Nat) := [(spillOut, 0xC2500000), (spillIn, 0xC4200000)]

/-- The descriptor of a cell of 256 bytes in the private bank (R324). -/
def cellDesc (bank cell : Nat) : List Byte :=
  [1, BitVec.ofNat 8 bank] ++ List.replicate 38 0 ++ leBytes 4 (256 * cell) ++ leBytes 4 256 ++ List.replicate 16 0

/-- Cells that the data page has descriptors for (R490). -/
def maxCells : Nat := 1024

/-- `s26` points to a cell's descriptor: `base` bytes before the link in `s31` stands that of cell 0. -/
def cellAddress (base cell : Nat) : List (Nat × Instr) :=
  (constant 26 (base - 64 * cell) ++ [Instr.sub { d := 26, a := 31, b := 26, ng := 0, fn := 0, g := 0, ta := 0, tb := 0 }]).map fun i => (1, i)

/-- A move of a spare row that pops or pushes tokens (R147). -/
def tokenMove (tok : Nat) : Nat × Instr := (2, .vmov { laneV 8 0 0 (spareRow 30) (spareRow 30) 0 0 with tok := tok })

/-- Store a vector's register to its cell: V pushes it, W writes it, and V goes on with W's token. -/
def storeCode (base r cell : Nat) : List (Nat × Instr) :=
  cellAddress base cell ++
  [(5, .agdef { tok := 0, s := 26, q := 0, d := 0, b := 0 }), (5, .agrun { tok := 2, s := 0, q := spillOut, d := 0, b := 0 }),
   (2, .vpush (laneV 0 0 0 spillOut (placeField 2 r) 0 0)), tokenMove 4]

/-- Load a vector's register from its cell: V lets L read, and pops what L pushes. -/
def loadCode (base r cell : Nat) : List (Nat × Instr) :=
  cellAddress base cell ++
  [(4, .agdef { tok := 0, s := 26, q := 0, d := 0, b := 0 }), (4, .agrun { tok := 8, s := 0, q := spillIn, d := 0, b := 0 }),
   tokenMove 2, (2, .vpop (laneV 0 0 0 (placeField 2 r) spillIn 0 0))]

/-- The cell of a value, a new one where it has none. -/
def cellOf (x : Alloc) (v : Nat) : Option (Nat × Alloc) :=
  match x.cells.find? v with
  | some n => some (n, x)
  | none => if x.cells.length < maxCells then some (x.cells.length, { x with cells := x.cells.insert v x.cells.length }) else none

/-- Take a register for a value. Where a vector finds none, one that the record does not use is spilled, if Chervil spills here:
`sp` is then the base of `cellAddress`. -/
def takeReg (cls : Nat) (sp : Option Nat) (keep : List Nat) (pool : Nat) (x : Alloc) : Option (Nat × Alloc × List (Nat × Instr)) :=
  match x.pools.take cls pool, sp with
  | some (r, p), _ => some (r, { x with pools := p }, [])
  | none, none => none
  | none, some base =>
    if pool ≠ 2 then none
    else match List.find? (fun e : Nat × Nat × Nat => e.2.1 == 2 && !keep.contains e.1) x.places with
      | none => none
      | some (v, _, r) => (cellOf x v).map fun c => (r, { c.2 with places := c.2.places.erase v }, storeCode base r c.1)

/-- Registers for the values of a record: those it writes first get one, those spilled before are loaded. -/
def placeUses (cls : Nat) (sp : Option Nat) (wide : Nat → Bool) (keep : List Nat) :
    List ValUse → Alloc → Option (Alloc × List (Nat × Instr))
  | [], x => some (x, [])
  | u :: rest, x =>
    if u.v = 0 ∨ (x.places.find? u.v).isSome then placeUses cls sp wide keep rest x
    else
      let pool := poolOf u.kind (wide u.v)
      match takeReg cls sp keep pool x with
      | none => none
      | some (r, x, code) =>
        let load := match x.cells.find? u.v, sp with
          | some n, some base => loadCode base r n
          | _, _ => []
        (placeUses cls sp wide keep rest { x with places := x.places.insert u.v (pool, r) }).map fun y => (y.1, code ++ load ++ y.2)

/-- Take back the registers of the values of a record that no later one uses. -/
def releaseUses (later : List ValUse) : List Nat → Alloc → Alloc
  | [], x => x
  | v :: rest, x =>
    releaseUses later rest (match x.places.find? v with
      | some (pool, r) =>
        if later.any (·.v == v) then x else { x with pools := x.pools.give pool r, places := x.places.erase v }
      | none => x)

/-- Chervil spills only where the L and W streams and every token are its own: no class 3 record, and no token bits (log 21). -/
def spillsOk (l : Lodor) : Bool :=
  (l.blocks.filter fun b => blockClass b == 1).all fun b => (l.records b).all fun rec => fieldAt rec 0 1 != 3 && (vrecOf rec).tok == 0

/-- The body of a block from its instruction `n` on; none where its values do not fit the registers. Spills are the translation's
own: they count as instruction 0. -/
def bodyFrom (l : Lodor) (bi cls : Nat) (sp : Option Nat) (wide : Nat → Bool) :
    List (List Byte) → Nat → Alloc → Option (Alloc × List Item)
  | [], _, x => some (x, [])
  | rec :: rest, n, x =>
    let uses := valUses l cls rec
    let vs := (uses.map (·.v)).eraseDups
    match placeUses cls sp wide vs uses x with
    | none => none
    | some (x, moves) =>
      match nativeCodeOf l (regMap cls x.places) rec with
      | none => none
      | some code =>
        if !marksOk x.places rec then none
        else
          match bodyFrom l bi cls sp wide rest (n + 1) (releaseUses (rest.flatMap (valUses l cls)) vs x) with
          | none => none
          | some (y, items) =>
            let item (ins : Nat) (c : Nat × Instr) : Item := { sid := c.1, instr := c.2, block := bi, ins := ins }
            some (y, moves.map (item 0) ++ code.map (item n) ++ items)

/-! ### Blocks and code (R386) -/

/-- Repeat a class 0 block (R385): register 26 counts down, and k7 says when it ends. `base` is the place of its first lane. -/
def repeatA (rk rcount redge base : Nat) (scalar : Instr → Item) (body : List Item) : List Item :=
  let test (cond : Nat) : Item := scalar (.cmpi { kd := 7, cond := cond, a := 26, imm := 0, ta := 0 })
  let goto_ (n : Nat) : Item := { scalar (.bc { g := 7, n := 0, lane := 1, disp := 0 }) with jump := some n }
  let pre := (if rk = 1 then (constant 26 rcount).map scalar
    else [scalar (.qpop { reg := 26, q := redge, h := 0, t := 0, rsv := 0, ng := 0, mf := 0, kp := 0, g := 0, tr := 0, rsv0 := 0 })]) ++ [test 0]
  let top := base + pre.length + 1
  let last := top + body.length + 3
  pre ++ [goto_ last] ++ body ++ [scalar (.addi { d := 26, a := 26, imm := 2 ^ 14 - 1, ta := 0 }), test 1, goto_ top]

/-- Repeat a class 1 block by a loop of the sequencer (R233). -/
def repeatS (rk rcount redge base : Nat) (scalar : Instr → Item) (body : List Item) : List Item :=
  let pre := if rk = 1 then (constant 26 rcount).map scalar else []
  let loop := if rk = 1 then Instr.loop { l := 0, a := 26, ta := 0, elane := 1, len := 0 }
    else Instr.loopq { l := 0, q := redge, elane := 1, len := 0 }
  pre ++ [{ scalar loop with jump := some (base + pre.length + body.length) }] ++ body

/-- The code of the blocks of a class, in block order (R386), after `code`. -/
def blocksCode (l : Lodor) (cls : Nat) (sp : Option Nat) : List Nat → Pools → List Item → Option (List Item)
  | [], _, code => some code
  | i :: rest, p, code =>
    let b := l.blockAt i
    if blockClass b ≠ cls then blocksCode l cls sp rest p code
    else
      let recs := l.records b
      match bodyFrom l i cls sp (longList recs) recs 1 { pools := p } with
      | none => none
      | some (x, body) =>
        let rk := fieldAt b 1 1
        let scalar (i' : Instr) : Item := { sid := 1, instr := i', block := i, ins := 0 }
        let items := if rk = 0 then body
          else (if cls = 0 then repeatA else repeatS) rk (fieldAt b 4 4) (fieldAt b 2 2) code.length scalar body
        blocksCode l cls sp rest x.pools (code ++ items)

/-! ### Fabric blocks (R357, R386, R387) -/

/-- A value of a fabric block: the element that made it, whether it is a predicate, and how often it has been read. -/
structure Wire where
  el : Nat
  pred : Bool
  reads : Nat
  many : Bool
  deriving DecidableEq, Repr, Inhabited

/-- The input descriptor of a value (R357). FORK and JOIN emit on several ports, which the readers of their value take in turn; every
other value leaves by port 0 (log 103). -/
def inputWord (ws : Tbl Wire) (v : Nat) : Nat :=
  match ws.find? v with
  | none => 0
  | some w => w.el + (if w.many then w.reads % 4 else 0) * 4096 + (if w.pred then 16384 else 0) + 32768

/-- The element records of a fabric block, one for each instruction (R357). -/
def elementsFrom : List (List Byte) → Nat → Tbl Wire → List Byte
  | [], _, _ => []
  | rec :: rest, n, ws =>
    let f := elemFields rec
    let step (acc : Tbl Wire × List Byte) (v : Nat) : Tbl Wire × List Byte :=
      (if v = 0 then acc.1 else acc.1.modify v fun w => { w with reads := w.reads + 1 }, acc.2 ++ leBytes 2 (inputWord acc.1 v))
    let (ws, ins) := f.ins.foldl step (ws, [])
    let reg := if f.op = 3 then 1 else if f.op = 0x19 ∨ f.op = 0x1A then 2 else 0
    let ctl := f.op + f.fmt * 2 ^ 6 + f.rnd * 2 ^ 11 + reg * 2 ^ 14 + (if elemQueue f.op then f.edge % 64 else f.param) * 2 ^ 19
    let ws := if f.d = 0 then ws else ws.insert f.d { el := n, pred := elemPred f.op, reads := 0, many := f.op == 0x16 || f.op == 0x17 }
    ins ++ leBytes 4 ctl ++ leBytes 4 f.imm ++ elementsFrom rest (n + 1) ws

/-- Rows and columns of a fabric block of `n` elements. -/
def fabricRows (n : Nat) : Nat := (n + 63) / 64
def fabricCols (n : Nat) : Nat := min n 64

/-- The configuration image of a fabric block in rows of the fabric from `row` on: one subgraph, no descriptors, no bank handed
over, and a commit at every tile (R357, log 103). -/
def fabricImage (row : Nat) (recs : List (List Byte)) : List Byte :=
  let n := recs.length
  let cells := fabricRows n * fabricCols n
  leBytes 2 1 ++ leBytes 2 0 ++ leBytes 4 (64 + 16 * cells) ++ [BitVec.ofNat 8 row, 0, BitVec.ofNat 8 (fabricRows n),
    BitVec.ofNat 8 (fabricCols n)] ++ [1, 0] ++ List.replicate 50 0 ++ elementsFrom recs 0 [] ++
    List.replicate (16 * (cells - n)) 0

/-- An image as kind 2 lines (R160): 28 bytes in each. -/
def imageCode : Nat → List Byte → List Byte
  | 0, _ => []
  | n + 1, bs => leBytes 4 2 ++ bs.take 28 ++ List.replicate (28 - bs.length) 0 ++ imageCode n (bs.drop 28)

def imageLineCount (bs : List Byte) : Nat := (bs.length + 27) / 28

/-- The loader would refuse an image whatever the state it is loaded in (R358). -/
def imageRefused (image : List Byte) : Bool :=
  let x : Section := { image := image }
  let recs := x.live.map x.record
  x.formBad || x.placeBad [] || x.channelsBad || x.scopesBad || x.sourcesBad || x.cyclesBad ||
  (recs.any fun r => r.op == 3 || 0x20 ≤ r.op || !(r.paramOk && r.formatOk 0)) ||
  !(x.queuesOf 1).Nodup || !(x.queuesOf 2).Nodup

/-- The fabric blocks of a section: block, tile count and image. -/
def fabricBlocks (l : Lodor) : List Nat → Nat → List (Nat × Nat × List Byte)
  | [], _ => []
  | i :: rest, row =>
    let b := l.blockAt i
    if blockClass b = 2 then
      let recs := l.records b
      (i, fieldAt b 4 4, fabricImage row recs) :: fabricBlocks l rest (row + fabricRows recs.length)
    else fabricBlocks l rest row

def fabricHeight (l : Lodor) : Nat :=
  ((l.blocks.filter fun b => blockClass b == 2).map fun b => fabricRows (l.records b).length).foldl (· + ·) 0

/-- Load and arm the fabric blocks (R386): `line` is the line of the first image, counted from the cluster code's first line,
where the link in `s31` points to lane 2. -/
def fabricStart : List (Nat × Nat × List Byte) → Nat → Nat → List Item
  | [], _, _ => []
  | (i, tiles, image) :: rest, sec, line =>
    let r (a b : Nat) : RFmt := { d := 0, a := a, b := b, ng := 0, fn := 0, g := 0, ta := 0, tb := 0 }
    let code := constant 26 (32 * line - 2) ++ [.add { r 26 31 with d := 26 }, .limm { d := 28, hw := 0, rsv := 0, imm := sec },
      .fcfg (r 26 28)] ++ constant 26 tiles ++ [.farm (r 28 26)]
    code.map (fun x => { sid := 1, instr := x, block := i, ins := 0 }) ++ fabricStart rest (sec + 1) (line + imageLineCount image)

/-- Wait for the fabric blocks (R242, R386). -/
def fabricEnd (n : Nat) : List Item :=
  (List.range n).flatMap fun sec =>
    [{ sid := 1, instr := .limm { d := 28, hw := 0, rsv := 0, imm := sec }, block := 0, ins := 0 },
     { sid := 1, instr := .fwait { d := 0, a := 28, b := 0, ng := 0, fn := 0, g := 0, ta := 0, tb := 0 }, block := 0, ins := 0 }]

/-! ### Lines (R158, R161-R163) -/

def Item.lanes (cox : Bool) (i : Item) : Nat := if !cox && i.sid == 2 then 2 else 1

/-- Where the items of a function stand, as 8 × line + lane, in ascending lanes. -/
def placesFrom (cox : Bool) : Nat → List Item → List Nat
  | _, [] => []
  | p, i :: t =>
    let n := i.lanes cox
    let q := if p % 8 + n ≤ 8 then p else (p / 8 + 1) * 8 + 1
    q :: placesFrom cox (if q % 8 + n ≤ 7 then q + n else (q / 8 + 1) * 8 + 1) t

/-- An instruction with its branch or its loop's end filled in (R165, R219, R233): lines are counted from its own. -/
def aimed (cox : Bool) (items : List Item) (places : List Nat) (here : Nat) (i : Item) : Instr :=
  match i.jump with
  | none => i.instr
  | some n =>
    let there := places.getD n here
    let last := there % 8 + (items.getD n i).lanes cox - 1
    match i.instr with
    | .bc o => .bc { o with lane := there % 8, disp := (there / 8 + 2 ^ 18 - here / 8) % 2 ^ 18 }
    | .loop o => .loop { o with elane := last, len := there / 8 - here / 8 }
    | .loopq o => .loopq { o with elane := last, len := there / 8 - here / 8 }
    | j => j

/-- A lane of code: its place, its nibble, its word, and the virtual instruction. -/
structure Lane where
  place : Nat
  nibble : Nat
  word : Nat
  block : Nat
  ins : Nat
  deriving DecidableEq, Repr, Inhabited

/-- The lanes of an item at a place; every first lane carries BT. -/
def itemLanes (cox : Bool) (place : Nat) (i : Item) (instr : Instr) : Option (List Lane) :=
  match encode instr with
  | some (w :: ws) =>
    if !instr.wf then none
    else
      let lane (k nibble w : Nat) : Lane := { place := place + k, nibble := nibble, word := w, block := i.block, ins := i.ins }
      some (lane 0 (i.sid + 8) w :: if !cox && i.sid == 2 then [lane 1 2 (ws.headD 0)] else [])
  | _ => none

def allLanes (cox : Bool) (items : List Item) (places : List Nat) : List (Nat × Item) → Option (List Lane)
  | [] => some []
  | (place, i) :: t =>
    match itemLanes cox place i (aimed cox items places place i), allLanes cox items places t with
    | some a, some b => some (a ++ b)
    | _, _ => none

/-- The lanes of a function whose first lane is lane 1 of line `first`; none where a branch or a loop is too long. -/
def functionLanes (cox : Bool) (first : Nat) (items : List Item) : Option (List Lane) :=
  let places := placesFrom cox (8 * first + 1) items
  allLanes cox items places (places.zip items)

/-- The first line of a fetch block after some lanes (R163). -/
def blockAfter (lanes : List Lane) : Nat := (lanes.foldl (fun n x => max n (x.place / 8 + 1)) 0 + 3) / 4 * 4

/-- `n` lines of code from line `first` on, with ENTRY at some of them. -/
def codeLines (cox : Bool) (entries : List Nat) (lanes : List Lane) : Nat → Nat → List Byte
  | _, 0 => []
  | first, n + 1 =>
    let here := lanes.takeWhile fun x => x.place / 8 == first
    let head := here.foldl (fun h x => h + x.nibble * 2 ^ (4 * (x.place % 8)))
      ((if cox then 0 else 1) + if entries.contains first then 8 else 0)
    let word (k : Nat) : Nat := ((here.find? fun x => x.place % 8 == k).map (·.word)).getD 0
    leBytes 4 head ++ ((List.range 7).flatMap fun k => leBytes 4 (word (k + 1))) ++
      codeLines cox entries (lanes.drop here.length) (first + 1) n

/-- The line map (R394, R490): a record for each lane, header words among them; instructions count from 1, and 0 stands for the
translation's own (log 103). -/
def mapRecords (lanes : List Lane) (shift : Nat) : Nat → Nat → List Byte
  | _, 0 => []
  | first, n + 1 =>
    let here := lanes.takeWhile fun x => x.place + shift == first
    leBytes 8 (here.foldl (fun _ x => x.block * 2 ^ 16 + x.ins) 0) ++ mapRecords (lanes.drop here.length) shift (first + 1) n

/-! ### The translation -/

/-- The code of the access entry: the class 0 blocks, and the end of the access code (R222, R386). -/
def accessItems (l : Lodor) : Option (List Item) :=
  (blocksCode l 0 none (List.range l.nblk) {} []).map fun code =>
    code ++ [{ sid := 1, instr := .ret { d := 0, a := 31, b := 0, ng := 0, fn := 0, g := 0, ta := 0, tb := 0 }, block := 0, ins := 0 }]

/-- The code of the cluster entry: fabric blocks are loaded and armed, the class 1 blocks follow, and STOP once every fabric block
has ended (R386). -/
def clusterItems (l : Lodor) (sp : Option Nat) (fabrics : List (Nat × Nat × List Byte)) (images : Nat) : Option (List Item) :=
  let start := fabricStart fabrics 0 images
  (blocksCode l 1 sp (List.range l.nblk) {} start).map fun code =>
    code ++ fabricEnd fabrics.length ++
      [{ sid := 1, instr := .stop { d := 0, a := 0, b := 0, ng := 0, fn := 0, g := 0, ta := 0, tb := 0 }, block := 0, ins := 0 }]

/-- The call that leaves the address of the cluster code in `s31`: to the next fetch block, where the code goes on. -/
def callLanes : List Lane :=
  (functionLanes false 0 [{ sid := 1, instr := .call { g := 0, n := 0, lane := 1, disp := 4 }, block := 0, ins := 0 }]).getD []

/-- The lanes of the cluster code, from its own line 0, and their number of lines. The images stand after it, at a line that does
not change the length of the code. A code that needs its own address begins with the call (`linked`). -/
def clusterLanes (l : Lodor) (sp : Option Nat) (linked : Bool) (fabrics : List (Nat × Nat × List Byte)) : Option (List Lane × Nat) :=
  let lanes (images : Nat) : Option (List Lane) :=
    (clusterItems l sp fabrics images).bind fun items => (functionLanes false (if linked then 4 else 0) items).map fun x =>
      if linked then callLanes ++ x else x
  match lanes 0 with
  | none => none
  | some x => (lanes (blockAfter x)).map fun y => (y, blockAfter x)

/-- What Chervil makes of a section: its window's data page, code lines and line map, the entries from the first code line on, the
queues, and whether it spills. -/
structure Translation where
  data : List Byte
  lines : List Byte
  lineMap : List Byte
  centLine : Nat
  qcfg : List (Nat × Nat)
  spill : Bool
  deriving DecidableEq, Repr, Inhabited

/-- Chervil's answer by its own analysis: a refusal with reason 8 or 9, or a translation. -/
inductive Chervil where
  | refused (why : Nat)
  | done (t : Translation)
  deriving DecidableEq, Repr, Inhabited

/-- The window of a section whose access code has the given lanes, with spills or without; none where its values do not fit, the
code is too long, or a branch is (R490). The line map has room for 1,024 lines. -/
def assemble (l : Lodor) (fabrics : List (Nat × Nat × List Byte)) (a : List Lane) (spad : Nat) (spill : Bool) : Option Translation :=
  let cent := blockAfter a
  let linked := spill || !fabrics.isEmpty
  let sp := if spill then some (0x10000 + 32 * cent + 2) else none
  (clusterLanes l sp linked fabrics).bind fun (c, lines) =>
    let images := fabrics.flatMap fun f => imageCode (imageLineCount f.2.2) f.2.2
    if 1024 < cent + lines ∨ 0xE0000 < 32 * (cent + lines) + images.length then none
    else some {
      data := if spill then (List.range maxCells).flatMap (cellDesc spad) else []
      lines := codeLines true [0] a 0 cent ++ codeLines false (if linked then [0, 4] else [0]) c 0 lines ++ images
      lineMap := mapRecords a 0 0 (8 * cent) ++ mapRecords c (8 * cent) (8 * cent) (8 * lines)
      centLine := cent
      qcfg := ((List.range l.nedge).map fun n => (n, edgeCfg (l.edgeAt n))) ++ if spill then spillQueues else []
      spill := spill }

/-- Translate a section whose records are sound, for a crew with a number of sections and its card's banks (R386, R392, R396). It
spills only where it cannot do without, and where it cannot spill either, resources are exceeded. -/
def chervil (sect : List Byte) (sections spad : Nat) : Chervil :=
  let l : Lodor := { b := sect }
  let fabrics := fabricBlocks l (List.range l.nblk) 0
  if sections < fabrics.length ∨ 64 < fabricHeight l then .refused 8
  else if fabrics.any (fun f => imageRefused f.2.2) then .refused 9
  else
    match (accessItems l).bind (functionLanes true 0) with
    | none => .refused 8
    | some a =>
      let plain := assemble l fabrics a spad false
      match if plain.isNone && spad < 10 && spillsOk l then assemble l fabrics a spad true else plain with
      | some t => .done t
      | none => .refused 8

end Sys2Proof.Machine
end

