-- ==== Sys2Proof/Machine/Crypto.lean ====
section
/-! DEFINITION. The cryptographic functions that R486, R488 and R497 name, as their standards define them (PRESUMED, log 10):
SHA-2, HKDF, AES-256-GCM, RSASSA-PSS with 3,072-bit keys, and SLH-DSA-SHA2-192s. -/

namespace Sys2Proof.Machine

/-- Big-endian bytes of a number, and back. -/
def beBytes (n v : Nat) : List Byte := (List.range n).map fun i => BitVec.ofNat 8 (v / 2 ^ (8 * (n - 1 - i)))
def beNat (l : List Byte) : Nat := l.foldl (fun v b => v * 256 + b.toNat) 0

def xorBytes (a b : List Byte) : List Byte := List.zipWith (fun x y => x ^^^ y) a b

/-- Pieces of a list, `n` elements each. -/
def pieces {α : Type} (n : Nat) : Nat → List α → List (List α)
  | 0, _ => []
  | k + 1, l => if l.isEmpty then [] else l.take n :: pieces n k (l.drop n)

/-! ### SHA-2 (FIPS 180-4) -/

/-- The whole part of the `k`-th root of a number below 2^(k × bits). -/
def rootOf (k n : Nat) : Nat → Nat → Nat
  | 0, r => r
  | b + 1, r => rootOf k n b (if (r + 2 ^ b) ^ k ≤ n then r + 2 ^ b else r)

/-- The first 80 primes. -/
def firstPrimes : List Nat := (List.range 410).filter fun n =>
  2 ≤ n && (List.range n).all fun d => d < 2 || 20 < d || n % d != 0

/-- The first 64 bits of the fractional part of a root of a prime. -/
def rootWord (k p : Nat) : Nat := rootOf k (p * 2 ^ (64 * k)) 68 0 % 2 ^ 64

/-- What tells the members of the family apart: word width, bytes of a block, rounds, rotations, start values. -/
structure Sha2 where
  width : Nat
  block : Nat
  rounds : Nat
  /-- Σ0, Σ1: three rotations; σ0, σ1: two rotations and a shift -/
  big0 : Nat × Nat × Nat
  big1 : Nat × Nat × Nat
  small0 : Nat × Nat × Nat
  small1 : Nat × Nat × Nat
  init : List Nat

def sha256Of : Sha2 :=
  { width := 32, block := 64, rounds := 64, big0 := (2, 13, 22), big1 := (6, 11, 25), small0 := (7, 18, 3), small1 := (17, 19, 10)
    init := (firstPrimes.take 8).map fun p => rootWord 2 p / 2 ^ 32 }

def sha512Of : Sha2 :=
  { width := 64, block := 128, rounds := 80, big0 := (28, 34, 39), big1 := (14, 18, 41), small0 := (1, 8, 7), small1 := (19, 61, 6)
    init := (firstPrimes.take 8).map (rootWord 2) }

def sha384Of : Sha2 := { sha512Of with init := ((firstPrimes.drop 8).take 8).map (rootWord 2) }

namespace Sha2

def rotr (h : Sha2) (x n : Nat) : Nat := (x / 2 ^ n + x * 2 ^ (h.width - n)) % 2 ^ h.width
def add (h : Sha2) (l : List Nat) : Nat := l.foldl (· + ·) 0 % 2 ^ h.width
def bigSigma (h : Sha2) (r : Nat × Nat × Nat) (x : Nat) : Nat := h.rotr x r.1 ^^^ h.rotr x r.2.1 ^^^ h.rotr x r.2.2
def smallSigma (h : Sha2) (r : Nat × Nat × Nat) (x : Nat) : Nat := h.rotr x r.1 ^^^ h.rotr x r.2.1 ^^^ (x / 2 ^ r.2.2)

/-- The round constants. -/
def consts (h : Sha2) : List Nat := (firstPrimes.take h.rounds).map fun p => rootWord 3 p / 2 ^ (64 - h.width)

/-- The message schedule, from the last word back: the newest word is the first of the list. -/
def schedule (h : Sha2) : Nat → List Nat → List Nat
  | 0, l => l
  | n + 1, l =>
    let w (i : Nat) : Nat := l.getD (i - 1) 0
    schedule h n (h.add [h.smallSigma h.small1 (w 2), w 7, h.smallSigma h.small0 (w 15), w 16] :: l)

/-- One round over the eight working variables. -/
def round (h : Sha2) (v : List Nat) (k w : Nat) : List Nat :=
  let x (i : Nat) : Nat := v.getD i 0
  let ch := (x 4 &&& x 5) ^^^ ((2 ^ h.width - 1 - x 4) &&& x 6)
  let maj := (x 0 &&& x 1) ^^^ (x 0 &&& x 2) ^^^ (x 1 &&& x 2)
  let t := h.add [x 7, h.bigSigma h.big1 (x 4), ch, k, w]
  [h.add [t, h.bigSigma h.big0 (x 0), maj], x 0, x 1, x 2, h.add [x 3, t], x 4, x 5, x 6]

def compress (h : Sha2) (v : List Nat) (blk : List Byte) : List Nat :=
  let m := (pieces (h.width / 8) 16 blk).map beNat
  let ws := (h.schedule (h.rounds - 16) m.reverse).reverse
  let out := (h.consts.zip ws).foldl (fun v e => h.round v e.1 e.2) v
  List.zipWith (fun a b => h.add [a, b]) v out

/-- The digest, of eight words. -/
def digest (h : Sha2) (msg : List Byte) : List Byte :=
  let len := h.width / 4
  let pad := (2 * h.block - 1 - len - msg.length % h.block) % h.block
  let all := msg ++ [0x80] ++ List.replicate pad 0 ++ beBytes len (8 * msg.length)
  let v := (pieces h.block (all.length / h.block) all).foldl h.compress h.init
  v.flatMap (beBytes (h.width / 8))

end Sha2

@[irreducible] def sha256 (msg : List Byte) : List Byte := sha256Of.digest msg
@[irreducible] def sha512 (msg : List Byte) : List Byte := sha512Of.digest msg
@[irreducible] def sha384 (msg : List Byte) : List Byte := (sha384Of.digest msg).take 48

/-! ### HMAC and HKDF (RFC 2104, RFC 5869) -/

/-- HMAC with a hash of some block size. -/
def hmac (hash : List Byte → List Byte) (block : Nat) (key msg : List Byte) : List Byte :=
  let k := if block < key.length then hash key else key
  let pad := k ++ List.replicate (block - k.length) 0
  hash (pad.map (· ^^^ 0x5C) ++ hash (pad.map (· ^^^ 0x36) ++ msg))

/-- HKDF-SHA-384 with no salt: the first 32 bytes of its output. -/
def hkdf384 (key info : List Byte) : List Byte :=
  let mac := hmac sha384 128
  (mac (mac (List.replicate 48 0) key) (info ++ [1])).take 32

/-! ### AES-256-GCM (FIPS 197, SP 800-38D) -/

/-- Product in GF(2^8). -/
def gf8Mul (a b : Nat) : Nat :=
  (List.range 8).foldl (fun r i =>
    let r := r * 2
    let r := if 256 ≤ r then (r ^^^ 0x11B) else r
    if bit b (7 - i) then r ^^^ a else r) 0

/-- The substitution box: inverse, then the affine map. -/
def aesSub (x : Nat) : Nat :=
  let i := ((List.range 256).find? fun y => gf8Mul x y == 1).getD 0
  let rot (n : Nat) : Nat := (i * 2 ^ n) % 256 + i / 2 ^ (8 - n)
  i ^^^ rot 1 ^^^ rot 2 ^^^ rot 3 ^^^ rot 4 ^^^ 0x63

def aesTable : List Nat := (List.range 256).map aesSub

/-- Words of the expanded key, newest first. -/
def aesExpand (box : List Nat) : Nat → List (List Nat) → List (List Nat)
  | 0, l => l
  | n + 1, l =>
    let i := l.length
    let t := l.headD []
    let sub (w : List Nat) : List Nat := w.map fun b => box.getD b 0
    let rcon := (List.range (i / 8 - 1)).foldl (fun r _ => gf8Mul r 2) 1
    let t := if i % 8 = 0 then
        let r := sub (t.drop 1 ++ t.take 1)
        (r.headD 0 ^^^ rcon) :: r.drop 1
      else if i % 8 = 4 then sub t else t
    aesExpand box n (List.zipWith (· ^^^ ·) (l.getD 7 []) t :: l)

/-- Round keys of AES-256: 15 of 16 bytes. -/
def aesKeys (box : List Nat) (key : List Byte) : List (List Nat) :=
  let words := (aesExpand box 52 (pieces 4 8 (key.map (·.toNat))).reverse).reverse
  (pieces 4 15 words).map List.flatten

/-- Rows shift left by their number; bytes stand column by column. -/
def aesShift (st : List Nat) : List Nat := (List.range 16).map fun i => st.getD ((i + 4 * (i % 4)) % 16) 0

def aesMix (st : List Nat) : List Nat := (List.range 16).map fun i =>
  let c := i / 4 * 4
  let x (k : Nat) : Nat := st.getD (c + (i + k) % 4) 0
  gf8Mul (x 0) 2 ^^^ gf8Mul (x 1) 3 ^^^ x 2 ^^^ x 3

/-- Encrypt one block under round keys. -/
def aesBlock (box : List Nat) (keys : List (List Nat)) (blk : List Byte) : List Byte :=
  let addKey (st k : List Nat) : List Nat := List.zipWith (· ^^^ ·) st k
  let start := addKey (blk.map (·.toNat)) (keys.headD [])
  let sub (st : List Nat) : List Nat := aesShift (st.map fun b => box.getD b 0)
  let st := ((keys.drop 1).take 13).foldl (fun st k => addKey (aesMix (sub st)) k) start
  (addKey (sub st) (keys.getD 14 [])).map (BitVec.ofNat 8)

/-- Product in GF(2^128), bit 0 the most significant. -/
def gcmMul (x y : Nat) : Nat :=
  ((List.range 128).foldl (fun (z, v) i =>
    (if bit x (127 - i) then z ^^^ v else z, if v % 2 = 1 then v / 2 ^^^ 0xE1 * 2 ^ 120 else v / 2)) (0, y)).1

def ghash (h : Nat) (data : List Byte) : Nat :=
  (pieces 16 (data.length / 16 + 1) data).foldl (fun y b => gcmMul (y ^^^ beNat (b ++ List.replicate (16 - b.length) 0)) h) 0

/-- Counter-mode key stream from a counter block on, applied to data. -/
def gcmStream (box : List Nat) (keys : List (List Nat)) (nonce : List Byte) (data : List Byte) : List Byte :=
  ((pieces 16 (data.length / 16 + 1) data).zipIdx).flatMap fun e =>
    xorBytes e.1 (aesBlock box keys (nonce ++ beBytes 4 (e.2 + 2)))

/-- The authentication tag of a ciphertext with no additional data. -/
def gcmTag (box : List Nat) (keys : List (List Nat)) (nonce cipher : List Byte) : List Byte :=
  let h := beNat (aesBlock box keys (List.replicate 16 0))
  let pad := List.replicate ((16 - cipher.length % 16) % 16) 0
  let s := ghash h (cipher ++ pad ++ beBytes 8 0 ++ beBytes 8 (8 * cipher.length))
  xorBytes (beBytes 16 s) (aesBlock box keys (nonce ++ beBytes 4 1))

/-- Seal with AES-256-GCM: ciphertext and tag, under a 96-bit nonce. -/
@[irreducible] def gcmSeal (key nonce plain : List Byte) : List Byte × List Byte :=
  let box := aesTable
  let keys := aesKeys box key
  let c := gcmStream box keys nonce plain
  (c, gcmTag box keys nonce c)

/-- Open what was sealed; none where the tag fails. -/
@[irreducible] def gcmOpen (key nonce cipher tag : List Byte) : Option (List Byte) :=
  let box := aesTable
  let keys := aesKeys box key
  if gcmTag box keys nonce cipher = tag then some (gcmStream box keys nonce cipher) else none

/-! ### RSASSA-PSS with SHA-384 (RFC 8017), 3,072-bit keys -/

/-- `b` to the power of a number given by its low bits, modulo `n`. -/
def powMod (b n : Nat) : Nat → Nat → Nat
  | 0, _ => 1 % n
  | k + 1, e => let h := powMod b n k (e / 2)
    if e % 2 = 1 then h * h % n * b % n else h * h % n

/-- MGF1 with a hash. -/
def mgf1 (hash : List Byte → List Byte) (seed : List Byte) (n : Nat) : List Byte :=
  ((List.range n).flatMap fun i => if i * 32 < n then hash (seed ++ beBytes 4 i) else []).take n

/-- The masked data block and hash of an encoded message, its salt of 48 bytes. -/
def pssHash (mhash salt : List Byte) : List Byte := sha384 (List.replicate 8 0 ++ mhash ++ salt)

/-- EMSA-PSS encoding to 384 bytes, of which the top bit is clear. -/
def pssEncode (msg salt : List Byte) : List Byte :=
  let h := pssHash (sha384 msg) salt
  let db := List.replicate 286 0 ++ [1] ++ salt
  let masked := xorBytes db (mgf1 sha384 h 335)
  masked.mapIdx (fun i b => if i = 0 then b &&& 0x7F else b) ++ h ++ [0xBC]

def pssVerify (msg em : List Byte) : Bool :=
  let masked := em.take 335
  let h := (em.drop 335).take 48
  let db := (xorBytes masked (mgf1 sha384 h 335)).mapIdx fun i b => if i = 0 then b &&& 0x7F else b
  em.length == 384 && em.getLast? == some 0xBC && (masked.headD 0).toNat < 128 &&
  db.take 287 == List.replicate 286 0 ++ [1] && pssHash (sha384 msg) (db.drop 287) == h

/-- Verify an RSA-3072 signature of 384 bytes under a modulus, its exponent 65,537. -/
@[irreducible] def rsaVerify (modulus : Nat) (msg sig : List Byte) : Bool :=
  sig.length == 384 && beNat sig < modulus && pssVerify msg (beBytes 384 (powMod (beNat sig) modulus 17 65537))

/-- Sign with a private exponent. -/
@[irreducible] def rsaSign (modulus exponent : Nat) (msg salt : List Byte) : List Byte :=
  beBytes 384 (powMod (beNat (pssEncode msg salt)) modulus 3072 exponent)

/-! ### SLH-DSA-SHA2-192s (FIPS 205): n 24, h 63, d 7, h′ 9, a 14, k 17, w 16 -/

/-- A 32-byte address: layer, tree, type, and three words by type. -/
structure SlhAdr where
  layer : Nat := 0
  tree : Nat := 0
  type : Nat := 0
  pair : Nat := 0
  a : Nat := 0
  b : Nat := 0

/-- The compressed address of the SHA-2 sets: 22 bytes. -/
def SlhAdr.bytes (x : SlhAdr) : List Byte :=
  beBytes 1 x.layer ++ beBytes 8 x.tree ++ beBytes 1 x.type ++ beBytes 4 x.pair ++ beBytes 4 x.a ++ beBytes 4 x.b

namespace Slh

/-- `F` and `PRF` by SHA-256; `H` and `T` by SHA-512: 24 bytes of each. -/
def small (seed : List Byte) (x : SlhAdr) (m : List Byte) : List Byte :=
  (sha256 (seed ++ List.replicate 40 0 ++ x.bytes ++ m)).take 24
def large (seed : List Byte) (x : SlhAdr) (m : List Byte) : List Byte :=
  (sha512 (seed ++ List.replicate 104 0 ++ x.bytes ++ m)).take 24

/-- The digest of a message: 39 bytes. -/
def hMsg (r seed root msg : List Byte) : List Byte := mgf1 sha512 (r ++ seed ++ sha512 (r ++ seed ++ root ++ msg)) 39

/-- `n` digits of `w` bits each, most significant first. -/
def digits (n w v : Nat) : List Nat := (List.range n).map fun i => v / 2 ^ (w * (n - 1 - i)) % 2 ^ w

/-- A chain from step `i` on, of so many steps. -/
def chain (seed : List Byte) (x : SlhAdr) (i : Nat) : Nat → List Byte → List Byte
  | 0, m => m
  | n + 1, m => chain seed x (i + 1) n (small seed { x with b := i } m)

/-- The 51 digits that a WOTS+ signature signs: the message's, then its checksum's. -/
def wotsDigits (m : List Byte) : List Nat :=
  let d := digits 48 4 (beNat m)
  d ++ digits 3 4 (d.foldl (fun s v => s + (15 - v)) 0)

/-- The public key of a WOTS+ signature over a message. -/
def wotsKey (seed : List Byte) (x : SlhAdr) (sig : List (List Byte)) (m : List Byte) : List Byte :=
  let ends := ((wotsDigits m).zip sig).zipIdx.map fun e => chain seed { x with type := 0, a := e.2 } e.1.1 (15 - e.1.1) e.1.2
  large seed { x with type := 1, a := 0, b := 0 } ends.flatten

/-- Climb an authentication path: the root above a node of an index at a height. -/
def climb (seed : List Byte) (x : SlhAdr) : Nat → Nat → List (List Byte) → List Byte → List Byte
  | _, _, [], node => node
  | h, i, p :: t, node =>
    let up := large seed { x with a := h + 1, b := i / 2 } (if i % 2 = 0 then node ++ p else p ++ node)
    climb seed x (h + 1) (i / 2) t up

/-- The root of a layer's tree from its signature: WOTS+ then the path of 9. -/
def xmssRoot (seed : List Byte) (layer tree leaf : Nat) (sig : List (List Byte)) (m : List Byte) : List Byte :=
  let x : SlhAdr := { layer := layer, tree := tree, pair := leaf }
  climb seed { x with type := 2, pair := 0 } 0 leaf ((sig.drop 51).take 9) (wotsKey seed x (sig.take 51) m)

/-- The root of the hypertree over its layers from one on. -/
def hyperRoot (seed : List Byte) : Nat → Nat → Nat → Nat → List (List Byte) → List Byte → List Byte
  | 0, _, _, _, _, m => m
  | n + 1, layer, tree, leaf, sig, m =>
    hyperRoot seed n (layer + 1) (tree / 512) (tree % 512) (sig.drop 60) (xmssRoot seed layer tree leaf (sig.take 60) m)

/-- The FORS public key: 17 trees of height 14, each signature a secret and its path. -/
def forsKey (seed : List Byte) (x : SlhAdr) (sig : List (List Byte)) (md : List Nat) : List Byte :=
  let roots := md.zipIdx.map fun e =>
    let part := (sig.drop (15 * e.2)).take 15
    let i := e.2 * 2 ^ 14 + e.1
    climb seed x 0 i (part.drop 1) (small seed { x with a := 0, b := i } (part.headD []))
  large seed { x with type := 4, a := 0, b := 0 } roots.flatten

/-- What a digest selects: the FORS leaves, the tree and the leaf of the bottom layer. -/
def select (d : List Byte) : List Nat × Nat × Nat :=
  (digits 17 14 (beNat (d.take 30) / 4), beNat ((d.drop 30).take 7) % 2 ^ 54, beNat (d.drop 37) % 512)

/-- The FORS trees' address: their type is 3 and their pair the leaf above them. -/
def forsAdr (tree leaf : Nat) : SlhAdr := { tree := tree, type := 3, pair := leaf }

/-- The message as `slh_sign` prefixes it, with an empty context string. -/
def framed (msg : List Byte) : List Byte := [0, 0] ++ msg

end Slh

/-- Verify a 16,224-byte SLH-DSA-SHA2-192s signature under a public key of 48 bytes. -/
@[irreducible] def slhVerify (key msg sig : List Byte) : Bool :=
  let seed := key.take 24
  let root := (key.drop 24).take 24
  let parts := pieces 24 676 sig
  let (md, tree, leaf) := Slh.select (Slh.hMsg (parts.headD []) seed root (Slh.framed msg))
  let fors := Slh.forsKey seed (Slh.forsAdr tree leaf) ((parts.drop 1).take 255) md
  sig.length == 16224 && Slh.hyperRoot seed 7 0 tree leaf (parts.drop 256) fors == root

namespace Slh

/-- A node of a tree at a height, from its leaves. -/
def node (seed : List Byte) (x : SlhAdr) (leafOf : Nat → List Byte) : Nat → Nat → List Byte
  | 0, i => leafOf i
  | h + 1, i =>
    large seed { x with a := h + 1, b := i } (node seed x leafOf h (2 * i) ++ node seed x leafOf h (2 * i + 1))

/-- The path of a leaf up to a height. -/
def path (seed : List Byte) (x : SlhAdr) (leafOf : Nat → List Byte) (h i : Nat) : List (List Byte) :=
  (List.range h).map fun j => node seed x leafOf j ((i / 2 ^ j) ^^^ 1)

/-- A WOTS+ secret: `PRF` of its address. -/
def wotsSecret (seed sk : List Byte) (x : SlhAdr) (i : Nat) : List Byte := small seed { x with type := 5, a := i, b := 0 } sk

/-- A layer's leaf: the WOTS+ public key. -/
def xmssLeaf (seed sk : List Byte) (layer tree leaf : Nat) : List Byte :=
  let x : SlhAdr := { layer := layer, tree := tree, pair := leaf }
  let ends := (List.range 51).map fun i => chain seed { x with a := i } 0 15 (wotsSecret seed sk x i)
  large seed { x with type := 1, a := 0, b := 0 } ends.flatten

/-- A layer's signature: 51 chain values and the path. -/
def xmssSign (seed sk : List Byte) (layer tree leaf : Nat) (m : List Byte) : List (List Byte) :=
  let x : SlhAdr := { layer := layer, tree := tree, pair := leaf }
  ((wotsDigits m).zipIdx.map fun e => chain seed { x with a := e.2 } 0 e.1 (wotsSecret seed sk x e.2)) ++
    path seed { x with type := 2, pair := 0 } (xmssLeaf seed sk layer tree) 9 leaf

def hyperSign (seed sk : List Byte) : Nat → Nat → Nat → Nat → List Byte → List (List Byte)
  | 0, _, _, _, _ => []
  | n + 1, layer, tree, leaf, m =>
    let sig := xmssSign seed sk layer tree leaf m
    sig ++ hyperSign seed sk n (layer + 1) (tree / 512) (tree % 512) (xmssRoot seed layer tree leaf sig m)

def forsSecret (seed sk : List Byte) (x : SlhAdr) (i : Nat) : List Byte := small seed { x with type := 6, a := 0, b := i } sk

def forsSign (seed sk : List Byte) (x : SlhAdr) (md : List Nat) : List (List Byte) :=
  md.zipIdx.flatMap fun e =>
    let i := e.2 * 2 ^ 14 + e.1
    let leafOf (j : Nat) : List Byte := small seed { x with a := 0, b := j } (forsSecret seed sk x j)
    forsSecret seed sk x i :: (List.range 14).map fun j => node seed x leafOf j ((i / 2 ^ j) ^^^ 1)

end Slh

/-- Sign with a private key of 96 bytes (secret seed, PRF key, public seed, root) and 24 random bytes. -/
@[irreducible] def slhSign (key msg random : List Byte) : List Byte :=
  let sk := key.take 24
  let prf := (key.drop 24).take 24
  let seed := (key.drop 48).take 24
  let root := (key.drop 72).take 24
  let r := (hmac sha512 128 prf (random ++ Slh.framed msg)).take 24
  let (md, tree, leaf) := Slh.select (Slh.hMsg r seed root (Slh.framed msg))
  let x := Slh.forsAdr tree leaf
  let fors := Slh.forsSign seed sk x md
  (r :: fors ++ Slh.hyperSign seed sk 7 0 tree leaf (Slh.forsKey seed x fors md)).flatten

end Sys2Proof.Machine
end

