-- ==== Sys2Proof/Machine/Graph.lean ====
section
/-! DEFINITION. Launch records, kernel graphs, job cards and code objects as the graph sequencer checks them at acceptance
(R28-R30, R362-R368, R372, R380, R457, R485-R490). -/

namespace Sys2Proof.Machine

/-! ### Refusals (R368) -/

/-- A launch is refused: status and COUNT. -/
def refuse {α} (status : Nat) (count : Nat := 0) : M α := endStatus (status + count * 256)

/-- Bytes the graph sequencer reads for a launch; a refusal where it cannot. -/
def graphRead (ctx va n status count : Nat) : M (List Byte) := do
  match ← hubLoad ctx va n with
  | some b => return b
  | none => refuse status count

/-! ### The record (R365, R366) -/

def recNlev (r : List Byte) : Nat := fieldAt r 2 1
def recFlags (r : List Byte) : Nat := fieldAt r 3 1
def recGang (r : List Byte) : Bool := bit (recFlags r) 3
def recGraph (r : List Byte) : Nat := fieldAt r 8 8
def recReply (r : List Byte) : Nat := fieldAt r 0x10 8
def recCntr (r : List Byte) : Nat := fieldAt r 0x18 8
def recLevel (r : List Byte) (i : Nat) : Nat := fieldAt r (0x20 + 4 * i) 4

/-- Version, reserved fields and alignments of a record (R365, R366). -/
def recordBad (r : List Byte) : Bool :=
  let level (i : Nat) : Bool :=
    let w := recLevel r i
    if i < recNlev r then bits w 31 23 != 0 || bit w 19 else w != 0
  fieldAt r 0 2 != 1 || 16 ≤ recFlags r || 16 ≤ fieldAt r 4 1 || fieldAt r 5 3 != 0 ||
  recGraph r % 1024 != 0 || recReply r % 16 != 0 || recCntr r % (if recGang r then 64 else 8) != 0 ||
  (List.range 8).any level

/-- A record whose level count is 0 or above 8 is refused with LEVEL_BAD as R29 says, or with GRAPH_BAD as R368 says: which is
free (log 102). -/
def checkCount (r : List Byte) : M Unit := do
  if recNlev r = 0 ∨ 8 < recNlev r then
    let k ← pick 0 1
    refuse (if k = 0 then 32 else 35)

/-- The levels of a record. -/
def recLevels (r : List Byte) : List Level := (List.range (recNlev r)).map fun i =>
  let w := recLevel r i
  { count := bits w 15 0, domain := bits w 18 16, scope := bits w 22 20 }

/-- The levels up to and with the crew level, from the outermost. -/
def outerLevels (l : List Level) : List Level := l.takeWhile (·.domain != 1)

/-- A crew's sections (R241): the members of the section levels, multiplied. -/
def sectionCountOf (l : List Level) : Nat := ((l.filter (·.domain == 0)).map (·.count)).foldl (· * ·) 1

/-- Index of the crew level. -/
def crewLevel (l : List Level) : Nat := (outerLevels l).length

/-- Level `i` keeps the rules of R28, R29 and R367; `nmem` is the number of a gang's members (R380). -/
def levelOk (ls : List Level) (nmem : Option Nat) (i : Nat) : Bool :=
  let l := ls.getD i default
  let up := ls.getD (i - 1) default
  let c := crewLevel ls
  l.count != 0 && l.domain < 6 && l.scope < 7 &&
  (if i < c then 2 ≤ l.domain else if i = c then l.domain == 1 else l.domain == 0) &&
  (i == 0 || (l.domain ≤ up.domain && l.scope ≤ up.scope)) &&
  (l.domain < l.scope || (l.domain == 0 && l.scope == 0)) &&
  ((ls.take (i + 1)).filter (·.domain == 0)).foldl (fun n x => n * x.count) 1 ≤ 64 &&
  (match nmem with
   | some n => if i = 0 then l.domain == 3 && l.count == n else l.domain < 3 || l.count == 1
   | none => l.domain < 3 || l.count == 1)

/-- Check the levels; where the one rule broken is that there is a crew level, which index is given is free (log 22). -/
def checkLevels (ls : List Level) (nmem : Option Nat) : M Unit := do
  match (List.range ls.length).find? fun i => !levelOk ls nmem i with
  | some i => refuse 32 i
  | none =>
    if crewLevel ls < ls.length then return ()
    let i ← pick 0 (ls.length - 1)
    refuse 32 i

/-! ### Job cards (R363, R364) -/

namespace Card

def level (c : Card) : Nat := fieldAt c.bytes 2 1 % 8
def banks (c : Card) : Nat := fieldAt c.bytes 3 1
def nfp (c : Card) : Nat := fieldAt c.bytes 4 1
def nsucc (c : Card) : Nat := fieldAt c.bytes 5 1
def variant (c : Card) : Nat := fieldAt c.bytes 6 2
def code (c : Card) : Nat := fieldAt c.bytes 8 8
def arg (c : Card) : Nat := fieldAt c.bytes 0x10 8
def openMask (c : Card) : Nat := fieldAt c.bytes 0x18 8
def succ (c : Card) (k : Nat) : Nat := fieldAt c.bytes (0x20 + 2 * k) 2
def image (c : Card) (n : Nat) : Nat := fieldAt c.bytes (0x100 + 4 * n) 4
def foot (c : Card) (f : Nat) : Footprint := Footprint.ofBytes ((c.bytes.drop (0x200 + 64 * f)).take 64)
def feet (c : Card) : List Footprint := (List.range c.nfp).map c.foot
/-- It has an arc to a card. -/
def arcTo (c : Card) (y : Nat) : Bool := (List.range c.nsucc).any fun k => c.succ k == y

/-- The card's own form (R364), queues and footprints apart. -/
def formBad (c : Card) (i ncard nlev crew : Nat) : Bool :=
  let arc (k : Nat) : Bool :=
    if k < c.nsucc then c.succ k ≤ i || ncard ≤ c.succ k else c.succ k != 0
  fieldAt c.bytes 0 2 != 1 || 8 ≤ fieldAt c.bytes 2 1 || nlev ≤ c.level || crew < c.level || 10 < c.banks || 8 < c.nfp ||
  16 < c.nsucc || (List.range 16).any arc || !zeroAt c.bytes 0x40 0xC0 ||
  !zeroAt c.bytes (0x200 + 64 * c.nfp) (512 - 64 * c.nfp)

/-- The queue images (R364, R134). -/
def queuesOk (c : Card) : Bool :=
  let opens := (List.range 64).filter (bit c.openMask)
  let shut := (List.range 64).filter fun n => !bit c.openMask n
  (shut.all fun n => c.image n == 0) && (c.variant != 0xFFFF || c.openMask == 0) &&
  (opens.all fun n => bit (c.image n) 31 && qcfgOk (BitVec.ofNat 32 (c.image n))) &&
  (opens.filter fun n => bit (c.image n) 28).length ≤ 1

end Card

/-- The descriptor of a TID as published; none where it cannot be read or fails R79. -/
def hubDesc (ctx tid : Nat) : M (Option Desc) := do
  if tid = 0 then return some .linear
  let s ← get
  match ← hubLoad ctx (((s.context ctx).tidTable.toNat + 64 * tid) % 2 ^ 64) 64 with
  | none => return none
  | some b => return if (Desc.ofBytes b).valid then some (Desc.ofBytes b) else none

/-- Whether a declared footprint is malformed (R213, R364); a failing descriptor refuses the node at dispatch (R80). -/
def footBad (ctx : Nat) (f : Footprint) : M Bool := do
  if !f.formOk then return true
  match ← hubDesc ctx f.tid with
  | none => return false
  | some d => return !f.fits d

def anyFootBad (ctx : Nat) : List Footprint → M Bool
  | [] => return false
  | f :: t => do
    let a ← footBad ctx f
    let b ← anyFootBad ctx t
    return a || b

/-- Read and check the card of an index. -/
def readCard (ctx graph i ncard nlev crew : Nat) : M Card := do
  let b ← graphRead ctx (graph + 1024 * (i + 1)) 1024 35 i
  let c : Card := { bytes := b }
  if c.formBad i ncard nlev crew then refuse 35 i
  if ← anyFootBad ctx c.feet then refuse 35 i
  return { c with
    spad := c.banks, lodor := c.variant == 0xFFFF
    qcfg := ((List.range 64).filter (bit c.openMask)).map fun n => (n, c.image n) }

def readCards (ctx graph ncard nlev crew : Nat) : List Nat → M (List Card)
  | [] => return []
  | i :: t => do
    let c ← readCard ctx graph i ncard nlev crew
    let rest ← readCards ctx graph ncard nlev crew t
    return c :: rest

def checkQueues : List (Nat × Card) → M Unit
  | [] => pure ()
  | (i, c) :: t => do
    if !c.queuesOk then refuse 34 i
    checkQueues t

/-! ### Code objects (R457, R485-R490) -/

/-- A code object's header. -/
structure ObjHead where
  b : List Byte
  deriving DecidableEq, Repr, Inhabited

namespace ObjHead

def nvar (h : ObjHead) : Nat := fieldAt h.b 6 1
def keyId (h : ObjHead) : Nat := fieldAt h.b 7 1
def size (h : ObjHead) : Nat := fieldAt h.b 8 4
def artOff (h : ObjHead) : Nat := fieldAt h.b 0xC 4
def lOff (h : ObjHead) : Nat := fieldAt h.b 0x10 4
def lSize (h : ObjHead) : Nat := fieldAt h.b 0x14 4
def vtab (h : ObjHead) : Nat := fieldAt h.b 0x18 4

/-- Sub-reason 1 for the header (R485, R487). -/
def ok (h : ObjHead) (code : Nat) : Bool :=
  code % 65536 == 0 && fieldAt h.b 0 4 == 0xCA1F0940 && fieldAt h.b 4 2 == 1 && h.nvar < 16 && h.keyId < 8 &&
  64 ≤ h.size && h.size % 64 == 0 && h.artOff % 65536 == 0 && h.size + 16608 ≤ h.artOff && zeroAt h.b 0x1C 36 &&
  h.lOff + h.lSize ≤ h.size && (h.lSize != 0 || h.lOff == 0) && h.vtab + 64 * h.nvar ≤ h.size

/-- Sub-reason 1 for a variant record. -/
def variantOk (h : ObjHead) (v : List Byte) : Bool :=
  let f (o : Nat) : Nat := fieldAt v o 4
  f 0x10 % 128 == 0 && f 0x14 % 128 == 0 && f 0x10 < h.size && f 0x14 < h.size && f 0x18 + f 0x1C ≤ h.size &&
  f 0x20 + f 0x24 ≤ h.size && zeroAt v 0x28 24

end ObjHead

/-- A code object refuses the launch: card, sub-reason, Chervil reason (R487). -/
def codeBad {α} (card sub : Nat) (why : Nat := 0) : M α := refuse 36 (card + why * 2 ^ 16 + sub * 2 ^ 24)

/-- The tenant of a context's partition. -/
def tenantOf (s : State) (ctx : Nat) : Option Nat := (s.partition (s.context ctx).part).tenant

/-- Management counter of entries of Chervil's cache whose tag failed (R488). -/
def cntTag : Nat := 20

/-- The key of a translation (R488): of the tenant, the object hash and the feature vector. -/
def cacheKey (tenant : Nat) (obj : List Byte) : List Byte :=
  sha384 (leBytes 4 tenant ++ sha384 obj ++ featureVector)

/-- The key a tenant's entries are sealed under (R488). -/
def tenantKey (tenant : Nat) : List Byte :=
  hkdf384 Config.deviceKey ([0x74, 0x65, 0x6E, 0x61, 0x6E, 0x74] ++ leBytes 4 tenant)

/-- Bytes that a tenant's entries take of its quota (log 91). -/
def cacheUsed (s : State) (tenant : Nat) : Nat :=
  (s.cache.filter fun e => e.tenant == tenant).foldl (fun n e => n + e.cipher.length) 0

/-- Evict entries of a tenant, one by one, until `n` bytes fit its quota; which goes first is free (R489). -/
def cacheRoom (tenant n : Nat) : Nat → State → State
  | 0, s => s
  | k + 1, s =>
    if cacheUsed s tenant + n ≤ s.quotas.getD tenant 0 then s
    else
      let own := s.cache.filter fun e => e.tenant == tenant
      let turn := s.evictions.getD tenant 0
      let out := own.getD (Config.cacheVictim tenant turn % own.length) default
      cacheRoom tenant n k { s with cache := s.cache.erase out, evictions := s.evictions.put tenant (turn + 1) 0 }

/-- Store a translation, sealed with a fresh nonce, where the tenant's quota can hold it (R488, R489). -/
def cacheStore (tenant : Nat) (key window : List Byte) : M Unit := do
  let nonce ← pick 0 (2 ^ 96 - 1)
  upd fun s =>
    let s := { s with cache := s.cache.filter fun e => !(e.tenant == tenant && e.key == key) }
    if s.quotas.getD tenant 0 < window.length then s
    else
      let s := cacheRoom tenant window.length s.cache.length s
      let (c, tag) := gcmSeal (tenantKey tenant) (beBytes 12 nonce) window
      { s with cache := s.cache ++ [{ tenant := tenant, key := key, nonce := beBytes 12 nonce, cipher := c, tag := tag }] }

/-- The artefact window of an object: a hit of the tenant's cache is opened, a miss is translated afresh and stored, and so is
an entry whose tag fails, which is counted (R488). -/
def cachedWindow (tenant : Nat) (obj fresh : List Byte) : M (List Byte) := do
  let s ← get
  let key := cacheKey tenant obj
  match s.cache.find? fun e => e.tenant == tenant && e.key == key with
  | none =>
    cacheStore tenant key fresh
    return fresh
  | some e =>
    match gcmOpen (tenantKey tenant) e.nonce e.cipher e.tag with
    | some window => return window
    | none =>
      upd (·.bump cntTag 1)
      cacheStore tenant key fresh
      return fresh

/-- What a card's code is once checked: the card with its entries and queues, its code pages, and a window to write. -/
structure Code where
  card : Card
  ranges : List (Nat × Nat)
  window : Option (Nat × List Byte)
  deriving DecidableEq, Repr, Inhabited

/-- Bytes of an object rounded up to whole 64 KiB pages. -/
def pagesOf (n : Nat) : Nat := (n + 65535) / 65536 * 65536

/-- A native variant (R485, R487). -/
def nativeCode (i : Nat) (c : Card) (h : ObjHead) (vs : List Byte) : M Code := do
  let v := (vs.drop (64 * c.variant)).take 64
  let lacks := (List.range 128).any fun n => bit (fieldAt v 0 16) n && 8 ≤ n
  if lacks then codeBad i 4
  let entry (o : Nat) : Word := BitVec.ofNat 64 (c.code + fieldAt v o 4 + 1)
  return { card := { c with aent := entry 0x10, cent := entry 0x14 }, ranges := [(c.code, pagesOf h.size)], window := none }

/-- `n` bytes: some given ones, then zeros. -/
def padBytes (n : Nat) (bs : List Byte) : List Byte := bs.take n ++ List.replicate (n - bs.length) 0

/-- The 1 MiB of an artefact window (R490): the data page, the native code lines, the line map. -/
def windowBytes (data lines lineMap : List Byte) : List Byte := padBytes 0x10000 data ++ padBytes 0xE0000 lines ++ padBytes 0x10000 lineMap

/-- What Chervil makes of a card's section: the window, the entries as offsets from CODE, the queues, and the spill bank. -/
structure Made where
  window : List Byte
  aent : Nat
  cent : Nat
  qcfg : List (Nat × Nat)
  spill : Bool
  deriving DecidableEq, Repr, Inhabited

/-- Chervil refuses a card's section, or translates it (R386-R396). Where several reasons hold, which one it gives is free. -/
def chervilMakes (i : Nat) (c : Card) (h : ObjHead) (sections : Nat) (obj : List Byte) : M Made := do
  let sect := (obj.drop h.lOff).take h.lSize
  let l := lodorReasons sect c.spad
  if !l.isEmpty then
    let k ← pick 0 (l.length - 1)
    codeBad i 6 (l.getD k 1)
  match chervil sect sections c.spad with
  | .refused why => codeBad i 6 why
  | .done x =>
    let at_ (line : Nat) : Nat := h.artOff + 0x10000 + 32 * line
    return { window := windowBytes x.data x.lines x.lineMap, aent := at_ 0, cent := at_ x.centLine, qcfg := x.qcfg, spill := x.spill }

/-- The Lodor form (R386, R392, R487, R488, R490). -/
def lodorCode (ctx i : Nat) (c : Card) (h : ObjHead) (tenant sections : Nat) (obj : List Byte) : M Code := do
  if h.lSize = 0 then codeBad i 5
  match ← hubParts ctx false (lineParts 1025 (c.code + h.artOff) 0x100000) with
  | none => codeBad i 6 8
  | some _ => pure ()
  let a ← chervilMakes i c h sections obj
  let window ← cachedWindow tenant obj a.window
  let entry (n : Nat) : Word := BitVec.ofNat 64 (c.code + n + 1)
  return {
    card := { c with aent := entry a.aent, cent := entry a.cent, qcfg := a.qcfg, spad := c.spad + if a.spill then 1 else 0 }
    ranges := [(c.code, pagesOf h.size), (c.code + h.artOff, 0x100000)]
    window := some (c.code + h.artOff, window) }

/-- Both signatures over the SHA-384 of some bytes verify (R486, R497): under an RSA modulus and an SLH-DSA public key. A registered
key is the modulus, 384 bytes with the most significant first, then the public key (log 10). -/
def signedBy (modulus : Nat) (key bytes rsa slh : List Byte) : Bool :=
  rsaVerify modulus (sha384 bytes) rsa && slhVerify key (sha384 bytes) slh

/-- Check the code object of a card (R487). -/
def checkCode (ctx sections i : Nat) (c : Card) : M Code := do
  let s ← get
  let hb ← graphRead ctx c.code 64 36 (i + 2 ^ 24)
  let h : ObjHead := { b := hb }
  if !h.ok c.code then codeBad i 1
  let vs ← graphRead ctx (c.code + h.vtab) (64 * h.nvar) 36 (i + 2 ^ 24)
  if !(List.range h.nvar).all (fun k => h.variantOk ((vs.drop (64 * k)).take 64)) then codeBad i 1
  let obj ← graphRead ctx c.code h.size 36 (i + 2 ^ 24)
  let sig ← graphRead ctx (c.code + h.size) 16608 36 (i + 2 * 2 ^ 24)
  match tenantOf s ctx with
  | none => codeBad i 2
  | some tenant =>
    match s.keys.find? (tenant * 8 + h.keyId) with
    | none => codeBad i 2
    | some key =>
      if !signedBy (beNat (key.take 384)) (key.drop 384) obj (sig.take 384) (sig.drop 384) then codeBad i 2
      if h.nvar ≤ c.variant && c.variant != 0xFFFF then codeBad i 3
      if c.variant = 0xFFFF then lodorCode ctx i c h tenant sections obj else nativeCode i c h vs

def checkCodes (ctx sections : Nat) : List (Nat × Card) → M (List Code)
  | [] => return []
  | (i, c) :: t => do
    let x ← checkCode ctx sections i c
    let rest ← checkCodes ctx sections t
    return x :: rest

/-- Translate and pin the code pages of a launch, X checked: a pin for each card's object (R164, R457). A window page that fails has sub-reason 6 and reason 8
(R490); R487 gives another page that fails no sub-reason, so which of the checks that read the object fails is free (log 23). -/
def pinCode (ctx id : Nat) : List (Nat × Code) → M (List Pin)
  | [] => return []
  | (i, x) :: t => do
    match ← walkRanges ctx 2 false true x.ranges with
    | .error e =>
      if x.window.any fun w => w.1 ≤ e.1 then codeBad i 6 8
      let sub ← pick 1 2
      codeBad i sub
    | .ok ls =>
      let h ← freshId
      let rest ← pinCode ctx id t
      return { handle := h, owner := .launch id i, ctx := ctx, ranges := x.ranges, w := false, leaves := ls } :: rest

/-- Chervil writes its windows by physical access (R490). -/
def writeWindows (ctx : Nat) : List Code → M Unit
  | [] => pure ()
  | x :: t => do
    match x.window with
    | none => pure ()
    | some (va, bs) =>
      match ← hubParts ctx false (lineParts (bs.length / 1024 + 2) va bs.length) with
      | some ps => hubWriteParts 4 ps bs
      | none => pure ()
    writeWindows ctx t

/-! ### A launch (R368) -/

/-- Index of cards. -/
def numbered {α} (l : List α) : List (Nat × α) := l.zipIdx.map fun e => (e.2, e.1)

/-- Check a launch in a context, and make it, with its code pinned: the record, its levels, the graph header and cards,
their queues, their code. -/
def makeLaunch (ctx : Nat) (r : List Byte) (nmem : Option Nat) : M (Nat × Launch) := do
  let ls := recLevels r
  checkLevels ls nmem
  let hd ← graphRead ctx (recGraph r) 1024 35 0
  let ncard := fieldAt hd 2 2
  if fieldAt hd 0 2 != 1 || ncard == 0 || 4095 < ncard || !zeroAt hd 4 1020 then refuse 35 0
  let cards ← readCards ctx (recGraph r) ncard ls.length (crewLevel ls) (List.range ncard)
  checkQueues (numbered cards)
  let codes ← checkCodes ctx (sectionCountOf ls) (numbered cards)
  let id ← freshId
  let pins ← pinCode ctx id (numbered codes)
  writeWindows ctx codes
  let s ← get
  upd fun s => { s with pins := s.pins ++ pins }
  return (id, {
    ctx := ctx, order := id, record := r, levels := ls, graph := recGraph r, reply := recReply r, cntr := recCntr r
    prio := min (recFlags r % 8) (s.context ctx).prioCeil.toNat, stream := fieldAt r 4 1, cards := codes.map (·.card) })

/-- A gang record (R380): the counter, the identifier and the members by rank. -/
structure GangRec where
  cntr : Nat
  id : Nat
  members : List (Nat × Nat)
  deriving DecidableEq, Repr, Inhabited

/-- Read and check the gang record of a leader. -/
def readGang (ctx va : Nat) : M GangRec := do
  let b ← graphRead ctx va 64 35 0
  let n := fieldAt b 0xC 4
  if fieldAt b 0 8 % 8 != 0 || !zeroAt b 0x18 40 || n < 2 || 400000 < n then refuse 35 0
  let e ← graphRead ctx (fieldAt b 0x10 8) (8 * n) 35 0
  let raw := (List.range n).map fun k => fieldAt e (8 * k) 8
  let ms := raw.map fun v => (bits v 19 0, bits v 47 32)
  if (raw.any fun v => bits v 31 20 != 0 || bits v 63 48 != 0) || !(ms.map (·.1)).Nodup ||
      !ms.contains (selfId, ctx) then refuse 35 0
  return { cntr := fieldAt b 0 8, id := fieldAt b 8 4, members := ms }

/-! ### Instances (R30, R372) -/

/-- Members of the levels of a card, as counts from L0 on. -/
def cardCounts (l : Launch) (c : Card) : List Nat := (l.levels.take (c.level + 1)).map (·.count)

/-- Instance indexes of a card on this package: all of them, or those of its own member of L0 in a gang (R381). -/
def instances (l : Launch) (c : Card) : List Nat :=
  let per := ((cardCounts l c).drop 1).foldl (· * ·) 1
  match l.gang with
  | .member _ rank _ _ _ => (List.range per).map (rank * per + ·)
  | _ => List.range (per * (cardCounts l c).headD 1)

/-- The member index of an instance at level `t` (R372). -/
def memberAt (l : Launch) (c : Card) (inst t : Nat) : Nat :=
  inst / ((cardCounts l c).drop (t + 1)).foldl (· * ·) 1 % (cardCounts l c).getD t 1

/-- The compute dies an instance may run on (R367): the die its member of a die level names. Of several die levels the
outermost places it, since no member of that level spans two dies (R31, log 24); every die where there is no die level. -/
def diesOf (l : Launch) (c : Card) (inst : Nat) : List Nat :=
  match (List.range (c.level + 1)).find? fun t => (l.levels.getD t default).domain == 2 with
  | none => [0, 1, 2, 3]
  | some t => [memberAt l c inst t % 4]

def instAt (l : Launch) (card inst : Nat) : InstState := l.insts.getD (instKey card inst) .waiting

/-- The scope of what is released and acquired on behalf of a launch (R500). -/
def launchScope (l : Launch) : Nat := max 4 (l.levels.headD default).scope

end Sys2Proof.Machine
end

