-- ==== Sys2Proof/Machine/Sched.lean ====
section
/-! DEFINITION. Readiness, the ready pool, placement, dispatch and its start state, completion of crews, quanta, ageing,
pre-emption, saves and restores (R25-R27, R80, R116, R131, R300, R367, R371-R373, R375, R438-R442). -/

namespace Sys2Proof.Machine

/-! ### Readiness (R131, R371, R375) -/

def footOf (f : Footprint) : Foot := { tid := f.tid, box := { lo := f.lo, hi := f.hi }, write := f.w }

/-- Two cards have declared footprints that overlap (R130). -/
def Card.clash (c d : Card) : Bool := c.feet.any fun a => d.feet.any fun b => (footOf a).clash (footOf b)

def isLeader (l : Launch) : Bool :=
  match l.gang with
  | .leader .. => true
  | _ => false

/-- Every instance of a card has completed and reported. -/
def cardDone (l : Launch) (i : Nat) (c : Card) : Bool :=
  !isLeader l && (instances l c).all fun n => instAt l i n == .reported

/-- Launches of the same context stream accepted before, not yet finished (R131, R370). -/
def earlierLaunches (s : State) (l : Launch) : List Launch :=
  (s.launches.map (·.2)).filter fun p => p.ctx == l.ctx && p.stream == l.stream && p.order < l.order && !p.finished

/-- The instances of a card may enter the pool. -/
def cardReady (s : State) (l : Launch) (y : Nat) (c : Card) : Bool :=
  ((numbered l.cards).all fun e => y ≤ e.1 || !(e.2.arcTo y || e.2.clash c) || cardDone l e.1 e.2) &&
  (earlierLaunches s l).all fun p => (numbered p.cards).all fun e => !e.2.clash c || cardDone p e.1 e.2

/-- A card whose instances have not yet entered the pool, of a launch that dispatches. -/
def cardFresh (l : Launch) (y : Nat) (c : Card) : Bool :=
  !isLeader l && !l.finished && l.stopped.isNone && (instances l c).all fun n => instAt l y n == .waiting

/-- Launch and card of every card that becomes ready now. -/
def newlyReady (s : State) : List (Nat × Nat) := s.launches.flatMap fun e =>
  ((numbered e.2.cards).filter fun c => cardFresh e.2 c.1 c.2 && cardReady s e.2 c.1 c.2).map fun c => (e.1, c.1)

/-- The instances of a card enter their partition's pool in ascending index (R371), at the launch's priority (R438). -/
def enterPool (id y : Nat) (s : State) : State :=
  match s.launches.find? id with
  | none => s
  | some l =>
    let c := l.cards.getD y default
    let ns := instances l c
    let x := s.context l.ctx
    let part := s.partition x.part
    let es := ns.map fun n => ({ launch := id, card := y, inst := n, ctx := l.ctx, level := min l.prio x.prioCeil.toNat } : PoolEntry)
    let insts := ns.foldl (fun t n => t.insert (instKey y n) InstState.ready) l.insts
    { s.setPartition x.part { part with pool := part.pool ++ es } with
      launches := s.launches.insert id { l with insts := insts } }

/-- Cards that become ready together enter in an order that is free (log 25). -/
def enterAll : Nat → List (Nat × Nat) → M Unit
  | 0, _ => pure ()
  | _, [] => pure ()
  | n + 1, l => do
    let i ← pick 0 (l.length - 1)
    match l[i]? with
    | none => pure ()
    | some e =>
      upd (enterPool e.1 e.2)
      enterAll n (l.eraseIdx i)

def refreshReady : M Unit := do
  let s ← get
  let l := newlyReady s
  enterAll l.length l

/-! ### Placement (R433, R438, R439) -/

/-- Some crew of another partition is still on a unit, by its cluster or its thread: the unit is not drained (R433). -/
def foreign (s : State) (part u : Nat) : Bool :=
  s.crews.any fun e => onUnit e.2 && (e.2.cl == u || e.2.thread / 32 == u) && (s.context e.2.ctx).part != part

/-- Banks, queue bytes and dies an entry needs, and whether it needs a new frame. -/
structure Need where
  ctx : Nat
  banks : Nat
  bytes : Nat
  dies : List Nat
  frame : Bool
  /-- sections loaded, whose floor entries stay reserved (R333) -/
  sections : List Section := []
  deriving DecidableEq, Repr, Inhabited

def cardBytes (c : Card) : Nat := c.qcfg.foldl (fun n q => n + qcfgBytes (BitVec.ofNat 32 q.2)) 0

def needOf (s : State) (e : PoolEntry) : Need :=
  match e.crew with
  | some c =>
    let k := s.crew c
    { ctx := k.ctx, banks := k.spad, bytes := openBytes k, dies := [k.cl / 16], frame := false
      sections := k.sections.map (·.2) }
  | none =>
    let l := s.launches.getD e.launch default
    let c := l.cards.getD e.card default
    { ctx := e.ctx, banks := c.spad, bytes := cardBytes c, dies := diesOf l c e.inst, frame := true }

def banksUsed (s : State) (cl : Nat) : Nat := (residents s cl).foldl (fun n c => n + (s.crew c).spad) 0

/-- The elements of a cluster's fabric have entries for the loaded sections of a crew to be restored (R36, R333). -/
def sectionsFit (s : State) (l : List Section) (cl : Nat) : Bool := l.all fun x => (List.range x.size).all fun el =>
  let p := x.place el
  let n := (l.map fun y => y.entriesAt p).foldl (· + ·) 0
  n == 0 || entriesUsed s cl p + n ≤ 32

/-- A cluster has room for a need (R438). -/
def unitFits (s : State) (part : Nat) (n : Need) (cl : Nat) : Bool :=
  let c := s.cluster cl
  (s.partition part).units.contains cl && !c.withdrawn && cl < 64 && n.dies.contains (cl / 16) && !foreign s part cl &&
  c.slots.length < 4 && banksUsed s cl + n.banks ≤ 10 && n.bytes ≤ queueRoom s cl &&
  sectionsFit s n.sections cl

/-- A free cox thread of a partition on a die. -/
def threadFits (s : State) (part die t : Nat) : Bool :=
  t < 2048 && t / 512 == die && (s.partition part).units.contains (t / 32) && !foreign s part (t / 32) &&
  !(s.cluster (t / 32)).withdrawn && (s.thread t).mode == .free

def dieHasThread (s : State) (part die : Nat) : Bool := (List.range 512).any fun i => threadFits s part die (die * 512 + i)

/-- A save frame of the context is free, where one is needed. -/
def frameFits (s : State) (n : Need) : Bool :=
  !n.frame || (s.context n.ctx).frames.length < (s.context n.ctx).saveSlots

def fitsOn (s : State) (part : Nat) (n : Need) (cl : Nat) : Bool :=
  unitFits s part n cl && frameFits s n && dieHasThread s part (cl / 16)

def placeable (s : State) (part : Nat) (e : PoolEntry) : Bool :=
  let n := needOf s e
  (s.partition part).units.any (fitsOn s part n)

/-- Rank of an entry within its level: one a crew was pre-empted for, then pre-empted crews, then the rest (R438, R441). -/
def PoolEntry.rank (e : PoolEntry) : Nat := if e.promised then 0 else if e.crew.isSome then 1 else 2

/-- Entry `j` is taken before entry `i` (R438). -/
def takenBefore (pool : List PoolEntry) (j i : Nat) : Bool :=
  let a := pool.getD j default
  let b := pool.getD i default
  b.level < a.level || (a.level == b.level && (a.rank < b.rank || (a.rank == b.rank && j < i)))

/-- The entry dispatch takes next: no entry that can be placed comes before it. -/
def isNext (s : State) (part i : Nat) : Bool :=
  let pool := (s.partition part).pool
  (List.range pool.length).all fun j => j == i || !takenBefore pool j i || !placeable s part (pool.getD j default)

def dropEntry (part i : Nat) (s : State) : State :=
  let p := s.partition part
  s.setPartition part { p with pool := p.pool.eraseIdx i }

/-! ### Dispatch (R80, R81, R98, R116, R373, R437, R439) -/

/-- The hardware writes a save frame's header, whose field places the manual does not give (log 26). -/
def writeHeader (ctx addr : Nat) : M Unit := do
  let b ← freeBytes 256
  hubStore ctx addr b

/-- An active message (R376). -/
structure Active where
  opc : Nat
  ctx : Nat
  seq : Nat
  reply : Nat
  tids : List Nat
  card : Nat
  arg : Nat
  inst : Nat
  deriving DecidableEq, Repr, Inhabited

/-- Its 64-byte packet (R376): unused TIDs and the reserved bytes are zero. -/
def Active.bytes (m : Active) : List Byte :=
  leBytes 1 m.opc ++ [0] ++ leBytes 2 m.ctx ++ leBytes 4 m.seq ++ leBytes 8 m.reply ++
    ((List.range 8).flatMap fun i => leBytes 2 (m.tids.getD i 0)) ++ leBytes 8 m.card ++ leBytes 8 m.arg ++ leBytes 4 m.inst ++
    List.replicate 12 0

/-- The message that starts a half of a crew, OPC 1 for the cluster half and 2 for the cox thread (R23, R376). Its reply address is
zero: a launch already accepted ends without a reply (R379, log 11). -/
def startMessage (opc id : Nat) (l : Launch) (e : PoolEntry) : Active :=
  let c := l.cards.getD e.card default
  { opc := opc, ctx := e.ctx, seq := id % 2 ^ 32, reply := 0, tids := c.feet.map (·.tid), card := l.graph + 1024 * (e.card + 1)
    arg := c.arg, inst := e.inst }

/-- Registers of a half at its start, from its start message (R373). -/
def startRegs (m : Active) (entry : Word) : Scalar :=
  let put (v : Scalar) (r n : Nat) : Scalar := v.write r (BitVec.ofNat 64 n)
  let v := put (put (put {} 1 m.inst) 2 m.arg) 3 m.card
  let v := (numbered m.tids).foldl (fun v e => put v (4 + e.1) e.2) v
  { v with pc := entry }

/-- A crew at its dispatch. -/
def newCrew (s : State) (id : Nat) (l : Launch) (e : PoolEntry) (cl slot t frame : Nat) : Crew :=
  let c := l.cards.getD e.card default
  let addr := l.graph + 1024 * (e.card + 1)
  { ctx := e.ctx, launch := e.launch, card := e.card, cardAddr := BitVec.ofNat 64 addr, cardBytes := c.bytes, inst := e.inst, cl := cl, born := cl, slot := slot
    thread := t, frame := frame, count := ((s.context e.ctx).frameCount.getD frame 0 + 1) % 2 ^ 32, level := e.level, order := id
    spad := c.spad, sc := startRegs (startMessage 1 id l e) c.cent, vctl := if c.lodor then 0xA0#32 else 0x20#32
    queues := c.qcfg.foldl (fun t q => t.insert q.1 ({ cfg := BitVec.ofNat 32 q.2 } : Queue)) []
    sectionCount := sectionCountOf l.levels, levelScope := (l.levels.getD c.level default).scope
    seen := (s.mem.log.filter fun w => w.pubs.any fun p => 4 ≤ p.scope).map (·.id) }

/-- Its cox thread (R373, R432). -/
def newThread (s : State) (id : Nat) (l : Launch) (e : PoolEntry) : Thread :=
  let c := l.cards.getD e.card default
  { mode := .bound, sc := startRegs (startMessage 2 id l e) c.aent, crew := some id, ctx := e.ctx
    level := if (s.context e.ctx).sys then 2 else 0 }

/-- A half of the crew begins: its view is fresh, it performs the dispatch acquire (R116), and it fetches from what it then sees
(R164). -/
def startAgent (o : Owner) (launch scope : Nat) (s : State) : State :=
  fenceNow (acquire (s.setView (agentOf o) { launch := some launch }) (agentOf o) scope) o

/-- Place a crew in a slot. -/
def occupy (cl slot c : Nat) (s : State) : State :=
  let v := s.cluster cl
  s.setCluster cl { v with slots := v.slots.insert slot c }

/-- A free slot of a cluster; which is free is unspecified. -/
def pickSlot (cl : Nat) : M Nat := do
  let s ← get
  let l := (List.range 4).filter fun i => ((s.cluster cl).slots.find? i).isNone
  let i ← pick 0 (l.length - 1)
  return l.getD i 0

/-- A free save frame of a context; which is free is unspecified. -/
def pickFrame (ctx : Nat) : M Nat := do
  let s ← get
  let x := s.context ctx
  let l := (List.range x.saveSlots).filter fun f => !x.frames.contains f
  let i ← pick 0 (l.length - 1)
  return l.getD i 0

def anyDescBad (ctx : Nat) : List Footprint → M Bool
  | [] => return false
  | f :: t => do
    let a ← hubDesc ctx f.tid
    let b ← anyDescBad ctx t
    return a.isNone || b

/-- Dispatch a node instance, or refuse its node where a declared TID fails (R80, R375). -/
def dispatchNode (part i : Nat) (e : PoolEntry) (l : Launch) (cl t : Nat) : M Unit := do
  let c := l.cards.getD e.card default
  if ← anyDescBad e.ctx c.feet then
    upd fun s => stopLaunch s e.launch 33
  else
    let slot ← pickSlot cl
    let frame ← pickFrame e.ctx
    let id ← freshId
    upd (dropEntry part i)
    upd fun s =>
      let k := newCrew s id l e cl slot t frame
      let x := s.context e.ctx
      let th := newThread s id l e
      let x' := { x with frames := addName x.frames frame, frameCount := x.frameCount.put frame k.count 0 }
      let s := occupy cl slot id (((s.setCrew id k).setThread t th).setContext e.ctx x')
      { s with launches := s.launches.insert e.launch { l with insts := l.insts.insert (instKey e.card e.inst) (.dispatched id) } }
    let s ← get
    writeHeader e.ctx (frameAddr s id)
    upd fun s => startAgent (.crew id) e.launch (launchScope l) (startAgent (.thread t) e.launch (launchScope l) s)

/-! ### Saves and restores (R300, R439, R440, R442) -/

/-- Where the thread state of a crew that has left its cluster is kept. -/
def storedThread (c : Nat) : Nat := 2 ^ 20 + c

def renameOwner (a b : Nat) (o : Owner) : Owner :=
  match o with
  | .thread t => if t = a then .thread b else o
  | .crew _ => o

/-- A thread's state, view and commands go under another number. -/
def renameThread (a b : Nat) (s : State) : State :=
  let th := s.thread a
  let cmd (c : Cmd) : Cmd := { c with issuer := renameOwner a b c.issuer }
  let cl (c : Cluster) : Cluster := { c with copyQ := c.copyQ.map cmd, indexQ := c.indexQ.map cmd }
  let crew (c : Crew) : Crew := { c with
    savedCE := c.savedCE.map cmd, savedIX := c.savedIX.map cmd, thread := if c.thread = a && onUnitOrAway c then b else c.thread }
  let view (e : Agent × View) : Agent × View := (if e.1 = .thread a then .thread b else e.1, follow e)
  { (s.setThread a {}).setThread b th with
    clusters := Tbl.mapVals cl s.clusters
    crews := Tbl.mapVals crew s.crews
    views := (s.views.filter fun e => decide (e.1 ≠ .thread b)).map view }
where
  onUnitOrAway (c : Crew) : Bool := c.stage != .gone
  /-- a command keeps apart what its issuer wrote after the issue (R125) -/
  follow (e : Agent × View) : View :=
    match e.1 with
    | .cmd id =>
      if e.2.issuer = some (.thread a) then
        let own := (s.mem.log ++ (s.view (.thread a)).pend).filter fun w => w.agent = .thread a && id < w.id
        { e.2 with issuer := some (.thread b), hidden := unionNames e.2.hidden (own.map (·.id)) }
      else e.2
    | _ => e.2

/-- The sequencer record (R440). -/
def seqRecord (k : Crew) : List Byte :=
  let loop (n : Nat) : List Byte :=
    let l := k.loops.getD n {}
    leBytes 8 ((if l.active then 1 else 0) + l.depth.toNat * 2 ^ 32) ++ leBytes 8 l.cnt.toNat ++ leBytes 8 l.start.toNat ++
      leBytes 8 l.stop.toNat
  ((List.range 32).flatMap fun n => leBytes 8 (k.sc.reg n).toNat) ++ leBytes 4 k.sc.full.toNat ++
    leBytes 1 (k.sc.preds ||| 1).toNat ++ leBytes 3 0 ++ leBytes 8 k.sc.pc.toNat ++ leBytes 4 k.sc.depth.toNat ++ leBytes 4 0 ++
    List.replicate 40 0 ++ (List.range 4).flatMap loop

/-- Write a save frame: the sequencer record as R440 gives it; the exception records stand; every other byte is free, since
no place in it is architectural (log 26). -/
def storeFrame (ctx addr : Nat) (k : Crew) : M Unit := do
  writeHeader ctx addr
  let b ← freeBytes 0x800
  hubStore ctx (addr + 0x200) b
  hubStore ctx (addr + 0xA00) (seqRecord k)
  let r ← freeBytes (0x900000 - 0xBC0)
  hubStore ctx (addr + 0xBC0) r

/-- The exception records of a frame hold what the crew's thread stored there: its writes to them are published as the frame is
saved (R439, R446). -/
def publishRecords (c : Nat) : M Unit := do
  let s ← get
  let k := s.crew c
  match ← hubParts k.ctx true (lineParts 3 (frameAddr s c + 0x100) 0x100) with
  | none => pure ()
  | some ps =>
    let inRecord (w : Write) : Bool := w.cells.any fun e => ps.any fun p => decide (p.1 ≤ e.1 ∧ e.1 < p.1 + p.2)
    upd fun s => publishIds s (.thread k.thread) 4 (((s.view (.thread k.thread)).pend.filter inRecord).map (·.id))

/-- A crew off its unit whose saved state holds a lasting error stops as by an unhandled exception (R446, R471): suspended, or
ended. -/
def stopStored (c : Nat) : M Unit := do
  let s ← get
  let k := s.crew c
  if (s.context k.ctx).dbgCtl then
    upd fun s => s.setCrew c { s.crew c with stage := .suspended, saveBad := false }
    event k.ctx 6 0 (handleOf k) 0 0
  else failCrew c 0

/-- The save of a halted crew ends: its sections rewind, its state leaves the unit, and it is suspended or enters the pool
at the level it held (R438, R442, R446). A lasting error that the save meets ends the crew (R471, R474). -/
def saveDone (c : Nat) (suspend : Bool) (cause : Nat) : M Unit := do
  let k := (← get).crew c
  if saveLost k then
    let bank ← pick 0 11
    let (unit, inst) := if k.saveBad then (7, k.cl) else (4, k.cl * 16 + bank)
    containReport k.ctx (handleOf k) 0 unit inst 1 2
    failCrew c 0
  else
  publishRecords c
  upd fun s => s.setCrew c (forgetRequests (rewindCrew (s.crew c)))
  upd fun s => leaveSlot (renameThread (s.crew c).thread (storedThread c) s) c
  let s ← get
  let k := s.crew c
  storeFrame k.ctx (frameAddr s c) k
  if suspend then
    upd fun s => s.setCrew c { s.crew c with stage := .suspended }
    event k.ctx 6 cause (handleOf k) 0 cause
  else
    upd fun s =>
      let s := s.setCrew c { s.crew c with stage := .evicted }
      let p := (s.context k.ctx).part
      let v := s.partition p
      s.setPartition p { v with pool := v.pool ++ [{ crew := some c, ctx := k.ctx, level := k.level }] }
  upd fun s => settleMove s c false
  reportMoves

def execSaveComplete (crew : Nat) (s : State) : Out :=
  match (s.crew crew).stage with
  | .saving suspend cause => .next (runM (saveDone crew suspend cause) s)
  | _ => .next s

/-- Commands saved with a crew are queued again in order, on its new cluster (R300). -/
def requeue (c cl : Nat) (s : State) : State :=
  let k := s.crew c
  let v := s.cluster cl
  (s.setCluster cl { v with copyQ := v.copyQ ++ k.savedCE, indexQ := v.indexQ ++ k.savedIX }).setCrew c
    { k with savedCE := [], savedIX := [] }

/-- An S stream parked in WAITC executes it again on resumption (R40, R442). -/
def resumedSMode (m : SMode) : SMode :=
  match m with
  | .waitc .. => .running
  | m => m

/-- A thread goes on as it was before its pre-emption. -/
def resumeThread (th : Thread) : Thread := { th with mode := th.haltedFrom, haltedFrom := .ready }

/-- A thread wrote a byte after a name was next: such a store comes after the load in program order (R209). -/
def storedAfter (s : State) (t upto pa : Nat) : Bool :=
  let v := s.view (.thread t)
  (v.pend ++ s.mem.log.filter fun w => v.made.contains w.id).any fun w => decide (upto ≤ w.id) && (w.cells.find? pa).isSome

/-- Where a load that issues again finds its bytes: its page is translated anew on the core it resumes on (R212, R462); none where
that fails (log 100). -/
def reissueAt (t : Nat) (l : Loading) : M (Option Nat) := fun s =>
  match translate t l.level l.va false false s with
  | .ok pa s' => .ok (some pa) s'
  | .error _ s' => .ok none (keepErrors s s')

/-- Issue a load again (R212): its bytes are read as if it had just issued, but for those the thread has stored to since, which
are as they were before those stores. None where a lasting error is met. -/
def reissue (t : Nat) (l : Loading) : M (Option Loading) := do
  match ← reissueAt t l with
  | none => return some l
  | some pa =>
    match ← readPhys (.thread t) pa l.n with
    | none => return none
    | some bs =>
      let s ← get
      let was := leBytes l.n l.v.toNat
      let now := bs.mapIdx fun i b => if storedAfter s t l.upto (pa + i) then was.getD i 0 else b
      let v := if l.signed then ofInt64 (sext (leNat now) (8 * l.n)) else BitVec.ofNat 64 (leNat now)
      return some { l with pa := pa, v := v }

/-- Loads in flight at a thread's pre-emption are issued again (R212); one that meets a lasting error stops the crew (R471). -/
def reissueLoads (t : Nat) : List (Nat × Pend) → M Unit
  | [] => pure ()
  | (r, .load l) :: rest => do
    match ← reissue t l with
    | none => containOwner (.thread t) 3 l.va
    | some q =>
      updScalar (.thread t) fun c => { c with pend := c.pend.insert r (.load q) }
      reissueLoads t rest
  | _ :: rest => reissueLoads t rest

/-- The restore of a crew reads its save frame: the sectors of it that hold errors are met (R471). -/
def frameSound (ctx addr : Nat) : M Bool := do
  let s ← get
  match ← walkRange ctx 2 false false (0x900000 / 65536 + 2) addr 0x900000 with
  | .error _ => return true
  | .ok ls =>
    let inFrame (l : Leaf) (sec : Nat) : Bool :=
      let va := l.va + (32 * sec - l.pa)
      decide (l.pa ≤ 32 * sec ∧ 32 * sec < l.pa + l.size ∧ addr < va + 32 ∧ va < addr + 0x900000)
    checkSectors ((s.mem.poison ++ s.mem.upsets.map (·.1)).filter fun sec => ls.any fun l => inFrame l sec)

/-- A pre-empted crew takes a slot and a thread again (R438, R442). -/
def placeAgain (c cl t : Nat) : M Unit := do
  let slot ← pickSlot cl
  let order ← freshId
  let anew (v : Scalar) : Scalar := { v with line := none }
  upd fun s =>
    let s := renameThread (storedThread c) t s
    let k := s.crew c
    let s := occupy cl slot c (s.setCrew c { k with
      stage := .resident, cl := cl, slot := slot, order := order, smode := resumedSMode k.smode, sc := anew k.sc })
    let th := resumeThread (s.thread t)
    requeue c cl (s.setThread t { th with sc := anew th.sc })
  let s ← get
  reissueLoads t (s.thread t).sc.pend
  writeHeader (s.crew c).ctx (frameAddr s c)
  upd fun s => rouse (loopFaultNow c s) cl

/-- Restore a pre-empted crew (R438, R442). A lasting error in its frame, or of its state in transit, stops it before it is placed
(R471). -/
def restoreCrew (part i c cl t : Nat) : M Unit := do
  upd (dropEntry part i)
  let s ← get
  let k := s.crew c
  let sound ← frameSound k.ctx (frameAddr s c)
  if !sound || k.saveBad then
    containReport k.ctx (handleOf k) (frameAddr s c) (if sound then 7 else 3) (if sound then cl else 0) 1 2
    stopStored c
  else placeAgain c cl t

def dispatchEntry (p : Placement) : M Unit := do
  let s ← get
  match (s.partition p.part).pool[p.index]? with
  | none => pure ()
  | some e =>
    let ok := isNext s p.part p.index && fitsOn s p.part (needOf s e) p.cluster && threadFits s p.part (p.cluster / 16) p.thread
    if ok then
      match e.crew, s.launches.find? e.launch with
      | some c, _ => restoreCrew p.part p.index c p.cluster p.thread
      | none, some l => dispatchNode p.part p.index e l p.cluster p.thread
      | none, none => pure ()
    else pure ()

def execCrewDispatch (place : Placement) (s : State) : Out := .next (runM (dispatchEntry place) s)

/-! ### Completion of a crew (R26, R27, R116) -/

/-- The completion release of an agent of a crew: its writes and gains, and what its commands published (R116). -/
def finalRelease (a : Agent) (scope : Nat) (s : State) : State :=
  let v := s.view a
  releaseNames s a scope (unionNames (unionNames (releaseIds v) v.fenceCE) v.fenceIX)

/-- A crew completes: its release, its unit, thread, frame and pins are free, and its report sets out (R26, R27). -/
def completeCrew (c : Nat) (s : State) : State :=
  let k := s.crew c
  let l := s.launches.getD k.launch default
  let s := finalRelease (.thread k.thread) (launchScope l) (finalRelease (.half c) (launchScope l) s)
  let left := k.queues.foldl (fun n e => n + e.2.occ) 0
  let s := endCrew s c
  let mark (v : Launch) : Launch := { v with insts := v.insts.insert (instKey k.card k.inst) .ended }
  { s with
    launches := s.launches.modify k.launch mark
    reports := s.reports ++ [{ launch := k.launch, card := k.card, inst := k.inst, cl := k.cl, discarded := left, seq := c }] }

def execCrewComplete (crew : Nat) (s : State) : Out := .next (if crewDone s crew then completeCrew crew s else s)

/-- A crew's report reaches the graph sequencer; reports of one cluster arrive in order (R371, R377). -/
def crewReport (i : Nat) : M Unit := do
  let s ← get
  match s.reports[i]? with
  | none => pure ()
  | some r =>
    if (s.reports.take i).any fun x => x.cl == r.cl then pure ()
    else
      let mark (v : Launch) : Launch := { v with
        insts := v.insts.insert (instKey r.card r.inst) .reported
        completed := v.completed + 1, residues := v.residues + if r.discarded = 0 then 0 else 1 }
      upd fun s => { s with reports := s.reports.eraseIdx i, launches := s.launches.modify r.launch mark }
      refreshReady

/-! ### Quanta, ageing and pre-emption (R25, R438, R441) -/

/-- An entry of at least a crew's level that only the crew's unit could take, once the crew has left it (log 27). -/
def wantsUnit (s : State) (cl c : Nat) (e : PoolEntry) : Bool :=
  let k := s.crew c
  let part := (s.context k.ctx).part
  k.level ≤ e.level && !placeable s part e && fitsOn (vacate s c) part (needOf s e) cl

/-- The first entry that wants the unit, in the order of dispatch. -/
def unitWanted (s : State) (cl c : Nat) : Option Nat :=
  let pool := (s.partition (s.context (s.crew c).ctx).part).pool
  let l := (List.range pool.length).filter fun i => wantsUnit s cl c (pool.getD i default)
  l.find? fun i => l.all fun j => j == i || !takenBefore pool j i

/-- An entry is promised the place of a crew pre-empted for it. -/
def promise (part i : Nat) (s : State) : State :=
  let v := s.partition part
  s.setPartition part { v with pool := v.pool.modify i fun e => { e with promised := true } }

/-- The quantum of the active crew expires (R441). -/
def quantum (cl : Nat) (s : State) : State :=
  match s.activeCrew cl with
  | none => s
  | some c =>
    if (s.crew c).stage != .resident then s
    else
      let r := rotate s cl
      if r.activeCrew cl != some c then r
      else match unitWanted s cl c with
        | some i => preempt (promise (s.context (s.crew c).ctx).part i s) c
        | none => s

def execQuantumExpiry (cluster : Nat) (s : State) : Out := .next (quantum cluster s)

/-- An entry rises one level, up to its context's ceiling, and waits anew (R438). -/
def age (part i : Nat) (s : State) : State :=
  let v := s.partition part
  match v.pool[i]? with
  | none => s
  | some e =>
    if e.level < (s.context e.ctx).prioCeil.toNat then
      let s := s.setPartition part { v with pool := v.pool.eraseIdx i ++ [{ e with level := e.level + 1 }] }
      match e.crew with
      | some c => s.setCrew c { s.crew c with level := e.level + 1 }
      | none => s
    else s

def execAgeing (part index : Nat) (s : State) : Out := .next (age part index s)

/-- The resident crew of a partition that an entry of level `p` pre-empts: of lowest level below it, the last dispatched. -/
def isVictim (s : State) (part p c : Nat) : Bool :=
  let k := s.crew c
  let rival (d : Crew) : Bool := d.stage == .resident && (s.context d.ctx).part == part
  k.level < p && rival k && s.crews.all fun e =>
    !rival e.2 || k.level < e.2.level || (e.2.level == k.level && e.2.order ≤ k.order)

/-- Some ready entry that cannot be placed pre-empts the crew (R441). -/
def preempted (s : State) (c : Nat) : Bool :=
  let part := (s.context (s.crew c).ctx).part
  (s.partition part).pool.any fun e => !placeable s part e && isVictim s part e.level c

def execPreemption (crew : Nat) (s : State) : Out := .next (if preempted s crew then preempt s crew else s)

end Sys2Proof.Machine
end

