-- ==== Sys2Proof/Machine/Launches.lean ====
section
/-! DEFINITION. Launch ports, LAUNCH, acceptance and completion of launches, and gangs (R119, R368-R370, R374, R375,
R378-R382, R493, R498). -/

namespace Sys2Proof.Machine

/-! ### Replies and counters of the graph sequencer (R374) -/

/-- The reply record of a launch (R301, R368), published at a scope. -/
def launchReply (ctx reply status events count scope : Nat) : M Unit := do
  if reply = 0 ∨ reply % 16 ≠ 0 then return ()
  hubStore ctx reply (leBytes 2 status ++ leBytes 2 0 ++ leBytes 4 events ++ leBytes 8 count) scope

/-- `CSIG(CNTR, 1, s)` by the graph sequencer (R120, R374): an add that no page takes is dropped (log 12). -/
def hubSignal (ctx cntr scope : Nat) : M Unit := do
  if cntr = 0 then return ()
  match ← hubParts ctx true [(cntr, 8)] with
  | some [(pa, _)] =>
    match ← readPort pa 8 with
    | none => countSector 3 (pa / 32)
    | some b =>
      if 2 ^ 64 ≤ leNat b + 1 then event ctx 2 14 0 cntr 1
      else
        writePort .hub pa (leBytes 8 (leNat b + 1))
        upd (release · .hub scope)
  | _ => pure ()

/-- A launch is over: its code is no longer pinned (R457). -/
def finishLaunch (id : Nat) (s : State) : State :=
  dropPins { s with launches := s.launches.modify id fun l => { l with finished := true } } fun p => match p.owner with
    | .launch n _ => n == id
    | _ => false

/-! ### The launch port (R369, R493, R498) -/

/-- Management counters of discarded writes and packets: launch writes to no live context, accesses before bring-up is done,
malformed shuffle packets, stray packets. -/
def cntNoContext : Nat := 16
def cntEarly : Nat := 17
def cntLink : Nat := 18
def cntStray : Nat := 19

/-- Bring-up has finished (R498). -/
def isUp (s : State) : Bool := s.boot == 0xFF#16

def execLaunchPortWrite (offset : Nat) (data : List Byte) (s : State) : Out :=
  let ctx := offset / 4096
  .next (if !isUp s then s.bump cntEarly 1
    else
      match s.contexts.find? ctx with
      | none => s.bump cntNoContext 1
      | some x =>
        if offset % 4096 != 0 || data.length != 64 then s.setContext ctx { x with launchDrop := x.launchDrop + 1 }
        else if 64 ≤ x.port.length then s
        else s.setContext ctx { x with port := x.port ++ [{ record := data, origin := .host (releaseIds (s.view .host)) }] })

/-! ### LAUNCH (R378) -/

def launchBody (g : Eng) (c : Cmd) : M Bool := do
  reserved c.prog.bytes [(0x18, 8)]
  let s ← get
  match s.contexts.find? c.ctx with
  | none => endStatus 16
  | some x =>
    if c.prog.pos = 0 && x.port.length < 64 then
      setCmd g { c with prog := { c.prog with pos := 1 } }
      upd fun s => s.setContext c.ctx { x with
        port := x.port ++ [{ record := (c.prog.bytes.drop 0x20).take 64, origin := .command c.id g.cl }] }
    return false

def execLaunch (o : LaneFmt) (s : State) : Out := runBlock o (.launch o) true 0x07 96 launchBody (s := s)

/-! ### Acceptance (R368, R370, R381) -/

/-- The acceptance release (R370): the host's writes before its port write, or the view of the LAUNCH command. -/
def acceptRelease (o : Origin) (scope : Nat) (s : State) : State :=
  match o with
  | .host ids => releaseNames s .host scope ids
  | .command id _ => release s (.cmd id) scope

/-- The LAUNCH command learns the outcome (R378). -/
def answerOrigin (o : Origin) (status count : Nat) (s : State) : State :=
  match o with
  | .host _ => s
  | .command id cl => updCmd cl true id (fun c => { c with status := some status, count := count }) s

/-- Send a gang message, with the sender's next sequence number (R376). -/
def sendGang (pkg : Nat) (mk : GangMsg → CourseMsg) (m : GangMsg) (s : State) : State :=
  send { s with nextId := s.nextId + 1 } pkg (mk { m with seq := s.nextId })

/-- Send a gang message to every member of a gang. -/
def toMembers (l : Launch) (gang : Nat) (members : List (Nat × Nat)) (tenant : Option Nat) (mk : GangMsg → CourseMsg)
    (s : State) : State :=
  (numbered members).foldl (fun s e => sendGang e.2.1 mk {
    sender := selfId, ctx := e.2.2, lctx := l.ctx, gangId := gang, rank := e.1, nmem := members.length, status := 0
    tenant := tenant, record := l.record, count := 0, events := 0 } s) s

/-- The launch leads a gang of a context that has not ended. -/
def leads (l : Launch) (ctx gang : Nat) : Bool :=
  l.ctx == ctx && !l.finished && match l.gang with
    | .leader g .. => g == gang
    | _ => false

/-- A leader accepts a gang launch and arms its members (R381). The identifier is that of no gang of the context in flight
(R380). -/
def startGang (ctx : Nat) (r : List Byte) : M Unit := do
  let g ← readGang ctx (recCntr r)
  let s ← get
  if s.launches.any fun e => leads e.2 ctx g.id then refuse 35
  let (id, l) ← makeLaunch ctx r (some g.members.length)
  let l := { l with cntr := g.cntr, gang := .leader g.id g.members [] [] false }
  upd fun s => toMembers l g.id g.members (tenantOf s ctx) .arm { s with launches := s.launches.insert id l }

/-- Check and accept a record in a context. -/
def acceptRecord (ctx : Nat) (p : PortRec) : M Unit := do
  upd (acceptRelease p.origin (max 4 ((recLevels p.record).headD default).scope))
  if recordBad p.record then refuse 35
  checkCount p.record
  if recGang p.record then startGang ctx p.record
  else
    let (id, l) ← makeLaunch ctx p.record none
    upd fun s => { s with launches := s.launches.insert id l }

def popPort (ctx : Nat) (s : State) : State :=
  match s.contexts.find? ctx with
  | none => s
  | some x => s.setContext ctx { x with port := x.port.drop 1 }

/-- The graph sequencer accepts or refuses the record at the head of a context's port (R368): a refusal has no effect but its
reply. -/
def acceptHead (ctx : Nat) : M Unit := fun s =>
  match (s.context ctx).port with
  | [] => .ok () s
  | p :: _ =>
    match acceptRecord ctx p s with
    | .ok _ s' => (do
        upd (popPort ctx)
        upd (answerOrigin p.origin 1 0)
        refreshReady) s'
    | .error (.status n) s' => (do
        upd (popPort ctx)
        upd (answerOrigin p.origin (n % 256) (n / 256))
        launchReply ctx (recReply p.record) (n % 256) 0 (n / 256) 4) (keepErrors s s')
    | .error _ s' => .ok () (keepErrors s s')

def execLaunchAccept (context : Nat) (s : State) : Out := .next (runM (acceptHead context) s)

/-! ### Completion (R374, R375) -/

/-- No instance of a launch is still dispatched or reporting, and none will be dispatched. -/
def launchOver (l : Launch) : Bool :=
  if l.stopped.isSome then
    l.insts.all fun e => match e.2 with
      | .dispatched _ => false
      | .ended => false
      | _ => true
  else (numbered l.cards).all fun e => cardDone l e.1 e.2

/-- A launch completes: reply, release and counter; a gang member reports to its leader instead (R374, R381). -/
def completeLaunch (id : Nat) (l : Launch) : M Unit := do
  let status := l.stopped.getD 1
  match l.gang with
  | .member gang rank leader lctx _ =>
    upd (sendGang leader .report {
      sender := selfId, ctx := lctx, lctx := lctx, gangId := gang, rank := rank, nmem := 0, status := status, tenant := none
      record := [], count := l.completed, events := l.residues })
  | _ =>
    launchReply l.ctx l.reply status l.residues l.completed (launchScope l)
    hubSignal l.ctx l.cntr (launchScope l)
  upd (finishLaunch id)
  refreshReady

def tryComplete (id : Nat) : M Unit := do
  let s ← get
  match s.launches.find? id with
  | none => pure ()
  | some l =>
    let over_ : Bool := match l.gang with
      | .leader _ members _ reports committed => committed && reports.length == members.length
      | _ => launchOver l
    if !l.finished && over_ then completeLaunch id l else pure ()

def execLaunchComplete (launch : Nat) (s : State) : Out := .next (runM (tryComplete launch) s)

/-! ### Gangs (R119, R380-R382) -/

/-- Receive a gang message: one of this package's own comes in the order it was sent, and so do those of another package, as their
sequence numbers say (R376, R377). -/
def received (m : CourseMsg) (sender seq : Nat) (s : State) : Option State :=
  if sender = selfId then
    match s.selfbox with
    | x :: rest => if x = m then some { s with selfbox := rest } else none
    | [] => none
  else if seq < s.heard.getD sender 0 then none
  else some { s with heard := s.heard.insert sender (seq + 1) }

/-- The leader's launch of a gang. -/
def leaderOf (s : State) (ctx gang : Nat) : Option (Nat × Launch) :=
  List.find? (fun e : Nat × Launch => leads e.2 ctx gang) s.launches

/-- The order of acceptance of a member's launch: its own leader's, where the leader is this package. -/
def memberOrder (s : State) (m : GangMsg) (id : Nat) : Nat :=
  if m.sender = selfId then ((leaderOf s m.lctx m.gangId).map (·.2.order)).getD id else id

/-- A member checks its context and the launch there (R380, R381). -/
def armMember (m : GangMsg) : M Unit := do
  let s ← get
  if (s.contexts.find? m.ctx).isNone then refuse 16
  if tenantOf s m.ctx != m.tenant then refuse 35
  if recordBad m.record then refuse 35
  checkCount m.record
  let (id, l) ← makeLaunch m.ctx m.record (some m.nmem)
  upd fun s => { s with launches := s.launches.insert id { l with
    order := memberOrder s m id, reply := 0, cntr := 0, gang := .member m.gangId m.rank m.sender m.lctx false } }

/-- A member acknowledges with a status. -/
def acknowledge (m : GangMsg) (status : Nat) (s : State) : State :=
  sendGang m.sender .ack { m with sender := selfId, ctx := m.lctx, status := status, record := [] } s

/-- A member receives arm (R381, R382). -/
def arm (m : GangMsg) : M Unit := fun s =>
  match armMember m s with
  | .ok _ s' => (do
      upd (acknowledge m 1)
      refreshReady) s'
  | .error (.status n) s' => (do
      upd (acknowledge m (n % 256))
      event m.ctx 7 (n % 256) 0 0 m.gangId) (keepErrors s s')
  | .error _ s' => .ok () (keepErrors s s')

def execGangArm (msg : GangMsg) (s : State) : Out :=
  .next (match received (.arm msg) msg.sender msg.seq s with
    | some s' => runM (arm msg) s'
    | none => s)

/-- The leader sends commit (R381). -/
def commitGang (id : Nat) (l : Launch) (gang : Nat) (members : List (Nat × Nat)) (acks reports : List Nat) (s : State) : State :=
  toMembers l gang members none .commit
    { s with launches := s.launches.insert id { l with gang := .leader gang members acks reports true } }

/-- The leader aborts (R381, R382): the launch completes with `GANG_ABORT`, and its counter is not signalled. -/
def abortGang (id : Nat) (l : Launch) (gang : Nat) (members : List (Nat × Nat)) : M Unit := do
  upd (toMembers l gang members none .abort)
  launchReply l.ctx l.reply 37 0 0 (launchScope l)
  upd (finishLaunch id)
  refreshReady

/-- A member of a gang, as its rank and package say. -/
def isMember (members : List (Nat × Nat)) (m : GangMsg) : Bool := (members[m.rank]?).any fun e => e.1 == m.sender

/-- The leader receives an acknowledgement (R381). -/
def takeAck (m : GangMsg) : M Unit := do
  let s ← get
  match leaderOf s m.ctx m.gangId with
  | none => pure ()
  | some (id, l) =>
    match l.gang with
    | .leader gang members acks reports false =>
      if !isMember members m then pure ()
      else if m.status ≠ 1 then abortGang id l gang members
      else
        let acks := addName acks m.rank
        if acks.length = members.length then upd (commitGang id l gang members acks reports)
        else upd fun s => { s with launches := s.launches.insert id { l with gang := .leader gang members acks reports false } }
    | _ => pure ()

def execGangAcknowledge (msg : GangMsg) (s : State) : Out :=
  .next (match received (.ack msg) msg.sender msg.seq s with
    | some s' => runM (takeAck msg) s'
    | none => s)

/-- The leader aborts a gang that has neither committed nor ended. -/
def abortUncommitted (id : Nat) : M Unit := do
  let s ← get
  match s.launches.find? id with
  | none => pure ()
  | some l =>
    match l.gang with
    | .leader gang members _ _ false => if l.finished then pure () else abortGang id l gang members
    | _ => pure ()

def execGangArmTimeout (launch : Nat) (s : State) : Out := .next (runM (abortUncommitted launch) s)

/-- The launch is a member of a gang, not yet committed. -/
def belongs (l : Launch) (m : GangMsg) : Bool :=
  l.ctx == m.ctx && match l.gang with
    | .member g rank leader lctx false => g == m.gangId && leader == m.sender && lctx == m.lctx && rank == m.rank
    | _ => false

def memberOf (s : State) (m : GangMsg) : Option (Nat × Launch) :=
  List.find? (fun e : Nat × Launch => belongs e.2 m) s.launches

/-- Publish named writes from a place (R119). -/
def publishFrom (scope cl : Nat) (ids : List Nat) (s : State) : State :=
  { s with mem := { s.mem with log := s.mem.log.map (addPub ids { scope := clampScope cl scope, cl := cl }) } }

/-- A member receives commit: what it held back is released (R119, R381). -/
def commitMember (m : GangMsg) (s : State) : State :=
  match memberOf s m with
  | none => s
  | some (id, l) =>
    let s := l.held.foldl (fun s h => publishFrom h.1 h.2.1 h.2.2 s) s
    { s with launches := s.launches.insert id { l with gang := .member m.gangId m.rank m.sender m.lctx true, held := [] } }

def execGangCommit (msg : GangMsg) (s : State) : Out :=
  .next (match received (.commit msg) msg.sender msg.seq s with
    | some s' => commitMember msg s'
    | none => s)

/-- End every crew of a launch with no completion release (R382, R435). -/
def endLaunch (id : Nat) (s : State) : State :=
  let mine (e : Nat × Crew) : Bool := e.2.launch == id && e.2.stage != .gone
  let s := (s.crews.filter mine).foldl (fun s e => endCrew s e.1) s
  let s := finishLaunch id (purge s id)
  { s with
    reports := s.reports.filter fun r => r.launch != id
    launches := s.launches.modify id fun l => { l with held := [] } }

def abortMember (m : GangMsg) : M Unit := do
  let s ← get
  match memberOf s m with
  | none => pure ()
  | some (id, _) =>
    upd (endLaunch id)
    reportMoves
    refreshReady

def execGangAbort (msg : GangMsg) (s : State) : Out :=
  .next (match received (.abort msg) msg.sender msg.seq s with
    | some s' => runM (abortMember msg) s'
    | none => s)

/-! ### Completion reports (R371, R381) -/

/-- The leader receives a member's report. -/
def memberReport (m : GangMsg) (s : State) : State :=
  match leaderOf s m.ctx m.gangId with
  | none => s
  | some (id, l) =>
    match l.gang with
    | .leader gang members acks reports committed =>
      if isMember members m && !reports.contains m.rank then
        { s with launches := s.launches.insert id { l with
          gang := .leader gang members acks (reports ++ [m.rank]) committed
          completed := l.completed + m.count, residues := l.residues + m.events
          stopped := if m.status = 1 then l.stopped else some (l.stopped.getD m.status) } }
      else s
    | _ => s

def execCompletionReport (msg : ReportMsg) (s : State) : Out :=
  match msg with
  | .crew i => .next (runM (crewReport i) s)
  | .member m =>
    .next (match received (.report m) m.sender m.seq s with
      | some s' => memberReport m s'
      | none => s)

end Sys2Proof.Machine
end

