-- ==== Sys2Proof/Machine/Messages.lean ====
section
/-! DEFINITION. The active messages that engine commands, LAUNCH, gangs and completed crews send, and the refusal of those of a
torn context (R40, R376, R377). -/

namespace Sys2Proof.Machine

/-- Lanes that name a command block (R174). -/
def blockForm : Instr → Bool
  | .copy _ | .copy2 _ | .fill _ | .strmq _ | .drainq _ | .launch _ | .shuf _ => true
  | .gath _ | .scat _ | .bags _ | .isect _ | .msort _ | .spsrch _ => true
  | _ => false

/-- The message of a command lane, OPC 3: its reply address is that of its block (R174, R376, log 101). -/
def commandMessage (s : State) (c : Cmd) (reply : Nat) : Active :=
  { opc := 3, ctx := c.ctx, seq := c.id % 2 ^ 32, reply := reply, tids := [], card := if blockForm c.instr then c.av.toNat else 0
    arg := c.bv.toNat, inst := (c.crew.map fun k => (s.crew k).inst).getD 0 }

/-- The message of a LAUNCH command, OPC 4: its record stands in the command's block (R378, log 101). -/
def launchMessage (ctx : Nat) (c : Cmd) (record : List Byte) : Active :=
  { opc := 4, ctx := ctx, seq := c.id % 2 ^ 32, reply := recReply record, tids := [], card := c.av.toNat + 0x20
    arg := 0, inst := 0 }

/-- A message of a gang, OPC 5 to 8 and a member's report 9 (R381). Its refusals travel by acknowledgement, so it has no reply
address (log 101). -/
def gangMessage (opc : Nat) (m : GangMsg) : Active :=
  { opc := opc, ctx := m.ctx, seq := m.seq % 2 ^ 32, reply := 0, tids := [], card := recGraph m.record
    arg := m.gangId + m.status * 2 ^ 32, inst := m.rank }

/-- A crew's completion report, OPC 9 (R26, R371). -/
def reportMessage (s : State) (r : Report) : Active :=
  let l := s.launches.getD r.launch default
  { opc := 9, ctx := l.ctx, seq := r.seq % 2 ^ 32, reply := 0, tids := [], card := l.graph + 1024 * (r.card + 1)
    arg := r.discarded, inst := r.inst }

/-- The 64-byte packet of a message on the Course; shuffle packets and the broadcast of R478 have forms of their own. -/
def packetOf : CourseMsg → Option (List Byte)
  | .arm m => some (gangMessage 5 m).bytes
  | .ack m => some (gangMessage 6 m).bytes
  | .commit m => some (gangMessage 7 m).bytes
  | .abort m => some (gangMessage 8 m).bytes
  | .report m => some (gangMessage 9 m).bytes
  | .packet _ => none
  | .failed _ => none

/-- A message of a torn context is refused with `CTX_GONE` at its reply address (R40, R377). -/
def refuseMessage (m : Active) : M Unit := launchReply m.ctx m.reply 16 0 0 4

/-- Commands of a torn context that no engine has begun are refused: each one's reply address is read from its block, as the
command sees it. -/
def refuseCmds : List Cmd → M Unit
  | [] => pure ()
  | c :: t => do
    if blockForm c.instr && !c.prog.begun && c.status.isNone then
      match ← readPinned (.cmd c.id) c.pins ((c.av.toNat + 8) % 2 ^ 64) 8 with
      | .ok b => do
        let s ← get
        refuseMessage (commandMessage s c (leNat b))
      | .error _ => pure ()
    refuseCmds t

/-- Commands of a context, queued at an engine or saved with their crew. -/
def contextCmds (s : State) (ctx : Nat) : List Cmd :=
  ((s.clusters.flatMap fun e => e.2.copyQ ++ e.2.indexQ) ++ s.crews.flatMap fun e => e.2.savedCE ++ e.2.savedIX).filter
    fun c => c.ctx == ctx

end Sys2Proof.Machine
end

