-- ==== Sys2Proof/Machine/Contexts.lean ====
section
/-! DEFINITION. Contexts and crews under command: CTX_CREATE, CTX_TEAR, CREW_CMD, and CTLW (R377, R379, R415, R434, R435,
R437, R440, R449, R495). -/

namespace Sys2Proof.Machine

/-! ### Creating a context (R434) -/

/-- Bytes a thread reads at its own level. -/
def threadRead (t : Nat) : List (Nat × Nat) → M (List Byte)
  | [] => return []
  | (va, n) :: rest => do
    let s ← get
    let pa ← translate t (s.thread t).level.toNat va false false
    match ← readPhys (.thread t) pa n with
    | none => throw (.lasting va)
    | some b =>
      let l ← threadRead t rest
      return b ++ l

/-- A context descriptor whose fields are in range (R434). -/
def ctxDescOk (s : State) (part : Nat) (b : List Byte) : Bool :=
  let f (o n : Nat) : Nat := fieldAt b o n
  let sysHere := s.contexts.any fun e => e.2.part == part && e.2.sys
  f 0 2 != 0 && f 2 1 < 2 && f 3 1 < 8 && 10 ≤ f 4 2 && rootOk (BitVec.ofNat 64 (f 8 8)) && tableOk (BitVec.ofNat 64 (f 0x10 8)) &&
  f 0x18 8 % 2 ^ 20 == 0 && f 0x20 4 != 0 && f 0x20 4 ≤ 4096 && bits (f 0x30 8) 11 4 == 0 && bits (f 0x30 8) 3 0 ≤ 8 &&
  f 0x38 4 < 2 && f 0x3C 4 ≤ 65536 && !(f 2 1 == 1 && sysHere)

/-- Side-information entries the live contexts have promised. -/
def sitqUsed (s : State) : Nat := s.contexts.foldl (fun n e => n + e.2.sitq) 0

/-- Statuses that refuse a creation. -/
def ctxRefusals (s : State) (part : Nat) (b : List Byte) : List Nat :=
  let add (n : Nat) (x : Bool) : List Nat := if x then [n] else []
  add 2 (!ctxDescOk s part b) ++ add 3 (256 ≤ s.contexts.length) ++ add 4 (s.contexts.find? (fieldAt b 0 2)).isSome ++
    add 5 (65536 < sitqUsed s + fieldAt b 0x3C 4)

/-- A context as its descriptor creates it (R436). -/
def ctxOfDesc (part : Nat) (b : List Byte) (vector : Nat) : Context :=
  let w (o : Nat) : Word := BitVec.ofNat 64 (fieldAt b o 8)
  { part := part, sys := bit (fieldAt b 2 1) 0, ptRoot := w 8, tidTable := w 0x10, excVec := w 0x28, saveBase := w 0x18
    saveSlots := fieldAt b 0x20 4, dcplThr := BitVec.ofNat 32 (fieldAt b 0x24 4), quantum := BitVec.ofNat 16 (fieldAt b 4 2)
    prioCeil := BitVec.ofNat 3 (fieldAt b 3 1), wdog := BitVec.ofNat 16 (fieldAt b 6 2), dbgCtl := bit (fieldAt b 0x38 4) 0
    evqBase := w 0x30, sitq := fieldAt b 0x3C 4, vector := vector }

/-- `CTX_CREATE` by a thread. Where several statuses refuse, which one is given is free; so is the identifier field then, and
the vector the management interface binds (log 28). -/
def createContext (t : Nat) (va : Nat) : M Unit := do
  let b ← threadRead t (lineParts 2 va 64)
  let s ← get
  let part := (s.context (s.thread t).ctx).part
  let result (id status : Nat) : M Unit := upd fun s => s.setThread t { s.thread t with ctxResult := BitVec.ofNat 64 (id + status * 2 ^ 16) }
  match ctxRefusals s part b with
  | [] =>
    let v ← pick 1 256
    upd fun s => s.setContext (fieldAt b 0 2) (ctxOfDesc part b v)
    result (fieldAt b 0 2) 1
  | l =>
    let i ← pick 0 (l.length - 1)
    let id ← pick 0 0xFFFF
    result id (l.getD i 2)

/-- A thread that runs at level 2. -/
def supervises (s : State) (t : Nat) : Bool := (s.thread t).level == 2 && (s.thread t).mode == .ready

def execCtxCreate (thread descriptor : Nat) (s : State) : Out :=
  .next (if supervises s thread then runM (createContext thread (descriptor % 2 ^ 64)) s else s)

/-! ### Tearing a context down (R435) -/

/-- Complete commands with a status, as R302 does. -/
def finishCmds (status : Nat) : List (Eng × Nat) → M Unit
  | [] => pure ()
  | (g, id) :: t => do
    finishCmd g id status
    finishCmds status t

/-- Queued launches are refused, and their LAUNCH commands complete, with `CTX_GONE` (R377, R379). -/
def refusePort (ctx : Nat) : List PortRec → M Unit
  | [] => pure ()
  | p :: t => do
    launchReply ctx (recReply p.record) 16 0 0 4
    match p.origin with
    | .host _ => pure ()
    | .command id cl => finishCmd { cl := cl, copy := true } id 16
    refusePort ctx t

/-- Gangs that a context leads and has not committed are aborted; its launches end without a reply. -/
def endLaunches : List (Nat × Launch) → M Unit
  | [] => pure ()
  | (id, l) :: t => do
    match l.gang with
    | .leader gang members _ _ false => if l.finished then pure () else upd (toMembers l gang members none .abort)
    | _ => pure ()
    upd (endLaunch id)
    endLaunches t

/-- The steps of a teardown; the event goes to the ring of the context that asked for it. -/
def tearContext (by_ ctx : Nat) : M Unit := do
  let s ← get
  refusePort ctx (s.context ctx).port
  refuseCmds (contextCmds s ctx)
  let shufs := (s.shuffles.filter fun e => e.2.ctx == ctx).map fun e => (({ cl := e.2.cl, copy := true } : Eng), e.2.cmd)
  upd fun s => quitShuffles s fun x => x.ctx == ctx
  finishCmds 16 shufs
  endLaunches (s.launches.filter fun e => e.2.ctx == ctx)
  upd fun s =>
    let s := (s.crews.filter fun e => e.2.ctx == ctx && e.2.stage != .gone).foldl (fun s e => endCrew s e.1) s
    let s := dropPins (dropCmds s fun c => c.ctx == ctx) fun p => p.ctx == ctx
    let s := (s.threads.filter fun e => e.2.ctx == ctx).foldl (fun s e => (s.setThread e.1 {}).dropView (.thread e.1)) s
    let clean (v : Partition) : Partition := { v with pool := v.pool.filter fun e => e.ctx != ctx }
    { s with
      partitions := Tbl.mapVals clean s.partitions
      sit := s.sit.filter fun e => e.ctx != ctx
      tlb := (s.tlb.map fun e => (e.1, e.2.filter fun v => v.ctx != ctx)).filter fun e => !e.2.isEmpty
      contexts := s.contexts.erase ctx }
  event by_ 9 0 0 0 ctx
  reportMoves
  refreshReady

/-- `CTX_TEAR` from a context: an identifier that is not live in its partition has no effect. -/
def tear (by_ ctx : Nat) : M Unit := do
  let s ← get
  match s.contexts.find? ctx with
  | some x => if x.part = (s.context by_).part then tearContext by_ ctx else pure ()
  | none => pure ()

def execCtxTear (thread context : Nat) (s : State) : Out :=
  .next (if supervises s thread then runM (tear (s.thread thread).ctx context) s else s)

/-! ### Commands to crews (R440, R449) -/

/-- The crew a handle's low half names in a partition (R437, R449). -/
def crewNamed (s : State) (part handle : Nat) : Option Nat :=
  (List.find? (fun e : Nat × Crew => e.2.stage != .gone && e.2.ctx == handle % 2 ^ 16 && e.2.frame == handle / 2 ^ 16 % 2 ^ 16 &&
    (s.context e.2.ctx).part == part) s.crews).map (·.1)

/-- A loop record that passes the checks of R233, which a loop meets at its start, and R440's own. -/
def loopOk (c ctl : Nat) (r : LoopRec) : M Bool := do
  if bits ctl 31 1 != 0 || r.cnt == 0 || !ptrOk r.start.toNat || !ptrOk r.stop.toNat || r.stop.toNat < r.start.toNat then
    return false
  let lines : M (Bool × Bool) := do
    let a ← fetchLine (.crew c) (ptrLine r.start.toNat)
    let b ← fetchLine (.crew c) (ptrLine r.stop.toNat)
    let (x, y) := (Line.ofBytes a, Line.ofBytes b)
    let (i, j) := (ptrLane r.start.toNat, ptrLane r.stop.toNat)
    return (x.sid i != 0 && x.bt i, y.wf false (ptrLine r.stop.toNat) && y.sid j != 0)
  let r ← sounded lines
  return r.1 && r.2
where
  /-- a line that cannot be fetched fails the check; a lasting error in it is the crew's (R471) -/
  sounded (lines : M (Bool × Bool)) : M (Bool × Bool) := fun s =>
    match lines s with
    | .ok r s' => .ok r s'
    | .error (.lasting va) s' => .error (.lasting va) s'
    | .error _ s' => .ok (false, false) (keepErrors s s')

/-- Read loop `n` of a sequencer record back. -/
def readLoop (c : Nat) (b : List Byte) (n : Nat) : M (Option Word) := do
  let f (o : Nat) : Nat := fieldAt b (0x140 + 32 * n + o) 8
  let ctl := f 0
  let s ← get
  let old := (s.crew c).loops.getD n {}
  let id ← freshId
  let r : LoopRec := { active := bit ctl 0, born := if old.active then old.born else id, depth := BitVec.ofNat 32 (bits ctl 63 32)
                       cnt := BitVec.ofNat 64 (f 8), start := BitVec.ofNat 64 (f 16), stop := BitVec.ofNat 64 (f 24) }
  let put (v : LoopRec) : M Unit := upd fun s => s.setCrew c { s.crew c with loops := (s.crew c).loops.put n v {} }
  if !r.active then
    put {}
    return none
  else if ← loopOk c ctl r then
    put r
    return none
  else
    put {}
    return some r.start

def readLoops (c : Nat) (b : List Byte) : List Nat → M (List Word)
  | [] => return []
  | n :: t => do
    let x ← readLoop c b n
    let rest ← readLoops c b t
    return x.toList ++ rest

/-- Read a register back (R440). A bit cleared for a register that was full is not described: the register then keeps its
value or takes the record's (log 29). -/
def readBack (c : Nat) (b : List Byte) (n : Nat) : M Unit := do
  let v := BitVec.ofNat 64 (fieldAt b (8 * n) 8)
  let s ← get
  if bit (fieldAt b 0x100 4) n then updScalar (.crew c) (·.write n v)
  else if (s.crew c).sc.isFull n then
    let k ← pick 0 1
    if k = 1 then updScalar (.crew c) (·.write n v)
  else pure ()

def readRegs (c : Nat) (b : List Byte) : List Nat → M Unit
  | [] => pure ()
  | n :: t => do
    readBack c b n
    readRegs c b t

/-- The sequencer of a suspended crew as its record stands. Where several loop records fail, which one S faults on is free. -/
def applyRecord (c : Nat) (b : List Byte) : M Unit := do
  readRegs c b (List.range 32)
  updScalar (.crew c) fun v => { v with
    preds := BitVec.ofNat 8 (fieldAt b 0x104 1) ||| 1#8, pc := BitVec.ofNat 64 (fieldAt b 0x108 8)
    depth := BitVec.ofNat 32 (fieldAt b 0x110 4), stalled := false }
  match ← readLoops c b [0, 1, 2, 3] with
  | [] => pure ()
  | l =>
    let i ← pick 0 (l.length - 1)
    upd fun s => s.setCrew c { s.crew c with loopFault := l[i]? }

/-- Resume a suspended crew: it enters the pool (R449). A lasting error met in its frame or its code stops it (R471); a frame that no
page maps is taken as the hardware left it (log 12). -/
def resumeCrew (c : Nat) : M Unit := do
  let s ← get
  let k := s.crew c
  let addr := frameAddr s c
  let back : M Unit := upd fun s =>
    let s := s.setCrew c { s.crew c with stage := .evicted }
    let p := (s.context k.ctx).part
    let v := s.partition p
    s.setPartition p { v with pool := v.pool ++ [{ crew := some c, ctx := k.ctx, level := k.level }] }
  match ← hubParts k.ctx false (lineParts 3 (addr + 0xA00) 0x1C0) with
  | none => back
  | some ps =>
    match ← hubLoadParts ps with
    | none => lost k (addr + 0xA00)
    | some b => fun s =>
      match (do applyRecord c b; back : M Unit) s with
      | .error (.lasting va) s' => lost k va (keepErrors s s')
      | r => r
where
  lost (k : Crew) (va : Nat) : M Unit := do
    containReport k.ctx (handleOf k) va 3 0 1 2
    stopStored c

/-- An operation of `CREW_CMD` on a crew; one that does not fit its state has no effect. The cause R446 writes for a crew that
is ended by command is not given, so it is free (log 30). -/
def crewCmd (op c : Nat) : M Unit := do
  let s ← get
  let st := (s.crew c).stage
  match op with
  | 1 => if st == .suspended then resumeCrew c else pure ()
  | 2 =>
    let cause ← pick 0 28
    failCrew c cause
  | 3 => upd (requestHalt · c true 28)
  | _ => pure ()

/-- A crew command of a partition. -/
def commandCrew (part handle op : Nat) : M Unit := do
  let s ← get
  match crewNamed s part handle with
  | some c => crewCmd op c
  | none => pure ()

def execCrewCmdResume (part handle : Nat) (s : State) : Out := .next (runM (commandCrew part handle 1) s)

def execCrewCmdEnd (part handle : Nat) (s : State) : Out := .next (runM (commandCrew part handle 2) s)

def execCrewCmdSuspend (part handle : Nat) (s : State) : Out := .next (runM (commandCrew part handle 3) s)

/-! ### CTLW (R437) -/

/-- A write of one of the partition's registers. The reserved bits of `CREW_CMD` are ignored (R4). -/
def partitionWrite (t n : Nat) (v : Word) : M Unit := do
  let s ← get
  let by_ := (s.thread t).ctx
  match n with
  | 0x200 => createContext t v.toNat
  | 0x202 => if v.toNat < 2 ^ 16 then tear by_ v.toNat else pure ()
  | _ => commandCrew (s.context by_).part (bits v.toNat 31 0) (bits v.toNat 63 56)

def ctlWrite (w : Owner) (n : Nat) (v : Word) (h : Holder) : M Unit := do
  let s ← get
  match h, w, crewOf s w with
  | .crew, _, some c => upd (writeCrewCtl c n v)
  | .context, _, _ => upd fun s => s.setContext (ctxOf s w) (writeContextCtl (s.context (ctxOf s w)) n v)
  | .partition, .thread t, _ => partitionWrite t n v
  | _, _, _ => pure ()

/-- Whether the owner is still there: a CTLW may end its own crew or context. -/
def stillThere (s : State) : Owner → Bool
  | .thread t => (s.thread t).mode != .free
  | .crew c => (s.crew c).stage != .gone

/-- CTLW (R229). It reads its source, and so waits for it or raises the empty-register exception, before it checks the register's
privilege and whether it can be written: the model's choice (log 107). -/
def execCtlw (o : IFmt) (s : State) : Out :=
  runScalar (fun w => do
    let x ← readReg w o.a o.ta
    let h ← ctlCheck w o.imm true
    ctlWrite w o.imm x h
    let s ← get
    return if stillThere s w then .next else .stay) s

end Sys2Proof.Machine
end

