-- ==== Sys2Proof/Machine/Shuffle.lean ====
section
/-! DEFINITION. Coded shuffles: SHUF, the plan, binding, pairing, decoding, repechage, completion and SHUF_STAT (R397-R416,
R501). -/

namespace Sys2Proof.Machine

/-! ### SHUF_STAT (R416) -/

/-- Add to a saturating field of `SHUF_STAT`: 0 OVF_CNT, 1 SOLO_CNT, 2 REPE_CNT, 3 MISS_CNT. -/
def countShuf (ctx field n : Nat) (s : State) : State :=
  match s.contexts.find? ctx with
  | none => s
  | some x =>
    let v := x.shufStat.toNat
    let old := bits v (16 * field + 15) (16 * field)
    s.setContext ctx { x with shufStat := BitVec.ofNat 64 (v + (min 0xFFFF (old + n) - old) * 2 ^ (16 * field)) }

/-! ### Plans (R402, R403) -/

/-- Read the plan of a SHUF (R403, R501). -/
def readPlan (g : Eng) (c : Cmd) (va : Nat) : M Plan := do
  let p : Plan := { h := ← cmdRead g c va 64 }
  if !p.headOk then endStatus 48
  let ps ← cmdRead g c p.partsAt (4 * p.npart)
  let es ← cmdRead g c p.entriesAt (32 * p.count)
  let gs ← cmdRead g c p.groupsAt (16 * p.ngrp)
  let entry (i : Nat) : PlanEntry := PlanEntry.ofBytes ((es.drop (32 * i)).take 32)
  let group (i : Nat) : List Byte := (gs.drop (16 * i)).take 16
  return { p with
    parts := (List.range p.npart).map fun i => fieldAt ps (4 * i) 4
    sends := (List.range p.nsend).map entry
    recvs := (List.range p.nrecv).map fun i => entry (p.nsend + i)
    sides := (List.range p.nside).map fun i => entry (p.nsend + p.nrecv + i)
    groups := (List.range p.ngrp).map fun i => Plan.members (group i)
    groupRsv := !(List.range p.ngrp).all fun i => Plan.groupOk p.nsend (group i) }

/-- The narrow format of quantised sends, and their lengths (R403). -/
def planFormat (g : Eng) (c : Cmd) (p : Plan) : M Nat := do
  let qs := p.sends.filter (·.quant)
  if qs.isEmpty then return 0
  if p.qtid = 0 then endStatus 48
  match ← nameTid c.ctx p.qtid c.crew (g.agent c) with
  | .ecc va => eccStop c va
  | .refused b _ => endStatus (badStatus b)
  | .bad => endStatus 48
  | .ok d =>
    if d.efmt ≠ 13 then endStatus 48
    if qs.any fun e => e.len != Plan.quantLen e.nelem d.nf.w then endStatus 48
    return d.nfd

/-! ### The side-information table (R404, R405) -/

def siFind (s : State) (ctx : Nat) (n : Name) : Option SiEntry := s.sit.find? fun e => e.ctx == ctx && e.name == n

def siUpd (ctx : Nat) (n : Name) (f : SiEntry → SiEntry) (s : State) : State :=
  { s with sit := s.sit.map fun e => if e.ctx == ctx && e.name == n then f e else e }

def isRetained (ctx : Nat) (e : SiEntry) : Bool := e.ctx == ctx && e.st == .retained

/-- Evict the `n` least recently bound of some retained entries. -/
def evict (spare : List SiEntry) : Nat → State → State
  | 0, s => s
  | n + 1, s =>
    match spare.foldl (fun (m : Option SiEntry) e => match m with
        | some v => if e.bound < v.bound then some e else m
        | none => some e) none with
    | none => s
    | some v => evict (spare.erase v) n { s with sit := s.sit.erase v }

/-- Order of reading: groups in order, then the planned solos. -/
def readOrder (p : Plan) : List Nat :=
  let grouped := p.groups.flatten
  grouped ++ (List.range p.nsend).filter fun i => !grouped.contains i

/-- The shuffle a plan binds. -/
def newShuffle (g : Eng) (c : Cmd) (p : Plan) (nfd : Nat) : Shuffle :=
  let send (e : PlanEntry) : SendEntry := { name := e.name, len := e.len, nelem := e.nelem, addr := e.addr, dmask := e.dmask }
  { cl := g.cl, cmd := c.id, ctx := c.ctx, rank := p.rank, parts := p.parts, mtrap := bit p.pflags 3, qrm := p.qrm, qtid := p.qtid
    nfd := nfd, bcntr := bodyField c.prog.bytes 0x18 8, sends := p.sends.map send, groups := p.groups, todo := readOrder p }

/-- Bind a shuffle, as one step of the hub (R405). -/
def bind (g : Eng) (c : Cmd) (p : Plan) (nfd : Nat) : M Unit := do
  let s ← get
  if (s.shuffles.find? p.shid).isSome then endStatus 50
  let local_ := p.recvs ++ p.sides.filter fun e => e.addr != 0
  let zero := (p.sides.filter fun e => e.addr == 0).map (·.name)
  let fresh := local_.map (·.name)
  let dropped (e : SiEntry) : Bool := isRetained c.ctx e && (e.name.shid == p.shid || fresh.contains e.name)
  upd fun s => { s with sit := s.sit.filter fun e => !dropped e }
  let s ← get
  let used := (s.sit.filter fun e => e.ctx == c.ctx).length
  let spare := s.sit.filter fun e => isRetained c.ctx e && !zero.contains e.name
  let quota := (s.context c.ctx).sitq
  if quota + spare.length < local_.length + used then endStatus 49
  let order ← freshId
  let pin (e : SiEntry) : SiEntry :=
    if isRetained c.ctx e && zero.contains e.name then { e with st := .pinned, shid := p.shid, bound := order } else e
  let entry (st : SiState) (e : PlanEntry) : SiEntry :=
    { ctx := c.ctx, name := e.name, addr := e.addr, len := e.len, st := st, shid := p.shid, ret := bit e.flags 1, bound := order }
  upd fun s =>
    let s := evict spare (used + local_.length - quota) { s with sit := s.sit.map pin }
    let x := newShuffle g c p nfd
    let new := p.recvs.map (entry .expect) ++ (p.sides.filter fun e => e.addr != 0).map (entry .pinned)
    sendAll { s with sit := s.sit ++ new, shuffles := s.shuffles.insert p.shid x } p.shid 0x24 x

/-! ### Sending (R407, R408) -/

def setShuf (shid : Nat) (f : Shuffle → Shuffle) : M Unit := upd fun s => { s with shuffles := s.shuffles.modify shid f }

/-- The travelling form of a quantised send entry, with its flags; an SCR raises SX (R63, R67, R408). -/
def quantForm (x : Shuffle) (shid seed : Nat) (e : SendEntry) (b : List Byte) : List Byte × Flags :=
  let nf := NF.ofDesc x.nfd
  let rnd (i : Nat) : Nat := if x.qrm = 4 then srHash seed x.qtid shid x.rank (e.name.blk % 65536) (e.name.blk / 65536 % 65536) i else 0
  let block (j : Nat) : Nat × List Nat × Flags :=
    let ws := (List.range 32).map fun i => fieldAt b (4 * (32 * j + i)) 4
    let (σ, cs, fl) := quantise ws nf x.qrm fun i => rnd (32 * j + i)
    (σ, cs, orf fl (flagIf (ws.any isSCR) Flag.sx))
  let bs := (List.range (e.nelem / 32)).map block
  (packCodes nf.w (bs.flatMap (·.2.1)) ++ unhalves (bs.map (·.1)), bs.foldl (fun f r => f ||| r.2.2) 0)

/-- A send entry's travelling form; a lasting error ends the shuffle (R413, R501). -/
def sendForm (g : Eng) (c : Cmd) (shid : Nat) (x : Shuffle) (e : SendEntry) : M (List Byte) := do
  let n := if e.nelem = 0 then e.len else 4 * e.nelem
  match ← readPinned (g.agent c) c.pins e.addr n with
  | .error .ecc =>
    let s ← get
    containReport c.ctx (c.handle s) e.addr 3 0 1 7
    endStatus 12
  | .error b => endStatus (badStatus b)
  | .ok b =>
    if e.nelem = 0 then return b
    let (form, fl) := quantForm x shid c.seed.toNat e b
    upd (updCmd g.cl true c.id fun v => { v with flags := v.flags ||| fl })
    return form

def compOf (e : SendEntry) : Comp := { shid := e.name.shid, len := e.len, src := e.name.src, blk := e.name.blk }

def dataPacket (kind dmask : Nat) (comps : List Comp) (payload : List Byte) : Packet :=
  { pkind := kind, sender := selfId, dmask := dmask, comps := comps, payload := payload }

/-- Entries leave. -/
def markLeft (is : List Nat) (x : Shuffle) : Shuffle :=
  { x with
    sends := (numbered x.sends).map fun e => if is.contains e.1 then { e.2 with left := true } else e.2
    waiting := x.waiting.filter fun w => !is.contains w.1 }

/-- A block leaves as a SOLO; a forced one is counted (R407). -/
def sendSolo (shid i : Nat) (form : List Byte) (forced : Bool) : M Unit := do
  let s ← get
  match s.shuffles.find? shid with
  | none => pure ()
  | some x =>
    let e := x.sends.getD i default
    upd fun s => sendPacket s x (dataPacket 0x20 e.dmask [compOf e] form)
    setShuf shid (markLeft [i])
    if forced then upd (countShuf x.ctx 1 1)

/-- XOR with the shorter operand padded by zeros (R399). -/
def xorPad : List Byte → List Byte → List Byte
  | a :: s, b :: t => (a ^^^ b) :: xorPad s t
  | [], t => t
  | s, [] => s

/-- Room a block or a held packet takes in its buffer (R407, R413). -/
def roomOf (n : Nat) : Nat := (64 + n + 63) / 64 * 64

def pairingUsed (s : State) : Nat :=
  s.shuffles.foldl (fun n e => e.2.waiting.foldl (fun n w => n + roomOf (e.2.sends.getD w.1 default).len) n) 0

/-- A whole group leaves as one CODED packet (R399, R402, R407). -/
def sendCoded (shid : Nat) (x : Shuffle) (group : List Nat) : M Unit := do
  let es := group.map fun i => x.sends.getD i default
  let forms := group.map fun i => (x.waiting.lookup i).getD []
  upd fun s => sendPacket s x (dataPacket 0x21 (es.foldl (fun m e => m ||| e.dmask) 0) (es.map compOf) (forms.foldl xorPad []))
  setShuf shid (markLeft group)

/-- Read a send entry, and let it leave or wait for its group (R407). -/
def readSend (g : Eng) (c : Cmd) (shid i : Nat) : M Unit := do
  let s ← get
  match s.shuffles.find? shid with
  | none => pure ()
  | some x =>
    let e := x.sends.getD i default
    let form ← sendForm g c shid x e
    setShuf shid fun x => { x with todo := x.todo.drop 1 }
    match (numbered x.groups).find? fun y => y.2.contains i with
    | none => sendSolo shid i form false
    | some (n, group) =>
      if x.broken.contains n || 4 * 2 ^ 20 < pairingUsed s + roomOf e.len then sendSolo shid i form true
      else
        setShuf shid fun x => { x with waiting := x.waiting ++ [(i, form)] }
        let x := { x with waiting := x.waiting ++ [(i, form)] }
        if group.all fun k => x.waiting.any (·.1 == k) then sendCoded shid x group else pure ()

/-- The present members of a group leave as solos (R407). -/
def sendSolos (shid : Nat) : List (Nat × List Byte) → M Unit
  | [] => pure ()
  | (i, form) :: t => do
    sendSolo shid i form true
    sendSolos shid t

def breakGroup (shid group : Nat) : M Unit := do
  let s ← get
  match s.shuffles.find? shid with
  | none => pure ()
  | some x =>
    let here := x.waiting.filter fun w => (x.groups.getD group []).contains w.1
    if here.isEmpty then pure ()
    else
      setShuf shid fun x => { x with broken := addName x.broken group }
      sendSolos shid here

def execPairingDeadline (shid group : Nat) (s : State) : Out := .next (runM (breakGroup shid group) s)

/-! ### Decoding (R409-R413) -/

def nameOf (c : Comp) : Name := { shid := c.shid, src := c.src, blk := c.blk }

def siState (s : State) (x : Shuffle) (c : Comp) : Option SiState := (siFind s x.ctx (nameOf c)).map (·.st)

/-- Ask the sender of a packet for blocks (R413). -/
def sendRreqs (x : Shuffle) (sender : Nat) (cs : List Comp) (s : State) : State :=
  cs.foldl (fun s c => sendPacket s x (dataPacket 0x23 (2 ^ x.parts.idxOf sender) [c] [])) s

/-- Side-information misses (R411). -/
def missAll (g : Eng) (c : Cmd) (x : Shuffle) : List Comp → M Unit
  | [] => pure ()
  | m :: t => do
    upd (updCmd g.cl true c.id fun v => { v with events := v.events + 1 })
    upd (countShuf x.ctx 3 1)
    if x.mtrap then
      let s ← get
      event x.ctx 3 0 (c.handle s) (bodyField c.prog.bytes 0x20 8 % 2 ^ 48 + m.shid * 2 ^ 48) (m.blk + m.src * 2 ^ 32)
    missAll g c x t

/-- A plan mismatch (R412): a repechage that mismatches fails its entry; any other packet's expected blocks are asked for. -/
def mismatch (x : Shuffle) (p : Packet) (s : State) : State :=
  let want := p.comps.filter fun c => siState s x c == some .expect
  if p.pkind = 0x22 then want.foldl (fun s c => siUpd x.ctx (nameOf c) (fun e => { e with st := .failed }) s) s
  else sendRreqs x p.sender want s

/-- A side block's bytes; none where a lasting error makes it unknown (R471, R501). -/
def sideRead (g : Eng) (c : Cmd) (e : SiEntry) : M (Option (List Byte)) := do
  match ← readPinned (g.agent c) c.pins e.addr e.len with
  | .ok b => return some b
  | .error .ecc =>
    let s ← get
    containReport c.ctx (c.handle s) e.addr 3 0 1 0
    return none
  | .error b => endStatus (badStatus b)

/-- Cancel the known components of a payload: what is left, and the components left; none is a mismatch (R410, R412). -/
def cancelKnown (g : Eng) (c : Cmd) (x : Shuffle) : List Comp → List Byte → M (Option (List Byte × List Comp))
  | [], data => return some (data, [])
  | k :: t, data => do
    let s ← get
    match siFind s x.ctx (nameOf k) with
    | none =>
      let r ← cancelKnown g c x t data
      return r.map fun v => (v.1, k :: v.2)
    | some e =>
      let known := e.st == .pinned || e.st == .held
      if (known || e.st == .expect) && e.len != k.len then return none
      else
        let b ← if known then sideRead g c e else pure none
        match b with
        | some bs => cancelKnown g c x t (xorPad data bs)
        | none =>
          let r ← cancelKnown g c x t data
          return r.map fun v => (v.1, k :: v.2)

/-- The block counter's signal (R410, R120); one that cannot be made is skipped and reported, as R302 does (log 31). -/
def blockSignal (g : Eng) (c : Cmd) (x : Shuffle) : M Unit := do
  if x.bcntr = 0 then return ()
  tryStep c (do
    let pa ← cmdPhys c x.bcntr 8 true
    upd (release · (g.agent c) c.scope)
    if ← portAdd g c x.bcntr pa 1 then upd (release · (g.agent c) c.scope))

/-- A recovered block is written as one unit, for it may be narrow elements with their scales (R132, log 94). -/
def cmdWriteUnit (g : Eng) (c : Cmd) (va : Nat) (bs : List Byte) : M Unit := do
  let s ← get
  match resolve s c.pins (va % 2 ^ 64) bs.length true with
  | .error b => endStatus (badStatus b)
  | .ok parts => writeUnit (g.agent c) (cutParts parts bs)

/-- Recover a block (R410): the held packets that name it, oldest first, to be decoded anew. -/
def recover (g : Eng) (c : Cmd) (shid : Nat) (x : Shuffle) (k : Comp) (data : List Byte) (p : Packet) : M (List Packet) := do
  let s ← get
  match siFind s x.ctx (nameOf k) with
  | none => return []
  | some e =>
    if !(data.drop e.len).all (· == 0) then
      upd (mismatch x p)
      return []
    else
      cmdWriteUnit g c e.addr (data.take e.len)
      upd (siUpd x.ctx (nameOf k) fun v => { v with st := .held })
      upd (updCmd g.cl true c.id fun v => { v with count := v.count + 1 })
      blockSignal g c x
      let s ← get
      let x := s.shuffles.getD shid x
      return x.held.filter fun q => q.comps.any fun d => nameOf d == nameOf k

def decodeUsed (s : State) : Nat := s.shuffles.foldl (fun n e => e.2.held.foldl (fun n p => n + roomOf p.payload.length) n) 0

/-- Decode a packet (R410): packets to be decoded anew. -/
def decodePacket (g : Eng) (c : Cmd) (shid : Nat) (p : Packet) : M (List Packet) := do
  let s ← get
  match s.shuffles.find? shid with
  | none => return []
  | some x =>
    match ← cancelKnown g c x p.comps p.payload with
    | none =>
      upd (mismatch x p)
      return []
    | some (data, u) =>
      let s ← get
      let want := u.filter fun k => siState s x k == some .expect
      let lack := u.filter fun k => siState s x k != some .expect
      if want.isEmpty then return []
      else if !lack.isEmpty then
        missAll g c x (lack.filter fun k => siState s x k != some .failed)
        upd (sendRreqs x p.sender want)
        return []
      else
        match want with
        | [k] => recover g c shid x k data p
        | _ =>
          if 8 * 2 ^ 20 < decodeUsed s + roomOf p.payload.length then
            upd (sendRreqs x p.sender want)
            upd (countShuf x.ctx 0 1)
          else setShuf shid fun x => { x with held := x.held ++ [p] }
          return []

/-- Take a packet to decode: an arriving one, or one that is still held, which leaves the decode buffer. -/
def takePacket (shid : Nat) (held : Bool) (p : Packet) : M Bool := do
  if !held then return true
  let s ← get
  let there := (s.shuffles.find? shid).any fun x => x.held.contains p
  if there then setShuf shid fun x => { x with held := x.held.erase p }
  return there

/-- Decode packets with every retry they cause, each held one removed only as its turn comes (R409, R410). -/
def decodeAll (g : Eng) (c : Cmd) (shid : Nat) : Nat → List (Bool × Packet) → M Unit
  | 0, _ => pure ()
  | _, [] => pure ()
  | n + 1, (held, p) :: t => do
    if ← takePacket shid held p then
      let more ← decodePacket g c shid p
      decodeAll g c shid n ((more.map fun q => (true, q)) ++ t)
    else decodeAll g c shid n t

/-- Retries a shuffle can need: each block recovered frees the held packets at most once. -/
def retryBound (s : State) (x : Shuffle) : Nat := (x.held.length + 2) * (s.sit.length + 2)

/-! ### Completion (R414, R415, R501) -/

/-- Send CLOSE once every receive entry is settled and every peer is ready (R414). -/
def tryClose (shid : Nat) (s : State) : State :=
  match s.shuffles.find? shid with
  | none => s
  | some x =>
    let settled := !s.sit.any fun e => e.ctx == x.ctx && e.shid == shid && e.st == .expect
    if !x.closed && settled && x.ready.length + 1 == x.parts.length then
      sendAll { s with shuffles := s.shuffles.insert shid { x with closed := true } } shid 0x25 x
    else s

/-- Held entries to be retained stay; the shuffle leaves the package (R414): whether a receive entry failed. -/
def closeShuffle (shid : Nat) (x : Shuffle) : M Bool := do
  let s ← get
  let mine (e : SiEntry) : Bool := e.ctx == x.ctx && e.shid == shid
  let bad := s.sit.any fun e => mine e && e.st == .failed
  let keep (e : SiEntry) : SiEntry := if mine e && e.st == .held && e.ret then { e with st := .retained } else e
  upd fun s => unbind { s with sit := s.sit.map keep } shid
  return bad

/-- A turn of SHUF: bind; then read send entries once every peer is ready; then wait for every CLOSE. -/
def shufTurn (g : Eng) (c : Cmd) : M Bool := do
  if c.prog.pos = 0 then
    reserved c.prog.bytes [(0x28, 8)]
    let plan := bodyField c.prog.bytes 0x20 8
    if plan % 64 ≠ 0 ∨ bodyField c.prog.bytes 0x18 8 % 8 ≠ 0 then endStatus 8
    let p ← readPlan g c plan
    if !p.ok then endStatus 48
    let nfd ← planFormat g c p
    bind g c p nfd
    upd (updCmd g.cl true c.id fun v => { v with prog := { v.prog with pos := 1, nums := [p.shid] } })
    upd (tryClose p.shid)
    return false
  else
    let shid := c.prog.nums.headD 0
    let s ← get
    match s.shuffles.find? shid with
    | none => return false
    | some x =>
      if x.ready.length + 1 < x.parts.length then return false
      match x.todo with
      | i :: _ =>
        readSend g c shid i
        return false
      | [] =>
        if x.sends.all (·.left) && x.closed && x.closes.length + 1 == x.parts.length then
          if ← closeShuffle shid x then endStatus 51 else return true
        else return false

/-- A fault of its own ends a bound shuffle (R501): QUIT to its peers, then completion with the status. -/
def shufBody (g : Eng) (c : Cmd) : M Bool := fun s =>
  match shufTurn g c s with
  | .error (.status n) s' => .error (.status n) (quitShuffles s' fun x => x.cl == g.cl && x.cmd == c.id)
  | r => r

/-- Every page of a byte range admits a thread's reads. -/
def threadMapped (t va n : Nat) : M Bool := do
  let s ← get
  let th := s.thread t
  match ← walkRanges th.ctx th.level.toNat false false [(va, n)] with
  | .ok _ => return true
  | .error _ => return false

/-- The operands of a thread's SHUF that its issue pins (R400). Where a page of the plan or of its entries fails, what is known
of the footprint is answered, and `issuePins` raises the fault at its lowest address (R456). -/
def shufOperands (t _va : Nat) (b : List Byte) : M (List Operand) := do
  let plan := if b.length < 0x28 then 0 else fieldAt b 0x20 8
  let bcntr := if b.length < 0x20 then 0 else fieldAt b 0x18 8
  let counter : List Operand := if bcntr = 0 then [] else [.range bcntr 8 true]
  let header : List Operand := counter ++ [.range plan 64 false]
  if !(← threadMapped t plan 64) then return header
  let p : Plan := { h := ← threadRead t (lineParts 2 plan 64) }
  if !p.headOk then return header
  let n := 32 * p.count
  if !(← threadMapped t p.entriesAt n) then return counter ++ planRanges p plan []
  let es ← threadRead t (lineParts (n / 1024 + 2) p.entriesAt n)
  return counter ++ planRanges p plan es

def execShuf (o : LaneFmt) (s : State) : Out := runBlock o (.shuf o) true 0x06 48 shufBody shufOperands s

/-! ### Packets that arrive (R398, R409) -/

/-- The command of a shuffle. -/
def shufCmd (s : State) (x : Shuffle) : Option Cmd := (s.cluster x.cl).copyQ.find? fun c => c.id == x.cmd

/-- End a shuffle's command with a status. -/
def finishShuf (x : Shuffle) (status : Nat) : M Unit := finishCmd { cl := x.cl, copy := true } x.cmd status

/-- Act on an arriving packet: a malformed one is a link error, one for no shuffle here is stray. -/
def onPacket (ok : Bool) (p : Packet) (act : Eng → Cmd → Nat → Shuffle → M Unit) (s : State) : Out :=
  let shid := (p.comps.headD default).shid
  .next (if !ok then s.bump cntLink 1
    else
      match s.shuffles.find? shid with
      | none => s.bump cntStray 1
      | some x =>
        if !(x.parts.contains p.sender && bit p.dmask x.rank) then s.bump cntStray 1
        else
          match shufCmd s x with
          | none => s
          | some c =>
            match act { cl := x.cl, copy := true } c shid x s with
            | .ok _ s' => tryClose shid s'
            | .error (.status n) s' =>
              runM (finishShuf x n) (quitShuffles s' fun y => y.cl == x.cl && y.cmd == x.cmd)
            | .error _ _ => s)

/-- READY: the first of a peer draws one READY in answer (R407). -/
def execReady (pkt : Packet) (s : State) : Out :=
  onPacket (pkt.pkind == 0x24 && pkt.wf) pkt (fun _ _ shid x => do
    let r := x.parts.idxOf pkt.sender
    if x.ready.contains r then pure ()
    else
      setShuf shid fun x => { x with ready := x.ready ++ [r] }
      upd fun s => sendPacket s x (dataPacket 0x24 (2 ^ r) [{ shid := shid, len := 0, src := 0, blk := 0 }] [])) s

def arriveData (pkt : Packet) (g : Eng) (c : Cmd) (shid : Nat) (x : Shuffle) : M Unit := do
  let s ← get
  decodeAll g c shid (retryBound s x) [(false, pkt)]

def execSolo (pkt : Packet) (s : State) : Out := onPacket (pkt.pkind == 0x20 && pkt.wf) pkt (arriveData pkt) s

def execCoded (pkt : Packet) (s : State) : Out := onPacket (pkt.pkind == 0x21 && pkt.wf) pkt (arriveData pkt) s

def execRepe (pkt : Packet) (s : State) : Out :=
  onPacket (pkt.pkind == 0x22 && pkt.wf) pkt (fun g c shid x => do
    upd (countShuf x.ctx 2 1)
    arriveData pkt g c shid x) s

/-- RREQ: answered with a REPE; one for no send entry here is stray (R413). -/
def execRreq (pkt : Packet) (s : State) : Out :=
  onPacket (pkt.pkind == 0x23 && pkt.wf) pkt (fun g c shid x => do
    match x.sends.find? fun e => pkt.comps.any fun k => nameOf k == e.name with
    | none => upd (·.bump cntStray 1)
    | some e =>
      let form ← sendForm g c shid x e
      upd fun s => sendPacket s x (dataPacket 0x22 (2 ^ x.parts.idxOf pkt.sender) [compOf e] form)) s

def execClose (pkt : Packet) (s : State) : Out :=
  onPacket (pkt.pkind == 0x25 && pkt.wf) pkt (fun _ _ shid x =>
    setShuf shid fun y => { y with closes := addName y.closes (x.parts.idxOf pkt.sender) }) s

/-- QUIT: the shuffle ends with `PEER_LOST` (R415). -/
def execQuit (pkt : Packet) (s : State) : Out :=
  onPacket (pkt.pkind == 0x26 && pkt.wf) pkt (fun _ _ shid x => do
    upd (unbind · shid)
    finishShuf x 52) s

end Sys2Proof.Machine
end

