-- ==== Sys2Proof/Machine/Links.lean ====
section
/-! DEFINITION. Course links, replays and failed packages (R475-R478), the scrubber (R467), and the upsets of storage that
hardware meets (R468-R473). -/

namespace Sys2Proof.Machine

/-! ### Links (R475, R476) -/

/-- The largest allowed width of some sound lanes: 8, 4, 2, or none (R476). -/
def linkWidth (sound : Nat) : Nat := if 8 ≤ sound then 8 else if 4 ≤ sound then 4 else if 2 ≤ sound then 2 else 0

/-- Lanes a Course link runs on (R476). -/
def linkLanes (s : State) (port : Nat) : Nat := linkWidth (s.links.getD port 8)

/-- Report a link escalation to the contexts it affects: which they are is free (log 32). -/
def linkReports (port : Nat) : List Nat → M Unit
  | [] => pure ()
  | x :: t => do
    let k ← pick 0 1
    if k = 1 then errorReport x 5 10 port 5 0
    linkReports port t

/-- A link goes down (R476). -/
def linkDown (port : Nat) : M Unit := do
  upd fun s => { s with links := s.links.put port 0 8 }
  grave 5 10 port
  let s ← get
  linkReports port (s.contexts.map (·.1))

/-- A flit failed its CRC so many times: it is sent again, at most 16 times (R475). A repaired flit counts as a transient
error (log 33). -/
def retransmit (port failures : Nat) : M Unit := do
  let s ← get
  if linkLanes s port = 0 ∨ failures = 0 then pure ()
  else if 16 ≤ failures then linkDown port
  else upd fun s => s.countError 2 10 port

def execFlitRetransmit (port failures : Nat) (s : State) : Out :=
  .next (if port < 24 then runM (retransmit port failures) s else s)

/-- A lane is withdrawn: the link runs on the largest width that its sound lanes allow, or goes down (R476). -/
def withdrawLane (port : Nat) : M Unit := do
  let s ← get
  let n := s.links.getD port 8
  if linkWidth n = 0 then pure ()
  else
    grave 4 10 port
    if n ≤ 2 then linkDown port else upd fun s => { s with links := s.links.put port (n - 1) 8 }

def execLaneWithdrawal (port : Nat) (s : State) : Out := .next (if port < 24 then runM (withdrawLane port) s else s)

/-! ### Replays (R313, R477) -/

/-- Commands of a source that have begun: an engine of a cluster. -/
def sourceCmds (s : State) (source : Nat) : List Cmd :=
  ((s.cluster (source / 2)).queueOf (source % 2 == 0)).filter fun c => c.prog.begun

/-- Reports of a replay outside the window to the contexts of this package: which of them one of another package's requests
touches is free (log 34). -/
def strayReports (port pkg : Nat) : List Nat → M Unit
  | [] => pure ()
  | x :: t => do
    let k ← pick 0 1
    if k = 1 then errorReport x 5 10 port 6 pkg
    strayReports port pkg t

/-- A request older than the replay window: it is not applied, the link is down, and its command never completes. Which of
the source's commands issued it, and on which link it came, are free (log 34). -/
def strayReplay (pkg : Option Nat) (source : Nat) : M Unit := do
  let port ← pick 0 23
  grave 5 10 port
  let s ← get
  match pkg with
  | some p => strayReports port p (s.contexts.map (·.1))
  | none =>
    let l := sourceCmds s source
    let i ← pick 0 (l.length - 1)
    match l[i]? with
    | some c =>
      errorReport c.ctx 5 10 port 6 selfId
      upd (updCmd (source / 2) (source % 2 == 0) c.id fun e => { e with lost := true })
    | none => pure ()
  let s ← get
  if linkLanes s port = 0 then pure () else linkDown port

/-- The operation of an ACCW code and its width in bits (R312). -/
def accOfCode (code : Nat) (narrow : Bool) : Option (Acc × Nat) :=
  let n := if narrow then 32 else 64
  match code with
  | 0x10 => some (.add, n)
  | 0x11 => some (.min true, n)
  | 0x12 => some (.min false, n)
  | 0x13 => some (.max true, n)
  | 0x14 => some (.max false, n)
  | 0x15 => some (.and, n)
  | 0x16 => some (.or, n)
  | 0x17 => some (.xor, n)
  | 0x18 => some (.xchg, n)
  | 0x19 => some (.cas, n)
  | 0x1A => some (.fadd, 32)
  | 0x1B => some (.fadd, 16)
  | 0x1C => some (.fmax, 32)
  | _ => none

/-- A read-modify-write of another package's engine at its home port (R124, R312): the old value; none where it meets a lasting
error, which is counted here and ends its command there (R465, R471). Its command, its flags and its
completion release are in the other package; here the hub writes, and publishes at package scope (log 90). -/
def remoteUpdate (pa n : Nat) (f : Nat → Option Nat) : M (Option Nat) := do
  match ← readPort pa n with
  | none =>
    countSector 3 (pa / 32)
    return none
  | some bs =>
    match f (leNat bs) with
    | some v =>
      writePort .hub pa (leBytes n v)
      upd (release · .hub 4)
    | none => pure ()
    return some (leNat bs)

/-- Bytes of an element that SCAT accumulates (R317). -/
def scatBytes (efmt : Nat) : Nat := if efmt = 4 ∨ efmt = 9 then 8 else if efmt = 11 then 2 else 4

/-- What another package's request does here: the old value its reply carries, 0 where it has none to carry. -/
def remoteAct (source : Nat) (r : PortReq) (pkg : Nat) : M (Option Nat) := do
  match r.act with
  | .acc code narrow expected v =>
    match accOfCode code narrow with
    | none => return some 0
    | some (op, n) => remoteUpdate r.pa (n / 8) fun old => (accNew op n (expected % 2 ^ n) old (v % 2 ^ n)).1
  | .signal n => remoteUpdate r.pa 8 fun old => if 2 ^ 64 ≤ old + n then none else some (old + n)
  | .element efmt op v =>
    match scatAcc efmt op with
    | none => return some 0
    | some k => remoteUpdate r.pa (scatBytes efmt) fun old => (accNew k (8 * scatBytes efmt) 0 old v).1
  | .hold epid nsrc seq efmt op v =>
    upd fun s => holdAdd (epochKey s epid none) nsrc (homePort r.pa)
      { pkg := some pkg, cl := source / 2, seq := seq, cmd := 0, pa := r.pa, efmt := efmt, op := op, v := v } s
    return some 0
  | .close epid nsrc =>
    upd fun s => closeEpoch (epochKey s epid none) nsrc none s
    return some 0

/-- A request with a pair (source, sequence) reaches its port. One that the port's filter holds is answered with the recorded
old value and changes nothing; one of another package that is new to the port takes effect and is recorded; one older than the
window is escalated (R313, R477). -/
def replay (source sequence : Nat) (r : PortReq) : M Unit := do
  let s ← get
  let key := logKey r.pkg r.port source
  let p := s.portLogs.getD key {}
  if p.recent.any (·.1 == sequence) then pure ()
  else if sequence < p.next then strayReplay r.pkg source
  else
    match r.pkg with
    | none => pure ()
    | some pkg =>
      let old ← remoteAct source r pkg
      upd fun s =>
        let p := s.portLogs.getD key {}
        logRequest key old { s with portLogs := s.portLogs.insert key { p with next := sequence } }

def execPortRequestReplay (source sequence : Nat) (req : PortReq) (s : State) : Out :=
  .next (if source < 128 then runM (replay source sequence req) s else s)

/-! ### Failed packages (R382, R415, R478) -/

/-- Destination of a broadcast on the Course. -/
def everyPackage : Nat := 2 ^ 20

/-- The Course finds a package failed, and tells every package. -/
def execPackageDeclaredFailed (pkg : Nat) (s : State) : Out := .next (send s everyPackage (.failed pkg))

/-- A gang that the failed package belongs to, as far as this package knows its members. -/
def touchesGang (pkg : Nat) (l : Launch) : Bool :=
  !l.finished && match l.gang with
    | .leader _ members _ _ _ => members.any fun m => m.1 == pkg
    | .member _ _ leader _ _ => leader == pkg
    | .none => false

/-- A gang led elsewhere, whose other members this package does not know. -/
def mayTouch (pkg : Nat) (l : Launch) : Bool :=
  !l.finished && match l.gang with
    | .member _ _ leader _ _ => leader != pkg
    | _ => false

/-- Contexts with a shuffle or a gang, and so a crew, that touches the package; whether it is another member of a gang led
elsewhere is free (log 87). -/
def touchedContexts (s : State) (pkg : Nat) : List Nat → M (List Nat)
  | [] => return []
  | x :: t => do
    let rest ← touchedContexts s pkg t
    let sure := s.shuffles.any (fun e => e.2.ctx == x && e.2.parts.contains pkg) ||
      s.launches.any fun e => e.2.ctx == x && touchesGang pkg e.2
    let perhaps := s.launches.any fun e => e.2.ctx == x && mayTouch pkg e.2
    let k ← if sure then pure 1 else if perhaps then pick 0 1 else pure 0
    return if k = 1 then x :: rest else rest

/-- Shuffles with the package as participant end with `PEER_LOST` (R415). -/
def loseShuffles : List (Nat × Shuffle) → M Unit
  | [] => pure ()
  | (shid, x) :: t => do
    upd (unbind · shid)
    finishShuf x 52
    loseShuffles t

/-- Gangs not committed abort: this package's as leader complete, its members of others end (R381, R382). -/
def loseGangs : List (Nat × Launch) → M Unit
  | [] => pure ()
  | (id, l) :: t => do
    match l.gang with
    | .member _ _ _ _ false => upd (endLaunch id)
    | _ => abortUncommitted id
    loseGangs t

def reportFailed (pkg : Nat) : List Nat → M Unit
  | [] => pure ()
  | x :: t => do
    errorReport x 5 10 0 7 pkg
    reportFailed pkg t

/-- A package is declared failed. -/
def packageLost (pkg : Nat) : M Unit := do
  let s ← get
  let touched ← touchedContexts s pkg (s.contexts.map (·.1))
  grave 5 10 0
  loseShuffles (s.shuffles.filter fun e => e.2.parts.contains pkg)
  loseGangs (s.launches.filter fun e => touchesGang pkg e.2)
  refreshReady
  reportFailed pkg touched

def execFailureNotification (pkg : Nat) (s : State) : Out := .next (runM (packageLost pkg) s)

/-! ### The scrubber (R467-R469) -/

/-- An upset of a sector that its next read finds; a lasting one is not mended by another. -/
def upsetSector (sector : Nat) (found : Upset) (s : State) : State :=
  if found == .clean || s.mem.upsets.lookup sector == some .lasting then s
  else { s with mem := { s.mem with upsets := (s.mem.upsets.filter fun e => e.1 != sector) ++ [(sector, found)] } }

/-- The scrubber reads a sector: an error that lasts is counted, and its sector is poisoned. -/
def scrub (sector : Nat) (found : Upset) : M Unit := do
  let s ← get
  if s.mem.poison.contains sector then pure ()
  else
    if (s.mem.upsets.lookup sector).isNone then upd (upsetSector sector found)
    let ok ← checkSector sector
    if !ok then countSector 3 sector

def execScrubRead (sector : Nat) (found : Upset) (s : State) : Out := .next (runM (scrub sector found) s)

/-! ### Upsets of other storage (R467, R468, R471, R473) -/

/-- What the read of protected storage finds: a corrected error, one that its retry mended (R468), or a lasting one. -/
def classify (found : Upset) (unit inst : Nat) (lasting : M Unit) : M Unit :=
  match found with
  | .clean => pure ()
  | .corrected => upd fun s => s.countError 1 unit inst
  | .transient => upd fun s => s.countError 2 unit inst
  | .lasting => lasting

/-- A queue entry's storage is lost (R471): one that stands in the queue when the strike finds it. -/
def loseEntry (c q i : Nat) : M Unit := do
  let s ← get
  let k := s.crew c
  let v := k.queues.getD q {}
  if k.stage == .gone || v.occ ≤ i then pure ()
  else
    setQueue c q (v.lose i)
    containReport k.ctx (handleOf k) 0 5 k.cl 1 3

/-- A scratchpad word is lost: the next read of it meets the error. -/
def loseWord (c addr : Nat) : M Unit := upd fun s =>
  if (s.crew c).stage == .gone then s else s.setCrew c { s.crew c with spBad := addName (s.crew c).spBad (addr / 8) }

/-- Save state in transit is lost: the save or restore meets the error (R471, R474). -/
def loseSave (c : Nat) : M Unit := upd fun s =>
  if (s.crew c).stage == .gone || (s.crew c).stage == .resident then s else s.setCrew c { s.crew c with saveBad := true }

/-- An SRAM bank's contents move to the cluster's spare bank, or the unit is withdrawn (R473). -/
def loseBank (cl bank : Nat) : M Unit := do
  let s ← get
  let v := s.cluster cl
  if v.withdrawn then pure ()
  else if banksLeft s cl = 0 then withdrawUnit cl 4 (cl * 16 + bank)
  else
    upd fun s => s.setCluster cl { v with spareBank := some (banksLeft s cl - 1) }
    grave 4 4 (cl * 16 + bank)

/-- The unit of an owner's registers, and its instance (R466). -/
def registerUnit (s : State) : Owner → Nat × Nat
  | .thread t => (9, t / 8)
  | .crew c => (7, (s.crew c).cl)

/-- A lost register stops the crew (R471). -/
def loseRegister (o : Owner) : M Unit := do
  let s ← get
  let live : Bool := match o with
    | .thread t => (s.thread t).mode != .free && (s.thread t).mode != .halted
    | .crew c => (s.crew c).stage == .resident
  if live then containOwner o (registerUnit s o).1 0 else pure ()

/-- A lost word of a Stroke array stops the crew (R471). -/
def loseStroke (c arr : Nat) : M Unit := do
  let s ← get
  let k := s.crew c
  if k.stage == .resident then
    containReport k.ctx (handleOf k) 0 6 (k.cl * 2 + arr % 2) 1 2
    haltOwner k.thread 0
  else pure ()

/-- A block lost from the pairing buffer is read again from its send entry (R471). -/
def losePairing (shid i : Nat) : M Unit := do
  let s ← get
  match s.shuffles.find? shid with
  | none => pure ()
  | some x =>
    if x.waiting.any fun w => w.1 == i then
      setShuf shid fun x => { x with waiting := x.waiting.filter (fun w => w.1 != i), todo := i :: x.todo }
      containReport x.ctx 0 0 11 0 1 0
    else pure ()

/-- A packet lost from the decode buffer: the receiver asks for its blocks (R413, R471). -/
def loseHeld (shid i : Nat) : M Unit := do
  let s ← get
  match s.shuffles.find? shid with
  | none => pure ()
  | some x =>
    match x.held[i]? with
    | none => pure ()
    | some p =>
      setShuf shid fun x => { x with held := x.held.eraseIdx i }
      upd (sendRreqs x p.sender (p.comps.filter fun c => siState s x c == some .expect))
      containReport x.ctx 0 0 11 0 1 0

/-- A byte of an entry of Chervil's cache changes (R488). -/
def corrupt (i offset value : Nat) : M Unit := upd fun s =>
  { s with cache := s.cache.modify i fun e => { e with cipher := e.cipher.set offset (BitVec.ofNat 8 value) } }

/-- What the sensors read is reported (R496, R499); at the power limit the arithmetic clock steps down. -/
def sense (power : Nat) (temps : List Nat) : M Unit := upd fun s =>
  { s with power := power, temps := temps, slowClock := s.slowClock || decide (s.powerLimit ≤ power) }

/-- A data lane of a pseudo-channel is replaced by a spare, or the channel is withdrawn, and capacity falls (R473, log 111). -/
def loseLane (chan : Nat) : M Unit := do
  let s ← get
  let n := lanesLeft s chan
  if s.channelsGone.contains chan then pure ()
  else
    grave 4 1 chan
    if n = 0 then upd fun s => { s with channelsGone := addName s.channelsGone chan }
    else upd fun s => { s with laneSpares := s.laneSpares.insert chan (n - 1) }

/-- A physical upset happens: memory, Stroke arithmetic, scratchpads and save state meet it at their next read or block, other
storage at once. -/
def meet : Glitch → M Unit
  | .sector a u => upd (upsetSector (a / 32) u)
  | .residue cl arr row times =>
    upd fun s => s.setCluster cl { s.cluster cl with residues := (s.cluster cl).residues ++ [(arr, row, times)] }
  | .entry c q i u => do
    let s ← get
    classify u 5 (s.crew c).cl (loseEntry c q i)
  | .word c a u => do
    let s ← get
    let b ← pick 0 11
    classify u 4 ((s.crew c).cl * 16 + b) (loseWord c a)
  | .bank cl b => if cl < 64 ∧ b < 12 then loseBank cl b else pure ()
  | .register o u => do
    let s ← get
    classify u (registerUnit s o).1 (registerUnit s o).2 (loseRegister o)
  | .stroke c arr u => do
    let s ← get
    classify u 6 ((s.crew c).cl * 2 + arr % 2) (loseStroke c arr)
  | .save c u => do
    let s ← get
    classify u 7 (s.crew c).cl (loseSave c)
  | .token c sec => upd fun s => if (s.crew c).stage == .gone then s else (s.setCrew c (rewindSection (s.crew c) sec)).countError 2 8 (s.crew c).cl
  | .parity => do
    let core ← pick 0 255
    upd fun s => s.countError 2 9 core
  | .cache t va u => classify u 9 (t / 8) (do
    let s ← get
    if (s.thread t).mode != .free && (s.thread t).mode != .halted then containOwner (.thread t) 9 va else pure ())
  | .sealed i o v => corrupt i o v
  | .sensors p ts => sense p ts
  | .pairing shid i u => classify u 11 0 (losePairing shid i)
  | .decoding shid i u => classify u 11 0 (loseHeld shid i)
  | .channel k => if k < 768 then loseLane k else pure ()

def strike (s : State) (g : Glitch) : State := runM (meet g) s

end Sys2Proof.Machine
end

