-- ==== Sys2Proof/Machine/Host.lean ====
section
/-! DEFINITION. The host interface: host accesses, the management mailbox, bring-up, and the thermal events (R433, R465,
R487-R489, R494-R499). -/

namespace Sys2Proof.Machine

/-! ### Host accesses (R494, R498, R500) -/

/-- Where device memory ends: HBM4E first, then LPDDR-6 (R12, R493). -/
def deviceTop : Nat := hbmBytes + min Config.lpddrBytes (2 ^ 41)

/-- Whether an access lies in device memory. -/
def inDevice (addr len : Nat) : Bool := addr + len ≤ deviceTop

/-- The launch window's offset of an address: 256 MiB above device memory (R493). -/
def windowOffset (addr : Nat) : Option Nat :=
  if deviceTop ≤ addr ∧ addr < deviceTop + 2 ^ 28 then some (addr - deviceTop) else none

/-- Where host memory stands, which the device caches (R494): above the launch window (log 92). -/
def hostBase : Nat := deviceTop + 2 ^ 28

/-- A host read returns what is published at package scope, its own later writes apart (R113, R494). One of device memory
acquires there first. -/
def hostLoad (addr len : Nat) : M Unit := do
  if inDevice addr len then upd (acquire · .host 4)
  let ok ← checkCounted (sectorsOf addr len)
  let s ← get
  let own := (s.view .host).pend
  let byte (pa : Nat) : Byte := (lastCover own pa).getD (s.mem.published pa)
  upd fun s => { s with hostAnswer := if ok then some ((List.range len).map fun i => byte (addr + i)) else none }

/-- The size register of a CXL DVSEC range (R498): Memory_Info_Valid in bit 0, Memory_Active in bit 1, in bits 15:13 the
Memory_Active_Timeout, whose code 3 stands for 64 s; the other bits are free (log 105). -/
def dvsecLoad : M Unit := do
  let v ← pick 0 (2 ^ 32 - 1)
  upd fun s =>
    let w := v / 2 ^ 16 * 2 ^ 16 + 3 * 2 ^ 13 + bits v 12 2 * 4 + (if isUp s then 2 else 0) + 1
    { s with hostAnswer := if s.boot = 0 then none else some (leBytes 4 w) }

/-- Bytes of the MSI-X table: an entry of 16 bytes for each of vectors 0 to 256 (R493, R495, log 92). -/
def msixBytes : Nat := 257 * 16

/-- Where the boot status word and the MSI-X table begin within BAR0's 2 MiB (R493, log 92). -/
def statusAt : Nat := Config.bootStatusAt % (2 ^ 21 - 1)
def tableAt : Nat := Config.msixTableAt % (2 ^ 21 - msixBytes + 1)

/-- A byte of BAR0: of the boot status word, or of the MSI-X table; the mailbox's own bytes are free (R493, log 92). -/
def barByte (offset : Nat) : M Byte := do
  let s ← get
  if statusAt ≤ offset ∧ offset < statusAt + 2 then
    return BitVec.ofNat 8 (s.boot.toNat / 2 ^ (8 * (offset - statusAt)))
  else if tableAt ≤ offset ∧ offset < tableAt + msixBytes then
    return s.msixTable.getD (offset - tableAt) 0
  else
    let v ← pick 0 255
    return BitVec.ofNat 8 v

def barBytes : List Nat → M (List Byte)
  | [] => return []
  | o :: t => do
    let b ← barByte o
    let rest ← barBytes t
    return b :: rest

/-- A host read of BAR0's 2 MiB; beyond them nothing answers. -/
def barLoad (offset len : Nat) : M Unit := do
  if 2 ^ 21 < offset + len then upd fun s => { s with hostAnswer := none }
  else
    let bs ← barBytes (List.range' offset len)
    upd fun s => { s with hostAnswer := some bs }

/-- A read of device memory before bring-up is done completes with poison (R498), and one of the launch window has no answer (log
92); BAR0 and the configuration space answer from the first step on. -/
def execHostRead (addr : HostAddr) (len : Nat) (s : State) : Out :=
  .next (match addr with
    | .memory a =>
      if hostBase ≤ a || (isUp s && inDevice a len) then runM (hostLoad a len) s else { s with hostAnswer := none }
    | .bar0 o => runM (barLoad o len) s
    | .dvsec _ => runM dvsecLoad s)

/-- A host write. Whether the host makes it public at once is free; its next launch-port write does (R370, log 35). -/
def hostStore (addr : Nat) (data : List Byte) : M Unit := do
  writePhys .host addr data
  let k ← pick 0 1
  if k = 1 then upd (release · .host 4)

/-- A host write to BAR0 changes the bytes of the MSI-X table it covers; mailbox commands have their own events. -/
def barStore (offset : Nat) (data : List Byte) (s : State) : State :=
  data.zipIdx.foldl (fun s (b, i) =>
    let o := offset + i
    if tableAt ≤ o ∧ o < tableAt + msixBytes then
      { s with msixTable := s.msixTable.put (o - tableAt) b 0 }
    else s) s

/-- A host write to device memory or to its own; one to the launch window is a launch-port write (R369, R493). The registers of
the configuration space it writes change nothing here. -/
def execHostWrite (addr : HostAddr) (data : List Byte) (s : State) : Out :=
  match addr with
  | .bar0 o => .next (barStore o data s)
  | .dvsec _ => .next s
  | .memory a =>
    if hostBase ≤ a then .next (runM (hostStore a data) s)
    else if inDevice a data.length then .next (if isUp s then runM (hostStore a data) s else s)
    else
      match windowOffset a with
      | some o => execLaunchPortWrite o data s
      | none => .next s

/-! ### The management mailbox (R496-R498) -/

/-- Carry out a mailbox command: its status is free, its completion signals vector 0 (R495, log 36). Before bring-up is done
it is discarded and counted (R498). -/
def mailbox (act : M MailAnswer) (s : State) : Out :=
  .next (if !isUp s then s.bump cntEarly 1
    else runM (do
      let a ← act
      let st ← pick 0 0xFFFF
      upd fun s => { s with mailAnswer := a, mailStatus := BitVec.ofNat 16 st, msix := addName s.msix 0 }) s)

/-- A change that answers nothing but its status. -/
def mailChange (f : State → State) (s : State) : Out := mailbox (do upd f; return .none) s

/-- Units leave every partition. -/
def freeUnits (units : List Nat) (s : State) : State :=
  let drop (p : Partition) : Partition := { p with units := p.units.filter fun u => !units.contains u }
  { s with partitions := Tbl.mapVals drop s.partitions }

/-- Crews of other partitions leave a unit by pre-emption, and its cores' TLBs are cleared (R433). -/
def drainUnit (part u : Nat) (s : State) : State :=
  let leaves (c : Nat) : Bool := (s.context (s.crew c).ctx).part != part
  let s := ((crewsOn s u).filter leaves).foldl preempt s
  { s with tlb := s.tlb.filter fun e => e.1 / 4 != u }

/-- Assign units to a partition: they leave the one they were in. A unit takes no crew until the last of another partition
has left it. -/
def assignUnits (part : Nat) (units : List Nat) (s : State) : State :=
  let us := (units.filter (· < 64)).dedup
  let moved := us.filter fun u => !(s.partition part).units.contains u
  let s := freeUnits us s
  let p := s.partition part
  moved.foldl (fun s u => drainUnit part u s) (s.setPartition part { p with units := p.units ++ us })

def execMailboxAssignUnits (part : Nat) (units : List Nat) (s : State) : Out := mailChange (assignUnits part units) s

def execMailboxAssignTenant (part tenant : Nat) (s : State) : Out :=
  mailChange (fun s => s.setPartition part { s.partition part with tenant := some tenant }) s

/-- Up to eight signing keys per tenant (R487, R496). -/
def execMailboxRegisterKey (tenant slot : Nat) (key : List Byte) (s : State) : Out :=
  mailChange (fun s => if slot < 8 then { s with keys := s.keys.insert (tenant * 8 + slot) key } else s) s

def execMailboxSetCacheQuota (tenant quota : Nat) (s : State) : Out :=
  mailChange (fun s => { s with quotas := s.quotas.insert tenant quota }) s

/-- The package power limit; a power at it already steps the arithmetic clock down (R499). -/
def execMailboxSetPowerLimit (watts : Nat) (s : State) : Out :=
  mailChange (fun s => { s with powerLimit := watts, slowClock := s.slowClock || decide (watts ≤ s.power) }) s

/-- The management counters (R465, R493), and the power and temperatures (R499). -/
def execMailboxReadErrorCounters (s : State) : Out :=
  mailbox (do
    let s ← get
    return .counters s.counters s.errorAddrs s.power s.temps) s

/-- An image passes the checks of R497: both signatures verify, and its version is at or above the fuses'. -/
def imageOk (x : FirmwareImage) : Bool :=
  signedBy Config.imageModulus Config.imageKey x.bytes x.rsa x.slh && Config.fusedVersion ≤ Config.imageVersion x.bytes

/-- An image that passes is staged into the spare slot of its kind (R497); a firmware update discards every cached translation
(R489). -/
def stageImage (x : FirmwareImage) (s : State) : State :=
  if imageOk x then
    { s with
      staged := (s.staged.filter fun y => y.kind != x.kind) ++ [x]
      cache := if x.kind == .firmware then [] else s.cache }
  else s

def execMailboxUpdateFirmware (image : FirmwareImage) (s : State) : Out := mailChange (stageImage image) s

/-- Bytes of the image of a kind that the part runs with. -/
def running (s : State) (kind : ImageKind) : List Byte :=
  ((s.images.find? fun x => x.kind == kind).map (·.bytes)).getD (Config.shippedImage kind)

/-- The measurements of boot ROM, firmware and configuration (R497): the SHA-384 of each (log 106). -/
def measurements (s : State) : List Byte := sha384 Config.bootRom ++ sha384 (running s .firmware) ++ sha384 Config.configuration

/-- An attestation report over a 32-byte nonce (R497), signed with both algorithms; what each draws at random is free. -/
def attest (nonce : List Byte) : M MailAnswer := do
  if nonce.length ≠ 32 then return .none
  let s ← get
  let salt ← freeBytes 48
  let random ← freeBytes 24
  let h := sha384 (measurements s ++ featureVector ++ nonce)
  return .report (measurements s) featureVector nonce (rsaSign Config.attestModulus Config.attestExponent h salt)
    (slhSign Config.attestKey h random)

def execMailboxAttestation (nonce : List Byte) (s : State) : Out := mailbox (attest nonce) s

/-! ### Bring-up (R498) -/

/-- Units whose self-test fails are withdrawn and counted: which they are, and which part of a unit failed, is free (log 37). -/
def selfTests : Nat → M Unit
  | 0 => pure ()
  | n + 1 => do
    let k ← pick 0 1
    if k = 1 then
      let unit ← pick 4 9
      let parts := if unit = 4 then 16 else if unit = 6 then 2 else if unit = 9 then 4 else 1
      let i ← pick 0 (min parts 12 - 1)
      withdrawUnit n unit (n * parts + i)
    selfTests n

/-- Ports train at the widest width that their sound lanes allow. -/
def trainPorts : Nat → M Unit
  | 0 => pure ()
  | n + 1 => do
    let k ← pick 0 8
    upd fun s => { s with links := s.links.put n (if k < 2 then 0 else k) 8 }
    trainPorts n

/-- Reset is released: every register as at reset, and step 1 is under way. Memory stands until step 4 writes it, images and what
is staged stay; the free values drawn and the turns to come go on (log 2, log 3). The step that will fail is the environment's,
0 for none. -/
def resetReleased (failedStep : Nat) (s : State) : State :=
  { State.reset with
    boot := 1, bootFail := failedStep, mem := s.mem, images := s.images, staged := s.staged
    agenda := s.agenda, draws := s.draws, nextId := s.nextId }

def execResetRelease (failedStep : Nat) (s : State) : Out := .next (resetReleased failedStep s)

/-- The boot status word changes, which signals vector 0 (R495, R498). -/
def setBoot (n : Nat) (s : State) : State := { s with boot := BitVec.ofNat 16 n, msix := addName s.msix 0 }

/-- What stood staged has been verified and runs from now on (R497). -/
def install (s : State) : State :=
  { s with images := s.staged ++ s.images.filter (fun x => !s.staged.any fun y => y.kind == x.kind), staged := [] }

/-- The fuses give the spare maps (R473): what was engaged since is forgotten. -/
def fuseMaps (s : State) : State := { s with clusters := [], laneSpares := [], channelsGone := [] }

/-- Every sector of device memory is written with zeros and valid ECC; host memory stays. -/
def zeroMemory (s : State) : State :=
  let kept (w : Write) : Write := { w with cells := w.cells.filter fun e => hostBase ≤ e.1 }
  { s with mem := {
      cells := s.mem.cells.filter fun e => hostBase ≤ e.1
      log := (s.mem.log.map kept).filter fun w => !w.cells.isEmpty
      poison := s.mem.poison.filter fun k => hostBase ≤ 32 * k
      upsets := s.mem.upsets.filter fun e => hostBase ≤ 32 * e.1 } }

/-- The action of a step of bring-up (R498). -/
def bringUpAction (n : Nat) : M Unit :=
  match n with
  | 2 => upd install
  | 3 => upd fuseMaps
  | 4 => upd zeroMemory
  | 5 => selfTests 64
  | 6 => trainPorts 24
  | _ => pure ()

/-- A turn of bring-up: the step under way is done and the next begins, after step 6 the status says ready; or it fails, and
bring-up stops (R498). Its steps' bounds are in time alone (log 72). -/
def bringUpStep : M Unit := do
  let s ← get
  let n := s.boot.toNat
  if n = 0 ∨ 7 ≤ n then pure ()
  else if n = s.bootFail then upd (setBoot (0x8000 + n))
  else
    bringUpAction n
    upd (setBoot (if n = 6 then 0xFF else n + 1))

/-! ### The arithmetic clock and the thermal trip (R499) -/

def execThermalWarning (s : State) : Out := .next { s with slowClock := true }

def execArithmeticClockRecovery (s : State) : Out := .next { s with slowClock := false }

/-- A thermal trip halts the package. -/
def execThermalTrip (s : State) : Out := .next { s with halted := true }

/-- The one turn a halted package takes: reset is released again. -/
def revives : Turn → Bool
  | .event (.resetRelease _) => true
  | _ => false

end Sys2Proof.Machine
end

