-- ==== Sys2Proof/Machine/Dispatch.lean ====
section
/-! DEFINITION. The meaning of each instruction, one arm each. -/

namespace Sys2Proof.Machine

def exec (i : Instr) (s : State) : Host.Outcome State Fault Refusal :=
  match i with
  | .add o => Sys2Proof.Machine.execAdd o s
  | .sub o => Sys2Proof.Machine.execSub o s
  | .mul o => Sys2Proof.Machine.execMul o s
  | .mulh o => Sys2Proof.Machine.execMulh o s
  | .mulhn o => Sys2Proof.Machine.execMulhn o s
  | .div o => Sys2Proof.Machine.execDiv o s
  | .divn o => Sys2Proof.Machine.execDivn o s
  | .rem o => Sys2Proof.Machine.execRem o s
  | .remn o => Sys2Proof.Machine.execRemn o s
  | .neg o => Sys2Proof.Machine.execNeg o s
  | .abs o => Sys2Proof.Machine.execAbs o s
  | .min o => Sys2Proof.Machine.execMin o s
  | .max o => Sys2Proof.Machine.execMax o s
  | .minn o => Sys2Proof.Machine.execMinn o s
  | .maxn o => Sys2Proof.Machine.execMaxn o s
  | .and o => Sys2Proof.Machine.execAnd o s
  | .or o => Sys2Proof.Machine.execOr o s
  | .xor o => Sys2Proof.Machine.execXor o s
  | .andn o => Sys2Proof.Machine.execAndn o s
  | .shl o => Sys2Proof.Machine.execShl o s
  | .shr o => Sys2Proof.Machine.execShr o s
  | .sar o => Sys2Proof.Machine.execSar o s
  | .rotl o => Sys2Proof.Machine.execRotl o s
  | .clz o => Sys2Proof.Machine.execClz o s
  | .ctz o => Sys2Proof.Machine.execCtz o s
  | .popc o => Sys2Proof.Machine.execPopc o s
  | .bswap o => Sys2Proof.Machine.execBswap o s
  | .ext o => Sys2Proof.Machine.execExt o s
  | .ins o => Sys2Proof.Machine.execIns o s
  | .mort o => Sys2Proof.Machine.execMort o s
  | .demort o => Sys2Proof.Machine.execDemort o s
  | .addi o => Sys2Proof.Machine.execAddi o s
  | .andi o => Sys2Proof.Machine.execAndi o s
  | .ori o => Sys2Proof.Machine.execOri o s
  | .xori o => Sys2Proof.Machine.execXori o s
  | .shli o => Sys2Proof.Machine.execShli o s
  | .shri o => Sys2Proof.Machine.execShri o s
  | .sari o => Sys2Proof.Machine.execSari o s
  | .cmpi o => Sys2Proof.Machine.execCmpi o s
  | .limm o => Sys2Proof.Machine.execLimm o s
  | .limmK o => Sys2Proof.Machine.execLimmK o s
  | .mov o => Sys2Proof.Machine.execMov o s
  | .sel o => Sys2Proof.Machine.execSel o s
  | .cmp o => Sys2Proof.Machine.execCmp o s
  | .pand o => Sys2Proof.Machine.execPand o s
  | .por o => Sys2Proof.Machine.execPor o s
  | .pxor o => Sys2Proof.Machine.execPxor o s
  | .pnot o => Sys2Proof.Machine.execPnot o s
  | .br o => Sys2Proof.Machine.execBr o s
  | .bc o => Sys2Proof.Machine.execBc o s
  | .call o => Sys2Proof.Machine.execCall o s
  | .jr o => Sys2Proof.Machine.execJr o s
  | .callr o => Sys2Proof.Machine.execCallr o s
  | .ret o => Sys2Proof.Machine.execRet o s
  | .waitc o => Sys2Proof.Machine.execWaitc o s
  | .nop o => Sys2Proof.Machine.execNop o s
  | .qpush o => Sys2Proof.Machine.execQpush o s
  | .qpushm o => Sys2Proof.Machine.execQpushm o s
  | .qpop o => Sys2Proof.Machine.execQpop o s
  | .ld o => Sys2Proof.Machine.execLd o s
  | .st o => Sys2Proof.Machine.execSt o s
  | .ldx o => Sys2Proof.Machine.execLdx o s
  | .stx o => Sys2Proof.Machine.execStx o s
  | .pref o => Sys2Proof.Machine.execPref o s
  | .pin o => Sys2Proof.Machine.execPin o s
  | .unpin o => Sys2Proof.Machine.execUnpin o s
  | .phase o => Sys2Proof.Machine.execPhase o s
  | .madr o => Sys2Proof.Machine.execMadr o s
  | .tadr o => Sys2Proof.Machine.execTadr o s
  | .qpeek o => Sys2Proof.Machine.execQpeek o s
  | .qskip o => Sys2Proof.Machine.execQskip o s
  | .qstat o => Sys2Proof.Machine.execQstat o s
  | .yield o => Sys2Proof.Machine.execYield o s
  | .loop o => Sys2Proof.Machine.execLoop o s
  | .loopq o => Sys2Proof.Machine.execLoopq o s
  | .tsrd o => Sys2Proof.Machine.execTsrd o s
  | .hrd o => Sys2Proof.Machine.execHrd o s
  | .hwr o => Sys2Proof.Machine.execHwr o s
  | .fcfg o => Sys2Proof.Machine.execFcfg o s
  | .farm o => Sys2Proof.Machine.execFarm o s
  | .fwait o => Sys2Proof.Machine.execFwait o s
  | .fcommit o => Sys2Proof.Machine.execFcommit o s
  | .stop o => Sys2Proof.Machine.execStop o s
  | .ctlr o => Sys2Proof.Machine.execCtlr o s
  | .ctlw o => Sys2Proof.Machine.execCtlw o s
  | .featq o => Sys2Proof.Machine.execFeatq o s
  | .bkpt o => Sys2Proof.Machine.execBkpt o s
  | .sysc o => Sys2Proof.Machine.execSysc o s
  | .eret o => Sys2Proof.Machine.execEret o s
  | .tlbi o => Sys2Proof.Machine.execTlbi o s
  | .ifence o => Sys2Proof.Machine.execIfence o s
  | .halt o => Sys2Proof.Machine.execHalt o s
  | .qclose o => Sys2Proof.Machine.execQclose o s
  | .vadd o => Sys2Proof.Machine.execVadd o s
  | .vsub o => Sys2Proof.Machine.execVsub o s
  | .vmul o => Sys2Proof.Machine.execVmul o s
  | .vfma o => Sys2Proof.Machine.execVfma o s
  | .vfms o => Sys2Proof.Machine.execVfms o s
  | .vfnma o => Sys2Proof.Machine.execVfnma o s
  | .vmin o => Sys2Proof.Machine.execVmin o s
  | .vmax o => Sys2Proof.Machine.execVmax o s
  | .vabs o => Sys2Proof.Machine.execVabs o s
  | .vneg o => Sys2Proof.Machine.execVneg o s
  | .vcps o => Sys2Proof.Machine.execVcps o s
  | .vclass o => Sys2Proof.Machine.execVclass o s
  | .vrcpe o => Sys2Proof.Machine.execVrcpe o s
  | .vrsqe o => Sys2Proof.Machine.execVrsqe o s
  | .vexp2 o => Sys2Proof.Machine.execVexp2 o s
  | .vlog2 o => Sys2Proof.Machine.execVlog2 o s
  | .vcvt o => Sys2Proof.Machine.execVcvt o s
  | .vqnt o => Sys2Proof.Machine.execVqnt o s
  | .vdqnt o => Sys2Proof.Machine.execVdqnt o s
  | .vcmp o => Sys2Proof.Machine.execVcmp o s
  | .vsel o => Sys2Proof.Machine.execVsel o s
  | .vmand o => Sys2Proof.Machine.execVmand o s
  | .vmor o => Sys2Proof.Machine.execVmor o s
  | .vmnot o => Sys2Proof.Machine.execVmnot o s
  | .vand o => Sys2Proof.Machine.execVand o s
  | .vor o => Sys2Proof.Machine.execVor o s
  | .vxor o => Sys2Proof.Machine.execVxor o s
  | .vshl o => Sys2Proof.Machine.execVshl o s
  | .vshr o => Sys2Proof.Machine.execVshr o s
  | .vsar o => Sys2Proof.Machine.execVsar o s
  | .vpopc o => Sys2Proof.Machine.execVpopc o s
  | .vclz o => Sys2Proof.Machine.execVclz o s
  | .vscan o => Sys2Proof.Machine.execVscan o s
  | .vred o => Sys2Proof.Machine.execVred o s
  | .vdot o => Sys2Proof.Machine.execVdot o s
  | .vminx o => Sys2Proof.Machine.execVminx o s
  | .vmaxx o => Sys2Proof.Machine.execVmaxx o s
  | .vmov o => Sys2Proof.Machine.execVmov o s
  | .vbcast o => Sys2Proof.Machine.execVbcast o s
  | .vget o => Sys2Proof.Machine.execVget o s
  | .vset o => Sys2Proof.Machine.execVset o s
  | .vpop o => Sys2Proof.Machine.execVpop o s
  | .vpush o => Sys2Proof.Machine.execVpush o s
  | .vperm o => Sys2Proof.Machine.execVperm o s
  | .vtopk o => Sys2Proof.Machine.execVtopk o s
  | .vcmpv o => Sys2Proof.Machine.execVcmpv o s
  | .vselv o => Sys2Proof.Machine.execVselv o s
  | .mlds o => Sys2Proof.Machine.execMlds o s
  | .mldsp o => Sys2Proof.Machine.execMldsp o s
  | .mswap o => Sys2Proof.Machine.execMswap o s
  | .mrun o => Sys2Proof.Machine.execMrun o s
  | .mver o => Sys2Proof.Machine.execMver o s
  | .mzero o => Sys2Proof.Machine.execMzero o s
  | .mdrain o => Sys2Proof.Machine.execMdrain o s
  | .mdrainv o => Sys2Proof.Machine.execMdrainv o s
  | .mmask o => Sys2Proof.Machine.execMmask o s
  | .mbnd o => Sys2Proof.Machine.execMbnd o s
  | .mwait o => Sys2Proof.Machine.execMwait o s
  | .mstat o => Sys2Proof.Machine.execMstat o s
  | .agdef o => Sys2Proof.Machine.execAgdef o s
  | .agrun o => Sys2Proof.Machine.execAgrun o s
  | .agput o => Sys2Proof.Machine.execAgput o s
  | .agidx o => Sys2Proof.Machine.execAgidx o s
  | .agbank o => Sys2Proof.Machine.execAgbank o s
  | .agtake o => Sys2Proof.Machine.execAgtake o s
  | .agmark o => Sys2Proof.Machine.execAgmark o s
  | .copy o => Sys2Proof.Machine.execCopy o s
  | .copy2 o => Sys2Proof.Machine.execCopy2 o s
  | .fill o => Sys2Proof.Machine.execFill o s
  | .csig o => Sys2Proof.Machine.execCsig o s
  | .strmq o => Sys2Proof.Machine.execStrmq o s
  | .drainq o => Sys2Proof.Machine.execDrainq o s
  | .shuf o => Sys2Proof.Machine.execShuf o s
  | .launch o => Sys2Proof.Machine.execLaunch o s
  | .cefence o => Sys2Proof.Machine.execCefence o s
  | .prefl2 o => Sys2Proof.Machine.execPrefl2 o s
  | .accwAdd o => Sys2Proof.Machine.execAccwAdd o s
  | .accwMin o => Sys2Proof.Machine.execAccwMin o s
  | .accwMinn o => Sys2Proof.Machine.execAccwMinn o s
  | .accwMax o => Sys2Proof.Machine.execAccwMax o s
  | .accwMaxn o => Sys2Proof.Machine.execAccwMaxn o s
  | .accwAnd o => Sys2Proof.Machine.execAccwAnd o s
  | .accwOr o => Sys2Proof.Machine.execAccwOr o s
  | .accwXor o => Sys2Proof.Machine.execAccwXor o s
  | .accwXchg o => Sys2Proof.Machine.execAccwXchg o s
  | .accwCas o => Sys2Proof.Machine.execAccwCas o s
  | .accwFaddF32 o => Sys2Proof.Machine.execAccwFaddF32 o s
  | .accwFaddBf16 o => Sys2Proof.Machine.execAccwFaddBf16 o s
  | .accwFmax o => Sys2Proof.Machine.execAccwFmax o s
  | .gath o => Sys2Proof.Machine.execGath o s
  | .scat o => Sys2Proof.Machine.execScat o s
  | .bags o => Sys2Proof.Machine.execBags o s
  | .isect o => Sys2Proof.Machine.execIsect o s
  | .msort o => Sys2Proof.Machine.execMsort o s
  | .spsrch o => Sys2Proof.Machine.execSpsrch o s
  | .ixfence o => Sys2Proof.Machine.execIxfence o s
  | .elementSrc crew sec el => Sys2Proof.Machine.execElementSrc crew sec el s
  | .elementSnk crew sec el => Sys2Proof.Machine.execElementSnk crew sec el s
  | .elementAgen crew sec el => Sys2Proof.Machine.execElementAgen crew sec el s
  | .elementAdd crew sec el => Sys2Proof.Machine.execElementAdd crew sec el s
  | .elementSub crew sec el => Sys2Proof.Machine.execElementSub crew sec el s
  | .elementMul crew sec el => Sys2Proof.Machine.execElementMul crew sec el s
  | .elementMac crew sec el => Sys2Proof.Machine.execElementMac crew sec el s
  | .elementMin crew sec el => Sys2Proof.Machine.execElementMin crew sec el s
  | .elementMax crew sec el => Sys2Proof.Machine.execElementMax crew sec el s
  | .elementAnd crew sec el => Sys2Proof.Machine.execElementAnd crew sec el s
  | .elementOr crew sec el => Sys2Proof.Machine.execElementOr crew sec el s
  | .elementXor crew sec el => Sys2Proof.Machine.execElementXor crew sec el s
  | .elementShl crew sec el => Sys2Proof.Machine.execElementShl crew sec el s
  | .elementShr crew sec el => Sys2Proof.Machine.execElementShr crew sec el s
  | .elementSar crew sec el => Sys2Proof.Machine.execElementSar crew sec el s
  | .elementCmp crew sec el => Sys2Proof.Machine.execElementCmp crew sec el s
  | .elementSel crew sec el => Sys2Proof.Machine.execElementSel crew sec el s
  | .elementCvt crew sec el => Sys2Proof.Machine.execElementCvt crew sec el s
  | .elementSteer crew sec el => Sys2Proof.Machine.execElementSteer crew sec el s
  | .elementMerge crew sec el => Sys2Proof.Machine.execElementMerge crew sec el s
  | .elementCarry crew sec el => Sys2Proof.Machine.execElementCarry crew sec el s
  | .elementJoin crew sec el => Sys2Proof.Machine.execElementJoin crew sec el s
  | .elementFork crew sec el => Sys2Proof.Machine.execElementFork crew sec el s
  | .elementWiden crew sec el => Sys2Proof.Machine.execElementWiden crew sec el s
  | .elementRed crew sec el => Sys2Proof.Machine.execElementRed crew sec el s
  | .elementAcc crew sec el => Sys2Proof.Machine.execElementAcc crew sec el s
  | .elementCnt crew sec el => Sys2Proof.Machine.execElementCnt crew sec el s
  | .elementConst crew sec el => Sys2Proof.Machine.execElementConst crew sec el s
  | .elementPass crew sec el => Sys2Proof.Machine.execElementPass crew sec el s
  | .elementDelay crew sec el => Sys2Proof.Machine.execElementDelay crew sec el s
  | .elementCommit crew sec el => Sys2Proof.Machine.execElementCommit crew sec el s
  | .markerForward crew sec el => Sys2Proof.Machine.execMarkerForward crew sec el s
  | .alignmentAbort crew sec => Sys2Proof.Machine.execAlignmentAbort crew sec s
  | .configurationLoad crew => Sys2Proof.Machine.execConfigurationLoad crew s
  | .skipToken crew => Sys2Proof.Machine.execSkipToken crew s
  | .clusterExceptionDelivery crew => Sys2Proof.Machine.execClusterExceptionDelivery crew s
  | .loadDataArrival own reg => Sys2Proof.Machine.execLoadDataArrival own reg s
  | .pinHandleArrival thread reg => Sys2Proof.Machine.execPinHandleArrival thread reg s
  | .hrdMerge crew h => Sys2Proof.Machine.execHrdMerge crew h s
  | .waitcWake own => Sys2Proof.Machine.execWaitcWake own s
  | .unpinRelease handle => Sys2Proof.Machine.execUnpinRelease handle s
  | .tlbiWake thread => Sys2Proof.Machine.execTlbiWake thread s
  | .epochApply epid => Sys2Proof.Machine.execEpochApply epid s
  | .portRequestReplay source sequence req => Sys2Proof.Machine.execPortRequestReplay source sequence req s
  | .startClusterHalf crew => Sys2Proof.Machine.execStartClusterHalf crew s
  | .startCoxThread crew => Sys2Proof.Machine.execStartCoxThread crew s
  | .crewDispatch place => Sys2Proof.Machine.execCrewDispatch place s
  | .crewComplete crew => Sys2Proof.Machine.execCrewComplete crew s
  | .completionReport msg => Sys2Proof.Machine.execCompletionReport msg s
  | .quantumExpiry cluster => Sys2Proof.Machine.execQuantumExpiry cluster s
  | .ageing part index => Sys2Proof.Machine.execAgeing part index s
  | .preemption crew => Sys2Proof.Machine.execPreemption crew s
  | .saveComplete crew => Sys2Proof.Machine.execSaveComplete crew s
  | .watchdogExpiry own => Sys2Proof.Machine.execWatchdogExpiry own s
  | .ctxCreate thread descriptor => Sys2Proof.Machine.execCtxCreate thread descriptor s
  | .ctxTear thread context => Sys2Proof.Machine.execCtxTear thread context s
  | .crewCmdResume part handle => Sys2Proof.Machine.execCrewCmdResume part handle s
  | .crewCmdEnd part handle => Sys2Proof.Machine.execCrewCmdEnd part handle s
  | .crewCmdSuspend part handle => Sys2Proof.Machine.execCrewCmdSuspend part handle s
  | .qcfgWrite crew queue value => Sys2Proof.Machine.execQcfgWrite crew queue value s
  | .qstatWrite crew queue value => Sys2Proof.Machine.execQstatWrite crew queue value s
  | .launchPortWrite offset data => Sys2Proof.Machine.execLaunchPortWrite offset data s
  | .launchAccept context => Sys2Proof.Machine.execLaunchAccept context s
  | .launchComplete launch => Sys2Proof.Machine.execLaunchComplete launch s
  | .gangArm msg => Sys2Proof.Machine.execGangArm msg s
  | .gangAcknowledge msg => Sys2Proof.Machine.execGangAcknowledge msg s
  | .gangArmTimeout launch => Sys2Proof.Machine.execGangArmTimeout launch s
  | .gangCommit msg => Sys2Proof.Machine.execGangCommit msg s
  | .gangAbort msg => Sys2Proof.Machine.execGangAbort msg s
  | .ready pkt => Sys2Proof.Machine.execReady pkt s
  | .solo pkt => Sys2Proof.Machine.execSolo pkt s
  | .coded pkt => Sys2Proof.Machine.execCoded pkt s
  | .repe pkt => Sys2Proof.Machine.execRepe pkt s
  | .rreq pkt => Sys2Proof.Machine.execRreq pkt s
  | .close pkt => Sys2Proof.Machine.execClose pkt s
  | .quit pkt => Sys2Proof.Machine.execQuit pkt s
  | .pairingDeadline shid group => Sys2Proof.Machine.execPairingDeadline shid group s
  | .flitRetransmit port failures => Sys2Proof.Machine.execFlitRetransmit port failures s
  | .laneWithdrawal port => Sys2Proof.Machine.execLaneWithdrawal port s
  | .packageDeclaredFailed pkg => Sys2Proof.Machine.execPackageDeclaredFailed pkg s
  | .failureNotification pkg => Sys2Proof.Machine.execFailureNotification pkg s
  | .scrubRead sector found => Sys2Proof.Machine.execScrubRead sector found s
  | .hostRead addr len => Sys2Proof.Machine.execHostRead addr len s
  | .hostWrite addr data => Sys2Proof.Machine.execHostWrite addr data s
  | .mailboxAssignUnits part units => Sys2Proof.Machine.execMailboxAssignUnits part units s
  | .mailboxAssignTenant part tenant => Sys2Proof.Machine.execMailboxAssignTenant part tenant s
  | .mailboxRegisterKey tenant slot key => Sys2Proof.Machine.execMailboxRegisterKey tenant slot key s
  | .mailboxSetCacheQuota tenant quota => Sys2Proof.Machine.execMailboxSetCacheQuota tenant quota s
  | .mailboxSetPowerLimit watts => Sys2Proof.Machine.execMailboxSetPowerLimit watts s
  | .mailboxReadErrorCounters => Sys2Proof.Machine.execMailboxReadErrorCounters s
  | .mailboxUpdateFirmware image => Sys2Proof.Machine.execMailboxUpdateFirmware image s
  | .mailboxAttestation nonce => Sys2Proof.Machine.execMailboxAttestation nonce s
  | .resetRelease failedStep => Sys2Proof.Machine.execResetRelease failedStep s
  | .thermalWarning => Sys2Proof.Machine.execThermalWarning s
  | .thermalTrip => Sys2Proof.Machine.execThermalTrip s
  | .arithmeticClockRecovery => Sys2Proof.Machine.execArithmeticClockRecovery s

end Sys2Proof.Machine
end

