-- ==== Sys2Proof/Machine/Turns.lean ====
section
/-! DEFINITION. A cox thread's turn: what it does when it comes, and the rotation of a core's threads (R15-R17, R150, R223,
R444). -/

namespace Sys2Proof.Machine

/-- The thread stalls: nothing of it has changed but the marks of a stall episode (R17, R142). -/
def stays (t : Nat) (a b : State) : Bool :=
  let y := b.thread t
  decide (y = { a.thread t with sc := { (a.thread t).sc with stalled := y.sc.stalled }, lossDue := y.lossDue })

/-- What a thread's attempt to issue comes to: whether it does something, whether that is an instruction that issues, and the
outcome. -/
structure Try where
  acts : Bool
  issues : Bool
  out : Out

/-- A thread that may fetch tries to issue the instruction at its pointer, or raises what its fetch raises; a fetch that finds no
lane left only moves on to the next line. -/
def tryIssue (t : Nat) (s : State) : Try :=
  let ran (a b : State) : Try := { acts := !stays t a b, issues := !stays t a b, out := .next b }
  match fetchAt (.thread t) (s.setThread t { s.thread t with mode := .ready }) with
  | .ok (.run i) s' => (match exec i s' with
    | .next s'' => ran s' s''
    | r => { acts := true, issues := true, out := r })
  | .ok _ s' => { acts := true, issues := false, out := .next s' }
  | .error st s' => ran s' (fetchStop (.thread t) st s')

/-- An exception a thread takes before its next instruction: one due to a loss of decoupling first, then a cluster exception
(R150, R444). -/
def dueNow (t : Nat) (s : State) : Option State :=
  match if mayFetch s t then lossNow s t else none with
  | some pc => some (takeLoss t pc s)
  | none => (deliveryDue s t).map (deliver s)

/-- Whether a thread would do something now, were it its turn. -/
def acts (s : State) (t : Nat) : Bool :=
  mayFetch s t && ((dueNow t s).isSome || (tryIssue t { s with cur := .thread t }).acts)

/-- The threads of a core that come before a thread in its rotation, from the one after the last that issued (R16). -/
def before (s : State) (t : Nat) : List Nat :=
  let core := t / 8
  ((List.range 8).map fun i => core * 8 + (s.turns.getD core 0 + i) % 8).takeWhile (· != t)

/-- A thread has issued: the rotation goes on after it. -/
def issued (t : Nat) (s : State) : State := { s with turns := s.turns.put (t / 8) (t % 8 + 1) 0 }

/-- A thread's turn to issue (R16, R17, R223): it waits while a thread before it in the rotation has something to do. A thread
that stalls keeps its place, and so does one whose fetch has only moved on (log 79). -/
def issueTurn (t : Nat) (s : State) : Out :=
  if (before s t).any (acts s) then .next s
  else
    let r := tryIssue t s
    match r.out with
    | .next s' => .next (if r.issues then issued t s' else s')
    | o => o

end Sys2Proof.Machine
end

