-- ==== Sys2Proof/Machine/Step.lean ====
section
/-! DEFINITION. One step of the package: the next turn's unit fetches and runs an instruction, or an event occurs. -/

namespace Sys2Proof.Machine

/-- A turn of a cox thread: an exception that is due, else, where it may, its turn to issue (R15, R16, R150, R444). -/
def stepThread (t : Nat) (s : State) : Out :=
  match dueNow t s with
  | some s' => .next s'
  | none => if mayFetch s t then issueTurn t s else .next s

/-- A turn of a sequencer: the lane at the active crew's pointer (R20, R24). -/
def stepSeq (cl : Nat) (s : State) : Out :=
  match s.activeCrew cl with
  | none => .next s
  | some c =>
    let k := s.crew c
    if k.stage == .resident && k.smode == .running then
      match fetchAt (.crew c) s with
      | .ok (.run i) s' => exec i s'
      | .ok (.badLane st w) s' => .next (handBad c st w s')
      | .ok .moved s' => .next s'
      | .error st s' => .next (fetchStop (.crew c) st s')
    else .next s

/-- A turn of the V, M, L or W stream: an instruction of its command queue (R19). -/
def stepStream (u : UnitId) (s : State) : Out :=
  match streamHead s u with
  | none => .next s
  | some (c, st, e) => if e.bad then .next (badEntry c st e s) else exec e.instr s

/-- A turn of an engine: the command at the head of its queue (R297). -/
def stepEngine (u : UnitId) (s : State) : Out :=
  match engineHead s u with
  | none => .next s
  | some (_, c) => exec c.instr s

/-- A turn of a unit. -/
def stepUnit (u : UnitId) (s : State) : Out :=
  match u with
  | .thread t => stepThread t s
  | .seq cl => stepSeq cl s
  | .vec _ => stepStream u s
  | .stroke _ _ => stepStream u s
  | .lgen _ => stepStream u s
  | .wgen _ => stepStream u s
  | .copyEng _ => stepEngine u s
  | .indexEng _ => stepEngine u s
  | .package => .next (runM bringUpStep s)

/-- What a turn does. -/
def takeTurn (t : Turn) (s : State) : Out :=
  match t with
  | .run u => stepUnit u { s with cur := u }
  | .event i => exec i { s with cur := .package }
  | .upset g => .next (strike s g)

/-- One step (log 2): the agenda's next turn, or where it is empty the turn the schedule draws. -/
def step (s : State) : Host.Outcome State Fault Refusal :=
  if s.halted && !(s.agenda.head?.any revives) then .fault .packageHalted
  else
    match s.agenda with
    | t :: rest => takeTurn t { s with agenda := rest }
    | [] => takeTurn (Config.schedule s.draws) { s with draws := s.draws + 1 }

/-! ### A program placed from outside (log 5) -/

/-- Where `withFetchWord` places its line, its page table and its context. -/
def placeLine : Nat := 0x10000
def placeTable : Nat := 0x20000

/-- A ready package whose crew 1 is resident and active on cluster 0, with thread 0, in context 1 whose address space is
one 16 GiB page mapped onto itself. -/
def placed (s : State) (entry : Nat) : State :=
  let ctx : Context := { part := 0, sys := true, ptRoot := BitVec.ofNat 64 placeTable, saveBase := 0x1000000#64, prioCeil := 7 }
  let k : Crew := { ctx := 1, launch := 1, smode := .running, startThread := false, sc := { pc := BitVec.ofNat 64 entry } }
  let th : Thread := { mode := .ready, level := 2, crew := some 1, ctx := 1, sc := { pc := BitVec.ofNat 64 entry } }
  let pin : Pin := { handle := 0, owner := .launch 1 0, ctx := 1, ranges := [(placeLine, 65536)], w := false
                     leaves := [{ va := 0, size := 2 ^ 34, pa := 0, mem := 0, w := true, x := true, u := true }] }
  { s with
    boot := 0xFF#16
    mem := s.mem.pokes placeTable (leBytes 8 0x1F)
    threads := s.threads.insert 0 th
    turns := s.turns.put 0 0 0
    clusters := s.clusters.insert 0 { s.cluster 0 with slots := [(0, 1)], active := some 0 }
    crews := s.crews.insert 1 k
    contexts := s.contexts.insert 1 ctx
    partitions := s.partitions.insert 0 { units := List.range 64, tenant := some 0 }
    pins := s.pins ++ [pin]
    nextId := s.nextId + 2 }

/-- SID of a stream in a line (R158). -/
def sidOf : Stream → Nat
  | .a => 1
  | .s => 1
  | .v => 2
  | .m => 3
  | .l => 4
  | .w => 5
  | .copy => 6
  | .index => 7

/-- The package with an instruction of the opcode table placed where its next step fetches it (log 5). -/
def State.withFetchWord (s : State) (nbits w : Nat) : State :=
  let st := tableStream nbits w
  let cox := st == .a
  let s1 := placed s (placeLine + 1)
  { s1 with
    mem := s1.mem.pokes placeLine (Line.single cox (sidOf st) (w % 2 ^ 32) (w / 2 ^ 32 % 2 ^ 32))
    agenda := [if cox then .run (.thread 0) else .run (.seq 0)] }

end Sys2Proof.Machine
end

