-- ==== Sys2Proof/Safety.lean ====
section
/-! DEFINITION. The terms in which claims are stated: runs, when an instruction issues, the state it leaves, and the
invariant every step keeps. -/

namespace Sys2Proof

open Machine

/-- Any number of steps from one state to another. -/
inductive Reaches : State → State → Prop where
  | refl (s : State) : Reaches s s
  | tail {s t u : State} : Reaches s t → step t = .next u → Reaches s u

/-- A state from which the package can go on: it is not halted. -/
def Running (s : State) : Prop := s.halted = false

namespace Machine

/-! ### Scalar registers as an instruction finds and leaves them (R10, R167, R177) -/

/-- A register that can be read and written now: `g0`, or one that is full. -/
def regReady (s : State) (w : Owner) (r : Nat) : Bool := isG0 w r || (s.scalar w).isFull r

/-- What a read of a ready register gives: zero for `g0`. -/
def regVal (s : State) (w : Owner) (r : Nat) : Word := if isG0 w r then 0 else (s.scalar w).reg r

/-- The state after a write of a ready register: a write of `g0` is discarded. -/
def withReg (s : State) (w : Owner) (r : Nat) (v : Word) : State :=
  if isG0 w r then s else s.setScalar w ((s.scalar w).write r v)

/-- The state after a register has been marked empty for a value that will arrive. -/
def withPend (s : State) (w : Owner) (r : Nat) (p : Pend) : State :=
  if isG0 w r then s else s.setScalar w ((s.scalar w).await r p)

/-- The state after a predicate has been written. -/
def withPred (s : State) (w : Owner) (k : Nat) (b : Bool) : State := s.setScalar w ((s.scalar w).setPred k b)

/-- The guard is true (R165, R166). -/
def guardOpen (s : State) (w : Owner) (g ng : Nat) : Bool := (s.scalar w).pred g != (ng == 1)

/-- An owner is at work and its guard is true. -/
def Guarded (s : State) (w : Owner) (g ng : Nat) : Prop := curOwner s = some w ∧ guardOpen s w g ng = true

/-- The registers are ready. -/
def RegsReady (s : State) (w : Owner) (rs : List Nat) : Prop := ∀ r ∈ rs, regReady s w r = true

/-! ### What an instruction leaves alone -/

/-- Nothing but the registers of one owner has changed, the idle mark of its crew or thread, and a crew's loops. -/
structure OnlyScalar (w : Owner) (s t : State) : Prop where
  rest : { t with threads := s.threads, crews := s.crews } = s
  threads : ∀ u, w ≠ .thread u → t.thread u = s.thread u
  crews : ∀ c, w ≠ .crew c → t.crew c = s.crew c
  thread : ∀ u, w = .thread u → { t.thread u with sc := (s.thread u).sc, idle := (s.thread u).idle } = s.thread u
  crew : ∀ c, w = .crew c →
    { t.crew c with sc := (s.crew c).sc, idle := (s.crew c).idle, loops := (s.crew c).loops } = s.crew c

/-- Among an owner's registers, only those named have changed. -/
def RegsBut (w : Owner) (rs : List Nat) (s t : State) : Prop :=
  ∀ r, r ∉ rs → (t.scalar w).reg r = (s.scalar w).reg r ∧ (t.scalar w).isFull r = (s.scalar w).isFull r ∧
    (t.scalar w).pend.find? r = (s.scalar w).pend.find? r

/-- Among an owner's predicates, only those named have changed. -/
def PredsBut (w : Owner) (ks : List Nat) (s t : State) : Prop :=
  ∀ k, k ∉ ks → (t.scalar w).pred k = (s.scalar w).pred k

end Machine

end Sys2Proof
end

