-- ==== Sys2Proof/Certificates/Slice0/Obligations.lean ====
section
/-! DEFINITION. The statements for the provers, and the shapes they share. -/

/-! ### Integer instructions (R189-R202) -/

namespace Sys2Proof.Machine

/-- An instruction of format R with two sources completes wherever it issues: its result is written to d, and the pointer
advances by one lane. -/
def Computes2 (i : RFmt → Instr) (f : Nat → Word → Word → Word) : Prop :=
  ∀ (o : RFmt) (s : State) (w : Owner), (i o).wf = true → Guarded s w o.g o.ng → RegsReady s w [o.a, o.b, o.d] →
    exec (i o) s = .next (advance (withReg s w o.d (f o.fn (regVal s w o.a) (regVal s w o.b))) w 1)

/-- The same with one source. -/
def Computes1 (i : RFmt → Instr) (f : Nat → Word → Word) : Prop :=
  ∀ (o : RFmt) (s : State) (w : Owner), (i o).wf = true → Guarded s w o.g o.ng → RegsReady s w [o.a, o.d] →
    exec (i o) s = .next (advance (withReg s w o.d (f o.fn (regVal s w o.a))) w 1)

/-- The same in format I, which has no guard. -/
def ComputesI (i : IFmt → Instr) (f : Word → Nat → Word) : Prop :=
  ∀ (o : IFmt) (s : State) (w : Owner), (i o).wf = true → curOwner s = some w → RegsReady s w [o.a, o.d] →
    exec (i o) s = .next (advance (withReg s w o.d (f (regVal s w o.a) o.imm)) w 1)

/-- A predicate instruction completes wherever it issues. -/
def ComputesP (i : RFmt → Instr) (f : Bool → Bool → Bool) : Prop :=
  ∀ (o : RFmt) (s : State) (w : Owner), (i o).wf = true → Guarded s w o.g o.ng →
    exec (i o) s = .next (advance (withPred s w o.d (f ((s.scalar w).pred o.a) ((s.scalar w).pred o.b))) w 1)

/-- An operand as fn reads it: natural under fn 2, signed under fn 0 and 1 (R189). -/
def readAs (fn : Nat) (x : Word) : Int := if fn = 2 then x.toNat else x.toInt

/-- An exact value wrapped (fn 0), or saturated to the signed (fn 1) or natural (fn 2) range (R189). -/
def fit (fn : Nat) (e : Int) : Word :=
  if fn = 0 then BitVec.ofInt 64 e
  else if fn = 1 then BitVec.ofInt 64 (max (-2 ^ 63) (min (2 ^ 63 - 1) e))
  else BitVec.ofInt 64 (max 0 (min (2 ^ 64 - 1) e))

/-- The 14-bit immediate of format I, sign-extended. -/
def imm14 (i : Nat) : Word := (BitVec.ofNat 14 i).signExtend 64

/-- A condition code of R165. -/
def condition (cc : Nat) (x y : Word) : Bool :=
  match cc with
  | 0 => decide (x = y)
  | 1 => decide (x ≠ y)
  | 2 => x.slt y
  | 3 => x.sle y
  | 4 => y.slt x
  | 5 => y.sle x
  | 6 => x.ult y
  | 7 => x.ule y
  | 8 => y.ult x
  | _ => y.ule x

end Sys2Proof.Machine

open Sys2Proof Sys2Proof.Machine

/-- ADD, SUB, MUL, NEG and ABS write their exact value, wrapped or saturated by fn (R189). -/
def Obligations.ArithmeticFitsByFn : Prop :=
  Computes2 .add (fun fn x y => fit fn (readAs fn x + readAs fn y)) ∧
  Computes2 .sub (fun fn x y => fit fn (readAs fn x - readAs fn y)) ∧
  Computes2 .mul (fun fn x y => fit fn (readAs fn x * readAs fn y)) ∧
  Computes1 .neg (fun fn x => fit fn (-readAs fn x)) ∧
  Computes1 .abs (fun fn x => fit fn |x.toInt|)

/-- MULH and MULHN write the upper half of the product; MIN, MAX, MINN and MAXN the operand selected, a when they are
equal; ADDI the wrapped sum. The divisions truncate towards zero; by zero they give all ones and the dividend, and they never
trap (R43, R190-R193). -/
def Obligations.DivisionProductsExtrema : Prop :=
  (Computes2 .mulh (fun _ x y => BitVec.ofInt 64 ((x.toInt * y.toInt).fdiv (2 ^ 64))) ∧
  Computes2 .mulhn (fun _ x y => BitVec.ofNat 64 (x.toNat * y.toNat / 2 ^ 64)) ∧
  Computes2 .min (fun _ x y => if y.slt x then y else x) ∧
  Computes2 .max (fun _ x y => if x.slt y then y else x) ∧
  Computes2 .minn (fun _ x y => if y.ult x then y else x) ∧
  Computes2 .maxn (fun _ x y => if x.ult y then y else x) ∧
  ComputesI .addi (fun x i => x + imm14 i)) ∧
  (Computes2 .div (fun _ x y => if y = 0 then BitVec.allOnes 64 else x.sdiv y) ∧
  Computes2 .divn (fun _ x y => if y = 0 then BitVec.allOnes 64 else x.udiv y) ∧
  Computes2 .rem (fun _ x y => if y = 0 then x else x.srem y) ∧
  Computes2 .remn (fun _ x y => if y = 0 then x else x.umod y))

/-- The logic and shift instructions, whose register count of 64 or more shifts everything out, and the bit operations, bit by
bit (R194-R198). -/
def Obligations.LogicShiftsAndBits : Prop :=
  (Computes2 .and (fun _ x y => x &&& y) ∧ Computes2 .or (fun _ x y => x ||| y) ∧
  Computes2 .xor (fun _ x y => x ^^^ y) ∧ Computes2 .andn (fun _ x y => x &&& ~~~y) ∧
  ComputesI .andi (fun x i => x &&& BitVec.ofNat 64 i) ∧ ComputesI .ori (fun x i => x ||| BitVec.ofNat 64 i) ∧
  ComputesI .xori (fun x i => x ^^^ BitVec.ofNat 64 i) ∧
  Computes2 .shl (fun _ x y => BitVec.ofNat 64 (x.toNat * 2 ^ y.toNat)) ∧
  Computes2 .shr (fun _ x y => BitVec.ofNat 64 (x.toNat / 2 ^ y.toNat)) ∧
  Computes2 .sar (fun _ x y => BitVec.ofInt 64 (x.toInt.fdiv (2 ^ min y.toNat 63))) ∧
  Computes2 .rotl (fun _ x y =>
    BitVec.ofNat 64 (x.toNat * 2 ^ (y.toNat % 64) + x.toNat / 2 ^ (64 - y.toNat % 64))) ∧
  ComputesI .shli (fun x i => BitVec.ofNat 64 (x.toNat * 2 ^ i)) ∧
  ComputesI .shri (fun x i => BitVec.ofNat 64 (x.toNat / 2 ^ i)) ∧
  ComputesI .sari (fun x i => BitVec.ofInt 64 (x.toInt.fdiv (2 ^ i)))) ∧
  (Computes1 .clz (fun _ x => BitVec.ofNat 64 ((List.range 64).countP fun i => x.toNat < 2 ^ i)) ∧
  Computes1 .ctz (fun _ x => BitVec.ofNat 64 ((List.range 64).countP fun i => x.toNat % 2 ^ (i + 1) = 0)) ∧
  Computes1 .popc (fun _ x => BitVec.ofNat 64 ((List.range 64).countP fun i => x.getLsbD i)) ∧
  Computes1 .bswap (fun _ x => BitVec.ofFnLE fun i : Fin 64 => x.getLsbD (56 - i / 8 * 8 + i % 8)) ∧
  Computes2 .ext (fun _ x y => BitVec.ofFnLE fun i : Fin 64 =>
    let p := (y.extractLsb' 0 6).toNat
    let wl := min (y.extractLsb' 8 7).toNat (64 - p)
    decide (i < wl) && x.getLsbD (p + i)) ∧
  (∀ (o : RFmt) (s : State) (w : Owner), (Instr.ins o).wf = true → Guarded s w o.g o.ng →
    RegsReady s w [o.a, o.b, o.d] →
    let x := regVal s w o.a
    let p := ((regVal s w o.b).extractLsb' 0 6).toNat
    let wl := min ((regVal s w o.b).extractLsb' 8 7).toNat (64 - p)
    exec (.ins o) s = .next (advance (withReg s w o.d (BitVec.ofFnLE fun i : Fin 64 =>
      if p ≤ i ∧ i < p + wl then x.getLsbD (i - p) else (regVal s w o.d).getLsbD i)) w 1)) ∧
  Computes2 .mort (fun _ x y => BitVec.ofFnLE fun i : Fin 64 =>
    if (i : Nat) % 2 = 0 then x.getLsbD (i / 2) else y.getLsbD (i / 2)) ∧
  Computes2 .demort (fun _ x y => if y = 0 ∨ y = 1 then
      BitVec.ofFnLE fun i : Fin 64 => decide ((i : Nat) < 32) && x.getLsbD (2 * i + y.toNat)
    else 0))

/-- LIMM writes its halfword in its place with zeros elsewhere, LIMM.k keeps the other halfwords, MOV copies, and SEL
selects by a predicate that is not its guard. CMP and CMPI write the truth of their condition, and the predicate instructions
theirs, to the predicate d names; no register is written (R199-R202). -/
def Obligations.ConstantsMovesCompares : Prop :=
  ((∀ (o : UFmt) (s : State) (w : Owner), (Instr.limm o).wf = true → curOwner s = some w → RegsReady s w [o.d] →
    exec (.limm o) s = .next (advance (withReg s w o.d (BitVec.ofNat 64 (o.imm * 2 ^ (16 * o.hw)))) w 1)) ∧
  (∀ (o : UFmt) (s : State) (w : Owner), (Instr.limmK o).wf = true → curOwner s = some w → RegsReady s w [o.d] →
    exec (.limmK o) s = .next (advance (withReg s w o.d (BitVec.ofFnLE fun i : Fin 64 =>
      if (i : Nat) / 16 = o.hw then o.imm.testBit (i % 16) else (regVal s w o.d).getLsbD i)) w 1)) ∧
  Computes1 .mov (fun _ x => x) ∧
  (∀ (o : RFmt) (s : State) (w : Owner), (Instr.sel o).wf = true → Guarded s w o.g o.ng →
    RegsReady s w [o.a, o.b, o.d] →
    exec (.sel o) s = .next (advance (withReg s w o.d
      (if (s.scalar w).pred o.fn then regVal s w o.a else regVal s w o.b)) w 1))) ∧
  ((∀ (o : RFmt) (s : State) (w : Owner), (Instr.cmp o).wf = true → Guarded s w o.g o.ng → RegsReady s w [o.a, o.b] →
    exec (.cmp o) s =
      .next (advance (withPred s w o.d (condition o.fn (regVal s w o.a) (regVal s w o.b))) w 1)) ∧
  (∀ (o : ICFmt) (s : State) (w : Owner), (Instr.cmpi o).wf = true → curOwner s = some w → RegsReady s w [o.a] →
    exec (.cmpi o) s =
      .next (advance (withPred s w o.kd (condition o.cond (regVal s w o.a) ((BitVec.ofNat 12 o.imm).signExtend 64))) w 1)) ∧
  ComputesP .pand (fun x y => x && y) ∧ ComputesP .por (fun x y => x || y) ∧ ComputesP .pxor (fun x y => x != y) ∧
  ComputesP .pnot (fun x _ => !x))

/-! ### What every A and S instruction does: guards, empty registers, frames (R161, R166, R167) -/

namespace Sys2Proof.Machine

/-- The register-only instructions of format R: two sources a and b, one destination d. -/
def intTwo : List (RFmt → Instr) :=
  [.add, .sub, .mul, .mulh, .mulhn, .div, .divn, .rem, .remn, .min, .max, .minn, .maxn, .and, .or, .xor, .andn, .shl, .shr,
   .sar, .rotl, .ext, .ins, .mort, .demort, .sel]

/-- Those with one source a. -/
def intOne : List (RFmt → Instr) := [.neg, .abs, .clz, .ctz, .popc, .bswap, .mov]

/-- Those of format I. -/
def intImm : List (IFmt → Instr) := [.addi, .andi, .ori, .xori, .shli, .shri, .sari]

/-- The predicate writers of format R, and those of them that read no register. -/
def predR : List (RFmt → Instr) := [.cmp, .pand, .por, .pxor, .pnot]

/-- The instructions of format R that take a guard, by the streams that have them (R178). -/
def guardedR (w : Owner) : List (RFmt → Instr) :=
  intTwo ++ intOne ++ predR ++ [.nop, .jr, .callr, .ret, .waitc] ++
  match w with
  | .thread _ => [.ldx, .stx, .pin, .unpin, .phase, .madr, .tadr, .yield, .tlbi]
  | .crew _ => [.hwr, .fcfg, .farm, .fwait, .fcommit, .stop]

/-- Those of format Q. -/
def guardedQ (w : Owner) : List (QFmt → Instr) :=
  [.qpush, .qpop] ++
  match w with
  | .thread _ => [.qpeek, .qskip, .qstat, .qclose]
  | .crew _ => []

/-- One register of one owner has changed, and none where it is `g0`; predicates, call depth and all else stand. -/
def WritesOnly (w : Owner) (d : Nat) (s t : State) : Prop :=
  OnlyScalar w s t ∧ RegsBut w (if isG0 w d then [] else [d]) s t ∧ PredsBut w [] s t ∧
  (t.scalar w).depth = (s.scalar w).depth ∧ (t.scalar w).lines = (s.scalar w).lines

/-- The guard is false. -/
def Shut (s : State) (w : Owner) (g ng : Nat) : Prop := curOwner s = some w ∧ guardOpen s w g ng = false

end Sys2Proof.Machine

/-- An instruction whose guard is false only advances the pointer: it reads nothing, stalls on nothing and raises nothing
(R166). -/
def Obligations.GuardFalseHasNoEffect : Prop :=
  (∀ (w : Owner) (i : RFmt → Instr), i ∈ guardedR w → ∀ (o : RFmt) (s : State), (i o).wf = true → Shut s w o.g o.ng →
    exec (i o) s = .next (advance s w 1)) ∧
  (∀ (w : Owner) (i : QFmt → Instr), i ∈ guardedQ w → ∀ (o : QFmt) (s : State), (i o).wf = true → Shut s w o.g o.ng →
    exec (i o) s = .next (advance s w 1)) ∧
  (∀ (w : Owner) (o : QFmt) (s : State), (Instr.qpushm o).wf = true → Shut s w o.g o.ng →
    exec (.qpushm o) s = .next (advance s w 1)) ∧
  (∀ (w : Owner) (o : BFmt) (s : State), (Instr.bc o).wf = true → Shut s w o.g o.n →
    exec (.bc o) s = .next (advance s w 1))

/-- A source that is empty stalls an integer, compare or immediate instruction, which changes nothing, or with its trap bit set
raises the empty-register exception, cause 3 with the register's number, at the instruction; an empty destination stalls it, and
LIMM.k, which has no trap bit, stalls on the register it changes (R167, R199). -/
def Obligations.EmptyRegistersStallOrTrap : Prop :=
  (∀ (i : RFmt → Instr), i ∈ intTwo ++ intOne ++ [.cmp] → ∀ (o : RFmt) (s : State) (w : Owner), (i o).wf = true →
    Guarded s w o.g o.ng → regReady s w o.a = false →
    (o.ta = 0 → exec (i o) s = .next s) ∧
    (o.ta = 1 → exec (i o) s = .next (raisedAt w { cause := 3, info := BitVec.ofNat 64 o.a } s s))) ∧
  (∀ (i : RFmt → Instr), i ∈ intTwo ++ [.cmp] → ∀ (o : RFmt) (s : State) (w : Owner), (i o).wf = true →
    Guarded s w o.g o.ng → regReady s w o.a = true → regReady s w o.b = false →
    (o.tb = 0 → exec (i o) s = .next s) ∧
    (o.tb = 1 → exec (i o) s = .next (raisedAt w { cause := 3, info := BitVec.ofNat 64 o.b } s s))) ∧
  (∀ (i : RFmt → Instr), i ∈ intTwo → ∀ (o : RFmt) (s : State) (w : Owner), (i o).wf = true → Guarded s w o.g o.ng →
    RegsReady s w [o.a, o.b] → regReady s w o.d = false → exec (i o) s = .next s) ∧
  (∀ (i : RFmt → Instr), i ∈ intOne → ∀ (o : RFmt) (s : State) (w : Owner), (i o).wf = true → Guarded s w o.g o.ng →
    regReady s w o.a = true → regReady s w o.d = false → exec (i o) s = .next s) ∧
  (∀ (i : IFmt → Instr), i ∈ intImm → ∀ (o : IFmt) (s : State) (w : Owner), (i o).wf = true → curOwner s = some w →
    (regReady s w o.a = false → o.ta = 0 → exec (i o) s = .next s) ∧
    (regReady s w o.a = false → o.ta = 1 →
      exec (i o) s = .next (raisedAt w { cause := 3, info := BitVec.ofNat 64 o.a } s s)) ∧
    (regReady s w o.a = true → regReady s w o.d = false → exec (i o) s = .next s)) ∧
  (∀ (o : ICFmt) (s : State) (w : Owner), (Instr.cmpi o).wf = true → curOwner s = some w → regReady s w o.a = false →
    (o.ta = 0 → exec (.cmpi o) s = .next s) ∧
    (o.ta = 1 → exec (.cmpi o) s = .next (raisedAt w { cause := 3, info := BitVec.ofNat 64 o.a } s s))) ∧
  (∀ (i : UFmt → Instr), i ∈ [Instr.limm, Instr.limmK] → ∀ (o : UFmt) (s : State) (w : Owner), (i o).wf = true →
    curOwner s = some w → regReady s w o.d = false → exec (i o) s = .next s)

/-- A register-only instruction that completes changes its destination register alone, and a compare or predicate instruction
its destination predicate alone: every other register with its full bit, every other predicate, the call depth, the other
threads and crews, memory, the agents' views, and every special register and queue stay as they were; a crew's loop registers
may change with the pointer (R187, R189-R202). -/
def Obligations.RegisterInstructionFrames : Prop :=
  ((∀ (i : RFmt → Instr), i ∈ intTwo → ∀ (o : RFmt) (s t : State) (w : Owner), (i o).wf = true →
    Guarded s w o.g o.ng → RegsReady s w [o.a, o.b, o.d] → exec (i o) s = .next t → WritesOnly w o.d s t) ∧
  (∀ (i : RFmt → Instr), i ∈ intOne → ∀ (o : RFmt) (s t : State) (w : Owner), (i o).wf = true →
    Guarded s w o.g o.ng → RegsReady s w [o.a, o.d] → exec (i o) s = .next t → WritesOnly w o.d s t) ∧
  (∀ (i : IFmt → Instr), i ∈ intImm → ∀ (o : IFmt) (s t : State) (w : Owner), (i o).wf = true → curOwner s = some w →
    RegsReady s w [o.a, o.d] → exec (i o) s = .next t → WritesOnly w o.d s t) ∧
  (∀ (i : UFmt → Instr), i ∈ [Instr.limm, Instr.limmK] → ∀ (o : UFmt) (s t : State) (w : Owner), (i o).wf = true →
    curOwner s = some w → RegsReady s w [o.d] → exec (i o) s = .next t → WritesOnly w o.d s t)) ∧
  ((∀ (i : RFmt → Instr), i ∈ predR → ∀ (o : RFmt) (s t : State) (w : Owner), (i o).wf = true →
    Guarded s w o.g o.ng → RegsReady s w [o.a, o.b] → exec (i o) s = .next t →
    OnlyScalar w s t ∧ RegsBut w [] s t ∧ PredsBut w [o.d] s t ∧ (t.scalar w).depth = (s.scalar w).depth) ∧
  (∀ (o : ICFmt) (s t : State) (w : Owner), (Instr.cmpi o).wf = true → curOwner s = some w →
    RegsReady s w [o.a] → exec (.cmpi o) s = .next t →
    OnlyScalar w s t ∧ RegsBut w [] s t ∧ PredsBut w [o.kd] s t ∧ (t.scalar w).depth = (s.scalar w).depth))

namespace Sys2Proof.Machine

/-- A loop of a crew is active at the present depth and ends with the `n` lanes at the pointer. -/
def EndsHere (k : Crew) (n : Nat) (l : LoopRec) : Prop :=
  l.active = true ∧ l.stop.toNat = k.sc.pc.toNat + n - 1 ∧ l.depth = k.sc.depth

/-- Of the loops that end here, the one in loop register `i` was started last. -/
def LatestEnding (k : Crew) (n i : Nat) (l : LoopRec) : Prop :=
  (i, l) ∈ k.loops ∧ EndsHere k n l ∧ ∀ j m, (j, m) ∈ k.loops → EndsHere k n m → j ≠ i → m.born < l.born

end Sys2Proof.Machine

/-- What advancing does: the pointer goes on to the lane after the instruction's, in the same line or at lane 1 of the next
(R161); where a crew's pointer stands at the end of active loops of the present depth, the one with the latest start is
evaluated first: it goes back to its start while its count is above 1, with every other loop as it was; otherwise it ends, and the
next loop outward is evaluated at the same point (R234). -/
def Obligations.AdvanceFollowsLinesAndLoops : Prop :=
  (∀ (s : State) (t n : Nat), ((advance s (.thread t) n).thread t).sc.pc =
    BitVec.ofNat 64 (ptrNext (s.thread t).sc.pc.toNat n)) ∧
  (∀ (s : State) (c n : Nat), (∀ i l, (i, l) ∈ (s.crew c).loops → ¬EndsHere (s.crew c) n l) →
    ((advance s (.crew c) n).crew c).sc.pc = BitVec.ofNat 64 (ptrNext (s.crew c).sc.pc.toNat n)) ∧
  (∀ (s : State) (c n i : Nat) (l : LoopRec), (s.crew c).loops.sorted = true → LatestEnding (s.crew c) n i l →
    (1 < l.cnt.toNat → ((advance s (.crew c) n).crew c).sc.pc = l.start ∧
      ((advance s (.crew c) n).crew c).loops.find? i = some { l with cnt := l.cnt - 1 } ∧
      ∀ j, j ≠ i → ((advance s (.crew c) n).crew c).loops.find? j = (s.crew c).loops.find? j) ∧
    (l.cnt.toNat ≤ 1 → advance s (.crew c) n = advance (s.setCrew c { s.crew c with
      loops := (s.crew c).loops.insert i { l with active := false, cnt := 0 } }) (.crew c) n))

/-! ### Control transfers, loops, waits (R117, R121, R162, R219-R223, R232-R235, R243) -/

namespace Sys2Proof.Machine

/-- The target of a format B transfer at a pointer: the line `disp` lines on, at the lane named (R219). -/
def bTarget (pc : Word) (o : BFmt) : Word :=
  (pc >>> 5 <<< 5) + ((BitVec.ofNat 18 o.disp).signExtend 64 <<< 5) + BitVec.ofNat 64 o.lane

/-- What a taken BR, BC or JR leaves: the pointer at the target, and a crew's loops that the target lies outside of ended
(R235). -/
def jumped (s : State) (w : Owner) (p : Word) : State :=
  let s' := match w with
    | .crew c => s.setCrew c (leaveLoops (s.crew c) p.toNat)
    | .thread _ => s
  land s' w { s'.scalar w with pc := p, line := none, stalled := false }

/-- An instruction raises an exception at its own pointer, with none of its other effects. -/
def raised (s : State) (w : Owner) (e : Exc) : State := raisedAt w e s s

/-- The same after reads that found out about memory what stays found. -/
def raisedAfter (s s' : State) (w : Owner) (e : Exc) : State := raisedAt w e (keepErrors s s') (keepErrors s s')

/-- What the check of a transfer's target answers: false for what is no code pointer; where the line can be fetched, whether
the lane is not empty and has BT set, and for a call whether its line has ENTRY; where it cannot, a cluster's target is bad, and
a thread's is left to its fetch (R162; the last is the model's reading, logs 14 and 97). -/
def TargetRule (entry : Bool) : Prop :=
  ∀ (s : State) (w : Owner) (p : Nat),
    (ptrOk p = false → targetOk w p entry s = .ok false s) ∧
    (ptrOk p = true → ∀ bs s1, fetchLine w (ptrLine p) s = .ok bs s1 →
      let l := Line.ofBytes bs
      targetOk w p entry s = .ok (l.sid (ptrLane p) != 0 && l.bt (ptrLane p) && (!entry || l.isEntry))
        (s1.setScalar w { s1.scalar w with line := (s.scalar w).line })) ∧
    (ptrOk p = true → ∀ e s1, fetchLine w (ptrLine p) s = .error (.trap e) s1 →
      targetOk w p entry s = .ok (match w with | .thread _ => true | .crew _ => false) s1)

/-- What a call leaves: the link in register 31, one more level of depth, and the pointer at the target. -/
def called (s : State) (w : Owner) (p : Word) : State :=
  let s1 := withReg s w 31 (BitVec.ofNat 64 (ptrNext (s.scalar w).pc.toNat 1))
  let s2 := s1.setScalar w { s1.scalar w with depth := (s.scalar w).depth + 1 }
  land s2 w { s2.scalar w with pc := p, line := none, stalled := false }

/-- What a return leaves: one level of depth less, and the pointer where register a says. -/
def returned (s : State) (w : Owner) (p : Word) : State :=
  let s1 := s.setScalar w { s.scalar w with depth := (s.scalar w).depth - 1 }
  land s1 w { s1.scalar w with pc := p, line := none, stalled := false }

/-- The state in which a loop of a crew has begun with a count, after its lines have been read: for a count of zero the loop
register is inactive and the pointer goes past the body; otherwise the register holds the loop and the pointer stands at the
start of the body. -/
def loopBegun (s : State) (c l n start stop : Nat) : State :=
  let go (u : State) (p : Word) : State := land u (.crew c) { u.scalar (.crew c) with pc := p, line := none, stalled := false }
  let k := s.crew c
  if n = 0 then go (s.setCrew c { k with loops := k.loops.put l {} {} }) (nextPtr (BitVec.ofNat 64 stop) 1)
  else
    let r : LoopRec := { active := true, born := s.nextId, depth := k.sc.depth, cnt := BitVec.ofNat 64 n
                         start := BitVec.ofNat 64 start, stop := BitVec.ofNat 64 stop }
    let u : State := { s with nextId := s.nextId + 1 }
    go (u.setCrew c { k with loops := k.loops.insert l r }) r.start

/-- A loop of a crew begins with a count, after its lines have been read in a state: where it is zero the pointer goes past the
body and the loop register is inactive; otherwise the register holds the loop and the pointer stands at the start of the body.
No other register is written. -/
def LoopBegins (i : Instr) (s s2 : State) (c l n start stop : Nat) : Prop :=
  ∃ u, exec i s = .next u ∧ u = loopBegun s2 c l n start stop ∧
    (n = 0 → (u.crew c).sc.pc = BitVec.ofNat 64 (ptrNext (BitVec.ofNat 64 stop).toNat 1) ∧
      ((u.crew c).loops.getD l {}).active = false) ∧
    (n ≠ 0 → (u.crew c).sc.pc = BitVec.ofNat 64 start ∧
      ∃ r, (u.crew c).loops.find? l = some r ∧ r.active = true ∧ r.cnt = BitVec.ofNat 64 n ∧
        r.start = BitVec.ofNat 64 start ∧ r.stop = BitVec.ofNat 64 stop ∧ r.depth = (s.crew c).sc.depth) ∧
    (∀ j, j ≠ l → (u.crew c).loops.find? j = (s.crew c).loops.find? j) ∧
    RegsBut (.crew c) [] s u ∧ PredsBut (.crew c) [] s u ∧ (u.crew c).sc.depth = (s.crew c).sc.depth

end Sys2Proof.Machine

/-- BR always transfers, BC where its guard is true, JR to the pointer in a: the target must be a lane that is not empty and
has BT set, and a bad one raises the target fault, cause 15, at the instruction (R162, R219, R221). What becomes of a target line
that cannot be fetched is the model's choice (logs 14, 97). -/
def Obligations.BranchesTransferOrFault : Prop :=
  TargetRule false ∧
  (∀ (o : BFmt) (s s' : State) (w : Owner), (Instr.br o).wf = true → curOwner s = some w →
    let p := bTarget (s.scalar w).pc o
    (targetOk w p.toNat false s = .ok true s' → exec (.br o) s = .next (jumped s' w p)) ∧
    (targetOk w p.toNat false s = .ok false s' → exec (.br o) s = .next (raisedAfter s s' w { cause := 15, info := p }))) ∧
  (∀ (o : BFmt) (s s' : State) (w : Owner), (Instr.bc o).wf = true → Guarded s w o.g o.n →
    let p := bTarget (s.scalar w).pc o
    (targetOk w p.toNat false s = .ok true s' → exec (.bc o) s = .next (jumped s' w p)) ∧
    (targetOk w p.toNat false s = .ok false s' → exec (.bc o) s = .next (raisedAfter s s' w { cause := 15, info := p }))) ∧
  (∀ (o : RFmt) (s s' : State) (w : Owner), (Instr.jr o).wf = true → Guarded s w o.g o.ng → RegsReady s w [o.a] →
    let p := regVal s w o.a
    (targetOk w p.toNat false s = .ok true s' → exec (.jr o) s = .next (jumped s' w p)) ∧
    (targetOk w p.toNat false s = .ok false s' → exec (.jr o) s = .next (raisedAfter s s' w { cause := 15, info := p })))

/-- CALL and CALLR write the link to register 31 and add 1 to the call depth; at the greatest depth they raise the
call-depth exception, cause 17, and a target that is no lane with BT set in a line with ENTRY raises the target fault (R162, R220,
R222). What becomes of a target line that cannot be fetched is the model's choice (logs 14, 97). -/
def Obligations.CallsLinkAndCount : Prop :=
  TargetRule true ∧
  (∀ (o : BFmt) (s s' : State) (w : Owner), (Instr.call o).wf = true → curOwner s = some w → RegsReady s w [31] →
    let p := bTarget (s.scalar w).pc o
    ((s.scalar w).depth = BitVec.allOnes 32 → exec (.call o) s = .next (raised s w { cause := 17 })) ∧
    ((s.scalar w).depth ≠ BitVec.allOnes 32 →
      (targetOk w p.toNat true s = .ok true s' → exec (.call o) s = .next (called s' w p)) ∧
      (targetOk w p.toNat true s = .ok false s' → exec (.call o) s = .next (raisedAfter s s' w { cause := 15, info := p })))) ∧
  (∀ (o : RFmt) (s s' : State) (w : Owner), (Instr.callr o).wf = true → Guarded s w o.g o.ng →
    RegsReady s w [o.a, 31] →
    let p := regVal s w o.a
    ((s.scalar w).depth = BitVec.allOnes 32 → exec (.callr o) s = .next (raised s w { cause := 17 })) ∧
    ((s.scalar w).depth ≠ BitVec.allOnes 32 →
      (targetOk w p.toNat true s = .ok true s' → exec (.callr o) s = .next (called s' w p)) ∧
      (targetOk w p.toNat true s = .ok false s' → exec (.callr o) s = .next (raisedAfter s s' w { cause := 15, info := p }))))

/-- RET takes 1 off the depth and goes to the pointer in a, unchecked but for its form; at depth 0 it ends a bound thread's
access code, frees an unbound thread, and raises the call-depth exception in S (R27, R221, R222, R230). That an unbound thread's pins go
at once is the model's choice (log 114). -/
def Obligations.ReturnEndsOrGoesBack : Prop :=
  ∀ (o : RFmt) (s : State) (w : Owner), (Instr.ret o).wf = true → Guarded s w o.g o.ng → RegsReady s w [o.a] →
    let p := regVal s w o.a
    let d := (s.scalar w).depth
    (d ≠ 0 → ptrOk p.toNat = true → exec (.ret o) s = .next (returned s w p)) ∧
    (d ≠ 0 → ptrOk p.toNat = false → exec (.ret o) s = .next (raised s w { cause := 15, info := p })) ∧
    (∀ t c, d = 0 → w = .thread t → (s.thread t).crew = some c →
      exec (.ret o) s = .next (s.setThread t { s.thread t with mode := .returned })) ∧
    (∀ t, d = 0 → w = .thread t → (s.thread t).crew = none →
      exec (.ret o) s = .next ({ s with pins := s.pins.filter fun q => q.owner != PinOwner.thread t }.setThread t {})) ∧
    (∀ c, d = 0 → w = .crew c → exec (.ret o) s = .next (raised s w { cause := 17 }))

/-- LOOP with a count in a register, and LOOPQ with a count in the queue entry it pops, complete wherever the first non-empty lane
after them has BT set and does not lie after the end lane their fields name, and that lane is not empty, in lines that can be
read: a count of zero skips the body; otherwise the loop register holds the count, the body and the present depth, and the body
begins. No other loop register, no register and no predicate changes (R232, R233). -/
def Obligations.LoopsStartOrSkip : Prop :=
  (∀ (o : PFmt) (s s1 s2 : State) (c start : Nat) (line : Line) (bs : List Byte), (Instr.loop o).wf = true →
    curOwner s = some (.crew c) → RegsReady s (.crew c) [o.a] →
    let pc := (s.crew c).sc.pc.toNat
    let stop := ptrLine pc + 32 * o.len + o.elane
    ¬(o.len = 0 ∧ o.elane ≤ ptrLane pc) →
    firstLane (.crew c) (o.len + 2) (ptrNext pc 1) stop s = .ok (some (start, line)) s1 →
    fetchLine (.crew c) (ptrLine stop) s1 = .ok bs s2 → (Line.ofBytes bs).wf false (ptrLine stop) = true →
    start ≤ stop → line.bt (ptrLane start) = true → (Line.ofBytes bs).sid o.elane ≠ 0 →
    LoopBegins (.loop o) s s2 c o.l (regVal s (.crew c) o.a).toNat start stop) ∧
  (∀ (o : PQFmt) (s s0 s1 s2 : State) (c start : Nat) (e : QEntry) (line : Line) (bs : List Byte),
    (Instr.loopq o).wf = true → curOwner s = some (.crew c) →
    let pc := (s.crew c).sc.pc.toNat
    let stop := ptrLine pc + 32 * o.len + o.elane
    ¬(o.len = 0 ∧ o.elane ≤ ptrLane pc) → popQueue c o.q 1 0 false s = .ok e s0 → e.p = false →
    firstLane (.crew c) (o.len + 2) (ptrNext pc 1) stop s0 = .ok (some (start, line)) s1 →
    fetchLine (.crew c) (ptrLine stop) s1 = .ok bs s2 → (Line.ofBytes bs).wf false (ptrLine stop) = true →
    start ≤ stop → line.bt (ptrLane start) = true → (Line.ofBytes bs).sid o.elane ≠ 0 →
    LoopBegins (.loopq o) s s2 c o.l (leNat e.data) start stop ∧ (s2.crew c).queues.getD o.q {} = (s0.crew c).queues.getD o.q {})

/-- STOP ends the S stream and deactivates every loop; PHASE releases and then acquires at its scope; WAITC acquires at its
scope where its counter has reached the value, and otherwise parks its owner, with nothing else changed; an address that is
no multiple of 8 raises the alignment fault, cause 4 (R117, R121, R217, R218, R235, R243). NOP, YIELD and PREF only advance
the pointer (R210, R223). -/
def Obligations.StopsWaitsAndHints : Prop :=
  ((∀ (o : RFmt) (s : State) (c : Nat), (Instr.stop o).wf = true → Guarded s (.crew c) o.g o.ng →
    exec (.stop o) s = .next (s.setCrew c { s.crew c with
      smode := .stopped, loops := [], sc := { (s.crew c).sc with stalled := false } })) ∧
  (∀ (o : RFmt) (s : State) (t : Nat), (Instr.phase o).wf = true → Guarded s (.thread t) o.g o.ng →
    (o.fn < 5 ∨ gangHolds s (.thread t) = false) →
    exec (.phase o) s =
      .next (advance (acquire (release s (.thread t) o.fn) (.thread t) o.fn) (.thread t) 1)) ∧
  (∀ (o : RFmt) (s s1 s2 : State) (w : Owner) (pa : Nat) (bs : List Byte), (Instr.waitc o).wf = true →
    Guarded s w o.g o.ng → RegsReady s w [o.a, o.b] →
    let x := regVal s w o.a
    let y := (regVal s w o.b).toNat
    (x.toNat % 8 ≠ 0 → exec (.waitc o) s = .next (raised s w { cause := 4, addr := x, info := 8 })) ∧
    (counterAddr w x.toNat s = .ok pa s1 → readPort pa 8 s1 = .ok (some bs) s2 →
      (y ≤ leNat bs → exec (.waitc o) s = .next (advance (acquire s2 (agentOf w) o.fn) w 1)) ∧
      (leNat bs < y → ∀ t, w = .thread t → exec (.waitc o) s =
        .next (s2.setThread t { s2.thread t with mode := .waitc pa y o.fn x.toNat, reported := false })) ∧
      (leNat bs < y → ∀ c, w = .crew c → exec (.waitc o) s =
        .next (let u : State := { s2 with nextId := s2.nextId + 1 }
          rouse (u.setCrew c { u.crew c with smode := .waitc pa y o.fn x.toNat s2.nextId, reported := false }) (s2.crew c).cl))))) ∧
  ((∀ (o : RFmt) (s : State) (w : Owner), (Instr.nop o).wf = true → curOwner s = some w →
    exec (.nop o) s = .next (advance s w 1)) ∧
  (∀ (o : RFmt) (s : State) (t : Nat), (Instr.yield o).wf = true → curOwner s = some (.thread t) →
    exec (.yield o) s = .next (advance s (.thread t) 1)) ∧
  (∀ (o : MemFmt) (s : State) (t : Nat), (Instr.pref o).wf = true → curOwner s = some (.thread t) →
    RegsReady s (.thread t) [o.a] → exec (.pref o) s = .next (advance s (.thread t) 1)))

/-! ### Queues (R133-R157, R224-R228) -/

namespace Sys2Proof.Machine

/-- Queue q of a crew. -/
def queueOf (s : State) (c q : Nat) : Queue := (s.crew c).queues.getD q {}

/-- The state with queue q of a crew replaced. -/
def withQueue (s : State) (c q : Nat) (v : Queue) : State :=
  s.setCrew c { s.crew c with queues := (s.crew c).queues.put q v {} }

/-- The marks of an entry, written to the predicates a mark-reading form names (R226). -/
def withMarks (s : State) (w : Owner) (o : QFmt) (e : QEntry) : State :=
  if o.mf = 1 then withPred (withPred (withPred s w o.kp e.h) w (o.kp + 1) e.t) w (o.kp + 2) e.p else s

/-- The word of an entry. -/
def entryWord (e : QEntry) : Word := BitVec.ofNat 64 (leNat e.data)

/-- A stall episode on queue q: counted once, and nothing else happens, but that a push by S to the branch queue has reached it
(R141, R142, R149, R150). -/
def stalledOn (s : State) (w : Owner) (c q : Nat) (push loss : Bool) : State :=
  if (s.scalar w).stalled then s
  else
    let s1 := countEpisode s c q push loss
    let s2 := s1.setScalar w { s1.scalar w with stalled := true }
    match w with
    | .thread _ => s2
    | .crew k => s2.setCrew k { s2.crew k with atBrq := push && (queueOf s2 c q).brq }

end Sys2Proof.Machine

/-- QPUSH and QPUSHM append their word, with the marks the form gives it, to an open queue with room; QPOP takes the oldest
entry and QPEEK leaves it, and each marks its register empty until the word arrives; the mark-reading forms write H, T and
P to three predicates (R137, R225, R226). At the branch queue the skip tokens that came before enter first, as far as it has
room, and the push stalls behind those left (R149). -/
def Obligations.QueuesMoveWords : Prop :=
  (∀ (o : QFmt) (s : State) (w : Owner) (c : Nat), (Instr.qpush o).wf = true → Guarded s w o.g o.ng →
    crewOf s w = some c → RegsReady s w [o.reg] →
    let v := queueOf s c o.q
    queueRefuses v (endpointOf w) 0 true = none → v.isFull = false → v.skip = false → v.whole = false →
    (v.brq = true → (s.crew c).skipToks = []) →
    exec (.qpush o) s = .next (advance (withQueue s c o.q
      { v with entries := v.entries ++ [{ data := leBytes 8 (regVal s w o.reg).toNat }] }) w 1)) ∧
  (∀ (o : QFmt) (s : State) (w : Owner) (c : Nat), (Instr.qpushm o).wf = true → Guarded s w o.g o.ng →
    crewOf s w = some c → RegsReady s w [o.reg] →
    let v := queueOf s c o.q
    queueRefuses v (endpointOf w) 0 true = none → v.isFull = false → v.skip = false → v.whole = false →
    (v.brq = true → (s.crew c).skipToks = []) →
    exec (.qpushm o) s = .next (advance (withQueue s c o.q { v with
      entries := v.entries ++ [{ data := leBytes 8 (regVal s w o.reg).toNat, h := o.h == 1, t := o.t == 1 }] }) w 1)) ∧
  (∀ (o : QFmt) (s : State) (c : Nat), (Instr.qpush o).wf = true → Guarded s (.crew c) o.g o.ng → RegsReady s (.crew c) [o.reg] →
    let r := enterTokens (queueOf s c o.q) (s.crew c).skipToks
    queueRefuses (queueOf s c o.q) 1 0 true = none → (queueOf s c o.q).brq = true → (queueOf s c o.q).trapF = false →
    ((∃ x ∈ r.2, x.2 = false) → exec (.qpush o) s = .next (stalledOn s (.crew c) c o.q true false)) ∧
    ((∀ x ∈ r.2, x.2 = true) → r.1.isFull = false → exec (.qpush o) s = .next (advance
      (let t := withQueue s c o.q (r.1.arrive { data := leBytes 8 (regVal s (.crew c) o.reg).toNat })
       t.setCrew c { t.crew c with skipToks := r.2.map fun x => (x.1, false) }) (.crew c) 1))) ∧
  (∀ (v : Queue) (x : Word) (rest : List (Word × Bool)), v.isFull = false → v.skip = false → v.whole = false →
    enterTokens v ((x, false) :: rest) =
      enterTokens { v with entries := v.entries ++ [{ data := leBytes 8 x.toNat, h := true }] } rest) ∧
  (∀ (o : QFmt) (s : State) (w : Owner) (c : Nat) (e : QEntry) (rest : List QEntry), (Instr.qpop o).wf = true →
    Guarded s w o.g o.ng → crewOf s w = some c → RegsReady s w [o.reg] → (∀ t, w = .thread t → (s.thread t).lossDue = none) →
    let v := queueOf s c o.q
    queueRefuses v (endpointOf w) 0 false = none → v.entries = e :: rest →
    exec (.qpop o) s = .next (advance (withMarks
      (withPend (withQueue s c o.q (v.popped e rest)) w o.reg (.value (entryWord e))) w o e) w 1)) ∧
  (∀ (o : QFmt) (s : State) (t c : Nat) (e : QEntry) (rest : List QEntry), (Instr.qpeek o).wf = true →
    Guarded s (.thread t) o.g o.ng → (s.thread t).crew = some c → RegsReady s (.thread t) [o.reg] →
    let v := queueOf s c o.q
    queueRefuses v 0 0 false = none → v.entries = e :: rest →
    exec (.qpeek o) s = .next (advance (withMarks
      (withPend s (.thread t) o.reg (.value (entryWord e))) (.thread t) o e) (.thread t) 1))

/-- A push to a full queue and a pop or peek of an empty one stall, and the episode counts once in FULL_CNT or EMPTY_CNT; with
TRAPF or TRAPE they count it and raise cause 12 or 11 instead; a thread's pop of the empty branch queue is a loss of decoupling,
counted in DCPL_CNT too, and a skip-pending queue counts no episode (R141, R142, R143, R144, R150, R226). Naming a queue whose
producer, consumer or width does not fit, or one never opened, raises the queue fault, cause 10, and one closed the queue-lost
event, cause 13, but for a pop of its poison tail; an unbound thread has no queue (R136, R156, R224). -/
def Obligations.QueueStallsAndFaults : Prop :=
  (∀ (i : QFmt → Instr), i ∈ [Instr.qpush, Instr.qpushm] → ∀ (o : QFmt) (s : State) (w : Owner) (c : Nat), (i o).wf = true →
    Guarded s w o.g o.ng → crewOf s w = some c → RegsReady s w [o.reg] →
    let v := queueOf s c o.q
    queueRefuses v (endpointOf w) 0 true = none → v.isFull = true → v.skip = false →
    (v.trapF = false → exec (i o) s = .next (stalledOn s w c o.q true false)) ∧
    (v.trapF = true → exec (i o) s =
      .next (raisedAt w { cause := 12, info := BitVec.ofNat 64 o.q } s (countEpisode s c o.q true false)))) ∧
  (∀ (o : QFmt) (s : State) (w : Owner) (c : Nat), (Instr.qpop o).wf = true → Guarded s w o.g o.ng →
    crewOf s w = some c → RegsReady s w [o.reg] → (∀ t, w = .thread t → (s.thread t).lossDue = none) →
    let v := queueOf s c o.q
    queueRefuses v (endpointOf w) 0 false = none → v.entries = [] → v.brq = false →
    (v.skip = false → v.trapE = false → exec (.qpop o) s = .next (stalledOn s w c o.q false false)) ∧
    (v.skip = false → v.trapE = true → exec (.qpop o) s =
      .next (raisedAt w { cause := 11, info := BitVec.ofNat 64 o.q } s (countEpisode s c o.q false false))) ∧
    (v.skip = true → v.trapE = false → exec (.qpop o) s = .next s) ∧
    (v.skip = true → v.trapE = true → exec (.qpop o) s = .next (raised s w { cause := 11, info := BitVec.ofNat 64 o.q }))) ∧
  (∀ (o : QFmt) (s : State) (t c : Nat), (Instr.qpeek o).wf = true → Guarded s (.thread t) o.g o.ng →
    (s.thread t).crew = some c → RegsReady s (.thread t) [o.reg] →
    let v := queueOf s c o.q
    queueRefuses v 0 0 false = none → v.entries = [] → v.skip = false →
    (v.trapE = false ∨ v.brq = true → exec (.qpeek o) s = .next (stalledOn s (.thread t) c o.q false false)) ∧
    (v.trapE = true → v.brq = false → exec (.qpeek o) s =
      .next (raisedAt (.thread t) { cause := 11, info := BitVec.ofNat 64 o.q } s (countEpisode s c o.q false false)))) ∧
  (∀ (o : QFmt) (s : State) (t c : Nat), (Instr.qpop o).wf = true → Guarded s (.thread t) o.g o.ng →
    (s.thread t).crew = some c → RegsReady s (.thread t) [o.reg] → (s.thread t).lossDue = none →
    let v := queueOf s c o.q
    queueRefuses v 0 0 false = none → v.entries = [] → v.skip = false → v.brq = true →
    exec (.qpop o) s = .next (stalledOn s (.thread t) c o.q false true)) ∧
  (∀ (i : QFmt → Instr), i ∈ [Instr.qpush, Instr.qpushm] → ∀ (o : QFmt) (s : State) (w : Owner) (c cause : Nat),
    (i o).wf = true → Guarded s w o.g o.ng → crewOf s w = some c → RegsReady s w [o.reg] →
    queueRefuses (queueOf s c o.q) (endpointOf w) 0 true = some cause →
    exec (i o) s = .next (raised s w { cause := cause, info := BitVec.ofNat 64 o.q })) ∧
  (∀ (o : QFmt) (s : State) (w : Owner) (c cause : Nat), (Instr.qpop o).wf = true → Guarded s w o.g o.ng →
    crewOf s w = some c → RegsReady s w [o.reg] → queueRefuses (queueOf s c o.q) (endpointOf w) 0 false = some cause →
    exec (.qpop o) s = .next (raised s w { cause := cause, info := BitVec.ofNat 64 o.q })) ∧
  (∀ (i : QFmt → Instr), i ∈ [Instr.qpeek, Instr.qskip] → ∀ (o : QFmt) (s : State) (t c cause : Nat), (i o).wf = true →
    Guarded s (.thread t) o.g o.ng → (s.thread t).crew = some c → RegsReady s (.thread t) [o.reg] →
    queueRefuses (queueOf s c o.q) 0 0 false = some cause →
    exec (i o) s = .next (raised s (.thread t) { cause := cause, info := BitVec.ofNat 64 o.q })) ∧
  (∀ (i : QFmt → Instr), i ∈ [Instr.qpush, Instr.qpushm, Instr.qpop, Instr.qpeek, Instr.qskip] →
    ∀ (o : QFmt) (s : State) (t : Nat), (i o).wf = true → Guarded s (.thread t) o.g o.ng → (s.thread t).crew = none →
    exec (i o) s = .next (raised s (.thread t) { cause := 10, info := BitVec.ofNat 64 o.q })) ∧
  (∀ (v : Queue) (ep : Nat) (push : Bool), v.isOpen = true →
    (queueRefuses v ep 0 push = none ↔ (if push then v.prod else v.cons) = ep ∧ v.width = 0) ∧
    (queueRefuses v ep 0 push ≠ none → queueRefuses v ep 0 push = some 10)) ∧
  (∀ (v : Queue) (ep : Nat), v.isOpen = false → queueRefuses v ep 0 true = some (if v.lost then 13 else 10) ∧
    (v.lost = false → queueRefuses v ep 0 false = some 10) ∧ (v.lost = true → v.entries = [] → queueRefuses v ep 0 false = some 13))

/-- QSKIP discards the entries up to the first with T, counting each in DISCARD_CNT, and where there is none discards all
and leaves the queue skip-pending, so that entries are discarded as they arrive up to one with T; it never blocks. QSTAT
gives the occupancy and the three counts, and zero to an unbound thread, which is the model's choice (log 116). QCLOSE by the crew's own handler discards
every entry, counts it, clears OPEN, and leaves no entry but the poison tail of a consumer in mid-burst (R142, R144, R156,
R224, R227, R228). -/
def Obligations.SkipStatAndClose : Prop :=
  (∀ (o : QFmt) (s : State) (t c : Nat), (Instr.qskip o).wf = true → Guarded s (.thread t) o.g o.ng →
    (s.thread t).crew = some c → queueRefuses (queueOf s c o.q) 0 0 false = none →
    exec (.qskip o) s = .next (advance (withQueue s c o.q (queueOf s c o.q).skipTail) (.thread t) 1)) ∧
  (∀ (v : Queue) (pre post : List QEntry) (e : QEntry), v.skip = false → v.entries = pre ++ e :: post →
    (∀ x ∈ pre, x.t = false) → e.t = true →
    v.skipTail.entries = post ∧ v.skipTail.skip = false ∧
    v.skipTail.disc.toNat = min 0xFFFF (v.disc.toNat + (pre.length + 1))) ∧
  (∀ (v : Queue), v.skip = false → (∀ x ∈ v.entries, x.t = false) →
    v.skipTail.entries = [] ∧ v.skipTail.skip = true ∧
    ∀ e, (v.skipTail.arrive e).entries = [] ∧ (v.skipTail.arrive e).skip = !e.t) ∧
  (∀ (o : QFmt) (s : State) (t c : Nat), (Instr.qstat o).wf = true → Guarded s (.thread t) o.g o.ng →
    (s.thread t).crew = some c → RegsReady s (.thread t) [o.reg] →
    let v := queueOf s c o.q
    exec (.qstat o) s = .next (advance (withReg s (.thread t) o.reg
      (BitVec.ofNat 64 (v.occ + v.disc.toNat * 2 ^ 16 + v.fullc.toNat * 2 ^ 32 + v.empty.toNat * 2 ^ 48))) (.thread t) 1)) ∧
  (∀ (o : QFmt) (s : State) (t : Nat), (Instr.qstat o).wf = true → Guarded s (.thread t) o.g o.ng →
    (s.thread t).crew = none → RegsReady s (.thread t) [o.reg] →
    exec (.qstat o) s = .next (advance (withReg s (.thread t) o.reg 0) (.thread t) 1)) ∧
  (∀ (o : QFmt) (s : State) (t c : Nat), (Instr.qclose o).wf = true → Guarded s (.thread t) o.g o.ng →
    (s.thread t).level ≠ 0 → (s.thread t).crew = some c → RegsReady s (.thread t) [o.reg] →
    crewByHandle s (regVal s (.thread t) o.reg).toNat = some c → (s.crew c).stage ≠ .gone →
    exec (.qclose o) s = .next (advance (withQueue s c o.q (queueOf s c o.q).closed) (.thread t) 1)) ∧
  (∀ (v : Queue), v.isOpen = true → v.closed.isOpen = false ∧ v.closed.lost = true ∧ v.closed.window = [] ∧
    v.closed.held = [] ∧ v.closed.disc.toNat = min 0xFFFF (v.disc.toNat + v.occ) ∧
    v.closed.entries = if v.mid && !v.whole then
      [{ data := List.replicate (entryBytes v.width) 0, t := true, p := true }] else []) ∧
  (∀ (o : QFmt) (s : State) (t : Nat), (Instr.qclose o).wf = true → Guarded s (.thread t) o.g o.ng →
    (s.thread t).level = 0 → exec (.qclose o) s = .next (raised s (.thread t) { cause := 2 }))

/-! ### Memory: addresses, loads, stores, phases (R105-R132, R203-R211) -/

namespace Sys2Proof.Machine

/-- The address a format M access forms: the register plus the offset scaled by the access size (R205). -/
def formM (s : State) (t : Nat) (o : MemFmt) : Word :=
  regVal s (.thread t) o.a + (BitVec.ofNat 10 o.off).signExtend 64 <<< o.sz

/-- The address LDX and STX form: a plus b scaled by the access size. -/
def formX (s : State) (t : Nat) (o : RFmt) : Word :=
  regVal s (.thread t) o.a + regVal s (.thread t) o.b <<< (o.fn / 4)

/-- The value a load of bytes writes, zero- or sign-extended (R206). -/
def extended (bs : List Byte) (sz sx : Nat) : Word :=
  if sx = 1 then (BitVec.ofNat (8 * 2 ^ sz) (leNat bs)).signExtend 64 else BitVec.ofNat 64 (leNat bs)

/-- A store of bytes by a thread at a physical address: the bytes it then reads there are those stored, every other byte
it reads is as before, and so is every byte any other agent reads, at its home port or as published. -/
def Stores (s u : State) (t pa : Nat) (bs : List Byte) : Prop :=
  (∀ i, i < bs.length → byteSeen u (.thread t) (pa + i) = bs.getD i 0) ∧
  (∀ a, a < pa ∨ pa + bs.length ≤ a → byteSeen u (.thread t) a = byteSeen s (.thread t) a) ∧
  (∀ b a, b ≠ Agent.thread t → byteSeen u b a = byteSeen s b a) ∧
  (∀ a, u.mem.port a = s.mem.port a ∧ u.mem.published a = s.mem.published a)

/-- A register-only instruction's frame, for one that reads memory: nothing but the registers named has changed among
registers and predicates, and no byte reads otherwise to any agent that had chosen its snapshot of the line. -/
def LoadsOnly (s u : State) (t d : Nat) : Prop :=
  RegsBut (.thread t) (if d = 0 then [] else [d]) s u ∧ PredsBut (.thread t) [] s u ∧
  (u.scalar (.thread t)).depth = (s.scalar (.thread t)).depth ∧ u.crews = s.crews ∧ u.pins = s.pins ∧
  u.clusters = s.clusters ∧ u.contexts = s.contexts ∧ u.mem.log = s.mem.log ∧ u.mem.cells = s.mem.cells ∧
  (∀ v, v ≠ t → u.thread v = s.thread v) ∧
  (∀ b a, ((s.view b).snap.find? (a / 1024)).isSome = true → byteSeen u b a = byteSeen s b a)

end Sys2Proof.Machine

/-- LD and LDX check and translate their address, read their bytes as the thread sees them, and mark d empty for the value,
zero- or sign-extended, that will arrive (R205, R206). That the bytes are those the thread sees when the load issues is the model's
choice (log 17). -/
def Obligations.LoadsAwaitTheirValue : Prop :=
  (∀ (o : MemFmt) (s s1 s2 : State) (t pa : Nat) (bs : List Byte), (Instr.ld o).wf = true →
    curOwner s = some (.thread t) → RegsReady s (.thread t) [o.a, o.d] →
    dataAddr t (formM s t o) o.sz false s = .ok pa s1 → readPhys (.thread t) pa (2 ^ o.sz) s1 = .ok (some bs) s2 →
    exec (.ld o) s = .next (advance (withPend s2 (.thread t) o.d (.load
      { va := (formM s t o).toNat, pa := pa, n := 2 ^ o.sz, signed := o.sx == 1, level := (s2.thread t).level.toNat
        upto := s2.nextId, v := extended bs o.sz o.sx })) (.thread t) 1)) ∧
  (∀ (o : RFmt) (s s1 s2 : State) (t pa : Nat) (bs : List Byte), (Instr.ldx o).wf = true →
    Guarded s (.thread t) o.g o.ng → RegsReady s (.thread t) [o.a, o.b, o.d] →
    dataAddr t (formX s t o) (o.fn / 4) false s = .ok pa s1 →
    readPhys (.thread t) pa (2 ^ (o.fn / 4)) s1 = .ok (some bs) s2 →
    exec (.ldx o) s =
      .next (advance (withPend s2 (.thread t) o.d
        (.load { va := (formX s t o).toNat, pa := pa, n := 2 ^ (o.fn / 4), signed := o.fn / 2 % 2 == 1
                 level := (s2.thread t).level.toNat, upto := s2.nextId, v := extended bs (o.fn / 4) (o.fn / 2 % 2) })) (.thread t) 1))

/-- ST and STX complete wherever their address translates for writing: the thread reads back the bytes of its data
register at that address, every other byte is as it was, no other agent sees a change, and no register, predicate, crew or
other thread changes (R113, R207). -/
def Obligations.StoresWriteTheirBytes : Prop :=
  (∀ (o : MemFmt) (s s1 : State) (t pa : Nat), (Instr.st o).wf = true → curOwner s = some (.thread t) →
    RegsReady s (.thread t) [o.a, o.d] → dataAddr t (formM s t o) o.sz true s = .ok pa s1 →
    ∃ u, exec (.st o) s = .next u ∧ Stores s u t pa (leBytes (2 ^ o.sz) (regVal s (.thread t) o.d).toNat) ∧
      RegsBut (.thread t) [] s u ∧ PredsBut (.thread t) [] s u ∧ u.crews = s.crews ∧
      (∀ v, v ≠ t → u.thread v = s.thread v)) ∧
  (∀ (o : RFmt) (s s1 : State) (t pa : Nat), (Instr.stx o).wf = true → Guarded s (.thread t) o.g o.ng →
    RegsReady s (.thread t) [o.a, o.b, o.d] → dataAddr t (formX s t o) (o.fn / 4) true s = .ok pa s1 →
    ∃ u, exec (.stx o) s = .next u ∧ Stores s u t pa (leBytes (2 ^ (o.fn / 4)) (regVal s (.thread t) o.d).toNat) ∧
      RegsBut (.thread t) [] s u ∧ PredsBut (.thread t) [] s u ∧ u.crews = s.crews ∧
      (∀ v, v ≠ t → u.thread v = s.thread v))

/-- MADR and TADR form addresses: a plus b shifted by fn; the first byte of a tile from its descriptor and coordinates. TADR
raises the descriptor fault (6) for a TID above 4,095, the layout fault (8) for a kind other than DENSE and MAGORD, and the
bounds fault (7) outside the grid (R83, R84, R203, R204). A load changes no register but d, no predicate, no other thread,
no crew, no write in memory's order, and no byte of memory as any agent that had chosen its snapshot of a line reads it
(R112, R206). A data address that is no multiple of the access size raises the alignment fault, cause 4, with the address
and the size, before any translation (R205). -/
def Obligations.AddressesLoadsAndAlignment : Prop :=
  ((∀ (o : RFmt) (s : State) (t : Nat), (Instr.madr o).wf = true → Guarded s (.thread t) o.g o.ng →
    RegsReady s (.thread t) [o.a, o.b, o.d] →
    exec (.madr o) s = .next (advance (withReg s (.thread t) o.d
      (regVal s (.thread t) o.a + regVal s (.thread t) o.b <<< o.fn)) (.thread t) 1)) ∧
  (∀ (o : RFmt) (s s' : State) (t : Nat) (d : Desc), (Instr.tadr o).wf = true → Guarded s (.thread t) o.g o.ng →
    RegsReady s (.thread t) [o.a, o.b, o.d] →
    let x := (regVal s (.thread t) o.a).toNat
    let y := regVal s (.thread t) o.b
    let c (n : Nat) : Nat := (y.extractLsb' (16 * n) 16).toNat
    let info := BitVec.ofNat 64 (x % 4096)
    (4096 ≤ x → exec (.tadr o) s = .next (raised s (.thread t) { cause := 6, info := info })) ∧
    (x < 4096 → tidOrTrap (s.thread t).ctx x (s.thread t).crew (.thread t) s = .ok d s' →
      (1 < d.kind → exec (.tadr o) s = .next (raisedAfter s s' (.thread t) { cause := 8, info := info })) ∧
      (d.kind ≤ 1 → d.inGrid (c 0) (c 1) (c 2) (c 3) = false →
        exec (.tadr o) s = .next (raisedAfter s s' (.thread t) { cause := 7, info := info })) ∧
      (d.kind ≤ 1 → d.inGrid (c 0) (c 1) (c 2) (c 3) = true →
        exec (.tadr o) s = .next (advance (withReg s' (.thread t) o.d
          (BitVec.ofNat 64 (d.base + 1024 * (c 0 + c 1 * d.str1 + c 2 * d.str2 + c 3 * d.str3)))) (.thread t) 1))))) ∧
  ((∀ (o : MemFmt) (s s1 s2 u : State) (t pa : Nat) (bs : List Byte), (Instr.ld o).wf = true →
    curOwner s = some (.thread t) → RegsReady s (.thread t) [o.a, o.d] →
    dataAddr t (formM s t o) o.sz false s = .ok pa s1 → readPhys (.thread t) pa (2 ^ o.sz) s1 = .ok (some bs) s2 →
    exec (.ld o) s = .next u → LoadsOnly s u t o.d) ∧
  (∀ (o : RFmt) (s s1 s2 u : State) (t pa : Nat) (bs : List Byte), (Instr.ldx o).wf = true →
    Guarded s (.thread t) o.g o.ng → RegsReady s (.thread t) [o.a, o.b, o.d] →
    dataAddr t (formX s t o) (o.fn / 4) false s = .ok pa s1 →
    readPhys (.thread t) pa (2 ^ (o.fn / 4)) s1 = .ok (some bs) s2 →
    exec (.ldx o) s = .next u → LoadsOnly s u t o.d)) ∧
  ((∀ (o : MemFmt) (s : State) (t : Nat), (Instr.ld o).wf = true → curOwner s = some (.thread t) →
    RegsReady s (.thread t) [o.a, o.d] → (formM s t o).toNat % 2 ^ o.sz ≠ 0 →
    exec (.ld o) s =
      .next (raised s (.thread t) { cause := 4, addr := formM s t o, info := BitVec.ofNat 64 (2 ^ o.sz) })) ∧
  (∀ (o : MemFmt) (s : State) (t : Nat), (Instr.st o).wf = true → curOwner s = some (.thread t) →
    RegsReady s (.thread t) [o.a, o.d] → (formM s t o).toNat % 2 ^ o.sz ≠ 0 →
    exec (.st o) s =
      .next (raised s (.thread t) { cause := 4, addr := formM s t o, info := BitVec.ofNat 64 (2 ^ o.sz) })) ∧
  (∀ (o : RFmt) (s : State) (t : Nat), (Instr.ldx o).wf = true → Guarded s (.thread t) o.g o.ng →
    RegsReady s (.thread t) [o.a, o.b, o.d] → (formX s t o).toNat % 2 ^ (o.fn / 4) ≠ 0 →
    exec (.ldx o) s =
      .next (raised s (.thread t) { cause := 4, addr := formX s t o, info := BitVec.ofNat 64 (2 ^ (o.fn / 4)) })) ∧
  (∀ (o : RFmt) (s : State) (t : Nat), (Instr.stx o).wf = true → Guarded s (.thread t) o.g o.ng →
    RegsReady s (.thread t) [o.a, o.b, o.d] → (formX s t o).toNat % 2 ^ (o.fn / 4) ≠ 0 →
    exec (.stx o) s =
      .next (raised s (.thread t) { cause := 4, addr := formX s t o, info := BitVec.ofNat 64 (2 ^ (o.fn / 4)) })))

/-- A release publishes every write the agent has made or gained, at its scope from its place, to every crew on a unit within
its reach at that instant, and at package scope or wider to every agent; an acquire gains every write published to the agent
at its scope, and a line read for the first time after it shows each of them, or a later write to the same byte, but for a
command those its issuer made after it (R111, R112, R114, R115, R125). IFENCE forgets the lines the thread has fetched, and
keeps the view the thread has now and the names of the writes published to it, from which its next fetches read (R164,
R211). -/
def Obligations.FencesAndReleases : Prop :=
  ((∀ (s : State) (a : Agent) (scope c : Nat) (k : Crew), s.crews.find? c = some k → c < s.nextId → onUnit k = true →
    reach (clampScope (placeOf s a) scope) (placeOf s a) k.cl = true → (pubBy s a scope).covers s (.half c) = true) ∧
  (∀ (s : State) (a b : Agent) (scope : Nat), 4 ≤ scope → (pubBy s a scope).covers s b = true) ∧
  (∀ (s : State) (a : Agent) (scope : Nat) (w : Write), (scope < 5 ∨ gangHolds s a = false) → w ∈ (s.view a).pend →
    (∀ x ∈ s.mem.log, x.id ≠ w.id) →
    ∃ x ∈ (release s a scope).mem.log, x.id = w.id ∧ x.cells = w.cells ∧
      pubBy s a scope ∈ x.pubs) ∧
  (∀ (s : State) (a : Agent) (scope : Nat) (w : Write), (scope < 5 ∨ gangHolds s a = false) → w ∈ s.mem.log →
    w.id ∈ (s.view a).made ++ (s.view a).gained →
    ∃ x ∈ (release s a scope).mem.log, x.id = w.id ∧ x.cells = w.cells ∧
      pubBy s a scope ∈ x.pubs) ∧
  (∀ (s : State) (a : Agent) (scope : Nat) (w : Write) (p : Pub), w ∈ s.mem.log → p ∈ w.pubs →
    p.covers s a = true → reach (clampScope (placeOf s a) scope) (placeOf s a) (p.place s) = true →
    w.id ∈ ((acquire s a scope).view a).gained ∧ ((acquire s a scope).view a).snap = [] ∧
    ((acquire s a scope).view a).fresh = []) ∧
  (∀ (s u : State) (a : Agent) (w : Write) (pa : Nat), w ∈ s.mem.log → w.id ∈ (s.view a).gained →
    (w.cells.find? pa).isSome = true → (s.view a).snap.find? (pa / 1024) = none →
    (∀ e ∈ (s.view a).snap, touches w e.1 = true → w.id ∈ e.2) → issuedAfter (s.view a) a w = false →
    chooseSnap a (pa / 1024) s = .ok () u → w.id ∈ (u.view a).snap.getD (pa / 1024) [])) ∧
  (∀ (o : RFmt) (s : State) (t : Nat), (Instr.ifence o).wf = true → curOwner s = some (.thread t) →
    exec (.ifence o) s =
      .next (advance (s.setScalar (.thread t) { s.scalar (.thread t) with
        lines := [], line := none, fence := s.view (.thread t)
        fenceSeen := (s.mem.log.filter fun w => publishedTo s (.thread t) w).map (·.id) }) (.thread t) 1))
/-! ### Pins, translations, arrivals (R167, R206, R213-R216, R238, R462) -/

/-- PIN reads and checks a footprint record, translates the pages it covers and those of its descriptor, and registers a pin
with a fresh handle for the crew or unbound thread; d awaits the handle. A record that is misaligned raises the footprint
fault, cause 9 (R213, R214). UNPIN of a standing or revoked pin does not wait: the pin leaves once every operation
outstanding now has completed, which UNPIN_RELEASE finds; a handle that names no pin of the crew raises the footprint fault
(R216). -/
def Obligations.PinsAndReleases : Prop :=
  ((∀ (o : RFmt) (s s1 s2 : State) (t : Nat) (f : Footprint) (d : Desc) (ls ds : List Leaf), (Instr.pin o).wf = true →
    Guarded s (.thread t) o.g o.ng → RegsReady s (.thread t) [o.a, o.d] →
    readFootprint t (regVal s (.thread t) o.a) s = .ok (f, d) s1 →
    (s1.pins.filter fun p => p.owner == pinOwnerOf s1 t && !p.ended).length < pinLimit (pinOwnerOf s1 t) →
    pinLeaves t f.w (f.ranges d) (descRange s1 (s1.thread t).ctx f.tid) s1 = .ok (ls, ds) s2 →
    ∃ u, exec (.pin o) s = .next u ∧
      u.pins = s2.pins ++ [{ handle := s2.nextId, owner := pinOwnerOf s t, ctx := (s.thread t).ctx, ranges := f.ranges d
                             w := f.w, leaves := ls ++ ds, descPages := ds }] ∧
      u.nextId = s2.nextId + 1 ∧
      (o.d ≠ 0 → (u.thread t).sc.isFull o.d = false ∧
        (u.thread t).sc.pend.find? o.d = some (.pin (BitVec.ofNat 64 s2.nextId))) ∧
      RegsBut (.thread t) (if o.d = 0 then [] else [o.d]) s u ∧ PredsBut (.thread t) [] s u) ∧
  (∀ (o : RFmt) (s : State) (t : Nat), (Instr.pin o).wf = true → Guarded s (.thread t) o.g o.ng →
    RegsReady s (.thread t) [o.a, o.d] → (regVal s (.thread t) o.a).toNat % 64 ≠ 0 →
    exec (.pin o) s = .next (raised s (.thread t) { cause := 9, addr := regVal s (.thread t) o.a }))) ∧
  ((∀ (o : RFmt) (s : State) (t : Nat) (p : Pin), (Instr.unpin o).wf = true → Guarded s (.thread t) o.g o.ng →
    RegsReady s (.thread t) [o.a] →
    (s.pins.find? fun q => q.owner == pinOwnerOf s t && q.handle == (regVal s (.thread t) o.a).toNat &&
      q.leaving.isNone) = some p →
    exec (.unpin o) s = .next (advance { s with pins := s.pins.map fun q =>
      if q.handle == p.handle then { q with leaving := some (outstanding s t) } else q } (.thread t) 1)) ∧
  (∀ (o : RFmt) (s : State) (t : Nat), (Instr.unpin o).wf = true → Guarded s (.thread t) o.g o.ng →
    RegsReady s (.thread t) [o.a] →
    (∀ q ∈ s.pins, q.owner = pinOwnerOf s t → q.handle = (regVal s (.thread t) o.a).toNat → q.leaving ≠ none) →
    exec (.unpin o) s = .next (raised s (.thread t) { cause := 9 })) ∧
  (∀ (s : State) (h : Nat), ∃ u, exec (.unpinRelease h) s = .next u ∧ { u with pins := s.pins } = s ∧
    ∀ q, q ∈ u.pins ↔ q ∈ s.pins ∧
      ¬(q.handle = h ∧ ∃ names, q.leaving = some names ∧ ∀ n ∈ names, stillRuns s n = false)))

/-- TLBI releases at package scope, removes the translations its operands name from the TLBs of its partition and revokes the
pins it reaches; it completes at once where no standing pin is left, and otherwise parks until TLBI_WAKE finds the last of
them released or revoked. At level 0 it raises the privileged-instruction exception (R15, R461, R462). The value a register
awaits arrives, for an owner whose crew is on its unit: the register is full and holds it, and nothing else changes. A
load's, a pop's or a peek's value comes by LOAD_DATA_ARRIVAL, a pin's handle by PIN_HANDLE_ARRIVAL; the word of the oldest
outstanding HRD of a threshold register merges into it (R167, R206, R214, R237, R238). -/
def Obligations.TranslationsAndArrivals : Prop :=
  ((∀ (o : RFmt) (s : State) (t : Nat), (Instr.tlbi o).wf = true → Guarded s (.thread t) o.g o.ng →
    RegsReady s (.thread t) [o.a, o.b] →
    let x := regVal s (.thread t) o.a
    let y := (regVal s (.thread t) o.b).toNat
    let th := s.thread t
    let ctx := if y % 2 ^ 16 = 0 then th.ctx else y % 2 ^ 16
    let s1 := release s (.thread t) 4
    let r := removeTranslations s1 t o.fn ctx x.toNat (bit y 16)
    (th.level = 0 → exec (.tlbi o) s = .next (raised s (.thread t) { cause := 2 })) ∧
    (th.level ≠ 0 → y < 2 ^ 17 → (o.fn = 0 ∨ x = 0) → (o.fn ≠ 2 ∨ y % 2 ^ 16 = 0) →
      (s.contexts.find? ctx).isSome = true → (s.context ctx).part = (s.context th.ctx).part →
      (th.level = 2 ∨ (o.fn ≠ 2 ∧ ctx = th.ctx)) →
      (r.2 = [] → exec (.tlbi o) s = .next (advance r.1 (.thread t) 1)) ∧
      (r.2 ≠ [] → exec (.tlbi o) s =
        .next (r.1.setThread t { r.1.thread t with mode := .tlbi r.2, reported := false })))) ∧
  (∀ (s : State) (t : Nat) (wait : List Nat), (s.thread t).mode = .tlbi wait →
    ((∀ p ∈ s.pins, p.handle ∈ wait → p.revoked = true) →
      exec (.tlbiWake t) s = .next (advance (s.setThread t { s.thread t with mode := .ready }) (.thread t) 1)) ∧
    ((∃ p ∈ s.pins, p.handle ∈ wait ∧ p.revoked = false) → exec (.tlbiWake t) s = .next s)) ∧
  (∀ (s : State) (t kind ctx x : Nat) (rev : Bool) (core : Nat) (e : TlbEntry),
    core / 4 ∈ (s.partition (s.context (s.thread t).ctx).part).units → e.ctx = ctx → e.leaf.holds x = true → kind < 2 →
    e ∉ (removeTranslations s t kind ctx x rev).1.tlb.getD core [])) ∧
  ((∀ (s : State) (w : Owner) (r : Nat) (v : Word), r < 32 → ownerAway s w = false →
    ((s.scalar w).pend.find? r = some (.value v) ∨
      ∃ l, (s.scalar w).pend.find? r = some (.load l) ∧ l.v = v) →
    exec (.loadDataArrival w r) s = .next (s.setScalar w ((s.scalar w).write r v)) ∧
    ((s.scalar w).write r v).isFull r = true ∧ ((s.scalar w).write r v).reg r = v) ∧
  (∀ (s : State) (t r : Nat) (h : Word), r < 32 → ownerAway s (.thread t) = false →
    (s.thread t).sc.pend.find? r = some (.pin h) →
    exec (.pinHandleArrival t r) s = .next (s.setScalar (.thread t) ((s.thread t).sc.write r h)) ∧
    ((s.thread t).sc.write r h).isFull r = true ∧ ((s.thread t).sc.write r h).reg r = h) ∧
  (∀ (s : State) (c h : Nat) (v : BitVec 32), ((s.crew c).hrds.find? fun r => r.1 == h) = some (h, some v) →
    ∃ u, exec (.hrdMerge c h) s = .next u ∧
      u = s.setCrew c { s.crew c with hrds := (s.crew c).hrds.erase (h, some v), h := (u.crew c).h } ∧
      (∀ k, k ≠ h → (u.crew c).thr k = (s.crew c).thr k) ∧
      (FFmt.f32.isNaN v.toNat = true → (u.crew c).thr h = (s.crew c).thr h) ∧
      (FFmt.f32.isNaN v.toNat = false →
        (u.crew c).thr h = if (FFmt.f32.decode ((s.crew c).thr h)).ltZ (FFmt.f32.decode v.toNat) then v.toNat
          else (s.crew c).thr h)) ∧
  (∀ (s s1 : State) (w : Owner) (pa at_ v scope va : Nat) (bs : List Byte), parkedAt s w = some (pa, v, scope, va) →
    waitedAt s w pa va = .ok at_ → readPort at_ 8 s = .ok (some bs) s1 →
    (leNat bs < v → exec (.waitcWake w) s = .next s1) ∧
    (v ≤ leNat bs → ∀ t, w = .thread t → exec (.waitcWake w) s =
      .next (advance (unpark w (acquire s1 (.thread t) scope)) w 1)) ∧
    (v ≤ leNat bs → ∀ c, w = .crew c → exec (.waitcWake w) s =
      .next (let u := advance (unpark w (acquire s1 (.half c) scope)) w 1
        rouse u (u.crew c).cl))))

/-! ### Exceptions and privilege (R179, R443-R446) -/

namespace Sys2Proof.Machine

/-- The thread once steps 1 to 3 of an exception's entry are done (R443). -/
def enteredThread (th : Thread) (addr : Nat) (cluster : Bool) : Thread :=
  { th with
    sc := { th.sc.write 28 (BitVec.ofNat 64 addr) with stalled := false }
    inexc := true, level := if th.level = 0 then 1 else th.level, excRec := BitVec.ofNat 64 addr, recCluster := cluster
    mode := .ready, parkedBefore := if th.mode = .returned then some .returned else none }

/-- Byte `i` of a store of physical parts, as an agent reads it. -/
def readsBack (s : State) (a : Agent) : List (Nat × Nat) → List Byte → Prop
  | [], _ => True
  | (pa, n) :: t, bs => (∀ i, i < n → i < bs.length → byteSeen s a (pa + i) = bs.getD i 0) ∧ readsBack s a t (bs.drop n)

/-- Parts of an access that do not overlap. -/
def disjointParts (ps : List (Nat × Nat)) : Prop :=
  ps.Pairwise fun x y => x.1 + x.2 ≤ y.1 ∨ y.1 + y.2 ≤ x.1

end Sys2Proof.Machine

/-- Taking an exception outside a handler, with EXC_VEC set to a good target and the record mapped: the record holds the cause,
the stream, the level before entry, the pointers, the detail and g28-g31 and k1-k7 as they were; g28 names the record, INEXC
is set, the level is at least 1, and the thread goes to EXC_VEC; every other register, predicate and thread stands. With
INEXC already set, or EXC_VEC 0, the record is filled and the registers are set all the same, and then the exception is
unhandled and acts as HALT (R443, R444). An exception waits while one of g28-g31 awaits a value, which is the model's choice
(log 81). BKPT and SYSC raise causes 25 and 26 with their immediate, and RESUME names the next instruction; on S, BKPT is
posted to the crew's thread and the sequencer hands over nothing more (R444, R445). -/
def Obligations.ExceptionsAndCalls : Prop :=
  ((∀ (s s1 s2 s3 : State) (t : Nat) (p : Posted) (cluster : Bool) (ps : List (Nat × Nat)),
    let th := s.thread t
    let vec := (s.context th.ctx).excVec
    let addr := recordAddr s t cluster
    let h := match th.crew with
      | some c => handleOf (s.crew c)
      | none => 0
    th.inexc = false → vec ≠ 0 → (∀ r ∈ [28, 29, 30, 31], th.sc.isFull r = true) →
    recordParts t addr 128 true s = .ok (some ps) s1 → disjointParts ps →
    writeParts (.thread t) ps (recordBytes th h p (if cluster then th.sc.pc else 0))
      (s1.setThread t (enteredThread th addr cluster)) = .ok () s2 →
    targetOk (.thread t) vec.toNat true s2 = .ok true s3 →
    ∃ u, takeException t p cluster s = .ok () u ∧
      (u.thread t).sc.pc = vec ∧ (u.thread t).inexc = true ∧ (u.thread t).level = (if th.level = 0 then 1 else th.level) ∧
      (u.thread t).excRec = BitVec.ofNat 64 addr ∧ (u.thread t).recCluster = cluster ∧
      (u.thread t).sc.reg 28 = BitVec.ofNat 64 addr ∧ RegsBut (.thread t) [28] s u ∧ PredsBut (.thread t) [] s u ∧
      (∀ v, v ≠ t → u.thread v = s.thread v) ∧
      readsBack u (.thread t) ps (recordBytes th h p (if cluster then th.sc.pc else 0))) ∧
  (∀ (s s1 s2 : State) (t : Nat) (p : Posted) (cluster : Bool) (ps : List (Nat × Nat)),
    let th := s.thread t
    let addr := recordAddr s t cluster
    let h := match th.crew with
      | some c => handleOf (s.crew c)
      | none => 0
    th.inexc = true ∨ (s.context th.ctx).excVec = 0 → (∀ r ∈ [28, 29, 30, 31], th.sc.isFull r = true) →
    recordParts t addr 128 true s = .ok (some ps) s1 →
    writeParts (.thread t) ps (recordBytes th h p (if cluster then th.sc.pc else 0))
      (s1.setThread t (enteredThread th addr cluster)) = .ok () s2 →
    takeException t p cluster s = haltOwner t p.exc.cause s2)) ∧
  ((∀ (o : IFmt) (s : State) (t : Nat), (Instr.bkpt o).wf = true → curOwner s = some (.thread t) →
    exec (.bkpt o) s = .next (runM (takeException t
      { stream := 0, exc := { cause := 25, info := BitVec.ofNat 64 o.imm }, pc := (s.thread t).sc.pc
        resume := BitVec.ofNat 64 (ptrNext (s.thread t).sc.pc.toNat 1), after := true } false) s)) ∧
  (∀ (o : IFmt) (s : State) (t : Nat), (Instr.sysc o).wf = true → curOwner s = some (.thread t) →
    exec (.sysc o) s = .next (runM (takeException t
      { stream := 0, exc := { cause := 26, info := BitVec.ofNat 64 o.imm }, pc := (s.thread t).sc.pc
        resume := BitVec.ofNat 64 (ptrNext (s.thread t).sc.pc.toNat 1), after := true } false) s)) ∧
  (∀ (o : IFmt) (s : State) (c : Nat), (Instr.bkpt o).wf = true → curOwner s = some (.crew c) →
    ∃ u p, exec (.bkpt o) s = .next u ∧ u.crew c = { s.crew c with smode := .faulted, posted := (s.crew c).posted ++ [p] } ∧
      p.stream = 1 ∧ p.exc = { cause := 25, info := BitVec.ofNat 64 o.imm } ∧ p.pc = (s.crew c).sc.pc ∧
      p.resume = BitVec.ofNat 64 (ptrNext (s.crew c).sc.pc.toNat 1) ∧ p.after = true ∧ u.threads = s.threads))

/-- ERET restores g28-g31, k1-k7 and the level from the current record and clears INEXC. From the thread record the thread goes
on at RESUME, or after it where the handler set SKIP; from the cluster record it goes on at TPC, and what the exception
stopped resumes. A pointer that is no code pointer is met by the target fault once the restore is complete (R445). What ERET
puts back: g28 to g31 hold the record's words and are full, and k1 to k7 its predicates (R444, R445). -/
def Obligations.ReturnFromException : Prop :=
  (∀ (o : RFmt) (s s1 : State) (t : Nat) (b : List Byte), (Instr.eret o).wf = true → curOwner s = some (.thread t) →
    1 ≤ (s.thread t).level.toNat → (s.thread t).inexc = true → readRecord t s = .ok b s1 →
    let th := s1.thread t
    let flags := fieldAt b 2 2
    let resume := BitVec.ofNat 64 (fieldAt b 0x10 8)
    let skip := bit flags 0
    let pc := if th.recCluster then BitVec.ofNat 64 (fieldAt b 0x30 8)
      else if skip then BitVec.ofNat 64 (ptrNext resume.toNat 1) else resume
    let back : Thread := { th with
      sc := { restoreScalar th.sc b with pc := pc, line := none, stalled := false }, level := BitVec.ofNat 2 (bits flags 3 2)
      lossDue := if skip && !th.recCluster then none else th.lossDue
      inexc := false, parkedBefore := none, mode := if th.parkedBefore = some .returned then .returned else .ready
      idle := false }
    bits flags 3 2 < 3 →
    (th.recCluster = false → ptrOk pc.toNat = true → exec (.eret o) s = .next (s1.setThread t back)) ∧
    (∀ c, th.recCluster = true → th.crew = some c → ptrOk pc.toNat = true →
      exec (.eret o) s = .next (resumeCluster c resume skip (s1.setThread t back))) ∧
    (th.recCluster = false → ptrOk pc.toNat = false → ∀ u,
      takeException t { stream := 0, exc := { cause := 15, info := pc }, pc := pc, resume := pc } false
        (s1.setThread t back) = .ok () u → exec (.eret o) s = .next u)) ∧
  (∀ (c : Scalar) (b : List Byte) (n : Nat), n < 4 →
    (restoreScalar c b).reg (28 + n) = BitVec.ofNat 64 (fieldAt b (0x40 + 8 * n) 8) ∧
    (restoreScalar c b).isFull (28 + n) = true ∧
    (∀ r, (r < 28 ∨ 31 < r) → (restoreScalar c b).reg r = c.reg r ∧ (restoreScalar c b).isFull r = c.isFull r) ∧
    (∀ k, 1 ≤ k → k < 8 → (restoreScalar c b).pred k = bit (fieldAt b 0x60 1) k))

/-- HALT stops a thread after it: an unbound thread is halted; a bound thread's crew is saved to be suspended where DBG_CTL
says so, and otherwise ended, its CREW_END event carrying cause 14, and its thread freed (R446). That a crew resumed later goes on
at the next instruction is the model's choice (log 75). -/
def Obligations.HaltSuspendsOrEnds : Prop :=
  ∀ (o : RFmt) (s : State) (t : Nat), (Instr.halt o).wf = true → curOwner s = some (.thread t) →
    1 ≤ (s.thread t).level.toNat →
    let s1 := advance s (.thread t) 1
    ((s.thread t).crew = none →
      exec (.halt o) s = .next (s1.setThread t { s1.thread t with mode := .halted })) ∧
    (∀ c, (s.thread t).crew = some c → (s.context (s.crew c).ctx).dbgCtl = true →
      exec (.halt o) s = .next (haltCrew s1 c true 14)) ∧
    (∀ c, (s.thread t).crew = some c → (s.context (s.crew c).ctx).dbgCtl = false → (s.crew c).thread = t →
      (s.crew c).stage ≠ .gone →
      ∃ v u, event (s1.crew c).ctx 5 14 (handleOf (s1.crew c)) 0 14 s1 = .ok () v ∧
        reportMoves (stopLaunch (endInstance (endCrew v c) (s1.crew c)) (s1.crew c).launch 38) = .ok () u ∧
        exec (.halt o) s = .next u ∧ (u.crew c).stage = .gone ∧ u.thread t = {})

/-- ERET and HALT raise the privileged-instruction exception, cause 2, at level 0, and ERET outside a handler the
illegal-instruction exception, cause 1, with nothing else done (R179, R445, R446). -/
def Obligations.PrivilegedInstructionsTrap : Prop :=
  (∀ (o : RFmt) (s : State) (t : Nat), (Instr.eret o).wf = true → curOwner s = some (.thread t) →
    ((s.thread t).level = 0 → exec (.eret o) s = .next (raised s (.thread t) { cause := 2 })) ∧
    ((s.thread t).level ≠ 0 → (s.thread t).inexc = false →
      exec (.eret o) s = .next (raised s (.thread t) { cause := 1 }))) ∧
  (∀ (o : RFmt) (s : State) (t : Nat), (Instr.halt o).wf = true → curOwner s = some (.thread t) →
    (s.thread t).level = 0 → exec (.halt o) s = .next (raised s (.thread t) { cause := 2 }))

/-- A cluster exception is delivered to the crew's thread where it can take one: the oldest posted becomes the one being
handled; where the thread cannot, nothing happens (R444). -/
def Obligations.ClusterExceptionsAreDeliveredInOrder : Prop :=
  (∀ (s u : State) (c : Nat) (p : Posted) (rest : List Posted), canDeliver s (s.crew c).thread c = true →
    (s.crew c).posted = p :: rest → takeException (s.crew c).thread p true s = .ok () u →
    (u.crew c).stage = .resident → (u.thread (s.crew c).thread).inexc = true →
    exec (.clusterExceptionDelivery c) s =
      .next (u.setCrew c { u.crew c with posted := rest, handling := some p })) ∧
  (∀ (s : State) (c : Nat), canDeliver s (s.crew c).thread c = false →
    exec (.clusterExceptionDelivery c) s = .next s)

/-! ### S specials, the fabric's control, control registers (R134, R236-R242, R352, R358, R436, R437, R481) -/

namespace Sys2Proof.Machine

/-- A merge into a threshold register, said of each register (R237): it never falls, and a NaN changes nothing. -/
def Merged (k k' : Crew) (h : Nat) (v : BitVec 32) : Prop :=
  k' = { k with h := k'.h } ∧ (∀ n, n ≠ h → k'.thr n = k.thr n) ∧
  k'.thr h = if FFmt.f32.isNaN v.toNat then k.thr h
    else if (FFmt.f32.decode (k.thr h)).ltZ (FFmt.f32.decode v.toNat) then v.toNat else k.thr h

/-- A register of a crew as CTLR reads it (R436). -/
def crewRegister (s : State) (c n : Nat) : Option Word :=
  let k := s.crew c
  match n with
  | 0x000 => some (ctlNow k 0 (k.vstat.setWidth 64))
  | 0x001 => some (ctlNow k 1 (k.vctl.setWidth 64))
  | 0x002 => some (ctlNow k 2 k.rndSeed)
  | 0x003 => some (ctlNow k 3 k.rndCtr)
  | 0x004 => some k.vnfTid
  | 0x005 => some (k.strokeOut.getD 0 0)
  | 0x006 => some (k.strokeOut.getD 1 0)
  | 0x008 => some (engStat s k true)
  | 0x009 => some (engStat s k false)
  | 0x00A => some k.fstat
  | 0x00C => some (k.dcplCnt.setWidth 64)
  | 0x00E => some (BitVec.ofNat 64 (k.ctx + k.frame * 2 ^ 16 + k.count % 2 ^ 32 * 2 ^ 32))
  | _ =>
    if 0x040 ≤ n ∧ n ≤ 0x07F then some ((queueOf s c (n - 0x040)).cfg.setWidth 64)
    else if 0x080 ≤ n ∧ n ≤ 0x0BF then some (queueOf s c (n - 0x080)).stat
    else none

/-- A register of a context, with the level a read needs (R436). -/
def contextRegister (x : Context) (id n : Nat) : Option (Nat × Word) :=
  match n with
  | 0x00B => some (0, x.shufStat)
  | 0x00D => some (0, x.dcplThr.setWidth 64)
  | 0x101 => some (0, BitVec.ofNat 64 id)
  | 0x102 => some (0, BitVec.ofNat 64 x.part)
  | 0x103 => some (0, x.tidTable)
  | 0x104 => some (1, x.ptRoot)
  | 0x105 => some (1, x.excVec)
  | 0x107 => some (1, x.saveBase)
  | 0x108 => some (0, x.quantum.setWidth 64)
  | 0x109 => some (0, x.prioCeil.setWidth 64)
  | 0x10A => some (0, x.wdog.setWidth 64)
  | 0x10B => some (1, if x.dbgCtl = true then 1 else 0)
  | 0x10C => some (1, x.evqBase)
  | 0x10D => some (0, x.evqHead)
  | 0x10E => some (0, x.evqTail.setWidth 64)
  | 0x110 => some (0, x.ctxTime)
  | 0x111 => some (0, x.launchDrop)
  | _ => none

/-- A register of a thread, with the level a read needs (R436). -/
def threadRegister (th : Thread) (n : Nat) : Option (Nat × Word) :=
  match n with
  | 0x100 => some (0, BitVec.ofNat 64 (th.level.toNat + if th.inexc = true then 4 else 0))
  | 0x106 => some (1, th.excRec)
  | 0x201 => some (2, th.ctxResult)
  | _ => none

/-- A crew's register that CTLW may write, with the level it needs (R436). -/
def crewWritable (n : Nat) : Option Nat :=
  if n ∈ [0x000, 0x001, 0x002, 0x003, 0x004, 0x005, 0x006, 0x008, 0x009, 0x00A] ∨ (0x080 ≤ n ∧ n ≤ 0x0BF) then some 0
  else if n = 0x00C ∨ (0x040 ≤ n ∧ n ≤ 0x07F) then some 1 else none

/-- A context's register that CTLW may write, with the level it needs (R436). -/
def contextWritable (n : Nat) : Option Nat :=
  if n = 0x00B then some 0
  else if n ∈ [0x00D, 0x103, 0x104, 0x105, 0x108, 0x10A, 0x10E, 0x111] then some 1
  else if n ∈ [0x109, 0x10B, 0x10C] then some 2 else none

/-- A register that CTLW may write to the partition (R436). -/
def partitionWritable (n : Nat) : Prop := n = 0x200 ∨ n = 0x202 ∨ n = 0x203

end Sys2Proof.Machine

/-- TSRD waits for the drains handed over before it that write its entry, and then writes the entry, zero-extended; HRD of
an aligned, pinned word leaves a merge outstanding, and a misaligned one raises the alignment fault; HWR merges the low word
of its register at once, into a threshold that never falls (R236, R237, R238, R239). -/
def Obligations.TileStatusAndThresholds : Prop :=
  (∀ (o : IFmt) (s : State) (c : Nat), (Instr.tsrd o).wf = true → curOwner s = some (.crew c) →
    RegsReady s (.crew c) [o.d] →
    (drainsTo (s.crew c) (o.imm / 256) (o.imm % 256) = true → exec (.tsrd o) s = .next s) ∧
    (drainsTo (s.crew c) (o.imm / 256) (o.imm % 256) = false → exec (.tsrd o) s = .next (advance (withReg s (.crew c) o.d
      ((((s.crew c).stroke (o.imm / 256)).tsf.getD (o.imm % 256) 0).setWidth 64)) (.crew c) 1))) ∧
  (∀ (o : IFmt) (s s1 : State) (c : Nat) (bs : List Byte), (Instr.hrd o).wf = true → curOwner s = some (.crew c) →
    RegsReady s (.crew c) [o.a] →
    let ea := regVal s (.crew c) o.a + BitVec.ofNat 64 o.imm
    (ea.toNat % 4 ≠ 0 → exec (.hrd o) s = .next (raised s (.crew c) { cause := 4, addr := ea, info := 4 })) ∧
    (ea.toNat % 4 = 0 → readPinned (.half c) (crewPins c) ea.toNat 4 s = .ok (.ok bs) s1 →
      exec (.hrd o) s = .next (advance (s1.setCrew c { s1.crew c with
        hrds := (s1.crew c).hrds ++ [(o.d, some (BitVec.ofNat 32 (leNat bs)))] }) (.crew c) 1)) ∧
    (ea.toNat % 4 = 0 → readPinned (.half c) (crewPins c) ea.toNat 4 s = .ok (.error .footprint) s1 →
      exec (.hrd o) s = .next (raisedAfter s s1 (.crew c) { cause := 9, addr := ea }))) ∧
  (∀ (o : RFmt) (s : State) (c : Nat), (Instr.hwr o).wf = true → Guarded s (.crew c) o.g o.ng →
    RegsReady s (.crew c) [o.a] →
    ∃ k, exec (.hwr o) s = .next (advance (s.setCrew c k) (.crew c) 1) ∧
      Merged (s.crew c) k o.d ((regVal s (.crew c) o.a).setWidth 32))

/-- FARM adds its tiles to a loaded section. FWAIT completes where the section has committed all it was given, or holds no
configuration, and waits until then. FCOMMIT completes at once where there is no uncommitted work; else it makes the next
possible marker due, and completes once that marker is committed. FCFG gives the loader its configuration, waits for the
answer, and takes it as its completion or as cause 23 with the reason. A section number out of range, and a FARM of a
section with no configuration or past 2^32 - 1 tiles, raise the fabric fault, cause 22, with its reason; that FCFG of a
section of 64 or more gives reason 2 is the model's reading (log 45) (R241, R242, R352, R361). The loader takes a
configuration whose image it can read and finds nothing wrong with: the section holds the image with no tile armed or
committed, its banks are the streams' again, and the waiting FCFG is answered; an image outside the code object is answered
with reason 14, and one that breaks a rule with one of the reasons that hold, and the section stays as it was (R241, R358,
log 18). -/
def Obligations.FabricUnderControl : Prop :=
  ((∀ (o : RFmt) (s : State) (c : Nat) (z : Section), (Instr.farm o).wf = true → Guarded s (.crew c) o.g o.ng →
    RegsReady s (.crew c) [o.a, o.b] →
    let sec := (regVal s (.crew c) o.a).toNat
    let n := (regVal s (.crew c) o.b).toNat
    sec < (s.crew c).sectionCount → (s.crew c).sections.find? sec = some z → n < 2 ^ 32 → z.armed - z.committed + n < 2 ^ 32 →
    exec (.farm o) s = .next (advance (s.setCrew c { s.crew c with
      sections := (s.crew c).sections.insert sec { z with armed := z.armed + n } }) (.crew c) 1)) ∧
  (∀ (o : RFmt) (s : State) (c : Nat) (z : Section), (Instr.fwait o).wf = true → Guarded s (.crew c) o.g o.ng →
    RegsReady s (.crew c) [o.a] →
    let sec := (regVal s (.crew c) o.a).toNat
    sec < (s.crew c).sectionCount → (s.crew c).sections.find? sec = some z →
    (z.armed ≤ z.committed → exec (.fwait o) s = .next (advance s (.crew c) 1)) ∧
    (z.committed < z.armed → exec (.fwait o) s = .next s)) ∧
  (∀ (mk : RFmt → Instr) (o : RFmt) (s : State) (c : Nat), mk = .fwait ∨ mk = .fcommit → (mk o).wf = true →
    Guarded s (.crew c) o.g o.ng → RegsReady s (.crew c) [o.a] →
    let sec := (regVal s (.crew c) o.a).toNat
    (sec < (s.crew c).sectionCount → (s.crew c).sections.find? sec = none → exec (mk o) s = .next (advance s (.crew c) 1)) ∧
    ((s.crew c).sectionCount ≤ sec → exec (mk o) s = .next (raised s (.crew c) { cause := 22, info := 1 }))) ∧
  (∀ (o : RFmt) (s : State) (c : Nat) (z : Section), (Instr.fcommit o).wf = true → Guarded s (.crew c) o.g o.ng →
    RegsReady s (.crew c) [o.a] →
    let sec := (regVal s (.crew c) o.a).toNat
    sec < (s.crew c).sectionCount → (s.crew c).sections.find? sec = some z →
    (z.wanted = none → z.hasWork = false → exec (.fcommit o) s = .next (advance s (.crew c) 1)) ∧
    (z.wanted = none → z.hasWork = true → exec (.fcommit o) s = .next (s.setCrew c { s.crew c with
      sections := (s.crew c).sections.insert sec { z with wanted := some z.nextDue, due := z.due ++ [z.nextDue] } })) ∧
    (∀ m, z.wanted = some m → z.committed < m → exec (.fcommit o) s = .next s) ∧
    (∀ m, z.wanted = some m → m ≤ z.committed → exec (.fcommit o) s = .next (advance (s.setCrew c { s.crew c with
      sections := (s.crew c).sections.insert sec { z with wanted := none } }) (.crew c) 1))) ∧
  (∀ (o : RFmt) (s : State) (c : Nat), (Instr.fcfg o).wf = true → Guarded s (.crew c) o.g o.ng →
    RegsReady s (.crew c) [o.a, o.b] →
    let ptr := (regVal s (.crew c) o.a).toNat
    let sec := (regVal s (.crew c) o.b).toNat
    ptr % 32 = 0 → sec < 64 → sec < (s.crew c).sectionCount →
    ((s.crew c).loading = none → (∀ z, (s.crew c).sections.find? sec = some z → z.armed ≤ z.committed) →
      exec (.fcfg o) s = .next (s.setCrew c { s.crew c with loading := some { ptr := ptr, sec := sec } })) ∧
    ((s.crew c).loading = some { ptr := ptr, sec := sec } → exec (.fcfg o) s = .next s) ∧
    ((s.crew c).loading = some { ptr := ptr, sec := sec, answer := some 0 } →
      exec (.fcfg o) s = .next (advance (s.setCrew c { s.crew c with loading := none }) (.crew c) 1)) ∧
    (∀ n, (s.crew c).loading = some { ptr := ptr, sec := sec, answer := some n } → n ≠ 0 → exec (.fcfg o) s =
      .next (raisedAt (.crew c) { cause := 23, info := BitVec.ofNat 64 n } s
        (s.setCrew c { s.crew c with loading := none })))) ∧
  (∀ (o : RFmt) (s : State) (c : Nat), (Instr.fcfg o).wf = true → Guarded s (.crew c) o.g o.ng →
    RegsReady s (.crew c) [o.a, o.b] →
    let ptr := (regVal s (.crew c) o.a).toNat
    let sec := (regVal s (.crew c) o.b).toNat
    (ptr % 32 ≠ 0 ∨ 64 ≤ sec → exec (.fcfg o) s = .next (raised s (.crew c) { cause := 22, info := 2 })) ∧
    (ptr % 32 = 0 → sec < 64 → (s.crew c).sectionCount ≤ sec →
      exec (.fcfg o) s = .next (raised s (.crew c) { cause := 22, info := 1 }))) ∧
  (∀ (o : RFmt) (s : State) (c : Nat), (Instr.farm o).wf = true → Guarded s (.crew c) o.g o.ng →
    RegsReady s (.crew c) [o.a, o.b] →
    let sec := (regVal s (.crew c) o.a).toNat
    let n := (regVal s (.crew c) o.b).toNat
    n < 2 ^ 32 → sec < (s.crew c).sectionCount →
    ((s.crew c).sections.find? sec = none → exec (.farm o) s = .next (raised s (.crew c) { cause := 22, info := 3 })) ∧
    (∀ z, (s.crew c).sections.find? sec = some z → 2 ^ 32 ≤ z.armed - z.committed + n →
      exec (.farm o) s = .next (raised s (.crew c) { cause := 22, info := 4 }))) ∧
  (∀ (o : RFmt) (s : State) (c : Nat), (Instr.farm o).wf = true → Guarded s (.crew c) o.g o.ng →
    RegsReady s (.crew c) [o.a, o.b] → (s.crew c).sectionCount ≤ (regVal s (.crew c) o.a).toNat →
    (regVal s (.crew c) o.b).toNat < 2 ^ 32 →
    exec (.farm o) s = .next (raised s (.crew c) { cause := 22, info := 1 }))) ∧
  ((∀ (s s1 s2 : State) (c : Nat) (q : LoadReq) (image : List Byte), (s.crew c).loading = some q → q.answer = none →
    (s.crew c).stage = .resident → readImage c q.ptr s = .ok (some image) s1 →
    imageReasons c q.sec { image := image } s1 = .ok (.ok []) s2 → floorsFit s2 c q.sec { image := image } = true →
    ∃ u, exec (.configurationLoad c) s = .next u ∧ (u.crew c).loading = some { q with answer := some 0 } ∧
      (∃ z, (u.crew c).sections.find? q.sec = some z ∧ z.image = image ∧ z.armed = 0 ∧ z.committed = 0) ∧
      (∀ n, n ≠ q.sec → (u.crew c).sections.find? n = (s2.crew c).sections.find? n) ∧
      (u.crew c).banks = (s2.crew c).banks.filter fun e => e.2 != q.sec + 1) ∧
  (∀ (s s1 : State) (c : Nat) (q : LoadReq), (s.crew c).loading = some q → q.answer = none →
    (s.crew c).stage = .resident → readImage c q.ptr s = .ok none s1 →
    exec (.configurationLoad c) s =
      .next (s1.setCrew c { s1.crew c with loading := some { q with answer := some 14 } })) ∧
  (∀ (s s1 s2 s3 : State) (c i : Nat) (q : LoadReq) (image : List Byte) (l : List Nat), (s.crew c).loading = some q →
    q.answer = none → (s.crew c).stage = .resident → readImage c q.ptr s = .ok (some image) s1 →
    imageReasons c q.sec { image := image } s1 = .ok (.ok l) s2 → l ≠ [] → pick 0 (l.length - 1) s2 = .ok i s3 →
    exec (.configurationLoad c) s =
      .next (s3.setCrew c { s3.crew c with loading := some { q with answer := some (l.getD i 1) } })))

/-- CTLR reads every register of R436's table that may be read, at the level the table gives, and FEATQ the feature words. From
S a read of VSTAT waits while V instructions stand handed over. Below its level CTLR raises the privileged-instruction
exception with the register's number, and of a crew register by a thread of no crew the illegal-instruction exception (R55,
R179, R436, R437, R481). CTLW completes for every register of R436's table that may be written, at the level the table
gives: a crew's, a context's, or an operation on the partition's contexts and crews. What each register takes is stated:
VSTAT, RND_CTR, VNF_TID and STROKE_OUT their low bits, RND_SEED and DCPL_CNT the word, VCTL its enables and a DRM below 5
with NSR kept, and CE_STAT, IX_STAT and FSTAT lose the flags written as ones. A context's register takes the values its rule
admits and keeps the old value otherwise; that a QUANTUM or WDOG with bits above the register's width is a value its rule
does not admit (log 93), and that a misaligned TID_TABLE is (log 61), are the model's choices, and so is that the source is
read before the register is checked (log 107). Below its level CTLW raises the privileged-instruction exception with the
register's number (R78, R142, R179, R245, R282, R436, R437, R451). A write of QCFG opens a queue that is not open where its
configuration is valid, the crew has no other open branch queue if it is to be one, and the cluster has room: the queue is
then empty, with its counts cleared; an open queue, or a configuration that is not valid, leaves everything as it was. A
write of QSTAT clears the counts whose fields are not zero and no other (R133, R134, R135, R142). -/
def Obligations.ControlRegisters : Prop :=
  ((∀ (o : IFmt) (s : State) (w : Owner) (c : Nat) (v : Word), (Instr.ctlr o).wf = true → curOwner s = some w →
    RegsReady s w [o.d] → crewOf s w = some c → crewRegister s c o.imm = some v →
    ((o.imm = 0 → isCox w = true ∨ (s.crew c).vq = []) →
      exec (.ctlr o) s = .next (advance (withReg s w o.d v) w 1)) ∧
    (o.imm = 0 → isCox w = false → (s.crew c).vq ≠ [] → exec (.ctlr o) s = .next s)) ∧
  (∀ (o : IFmt) (s : State) (t c : Nat) (v : Word), (Instr.ctlr o).wf = true → curOwner s = some (.thread t) →
    RegsReady s (.thread t) [o.d] → (s.thread t).crew = none → crewRegister s c o.imm = some v →
    exec (.ctlr o) s = .next (raised s (.thread t) { cause := 1 })) ∧
  (∀ (o : IFmt) (s : State) (w : Owner) (lv : Nat) (v : Word), (Instr.ctlr o).wf = true → curOwner s = some w →
    RegsReady s w [o.d] → (contextRegister (s.context (ctxOf s w)) (ctxOf s w) o.imm = some (lv, v) ∨
      ∃ t, w = .thread t ∧ threadRegister (s.thread t) o.imm = some (lv, v)) →
    (lv ≤ levelOf s w → exec (.ctlr o) s = .next (advance (withReg s w o.d v) w 1)) ∧
    (levelOf s w < lv →
      exec (.ctlr o) s = .next (raised s w { cause := 2, info := BitVec.ofNat 64 o.imm }))) ∧
  (∀ (o : IFmt) (s : State) (w : Owner), (Instr.featq o).wf = true → curOwner s = some w → RegsReady s w [o.d] →
    exec (.featq o) s = .next (advance (withReg s w o.d (featureWord o.imm)) w 1)) ∧
  featureWord 1 = 0xFF ∧ featureWord 3 = 0x111111 ∧ (featureWord 0).toNat % 2 ^ 16 = 940 ∧
  (featureWord 5).toNat % 2 ^ 20 ≤ (featureWord 4).toNat ∧ 1 ≤ (featureWord 5).toNat / 2 ^ 20 ∧
  (∀ n, 5 < n → featureWord n = 0)) ∧
  ((∀ (o : IFmt) (s : State) (w : Owner) (lv : Nat), (Instr.ctlw o).wf = true → curOwner s = some w → RegsReady s w [o.a] →
    stillThere s w = true → contextWritable o.imm = some lv →
    (levelOf s w < lv → exec (.ctlw o) s = .next (raised s w { cause := 2, info := BitVec.ofNat 64 o.imm })) ∧
    (lv ≤ levelOf s w → exec (.ctlw o) s = .next (advance (s.setContext (ctxOf s w)
      (writeContextCtl (s.context (ctxOf s w)) o.imm (regVal s w o.a))) w 1))) ∧
  (∀ (x : Context) (v : Word),
    (writeContextCtl x 0x103 v).tidTable = (if v.toNat < 2 ^ 48 ∧ v.toNat % 2 ^ 16 = 0 then v else x.tidTable) ∧
    (writeContextCtl x 0x104 v).ptRoot = (if v.toNat < 2 ^ 52 ∧ v.toNat % 2 ^ 17 = 0 then v else x.ptRoot) ∧
    (writeContextCtl x 0x105 v).excVec = v ∧
    (writeContextCtl x 0x108 v).quantum = (if 10 ≤ v.toNat ∧ v.toNat < 2 ^ 16 then v.setWidth 16 else x.quantum) ∧
    (writeContextCtl x 0x10A v).wdog = (if v.toNat < 2 ^ 16 then v.setWidth 16 else x.wdog)) ∧
  (∀ (o : IFmt) (s : State) (w : Owner) (c lv : Nat), (Instr.ctlw o).wf = true → curOwner s = some w → RegsReady s w [o.a] →
    stillThere s w = true → crewOf s w = some c → crewWritable o.imm = some lv →
    (levelOf s w < lv → exec (.ctlw o) s = .next (raised s w { cause := 2, info := BitVec.ofNat 64 o.imm })) ∧
    (lv ≤ levelOf s w → ∀ u, u = writeCrewCtl c o.imm (regVal s w o.a) s →
      stillThere u w = true ∧ exec (.ctlw o) s = .next (advance u w 1))) ∧
  (∀ (s : State) (c : Nat) (v : Word),
    ((writeCrewCtl c 0x004 v s).crew c).vnfTid = v &&& 0xFFF ∧
    ((writeCrewCtl c 0x005 v s).crew c).strokeOut.getD 0 0 = v &&& 0xFFF ∧
    ((writeCrewCtl c 0x006 v s).crew c).strokeOut.getD 1 0 = v &&& 0xFFF ∧
    ((writeCrewCtl c 0x00C v s).crew c).dcplCnt = v.setWidth 32 ∧
    (∀ i, ((writeCrewCtl c 0x008 v s).crew c).ceFlags.getLsbD i =
      ((s.crew c).ceFlags.getLsbD i && !(decide (i < 10) && v.getLsbD (16 + i)))) ∧
    (∀ i, ((writeCrewCtl c 0x009 v s).crew c).ixFlags.getLsbD i =
      ((s.crew c).ixFlags.getLsbD i && !(decide (i < 10) && v.getLsbD (16 + i)))) ∧
    (∀ i, ((writeCrewCtl c 0x00A v s).crew c).fstat.getLsbD i =
      ((s.crew c).fstat.getLsbD i && !(decide (i < 10) && v.getLsbD i) && !decide (16 ≤ i ∧ i < 32)))) ∧
  (∀ (s : State) (c : Nat) (v : Word), ((s.crew c).vq = [] → (s.crew c).vwrites = []) →
    crewRegister (writeCrewCtl c 0x000 v s) c 0x000 = some (v &&& 0x3FF) ∧
    crewRegister (writeCrewCtl c 0x002 v s) c 0x002 = some v ∧
    crewRegister (writeCrewCtl c 0x003 v s) c 0x003 = some (v &&& 0xFFFFFFFF) ∧
    ∃ old new, crewRegister s c 0x001 = some old ∧ crewRegister (writeCrewCtl c 0x001 v s) c 0x001 = some new ∧
      new.toNat < 2 ^ 11 ∧ new.getLsbD 6 = false ∧ new.getLsbD 7 = old.getLsbD 7 ∧
      (∀ i, i < 6 → new.getLsbD i = v.getLsbD i) ∧
      new.extractLsb' 8 3 = if (v.extractLsb' 8 3).toNat < 5 then v.extractLsb' 8 3 else old.extractLsb' 8 3) ∧
  (∀ (o : IFmt) (s s1 : State) (t : Nat), (Instr.ctlw o).wf = true → curOwner s = some (.thread t) →
    RegsReady s (.thread t) [o.a] → partitionWritable o.imm →
    ((s.thread t).level.toNat < 2 →
      exec (.ctlw o) s = .next (raised s (.thread t) { cause := 2, info := BitVec.ofNat 64 o.imm })) ∧
    (2 ≤ (s.thread t).level.toNat → partitionWrite t o.imm (regVal s (.thread t) o.a) s = .ok () s1 →
      exec (.ctlw o) s = .next (if stillThere s1 (.thread t) = true then advance s1 (.thread t) 1 else s1)))) ∧
  ((∀ (s : State) (c q x : Nat), (s.crew c).stage ≠ .gone → q < 64 →
    let cfg := BitVec.ofNat 32 x &&& 0xFFFEFFFF#32
    ((queueOf s c q).isOpen = true → exec (.qcfgWrite c q x) s = .next s) ∧
    let branch := ∃ e ∈ (s.crew c).queues, e.1 ≠ q ∧ e.2.isOpen = true ∧ e.2.brq = true
    ((queueOf s c q).isOpen = false → cfg.getLsbD 31 = true → qcfgOk cfg = true → (cfg.getLsbD 28 = true → ¬branch) →
      (qcfgBytes cfg ≤ queueRoom s (s.crew c).cl → exec (.qcfgWrite c q x) s = .next (withQueue s c q { cfg := cfg })) ∧
      (queueRoom s (s.crew c).cl < qcfgBytes cfg → exec (.qcfgWrite c q x) s = .next s)) ∧
    ((queueOf s c q).isOpen = false → cfg.getLsbD 31 = true → cfg.getLsbD 28 = true → branch →
      exec (.qcfgWrite c q x) s = .next s) ∧
    ((queueOf s c q).isOpen = false → cfg.getLsbD 31 = true → qcfgOk cfg = false → exec (.qcfgWrite c q x) s = .next s) ∧
    ((queueOf s c q).isOpen = false → cfg.getLsbD 31 = false →
      exec (.qcfgWrite c q x) s = .next (withQueue s c q { queueOf s c q with cfg := cfg }))) ∧
  (∀ (s : State) (c q x : Nat), (s.crew c).stage ≠ .gone → q < 64 →
    let v := queueOf s c q
    let keep (hi lo : Nat) (n : BitVec 16) : BitVec 16 := if bits x hi lo = 0 then n else 0
    exec (.qstatWrite c q x) s = .next (withQueue s c q { v with
      disc := keep 31 16 v.disc, fullc := keep 47 32 v.fullc, empty := keep 63 48 v.empty })))

/-! ### The V stream: handover, tokens, arithmetic, bits, masks, reductions, queues (R19-R24, R146-R148, R171, R245-R268) -/

namespace Sys2Proof.Machine

/-- The head of a stream's queue can run to its end: it has not finished, each token it pops is there or already taken, each
token it pushes has room, and no write of a control register waits on it. -/
structure Performs (st tok : Nat) (s : State) (c : Nat) (e : Entry) : Prop where
  head : streamHead s s.cur = some (c, st, e)
  going : e.finished = false
  fresh : e.pushed = 0
  pops : e.popped = true ∨ ∀ f ∈ (tokenFifos st tok).1, tokenCount (s.crew c) f ≠ 0
  room : ∀ f ∈ (tokenFifos st tok).2, tokenCount (s.crew c) f < 8
  quiet : ∀ w ∈ (s.crew c).vwrites, w.1 ≠ e.name

/-- What completing a V instruction leaves, but for registers, masks, flags, queues and the counter of stochastic rounding,
which are said for each: only its crew has changed, it is off its queue, and its tokens have moved. -/
structure VDone (s t : State) (c : Nat) (e : Entry) (tok : Nat) : Prop where
  rest : { t with crews := s.crews } = s
  crews : ∀ x, x ≠ c → t.crew x = s.crew x
  kept : { t.crew c with
    m := (s.crew c).m, w := (s.crew c).w, vstat := (s.crew c).vstat, rndCtr := (s.crew c).rndCtr,
    tokens := (s.crew c).tokens, vq := (s.crew c).vq, idle := (s.crew c).idle, queues := (s.crew c).queues
    sc := (s.crew c).sc } = s.crew c
  queue : (t.crew c).vq = (s.crew c).vq.filter fun x => x.name != e.name
  tokens : ∀ f, tokenCount (t.crew c) f = tokenCount (s.crew c) f
    - (if e.popped = false ∧ f ∈ (tokenFifos 2 tok).1 then 1 else 0) + (if f ∈ (tokenFifos 2 tok).2 then 1 else 0)

/-- Words of the matrix registers outside an operand are as they were. -/
def OnlyOperand (s t : State) (c : Nat) (d : MatOp) : Prop :=
  ∀ x, (∀ i < 32, x ≠ d.at i) → (t.crew c).m.find? x = (s.crew c).m.find? x

/-- An operand holds these elements of width w: the one given, or where none is, the one it held. -/
def Elements (s t : State) (c : Nat) (d : MatOp) (w : Nat) (r : Nat → Option Nat) : Prop :=
  ∀ i < 1024 / w, (readElems (t.crew c) d w).getD i 0 = match r i with
    | some v => v % 2 ^ w
    | none => (readElems (s.crew c) d w).getD i 0

/-- A V instruction completes: it writes elements of operand d alone, ORs its flags into VSTAT, and moves the counter on
where its mode is stochastic (R51, R54, R247). -/
structure VWrites (s t : State) (c : Nat) (e : Entry) (o : VFmt) (w : Nat) (r : Nat → Option Nat) (fl mode : Nat) : Prop where
  done : VDone s t c e o.tok
  scalar : (t.crew c).sc = (s.crew c).sc
  queues : (t.crew c).queues = (s.crew c).queues
  elems : Elements s t c (matOperand o e 1) w r
  others : OnlyOperand s t c (matOperand o e 1)
  masks : (t.crew c).w = (s.crew c).w
  vstat : (t.crew c).vstat = (s.crew c).vstat ||| BitVec.ofNat 32 fl
  ctr : (t.crew c).rndCtr =
    if mode = 4 then BitVec.ofNat 64 (((s.crew c).rndCtr.toNat + 1) % 2 ^ 32) else (s.crew c).rndCtr

/-- The rounding mode of an instruction that rounds: its rm, or where that is 5, VCTL's; integer formats have none
(R48, R53). -/
def vecMode (o : VFmt) (e : Entry) : Nat :=
  if o.fmt ≤ 2 ∨ o.fmt = 9 then (if o.rm = 5 then bits e.vctl.toNat 10 8 else o.rm) else 0

/-- NSR makes a dynamic stochastic mode illegal (R53). -/
def ModeLegal (o : VFmt) (e : Entry) : Prop :=
  ¬(o.rm = 5 ∧ bits e.vctl.toNat 10 8 = 4 ∧ e.vctl.getLsbD 7 = true)

/-- Element i of an operand. -/
def elemOf (s : State) (c : Nat) (o : MatOp) (w i : Nat) : Nat := (readElems (s.crew c) o w).getD i 0

/-- What an element-wise instruction gives element i: nothing where the guard mask turns it off, else `f` of the rounding
mode, its random bits, and element i of A, B and D. -/
def lanewise (s : State) (c : Nat) (e : Entry) (o : VFmt) (mode : Nat) (f : Nat → Nat → Nat → Nat → Nat → Nat × Flags)
    (i : Nat) : Option (Nat × Flags) :=
  let w := vWidth o.fmt
  if enabled (s.crew c) o.mg i then
    some (f mode (if mode = 4 then vecRnd (s.crew c) e (matOperand o e 1) w i else 0) (elemOf s c (matOperand o e 2) w i)
      (elemOf s c (matOperand o e 3) w i) (elemOf s c (matOperand o e 1) w i))
  else none

/-- A V instruction takes the floating-point trap: it writes nothing, and cause 19 is posted with its flags (R54). -/
structure VTraps (s t : State) (c : Nat) (e : Entry) (fl : Nat) : Prop where
  m : (t.crew c).m = (s.crew c).m
  masks : (t.crew c).w = (s.crew c).w
  vstat : (t.crew c).vstat = (s.crew c).vstat
  ctr : (t.crew c).rndCtr = (s.crew c).rndCtr
  posted : (t.crew c).posted = (s.crew c).posted ++
    [{ stream := 2, exc := { cause := 19, info := BitVec.ofNat 64 fl }, pc := e.pc, resume := e.pc }]
  stopped : (t.crew c).stopped.contains 2 = true

/-- An element-wise instruction: it completes with its elements where no flag it raises is enabled to trap, and with one it
raises cause 19 with the flags and writes nothing (R54, R247). -/
def Lanewise (mk : VFmt → Instr) (mode : VFmt → Entry → Nat)
    (f : VFmt → Nat → Nat → Nat → Nat → Nat → Nat × Flags) : Prop :=
  ∀ (o : VFmt) (s : State) (c : Nat) (e : Entry), (mk o).wf = true → Performs 2 o.tok s c e →
    (mode o e ≠ 0 → ModeLegal o e) →
    let r := lanewise s c e o (mode o e) (f o)
    let fl := gather ((List.range o.count).map r)
    (fl &&& e.vctl.toNat &&& 0x3F = 0 → ∃ t, exec (mk o) s = .next t ∧
      VWrites s t c e o (vWidth o.fmt) (fun i => (r i).map (·.1)) fl (mode o e)) ∧
    (fl &&& e.vctl.toNat &&& 0x3F ≠ 0 → ∃ t, exec (mk o) s = .next t ∧ VTraps s t c e fl)

/-- An arithmetic element: of a floating format, or of an integer one, whose exact value wraps, or saturates where rm is 1
(R248). -/
def elemArith (ff : FFmt → Nat → Nat → Nat → Nat → Nat → Nat × Flags) (fi : Int → Int → Int) (o : VFmt)
    (mode rnd a b d : Nat) : Nat × Flags :=
  match EF.ofCode o.fmt with
  | some (.flt f) => ff f mode rnd a b d
  | some (.int w sg) => (iresult w sg o.rm (fi (ival w sg a) (ival w sg b)), 0)
  | _ => (0, 0)

/-- An element-wise instruction on bits, which raises nothing. -/
def Bitwise (mk : VFmt → Instr) (f : VFmt → Nat → Nat → Nat → Nat) : Prop :=
  ∀ (o : VFmt) (s : State) (c : Nat) (e : Entry), (mk o).wf = true → Performs 2 o.tok s c e →
    ∃ t, exec (mk o) s = .next t ∧ VWrites s t c e o (vWidth o.fmt)
      (fun i => (lanewise s c e o 0 (fun _ _ a b _ => (f o (vWidth o.fmt) a b, 0)) i).map (·.1)) 0 0

end Sys2Proof.Machine

/-- VADD to VCLASS: element-wise, on every enabled element, the exact result rounded once in the instruction's mode, or
wrapped or saturated for an integer; VRCPE, VRSQE, VEXP2 and VLOG2 give what `seedOf`, `vexp2` and `vlog2` give. Flags collect
in VSTAT or trap with no result written; the random bits of stochastic rounding come from the element's place, and RND_CTR
moves on by 1 (R46-R54, R63, R246-R252, R268). The model's choices: the tables and series of VRSQE, VEXP2 and VLOG2, no exact
rounding (log 6, PRESUMED), and the flags of an operation with an SCR operand, through `ordinary` (log 42). -/
def Obligations.VectorArithmetic : Prop :=
  Lanewise .vadd vecMode (elemArith (fun f m r a b _ => faddF f m r false a b) (· + ·)) ∧
  Lanewise .vsub vecMode (elemArith (fun f m r a b _ => faddF f m r true a b) (· - ·)) ∧
  Lanewise .vmul vecMode (elemArith (fun f m r a b _ => fmulF f m r a b) (· * ·)) ∧
  Lanewise .vfma vecMode (elemArith (fun f m r a b d => fmaF f m r false false a b d) (fun a _ => a)) ∧
  Lanewise .vfms vecMode (elemArith (fun f m r a b d => fmaF f m r false true a b d) (fun a _ => a)) ∧
  Lanewise .vfnma vecMode (elemArith (fun f m r a b d => fmaF f m r true false a b d) (fun a _ => a)) ∧
  Lanewise .vmin vecMode (elemArith (fun f _ _ a b _ => ordinary f [a, b] (fminmax f false a b)) min) ∧
  Lanewise .vmax vecMode (elemArith (fun f _ _ a b _ => ordinary f [a, b] (fminmax f true a b)) max) ∧
  Lanewise .vabs vecMode (elemArith (fun f _ _ a _ _ => ordinary f [a] (a % f.signBit, 0)) (fun a _ => a.natAbs)) ∧
  Lanewise .vneg vecMode (elemArith (fun f _ _ a _ _ => ordinary f [a] (a ^^^ f.signBit, 0)) (fun a _ => -a)) ∧
  Lanewise .vcps vecMode (elemArith (fun f _ _ a b _ =>
    ordinary f [a, b] (a % f.signBit + b / f.signBit % 2 * f.signBit, 0)) (fun a _ => a)) ∧
  Lanewise .vrcpe vecMode (fun _ _ _ a _ _ => seedOf false a) ∧
  Lanewise .vrsqe vecMode (fun _ _ _ a _ _ => seedOf true a) ∧
  Lanewise .vexp2 vecMode (elemArith (fun f m r a _ _ => ordinary f [a] (vexp2 f a m r)) (fun a _ => a)) ∧
  Lanewise .vlog2 vecMode (elemArith (fun f m r a _ _ => ordinary f [a] (vlog2 f a m r)) (fun a _ => a)) ∧
  Lanewise .vclass vecMode (elemArith (fun f _ _ a _ _ => (classOf f a, 0)) (fun a _ => a))

/-- The logic, shift and count instructions, moves, selections, broadcast, VSET and VPERM: element-wise on the bits of each
enabled element, raising nothing. A shift by the width or more gives 0, and VSAR copies of the sign; VSET writes the one
element its field names (R257, R258, R262, R267). -/
def Obligations.VectorBitsAndMoves : Prop :=
  Bitwise .vand (fun _ _ a b => a &&& b) ∧ Bitwise .vor (fun _ _ a b => a ||| b) ∧ Bitwise .vxor (fun _ _ a b => a ^^^ b) ∧
  Bitwise .vshl (fun o w a _ => if w ≤ o.c % 32 then 0 else a * 2 ^ (o.c % 32) % 2 ^ w) ∧
  Bitwise .vshr (fun o _ a _ => a / 2 ^ (o.c % 32)) ∧
  Bitwise .vsar (fun o w a _ => wrapN (sext a w / (2 : Int) ^ (o.c % 32)) w) ∧
  Bitwise .vpopc (fun _ w a _ => popCount a w) ∧ Bitwise .vclz (fun _ w a _ => leadZeros a w) ∧
  Bitwise .vmov (fun _ _ a _ => a) ∧ Bitwise .vselv (fun _ _ a b => if isSCR a then b else a) ∧
  (∀ (o : VFmt) (s : State) (c : Nat) (e : Entry), (Instr.vsel o).wf = true → Performs 2 o.tok s c e →
    ∃ t, exec (.vsel o) s = .next t ∧ VWrites s t c e o (vWidth o.fmt) (fun i =>
      if enabled (s.crew c) o.mg i then
        some (elemOf s c (matOperand o e (if ((s.crew c).w.getD o.c 0).getLsbD i then 2 else 3)) (vWidth o.fmt) i)
      else none) 0 0) ∧
  (∀ (o : VFmt) (s : State) (c : Nat) (e : Entry), (Instr.vbcast o).wf = true → Performs 2 o.tok s c e →
    ∃ t, exec (.vbcast o) s = .next t ∧ VWrites s t c e o (vWidth o.fmt)
      (fun i => if enabled (s.crew c) o.mg i then some e.sval.toNat else none) 0 0) ∧
  (∀ (o : VFmt) (s : State) (c : Nat) (e : Entry), (Instr.vset o).wf = true → Performs 2 o.tok s c e →
    ∃ t, exec (.vset o) s = .next t ∧ VWrites s t c e o (vWidth o.fmt)
      (fun i => if i = o.c then some e.sval.toNat else none) 0 0) ∧
  (∀ (o : VFmt) (s : State) (c : Nat) (e : Entry), (Instr.vperm o).wf = true → Performs 2 o.tok s c e →
    ∃ t, exec (.vperm o) s = .next t ∧ VWrites s t c e o (vWidth o.fmt) (fun i =>
      if enabled (s.crew c) o.mg i then
        some (elemOf s c (matOperand o e 2) (vWidth o.fmt) (elemOf s c (matOperand o e 3) (vWidth o.fmt) i % o.count))
      else none) 0 0)

namespace Sys2Proof.Machine

/-- A V instruction completes that writes mask d alone, its bits up to the count, those past it cleared (R246). -/
structure VMask (s t : State) (c : Nat) (e : Entry) (o : VFmt) (bit : Nat → Bool) (fl : Nat) : Prop where
  done : VDone s t c e o.tok
  m : (t.crew c).m = (s.crew c).m
  scalar : (t.crew c).sc = (s.crew c).sc
  queues : (t.crew c).queues = (s.crew c).queues
  bits : ∀ i < 128, ((t.crew c).w.getD (o.d / 128) 0).getLsbD i = bit i
  others : ∀ x, x ≠ o.d / 128 → (t.crew c).w.find? x = (s.crew c).w.find? x
  vstat : (t.crew c).vstat = (s.crew c).vstat ||| BitVec.ofNat 32 fl
  ctr : (t.crew c).rndCtr = (s.crew c).rndCtr

/-- A comparison of elements into a mask: a disabled element keeps its bit; its flags collect or trap (R54, R256, R266). -/
def Comparing (mk : VFmt → Instr) (f : VFmt → State → Nat → Nat → Nat → Bool × Flags) : Prop :=
  ∀ (o : VFmt) (s : State) (c : Nat) (e : Entry), (mk o).wf = true → Performs 2 o.tok s c e →
    let r (i : Nat) := f o s c (elemOf s c (matOperand o e 2) (vWidth o.fmt) i) (elemOf s c (matOperand o e 3) (vWidth o.fmt) i)
    let fl := gather ((List.range o.count).map fun i =>
      if enabled (s.crew c) o.mg i then some (0, (r i).2) else none)
    (fl &&& e.vctl.toNat &&& 0x3F = 0 → ∃ t, exec (mk o) s = .next t ∧
      VMask s t c e o (fun i => decide (i < o.count) &&
        (if enabled (s.crew c) o.mg i then (r i).1 else ((s.crew c).w.getD (o.d / 128) 0).getLsbD i)) fl) ∧
    (fl &&& e.vctl.toNat &&& 0x3F ≠ 0 → ∃ t, exec (mk o) s = .next t ∧ VTraps s t c e fl)

/-- The mode a conversion rounds in. -/
def cvtMode (o : VFmt) (e : Entry) : Nat :=
  if o.c % 16 ≤ 2 ∨ o.c % 16 = 9 ∨ o.fmt ≤ 2 then (if o.rm = 5 then bits e.vctl.toNat 10 8 else o.rm) else 0

/-- The enabled elements of operand A in ascending index, with their indexes. -/
def chosen (s : State) (c : Nat) (e : Entry) (o : VFmt) : List (Nat × Nat) :=
  ((List.range o.count).filter fun i => enabled (s.crew c) o.mg i).map fun i =>
    (i, elemOf s c (matOperand o e 2) (vWidth o.fmt) i)

/-- An instruction that writes the first elements of its destination from the enabled elements of A. -/
def Reducing (mk : VFmt → Instr) (w : VFmt → Nat) (mode : VFmt → Entry → Nat)
    (f : VFmt → Nat → (Nat → Nat → Nat) → List (Nat × Nat) → Nat → List Nat × Flags) : Prop :=
  ∀ (o : VFmt) (s : State) (c : Nat) (e : Entry), (mk o).wf = true → Performs 2 o.tok s c e →
    (mode o e ≠ 0 → ModeLegal o e) →
    let rnd := if mode o e = 4 then vecRnd (s.crew c) e (matOperand o e 1) (w o) 0 else 0
    let r := f o (mode o e) (fun k i => elemOf s c (matOperand o e k) (vWidth o.fmt) i) (chosen s c e o) rnd
    (r.2 &&& e.vctl.toNat &&& 0x3F = 0 → ∃ t, exec (mk o) s = .next t ∧
      VWrites s t c e o (w o) (fun i => r.1[i]?) r.2 (mode o e)) ∧
    (r.2 &&& e.vctl.toNat &&& 0x3F ≠ 0 → ∃ t, exec (mk o) s = .next t ∧ VTraps s t c e r.2)

/-- Entry j of VTOPK's list: value and identifier. -/
def listEntry (s : State) (c : Nat) (o : MatOp) (j : Nat) : Nat × Nat :=
  (((s.crew c).m.getD (topkWord o j 0) 0).toNat, ((s.crew c).m.getD (topkWord o j 1) 0).toNat)

end Sys2Proof.Machine

/-- VCMP writes the mask bit of each enabled element from its comparison, VCMPV from the comparison of its value or verdict
with a threshold register; VMAND, VMOR and VMNOT act on all 128 bits (R246, R256, R257, R266). The model's choice: a comparison
with an SCR operand is false and raises SX, and NV only for another operand that raises it (log 42). -/
def Obligations.VectorMasks : Prop :=
  Comparing .vcmp (fun o _ _ a b => match EF.ofCode o.fmt with
    | some (.flt f) =>
      if f = .f32 ∧ (isSCR a = true ∨ isSCR b = true) then
        let nv (x : Nat) : Bool := !isSCR x && (if o.c ≤ 1 then f.isSNaN x else f.isNaN x)
        (false, orf Flag.sx (flagIf (nv a || nv b) Flag.nv))
      else fcompare f o.c a b
    | some (.int w sg) => (icompare w sg o.c a b, 0)
    | _ => (false, 0)) ∧
  Comparing .vcmpv (fun o s c a _ => compareVerdict o.c ((s.crew c).thr (o.b / 128)) a) ∧
  (∀ (o : VFmt) (s : State) (c : Nat) (e : Entry),
    let w (x : Nat) := (s.crew c).w.getD (x / 128) 0
    (∀ (_ : (Instr.vmand o).wf = true), Performs 2 o.tok s c e → ∃ t, exec (.vmand o) s = .next t ∧
      VMask s t c e o (fun i => (w o.a).getLsbD i && (w o.b).getLsbD i) 0) ∧
    (∀ (_ : (Instr.vmor o).wf = true), Performs 2 o.tok s c e → ∃ t, exec (.vmor o) s = .next t ∧
      VMask s t c e o (fun i => (w o.a).getLsbD i || (w o.b).getLsbD i) 0) ∧
    (∀ (_ : (Instr.vmnot o).wf = true), Performs 2 o.tok s c e → ∃ t, exec (.vmnot o) s = .next t ∧
      VMask s t c e o (fun i => !(w o.a).getLsbD i) 0))

/-- VCVT converts element by element between formats of any widths, the guard read by destination, leaving the elements
outside its part; VQNT writes the codes and then the scale of one block, VDQNT the values of one; a failing narrow format
descriptor, of VCVT from nf as well, raises the descriptor fault, and one outside every pin the footprint fault (R66-R69,
R245, R253-R255). The model's choice: the flags of SCR operands (log 42), and that VCVT from nf reads its descriptor at
handover (log 43). -/
def Obligations.VectorConversions : Prop :=
  (∀ (o : VFmt) (s : State) (c : Nat) (e : Entry), (Instr.vcvt o).wf = true → Performs 2 o.tok s c e →
    (cvtMode o e ≠ 0 → ModeLegal o e) → (o.c % 16 = 9 → e.vnf ≠ none) →
    let nS := 1024 / vWidth (o.c % 16)
    let nD := o.count
    let part := o.c / 16
    let src := (EF.ofCode (o.c % 16)).getD (.flt .f32)
    let dst := (EF.ofCode o.fmt).getD (.flt .f32)
    let m := cvtMode o e
    let conv (t x : Nat) := convertElem (NF.ofDesc (e.vnf.getD 0)) src dst m o.rm
      (if m = 4 then vecRnd (s.crew c) e (matOperand o e 1) (vWidth o.fmt) t else 0)
      (elemOf s c (matOperand o e 2) (vWidth (o.c % 16)) x)
    let r (t : Nat) : Option (Nat × Flags) :=
      if enabled (s.crew c) o.mg t = false then none
      else if nD > nS then (if part * nS ≤ t ∧ t < (part + 1) * nS then some (conv t (t - part * nS)) else none)
      else some (conv t (if nS > nD then part * nD + t else t))
    let fl := gather ((List.range nD).map r)
    (fl &&& e.vctl.toNat &&& 0x3F = 0 → ∃ t, exec (.vcvt o) s = .next t ∧
      VWrites s t c e o (vWidth o.fmt) (fun i => (r i).map (·.1)) fl m) ∧
    (fl &&& e.vctl.toNat &&& 0x3F ≠ 0 → ∃ t, exec (.vcvt o) s = .next t ∧ VTraps s t c e fl)) ∧
  (∀ (o : VFmt) (s : State) (c d : Nat) (e : Entry), (Instr.vqnt o).wf = true → Performs 2 o.tok s c e →
    ModeLegal o e → e.vnf = some d →
    let m := vecMode o e
    let dst := matOperand o e 1
    let ws := (List.range 32).map (elemOf s c (matOperand o e 2) 32)
    let q := quantise ws (NF.ofDesc d) m fun i => if m = 4 then vecRnd (s.crew c) e dst 8 i else 0
    let fl := orf q.2.2 (flagIf (ws.any isSCR) Flag.sx)
    (fl &&& e.vctl.toNat &&& 0x3F = 0 → ∃ t, exec (.vqnt o) s = .next t ∧ VDone s t c e o.tok ∧
      (t.crew c).w = (s.crew c).w ∧ (t.crew c).sc = (s.crew c).sc ∧ (t.crew c).queues = (s.crew c).queues ∧
      (t.crew c).vstat = (s.crew c).vstat ||| BitVec.ofNat 32 fl ∧
      (t.crew c).rndCtr =
        (if m = 4 then BitVec.ofNat 64 (((s.crew c).rndCtr.toNat + 1) % 2 ^ 32) else (s.crew c).rndCtr) ∧
      (t.crew c).m.getD ((matOperand o e 3).at 0) 0 = BitVec.ofNat 32 q.1 ∧
      (∀ i < 32, dst.at (i / 4) ≠ (matOperand o e 3).at 0 → elemOf t c dst 8 i = q.2.1.getD i 0 % 256) ∧
      (∀ x, x ≠ (matOperand o e 3).at 0 → (∀ i < 8, x ≠ dst.at i) → (t.crew c).m.find? x = (s.crew c).m.find? x)) ∧
    (fl &&& e.vctl.toNat &&& 0x3F ≠ 0 → ∃ t, exec (.vqnt o) s = .next t ∧ VTraps s t c e fl)) ∧
  (∀ (o : VFmt) (s : State) (c d : Nat) (e : Entry), (Instr.vdqnt o).wf = true → Performs 2 o.tok s c e →
    ModeLegal o e → e.vnf = some d →
    let m := vecMode o e
    let σ := elemOf s c (matOperand o e 3) 32 0 % 1024
    let r (i : Nat) := dequantise (NF.ofDesc d) (elemOf s c (matOperand o e 2) 8 i) σ .f32 m
      (if m = 4 then vecRnd (s.crew c) e (matOperand o e 1) 32 i else 0)
    let fl := allFlags ((List.range 32).map r)
    (fl &&& e.vctl.toNat &&& 0x3F = 0 → ∃ t, exec (.vdqnt o) s = .next t ∧
      VWrites s t c e o 32 (fun i => some (r i).1) fl m) ∧
    (fl &&& e.vctl.toNat &&& 0x3F ≠ 0 → ∃ t, exec (.vdqnt o) s = .next t ∧ VTraps s t c e fl)) ∧
  (∀ (o : VFmt) (s : State) (c : Nat) (e : Entry) (mk : VFmt → Instr),
    mk = .vqnt ∨ mk = .vdqnt ∨ (mk = .vcvt ∧ o.c % 16 = 9) → (mk o).wf = true → Performs 2 o.tok s c e →
    (mk = .vcvt → cvtMode o e ≠ 0 → ModeLegal o e) → e.vnf = none →
    ∃ t, exec (mk o) s = .next t ∧ (t.crew c).m = (s.crew c).m ∧ (t.crew c).w = (s.crew c).w ∧
      (t.crew c).vstat = (s.crew c).vstat ∧
      (t.crew c).posted = (s.crew c).posted ++ [{
        stream := 2, pc := e.pc, resume := e.pc
        exc := match e.vnfAt with
          | none => { cause := 6, info := BitVec.ofNat 64 e.vnfTid }
          | some va => { cause := 9, addr := BitVec.ofNat 64 va } }])

/-- VRED reduces the enabled elements of A into element 0, VSCAN each prefix of them into its element, VDOT the exact sum of
products into word 0; VMINX and VMAXX give the extreme value and its index in words 0 and 1, the lowest index among equals;
VTOPK leaves the greatest k of its list and the candidates in order (R63, R71, R259-R261, R265). The model's choices: the
flags of an operation with an SCR operand (log 42), and no NV of opposite infinities beside a quiet NaN (log 118). -/
def Obligations.VectorReductions : Prop :=
  Reducing .vred (fun o => vWidth o.fmt) vecMode (fun o m _ xs rnd =>
    let r := reduce o m rnd (xs.map (·.2))
    ([r.1], r.2)) ∧
  Reducing .vdot (fun _ => 32) vecMode (fun o m el xs rnd =>
    let r := dotOf o m rnd (xs.map fun p => (p.2, el 3 p.1))
    ([r.1], r.2)) ∧
  Reducing .vminx (fun _ => 32) (fun _ _ => 0) (fun o _ _ xs _ =>
    let r := selectExtreme ((EF.ofCode o.fmt).getD .nf) 1 xs
    ([r.1, r.2.1], r.2.2)) ∧
  Reducing .vmaxx (fun _ => 32) (fun _ _ => 0) (fun o _ _ xs _ =>
    let r := selectExtreme ((EF.ofCode o.fmt).getD .nf) 2 xs
    ([r.1, r.2.1], r.2.2)) ∧
  (∀ (o : VFmt) (s : State) (c : Nat) (e : Entry), (Instr.vscan o).wf = true → Performs 2 o.tok s c e →
    (vecMode o e ≠ 0 → ModeLegal o e) →
    let m := vecMode o e
    let r (i : Nat) : Option (Nat × Flags) :=
      if enabled (s.crew c) o.mg i then
        some (reduce o m (if m = 4 then vecRnd (s.crew c) e (matOperand o e 1) (vWidth o.fmt) i else 0)
          (((chosen s c e o).filter fun p => p.1 ≤ i).map (·.2)))
      else none
    let fl := gather ((List.range o.count).map r)
    (fl &&& e.vctl.toNat &&& 0x3F = 0 → ∃ t, exec (.vscan o) s = .next t ∧
      VWrites s t c e o (vWidth o.fmt) (fun i => (r i).map (·.1)) fl m) ∧
    (fl &&& e.vctl.toNat &&& 0x3F ≠ 0 → ∃ t, exec (.vscan o) s = .next t ∧ VTraps s t c e fl)) ∧
  (∀ (op : Nat) (sg : Bool) (w : Nat) (es : List (Nat × Nat)) (p : Nat × Nat), op = 1 ∨ op = 2 → 0 < w → p ∈ es →
    (∀ q ∈ es, q.2 < 2 ^ w ∧
      ((if op = 1 then ival w sg p.2 < ival w sg q.2 else ival w sg q.2 < ival w sg p.2) ∨ (q.2 = p.2 ∧ p.1 ≤ q.1))) →
    es.Pairwise (fun a b => a.1 < b.1) →
    selectExtreme (.int w sg) op es = (p.2, p.1, 0)) ∧
  (∀ (o : VFmt) (s : State) (c : Nat) (e : Entry), (Instr.vtopk o).wf = true → Performs 2 o.tok s c e →
    let k := o.c % 128
    let dst := matOperand o e 1
    let old := (List.range k).map (listEntry s c dst)
    let cands := (chosen s c e o).map fun p => (p.2, elemOf s c (matOperand o e 3) 32 p.1)
    let fl := flagIf (cands.any fun x => FFmt.f32.isSNaN x.1 && !isSCR x.1) Flag.nv
    (∀ x ∈ old, FFmt.f32.isNaN x.1 = false) →
    (fl &&& e.vctl.toNat &&& 0x3F = 0 → ∃ t, exec (.vtopk o) s = .next t ∧ VDone s t c e o.tok ∧
      (t.crew c).w = (s.crew c).w ∧ (t.crew c).sc = (s.crew c).sc ∧ (t.crew c).queues = (s.crew c).queues ∧
      (t.crew c).vstat = (s.crew c).vstat ||| BitVec.ofNat 32 fl ∧ (t.crew c).rndCtr = (s.crew c).rndCtr ∧
      (∀ x, (∀ j < k, ∀ part < 2, x ≠ topkWord dst j part) → (t.crew c).m.find? x = (s.crew c).m.find? x) ∧
      let new := (List.range k).map (listEntry t c dst)
      new.Pairwise (fun x y => goesBefore y x = false) ∧
      ∃ rest, (new ++ rest).Perm (old ++ cands.filter fun x => !FFmt.f32.isNaN x.1) ∧
        ∀ x ∈ new, ∀ y ∈ rest, goesBefore y x = false) ∧
    (fl &&& e.vctl.toNat &&& 0x3F ≠ 0 → ∃ t, exec (.vtopk o) s = .next t ∧ VTraps s t c e fl))

/-- VPOP takes the oldest entry of its queue and writes its words along its operand and, past 32, the next; a poisoned entry
is consumed, writes nothing and raises cause 20. VPUSH appends an entry of the words of its operands with its marks. VGET
fills its scalar register with the element, zero-extended (R171, R262-R264). -/
def Obligations.VectorQueueMoves : Prop :=
  (∀ (o : VFmt) (s : State) (c : Nat) (e : Entry) (x : QEntry) (rest : List QEntry), (Instr.vpop o).wf = true →
    Performs 2 o.tok s c e →
    let v := queueOf s c o.a
    let dst := matOperand o e 1
    let n := entryBytes v.width / 4
    queueRefuses v 2 v.width false = none → v.entries = x :: rest → x.data.length = entryBytes v.width →
    (x.p = false → ∃ t, exec (.vpop o) s = .next t ∧ VDone s t c e o.tok ∧
      (t.crew c).w = (s.crew c).w ∧ (t.crew c).sc = (s.crew c).sc ∧ (t.crew c).vstat = (s.crew c).vstat ∧
      (t.crew c).rndCtr = (s.crew c).rndCtr ∧
      queueOf t c o.a = v.popped x rest ∧ (∀ q, q ≠ o.a → queueOf t c q = queueOf s c q) ∧
      (∀ j < n, (t.crew c).m.getD ((dst.shift (j / 32)).at (j % 32)) 0 =
        BitVec.ofNat 32 (leNat ((x.data.drop (4 * j)).take 4))) ∧
      (∀ y, (∀ j < n, y ≠ (dst.shift (j / 32)).at (j % 32)) → (t.crew c).m.find? y = (s.crew c).m.find? y)) ∧
    (x.p = true → ∃ t, exec (.vpop o) s = .next t ∧ (t.crew c).m = (s.crew c).m ∧ queueOf t c o.a = v.popped x rest ∧
      (t.crew c).posted = (s.crew c).posted ++ [{ stream := 2, exc := { cause := 20, info := BitVec.ofNat 64 o.a }
                                                  pc := e.pc, resume := e.pc }])) ∧
  (∀ (o : VFmt) (s : State) (c : Nat) (e : Entry), (Instr.vpush o).wf = true → Performs 2 o.tok s c e →
    let v := queueOf s c o.d
    let src := matOperand o e 2
    queueRefuses v 2 v.width true = none → v.isFull = false → v.skip = false → v.whole = false →
    (v.brq = true → (s.crew c).skipToks = []) →
    ∃ t, exec (.vpush o) s = .next t ∧ VDone s t c e o.tok ∧ (t.crew c).m = (s.crew c).m ∧ (t.crew c).w = (s.crew c).w ∧
      (t.crew c).sc = (s.crew c).sc ∧ (t.crew c).vstat = (s.crew c).vstat ∧ (t.crew c).rndCtr = (s.crew c).rndCtr ∧
      (∀ q, q ≠ o.d → queueOf t c q = queueOf s c q) ∧
      queueOf t c o.d = { v with entries := v.entries ++ [{
        data := (List.range (entryBytes v.width / 4)).flatMap fun j =>
          leBytes 4 ((s.crew c).m.getD ((src.shift (j / 32)).at (j % 32)) 0).toNat
        h := o.c / 2 % 2 == 1, t := o.c % 2 == 1 }] }) ∧
  (∀ (o : VFmt) (s : State) (c : Nat) (e : Entry), (Instr.vget o).wf = true → Performs 2 o.tok s c e →
    ∃ t, exec (.vget o) s = .next t ∧ VDone s t c e o.tok ∧ (t.crew c).m = (s.crew c).m ∧ (t.crew c).w = (s.crew c).w ∧
      (t.crew c).queues = (s.crew c).queues ∧ (t.crew c).vstat = (s.crew c).vstat ∧ (t.crew c).rndCtr = (s.crew c).rndCtr ∧
      (t.crew c).sc = (s.crew c).sc.write o.d (BitVec.ofNat 64 (elemOf s c (matOperand o e 2) (vWidth o.fmt) o.c)))

namespace Sys2Proof.Machine

/-- A crew's lane handed to a stream: the entry stands at the end of its queue, named afresh, with the lane's pointer and
what VCTL and RND_SEED hold for it (R20, R55). -/
def handed (s : State) (c st : Nat) (e : Entry) : State :=
  let k := s.crew c
  { s with nextId := s.nextId + 1 }.setCrew c (setStreamQueue k st (streamQueue k st ++ [{ e with
    name := s.nextId, pc := k.sc.pc, vctl := (ctlNow k 1 (k.vctl.setWidth 64)).setWidth 32, seed := ctlNow k 2 k.rndSeed }]))

/-- The sequencer of a crew stands at a lane of a stream, and that stream's queue has room. -/
structure Hands (st : Nat) (s : State) (c : Nat) : Prop where
  cur : curOwner s = some (.crew c)
  room : (streamQueue (s.crew c) st).length < 16

/-- The register of an index override. -/
def overrideRegs (o : VFmt) : List Nat := if o.c / 256 = 0 then [] else [o.c % 32]

/-- The index an override gives at handover (R170). -/
def overrideOf (s : State) (c : Nat) (o : VFmt) : Nat :=
  if o.c / 256 = 0 then 0 else (regVal s (.crew c) (o.c % 32)).toNat % 32

/-- V instructions that read nothing but an index at handover. -/
def plainV : List (VFmt → Instr) :=
  [.vadd, .vsub, .vmul, .vfma, .vfms, .vfnma, .vmin, .vmax, .vabs, .vneg, .vcps, .vrcpe, .vrsqe, .vexp2, .vlog2, .vclass,
   .vcmp, .vsel, .vmand, .vmor, .vmnot, .vand, .vor, .vxor, .vshl, .vshr, .vsar, .vpopc, .vclz, .vscan, .vred, .vdot,
   .vminx, .vmaxx, .vmov, .vpop, .vpush, .vperm, .vtopk, .vselv]

/-- Every V instruction. -/
def everyV : List (VFmt → Instr) := plainV ++ [.vcvt, .vqnt, .vdqnt, .vbcast, .vget, .vset, .vcmpv]

/-- M instructions that read nothing at handover. -/
def plainM : List (StrokeFmt → Instr) := [.mlds, .mldsp, .mswap, .mmask, .mbnd, .mrun, .mzero, .mwait, .mstat]

/-- Every M instruction. -/
def everyM : List (StrokeFmt → Instr) := plainM ++ [.mver, .mdrain, .mdrainv]

/-- What reading the descriptor of VNF_TID leaves in an entry: its narrow format where it is of one, nothing where it fails, and
its address where no pin covers it (R245). -/
def withFormat (n : Named) (tid : Nat) (e : Entry) : Entry :=
  match n with
  | .ok d => { e with vnf := if d.efmt = 13 then some d.nfd else none, vnfTid := tid }
  | .refused _ va => { e with vnfAt := some va, vnfTid := tid }
  | _ => { e with vnfTid := tid }

/-- L and W instructions that read no register at handover, and those that read one. -/
def plainLW : List (LWFmt → Instr) := [.agrun, .agidx, .agtake, .agmark]
def readingLW : List (LWFmt → Instr) := [.agdef, .agput, .agbank]

/-- An instruction waits, with nothing changed, while a FIFO it pops is empty (R146). -/
def WaitsForTokens (st tok : Nat) (i : Instr) : Prop :=
  ∀ (s : State) (c : Nat) (e : Entry), streamHead s s.cur = some (c, st, e) → (st = 3 → e.exc = none) →
    e.finished = false → e.popped = false → (∃ f ∈ (tokenFifos st tok).1, tokenCount (s.crew c) f = 0) → exec i s = .next s

/-- A finished instruction pushes its tokens in turn, up to the first FIFO that is full or that an instruction completed before
it still owes; it leaves its queue with the last of them (R147, R148). -/
def PushesTokens (st tok : Nat) (i : Instr) (owed : Crew → Entry → List Nat) : Prop :=
  ∀ (s : State) (c : Nat) (e : Entry), streamHead s s.cur = some (c, st, e) → (st = 3 → e.exc = none) → e.finished = true →
    let k := s.crew c
    let due := (tokenFifos st tok).2.drop e.pushed
    let free (f : Nat) := tokenCount k f < 8 ∧ f ∉ owed k e
    ((∀ f ∈ due, free f) → ∃ t, exec i s = .next t ∧
      streamQueue (t.crew c) st = (streamQueue k st).filter (fun x => x.name != e.name) ∧
      (∀ f, tokenCount (t.crew c) f = tokenCount k f + (if f ∈ due then 1 else 0))) ∧
    (∀ pre f post, due = pre ++ f :: post → (∀ g ∈ pre, free g) → ¬free f → ∃ t, exec i s = .next t ∧
      (∀ g, tokenCount (t.crew c) g = tokenCount k g + (if g ∈ pre then 1 else 0)) ∧
      (streamQueue (t.crew c) st).map (·.name) = (streamQueue k st).map (·.name) ∧
      (∀ x ∈ streamQueue (t.crew c) st, x.name = e.name → x.finished = true ∧ x.pushed = e.pushed + pre.length))

end Sys2Proof.Machine

/-- S hands each V, M, L and W instruction over to its stream's queue, with the scalar registers it names read then, and goes on
past its lanes, two for V and one for the others; a full queue holds S at the lane with nothing changed. VGET marks its
register empty; a drain takes the next TSF entry and the output TID; an instruction that names a threshold waits for its
HRDs (R19, R20, R55, R167, R170, R171, R238, R282, R285). The model's choices: VCVT from nf reads the descriptor of VNF_TID
at handover, as VQNT and VDQNT do (log 43), and a drain takes RND_SEED then (log 119). Dependence tokens order the streams:
an instruction of V, M, L or W waits, with nothing changed, while a FIFO it pops is empty; one that has finished pushes its
tokens in turn, and leaves its queue once each FIFO it has still to push has room, at most 8 in each; where one is full it
has pushed those before it and waits with the rest. Of M instructions, the tokens of one that completed first enter a FIFO
first (R146-R148). -/
def Obligations.StreamsTakeTurns : Prop :=
  ((∀ mk ∈ plainV, ∀ (o : VFmt) (s : State) (c : Nat), (mk o).wf = true → Hands 2 s c →
    RegsReady s (.crew c) (overrideRegs o) →
    exec (mk o) s = .next (advance (handed s c 2 { name := 0, instr := mk o, pc := 0, sidx := overrideOf s c o }) (.crew c) 2)) ∧
  (∀ (mk : VFmt → Instr) (o : VFmt) (s : State) (c : Nat), mk = .vbcast ∨ mk = .vset → (mk o).wf = true → Hands 2 s c →
    RegsReady s (.crew c) (o.a :: overrideRegs o) →
    exec (mk o) s = .next (advance (handed s c 2
      { name := 0, instr := mk o, pc := 0, sval := regVal s (.crew c) o.a, sidx := overrideOf s c o }) (.crew c) 2)) ∧
  (∀ (o : VFmt) (s : State) (c : Nat), (Instr.vget o).wf = true → Hands 2 s c → RegsReady s (.crew c) [o.d] →
    exec (.vget o) s = .next (advance (handed (withPend s (.crew c) o.d (.vget (regVal s (.crew c) o.d))) c 2
      { name := 0, instr := .vget o, pc := 0 }) (.crew c) 2)) ∧
  (∀ (mk : VFmt → Instr) (o : VFmt) (s s' : State) (c : Nat) (n : Named),
    mk = .vqnt ∨ mk = .vdqnt ∨ (mk = .vcvt ∧ o.c % 16 = 9) → (mk o).wf = true → Hands 2 s c →
    RegsReady s (.crew c) (overrideRegs o) →
    nameTid (s.crew c).ctx ((s.crew c).vnfTid.toNat % 4096) (some c) (.half c) s = .ok n s' → (∀ va, n ≠ .ecc va) →
    exec (mk o) s = .next (advance (handed s' c 2 (withFormat n ((s.crew c).vnfTid.toNat % 4096)
      { name := 0, instr := mk o, pc := (s.crew c).sc.pc, sidx := overrideOf s c o })) (.crew c) 2)) ∧
  (∀ (o : VFmt) (s : State) (c : Nat), (Instr.vcvt o).wf = true → o.c % 16 ≠ 9 → Hands 2 s c →
    exec (.vcvt o) s = .next (advance (handed s c 2 { name := 0, instr := .vcvt o, pc := 0 }) (.crew c) 2)) ∧
  (∀ (o : VFmt) (s : State) (c : Nat), (Instr.vcmpv o).wf = true → Hands 2 s c →
    ((∀ r ∈ (s.crew c).hrds, r.1 ≠ o.b / 128) →
      exec (.vcmpv o) s = .next (advance (handed s c 2 { name := 0, instr := .vcmpv o, pc := 0 }) (.crew c) 2)) ∧
    ((∃ r ∈ (s.crew c).hrds, r.1 = o.b / 128) → exec (.vcmpv o) s = .next s)) ∧
  (∀ mk ∈ everyV, ∀ (o : VFmt) (s : State) (c : Nat), curOwner s = some (.crew c) → 16 ≤ (s.crew c).vq.length →
    exec (mk o) s = .next s) ∧
  (∀ mk ∈ everyM, ∀ (o : StrokeFmt) (s : State) (c : Nat), curOwner s = some (.crew c) → 16 ≤ (s.crew c).mq.length →
    exec (mk o) s = .next s) ∧
  (∀ mk ∈ plainLW ++ readingLW, ∀ (o : LWFmt) (s : State) (c : Nat), curOwner s = some (.crew c) →
    16 ≤ (streamQueue (s.crew c) (laneStream s)).length → exec (mk o) s = .next s) ∧
  (∀ mk ∈ plainM, ∀ (o : StrokeFmt) (s : State) (c : Nat), (mk o).wf = true → Hands 3 s c →
    exec (mk o) s = .next (advance (handed s c 3 { name := 0, instr := mk o, pc := 0 }) (.crew c) 1)) ∧
  (∀ (o : StrokeFmt) (s : State) (c : Nat), (Instr.mver o).wf = true → Hands 3 s c →
    ((o.p = 0 ∨ ∀ r ∈ (s.crew c).hrds, r.1 ≠ o.h) →
      exec (.mver o) s = .next (advance (handed s c 3 { name := 0, instr := .mver o, pc := 0 }) (.crew c) 1)) ∧
    (o.p ≠ 0 → (∃ r ∈ (s.crew c).hrds, r.1 = o.h) → exec (.mver o) s = .next s)) ∧
  (∀ (mk : StrokeFmt → Instr) (o : StrokeFmt) (s : State) (c : Nat), mk = .mdrain ∨ mk = .mdrainv → (mk o).wf = true →
    Hands 3 s c →
    let v := (s.crew c).stroke o.arr
    let s' := s.setCrew c { s.crew c with strokes := (s.crew c).strokes.put o.arr { v with dsn := v.dsn + 1 } {} }
    exec (mk o) s = .next (advance (handed s' c 3 { name := 0, instr := mk o, pc := 0, sval := (s.crew c).strokeOut.getD o.arr 0
                                                    sidx := v.dsn.toNat }) (.crew c) 1)) ∧
  (∀ mk ∈ plainLW, ∀ (o : LWFmt) (s : State) (c : Nat), (mk o).wf = true → Hands (laneStream s) s c →
    exec (mk o) s = .next (advance (handed s c (laneStream s) { name := 0, instr := mk o, pc := 0, sidx := o.s }) (.crew c) 1)) ∧
  (∀ mk ∈ readingLW, ∀ (o : LWFmt) (s : State) (c : Nat), (mk o).wf = true → Hands (laneStream s) s c →
    RegsReady s (.crew c) [o.s] →
    exec (mk o) s = .next (advance (handed s c (laneStream s)
      { name := 0, instr := mk o, pc := 0, sval := regVal s (.crew c) o.s, sidx := o.s }) (.crew c) 1))) ∧
  ((∀ mk ∈ everyV, ∀ o : VFmt, WaitsForTokens 2 o.tok (mk o) ∧ PushesTokens 2 o.tok (mk o) fun _ _ => []) ∧
  (∀ mk ∈ everyM, ∀ o : StrokeFmt, WaitsForTokens 3 o.tok (mk o) ∧ PushesTokens 3 o.tok (mk o) owed) ∧
  (∀ mk ∈ plainLW ++ readingLW, ∀ o : LWFmt, ∀ st, st = 4 ∨ st = 5 →
    WaitsForTokens st o.tok (mk o) ∧ PushesTokens st o.tok (mk o) fun _ _ => []) ∧
  (∀ (k : Crew) (e : Entry) (f : Nat), f ∈ owed k e ↔ ∃ j ∈ k.mq, j.finished = true ∧ j.name ≠ e.name ∧
    (e.finished = true → j.done < e.done) ∧ f ∈ (tokenFifos 3 (strokeTok j.instr)).2.drop j.pushed) ∧
  (∀ st tok, 2 ≤ st → st ≤ 5 → tok < 16 →
    (tokenFifos st tok).1.Nodup ∧ (tokenFifos st tok).2.Nodup ∧ ∀ f ∈ (tokenFifos st tok).1, f ∉ (tokenFifos st tok).2) ∧
  (∀ (k : Crew) (f : Nat), tokenCount (addToken k f) f = tokenCount k f + 1 ∧
    tokenCount (takeToken k f) f = tokenCount k f - 1))

/-! ### The M stream (R70-R73, R269-R293) -/

namespace Sys2Proof.Machine

/-- An M instruction can have a turn: it raised nothing, it has not finished, it has begun or no earlier one holds it back,
and each token it pops is there or already taken (R147, R148, R279). -/
structure MTurn (tok : Nat) (s : State) (c : Nat) (e : Entry) : Prop where
  head : streamHead s s.cur = some (c, 3, e)
  noexc : e.exc = none
  going : e.finished = false
  fresh : e.pushed = 0
  begins : e.prog.begun = true ∨ mayBegin (s.crew c) e = true
  pops : e.popped = true ∨ ∀ f ∈ (tokenFifos 3 tok).1, tokenCount (s.crew c) f ≠ 0

/-- The state in which its turn runs: begun, its tokens taken. -/
def mBegun (s : State) (c tok : Nat) (e : Entry) : State :=
  updEntry c 3 e.name (fun _ => { e with popped := true, prog := { e.prog with begun := true } })
    (s.setCrew c ((if e.popped then [] else (tokenFifos 3 tok).1).foldl takeToken (s.crew c)))

/-- Only arrays, queues and the command queue of one crew have changed. -/
structure MLeaves (b t : State) (c : Nat) : Prop where
  rest : { t with crews := b.crews } = b
  crews : ∀ x, x ≠ c → t.crew x = b.crew x
  kept : { t.crew c with
    strokes := (b.crew c).strokes, queues := (b.crew c).queues, tokens := (b.crew c).tokens, mq := (b.crew c).mq
    skipToks := (b.crew c).skipToks, idle := (b.crew c).idle } = b.crew c

/-- The tokens it pushes have room, no M instruction that completed before it still owes their FIFOs one, and no write of a
control register waits on it. -/
def MRetires (b : State) (c tok : Nat) (e : Entry) : Prop :=
  (∀ f ∈ (tokenFifos 3 tok).2, tokenCount (b.crew c) f < 8 ∧ f ∉ owed (b.crew c) e) ∧ ∀ w ∈ (b.crew c).vwrites, w.1 ≠ e.name

/-- It is off its queue. -/
def MGone (b t : State) (c : Nat) (e : Entry) : Prop := (t.crew c).mq = (b.crew c).mq.filter fun x => x.name != e.name

/-- It stays at its place with this progress. -/
def MGoesOn (b t : State) (c : Nat) (e : Entry) (p : Progress) : Prop :=
  (t.crew c).mq = (b.crew c).mq.map fun x => if x.name == e.name then { x with prog := p, stalled := false } else x

/-- Every array but one is as it was, and no skip token has started. -/
def OtherArrays (b t : State) (c a : Nat) : Prop :=
  (∀ x, x ≠ a → (t.crew c).stroke x = (b.crew c).stroke x) ∧ (t.crew c).skipToks = (b.crew c).skipToks

def OtherQueues (b t : State) (c q : Nat) : Prop := ∀ x, x ≠ q → queueOf t c x = queueOf b c x

/-- The exception of an M instruction that no earlier one precedes: posted for stream 3, and the stream stops. -/
def MRaises (s t : State) (c : Nat) (e : Entry) (cause info : Nat) : Prop :=
  ∃ p, (t.crew c).posted = (s.crew c).posted ++ [p] ∧ p.stream = 3 ∧ p.pc = e.pc ∧
    p.exc = { cause := cause, info := BitVec.ofNat 64 info } ∧ (t.crew c).stopped.contains 3 = true ∧
    (t.crew c).strokes = (s.crew c).strokes

/-- What a load of a plane keeps as its progress: bursts taken, then their TID and first coordinates. -/
def loadFirst (e : Entry) (x : List Byte) : List Nat := if e.prog.count = 0 then burstCoords x else e.prog.nums.drop 1

/-- The tiles of a load come in order (R273). -/
def loadInOrder (bound : Bool) (e : Entry) (d : Desc) (x : List Byte) : Prop :=
  let per := 256 / d.epr
  let at_ (i : Nat) := (burstCoords x).getD i 0
  let first (i : Nat) := (loadFirst e x).getD i 0
  at_ 1 = first 1 + e.prog.count / per ∧ at_ 2 = first 2 ∧ at_ 3 = first 3 ∧
    (bound = true ∨ at_ 0 = first 0 + e.prog.count % per)

/-- A turn of MLDS or MLDSP takes a burst into the shadow plane; the last leaves all masks ones, and MLDSP the bound of each
column. -/
def LoadsPlane (mk : StrokeFmt → Instr) (bound : Bool) : Prop :=
  ∀ (o : StrokeFmt) (s b1 b : State) (c : Nat) (e : Entry) (x : List Byte) (d : Desc), (mk o).wf = true →
    MTurn o.tok s c e → popBurst c o.q (mBegun s c o.tok e) = .ok x b1 →
    burstDesc c o.q o.f [0, 1] (if e.prog.count = 0 then none else e.prog.nums.head?) x b1 = .ok d b →
    loadInOrder bound e d x →
    let n := e.prog.count
    let v := (b.crew c).stroke o.arr
    let sh := placeBurst d x n v.shadow
    let origin := if n = 0 then (burstCoords x).getD 1 0 else v.shadow.origin
    (n + 1 < 8 * (256 / d.epr) → ∃ t, exec (mk o) s = .next t ∧ MLeaves b t c ∧ OtherArrays b t c o.arr ∧
      (t.crew c).queues = (b.crew c).queues ∧ (t.crew c).stroke o.arr = { v with shadow := { sh with origin := origin } } ∧
      MGoesOn b t c e { e.prog with begun := true, count := n + 1, nums := burstTid x :: loadFirst e x }) ∧
    (8 * (256 / d.epr) ≤ n + 1 → MRetires b c o.tok e → ∃ t, exec (mk o) s = .next t ∧ MLeaves b t c ∧
      OtherArrays b t c o.arr ∧ (t.crew c).queues = (b.crew c).queues ∧ MGone b t c e ∧
      let p := ((t.crew c).stroke o.arr).shadow
      { (t.crew c).stroke o.arr with shadow := v.shadow } = v ∧ p.vals = sh.vals ∧ p.origin = origin ∧
      p.mqv = bound ∧ (∀ j, p.mask.getD j (BitVec.allOnes 256) = BitVec.allOnes 256) ∧
      (bound = true → ∀ j < 256, p.mq.getD j 0 = columnBound (sh.vals.getD j [])))

end Sys2Proof.Machine

/-- M takes whole bursts, of 20 lines or 5 rows, from queues whose consumer is 3; MLDS and MLDSP fill the shadow plane burst
by burst, MMASK its masks, at most two ones of each four, MBND raises its bounds; MSWAP exchanges the planes; MZERO zeroes a
tile but for its tag; MWAIT changes nothing (R136, R140, R270, R273-R278, R280). The model's choice: MZERO keeps the tile's
tag and clears its reserved-code mark (log 50). -/
def Obligations.StrokePlanes : Prop :=
  LoadsPlane .mlds false ∧ LoadsPlane .mldsp true ∧
  (∀ (s : State) (c q : Nat) (x : QEntry) (rest : List QEntry),
    let v := queueOf s c q
    v.width ≠ 0 → queueRefuses v 3 v.width false = none → v.entries = x :: rest → x.p = false →
    popBurst c q s = .ok ((v.entries.take v.burst).flatMap (·.data))
      (withQueue s c q { v with entries := v.entries.drop v.burst, mid := false })) ∧
  (∀ (o : StrokeFmt) (s : State) (c : Nat) (e : Entry), (Instr.mswap o).wf = true → MTurn o.tok s c e →
    let b := mBegun s c o.tok e
    MRetires b c o.tok e → ∃ t, exec (.mswap o) s = .next t ∧ MLeaves b t c ∧ OtherArrays b t c o.arr ∧ MGone b t c e ∧
      (t.crew c).queues = (s.crew c).queues ∧
      let v := (s.crew c).stroke o.arr
      (t.crew c).stroke o.arr = { v with front := v.shadow, shadow := v.front }) ∧
  (∀ (o : StrokeFmt) (s : State) (c : Nat) (e : Entry), (Instr.mzero o).wf = true → MTurn o.tok s c e →
    let b := mBegun s c o.tok e
    MRetires b c o.tok e → ∃ t, exec (.mzero o) s = .next t ∧ MLeaves b t c ∧ OtherArrays b t c o.arr ∧ MGone b t c e ∧
      (t.crew c).queues = (s.crew c).queues ∧
      let v := (s.crew c).stroke o.arr
      { (t.crew c).stroke o.arr with tiles := v.tiles } = v ∧
      (∀ x, x ≠ o.x → ((t.crew c).stroke o.arr).tile x = v.tile x) ∧
      ((t.crew c).stroke o.arr).tile o.x =
        { c1 := (v.tile o.x).c1, c2 := (v.tile o.x).c2, c3 := (v.tile o.x).c3, origin := (v.tile o.x).origin }) ∧
  (∀ (o : StrokeFmt) (s : State) (c : Nat) (e : Entry), (Instr.mwait o).wf = true → MTurn o.tok s c e →
    let b := mBegun s c o.tok e
    MRetires b c o.tok e → ∃ t, exec (.mwait o) s = .next t ∧ MLeaves b t c ∧ MGone b t c e ∧
      (t.crew c).strokes = (s.crew c).strokes ∧ (t.crew c).queues = (s.crew c).queues) ∧
  (∀ (o : StrokeFmt) (s b : State) (c : Nat) (e : Entry) (x : List Byte), (Instr.mmask o).wf = true → MTurn o.tok s c e →
    popBurst c o.q (mBegun s c o.tok e) = .ok x b →
    let bytes := e.prog.bytes ++ burstBody x
    let v := (b.crew c).stroke o.arr
    let m (j : Nat) := leNat ((bytes.drop (32 * j)).take 32)
    (e.prog.count < 7 → ∃ t, exec (.mmask o) s = .next t ∧ MLeaves b t c ∧ (t.crew c).strokes = (b.crew c).strokes ∧
      (t.crew c).queues = (b.crew c).queues ∧
      MGoesOn b t c e { e.prog with begun := true, count := e.prog.count + 1, bytes := bytes }) ∧
    (7 ≤ e.prog.count → MRetires b c o.tok e →
      (∀ j < 256, ∀ g < 64, popCount (m j / 2 ^ (4 * g) % 16) 4 ≤ 2) →
      ∃ t, exec (.mmask o) s = .next t ∧ MLeaves b t c ∧ OtherArrays b t c o.arr ∧ MGone b t c e ∧
        (t.crew c).queues = (b.crew c).queues ∧
        { (t.crew c).stroke o.arr with
          shadow := { ((t.crew c).stroke o.arr).shadow with mask := v.shadow.mask } } = v ∧
        ∀ j < 256, ((t.crew c).stroke o.arr).shadow.mask.getD j (BitVec.allOnes 256) = BitVec.ofNat 256 (m j)) ∧
    (7 ≤ e.prog.count → earlier (b.crew c).mq e.name = [] →
      ¬(∀ j < 256, ∀ g < 64, popCount (m j / 2 ^ (4 * g) % 16) 4 ≤ 2) →
      ∃ t, exec (.mmask o) s = .next t ∧ MRaises b t c e 21 4)) ∧
  (∀ (o : StrokeFmt) (s : State) (c : Nat) (e : Entry), (Instr.mbnd o).wf = true → MTurn o.tok s c e →
    let v := (s.crew c).stroke o.arr
    (∀ b x, v.shadow.mqv = true → popBurst c o.q (mBegun s c o.tok e) = .ok x b → MRetires b c o.tok e →
      let w (j : Nat) := fieldAt (burstBody x) (4 * j) 4
      (∀ j < 256, FFmt.f32.isNaN (w j) = false ∧ (FFmt.f32.decode (w j)).lt Ex.zero = false) →
      ∃ t, exec (.mbnd o) s = .next t ∧ MLeaves b t c ∧ OtherArrays b t c o.arr ∧ MGone b t c e ∧
        (t.crew c).queues = (b.crew c).queues ∧
        { (t.crew c).stroke o.arr with shadow := { ((t.crew c).stroke o.arr).shadow with mq := v.shadow.mq } } = v ∧
        ∀ j < 256, (((t.crew c).stroke o.arr).shadow.mq.getD j 0).toNat =
          maxBound (v.shadow.mq.getD j 0).toNat (w j)) ∧
    (v.shadow.mqv = false → earlier (s.crew c).mq e.name = [] →
      ∃ t, exec (.mbnd o) s = .next t ∧ MRaises s t c e 21 6))

namespace Sys2Proof.Machine

/-- The cells of a tile after a block: an abandoned cell takes nothing, any other the block's exact sum, rounded once. -/
def blockAdded (t : XTile) (p : Plane) (blk : Nat) (rows : List (List (Option Ex))) (i : Nat) : Cell :=
  let e := t.cells.getD i {}
  if e.isGone then e else e.add (blockSum (rows.getD (i / 256) []) (p.block blk (i % 256)))

/-- Tile x of array a of a crew. -/
def tileOf (s : State) (c a x : Nat) : XTile := ((s.crew c).stroke a).tile x

/-- Of an array, only tile x may differ. -/
def OtherTiles (b t : State) (c a x : Nat) : Prop :=
  (∀ y, y ≠ x → tileOf t c a y = tileOf b c a y) ∧
  { (t.crew c).stroke a with tiles := ((b.crew c).stroke a).tiles, tsf := ((b.crew c).stroke a).tsf } =
    { (b.crew c).stroke a with tsf := ((b.crew c).stroke a).tsf }

/-- The width M uses a queue with. -/
def mWidth (v : Queue) : Nat := if v.width = 0 then 1 else v.width

/-- Queue q can take an entry from M now, and after the push holds it at its end. -/
def mPushes (s : State) (c q : Nat) : Prop :=
  let v := queueOf s c q
  queueRefuses v 3 (mWidth v) true = none ∧ v.isFull = false ∧ v.skip = false ∧ v.whole = false ∧
    (v.brq = true → (s.crew c).skipToks = [])

def mPushed (b t : State) (c q : Nat) (x : QEntry) : Prop :=
  queueOf t c q = { queueOf b c q with entries := (queueOf b c q).entries ++ [x] } ∧ OtherQueues b t c q

/-- The result of the last turn of a drain: its TSF entry holds the burst's flags and what the tile held, and CLR zeroes the
tile but for its tag (R282, R285). -/
def Drained (b t : State) (c : Nat) (o : StrokeFmt) (e : Entry) (fl : Nat) : Prop :=
  ((t.crew c).stroke o.arr).tsf.getD e.sidx 0 = BitVec.ofNat 32 (tsfWord o (tileOf b c o.arr o.x) fl) ∧
  (∀ i, i ≠ e.sidx → ((t.crew c).stroke o.arr).tsf.find? i = ((b.crew c).stroke o.arr).tsf.find? i) ∧
  tileOf t c o.arr o.x = if o.h = 1 then (tileOf b c o.arr o.x).zeroed else tileOf b c o.arr o.x

/-- A turn of a drain pushes one entry of the burst it has reached; after the last entry of the last burst it is done. -/
def Drains (mk : StrokeFmt → Instr) (raw : Bool) : Prop :=
  ∀ (o : StrokeFmt) (s b : State) (c : Nat) (e : Entry) (d : Desc), (mk o).wf = true → MTurn o.tok s c e →
    let p := e.prog
    let tile := tileOf s c o.arr o.x
    drainDesc c o.f (e.sval.toNat % 4096) tile.origin (p.count == 0 && p.pos == 0) (mBegun s c o.tok e) = .ok d b →
    (b.crew c).stroke o.arr = (s.crew c).stroke o.arr → mPushes b c o.q →
    let bytes := drainBurst o e d tile raw p.count
    let es := burstEntries (mWidth (queueOf b c o.q)) bytes.1
    let fl := orf p.events bytes.2
    (p.pos + 1 < es.length → ∃ t, exec (mk o) s = .next t ∧ MLeaves b t c ∧ mPushed b t c o.q (es.getD p.pos { data := [] }) ∧
      (t.crew c).strokes = (b.crew c).strokes ∧ MGoesOn b t c e { p with begun := true, pos := p.pos + 1 }) ∧
    (p.pos + 1 = es.length → p.count + 1 < 256 / d.epr → ∃ t, exec (mk o) s = .next t ∧ MLeaves b t c ∧
      mPushed b t c o.q (es.getD p.pos { data := [] }) ∧ (t.crew c).strokes = (b.crew c).strokes ∧
      MGoesOn b t c e { p with begun := true, pos := 0, count := p.count + 1, events := fl }) ∧
    (p.pos + 1 = es.length → 256 / d.epr ≤ p.count + 1 → MRetires b c o.tok e → ∃ t, exec (mk o) s = .next t ∧
      MLeaves b t c ∧ mPushed b t c o.q (es.getD p.pos { data := [] }) ∧ OtherArrays b t c o.arr ∧
      OtherTiles b t c o.arr o.x ∧ Drained b t c o e fl ∧ MGone b t c e)

/-- Tile u is tile t after np positions of nb: at the last its live cells become complete (R289). -/
def ReachedTile (t u : XTile) (nb np : Nat) : Prop :=
  u.np = min nb np ∧ { u with np := t.np, cells := t.cells } = t ∧
    ∀ i < 8192, u.cells.getD i {} =
      let x := t.cells.getD i {}
      if nb ≤ np ∧ x.isGone = false then { x with st := .complete } else x

/-- The progress of an MVER, with the bursts it will pop known (R289). -/
def verProg (t0 : XTile) (d : Desc) (e : Entry) : Progress :=
  if e.prog.events = 0 then { e.prog with events := verBursts d (t0.np - e.prog.pos) + 1 } else e.prog

/-- MVER on a settled tile: it discards what it would sum. A burst in hand is passed block by block; the next one is discarded
whole, a burst that stands in the queue or went by with its header kept having the checks of any other; on an empty queue the
skip of R144 begins, and M waits while it lasts (R288, R289, R293). -/
def SettledTile (o : StrokeFmt) (s b : State) (c : Nat) (e : Entry) (d : Desc) : Prop :=
  let t0 := tileOf s c o.arr o.x
  let p := verProg t0 d e
  let v := queueOf b c o.q
  (p.pos < p.count * (d.epr / 32) → ∃ t, exec (.mver o) s = .next t ∧ MLeaves b t c ∧ OtherArrays b t c o.arr ∧
    OtherTiles b t c o.arr o.x ∧ (t.crew c).queues = (b.crew c).queues ∧
    ReachedTile t0 (tileOf t c o.arr o.x) d.nb (t0.np + 1) ∧ MGoesOn b t c e { p with begun := true, pos := p.pos + 1 }) ∧
  (p.count * (d.epr / 32) ≤ p.pos → p.count + 1 < p.events → queueRefuses v 3 (mWidth v) false = none →
    (v.skip = true → exec (.mver o) s = .next (mBegun s c o.tok e)) ∧
    (v.skip = false → v.watch = none → v.entries = [] → ∃ t, exec (.mver o) s = .next t ∧ MLeaves b t c ∧
      (t.crew c).strokes = (b.crew c).strokes ∧ OtherQueues b t c o.q ∧
      queueOf t c o.q = { v with part := [], skip := true, mid := false, disc := satAdd v.disc v.part.length
                                 watch := some ((v.part.head?.map (·.data)).getD []) } ∧
      MGoesOn b t c e { e.prog with begun := true }) ∧
    (∀ x v', v.skip = false →
      (v.watch = some x ∧ v' = { v with watch := none } ∨
       v.watch = none ∧ v.width ≠ 0 ∧ (∃ h r, v.entries = h :: r ∧ h.p = false) ∧
        x = (v.entries.take v.burst).flatMap (·.data) ∧
        v' = { v with entries := v.entries.drop v.burst, mid := false, disc := satAdd v.disc v.burst }) →
      let b' := withQueue b c o.q v'
      (x = [] → ∃ t, exec (.mver o) s = .next t ∧ MLeaves b' t c ∧ OtherTiles b' t c o.arr o.x ∧
        (t.crew c).queues = (b'.crew c).queues ∧ ReachedTile t0 (tileOf t c o.arr o.x) d.nb (t0.np + d.epr / 32) ∧
        MGoesOn b' t c e { p with begun := true, count := p.count + 1, pos := (p.count + 1) * (d.epr / 32) }) ∧
      (∀ d' b'', x ≠ [] → headerDesc c o.f [1] (some t0.vtid) x b' = .ok (.ok d') b'' →
        (b''.crew c).stroke o.arr = (b.crew c).stroke o.arr →
        let cs := burstCoords x
        let first := if p.nums = [] then cs else p.nums.drop 1
        cs.getD 0 0 * d.epr = 32 * t0.np → cs.drop 1 = first.drop 1 →
        let t1 := if p.count = 0 then t0.tagged cs ((b''.crew c).stroke o.arr).front.origin else t0
        ∃ t, exec (.mver o) s = .next t ∧ MLeaves b'' t c ∧ OtherTiles b'' t c o.arr o.x ∧
          (t.crew c).queues = (b''.crew c).queues ∧ ReachedTile t1 (tileOf t c o.arr o.x) d.nb (t0.np + d.epr / 32) ∧
          MGoesOn b'' t c e { p with
            begun := true, count := p.count + 1, pos := (p.count + 1) * (d.epr / 32), nums := burstTid x :: first }) ∧
      (∀ exc b'', x ≠ [] → headerDesc c o.f [1] (some t0.vtid) x b' = .ok (.error exc) b'' →
        earlier (b''.crew c).mq e.name = [] → ∃ t q, exec (.mver o) s = .next t ∧
        (t.crew c).posted = (b''.crew c).posted ++ [q] ∧ q.stream = 3 ∧ q.pc = e.pc ∧ q.exc = exc ∧
        (t.crew c).strokes = (b''.crew c).strokes) ∧
      (∀ d' b'', x ≠ [] → headerDesc c o.f [1] (some t0.vtid) x b' = .ok (.ok d') b'' →
        let cs := burstCoords x
        let first := if p.nums = [] then cs else p.nums.drop 1
        cs.getD 0 0 * d.epr ≠ 32 * t0.np ∨ cs.drop 1 ≠ first.drop 1 → earlier (b''.crew c).mq e.name = [] →
        ∃ t, exec (.mver o) s = .next t ∧ MRaises b'' t c e 21 2)))

end Sys2Proof.Machine

/-- MRUN and MVER take streamed bursts and add them block by block, each block's exact sum rounded once into each cell that
is not abandoned; after each stored position but the last MVER's umpire abandons the cells its tests decide, with the reason,
the verdict and the number of positions, and the last completes the others. On a settled tile MVER discards its bursts, which
it still checks; that a burst not yet there is watched as it goes by is the model's choice (log 88). MDRAIN and MDRAINV push the tile as bursts of
codes or of f32 words with SCRs, then write their TSF entry; MSTAT pushes the verdict record (R70-R73, R277, R282-R293). -/
def Obligations.StrokeSumsAndDrains : Prop :=
  (∀ (o : StrokeFmt) (s b1 b : State) (c : Nat) (e : Entry) (x : List Byte) (d : Desc), (Instr.mrun o).wf = true →
    MTurn o.tok s c e → e.prog.count = 0 → popBurst c o.q (mBegun s c o.tok e) = .ok x b1 →
    burstDesc c o.q o.f [0, 1] none x b1 = .ok d b →
    ∃ t, exec (.mrun o) s = .next t ∧ MLeaves b t c ∧ OtherArrays b t c o.arr ∧ OtherTiles b t c o.arr o.x ∧
      (t.crew c).queues = (b.crew c).queues ∧
      tileOf t c o.arr o.x = (tileOf b c o.arr o.x).tagged (burstCoords x) ((b.crew c).stroke o.arr).front.origin ∧
      MGoesOn b t c e { e.prog with begun := true, count := 1, nums := burstTid x :: burstCoords x, bytes := e.prog.bytes ++ x }) ∧
  (∀ (o : StrokeFmt) (s b1 b : State) (c : Nat) (e : Entry) (d : Desc), (Instr.mrun o).wf = true → MTurn o.tok s c e →
    let p := e.prog
    p.count ≠ 0 → knownDesc c (p.nums.headD 0) (mBegun s c o.tok e) = .ok d b1 → 32 * p.pos + 32 ≤ p.count * d.epr →
    blockCheck (b1.crew c).cl o.arr b1 = .ok true b →
    let tile := tileOf b c o.arr o.x
    let result (t : State) : Prop := MLeaves b t c ∧ OtherArrays b t c o.arr ∧ OtherTiles b t c o.arr o.x ∧
      (t.crew c).queues = (b.crew c).queues ∧
      (∀ i < 8192, (tileOf t c o.arr o.x).cells.getD i {} =
        blockAdded tile ((b.crew c).stroke o.arr).front p.pos (blockRows d p p.pos) i) ∧
      (tileOf t c o.arr o.x).rsv = (tile.rsv || blockReserved d p p.pos tile) ∧
      { tileOf t c o.arr o.x with cells := tile.cells, rsv := tile.rsv } = tile
    (p.pos ≠ 7 → ∃ t, exec (.mrun o) s = .next t ∧ result t ∧ MGoesOn b t c e { p with begun := true, pos := p.pos + 1 }) ∧
    (p.pos = 7 → MRetires b c o.tok e → ∃ t, exec (.mrun o) s = .next t ∧ result t ∧ MGone b t c e)) ∧
  (∀ (o : StrokeFmt) (s b1 b : State) (c : Nat) (e : Entry) (x : List Byte) (d : Desc), (Instr.mver o).wf = true →
    MTurn o.tok s c e → e.prog.count = 0 →
    let t0 := tileOf s c o.arr o.x
    let cs := burstCoords x
    ((s.crew c).stroke o.arr).front.mqv = true → t0.np = 0 → popBurst c o.q (mBegun s c o.tok e) = .ok x b1 →
    burstDesc c o.q o.f [1] none x b1 = .ok d b → (b.crew c).stroke o.arr = (s.crew c).stroke o.arr →
    cs.getD 0 0 * d.epr = 0 → ∃ t, exec (.mver o) s = .next t ∧ MLeaves b t c ∧ OtherTiles b t c o.arr o.x ∧
      (t.crew c).queues = (b.crew c).queues ∧
      tileOf t c o.arr o.x = { t0 with vtid := burstTid x, c1 := cs.getD 1 0, c2 := cs.getD 2 0, c3 := cs.getD 3 0
                                       origin := ((s.crew c).stroke o.arr).front.origin } ∧
      MGoesOn b t c e { e.prog with begun := true, count := 1, nums := burstTid x :: cs, bytes := e.prog.bytes ++ x }) ∧
  (∀ (o : StrokeFmt) (s b1 b2 b : State) (c : Nat) (e : Entry) (d : Desc) (tbs : List (Ex × Bool)),
    (Instr.mver o).wf = true → MTurn o.tok s c e →
    let t0 := tileOf s c o.arr o.x
    let p := verProg t0 d e
    ((s.crew c).stroke o.arr).front.mqv = true → ¬(t0.np = 0 ∧ p.count = 0) →
    knownDesc c t0.vtid (mBegun s c o.tok e) = .ok d b1 → p.pos < p.count * (d.epr / 32) → t0.np < d.nb →
    t0.settled = false → blockCheck (b1.crew c).cl o.arr b1 = .ok true b2 →
    (t0.np + 1 < d.nb → tailBounds c d t0.c1 (t0.np + 1) (List.range 32) b2 = .ok tbs b →
      tileOf b c o.arr o.x = t0 → tileOf b2 c o.arr o.x = t0 → ((b.crew c).stroke o.arr) = ((b2.crew c).stroke o.arr) →
      let pl := ((b.crew c).stroke o.arr).front
      ∃ t, exec (.mver o) s = .next t ∧ MLeaves b t c ∧ OtherTiles b t c o.arr o.x ∧
        (tileOf t c o.arr o.x).np = t0.np + 1 ∧
        (∀ i < 8192, (tileOf t c o.arr o.x).cells.getD i {} =
          let x := blockAdded t0 pl p.pos (blockRows d p p.pos) i
          if x.isGone ∨ inert pl d t0.c1 i then x
          else
            let tb := (tbs.getD (i / 256) (Ex.zero, false)).1
            let mq := FFmt.f32.decode (pl.mq.getD (i % 256) 0).toNat
            let bound := if tb.isInf || mq.isInf then Ex.inf false else rup (tb.mul mq)
            match verdict o.p (FFmt.f32.decode x.acc.toNat) (FFmt.f32.decode x.err.toNat) bound
              (FFmt.f32.decode ((b.crew c).thr o.h)) with
            | some v => { x with st := .gone o.p v (t0.np + 1) }
            | none => x) ∧
        (tileOf t c o.arr o.x).settled = isSettled pl d t0.c1 (tileOf t c o.arr o.x) ∧
        ((tileOf t c o.arr o.x).settled = true → (branchQueue (b.crew c)).isSome →
          (t.crew c).skipToks = (b.crew c).skipToks ++
            [(BitVec.ofNat 64 (o.x * 2 ^ 9 + o.arr * 2 ^ 8 + o.q), pushWaits (b.crew c))]) ∧
        MGoesOn b t c e { p with begun := true, pos := p.pos + 1 }) ∧
    (t0.np + 1 = d.nb → tileOf b2 c o.arr o.x = t0 →
      ∃ t, exec (.mver o) s = .next t ∧ MLeaves b2 t c ∧ OtherTiles b2 t c o.arr o.x ∧
        (tileOf t c o.arr o.x).np = t0.np + 1 ∧
        (∀ i < 8192, (tileOf t c o.arr o.x).cells.getD i {} =
          let x := blockAdded t0 ((b2.crew c).stroke o.arr).front p.pos (blockRows d p p.pos) i
          if x.isGone then x else { x with st := .complete }) ∧
        MGoesOn b2 t c e { p with begun := true, pos := p.pos + 1 })) ∧
  (∀ (o : StrokeFmt) (s b : State) (c : Nat) (e : Entry) (d : Desc), (Instr.mver o).wf = true → MTurn o.tok s c e →
    let t0 := tileOf s c o.arr o.x
    let p := verProg t0 d e
    ((s.crew c).stroke o.arr).front.mqv = true → p.count ≠ 0 →
    knownDesc c t0.vtid (mBegun s c o.tok e) = .ok d b → (p.count * (d.epr / 32) ≤ p.pos ∨ d.nb ≤ t0.np) →
    p.events ≤ p.count + 1 → MRetires b c o.tok e →
    ∃ t, exec (.mver o) s = .next t ∧ MLeaves b t c ∧ MGone b t c e ∧ (t.crew c).strokes = (b.crew c).strokes ∧
      (t.crew c).queues = (b.crew c).queues) ∧
  (∀ (o : StrokeFmt) (s b : State) (c : Nat) (e : Entry) (d : Desc), (Instr.mver o).wf = true → MTurn o.tok s c e →
    let t0 := tileOf s c o.arr o.x
    (e.prog.count = 0 → ((s.crew c).stroke o.arr).front.mqv = true) → ¬(t0.np = 0 ∧ e.prog.count = 0) →
    knownDesc c t0.vtid (mBegun s c o.tok e) = .ok d b → t0.settled = true → t0.np < d.nb →
    (b.crew c).stroke o.arr = (s.crew c).stroke o.arr → SettledTile o s b c e d) ∧
  (∀ (o : StrokeFmt) (s : State) (c : Nat) (e : Entry), (Instr.mver o).wf = true → MTurn o.tok s c e →
    ((s.crew c).stroke o.arr).front.mqv = false → e.prog.count = 0 → earlier (s.crew c).mq e.name = [] →
    ∃ t, exec (.mver o) s = .next t ∧ MRaises s t c e 21 6) ∧
  Drains .mdrain false ∧ Drains .mdrainv true ∧
  (∀ (o : StrokeFmt) (s : State) (c : Nat) (e : Entry), (Instr.mstat o).wf = true → MTurn o.tok s c e →
    mPushes s c o.q →
    let b := mBegun s c o.tok e
    let p := e.prog
    let tile := tileOf s c o.arr o.x
    let es := burstEntries (mWidth (queueOf s c o.q)) (statBurst tile)
    (p.pos + 1 < es.length → ∃ t, exec (.mstat o) s = .next t ∧ MLeaves b t c ∧
      mPushed b t c o.q (es.getD p.pos { data := [] }) ∧ (t.crew c).strokes = (b.crew c).strokes ∧
      MGoesOn b t c e { p with begun := true, pos := p.pos + 1 }) ∧
    (p.pos + 1 = es.length → MRetires b c o.tok e → ∃ t, exec (.mstat o) s = .next t ∧ MLeaves b t c ∧
      mPushed b t c o.q (es.getD p.pos { data := [] }) ∧ (t.crew c).strokes = (b.crew c).strokes ∧ MGone b t c e))

/-! ### The L and W streams (R100-R102, R324-R327, R471) -/

namespace Sys2Proof.Machine

/-- The head of an L or W queue can have a turn: it has not finished, each token it pops is there or already taken, and the
half's present phase is the one it was handed over in. -/
structure AgTurn (o : LWFmt) (s : State) (c : Nat) (e : Entry) : Prop where
  head : streamHead s s.cur = some (c, laneStream s, e)
  going : e.finished = false
  fresh : e.pushed = 0
  pops : e.popped = true ∨ ∀ f ∈ (tokenFifos (laneStream s) o.tok).1, tokenCount (s.crew c) f ≠ 0
  phase : ∀ p ∈ (s.view (.half c)).past, p.upto ≤ e.name

/-- The state in which its turn runs: its tokens taken. -/
def agBegun (o : LWFmt) (s : State) (c : Nat) (e : Entry) : State :=
  let st := laneStream s
  updEntry c st e.name (fun e => { e with popped := true })
    (s.setCrew c ((if e.popped then [] else (tokenFifos st o.tok).1).foldl takeToken (s.crew c)))

/-- The tokens it pushes have room and no write of a control register waits on it. -/
def AgRetires (o : LWFmt) (b : State) (c : Nat) (e : Entry) : Prop :=
  (∀ f ∈ (tokenFifos (laneStream b) o.tok).2, tokenCount (b.crew c) f < 8) ∧ ∀ w ∈ (b.crew c).vwrites, w.1 ≠ e.name

/-- Only the queues, slots, banks, tokens and command queues of one crew have changed. -/
structure AgLeaves (b t : State) (c : Nat) : Prop where
  rest : { t with crews := b.crews } = b
  crews : ∀ x, x ≠ c → t.crew x = b.crew x
  kept : { t.crew c with
    queues := (b.crew c).queues, tokens := (b.crew c).tokens, lq := (b.crew c).lq, wq := (b.crew c).wq
    lslots := (b.crew c).lslots, wslots := (b.crew c).wslots, banks := (b.crew c).banks, idle := (b.crew c).idle } = b.crew c

/-- The stream's queue without the entry, or with its progress. -/
def AgGone (b t : State) (c : Nat) (e : Entry) : Prop :=
  streamQueue (t.crew c) (laneStream b) = (streamQueue (b.crew c) (laneStream b)).filter fun x => x.name != e.name

def AgGoesOn (b t : State) (c : Nat) (e : Entry) (p : Progress) : Prop :=
  streamQueue (t.crew c) (laneStream b) = (streamQueue (b.crew c) (laneStream b)).map fun x =>
    if x.name == e.name then { x with prog := p, stalled := false } else x

/-- Slots, and banks' tokens, are as they were. -/
def SameSlots (b t : State) (c : Nat) : Prop :=
  (t.crew c).lslots = (b.crew c).lslots ∧ (t.crew c).wslots = (b.crew c).wslots ∧ (t.crew c).banks = (b.crew c).banks

/-- Queue q can take an entry from a stream now. -/
def agRoom (s : State) (c q st width : Nat) : Prop :=
  let v := queueOf s c q
  queueRefuses v st width true = none ∧ v.isFull = false ∧ v.skip = false ∧ v.whole = false ∧
    (v.brq = true → (s.crew c).skipToks = [])

/-- A stream's exception: posted with its pointer, and the stream stops. -/
def AgRaises (s t : State) (c : Nat) (e : Entry) (x : Exc) : Prop :=
  (t.crew c).posted = (s.crew c).posted ++ [{ stream := laneStream s, exc := x, pc := e.pc, resume := e.pc }] ∧
  (t.crew c).stopped.contains (laneStream s) = true

/-- AGRUN with this slot has a turn in which its derived edges are clear: the state b in which it acts (R126, R326). -/
structure Runs (o : LWFmt) (s b : State) (c : Nat) (e : Entry) (a : AgDesc) : Prop where
  wf : (Instr.agrun o).wf = true
  turn : AgTurn o s c e
  slot : ∃ bs, (agSlots (s.crew c) (laneStream s)).find? o.d = some bs ∧ AgDesc.ofBytes bs = a
  edges : awaitEdges (some c) e.name (entryFeet (agBegun o s c e) c (laneStream s == 5) e) (agBegun o s c e) = .ok () b
  lane : laneStream b = laneStream s

/-- L reads the next tile of its box into a burst: scales, then the tile, under the header's TID and coordinates. One outside
the pins raises cause 9 at the tile's address, a scale of 1,024 or above cause 8; a lasting error gives a burst to be poisoned
(R138, R326, R471). -/
def ReadsTile (o : LWFmt) : Prop :=
  ∀ (s b1 b b2 : State) (c : Nat) (e : Entry) (a : AgDesc) (d : Desc) (r : TileRead), Runs o s b1 c e a →
    let v := queueOf b1 c o.q
    let p := e.prog
    let cs := a.box.coords p.count
    laneStream s = 4 → a.kind = 0 → v.width ≠ 0 → queueRefuses v 4 v.width true = none → p.bytes = [] →
    agDesc c a.tid false b1 = .ok d b → readTile (.half c) (crewPins c) d cs b = .ok r b2 → laneStream b2 = 4 →
    (∀ body sc, r = .ok body sc → ∃ t, exec (.agrun o) s = .next t ∧ AgLeaves b2 t c ∧ SameSlots b2 t c ∧
      (t.crew c).queues = (b2.crew c).queues ∧
      AgGoesOn b2 t c e { p with bytes := burstBytes a.tid (d.efmt == 13) cs sc body, nums := [0] }) ∧
    (r = .layout → ∃ t, exec (.agrun o) s = .next t ∧
      AgRaises (keepErrors (agBegun o s c e) b2) t c e { cause := 8, info := BitVec.ofNat 64 a.tid }) ∧
    (∀ why, r = .bad why → why ≠ .ecc → ∃ t, exec (.agrun o) s = .next t ∧
      AgRaises (keepErrors (agBegun o s c e) b2) t c e { cause := 9, addr := BitVec.ofNat 64 (d.tile cs) }) ∧
    (r = .bad .ecc → ∃ t sc body, exec (.agrun o) s = .next t ∧
      AgGoesOn b2 t c e { p with bytes := burstBytes a.tid (d.efmt == 13) cs sc body, nums := [1] })

/-- W takes a group entry by entry; with its tail it writes the tile of the header. A poisoned entry raises cause 20; a group
of another length, a header of another form, TID or scale flag, or a coordinate outside the box cause 7; a tile outside the
pins cause 9. The group then counts as taken, and what is left of it is discarded (R140, R144, R326). -/
def WritesTile (o : LWFmt) : Prop :=
  ∀ (s b1 b : State) (c : Nat) (e : Entry) (a : AgDesc) (d : Desc), Runs o s b1 c e a →
    let v := queueOf b c o.q
    let p := e.prog
    let n := p.pos + 1
    let want := 1280 / entryBytes v.width
    let next : Progress := { p with pos := 0, count := p.count + 1, bytes := [] }
    laneStream s = 5 → a.kind = 0 → queueOf b1 c o.q = v → v.width ≠ 0 → queueRefuses v 5 v.width false = none →
    agDesc c a.tid true b1 = .ok d b → laneStream b = 5 →
    (a.box.count ≤ p.count → AgRetires o b c e → ∃ t, exec (.agrun o) s = .next t ∧ AgLeaves b t c ∧ SameSlots b t c ∧
      AgGone b t c e ∧ (t.crew c).queues = (b.crew c).queues) ∧
    (∀ x rest, p.count < a.box.count → v.entries = x :: rest →
      let b' := withQueue b c o.q (v.popped x rest)
      let bs := p.bytes ++ x.data
      let cs := burstCoords bs
      let fits := n = want ∧ headerOk bs = true ∧ burstTid bs = a.tid ∧ burstSc bs = (d.efmt == 13) ∧ a.box.contains cs = true
      let fails (f : State) (t : State) (exc : Exc) : Prop := AgRaises f t c e exc ∧ OtherQueues f t c o.q ∧
        queueOf t c o.q = (if x.t then (v.popped x rest).discard n else ((v.popped x rest).discard n).skipTail) ∧
        AgGoesOn f t c e next
      (x.p = true → ∃ t, exec (.agrun o) s = .next t ∧ fails b' t { cause := 20, info := BitVec.ofNat 64 o.q }) ∧
      (x.p = false → x.t = false → n < want → ∃ t, exec (.agrun o) s = .next t ∧ AgLeaves b' t c ∧ SameSlots b' t c ∧
        (t.crew c).queues = (b'.crew c).queues ∧ AgGoesOn b' t c e { p with pos := n, bytes := bs }) ∧
      (x.p = false → (if x.t then ¬fits else want ≤ n) → ∃ t, exec (.agrun o) s = .next t ∧
        fails b' t { cause := 7, info := BitVec.ofNat 64 a.tid }) ∧
      (∀ b2, x.p = false → x.t = true → fits →
        writeTile (.half c) (crewPins c) d cs (burstBody bs) (burstScales bs) b' = .ok (.ok ()) b2 → laneStream b2 = 5 →
        (p.count + 1 ≠ a.box.count → ∃ t, exec (.agrun o) s = .next t ∧ AgLeaves b2 t c ∧ SameSlots b2 t c ∧
          (t.crew c).queues = (b2.crew c).queues ∧ AgGoesOn b2 t c e next) ∧
        (p.count + 1 = a.box.count → AgRetires o b2 c e → ∃ t, exec (.agrun o) s = .next t ∧ AgLeaves b2 t c ∧
          SameSlots b2 t c ∧ (t.crew c).queues = (b2.crew c).queues ∧ AgGone b2 t c e)) ∧
      (∀ b2 why, x.p = false → x.t = true → fits →
        writeTile (.half c) (crewPins c) d cs (burstBody bs) (burstScales bs) b' = .ok (.error why) b2 →
        laneStream b2 = 5 → queueOf b2 c o.q = v.popped x rest →
        ∃ t, exec (.agrun o) s = .next t ∧ fails b2 t { cause := 9, addr := BitVec.ofNat 64 (d.tile cs) }))

/-- A BANK slot moves entries between its queue and its bank, from OFFSET on, H on the first and T on the last; while the bank
has a token it waits; a length that is no multiple of the width raises cause 7 (R98, R100-R102, R326). -/
def MovesBank (o : LWFmt) : Prop :=
  ∀ (s b : State) (c : Nat) (e : Entry) (a : AgDesc), Runs o s b c e a → a.kind = 1 →
    let st := laneStream s
    let v := queueOf b c o.q
    let n := entryBytes v.width
    let m := a.length / n
    let i := e.prog.count
    let base := a.bank * 524288 + a.offset + n * i
    queueRefuses v st v.width (st == 4) = none →
    (a.length % n ≠ 0 → ∃ t, exec (.agrun o) s = .next t ∧ AgRaises s t c e { cause := 7 } ∧ SameSlots s t c) ∧
    (a.length % n = 0 → m ≤ i → AgRetires o b c e → ∃ t, exec (.agrun o) s = .next t ∧ AgLeaves b t c ∧ SameSlots b t c ∧
      AgGone b t c e ∧ (t.crew c).queues = (b.crew c).queues) ∧
    (a.length % n = 0 → i < m → (b.crew c).banks.getD a.bank 0 ≠ 0 → exec (.agrun o) s = .next (agBegun o s c e)) ∧
    (a.length % n = 0 → i < m → (b.crew c).banks.getD a.bank 0 = 0 →
      (st = 4 → (b.crew c).spBad = [] → agRoom b c o.q 4 v.width →
        let pushed (t : State) : Prop := AgLeaves b t c ∧ SameSlots b t c ∧ OtherQueues b t c o.q ∧
          queueOf t c o.q = { v with entries := v.entries ++ [{
            data := (List.range n).map fun j => bankByte (b.crew c) (base + j), h := decide (i = 0), t := decide (i + 1 = m) }] }
        (i + 1 ≠ m → ∃ t, exec (.agrun o) s = .next t ∧ pushed t ∧ AgGoesOn b t c e { e.prog with count := i + 1 }) ∧
        (i + 1 = m → AgRetires o b c e → ∃ t, exec (.agrun o) s = .next t ∧ pushed t ∧ AgGone b t c e)) ∧
      (∀ x rest, st = 5 → v.entries = x :: rest → x.p = false →
        let b' := (withQueue b c o.q (v.popped x rest)).setCrew c
          (bankWrite ((withQueue b c o.q (v.popped x rest)).crew c) a.bank (a.offset + n * i) x.data)
        let stored (t : State) : Prop := AgLeaves b' t c ∧ SameSlots b' t c ∧ (t.crew c).queues = (b'.crew c).queues ∧
          (∀ j < x.data.length, bankByte (t.crew c) (base + j) = x.data.getD j 0) ∧
          (∀ y, (∀ j < x.data.length, y ≠ base + j) → bankByte (t.crew c) y = bankByte (b.crew c) y)
        (i + 1 ≠ m → ∃ t, exec (.agrun o) s = .next t ∧ stored t ∧ AgGoesOn b' t c e { e.prog with count := i + 1 }) ∧
        (i + 1 = m → AgRetires o b' c e → ∃ t, exec (.agrun o) s = .next t ∧ stored t ∧ AgGone b' t c e)) ∧
      (∀ x rest, st = 5 → v.entries = x :: rest → x.p = true → ∃ t, exec (.agrun o) s = .next t ∧
        AgRaises b t c e { cause := 20, info := BitVec.ofNat 64 o.q } ∧ (t.crew c).sp = (b.crew c).sp ∧
        queueOf t c o.q = (v.popped x rest).discard 1))

end Sys2Proof.Machine

/-- AGDEF reads and checks a descriptor and keeps it in its slot; AGPUT and AGMARK push an entry with their marks, AGIDX the
word of a tile, T on the last; AGRUN reads a tile into a burst and pushes it entry by entry, writes tiles from groups of
entries, moves entries into and out of a bank, or drops entries up to its tails; AGBANK gives a bank to a section, and it and
AGTAKE wait until the bank is free. A misaligned address, an empty slot and a bank past the crew's raise causes 4, 6 and 7
(R98, R100-R102, R324-R327). The model's choices: what a bank's byte not yet written reads as (log 8), and the reading of a
spilled node's descriptors through its code pin (log 21). -/
def Obligations.AddressGenerators : Prop :=
  (∀ (o : LWFmt) (s b1 b : State) (c : Nat) (e : Entry) (bs : List Byte), (Instr.agdef o).wf = true → AgTurn o s c e →
    e.sval.toNat % 64 = 0 →
    readPinned (.half c)
      (agdefPins (s.crew c) ((s.launches.getD (s.crew c).launch default).cards.getD (s.crew c).card default).lodor c)
      e.sval.toNat 64 (agBegun o s c e) = .ok (.ok bs) b1 →
    agCheck c bs (laneStream s == 5) b1 = .ok .ok b → laneStream b = laneStream s → AgRetires o b c e →
    ∃ t, exec (.agdef o) s = .next t ∧ AgLeaves b t c ∧ AgGone b t c e ∧ (t.crew c).queues = (b.crew c).queues ∧
      (t.crew c).banks = (b.crew c).banks ∧
      (agSlots (t.crew c) (laneStream s)).find? o.d = some bs ∧
      (∀ d, d ≠ o.d → (agSlots (t.crew c) (laneStream s)).find? d = (agSlots (b.crew c) (laneStream s)).find? d) ∧
      agSlots (t.crew c) (9 - laneStream s) = agSlots (b.crew c) (9 - laneStream s)) ∧
  (∀ (o : LWFmt) (s b1 b : State) (c : Nat) (e : Entry) (bs : List Byte) (r : AgCheck), (Instr.agdef o).wf = true →
    AgTurn o s c e → e.sval.toNat % 64 = 0 →
    let tid := (AgDesc.ofBytes bs).tid
    readPinned (.half c)
      (agdefPins (s.crew c) ((s.launches.getD (s.crew c).launch default).cards.getD (s.crew c).card default).lodor c)
      e.sval.toNat 64 (agBegun o s c e) = .ok (.ok bs) b1 →
    agCheck c bs (laneStream s == 5) b1 = .ok r b →
    let raises (x : Exc) : Prop := ∃ t, exec (.agdef o) s = .next t ∧ AgRaises (keepErrors (agBegun o s c e) b) t c e x
    (r = .descriptor → raises { cause := 6, info := BitVec.ofNat 64 tid }) ∧
    (r = .bounds → raises { cause := 7, info := BitVec.ofNat 64 tid }) ∧
    (∀ va, r = .refused va → raises { cause := 9, addr := BitVec.ofNat 64 va })) ∧
  (∀ o : LWFmt, ReadsTile o ∧ WritesTile o ∧ MovesBank o) ∧
  (∀ (o : LWFmt) (s : State) (c : Nat) (e : Entry), (Instr.agdef o).wf = true → AgTurn o s c e → e.sval.toNat % 64 ≠ 0 →
    ∃ t, exec (.agdef o) s = .next t ∧ AgRaises s t c e { cause := 4, addr := e.sval, info := 64 } ∧ SameSlots s t c) ∧
  (∀ (o : LWFmt) (s : State) (c : Nat) (e : Entry), (Instr.agput o).wf = true → AgTurn o s c e →
    let b := agBegun o s c e
    agRoom s c o.q (laneStream s) 0 → AgRetires o b c e →
    ∃ t, exec (.agput o) s = .next t ∧ AgLeaves b t c ∧ AgGone b t c e ∧ SameSlots b t c ∧ OtherQueues b t c o.q ∧
      queueOf t c o.q = { queueOf s c o.q with entries := (queueOf s c o.q).entries ++
        [{ data := leBytes 8 e.sval.toNat, h := o.b / 2 == 1, t := o.b % 2 == 1 }] }) ∧
  (∀ (o : LWFmt) (s : State) (c : Nat) (e : Entry), (Instr.agmark o).wf = true → AgTurn o s c e →
    let b := agBegun o s c e
    agRoom s c o.q (laneStream s) (queueOf s c o.q).width → AgRetires o b c e →
    ∃ t, exec (.agmark o) s = .next t ∧ AgLeaves b t c ∧ AgGone b t c e ∧ SameSlots b t c ∧ OtherQueues b t c o.q ∧
      queueOf t c o.q = { queueOf s c o.q with entries := (queueOf s c o.q).entries ++
        [{ data := List.replicate (entryBytes (queueOf s c o.q).width) 0, h := o.b / 2 == 1, t := o.b % 2 == 1 }] }) ∧
  (∀ (o : LWFmt) (s : State) (c : Nat) (e : Entry) (bs : List Byte), (Instr.agidx o).wf = true → AgTurn o s c e →
    (agSlots (s.crew c) (laneStream s)).find? o.d = some bs →
    let a := AgDesc.ofBytes bs
    let b := agBegun o s c e
    let i := e.prog.count
    a.kind = 0 → (∀ n < 4, a.box.extent n ≤ 16384) → agRoom s c o.q (laneStream s) 0 →
    let pushed (t : State) : Prop := AgLeaves b t c ∧ SameSlots b t c ∧ OtherQueues b t c o.q ∧
      queueOf t c o.q = { queueOf s c o.q with entries := (queueOf s c o.q).entries ++
        [{ data := leBytes 8 (indexWord a.box (a.box.coords i)), t := decide (i + 1 = a.box.count) }] }
    (i + 1 ≠ a.box.count → ∃ t, exec (.agidx o) s = .next t ∧ pushed t ∧ AgGoesOn b t c e { e.prog with count := i + 1 }) ∧
    (i + 1 = a.box.count → AgRetires o b c e → ∃ t, exec (.agidx o) s = .next t ∧ pushed t ∧ AgGone b t c e)) ∧
  (∀ (o : LWFmt) (s : State) (c : Nat) (e : Entry), (Instr.agrun o).wf = true ∨ (Instr.agidx o).wf = true → AgTurn o s c e →
    (agSlots (s.crew c) (laneStream s)).find? o.d = none → ∀ mk, mk = Instr.agrun ∨ mk = Instr.agidx →
    ∃ t, exec (mk o) s = .next t ∧ AgRaises s t c e { cause := 6 } ∧ SameSlots s t c) ∧
  (∀ (o : LWFmt) (s b1 b : State) (c : Nat) (e : Entry) (bs : List Byte) (d : Desc), (Instr.agrun o).wf = true →
    AgTurn o s c e → (agSlots (s.crew c) (laneStream s)).find? o.d = some bs → laneStream s = 4 → laneStream b = 4 →
    let a := AgDesc.ofBytes bs
    let b0 := agBegun o s c e
    let v := queueOf s c o.q
    let p := e.prog
    a.kind = 0 → awaitEdges (some c) e.name (entryFeet b0 c false e) b0 = .ok () b1 →
    queueOf b1 c o.q = v → v.width ≠ 0 → agRoom b1 c o.q 4 v.width → agDesc c a.tid false b1 = .ok d b →
    queueOf b c o.q = v → p.bytes ≠ [] →
    let es := burstEntries v.width p.bytes
    let x := es.getD p.pos { data := [] }
    let pushed (t : State) : Prop := AgLeaves b t c ∧ SameSlots b t c ∧ OtherQueues b t c o.q ∧
      queueOf t c o.q = { v with entries := v.entries ++ [{ x with p := p.nums.headD 0 == 1 && x.t }] }
    (p.pos + 1 < es.length → ∃ t, exec (.agrun o) s = .next t ∧ pushed t ∧ AgGoesOn b t c e { p with pos := p.pos + 1 }) ∧
    (es.length ≤ p.pos + 1 → p.count + 1 ≠ a.box.count → ∃ t, exec (.agrun o) s = .next t ∧ pushed t ∧
      AgGoesOn b t c e { p with pos := 0, count := p.count + 1, bytes := [], nums := [] }) ∧
    (es.length ≤ p.pos + 1 → p.count + 1 = a.box.count → AgRetires o b c e →
      ∃ t, exec (.agrun o) s = .next t ∧ pushed t ∧ AgGone b t c e)) ∧
  (∀ (o : LWFmt) (s b1 : State) (c : Nat) (e : Entry) (bs : List Byte) (x : QEntry) (rest : List QEntry),
    (Instr.agrun o).wf = true → AgTurn o s c e → (agSlots (s.crew c) (laneStream s)).find? o.d = some bs →
    laneStream s = 5 → laneStream b1 = 5 →
    let a := AgDesc.ofBytes bs
    let b0 := agBegun o s c e
    let v := queueOf s c o.q
    let n := e.prog.count + (if x.t then 1 else 0)
    2 ≤ a.kind → awaitEdges (some c) e.name (entryFeet b0 c true e) b0 = .ok () b1 →
    queueOf b1 c o.q = v → e.prog.count < a.count → queueRefuses v 5 v.width false = none → v.entries = x :: rest →
    x.p = false →
    let dropped (t : State) : Prop := AgLeaves b1 t c ∧ SameSlots b1 t c ∧ OtherQueues b1 t c o.q ∧
      queueOf t c o.q = (v.popped x rest).discard 1
    (n ≠ a.count → ∃ t, exec (.agrun o) s = .next t ∧ dropped t ∧ AgGoesOn b1 t c e { e.prog with count := n }) ∧
    (n = a.count → AgRetires o b1 c e → ∃ t, exec (.agrun o) s = .next t ∧ dropped t ∧ AgGone b1 t c e)) ∧
  (∀ (o : LWFmt) (s b1 b : State) (c n : Nat) (e : Entry) (sec : Section), (Instr.agbank o).wf = true → AgTurn o s c e →
    o.b < (s.crew c).spad → sectionArg c e.sval (agBegun o s c e) = .ok n b1 → getSection c n b1 = .ok (some sec) b →
    laneStream b = laneStream s → (b.crew c).banks.getD o.b 0 = 0 →
    (∀ x ∈ (b.crew c).lq, x.name < e.name → x.finished = false → usesBank b c false o.b x = false) →
    (∀ x ∈ (b.crew c).wq, x.name < e.name → x.finished = false → usesBank b c true o.b x = false) → AgRetires o b c e →
    ∃ t, exec (.agbank o) s = .next t ∧ AgLeaves b t c ∧ AgGone b t c e ∧ (t.crew c).queues = (b.crew c).queues ∧
      (t.crew c).lslots = (b.crew c).lslots ∧ (t.crew c).wslots = (b.crew c).wslots ∧
      (t.crew c).banks.getD o.b 0 = n + 1 ∧ ∀ x, x ≠ o.b → (t.crew c).banks.find? x = (b.crew c).banks.find? x) ∧
  (∀ (o : LWFmt) (s : State) (c : Nat) (e : Entry), (Instr.agtake o).wf = true → AgTurn o s c e → o.b < (s.crew c).spad →
    let b := agBegun o s c e
    ((s.crew c).banks.getD o.b 0 = 0 → AgRetires o b c e → ∃ t, exec (.agtake o) s = .next t ∧ AgLeaves b t c ∧
      AgGone b t c e ∧ SameSlots b t c ∧ (t.crew c).queues = (s.crew c).queues) ∧
    ((s.crew c).banks.getD o.b 0 ≠ 0 → exec (.agtake o) s = .next b)) ∧
  (∀ (o : LWFmt) (s : State) (c : Nat) (e : Entry) (mk : LWFmt → Instr), mk = .agbank ∨ mk = .agtake → (mk o).wf = true →
    AgTurn o s c e → (s.crew c).spad ≤ o.b → ∃ t, exec (mk o) s = .next t ∧ AgRaises s t c e { cause := 7 })

/-! ### Engine commands (R106, R120, R125, R173-R176, R295-R323) -/

namespace Sys2Proof.Machine

/-- An engine lane: its constructor, whether it is the copy engine's, whether its command is a block, the bytes at the address
an inline one writes, whether it fetches, whether it reads its d register. -/
structure LaneKind where
  lane : LaneFmt → Instr
  copy : Bool
  block : Bool := true
  width : LaneFmt → Nat := fun _ => 0
  fetches : Bool := false
  cas : Bool := false
  scope : LaneFmt → Nat := fun _ => 2

/-- Bytes of an integer ACCW. -/
def accBytes (o : LaneFmt) : Nat := if o.fn % 2 = 1 then 4 else 8

def accKind (mk : LaneFmt → Instr) (width : LaneFmt → Nat) (cas : Bool := false) : LaneKind :=
  { lane := mk, copy := true, block := false, width := width, fetches := true, cas := cas, scope := fun o => o.fn / 2 }

/-- Every engine lane but the fences. -/
def laneKinds : List LaneKind :=
  [{ lane := .copy, copy := true }, { lane := .copy2, copy := true }, { lane := .fill, copy := true },
   { lane := .strmq, copy := true }, { lane := .drainq, copy := true }, { lane := .shuf, copy := true },
   { lane := .launch, copy := true }, { lane := .gath, copy := false }, { lane := .scat, copy := false },
   { lane := .bags, copy := false }, { lane := .isect, copy := false }, { lane := .msort, copy := false },
   { lane := .spsrch, copy := false },
   { lane := .csig, copy := true, block := false, width := fun _ => 8, scope := fun o => o.fn },
   { lane := .prefl2, copy := true, block := false },
   accKind .accwAdd accBytes, accKind .accwMin accBytes, accKind .accwMinn accBytes, accKind .accwMax accBytes,
   accKind .accwMaxn accBytes, accKind .accwAnd accBytes, accKind .accwOr accBytes, accKind .accwXor accBytes,
   accKind .accwXchg accBytes, accKind .accwCas accBytes true, accKind .accwFaddF32 (fun _ => 4),
   accKind .accwFaddBf16 (fun _ => 2), accKind .accwFmax (fun _ => 4)]

/-- The command a lane queues: what it reads of its registers, and the register it will fill (R174, R296). -/
def laneCmd (k : LaneKind) (o : LaneFmt) (s f : State) (w : Owner) : Cmd :=
  { id := s.nextId, instr := k.lane o, issuer := w, crew := crewOf f w, ctx := ctxOf f w, av := regVal s w o.a
    bv := if k.block then 0 else regVal s w o.b
    dv := if k.cas ∧ o.d ≠ 0 then regVal s w o.d else 0
    fetch := if k.fetches ∧ o.d ≠ 0 then some o.d else none
    seed := ((crewOf f w).map fun c => ctlNow (f.crew c) 2 (f.crew c).rndSeed).getD 0, scope := max 2 (k.scope o) }

/-- A lane queued in state f: its register marked empty, its view that of its issuer, and its command last in the queue of its
engine: that of the crew's cluster, or of an unbound thread's home cluster (R18, R125, R174). -/
def laneQueued (k : LaneKind) (o : LaneFmt) (s f : State) (w : Owner) : State :=
  let f := if k.fetches ∧ o.d ≠ 0 then withPend f w o.d (.cmd s.nextId) else f
  let cl := engineOf s w
  let t := f.setView (.cmd s.nextId) (commandView (f.view (agentOf w)) (agentOf w) (crewOf f w) cl)
  advance (t.setCluster cl ((t.cluster cl).setQueueOf k.copy ((t.cluster cl).queueOf k.copy ++ [laneCmd k o s f w]))) w 1

/-- Commands of an engine's queue that have not begun. -/
def waiting (s : State) (w : Owner) (copy : Bool) : Nat :=
  (((s.cluster (engineOf s w)).queueOf copy).filter fun e => !e.prog.begun).length

/-- Registers a lane reads, and the one it fills. -/
def laneRegs (k : LaneKind) (o : LaneFmt) : List Nat :=
  [o.a] ++ (if k.block then [] else [o.b]) ++ if k.fetches ∧ o.d ≠ 0 then [o.d] else []

/-- Operands of a block that its own instruction's rules add: those of SHUF's plan (R400). -/
def issueMore : Instr → MoreOperands
  | .shuf _ => shufOperands
  | _ => fun _ _ _ => return []

/-- What a lane of a cox thread pins: the ranges of its block's footprint, or the bytes an inline command writes (R298). -/
def issueRanges (k : LaneKind) (o : LaneFmt) (t : Nat) (x : Word) : M (List (Nat × Nat × Bool)) :=
  if k.block then blockRanges t (k.lane o) x.toNat (issueMore (k.lane o))
  else return if k.width o = 0 then [] else [(x.toNat, k.width o, true)]

/-- Issue pins: the pages of the ranges read and of those written are translated at the thread's level and pinned for the
command; where any fails, the page fault at the lowest address (R176, R298, R456). -/
def PinsIssued : Prop :=
  ∀ (s s1 s2 : State) (t id : Nat) (rs : List (Nat × Nat × Bool)) (a b : Except (Nat × Nat × Nat) (List Leaf)),
    let th := s.thread t
    let part (w : Bool) := (rs.filter fun r => r.2.2 == w).map fun r => (r.1, r.2.1)
    let fault (w : Bool) (e : Nat × Nat × Nat) := issuePins t id rs s = .error (.trap (pageFault e.1 w false e.2.1 e.2.2)) s2
    walkRanges th.ctx th.level.toNat false false (part false) s = .ok a s1 →
    walkRanges th.ctx th.level.toNat true false (part true) s1 = .ok b s2 →
    (∀ x y, a = .ok x → b = .ok y → issuePins t id rs s = .ok () { s2 with
      nextId := s2.nextId + 2
      pins := s2.pins ++
        [{ handle := s2.nextId, owner := .cmd id, ctx := th.ctx, ranges := part false, w := false, leaves := x },
         { handle := s2.nextId + 1, owner := .cmd id, ctx := th.ctx, ranges := part true, w := true, leaves := y }] }) ∧
    (∀ e y, a = .error e → b = .ok y → fault false e) ∧ (∀ x e, a = .ok x → b = .error e → fault true e) ∧
    (∀ e e', a = .error e → b = .error e' → if e'.1 < e.1 then fault true e' else fault false e)

/-- A command at the head of an engine, open, with no pin of its revoked. -/
structure EngTurn (i : Instr) (g : Eng) (s : State) (c : Cmd) : Prop where
  unit : s.cur = if g.copy then .copyEng g.cl else .indexEng g.cl
  head : engineHead s s.cur = some (g.cl, c)
  instr : c.instr = i
  kept : c.lost = false
  running : c.status = none
  pins : ∀ p ∈ s.pins, ¬(p.owner = .cmd c.id ∧ p.revoked = true)
  blocks : shufRevoked s g c = false

/-- A block command past its block, that declares no derived edges. -/
structure BlockTurn (i : Instr) (g : Eng) (s : State) (c : Cmd) : Prop where
  turn : EngTurn i g s c
  taken : c.prog.bytes ≠ []
  free : c.decl = false

/-- The command goes on, as `c'`. -/
def goesOn (g : Eng) (c c' : Cmd) (s : State) : State :=
  updCmd g.cl g.copy c.id (fun e => { e with stalled := false }) (updCmd g.cl g.copy c.id (fun _ => c') s)

/-- The command ends with a status: its completion (R302). -/
def ends (g : Eng) (c : Cmd) (status : Nat) (s : State) : State := runM (finishCmd g c.id status) s

/-- The command has done one more unit of its work; with the last it completes. -/
def counted (g : Eng) (c c' : Cmd) (last : Bool) (s : State) : State :=
  if last then ends g c 1 (updCmd g.cl g.copy c.id (fun _ => c') s) else goesOn g c c' s

/-- Reserved bytes of a block are zero. -/
def blockZero (c : Cmd) (off n : Nat) : Prop := ((c.prog.bytes.drop off).take n).all (· == 0) = true

/-- The lane's engine, its block's opcode and the size known of it (R173, R175). -/
def blockForms : List ((LaneFmt → Instr) × Bool × Nat × Nat) :=
  [(.copy, true, 0x00, 160), (.copy2, true, 0x01, 64), (.fill, true, 0x02, 128), (.strmq, true, 0x04, 96),
   (.drainq, true, 0x05, 96), (.gath, false, 0x00, 64), (.scat, false, 0x01, 64), (.bags, false, 0x02, 64),
   (.isect, false, 0x03, 64), (.msort, false, 0x04, 64), (.spsrch, false, 0x05, 32), (.shuf, true, 0x06, 48),
   (.launch, true, 0x07, 96)]

end Sys2Proof.Machine

/-- A lane of S waits for the L and W lanes before it, then queues its command at its cluster's engine with the register
values it has read, at most 32 not begun; an inline one that fetches marks its register empty; a block address that is no
multiple of 64 raises the alignment fault. A lane of a cox thread, whose inline address must be aligned too, queues its
command with the pins of its issue footprint, or raises the page fault of the lowest page that fails. PREFL2 changes nothing
but its place in the queue (R106, R174, R176, R296, R298, R309). -/
def Obligations.CommandsAreQueued : Prop :=
  (∀ k ∈ laneKinds, ∀ (o : LaneFmt) (s : State) (c : Nat), (k.lane o).wf = true → curOwner s = some (.crew c) →
    RegsReady s (.crew c) (laneRegs k o) →
    let w := Owner.crew c
    (k.block = true → (regVal s w o.a).toNat % 64 ≠ 0 →
      exec (k.lane o) s = .next (raised s w { cause := 4, addr := regVal s w o.a, info := 64 })) ∧
    ((k.block = true → (regVal s w o.a).toNat % 64 = 0) → (s.crew c).lq = [] → (s.crew c).wq = [] →
      (waiting s w k.copy < 32 → exec (k.lane o) s = .next (laneQueued k o s { s with nextId := s.nextId + 1 } w)) ∧
      (32 ≤ waiting s w k.copy → exec (k.lane o) s = .next s)) ∧
    ((k.block = true → (regVal s w o.a).toNat % 64 = 0) → ((s.crew c).lq ≠ [] ∨ (s.crew c).wq ≠ []) →
      exec (k.lane o) s = .next s)) ∧
  (∀ k ∈ laneKinds, ∀ (o : LaneFmt) (s : State) (t : Nat), (k.lane o).wf = true → curOwner s = some (.thread t) →
    RegsReady s (.thread t) (laneRegs k o) →
    let w := Owner.thread t
    let x := regVal s w o.a
    let aligned := if k.block then x.toNat % 64 = 0 else k.width o ≠ 0 → x.toNat % k.width o = 0
    let s0 := { s with nextId := s.nextId + 1 }
    (¬aligned → exec (k.lane o) s =
      .next (raised s w { cause := 4, addr := x, info := if k.block then 64 else BitVec.ofNat 64 (k.width o) })) ∧
    (aligned → 32 ≤ waiting s w k.copy → exec (k.lane o) s = .next s) ∧
    (∀ exc s1, aligned → waiting s w k.copy < 32 → issueRanges k o t x s0 = .error (.trap exc) s1 →
      exec (k.lane o) s = .next (raisedAfter s s1 w exc)) ∧
    (∀ rs s1, aligned → waiting s w k.copy < 32 → issueRanges k o t x s0 = .ok rs s1 →
      (k.block = false → k.width o = 0 → exec (k.lane o) s = .next (laneQueued k o s s0 w)) ∧
      (k.block = true ∨ k.width o ≠ 0 →
        (∀ s2, issuePins t s.nextId rs s1 = .ok () s2 → exec (k.lane o) s = .next (laneQueued k o s s2 w)) ∧
        (∀ exc s2, issuePins t s.nextId rs s1 = .error (.trap exc) s2 →
          exec (k.lane o) s = .next (raisedAfter s s2 w exc))))) ∧
  PinsIssued ∧
  (∀ (o : LaneFmt) (g : Eng) (s : State) (c : Cmd), EngTurn (.prefl2 o) g s c → g.copy = true →
    ∃ t, exec (.prefl2 o) s = .next t ∧
      (t.cluster g.cl).copyQ = (s.cluster g.cl).copyQ.filter (fun e => e.id != c.id) ∧
      { t.cluster g.cl with copyQ := (s.cluster g.cl).copyQ } = s.cluster g.cl ∧ (∀ x, x ≠ g.cl → t.cluster x = s.cluster x) ∧
      t.pins = s.pins.filter (fun p => p.owner != .cmd c.id) ∧ (∀ a, a ≠ .cmd c.id → t.view a = s.view a) ∧
      (∀ x, { t.crew x with idle := (s.crew x).idle } = s.crew x) ∧
      { t with clusters := s.clusters, pins := s.pins, views := s.views, crews := s.crews } = s) ∧
  (∀ f ∈ blockForms, ∀ (o : LaneFmt) (g : Eng) (s s' : State) (c : Cmd), EngTurn (f.1 o) g s c → g.copy = f.2.1 →
    c.prog.bytes = [] →
    (takeBlock g c f.2.2.1 f.2.2.2 s = .ok () s' →
      exec (f.1 o) s = .next (updCmd g.cl g.copy c.id (fun e => { e with stalled := false }) s')) ∧
    (∀ n, takeBlock g c f.2.2.1 f.2.2.2 s = .error (.status n) s' → exec (f.1 o) s = .next (ends g c n s'))) ∧
  (∀ (o : LaneFmt) (s : State) (w : Owner) (mk : LaneFmt → Instr) (copy : Bool),
    (mk = .cefence ∧ copy = true) ∨ (mk = .ixfence ∧ copy = false) → (mk o).wf = true → curOwner s = some w →
    (∀ c, w = .crew c → (s.crew c).lq = [] ∧ (s.crew c).wq = []) →
    (issuerBusy s w copy = true → exec (mk o) s = .next s) ∧
    (issuerBusy s w copy = false →
      let v := s.view (agentOf w)
      exec (mk o) s = .next (advance (gainIds s (agentOf w)
        (unionNames (acquireIds s (agentOf w) 2) (if copy then v.fenceCE else v.fenceIX))) w 1)))

/-- The copy engine: COPY moves a tile of one box to the tile of the same place of another, COPY2 a row of bytes, FILL a
line of bytes or a tile of the pattern; STRMQ pushes a tile's burst entry by entry, DRAINQ writes a burst of its queue as a
tile; CSIG makes its issuer's release, then adds at its port, unless a gang not committed holds it; ACCW replaces the value at its port by
the operation's result and gives the old one to its register (R118-R120, R301, R304-R308, R310, R312). -/
def Obligations.CopyEngineCommands : Prop :=
  (∀ (o : LaneFmt) (cl : Nat) (s s1 s2 s3 s4 : State) (c : Cmd) (src dst : BoxOp) (body : List Byte) (sc : List Nat),
    let g : Eng := { cl := cl, copy := true }
    BlockTurn (.copy o) g s c → blockZero c 0x18 8 → boxOp g c 0x20 false s = .ok src s1 → boxOp g c 0x60 true s1 = .ok dst s2 →
    ((src.d.efmt ≠ dst.d.efmt ∨ src.d.nfd ≠ dst.d.nfd) → exec (.copy o) s = .next (ends g c 7 s2)) ∧
    (src.d.efmt = dst.d.efmt → src.d.nfd = dst.d.nfd → (∃ i < 4, src.box.extent i ≠ dst.box.extent i) →
      exec (.copy o) s = .next (ends g c 5 s2)) ∧
    (src.d.efmt = dst.d.efmt → src.d.nfd = dst.d.nfd → (∀ i < 4, src.box.extent i = dst.box.extent i) →
      cmdReadTile g c src.d (src.box.coords c.count) s2 = .ok (body, sc) s3 →
      cmdWriteTile g c dst.d (dst.box.coords c.count) body sc s3 = .ok () s4 →
      exec (.copy o) s =
        .next (counted g c { c with count := c.count + 1 } (decide (c.count + 1 = src.box.count)) s4))) ∧
  (∀ (o : LaneFmt) (cl : Nat) (s s1 s2 : State) (c : Cmd) (row : List Byte),
    let g : Eng := { cl := cl, copy := true }
    let f (off n : Nat) := fieldAt c.prog.bytes off n
    let i := c.prog.pos
    BlockTurn (.copy2 o) g s c →
    (f 0x2C 4 ≤ i → exec (.copy2 o) s = .next (ends g c 1 s)) ∧
    (i < f 0x2C 4 → f 0x28 4 ≠ 0 → cmdRead g c (f 0x18 8 + i * f 0x30 8) (f 0x28 4) s = .ok row s1 →
      cmdWrite g c (f 0x20 8 + i * f 0x38 8) row s1 = .ok () s2 →
      exec (.copy2 o) s = .next (goesOn g c
        { c with count := c.count + f 0x28 4, prog := { c.prog with pos := i + 1 } } s2))) ∧
  (∀ (o : LaneFmt) (cl : Nat) (s s1 s2 : State) (c : Cmd) (dst : BoxOp),
    let g : Eng := { cl := cl, copy := true }
    let f (off n : Nat) := fieldAt c.prog.bytes off n
    let a := (f 0x28 8 + c.count) % 2 ^ 64
    let n := min (f 0x30 8 - c.count) (1024 - a % 1024)
    BlockTurn (.fill o) g s c → blockZero c 0x21 1 → blockZero c 0x24 4 → blockZero c 0x38 8 → f 0x22 2 < 1024 →
    (f 0x20 1 = 1 → blockZero c 0x40 64 → f 0x30 8 ≤ c.count → exec (.fill o) s = .next (ends g c 1 s)) ∧
    (f 0x20 1 = 1 → blockZero c 0x40 64 → c.count < f 0x30 8 →
      cmdWrite g c a ((List.range n).map fun i => (c.prog.bytes.drop (0x18 + (a + i) % 8)).headD 0) s = .ok () s1 →
      exec (.fill o) s = .next (goesOn g c { c with count := c.count + n } s1)) ∧
    (f 0x20 1 = 0 → boxOp g c 0x40 true s = .ok dst s1 →
      cmdWriteTile g c dst.d (dst.box.coords c.count)
        ((List.range 1024).map fun i => (c.prog.bytes.drop (0x18 + i % 8)).headD 0) (List.replicate 64 (f 0x22 2)) s1 =
        .ok () s2 →
      exec (.fill o) s = .next (counted g c { c with
        count := c.count + 1, flags := orf c.flags (flagIf (dst.d.efmt = 13 && 0x3FE ≤ f 0x22 2) Flag.rsv) }
        (decide (c.count + 1 = dst.box.count)) s2))) ∧
  (∀ (o : LaneFmt) (cl k : Nat) (s s1 s2 s3 : State) (c : Cmd) (src : BoxOp) (body : List Byte) (sc : List Nat),
    let g : Eng := { cl := cl, copy := true }
    let q := fieldAt c.prog.bytes 0x18 1
    let v := queueOf s k q
    let cs := src.box.coords c.count
    let es := burstEntries v.width (burstBytes src.tid (src.d.efmt == 13) cs sc body)
    BlockTurn (.strmq o) g s c → c.crew = some k → blockZero c 0x19 7 → q < 64 → (v.width = 1 ∨ v.width = 2) →
    queueRefuses v 6 v.width true = none → boxOp g c 0x20 false s = .ok src s1 →
    cmdReadTile g c src.d cs s1 = .ok (body, sc) s2 → c.prog.pos < es.length →
    pushQueue k q 6 v.width (es.getD c.prog.pos { data := [] }) s2 = .ok () s3 →
    (c.prog.pos + 1 < es.length →
      exec (.strmq o) s = .next (goesOn g c { c with prog := { c.prog with pos := c.prog.pos + 1 } } s3)) ∧
    (c.prog.pos + 1 = es.length → exec (.strmq o) s = .next
      (counted g c { c with count := c.count + 1, prog := { c.prog with pos := 0 } }
        (decide (c.count + 1 = src.box.count)) s3))) ∧
  (∀ (o : LaneFmt) (cl k : Nat) (s s1 s2 : State) (c : Cmd) (dst : BoxOp) (x : QEntry) (rest : List QEntry),
    let g : Eng := { cl := cl, copy := true }
    let q := fieldAt c.prog.bytes 0x18 1
    let v := queueOf s k q
    let d := (v.entries.take v.burst).flatMap (·.data)
    BlockTurn (.drainq o) g s c → c.crew = some k → blockZero c 0x19 3 → q < 64 → (v.width = 1 ∨ v.width = 2) →
    queueRefuses v 6 v.width false = none →
    (v.whole = false → exec (.drainq o) s = .next (ends g c 9 s)) ∧
    (v.whole = true → boxOp g c 0x20 true s = .ok dst s1 → fieldAt c.prog.bytes 0x1C 4 ≤ c.count →
      exec (.drainq o) s = .next (ends g c 1 s1)) ∧
    (v.whole = true → boxOp g c 0x20 true s = .ok dst s1 → c.count < fieldAt c.prog.bytes 0x1C 4 → v.entries = x :: rest →
      x.p = false → burstTid d = dst.tid → dst.box.contains (burstCoords d) = true →
      burstSc d = (dst.d.efmt == 13) →
      cmdWriteTile g c dst.d (burstCoords d) (burstBody d) (burstScales d)
        (withQueue s1 k q { v with entries := v.entries.drop v.burst, mid := false }) = .ok () s2 →
      exec (.drainq o) s = .next (goesOn g c { c with count := c.count + 1 } s2))) ∧
  (∀ (o : LaneFmt) (cl pa : Nat) (s s1 s2 s3 : State) (c : Cmd) (bs : List Byte),
    let g : Eng := { cl := cl, copy := true }
    let a := g.agent c
    let who := if crewOf s c.issuer = c.crew then agentOf c.issuer else a
    EngTurn (.csig o) g s c →
    (5 ≤ c.scope → gangHolds s a = true →
      exec (.csig o) s = .next (updCmd g.cl g.copy c.id (fun e => { e with stalled := false }) s)) ∧
    ((c.scope < 5 ∨ gangHolds s a = false) →
      (c.av.toNat % 8 ≠ 0 → exec (.csig o) s = .next (ends g c 8 s)) ∧
      (c.av.toNat % 8 = 0 → cmdPhys c c.av.toNat 8 true (publishAs s who a c.scope (releaseIds (s.view a))) = .ok pa s1 →
        readPort pa 8 s1 = .ok (some bs) s2 →
        (leNat bs + c.bv.toNat < 2 ^ 64 → writePort a pa (leBytes 8 (leNat bs + c.bv.toNat)) s2 = .ok () s3 →
          exec (.csig o) s = .next (ends g c 1 (runM (logPort g.source pa (leNat bs)) s3))) ∧
        (2 ^ 64 ≤ leNat bs + c.bv.toNat →
          event c.ctx 2 14 (c.handle s2) c.av.toNat c.bv.toNat (runM (logPort g.source pa (leNat bs)) s2) = .ok () s3 →
          exec (.csig o) s = .next (ends g c 14 s3))))) ∧
  (let acc (mk : LaneFmt → Instr) (n : LaneFmt → Nat) (f : Nat → Nat → Nat → Nat → Option Nat × Flags) : Prop :=
      ∀ (o : LaneFmt) (cl pa : Nat) (s s1 s2 s3 : State) (c : Cmd) (bs : List Byte),
      let g : Eng := { cl := cl, copy := true }
      let w := n o
      let r := f w (c.dv.toNat % 2 ^ w) (leNat bs) (c.bv.toNat % 2 ^ w)
      EngTurn (mk o) g s c →
      (c.av.toNat % (w / 8) ≠ 0 → exec (mk o) s = .next (ends g c 8 s)) ∧
      (c.av.toNat % (w / 8) = 0 → cmdPhys c c.av.toNat (w / 8) true s = .ok pa s1 →
        readPort pa (w / 8) s1 = .ok (some bs) s2 →
        (match r.1 with
          | some v => writePort (g.agent c) pa (leBytes (w / 8) v) s2 = .ok () s3
          | none => s3 = s2) →
        exec (mk o) s = .next (ends g c 1 (updCmd g.cl true c.id (fun _ => { c with flags := orf c.flags r.2 })
          (runM (do
            logPort g.source pa (leNat bs)
            fillFetch c (BitVec.ofNat 64 (leNat bs))) s3))))
   let int (o : LaneFmt) : Nat := if o.fn % 2 = 1 then 32 else 64
   acc .accwAdd int (fun n _ old v => (some ((old + v) % 2 ^ n), 0)) ∧
   acc .accwMin int (fun n _ old v => (some (if ival n true v < ival n true old then v else old), 0)) ∧
   acc .accwMinn int (fun _ _ old v => (some (min old v), 0)) ∧
   acc .accwMax int (fun n _ old v => (some (if ival n true old < ival n true v then v else old), 0)) ∧
   acc .accwMaxn int (fun _ _ old v => (some (max old v), 0)) ∧
   acc .accwAnd int (fun _ _ old v => (some (old &&& v), 0)) ∧
   acc .accwOr int (fun _ _ old v => (some (old ||| v), 0)) ∧
   acc .accwXor int (fun _ _ old v => (some (old ^^^ v), 0)) ∧
   acc .accwXchg int (fun _ _ _ v => (some v, 0)) ∧
   acc .accwCas int (fun _ expected old v => (if old = expected then some v else none, 0)) ∧
   acc .accwFaddF32 (fun _ => 32) (fun _ _ old v =>
    (some (faddF .f32 0 0 false old v).1, (faddF .f32 0 0 false old v).2)) ∧
   acc .accwFaddBf16 (fun _ => 16) (fun _ _ old v =>
    (some (faddF .bf16 0 0 false old v).1, (faddF .bf16 0 0 false old v).2)) ∧
   acc .accwFmax (fun _ => 32) (fun _ _ old v =>
    let r := ordinary .f32 [old, v] (fminmax .f32 true old v)
    (some r.1, r.2)))

namespace Sys2Proof.Machine

/-- A tiled table of rows that an index command reads or writes (R314, R316). -/
def rowTable (tid : Nat) (d : Desc) : Prop := tid ≠ 0 ∧ d.nd = 2 ∧ d.kind = 0

/-- Fields of a command's block. -/
def blockField (c : Cmd) (off n : Nat) : Nat := fieldAt c.prog.bytes off n

/-- The state after a held accumulate has arrived at its port. -/
def heldAdd (g : Eng) (c : Cmd) (x : Scat) (va pa v : Nat) (s : State) : State :=
  holdAdd (epochKey s x.epid (some c.id)) x.nsrc (homePort pa)
    { cl := g.cl, seq := 0, cmd := c.id, pa := pa, va := va, efmt := x.dst.efmt, op := x.op, v := v } s

/-- Row r of a table is read: its codes, its scales, and the flags of reading it (R315). -/
def ReadsRow (g : Eng) (c : Cmd) (d : Desc) (r : Nat) (s : State) (es ss : List Nat) (fl : Flags) (t : State) : Prop :=
  if d.kind = 4 then ∃ vs f, tableRow g c d r s = .ok (.ok (vs, f)) t ∧ ss = [] ∧
    es = vs.map (fun v => (roundF v .bf16 0 0).1) ∧ fl = orf f (allFlags (vs.map fun v => roundF v .bf16 0 0))
  else denseRow g c d r s = .ok (es, ss) t ∧ fl = 0

/-- Bytes padded with zeros to whole entries of n bytes. -/
def Padded (n : Nat) (bs out : List Byte) : Prop :=
  ∃ z : List Byte, (∀ b ∈ z, b = 0) ∧ z.length < n ∧ out = bs ++ z ∧ out.length % n = 0

/-- Queue q of a crew's index command, which it can push to or pop from in entries of its own width, lines or rows (R314). -/
def RowQueue (s : State) (c : Cmd) (k q : Nat) (push : Bool) : Prop :=
  c.crew = some k ∧ q < 64 ∧ ((queueOf s k q).width = 1 ∨ (queueOf s k q).width = 2) ∧
    queueRefuses (queueOf s k q) 7 (queueOf s k q).width push = none

/-- A command that holds a row for its queue pushes its entries in turn, H on the first and T on the last; the last counts the
row (R316). -/
def PushesRow (i : Instr) (g : Eng) (s b : State) (c : Cmd) (k q n : Nat) : Prop :=
  let w := (queueOf b k q).width
  let total := c.prog.nums.length / entryBytes w
  let data := ((c.prog.nums.drop (entryBytes w * c.prog.pos)).take (entryBytes w)).map (BitVec.ofNat 8)
  ∀ t, pushQueue k q 7 w { data := data, h := decide (c.prog.pos = 0), t := decide (c.prog.pos + 1 = total) } b = .ok () t →
    (c.prog.pos + 1 ≠ total → exec i s = .next (goesOn g c { c with prog := { c.prog with pos := c.prog.pos + 1 } } t)) ∧
    (c.prog.pos + 1 = total → exec i s = .next (counted g c
      { c with count := c.count + 1, prog := { c.prog with nums := [], pos := 0 } } (decide (c.count + 1 = n)) t))

/-- A row held for the command's queue. -/
def holdsRow (c : Cmd) (bs : List Byte) : Cmd := { c with prog := { c.prog with nums := bs.map (·.toNat), pos := 0 } }

/-- GATH to rows of a table: of a source of any kind, each row its index names, or zeros past the table (R315, R316). -/
def Gathers (o : LaneFmt) : Prop :=
  ∀ (cl : Nat) (s s1 s2 s3 s4 s5 : State) (c : Cmd) (src dst : Desc) (r : Nat) (es ss : List Nat) (fl : Flags),
    let g : Eng := { cl := cl, copy := false }
    let f := blockField c
    let ts := f 0x18 2
    let td := f 0x1A 2
    let c' := { c with flags := orf c.flags fl }
    BlockTurn (.gath o) g s c → blockZero c 0x30 16 → f 0x1C 2 < 2 → ts < 4096 → td < 4096 → f 0x1E 2 = 0 →
    cmdDesc g c ts false s = .ok src s1 → cmdDesc g c td true s1 = .ok dst s2 → ts ≠ 0 → src.nd = 2 → rowTable td dst →
    dst.dim0 = src.dim0 → src.rax = 0 →
    (if src.kind = 4 then dst.efmt = 11 else dst.efmt = src.efmt ∧ dst.nfd = src.nfd ∧ dst.rax = 0) →
    f 0x2C 4 + f 0x28 4 ≤ dst.dim1 →
    (f 0x28 4 ≤ c.count → exec (.gath o) s = .next (ends g c 1 s2)) ∧
    (c.count < f 0x28 4 → c.prog.nums = [] → indexAt g c (f 0x20 8) c.count s2 = .ok r s3 →
      (r < src.dim1 → ReadsRow g c src r s3 es ss fl s4 →
        writeRow g c' dst (f 0x2C 4 + c.count) es ss (dst.grid 0) 0 s4 = .ok () s5 →
        exec (.gath o) s =
          .next (counted g c { c' with count := c.count + 1 } (decide (c.count + 1 = f 0x28 4)) s5)) ∧
      (src.dim1 ≤ r → f 0x1C 2 = 0 → exec (.gath o) s = .next (ends g c 5 s3)) ∧
      (src.dim1 ≤ r → f 0x1C 2 = 1 →
        writeRow g { c with events := c.events + 1 } dst (f 0x2C 4 + c.count) (List.replicate src.dim0 0)
          (List.replicate src.nb 0) (dst.grid 0) 0 s3 = .ok () s5 →
        exec (.gath o) s = .next (counted g c { c with count := c.count + 1, events := c.events + 1 }
          (decide (c.count + 1 = f 0x28 4)) s5)))

/-- GATH with QOUT: each row is held and pushed to the queue entry by entry, a narrow one behind its scales (R316). -/
def GathersToQueue (o : LaneFmt) : Prop :=
  ∀ (cl k : Nat) (s b s3 s4 : State) (c : Cmd) (src : Desc) (r : Nat) (es ss : List Nat) (fl : Flags),
    let g : Eng := { cl := cl, copy := false }
    let f := blockField c
    let q := f 0x1E 2
    let n := entryBytes (queueOf b k q).width
    let narrow := src.efmt == 13
    BlockTurn (.gath o) g s c → blockZero c 0x30 16 → f 0x1C 2 = 2 ∨ f 0x1C 2 = 3 → f 0x18 2 < 4096 → f 0x18 2 ≠ 0 →
    f 0x1A 2 = 0 → f 0x2C 4 = 0 → cmdDesc g c (f 0x18 2) false s = .ok src b → src.nd = 2 → src.rax = 0 →
    RowQueue b c k q true → (narrow = true → 2 * src.nb ≤ n) → c.count < f 0x28 4 →
    (c.prog.nums ≠ [] → PushesRow (.gath o) g s b c k q (f 0x28 4)) ∧
    (c.prog.nums = [] → indexAt g c (f 0x20 8) c.count b = .ok r s3 →
      (r < src.dim1 → ReadsRow g c src r s3 es ss fl s4 → exec (.gath o) s = .next (goesOn g c
        (holdsRow { c with flags := orf c.flags fl } (rowBytes n src.elemBits narrow es ss)) s4)) ∧
      (src.dim1 ≤ r → f 0x1C 2 = 2 → exec (.gath o) s = .next (ends g c 5 s3)) ∧
      (src.dim1 ≤ r → f 0x1C 2 = 3 → exec (.gath o) s = .next (goesOn g c (holdsRow { c with events := c.events + 1 }
        (rowBytes n src.elemBits narrow (List.replicate src.dim0 0) (List.replicate src.nb 0))) s3)))

/-- SCAT: rows of its source, or with QIN groups of its queue, stored or accumulated element by element, at once or held for
the epoch (R317, R318). -/
def Scatters (o : LaneFmt) : Prop :=
  ∀ (cl : Nat) (s s1 s2 s3 s4 : State) (c : Cmd) (x : Scat) (r pa : Nat) (es ss : List Nat) (op : Acc) (bs : List Byte),
    let g : Eng := { cl := cl, copy := false }
    let w := x.dst.elemBits
    let e := c.prog.pos
    let va := x.dst.tile [e / x.dst.epr, r / 32, 0, 0] + 32 * (r % 32) + e % x.dst.epr * (w / 8)
    let next := { c with count := c.count + 1, prog := { c.prog with pos := 0, count := 0, nums := [] } }
    let held : List Byte := c.prog.nums.map (BitVec.ofNat 8)
    let narrow := x.dst.efmt == 13
    let taken := x.qin = true → rowEntries (entryBytes x.width) w x.dst.dim0 narrow ≤ c.prog.count
    let row := if x.qin then s3 = s2 ∧ ss = (if narrow then (halves held).take x.dst.nb else []) ∧
        es = (unpackElems w (if narrow then held.drop (entryBytes x.width) else held)).take x.dst.dim0
      else denseRow g c x.src (x.srow + c.count) s2 = .ok (es, ss) s3
    BlockTurn (.scat o) g s c → scatOperands g c s = .ok x s1 →
    (x.n ≤ c.count → x.ordered = false → exec (.scat o) s = .next (ends g c 1 s1)) ∧
    (x.n ≤ c.count → x.ordered = true → c.prog.events = 0 → exec (.scat o) s =
      .next (goesOn g c { c with prog := { c.prog with events := 1 } }
        (closeEpoch (epochKey s1 x.epid (some c.id)) x.nsrc (some c.id) s1))) ∧
    (c.count < x.n → indexAt g c (blockField c 0x20 8) c.count s1 = .ok r s2 → x.dst.dim1 ≤ r →
      (x.oobz = true → taken → exec (.scat o) s = .next (goesOn g c { next with events := c.events + 1 } s2)) ∧
      (x.oobz = false → exec (.scat o) s = .next (ends g c 5 s2))) ∧
    (c.count < x.n → indexAt g c (blockField c 0x20 8) c.count s1 = .ok r s2 → r < x.dst.dim1 → taken → row →
      (x.op = 0 → writeRow g c x.dst r es ss (x.dst.grid 0) 0 s3 = .ok () s4 →
        exec (.scat o) s = .next (goesOn g c next s4)) ∧
      (x.op ≠ 0 → x.dst.dim0 ≤ e → exec (.scat o) s = .next (goesOn g c next s3)) ∧
      (x.op ≠ 0 → e < x.dst.dim0 → scatAcc x.dst.efmt x.op = some op →
        cmdPhys c (va % 2 ^ 64) (w / 8) true s3 = .ok pa s4 →
        (x.ordered = true → exec (.scat o) s = .next (goesOn g c { c with prog := { c.prog with pos := e + 1 } }
          (heldAdd g c x (va % 2 ^ 64) pa (es.getD e 0) s4))) ∧
        (∀ s5 s6 v, x.ordered = false → readPort pa (w / 8) s4 = .ok (some bs) s5 →
          (accNew op w 0 (leNat bs) (es.getD e 0)).1 = some v → writePort (g.agent c) pa (leBytes (w / 8) v) s5 = .ok () s6 →
          exec (.scat o) s = .next (goesOn g c
            { c with flags := orf c.flags (accNew op w 0 (leNat bs) (es.getD e 0)).2, prog := { c.prog with pos := e + 1 } }
            (runM (logPort g.source pa (leNat bs)) s6)))))

/-- SCAT with QIN takes the entries of a row's group one each turn; an entry with P ends it with POISON, one whose H or T does
not fit its place with LAYOUT (R314, R317). -/
def TakesGroups (o : LaneFmt) : Prop :=
  ∀ (cl k : Nat) (s s1 s2 : State) (c : Cmd) (x : Scat) (r : Nat) (e : QEntry) (rest : List QEntry),
    let g : Eng := { cl := cl, copy := false }
    let want := rowEntries (entryBytes x.width) x.dst.elemBits x.dst.dim0 (x.dst.efmt == 13)
    let n := c.prog.count + 1
    let v := queueOf s2 k x.q
    let t := withQueue s2 k x.q (v.popped e rest)
    BlockTurn (.scat o) g s c → scatOperands g c s = .ok x s1 → x.qin = true → c.count < x.n →
    indexAt g c (blockField c 0x20 8) c.count s1 = .ok r s2 → (r < x.dst.dim1 ∨ x.oobz = true) → c.prog.count < want →
    c.crew = some k → queueRefuses v 7 x.width false = none → v.entries = e :: rest →
    (e.p = true → exec (.scat o) s = .next (ends g c 11 t)) ∧
    (e.p = false → (e.h ≠ decide (n = 1) ∨ e.t ≠ decide (n = want)) → exec (.scat o) s = .next (ends g c 6 t)) ∧
    (e.p = false → e.h = decide (n = 1) → e.t = decide (n = want) → exec (.scat o) s = .next (goesOn g c
      { c with prog := { c.prog with count := n, nums := c.prog.nums ++ e.data.map (·.toNat) } } t))

/-- ISECT in MODE 1: each emission is held until the next is found and pushed as a word, index, A's value and B's; the last has
T, and an empty result pushes its own word (R321). -/
def EmitsWords (o : LaneFmt) : Prop :=
  ∀ (cl k : Nat) (s s1 s2 s3 s4 s5 : State) (c : Cmd) (da db : Desc),
    let g : Eng := { cl := cl, copy := false }
    let f := blockField c
    let x := Walk.ofNums c.prog.nums
    let q := f 0x1D 1
    let word (l : List Nat) (t : Bool) : QEntry :=
      { data := leBytes 8 (l.getD 0 0 % 2 ^ 32 + l.getD 1 0 % 2 ^ 16 * 2 ^ 32 + l.getD 2 0 % 2 ^ 16 * 2 ^ 48), t := t }
    BlockTurn (.isect o) g s c → blockZero c 0x1E 2 → blockZero c 0x38 8 → f 0x1C 1 = 1 → q < 64 → blockZero c 0x20 24 →
    f 0x18 2 < 4096 → f 0x1A 2 < 4096 → cmdDesc g c (f 0x18 2) false s = .ok da s1 →
    cmdDesc g c (f 0x1A 2) false s1 = .ok db s2 → da.kind = 3 → db.kind = 3 → da.nd = 1 → db.nd = 1 → da.dim0 = db.dim0 →
    da.elemBits ≤ 16 → db.elemBits ≤ 16 → c.crew = some k → queueRefuses (queueOf s2 k q) 7 0 true = none →
    (x.left = 0 → x.w < (da.dim0 + 63) / 64 → ∀ oa ob, occWord g c da x.w s2 = .ok oa s3 → occWord g c db x.w s3 = .ok ob s4 →
      exec (.isect o) s = .next (goesOn g c (setWalk c { x with
        w := x.w + 1, pa := x.pa + popCount x.oa 64, pb := x.pb + popCount x.ob 64, oa := oa, ob := ob
        left := oa &&& ob }) s4)) ∧
    (x.left = 0 → (da.dim0 + 63) / 64 ≤ x.w →
      (x.held = [] → pushQueue k q 7 0 (word [0xFFFFFFFF, 0, 0] true) s2 = .ok () s3 →
        exec (.isect o) s = .next (ends g c 1 s3)) ∧
      (x.held ≠ [] → pushQueue k q 7 0 (word x.held true) s2 = .ok () s3 →
        exec (.isect o) s = .next (ends g c 1 (updCmd cl false c.id (fun _ => { c with count := c.count + 1 }) s3)))) ∧
    (∀ va vb, x.left ≠ 0 →
      let j := trailZeros x.left 64
      let now := { x with left := x.left - 2 ^ j, held := [64 * (x.w - 1) + j, va.headD 0, vb.headD 0] }
      readPacked g c da.base da.elemBits (x.pa + popCount (x.oa % 2 ^ j) 64) 1 s2 = .ok va s3 →
      readPacked g c db.base db.elemBits (x.pb + popCount (x.ob % 2 ^ j) 64) 1 s3 = .ok vb s4 →
      (x.held = [] → exec (.isect o) s = .next (goesOn g c (setWalk c now) s4)) ∧
      (x.held ≠ [] → pushQueue k q 7 0 (word x.held false) s4 = .ok () s5 →
        exec (.isect o) s = .next (goesOn g c { setWalk c now with count := c.count + 1 } s5)))

/-- What a row of each kind of table reads as (R90, R93-R95, R315): of MAGORD, the blocks in logical order; of COOM, BITMAP and
CSR, the stored elements at their positions and zero elsewhere; of ROWCLASS, the exact values of its class. -/
def RowKinds : Prop :=
  (∀ (g : Eng) (c : Cmd) (d : Desc) (r : Nat) (s s1 s2 : State) (row : List Byte) (es ss : List Nat), d.kind = 1 →
    cmdRead g c (d.aux + r / 32 * 1024 * ((d.nb + 511) / 512)) (2 * d.nb) s = .ok row s1 →
    isPermutation (halves row) d.nb = true → storedRow g c d r (d.grid 0) 0 s1 = .ok (es, ss) s2 →
    ∃ es' ss', denseRow g c d r s = .ok (es', ss') s2 ∧ es'.length = d.dim0 ∧ ss'.length = d.nb ∧
      ∀ p b, p < d.nb → (halves row)[p]? = some b → ss'.getD b 0 = ss.getD p 0 ∧
        ∀ j < 32, 32 * b + j < d.dim0 → 32 * p + j < d.dim0 → es'.getD (32 * b + j) 0 = es.getD (32 * p + j) 0) ∧
  (∀ (g : Eng) (c : Cmd) (d : Desc) (r : Nat) (s s1 : State) (l : List (Nat × Nat)), d.kind = 2 →
    coomRow g c d r (d.grid 0) 0 s = .ok l s1 → ∃ es, denseRow g c d r s = .ok (es, []) s1 ∧ es.length = d.dim0 ∧
      ∀ e < d.dim0, ((∀ x ∈ l, x.1 ≠ e) → es.getD e 0 = 0) ∧
        ∀ v pre post, l = pre ++ (e, v) :: post → (∀ x ∈ post, x.1 ≠ e) → es.getD e 0 = v) ∧
  (∀ (g : Eng) (c : Cmd) (d : Desc) (r first : Nat) (s s1 s2 s3 : State) (occ : List Byte) (vs : List Nat), d.kind = 3 →
    let n := (d.dim0 + 63) / 64
    let on := fun e => bit (leNat occ) e
    cmdRead g c (d.side + 8 * n * r) (8 * n) s = .ok occ s1 → occ.length = 8 * n →
    (∀ e, d.dim0 ≤ e → e < 64 * n → on e = false) →
    (if d.aux = 0 ∧ d.dimOf 1 = 1 then first = 0 ∧ s2 = s1
      else ∃ b, cmdRead g c (d.aux + 8 * r) 8 s1 = .ok b s2 ∧ first = leNat b) →
    readPacked g c d.base d.elemBits first (((List.range d.dim0).filter on).length) s2 = .ok vs s3 →
    ((List.range d.dim0).filter on).length ≤ vs.length →
    ∃ es, denseRow g c d r s = .ok (es, []) s3 ∧ es.length = d.dim0 ∧
      ∀ e < d.dim0, es.getD e 0 = if on e then vs.getD (((List.range e).filter on).length) 0 else 0) ∧
  (∀ (g : Eng) (c : Cmd) (d : Desc) (r : Nat) (s s1 s2 s3 : State) (p cs : List Byte) (vs : List Nat), 5 ≤ d.kind →
    let lo := fieldAt p 0 4
    let hi := fieldAt p 4 4
    let col (i : Nat) := fieldAt cs (4 * i) 4
    cmdRead g c (d.side + 4 * r) 8 s = .ok p s1 → lo < hi → cmdRead g c (d.aux + 4 * lo) (4 * (hi - lo)) s1 = .ok cs s2 →
    (∀ i < hi - lo, col i < d.dim0) → readPacked g c d.base d.elemBits lo (hi - lo) s2 = .ok vs s3 → vs.length = hi - lo →
    ∃ es, denseRow g c d r s = .ok (es, []) s3 ∧ es.length = d.dim0 ∧
      (∀ e < d.dim0, (∀ i < hi - lo, col i ≠ e) → es.getD e 0 = 0) ∧
      ∀ i < hi - lo, (∀ j < hi - lo, i < j → col j ≠ col i) → es.getD (col i) 0 = vs.getD i 0) ∧
  (∀ (g : Eng) (c : Cmd) (d : Desc) (r : Nat) (s s1 s3 : State) (p : List Byte) (vs : List Nat), 5 ≤ d.kind →
    cmdRead g c (d.side + 4 * r) 8 s = .ok p s1 → fieldAt p 0 4 = fieldAt p 4 4 →
    readPacked g c d.base d.elemBits (fieldAt p 0 4) 0 s1 = .ok vs s3 →
    denseRow g c d r s = .ok (List.replicate d.dim0 0, []) s3) ∧
  (∀ (g : Eng) (c : Cmd) (d : Desc) (r : Nat) (s s1 s2 s3 : State) (eb bs sc : List Byte),
    let e := leNat eb
    let a := d.base + 64 * (e / 64)
    let w := if e % 4 = 1 then 8 else 4
    tableRead g c (d.aux + 8 * r) 8 s = .ok (some eb) s1 → eb.length = 8 → e / 4 % 16 = 0 →
    (e % 4 = 0 → tableRead g c a (2 * d.dim0) s1 = .ok (some bs) s2 → tableRow g c d r s =
      .ok (.ok ((halves bs).map (FFmt.bf16.decode ·), flagIf ((halves bs).any FFmt.bf16.isSNaN) Flag.nv)) s2) ∧
    (e % 4 = 1 ∨ e % 4 = 2 → tableRead g c a (packedBytes w d.dim0) s1 = .ok (some bs) s2 →
      tableRead g c (a + packedBytes w d.dim0) (2 * d.nb) s2 = .ok (some sc) s3 → (∀ h ∈ halves sc, h < 1024) →
      d.dim0 ≤ (unpackElems w bs).length → ∃ vs fl, tableRow g c d r s = .ok (.ok (vs, fl)) s3 ∧ vs.length = d.dim0 ∧
        ∀ i < d.dim0, vs[i]? = some (scaledValue (if e % 4 = 1 then d.nf else d.coldNf) ((unpackElems w bs).getD i 0)
          ((halves sc).getD (i / 32) 0))))

end Sys2Proof.Machine

/-- The index engine: GATH writes the row its index names, of a table of any kind, or zeros past the table, to a table or entry
by entry to a queue; SCAT writes a row, of a table or of its queue, or accumulates each element at its port at once, or holds
it there for its epoch, which it closes at the end; BAGS sums the rows of a bag in list order, each sum rounded, and writes or
pushes them; ISECT walks the common occupancy words and emits each common index with its two values, to memory or to a queue;
MSORT stores the merged entries in order with their directory; SPSRCH writes the mask bytes of a group of rows (R93, R313-R323).
The model's choices: rows that SCAT skips count in COUNT, and a group of a bad form ends it with LAYOUT (log 58); a mean of BAGS
raises no flag for its division, and ISECT holds an emission back for T (log 59); the flags of SPSRCH (log 108). -/
def Obligations.IndexEngineCommands : Prop :=
  (∀ o : LaneFmt, Gathers o ∧ GathersToQueue o) ∧
  (∀ o : LaneFmt, Scatters o ∧ TakesGroups o) ∧
  (∀ (o : LaneFmt) (cl : Nat) (s s1 s2 s3 s4 s5 : State) (c : Cmd) (tbl dst : Desc) (ofs : List Byte) (bag : Bag),
    let g : Eng := { cl := cl, copy := false }
    let f := blockField c
    let lo := fieldAt ofs 0 4
    let hi := fieldAt ofs 4 4
    let opt := f 0x1C 2
    BlockTurn (.bags o) g s c → blockZero c 0x38 8 → opt < 128 → opt / 16 < 3 → opt / 2 % 2 = 0 → f 0x18 2 < 4096 →
    f 0x1A 2 < 4096 → f 0x1E 2 = 0 → cmdDesc g c (f 0x18 2) false s = .ok tbl s1 →
    cmdDesc g c (f 0x1A 2) true s1 = .ok dst s2 → tbl.kind = 4 → rowTable (f 0x1A 2) dst → dst.dim0 = tbl.dim0 →
    dst.efmt = 10 + opt / 16 → f 0x34 4 + f 0x30 4 ≤ dst.dim1 → c.count < f 0x30 4 → c.prog.nums = [] →
    cmdRead g c (f 0x28 8 + 4 * c.count) 8 s2 = .ok ofs s3 →
    (hi < lo → exec (.bags o) s = .next (ends g c 6 s3)) ∧
    (lo ≤ hi → bagRows g c tbl (opt % 2 == 1) (opt / 4 % 2 == 1) (f 0x20 8) (hi - lo) lo
        { acc := List.replicate tbl.dim0 0 } s3 = .ok bag s4 →
      let acc := if opt / 8 % 2 = 1 ∧ hi ≠ lo then
        bag.acc.map fun a => roundNE ((FFmt.f32.decode a).divFin (.fin false (hi - lo) 1)) else bag.acc
      let fmt : FFmt := if opt / 16 = 0 then .f32 else if opt / 16 = 1 then .bf16 else .f16
      let outs := acc.map fun a => roundF (FFmt.f32.decode a) fmt 0 0
      let c' := { c with
        events := c.events + bag.events
        flags := orf c.flags (outs.foldl (fun x e => orf x (roundFlags e.2)) bag.flags) }
      writeRow g c' dst (f 0x34 4 + c.count) (outs.map (·.1)) [] (dst.grid 0) 0
        (updCmd cl false c.id (fun _ => c') s4) = .ok () s5 →
      exec (.bags o) s = .next (counted g c { c' with count := c.count + 1 } (decide (c.count + 1 = f 0x30 4)) s5))) ∧
  (∀ (o : LaneFmt) (cl k : Nat) (s b s3 s4 : State) (c : Cmd) (tbl : Desc) (ofs : List Byte) (bag : Bag),
    let g : Eng := { cl := cl, copy := false }
    let f := blockField c
    let lo := fieldAt ofs 0 4
    let hi := fieldAt ofs 4 4
    let opt := f 0x1C 2
    let q := f 0x1E 2
    BlockTurn (.bags o) g s c → blockZero c 0x38 8 → opt < 128 → opt / 16 < 3 → opt / 2 % 2 = 1 → f 0x18 2 < 4096 →
    f 0x1A 2 = 0 → f 0x34 4 = 0 → cmdDesc g c (f 0x18 2) false s = .ok tbl b → tbl.kind = 4 → RowQueue b c k q true →
    c.count < f 0x30 4 →
    (c.prog.nums ≠ [] → PushesRow (.bags o) g s b c k q (f 0x30 4)) ∧
    (c.prog.nums = [] → cmdRead g c (f 0x28 8 + 4 * c.count) 8 b = .ok ofs s3 → lo ≤ hi →
      bagRows g c tbl (opt % 2 == 1) (opt / 4 % 2 == 1) (f 0x20 8) (hi - lo) lo
        { acc := List.replicate tbl.dim0 0 } s3 = .ok bag s4 →
      let acc := if opt / 8 % 2 = 1 ∧ hi ≠ lo then
        bag.acc.map fun a => roundNE ((FFmt.f32.decode a).divFin (.fin false (hi - lo) 1)) else bag.acc
      let fmt : FFmt := if opt / 16 = 0 then .f32 else if opt / 16 = 1 then .bf16 else .f16
      let outs := acc.map fun a => roundF (FFmt.f32.decode a) fmt 0 0
      exec (.bags o) s = .next (goesOn g c (holdsRow { c with
        events := c.events + bag.events
        flags := orf c.flags (outs.foldl (fun x e => orf x (roundFlags e.2)) bag.flags) }
        (rowBytes (entryBytes (queueOf b k q).width) fmt.width false (outs.map (·.1)) [])) s4))) ∧
  (∀ (n w : Nat) (es ss : List Nat), 0 < n → Padded n (packElems w es) (rowBytes n w false es ss) ∧
    ∃ x y, Padded n (unhalves ss) x ∧ Padded n (packElems w es) y ∧ rowBytes n w true es ss = x ++ y) ∧
  RowKinds ∧
  (∀ o : LaneFmt, EmitsWords o) ∧
  (∀ (o : LaneFmt) (cl : Nat) (s s1 s2 s3 s4 : State) (c : Cmd) (da db : Desc) (oa ob : Nat),
    let g : Eng := { cl := cl, copy := false }
    let f := blockField c
    let x := Walk.ofNums c.prog.nums
    BlockTurn (.isect o) g s c → blockZero c 0x1E 2 → blockZero c 0x38 8 → f 0x1C 1 = 0 → f 0x1D 1 = 0 → f 0x18 2 < 4096 →
    f 0x1A 2 < 4096 → cmdDesc g c (f 0x18 2) false s = .ok da s1 → cmdDesc g c (f 0x1A 2) false s1 = .ok db s2 →
    da.kind = 3 → db.kind = 3 → da.nd = 1 → db.nd = 1 → da.dim0 = db.dim0 →
    (x.left = 0 → (da.dim0 + 63) / 64 ≤ x.w → exec (.isect o) s = .next (ends g c 1 s2)) ∧
    (x.left = 0 → x.w < (da.dim0 + 63) / 64 → occWord g c da x.w s2 = .ok oa s3 → occWord g c db x.w s3 = .ok ob s4 →
      exec (.isect o) s = .next (goesOn g c (setWalk c { x with
        w := x.w + 1, pa := x.pa + popCount x.oa 64, pb := x.pb + popCount x.ob 64, oa := oa, ob := ob
        left := oa &&& ob }) s4)) ∧
    (∀ (s5 s6 s7 : State) (va vb : List Nat), x.left ≠ 0 →
      let j := trailZeros x.left 64
      readPacked g c da.base da.elemBits (x.pa + popCount (x.oa % 2 ^ j) 64) 1 s2 = .ok va s3 →
      readPacked g c db.base db.elemBits (x.pb + popCount (x.ob % 2 ^ j) 64) 1 s3 = .ok vb s4 →
      cmdWrite g c (f 0x20 8 + 4 * c.count) (leBytes 4 (64 * (x.w - 1) + j)) s4 = .ok () s5 →
      writePacked g c (f 0x28 8) da.elemBits c.count (va.headD 0) s5 = .ok () s6 →
      writePacked g c (f 0x30 8) db.elemBits c.count (vb.headD 0) s6 = .ok () s7 →
      exec (.isect o) s =
        .next (goesOn g c { setWalk c { x with left := x.left - 2 ^ j } with count := c.count + 1 } s7))) ∧
  (∀ (o : LaneFmt) (cl : Nat) (s s1 s2 s3 s4 s5 : State) (c : Cmd) (d : Desc) (raw : List Coord),
    let g : Eng := { cl := cl, copy := false }
    let f := blockField c
    let m := mergeCoords d (f 0x1A 2 == 1) [] (sortBy Coord.before raw) 0
    let c1 := { c with flags := orf c.flags m.2 }
    BlockTurn (.msort o) g s c → blockZero c 0x1C 4 → blockZero c 0x34 4 → blockZero c 0x38 8 → f 0x1A 2 < 2 →
    f 0x18 2 < 4096 → cmdDesc g c (f 0x18 2) true s = .ok d s1 → d.kind = 2 →
    readCoords g c d (f 0x20 8) (f 0x28 8) (f 0x30 4) 0 s1 = .ok raw s2 →
    let b := updCmd g.cl g.copy c.id (fun _ => c1) s2
    let vs := m.1.map (·.v)
    (if d.elemBits = 4 ∧ vs.length % 2 = 1 then ∃ b', cmdWrite g c1 d.base ((packElems 4 vs).take (vs.length / 2)) b = .ok () b' ∧
        writePacked g c1 d.base 4 (vs.length - 1) (vs.getLastD 0) b' = .ok () s3
      else cmdWrite g c1 d.base (packElems d.elemBits vs) b = .ok () s3) →
    cmdWrite g c1 d.side (unhalves (m.1.map (·.key))) s3 = .ok () s4 →
    cmdWrite g c1 d.aux (directory m.1 (d.grid 0 * d.grid 1 * d.grid 2 * d.grid 3) 0 0) s4 = .ok () s5 →
    exec (.msort o) s = .next (ends g c 1 (updCmd g.cl g.copy c.id (fun _ => { c1 with count := m.1.length }) s5))) ∧
  (∀ (o : LaneFmt) (cl : Nat) (s s1 s2 s3 s4 s5 s6 : State) (c : Cmd) (wt gd mk : Desc) (a b : Nat × Nat × Flags),
    let g : Eng := { cl := cl, copy := false }
    let f := blockField c
    let p := c.prog.pos
    BlockTurn (.spsrch o) g s c → blockZero c 0x1E 2 → f 0x18 2 < 4096 → f 0x1A 2 < 4096 → f 0x1C 2 < 4096 →
    cmdDesc g c (f 0x18 2) false s = .ok wt s1 → cmdDesc g c (f 0x1A 2) false s1 = .ok gd s2 →
    cmdDesc g c (f 0x1C 2) true s2 = .ok mk s3 → rowTable (f 0x18 2) wt → rowTable (f 0x1A 2) gd → rowTable (f 0x1C 2) mk →
    wt.efmt = 11 → gd.efmt = 11 → mk.efmt = 6 → wt.dim0 = gd.dim0 → wt.dim1 = gd.dim1 → wt.dim0 % 4 = 0 → wt.dim1 % 4 = 0 →
    mk.dim0 = (wt.dim0 + 7) / 8 → mk.dim1 = wt.dim1 →
    groupMask g c wt gd (2 * (p % mk.dim0)) (p / mk.dim0) s3 = .ok a s4 →
    groupMask g c wt gd (2 * (p % mk.dim0) + 1) (p / mk.dim0) s4 = .ok b s5 →
    writeMaskBytes g c mk (p % mk.dim0) (p / mk.dim0) a.1 b.1 4 s5 = .ok () s6 →
    exec (.spsrch o) s = .next (counted g c { c with
        count := c.count + a.2.1 + b.2.1, flags := orf c.flags (orf a.2.2 b.2.2), prog := { c.prog with pos := p + 1 } }
      (decide (p + 1 = mk.dim0 * (wt.dim1 / 4))) s6)) ∧
  (∀ (d : Desc) (l : List Coord), (∀ x ∈ sortBy Coord.before l, ∀ y ∈ sortBy Coord.before l, x.same y = true → x = y) →
    l.Nodup → mergeCoords d true [] (sortBy Coord.before l) 0 = (sortBy Coord.before l, 0)) ∧
  (∀ (b : Bag) (row : List Ex), b.acc.length = row.length → (b.add row).acc =
    (b.acc.zip row).map fun e => (roundF ((FFmt.f32.decode e.1).add 0 e.2) .f32 0 0).1)

/-! ### Completion, launches, gangs (R119, R301-R303, R368-R374, R378-R382) -/

namespace Sys2Proof.Machine

/-- A command leaves its engine (R302): its completion release, and but for a rejected block (R175) its counter's add with the
release after it; what it made is then its issuer's to gain at a fence, and the command, its view and its pins are gone. -/
def leaves (g : Eng) (c : Cmd) (status : Nat) : M Unit := do
  upd (release · (g.agent c) c.scope)
  if c.cntr ≠ 0 ∧ status ≠ 2 then
    tryStep c (do
      let pa ← cmdPhys c c.cntr 8 true
      if ← portAdd g c c.cntr pa 1 then upd (release · (g.agent c) c.scope))
  fenceGain g c
  dropCmd g c

/-- What completion does after its reply: where a gang holds the release, the command stays, replied, with its status; else it
leaves (R119, R302). -/
def afterReply (g : Eng) (c : Cmd) (status : Nat) : M Unit := do
  let s ← get
  if 5 ≤ c.scope && gangHolds s (g.agent c) then
    upd (updCmd g.cl g.copy c.id fun e => { e with status := some status, replied := true })
  else leaves g c status

/-- A message of the Course of a sender arrives: of this package, the oldest it sent to itself; of another, one that none sent
later has come before (R376, R377). -/
def Comes (m : CourseMsg) (sender seq : Nat) (s s' : State) : Prop :=
  (sender = selfId ∧ ∃ rest, s.selfbox = m :: rest ∧ s' = { s with selfbox := rest }) ∨
    (sender ≠ selfId ∧ s.heard.getD sender 0 ≤ seq ∧ s' = { s with heard := s.heard.insert sender (seq + 1) })

/-- A gang message of this package set out, with the sender's next sequence number. -/
def gangSent (pkg : Nat) (mk : GangMsg → CourseMsg) (m : GangMsg) (s : State) : State :=
  send { s with nextId := s.nextId + 1 } pkg (mk { m with sender := selfId, seq := s.nextId })

/-- The records a port refuses with GRAPH_BAD (R365, R366, R368): VERSION, reserved fields, alignments. -/
def BadRecord (r : List Byte) : Prop :=
  fieldAt r 0 2 ≠ 1 ∨ 16 ≤ fieldAt r 3 1 ∨ 16 ≤ fieldAt r 4 1 ∨ fieldAt r 5 3 ≠ 0 ∨ fieldAt r 8 8 % 1024 ≠ 0 ∨
    fieldAt r 0x10 8 % 16 ≠ 0 ∨ fieldAt r 0x18 8 % (if bit (fieldAt r 3 1) 3 then 64 else 8) ≠ 0 ∨
    ∃ i < 8, let w := fieldAt r (0x20 + 4 * i) 4
      if i < fieldAt r 2 1 then 2 ^ 23 ≤ w % 2 ^ 32 ∨ bit w 19 = true else w ≠ 0

/-- What accepting a record does: the release of what was written before it; then a refusal, or the launch, made and kept; a
gang's launch also arms its members, where no gang of its identifier is in flight (R368, R370, R380, R381). -/
def Accepting : Prop :=
  ∀ (ctx : Nat) (p : PortRec) (s t u : State) (id : Nat) (l : Launch) (gr : GangRec),
    let r := p.record
    let a := acceptRelease p.origin (max 4 ((recLevels r).headD default).scope) s
    (BadRecord r ↔ recordBad r = true) ∧
    (BadRecord r → acceptRecord ctx p s = .error (.status 35) a) ∧
    (¬BadRecord r → (fieldAt r 2 1 = 0 ∨ 8 < fieldAt r 2 1) →
      ∃ n t, acceptRecord ctx p s = .error (.status n) t ∧ (n = 32 ∨ n = 35)) ∧
    (¬BadRecord r → 1 ≤ fieldAt r 2 1 → fieldAt r 2 1 ≤ 8 →
      (bit (fieldAt r 3 1) 3 = false →
        (makeLaunch ctx r none a = .ok (id, l) t →
          acceptRecord ctx p s = .ok () { t with launches := t.launches.insert id l }) ∧
        (∀ e, makeLaunch ctx r none a = .error e t → acceptRecord ctx p s = .error e t)) ∧
      (bit (fieldAt r 3 1) 3 = true → readGang ctx (fieldAt r 0x18 8) a = .ok gr t →
        ((∃ x ∈ t.launches, leads x.2 ctx gr.id = true) → acceptRecord ctx p s = .error (.status 35) t) ∧
        ((∀ x ∈ t.launches, leads x.2 ctx gr.id = false) → makeLaunch ctx r (some gr.members.length) t = .ok (id, l) u →
          let l' := { l with cntr := gr.cntr, gang := .leader gr.id gr.members [] [] false }
          acceptRecord ctx p s = .ok () (toMembers l' gr.id gr.members (tenantOf u ctx) .arm
            { u with launches := u.launches.insert id l' }))))

/-- The levels of a record are checked in order; the first that is wrong is refused with LEVEL_BAD and its index (R29). -/
def LevelsChecked : Prop :=
  ∀ (ctx : Nat) (r : List Byte) (nmem : Option Nat) (s : State) (i : Nat), i < (recLevels r).length →
    levelOk (recLevels r) nmem i = false → (∀ j < i, levelOk (recLevels r) nmem j = true) →
    makeLaunch ctx r nmem s = .error (.status (32 + 256 * i)) s

/-- The graph sequencer's reply record and its add to a counter (R120, R301, R368, R374). -/
def SequencerAnswers : Prop :=
  (∀ (ctx reply status events count scope : Nat) (s : State),
    ((reply = 0 ∨ reply % 16 ≠ 0) → launchReply ctx reply status events count scope s = .ok () s) ∧
    (reply ≠ 0 → reply % 16 = 0 → launchReply ctx reply status events count scope s =
      hubStore ctx reply (leBytes 2 status ++ leBytes 2 0 ++ leBytes 4 events ++ leBytes 8 count) scope s)) ∧
  (∀ (ctx cntr scope pa n : Nat) (s s1 s2 s3 : State) (b : List Byte),
    (cntr = 0 → hubSignal ctx cntr scope s = .ok () s) ∧
    (cntr ≠ 0 → hubParts ctx true [(cntr, 8)] s = .ok (some [(pa, n)]) s1 → readPort pa 8 s1 = .ok (some b) s2 →
      (leNat b + 1 < 2 ^ 64 → writePort .hub pa (leBytes 8 (leNat b + 1)) s2 = .ok () s3 →
        hubSignal ctx cntr scope s = .ok () (release s3 .hub scope)) ∧
      (2 ^ 64 ≤ leNat b + 1 → event ctx 2 14 0 cntr 1 s2 = .ok () s3 → hubSignal ctx cntr scope s = .ok () s3))) ∧
  (∀ (id : Nat) (s : State), (∀ p ∈ (finishLaunch id s).pins, ∀ card, p.owner ≠ .launch id card) ∧
    (∀ p ∈ s.pins, (∀ card, p.owner ≠ .launch id card) → p ∈ (finishLaunch id s).pins) ∧
    { finishLaunch id s with pins := s.pins } =
      { s with launches := s.launches.modify id fun l => { l with finished := true } })

end Sys2Proof.Machine

/-- A launch port write queues a 64-byte record; one to no context is counted, one of another form dropped and counted, and one
to a full port, of 64 records, is held. LAUNCH queues its record and waits for the outcome; acceptance takes the oldest record,
accepts it or answers its refusal, with status and count; a launch that is over replies, signals its counter and gives up its
code, and a gang's member reports instead. A member arms and acknowledges or refuses; the leader commits once all have
acknowledged, and aborts on a refusal or its timeout; commit releases what members held back; reports of members and crews add
up (R29, R119, R368-R371, R374, R376-R382). The model's choices: the first failing report's status stands (log 67), and whether
a level count of 0 or above 8 is LEVEL_BAD or GRAPH_BAD is free (log 102). -/
def Obligations.LaunchesAndGangs : Prop :=
  (∀ (offset : Nat) (data : List Byte) (s : State),
    let i := Instr.launchPortWrite offset data
    let x := s.contexts.find? (offset / 4096)
    (s.boot ≠ 0xFF#16 → exec i s = .next (s.bump 17 1)) ∧
    (s.boot = 0xFF#16 → x = none → exec i s = .next (s.bump 16 1)) ∧
    (∀ v, s.boot = 0xFF#16 → x = some v →
      ((offset % 4096 ≠ 0 ∨ data.length ≠ 64) →
        exec i s = .next (s.setContext (offset / 4096) { v with launchDrop := v.launchDrop + 1 })) ∧
      (offset % 4096 = 0 → data.length = 64 → 64 ≤ v.port.length → exec i s = .next s) ∧
      (offset % 4096 = 0 → data.length = 64 → v.port.length < 64 → exec i s = .next (s.setContext (offset / 4096)
        { v with port := v.port ++ [{ record := data, origin := .host (releaseIds (s.view .host)) }] })))) ∧
  (∀ (o : LaneFmt) (cl : Nat) (s : State) (c : Cmd) (x : Context),
    let g : Eng := { cl := cl, copy := true }
    BlockTurn (.launch o) g s c → blockZero c 0x18 8 → s.contexts.find? c.ctx = some x → c.prog.pos = 0 → x.port.length < 64 →
    exec (.launch o) s = .next (updCmd cl true c.id (fun e => { e with stalled := false })
      ((updCmd cl true c.id (fun _ => { c with prog := { c.prog with pos := 1 } }) s).setContext c.ctx { x with
        port := x.port ++ [{ record := (c.prog.bytes.drop 0x20).take 64, origin := .command c.id cl }] }))) ∧
  (∀ (o : LaneFmt) (cl st : Nat) (s : State) (c : Cmd),
    let g : Eng := { cl := cl, copy := true }
    s.cur = .copyEng cl → engineHead s s.cur = some (cl, c) → c.instr = .launch o → c.lost = false → c.status = some st →
    exec (.launch o) s = .next (ends g c st s)) ∧
  (∀ (ctx : Nat) (s s1 s2 : State) (p : PortRec) (rest : List PortRec), (s.context ctx).port = p :: rest →
    (acceptRecord ctx p s = .ok () s1 → refreshReady (answerOrigin p.origin 1 0 (popPort ctx s1)) = .ok () s2 →
      exec (.launchAccept ctx) s = .next s2) ∧
    (∀ n, acceptRecord ctx p s = .error (.status n) s1 →
      launchReply ctx (fieldAt p.record 0x10 8) (n % 256) 0 (n / 256) 4
        (answerOrigin p.origin (n % 256) (n / 256) (popPort ctx (keepErrors s s1))) = .ok () s2 →
      exec (.launchAccept ctx) s = .next s2)) ∧
  Accepting ∧ LevelsChecked ∧ SequencerAnswers ∧
  (∀ (id : Nat) (s s1 s2 s3 : State) (l : Launch), s.launches.find? id = some l → l.finished = false →
    let status := l.stopped.getD 1
    let over_ := match l.gang with
      | .leader _ members _ reports committed => committed = true ∧ reports.length = members.length
      | _ => launchOver l = true
    (¬over_ → exec (.launchComplete id) s = .next s) ∧
    (over_ → (∀ gang rank leader lctx done, l.gang ≠ .member gang rank leader lctx done) →
      launchReply l.ctx l.reply status l.residues l.completed (launchScope l) s = .ok () s1 →
      hubSignal l.ctx l.cntr (launchScope l) s1 = .ok () s2 → refreshReady (finishLaunch id s2) = .ok () s3 →
      exec (.launchComplete id) s = .next s3) ∧
    (∀ gang rank leader lctx done, over_ → l.gang = .member gang rank leader lctx done →
      refreshReady (finishLaunch id (gangSent leader .report {
        sender := selfId, ctx := lctx, lctx := lctx, gangId := gang, rank := rank, nmem := 0, status := status, tenant := none
        record := [], count := l.completed, events := l.residues } s)) = .ok () s3 →
      exec (.launchComplete id) s = .next s3)) ∧
  (∀ (m : GangMsg) (s s' s1 s2 : State), Comes (.arm m) m.sender m.seq s s' →
    (armMember m s' = .ok () s1 →
      refreshReady (gangSent m.sender .ack { m with ctx := m.lctx, status := 1, record := [] } s1) = .ok () s2 →
      exec (.gangArm m) s = .next s2) ∧
    (∀ n, armMember m s' = .error (.status n) s1 → event m.ctx 7 (n % 256) 0 0 m.gangId
        (gangSent m.sender .ack { m with ctx := m.lctx, status := n % 256, record := [] } (keepErrors s' s1)) = .ok () s2 →
      exec (.gangArm m) s = .next s2)) ∧
  (∀ (m : GangMsg) (s s1 : State) (id : Nat) (l : Launch),
    (s.contexts.find? m.ctx = none → armMember m s = .error (.status 16) s) ∧
    (s.contexts.find? m.ctx ≠ none → (tenantOf s m.ctx ≠ m.tenant ∨ BadRecord m.record) →
      armMember m s = .error (.status 35) s) ∧
    (s.contexts.find? m.ctx ≠ none → tenantOf s m.ctx = m.tenant → ¬BadRecord m.record → 1 ≤ fieldAt m.record 2 1 →
      fieldAt m.record 2 1 ≤ 8 →
      (makeLaunch m.ctx m.record (some m.nmem) s = .ok (id, l) s1 → armMember m s =
        .ok () { s1 with launches := s1.launches.insert id { l with
          order := memberOrder s1 m id, reply := 0, cntr := 0, gang := .member m.gangId m.rank m.sender m.lctx false } }) ∧
      (∀ e, makeLaunch m.ctx m.record (some m.nmem) s = .error e s1 → armMember m s = .error e s1))) ∧
  (∀ (m : GangMsg) (s s' s1 : State) (id : Nat) (l : Launch) (members : List (Nat × Nat)) (acks reports : List Nat),
    Comes (.ack m) m.sender m.seq s s' → leaderOf s' m.ctx m.gangId = some (id, l) →
    l.gang = .leader m.gangId members acks reports false → isMember members m = true →
    (m.status = 1 → (addName acks m.rank).length = members.length →
      exec (.gangAcknowledge m) s = .next (commitGang id l m.gangId members (addName acks m.rank) reports s')) ∧
    (m.status = 1 → (addName acks m.rank).length ≠ members.length →
      let l' := { l with gang := .leader m.gangId members (addName acks m.rank) reports false }
      exec (.gangAcknowledge m) s = .next { s' with launches := s'.launches.insert id l' }) ∧
    (m.status ≠ 1 → abortGang id l m.gangId members s' = .ok () s1 → exec (.gangAcknowledge m) s = .next s1)) ∧
  (∀ (s s1 : State) (id gang : Nat) (l : Launch) (members : List (Nat × Nat)) (acks reports : List Nat),
    s.launches.find? id = some l → l.gang = .leader gang members acks reports false → l.finished = false →
    abortGang id l gang members s = .ok () s1 → exec (.gangArmTimeout id) s = .next s1) ∧
  (∀ (id gang : Nat) (l : Launch) (members : List (Nat × Nat)) (s s1 s2 : State),
    launchReply l.ctx l.reply 37 0 0 (launchScope l) (toMembers l gang members none .abort s) = .ok () s1 →
    refreshReady (finishLaunch id s1) = .ok () s2 → abortGang id l gang members s = .ok () s2) ∧
  (∀ (m : GangMsg) (s s' : State) (id : Nat) (l : Launch), Comes (.commit m) m.sender m.seq s s' →
    memberOf s' m = some (id, l) → ∃ t, exec (.gangCommit m) s = .next t ∧
      t.launches = s'.launches.insert id { l with gang := .member m.gangId m.rank m.sender m.lctx true, held := [] } ∧
      (∀ h ∈ l.held, ∀ w ∈ s'.mem.log, w.id ∈ h.2.2 → ∃ x ∈ t.mem.log, x.id = w.id ∧ x.cells = w.cells ∧
        { scope := clampScope h.2.1 h.1, cl := h.2.1 } ∈ x.pubs)) ∧
  (∀ (m : GangMsg) (s s' s1 s2 : State) (id : Nat) (l : Launch), Comes (.abort m) m.sender m.seq s s' →
    memberOf s' m = some (id, l) → reportMoves (endLaunch id s') = .ok () s1 → refreshReady s1 = .ok () s2 →
    exec (.gangAbort m) s = .next s2) ∧
  (∀ (m : GangMsg) (s s' : State) (id : Nat) (l : Launch) (members : List (Nat × Nat)) (acks reports : List Nat)
    (committed : Bool), Comes (.report m) m.sender m.seq s s' → leaderOf s' m.ctx m.gangId = some (id, l) →
    l.gang = .leader m.gangId members acks reports committed → isMember members m = true → m.rank ∉ reports →
    let l' := { l with
      gang := .leader m.gangId members acks (reports ++ [m.rank]) committed
      completed := l.completed + m.count
      residues := l.residues + m.events
      stopped := if m.status = 1 then l.stopped else some (l.stopped.getD m.status) }
    exec (.completionReport (.member m)) s = .next { s' with launches := s'.launches.insert id l' }) ∧
  (∀ (i : Nat) (s s1 : State),
    (s.reports[i]? = none → exec (.completionReport (.crew i)) s = .next s) ∧
    (∀ r, s.reports[i]? = some r →
      ((∃ x ∈ s.reports.take i, x.cl = r.cl) → exec (.completionReport (.crew i)) s = .next s) ∧
      ((∀ x ∈ s.reports.take i, x.cl ≠ r.cl) → refreshReady { s with
        reports := s.reports.eraseIdx i
        launches := s.launches.modify r.launch fun v => { v with
          insts := v.insts.insert (instKey r.card r.inst) .reported
          completed := v.completed + 1, residues := v.residues + if r.discarded = 0 then 0 else 1 } } = .ok () s1 →
        exec (.completionReport (.crew i)) s = .next s1)))

/-! ### The coded shuffle (R398-R415, R501) -/

namespace Sys2Proof.Machine

/-- The shuffle a packet names. -/
def packetShuf (p : Packet) : Nat := (p.comps.headD default).shid

/-- A packet is for a shuffle bound here: well formed, from a participant, to this package, and its command runs. -/
structure Arrives (kind : Nat) (p : Packet) (s : State) (x : Shuffle) (c : Cmd) : Prop where
  kind : p.pkind = kind
  form : p.wf = true
  bound : s.shuffles.find? (packetShuf p) = some x
  sender : x.parts.contains p.sender = true
  aimed : bit p.dmask x.rank = true
  cmd : shufCmd s x = some c

/-- The engine of a shuffle. -/
def shufEng (x : Shuffle) : Eng := { cl := x.cl, copy := true }

/-- The packet events, with the kind of their packets. -/
def PacketEvent (mk : Packet → Instr) (kind : Nat) : Prop :=
  (mk = .ready ∧ kind = 0x24) ∨ (mk = .solo ∧ kind = 0x20) ∨ (mk = .coded ∧ kind = 0x21) ∨ (mk = .repe ∧ kind = 0x22) ∨
  (mk = .rreq ∧ kind = 0x23) ∨ (mk = .close ∧ kind = 0x25) ∨ (mk = .quit ∧ kind = 0x26)

/-- A packet's action ends. -/
def packetDone (x : Shuffle) (shid : Nat) (r : EStateM.Result Stop State Unit) (s : State) : Option State :=
  match r with
  | .ok _ s' => some (tryClose shid s')
  | .error (.status n) s' => some (runM (finishShuf x n) (quitShuffles s' fun y => y.cl == x.cl && y.cmd == x.cmd))
  | .error _ _ => some s

end Sys2Proof.Machine

/-- SHUF binds its plan in one step, sends READY, reads its send entries once every peer is ready, each leaving alone or as
the XOR of its whole group, and completes once all have left and every CLOSE has come. A packet that is malformed or for no
shuffle here is counted; data decodes by cancelling the known blocks, a recovered block is written and held; READY, CLOSE
and QUIT are recorded, RREQ is answered, and a group whose deadline passes leaves as solos (R398-R415, R501). -/
def Obligations.ShufflesDecode : Prop :=
  (∀ (o : LaneFmt) (cl : Nat) (s s1 s2 s3 : State) (c : Cmd) (p : Plan) (nfd : Nat),
    let g : Eng := { cl := cl, copy := true }
    let plan := fieldAt c.prog.bytes 0x20 8
    BlockTurn (.shuf o) g s c → c.prog.pos = 0 → blockZero c 0x28 8 → plan % 64 = 0 → fieldAt c.prog.bytes 0x18 8 % 8 = 0 →
    readPlan g c plan s = .ok p s1 → p.ok = true → planFormat g c p s1 = .ok nfd s2 → bind g c p nfd s2 = .ok () s3 →
    exec (.shuf o) s = .next (updCmd cl true c.id (fun e => { e with stalled := false }) (tryClose p.shid
      (updCmd cl true c.id (fun v => { v with prog := { v.prog with pos := 1, nums := [p.shid] } }) s3)))) ∧
  (∀ (o : LaneFmt) (cl i : Nat) (rest : List Nat) (s s1 : State) (c : Cmd) (x : Shuffle),
    let g : Eng := { cl := cl, copy := true }
    let shid := c.prog.nums.headD 0
    BlockTurn (.shuf o) g s c → c.prog.pos ≠ 0 → s.shuffles.find? shid = some x →
    (x.ready.length + 1 < x.parts.length →
      exec (.shuf o) s = .next (updCmd cl true c.id (fun e => { e with stalled := false }) s)) ∧
    (x.parts.length ≤ x.ready.length + 1 → x.todo = i :: rest → readSend g c shid i s = .ok () s1 →
      exec (.shuf o) s = .next (updCmd cl true c.id (fun e => { e with stalled := false }) s1)) ∧
    (x.parts.length ≤ x.ready.length + 1 → x.todo = [] → (∀ e ∈ x.sends, e.left = true) → x.closed = true →
      x.closes.length + 1 = x.parts.length →
      (closeShuffle shid x s = .ok false s1 → exec (.shuf o) s = .next (ends g c 1 s1)) ∧
      (closeShuffle shid x s = .ok true s1 → exec (.shuf o) s =
        .next (ends g c 51 (quitShuffles s1 fun y => y.cl == cl && y.cmd == c.id))))) ∧
  (∀ (mk : Packet → Instr) (kind : Nat) (p : Packet) (s : State), PacketEvent mk kind →
    ((p.pkind ≠ kind ∨ p.wf = false) → exec (mk p) s = .next (s.bump 18 1)) ∧
    (p.pkind = kind → p.wf = true → s.shuffles.find? (packetShuf p) = none → exec (mk p) s = .next (s.bump 19 1)) ∧
    (∀ x, p.pkind = kind → p.wf = true → s.shuffles.find? (packetShuf p) = some x →
      (x.parts.contains p.sender = false ∨ bit p.dmask x.rank = false) → exec (mk p) s = .next (s.bump 19 1))) ∧
  (∀ (p : Packet) (s : State) (x : Shuffle) (c : Cmd), Arrives 0x24 p s x c →
    let shid := packetShuf p
    let r := x.parts.idxOf p.sender
    (x.ready.contains r = true → exec (.ready p) s = .next (tryClose shid s)) ∧
    (x.ready.contains r = false → exec (.ready p) s = .next (tryClose shid (sendPacket
      { s with shuffles := s.shuffles.modify shid fun y => { y with ready := y.ready ++ [r] } } x
      (dataPacket 0x24 (2 ^ r) [{ shid := shid, len := 0, src := 0, blk := 0 }] []))))) ∧
  (∀ (mk : Packet → Instr) (kind : Nat) (p : Packet) (s t : State) (x : Shuffle) (c : Cmd),
    (mk = .solo ∧ kind = 0x20) ∨ (mk = .coded ∧ kind = 0x21) → Arrives kind p s x c →
    packetDone x (packetShuf p) (decodeAll (shufEng x) c (packetShuf p) (retryBound s x) [(false, p)] s) s = some t →
    exec (mk p) s = .next t) ∧
  (∀ (p : Packet) (s t : State) (x : Shuffle) (c : Cmd), Arrives 0x22 p s x c →
    let s1 := countShuf x.ctx 2 1 s
    packetDone x (packetShuf p) (decodeAll (shufEng x) c (packetShuf p) (retryBound s1 x) [(false, p)] s1) s = some t →
    exec (.repe p) s = .next t) ∧
  (∀ (p : Packet) (s s1 : State) (x : Shuffle) (c : Cmd) (e : SendEntry) (form : List Byte), Arrives 0x23 p s x c →
    (x.sends.find? fun e => p.comps.any fun k => nameOf k == e.name) = some e →
    sendForm (shufEng x) c (packetShuf p) x e s = .ok form s1 →
    exec (.rreq p) s = .next (tryClose (packetShuf p)
      (sendPacket s1 x (dataPacket 0x22 (2 ^ x.parts.idxOf p.sender) [compOf e] form)))) ∧
  (∀ (p : Packet) (s : State) (x : Shuffle) (c : Cmd), Arrives 0x25 p s x c →
    exec (.close p) s = .next (tryClose (packetShuf p) { s with
      shuffles := s.shuffles.modify (packetShuf p) fun y => { y with closes := addName y.closes (x.parts.idxOf p.sender) } })) ∧
  (∀ (p : Packet) (s s1 : State) (x : Shuffle) (c : Cmd), Arrives 0x26 p s x c →
    finishShuf x 52 (unbind s (packetShuf p)) = .ok () s1 →
    exec (.quit p) s = .next (tryClose (packetShuf p) s1)) ∧
  (∀ (shid group : Nat) (s s1 : State) (x : Shuffle), s.shuffles.find? shid = some x →
    let here := x.waiting.filter fun w => (x.groups.getD group []).contains w.1
    (here = [] → exec (.pairingDeadline shid group) s = .next s) ∧
    (here ≠ [] → sendSolos shid here
      { s with shuffles := s.shuffles.modify shid fun y => { y with broken := addName y.broken group } } = .ok () s1 →
      exec (.pairingDeadline shid group) s = .next s1)) ∧
  (∀ (g : Eng) (c : Cmd) (x : Shuffle) (a b : Comp) (ea eb : SiEntry) (data bs : List Byte) (s s1 : State),
    siFind s x.ctx (nameOf a) = some ea → (ea.st = .held ∨ ea.st = .pinned) → ea.len = a.len →
    sideRead g c ea s = .ok (some bs) s1 → siFind s1 x.ctx (nameOf b) = some eb → eb.st = .expect → eb.len = b.len →
    cancelKnown g c x [a, b] data s = .ok (some (xorPad data bs, [b])) s1) ∧
  (∀ (a b : List Byte), (xorPad a b).length = max a.length b.length ∧
    ∀ i, (xorPad a b).getD i 0 = a.getD i 0 ^^^ b.getD i 0)

/-! ### Scheduling: dispatch, starts, completion, quanta, ageing, pre-emption, watchdog (R23-R27, R149, R371-R373, R438-R442,
R448) -/

/-- Dispatch takes an entry that no other placeable entry comes before and places it where it fits: a node begins with its
instance, argument, card address and TIDs in registers 1 to 11 and its pointers at its entries, or its launch is refused for
a TID; a pre-empted crew is placed again. Each half starts on its message. A crew whose halves, commands and sections are
over completes: it is gone and reports. A quantum rotates, pre-empts for an entry that only its unit could take (log 27), or
begins again; an aged entry rises one level; a higher entry that cannot be placed pre-empts the lowest crew, unless that crew
completes (R40); a save that meets no lasting error ends suspended or in the pool. A skip token enters the branch queue when it
has room and no push of S that came before it waits, and a parked wait is reported once (log 38). The model's choices: the
victim of a pre-emption is chosen over the whole partition (log 69), and a skip token that waits counts no episode (log 95). -/
def Obligations.CrewsAreScheduled : Prop :=
  (∀ (p : Placement) (s : State) (e : PoolEntry), (s.partition p.part).pool[p.index]? = some e →
    let ok := isNext s p.part p.index && fitsOn s p.part (needOf s e) p.cluster &&
      threadFits s p.part (p.cluster / 16) p.thread
    (ok = false → exec (.crewDispatch p) s = .next s) ∧
    (∀ s1 c, ok = true → e.crew = some c → restoreCrew p.part p.index c p.cluster p.thread s = .ok () s1 →
      exec (.crewDispatch p) s = .next s1) ∧
    (∀ s1 l, ok = true → e.crew = none → s.launches.find? e.launch = some l →
      dispatchNode p.part p.index e l p.cluster p.thread s = .ok () s1 → exec (.crewDispatch p) s = .next s1)) ∧
  (∀ (part i : Nat) (s : State), isNext s part i = true → ∀ j, j < (s.partition part).pool.length → j ≠ i →
    takenBefore (s.partition part).pool j i = true → placeable s part ((s.partition part).pool.getD j default) = false) ∧
  (∀ (s s1 s2 : State) (part i cl t : Nat) (e : PoolEntry) (l : Launch),
    anyDescBad e.ctx (l.cards.getD e.card default).feet s = .ok true s1 →
    dispatchNode part i e l cl t s = .ok () s2 → s2 = stopLaunch s1 e.launch 33) ∧
  (∀ (s : State) (id : Nat) (l : Launch) (e : PoolEntry) (cl slot t frame : Nat),
    let c := l.cards.getD e.card default
    let starts (v : Scalar) (entry : Word) : Prop := c.feet.length ≤ 8 → v.pc = entry ∧ v.depth = 0 ∧ v.preds = 1 ∧
      (∀ r, v.isFull r = decide (r < 32)) ∧ v.reg 1 = BitVec.ofNat 64 e.inst ∧ v.reg 2 = BitVec.ofNat 64 c.arg ∧
      v.reg 3 = BitVec.ofNat 64 (l.graph + 1024 * (e.card + 1)) ∧
      (∀ f < 8, v.reg (4 + f) = BitVec.ofNat 64 ((c.feet[f]?.map (·.tid)).getD 0)) ∧
      ∀ r, r = 0 ∨ 12 ≤ r → v.reg r = 0
    let k := newCrew s id l e cl slot t frame
    starts k.sc c.cent ∧ starts (newThread s id l e).sc c.aent ∧ (∀ n, (k.loops.getD n {}).active = false) ∧
    k.dcplCnt = 0 ∧ (∀ f, tokenCount k f = 0) ∧ k.sections = [] ∧ k.stage = .resident ∧ k.inst = e.inst ∧ k.spad = c.spad) ∧
  (∀ (c : Nat) (s : State),
    (((s.crew c).stage = .resident ∧ (s.crew c).smode = .waiting) → exec (.startClusterHalf c) s =
      .next (rouse (loopFaultNow c (s.setCrew c { s.crew c with smode := .running })) (s.crew c).cl)) ∧
    (((s.crew c).stage ≠ .resident ∨ (s.crew c).smode ≠ .waiting) → exec (.startClusterHalf c) s = .next s) ∧
    (((s.crew c).stage = .resident ∧ (s.crew c).startThread = true) → exec (.startCoxThread c) s =
      .next (s.setCrew c { s.crew c with startThread := false })) ∧
    (((s.crew c).stage ≠ .resident ∨ (s.crew c).startThread = false) → exec (.startCoxThread c) s = .next s)) ∧
  (∀ (c : Nat) (s : State),
    let k := s.crew c
    let over_ : Prop := k.stage = .resident ∧ k.smode = .stopped ∧ k.vq = [] ∧ k.mq = [] ∧ k.lq = [] ∧ k.wq = [] ∧
      crewCmds s c = false ∧ (s.thread k.thread).mode = .returned ∧ ∀ e ∈ k.sections, e.2.retired = true
    (¬over_ → exec (.crewComplete c) s = .next s) ∧
    (over_ → ∃ t, exec (.crewComplete c) s = .next t ∧ (t.crew c).stage = .gone ∧
      t.reports = s.reports ++ [{ launch := k.launch, card := k.card, inst := k.inst, cl := k.cl
                                  discarded := k.queues.foldl (fun n e => n + e.2.occ) 0, seq := c }] ∧
      ∀ p ∈ t.pins, p.owner ≠ .crew c)) ∧
  (∀ (cl : Nat) (s : State),
    (s.activeCrew cl = none → exec (.quantumExpiry cl) s = .next s) ∧
    (∀ c, s.activeCrew cl = some c → (s.crew c).stage = .resident →
      ((rotate s cl).activeCrew cl ≠ some c → exec (.quantumExpiry cl) s = .next (rotate s cl)) ∧
      ((rotate s cl).activeCrew cl = some c → unitWanted s cl c = none → exec (.quantumExpiry cl) s = .next s) ∧
      (∀ i, (rotate s cl).activeCrew cl = some c → unitWanted s cl c = some i →
        exec (.quantumExpiry cl) s = .next (preempt (promise (s.context (s.crew c).ctx).part i s) c)))) ∧
  (∀ (part i : Nat) (s : State) (e : PoolEntry), (s.partition part).pool[i]? = some e →
    ((s.context e.ctx).prioCeil.toNat ≤ e.level → exec (.ageing part i) s = .next s) ∧
    (e.level < (s.context e.ctx).prioCeil.toNat → ∃ t, exec (.ageing part i) s = .next t ∧
      (t.partition part).pool = (s.partition part).pool.eraseIdx i ++ [{ e with level := e.level + 1 }] ∧
      (∀ c, e.crew = some c → t.crew c = { s.crew c with level := e.level + 1 }) ∧
      (∀ c, e.crew ≠ some c → t.crew c = s.crew c))) ∧
  (∀ (c : Nat) (s : State),
    let part := (s.context (s.crew c).ctx).part
    let rival (d : Crew) : Prop := d.stage = .resident ∧ (s.context d.ctx).part = part
    let victim (p : Nat) : Prop := (s.crew c).level < p ∧ rival (s.crew c) ∧ ∀ e ∈ s.crews, rival e.2 →
      (s.crew c).level < e.2.level ∨ (e.2.level = (s.crew c).level ∧ e.2.order ≤ (s.crew c).order)
    ((∃ e ∈ (s.partition part).pool, placeable s part e = false ∧ victim e.level) →
      (crewDone s c = false → exec (.preemption c) s = .next (haltCrew s c false 0)) ∧
      (crewDone s c = true → exec (.preemption c) s = .next s)) ∧
    ((∀ e ∈ (s.partition part).pool, placeable s part e = false → ¬victim e.level) → exec (.preemption c) s = .next s)) ∧
  (∀ (c cause : Nat) (suspend : Bool) (s s1 : State), (s.crew c).stage = .saving suspend cause → saveLost (s.crew c) = false →
    saveDone c suspend cause s = .ok () s1 → exec (.saveComplete c) s = .next s1 ∧
      (suspend = true → (s1.crew c).stage = .suspended) ∧ (suspend = false → (s1.crew c).stage = .evicted ∧
        ∃ l, (s1.partition (s1.context (s1.crew c).ctx).part).pool =
          l ++ [{ crew := some c, ctx := (s1.crew c).ctx, level := (s1.crew c).level }])) ∧
  (∀ (c : Nat) (s : State) (w : Word) (late : Bool) (rest : List (Word × Bool)), (s.crew c).skipToks = (w, late) :: rest →
    let k := s.crew c
    (branchQueue k = none → exec (.skipToken c) s = .next (s.setCrew c { k with skipToks := rest })) ∧
    (∀ q, branchQueue k = some q → let v := k.queues.getD q {}
      (v.isFull = true → v.skip = false → exec (.skipToken c) s = .next s) ∧
      (late = true → k.atBrq = true → k.sc.stalled = true → k.smode = .running → exec (.skipToken c) s = .next s) ∧
      (v.isFull = false → (late = false ∨ k.atBrq = false ∨ k.sc.stalled = false ∨ k.smode ≠ .running) → exec (.skipToken c) s = .next (s.setCrew c { k with
        skipToks := rest, queues := k.queues.put q (v.arrive { data := leBytes 8 w.toNat, h := true }) {} })) ∧
      (v.skip = false → v.whole = false → ∀ e, (v.arrive e).entries = v.entries ++ [e]))) ∧
  (∀ (w : Owner) (s s1 : State) (pa v scope va : Nat),
    let h := match crewOf s w with
      | some c => handleOf (s.crew c)
      | none => 0
    ((s.context (ctxOf s w)).wdog = 0 → exec (.watchdogExpiry w) s = .next s) ∧
    (∀ t, w = .thread t → (s.context (ctxOf s w)).wdog ≠ 0 → parkedAt s w = some (pa, v, scope, va) →
      ((s.thread t).reported = true → exec (.watchdogExpiry w) s = .next s) ∧
      ((s.thread t).reported = false → event (ctxOf s w) 4 0 h va v s = .ok () s1 →
        exec (.watchdogExpiry w) s = .next (s1.setThread t { s1.thread t with reported := true }))) ∧
    (∀ c, w = .crew c → (s.context (ctxOf s w)).wdog ≠ 0 → parkedAt s w = some (pa, v, scope, va) →
      (s.crew c).reported = false → event (ctxOf s w) 4 0 h va v s = .ok () s1 →
        exec (.watchdogExpiry w) s = .next (s1.setCrew c { s1.crew c with reported := true })))

/-! ### Contexts and crews under command; ordered epochs and replays (R313, R318, R434, R435, R440, R449, R477) -/

/-- CTX_CREATE of a descriptor in range makes its context live and answers the identifier with status 1, or answers a status
that refuses it and creates nothing; CTX_TEAR of a context of the partition ends it with its crews; any other has no effect.
Neither acts but from level 2. The identifier and the vector where they are free are the model's choice (log 28), as the cause
with which a crew is ended by command (log 30). CREW_CMD resumes a suspended crew, ends a crew, or suspends a resident one, unless it completes (R40, R434, R435, R449). -/
def Obligations.ContextsAndCrewCommands : Prop :=
  (∀ (t va : Nat) (s : State), supervises s t = false →
    exec (.ctxCreate t va) s = .next s ∧ ∀ x, exec (.ctxTear t x) s = .next s) ∧
  (∀ (t va : Nat) (s s1 : State) (b : List Byte), supervises s t = true →
    threadRead t (lineParts 2 (va % 2 ^ 64) 64) s = .ok b s1 →
    let part := (s1.context (s1.thread t).ctx).part
    let id := fieldAt b 0 2
    (ctxRefusals s1 part b = [] → ∃ u v, exec (.ctxCreate t va) s = .next u ∧ 1 ≤ v ∧ v ≤ 256 ∧
      u.contexts.find? id = some (ctxOfDesc part b v) ∧
      (∀ x, x ≠ id → u.contexts.find? x = s1.contexts.find? x) ∧
      (u.thread t).ctxResult = BitVec.ofNat 64 (id + 2 ^ 16)) ∧
    (ctxRefusals s1 part b ≠ [] → ∃ u st i, exec (.ctxCreate t va) s = .next u ∧ u.contexts = s1.contexts ∧
      st ∈ ctxRefusals s1 part b ∧ (u.thread t).ctxResult = BitVec.ofNat 64 (i + st * 2 ^ 16))) ∧
  (∀ (s : State) (part : Nat) (b : List Byte), let l := ctxRefusals s part b
    (2 ∈ l ↔ ctxDescOk s part b = false) ∧ (3 ∈ l ↔ 256 ≤ s.contexts.length) ∧
    (4 ∈ l ↔ (s.contexts.find? (fieldAt b 0 2)).isSome = true) ∧ (5 ∈ l ↔ 65536 < sitqUsed s + fieldAt b 0x3C 4)) ∧
  (∀ (t x : Nat) (s : State), supervises s t = true →
    let by_ := (s.thread t).ctx
    (s.contexts.find? x = none → exec (.ctxTear t x) s = .next s) ∧
    (∀ v, s.contexts.find? x = some v → v.part ≠ (s.context by_).part → exec (.ctxTear t x) s = .next s) ∧
    (∀ v s1, s.contexts.find? x = some v → v.part = (s.context by_).part → tearContext by_ x s = .ok () s1 →
      exec (.ctxTear t x) s = .next s1 ∧ s1.contexts.find? x = none ∧
      ∀ c k, s1.crews.find? c = some k → k.ctx = x → k.stage = .gone)) ∧
  (∀ (part handle : Nat) (s : State), crewNamed s part handle = none →
    exec (.crewCmdResume part handle) s = .next s ∧ exec (.crewCmdEnd part handle) s = .next s ∧
    exec (.crewCmdSuspend part handle) s = .next s) ∧
  (∀ (part handle c : Nat) (s s1 s2 : State), crewNamed s part handle = some c →
    (∃ k, (c, k) ∈ s.crews ∧ k.stage ≠ .gone ∧ k.ctx = handle % 2 ^ 16 ∧ k.frame = handle / 2 ^ 16 % 2 ^ 16 ∧
      (s.context k.ctx).part = part) ∧
    ((s.crew c).stage ≠ .suspended → exec (.crewCmdResume part handle) s = .next s) ∧
    ((s.crew c).stage = .suspended → resumeCrew c s = .ok () s1 → exec (.crewCmdResume part handle) s = .next s1) ∧
    (∀ cause, pick 0 28 s = .ok cause s1 → failCrew c cause s1 = .ok () s2 →
      exec (.crewCmdEnd part handle) s = .next s2 ∧ (s2.crew c).stage = .gone) ∧
    ((s.crew c).stage = .resident → crewDone s c = false →
      exec (.crewCmdSuspend part handle) s = .next (haltCrew s c true 28)) ∧
    ((s.crew c).stage ≠ .resident ∨ crewDone s c = true → exec (.crewCmdSuspend part handle) s = .next s))

/-- Completion writes the reply record first, status, flags, events and count, or with no reply adds the flags to the crew's
sticky register and reports a status other than OK and COUNTER_OVF; then zero fills a fetch register still waiting; the
release and, but for a rejected block (R175), the counter's add follow, unless the gang holds the release, and the command,
its view and its pins are gone (R119, R301-R303). A port that has every close of an epoch applies what it holds in the order
of source package, source cluster, then sequence, once; until then it holds. A request that a port has applied already
changes nothing; a new one of another package takes effect and is recorded; one older than the port's window is an error
that lasts (R313, R318, R477). How another package's request reaches its port, under which agent it writes and what it
publishes, is the model's choice (log 90), and so are COUNTER_OVF reported as no command fault and an event's CAUSE byte
(log 54). -/
def Obligations.CommandsAndEpochsComplete : Prop :=
  ((∀ (g : Eng) (c : Cmd) (status : Nat) (s s1 s2 : State), c.replied = false → c.reply ≠ 0 →
    cmdWrite g c c.reply (leBytes 2 status ++ leBytes 2 (c.flags % 1024) ++ leBytes 4 c.events ++ leBytes 8 c.count) s =
      .ok () s1 → fillFetch c 0 s1 = .ok () s2 → complete g c status s = afterReply g c status s2) ∧
  (∀ (g : Eng) (c : Cmd) (s s1 s2 : State), c.replied = false → c.reply = 0 → stickyFlags g c s = .ok () s1 →
    fillFetch c 0 s1 = .ok () s2 →
    complete g c 1 s = afterReply g c 1 s2 ∧ complete g c 14 s = afterReply g c 14 s2) ∧
  (∀ (g : Eng) (c : Cmd) (status k : Nat) (s s1 s2 s3 : State), c.replied = false → c.reply = 0 → status ≠ 1 → status ≠ 14 →
    stickyFlags g c s = .ok () s1 → c.crew = some k → event c.ctx 1 status (handleOf (s1.crew k)) c.av.toNat status s1 = .ok () s2 →
    fillFetch c 0 s2 = .ok () s3 → complete g c status s = afterReply g c status s3) ∧
  (∀ (g : Eng) (c : Cmd) (status : Nat) (s : State), c.replied = true → complete g c status s = afterReply g c status s) ∧
  (∀ (g : Eng) (c : Cmd) (k : Nat) (s s1 : State), c.crew = some k → stickyFlags g c s = .ok () s1 →
    (g.copy = true → (s1.crew k).ceFlags = (s.crew k).ceFlags ||| BitVec.ofNat 32 (c.flags % 1024) ∧
      (s1.crew k).ixFlags = (s.crew k).ixFlags) ∧
    (g.copy = false → (s1.crew k).ixFlags = (s.crew k).ixFlags ||| BitVec.ofNat 32 (c.flags % 1024) ∧
      (s1.crew k).ceFlags = (s.crew k).ceFlags)) ∧
  (∀ (c : Cmd) (s s1 : State) (r : Nat), c.fetch = some r → (s.scalar c.issuer).pend.find? r = some (.cmd c.id) →
    ownerAway s c.issuer = false →
    fillFetch c 0 s = .ok () s1 → s1 = s.setScalar c.issuer ((s.scalar c.issuer).write r 0)) ∧
  (∀ (g : Eng) (c : Cmd) (status : Nat) (s : State), c.cntr = 0 ∨ status = 2 → (c.scope < 5 ∨ gangHolds s (g.agent c) = false) →
    ∃ t, afterReply g c status s = .ok () t ∧
    (t.cluster g.cl).queueOf g.copy = ((s.cluster g.cl).queueOf g.copy).filter (fun e => e.id != c.id) ∧
    (∀ p ∈ t.pins, p.owner ≠ .cmd c.id) ∧ (∀ p ∈ s.pins, p.owner ≠ .cmd c.id → p ∈ t.pins))) ∧
  ((∀ (epid : Nat) (s : State), s.epochs.find? epid = none → exec (.epochApply epid) s = .next s) ∧
  (∀ (epid : Nat) (s : State) (e : Epoch), s.epochs.find? epid = some e →
    let due := (e.ports.filter fun p => !p.2.applied).map (·.1)
    (e.closes < e.nsrc → exec (.epochApply epid) s = .next s) ∧
    (e.nsrc ≤ e.closes → due = [] → exec (.epochApply epid) s = .next (leaveEpoch epid none s)) ∧
    (∀ k s1 s2, e.nsrc ≤ e.closes → due ≠ [] → pick 0 (due.length - 1) s = .ok k s1 →
      let port := due.getD k 0
      let p := e.ports.getD port {}
      applyAllHeld (sortBy HeldAdd.before p.held) s1 = .ok () s2 →
      let e2 := s2.epochs.getD epid {}
      exec (.epochApply epid) s = .next (leaveEpoch epid none { s2 with
        epochs := s2.epochs.insert epid { e2 with ports := e2.ports.insert port { p with held := [], applied := true } } }))) ∧
  (∀ l : List HeldAdd, (sortBy HeldAdd.before l).Perm l ∧
    (sortBy HeldAdd.before l).Pairwise fun a b => a.package < b.package ∨ (a.package = b.package ∧
      (a.pkg = b.pkg → a.cl < b.cl ∨ (a.cl = b.cl ∧ a.seq ≤ b.seq)))) ∧
  (∀ (source sequence : Nat) (r : PortReq) (s s1 : State),
    let key := logKey r.pkg r.port source
    let p := s.portLogs.getD key {}
    ((128 ≤ source ∨ ∃ x ∈ p.recent, x.1 = sequence) → exec (.portRequestReplay source sequence r) s = .next s) ∧
    (source < 128 → (∀ x ∈ p.recent, x.1 ≠ sequence) →
      (sequence < p.next → strayReplay r.pkg source s = .ok () s1 → exec (.portRequestReplay source sequence r) s = .next s1) ∧
      (p.next ≤ sequence →
        (r.pkg = none → exec (.portRequestReplay source sequence r) s = .next s) ∧
        (∀ pkg old, r.pkg = some pkg → remoteAct source r pkg s = .ok old s1 → exec (.portRequestReplay source sequence r) s =
          .next (logRequest key old { s1 with
            portLogs := s1.portLogs.insert key { s1.portLogs.getD key {} with next := sequence } }))))))

/-! ### The host, the mailbox, bring-up, the thermal events; links, failed packages, the scrubber (R433, R467-R469, R475-R478,
R494-R499) -/

namespace Sys2Proof.Machine

/-- A mailbox command completes: the change it makes, its answer, a status, and vector 0 signalled (R495, R496). -/
def Mailed (i : Instr) (s s' : State) (a : MailAnswer) : Prop :=
  s.boot = 0xFF#16 → ∃ st n, exec i s = .next { s' with
    mailAnswer := a, mailStatus := st, msix := addName s'.msix 0, draws := n }

/-- The mailbox's commands. -/
def Mailbox (i : Instr) : Prop :=
  (∃ p l, i = .mailboxAssignUnits p l) ∨ (∃ p t, i = .mailboxAssignTenant p t) ∨ (∃ t n k, i = .mailboxRegisterKey t n k) ∨
  (∃ t q, i = .mailboxSetCacheQuota t q) ∨ (∃ w, i = .mailboxSetPowerLimit w) ∨ i = .mailboxReadErrorCounters ∨
  (∃ m, i = .mailboxUpdateFirmware m) ∨ ∃ n, i = .mailboxAttestation n

/-- An error of class 4 or 5 is counted and signals vector 0 (R465, R495). -/
def graved (s : State) (cls unit inst : Nat) : State := { s.countError cls unit inst with msix := addName s.msix 0 }

/-- An error of memory of a class is counted once, at some unit that may hold a sector (R465, R466). -/
def CountedSector (cls : Nat) (s t : State) : Prop :=
  ∃ unit inst, 1 ≤ unit ∧ unit ≤ 3 ∧ t.counters = (s.countError cls unit inst).counters

/-- The state in which the agenda's first turn runs. -/
def turned (s : State) (rest : List Turn) (u : UnitId) : State := { s with agenda := rest, cur := u }

/-- A register of the package that its reset leaves as it was: what stands in memory, the images, what is staged, and the turns and
free values to come. -/
def KeptAtReset (s t : State) : Prop :=
  t.mem = s.mem ∧ t.images = s.images ∧ t.staged = s.staged ∧ t.agenda = s.agenda ∧ t.draws = s.draws ∧ t.nextId = s.nextId

/-- A turn of the package while it brings itself up. -/
def PackageTurn (s : State) (rest : List Turn) (n : Nat) : Prop :=
  s.halted = false ∧ s.agenda = .run .package :: rest ∧ s.boot = BitVec.ofNat 16 n ∧ 1 ≤ n ∧ n ≤ 6

end Sys2Proof.Machine

/-- The host's accesses. Until bring-up is done a host write to device memory is discarded and a host read of it answers poison;
BAR0 answers with the boot status word and takes a write of the MSI-X table, and a DVSEC range says that its memory is valid, and
active once bring-up is done. Then a host read of device memory gains what is published at the package and returns it, with the
host's own writes; host memory, above the window, holds what is written there; a write to the launch window is a launch-port
write. A mailbox command is discarded and counted until bring-up is done; then it makes its change and signals vector 0.
A released reset leaves memory and the images as they are and begins step 1; each turn of bring-up does its step, or fails with the
step's number, and every change of the boot status signals vector 0. A thermal warning slows the arithmetic clock, and so does a
power at its limit; a recovery restores it, and a trip halts the package (R433, R473, R494-R499). The model's own choices: where host
memory stands, the layout of BAR0 and no answer beyond the windows (log 92), when a host write is published (log 35), the status a
mailbox command answers (log 36), the turns of bring-up (log 72), the units a self-test withdraws (log 37), the other bits of a
DVSEC register (log 105) and what attestation measures (log 106). -/
def Obligations.HostInterface : Prop :=
  (∀ (addr len : Nat) (data : List Byte) (s : State), addr < hostBase →
    (s.boot ≠ 0xFF#16 ∨ inDevice addr len = false → exec (.hostRead (.memory addr) len) s = .next { s with hostAnswer := none }) ∧
    (s.boot ≠ 0xFF#16 → inDevice addr data.length = true → exec (.hostWrite (.memory addr) data) s = .next s) ∧
    (inDevice addr data.length = false →
      (windowOffset addr = none → exec (.hostWrite (.memory addr) data) s = .next s) ∧
      (∀ o, windowOffset addr = some o →
        exec (.hostWrite (.memory addr) data) s = exec (.launchPortWrite o data) s))) ∧
  (∀ (o len : Nat) (s : State),
    (2 ^ 21 < o + len → exec (.hostRead (.bar0 o) len) s = .next { s with hostAnswer := none }) ∧
    exec (.hostRead (.bar0 statusAt) 2) s = .next { s with hostAnswer := some (leBytes 2 s.boot.toNat) }) ∧
  (∀ (o : Nat) (data : List Byte) (s : State), ∃ t, exec (.hostWrite (.bar0 o) data) s = .next { s with msixTable := t } ∧
    ∀ j, (j < msixBytes → o ≤ tableAt + j → tableAt + j < o + data.length → t.getD j 0 = data.getD (tableAt + j - o) 0) ∧
      (tableAt + j < o ∨ o + data.length ≤ tableAt + j → t.getD j 0 = s.msixTable.getD j 0)) ∧
  (∀ (range len : Nat) (data : List Byte) (s : State), exec (.hostWrite (.dvsec range) data) s = .next s ∧
    (s.boot = 0 → ∃ n, exec (.hostRead (.dvsec range) len) s = .next { s with hostAnswer := none, draws := n }) ∧
    (s.boot ≠ 0 → ∃ n w, exec (.hostRead (.dvsec range) len) s = .next { s with hostAnswer := some (leBytes 4 w), draws := n } ∧
      bit w 0 = true ∧ (bit w 1 = true ↔ s.boot = 0xFF#16) ∧ bits w 15 13 = 3)) ∧
  (∀ (i : Instr) (s : State), Mailbox i → s.boot ≠ 0xFF#16 → exec i s = .next (s.bump 17 1)) ∧
  (∀ (addr len : Nat) (ok : Bool) (s s0 s1 : State), (hostBase ≤ addr ∨ (s.boot = 0xFF#16 ∧ inDevice addr len = true)) →
    s0 = (if inDevice addr len = true then acquire s .host 4 else s) → checkCounted (sectorsOf addr len) s0 = .ok ok s1 →
    exec (.hostRead (.memory addr) len) s = .next { s1 with
      hostAnswer := if ok = true then some ((List.range len).map fun i =>
        (lastCover (s1.view .host).pend (addr + i)).getD (s1.mem.published (addr + i))) else none }) ∧
  (∀ (addr : Nat) (data : List Byte) (s s1 : State),
    (hostBase ≤ addr ∨ (s.boot = 0xFF#16 ∧ inDevice addr data.length = true)) → writePhys .host addr data s = .ok () s1 →
    ∃ k s2, pick 0 1 s1 = .ok k s2 ∧ exec (.hostWrite (.memory addr) data) s = .next (if k = 1 then release s2 .host 4 else s2)) ∧
  (∀ (part : Nat) (units : List Nat) (s : State), ∃ s', Mailed (.mailboxAssignUnits part units) s s' .none ∧
    ∀ u ∈ units, u < 64 → u ∈ (s'.partition part).units ∧ ∀ p, p ≠ part → u ∉ (s'.partition p).units) ∧
  (∀ (part tenant : Nat) (s : State), Mailed (.mailboxAssignTenant part tenant) s
    (s.setPartition part { s.partition part with tenant := some tenant }) .none) ∧
  (∀ (tenant slot : Nat) (key : List Byte) (s : State), Mailed (.mailboxRegisterKey tenant slot key) s
    (if slot < 8 then { s with keys := s.keys.insert (tenant * 8 + slot) key } else s) .none) ∧
  (∀ (tenant quota watts : Nat) (s : State),
    Mailed (.mailboxSetCacheQuota tenant quota) s { s with quotas := s.quotas.insert tenant quota } .none ∧
    (watts ≤ s.power → Mailed (.mailboxSetPowerLimit watts) s { s with powerLimit := watts, slowClock := true } .none) ∧
    (s.power < watts → Mailed (.mailboxSetPowerLimit watts) s { s with powerLimit := watts } .none) ∧
    Mailed .mailboxReadErrorCounters s s (.counters s.counters s.errorAddrs s.power s.temps)) ∧
  (∀ (m : FirmwareImage) (s : State),
    let sound := rsaVerify Config.imageModulus (sha384 m.bytes) m.rsa = true ∧
      slhVerify Config.imageKey (sha384 m.bytes) m.slh = true ∧ Config.fusedVersion ≤ Config.imageVersion m.bytes
    (sound → Mailed (.mailboxUpdateFirmware m) s { s with
      staged := (s.staged.filter fun y => y.kind != m.kind) ++ [m], cache := if m.kind = .firmware then [] else s.cache } .none) ∧
    (¬ sound → Mailed (.mailboxUpdateFirmware m) s s .none)) ∧
  (∀ (nonce : List Byte) (s : State), nonce.length = 32 → s.boot = 0xFF#16 → ∃ st n salt random,
    let m := sha384 Config.bootRom ++ sha384 (running s .firmware) ++ sha384 Config.configuration
    let h := sha384 (m ++ featureVector ++ nonce)
    exec (.mailboxAttestation nonce) s = .next { s with
      mailAnswer := .report m featureVector nonce (rsaSign Config.attestModulus Config.attestExponent h salt)
        (slhSign Config.attestKey h random)
      mailStatus := st, msix := addName s.msix 0, draws := n }) ∧
  (∀ (n : Nat) (s : State), ∃ t, exec (.resetRelease n) s = .next t ∧ KeptAtReset s t ∧
    t = { State.reset with boot := 1, bootFail := n, mem := t.mem, images := t.images, staged := t.staged, agenda := t.agenda
                           draws := t.draws, nextId := t.nextId }) ∧
  (∀ (n : Nat) (s : State) (rest : List Turn), PackageTurn s rest n →
    let b := turned s rest .package
    let ends (v : Nat) (t : State) : State := { t with boot := BitVec.ofNat 16 v, msix := addName t.msix 0 }
    (n = s.bootFail → step s = .next (ends (0x8000 + n) b)) ∧
    (n ≠ s.bootFail →
      (n = 1 → step s = .next (ends 2 b)) ∧
      (n = 2 → step s = .next (ends 3 { b with
        images := s.staged ++ s.images.filter (fun x => !s.staged.any fun y => y.kind == x.kind), staged := [] })) ∧
      (n = 3 → step s = .next (ends 4 { b with clusters := [], laneSpares := [], channelsGone := [] })) ∧
      (n = 4 → ∃ t, step s = .next (ends 5 { b with mem := t }) ∧
        ∀ a, a < hostBase → t.port a = 0 ∧ t.published a = 0 ∧ a / 32 ∉ t.poison) ∧
      (n = 5 → ∀ t, selfTests 64 b = .ok () t → step s = .next (ends 6 t)) ∧
      (n = 6 → ∃ t, step s = .next (ends 0xFF t) ∧ ∀ p < 24, linkLanes t p ∈ [8, 4, 2, 0]))) ∧
  (∀ s : State, exec .thermalWarning s = .next { s with slowClock := true } ∧
    exec .arithmeticClockRecovery s = .next { s with slowClock := false } ∧
    exec .thermalTrip s = .next { s with halted := true })

/-- A flit that fails its check is sent again and counted, and takes its link down at the sixteenth failure; a withdrawn lane
leaves the largest width that the sound lanes allow, or no link. A package declared failed is told to every package, and on the
notice its shuffles and gangs end. A scrub of a sector counts what it finds, and one that lasts poisons the sector; one of a
withdrawn pseudo-channel's counts each time (R467-R469, R473, R475-R478). The model's own choices: a repaired flit counts once in
class 2 (log 33), a lane's withdrawal shows in the management counters alone (log 71), a lasting error that the scrubber finds has no
report (log 73), and which GiB a withdrawn channel takes with it (log 111). -/
def Obligations.LinksPackagesAndScrubber : Prop :=
  (∀ (port n : Nat) (s s1 : State),
    ((24 ≤ port ∨ linkLanes s port = 0 ∨ n = 0) → exec (.flitRetransmit port n) s = .next s) ∧
    (port < 24 → linkLanes s port ≠ 0 → 1 ≤ n → n < 16 → exec (.flitRetransmit port n) s = .next (s.countError 2 10 port)) ∧
    (port < 24 → linkLanes s port ≠ 0 → 16 ≤ n → linkDown port s = .ok () s1 →
      exec (.flitRetransmit port n) s = .next s1 ∧ linkLanes s1 port = 0)) ∧
  (∀ n, linkWidth n = if 8 ≤ n then 8 else if 4 ≤ n then 4 else if 2 ≤ n then 2 else 0) ∧
  (∀ (port : Nat) (s s1 : State),
    let sound := s.links.getD port 8
    (linkLanes s port = linkWidth sound) ∧
    ((24 ≤ port ∨ linkLanes s port = 0) → exec (.laneWithdrawal port) s = .next s) ∧
    (port < 24 → 2 < sound → exec (.laneWithdrawal port) s = .next
      { graved s 4 10 port with links := s.links.put port (sound - 1) 8 }) ∧
    (port < 24 → sound = 2 → linkDown port (graved s 4 10 port) = .ok () s1 →
      exec (.laneWithdrawal port) s = .next s1 ∧ linkLanes s1 port = 0)) ∧
  (∀ (pkg : Nat) (s : State), exec (.packageDeclaredFailed pkg) s = .next (send s everyPackage (.failed pkg))) ∧
  (∀ (pkg : Nat) (s s1 : State), packageLost pkg s = .ok () s1 → exec (.failureNotification pkg) s = .next s1 ∧
    ∀ shid x, s1.shuffles.find? shid = some x → pkg ∉ x.parts) ∧
  (∀ (sector : Nat) (found : Upset) (s : State),
    (sector ∈ s.mem.poison → exec (.scrubRead sector found) s = .next s) ∧
    (sector ∉ s.mem.poison → lostSector s sector = true → ∃ t, exec (.scrubRead sector found) s = .next t ∧ CountedSector 3 s t ∧
      t.mem.log = s.mem.log ∧ t.mem.cells = s.mem.cells ∧ t.mem.poison = s.mem.poison) ∧
    (sector ∉ s.mem.poison → lostSector s sector = false → ∃ t, exec (.scrubRead sector found) s = .next t ∧
      let u := (s.mem.upsets.lookup sector).getD found
      t.mem.log = s.mem.log ∧ t.mem.cells = s.mem.cells ∧ t.mem.upsets.lookup sector = none ∧
      (u = .clean → t.counters = s.counters ∧ t.mem.poison = s.mem.poison ∧ t.errorAddrs = s.errorAddrs) ∧
      (u ≠ .clean → t.errorAddrs = s.errorAddrs ++ [sector * 32]) ∧
      (u = .corrected → CountedSector 1 s t ∧ t.mem.poison = s.mem.poison) ∧
      (u = .transient → CountedSector 2 s t ∧ t.mem.poison = s.mem.poison) ∧
      (u = .lasting → CountedSector 3 s t ∧ t.mem.poison = sector :: s.mem.poison)))

/-! ### Elements of the Sweep fabric (R333-R353, R359) -/

namespace Sys2Proof.Machine

/-- An element of a resident crew's section has an operation, and it is its context's turn there (R328). -/
structure ElemTurn (s : State) (a : ElemRef) (x : Section) (code : Nat) : Prop where
  resident : (s.crew a.c).stage = .resident
  found : (s.crew a.c).sections.find? a.sec = some x
  inside : a.el < x.size
  op : (x.record a.el).op = code
  turn : slotTurn s (s.crew a.c).cl (s.crew a.c).slot (x.place a.el) = true

/-- A state with the rotation at the element gone on after its context, which has fired there (R328). -/
def hadTurn (s : State) (a : ElemRef) (x : Section) (t : State) : State :=
  tookSlot t (s.crew a.c).cl (s.crew a.c).slot (x.place a.el)

/-- A crew with flags ORed into its sticky fabric flags. -/
def flagged (fl : Flags) (k : Crew) : Crew := if fl = 0 then k else { k with fstat := k.fstat ||| BitVec.ofNat 64 (fl % 1024) }

/-- The inputs taken, the tokens emitted, the element's new state, and the flags. -/
def movedAs (s : State) (a : ElemRef) (x : Section) (take : List Nat) (outs : List (Nat × Tok)) (st : ElemState) (fl : Flags) :
    State :=
  let k := s.crew a.c
  s.setCrew a.c (flagged fl { k with
    sections := k.sections.insert a.sec (((x.consume a.el take).emit a.el outs).setElem a.el st) })

/-- What a firing leaves. -/
def firedAs (s : State) (a : ElemRef) (x : Section) (take : List Nat) (outs : List (Nat × Tok)) (st : ElemState) (fl : Flags) :
    State := hadTurn s a x (movedAs s a x take outs st fl)

/-- The token an input offers a firing. -/
def tokAt (x : Section) (el i : Nat) : Tok := (ready x el i).getD (.pred true 0)

/-- Every used input has a token that is no marker, of one tag. -/
structure Ready (a : ElemRef) (x : Section) (tag : Nat) : Prop where
  used : (x.record a.el).usedInputs ≠ []
  heads : ∀ i ∈ (x.record a.el).usedInputs, ready x a.el i ≠ none
  tags : ∀ i ∈ (x.record a.el).usedInputs, (tokAt x a.el i).tag = tag

/-- The ports that tokens leave on have room for them. -/
def Free (s : State) (a : ElemRef) (x : Section) (outs : List (Nat × Tok)) : Prop := canEmit s a.c a.sec x a.el outs = true

/-- An operation fires on its inputs: a false guard absorbs them where it takes one, and otherwise it emits tokens, takes a
new state and raises flags; a mismatch of tags is a context fault with reason 1 (R334-R336). -/
def Operates (mk : Nat → Nat → Nat → Instr) (code : Nat) (guardable : Bool)
    (f : Section → ERec → ElemState → (Nat → Tok) → List (Nat × Tok) × ElemState × Flags) : Prop :=
  ∀ (s : State) (a : ElemRef) (x : Section), ElemTurn s a x code →
    let r := x.record a.el
    let tok := tokAt x a.el
    (∀ tag, Ready a x tag →
      (guardable = true → r.uses 3 = true → (tok 3).truth = false →
        exec (mk a.c a.sec a.el) s = .next (firedAs s a x r.usedInputs [] (x.elem a.el) 0)) ∧
      ((guardable = false ∨ r.uses 3 = false ∨ (tok 3).truth = true) →
        let q := f x r (x.elem a.el) tok
        Free s a x q.1 → exec (mk a.c a.sec a.el) s = .next (firedAs s a x r.usedInputs q.1 q.2.1 q.2.2))) ∧
    (∀ i j, i ∈ r.usedInputs → j ∈ r.usedInputs → (∀ n ∈ r.usedInputs, ready x a.el n ≠ none) →
      (tok i).tag ≠ (tok j).tag → exec (mk a.c a.sec a.el) s = .next (runM (contextFault a.c a.sec a.el 1) s))

/-- An operation with one result, emitted on port 0 with the marks of `in0`. -/
def OneResult (mk : Nat → Nat → Nat → Instr) (code : Nat) (guardable : Bool)
    (f : Section → ERec → (Nat → Tok) → Nat × Flags) : Prop :=
  Operates mk code guardable fun x r st tok =>
    let v := f x r tok
    ([(0, .data (BitVec.ofNat 32 v.1) (tok 0).tag (tok 0).headMark (tok 0).tail (tok 0).eod)], st, v.2)

/-- An arithmetic operation: the table's operation on A, B or the immediate, and C (R337, R338). -/
def Arithmetic (mk : Nat → Nat → Nat → Instr) (code : Nat) : Prop :=
  OneResult mk code true fun x r tok =>
    elemData code x r (tok 0).bits (if r.uses 1 = true then (tok 1).bits else r.imm) (tok 2).bits

/-- Elements of a group read as 8-bit, 16-bit or wider values of a format. -/
def elemValue (w : Nat) (sg : Bool) (v : Nat) : Int :=
  if sg = true ∧ 2 ^ (w - 1) ≤ v % 2 ^ w then (v % 2 ^ w : Int) - 2 ^ w else v % 2 ^ w

/-- An exact integer in a format of width w: wrapped under RND 0, saturated under RND 1 (R248). -/
def elemFit (w : Nat) (sg : Bool) (rm : Nat) (e : Int) : Nat :=
  if rm = 1 then
    (if sg = true then max (-2 ^ (w - 1)) (min (2 ^ (w - 1) - 1) e) else max 0 (min (2 ^ w - 1) e)) % 2 ^ w |>.toNat
  else (e % 2 ^ w).toNat

end Sys2Proof.Machine

/-- An element fires on a turn of its context alone, which it has where no context before it in the rotation, from the one after
that which fired there last, could fire now; an attempt that does not fire leaves the rotation as it is. Elements that compute:
ADD to MAC, MIN and MAX, the bitwise operations and the shifts give the format's result, exact and
then wrapped or saturated for integers; CMP a predicate; SEL a choice; CVT a conversion; RED one result for each group and
ACC a running one; CNT a predicate that counts; CONST its constant; PASS and FORK copies; DELAY the data of d tokens ago
(R328, R334-R339). That an integer CMP takes all ten conditions of R201 is the model's choice (log 48), and so is the order in
which contexts come to their turns (log 82). -/
def Obligations.ElementsCompute : Prop :=
  (∀ (s : State) (cl slot : Nat) (p : Nat × Nat), slotTurn s cl slot p = true ↔
    ∀ o ∈ slotsBefore s cl slot p, ∀ b, elemAt s cl o p = some b → (s.crew b.c).stage = .resident → canFire b s = false) ∧
  (∀ (s : State) (a : ElemRef) (x : Section) (code : Nat), (s.crew a.c).sections.find? a.sec = some x →
    slotTurn s (s.crew a.c).cl (s.crew a.c).slot (x.place a.el) = false → fire code a s = .next s) ∧
  (∀ (s : State) (a : ElemRef), exec (.elementAdd a.c a.sec a.el) s = fire 0x04 a s ∧
    exec (.elementPass a.c a.sec a.el) s = fire 0x1D a s) ∧
  Arithmetic .elementAdd 0x04 ∧ Arithmetic .elementSub 0x05 ∧ Arithmetic .elementMul 0x06 ∧ Arithmetic .elementMac 0x07 ∧
  Arithmetic .elementMin 0x08 ∧ Arithmetic .elementMax 0x09 ∧ Arithmetic .elementAnd 0x0A ∧ Arithmetic .elementOr 0x0B ∧
  Arithmetic .elementXor 0x0C ∧ Arithmetic .elementShl 0x0D ∧ Arithmetic .elementShr 0x0E ∧ Arithmetic .elementSar 0x0F ∧
  (∀ (w : Nat) (sg : Bool) (m rm a b c : Nat), 8 ≤ w → w ≤ 32 → rm ≤ 1 →
    let op (code : Nat) : Nat := (elemOp code (.int w sg) m rm a b c).1
    let p := elemValue w sg a
    let q := elemValue w sg b
    op 0x04 = elemFit w sg rm (p + q) ∧ op 0x05 = elemFit w sg rm (p - q) ∧ op 0x06 = elemFit w sg rm (p * q) ∧
    op 0x07 = elemFit w sg rm (p * q + elemValue w sg c) ∧
    op 0x08 = (if q < p then b else a) % 2 ^ w ∧ op 0x09 = (if p < q then b else a) % 2 ^ w ∧
    op 0x0A = (a &&& b) % 2 ^ w ∧ op 0x0B = (a ||| b) % 2 ^ w ∧ op 0x0C = (a ^^^ b) % 2 ^ w ∧
    op 0x0D = a * 2 ^ (b % 32) % 2 ^ w ∧ op 0x0E = a % 2 ^ w / 2 ^ (b % 32)) ∧
  (∀ (x : Section) (r : ERec) (a b c code : Nat), r.lan = true → (fmtOf r).width = 8 → ∀ l < 4,
    (elemData code x r a b c).1 / 2 ^ (8 * l) % 256 = (elemOp code (fmtOf r) (roundCode x r) r.rnd (a / 2 ^ (8 * l) % 256)
      (b / 2 ^ (8 * l) % 256) (c / 2 ^ (8 * l) % 256)).1) ∧
  Operates .elementCmp 0x10 true (fun _ r st tok =>
    let b := if r.uses 1 = true then (tok 1).bits else r.imm
    let v := elemCompare (fmtOf r) (bits r.param 3 0) ((tok 0).bits % 2 ^ (fmtOf r).width) (b % 2 ^ (fmtOf r).width)
    ([(0, .pred v.1 (tok 0).tag)], st, v.2)) ∧
  OneResult .elementSel 0x11 false (fun _ r tok => ((if (tok 3).truth = true then (tok 0).bits else (tok 1).bits) % 2 ^ (fmtOf r).width, 0)) ∧
  OneResult .elementCvt 0x12 true (fun x r tok =>
    let src := (EF.ofCode (bits r.param 3 0)).getD (.flt .f32)
    convertElem (NF.ofDesc 0) src (fmtOf r) (roundCode x r) r.rnd 0 ((tok 0).bits % 2 ^ src.width)) ∧
  Operates .elementRed 0x19 true (fun x r st tok =>
    let xs := st.nums ++ [(tok 0).bits % 2 ^ (fmtOf r).width]
    if closes r (tok 0) = true then
      let v := reduceGroup x r xs
      ([(0, .data (BitVec.ofNat 32 v.1) (tok 0).tag true true (tok 0).eod)], { st with nums := [] }, v.2)
    else ([], { st with nums := xs }, 0)) ∧
  Operates .elementAcc 0x1A true (fun x r st tok =>
    let code := if bits r.param 1 0 = 0 then 0x04 else if bits r.param 1 0 = 1 then 0x08 else 0x09
    let v := elemOp code (fmtOf r) (roundCode x r) r.rnd (st.nums.headD r.imm) (tok 0).bits 0
    ([(0, .data (BitVec.ofNat 32 v.1) (tok 0).tag (tok 0).headMark (tok 0).tail (tok 0).eod)],
      { st with nums := [if closes r (tok 0) = true then r.imm else v.1] }, v.2)) ∧
  Operates .elementCnt 0x1B false (fun _ r st tok =>
    ([(0, .pred (decide (st.pos + 1 < r.imm)) (tok 0).tag)], { st with pos := if st.pos + 1 = r.imm then 0 else st.pos + 1 }, 0)) ∧
  OneResult .elementConst 0x1C false (fun _ r _ => (r.imm, 0)) ∧
  Operates .elementPass 0x1D true (fun _ _ st tok => ([(0, tok 0)], st, 0)) ∧
  Operates .elementFork 0x17 false (fun _ r st tok => ((List.range (bits r.param 1 0 + 1)).map fun p => (p, tok 0), st, 0)) ∧
  Operates .elementDelay 0x1E false (fun _ r st tok =>
    ([(0, .data (BitVec.ofNat 32 (st.nums.headD r.imm)) (tok 0).tag (tok 0).headMark (tok 0).tail (tok 0).eod)],
      { st with nums := if (tok 0).tail = true then List.replicate (bits r.param 3 0) r.imm
                        else st.nums.drop 1 ++ [(tok 0).bits] }, 0))

namespace Sys2Proof.Machine

/-- A source's state once it has emitted a token: one with T ends its tile, and a due tile owes its marker (R346, R347). -/
def sourceAfter (x : Section) (st : ElemState) (t : Tok) (rest : List Tok) : ElemState :=
  if t.tail = true then
    { st with out := rest, ended := st.ended + 1, ends := st.ends.put (st.ended + 1) st.moved 0, flag := false
              mark := if x.isDue (st.ended + 1) = true then some (st.ended + 1) else none }
  else { st with out := rest }

/-- A section whose element, a `WIDEN`, has passed a token or a marker on: the subgraph it leads to acquires from now on at its scope,
or at a wider one passed before. -/
def widenedBy (x : Section) (el : Nat) : Section :=
  match x.dest el 0 with
  | none => x
  | some d =>
    let sub := (x.record d.1).subg
    { x with widened := x.widened.insert sub (max (bits (x.record el).param 2 0) (x.widened.getD sub 0)) }

/-- What a `WIDEN` releases: the sink writes that the subgraph it comes from has committed, at its scope. -/
def widenRelease (s : State) (a : ElemRef) (x : Section) : State :=
  releaseNames s (.half a.c) (bits (x.record a.el).param 2 0) (x.sunk.getD (x.feeding a.el) [])

end Sys2Proof.Machine

/-- Elements that route, and the fabric's ends: STEER, MERGE, CARRY, JOIN, WIDEN and COMMIT; SRC pops entries as tokens, SNK
packs tokens into held entries, and an AGEN reads, writes or walks; a marker is forwarded once it stands at every used input,
on every connected port, and passes WIDEN as a token does; CARRY discards those of its other inputs; a section that an alignment
blocks rewinds once, and faults the next time (R127, R128, R334, R338, R340-R344, R346-R349, R352, R353). The model's own
choices: a STEER with EXIT and tag 0 faults whichever way it points (log 49), a wait of SRC or SNK counts no stall episode (log
95), when contexts come to their turns (log 82), what a request of COMMIT makes due once every tile armed has ended (log 46), the
order of a queue's faults (log 47) and which of several blocked elements gives up first (log 86). -/
def Obligations.ElementsMoveTokens : Prop :=
  (∀ (s : State) (a : ElemRef) (x : Section) (tag : Nat), ElemTurn s a x 0x13 → Ready a x tag →
    let r := x.record a.el
    let exit := bit r.param 0
    let t := tokAt x a.el 0
    r.uses 0 = true → r.uses 3 = true →
    let o : Nat × Tok := if (tokAt x a.el 3).truth = true then (0, t)
      else (1, if exit = true then .data (BitVec.ofNat 32 t.bits) (tag - 1) t.headMark t.tail t.eod else t)
    (exit = true → tag = 0 → exec (.elementSteer a.c a.sec a.el) s = .next (runM (contextFault a.c a.sec a.el 1) s)) ∧
    ((exit = false ∨ tag ≠ 0) → Free s a x [o] →
      exec (.elementSteer a.c a.sec a.el) s = .next (firedAs s a x r.usedInputs [o] (x.elem a.el) 0))) ∧
  (∀ (s : State) (a : ElemRef) (x : Section) (p t : Tok), ElemTurn s a x 0x14 → ready x a.el 3 = some p →
    let i := if p.truth = true then 0 else 1
    ready x a.el i = some t →
    (t.tag = p.tag → Free s a x [(0, t)] →
      exec (.elementMerge a.c a.sec a.el) s = .next (firedAs s a x [i, 3] [(0, t)] (x.elem a.el) 0)) ∧
    (t.tag ≠ p.tag → exec (.elementMerge a.c a.sec a.el) s = .next (runM (contextFault a.c a.sec a.el 1) s))) ∧
  (∀ (s : State) (a : ElemRef) (x : Section) (t p : Tok), ElemTurn s a x 0x15 →
    let st := x.elem a.el
    (st.flag = false → ready x a.el 0 = some t →
      (t.tag = 7 → exec (.elementCarry a.c a.sec a.el) s = .next (runM (contextFault a.c a.sec a.el 1) s)) ∧
      (let o : Nat × Tok := (0, .data (BitVec.ofNat 32 t.bits) (t.tag + 1) t.headMark t.tail t.eod)
       t.tag ≠ 7 → Free s a x [o] →
        exec (.elementCarry a.c a.sec a.el) s = .next (firedAs s a x [0] [o] { st with flag := true } 0))) ∧
    (st.flag = true → ready x a.el 3 = some p →
      (p.truth = false → exec (.elementCarry a.c a.sec a.el) s = .next (firedAs s a x [3] [] { st with flag := false } 0)) ∧
      (p.truth = true → ready x a.el 1 = some t → t.tag = p.tag → Free s a x [(0, t)] →
        exec (.elementCarry a.c a.sec a.el) s = .next (firedAs s a x [1, 3] [(0, t)] st 0)))) ∧
  (∀ (s : State) (a : ElemRef) (x : Section), ElemTurn s a x 0x16 →
    let u := (x.record a.el).usedInputs
    let outs := (List.range u.length).map fun p => (p, Tok.data 0 (tokAt x a.el (u.headD 0)).tag false false 0)
    u ≠ [] → (∀ i ∈ u, ready x a.el i ≠ none) → Free s a x outs →
      exec (.elementJoin a.c a.sec a.el) s = .next (firedAs s a x u outs (x.elem a.el) 0)) ∧
  (∀ (s : State) (a : ElemRef) (x : Section) (t : Tok), ElemTurn s a x 0x18 →
    Tbl.sorted (s.crew a.c).sections = true → ready x a.el 0 = some t → Free s a x [(0, t)] →
    exec (.elementWiden a.c a.sec a.el) s =
      .next (firedAs (widenRelease s a x) a (widenedBy x a.el) [0] [(0, t)] (x.elem a.el) 0)) ∧
  (∀ (s : State) (a : ElemRef) (x : Section) (t : Tok), ElemTurn s a x 0x1F →
    let i := if (x.record a.el).uses 0 = true then 0 else 3
    ready x a.el i = some t →
    let y := if (if i = 0 then t.tail else t.truth) = true then { x with due := x.due ++ [x.nextDue] } else x
    exec (.elementCommit a.c a.sec a.el) s = .next (firedAs s a y [i] [] (x.elem a.el) 0)) ∧
  (∀ (s s1 : State) (a : ElemRef) (x : Section), ElemTurn s a x 0x01 →
    let st := x.elem a.el
    let q := bits (x.record a.el).param 5 0
    let v := (s.crew a.c).queues.getD q {}
    (∀ m, st.mark = some m → x.waitingMarks a.el < 2 → Free s a x [(0, .marker m)] →
      recordMarker a.c a.sec a.el m (movedAs s a x [] [(0, .marker m)] { st with mark := none } 0) = .ok () s1 →
      exec (.elementSrc a.c a.sec a.el) s = .next s1) ∧
    (∀ t rest, st.mark = none → st.out = t :: rest → Free s a x [(0, t)] →
      exec (.elementSrc a.c a.sec a.el) s = .next (firedAs s a x [] [(0, t)] (sourceAfter x st t rest) 0)) ∧
    (∀ e es t rest, st.mark = none → st.out = [] → Free s a x [(0, t)] → admitted x st = true →
      queueRefuses v 8 v.width false = none → v.entries = e :: es →
      (e.p = true → exec (.elementSrc a.c a.sec a.el) s = .next (runM (contextFault a.c a.sec a.el 7) s)) ∧
      (e.p = false → wordTokens e.h e.t (wordsOf e.data) = t :: rest →
        exec (.elementSrc a.c a.sec a.el) s = .next (firedAs (withQueue s a.c q (v.popped e es)) a x [] [(0, t)]
          (sourceAfter x { beginTile st with moved := st.moved + 1 } t rest) 0))) ∧
    (∀ o, st.mark = none → st.out = [] → admitted x st = false → Free s a x [(0, o)] →
      exec (.elementSrc a.c a.sec a.el) s = .next s)) ∧
  (∀ (s : State) (a : ElemRef) (x : Section) (t : Tok), ElemTurn s a x 0x02 →
    let r := x.record a.el
    let st := x.elem a.el
    let q := bits r.param 5 0
    let v := (s.crew a.c).queues.getD q {}
    let g := tokAt x a.el 3
    let ws := st.nums ++ [t.bits]
    let head := if st.nums = [] then t.headMark else st.head
    ready x a.el 0 = some t → (r.uses 3 = true → ready x a.el 3 ≠ none ∧ g.tag = t.tag) →
    (r.uses 3 = true → g.truth = false →
      exec (.elementSnk a.c a.sec a.el) s = .next (firedAs s a x r.usedInputs [] st 0)) ∧
    ((r.uses 3 = false ∨ g.truth = true) →
      (t.tail = false → ws.length * 4 ≠ entryBytes v.width →
        exec (.elementSnk a.c a.sec a.el) s = .next (firedAs s a x r.usedInputs [] { st with nums := ws, head := head } 0)) ∧
      ((t.tail = true ∨ ws.length * 4 = entryBytes v.width) →
        (∀ v', holdEntry v ws head t.tail = .ok v' →
          exec (.elementSnk a.c a.sec a.el) s = .next (firedAs (withQueue s a.c q v') a x r.usedInputs []
            { st with nums := [], head := false, moved := st.moved + 1 } 0)) ∧
        (holdEntry v ws head t.tail = .error none → exec (.elementSnk a.c a.sec a.el) s = .next s) ∧
        (∀ n, holdEntry v ws head t.tail = .error (some n) →
          exec (.elementSnk a.c a.sec a.el) s = .next (runM (contextFault a.c a.sec a.el n) s))))) ∧
  (∀ (s s1 : State) (a : ElemRef) (x : Section), ElemTurn s a x 0x03 →
    let r := x.record a.el
    let st := x.elem a.el
    let g := agenDesc x a.el
    let mode := bits r.param 4 3
    (∀ t rest, mode ≠ 1 → st.mark = none → st.out = t :: rest → Free s a x [(0, t)] →
      exec (.elementAgen a.c a.sec a.el) s = .next (firedAs s a x [] [(0, t)]
        (if r.isSource = true then sourceAfter x st t rest else { st with out := rest }) 0)) ∧
    (∀ t rest, mode = 2 → r.isSource = true → st.mark = none → st.out = [] → admitted x st = true → Free s a x [(0, t)] →
      ((List.range g.box.count).map fun p => Tok.data (BitVec.ofNat 32 p) 0 false (decide (p + 1 = g.box.count))
        (g.box.endBits (g.box.coords p))) = t :: rest →
      exec (.elementAgen a.c a.sec a.el) s = .next (firedAs s a x [] [(0, t)] (sourceAfter x (beginTile st) t rest) 0)) ∧
    (∀ bs t rest, mode = 0 → r.uses 0 = false → st.mark = none → st.out = [] → admitted x st = true → g.kind = 0 →
      st.pos < g.box.count → agenTile a x st.pos s = .ok (.bytes bs) s1 →
      (s1.crew a.c).sections.find? a.sec = some x →
      Free s a x [(0, t)] → Free s1 a x [(0, t)] → wordTokens true true (wordsOf bs) = t :: rest →
      exec (.elementAgen a.c a.sec a.el) s = .next (hadTurn s a x (movedAs s1 a x [] [(0, t)]
        (sourceAfter x { beginTile st with pos := st.pos + 1 } t rest) 0))) ∧
    (∀ t i y, mode = 1 → r.uses 1 = true → r.uses 3 = false → g.kind = 1 → ready x a.el 0 = some t →
      ready x a.el 1 = some i → i.tag = t.tag → (s.crew a.c).banks.getD g.bank 0 = a.sec + 1 → 4 * i.bits + 4 ≤ g.length →
      logWrite (s.crew a.c) x a.el true (cellsAt (g.bank * 524288 + g.offset + 4 * i.bits) (leBytes 4 t.bits)) st = some y →
      exec (.elementAgen a.c a.sec a.el) s = .next (firedAs s a y [0, 1] [] { st with moved := st.moved + 1 } 0))) ∧
  (∀ (s s1 : State) (a : ElemRef) (x : Section) (m code : Nat), (s.crew a.c).stage = .resident →
    (s.crew a.c).sections.find? a.sec = some x → a.el < x.size → (x.record a.el).op = code → code ≠ 0 → code ≠ 0x15 →
    (x.record a.el).isSink = false →
    let u := (x.record a.el).usedInputs
    let outs := (x.ports a.el).map fun p => (p, Tok.marker m)
    ((∃ i ∈ u, ∃ j ∈ u, markAt x a.el i ≠ markAt x a.el j) → exec (.markerForward a.c a.sec a.el) s = .next s) ∧
    ((∃ i ∈ u, markAt x a.el i = none) → exec (.markerForward a.c a.sec a.el) s = .next s) ∧
    (u ≠ [] → (∀ i ∈ u, markAt x a.el i = some m) → (x.elem a.el).out = [] → x.waitingMarks a.el < 2 → Free s a x outs →
      (code ≠ 0x18 → recordMarker a.c a.sec a.el m (movedAs s a x u outs (x.elem a.el) 0) = .ok () s1 →
        exec (.markerForward a.c a.sec a.el) s = .next s1) ∧
      (code = 0x18 → Tbl.sorted (s.crew a.c).sections = true →
        recordMarker a.c a.sec a.el m (movedAs (widenRelease s a x) a (widenedBy x a.el) u outs (x.elem a.el) 0) = .ok () s1 →
        exec (.markerForward a.c a.sec a.el) s = .next s1)) ∧
    (u ≠ [] → (∀ i ∈ u, markAt x a.el i = some m) → 2 ≤ x.waitingMarks a.el →
      exec (.markerForward a.c a.sec a.el) s = .next s)) ∧
  (∀ (s s1 : State) (a : ElemRef) (x : Section), (s.crew a.c).stage = .resident →
    (s.crew a.c).sections.find? a.sec = some x → a.el < x.size → (x.record a.el).op = 0x15 →
    let kept (i : Nat) : State := s.putSection a.c a.sec (x.consume a.el [i])
    ((markAt x a.el 1).isSome = true → exec (.markerForward a.c a.sec a.el) s = .next (kept 1)) ∧
    (markAt x a.el 1 = none → (markAt x a.el 3).isSome = true → exec (.markerForward a.c a.sec a.el) s = .next (kept 3)) ∧
    (∀ m, markAt x a.el 1 = none → markAt x a.el 3 = none → markAt x a.el 0 = some m →
      ((x.elem a.el).flag = true → exec (.markerForward a.c a.sec a.el) s = .next s) ∧
      (let outs := (x.ports a.el).map fun p => (p, Tok.marker m)
       (x.elem a.el).flag = false → x.waitingMarks a.el < 2 → Free s a x outs →
        recordMarker a.c a.sec a.el m (movedAs s a x [0] outs (x.elem a.el) 0) = .ok () s1 →
        exec (.markerForward a.c a.sec a.el) s = .next s1))) ∧
  (∀ (x : Section) (el m : Nat), (el, m) ∈ x.blocked → ∃ i j, i ∈ (x.record el).usedInputs ∧ j ∈ (x.record el).usedInputs ∧
    j ≠ i ∧ markAt x el i = some m ∧ 8 ≤ (x.queue el j).length ∧ ((x.record el).op = 0x15 → i = 0)) ∧
  (∀ (c sec : Nat) (s : State) (x : Section), (s.crew c).stage = .resident → (s.crew c).sections.find? sec = some x →
    (x.blocked = [] → exec (.alignmentAbort c sec) s = .next s) ∧
    (∀ (i el m : Nat) (s1 : State), pick 0 (x.blocked.length - 1) s = .ok i s1 → x.blocked[i]? = some (el, m) →
      (x.aborted ≠ some m →
        let k := rewindSection (countAbort (s.crew c)) sec
        exec (.alignmentAbort c sec) s = .next (s1.setCrew c { k with
          sections := k.sections.modify sec fun y => { y with aborted := some m } })) ∧
      (x.aborted = some m → exec (.alignmentAbort c sec) s =
        .next (runM (contextFault c sec el 9) (s1.setCrew c (countAbort (s.crew c)))))))

/-! ### Encodings (R165-R184) -/

/-- Decoding the words that encode a well-formed instruction gives it back, in every stream it is a lane of, at every value
of every operand. -/
def Obligations.DecodeEncodeAgree : Prop :=
  ∀ (i : Instr) (ws : List Nat), i.wf = true → encode i = some ws →
    (∀ w ∈ ws, w < 2 ^ 32) ∧ ∀ st ∈ i.streams, decodeLane st (ws.getD 0 0) (ws.getD 1 0) = .ok i

/-- A lane decodes to at most one instruction, well-formed and a lane of the stream, whose encoding is the lane's own words:
no bit is dropped and no two words name one instruction. -/
def Obligations.DecodedWordsEncodeBack : Prop :=
  ∀ (st : Stream) (w w1 : Nat) (i : Instr), w < 2 ^ 32 → w1 < 2 ^ 32 → decodeLane st w w1 = .ok i →
    i.wf = true ∧ st ∈ i.streams ∧ encode i = some (if st = .v then [w, w1] else [w])

/-- Words written out from the spec's tables decode to what they stand for (R165, R168, R173, R181-R183). -/
def Obligations.SpecWordsDecode : Prop :=
  decodeLane .a 0x4031FFFE 0 = .ok (.addi { d := 3, a := 3, imm := 16383, ta := 0 }) ∧
  decodeLane .s 0x4031FFFE 0 = .ok (.addi { d := 3, a := 3, imm := 16383, ta := 0 }) ∧
  decodeLane .a 0x80814000 0 = .ok (.ld { d := 8, a := 2, sz := 2, sx := 0, off := 0, td := 0, ta := 0 }) ∧
  decodeLane .a 0x7090C000 0 =
    .ok (.qpush { reg := 9, q := 3, h := 0, t := 0, rsv := 0, ng := 0, mf := 0, kp := 0, g := 0, tr := 0, rsv0 := 0 }) ∧
  decodeLane .s 0xB2000000 0 = .ok (.stop { d := 0, a := 0, b := 0, ng := 0, fn := 0, g := 0, ta := 0, tb := 0 }) ∧
  decodeLane .v 0x01240000 0x00020000 =
    .ok (.vadd { tok := 9, d := 256, mg := 0, rm := 0, fmt := 0, a := 0, b := 128, c := 0 }) ∧
  decodeLane .m 0x08043CB5 0 = .ok (.mver { tok := 0, arr := 0, x := 2, q := 7, f := 9, p := 3, h := 5 }) ∧
  decodeLane .copy 0x0C600000 0 =
    .ok (.shuf { a := 6, b := 0, d := 0, ver := 0, fn := 0, rsv := 0, ta := 0, tb := 0 }) ∧
  decodeLane .index 0x06600000 0 =
    .ok (.isect { a := 6, b := 0, d := 0, ver := 0, fn := 0, rsv := 0, ta := 0, tb := 0 }) ∧
  decodeLane .s 0xAA020400 0 = .ok (.fcfg { d := 0, a := 4, b := 1, ng := 0, fn := 0, g := 0, ta := 0, tb := 0 }) ∧
  decodeLane .a 0xAA020400 0 = .error .illegal ∧ decodeLane .copy 0xFE000000 0 = .error .version

/-! ### One step: what it runs (R15, R19-R25, R159-R162, R184, R297, R444) -/

/-- A fetch reads the line at the pointer, checks it, and decodes the first lane with an instruction at or after the
pointer's; with none left the pointer goes to the next line. A bad pointer, a line that is not well-formed and an illegal lane
of A or S raise causes 15, 16 and 1, and a page fault of the fetch its own. The turn of a cox thread takes
an exception due to a loss of decoupling, then one of its cluster half, and else, where no thread before it in its core's rotation
would do something now, is exec of that instruction in the state after the fetch; the rotation then goes on after it if it issued.
A thread that only stalls, or whose fetch only moves on, keeps its place. That of a cluster whose active crew runs is exec of the
instruction likewise (R16, R17, R150, R159, R161, R162, R184, R223, R444, R456). That a turn appointed to a thread which is not the
next does nothing is the model's choice (log 2), and so are what counts as keeping the place (log 79) and the pointer of a fetch
that faults (log 104). -/
def Obligations.StepRunsFetched : Prop :=
  (∀ (o : Owner) (s s1 : State) (bs : List Byte) (e : Stop),
    let pc := (s.scalar o).pc
    let va := ptrLine pc.toNat
    let l := Line.ofBytes bs
    (ptrOk pc.toNat = false → fetchAt o s = .error (.trap { cause := 15, info := pc }) s) ∧
    (ptrOk pc.toNat = true → fetchLine o va s = .error e s1 → fetchAt o s = .error e s1) ∧
    (ptrOk pc.toNat = true → fetchLine o va s = .ok bs s1 →
      (l.wf (isCox o) va = false → fetchAt o s = .error (.trap { cause := 16, info := BitVec.ofNat 64 va }) s1) ∧
      (l.wf (isCox o) va = true →
        (l.first (ptrLane pc.toNat) = none →
          fetchAt o s = .ok .moved (s1.setScalar o { s1.scalar o with pc := BitVec.ofNat 64 (va + 33) })) ∧
        ∀ k, l.first (ptrLane pc.toNat) = some k →
          let st := l.stream (isCox o) k
          let s2 := { s1.setScalar o { s1.scalar o with pc := BitVec.ofNat 64 (va + k) } with lane := l.sid k }
          (∀ i, decodeLane st (l.word k) (l.word (k + 1)) = .ok i → fetchAt o s = .ok (.run i) s2) ∧
          (decodeLane st (l.word k) (l.word (k + 1)) = .error .illegal → st = .a ∨ st = .s →
            fetchAt o s = .error (.trap { cause := 1 }) s2)))) ∧
  (∀ (s : State) (rest : List Turn) (t : Nat), s.halted = false → s.agenda = .run (.thread t) :: rest →
    let b := turned s rest (.thread t)
    (mayFetch b t = true → ∀ pc, lossNow b t = some pc → step s = .next (takeLoss t pc b)) ∧
    ((mayFetch b t = true → lossNow b t = none) → ∀ c, deliveryDue b t = some c → step s = .next (deliver b c)) ∧
    (dueNow t b = none → mayFetch b t = false → step s = .next b) ∧
    (dueNow t b = none → mayFetch b t = true →
      ((before b t).any (acts b) = true → step s = .next b) ∧
      ((before b t).any (acts b) = false →
        let r := fetchAt (.thread t) (b.setThread t { b.thread t with mode := .ready })
        (∀ i s' s'', r = .ok (.run i) s' → exec i s' = .next s'' →
          step s = .next (if stays t s' s'' = true then s'' else issued t s'')) ∧
        (∀ s', r = .ok .moved s' → step s = .next s') ∧
        (∀ e s', r = .error (.trap e) s' →
          let pc := if e.cause = 5 then laneAfter (.thread t) s' else (s'.thread t).sc.pc
          let s'' := runM (raiseAt (.thread t) e pc pc false) s'
          step s = .next (if stays t s' s'' = true then s'' else issued t s'')) ∧
        (∀ va s', r = .error (.lasting va) s' →
          let s'' := runM (containOwner (.thread t) 3 va) s'
          step s = .next (if stays t s' s'' = true then s'' else issued t s''))))) ∧
  (∀ (s : State) (t : Nat), dueNow t s = none ↔ (mayFetch s t = true → lossNow s t = none) ∧ deliveryDue s t = none) ∧
  (∀ (s : State) (t u : Nat), u ∈ before s t → u / 8 = t / 8 ∧ u ≠ t) ∧
  (∀ (s : State) (t u : Nat), u / 8 = t / 8 → u ≠ t → u ∈ before (issued t s) t) ∧
  (∀ (s : State) (rest : List Turn) (cl c : Nat), s.halted = false → s.agenda = .run (.seq cl) :: rest →
    let b := turned s rest (.seq cl)
    b.activeCrew cl = some c → (b.crew c).stage = .resident → (b.crew c).smode = .running →
    (∀ i s', fetchAt (.crew c) b = .ok (.run i) s' → step s = exec i s') ∧
    (∀ s', fetchAt (.crew c) b = .ok .moved s' → step s = .next s') ∧
    (∀ e s', fetchAt (.crew c) b = .error (.trap e) s' → e.cause ≠ 5 → step s =
      .next (runM (raiseAt (.crew c) e (s'.crew c).sc.pc (s'.crew c).sc.pc false) s')) ∧
    (∀ va s', fetchAt (.crew c) b = .error (.lasting va) s' → step s = .next (runM (containOwner (.crew c) 3 va) s')) ∧
    (∀ w s', fetchAt (.crew c) b = .ok (.badLane .m w) s' → step s = .next (handBad c .m w s')))

/-- The turn of a V, M, L or W unit is exec of the entry it finds in its command queue, and that of an engine exec of the
command at the head of its queue; an event's turn is exec of the event; with no turn appointed the schedule gives one. A
halted package only stops, until its reset is released again (R19, R21, R297, R498, R499). The agenda, and the schedule that
gives a turn where it is empty, are the model's choice (log 2): a free value stands for the order in which units act. -/
def Obligations.StepRunsQueuedAndEvents : Prop :=
  (∀ (s : State) (rest : List Turn) (u : UnitId) (c st : Nat) (e : Entry), s.halted = false → s.agenda = .run u :: rest →
    streamHead (turned s rest u) u = some (c, st, e) → e.bad = false → step s = exec e.instr (turned s rest u)) ∧
  (∀ (s : State) (rest : List Turn) (u : UnitId) (cl : Nat) (c : Cmd), s.halted = false → s.agenda = .run u :: rest →
    engineHead (turned s rest u) u = some (cl, c) → step s = exec c.instr (turned s rest u)) ∧
  (∀ (s : State) (rest : List Turn) (i : Instr), s.halted = false → s.agenda = .event i :: rest →
    step s = exec i (turned s rest .package)) ∧
  (∀ (s : State), s.halted = false → s.agenda = [] →
    step s = takeTurn (Config.schedule s.draws) { s with draws := s.draws + 1 }) ∧
  (∀ (s : State), s.halted = true → (∀ n rest, s.agenda ≠ .event (.resetRelease n) :: rest) →
    step s = .fault .packageHalted) ∧
  (∀ (s : State) (n : Nat) (rest : List Turn), s.agenda = .event (.resetRelease n) :: rest →
    step s = exec (.resetRelease n) (turned s rest .package)) ∧
  (∀ (s : State) (i : Instr) (r : Fault), exec i s ≠ .fault r) ∧ (∀ (s : State) (i : Instr) (r : Refusal), exec i s ≠ .refused r)

/-! ### Reset (R373, R498, R499) -/

/-- Right after reset the package is neither ready nor halted, and there is no context, partition, crew, launch, pin,
translation, epoch or shuffle; every thread is free; memory reads as zero with no error in it and is in canonical form. The
values of the registers before a dispatch sets them are the model's choice (log 1): zero and full, predicates false but
the first. -/
def Obligations.ResetState : Prop :=
  let s := State.reset
  s.boot = 0 ∧ s.halted = false ∧ s.slowClock = false ∧ s.contexts = [] ∧ s.partitions = [] ∧ s.crews = [] ∧ s.launches = [] ∧
  s.pins = [] ∧ s.tlb = [] ∧ s.epochs = [] ∧ s.shuffles = [] ∧ s.sit = [] ∧ s.agenda = [] ∧
  (∀ t, (s.thread t).mode = .free ∧ (s.thread t).level = 0 ∧ (s.thread t).inexc = false) ∧
  (∀ w r, (s.scalar w).reg r = 0) ∧ (∀ w r, r < 32 → (s.scalar w).isFull r = true) ∧
  (∀ w k, (s.scalar w).pred k = decide (k = 0)) ∧ (∀ w, (s.scalar w).depth = 0 ∧ (s.scalar w).pc = 0) ∧
  (∀ cl, (s.cluster cl).withdrawn = false ∧ (s.cluster cl).copyQ = [] ∧ (s.cluster cl).indexQ = []) ∧
  (∀ a, s.mem.port a = 0 ∧ s.mem.published a = 0) ∧ s.mem.poison = [] ∧ s.mem.upsets = [] ∧ s.mem.wf = true ∧
  (∀ i, exec (.hostRead (.memory 0) i) s = .next { s with hostAnswer := none })

/-! ### Memory's history (R110, R111, R124) -/

namespace Sys2Proof.Machine

/-- The initial contents stay, and so does the coherence order so far: every write of it keeps its place, its name, its agent,
its bytes and what was published of it. -/
def HistoryKept (m n : Memory) : Prop :=
  n.cells = m.cells ∧ ∃ old new : List Write, n.log = old ++ new ∧
    List.Forall₂ (fun w v : Write => v.id = w.id ∧ v.agent = w.agent ∧ v.cells = w.cells ∧ w.pubs ⊆ v.pubs) m.log old

end Sys2Proof.Machine

/-- An invariant of every step from every state: a write once in the coherence order keeps its place, its bytes and its
publications, and later writes come after it; only step 4 of bring-up empties device memory. The initial contents keep their
canonical form (R110, R111, R124, R498). -/
def Obligations.MemoryHistoryIsKept : Prop :=
  (∀ (i : Instr) (s s' : State), exec i s = .next s' → HistoryKept s.mem s'.mem) ∧
  (∀ s s' : State, step s = .next s' → HistoryKept s.mem s'.mem ∨ (s.boot = 4 ∧ s'.mem = (zeroMemory s).mem)) ∧
  (∀ (s : State) (a : Nat), a < hostBase → (zeroMemory s).mem.port a = 0 ∧ (zeroMemory s).mem.published a = 0) ∧
  (∀ s s' : State, Tbl.wf (0 : Byte) s.mem.cells = true → step s = .next s' → Tbl.wf (0 : Byte) s'.mem.cells = true)
end

