-- ==== Sys2Proof/Laws/Tables.lean ====
section
/-! SUPPORT. Laws of tables: what a read gives after a change, and that every change keeps the canonical form. -/

namespace Sys2Proof.Tbl

variable {α β : Type}

@[simp] theorem find?_nil (k : Nat) : find? ([] : Tbl α) k = none := rfl

@[simp] theorem find?_insert_same (t : Tbl α) (k : Nat) (v : α) : (t.insert k v).find? k = some v := by
  induction t with
  | nil => simp [insert, find?]
  | cons e t ih =>
    simp only [insert]
    split
    · simp [find?]
    · split
      · simp [find?]
      · next h1 h2 => simp [find?, h1, ih]

theorem find?_insert_other (t : Tbl α) {j k : Nat} (v : α) (h : j ≠ k) : (t.insert k v).find? j = t.find? j := by
  induction t with
  | nil => simp [insert, find?, Ne.symm h]
  | cons e t ih =>
    simp only [insert]
    split
    · next he => subst he; simp [find?, Ne.symm h]
    · split
      · simp only [find?, if_neg (Ne.symm h)]
      · simp only [find?]; split
        · rfl
        · exact ih

@[simp] theorem find?_erase_same (t : Tbl α) (k : Nat) : (t.erase k).find? k = none := by
  induction t with
  | nil => rfl
  | cons e t ih =>
    simp only [erase]
    split
    · exact ih
    · next h => simp [find?, h, ih]

theorem find?_erase_other (t : Tbl α) {j k : Nat} (hj : j ≠ k) : (t.erase k).find? j = t.find? j := by
  induction t with
  | nil => rfl
  | cons e t ih =>
    simp only [erase]
    split
    · next he => subst he; simp only [find?, if_neg (Ne.symm hj)]; exact ih
    · simp only [find?]; split
      · rfl
      · exact ih

@[simp] theorem getD_insert_same (t : Tbl α) (k : Nat) (v d : α) : (t.insert k v).getD k d = v := by simp [getD]

theorem getD_insert_other (t : Tbl α) {j k : Nat} (v d : α) (h : j ≠ k) : (t.insert k v).getD j d = t.getD j d := by
  simp [getD, find?_insert_other t v h]

/-- What is written is read back. -/
@[simp] theorem getD_put_same [DecidableEq α] (t : Tbl α) (k : Nat) (v d : α) : (t.put k v d).getD k d = v := by
  unfold put
  split
  · next he => simp [getD, he]
  · simp

/-- A write leaves every other index as it was. -/
theorem getD_put_other [DecidableEq α] (t : Tbl α) {j k : Nat} (v d : α) (hj : j ≠ k) :
    (t.put k v d).getD j d = t.getD j d := by
  unfold put
  split
  · simp [getD, find?_erase_other t hj]
  · exact getD_insert_other t v d hj

theorem find?_put_other [DecidableEq α] (t : Tbl α) {j k : Nat} (v d : α) (hj : j ≠ k) :
    (t.put k v d).find? j = t.find? j := by
  unfold put
  split
  · exact find?_erase_other t hj
  · exact find?_insert_other t v hj

/-! ### Canonical form -/

theorem above_of_le {t : Tbl α} {j k : Nat} (h : above k t = true) (hj : j ≤ k) : above j t = true := by
  induction t with
  | nil => rfl
  | cons e t ih =>
    simp only [above, Bool.and_eq_true, decide_eq_true_eq] at h ⊢
    exact ⟨by omega, ih h.2⟩

theorem above_insert {t : Tbl α} {j k : Nat} {v : α} (h : above j t = true) (hk : j < k) : above j (t.insert k v) = true := by
  induction t with
  | nil => simp [insert, above, hk]
  | cons e t ih =>
    have h' := h
    simp only [above, Bool.and_eq_true, decide_eq_true_eq] at h
    simp only [insert]
    split
    · simp [above, hk, h.2]
    · split
      · simp [above, hk, h.1, h.2]
      · simp [above, h.1, ih h.2]

theorem above_erase {t : Tbl α} {j k : Nat} (h : above j t = true) : above j (t.erase k) = true := by
  induction t with
  | nil => rfl
  | cons e t ih =>
    simp only [above, Bool.and_eq_true, decide_eq_true_eq] at h
    simp only [erase]
    split
    · exact ih h.2
    · simp [above, h.1, ih h.2]

theorem sorted_insert {t : Tbl α} (h : t.sorted = true) (k : Nat) (v : α) : (t.insert k v).sorted = true := by
  induction t with
  | nil => rfl
  | cons e t ih =>
    have h' := h
    simp only [sorted, Bool.and_eq_true] at h
    simp only [insert]
    split
    · next he => subst he; simp [sorted, h.1, h.2]
    · split
      · next h1 h2 =>
        simp only [sorted, Bool.and_eq_true, above, decide_eq_true_eq]
        exact ⟨⟨h2, above_of_le h.1 (by omega)⟩, h.1, h.2⟩
      · next h1 h2 =>
        simp only [sorted, Bool.and_eq_true]
        exact ⟨above_insert h.1 (by omega), ih h.2⟩

theorem sorted_erase {t : Tbl α} (h : t.sorted = true) (k : Nat) : (t.erase k).sorted = true := by
  induction t with
  | nil => rfl
  | cons e t ih =>
    have h' := h
    simp only [sorted, Bool.and_eq_true] at h
    simp only [erase]
    split
    · exact ih h.2
    · simp [sorted, above_erase h.1, ih h.2]

theorem above_filter {t : Tbl α} {k : Nat} (h : above k t = true) (p : Nat × α → Bool) : above k (t.filter p) = true := by
  induction t with
  | nil => rfl
  | cons e r ih =>
    simp only [above, Bool.and_eq_true, decide_eq_true_eq] at h
    by_cases hp : p e
    · simp only [List.filter_cons_of_pos hp, above, Bool.and_eq_true, decide_eq_true_eq]; exact ⟨h.1, ih h.2⟩
    · rw [List.filter_cons_of_neg hp]; exact ih h.2

theorem sorted_filter {t : Tbl α} (h : t.sorted = true) (p : Nat × α → Bool) : Tbl.sorted (t.filter p) = true := by
  induction t with
  | nil => rfl
  | cons e r ih =>
    simp only [sorted, Bool.and_eq_true] at h
    by_cases hp : p e
    · simp only [List.filter_cons_of_pos hp, sorted, Bool.and_eq_true]; exact ⟨above_filter h.1 p, ih h.2⟩
    · rw [List.filter_cons_of_neg hp]; exact ih h.2

theorem sorted_put [DecidableEq α] {t : Tbl α} (h : t.sorted = true) (k : Nat) (v d : α) : (t.put k v d).sorted = true := by
  unfold put; split
  · exact sorted_erase h k
  · exact sorted_insert h k v

theorem mem_insert {t : Tbl α} {k : Nat} {v : α} {e : Nat × α} (h : e ∈ t.insert k v) : e ∈ t ∨ e = (k, v) := by
  induction t with
  | nil => simp [insert] at h; exact .inr h
  | cons x t ih =>
    simp only [insert] at h
    split at h
    · rcases List.mem_cons.1 h with h | h
      · exact .inr h
      · exact .inl (List.mem_cons_of_mem _ h)
    · split at h
      · rcases List.mem_cons.1 h with h | h
        · exact .inr h
        · exact .inl h
      · rcases List.mem_cons.1 h with h | h
        · exact .inl (h ▸ List.mem_cons_self ..)
        · exact (ih h).imp (List.mem_cons_of_mem _) id

theorem mem_erase {t : Tbl α} {k : Nat} {e : Nat × α} (h : e ∈ t.erase k) : e ∈ t := by
  induction t with
  | nil => simp [erase] at h
  | cons x t ih =>
    simp only [erase] at h
    split at h
    · exact List.mem_cons_of_mem _ (ih h)
    · rcases List.mem_cons.1 h with h | h
      · exact h ▸ List.mem_cons_self ..
      · exact List.mem_cons_of_mem _ (ih h)

theorem wf_put [DecidableEq α] {t : Tbl α} {d : α} (h : t.wf d = true) (k : Nat) (v : α) : (t.put k v d).wf d = true := by
  simp only [wf, Bool.and_eq_true, List.all_eq_true, Bool.not_eq_true', decide_eq_false_iff_not] at h ⊢
  refine ⟨sorted_put h.1 k v d, fun e he => ?_⟩
  unfold put at he
  split at he
  · exact h.2 e (mem_erase he)
  · next hv => rcases mem_insert he with he | he
               · exact h.2 e he
               · exact he ▸ hv

theorem wf_filter [DecidableEq α] {t : Tbl α} {d : α} (h : t.wf d = true) (p : Nat × α → Bool) : Tbl.wf d (t.filter p) = true := by
  simp only [wf, Bool.and_eq_true, List.all_eq_true] at *
  exact ⟨sorted_filter h.1 p, fun e he => h.2 e (List.mem_of_mem_filter he)⟩

theorem above_mapVals (f : α → β) {t : Tbl α} {k : Nat} (h : above k t = true) : above k (mapVals f t) = true := by
  induction t with
  | nil => rfl
  | cons e t ih =>
    simp only [above, Bool.and_eq_true, decide_eq_true_eq, mapVals] at h ⊢
    exact ⟨h.1, ih h.2⟩

theorem sorted_mapVals (f : α → β) {t : Tbl α} (h : t.sorted = true) : (mapVals f t).sorted = true := by
  induction t with
  | nil => rfl
  | cons e t ih =>
    simp only [sorted, Bool.and_eq_true, mapVals] at h ⊢
    exact ⟨above_mapVals f h.1, ih h.2⟩

theorem find?_mapVals (f : α → β) (t : Tbl α) (k : Nat) : (mapVals f t).find? k = (t.find? k).map f := by
  induction t with
  | nil => rfl
  | cons e t ih =>
    simp only [mapVals, find?]
    split
    · rfl
    · exact ih

/-- Nothing is listed at an index below those of a table. -/
theorem find?_of_above {t : Tbl α} {j k : Nat} (h : above j t = true) (hk : k ≤ j) : t.find? k = none := by
  induction t with
  | nil => rfl
  | cons e t ih =>
    simp only [above, Bool.and_eq_true, decide_eq_true_eq] at h
    simp only [find?]
    rw [if_neg (by omega)]
    exact ih h.2

/-- Two sorted tables that read alike are equal: a table's form is unique. -/
theorem ext_of_find? {t u : Tbl α} (ht : t.sorted = true) (hu : u.sorted = true) (h : ∀ k, t.find? k = u.find? k) : t = u := by
  induction t generalizing u with
  | nil =>
    cases u with
    | nil => rfl
    | cons e u => have := h e.1; simp [find?] at this
  | cons e t ih =>
    cases u with
    | nil => have := h e.1; simp [find?] at this
    | cons f u =>
      simp only [sorted, Bool.and_eq_true] at ht hu
      have he := h e.1
      have hf := h f.1
      simp only [find?, if_pos] at he hf
      have hk : e.1 = f.1 := by
        rcases Nat.lt_trichotomy e.1 f.1 with hlt | heq | hgt
        · rw [if_neg (by omega), find?_of_above hu.1 (by omega)] at he; cases he
        · exact heq
        · rw [if_neg (by omega), find?_of_above ht.1 (by omega)] at hf; cases hf
      rw [if_pos hk.symm] at he
      have hv : e = f := Prod.ext hk (by simpa using he)
      subst hv
      congr 1
      refine ih ht.2 hu.2 fun k => ?_
      have := h k
      simp only [find?] at this
      by_cases h1 : e.1 = k
      · rw [find?_of_above ht.1 (by omega), find?_of_above hu.1 (by omega)]
      · simpa [h1] using this

end Sys2Proof.Tbl
end

