-- ==== Sys2Proof/Laws/State.lean ====
section
/-! SUPPORT. Laws of the state: one lemma for each field and each update, and what a part reads as after a change. -/

namespace Sys2Proof.Machine.State

/-! ### Fields an update leaves -/

@[simp] theorem setThread_boot (s : State) (t : Nat) (v : Thread) : (s.setThread t v).boot = s.boot := rfl
@[simp] theorem setThread_bootFail (s : State) (t : Nat) (v : Thread) : (s.setThread t v).bootFail = s.bootFail := rfl
@[simp] theorem setThread_halted (s : State) (t : Nat) (v : Thread) : (s.setThread t v).halted = s.halted := rfl
@[simp] theorem setThread_slowClock (s : State) (t : Nat) (v : Thread) : (s.setThread t v).slowClock = s.slowClock := rfl
@[simp] theorem setThread_mem (s : State) (t : Nat) (v : Thread) : (s.setThread t v).mem = s.mem := rfl
@[simp] theorem setThread_views (s : State) (t : Nat) (v : Thread) : (s.setThread t v).views = s.views := rfl
@[simp] theorem setThread_tlb (s : State) (t : Nat) (v : Thread) : (s.setThread t v).tlb = s.tlb := rfl
@[simp] theorem setThread_pins (s : State) (t : Nat) (v : Thread) : (s.setThread t v).pins = s.pins := rfl
@[simp] theorem setThread_turns (s : State) (t : Nat) (v : Thread) : (s.setThread t v).turns = s.turns := rfl
@[simp] theorem setThread_clusters (s : State) (t : Nat) (v : Thread) : (s.setThread t v).clusters = s.clusters := rfl
@[simp] theorem setThread_crews (s : State) (t : Nat) (v : Thread) : (s.setThread t v).crews = s.crews := rfl
@[simp] theorem setThread_contexts (s : State) (t : Nat) (v : Thread) : (s.setThread t v).contexts = s.contexts := rfl
@[simp] theorem setThread_partitions (s : State) (t : Nat) (v : Thread) : (s.setThread t v).partitions = s.partitions := rfl
@[simp] theorem setThread_launches (s : State) (t : Nat) (v : Thread) : (s.setThread t v).launches = s.launches := rfl
@[simp] theorem setThread_counters (s : State) (t : Nat) (v : Thread) : (s.setThread t v).counters = s.counters := rfl
@[simp] theorem setThread_errorAddrs (s : State) (t : Nat) (v : Thread) : (s.setThread t v).errorAddrs = s.errorAddrs := rfl
@[simp] theorem setThread_msix (s : State) (t : Nat) (v : Thread) : (s.setThread t v).msix = s.msix := rfl
@[simp] theorem setThread_portLogs (s : State) (t : Nat) (v : Thread) : (s.setThread t v).portLogs = s.portLogs := rfl
@[simp] theorem setThread_epochs (s : State) (t : Nat) (v : Thread) : (s.setThread t v).epochs = s.epochs := rfl
@[simp] theorem setThread_reports (s : State) (t : Nat) (v : Thread) : (s.setThread t v).reports = s.reports := rfl
@[simp] theorem setThread_heard (s : State) (t : Nat) (v : Thread) : (s.setThread t v).heard = s.heard := rfl
@[simp] theorem setThread_outbox (s : State) (t : Nat) (v : Thread) : (s.setThread t v).outbox = s.outbox := rfl
@[simp] theorem setThread_selfbox (s : State) (t : Nat) (v : Thread) : (s.setThread t v).selfbox = s.selfbox := rfl
@[simp] theorem setThread_shuffles (s : State) (t : Nat) (v : Thread) : (s.setThread t v).shuffles = s.shuffles := rfl
@[simp] theorem setThread_sit (s : State) (t : Nat) (v : Thread) : (s.setThread t v).sit = s.sit := rfl
@[simp] theorem setThread_links (s : State) (t : Nat) (v : Thread) : (s.setThread t v).links = s.links := rfl
@[simp] theorem setThread_laneSpares (s : State) (t : Nat) (v : Thread) : (s.setThread t v).laneSpares = s.laneSpares := rfl
@[simp] theorem setThread_channelsGone (s : State) (t : Nat) (v : Thread) : (s.setThread t v).channelsGone = s.channelsGone := rfl
@[simp] theorem setThread_withdrawals (s : State) (t : Nat) (v : Thread) : (s.setThread t v).withdrawals = s.withdrawals := rfl
@[simp] theorem setThread_keys (s : State) (t : Nat) (v : Thread) : (s.setThread t v).keys = s.keys := rfl
@[simp] theorem setThread_quotas (s : State) (t : Nat) (v : Thread) : (s.setThread t v).quotas = s.quotas := rfl
@[simp] theorem setThread_cache (s : State) (t : Nat) (v : Thread) : (s.setThread t v).cache = s.cache := rfl
@[simp] theorem setThread_evictions (s : State) (t : Nat) (v : Thread) : (s.setThread t v).evictions = s.evictions := rfl
@[simp] theorem setThread_powerLimit (s : State) (t : Nat) (v : Thread) : (s.setThread t v).powerLimit = s.powerLimit := rfl
@[simp] theorem setThread_power (s : State) (t : Nat) (v : Thread) : (s.setThread t v).power = s.power := rfl
@[simp] theorem setThread_temps (s : State) (t : Nat) (v : Thread) : (s.setThread t v).temps = s.temps := rfl
@[simp] theorem setThread_images (s : State) (t : Nat) (v : Thread) : (s.setThread t v).images = s.images := rfl
@[simp] theorem setThread_staged (s : State) (t : Nat) (v : Thread) : (s.setThread t v).staged = s.staged := rfl
@[simp] theorem setThread_msixTable (s : State) (t : Nat) (v : Thread) : (s.setThread t v).msixTable = s.msixTable := rfl
@[simp] theorem setThread_hostAnswer (s : State) (t : Nat) (v : Thread) : (s.setThread t v).hostAnswer = s.hostAnswer := rfl
@[simp] theorem setThread_mailStatus (s : State) (t : Nat) (v : Thread) : (s.setThread t v).mailStatus = s.mailStatus := rfl
@[simp] theorem setThread_mailAnswer (s : State) (t : Nat) (v : Thread) : (s.setThread t v).mailAnswer = s.mailAnswer := rfl
@[simp] theorem setThread_cur (s : State) (t : Nat) (v : Thread) : (s.setThread t v).cur = s.cur := rfl
@[simp] theorem setThread_lane (s : State) (t : Nat) (v : Thread) : (s.setThread t v).lane = s.lane := rfl
@[simp] theorem setThread_agenda (s : State) (t : Nat) (v : Thread) : (s.setThread t v).agenda = s.agenda := rfl
@[simp] theorem setThread_draws (s : State) (t : Nat) (v : Thread) : (s.setThread t v).draws = s.draws := rfl
@[simp] theorem setThread_nextId (s : State) (t : Nat) (v : Thread) : (s.setThread t v).nextId = s.nextId := rfl

@[simp] theorem setCluster_boot (s : State) (c : Nat) (v : Cluster) : (s.setCluster c v).boot = s.boot := rfl
@[simp] theorem setCluster_bootFail (s : State) (c : Nat) (v : Cluster) : (s.setCluster c v).bootFail = s.bootFail := rfl
@[simp] theorem setCluster_halted (s : State) (c : Nat) (v : Cluster) : (s.setCluster c v).halted = s.halted := rfl
@[simp] theorem setCluster_slowClock (s : State) (c : Nat) (v : Cluster) : (s.setCluster c v).slowClock = s.slowClock := rfl
@[simp] theorem setCluster_mem (s : State) (c : Nat) (v : Cluster) : (s.setCluster c v).mem = s.mem := rfl
@[simp] theorem setCluster_views (s : State) (c : Nat) (v : Cluster) : (s.setCluster c v).views = s.views := rfl
@[simp] theorem setCluster_tlb (s : State) (c : Nat) (v : Cluster) : (s.setCluster c v).tlb = s.tlb := rfl
@[simp] theorem setCluster_pins (s : State) (c : Nat) (v : Cluster) : (s.setCluster c v).pins = s.pins := rfl
@[simp] theorem setCluster_threads (s : State) (c : Nat) (v : Cluster) : (s.setCluster c v).threads = s.threads := rfl
@[simp] theorem setCluster_turns (s : State) (c : Nat) (v : Cluster) : (s.setCluster c v).turns = s.turns := rfl
@[simp] theorem setCluster_crews (s : State) (c : Nat) (v : Cluster) : (s.setCluster c v).crews = s.crews := rfl
@[simp] theorem setCluster_contexts (s : State) (c : Nat) (v : Cluster) : (s.setCluster c v).contexts = s.contexts := rfl
@[simp] theorem setCluster_partitions (s : State) (c : Nat) (v : Cluster) : (s.setCluster c v).partitions = s.partitions := rfl
@[simp] theorem setCluster_launches (s : State) (c : Nat) (v : Cluster) : (s.setCluster c v).launches = s.launches := rfl
@[simp] theorem setCluster_counters (s : State) (c : Nat) (v : Cluster) : (s.setCluster c v).counters = s.counters := rfl
@[simp] theorem setCluster_errorAddrs (s : State) (c : Nat) (v : Cluster) : (s.setCluster c v).errorAddrs = s.errorAddrs := rfl
@[simp] theorem setCluster_msix (s : State) (c : Nat) (v : Cluster) : (s.setCluster c v).msix = s.msix := rfl
@[simp] theorem setCluster_portLogs (s : State) (c : Nat) (v : Cluster) : (s.setCluster c v).portLogs = s.portLogs := rfl
@[simp] theorem setCluster_epochs (s : State) (c : Nat) (v : Cluster) : (s.setCluster c v).epochs = s.epochs := rfl
@[simp] theorem setCluster_reports (s : State) (c : Nat) (v : Cluster) : (s.setCluster c v).reports = s.reports := rfl
@[simp] theorem setCluster_heard (s : State) (c : Nat) (v : Cluster) : (s.setCluster c v).heard = s.heard := rfl
@[simp] theorem setCluster_outbox (s : State) (c : Nat) (v : Cluster) : (s.setCluster c v).outbox = s.outbox := rfl
@[simp] theorem setCluster_selfbox (s : State) (c : Nat) (v : Cluster) : (s.setCluster c v).selfbox = s.selfbox := rfl
@[simp] theorem setCluster_shuffles (s : State) (c : Nat) (v : Cluster) : (s.setCluster c v).shuffles = s.shuffles := rfl
@[simp] theorem setCluster_sit (s : State) (c : Nat) (v : Cluster) : (s.setCluster c v).sit = s.sit := rfl
@[simp] theorem setCluster_links (s : State) (c : Nat) (v : Cluster) : (s.setCluster c v).links = s.links := rfl
@[simp] theorem setCluster_laneSpares (s : State) (c : Nat) (v : Cluster) : (s.setCluster c v).laneSpares = s.laneSpares := rfl
@[simp] theorem setCluster_channelsGone (s : State) (c : Nat) (v : Cluster) : (s.setCluster c v).channelsGone = s.channelsGone := rfl
@[simp] theorem setCluster_withdrawals (s : State) (c : Nat) (v : Cluster) : (s.setCluster c v).withdrawals = s.withdrawals := rfl
@[simp] theorem setCluster_keys (s : State) (c : Nat) (v : Cluster) : (s.setCluster c v).keys = s.keys := rfl
@[simp] theorem setCluster_quotas (s : State) (c : Nat) (v : Cluster) : (s.setCluster c v).quotas = s.quotas := rfl
@[simp] theorem setCluster_cache (s : State) (c : Nat) (v : Cluster) : (s.setCluster c v).cache = s.cache := rfl
@[simp] theorem setCluster_evictions (s : State) (c : Nat) (v : Cluster) : (s.setCluster c v).evictions = s.evictions := rfl
@[simp] theorem setCluster_powerLimit (s : State) (c : Nat) (v : Cluster) : (s.setCluster c v).powerLimit = s.powerLimit := rfl
@[simp] theorem setCluster_power (s : State) (c : Nat) (v : Cluster) : (s.setCluster c v).power = s.power := rfl
@[simp] theorem setCluster_temps (s : State) (c : Nat) (v : Cluster) : (s.setCluster c v).temps = s.temps := rfl
@[simp] theorem setCluster_images (s : State) (c : Nat) (v : Cluster) : (s.setCluster c v).images = s.images := rfl
@[simp] theorem setCluster_staged (s : State) (c : Nat) (v : Cluster) : (s.setCluster c v).staged = s.staged := rfl
@[simp] theorem setCluster_msixTable (s : State) (c : Nat) (v : Cluster) : (s.setCluster c v).msixTable = s.msixTable := rfl
@[simp] theorem setCluster_hostAnswer (s : State) (c : Nat) (v : Cluster) : (s.setCluster c v).hostAnswer = s.hostAnswer := rfl
@[simp] theorem setCluster_mailStatus (s : State) (c : Nat) (v : Cluster) : (s.setCluster c v).mailStatus = s.mailStatus := rfl
@[simp] theorem setCluster_mailAnswer (s : State) (c : Nat) (v : Cluster) : (s.setCluster c v).mailAnswer = s.mailAnswer := rfl
@[simp] theorem setCluster_cur (s : State) (c : Nat) (v : Cluster) : (s.setCluster c v).cur = s.cur := rfl
@[simp] theorem setCluster_lane (s : State) (c : Nat) (v : Cluster) : (s.setCluster c v).lane = s.lane := rfl
@[simp] theorem setCluster_agenda (s : State) (c : Nat) (v : Cluster) : (s.setCluster c v).agenda = s.agenda := rfl
@[simp] theorem setCluster_draws (s : State) (c : Nat) (v : Cluster) : (s.setCluster c v).draws = s.draws := rfl
@[simp] theorem setCluster_nextId (s : State) (c : Nat) (v : Cluster) : (s.setCluster c v).nextId = s.nextId := rfl

@[simp] theorem setCrew_boot (s : State) (c : Nat) (v : Crew) : (s.setCrew c v).boot = s.boot := rfl
@[simp] theorem setCrew_bootFail (s : State) (c : Nat) (v : Crew) : (s.setCrew c v).bootFail = s.bootFail := rfl
@[simp] theorem setCrew_halted (s : State) (c : Nat) (v : Crew) : (s.setCrew c v).halted = s.halted := rfl
@[simp] theorem setCrew_slowClock (s : State) (c : Nat) (v : Crew) : (s.setCrew c v).slowClock = s.slowClock := rfl
@[simp] theorem setCrew_mem (s : State) (c : Nat) (v : Crew) : (s.setCrew c v).mem = s.mem := rfl
@[simp] theorem setCrew_views (s : State) (c : Nat) (v : Crew) : (s.setCrew c v).views = s.views := rfl
@[simp] theorem setCrew_tlb (s : State) (c : Nat) (v : Crew) : (s.setCrew c v).tlb = s.tlb := rfl
@[simp] theorem setCrew_pins (s : State) (c : Nat) (v : Crew) : (s.setCrew c v).pins = s.pins := rfl
@[simp] theorem setCrew_threads (s : State) (c : Nat) (v : Crew) : (s.setCrew c v).threads = s.threads := rfl
@[simp] theorem setCrew_turns (s : State) (c : Nat) (v : Crew) : (s.setCrew c v).turns = s.turns := rfl
@[simp] theorem setCrew_clusters (s : State) (c : Nat) (v : Crew) : (s.setCrew c v).clusters = s.clusters := rfl
@[simp] theorem setCrew_contexts (s : State) (c : Nat) (v : Crew) : (s.setCrew c v).contexts = s.contexts := rfl
@[simp] theorem setCrew_partitions (s : State) (c : Nat) (v : Crew) : (s.setCrew c v).partitions = s.partitions := rfl
@[simp] theorem setCrew_launches (s : State) (c : Nat) (v : Crew) : (s.setCrew c v).launches = s.launches := rfl
@[simp] theorem setCrew_counters (s : State) (c : Nat) (v : Crew) : (s.setCrew c v).counters = s.counters := rfl
@[simp] theorem setCrew_errorAddrs (s : State) (c : Nat) (v : Crew) : (s.setCrew c v).errorAddrs = s.errorAddrs := rfl
@[simp] theorem setCrew_msix (s : State) (c : Nat) (v : Crew) : (s.setCrew c v).msix = s.msix := rfl
@[simp] theorem setCrew_portLogs (s : State) (c : Nat) (v : Crew) : (s.setCrew c v).portLogs = s.portLogs := rfl
@[simp] theorem setCrew_epochs (s : State) (c : Nat) (v : Crew) : (s.setCrew c v).epochs = s.epochs := rfl
@[simp] theorem setCrew_reports (s : State) (c : Nat) (v : Crew) : (s.setCrew c v).reports = s.reports := rfl
@[simp] theorem setCrew_heard (s : State) (c : Nat) (v : Crew) : (s.setCrew c v).heard = s.heard := rfl
@[simp] theorem setCrew_outbox (s : State) (c : Nat) (v : Crew) : (s.setCrew c v).outbox = s.outbox := rfl
@[simp] theorem setCrew_selfbox (s : State) (c : Nat) (v : Crew) : (s.setCrew c v).selfbox = s.selfbox := rfl
@[simp] theorem setCrew_shuffles (s : State) (c : Nat) (v : Crew) : (s.setCrew c v).shuffles = s.shuffles := rfl
@[simp] theorem setCrew_sit (s : State) (c : Nat) (v : Crew) : (s.setCrew c v).sit = s.sit := rfl
@[simp] theorem setCrew_links (s : State) (c : Nat) (v : Crew) : (s.setCrew c v).links = s.links := rfl
@[simp] theorem setCrew_laneSpares (s : State) (c : Nat) (v : Crew) : (s.setCrew c v).laneSpares = s.laneSpares := rfl
@[simp] theorem setCrew_channelsGone (s : State) (c : Nat) (v : Crew) : (s.setCrew c v).channelsGone = s.channelsGone := rfl
@[simp] theorem setCrew_withdrawals (s : State) (c : Nat) (v : Crew) : (s.setCrew c v).withdrawals = s.withdrawals := rfl
@[simp] theorem setCrew_keys (s : State) (c : Nat) (v : Crew) : (s.setCrew c v).keys = s.keys := rfl
@[simp] theorem setCrew_quotas (s : State) (c : Nat) (v : Crew) : (s.setCrew c v).quotas = s.quotas := rfl
@[simp] theorem setCrew_cache (s : State) (c : Nat) (v : Crew) : (s.setCrew c v).cache = s.cache := rfl
@[simp] theorem setCrew_evictions (s : State) (c : Nat) (v : Crew) : (s.setCrew c v).evictions = s.evictions := rfl
@[simp] theorem setCrew_powerLimit (s : State) (c : Nat) (v : Crew) : (s.setCrew c v).powerLimit = s.powerLimit := rfl
@[simp] theorem setCrew_power (s : State) (c : Nat) (v : Crew) : (s.setCrew c v).power = s.power := rfl
@[simp] theorem setCrew_temps (s : State) (c : Nat) (v : Crew) : (s.setCrew c v).temps = s.temps := rfl
@[simp] theorem setCrew_images (s : State) (c : Nat) (v : Crew) : (s.setCrew c v).images = s.images := rfl
@[simp] theorem setCrew_staged (s : State) (c : Nat) (v : Crew) : (s.setCrew c v).staged = s.staged := rfl
@[simp] theorem setCrew_msixTable (s : State) (c : Nat) (v : Crew) : (s.setCrew c v).msixTable = s.msixTable := rfl
@[simp] theorem setCrew_hostAnswer (s : State) (c : Nat) (v : Crew) : (s.setCrew c v).hostAnswer = s.hostAnswer := rfl
@[simp] theorem setCrew_mailStatus (s : State) (c : Nat) (v : Crew) : (s.setCrew c v).mailStatus = s.mailStatus := rfl
@[simp] theorem setCrew_mailAnswer (s : State) (c : Nat) (v : Crew) : (s.setCrew c v).mailAnswer = s.mailAnswer := rfl
@[simp] theorem setCrew_cur (s : State) (c : Nat) (v : Crew) : (s.setCrew c v).cur = s.cur := rfl
@[simp] theorem setCrew_lane (s : State) (c : Nat) (v : Crew) : (s.setCrew c v).lane = s.lane := rfl
@[simp] theorem setCrew_agenda (s : State) (c : Nat) (v : Crew) : (s.setCrew c v).agenda = s.agenda := rfl
@[simp] theorem setCrew_draws (s : State) (c : Nat) (v : Crew) : (s.setCrew c v).draws = s.draws := rfl
@[simp] theorem setCrew_nextId (s : State) (c : Nat) (v : Crew) : (s.setCrew c v).nextId = s.nextId := rfl

@[simp] theorem setContext_boot (s : State) (c : Nat) (v : Context) : (s.setContext c v).boot = s.boot := rfl
@[simp] theorem setContext_bootFail (s : State) (c : Nat) (v : Context) : (s.setContext c v).bootFail = s.bootFail := rfl
@[simp] theorem setContext_halted (s : State) (c : Nat) (v : Context) : (s.setContext c v).halted = s.halted := rfl
@[simp] theorem setContext_slowClock (s : State) (c : Nat) (v : Context) : (s.setContext c v).slowClock = s.slowClock := rfl
@[simp] theorem setContext_mem (s : State) (c : Nat) (v : Context) : (s.setContext c v).mem = s.mem := rfl
@[simp] theorem setContext_views (s : State) (c : Nat) (v : Context) : (s.setContext c v).views = s.views := rfl
@[simp] theorem setContext_tlb (s : State) (c : Nat) (v : Context) : (s.setContext c v).tlb = s.tlb := rfl
@[simp] theorem setContext_pins (s : State) (c : Nat) (v : Context) : (s.setContext c v).pins = s.pins := rfl
@[simp] theorem setContext_threads (s : State) (c : Nat) (v : Context) : (s.setContext c v).threads = s.threads := rfl
@[simp] theorem setContext_turns (s : State) (c : Nat) (v : Context) : (s.setContext c v).turns = s.turns := rfl
@[simp] theorem setContext_clusters (s : State) (c : Nat) (v : Context) : (s.setContext c v).clusters = s.clusters := rfl
@[simp] theorem setContext_crews (s : State) (c : Nat) (v : Context) : (s.setContext c v).crews = s.crews := rfl
@[simp] theorem setContext_partitions (s : State) (c : Nat) (v : Context) : (s.setContext c v).partitions = s.partitions := rfl
@[simp] theorem setContext_launches (s : State) (c : Nat) (v : Context) : (s.setContext c v).launches = s.launches := rfl
@[simp] theorem setContext_counters (s : State) (c : Nat) (v : Context) : (s.setContext c v).counters = s.counters := rfl
@[simp] theorem setContext_errorAddrs (s : State) (c : Nat) (v : Context) : (s.setContext c v).errorAddrs = s.errorAddrs := rfl
@[simp] theorem setContext_msix (s : State) (c : Nat) (v : Context) : (s.setContext c v).msix = s.msix := rfl
@[simp] theorem setContext_portLogs (s : State) (c : Nat) (v : Context) : (s.setContext c v).portLogs = s.portLogs := rfl
@[simp] theorem setContext_epochs (s : State) (c : Nat) (v : Context) : (s.setContext c v).epochs = s.epochs := rfl
@[simp] theorem setContext_reports (s : State) (c : Nat) (v : Context) : (s.setContext c v).reports = s.reports := rfl
@[simp] theorem setContext_heard (s : State) (c : Nat) (v : Context) : (s.setContext c v).heard = s.heard := rfl
@[simp] theorem setContext_outbox (s : State) (c : Nat) (v : Context) : (s.setContext c v).outbox = s.outbox := rfl
@[simp] theorem setContext_selfbox (s : State) (c : Nat) (v : Context) : (s.setContext c v).selfbox = s.selfbox := rfl
@[simp] theorem setContext_shuffles (s : State) (c : Nat) (v : Context) : (s.setContext c v).shuffles = s.shuffles := rfl
@[simp] theorem setContext_sit (s : State) (c : Nat) (v : Context) : (s.setContext c v).sit = s.sit := rfl
@[simp] theorem setContext_links (s : State) (c : Nat) (v : Context) : (s.setContext c v).links = s.links := rfl
@[simp] theorem setContext_laneSpares (s : State) (c : Nat) (v : Context) : (s.setContext c v).laneSpares = s.laneSpares := rfl
@[simp] theorem setContext_channelsGone (s : State) (c : Nat) (v : Context) : (s.setContext c v).channelsGone = s.channelsGone := rfl
@[simp] theorem setContext_withdrawals (s : State) (c : Nat) (v : Context) : (s.setContext c v).withdrawals = s.withdrawals := rfl
@[simp] theorem setContext_keys (s : State) (c : Nat) (v : Context) : (s.setContext c v).keys = s.keys := rfl
@[simp] theorem setContext_quotas (s : State) (c : Nat) (v : Context) : (s.setContext c v).quotas = s.quotas := rfl
@[simp] theorem setContext_cache (s : State) (c : Nat) (v : Context) : (s.setContext c v).cache = s.cache := rfl
@[simp] theorem setContext_evictions (s : State) (c : Nat) (v : Context) : (s.setContext c v).evictions = s.evictions := rfl
@[simp] theorem setContext_powerLimit (s : State) (c : Nat) (v : Context) : (s.setContext c v).powerLimit = s.powerLimit := rfl
@[simp] theorem setContext_power (s : State) (c : Nat) (v : Context) : (s.setContext c v).power = s.power := rfl
@[simp] theorem setContext_temps (s : State) (c : Nat) (v : Context) : (s.setContext c v).temps = s.temps := rfl
@[simp] theorem setContext_images (s : State) (c : Nat) (v : Context) : (s.setContext c v).images = s.images := rfl
@[simp] theorem setContext_staged (s : State) (c : Nat) (v : Context) : (s.setContext c v).staged = s.staged := rfl
@[simp] theorem setContext_msixTable (s : State) (c : Nat) (v : Context) : (s.setContext c v).msixTable = s.msixTable := rfl
@[simp] theorem setContext_hostAnswer (s : State) (c : Nat) (v : Context) : (s.setContext c v).hostAnswer = s.hostAnswer := rfl
@[simp] theorem setContext_mailStatus (s : State) (c : Nat) (v : Context) : (s.setContext c v).mailStatus = s.mailStatus := rfl
@[simp] theorem setContext_mailAnswer (s : State) (c : Nat) (v : Context) : (s.setContext c v).mailAnswer = s.mailAnswer := rfl
@[simp] theorem setContext_cur (s : State) (c : Nat) (v : Context) : (s.setContext c v).cur = s.cur := rfl
@[simp] theorem setContext_lane (s : State) (c : Nat) (v : Context) : (s.setContext c v).lane = s.lane := rfl
@[simp] theorem setContext_agenda (s : State) (c : Nat) (v : Context) : (s.setContext c v).agenda = s.agenda := rfl
@[simp] theorem setContext_draws (s : State) (c : Nat) (v : Context) : (s.setContext c v).draws = s.draws := rfl
@[simp] theorem setContext_nextId (s : State) (c : Nat) (v : Context) : (s.setContext c v).nextId = s.nextId := rfl

@[simp] theorem setPartition_boot (s : State) (p : Nat) (v : Partition) : (s.setPartition p v).boot = s.boot := rfl
@[simp] theorem setPartition_bootFail (s : State) (p : Nat) (v : Partition) : (s.setPartition p v).bootFail = s.bootFail := rfl
@[simp] theorem setPartition_halted (s : State) (p : Nat) (v : Partition) : (s.setPartition p v).halted = s.halted := rfl
@[simp] theorem setPartition_slowClock (s : State) (p : Nat) (v : Partition) : (s.setPartition p v).slowClock = s.slowClock := rfl
@[simp] theorem setPartition_mem (s : State) (p : Nat) (v : Partition) : (s.setPartition p v).mem = s.mem := rfl
@[simp] theorem setPartition_views (s : State) (p : Nat) (v : Partition) : (s.setPartition p v).views = s.views := rfl
@[simp] theorem setPartition_tlb (s : State) (p : Nat) (v : Partition) : (s.setPartition p v).tlb = s.tlb := rfl
@[simp] theorem setPartition_pins (s : State) (p : Nat) (v : Partition) : (s.setPartition p v).pins = s.pins := rfl
@[simp] theorem setPartition_threads (s : State) (p : Nat) (v : Partition) : (s.setPartition p v).threads = s.threads := rfl
@[simp] theorem setPartition_turns (s : State) (p : Nat) (v : Partition) : (s.setPartition p v).turns = s.turns := rfl
@[simp] theorem setPartition_clusters (s : State) (p : Nat) (v : Partition) : (s.setPartition p v).clusters = s.clusters := rfl
@[simp] theorem setPartition_crews (s : State) (p : Nat) (v : Partition) : (s.setPartition p v).crews = s.crews := rfl
@[simp] theorem setPartition_contexts (s : State) (p : Nat) (v : Partition) : (s.setPartition p v).contexts = s.contexts := rfl
@[simp] theorem setPartition_launches (s : State) (p : Nat) (v : Partition) : (s.setPartition p v).launches = s.launches := rfl
@[simp] theorem setPartition_counters (s : State) (p : Nat) (v : Partition) : (s.setPartition p v).counters = s.counters := rfl
@[simp] theorem setPartition_errorAddrs (s : State) (p : Nat) (v : Partition) : (s.setPartition p v).errorAddrs = s.errorAddrs := rfl
@[simp] theorem setPartition_msix (s : State) (p : Nat) (v : Partition) : (s.setPartition p v).msix = s.msix := rfl
@[simp] theorem setPartition_portLogs (s : State) (p : Nat) (v : Partition) : (s.setPartition p v).portLogs = s.portLogs := rfl
@[simp] theorem setPartition_epochs (s : State) (p : Nat) (v : Partition) : (s.setPartition p v).epochs = s.epochs := rfl
@[simp] theorem setPartition_reports (s : State) (p : Nat) (v : Partition) : (s.setPartition p v).reports = s.reports := rfl
@[simp] theorem setPartition_heard (s : State) (p : Nat) (v : Partition) : (s.setPartition p v).heard = s.heard := rfl
@[simp] theorem setPartition_outbox (s : State) (p : Nat) (v : Partition) : (s.setPartition p v).outbox = s.outbox := rfl
@[simp] theorem setPartition_selfbox (s : State) (p : Nat) (v : Partition) : (s.setPartition p v).selfbox = s.selfbox := rfl
@[simp] theorem setPartition_shuffles (s : State) (p : Nat) (v : Partition) : (s.setPartition p v).shuffles = s.shuffles := rfl
@[simp] theorem setPartition_sit (s : State) (p : Nat) (v : Partition) : (s.setPartition p v).sit = s.sit := rfl
@[simp] theorem setPartition_links (s : State) (p : Nat) (v : Partition) : (s.setPartition p v).links = s.links := rfl
@[simp] theorem setPartition_laneSpares (s : State) (p : Nat) (v : Partition) : (s.setPartition p v).laneSpares = s.laneSpares := rfl
@[simp] theorem setPartition_channelsGone (s : State) (p : Nat) (v : Partition) : (s.setPartition p v).channelsGone = s.channelsGone := rfl
@[simp] theorem setPartition_withdrawals (s : State) (p : Nat) (v : Partition) : (s.setPartition p v).withdrawals = s.withdrawals := rfl
@[simp] theorem setPartition_keys (s : State) (p : Nat) (v : Partition) : (s.setPartition p v).keys = s.keys := rfl
@[simp] theorem setPartition_quotas (s : State) (p : Nat) (v : Partition) : (s.setPartition p v).quotas = s.quotas := rfl
@[simp] theorem setPartition_cache (s : State) (p : Nat) (v : Partition) : (s.setPartition p v).cache = s.cache := rfl
@[simp] theorem setPartition_evictions (s : State) (p : Nat) (v : Partition) : (s.setPartition p v).evictions = s.evictions := rfl
@[simp] theorem setPartition_powerLimit (s : State) (p : Nat) (v : Partition) : (s.setPartition p v).powerLimit = s.powerLimit := rfl
@[simp] theorem setPartition_power (s : State) (p : Nat) (v : Partition) : (s.setPartition p v).power = s.power := rfl
@[simp] theorem setPartition_temps (s : State) (p : Nat) (v : Partition) : (s.setPartition p v).temps = s.temps := rfl
@[simp] theorem setPartition_images (s : State) (p : Nat) (v : Partition) : (s.setPartition p v).images = s.images := rfl
@[simp] theorem setPartition_staged (s : State) (p : Nat) (v : Partition) : (s.setPartition p v).staged = s.staged := rfl
@[simp] theorem setPartition_msixTable (s : State) (p : Nat) (v : Partition) : (s.setPartition p v).msixTable = s.msixTable := rfl
@[simp] theorem setPartition_hostAnswer (s : State) (p : Nat) (v : Partition) : (s.setPartition p v).hostAnswer = s.hostAnswer := rfl
@[simp] theorem setPartition_mailStatus (s : State) (p : Nat) (v : Partition) : (s.setPartition p v).mailStatus = s.mailStatus := rfl
@[simp] theorem setPartition_mailAnswer (s : State) (p : Nat) (v : Partition) : (s.setPartition p v).mailAnswer = s.mailAnswer := rfl
@[simp] theorem setPartition_cur (s : State) (p : Nat) (v : Partition) : (s.setPartition p v).cur = s.cur := rfl
@[simp] theorem setPartition_lane (s : State) (p : Nat) (v : Partition) : (s.setPartition p v).lane = s.lane := rfl
@[simp] theorem setPartition_agenda (s : State) (p : Nat) (v : Partition) : (s.setPartition p v).agenda = s.agenda := rfl
@[simp] theorem setPartition_draws (s : State) (p : Nat) (v : Partition) : (s.setPartition p v).draws = s.draws := rfl
@[simp] theorem setPartition_nextId (s : State) (p : Nat) (v : Partition) : (s.setPartition p v).nextId = s.nextId := rfl

@[simp] theorem bump_boot (s : State) (k n : Nat) : (s.bump k n).boot = s.boot := rfl
@[simp] theorem bump_bootFail (s : State) (k n : Nat) : (s.bump k n).bootFail = s.bootFail := rfl
@[simp] theorem bump_halted (s : State) (k n : Nat) : (s.bump k n).halted = s.halted := rfl
@[simp] theorem bump_slowClock (s : State) (k n : Nat) : (s.bump k n).slowClock = s.slowClock := rfl
@[simp] theorem bump_mem (s : State) (k n : Nat) : (s.bump k n).mem = s.mem := rfl
@[simp] theorem bump_views (s : State) (k n : Nat) : (s.bump k n).views = s.views := rfl
@[simp] theorem bump_tlb (s : State) (k n : Nat) : (s.bump k n).tlb = s.tlb := rfl
@[simp] theorem bump_pins (s : State) (k n : Nat) : (s.bump k n).pins = s.pins := rfl
@[simp] theorem bump_threads (s : State) (k n : Nat) : (s.bump k n).threads = s.threads := rfl
@[simp] theorem bump_turns (s : State) (k n : Nat) : (s.bump k n).turns = s.turns := rfl
@[simp] theorem bump_clusters (s : State) (k n : Nat) : (s.bump k n).clusters = s.clusters := rfl
@[simp] theorem bump_crews (s : State) (k n : Nat) : (s.bump k n).crews = s.crews := rfl
@[simp] theorem bump_contexts (s : State) (k n : Nat) : (s.bump k n).contexts = s.contexts := rfl
@[simp] theorem bump_partitions (s : State) (k n : Nat) : (s.bump k n).partitions = s.partitions := rfl
@[simp] theorem bump_launches (s : State) (k n : Nat) : (s.bump k n).launches = s.launches := rfl
@[simp] theorem bump_errorAddrs (s : State) (k n : Nat) : (s.bump k n).errorAddrs = s.errorAddrs := rfl
@[simp] theorem bump_msix (s : State) (k n : Nat) : (s.bump k n).msix = s.msix := rfl
@[simp] theorem bump_portLogs (s : State) (k n : Nat) : (s.bump k n).portLogs = s.portLogs := rfl
@[simp] theorem bump_epochs (s : State) (k n : Nat) : (s.bump k n).epochs = s.epochs := rfl
@[simp] theorem bump_reports (s : State) (k n : Nat) : (s.bump k n).reports = s.reports := rfl
@[simp] theorem bump_heard (s : State) (k n : Nat) : (s.bump k n).heard = s.heard := rfl
@[simp] theorem bump_outbox (s : State) (k n : Nat) : (s.bump k n).outbox = s.outbox := rfl
@[simp] theorem bump_selfbox (s : State) (k n : Nat) : (s.bump k n).selfbox = s.selfbox := rfl
@[simp] theorem bump_shuffles (s : State) (k n : Nat) : (s.bump k n).shuffles = s.shuffles := rfl
@[simp] theorem bump_sit (s : State) (k n : Nat) : (s.bump k n).sit = s.sit := rfl
@[simp] theorem bump_links (s : State) (k n : Nat) : (s.bump k n).links = s.links := rfl
@[simp] theorem bump_laneSpares (s : State) (k n : Nat) : (s.bump k n).laneSpares = s.laneSpares := rfl
@[simp] theorem bump_channelsGone (s : State) (k n : Nat) : (s.bump k n).channelsGone = s.channelsGone := rfl
@[simp] theorem bump_withdrawals (s : State) (k n : Nat) : (s.bump k n).withdrawals = s.withdrawals := rfl
@[simp] theorem bump_keys (s : State) (k n : Nat) : (s.bump k n).keys = s.keys := rfl
@[simp] theorem bump_quotas (s : State) (k n : Nat) : (s.bump k n).quotas = s.quotas := rfl
@[simp] theorem bump_cache (s : State) (k n : Nat) : (s.bump k n).cache = s.cache := rfl
@[simp] theorem bump_evictions (s : State) (k n : Nat) : (s.bump k n).evictions = s.evictions := rfl
@[simp] theorem bump_powerLimit (s : State) (k n : Nat) : (s.bump k n).powerLimit = s.powerLimit := rfl
@[simp] theorem bump_power (s : State) (k n : Nat) : (s.bump k n).power = s.power := rfl
@[simp] theorem bump_temps (s : State) (k n : Nat) : (s.bump k n).temps = s.temps := rfl
@[simp] theorem bump_images (s : State) (k n : Nat) : (s.bump k n).images = s.images := rfl
@[simp] theorem bump_staged (s : State) (k n : Nat) : (s.bump k n).staged = s.staged := rfl
@[simp] theorem bump_msixTable (s : State) (k n : Nat) : (s.bump k n).msixTable = s.msixTable := rfl
@[simp] theorem bump_hostAnswer (s : State) (k n : Nat) : (s.bump k n).hostAnswer = s.hostAnswer := rfl
@[simp] theorem bump_mailStatus (s : State) (k n : Nat) : (s.bump k n).mailStatus = s.mailStatus := rfl
@[simp] theorem bump_mailAnswer (s : State) (k n : Nat) : (s.bump k n).mailAnswer = s.mailAnswer := rfl
@[simp] theorem bump_cur (s : State) (k n : Nat) : (s.bump k n).cur = s.cur := rfl
@[simp] theorem bump_lane (s : State) (k n : Nat) : (s.bump k n).lane = s.lane := rfl
@[simp] theorem bump_agenda (s : State) (k n : Nat) : (s.bump k n).agenda = s.agenda := rfl
@[simp] theorem bump_draws (s : State) (k n : Nat) : (s.bump k n).draws = s.draws := rfl
@[simp] theorem bump_nextId (s : State) (k n : Nat) : (s.bump k n).nextId = s.nextId := rfl

@[simp] theorem setView_boot (s : State) (a : Agent) (v : View) : (s.setView a v).boot = s.boot := rfl
@[simp] theorem setView_bootFail (s : State) (a : Agent) (v : View) : (s.setView a v).bootFail = s.bootFail := rfl
@[simp] theorem setView_halted (s : State) (a : Agent) (v : View) : (s.setView a v).halted = s.halted := rfl
@[simp] theorem setView_slowClock (s : State) (a : Agent) (v : View) : (s.setView a v).slowClock = s.slowClock := rfl
@[simp] theorem setView_mem (s : State) (a : Agent) (v : View) : (s.setView a v).mem = s.mem := rfl
@[simp] theorem setView_tlb (s : State) (a : Agent) (v : View) : (s.setView a v).tlb = s.tlb := rfl
@[simp] theorem setView_pins (s : State) (a : Agent) (v : View) : (s.setView a v).pins = s.pins := rfl
@[simp] theorem setView_threads (s : State) (a : Agent) (v : View) : (s.setView a v).threads = s.threads := rfl
@[simp] theorem setView_turns (s : State) (a : Agent) (v : View) : (s.setView a v).turns = s.turns := rfl
@[simp] theorem setView_clusters (s : State) (a : Agent) (v : View) : (s.setView a v).clusters = s.clusters := rfl
@[simp] theorem setView_crews (s : State) (a : Agent) (v : View) : (s.setView a v).crews = s.crews := rfl
@[simp] theorem setView_contexts (s : State) (a : Agent) (v : View) : (s.setView a v).contexts = s.contexts := rfl
@[simp] theorem setView_partitions (s : State) (a : Agent) (v : View) : (s.setView a v).partitions = s.partitions := rfl
@[simp] theorem setView_launches (s : State) (a : Agent) (v : View) : (s.setView a v).launches = s.launches := rfl
@[simp] theorem setView_counters (s : State) (a : Agent) (v : View) : (s.setView a v).counters = s.counters := rfl
@[simp] theorem setView_errorAddrs (s : State) (a : Agent) (v : View) : (s.setView a v).errorAddrs = s.errorAddrs := rfl
@[simp] theorem setView_msix (s : State) (a : Agent) (v : View) : (s.setView a v).msix = s.msix := rfl
@[simp] theorem setView_portLogs (s : State) (a : Agent) (v : View) : (s.setView a v).portLogs = s.portLogs := rfl
@[simp] theorem setView_epochs (s : State) (a : Agent) (v : View) : (s.setView a v).epochs = s.epochs := rfl
@[simp] theorem setView_reports (s : State) (a : Agent) (v : View) : (s.setView a v).reports = s.reports := rfl
@[simp] theorem setView_heard (s : State) (a : Agent) (v : View) : (s.setView a v).heard = s.heard := rfl
@[simp] theorem setView_outbox (s : State) (a : Agent) (v : View) : (s.setView a v).outbox = s.outbox := rfl
@[simp] theorem setView_selfbox (s : State) (a : Agent) (v : View) : (s.setView a v).selfbox = s.selfbox := rfl
@[simp] theorem setView_shuffles (s : State) (a : Agent) (v : View) : (s.setView a v).shuffles = s.shuffles := rfl
@[simp] theorem setView_sit (s : State) (a : Agent) (v : View) : (s.setView a v).sit = s.sit := rfl
@[simp] theorem setView_links (s : State) (a : Agent) (v : View) : (s.setView a v).links = s.links := rfl
@[simp] theorem setView_laneSpares (s : State) (a : Agent) (v : View) : (s.setView a v).laneSpares = s.laneSpares := rfl
@[simp] theorem setView_channelsGone (s : State) (a : Agent) (v : View) : (s.setView a v).channelsGone = s.channelsGone := rfl
@[simp] theorem setView_withdrawals (s : State) (a : Agent) (v : View) : (s.setView a v).withdrawals = s.withdrawals := rfl
@[simp] theorem setView_keys (s : State) (a : Agent) (v : View) : (s.setView a v).keys = s.keys := rfl
@[simp] theorem setView_quotas (s : State) (a : Agent) (v : View) : (s.setView a v).quotas = s.quotas := rfl
@[simp] theorem setView_cache (s : State) (a : Agent) (v : View) : (s.setView a v).cache = s.cache := rfl
@[simp] theorem setView_evictions (s : State) (a : Agent) (v : View) : (s.setView a v).evictions = s.evictions := rfl
@[simp] theorem setView_powerLimit (s : State) (a : Agent) (v : View) : (s.setView a v).powerLimit = s.powerLimit := rfl
@[simp] theorem setView_power (s : State) (a : Agent) (v : View) : (s.setView a v).power = s.power := rfl
@[simp] theorem setView_temps (s : State) (a : Agent) (v : View) : (s.setView a v).temps = s.temps := rfl
@[simp] theorem setView_images (s : State) (a : Agent) (v : View) : (s.setView a v).images = s.images := rfl
@[simp] theorem setView_staged (s : State) (a : Agent) (v : View) : (s.setView a v).staged = s.staged := rfl
@[simp] theorem setView_msixTable (s : State) (a : Agent) (v : View) : (s.setView a v).msixTable = s.msixTable := rfl
@[simp] theorem setView_hostAnswer (s : State) (a : Agent) (v : View) : (s.setView a v).hostAnswer = s.hostAnswer := rfl
@[simp] theorem setView_mailStatus (s : State) (a : Agent) (v : View) : (s.setView a v).mailStatus = s.mailStatus := rfl
@[simp] theorem setView_mailAnswer (s : State) (a : Agent) (v : View) : (s.setView a v).mailAnswer = s.mailAnswer := rfl
@[simp] theorem setView_cur (s : State) (a : Agent) (v : View) : (s.setView a v).cur = s.cur := rfl
@[simp] theorem setView_lane (s : State) (a : Agent) (v : View) : (s.setView a v).lane = s.lane := rfl
@[simp] theorem setView_agenda (s : State) (a : Agent) (v : View) : (s.setView a v).agenda = s.agenda := rfl
@[simp] theorem setView_draws (s : State) (a : Agent) (v : View) : (s.setView a v).draws = s.draws := rfl
@[simp] theorem setView_nextId (s : State) (a : Agent) (v : View) : (s.setView a v).nextId = s.nextId := rfl

@[simp] theorem dropView_boot (s : State) (a : Agent) : (s.dropView a).boot = s.boot := rfl
@[simp] theorem dropView_bootFail (s : State) (a : Agent) : (s.dropView a).bootFail = s.bootFail := rfl
@[simp] theorem dropView_halted (s : State) (a : Agent) : (s.dropView a).halted = s.halted := rfl
@[simp] theorem dropView_slowClock (s : State) (a : Agent) : (s.dropView a).slowClock = s.slowClock := rfl
@[simp] theorem dropView_mem (s : State) (a : Agent) : (s.dropView a).mem = s.mem := rfl
@[simp] theorem dropView_tlb (s : State) (a : Agent) : (s.dropView a).tlb = s.tlb := rfl
@[simp] theorem dropView_pins (s : State) (a : Agent) : (s.dropView a).pins = s.pins := rfl
@[simp] theorem dropView_threads (s : State) (a : Agent) : (s.dropView a).threads = s.threads := rfl
@[simp] theorem dropView_turns (s : State) (a : Agent) : (s.dropView a).turns = s.turns := rfl
@[simp] theorem dropView_clusters (s : State) (a : Agent) : (s.dropView a).clusters = s.clusters := rfl
@[simp] theorem dropView_crews (s : State) (a : Agent) : (s.dropView a).crews = s.crews := rfl
@[simp] theorem dropView_contexts (s : State) (a : Agent) : (s.dropView a).contexts = s.contexts := rfl
@[simp] theorem dropView_partitions (s : State) (a : Agent) : (s.dropView a).partitions = s.partitions := rfl
@[simp] theorem dropView_launches (s : State) (a : Agent) : (s.dropView a).launches = s.launches := rfl
@[simp] theorem dropView_counters (s : State) (a : Agent) : (s.dropView a).counters = s.counters := rfl
@[simp] theorem dropView_errorAddrs (s : State) (a : Agent) : (s.dropView a).errorAddrs = s.errorAddrs := rfl
@[simp] theorem dropView_msix (s : State) (a : Agent) : (s.dropView a).msix = s.msix := rfl
@[simp] theorem dropView_portLogs (s : State) (a : Agent) : (s.dropView a).portLogs = s.portLogs := rfl
@[simp] theorem dropView_epochs (s : State) (a : Agent) : (s.dropView a).epochs = s.epochs := rfl
@[simp] theorem dropView_reports (s : State) (a : Agent) : (s.dropView a).reports = s.reports := rfl
@[simp] theorem dropView_heard (s : State) (a : Agent) : (s.dropView a).heard = s.heard := rfl
@[simp] theorem dropView_outbox (s : State) (a : Agent) : (s.dropView a).outbox = s.outbox := rfl
@[simp] theorem dropView_selfbox (s : State) (a : Agent) : (s.dropView a).selfbox = s.selfbox := rfl
@[simp] theorem dropView_shuffles (s : State) (a : Agent) : (s.dropView a).shuffles = s.shuffles := rfl
@[simp] theorem dropView_sit (s : State) (a : Agent) : (s.dropView a).sit = s.sit := rfl
@[simp] theorem dropView_links (s : State) (a : Agent) : (s.dropView a).links = s.links := rfl
@[simp] theorem dropView_laneSpares (s : State) (a : Agent) : (s.dropView a).laneSpares = s.laneSpares := rfl
@[simp] theorem dropView_channelsGone (s : State) (a : Agent) : (s.dropView a).channelsGone = s.channelsGone := rfl
@[simp] theorem dropView_withdrawals (s : State) (a : Agent) : (s.dropView a).withdrawals = s.withdrawals := rfl
@[simp] theorem dropView_keys (s : State) (a : Agent) : (s.dropView a).keys = s.keys := rfl
@[simp] theorem dropView_quotas (s : State) (a : Agent) : (s.dropView a).quotas = s.quotas := rfl
@[simp] theorem dropView_cache (s : State) (a : Agent) : (s.dropView a).cache = s.cache := rfl
@[simp] theorem dropView_evictions (s : State) (a : Agent) : (s.dropView a).evictions = s.evictions := rfl
@[simp] theorem dropView_powerLimit (s : State) (a : Agent) : (s.dropView a).powerLimit = s.powerLimit := rfl
@[simp] theorem dropView_power (s : State) (a : Agent) : (s.dropView a).power = s.power := rfl
@[simp] theorem dropView_temps (s : State) (a : Agent) : (s.dropView a).temps = s.temps := rfl
@[simp] theorem dropView_images (s : State) (a : Agent) : (s.dropView a).images = s.images := rfl
@[simp] theorem dropView_staged (s : State) (a : Agent) : (s.dropView a).staged = s.staged := rfl
@[simp] theorem dropView_msixTable (s : State) (a : Agent) : (s.dropView a).msixTable = s.msixTable := rfl
@[simp] theorem dropView_hostAnswer (s : State) (a : Agent) : (s.dropView a).hostAnswer = s.hostAnswer := rfl
@[simp] theorem dropView_mailStatus (s : State) (a : Agent) : (s.dropView a).mailStatus = s.mailStatus := rfl
@[simp] theorem dropView_mailAnswer (s : State) (a : Agent) : (s.dropView a).mailAnswer = s.mailAnswer := rfl
@[simp] theorem dropView_cur (s : State) (a : Agent) : (s.dropView a).cur = s.cur := rfl
@[simp] theorem dropView_lane (s : State) (a : Agent) : (s.dropView a).lane = s.lane := rfl
@[simp] theorem dropView_agenda (s : State) (a : Agent) : (s.dropView a).agenda = s.agenda := rfl
@[simp] theorem dropView_draws (s : State) (a : Agent) : (s.dropView a).draws = s.draws := rfl
@[simp] theorem dropView_nextId (s : State) (a : Agent) : (s.dropView a).nextId = s.nextId := rfl

/-! ### Scalar registers -/

@[simp] theorem setScalar_boot (s : State) (o : Owner) (v : Scalar) : (s.setScalar o v).boot = s.boot := by cases o <;> rfl
@[simp] theorem setScalar_bootFail (s : State) (o : Owner) (v : Scalar) : (s.setScalar o v).bootFail = s.bootFail := by cases o <;> rfl
@[simp] theorem setScalar_halted (s : State) (o : Owner) (v : Scalar) : (s.setScalar o v).halted = s.halted := by cases o <;> rfl
@[simp] theorem setScalar_slowClock (s : State) (o : Owner) (v : Scalar) : (s.setScalar o v).slowClock = s.slowClock := by cases o <;> rfl
@[simp] theorem setScalar_mem (s : State) (o : Owner) (v : Scalar) : (s.setScalar o v).mem = s.mem := by cases o <;> rfl
@[simp] theorem setScalar_views (s : State) (o : Owner) (v : Scalar) : (s.setScalar o v).views = s.views := by cases o <;> rfl
@[simp] theorem setScalar_tlb (s : State) (o : Owner) (v : Scalar) : (s.setScalar o v).tlb = s.tlb := by cases o <;> rfl
@[simp] theorem setScalar_pins (s : State) (o : Owner) (v : Scalar) : (s.setScalar o v).pins = s.pins := by cases o <;> rfl
@[simp] theorem setScalar_turns (s : State) (o : Owner) (v : Scalar) : (s.setScalar o v).turns = s.turns := by cases o <;> rfl
@[simp] theorem setScalar_clusters (s : State) (o : Owner) (v : Scalar) : (s.setScalar o v).clusters = s.clusters := by cases o <;> rfl
@[simp] theorem setScalar_contexts (s : State) (o : Owner) (v : Scalar) : (s.setScalar o v).contexts = s.contexts := by cases o <;> rfl
@[simp] theorem setScalar_partitions (s : State) (o : Owner) (v : Scalar) : (s.setScalar o v).partitions = s.partitions := by cases o <;> rfl
@[simp] theorem setScalar_launches (s : State) (o : Owner) (v : Scalar) : (s.setScalar o v).launches = s.launches := by cases o <;> rfl
@[simp] theorem setScalar_counters (s : State) (o : Owner) (v : Scalar) : (s.setScalar o v).counters = s.counters := by cases o <;> rfl
@[simp] theorem setScalar_errorAddrs (s : State) (o : Owner) (v : Scalar) : (s.setScalar o v).errorAddrs = s.errorAddrs := by cases o <;> rfl
@[simp] theorem setScalar_msix (s : State) (o : Owner) (v : Scalar) : (s.setScalar o v).msix = s.msix := by cases o <;> rfl
@[simp] theorem setScalar_portLogs (s : State) (o : Owner) (v : Scalar) : (s.setScalar o v).portLogs = s.portLogs := by cases o <;> rfl
@[simp] theorem setScalar_epochs (s : State) (o : Owner) (v : Scalar) : (s.setScalar o v).epochs = s.epochs := by cases o <;> rfl
@[simp] theorem setScalar_reports (s : State) (o : Owner) (v : Scalar) : (s.setScalar o v).reports = s.reports := by cases o <;> rfl
@[simp] theorem setScalar_heard (s : State) (o : Owner) (v : Scalar) : (s.setScalar o v).heard = s.heard := by cases o <;> rfl
@[simp] theorem setScalar_outbox (s : State) (o : Owner) (v : Scalar) : (s.setScalar o v).outbox = s.outbox := by cases o <;> rfl
@[simp] theorem setScalar_selfbox (s : State) (o : Owner) (v : Scalar) : (s.setScalar o v).selfbox = s.selfbox := by cases o <;> rfl
@[simp] theorem setScalar_shuffles (s : State) (o : Owner) (v : Scalar) : (s.setScalar o v).shuffles = s.shuffles := by cases o <;> rfl
@[simp] theorem setScalar_sit (s : State) (o : Owner) (v : Scalar) : (s.setScalar o v).sit = s.sit := by cases o <;> rfl
@[simp] theorem setScalar_links (s : State) (o : Owner) (v : Scalar) : (s.setScalar o v).links = s.links := by cases o <;> rfl
@[simp] theorem setScalar_laneSpares (s : State) (o : Owner) (v : Scalar) : (s.setScalar o v).laneSpares = s.laneSpares := by cases o <;> rfl
@[simp] theorem setScalar_channelsGone (s : State) (o : Owner) (v : Scalar) : (s.setScalar o v).channelsGone = s.channelsGone := by cases o <;> rfl
@[simp] theorem setScalar_withdrawals (s : State) (o : Owner) (v : Scalar) : (s.setScalar o v).withdrawals = s.withdrawals := by cases o <;> rfl
@[simp] theorem setScalar_keys (s : State) (o : Owner) (v : Scalar) : (s.setScalar o v).keys = s.keys := by cases o <;> rfl
@[simp] theorem setScalar_quotas (s : State) (o : Owner) (v : Scalar) : (s.setScalar o v).quotas = s.quotas := by cases o <;> rfl
@[simp] theorem setScalar_cache (s : State) (o : Owner) (v : Scalar) : (s.setScalar o v).cache = s.cache := by cases o <;> rfl
@[simp] theorem setScalar_evictions (s : State) (o : Owner) (v : Scalar) : (s.setScalar o v).evictions = s.evictions := by cases o <;> rfl
@[simp] theorem setScalar_powerLimit (s : State) (o : Owner) (v : Scalar) : (s.setScalar o v).powerLimit = s.powerLimit := by cases o <;> rfl
@[simp] theorem setScalar_power (s : State) (o : Owner) (v : Scalar) : (s.setScalar o v).power = s.power := by cases o <;> rfl
@[simp] theorem setScalar_temps (s : State) (o : Owner) (v : Scalar) : (s.setScalar o v).temps = s.temps := by cases o <;> rfl
@[simp] theorem setScalar_images (s : State) (o : Owner) (v : Scalar) : (s.setScalar o v).images = s.images := by cases o <;> rfl
@[simp] theorem setScalar_staged (s : State) (o : Owner) (v : Scalar) : (s.setScalar o v).staged = s.staged := by cases o <;> rfl
@[simp] theorem setScalar_msixTable (s : State) (o : Owner) (v : Scalar) : (s.setScalar o v).msixTable = s.msixTable := by cases o <;> rfl
@[simp] theorem setScalar_hostAnswer (s : State) (o : Owner) (v : Scalar) : (s.setScalar o v).hostAnswer = s.hostAnswer := by cases o <;> rfl
@[simp] theorem setScalar_mailStatus (s : State) (o : Owner) (v : Scalar) : (s.setScalar o v).mailStatus = s.mailStatus := by cases o <;> rfl
@[simp] theorem setScalar_mailAnswer (s : State) (o : Owner) (v : Scalar) : (s.setScalar o v).mailAnswer = s.mailAnswer := by cases o <;> rfl
@[simp] theorem setScalar_cur (s : State) (o : Owner) (v : Scalar) : (s.setScalar o v).cur = s.cur := by cases o <;> rfl
@[simp] theorem setScalar_lane (s : State) (o : Owner) (v : Scalar) : (s.setScalar o v).lane = s.lane := by cases o <;> rfl
@[simp] theorem setScalar_agenda (s : State) (o : Owner) (v : Scalar) : (s.setScalar o v).agenda = s.agenda := by cases o <;> rfl
@[simp] theorem setScalar_draws (s : State) (o : Owner) (v : Scalar) : (s.setScalar o v).draws = s.draws := by cases o <;> rfl
@[simp] theorem setScalar_nextId (s : State) (o : Owner) (v : Scalar) : (s.setScalar o v).nextId = s.nextId := by cases o <;> rfl

theorem setScalar_threads (s : State) (c : Nat) (v : Scalar) : (s.setScalar (.crew c) v).threads = s.threads := rfl
theorem setScalar_crews (s : State) (t : Nat) (v : Scalar) : (s.setScalar (.thread t) v).crews = s.crews := rfl

/-! ### Reads after an update -/

@[simp] theorem crew_setCrew (s : State) (c : Nat) (v : Crew) : (s.setCrew c v).crew c = v := by
  simp [crew, setCrew]

theorem crew_setCrew_other (s : State) {c d : Nat} (v : Crew) (h : d ≠ c) : (s.setCrew c v).crew d = s.crew d := by
  simp [crew, setCrew, Tbl.getD_insert_other _ _ _ h]

@[simp] theorem context_setContext (s : State) (c : Nat) (v : Context) : (s.setContext c v).context c = v := by
  simp [context, setContext]

theorem context_setContext_other (s : State) {c d : Nat} (v : Context) (h : d ≠ c) :
    (s.setContext c v).context d = s.context d := by
  simp [context, setContext, Tbl.getD_insert_other _ _ _ h]

@[simp] theorem partition_setPartition (s : State) (p : Nat) (v : Partition) : (s.setPartition p v).partition p = v := by
  simp [partition, setPartition]

theorem partition_setPartition_other (s : State) {p q : Nat} (v : Partition) (h : q ≠ p) :
    (s.setPartition p v).partition q = s.partition q := by
  simp [partition, setPartition, Tbl.getD_insert_other _ _ _ h]

@[simp] theorem thread_setThread (s : State) (t : Nat) (v : Thread) : (s.setThread t v).thread t = v :=
  Tbl.getD_put_same s.threads t v {}

theorem thread_setThread_other (s : State) {t u : Nat} (v : Thread) (hu : u ≠ t) :
    (s.setThread t v).thread u = s.thread u :=
  Tbl.getD_put_other s.threads v {} hu

@[simp] theorem cluster_setCluster (s : State) (c : Nat) (v : Cluster) :
    (s.setCluster c v).cluster c = v :=
  Tbl.getD_put_same s.clusters c v {}

theorem cluster_setCluster_other (s : State) {c d : Nat} (v : Cluster) (hd : d ≠ c) :
    (s.setCluster c v).cluster d = s.cluster d :=
  Tbl.getD_put_other s.clusters v {} hd

@[simp] theorem crew_setThread (s : State) (t : Nat) (v : Thread) (c : Nat) : (s.setThread t v).crew c = s.crew c := rfl
@[simp] theorem thread_setCrew (s : State) (c : Nat) (v : Crew) (t : Nat) : (s.setCrew c v).thread t = s.thread t := rfl
@[simp] theorem context_setThread (s : State) (t : Nat) (v : Thread) (c : Nat) : (s.setThread t v).context c = s.context c := rfl
@[simp] theorem context_setCrew (s : State) (c : Nat) (v : Crew) (d : Nat) : (s.setCrew c v).context d = s.context d := rfl
@[simp] theorem thread_setContext (s : State) (c : Nat) (v : Context) (t : Nat) : (s.setContext c v).thread t = s.thread t := rfl
@[simp] theorem crew_setContext (s : State) (c : Nat) (v : Context) (d : Nat) : (s.setContext c v).crew d = s.crew d := rfl
@[simp] theorem cluster_setThread (s : State) (t : Nat) (v : Thread) (c : Nat) : (s.setThread t v).cluster c = s.cluster c := rfl
@[simp] theorem cluster_setCrew (s : State) (c : Nat) (v : Crew) (d : Nat) : (s.setCrew c v).cluster d = s.cluster d := rfl

theorem lookupView_replaceView (l : List (Agent × View)) (a : Agent) (v : View) : lookupView (replaceView l a v) a = v := by
  induction l with
  | nil => simp [replaceView, lookupView]
  | cons e l ih =>
    simp only [replaceView]
    split
    · simp [lookupView]
    · next h => simp [lookupView, h, ih]

theorem lookupView_replaceView_other (l : List (Agent × View)) {a b : Agent} (v : View) (h : b ≠ a) :
    lookupView (replaceView l a v) b = lookupView l b := by
  induction l with
  | nil => simp [replaceView, lookupView, h]
  | cons e l ih =>
    simp only [replaceView]
    split
    · next he => subst he; simp [lookupView, h]
    · simp only [lookupView, ih]

@[simp] theorem view_setView (s : State) (a : Agent) (v : View) : (s.setView a v).view a = v :=
  lookupView_replaceView s.views a v

theorem view_setView_other (s : State) {a b : Agent} (v : View) (h : b ≠ a) : (s.setView a v).view b = s.view b :=
  lookupView_replaceView_other s.views v h

end Sys2Proof.Machine.State
end

