-- ==== Sys2Proof/Laws/Scalar.lean ====
section
/-! SUPPORT. Laws of the frame every A and S instruction runs in: reading and writing registers, guards, and how a body
that completes, stalls or traps ends. -/

namespace Sys2Proof.Machine

/-! ### The monad of meanings -/

@[simp] theorem m_pure {α : Type} (a : α) (s : State) : (pure a : M α) s = .ok a s := rfl
@[simp] theorem m_get (s : State) : (get : M State) s = .ok s s := rfl
@[simp] theorem m_set (t s : State) : (set t : M PUnit) s = .ok ⟨⟩ t := rfl
@[simp] theorem m_upd (f : State → State) (s : State) : upd f s = .ok () (f s) := rfl
@[simp] theorem m_modify (f : State → State) (s : State) : (modify f : M PUnit) s = .ok ⟨⟩ (f s) := rfl
@[simp] theorem m_throw {α : Type} (e : Stop) (s : State) : (throw e : M α) s = .error e s := rfl
@[simp] theorem m_trap {α : Type} (c : Nat) (x y : Word) (s : State) :
    (trap c x y : M α) s = .error (.trap { cause := c, addr := x, info := y }) s := rfl

theorem m_bind {α β : Type} (m : M α) (f : α → M β) (s : State) :
    (m >>= f) s = match m s with
      | .ok a s' => f a s'
      | .error e s' => .error e s' := by
  show EStateM.bind m f s = _
  unfold EStateM.bind
  cases m s <;> rfl

theorem m_bind_ok {α β : Type} {m : M α} {f : α → M β} {s s' : State} {a : α} (h : m s = .ok a s') :
    (m >>= f) s = f a s' := by
  simp only [m_bind, h]

theorem m_bind_err {α β : Type} {m : M α} {f : α → M β} {s s' : State} {e : Stop} (h : m s = .error e s') :
    (m >>= f) s = .error e s' := by
  simp only [m_bind, h]

/-! ### Registers, predicates, guards -/

theorem readReg_ok {s : State} {w : Owner} {r : Nat} (h : regReady s w r = true) (ta : Nat) :
    readReg w r ta s = .ok (regVal s w r) s := by
  unfold readReg regVal
  by_cases hg : isG0 w r = true
  · simp only [hg, if_true]; rfl
  · have hf : (s.scalar w).isFull r = true := by simpa [regReady, hg] using h
    simp only [hg, if_false, m_bind, m_get, hf, if_true, m_pure, Bool.false_eq_true]

/-- An empty source stalls, or traps with cause 3 where the trap bit is set (R167). -/
theorem readReg_empty {s : State} {w : Owner} {r : Nat} (h : regReady s w r = false) (ta : Nat) :
    readReg w r ta s =
      .error (if ta = 1 then .trap { cause := 3, info := BitVec.ofNat 64 r } else .stall) s := by
  unfold readReg
  simp only [regReady, Bool.or_eq_false_iff] at h
  simp only [h.1, if_false, m_bind, m_get, h.2, Bool.false_eq_true]
  split <;> rfl

theorem destReady_ok {s : State} {w : Owner} {r : Nat} (h : regReady s w r = true) : destReady w r s = .ok () s := by
  unfold destReady
  by_cases hg : isG0 w r = true
  · simp only [hg, if_true]; rfl
  · have hf : (s.scalar w).isFull r = true := by simpa [regReady, hg] using h
    simp only [hg, if_false, m_bind, m_get, hf, if_true, m_pure, Bool.false_eq_true]

theorem destReady_empty {s : State} {w : Owner} {r : Nat} (h : regReady s w r = false) :
    destReady w r s = .error .stall s := by
  unfold destReady
  simp only [regReady, Bool.or_eq_false_iff] at h
  simp only [h.1, if_false, m_bind, m_get, h.2, Bool.false_eq_true]
  rfl

theorem writeReg_ok {s : State} {w : Owner} {r : Nat} (h : regReady s w r = true) (v : Word) :
    writeReg w r v s = .ok () (withReg s w r v) := by
  unfold writeReg withReg
  rw [m_bind_ok (destReady_ok h)]
  split <;> rfl

theorem awaitReg_ok {s : State} {w : Owner} {r : Nat} (h : regReady s w r = true) (p : Pend) :
    awaitReg w r p s = .ok () (withPend s w r p) := by
  unfold awaitReg withPend
  rw [m_bind_ok (destReady_ok h)]
  split <;> rfl

@[simp] theorem readPred_ok (s : State) (w : Owner) (k : Nat) : readPred w k s = .ok ((s.scalar w).pred k) s := rfl
@[simp] theorem writePred_ok (s : State) (w : Owner) (k : Nat) (b : Bool) :
    writePred w k b s = .ok () (withPred s w k b) := rfl

theorem guarded_open {s : State} {w : Owner} {g ng : Nat} (h : guardOpen s w g ng = true) (m : M Flow) :
    guarded w g ng m s = m s := by
  unfold guarded
  rw [m_bind_ok (show guardHolds w g ng s = .ok true s by
    unfold guardHolds
    rw [m_bind_ok (readPred_ok s w g)]
    exact congrArg (fun b => EStateM.Result.ok b s) h)]
  rfl

theorem guarded_shut {s : State} {w : Owner} {g ng : Nat} (h : guardOpen s w g ng = false) (m : M Flow) :
    guarded w g ng m s = .ok .next s := by
  unfold guarded
  rw [m_bind_ok (show guardHolds w g ng s = .ok false s by
    unfold guardHolds
    rw [m_bind_ok (readPred_ok s w g)]
    exact congrArg (fun b => EStateM.Result.ok b s) h)]
  rfl

/-! ### How a body ends -/

theorem scalarStep_next {o : Owner} {n : Nat} {body : M Flow} {s s' : State} (h : body s = .ok .next s') :
    scalarStep o n body s = advance s' o n := by
  simp only [scalarStep, h]

theorem scalarStep_goto {o : Owner} {n : Nat} {body : M Flow} {s s' : State} {p : Word} (h : body s = .ok (.goto p) s') :
    scalarStep o n body s = land s' o { s'.scalar o with pc := p, line := none, stalled := false } := by
  simp only [scalarStep, h]

theorem scalarStep_stay {o : Owner} {n : Nat} {body : M Flow} {s s' : State} (h : body s = .ok .stay s') :
    scalarStep o n body s = s' := by
  simp only [scalarStep, h]

theorem scalarStep_stall {o : Owner} {n : Nat} {body : M Flow} {s s' : State} (h : body s = .error .stall s') :
    scalarStep o n body s = s := by
  simp only [scalarStep, h]

theorem scalarStep_trap {o : Owner} {n : Nat} {body : M Flow} {s s' : State} {e : Exc}
    (h : body s = .error (.trap e) s') :
    scalarStep o n body s = raisedAt o e (keepErrors s s') (keepErrors s s') := by
  simp only [scalarStep, h]

/-- Nothing found out is nothing kept. -/
@[simp] theorem keepErrors_self (s : State) : keepErrors s s = s := rfl

theorem runScalar_next {s s' : State} {w : Owner} {body : Owner → M Flow} (hw : curOwner s = some w)
    (h : body w s = .ok .next s') : runScalar body s = .next (advance s' w 1) := by
  simp only [runScalar, hw, scalarStep_next h]

theorem runScalar_goto {s s' : State} {w : Owner} {body : Owner → M Flow} {p : Word} (hw : curOwner s = some w)
    (h : body w s = .ok (.goto p) s') :
    runScalar body s = .next (land s' w { s'.scalar w with pc := p, line := none, stalled := false }) := by
  simp only [runScalar, hw, scalarStep_goto h]

theorem runScalar_stay {s s' : State} {w : Owner} {body : Owner → M Flow} (hw : curOwner s = some w)
    (h : body w s = .ok .stay s') : runScalar body s = .next s' := by
  simp only [runScalar, hw, scalarStep_stay h]

theorem runScalar_stall {s s' : State} {w : Owner} {body : Owner → M Flow} (hw : curOwner s = some w)
    (h : body w s = .error .stall s') : runScalar body s = .next s := by
  simp only [runScalar, hw, scalarStep_stall h]

theorem runScalar_trap {s s' : State} {w : Owner} {body : Owner → M Flow} {e : Exc} (hw : curOwner s = some w)
    (h : body w s = .error (.trap e) s') :
    runScalar body s = .next (raisedAt w e (keepErrors s s') (keepErrors s s')) := by
  simp only [runScalar, hw, scalarStep_trap h]

/-! ### What writing a register and advancing leave alone -/

@[simp] theorem scalar_setScalar (s : State) (w : Owner) (v : Scalar) : (s.setScalar w v).scalar w = v := by
  cases w <;> simp [State.setScalar, State.scalar]

theorem OnlyScalar.refl (w : Owner) (s : State) : OnlyScalar w s s :=
  ⟨rfl, fun _ _ => rfl, fun _ _ => rfl, fun _ _ => rfl, fun _ _ => rfl⟩

theorem OnlyScalar.trans {w : Owner} {s t u : State} (h : OnlyScalar w s t) (k : OnlyScalar w t u) : OnlyScalar w s u where
  rest := by
    have h1 := h.rest
    have k1 := k.rest
    rw [← h1, ← k1]
  threads v hv := (k.threads v hv).trans (h.threads v hv)
  crews c hc := (k.crews c hc).trans (h.crews c hc)
  thread v hv := by
    have h1 := h.thread v hv
    have k1 := k.thread v hv
    rw [← h1, ← k1]
  crew c hc := by
    have h1 := h.crew c hc
    have k1 := k.crew c hc
    rw [← h1, ← k1]

theorem setThread_only (s : State) (t : Nat) (c : Scalar) (b : Bool) :
    OnlyScalar (.thread t) s (s.setThread t { s.thread t with sc := c, idle := b }) where
  rest := rfl
  threads u hu := State.thread_setThread_other s _ fun h => hu (h ▸ rfl)
  crews _ _ := rfl
  thread u hu := by cases hu; rw [State.thread_setThread]
  crew _ hc := nomatch hc

theorem setCrew_only (s : State) (k : Nat) (c : Scalar) (b : Bool) (l : Tbl LoopRec) :
    OnlyScalar (.crew k) s (s.setCrew k { s.crew k with sc := c, idle := b, loops := l }) where
  rest := rfl
  threads _ _ := rfl
  crews u hu := State.crew_setCrew_other s _ fun h => hu (h ▸ rfl)
  thread _ hc := nomatch hc
  crew u hu := by cases hu; rw [State.crew_setCrew]

theorem setScalar_only (s : State) (w : Owner) (c : Scalar) : OnlyScalar w s (s.setScalar w c) := by
  cases w with
  | thread t => exact setThread_only s t c _
  | crew k => exact setCrew_only s k c _ _

theorem withReg_only (s : State) (w : Owner) (r : Nat) (v : Word) : OnlyScalar w s (withReg s w r v) := by
  unfold withReg
  split
  · exact OnlyScalar.refl w s
  · exact setScalar_only s w _

theorem withPred_only (s : State) (w : Owner) (k : Nat) (b : Bool) : OnlyScalar w s (withPred s w k b) :=
  setScalar_only s w _

/-- Evaluating back edges changes loop registers alone. -/
theorem backEdges_crew (k : Crew) (l : List (Nat × LoopRec)) :
    (backEdges k l).1 = { k with loops := (backEdges k l).1.loops } := by
  induction l generalizing k with
  | nil => rfl
  | cons e l ih =>
    simp only [backEdges]
    split
    · rfl
    · rw [ih]

theorem land_only (s : State) (w : Owner) (c : Scalar) : OnlyScalar w s (land s w c) := by
  cases w with
  | thread t => exact setThread_only s t c false
  | crew k => exact setCrew_only s k c false _

theorem advance_only (s : State) (w : Owner) (n : Nat) : OnlyScalar w s (advance s w n) := by
  cases w with
  | thread t => exact land_only s _ _
  | crew k =>
    simp only [advance]
    rw [backEdges_crew]
    exact setCrew_only s k _ false _

/-- Advancing changes nothing of the registers but the pointer and the stall mark. -/
theorem advance_scalar (s : State) (w : Owner) (n : Nat) :
    (advance s w n).scalar w = { s.scalar w with pc := ((advance s w n).scalar w).pc, stalled := false } := by
  cases w with
  | thread t => simp [advance, land, State.scalar]
  | crew k =>
    simp only [advance, State.scalar, State.crew_setCrew]
    rw [backEdges_crew]

theorem setBit_other {n : Nat} (v : BitVec n) {i j : Nat} (b : Bool) (h : j ≠ i) :
    (setBit v i b).getLsbD j = v.getLsbD j := by
  by_cases hj : j < n
  · cases b <;> simp [setBit, hj, h]
  · rw [BitVec.getLsbD_of_ge _ _ (by omega), BitVec.getLsbD_of_ge _ _ (by omega)]

theorem setBit_same {n : Nat} (v : BitVec n) {i : Nat} (b : Bool) (h : i < n) : (setBit v i b).getLsbD i = b := by
  cases b <;> simp [setBit, h]

@[simp] theorem write_reg (c : Scalar) (r : Nat) (v : Word) : (c.write r v).reg r = v := by
  simp [Scalar.write, Scalar.reg]

theorem write_reg_other (c : Scalar) {r q : Nat} (v : Word) (h : q ≠ r) : (c.write r v).reg q = c.reg q := by
  simp [Scalar.write, Scalar.reg, Tbl.getD_put_other _ _ _ h]

theorem write_isFull_other (c : Scalar) {r q : Nat} (v : Word) (h : q ≠ r) : (c.write r v).isFull q = c.isFull q :=
  setBit_other _ _ h

theorem write_isFull (c : Scalar) {r : Nat} (v : Word) (h : r < 32) : (c.write r v).isFull r = true :=
  setBit_same _ _ h

theorem write_pend_other (c : Scalar) {r q : Nat} (v : Word) (h : q ≠ r) : (c.write r v).pend.find? q = c.pend.find? q :=
  Tbl.find?_erase_other _ h

/-- A register write followed by the advance of the pointer changes that register alone. -/
theorem withReg_frame (s : State) (w : Owner) (d n : Nat) (v : Word) :
    OnlyScalar w s (advance (withReg s w d v) w n) ∧
    RegsBut w (if isG0 w d then [] else [d]) s (advance (withReg s w d v) w n) ∧
    PredsBut w [] s (advance (withReg s w d v) w n) ∧
    ((advance (withReg s w d v) w n).scalar w).depth = (s.scalar w).depth ∧
    ((advance (withReg s w d v) w n).scalar w).lines = (s.scalar w).lines := by
  refine ⟨(withReg_only s w d v).trans (advance_only _ w n), ?_⟩
  unfold RegsBut PredsBut
  rw [advance_scalar]
  unfold withReg
  split
  · exact ⟨fun _ _ => ⟨rfl, rfl, rfl⟩, fun _ _ => rfl, rfl, rfl⟩
  · simp only [scalar_setScalar]
    refine ⟨fun r hr => ?_, fun _ _ => rfl, rfl, rfl⟩
    have hr : r ≠ d := by simpa using hr
    exact ⟨write_reg_other _ v hr, write_isFull_other _ v hr, write_pend_other _ v hr⟩

/-! ### The shapes of integer instructions -/

theorem regBin_next {s : State} {w : Owner} {o : RFmt} (f : Word → Word → Word) (hw : Guarded s w o.g o.ng)
    (hr : RegsReady s w [o.a, o.b, o.d]) :
    runScalar (regBin o f) s = .next (advance (withReg s w o.d (f (regVal s w o.a) (regVal s w o.b))) w 1) := by
  refine runScalar_next hw.1 ?_
  unfold regBin
  rw [guarded_open hw.2, m_bind_ok (readReg_ok (hr o.a (by simp)) _), m_bind_ok (readReg_ok (hr o.b (by simp)) _),
    m_bind_ok (writeReg_ok (hr o.d (by simp)) _)]
  rfl

theorem regUn_next {s : State} {w : Owner} {o : RFmt} (f : Word → Word) (hw : Guarded s w o.g o.ng)
    (hr : RegsReady s w [o.a, o.d]) :
    runScalar (regUn o f) s = .next (advance (withReg s w o.d (f (regVal s w o.a))) w 1) := by
  refine runScalar_next hw.1 ?_
  unfold regUn
  rw [guarded_open hw.2, m_bind_ok (readReg_ok (hr o.a (by simp)) _), m_bind_ok (writeReg_ok (hr o.d (by simp)) _)]
  rfl

theorem regImm_next {s : State} {w : Owner} {o : IFmt} (f : Word → Nat → Word) (hw : curOwner s = some w)
    (hr : RegsReady s w [o.a, o.d]) :
    runScalar (regImm o f) s = .next (advance (withReg s w o.d (f (regVal s w o.a) o.imm)) w 1) := by
  refine runScalar_next hw ?_
  unfold regImm
  rw [m_bind_ok (readReg_ok (hr o.a (by simp)) _), m_bind_ok (writeReg_ok (hr o.d (by simp)) _)]
  rfl

end Sys2Proof.Machine
end

