-- ==== Sys2Proof/Laws/Completes.lean ====
section
/-! SUPPORT. Laws of what the hub does on its own account: its reads, writes, walks and events, saves and dispatches run to
their end in every state. -/

namespace Sys2Proof.Machine

/-- A meaning that answers in every state. -/
def Completes {α : Type} (m : M α) : Prop := ∀ s, ∃ a s', m s = .ok a s'

theorem Completes.pure {α : Type} (a : α) : Completes (pure a : M α) := fun s => ⟨a, s, rfl⟩
theorem Completes.get : Completes (get : M State) := fun s => ⟨s, s, rfl⟩
theorem Completes.upd (f : State → State) : Completes (upd f) := fun s => ⟨(), f s, rfl⟩

theorem Completes.bind {α β : Type} {m : M α} {f : α → M β} (hm : Completes m) (hf : ∀ a, Completes (f a)) :
    Completes (m >>= f) := fun s => by
  obtain ⟨a, s1, h⟩ := hm s
  obtain ⟨b, s2, h2⟩ := hf a s1
  exact ⟨b, s2, (m_bind_ok h).trans h2⟩

theorem completes_pick (lo hi : Nat) : Completes (pick lo hi) := fun s => by
  unfold pick
  split
  · exact ⟨_, _, rfl⟩
  · exact ⟨_, _, rfl⟩

theorem completes_freshId : Completes freshId := fun _ => ⟨_, _, rfl⟩

theorem completes_memoryUnit (mem : Option Nat) : Completes (memoryUnit mem) := by
  unfold memoryUnit
  repeat' first
    | with_reducible exact Completes.pure _ | with_reducible exact Completes.get | exact completes_pick _ _
    | (refine Completes.bind ?_ fun _ => ?_) | split | (dsimp only)

theorem completes_countSector (cls sec : Nat) : Completes (countSector cls sec) :=
  (completes_memoryUnit _).bind fun _ => Completes.upd _

theorem completes_checkSector (k : Nat) : Completes (checkSector k) := by
  unfold checkSector
  repeat' first
    | with_reducible exact Completes.pure _ | with_reducible exact Completes.get | with_reducible exact Completes.upd _
    | exact completes_countSector _ _ | (refine Completes.bind ?_ fun _ => ?_) | split

theorem completes_checkSectors (l : List Nat) : Completes (checkSectors l) := by
  induction l with
  | nil => exact Completes.pure _
  | cons k t ih => exact (completes_checkSector k).bind fun _ => ih.bind fun _ => Completes.pure _

theorem completes_checkCounted (l : List Nat) : Completes (checkCounted l) := by
  induction l with
  | nil => exact Completes.pure _
  | cons k t ih =>
    unfold checkCounted
    refine (completes_checkSector k).bind fun a => ?_
    split
    · exact (completes_countSector 3 k).bind fun _ => ih.bind fun _ => Completes.pure _
    · exact (Completes.pure _).bind fun _ => ih.bind fun _ => Completes.pure _

theorem completes_readPublished (pa n : Nat) : Completes (readPublished pa n) := by
  unfold readPublished
  refine (completes_checkCounted _).bind fun ok => ?_
  split
  · exact Completes.pure _
  · exact Completes.get.bind fun _ => Completes.pure _

theorem completes_walkFrom (va t depth : Nat) (l : List (Nat × Nat × Nat)) : Completes (walkFrom va t depth l) := by
  induction l generalizing t depth with
  | nil => exact Completes.pure _
  | cons e rest ih =>
    unfold walkFrom
    refine (completes_readPublished _ _).bind fun got => ?_
    split
    · exact Completes.pure _
    · dsimp only
      repeat' first | exact Completes.pure _ | exact ih _ _ | split

theorem completes_walk (ctx level va : Nat) (write fetch : Bool) : Completes (walk ctx level va write fetch) := by
  unfold walk
  split
  · exact Completes.pure _
  · refine Completes.get.bind fun s => (completes_walkFrom _ _ _ _).bind fun r => ?_
    repeat' first | exact Completes.pure _ | split

theorem completes_hubParts (ctx : Nat) (write : Bool) (l : List (Nat × Nat)) : Completes (hubParts ctx write l) := by
  induction l with
  | nil => exact Completes.pure _
  | cons e t ih =>
    unfold hubParts
    refine (completes_walk _ _ _ _ _).bind fun w => ih.bind fun r => ?_
    repeat' first | exact Completes.pure _ | split

theorem completes_hubWriteParts (scope : Nat) (l : List (Nat × Nat)) (bs : List Byte) : Completes (hubWriteParts scope l bs) := by
  induction l generalizing bs with
  | nil => exact Completes.pure _
  | cons e t ih => exact (Completes.upd _).bind fun _ => ih _

/-- The hub's store of a context's memory always ends. -/
theorem completes_hubStore (ctx va : Nat) (bs : List Byte) (scope : Nat) : Completes (hubStore ctx va bs scope) := by
  unfold hubStore
  refine (completes_hubParts _ _ _).bind fun p => ?_
  split
  · exact completes_hubWriteParts _ _ _
  · exact Completes.pure _

theorem completes_hubLoadParts (l : List (Nat × Nat)) : Completes (hubLoadParts l) := by
  induction l with
  | nil => exact Completes.pure _
  | cons e t ih =>
    unfold hubLoadParts
    refine (completes_readPublished _ _).bind fun x => ih.bind fun y => ?_
    repeat' first | exact Completes.pure _ | split

theorem completes_hubLoad (ctx va n : Nat) : Completes (hubLoad ctx va n) := by
  unfold hubLoad
  refine (completes_hubParts _ _ _).bind fun p => ?_
  split
  · exact completes_hubLoadParts _
  · exact Completes.pure _

/-- An event is written, or counted as lost, or its context is gone: it always ends. -/
theorem completes_event (ctx type cause crew addr info : Nat) : Completes (event ctx type cause crew addr info) := by
  unfold event
  refine Completes.get.bind fun s => ?_
  split
  · exact Completes.pure _
  · dsimp only
    split
    · exact Completes.upd _
    · exact (completes_hubStore _ _ _ _).bind fun _ => Completes.upd _

theorem completes_freeBytes (n : Nat) : Completes (freeBytes n) := fun _ => ⟨_, _, rfl⟩

theorem completes_writeHeader (ctx addr : Nat) : Completes (writeHeader ctx addr) :=
  (completes_freeBytes _).bind fun _ => completes_hubStore _ _ _ _

theorem completes_storeFrame (ctx addr : Nat) (k : Crew) : Completes (storeFrame ctx addr k) :=
  (completes_writeHeader _ _).bind fun _ => (completes_freeBytes _).bind fun _ => (completes_hubStore _ _ _ _).bind fun _ =>
    (completes_hubStore _ _ _ _).bind fun _ => (completes_freeBytes _).bind fun _ => completes_hubStore _ _ _ _

theorem completes_moveReports (w : Withdrawal) (l : List Nat) : Completes (moveReports w l) := by
  induction l with
  | nil => exact Completes.pure _
  | cons x rest ih =>
    simp only [moveReports]
    split
    · exact ih
    · exact (completes_event _ _ _ _ _ _).bind fun _ => ih

theorem completes_reportWithdrawals (l : List Withdrawal) : Completes (reportWithdrawals l) := by
  induction l with
  | nil => exact Completes.pure _
  | cons w rest ih => exact (completes_moveReports _ _).bind fun _ => ih

/-- What stands to be reported of withdrawals is: it always ends. -/
theorem completes_reportMoves : Completes reportMoves :=
  Completes.get.bind fun _ => (Completes.upd _).bind fun _ => completes_reportWithdrawals _

theorem completes_failCrew (c cause : Nat) : Completes (failCrew c cause) := by
  unfold failCrew
  exact Completes.get.bind fun s => (completes_event _ _ _ _ _ _).bind fun _ => (Completes.upd _).bind fun _ => completes_reportMoves

theorem completes_containReport (ctx crew addr unit inst kind detail : Nat) :
    Completes (containReport ctx crew addr unit inst kind detail) := by
  unfold containReport
  refine Completes.get.bind fun s => ?_
  split
  · exact (completes_memoryUnit _).bind fun _ => (Completes.upd _).bind fun _ => completes_event _ _ _ _ _ _
  · exact (Completes.pure _).bind fun _ => (Completes.upd _).bind fun _ => completes_event _ _ _ _ _ _

theorem completes_publishRecords (c : Nat) : Completes (publishRecords c) := by
  unfold publishRecords
  refine Completes.get.bind fun s => (completes_hubParts _ _ _).bind fun p => ?_
  split
  · exact Completes.pure _
  · exact Completes.upd _

/-- A save always ends. -/
theorem completes_saveDone (c : Nat) (suspend : Bool) (cause : Nat) : Completes (saveDone c suspend cause) := by
  unfold saveDone
  refine Completes.get.bind fun s => ?_
  dsimp only
  split
  · exact (completes_pick _ _).bind fun _ => (completes_containReport _ _ _ _ _ _ _).bind fun _ => completes_failCrew _ _
  · refine (completes_publishRecords _).bind fun _ => (Completes.upd _).bind fun _ => (Completes.upd _).bind fun _ =>
      Completes.get.bind fun s => (completes_storeFrame _ _ _).bind fun _ => ?_
    split
    · exact (Completes.upd _).bind fun _ => (completes_event _ _ _ _ _ _).bind fun _ => (Completes.upd _).bind fun _ =>
        completes_reportMoves
    · exact (Completes.upd _).bind fun _ => (Completes.upd _).bind fun _ => completes_reportMoves

end Sys2Proof.Machine
end

