-- ==== Sys2Proof/Laws/Encoding.lean ====
section
/-! SUPPORT. Encoding and decoding of each format (R165, R168, R173, R181): a format's fields come back from its word,
and an opcode from the word it heads. -/

namespace Sys2Proof

theorem bits_split (w hi lo : Nat) (h : lo ≤ hi) : bits w hi lo * 2 ^ lo + w % 2 ^ lo = w % 2 ^ (hi + 1) := by
  have e : (2 : Nat) ^ (hi + 1) = 2 ^ lo * 2 ^ (hi + 1 - lo) := by rw [← Nat.pow_add]; congr 1; omega
  rw [e, Nat.mod_mul, bits, Nat.mul_comm, Nat.add_comm]

theorem rOf_word (o : RFmt) (h : o.ranged = true) (op : Nat) : rOf (op * 2 ^ 25 + o.word) = o := by
  obtain ⟨d, a, b, ng, fn, g, ta, tb⟩ := o
  simp only [RFmt.ranged, Bool.and_eq_true, decide_eq_true_eq] at h
  simp only [rOf, RFmt.word, bits, RFmt.mk.injEq]
  refine ⟨?_, ?_, ?_, ?_, ?_, ?_, ?_, ?_⟩ <;> omega

theorem RFmt.word_lt (o : RFmt) (h : o.ranged = true) : o.word < 2 ^ 25 := by
  obtain ⟨d, a, b, ng, fn, g, ta, tb⟩ := o
  simp only [RFmt.ranged, Bool.and_eq_true, decide_eq_true_eq] at h
  simp only [RFmt.word]
  omega

theorem word_rOf (w : Nat) (hw : w < 2 ^ 32) : w / 2 ^ 25 % 128 * 2 ^ 25 + (rOf w).word = w := by
  have h0 : w / 2 ^ 25 % 128 = bits w 31 25 := rfl
  have top := bits_split w 31 25 (by decide)
  rw [Nat.mod_eq_of_lt hw] at top
  have := bits_split w 24 20 (by decide)
  have := bits_split w 19 15 (by decide)
  have := bits_split w 14 10 (by decide)
  have := bits_split w 9 9 (by decide)
  have := bits_split w 8 5 (by decide)
  have := bits_split w 4 2 (by decide)
  have := bits_split w 1 1 (by decide)
  have := bits_split w 0 0 (by decide)
  simp only [rOf, RFmt.word, h0]
  norm_num [Nat.mod_one] at *
  linarith

theorem iOf_word (o : IFmt) (h : o.ranged = true) (op : Nat) : iOf (op * 2 ^ 25 + o.word) = o := by
  obtain ⟨d, a, imm, ta⟩ := o
  simp only [IFmt.ranged, Bool.and_eq_true, decide_eq_true_eq] at h
  simp only [iOf, IFmt.word, bits, IFmt.mk.injEq]
  refine ⟨?_, ?_, ?_, ?_⟩ <;> omega

theorem IFmt.word_lt (o : IFmt) (h : o.ranged = true) : o.word < 2 ^ 25 := by
  obtain ⟨d, a, imm, ta⟩ := o
  simp only [IFmt.ranged, Bool.and_eq_true, decide_eq_true_eq] at h
  simp only [IFmt.word]
  omega

theorem word_iOf (w : Nat) (hw : w < 2 ^ 32) : w / 2 ^ 25 % 128 * 2 ^ 25 + (iOf w).word = w := by
  have h0 : w / 2 ^ 25 % 128 = bits w 31 25 := rfl
  have top := bits_split w 31 25 (by decide)
  rw [Nat.mod_eq_of_lt hw] at top
  have := bits_split w 24 20 (by decide)
  have := bits_split w 19 15 (by decide)
  have := bits_split w 14 1 (by decide)
  have := bits_split w 0 0 (by decide)
  simp only [iOf, IFmt.word, h0]
  norm_num [Nat.mod_one] at *
  linarith

theorem icOf_word (o : ICFmt) (h : o.ranged = true) (op : Nat) : icOf (op * 2 ^ 25 + o.word) = o := by
  obtain ⟨kd, cond, a, imm, ta⟩ := o
  simp only [ICFmt.ranged, Bool.and_eq_true, decide_eq_true_eq] at h
  simp only [icOf, ICFmt.word, bits, ICFmt.mk.injEq]
  refine ⟨?_, ?_, ?_, ?_, ?_⟩ <;> omega

theorem ICFmt.word_lt (o : ICFmt) (h : o.ranged = true) : o.word < 2 ^ 25 := by
  obtain ⟨kd, cond, a, imm, ta⟩ := o
  simp only [ICFmt.ranged, Bool.and_eq_true, decide_eq_true_eq] at h
  simp only [ICFmt.word]
  omega

theorem word_icOf (w : Nat) (hw : w < 2 ^ 32) : w / 2 ^ 25 % 128 * 2 ^ 25 + (icOf w).word = w := by
  have h0 : w / 2 ^ 25 % 128 = bits w 31 25 := rfl
  have top := bits_split w 31 25 (by decide)
  rw [Nat.mod_eq_of_lt hw] at top
  have := bits_split w 24 22 (by decide)
  have := bits_split w 21 18 (by decide)
  have := bits_split w 17 13 (by decide)
  have := bits_split w 12 1 (by decide)
  have := bits_split w 0 0 (by decide)
  simp only [icOf, ICFmt.word, h0]
  norm_num [Nat.mod_one] at *
  linarith

theorem bOf_word (o : BFmt) (h : o.ranged = true) (op : Nat) : bOf (op * 2 ^ 25 + o.word) = o := by
  obtain ⟨g, n, lane, disp⟩ := o
  simp only [BFmt.ranged, Bool.and_eq_true, decide_eq_true_eq] at h
  simp only [bOf, BFmt.word, bits, BFmt.mk.injEq]
  refine ⟨?_, ?_, ?_, ?_⟩ <;> omega

theorem BFmt.word_lt (o : BFmt) (h : o.ranged = true) : o.word < 2 ^ 25 := by
  obtain ⟨g, n, lane, disp⟩ := o
  simp only [BFmt.ranged, Bool.and_eq_true, decide_eq_true_eq] at h
  simp only [BFmt.word]
  omega

theorem word_bOf (w : Nat) (hw : w < 2 ^ 32) : w / 2 ^ 25 % 128 * 2 ^ 25 + (bOf w).word = w := by
  have h0 : w / 2 ^ 25 % 128 = bits w 31 25 := rfl
  have top := bits_split w 31 25 (by decide)
  rw [Nat.mod_eq_of_lt hw] at top
  have := bits_split w 24 22 (by decide)
  have := bits_split w 21 21 (by decide)
  have := bits_split w 20 18 (by decide)
  have := bits_split w 17 0 (by decide)
  simp only [bOf, BFmt.word, h0]
  norm_num [Nat.mod_one] at *
  linarith

theorem memOf_word (o : MemFmt) (h : o.ranged = true) (op : Nat) : memOf (op * 2 ^ 25 + o.word) = o := by
  obtain ⟨d, a, sz, sx, off, td, ta⟩ := o
  simp only [MemFmt.ranged, Bool.and_eq_true, decide_eq_true_eq] at h
  simp only [memOf, MemFmt.word, bits, MemFmt.mk.injEq]
  refine ⟨?_, ?_, ?_, ?_, ?_, ?_, ?_⟩ <;> omega

theorem MemFmt.word_lt (o : MemFmt) (h : o.ranged = true) : o.word < 2 ^ 25 := by
  obtain ⟨d, a, sz, sx, off, td, ta⟩ := o
  simp only [MemFmt.ranged, Bool.and_eq_true, decide_eq_true_eq] at h
  simp only [MemFmt.word]
  omega

theorem word_memOf (w : Nat) (hw : w < 2 ^ 32) : w / 2 ^ 25 % 128 * 2 ^ 25 + (memOf w).word = w := by
  have h0 : w / 2 ^ 25 % 128 = bits w 31 25 := rfl
  have top := bits_split w 31 25 (by decide)
  rw [Nat.mod_eq_of_lt hw] at top
  have := bits_split w 24 20 (by decide)
  have := bits_split w 19 15 (by decide)
  have := bits_split w 14 13 (by decide)
  have := bits_split w 12 12 (by decide)
  have := bits_split w 11 2 (by decide)
  have := bits_split w 1 1 (by decide)
  have := bits_split w 0 0 (by decide)
  simp only [memOf, MemFmt.word, h0]
  norm_num [Nat.mod_one] at *
  linarith

theorem qOf_word (o : QFmt) (h : o.ranged = true) (op : Nat) : qOf (op * 2 ^ 25 + o.word) = o := by
  obtain ⟨reg, q, h, t, rsv, ng, mf, kp, g, tr, rsv0⟩ := o
  simp only [QFmt.ranged, Bool.and_eq_true, decide_eq_true_eq, beq_iff_eq] at h
  simp only [qOf, QFmt.word, bits, QFmt.mk.injEq]
  refine ⟨?_, ?_, ?_, ?_, ?_, ?_, ?_, ?_, ?_, ?_, ?_⟩ <;> omega

theorem QFmt.word_lt (o : QFmt) (h : o.ranged = true) : o.word < 2 ^ 25 := by
  obtain ⟨reg, q, h, t, rsv, ng, mf, kp, g, tr, rsv0⟩ := o
  simp only [QFmt.ranged, Bool.and_eq_true, decide_eq_true_eq, beq_iff_eq] at h
  simp only [QFmt.word]
  omega

theorem word_qOf (w : Nat) (hw : w < 2 ^ 32) : w / 2 ^ 25 % 128 * 2 ^ 25 + (qOf w).word = w := by
  have h0 : w / 2 ^ 25 % 128 = bits w 31 25 := rfl
  have top := bits_split w 31 25 (by decide)
  rw [Nat.mod_eq_of_lt hw] at top
  have := bits_split w 24 20 (by decide)
  have := bits_split w 19 14 (by decide)
  have := bits_split w 13 13 (by decide)
  have := bits_split w 12 12 (by decide)
  have := bits_split w 11 10 (by decide)
  have := bits_split w 9 9 (by decide)
  have := bits_split w 8 8 (by decide)
  have := bits_split w 7 5 (by decide)
  have := bits_split w 4 2 (by decide)
  have := bits_split w 1 1 (by decide)
  have := bits_split w 0 0 (by decide)
  simp only [qOf, QFmt.word, h0]
  norm_num [Nat.mod_one] at *
  linarith

theorem pOf_word (o : PFmt) (h : o.ranged = true) (op : Nat) : pOf (op * 2 ^ 25 + o.word) = o := by
  obtain ⟨l, a, ta, elane, len⟩ := o
  simp only [PFmt.ranged, Bool.and_eq_true, decide_eq_true_eq] at h
  simp only [pOf, PFmt.word, bits, PFmt.mk.injEq]
  refine ⟨?_, ?_, ?_, ?_, ?_⟩ <;> omega

theorem PFmt.word_lt (o : PFmt) (h : o.ranged = true) : o.word < 2 ^ 25 := by
  obtain ⟨l, a, ta, elane, len⟩ := o
  simp only [PFmt.ranged, Bool.and_eq_true, decide_eq_true_eq] at h
  simp only [PFmt.word]
  omega

theorem word_pOf (w : Nat) (hw : w < 2 ^ 32) : w / 2 ^ 25 % 128 * 2 ^ 25 + (pOf w).word = w := by
  have h0 : w / 2 ^ 25 % 128 = bits w 31 25 := rfl
  have top := bits_split w 31 25 (by decide)
  rw [Nat.mod_eq_of_lt hw] at top
  have := bits_split w 24 23 (by decide)
  have := bits_split w 22 18 (by decide)
  have := bits_split w 17 17 (by decide)
  have := bits_split w 16 14 (by decide)
  have := bits_split w 13 0 (by decide)
  simp only [pOf, PFmt.word, h0]
  norm_num [Nat.mod_one] at *
  linarith

theorem pqOf_word (o : PQFmt) (h : o.ranged = true) (op : Nat) : pqOf (op * 2 ^ 25 + o.word) = o := by
  obtain ⟨l, q, elane, len⟩ := o
  simp only [PQFmt.ranged, Bool.and_eq_true, decide_eq_true_eq] at h
  simp only [pqOf, PQFmt.word, bits, PQFmt.mk.injEq]
  refine ⟨?_, ?_, ?_, ?_⟩ <;> omega

theorem PQFmt.word_lt (o : PQFmt) (h : o.ranged = true) : o.word < 2 ^ 25 := by
  obtain ⟨l, q, elane, len⟩ := o
  simp only [PQFmt.ranged, Bool.and_eq_true, decide_eq_true_eq] at h
  simp only [PQFmt.word]
  omega

theorem word_pqOf (w : Nat) (hw : w < 2 ^ 32) : w / 2 ^ 25 % 128 * 2 ^ 25 + (pqOf w).word = w := by
  have h0 : w / 2 ^ 25 % 128 = bits w 31 25 := rfl
  have top := bits_split w 31 25 (by decide)
  rw [Nat.mod_eq_of_lt hw] at top
  have := bits_split w 24 23 (by decide)
  have := bits_split w 22 17 (by decide)
  have := bits_split w 16 14 (by decide)
  have := bits_split w 13 0 (by decide)
  simp only [pqOf, PQFmt.word, h0]
  norm_num [Nat.mod_one] at *
  linarith

theorem strokeOf_word (o : StrokeFmt) (h : o.ranged = true) (op : Nat) : strokeOf (op * 2 ^ 25 + o.word) = o := by
  obtain ⟨tok, arr, x, q, f, p, h⟩ := o
  simp only [StrokeFmt.ranged, Bool.and_eq_true, decide_eq_true_eq] at h
  simp only [strokeOf, StrokeFmt.word, bits, StrokeFmt.mk.injEq]
  refine ⟨?_, ?_, ?_, ?_, ?_, ?_, ?_⟩ <;> omega

theorem StrokeFmt.word_lt (o : StrokeFmt) (h : o.ranged = true) : o.word < 2 ^ 25 := by
  obtain ⟨tok, arr, x, q, f, p, h⟩ := o
  simp only [StrokeFmt.ranged, Bool.and_eq_true, decide_eq_true_eq] at h
  simp only [StrokeFmt.word]
  omega

theorem word_strokeOf (w : Nat) (hw : w < 2 ^ 32) : w / 2 ^ 25 % 128 * 2 ^ 25 + (strokeOf w).word = w := by
  have h0 : w / 2 ^ 25 % 128 = bits w 31 25 := rfl
  have top := bits_split w 31 25 (by decide)
  rw [Nat.mod_eq_of_lt hw] at top
  have := bits_split w 24 21 (by decide)
  have := bits_split w 20 20 (by decide)
  have := bits_split w 19 17 (by decide)
  have := bits_split w 16 11 (by decide)
  have := bits_split w 10 7 (by decide)
  have := bits_split w 6 4 (by decide)
  have := bits_split w 3 0 (by decide)
  simp only [strokeOf, StrokeFmt.word, h0]
  norm_num [Nat.mod_one] at *
  linarith

theorem lwOf_word (o : LWFmt) (h : o.ranged = true) (op : Nat) : lwOf (op * 2 ^ 25 + o.word) = o := by
  obtain ⟨tok, s, q, d, b⟩ := o
  simp only [LWFmt.ranged, Bool.and_eq_true, decide_eq_true_eq] at h
  simp only [lwOf, LWFmt.word, bits, LWFmt.mk.injEq]
  refine ⟨?_, ?_, ?_, ?_, ?_⟩ <;> omega

theorem LWFmt.word_lt (o : LWFmt) (h : o.ranged = true) : o.word < 2 ^ 25 := by
  obtain ⟨tok, s, q, d, b⟩ := o
  simp only [LWFmt.ranged, Bool.and_eq_true, decide_eq_true_eq] at h
  simp only [LWFmt.word]
  omega

theorem word_lwOf (w : Nat) (hw : w < 2 ^ 32) : w / 2 ^ 25 % 128 * 2 ^ 25 + (lwOf w).word = w := by
  have h0 : w / 2 ^ 25 % 128 = bits w 31 25 := rfl
  have top := bits_split w 31 25 (by decide)
  rw [Nat.mod_eq_of_lt hw] at top
  have := bits_split w 24 21 (by decide)
  have := bits_split w 20 16 (by decide)
  have := bits_split w 15 10 (by decide)
  have := bits_split w 9 6 (by decide)
  have := bits_split w 5 0 (by decide)
  simp only [lwOf, LWFmt.word, h0]
  norm_num [Nat.mod_one] at *
  linarith

theorem laneOf_word (o : LaneFmt) (h : o.ranged = true) (op : Nat) : laneOf (op * 2 ^ 25 + o.word) = o := by
  obtain ⟨a, b, d, ver, fn, rsv, ta, tb⟩ := o
  simp only [LaneFmt.ranged, Bool.and_eq_true, decide_eq_true_eq] at h
  simp only [laneOf, LaneFmt.word, bits, LaneFmt.mk.injEq]
  refine ⟨?_, ?_, ?_, ?_, ?_, ?_, ?_, ?_⟩ <;> omega

theorem LaneFmt.word_lt (o : LaneFmt) (h : o.ranged = true) : o.word < 2 ^ 25 := by
  obtain ⟨a, b, d, ver, fn, rsv, ta, tb⟩ := o
  simp only [LaneFmt.ranged, Bool.and_eq_true, decide_eq_true_eq] at h
  simp only [LaneFmt.word]
  omega

theorem word_laneOf (w : Nat) (hw : w < 2 ^ 32) : w / 2 ^ 25 % 128 * 2 ^ 25 + (laneOf w).word = w := by
  have h0 : w / 2 ^ 25 % 128 = bits w 31 25 := rfl
  have top := bits_split w 31 25 (by decide)
  rw [Nat.mod_eq_of_lt hw] at top
  have := bits_split w 24 20 (by decide)
  have := bits_split w 19 15 (by decide)
  have := bits_split w 14 10 (by decide)
  have := bits_split w 9 7 (by decide)
  have := bits_split w 6 3 (by decide)
  have := bits_split w 2 2 (by decide)
  have := bits_split w 1 1 (by decide)
  have := bits_split w 0 0 (by decide)
  simp only [laneOf, LaneFmt.word, h0]
  norm_num [Nat.mod_one] at *
  linarith

theorem uOf_word (o : UFmt) (h : o.ranged = true) (op : Nat) : uOf (op * 2 ^ 25 + o.word) = o := by
  obtain ⟨d, hw, rsv, imm⟩ := o
  simp only [UFmt.ranged, Bool.and_eq_true, decide_eq_true_eq] at h
  simp only [uOf, UFmt.word, bits, UFmt.mk.injEq]
  omega

theorem uOf_wordK (o : UFmt) (h : o.ranged = true) (op : Nat) : uOf (op * 2 ^ 25 + (2 ^ 17 + o.word)) = o := by
  obtain ⟨d, hw, rsv, imm⟩ := o
  simp only [UFmt.ranged, Bool.and_eq_true, decide_eq_true_eq] at h
  simp only [uOf, UFmt.word, bits, UFmt.mk.injEq]
  omega

theorem UFmt.word_lt (o : UFmt) (h : o.ranged = true) : 2 ^ 17 + o.word < 2 ^ 25 := by
  obtain ⟨d, hw, rsv, imm⟩ := o
  simp only [UFmt.ranged, Bool.and_eq_true, decide_eq_true_eq] at h
  simp only [UFmt.word]
  omega

theorem UFmt.bit_clear (o : UFmt) (h : o.ranged = true) (hr : o.rsv = 0) (op : Nat) :
    bit (op * 2 ^ 25 + o.word) 17 = false := by
  obtain ⟨d, hw, rsv, imm⟩ := o
  simp only [UFmt.ranged, Bool.and_eq_true, decide_eq_true_eq] at h
  simp only [bit, UFmt.word, beq_eq_false_iff_ne]
  simp only at hr
  omega

theorem UFmt.bit_set (o : UFmt) (h : o.ranged = true) (hr : o.rsv = 0) (op : Nat) :
    bit (op * 2 ^ 25 + (2 ^ 17 + o.word)) 17 = true := by
  obtain ⟨d, hw, rsv, imm⟩ := o
  simp only [UFmt.ranged, Bool.and_eq_true, decide_eq_true_eq] at h
  simp only [bit, UFmt.word, beq_iff_eq]
  simp only at hr
  omega

theorem word_uOf (w : Nat) (hw : w < 2 ^ 32) :
    w / 2 ^ 25 % 128 * 2 ^ 25 + ((if bit w 17 then 2 ^ 17 else 0) + (uOf w).word) = w := by
  by_cases h : bit w 17 = true <;> simp only [h, if_true, if_false, Bool.false_eq_true] <;>
    simp only [bit, beq_iff_eq] at h <;> simp only [uOf, UFmt.word, bits] <;> omega

/-- The fields of a V instruction's two words are in range. -/
def VFmt.fits (o : VFmt) : Prop :=
  o.tok < 16 ∧ o.d < 2048 ∧ o.mg < 8 ∧ o.rm < 8 ∧ o.fmt < 16 ∧ o.a < 2048 ∧ o.b < 2048 ∧ o.c < 1024

theorem VClass.ok_lt {k : VClass} {x : Nat} (h : k.ok x = true) : x < 2048 := by
  cases k <;> simp only [VClass.ok, Bool.and_eq_true, beq_iff_eq, decide_eq_true_eq] at h <;> omega

theorem VFmt.fits_of {o : VFmt} {cd ca cb : VClass} {l : Option Nat} (h : o.ranged = true)
    (hc : o.classes cd ca cb l = true) : o.fits := by
  simp only [VFmt.ranged, VFmt.classes, Bool.and_eq_true, decide_eq_true_eq] at h hc
  exact ⟨by omega, VClass.ok_lt hc.1.1.1, by omega, by omega, by omega, VClass.ok_lt hc.1.1.2, VClass.ok_lt hc.1.2, by omega⟩

theorem vOf_words (o : VFmt) (h : o.fits) (op : Nat) : vOf (op * 2 ^ 25 + o.word0) o.word1 = o := by
  obtain ⟨tok, d, mg, rm, fmt, a, b, c⟩ := o
  simp only [VFmt.fits] at h
  simp only [vOf, VFmt.word0, VFmt.word1, bits, VFmt.mk.injEq]
  refine ⟨?_, ?_, ?_, ?_, ?_, ?_, ?_, ?_⟩ <;> omega

theorem VFmt.word0_lt (o : VFmt) (h : o.fits) : o.word0 < 2 ^ 25 := by
  obtain ⟨tok, d, mg, rm, fmt, a, b, c⟩ := o
  simp only [VFmt.fits] at h
  simp only [VFmt.word0]
  omega

theorem VFmt.word1_lt (o : VFmt) (h : o.fits) : o.word1 < 2 ^ 32 := by
  obtain ⟨tok, d, mg, rm, fmt, a, b, c⟩ := o
  simp only [VFmt.fits] at h
  simp only [VFmt.word1]
  omega

theorem words_vOf (w w1 : Nat) (hw : w < 2 ^ 32) (h1 : w1 < 2 ^ 32) :
    w / 2 ^ 25 % 128 * 2 ^ 25 + (vOf w w1).word0 = w ∧ (vOf w w1).word1 = w1 := by
  simp only [vOf, VFmt.word0, VFmt.word1, bits]
  omega

theorem head_op {op body : Nat} (hop : op < 128) (hb : body < 2 ^ 25) : (op * 2 ^ 25 + body) / 2 ^ 25 % 128 = op := by
  omega

theorem head_lt {op body : Nat} (hop : op < 128) (hb : body < 2 ^ 25) : op * 2 ^ 25 + body < 2 ^ 32 := by
  omega

/-- A lane whose row is well-formed decodes to it. -/
theorem decodeLane_of {st : Stream} {w w1 : Nat} {i : Instr} (h : rawOf st w w1 = some i) (hw : i.wf = true) :
    decodeLane st w w1 = .ok i := by
  simp only [decodeLane, h, hw, if_true]

/-- A lane decodes only to the row its opcode names, and only where that row is well-formed. -/
theorem raw_of_decodeLane {st : Stream} {w w1 : Nat} {i : Instr} (h : decodeLane st w w1 = .ok i) :
    rawOf st w w1 = some i ∧ i.wf = true := by
  unfold decodeLane at h
  split at h
  · next j hj =>
    split at h
    · next hw => cases h; exact ⟨hj, hw⟩
    · cases h
  · cases h

end Sys2Proof
end

