-- ==== Sys2Proof/Laws/Memory.lean ====
section
/-! SUPPORT. Laws of memory: every operation on it keeps its canonical form, and that of the writes still private. -/

namespace Sys2Proof.Machine

/-! ### Cells -/

theorem above_cells (pa k n : Nat) (bs : List Byte) (h : k < pa + n) :
    Tbl.above k ((bs.zipIdx n).map fun (b, i) => (pa + i, b)) = true := by
  induction bs generalizing n with
  | nil => rfl
  | cons b t ih =>
    simp only [List.zipIdx_cons, List.map_cons, Tbl.above, Bool.and_eq_true, decide_eq_true_eq]
    exact ⟨h, ih (n + 1) (by omega)⟩

theorem sorted_cells (pa n : Nat) (bs : List Byte) : Tbl.sorted ((bs.zipIdx n).map fun (b, i) => (pa + i, b)) = true := by
  induction bs generalizing n with
  | nil => rfl
  | cons b t ih =>
    simp only [List.zipIdx_cons, List.map_cons, Tbl.sorted, Bool.and_eq_true]
    exact ⟨above_cells pa (pa + n) (n + 1) t (by omega), ih (n + 1)⟩

theorem sorted_cellsAt (pa : Nat) (bs : List Byte) : Tbl.sorted (cellsAt pa bs) = true := sorted_cells pa 0 bs

theorem sorted_insertAll {t : Tbl Byte} (h : t.sorted = true) (u : Tbl Byte) : (insertAll t u).sorted = true := by
  induction u generalizing t with
  | nil => exact h
  | cons e r ih => exact ih (Tbl.sorted_insert h _ _)

theorem sorted_foldl {α : Type} (f : Tbl Byte → α → Tbl Byte) (hf : ∀ t a, t.sorted = true → (f t a).sorted = true) (l : List α)
    {t : Tbl Byte} (h : t.sorted = true) : (l.foldl f t).sorted = true := by
  induction l generalizing t with
  | nil => exact h
  | cons a l ih => exact ih (hf t a h)

theorem sorted_tileCells (s : State) (a : Agent) (d : Desc) (c pas : List Nat) (body : List Byte) :
    Tbl.sorted (tileCells s a d c pas body) = true := by
  unfold tileCells
  refine sorted_foldl _ (fun t e h => ?_) _ rfl
  dsimp only
  repeat' split
  all_goals first | exact h | exact Tbl.sorted_insert h _ _

/-! ### Memory -/

/-- Memory is in canonical form, and so are the writes that agents have not released. -/
def Held (s : State) : Prop := s.mem.wf = true ∧ ∀ e ∈ s.views, ∀ w ∈ e.2.pend, Tbl.sorted w.cells = true

theorem reset_held : Held State.reset := ⟨by decide, by simp [State.reset]⟩

theorem Memory.wf_iff (m : Memory) :
    m.wf = true ↔ Tbl.wf (0 : Byte) m.cells = true ∧ ∀ w ∈ m.log, Tbl.sorted w.cells = true := by
  simp [Memory.wf, Bool.and_eq_true, List.all_eq_true]

theorem Memory.wf_poke {m : Memory} (h : m.wf = true) (a : Nat) (b : Byte) : (m.poke a b).wf = true := by
  rw [Memory.wf_iff] at *
  exact ⟨Tbl.wf_put h.1 a b, h.2⟩

theorem Memory.wf_pokes {m : Memory} (h : m.wf = true) (a : Nat) (bs : List Byte) : (m.pokes a bs).wf = true := by
  induction bs generalizing m a with
  | nil => exact h
  | cons b t ih => exact ih (Memory.wf_poke h a b) (a + 1)

/-- Operations that change neither the initial contents nor the order keep the form. -/
theorem Memory.wf_congr {m n : Memory} (h : m.wf = true) (hc : n.cells = m.cells) (hl : n.log = m.log) : n.wf = true := by
  unfold Memory.wf at *; rw [hc, hl]; exact h

@[simp] theorem clearPoison_cells (m : Memory) (pa n : Nat) : (clearPoison m pa n).cells = m.cells := by
  unfold clearPoison; split <;> rfl
@[simp] theorem clearPoison_log (m : Memory) (pa n : Nat) : (clearPoison m pa n).log = m.log := by
  unfold clearPoison; split <;> rfl
@[simp] theorem clearSectors_cells (m : Memory) (t : Tbl Byte) : (clearSectors m t).cells = m.cells := by
  unfold clearSectors; split <;> rfl
@[simp] theorem clearSectors_log (m : Memory) (t : Tbl Byte) : (clearSectors m t).log = m.log := by
  unfold clearSectors; split <;> rfl

@[simp] theorem addPub_cells (ids : List Nat) (p : Pub) (w : Write) : (addPub ids p w).cells = w.cells := by
  unfold addPub; split <;> rfl

/-! ### Views -/

theorem mem_lookupView {l : List (Agent × View)} {a : Agent} {w : Write} (h : w ∈ (State.lookupView l a).pend) :
    ∃ e ∈ l, w ∈ e.2.pend := by
  induction l with
  | nil => simp [State.lookupView] at h
  | cons e t ih =>
    unfold State.lookupView at h
    split at h
    · exact ⟨e, by simp, h⟩
    · obtain ⟨x, hx, hw⟩ := ih h
      exact ⟨x, by simp [hx], hw⟩

theorem mem_replaceView {l : List (Agent × View)} {a : Agent} {v : View} {e : Agent × View}
    (h : e ∈ State.replaceView l a v) : e ∈ l ∨ e = (a, v) := by
  induction l with
  | nil => simpa [State.replaceView] using h
  | cons x t ih =>
    unfold State.replaceView at h
    split at h
    · rcases List.mem_cons.1 h with h | h
      · exact .inr h
      · exact .inl (by simp [h])
    · rcases List.mem_cons.1 h with h | h
      · exact .inl (by simp [h])
      · rcases ih h with h | h
        · exact .inl (by simp [h])
        · exact .inr h

theorem Held.pend {s : State} (h : Held s) (a : Agent) : ∀ w ∈ (s.view a).pend, Tbl.sorted w.cells = true := fun w hw =>
  let ⟨e, he, hw⟩ := mem_lookupView hw
  h.2 e he w hw

/-- Changing an agent's view and memory's poison keeps the form where the view's private writes have it. -/
theorem Held.setView {s : State} (h : Held s) (a : Agent) (v : View) (hv : ∀ w ∈ v.pend, Tbl.sorted w.cells = true) :
    Held (s.setView a v) :=
  ⟨h.1, fun e he => (mem_replaceView he).elim (h.2 e) fun x => x ▸ hv⟩

theorem Held.of_eq {s t : State} (h : Held s) (hc : t.mem.cells = s.mem.cells) (hl : t.mem.log = s.mem.log)
    (hv : t.views = s.views) : Held t :=
  ⟨Memory.wf_congr h.1 hc hl, hv ▸ h.2⟩

theorem held_writeLine {s : State} (h : Held s) (a : Agent) (pa : Nat) (bs : List Byte) : Held (writeLine s a pa bs) := by
  refine Held.of_eq (s := s.setView a { s.view a with
    pend := (s.view a).pend ++ [{ id := s.nextId, agent := a, cells := cellsAt pa bs, pubs := [] }]
    fresh := insertAll (s.view a).fresh (cellsAt pa bs) }) (h.setView a _ ?_) ?_ ?_ rfl
  · intro w hw
    rcases List.mem_append.1 hw with hw | hw
    · exact h.pend a w hw
    · rw [List.mem_singleton.1 hw]; exact sorted_cellsAt pa bs
  · exact clearPoison_cells ..
  · exact clearPoison_log ..

theorem held_writeCells {s s' : State} {a : Agent} {cells : Tbl Byte} (h : Held s) (hc : cells.sorted = true)
    (hs : writeCells a cells s = .ok () s') : Held s' := by
  cases hs
  refine Held.of_eq (s := s.setView a { s.view a with
    pend := (s.view a).pend ++ [{ id := s.nextId, agent := a, cells := cells, pubs := [] }]
    fresh := insertAll (s.view a).fresh cells }) (h.setView a _ ?_) ?_ ?_ rfl
  · intro w hw
    rcases List.mem_append.1 hw with hw | hw
    · exact h.pend a w hw
    · rw [List.mem_singleton.1 hw]; exact hc
  · exact clearSectors_cells ..
  · exact clearSectors_log ..

theorem held_writePhys {s s' : State} {a : Agent} {pa : Nat} {bs : List Byte} (h : Held s)
    (hs : writePhys a pa bs s = .ok () s') : Held s' := by
  cases hs
  generalize splitLines _ pa bs = l
  induction l generalizing s with
  | nil => exact h
  | cons e t ih => exact ih (held_writeLine h a e.1 e.2)

theorem clear_parts (parts : List (Nat × List Byte)) (m : Memory) :
    (parts.foldl (fun m e => clearPoison m e.1 e.2.length) m).cells = m.cells ∧
    (parts.foldl (fun m e => clearPoison m e.1 e.2.length) m).log = m.log := by
  induction parts generalizing m with
  | nil => exact ⟨rfl, rfl⟩
  | cons e t ih => simpa using ih (clearPoison m e.1 e.2.length)

theorem held_writeUnit {s s' : State} {a : Agent} {parts : List (Nat × List Byte)} (h : Held s)
    (hs : writeUnit a parts s = .ok () s') : Held s' := by
  cases hs
  refine Held.of_eq (s := s.setView a { s.view a with
    pend := (s.view a).pend ++ [{ id := s.nextId, agent := a, cells := parts.foldl (fun t e => insertAll t (cellsAt e.1 e.2)) [], pubs := [] }]
    fresh := insertAll (s.view a).fresh (parts.foldl (fun t e => insertAll t (cellsAt e.1 e.2)) []) }) (h.setView a _ ?_)
    (clear_parts parts s.mem).1 (clear_parts parts s.mem).2 rfl
  intro w hw
  rcases List.mem_append.1 hw with hw | hw
  · exact h.pend a w hw
  · rw [List.mem_singleton.1 hw]
    exact sorted_foldl _ (fun t e ht => sorted_insertAll ht _) _ rfl

/-- Writes put at the end of the coherence order. -/
theorem Memory.wf_append {m n : Memory} (h : m.wf = true) {l : List Write} (hl : ∀ w ∈ l, Tbl.sorted w.cells = true)
    (hc : n.cells = m.cells) (hn : n.log = m.log ++ l) : n.wf = true := by
  rw [Memory.wf_iff] at *
  rw [hc, hn]
  exact ⟨h.1, fun w hw => (List.mem_append.1 hw).elim (h.2 w) (hl w)⟩

theorem held_writePort {s s' : State} {a : Agent} {pa : Nat} {bs : List Byte} (h : Held s)
    (hs : writePort a pa bs s = .ok () s') : Held s' := by
  cases hs
  have hv := h.setView a { s.view a with
    made := (s.view a).made ++ [s.nextId], fresh := insertAll (s.view a).fresh (cellsAt pa bs) } fun w hw => h.pend a w hw
  refine ⟨Memory.wf_append h.1 (l := [_]) ?_ (clearPoison_cells ..) rfl, hv.2⟩
  intro w hw; rw [List.mem_singleton.1 hw]; exact sorted_cellsAt pa bs

theorem held_hubWrite {s s' : State} {pa scope : Nat} {bs : List Byte} (h : Held s)
    (hs : hubWrite pa bs scope s = .ok () s') : Held s' := by
  cases hs
  generalize splitLines _ pa bs = l
  induction l generalizing s with
  | nil => exact h
  | cons e t ih =>
    refine ih ⟨Memory.wf_append h.1 (l := [_]) ?_ (clearPoison_cells ..) rfl, h.2⟩
    intro w hw; rw [List.mem_singleton.1 hw]; exact sorted_cellsAt ..

theorem held_publishAs {s : State} (h : Held s) (a b : Agent) (scope : Nat) (ids : List Nat) :
    Held (publishAs s a b scope ids) := by
  have hb : ∀ w ∈ (if b = a then [] else (s.view b).pend.filter fun w => !(s.view a).pend.any (·.id == w.id)),
      Tbl.sorted w.cells = true := fun w hw => by
    split at hw
    · cases hw
    · exact h.pend b w (List.mem_of_mem_filter hw)
  unfold publishAs
  dsimp only
  generalize hl : List.map (addPub ids (pubBy s a scope)) _ = log
  have hs : ∀ w ∈ log, Tbl.sorted w.cells = true := fun w hw => by
    rw [← hl] at hw
    obtain ⟨x, hx, rfl⟩ := List.mem_map.1 hw
    rw [addPub_cells]
    rcases List.mem_append.1 hx with hx | hx
    · exact ((Memory.wf_iff _).1 h.1).2 x hx
    · exact (List.mem_append.1 (List.mem_of_mem_filter hx)).elim (h.pend a x) (hb x)
  have h1 : ∀ v : View, (∀ w ∈ v.pend, Tbl.sorted w.cells = true) →
      Held { s.setView a v with mem := { s.mem with log := log } } := fun v hv =>
    ⟨(Memory.wf_iff _).2 ⟨((Memory.wf_iff _).1 h.1).1, hs⟩, (h.setView a v hv).2⟩
  split
  · exact h1 _ fun w hw => h.pend a w (List.mem_of_mem_filter hw)
  · refine Held.setView (h1 _ fun w hw => h.pend a w (List.mem_of_mem_filter hw)) b _ fun w hw => ?_
    exact (h1 _ fun w hw => h.pend a w (List.mem_of_mem_filter hw)).pend b w (List.mem_of_mem_filter hw)

theorem held_publishIds {s : State} (h : Held s) (a : Agent) (scope : Nat) (ids : List Nat) : Held (publishIds s a scope ids) :=
  held_publishAs h a a scope ids

theorem held_publishFrom {s : State} (h : Held s) (scope cl : Nat) (ids : List Nat) : Held (publishFrom scope cl ids s) := by
  refine ⟨(Memory.wf_iff _).2 ⟨((Memory.wf_iff _).1 h.1).1, fun w hw => ?_⟩, h.2⟩
  obtain ⟨x, hx, rfl⟩ := List.mem_map.1 hw
  rw [addPub_cells]
  exact ((Memory.wf_iff _).1 h.1).2 x hx

theorem held_releaseNames {s : State} (h : Held s) (a : Agent) (scope : Nat) (ids : List Nat) :
    Held (releaseNames s a scope ids) := by
  unfold releaseNames
  split
  · dsimp only
    split
    · exact Held.of_eq (held_publishIds h a 4 ids) rfl rfl rfl
    · exact held_publishIds h a 4 ids
  · exact held_publishIds h a scope ids

theorem held_release {s : State} (h : Held s) (a : Agent) (scope : Nat) : Held (release s a scope) := held_releaseNames h a scope _

theorem held_gainIds {s : State} (h : Held s) (a : Agent) (ids : List Nat) : Held (gainIds s a ids) :=
  h.setView a _ fun w hw => h.pend a w hw

theorem held_acquire {s : State} (h : Held s) (a : Agent) (scope : Nat) : Held (acquire s a scope) := held_gainIds h a _

theorem held_upsetSector {s : State} (h : Held s) (sector : Nat) (found : Upset) : Held (upsetSector sector found s) := by
  unfold upsetSector; split
  · exact h
  · exact h.of_eq rfl rfl rfl

theorem held_resetReleased {s : State} (h : Held s) (n : Nat) : Held (resetReleased n s) :=
  ⟨h.1, fun e he => by simp [resetReleased, State.reset] at he⟩

theorem held_zeroMemory {s : State} (h : Held s) : Held (zeroMemory s) := by
  refine ⟨(Memory.wf_iff _).2 ⟨Tbl.wf_filter ((Memory.wf_iff _).1 h.1).1 _, fun w hw => ?_⟩, h.2⟩
  obtain ⟨x, hx, rfl⟩ := List.mem_map.1 (List.mem_of_mem_filter hw)
  exact Tbl.sorted_filter (((Memory.wf_iff _).1 h.1).2 x hx) _

theorem held_withFetchWord {s : State} (h : Held s) (nbits w : Nat) : Held (s.withFetchWord nbits w) :=
  ⟨Memory.wf_pokes (Memory.wf_pokes h.1 _ _) _ _, h.2⟩

/-! ### What a meaning keeps -/

/-- A meaning keeps a property of the state, whether it answers or stops. -/
def Stays {α : Type} (P : State → Prop) (m : M α) : Prop :=
  ∀ s, P s → match m s with
    | .ok _ s' => P s'
    | .error _ s' => P s'

section
variable {α β : Type} {P : State → Prop}

theorem Stays.pure (a : α) : Stays P (pure a : M α) := fun _ h => h
theorem Stays.get : Stays P (get : M State) := fun _ h => h
theorem Stays.throw (e : Stop) : Stays P (throw e : M α) := fun _ h => h
theorem Stays.upd {f : State → State} (hf : ∀ s, P s → P (f s)) : Stays P (upd f) := fun s h => hf s h

theorem Stays.bind {m : M α} {f : α → M β} (hm : Stays P m) (hf : ∀ a, Stays P (f a)) : Stays P (m >>= f) := fun s h => by
  have h1 := hm s h
  rw [m_bind]
  cases hs : m s with
  | ok a s' => rw [hs] at h1; exact hf a s' h1
  | error e s' => rw [hs] at h1; exact h1

theorem Stays.ok {m : M α} (hm : Stays P m) {s s' : State} {a : α} (h : P s) (hs : m s = .ok a s') : P s' := by
  have := hm s h; rw [hs] at this; exact this

theorem Stays.runM {m : M Unit} (hm : Stays P m) {s : State} (h : P s) : P (runM m s) := by
  have h1 := hm s h
  unfold Machine.runM
  cases hs : m s with
  | ok a s' => rw [hs] at h1; exact h1
  | error e s' => exact h

theorem stays_pick (hd : ∀ s n, P s → P { s with draws := n }) (lo hi : Nat) : Stays P (pick lo hi) := fun s h => by
  by_cases hh : hi ≤ lo
  · rw [show pick lo hi s = .ok lo s by simp [pick, hh]]; exact h
  · rw [show pick lo hi s = .ok (lo + Config.freeNat s.draws % (hi - lo + 1)) { s with draws := s.draws + 1 } by simp [pick, hh]]
    exact hd s _ h

end

/-! ### Reads -/

theorem stays_memoryUnit (mem : Option Nat) : Stays Held (memoryUnit mem) := by
  have hd : ∀ (s : State) (n : Nat), Held s → Held { s with draws := n } := fun _ _ h => h.of_eq rfl rfl rfl
  unfold memoryUnit
  repeat' first
    | with_reducible exact Stays.pure _ | with_reducible exact Stays.get | exact stays_pick hd _ _
    | (refine Stays.bind ?_ fun _ => ?_) | split | (dsimp only)

theorem stays_countSector (cls sec : Nat) : Stays Held (countSector cls sec) :=
  (stays_memoryUnit _).bind fun _ => Stays.upd fun _ h => Held.of_eq h rfl rfl rfl

theorem stays_checkSector (k : Nat) : Stays Held (checkSector k) := by
  unfold checkSector
  repeat' first
    | exact Stays.pure _ | exact Stays.get | exact stays_countSector _ _
    | exact Stays.upd fun _ h => Held.of_eq h rfl rfl rfl
    | (refine Stays.bind ?_ fun _ => ?_) | split

theorem stays_checkSectors (l : List Nat) : Stays Held (checkSectors l) := by
  induction l with
  | nil => exact Stays.pure _
  | cons k t ih => exact (stays_checkSector k).bind fun _ => ih.bind fun _ => Stays.pure _

theorem stays_checkCounted (l : List Nat) : Stays Held (checkCounted l) := by
  induction l with
  | nil => exact Stays.pure _
  | cons k t ih =>
    unfold checkCounted
    refine (stays_checkSector k).bind fun a => ?_
    split
    · exact (stays_countSector 3 k).bind fun _ => ih.bind fun _ => Stays.pure _
    · exact (Stays.pure _).bind fun _ => ih.bind fun _ => Stays.pure _

theorem stays_choosePrefix (v : View) (dec : Write → Option Bool) (vis : List Write) : Stays Held (choosePrefix v dec vis) :=
  (stays_pick (fun _ _ h => h.of_eq rfl rfl rfl) _ _).bind fun _ => Stays.pure _

theorem stays_chooseSnap (a : Agent) (line : Nat) : Stays Held (chooseSnap a line) := by
  unfold chooseSnap
  refine Stays.get.bind fun s => ?_
  split
  · exact Stays.pure _
  · refine (stays_choosePrefix _ _ _).bind fun _ => Stays.upd fun s h => ?_
    exact h.setView a _ fun w hw => h.pend a w hw

theorem stays_chooseSnaps (a : Agent) (l : List Nat) : Stays Held (chooseSnaps a l) := by
  induction l with
  | nil => exact Stays.pure _
  | cons k t ih => exact (stays_chooseSnap a k).bind fun _ => ih

theorem stays_readPhys (a : Agent) (pa n : Nat) : Stays Held (readPhys a pa n) := by
  unfold readPhys
  refine (stays_checkSectors _).bind fun ok => ?_
  split
  · exact Stays.pure _
  · exact (stays_chooseSnaps a _).bind fun _ => Stays.get.bind fun _ => Stays.pure _

theorem stays_readPort (pa n : Nat) : Stays Held (readPort pa n) := by
  unfold readPort
  refine (stays_checkSectors _).bind fun ok => ?_
  split
  · exact Stays.pure _
  · exact Stays.get.bind fun _ => Stays.pure _

theorem stays_readPublished (pa n : Nat) : Stays Held (readPublished pa n) := by
  unfold readPublished
  refine (stays_checkCounted _).bind fun ok => ?_
  split
  · exact Stays.pure _
  · exact Stays.get.bind fun _ => Stays.pure _

end Sys2Proof.Machine
end

