-- ==== Sys2Proof/Laws/PerInstr.lean ====
section
/-! SUPPORT. The round trip of every row of the opcode table (R165-R182), one lemma for each constructor. -/

namespace Sys2Proof

theorem and_l {a b : Bool} (h : (a && b) = true) : a = true := by
  cases a
  · cases h
  · rfl

theorem and_r {a b : Bool} (h : (a && b) = true) : b = true := by
  cases a
  · cases h
  · exact h

namespace Laws.Encoding

/-- The words of a well-formed instruction are 32-bit words, and decode to it in each stream it is a lane of. -/
def Statement (i : Instr) : Prop :=
  i.wf = true → ∀ ws, encode i = some ws →
    (∀ w ∈ ws, w < 2 ^ 32) ∧ ∀ st ∈ i.streams, decodeLane st (ws.getD 0 0) (ws.getD 1 0) = .ok i

theorem event {i : Instr} (h : encode i = none) : Statement i := fun _ ws hw => by rw [h] at hw; cases hw

/-- One word: its row in every stream it belongs to. -/
theorem one {i : Instr} {op body : Nat} (hop : op < 128) (he : encode i = some [op * 2 ^ 25 + body])
    (hb : i.wf = true → body < 2 ^ 25)
    (hs : i.wf = true → (op * 2 ^ 25 + body) / 2 ^ 25 % 128 = op →
      ∀ st ∈ i.streams, rawOf st (op * 2 ^ 25 + body) 0 = some i) :
    Statement i := by
  intro hw ws hws
  rw [he] at hws
  cases hws
  have hh := head_op hop (hb hw)
  refine ⟨?_, fun st hst => decodeLane_of (hs hw hh st hst) hw⟩
  intro w hm
  rw [List.mem_singleton] at hm
  subst hm
  exact head_lt hop (hb hw)

/-- Two words of V. -/
theorem two {i : Instr} {op : Nat} {o : VFmt} (hop : op < 128) (he : encode i = some [op * 2 ^ 25 + o.word0, o.word1])
    (hf : i.wf = true → o.fits) (hst : i.streams = [.v])
    (hs : ∀ w w1, vOf w w1 = o → vectorOp op w w1 = some i) :
    Statement i := by
  intro hw ws hws
  rw [he] at hws
  cases hws
  have h0 := VFmt.word0_lt o (hf hw)
  have hh := head_op hop h0
  refine ⟨?_, ?_⟩
  · intro w hm
    simp only [List.mem_cons, List.not_mem_nil, or_false] at hm
    rcases hm with rfl | rfl
    · exact head_lt hop h0
    · exact VFmt.word1_lt o (hf hw)
  · intro st hm
    rw [hst, List.mem_singleton] at hm
    subst hm
    refine decodeLane_of (show vectorOf _ _ = _ from ?_) hw
    unfold vectorOf
    simp only [List.getD_cons_zero, List.getD_cons_succ]
    rw [hh]
    exact hs _ _ (vOf_words o (hf hw) op)

theorem raw_both {w op : Nat} {i : Instr} (hh : w / 2 ^ 25 % 128 = op) (h : scalarOp op w = some i)
    (hs : i.sOnly = false) (ha : i.aOnly = false) : ∀ st ∈ [Stream.a, Stream.s], rawOf st w 0 = some i := by
  intro st hm
  simp only [List.mem_cons, List.not_mem_nil, or_false] at hm
  subst hh
  rcases hm with rfl | rfl
  · simp only [rawOf, scalarOf, h, Option.filter_some, hs, Bool.not_false, if_true]
  · simp only [rawOf, scalarOf, h, Option.filter_some, ha, Bool.not_false, if_true]

theorem raw_a {w op : Nat} {i : Instr} (hh : w / 2 ^ 25 % 128 = op) (h : scalarOp op w = some i)
    (hs : i.sOnly = false) : ∀ st ∈ [Stream.a], rawOf st w 0 = some i := by
  intro st hm
  rw [List.mem_singleton] at hm
  subst hm hh
  simp only [rawOf, scalarOf, h, Option.filter_some, hs, Bool.not_false, if_true]

theorem raw_s {w op : Nat} {i : Instr} (hh : w / 2 ^ 25 % 128 = op) (h : scalarOp op w = some i)
    (ha : i.aOnly = false) : ∀ st ∈ [Stream.s], rawOf st w 0 = some i := by
  intro st hm
  rw [List.mem_singleton] at hm
  subst hm hh
  simp only [rawOf, scalarOf, h, Option.filter_some, ha, Bool.not_false, if_true]

theorem raw_m {w op : Nat} {i : Instr} (hh : w / 2 ^ 25 % 128 = op) (h : strokeInstrOp op w = some i) :
    ∀ st ∈ [Stream.m], rawOf st w 0 = some i := by
  intro st hm
  rw [List.mem_singleton] at hm
  subst hm hh
  exact h

theorem raw_lw {w op : Nat} {i : Instr} (hh : w / 2 ^ 25 % 128 = op) (h : lwInstrOp op w = some i)
    (hl : i.lOnly = false) : ∀ st ∈ [Stream.l, Stream.w], rawOf st w 0 = some i := by
  intro st hm
  simp only [List.mem_cons, List.not_mem_nil, or_false] at hm
  subst hh
  rcases hm with rfl | rfl
  · exact h
  · simp only [rawOf, lwInstrOf, h, Option.filter_some, hl, Bool.not_false, if_true]

theorem raw_l {w op : Nat} {i : Instr} (hh : w / 2 ^ 25 % 128 = op) (h : lwInstrOp op w = some i) :
    ∀ st ∈ [Stream.l], rawOf st w 0 = some i := by
  intro st hm
  rw [List.mem_singleton] at hm
  subst hm hh
  exact h

theorem raw_copy {w op : Nat} {i : Instr} (hh : w / 2 ^ 25 % 128 = op) (h : copyOp op w = some i) :
    ∀ st ∈ [Stream.copy], rawOf st w 0 = some i := by
  intro st hm
  rw [List.mem_singleton] at hm
  subst hm hh
  exact h

theorem raw_index {w op : Nat} {i : Instr} (hh : w / 2 ^ 25 % 128 = op) (h : indexOp op w = some i) :
    ∀ st ∈ [Stream.index], rawOf st w 0 = some i := by
  intro st hm
  rw [List.mem_singleton] at hm
  subst hm hh
  exact h

theorem add (o : RFmt) : Statement (.add o) :=
  one (op := 0x00) (by decide) rfl (fun h => RFmt.word_lt o (and_l h)) (fun h hh =>
    raw_both hh (congrArg (fun x => some (Instr.add x)) (rOf_word o (and_l h) 0x00)) rfl rfl)

theorem sub (o : RFmt) : Statement (.sub o) :=
  one (op := 0x01) (by decide) rfl (fun h => RFmt.word_lt o (and_l h)) (fun h hh =>
    raw_both hh (congrArg (fun x => some (Instr.sub x)) (rOf_word o (and_l h) 0x01)) rfl rfl)

theorem mul (o : RFmt) : Statement (.mul o) :=
  one (op := 0x02) (by decide) rfl (fun h => RFmt.word_lt o (and_l h)) (fun h hh =>
    raw_both hh (congrArg (fun x => some (Instr.mul x)) (rOf_word o (and_l h) 0x02)) rfl rfl)

theorem mulh (o : RFmt) : Statement (.mulh o) :=
  one (op := 0x03) (by decide) rfl (fun h => RFmt.word_lt o (and_l h)) (fun h hh =>
    raw_both hh (congrArg (fun x => some (Instr.mulh x)) (rOf_word o (and_l h) 0x03)) rfl rfl)

theorem mulhn (o : RFmt) : Statement (.mulhn o) :=
  one (op := 0x04) (by decide) rfl (fun h => RFmt.word_lt o (and_l h)) (fun h hh =>
    raw_both hh (congrArg (fun x => some (Instr.mulhn x)) (rOf_word o (and_l h) 0x04)) rfl rfl)

theorem div (o : RFmt) : Statement (.div o) :=
  one (op := 0x05) (by decide) rfl (fun h => RFmt.word_lt o (and_l h)) (fun h hh =>
    raw_both hh (congrArg (fun x => some (Instr.div x)) (rOf_word o (and_l h) 0x05)) rfl rfl)

theorem divn (o : RFmt) : Statement (.divn o) :=
  one (op := 0x06) (by decide) rfl (fun h => RFmt.word_lt o (and_l h)) (fun h hh =>
    raw_both hh (congrArg (fun x => some (Instr.divn x)) (rOf_word o (and_l h) 0x06)) rfl rfl)

theorem rem (o : RFmt) : Statement (.rem o) :=
  one (op := 0x07) (by decide) rfl (fun h => RFmt.word_lt o (and_l h)) (fun h hh =>
    raw_both hh (congrArg (fun x => some (Instr.rem x)) (rOf_word o (and_l h) 0x07)) rfl rfl)

theorem remn (o : RFmt) : Statement (.remn o) :=
  one (op := 0x08) (by decide) rfl (fun h => RFmt.word_lt o (and_l h)) (fun h hh =>
    raw_both hh (congrArg (fun x => some (Instr.remn x)) (rOf_word o (and_l h) 0x08)) rfl rfl)

theorem neg (o : RFmt) : Statement (.neg o) :=
  one (op := 0x09) (by decide) rfl (fun h => RFmt.word_lt o (and_l (and_l (and_l h)))) (fun h hh =>
    raw_both hh (congrArg (fun x => some (Instr.neg x)) (rOf_word o (and_l (and_l (and_l h))) 0x09)) rfl rfl)

theorem abs (o : RFmt) : Statement (.abs o) :=
  one (op := 0x0A) (by decide) rfl (fun h => RFmt.word_lt o (and_l (and_l (and_l h)))) (fun h hh =>
    raw_both hh (congrArg (fun x => some (Instr.abs x)) (rOf_word o (and_l (and_l (and_l h))) 0x0A)) rfl rfl)

theorem min (o : RFmt) : Statement (.min o) :=
  one (op := 0x0B) (by decide) rfl (fun h => RFmt.word_lt o (and_l h)) (fun h hh =>
    raw_both hh (congrArg (fun x => some (Instr.min x)) (rOf_word o (and_l h) 0x0B)) rfl rfl)

theorem max (o : RFmt) : Statement (.max o) :=
  one (op := 0x0C) (by decide) rfl (fun h => RFmt.word_lt o (and_l h)) (fun h hh =>
    raw_both hh (congrArg (fun x => some (Instr.max x)) (rOf_word o (and_l h) 0x0C)) rfl rfl)

theorem minn (o : RFmt) : Statement (.minn o) :=
  one (op := 0x0D) (by decide) rfl (fun h => RFmt.word_lt o (and_l h)) (fun h hh =>
    raw_both hh (congrArg (fun x => some (Instr.minn x)) (rOf_word o (and_l h) 0x0D)) rfl rfl)

theorem maxn (o : RFmt) : Statement (.maxn o) :=
  one (op := 0x0E) (by decide) rfl (fun h => RFmt.word_lt o (and_l h)) (fun h hh =>
    raw_both hh (congrArg (fun x => some (Instr.maxn x)) (rOf_word o (and_l h) 0x0E)) rfl rfl)

theorem and (o : RFmt) : Statement (.and o) :=
  one (op := 0x10) (by decide) rfl (fun h => RFmt.word_lt o (and_l h)) (fun h hh =>
    raw_both hh (congrArg (fun x => some (Instr.and x)) (rOf_word o (and_l h) 0x10)) rfl rfl)

theorem or (o : RFmt) : Statement (.or o) :=
  one (op := 0x11) (by decide) rfl (fun h => RFmt.word_lt o (and_l h)) (fun h hh =>
    raw_both hh (congrArg (fun x => some (Instr.or x)) (rOf_word o (and_l h) 0x11)) rfl rfl)

theorem xor (o : RFmt) : Statement (.xor o) :=
  one (op := 0x12) (by decide) rfl (fun h => RFmt.word_lt o (and_l h)) (fun h hh =>
    raw_both hh (congrArg (fun x => some (Instr.xor x)) (rOf_word o (and_l h) 0x12)) rfl rfl)

theorem andn (o : RFmt) : Statement (.andn o) :=
  one (op := 0x13) (by decide) rfl (fun h => RFmt.word_lt o (and_l h)) (fun h hh =>
    raw_both hh (congrArg (fun x => some (Instr.andn x)) (rOf_word o (and_l h) 0x13)) rfl rfl)

theorem shl (o : RFmt) : Statement (.shl o) :=
  one (op := 0x14) (by decide) rfl (fun h => RFmt.word_lt o (and_l h)) (fun h hh =>
    raw_both hh (congrArg (fun x => some (Instr.shl x)) (rOf_word o (and_l h) 0x14)) rfl rfl)

theorem shr (o : RFmt) : Statement (.shr o) :=
  one (op := 0x15) (by decide) rfl (fun h => RFmt.word_lt o (and_l h)) (fun h hh =>
    raw_both hh (congrArg (fun x => some (Instr.shr x)) (rOf_word o (and_l h) 0x15)) rfl rfl)

theorem sar (o : RFmt) : Statement (.sar o) :=
  one (op := 0x16) (by decide) rfl (fun h => RFmt.word_lt o (and_l h)) (fun h hh =>
    raw_both hh (congrArg (fun x => some (Instr.sar x)) (rOf_word o (and_l h) 0x16)) rfl rfl)

theorem rotl (o : RFmt) : Statement (.rotl o) :=
  one (op := 0x17) (by decide) rfl (fun h => RFmt.word_lt o (and_l h)) (fun h hh =>
    raw_both hh (congrArg (fun x => some (Instr.rotl x)) (rOf_word o (and_l h) 0x17)) rfl rfl)

theorem clz (o : RFmt) : Statement (.clz o) :=
  one (op := 0x18) (by decide) rfl (fun h => RFmt.word_lt o (and_l (and_l (and_l h)))) (fun h hh =>
    raw_both hh (congrArg (fun x => some (Instr.clz x)) (rOf_word o (and_l (and_l (and_l h))) 0x18)) rfl rfl)

theorem ctz (o : RFmt) : Statement (.ctz o) :=
  one (op := 0x19) (by decide) rfl (fun h => RFmt.word_lt o (and_l (and_l (and_l h)))) (fun h hh =>
    raw_both hh (congrArg (fun x => some (Instr.ctz x)) (rOf_word o (and_l (and_l (and_l h))) 0x19)) rfl rfl)

theorem popc (o : RFmt) : Statement (.popc o) :=
  one (op := 0x1A) (by decide) rfl (fun h => RFmt.word_lt o (and_l (and_l (and_l h)))) (fun h hh =>
    raw_both hh (congrArg (fun x => some (Instr.popc x)) (rOf_word o (and_l (and_l (and_l h))) 0x1A)) rfl rfl)

theorem bswap (o : RFmt) : Statement (.bswap o) :=
  one (op := 0x1B) (by decide) rfl (fun h => RFmt.word_lt o (and_l (and_l (and_l h)))) (fun h hh =>
    raw_both hh (congrArg (fun x => some (Instr.bswap x)) (rOf_word o (and_l (and_l (and_l h))) 0x1B)) rfl rfl)

theorem ext (o : RFmt) : Statement (.ext o) :=
  one (op := 0x1C) (by decide) rfl (fun h => RFmt.word_lt o (and_l h)) (fun h hh =>
    raw_both hh (congrArg (fun x => some (Instr.ext x)) (rOf_word o (and_l h) 0x1C)) rfl rfl)

theorem ins (o : RFmt) : Statement (.ins o) :=
  one (op := 0x1D) (by decide) rfl (fun h => RFmt.word_lt o (and_l h)) (fun h hh =>
    raw_both hh (congrArg (fun x => some (Instr.ins x)) (rOf_word o (and_l h) 0x1D)) rfl rfl)

theorem mort (o : RFmt) : Statement (.mort o) :=
  one (op := 0x1E) (by decide) rfl (fun h => RFmt.word_lt o (and_l h)) (fun h hh =>
    raw_both hh (congrArg (fun x => some (Instr.mort x)) (rOf_word o (and_l h) 0x1E)) rfl rfl)

theorem demort (o : RFmt) : Statement (.demort o) :=
  one (op := 0x1F) (by decide) rfl (fun h => RFmt.word_lt o (and_l h)) (fun h hh =>
    raw_both hh (congrArg (fun x => some (Instr.demort x)) (rOf_word o (and_l h) 0x1F)) rfl rfl)

theorem addi (o : IFmt) : Statement (.addi o) :=
  one (op := 0x20) (by decide) rfl (fun h => IFmt.word_lt o h) (fun h hh =>
    raw_both hh (congrArg (fun x => some (Instr.addi x)) (iOf_word o h 0x20)) rfl rfl)

theorem andi (o : IFmt) : Statement (.andi o) :=
  one (op := 0x21) (by decide) rfl (fun h => IFmt.word_lt o h) (fun h hh =>
    raw_both hh (congrArg (fun x => some (Instr.andi x)) (iOf_word o h 0x21)) rfl rfl)

theorem ori (o : IFmt) : Statement (.ori o) :=
  one (op := 0x22) (by decide) rfl (fun h => IFmt.word_lt o h) (fun h hh =>
    raw_both hh (congrArg (fun x => some (Instr.ori x)) (iOf_word o h 0x22)) rfl rfl)

theorem xori (o : IFmt) : Statement (.xori o) :=
  one (op := 0x23) (by decide) rfl (fun h => IFmt.word_lt o h) (fun h hh =>
    raw_both hh (congrArg (fun x => some (Instr.xori x)) (iOf_word o h 0x23)) rfl rfl)

theorem shli (o : IFmt) : Statement (.shli o) :=
  one (op := 0x24) (by decide) rfl (fun h => IFmt.word_lt o (and_l h)) (fun h hh =>
    raw_both hh (congrArg (fun x => some (Instr.shli x)) (iOf_word o (and_l h) 0x24)) rfl rfl)

theorem shri (o : IFmt) : Statement (.shri o) :=
  one (op := 0x25) (by decide) rfl (fun h => IFmt.word_lt o (and_l h)) (fun h hh =>
    raw_both hh (congrArg (fun x => some (Instr.shri x)) (iOf_word o (and_l h) 0x25)) rfl rfl)

theorem sari (o : IFmt) : Statement (.sari o) :=
  one (op := 0x26) (by decide) rfl (fun h => IFmt.word_lt o (and_l h)) (fun h hh =>
    raw_both hh (congrArg (fun x => some (Instr.sari x)) (iOf_word o (and_l h) 0x26)) rfl rfl)

theorem cmpi (o : ICFmt) : Statement (.cmpi o) :=
  one (op := 0x27) (by decide) rfl (fun h => ICFmt.word_lt o (and_l (and_l h))) (fun h hh =>
    raw_both hh (congrArg (fun x => some (Instr.cmpi x)) (icOf_word o (and_l (and_l h)) 0x27)) rfl rfl)

theorem limmK (o : UFmt) : Statement (.limmK o) :=
  one (op := 0x28) (body := 2 ^ 17 + o.word) (by decide) rfl (fun h => UFmt.word_lt o (and_l h)) (fun h hh =>
    raw_both hh (by
      have e : scalarOp 0x28 (0x28 * 2 ^ 25 + (2 ^ 17 + o.word)) =
          some (if bit (0x28 * 2 ^ 25 + (2 ^ 17 + o.word)) 17 then .limmK (uOf (0x28 * 2 ^ 25 + (2 ^ 17 + o.word)))
            else .limm (uOf (0x28 * 2 ^ 25 + (2 ^ 17 + o.word)))) := rfl
      have hr : o.rsv = 0 := eq_of_beq (and_r h)
      rw [e, UFmt.bit_set o (and_l h) hr, uOf_wordK o (and_l h)]
      rfl) rfl rfl)

theorem limm (o : UFmt) : Statement (.limm o) :=
  one (op := 0x28) (body := o.word) (by decide) rfl (fun h => (Nat.lt_of_le_of_lt (Nat.le_add_left _ _) (UFmt.word_lt o (and_l h)))) (fun h hh =>
    raw_both hh (by
      have e : scalarOp 0x28 (0x28 * 2 ^ 25 + (o.word)) =
          some (if bit (0x28 * 2 ^ 25 + (o.word)) 17 then .limmK (uOf (0x28 * 2 ^ 25 + (o.word)))
            else .limm (uOf (0x28 * 2 ^ 25 + (o.word)))) := rfl
      have hr : o.rsv = 0 := eq_of_beq (and_r h)
      rw [e, UFmt.bit_clear o (and_l h) hr, uOf_word o (and_l h)]
      rfl) rfl rfl)

theorem mov (o : RFmt) : Statement (.mov o) :=
  one (op := 0x29) (by decide) rfl (fun h => RFmt.word_lt o (and_l (and_l (and_l h)))) (fun h hh =>
    raw_both hh (congrArg (fun x => some (Instr.mov x)) (rOf_word o (and_l (and_l (and_l h))) 0x29)) rfl rfl)

theorem sel (o : RFmt) : Statement (.sel o) :=
  one (op := 0x2A) (by decide) rfl (fun h => RFmt.word_lt o (and_l h)) (fun h hh =>
    raw_both hh (congrArg (fun x => some (Instr.sel x)) (rOf_word o (and_l h) 0x2A)) rfl rfl)

theorem cmp (o : RFmt) : Statement (.cmp o) :=
  one (op := 0x2B) (by decide) rfl (fun h => RFmt.word_lt o (and_l (and_l h))) (fun h hh =>
    raw_both hh (congrArg (fun x => some (Instr.cmp x)) (rOf_word o (and_l (and_l h)) 0x2B)) rfl rfl)

theorem pand (o : RFmt) : Statement (.pand o) :=
  one (op := 0x2C) (by decide) rfl (fun h => RFmt.word_lt o (and_l (and_l (and_l (and_l (and_l (and_l h))))))) (fun h hh =>
    raw_both hh (congrArg (fun x => some (Instr.pand x)) (rOf_word o (and_l (and_l (and_l (and_l (and_l (and_l h)))))) 0x2C)) rfl rfl)

theorem por (o : RFmt) : Statement (.por o) :=
  one (op := 0x2D) (by decide) rfl (fun h => RFmt.word_lt o (and_l (and_l (and_l (and_l (and_l (and_l h))))))) (fun h hh =>
    raw_both hh (congrArg (fun x => some (Instr.por x)) (rOf_word o (and_l (and_l (and_l (and_l (and_l (and_l h)))))) 0x2D)) rfl rfl)

theorem pxor (o : RFmt) : Statement (.pxor o) :=
  one (op := 0x2E) (by decide) rfl (fun h => RFmt.word_lt o (and_l (and_l (and_l (and_l (and_l (and_l h))))))) (fun h hh =>
    raw_both hh (congrArg (fun x => some (Instr.pxor x)) (rOf_word o (and_l (and_l (and_l (and_l (and_l (and_l h)))))) 0x2E)) rfl rfl)

theorem pnot (o : RFmt) : Statement (.pnot o) :=
  one (op := 0x2F) (by decide) rfl (fun h => RFmt.word_lt o (and_l (and_l (and_l (and_l (and_l (and_l h))))))) (fun h hh =>
    raw_both hh (congrArg (fun x => some (Instr.pnot x)) (rOf_word o (and_l (and_l (and_l (and_l (and_l (and_l h)))))) 0x2F)) rfl rfl)

theorem br (o : BFmt) : Statement (.br o) :=
  one (op := 0x30) (by decide) rfl (fun h => BFmt.word_lt o (and_l (and_l (and_l h)))) (fun h hh =>
    raw_both hh (congrArg (fun x => some (Instr.br x)) (bOf_word o (and_l (and_l (and_l h))) 0x30)) rfl rfl)

theorem bc (o : BFmt) : Statement (.bc o) :=
  one (op := 0x31) (by decide) rfl (fun h => BFmt.word_lt o (and_l (and_l h))) (fun h hh =>
    raw_both hh (congrArg (fun x => some (Instr.bc x)) (bOf_word o (and_l (and_l h)) 0x31)) rfl rfl)

theorem call (o : BFmt) : Statement (.call o) :=
  one (op := 0x32) (by decide) rfl (fun h => BFmt.word_lt o (and_l (and_l (and_l h)))) (fun h hh =>
    raw_both hh (congrArg (fun x => some (Instr.call x)) (bOf_word o (and_l (and_l (and_l h))) 0x32)) rfl rfl)

theorem jr (o : RFmt) : Statement (.jr o) :=
  one (op := 0x33) (by decide) rfl (fun h => RFmt.word_lt o (and_l (and_l (and_l (and_l h))))) (fun h hh =>
    raw_both hh (congrArg (fun x => some (Instr.jr x)) (rOf_word o (and_l (and_l (and_l (and_l h)))) 0x33)) rfl rfl)

theorem callr (o : RFmt) : Statement (.callr o) :=
  one (op := 0x34) (by decide) rfl (fun h => RFmt.word_lt o (and_l (and_l (and_l (and_l h))))) (fun h hh =>
    raw_both hh (congrArg (fun x => some (Instr.callr x)) (rOf_word o (and_l (and_l (and_l (and_l h)))) 0x34)) rfl rfl)

theorem ret (o : RFmt) : Statement (.ret o) :=
  one (op := 0x35) (by decide) rfl (fun h => RFmt.word_lt o (and_l (and_l (and_l (and_l h))))) (fun h hh =>
    raw_both hh (congrArg (fun x => some (Instr.ret x)) (rOf_word o (and_l (and_l (and_l (and_l h)))) 0x35)) rfl rfl)

theorem waitc (o : RFmt) : Statement (.waitc o) :=
  one (op := 0x36) (by decide) rfl (fun h => RFmt.word_lt o (and_l (and_l h))) (fun h hh =>
    raw_both hh (congrArg (fun x => some (Instr.waitc x)) (rOf_word o (and_l (and_l h)) 0x36)) rfl rfl)

theorem nop (o : RFmt) : Statement (.nop o) :=
  one (op := 0x37) (by decide) rfl (fun h => RFmt.word_lt o (and_l (and_l h))) (fun h hh =>
    raw_both hh (congrArg (fun x => some (Instr.nop x)) (rOf_word o (and_l (and_l h)) 0x37)) rfl rfl)

theorem qpush (o : QFmt) : Statement (.qpush o) :=
  one (op := 0x38) (by decide) rfl (fun h => QFmt.word_lt o (and_l (and_l (and_l (and_l h))))) (fun h hh =>
    raw_both hh (congrArg (fun x => some (Instr.qpush x)) (qOf_word o (and_l (and_l (and_l (and_l h)))) 0x38)) rfl rfl)

theorem qpushm (o : QFmt) : Statement (.qpushm o) :=
  one (op := 0x39) (by decide) rfl (fun h => QFmt.word_lt o (and_l (and_l (and_l h)))) (fun h hh =>
    raw_both hh (congrArg (fun x => some (Instr.qpushm x)) (qOf_word o (and_l (and_l (and_l h))) 0x39)) rfl rfl)

theorem qpop (o : QFmt) : Statement (.qpop o) :=
  one (op := 0x3A) (by decide) rfl (fun h => QFmt.word_lt o (and_l (and_l (and_l (and_l h))))) (fun h hh =>
    raw_both hh (congrArg (fun x => some (Instr.qpop x)) (qOf_word o (and_l (and_l (and_l (and_l h)))) 0x3A)) rfl rfl)

theorem ctlr (o : IFmt) : Statement (.ctlr o) :=
  one (op := 0x60) (by decide) rfl (fun h => IFmt.word_lt o (and_l (and_l h))) (fun h hh =>
    raw_both hh (congrArg (fun x => some (Instr.ctlr x)) (iOf_word o (and_l (and_l h)) 0x60)) rfl rfl)

theorem ctlw (o : IFmt) : Statement (.ctlw o) :=
  one (op := 0x61) (by decide) rfl (fun h => IFmt.word_lt o (and_l h)) (fun h hh =>
    raw_both hh (congrArg (fun x => some (Instr.ctlw x)) (iOf_word o (and_l h) 0x61)) rfl rfl)

theorem featq (o : IFmt) : Statement (.featq o) :=
  one (op := 0x62) (by decide) rfl (fun h => IFmt.word_lt o (and_l (and_l h))) (fun h hh =>
    raw_both hh (congrArg (fun x => some (Instr.featq x)) (iOf_word o (and_l (and_l h)) 0x62)) rfl rfl)

theorem bkpt (o : IFmt) : Statement (.bkpt o) :=
  one (op := 0x63) (by decide) rfl (fun h => IFmt.word_lt o (and_l (and_l (and_l h)))) (fun h hh =>
    raw_both hh (congrArg (fun x => some (Instr.bkpt x)) (iOf_word o (and_l (and_l (and_l h))) 0x63)) rfl rfl)

theorem ld (o : MemFmt) : Statement (.ld o) :=
  one (op := 0x40) (by decide) rfl (fun h => MemFmt.word_lt o (and_l (and_l h))) (fun h hh =>
    raw_a hh (congrArg (fun x => some (Instr.ld x)) (memOf_word o (and_l (and_l h)) 0x40)) rfl)

theorem st (o : MemFmt) : Statement (.st o) :=
  one (op := 0x41) (by decide) rfl (fun h => MemFmt.word_lt o (and_l h)) (fun h hh =>
    raw_a hh (congrArg (fun x => some (Instr.st x)) (memOf_word o (and_l h) 0x41)) rfl)

theorem ldx (o : RFmt) : Statement (.ldx o) :=
  one (op := 0x42) (by decide) rfl (fun h => RFmt.word_lt o (and_l (and_l h))) (fun h hh =>
    raw_a hh (congrArg (fun x => some (Instr.ldx x)) (rOf_word o (and_l (and_l h)) 0x42)) rfl)

theorem stx (o : RFmt) : Statement (.stx o) :=
  one (op := 0x43) (by decide) rfl (fun h => RFmt.word_lt o (and_l h)) (fun h hh =>
    raw_a hh (congrArg (fun x => some (Instr.stx x)) (rOf_word o (and_l h) 0x43)) rfl)

theorem pref (o : MemFmt) : Statement (.pref o) :=
  one (op := 0x44) (by decide) rfl (fun h => MemFmt.word_lt o (and_l (and_l (and_l h)))) (fun h hh =>
    raw_a hh (congrArg (fun x => some (Instr.pref x)) (memOf_word o (and_l (and_l (and_l h))) 0x44)) rfl)

theorem pin (o : RFmt) : Statement (.pin o) :=
  one (op := 0x45) (by decide) rfl (fun h => RFmt.word_lt o (and_l (and_l (and_l h)))) (fun h hh =>
    raw_a hh (congrArg (fun x => some (Instr.pin x)) (rOf_word o (and_l (and_l (and_l h))) 0x45)) rfl)

theorem unpin (o : RFmt) : Statement (.unpin o) :=
  one (op := 0x46) (by decide) rfl (fun h => RFmt.word_lt o (and_l (and_l (and_l (and_l h))))) (fun h hh =>
    raw_a hh (congrArg (fun x => some (Instr.unpin x)) (rOf_word o (and_l (and_l (and_l (and_l h)))) 0x46)) rfl)

theorem phase (o : RFmt) : Statement (.phase o) :=
  one (op := 0x47) (by decide) rfl (fun h => RFmt.word_lt o (and_l (and_l h))) (fun h hh =>
    raw_a hh (congrArg (fun x => some (Instr.phase x)) (rOf_word o (and_l (and_l h)) 0x47)) rfl)

theorem madr (o : RFmt) : Statement (.madr o) :=
  one (op := 0x48) (by decide) rfl (fun h => RFmt.word_lt o h) (fun h hh =>
    raw_a hh (congrArg (fun x => some (Instr.madr x)) (rOf_word o h 0x48)) rfl)

theorem tadr (o : RFmt) : Statement (.tadr o) :=
  one (op := 0x49) (by decide) rfl (fun h => RFmt.word_lt o (and_l h)) (fun h hh =>
    raw_a hh (congrArg (fun x => some (Instr.tadr x)) (rOf_word o (and_l h) 0x49)) rfl)

theorem qpeek (o : QFmt) : Statement (.qpeek o) :=
  one (op := 0x4A) (by decide) rfl (fun h => QFmt.word_lt o (and_l (and_l (and_l (and_l h))))) (fun h hh =>
    raw_a hh (congrArg (fun x => some (Instr.qpeek x)) (qOf_word o (and_l (and_l (and_l (and_l h)))) 0x4A)) rfl)

theorem qskip (o : QFmt) : Statement (.qskip o) :=
  one (op := 0x4B) (by decide) rfl (fun h => QFmt.word_lt o (and_l (and_l (and_l (and_l (and_l (and_l h))))))) (fun h hh =>
    raw_a hh (congrArg (fun x => some (Instr.qskip x)) (qOf_word o (and_l (and_l (and_l (and_l (and_l (and_l h)))))) 0x4B)) rfl)

theorem qstat (o : QFmt) : Statement (.qstat o) :=
  one (op := 0x4C) (by decide) rfl (fun h => QFmt.word_lt o (and_l (and_l (and_l (and_l (and_l h)))))) (fun h hh =>
    raw_a hh (congrArg (fun x => some (Instr.qstat x)) (qOf_word o (and_l (and_l (and_l (and_l (and_l h))))) 0x4C)) rfl)

theorem yield (o : RFmt) : Statement (.yield o) :=
  one (op := 0x4D) (by decide) rfl (fun h => RFmt.word_lt o (and_l (and_l h))) (fun h hh =>
    raw_a hh (congrArg (fun x => some (Instr.yield x)) (rOf_word o (and_l (and_l h)) 0x4D)) rfl)

theorem sysc (o : IFmt) : Statement (.sysc o) :=
  one (op := 0x64) (by decide) rfl (fun h => IFmt.word_lt o (and_l (and_l (and_l h)))) (fun h hh =>
    raw_a hh (congrArg (fun x => some (Instr.sysc x)) (iOf_word o (and_l (and_l (and_l h))) 0x64)) rfl)

theorem eret (o : RFmt) : Statement (.eret o) :=
  one (op := 0x65) (by decide) rfl (fun h => RFmt.word_lt o (and_l (and_l (and_l h)))) (fun h hh =>
    raw_a hh (congrArg (fun x => some (Instr.eret x)) (rOf_word o (and_l (and_l (and_l h))) 0x65)) rfl)

theorem tlbi (o : RFmt) : Statement (.tlbi o) :=
  one (op := 0x66) (by decide) rfl (fun h => RFmt.word_lt o (and_l (and_l h))) (fun h hh =>
    raw_a hh (congrArg (fun x => some (Instr.tlbi x)) (rOf_word o (and_l (and_l h)) 0x66)) rfl)

theorem ifence (o : RFmt) : Statement (.ifence o) :=
  one (op := 0x67) (by decide) rfl (fun h => RFmt.word_lt o (and_l (and_l (and_l h)))) (fun h hh =>
    raw_a hh (congrArg (fun x => some (Instr.ifence x)) (rOf_word o (and_l (and_l (and_l h))) 0x67)) rfl)

theorem halt (o : RFmt) : Statement (.halt o) :=
  one (op := 0x68) (by decide) rfl (fun h => RFmt.word_lt o (and_l (and_l (and_l h)))) (fun h hh =>
    raw_a hh (congrArg (fun x => some (Instr.halt x)) (rOf_word o (and_l (and_l (and_l h))) 0x68)) rfl)

theorem qclose (o : QFmt) : Statement (.qclose o) :=
  one (op := 0x69) (by decide) rfl (fun h => QFmt.word_lt o (and_l (and_l (and_l (and_l h))))) (fun h hh =>
    raw_a hh (congrArg (fun x => some (Instr.qclose x)) (qOf_word o (and_l (and_l (and_l (and_l h)))) 0x69)) rfl)

theorem loop (o : PFmt) : Statement (.loop o) :=
  one (op := 0x50) (by decide) rfl (fun h => PFmt.word_lt o (and_l h)) (fun h hh =>
    raw_s hh (congrArg (fun x => some (Instr.loop x)) (pOf_word o (and_l h) 0x50)) rfl)

theorem loopq (o : PQFmt) : Statement (.loopq o) :=
  one (op := 0x51) (by decide) rfl (fun h => PQFmt.word_lt o (and_l h)) (fun h hh =>
    raw_s hh (congrArg (fun x => some (Instr.loopq x)) (pqOf_word o (and_l h) 0x51)) rfl)

theorem tsrd (o : IFmt) : Statement (.tsrd o) :=
  one (op := 0x52) (by decide) rfl (fun h => IFmt.word_lt o (and_l (and_l (and_l h)))) (fun h hh =>
    raw_s hh (congrArg (fun x => some (Instr.tsrd x)) (iOf_word o (and_l (and_l (and_l h))) 0x52)) rfl)

theorem hrd (o : IFmt) : Statement (.hrd o) :=
  one (op := 0x53) (by decide) rfl (fun h => IFmt.word_lt o (and_l (and_l h))) (fun h hh =>
    raw_s hh (congrArg (fun x => some (Instr.hrd x)) (iOf_word o (and_l (and_l h)) 0x53)) rfl)

theorem hwr (o : RFmt) : Statement (.hwr o) :=
  one (op := 0x54) (by decide) rfl (fun h => RFmt.word_lt o (and_l (and_l (and_l (and_l h))))) (fun h hh =>
    raw_s hh (congrArg (fun x => some (Instr.hwr x)) (rOf_word o (and_l (and_l (and_l (and_l h)))) 0x54)) rfl)

theorem fcfg (o : RFmt) : Statement (.fcfg o) :=
  one (op := 0x55) (by decide) rfl (fun h => RFmt.word_lt o (and_l (and_l h))) (fun h hh =>
    raw_s hh (congrArg (fun x => some (Instr.fcfg x)) (rOf_word o (and_l (and_l h)) 0x55)) rfl)

theorem farm (o : RFmt) : Statement (.farm o) :=
  one (op := 0x56) (by decide) rfl (fun h => RFmt.word_lt o (and_l (and_l h))) (fun h hh =>
    raw_s hh (congrArg (fun x => some (Instr.farm x)) (rOf_word o (and_l (and_l h)) 0x56)) rfl)

theorem fwait (o : RFmt) : Statement (.fwait o) :=
  one (op := 0x57) (by decide) rfl (fun h => RFmt.word_lt o (and_l (and_l (and_l (and_l h))))) (fun h hh =>
    raw_s hh (congrArg (fun x => some (Instr.fwait x)) (rOf_word o (and_l (and_l (and_l (and_l h)))) 0x57)) rfl)

theorem fcommit (o : RFmt) : Statement (.fcommit o) :=
  one (op := 0x58) (by decide) rfl (fun h => RFmt.word_lt o (and_l (and_l (and_l (and_l h))))) (fun h hh =>
    raw_s hh (congrArg (fun x => some (Instr.fcommit x)) (rOf_word o (and_l (and_l (and_l (and_l h)))) 0x58)) rfl)

theorem stop (o : RFmt) : Statement (.stop o) :=
  one (op := 0x59) (by decide) rfl (fun h => RFmt.word_lt o (and_l (and_l h))) (fun h hh =>
    raw_s hh (congrArg (fun x => some (Instr.stop x)) (rOf_word o (and_l (and_l h)) 0x59)) rfl)

theorem vadd (o : VFmt) : Statement (.vadd o) :=
  two (op := 0x00) (by decide) rfl (fun h => VFmt.fits_of (and_l (and_l (and_l h))) (and_r (and_l (and_l h)))) rfl (fun _ _ e => e ▸ rfl)

theorem vsub (o : VFmt) : Statement (.vsub o) :=
  two (op := 0x01) (by decide) rfl (fun h => VFmt.fits_of (and_l (and_l (and_l h))) (and_r (and_l (and_l h)))) rfl (fun _ _ e => e ▸ rfl)

theorem vmul (o : VFmt) : Statement (.vmul o) :=
  two (op := 0x02) (by decide) rfl (fun h => VFmt.fits_of (and_l (and_l (and_l h))) (and_r (and_l (and_l h)))) rfl (fun _ _ e => e ▸ rfl)

theorem vfma (o : VFmt) : Statement (.vfma o) :=
  two (op := 0x03) (by decide) rfl (fun h => VFmt.fits_of (and_l (and_l (and_l h))) (and_r (and_l (and_l h)))) rfl (fun _ _ e => e ▸ rfl)

theorem vfms (o : VFmt) : Statement (.vfms o) :=
  two (op := 0x04) (by decide) rfl (fun h => VFmt.fits_of (and_l (and_l (and_l h))) (and_r (and_l (and_l h)))) rfl (fun _ _ e => e ▸ rfl)

theorem vfnma (o : VFmt) : Statement (.vfnma o) :=
  two (op := 0x05) (by decide) rfl (fun h => VFmt.fits_of (and_l (and_l (and_l h))) (and_r (and_l (and_l h)))) rfl (fun _ _ e => e ▸ rfl)

theorem vmin (o : VFmt) : Statement (.vmin o) :=
  two (op := 0x06) (by decide) rfl (fun h => VFmt.fits_of (and_l (and_l (and_l h))) (and_r (and_l (and_l h)))) rfl (fun _ _ e => e ▸ rfl)

theorem vmax (o : VFmt) : Statement (.vmax o) :=
  two (op := 0x07) (by decide) rfl (fun h => VFmt.fits_of (and_l (and_l (and_l h))) (and_r (and_l (and_l h)))) rfl (fun _ _ e => e ▸ rfl)

theorem vabs (o : VFmt) : Statement (.vabs o) :=
  two (op := 0x08) (by decide) rfl (fun h => VFmt.fits_of (and_l (and_l (and_l h))) (and_r (and_l (and_l h)))) rfl (fun _ _ e => e ▸ rfl)

theorem vneg (o : VFmt) : Statement (.vneg o) :=
  two (op := 0x09) (by decide) rfl (fun h => VFmt.fits_of (and_l (and_l (and_l h))) (and_r (and_l (and_l h)))) rfl (fun _ _ e => e ▸ rfl)

theorem vcps (o : VFmt) : Statement (.vcps o) :=
  two (op := 0x0A) (by decide) rfl (fun h => VFmt.fits_of (and_l (and_l (and_l h))) (and_r (and_l (and_l h)))) rfl (fun _ _ e => e ▸ rfl)

theorem vclass (o : VFmt) : Statement (.vclass o) :=
  two (op := 0x0B) (by decide) rfl (fun h => VFmt.fits_of (and_l (and_l (and_l h))) (and_r (and_l (and_l h)))) rfl (fun _ _ e => e ▸ rfl)

theorem vrcpe (o : VFmt) : Statement (.vrcpe o) :=
  two (op := 0x0C) (by decide) rfl (fun h => VFmt.fits_of (and_l (and_l (and_l h))) (and_r (and_l (and_l h)))) rfl (fun _ _ e => e ▸ rfl)

theorem vrsqe (o : VFmt) : Statement (.vrsqe o) :=
  two (op := 0x0D) (by decide) rfl (fun h => VFmt.fits_of (and_l (and_l (and_l h))) (and_r (and_l (and_l h)))) rfl (fun _ _ e => e ▸ rfl)

theorem vexp2 (o : VFmt) : Statement (.vexp2 o) :=
  two (op := 0x0E) (by decide) rfl (fun h => VFmt.fits_of (and_l (and_l (and_l h))) (and_r (and_l (and_l h)))) rfl (fun _ _ e => e ▸ rfl)

theorem vlog2 (o : VFmt) : Statement (.vlog2 o) :=
  two (op := 0x0F) (by decide) rfl (fun h => VFmt.fits_of (and_l (and_l (and_l h))) (and_r (and_l (and_l h)))) rfl (fun _ _ e => e ▸ rfl)

theorem vcvt (o : VFmt) : Statement (.vcvt o) :=
  two (op := 0x10) (by decide) rfl (fun h => VFmt.fits_of (and_l (and_l (and_l h))) (and_r (and_l (and_l h)))) rfl (fun _ _ e => e ▸ rfl)

theorem vqnt (o : VFmt) : Statement (.vqnt o) :=
  two (op := 0x11) (by decide) rfl (fun h => VFmt.fits_of (and_l (and_l (and_l (and_l h)))) (and_r (and_l (and_l (and_l h))))) rfl (fun _ _ e => e ▸ rfl)

theorem vdqnt (o : VFmt) : Statement (.vdqnt o) :=
  two (op := 0x12) (by decide) rfl (fun h => VFmt.fits_of (and_l (and_l (and_l (and_l h)))) (and_r (and_l (and_l (and_l h))))) rfl (fun _ _ e => e ▸ rfl)

theorem vcmp (o : VFmt) : Statement (.vcmp o) :=
  two (op := 0x13) (by decide) rfl (fun h => VFmt.fits_of (and_l (and_l (and_l h))) (and_r (and_l (and_l h)))) rfl (fun _ _ e => e ▸ rfl)

theorem vsel (o : VFmt) : Statement (.vsel o) :=
  two (op := 0x14) (by decide) rfl (fun h => VFmt.fits_of (and_l (and_l (and_l h))) (and_r (and_l (and_l h)))) rfl (fun _ _ e => e ▸ rfl)

theorem vmand (o : VFmt) : Statement (.vmand o) :=
  two (op := 0x15) (by decide) rfl (fun h => VFmt.fits_of (and_l (and_l (and_l (and_l h)))) (and_r (and_l (and_l (and_l h))))) rfl (fun _ _ e => e ▸ rfl)

theorem vmor (o : VFmt) : Statement (.vmor o) :=
  two (op := 0x16) (by decide) rfl (fun h => VFmt.fits_of (and_l (and_l (and_l (and_l h)))) (and_r (and_l (and_l (and_l h))))) rfl (fun _ _ e => e ▸ rfl)

theorem vmnot (o : VFmt) : Statement (.vmnot o) :=
  two (op := 0x17) (by decide) rfl (fun h => VFmt.fits_of (and_l (and_l (and_l (and_l h)))) (and_r (and_l (and_l (and_l h))))) rfl (fun _ _ e => e ▸ rfl)

theorem vand (o : VFmt) : Statement (.vand o) :=
  two (op := 0x18) (by decide) rfl (fun h => VFmt.fits_of (and_l (and_l (and_l h))) (and_r (and_l (and_l h)))) rfl (fun _ _ e => e ▸ rfl)

theorem vor (o : VFmt) : Statement (.vor o) :=
  two (op := 0x19) (by decide) rfl (fun h => VFmt.fits_of (and_l (and_l (and_l h))) (and_r (and_l (and_l h)))) rfl (fun _ _ e => e ▸ rfl)

theorem vxor (o : VFmt) : Statement (.vxor o) :=
  two (op := 0x1A) (by decide) rfl (fun h => VFmt.fits_of (and_l (and_l (and_l h))) (and_r (and_l (and_l h)))) rfl (fun _ _ e => e ▸ rfl)

theorem vshl (o : VFmt) : Statement (.vshl o) :=
  two (op := 0x1B) (by decide) rfl (fun h => VFmt.fits_of (and_l (and_l (and_l (and_l h)))) (and_r (and_l (and_l (and_l h))))) rfl (fun _ _ e => e ▸ rfl)

theorem vshr (o : VFmt) : Statement (.vshr o) :=
  two (op := 0x1C) (by decide) rfl (fun h => VFmt.fits_of (and_l (and_l (and_l (and_l h)))) (and_r (and_l (and_l (and_l h))))) rfl (fun _ _ e => e ▸ rfl)

theorem vsar (o : VFmt) : Statement (.vsar o) :=
  two (op := 0x1D) (by decide) rfl (fun h => VFmt.fits_of (and_l (and_l (and_l (and_l h)))) (and_r (and_l (and_l (and_l h))))) rfl (fun _ _ e => e ▸ rfl)

theorem vpopc (o : VFmt) : Statement (.vpopc o) :=
  two (op := 0x1E) (by decide) rfl (fun h => VFmt.fits_of (and_l (and_l (and_l (and_l h)))) (and_r (and_l (and_l (and_l h))))) rfl (fun _ _ e => e ▸ rfl)

theorem vclz (o : VFmt) : Statement (.vclz o) :=
  two (op := 0x1F) (by decide) rfl (fun h => VFmt.fits_of (and_l (and_l (and_l (and_l h)))) (and_r (and_l (and_l (and_l h))))) rfl (fun _ _ e => e ▸ rfl)

theorem vscan (o : VFmt) : Statement (.vscan o) :=
  two (op := 0x20) (by decide) rfl (fun h => VFmt.fits_of (and_l (and_l (and_l h))) (and_r (and_l (and_l h)))) rfl (fun _ _ e => e ▸ rfl)

theorem vred (o : VFmt) : Statement (.vred o) :=
  two (op := 0x21) (by decide) rfl (fun h => VFmt.fits_of (and_l (and_l (and_l h))) (and_r (and_l (and_l h)))) rfl (fun _ _ e => e ▸ rfl)

theorem vdot (o : VFmt) : Statement (.vdot o) :=
  two (op := 0x22) (by decide) rfl (fun h => VFmt.fits_of (and_l (and_l (and_l h))) (and_r (and_l (and_l h)))) rfl (fun _ _ e => e ▸ rfl)

theorem vminx (o : VFmt) : Statement (.vminx o) :=
  two (op := 0x23) (by decide) rfl (fun h => VFmt.fits_of (and_l (and_l (and_l h))) (and_r (and_l (and_l h)))) rfl (fun _ _ e => e ▸ rfl)

theorem vmaxx (o : VFmt) : Statement (.vmaxx o) :=
  two (op := 0x24) (by decide) rfl (fun h => VFmt.fits_of (and_l (and_l (and_l h))) (and_r (and_l (and_l h)))) rfl (fun _ _ e => e ▸ rfl)

theorem vmov (o : VFmt) : Statement (.vmov o) :=
  two (op := 0x25) (by decide) rfl (fun h => VFmt.fits_of (and_l (and_l (and_l h))) (and_r (and_l (and_l h)))) rfl (fun _ _ e => e ▸ rfl)

theorem vbcast (o : VFmt) : Statement (.vbcast o) :=
  two (op := 0x26) (by decide) rfl (fun h => VFmt.fits_of (and_l (and_l (and_l h))) (and_r (and_l (and_l h)))) rfl (fun _ _ e => e ▸ rfl)

theorem vget (o : VFmt) : Statement (.vget o) :=
  two (op := 0x27) (by decide) rfl (fun h => VFmt.fits_of (and_l (and_l (and_l (and_l h)))) (and_r (and_l (and_l (and_l h))))) rfl (fun _ _ e => e ▸ rfl)

theorem vset (o : VFmt) : Statement (.vset o) :=
  two (op := 0x28) (by decide) rfl (fun h => VFmt.fits_of (and_l (and_l (and_l (and_l h)))) (and_r (and_l (and_l (and_l h))))) rfl (fun _ _ e => e ▸ rfl)

theorem vpop (o : VFmt) : Statement (.vpop o) :=
  two (op := 0x29) (by decide) rfl (fun h => VFmt.fits_of (and_l (and_l (and_l (and_l h)))) (and_r (and_l (and_l (and_l h))))) rfl (fun _ _ e => e ▸ rfl)

theorem vpush (o : VFmt) : Statement (.vpush o) :=
  two (op := 0x2A) (by decide) rfl (fun h => VFmt.fits_of (and_l (and_l (and_l (and_l h)))) (and_r (and_l (and_l (and_l h))))) rfl (fun _ _ e => e ▸ rfl)

theorem vperm (o : VFmt) : Statement (.vperm o) :=
  two (op := 0x2B) (by decide) rfl (fun h => VFmt.fits_of (and_l (and_l (and_l h))) (and_r (and_l (and_l h)))) rfl (fun _ _ e => e ▸ rfl)

theorem vtopk (o : VFmt) : Statement (.vtopk o) :=
  two (op := 0x2C) (by decide) rfl (fun h => VFmt.fits_of (and_l (and_l (and_l (and_l h)))) (and_r (and_l (and_l (and_l h))))) rfl (fun _ _ e => e ▸ rfl)

theorem vcmpv (o : VFmt) : Statement (.vcmpv o) :=
  two (op := 0x2D) (by decide) rfl (fun h => VFmt.fits_of (and_l (and_l (and_l h))) (and_r (and_l (and_l h)))) rfl (fun _ _ e => e ▸ rfl)

theorem vselv (o : VFmt) : Statement (.vselv o) :=
  two (op := 0x2E) (by decide) rfl (fun h => VFmt.fits_of (and_l (and_l (and_l h))) (and_r (and_l (and_l h)))) rfl (fun _ _ e => e ▸ rfl)

theorem mlds (o : StrokeFmt) : Statement (.mlds o) :=
  one (op := 0x00) (by decide) rfl (fun h => StrokeFmt.word_lt o (and_l (and_l (and_l (and_l h))))) (fun h hh =>
    raw_m hh (congrArg (fun x => some (Instr.mlds x)) (strokeOf_word o (and_l (and_l (and_l (and_l h)))) 0x00)) )

theorem mldsp (o : StrokeFmt) : Statement (.mldsp o) :=
  one (op := 0x01) (by decide) rfl (fun h => StrokeFmt.word_lt o (and_l (and_l (and_l (and_l h))))) (fun h hh =>
    raw_m hh (congrArg (fun x => some (Instr.mldsp x)) (strokeOf_word o (and_l (and_l (and_l (and_l h)))) 0x01)) )

theorem mswap (o : StrokeFmt) : Statement (.mswap o) :=
  one (op := 0x02) (by decide) rfl (fun h => StrokeFmt.word_lt o (and_l (and_l (and_l (and_l (and_l h)))))) (fun h hh =>
    raw_m hh (congrArg (fun x => some (Instr.mswap x)) (strokeOf_word o (and_l (and_l (and_l (and_l (and_l h))))) 0x02)) )

theorem mrun (o : StrokeFmt) : Statement (.mrun o) :=
  one (op := 0x03) (by decide) rfl (fun h => StrokeFmt.word_lt o (and_l (and_l (and_l h)))) (fun h hh =>
    raw_m hh (congrArg (fun x => some (Instr.mrun x)) (strokeOf_word o (and_l (and_l (and_l h))) 0x03)) )

theorem mver (o : StrokeFmt) : Statement (.mver o) :=
  one (op := 0x04) (by decide) rfl (fun h => StrokeFmt.word_lt o (and_l (and_l (and_l h)))) (fun h hh =>
    raw_m hh (congrArg (fun x => some (Instr.mver x)) (strokeOf_word o (and_l (and_l (and_l h))) 0x04)) )

theorem mzero (o : StrokeFmt) : Statement (.mzero o) :=
  one (op := 0x05) (by decide) rfl (fun h => StrokeFmt.word_lt o (and_l (and_l (and_l (and_l h))))) (fun h hh =>
    raw_m hh (congrArg (fun x => some (Instr.mzero x)) (strokeOf_word o (and_l (and_l (and_l (and_l h)))) 0x05)) )

theorem mdrain (o : StrokeFmt) : Statement (.mdrain o) :=
  one (op := 0x06) (by decide) rfl (fun h => StrokeFmt.word_lt o (and_l (and_l (and_l h)))) (fun h hh =>
    raw_m hh (congrArg (fun x => some (Instr.mdrain x)) (strokeOf_word o (and_l (and_l (and_l h))) 0x06)) )

theorem mdrainv (o : StrokeFmt) : Statement (.mdrainv o) :=
  one (op := 0x07) (by decide) rfl (fun h => StrokeFmt.word_lt o (and_l (and_l (and_l h)))) (fun h hh =>
    raw_m hh (congrArg (fun x => some (Instr.mdrainv x)) (strokeOf_word o (and_l (and_l (and_l h))) 0x07)) )

theorem mmask (o : StrokeFmt) : Statement (.mmask o) :=
  one (op := 0x08) (by decide) rfl (fun h => StrokeFmt.word_lt o (and_l (and_l (and_l (and_l h))))) (fun h hh =>
    raw_m hh (congrArg (fun x => some (Instr.mmask x)) (strokeOf_word o (and_l (and_l (and_l (and_l h)))) 0x08)) )

theorem mbnd (o : StrokeFmt) : Statement (.mbnd o) :=
  one (op := 0x09) (by decide) rfl (fun h => StrokeFmt.word_lt o (and_l (and_l (and_l (and_l h))))) (fun h hh =>
    raw_m hh (congrArg (fun x => some (Instr.mbnd x)) (strokeOf_word o (and_l (and_l (and_l (and_l h)))) 0x09)) )

theorem mwait (o : StrokeFmt) : Statement (.mwait o) :=
  one (op := 0x0A) (by decide) rfl (fun h => StrokeFmt.word_lt o (and_l (and_l (and_l (and_l h))))) (fun h hh =>
    raw_m hh (congrArg (fun x => some (Instr.mwait x)) (strokeOf_word o (and_l (and_l (and_l (and_l h)))) 0x0A)) )

theorem mstat (o : StrokeFmt) : Statement (.mstat o) :=
  one (op := 0x0B) (by decide) rfl (fun h => StrokeFmt.word_lt o (and_l (and_l (and_l h)))) (fun h hh =>
    raw_m hh (congrArg (fun x => some (Instr.mstat x)) (strokeOf_word o (and_l (and_l (and_l h))) 0x0B)) )

theorem agdef (o : LWFmt) : Statement (.agdef o) :=
  one (op := 0x00) (by decide) rfl (fun h => LWFmt.word_lt o (and_l (and_l h))) (fun h hh =>
    raw_lw hh (congrArg (fun x => some (Instr.agdef x)) (lwOf_word o (and_l (and_l h)) 0x00)) rfl)

theorem agrun (o : LWFmt) : Statement (.agrun o) :=
  one (op := 0x01) (by decide) rfl (fun h => LWFmt.word_lt o (and_l (and_l h))) (fun h hh =>
    raw_lw hh (congrArg (fun x => some (Instr.agrun x)) (lwOf_word o (and_l (and_l h)) 0x01)) rfl)

theorem agput (o : LWFmt) : Statement (.agput o) :=
  one (op := 0x02) (by decide) rfl (fun h => LWFmt.word_lt o (and_l (and_l h))) (fun h hh =>
    raw_lw hh (congrArg (fun x => some (Instr.agput x)) (lwOf_word o (and_l (and_l h)) 0x02)) rfl)

theorem agbank (o : LWFmt) : Statement (.agbank o) :=
  one (op := 0x04) (by decide) rfl (fun h => LWFmt.word_lt o (and_l (and_l (and_l h)))) (fun h hh =>
    raw_lw hh (congrArg (fun x => some (Instr.agbank x)) (lwOf_word o (and_l (and_l (and_l h))) 0x04)) rfl)

theorem agtake (o : LWFmt) : Statement (.agtake o) :=
  one (op := 0x05) (by decide) rfl (fun h => LWFmt.word_lt o (and_l (and_l (and_l (and_l h))))) (fun h hh =>
    raw_lw hh (congrArg (fun x => some (Instr.agtake x)) (lwOf_word o (and_l (and_l (and_l (and_l h)))) 0x05)) rfl)

theorem agmark (o : LWFmt) : Statement (.agmark o) :=
  one (op := 0x06) (by decide) rfl (fun h => LWFmt.word_lt o (and_l (and_l (and_l (and_l h))))) (fun h hh =>
    raw_lw hh (congrArg (fun x => some (Instr.agmark x)) (lwOf_word o (and_l (and_l (and_l (and_l h)))) 0x06)) rfl)

theorem agidx (o : LWFmt) : Statement (.agidx o) :=
  one (op := 0x03) (by decide) rfl (fun h => LWFmt.word_lt o (and_l (and_l h))) (fun h hh =>
    raw_l hh (congrArg (fun x => some (Instr.agidx x)) (lwOf_word o (and_l (and_l h)) 0x03)) )

theorem copy (o : LaneFmt) : Statement (.copy o) :=
  one (op := 0x00) (by decide) rfl (fun h => LaneFmt.word_lt o (and_l (and_l (and_l (and_l (and_l h)))))) (fun h hh =>
    raw_copy hh (congrArg (fun x => some (Instr.copy x)) (laneOf_word o (and_l (and_l (and_l (and_l (and_l h))))) 0x00)) )

theorem copy2 (o : LaneFmt) : Statement (.copy2 o) :=
  one (op := 0x01) (by decide) rfl (fun h => LaneFmt.word_lt o (and_l (and_l (and_l (and_l (and_l h)))))) (fun h hh =>
    raw_copy hh (congrArg (fun x => some (Instr.copy2 x)) (laneOf_word o (and_l (and_l (and_l (and_l (and_l h))))) 0x01)) )

theorem fill (o : LaneFmt) : Statement (.fill o) :=
  one (op := 0x02) (by decide) rfl (fun h => LaneFmt.word_lt o (and_l (and_l (and_l (and_l (and_l h)))))) (fun h hh =>
    raw_copy hh (congrArg (fun x => some (Instr.fill x)) (laneOf_word o (and_l (and_l (and_l (and_l (and_l h))))) 0x02)) )

theorem csig (o : LaneFmt) : Statement (.csig o) :=
  one (op := 0x03) (by decide) rfl (fun h => LaneFmt.word_lt o (and_l (and_l (and_l h)))) (fun h hh =>
    raw_copy hh (congrArg (fun x => some (Instr.csig x)) (laneOf_word o (and_l (and_l (and_l h))) 0x03)) )

theorem strmq (o : LaneFmt) : Statement (.strmq o) :=
  one (op := 0x04) (by decide) rfl (fun h => LaneFmt.word_lt o (and_l (and_l (and_l (and_l (and_l h)))))) (fun h hh =>
    raw_copy hh (congrArg (fun x => some (Instr.strmq x)) (laneOf_word o (and_l (and_l (and_l (and_l (and_l h))))) 0x04)) )

theorem drainq (o : LaneFmt) : Statement (.drainq o) :=
  one (op := 0x05) (by decide) rfl (fun h => LaneFmt.word_lt o (and_l (and_l (and_l (and_l (and_l h)))))) (fun h hh =>
    raw_copy hh (congrArg (fun x => some (Instr.drainq x)) (laneOf_word o (and_l (and_l (and_l (and_l (and_l h))))) 0x05)) )

theorem shuf (o : LaneFmt) : Statement (.shuf o) :=
  one (op := 0x06) (by decide) rfl (fun h => LaneFmt.word_lt o (and_l (and_l (and_l (and_l (and_l h)))))) (fun h hh =>
    raw_copy hh (congrArg (fun x => some (Instr.shuf x)) (laneOf_word o (and_l (and_l (and_l (and_l (and_l h))))) 0x06)) )

theorem launch (o : LaneFmt) : Statement (.launch o) :=
  one (op := 0x07) (by decide) rfl (fun h => LaneFmt.word_lt o (and_l (and_l (and_l (and_l (and_l h)))))) (fun h hh =>
    raw_copy hh (congrArg (fun x => some (Instr.launch x)) (laneOf_word o (and_l (and_l (and_l (and_l (and_l h))))) 0x07)) )

theorem cefence (o : LaneFmt) : Statement (.cefence o) :=
  one (op := 0x08) (by decide) rfl (fun h => LaneFmt.word_lt o (and_l (and_l (and_l (and_l (and_l (and_l (and_l h)))))))) (fun h hh =>
    raw_copy hh (congrArg (fun x => some (Instr.cefence x)) (laneOf_word o (and_l (and_l (and_l (and_l (and_l (and_l (and_l h))))))) 0x08)) )

theorem prefl2 (o : LaneFmt) : Statement (.prefl2 o) :=
  one (op := 0x09) (by decide) rfl (fun h => LaneFmt.word_lt o (and_l (and_l (and_l h)))) (fun h hh =>
    raw_copy hh (congrArg (fun x => some (Instr.prefl2 x)) (laneOf_word o (and_l (and_l (and_l h))) 0x09)) )

theorem accwAdd (o : LaneFmt) : Statement (.accwAdd o) :=
  one (op := 0x10) (by decide) rfl (fun h => LaneFmt.word_lt o (and_l (and_l h))) (fun h hh =>
    raw_copy hh (congrArg (fun x => some (Instr.accwAdd x)) (laneOf_word o (and_l (and_l h)) 0x10)) )

theorem accwMin (o : LaneFmt) : Statement (.accwMin o) :=
  one (op := 0x11) (by decide) rfl (fun h => LaneFmt.word_lt o (and_l (and_l h))) (fun h hh =>
    raw_copy hh (congrArg (fun x => some (Instr.accwMin x)) (laneOf_word o (and_l (and_l h)) 0x11)) )

theorem accwMinn (o : LaneFmt) : Statement (.accwMinn o) :=
  one (op := 0x12) (by decide) rfl (fun h => LaneFmt.word_lt o (and_l (and_l h))) (fun h hh =>
    raw_copy hh (congrArg (fun x => some (Instr.accwMinn x)) (laneOf_word o (and_l (and_l h)) 0x12)) )

theorem accwMax (o : LaneFmt) : Statement (.accwMax o) :=
  one (op := 0x13) (by decide) rfl (fun h => LaneFmt.word_lt o (and_l (and_l h))) (fun h hh =>
    raw_copy hh (congrArg (fun x => some (Instr.accwMax x)) (laneOf_word o (and_l (and_l h)) 0x13)) )

theorem accwMaxn (o : LaneFmt) : Statement (.accwMaxn o) :=
  one (op := 0x14) (by decide) rfl (fun h => LaneFmt.word_lt o (and_l (and_l h))) (fun h hh =>
    raw_copy hh (congrArg (fun x => some (Instr.accwMaxn x)) (laneOf_word o (and_l (and_l h)) 0x14)) )

theorem accwAnd (o : LaneFmt) : Statement (.accwAnd o) :=
  one (op := 0x15) (by decide) rfl (fun h => LaneFmt.word_lt o (and_l (and_l h))) (fun h hh =>
    raw_copy hh (congrArg (fun x => some (Instr.accwAnd x)) (laneOf_word o (and_l (and_l h)) 0x15)) )

theorem accwOr (o : LaneFmt) : Statement (.accwOr o) :=
  one (op := 0x16) (by decide) rfl (fun h => LaneFmt.word_lt o (and_l (and_l h))) (fun h hh =>
    raw_copy hh (congrArg (fun x => some (Instr.accwOr x)) (laneOf_word o (and_l (and_l h)) 0x16)) )

theorem accwXor (o : LaneFmt) : Statement (.accwXor o) :=
  one (op := 0x17) (by decide) rfl (fun h => LaneFmt.word_lt o (and_l (and_l h))) (fun h hh =>
    raw_copy hh (congrArg (fun x => some (Instr.accwXor x)) (laneOf_word o (and_l (and_l h)) 0x17)) )

theorem accwXchg (o : LaneFmt) : Statement (.accwXchg o) :=
  one (op := 0x18) (by decide) rfl (fun h => LaneFmt.word_lt o (and_l (and_l h))) (fun h hh =>
    raw_copy hh (congrArg (fun x => some (Instr.accwXchg x)) (laneOf_word o (and_l (and_l h)) 0x18)) )

theorem accwCas (o : LaneFmt) : Statement (.accwCas o) :=
  one (op := 0x19) (by decide) rfl (fun h => LaneFmt.word_lt o (and_l (and_l h))) (fun h hh =>
    raw_copy hh (congrArg (fun x => some (Instr.accwCas x)) (laneOf_word o (and_l (and_l h)) 0x19)) )

theorem accwFaddF32 (o : LaneFmt) : Statement (.accwFaddF32 o) :=
  one (op := 0x1A) (by decide) rfl (fun h => LaneFmt.word_lt o (and_l (and_l (and_l h)))) (fun h hh =>
    raw_copy hh (congrArg (fun x => some (Instr.accwFaddF32 x)) (laneOf_word o (and_l (and_l (and_l h))) 0x1A)) )

theorem accwFaddBf16 (o : LaneFmt) : Statement (.accwFaddBf16 o) :=
  one (op := 0x1B) (by decide) rfl (fun h => LaneFmt.word_lt o (and_l (and_l (and_l h)))) (fun h hh =>
    raw_copy hh (congrArg (fun x => some (Instr.accwFaddBf16 x)) (laneOf_word o (and_l (and_l (and_l h))) 0x1B)) )

theorem accwFmax (o : LaneFmt) : Statement (.accwFmax o) :=
  one (op := 0x1C) (by decide) rfl (fun h => LaneFmt.word_lt o (and_l (and_l (and_l h)))) (fun h hh =>
    raw_copy hh (congrArg (fun x => some (Instr.accwFmax x)) (laneOf_word o (and_l (and_l (and_l h))) 0x1C)) )

theorem gath (o : LaneFmt) : Statement (.gath o) :=
  one (op := 0x00) (by decide) rfl (fun h => LaneFmt.word_lt o (and_l (and_l (and_l (and_l (and_l h)))))) (fun h hh =>
    raw_index hh (congrArg (fun x => some (Instr.gath x)) (laneOf_word o (and_l (and_l (and_l (and_l (and_l h))))) 0x00)) )

theorem scat (o : LaneFmt) : Statement (.scat o) :=
  one (op := 0x01) (by decide) rfl (fun h => LaneFmt.word_lt o (and_l (and_l (and_l (and_l (and_l h)))))) (fun h hh =>
    raw_index hh (congrArg (fun x => some (Instr.scat x)) (laneOf_word o (and_l (and_l (and_l (and_l (and_l h))))) 0x01)) )

theorem bags (o : LaneFmt) : Statement (.bags o) :=
  one (op := 0x02) (by decide) rfl (fun h => LaneFmt.word_lt o (and_l (and_l (and_l (and_l (and_l h)))))) (fun h hh =>
    raw_index hh (congrArg (fun x => some (Instr.bags x)) (laneOf_word o (and_l (and_l (and_l (and_l (and_l h))))) 0x02)) )

theorem isect (o : LaneFmt) : Statement (.isect o) :=
  one (op := 0x03) (by decide) rfl (fun h => LaneFmt.word_lt o (and_l (and_l (and_l (and_l (and_l h)))))) (fun h hh =>
    raw_index hh (congrArg (fun x => some (Instr.isect x)) (laneOf_word o (and_l (and_l (and_l (and_l (and_l h))))) 0x03)) )

theorem msort (o : LaneFmt) : Statement (.msort o) :=
  one (op := 0x04) (by decide) rfl (fun h => LaneFmt.word_lt o (and_l (and_l (and_l (and_l (and_l h)))))) (fun h hh =>
    raw_index hh (congrArg (fun x => some (Instr.msort x)) (laneOf_word o (and_l (and_l (and_l (and_l (and_l h))))) 0x04)) )

theorem spsrch (o : LaneFmt) : Statement (.spsrch o) :=
  one (op := 0x05) (by decide) rfl (fun h => LaneFmt.word_lt o (and_l (and_l (and_l (and_l (and_l h)))))) (fun h hh =>
    raw_index hh (congrArg (fun x => some (Instr.spsrch x)) (laneOf_word o (and_l (and_l (and_l (and_l (and_l h))))) 0x05)) )

theorem ixfence (o : LaneFmt) : Statement (.ixfence o) :=
  one (op := 0x06) (by decide) rfl (fun h => LaneFmt.word_lt o (and_l (and_l (and_l (and_l (and_l (and_l (and_l h)))))))) (fun h hh =>
    raw_index hh (congrArg (fun x => some (Instr.ixfence x)) (laneOf_word o (and_l (and_l (and_l (and_l (and_l (and_l (and_l h))))))) 0x06)) )

theorem elementSrc (crew sec el : Nat) : Statement (.elementSrc crew sec el) := event rfl

theorem elementSnk (crew sec el : Nat) : Statement (.elementSnk crew sec el) := event rfl

theorem elementAgen (crew sec el : Nat) : Statement (.elementAgen crew sec el) := event rfl

theorem elementAdd (crew sec el : Nat) : Statement (.elementAdd crew sec el) := event rfl

theorem elementSub (crew sec el : Nat) : Statement (.elementSub crew sec el) := event rfl

theorem elementMul (crew sec el : Nat) : Statement (.elementMul crew sec el) := event rfl

theorem elementMac (crew sec el : Nat) : Statement (.elementMac crew sec el) := event rfl

theorem elementMin (crew sec el : Nat) : Statement (.elementMin crew sec el) := event rfl

theorem elementMax (crew sec el : Nat) : Statement (.elementMax crew sec el) := event rfl

theorem elementAnd (crew sec el : Nat) : Statement (.elementAnd crew sec el) := event rfl

theorem elementOr (crew sec el : Nat) : Statement (.elementOr crew sec el) := event rfl

theorem elementXor (crew sec el : Nat) : Statement (.elementXor crew sec el) := event rfl

theorem elementShl (crew sec el : Nat) : Statement (.elementShl crew sec el) := event rfl

theorem elementShr (crew sec el : Nat) : Statement (.elementShr crew sec el) := event rfl

theorem elementSar (crew sec el : Nat) : Statement (.elementSar crew sec el) := event rfl

theorem elementCmp (crew sec el : Nat) : Statement (.elementCmp crew sec el) := event rfl

theorem elementSel (crew sec el : Nat) : Statement (.elementSel crew sec el) := event rfl

theorem elementCvt (crew sec el : Nat) : Statement (.elementCvt crew sec el) := event rfl

theorem elementSteer (crew sec el : Nat) : Statement (.elementSteer crew sec el) := event rfl

theorem elementMerge (crew sec el : Nat) : Statement (.elementMerge crew sec el) := event rfl

theorem elementCarry (crew sec el : Nat) : Statement (.elementCarry crew sec el) := event rfl

theorem elementJoin (crew sec el : Nat) : Statement (.elementJoin crew sec el) := event rfl

theorem elementFork (crew sec el : Nat) : Statement (.elementFork crew sec el) := event rfl

theorem elementWiden (crew sec el : Nat) : Statement (.elementWiden crew sec el) := event rfl

theorem elementRed (crew sec el : Nat) : Statement (.elementRed crew sec el) := event rfl

theorem elementAcc (crew sec el : Nat) : Statement (.elementAcc crew sec el) := event rfl

theorem elementCnt (crew sec el : Nat) : Statement (.elementCnt crew sec el) := event rfl

theorem elementConst (crew sec el : Nat) : Statement (.elementConst crew sec el) := event rfl

theorem elementPass (crew sec el : Nat) : Statement (.elementPass crew sec el) := event rfl

theorem elementDelay (crew sec el : Nat) : Statement (.elementDelay crew sec el) := event rfl

theorem elementCommit (crew sec el : Nat) : Statement (.elementCommit crew sec el) := event rfl

theorem markerForward (crew sec el : Nat) : Statement (.markerForward crew sec el) := event rfl

theorem alignmentAbort (crew sec : Nat) : Statement (.alignmentAbort crew sec) := event rfl

theorem configurationLoad (crew : Nat) : Statement (.configurationLoad crew) := event rfl

theorem skipToken (crew : Nat) : Statement (.skipToken crew) := event rfl

theorem clusterExceptionDelivery (crew : Nat) : Statement (.clusterExceptionDelivery crew) := event rfl

theorem loadDataArrival (own : Owner) (reg : Nat) : Statement (.loadDataArrival own reg) := event rfl

theorem pinHandleArrival (thread reg : Nat) : Statement (.pinHandleArrival thread reg) := event rfl

theorem hrdMerge (crew h : Nat) : Statement (.hrdMerge crew h) := event rfl

theorem waitcWake (own : Owner) : Statement (.waitcWake own) := event rfl

theorem unpinRelease (handle : Nat) : Statement (.unpinRelease handle) := event rfl

theorem tlbiWake (thread : Nat) : Statement (.tlbiWake thread) := event rfl

theorem epochApply (epid : Nat) : Statement (.epochApply epid) := event rfl

theorem portRequestReplay (source sequence : Nat) (req : PortReq) : Statement (.portRequestReplay source sequence req) := event rfl

theorem startClusterHalf (crew : Nat) : Statement (.startClusterHalf crew) := event rfl

theorem startCoxThread (crew : Nat) : Statement (.startCoxThread crew) := event rfl

theorem crewDispatch (place : Placement) : Statement (.crewDispatch place) := event rfl

theorem crewComplete (crew : Nat) : Statement (.crewComplete crew) := event rfl

theorem completionReport (msg : ReportMsg) : Statement (.completionReport msg) := event rfl

theorem quantumExpiry (cluster : Nat) : Statement (.quantumExpiry cluster) := event rfl

theorem ageing (part index : Nat) : Statement (.ageing part index) := event rfl

theorem preemption (crew : Nat) : Statement (.preemption crew) := event rfl

theorem saveComplete (crew : Nat) : Statement (.saveComplete crew) := event rfl

theorem watchdogExpiry (own : Owner) : Statement (.watchdogExpiry own) := event rfl

theorem ctxCreate (thread descriptor : Nat) : Statement (.ctxCreate thread descriptor) := event rfl

theorem ctxTear (thread context : Nat) : Statement (.ctxTear thread context) := event rfl

theorem crewCmdResume (part handle : Nat) : Statement (.crewCmdResume part handle) := event rfl

theorem crewCmdEnd (part handle : Nat) : Statement (.crewCmdEnd part handle) := event rfl

theorem crewCmdSuspend (part handle : Nat) : Statement (.crewCmdSuspend part handle) := event rfl

theorem qcfgWrite (crew queue value : Nat) : Statement (.qcfgWrite crew queue value) := event rfl

theorem qstatWrite (crew queue value : Nat) : Statement (.qstatWrite crew queue value) := event rfl

theorem launchPortWrite (offset : Nat) (data : List Byte) : Statement (.launchPortWrite offset data) := event rfl

theorem launchAccept (context : Nat) : Statement (.launchAccept context) := event rfl

theorem launchComplete (launch : Nat) : Statement (.launchComplete launch) := event rfl

theorem gangArm (msg : GangMsg) : Statement (.gangArm msg) := event rfl

theorem gangAcknowledge (msg : GangMsg) : Statement (.gangAcknowledge msg) := event rfl

theorem gangArmTimeout (launch : Nat) : Statement (.gangArmTimeout launch) := event rfl

theorem gangCommit (msg : GangMsg) : Statement (.gangCommit msg) := event rfl

theorem gangAbort (msg : GangMsg) : Statement (.gangAbort msg) := event rfl

theorem ready (pkt : Packet) : Statement (.ready pkt) := event rfl

theorem solo (pkt : Packet) : Statement (.solo pkt) := event rfl

theorem coded (pkt : Packet) : Statement (.coded pkt) := event rfl

theorem repe (pkt : Packet) : Statement (.repe pkt) := event rfl

theorem rreq (pkt : Packet) : Statement (.rreq pkt) := event rfl

theorem close (pkt : Packet) : Statement (.close pkt) := event rfl

theorem quit (pkt : Packet) : Statement (.quit pkt) := event rfl

theorem pairingDeadline (shid group : Nat) : Statement (.pairingDeadline shid group) := event rfl

theorem flitRetransmit (port failures : Nat) : Statement (.flitRetransmit port failures) := event rfl

theorem laneWithdrawal (port : Nat) : Statement (.laneWithdrawal port) := event rfl

theorem packageDeclaredFailed (pkg : Nat) : Statement (.packageDeclaredFailed pkg) := event rfl

theorem failureNotification (pkg : Nat) : Statement (.failureNotification pkg) := event rfl

theorem scrubRead (sector : Nat) (found : Upset) : Statement (.scrubRead sector found) := event rfl

theorem hostRead (addr : HostAddr) (len : Nat) : Statement (.hostRead addr len) := event rfl

theorem hostWrite (addr : HostAddr) (data : List Byte) : Statement (.hostWrite addr data) := event rfl

theorem mailboxAssignUnits (part : Nat) (units : List Nat) : Statement (.mailboxAssignUnits part units) := event rfl

theorem mailboxAssignTenant (part tenant : Nat) : Statement (.mailboxAssignTenant part tenant) := event rfl

theorem mailboxRegisterKey (tenant slot : Nat) (key : List Byte) : Statement (.mailboxRegisterKey tenant slot key) := event rfl

theorem mailboxSetCacheQuota (tenant quota : Nat) : Statement (.mailboxSetCacheQuota tenant quota) := event rfl

theorem mailboxSetPowerLimit (watts : Nat) : Statement (.mailboxSetPowerLimit watts) := event rfl

theorem mailboxReadErrorCounters : Statement .mailboxReadErrorCounters := event rfl

theorem mailboxUpdateFirmware (image : FirmwareImage) : Statement (.mailboxUpdateFirmware image) := event rfl

theorem mailboxAttestation (nonce : List Byte) : Statement (.mailboxAttestation nonce) := event rfl

theorem resetRelease (failedStep : Nat) : Statement (.resetRelease failedStep) := event rfl

theorem thermalWarning : Statement .thermalWarning := event rfl

theorem thermalTrip : Statement .thermalTrip := event rfl

theorem arithmeticClockRecovery : Statement .arithmeticClockRecovery := event rfl

end Laws.Encoding

end Sys2Proof
end

