-- ==== Sys2Proof/Tests/Slice0.lean ====
section
/-! SUPPORT. Tests: ill-formed terms, words written out from the spec's encodings, one step on small states, and for every
statement with hypotheses states and operands that meet them. -/

namespace Sys2Proof.Tests

set_option Elab.async false

open Sys2Proof Sys2Proof.Machine

/-! ### Ill-formed terms (R4, R165, R168-R173, R178-R184, R248, R253, R272, R324, R398) -/

/-- Fields of zeros. -/
def r0 : RFmt := { d := 0, a := 0, b := 0, ng := 0, fn := 0, g := 0, ta := 0, tb := 0 }
def i0 : IFmt := { d := 0, a := 0, imm := 0, ta := 0 }
def q0 : QFmt := { reg := 0, q := 0, h := 0, t := 0, rsv := 0, ng := 0, mf := 0, kp := 0, g := 0, tr := 0, rsv0 := 0 }
def m0 : MemFmt := { d := 0, a := 0, sz := 0, sx := 0, off := 0, td := 0, ta := 0 }
def b0 : BFmt := { g := 0, n := 0, lane := 1, disp := 0 }
def v0 : VFmt := { tok := 0, d := 0, mg := 0, rm := 0, fmt := 0, a := 0, b := 0, c := 0 }
def k0 : StrokeFmt := { tok := 0, arr := 0, x := 0, q := 0, f := 0, p := 0, h := 0 }
def l0 : LWFmt := { tok := 0, s := 0, q := 0, d := 0, b := 0 }
def c0 : LaneFmt := { a := 0, b := 0, d := 0, ver := 0, fn := 0, rsv := 0, ta := 0, tb := 0 }
def u0 : UFmt := { d := 0, hw := 0, rsv := 0, imm := 0 }
def p0 : Packet := { pkind := 0x20, sender := 0, dmask := 0, comps := [{ shid := 0, len := 1, src := 0, blk := 0 }], payload := [0] }

theorem test_wf_formats :
    (Instr.nop r0).wf = true ∧ (Instr.add { r0 with d := 32 }).wf = false ∧ (Instr.add { r0 with a := 32 }).wf = false ∧
    (Instr.add { r0 with b := 32 }).wf = false ∧ (Instr.add { r0 with ng := 1 }).wf = false ∧
    (Instr.add { r0 with g := 8 }).wf = false ∧ (Instr.add { r0 with ta := 2 }).wf = false ∧
    (Instr.add { r0 with tb := 2 }).wf = false ∧ (Instr.addi { i0 with imm := 16384 }).wf = false ∧
    (Instr.addi { i0 with d := 32 }).wf = false ∧ (Instr.limm { u0 with hw := 4 }).wf = false ∧
    (Instr.limm { u0 with imm := 65536 }).wf = false ∧ (Instr.br { b0 with disp := 262144 }).wf = false ∧
    (Instr.ld { m0 with off := 1024 }).wf = false ∧ (Instr.qpush { q0 with q := 64 }).wf = false ∧
    (Instr.qpush { q0 with rsv := 1 }).wf = false ∧ (Instr.qpush { q0 with rsv0 := 1 }).wf = false ∧
    (Instr.loop { l := 4, a := 0, ta := 0, elane := 1, len := 0 }).wf = false ∧
    (Instr.loopq { l := 0, q := 64, elane := 1, len := 0 }).wf = false ∧
    (Instr.vadd { v0 with tok := 16 }).wf = false ∧ (Instr.mwait { k0 with arr := 2 }).wf = false ∧
    (Instr.agrun { l0 with d := 16 }).wf = false ∧ (Instr.csig { c0 with ver := 1 }).wf = false ∧
    (Instr.csig { c0 with rsv := 1 }).wf = false := by decide

theorem test_wf_scalar :
    (Instr.add { r0 with fn := 3 }).wf = false ∧ (Instr.neg { r0 with b := 1 }).wf = false ∧
    (Instr.mulh { r0 with fn := 1 }).wf = false ∧ (Instr.clz { r0 with tb := 1 }).wf = false ∧
    (Instr.shli { i0 with imm := 64 }).wf = false ∧
    (Instr.cmpi { kd := 0, cond := 0, a := 0, imm := 0, ta := 0 }).wf = false ∧
    (Instr.cmpi { kd := 1, cond := 10, a := 0, imm := 0, ta := 0 }).wf = false ∧
    (Instr.limm { u0 with rsv := 1 }).wf = false ∧ (Instr.sel { r0 with fn := 8 }).wf = false ∧
    (Instr.cmp { r0 with d := 0 }).wf = false ∧ (Instr.cmp { r0 with d := 1, fn := 10 }).wf = false ∧
    (Instr.pand { r0 with d := 8 }).wf = false ∧ (Instr.pnot { r0 with d := 1, b := 1 }).wf = false ∧
    (Instr.br { b0 with lane := 0 }).wf = false ∧ (Instr.br { b0 with g := 1 }).wf = false ∧
    (Instr.bc { b0 with n := 1 }).wf = false ∧ (Instr.jr { r0 with d := 1 }).wf = false ∧
    (Instr.waitc { r0 with fn := 7 }).wf = false ∧ (Instr.nop { r0 with a := 1 }).wf = false ∧
    (Instr.qpush { q0 with h := 1 }).wf = false ∧ (Instr.qpushm q0).wf = false ∧
    (Instr.qpop { q0 with mf := 1 }).wf = false ∧ (Instr.qpop { q0 with mf := 1, kp := 6 }).wf = false ∧
    (Instr.qpop { q0 with tr := 1 }).wf = false ∧ (Instr.qskip { q0 with reg := 1 }).wf = false ∧
    (Instr.ld { m0 with td := 1 }).wf = false ∧ (Instr.ld { m0 with sz := 3, sx := 1 }).wf = false ∧
    (Instr.st { m0 with sx := 1 }).wf = false ∧ (Instr.ldx { r0 with fn := 1 }).wf = false ∧
    (Instr.ldx { r0 with fn := 14 }).wf = false ∧ (Instr.stx { r0 with fn := 2 }).wf = false ∧
    (Instr.pin { r0 with b := 1 }).wf = false ∧ (Instr.phase { r0 with fn := 7 }).wf = false ∧
    (Instr.loop { l := 0, a := 0, ta := 0, elane := 0, len := 0 }).wf = false ∧
    (Instr.tsrd { i0 with imm := 512 }).wf = false ∧ (Instr.hrd { i0 with imm := 2 }).wf = false ∧
    (Instr.hwr { r0 with d := 16 }).wf = false ∧ (Instr.ctlr { i0 with a := 1 }).wf = false ∧
    (Instr.ctlw { i0 with d := 1 }).wf = false ∧ (Instr.tlbi { r0 with fn := 3 }).wf = false ∧
    (Instr.eret { r0 with g := 1 }).wf = false := by decide

theorem test_wf_streams :
    (Instr.vadd { v0 with fmt := 9 }).wf = false ∧ (Instr.vadd { v0 with rm := 6 }).wf = false ∧
    (Instr.vadd { v0 with fmt := 3, rm := 2 }).wf = false ∧ (Instr.vadd { v0 with a := 2048 }).wf = false ∧
    (Instr.vadd { v0 with c := 32 }).wf = false ∧ (Instr.vadd { v0 with c := 256, d := 1 }).wf = false ∧
    (Instr.vabs { v0 with b := 1 }).wf = false ∧ (Instr.vcmp { v0 with d := 1 }).wf = false ∧
    (Instr.vcmpv { v0 with b := 1 }).wf = false ∧ (Instr.vbcast { v0 with a := 32 }).wf = false ∧
    (Instr.vpop { v0 with a := 64 }).wf = false ∧ (Instr.vcmp { v0 with c := 6 }).wf = false ∧
    (Instr.vcvt { v0 with c := 16 }).wf = false ∧ (Instr.vcvt { v0 with c := 10 }).wf = false ∧
    (Instr.vqnt { v0 with fmt := 9, mg := 1 }).wf = false ∧ (Instr.vtopk v0).wf = false ∧
    (Instr.mlds { k0 with f := 12 }).wf = false ∧ (Instr.mver k0).wf = false ∧ (Instr.mver { k0 with f := 9, h := 1 }).wf = false ∧
    (Instr.mdrain { k0 with p := 6 }).wf = false ∧ (Instr.mswap { k0 with q := 1 }).wf = false ∧
    (Instr.agdef { l0 with q := 1 }).wf = false ∧ (Instr.agmark l0).wf = false ∧ (Instr.agbank { l0 with b := 10 }).wf = false ∧
    (Instr.copy { c0 with fn := 1 }).wf = false ∧ (Instr.csig { c0 with fn := 7 }).wf = false ∧
    (Instr.accwAdd { c0 with fn := 14 }).wf = false ∧ (Instr.accwFmax { c0 with fn := 1 }).wf = false ∧
    (Instr.cefence { c0 with a := 1 }).wf = false := by decide

theorem test_wf_events :
    (Instr.elementAdd 1 64 0).wf = false ∧ (Instr.elementAdd 1 0 4096).wf = false ∧ (Instr.solo p0).wf = true ∧
    (Instr.coded p0).wf = false ∧ (Instr.solo { p0 with payload := [] }).wf = false ∧
    (Instr.solo { p0 with comps := [] }).wf = false ∧ (Instr.solo { p0 with sender := 2 ^ 20 }).wf = false ∧
    (Instr.flitRetransmit 24 1).wf = false ∧ (Instr.mailboxRegisterKey 0 8 []).wf = false ∧
    (Instr.resetRelease 7).wf = false := by decide

/-! ### Words written out from the encodings (R165-R184) -/

/-- One word, or two for V. -/
def word (w : Nat) (w1 : Nat := 0) : Nat → Option Instr := fun nbits => decodeTableWord nbits (w + w1 * 2 ^ 32)

theorem test_words_integer :
    word 0x4031FFFE 0 32 = some (.addi { i0 with d := 3, a := 3, imm := 16383 }) ∧
    word 0x40630002 0 32 = some (.addi { i0 with d := 6, a := 6, imm := 1 }) ∧
    word 0x62440000 0 32 = some (.bc { g := 1, n := 0, lane := 1, disp := 0 }) ∧
    word 0x6C03A040 0 32 = some (.waitc { r0 with a := 7, b := 8, fn := 2 }) := by decide

theorem test_words_memory :
    word 0x80814000 0 32 = some (.ld { m0 with d := 8, a := 2, sz := 2 }) ∧
    word 0x8492A100 0 32 = some (.ldx { r0 with d := 9, a := 5, b := 8, fn := 8 }) ∧
    word 0x7090C000 0 32 = some (.qpush { q0 with reg := 9, q := 3 }) := by decide

theorem test_words_sequencer :
    decodeLane .s 0xA015C000 0 = .ok (.loop { l := 0, a := 5, ta := 0, elane := 7, len := 0 }) ∧
    decodeLane .s 0xA2898000 0 = .ok (.loopq { l := 1, q := 4, elane := 6, len := 0 }) ∧
    word 0xAA020400 0 32 = some (.fcfg { r0 with a := 4, b := 1 }) ∧
    word 0xAC008800 0 32 = some (.farm { r0 with a := 1, b := 2 }) ∧ word 0xAE008000 0 32 = some (.fwait { r0 with a := 1 }) ∧
    word 0xB2000000 0 32 = some (.stop r0) := by decide

theorem test_words_system :
    word 0xC0500106 0 32 = some (.ctlr { i0 with d := 5, imm := 131 }) ∧
    word 0xC4500002 0 32 = some (.featq { i0 with d := 5, imm := 1 }) ∧
    word 0xCC021400 0 32 = some (.tlbi { r0 with a := 4, b := 5 }) := by decide

theorem test_words_streams :
    word 0x01240000 0x00020000 64 = some (.vadd { v0 with tok := 9, d := 256, b := 128 }) ∧
    word 0x06020002 0x00040000 64 = some (.vfma { v0 with d := 128, fmt := 2, b := 256 }) ∧
    word 0x52000000 0x00C00000 64 = some (.vpop { v0 with a := 6 }) ∧
    word 0x58080080 0x20060004 64 = some (.vtopk { v0 with d := 512, mg := 1, a := 256, b := 384, c := 4 }) ∧
    decodeLane .m 0x08043CB5 0 = .ok (.mver { k0 with x := 2, q := 7, f := 9, p := 3, h := 5 }) ∧
    decodeLane .m 0x0E044801 0 = .ok (.mdrainv { k0 with x := 2, q := 9, h := 1 }) := by decide

theorem test_words_engines :
    decodeLane .copy 0x0C600000 0 = .ok (.shuf { c0 with a := 6 }) ∧
    decodeLane .index 0x06600000 0 = .ok (.isect { c0 with a := 6 }) := by decide

theorem test_reserved_words :
    decodeLane .a 0xAA020400 0 = .error .illegal ∧ decodeLane .s 0x80814000 0 = .error .illegal ∧
    decodeLane .copy 0x0C600080 0 = .error .version ∧ decodeLane .index 0xFE000000 0 = .error .version ∧
    decodeLane .l 0x06000000 0 = .ok (.agidx l0) ∧ decodeLane .w 0x06000000 0 = .error .illegal := by decide

/-! ### States the witnesses stand in (log 5) -/

/-- A crew with its thread, on a placed package, and the unit at work. -/
def base : State := placed State.reset (placeLine + 1)
def baseA : State := { base with cur := .thread 0 }
def baseS : State := { base with cur := .seq 0 }
def tA : Owner := .thread 0
def cS : Owner := .crew 1

/-- A register of the owner at work holds a value, or awaits one. -/
def holding (s : State) (w : Owner) (r : Nat) (v : Word) : State := withReg s w r v
def emptied (s : State) (w : Owner) (r : Nat) : State := withPend s w r (.value 7)

/-- What a step answers. -/
def nextOf (x : Out) : State :=
  match x with
  | .next s => s
  | _ => State.reset

/-- The state a meaning completes in; the reset state where it stops. -/
def doneIn {α : Type} (m : M α) (s : State) : State :=
  match m s with
  | .ok _ t => t
  | .error _ _ => State.reset

/-- The value a meaning completes with. -/
def answers {α : Type} (m : M α) (s : State) : Option α :=
  match m s with
  | .ok a _ => some a
  | .error _ _ => none

theorem ok_of_answers {α : Type} {m : M α} {s : State} {a : α} (h : answers m s = some a) : m s = .ok a (doneIn m s) := by
  unfold answers doneIn at *
  split at h <;> rename_i hm
  · rw [hm]
    simp only [Option.some.injEq] at h
    rw [h]
  · cases h

/-- The code line at the base state's pointer holds the lanes given, each one instruction of the owner's scalar stream. -/
def coded (s : State) (line : Nat) (bs : List Byte) : State := { s with mem := s.mem.pokes line bs }

/-! ### Witnesses: integer instructions, guards, empty registers (R161, R166, R167, R189-R202) -/

/-- An instruction of format R issues: it is well formed, its owner is at work, its guard is true, its registers are ready. -/
def issues (i : RFmt → Instr) (o : RFmt) (rs : List Nat) (s : State) (w : Owner) : Bool :=
  (i o).wf && curOwner s == some w && guardOpen s w o.g o.ng && rs.all (regReady s w)

theorem issues_meets {i : RFmt → Instr} {o : RFmt} {rs : List Nat} {s : State} {w : Owner} (h : issues i o rs s w = true) :
    (i o).wf = true ∧ Guarded s w o.g o.ng ∧ RegsReady s w rs := by
  simp only [issues, Bool.and_eq_true, beq_iff_eq, List.all_eq_true] at h
  exact ⟨h.1.1.1, ⟨h.1.1.2, h.1.2⟩, h.2⟩

/-- Registers 6 and 7 hold -9 and 4. -/
def numA : State := holding (holding baseA tA 6 (BitVec.ofInt 64 (-9))) tA 7 4
def numS : State := holding (holding baseS cS 6 (BitVec.ofInt 64 (-9))) cS 7 4
def o567 : RFmt := { r0 with d := 5, a := 6, b := 7 }

theorem witness_arithmetic :
    ([Instr.add, Instr.sub, Instr.mul].all fun i => [0, 1, 2].all fun fn =>
      issues i { o567 with fn := fn } [6, 7, 5] numA tA && issues i { o567 with fn := fn, d := 0 } [6, 7, 0] numS cS) = true ∧
    ([Instr.neg, Instr.abs].all fun i => [0, 1, 2].all fun fn =>
      issues i { o567 with fn := fn, b := 0 } [6, 5] numA tA && issues i { o567 with fn := fn, b := 0 } [6, 5] numS cS) = true := by
  decide +kernel

theorem witness_two_sources :
    ((intTwo.take 23).all fun i => issues i { o567 with g := 0 } [6, 7, 5] numA tA && issues i { o567 with d := 31 } [6, 7, 31] numS cS) =
      true ∧
    (intOne.all fun i => issues i { o567 with b := 0, d := 0 } [6, 0] numA tA && issues i { o567 with b := 0 } [6, 5] numS cS) =
      true := by decide +kernel

/-- Format I, format U and format IC issue. -/
def issuesI (i : Instr) (rs : List Nat) (s : State) (w : Owner) : Bool :=
  i.wf && curOwner s == some w && rs.all (regReady s w)

theorem issuesI_meets {i : Instr} {rs : List Nat} {s : State} {w : Owner} (h : issuesI i rs s w = true) :
    i.wf = true ∧ curOwner s = some w ∧ RegsReady s w rs := by
  simp only [issuesI, Bool.and_eq_true, beq_iff_eq, List.all_eq_true] at h
  exact ⟨h.1.1, h.1.2, h.2⟩

theorem witness_immediates :
    (([.addi, .andi, .ori, .xori] : List (IFmt → Instr)).all fun i => [0, 8191, 8192, 16383].all fun n =>
      issuesI (i { i0 with d := 5, a := 6, imm := n }) [6, 5] numA tA && issuesI (i { i0 with d := 0, a := 0, imm := n }) [0, 0] numS cS) =
      true ∧
    (([.shli, .shri, .sari] : List (IFmt → Instr)).all fun i => [0, 63].all fun n =>
      issuesI (i { i0 with d := 5, a := 6, imm := n }) [6, 5] numA tA) = true ∧
    ([0, 3].all fun h => issuesI (.limm { u0 with d := 5, hw := h, imm := 65535 }) [5] numA tA &&
      issuesI (.limmK { u0 with d := 5, hw := h, imm := 65535 }) [5] numS cS) = true := by decide +kernel

theorem witness_predicates :
    ([0, 9].all fun cc => issues .cmp { o567 with d := 1, fn := cc } [6, 7] numA tA && issues .cmp { o567 with d := 7, fn := cc } [6, 7] numS cS &&
      issuesI (.cmpi { kd := 7, cond := cc, a := 6, imm := 4095, ta := 0 }) [6] numA tA) = true ∧
    (([.pand, .por, .pxor] : List (RFmt → Instr)).all fun i => issues i { r0 with d := 7, a := 0, b := 7 } [] numA tA) = true ∧
    issues .pnot { r0 with d := 1, a := 7 } [] numS cS = true ∧ issues .sel { o567 with fn := 7 } [6, 7, 5] numA tA = true ∧
    issues .ins o567 [6, 7, 5] numS cS = true := by decide +kernel

/-- Guard k1 is false at the base states. -/
theorem witness_guard_false :
    Shut baseA tA 1 0 ∧ Shut baseS cS 0 1 ∧ (Instr.add { r0 with g := 1 }).wf = true ∧ (Instr.qpush { q0 with g := 1 }).wf = true ∧
    (Instr.qpushm { q0 with g := 1, h := 1 }).wf = true ∧ (Instr.bc { b0 with g := 1 }).wf = true := by
  unfold Shut
  decide +kernel

theorem witness_empty_registers :
    ([0, 1].all fun t => issues .add { o567 with ta := t } [7, 5] (emptied numA tA 6) tA && !regReady (emptied numA tA 6) tA 6) = true ∧
    ([0, 1].all fun t => issues .sub { o567 with tb := t } [6, 5] (emptied numS cS 7) cS && !regReady (emptied numS cS 7) cS 7) = true ∧
    (issues .xor o567 [6, 7] (emptied numA tA 5) tA && !regReady (emptied numA tA 5) tA 5) = true ∧
    (issues .clz { o567 with b := 0 } [6] (emptied numA tA 5) tA && !regReady (emptied numA tA 5) tA 5) = true := by decide +kernel

theorem witness_empty_immediates :
    (intImm.all fun i => [0, 1].all fun t =>
      issuesI (i { i0 with d := 5, a := 6, ta := t }) [5] (emptied numA tA 6) tA && !regReady (emptied numA tA 6) tA 6) = true ∧
    (intImm.all fun i => issuesI (i { i0 with d := 5, a := 6 }) [6] (emptied numS cS 5) cS && !regReady (emptied numS cS 5) cS 5) =
      true ∧
    ([0, 1].all fun t => issuesI (.cmpi { kd := 7, cond := 9, a := 6, imm := 1, ta := t }) [] (emptied numA tA 6) tA) = true ∧
    ([Instr.limm, Instr.limmK].all fun i => issuesI (i { u0 with d := 5, hw := 3 }) [] (emptied numA tA 5) tA &&
      !regReady (emptied numA tA 5) tA 5) = true := by decide +kernel

theorem test_add_saturates :
    ((nextOf (exec (.add { o567 with fn := 1 }) (holding numA tA 7 0x8000000000000000))).thread 0).sc.reg 5 = 0x8000000000000000 ∧
    ((nextOf (exec (.sub { o567 with fn := 2 }) (holding numA tA 6 3))).thread 0).sc.reg 5 = 0 := by decide +kernel

theorem test_shift_count_64 :
    ((nextOf (exec (.shl o567) (holding numA tA 7 64))).thread 0).sc.reg 5 = 0 ∧
    ((nextOf (exec (.sar o567) (holding numA tA 7 64))).thread 0).sc.reg 5 = BitVec.allOnes 64 := by decide +kernel

theorem test_division_by_zero :
    ((nextOf (exec (.div o567) (holding numA tA 7 0))).thread 0).sc.reg 5 = BitVec.allOnes 64 ∧
    ((nextOf (exec (.rem o567) (holding numA tA 7 0))).thread 0).sc.reg 5 = BitVec.ofInt 64 (-9) := by decide +kernel

/-- A crew whose loops 1 and 2 end at its present lane: loop 2, started later, with `n` passes left, and loop 1 with three. -/
def looping (n : Nat) : State :=
  let k := baseS.crew 1
  let r (born count start : Nat) : LoopRec := { active := true, born := born, depth := k.sc.depth, cnt := BitVec.ofNat 64 count
                                                start := BitVec.ofNat 64 start, stop := k.sc.pc }
  baseS.setCrew 1 { k with loops := [(1, r 4 3 0x8001), (2, r 5 n 0x8002)] }

theorem latest_of_all {k : Crew} {n i : Nat} {l : LoopRec} (h : (i, l) ∈ k.loops) (e : EndsHere k n l)
    (b : (k.loops.all fun e => e.1 == i || decide (e.2.born < l.born)) = true) : LatestEnding k n i l := by
  refine ⟨h, e, fun j m hm _ hj => ?_⟩
  have := List.all_eq_true.mp b _ hm
  simpa [hj] using this

theorem witness_loops_end :
    ∀ n ∈ [0, 1, 2], (((looping n).crew 1).loops.sorted = true) ∧ ∃ l, LatestEnding ((looping n).crew 1) 1 2 l ∧
      l.cnt.toNat = n := by
  intro n hn
  simp only [List.mem_cons, List.not_mem_nil, or_false] at hn
  rcases hn with rfl | rfl | rfl <;>
    exact ⟨by decide +kernel, _, latest_of_all (.tail _ (.head _)) (by unfold EndsHere; decide +kernel) (by decide +kernel), by decide +kernel⟩

theorem witness_no_loop : ∀ i l, (i, l) ∈ (baseS.crew 1).loops → ¬EndsHere (baseS.crew 1) 1 l := by
  intro i l h
  exact absurd h (by rw [show (baseS.crew 1).loops = [] by decide +kernel]; exact List.not_mem_nil)

theorem test_inner_loop_first :
    ((advance (looping 2) (.crew 1) 1).crew 1).sc.pc = 0x8002 ∧ ((advance (looping 1) (.crew 1) 1).crew 1).sc.pc = 0x8001 ∧
    (((advance (looping 1) (.crew 1) 1).crew 1).loops.find? 1).map (·.cnt) = some 2 := by decide +kernel

/-! ### Witnesses: transfers, loops, waits (R117, R121, R162, R210, R217-R223, R232-R235, R243) -/

/-- A line of seven NOPs, each with BT, and ENTRY set. -/
def nops (cox : Bool) : List Byte :=
  leBytes 4 (0x99999998 + if cox then 0 else 1) ++ (List.replicate 7 (leBytes 4 0x6E000000)).flatten

/-- The base states with NOPs at the pointer. -/
def codeA : State := coded baseA placeLine (nops true)
def codeS : State := coded baseS placeLine (nops false)

theorem witness_transfers :
    issuesI (.br { b0 with lane := 7 }) [] codeA tA = true ∧
    answers (targetOk tA (bTarget (codeA.scalar tA).pc { b0 with lane := 7 }).toNat false) codeA = some true ∧
    issuesI (.br { b0 with lane := 7 }) [] baseS cS = true ∧
    answers (targetOk cS (bTarget (baseS.scalar cS).pc { b0 with lane := 7 }).toNat false) baseS = some false ∧
    (Instr.bc b0).wf = true ∧ guardOpen codeS cS 0 0 = true ∧
    answers (targetOk cS (bTarget (codeS.scalar cS).pc b0).toNat false) codeS = some true ∧
    answers (targetOk tA (bTarget (baseA.scalar tA).pc b0).toNat false) baseA = some false := by decide +kernel

/-- A lane with BT fetched for its check, and one that cannot be. -/
theorem witness_targets :
    ptrOk 0x10008 = false ∧ ptrOk 0x10007 = true ∧ answers (fetchLine tA 0x10000) codeA = some (nops true) ∧
    answers (fetchLine cS 0x10000) codeS = some (nops false) ∧ ptrOk 0x8001 = true ∧
    (match fetchLine cS 0x8000 codeS with
      | .error (.trap e) _ => e.cause == 16
      | _ => false) = true ∧
    ptrOk 0x400000001 = true ∧
    (match fetchLine tA 0x400000000 codeA with
      | .error (.trap e) _ => e.cause == 5
      | _ => false) = true := by decide +kernel

theorem witness_jumps :
    issues .jr { r0 with a := 6 } [6] (holding codeA tA 6 0x10001) tA = true ∧
    answers (targetOk tA 0x10001 false) (holding codeA tA 6 0x10001) = some true ∧
    issues .jr { r0 with a := 6 } [6] (holding codeA tA 6 0x10008) tA = true ∧
    answers (targetOk tA 0x10008 false) (holding codeA tA 6 0x10008) = some false := by decide +kernel

/-- A thread or crew at a call depth. -/
def atDepth (s : State) (w : Owner) (d : BitVec 32) : State := s.setScalar w { s.scalar w with depth := d }

theorem witness_calls :
    issuesI (.call b0) [31] codeA tA = true ∧ (codeA.scalar tA).depth ≠ BitVec.allOnes 32 ∧
    answers (targetOk tA (bTarget (codeA.scalar tA).pc b0).toNat true) codeA = some true ∧
    answers (targetOk tA (bTarget (baseA.scalar tA).pc b0).toNat true) baseA = some false ∧
    issuesI (.call b0) [31] (atDepth codeS cS (BitVec.allOnes 32)) cS = true ∧
    ((atDepth codeS cS (BitVec.allOnes 32)).scalar cS).depth = BitVec.allOnes 32 ∧
    issues .callr { r0 with a := 6 } [6, 31] (holding codeS cS 6 0x10001) cS = true ∧
    answers (targetOk cS 0x10001 true) (holding codeS cS 6 0x10001) = some true ∧
    issues .callr { r0 with a := 6 } [6, 31] (holding codeS cS 6 0) cS = true ∧
    answers (targetOk cS 0 true) (holding codeS cS 6 0) = some false ∧
    issues .callr { r0 with a := 6 } [6, 31] (atDepth codeA tA (BitVec.allOnes 32)) tA = true := by decide +kernel

/-- Thread 1, bound to no crew. -/
def freeA : State := { baseA.setThread 1 { mode := .ready, level := 1, ctx := 1, sc := { pc := 0x10001 } } with cur := .thread 1 }
def tF : Owner := .thread 1

theorem witness_returns :
    issues .ret { r0 with a := 31 } [31] (holding (atDepth baseA tA 1) tA 31 0x10007) tA = true ∧ ptrOk 0x10007 = true ∧
    issues .ret { r0 with a := 31 } [31] (holding (atDepth baseS cS 1) cS 31 0x10008) cS = true ∧ ptrOk 0x10008 = false ∧
    issues .ret { r0 with a := 31 } [31] baseA tA = true ∧ (baseA.thread 0).crew = some 1 ∧ (baseA.scalar tA).depth = 0 ∧
    issues .ret { r0 with a := 31 } [31] freeA tF = true ∧ (freeA.thread 1).crew = none ∧
    issues .ret { r0 with a := 31 } [31] baseS cS = true ∧ (baseS.scalar cS).depth = 0 := by decide +kernel

/-- A queue of words open between two endpoints. -/
def wordQueue (prod cons depth : Nat) : Queue := { cfg := BitVec.ofNat 32 (2 ^ 31 + prod * 2 ^ 24 + cons * 2 ^ 20 + (depth - 1)) }

def queued (s : State) (q : Nat) (v : Queue) : State := s.setCrew 1 { s.crew 1 with queues := (s.crew 1).queues.put q v {} }

def entry (n : Nat) : QEntry := { data := leBytes 8 n, t := true }

/-- S may pop queue 4, which holds the count 3. -/
def countS : State := queued codeS 4 { wordQueue 0 1 4 with entries := [entry 3] }

theorem witness_loop :
    issuesI (.loop { l := 3, a := 6, ta := 0, elane := 7, len := 0 }) [6] (holding codeS cS 6 3) cS = true ∧
    (answers (firstLane cS 2 0x10002 0x10007) (holding codeS cS 6 3)).map (·.map (·.1)) = some (some 0x10002) ∧
    answers (fetchLine cS 0x10000) (doneIn (firstLane cS 2 0x10002 0x10007) (holding codeS cS 6 3)) = some (nops false) ∧
    (Line.ofBytes (nops false)).wf false 0x10000 = true ∧ (Line.ofBytes (nops false)).bt 2 = true ∧
    (Line.ofBytes (nops false)).sid 7 ≠ 0 := by decide +kernel

theorem witness_loopq :
    issuesI (.loopq { l := 3, q := 4, elane := 2, len := 0 }) [] countS cS = true ∧
    answers (popQueue 1 4 1 0 false) countS = some (entry 3) ∧
    (answers (firstLane cS 2 0x10002 0x10002) (doneIn (popQueue 1 4 1 0 false) countS)).map (·.map (·.1)) = some (some 0x10002) ∧
    answers (fetchLine cS 0x10000) (doneIn (firstLane cS 2 0x10002 0x10002) (doneIn (popQueue 1 4 1 0 false) countS)) =
      some (nops false) := by decide +kernel

theorem test_loop_counts :
    (((nextOf (exec (.loop { l := 3, a := 6, ta := 0, elane := 7, len := 0 }) (holding codeS cS 6 3))).crew 1).loops.find? 3).map (·.cnt) =
      some 3 ∧
    ((nextOf (exec (.loop { l := 3, a := 6, ta := 0, elane := 7, len := 0 }) codeS)).crew 1).sc.pc = 0x10021 := by decide +kernel

theorem test_call_links :
    ((nextOf (exec (.call b0) codeA)).thread 0).sc.reg 31 = 0x10002 ∧ ((nextOf (exec (.call b0) codeA)).thread 0).sc.depth = 1 := by
  decide +kernel

theorem witness_waits :
    issues .stop r0 [] baseS cS = true ∧ issues .phase { r0 with fn := 6 } [] baseA tA = true ∧ gangHolds baseA (.thread 0) = false ∧
    issues .waitc { r0 with a := 6, b := 7, fn := 6 } [6, 7] (holding baseA tA 6 0x30004) tA = true ∧
    issues .waitc { r0 with a := 6, b := 7 } [6, 7] (holding (holding baseA tA 6 0x30000) tA 7 1) tA = true ∧
    answers (counterAddr tA 0x30000) (holding (holding baseA tA 6 0x30000) tA 7 1) = some 0x30000 ∧
    answers (readPort 0x30000 8) (doneIn (counterAddr tA 0x30000) (holding (holding baseA tA 6 0x30000) tA 7 1)) =
      some (some (List.replicate 8 0)) := by decide +kernel

/-- The crew's pins let its cluster half reach the first 64 KiB page after its code. -/
def pinned (s : State) : State :=
  { s with pins := s.pins ++ [{ handle := 40, owner := .crew 1, ctx := 1, ranges := [(0x30000, 0x10000)], w := true
                                leaves := [{ va := 0, size := 2 ^ 34, pa := 0, mem := 0, w := true, x := true, u := true }] }] }

theorem witness_cluster_wait :
    issues .waitc { r0 with a := 6, b := 7 } [6, 7] (holding (pinned baseS) cS 6 0x30000) cS = true ∧
    answers (counterAddr cS 0x30000) (holding (pinned baseS) cS 6 0x30000) = some 0x30000 ∧
    answers (readPort 0x30000 8) (doneIn (counterAddr cS 0x30000) (holding (pinned baseS) cS 6 0x30000)) =
      some (some (List.replicate 8 0)) := by decide +kernel

theorem witness_hints :
    issuesI (.nop r0) [] baseA tA = true ∧ issuesI (.nop r0) [] baseS cS = true ∧ issuesI (.yield r0) [] baseA tA = true ∧
    issuesI (.pref m0) [0] baseA tA = true := by decide +kernel

/-! ### Witnesses: queues (R136-R144, R150, R156, R224-R228) -/

/-- The thread may push queue 3, with room for one entry more, and pop queue 5, which holds two entries. -/
def queA : State :=
  queued (queued baseA 3 { wordQueue 0 2 2 with entries := [entry 1] }) 5
    { wordQueue 2 0 4 with entries := [{ entry 9 with h := true, t := false }, entry 8] }
def queS : State :=
  queued (queued baseS 3 { wordQueue 1 2 2 with entries := [entry 1] }) 5 { wordQueue 2 1 4 with entries := [entry 9, entry 8] }

/-- A queue instruction issues. -/
def issuesQ (i : QFmt → Instr) (o : QFmt) (s : State) (w : Owner) : Bool :=
  (i o).wf && curOwner s == some w && guardOpen s w o.g o.ng && regReady s w o.reg && crewOf s w == some 1

theorem issuesQ_meets {i : QFmt → Instr} {o : QFmt} {s : State} {w : Owner} (h : issuesQ i o s w = true) :
    (i o).wf = true ∧ Guarded s w o.g o.ng ∧ RegsReady s w [o.reg] ∧ crewOf s w = some 1 := by
  simp only [issuesQ, Bool.and_eq_true, beq_iff_eq] at h
  exact ⟨h.1.1.1.1, ⟨h.1.1.1.2, h.1.1.2⟩, by simpa [RegsReady] using h.1.2, h.2⟩

/-- An open queue takes a push, or a pop, of words at an endpoint. -/
def takes (v : Queue) (ep : Nat) (push : Bool) : Bool := (queueRefuses v ep 0 push).isNone

theorem witness_pushes :
    (issuesQ .qpush { q0 with reg := 6, q := 3 } queA tA && takes (queueOf queA 1 3) 0 true && !(queueOf queA 1 3).isFull &&
      !(queueOf queA 1 3).skip && !(queueOf queA 1 3).whole) = true ∧
    (issuesQ .qpushm { q0 with reg := 6, q := 3, h := 1, t := 1 } queS cS && takes (queueOf queS 1 3) 1 true &&
      !(queueOf queS 1 3).isFull && !(queueOf queS 1 3).skip && !(queueOf queS 1 3).whole) = true := by decide +kernel

theorem witness_pops :
    (issuesQ .qpop { q0 with reg := 6, q := 5, mf := 1, kp := 5 } queA tA && takes (queueOf queA 1 5) 0 false &&
      (queA.thread 0).lossDue.isNone) = true ∧
    (issuesQ .qpop { q0 with reg := 6, q := 5 } queS cS && takes (queueOf queS 1 5) 1 false) = true ∧
    (queueOf queA 1 5).entries = [{ entry 9 with h := true, t := false }, entry 8] ∧
    issuesQ .qpeek { q0 with reg := 0, q := 5, mf := 1, kp := 1 } queA tA = true := by decide +kernel

/-- Queue 3 full, queue 5 empty; queue 6 is full and traps; queue 7 is the branch queue, empty. -/
def tightA : State :=
  queued (queued (queued (queued baseA 3 { wordQueue 0 2 1 with entries := [entry 1] }) 5 (wordQueue 2 0 1)) 6
    { cfg := (wordQueue 0 2 1).cfg ||| 0x40000#32, entries := [entry 1] }) 7 { cfg := (wordQueue 1 0 1).cfg ||| 0x10000000#32 }

theorem witness_stalls :
    (issuesQ .qpush { q0 with reg := 6, q := 3 } tightA tA && takes (queueOf tightA 1 3) 0 true && (queueOf tightA 1 3).isFull &&
      !(queueOf tightA 1 3).skip && !(queueOf tightA 1 3).trapF) = true ∧
    (takes (queueOf tightA 1 6) 0 true && (queueOf tightA 1 6).isFull && (queueOf tightA 1 6).trapF) = true ∧
    (issuesQ .qpop { q0 with reg := 6, q := 5 } tightA tA && takes (queueOf tightA 1 5) 0 false && !(queueOf tightA 1 5).skip &&
      !(queueOf tightA 1 5).trapE && !(queueOf tightA 1 5).brq) = true ∧ (queueOf tightA 1 5).entries = [] ∧
    (takes (queueOf tightA 1 7) 0 false && (queueOf tightA 1 7).brq) = true ∧ (queueOf tightA 1 7).entries = [] ∧
    (tightA.thread 0).lossDue = none := by decide +kernel

theorem witness_refused_queues :
    queueRefuses (queueOf baseA 1 3) 0 0 true = some 10 ∧ queueRefuses { lost := true } 0 0 true = some 13 ∧
    (wordQueue 0 2 1).isOpen = true ∧ queueRefuses (wordQueue 0 2 1) 1 0 true = some 10 ∧
    ((Instr.qpush { q0 with reg := 6, q := 3 }).wf && guardOpen freeA tF 0 0) = true ∧ curOwner freeA = some tF := by decide +kernel

/-- The branch queue 7 of a depth with `n` entries, and the skip tokens that have reached it. -/
def brqS (depth n : Nat) (toks : List (Word × Bool)) : State :=
  let s := queued baseS 7 { cfg := (wordQueue 1 0 depth).cfg ||| 0x10000000#32, entries := List.replicate n (entry 1) }
  s.setCrew 1 { s.crew 1 with skipToks := toks }

theorem witness_branch_pushes :
    ([brqS 2 1 [], brqS 1 1 [(5, false)], brqS 2 0 [(5, false)], brqS 2 1 [(5, true)]].all fun s =>
      issuesQ .qpush { q0 with reg := 6, q := 7 } s cS && takes (queueOf s 1 7) 1 true && (queueOf s 1 7).brq &&
        !(queueOf s 1 7).trapF) = true ∧
    ((enterTokens (queueOf (brqS 1 1 [(5, false)]) 1 7) [(5, false)]).2.any fun x => !x.2) = true ∧
    (let r := enterTokens (queueOf (brqS 2 0 [(5, false)]) 1 7) [(5, false)]
     r.2 == [] && !r.1.isFull) = true ∧
    (let r := enterTokens (queueOf (brqS 2 1 [(5, true)]) 1 7) [(5, true)]
     r.2 == [(5, true)] && !r.1.isFull) = true := by decide +kernel

/-- Queue 5 as it is given. -/
def asQ5 (v : Queue) : State := queued baseA 5 v

theorem witness_empty_queues :
    ([(wordQueue 2 0 1).cfg ||| 0x80000#32, (wordQueue 2 0 1).cfg].all fun cfg => [false, true].all fun skip =>
      let s := asQ5 { cfg := cfg, skip := skip }
      issuesQ .qpop { q0 with reg := 6, q := 5 } s tA && issuesQ .qpeek { q0 with reg := 6, q := 5 } s tA && takes (queueOf s 1 5) 0 false &&
        (queueOf s 1 5).entries == [] && !(queueOf s 1 5).brq && (queueOf s 1 5).trapE == cfg.getLsbD 19 && (s.thread 0).lossDue.isNone) =
      true ∧
    (let s := asQ5 { cfg := (wordQueue 1 0 1).cfg ||| 0x10080000#32 }
     takes (queueOf s 1 5) 0 false && (queueOf s 1 5).brq && (queueOf s 1 5).trapE && (queueOf s 1 5).entries == [] &&
       issuesQ .qpeek { q0 with reg := 6, q := 5 } s tA) = true := by decide +kernel

theorem witness_queue_refusals :
    ([({} : Queue), { lost := true }, wordQueue 1 2 4].all fun v =>
      let s := asQ5 v
      let n := if v.lost then 13 else 10
      issuesQ .qpush { q0 with reg := 6, q := 5 } s tA && issuesQ .qpushm { q0 with reg := 6, q := 5, h := 1 } s tA &&
        issuesQ .qpop { q0 with reg := 6, q := 5 } s tA && issuesQ .qpeek { q0 with reg := 6, q := 5 } s tA &&
        issuesQ .qskip { q0 with q := 5 } s tA && queueRefuses (queueOf s 1 5) 0 0 true == some n &&
        queueRefuses (queueOf s 1 5) 0 0 false == some n) = true ∧
    ([Instr.qpush { q0 with q := 5 }, .qpushm { q0 with q := 5, h := 1 }, .qpop { q0 with q := 5 }, .qpeek { q0 with q := 5 },
      .qskip { q0 with q := 5 }].all fun i => i.wf && guardOpen freeA tF 0 0) = true ∧ (freeA.thread 1).crew = none := by decide +kernel

theorem test_skip_to_tail :
    let v : Queue := { wordQueue 2 0 4 with entries := [{ entry 9 with t := false }, entry 8, entry 7], disc := 0xFFFE }
    v.skipTail.entries = [entry 7] ∧ v.skipTail.disc = 0xFFFF ∧ v.skipTail.skip = false ∧
    ({ v with entries := [{ entry 9 with t := false }] } : Queue).skipTail.skip = true := by decide +kernel

theorem witness_skip_stat_close :
    (issuesQ .qskip { q0 with q := 5 } queA tA && issuesQ .qstat { q0 with reg := 6, q := 5 } queA tA &&
      (Instr.qstat { q0 with reg := 6, q := 5 }).wf && guardOpen freeA tF 0 0 && regReady freeA tF 6) = true ∧
    (issuesQ .qclose { q0 with reg := 6, q := 5 } (holding queA tA 6 1) tA &&
      crewByHandle (holding queA tA 6 1) (regVal (holding queA tA 6 1) tA 6).toNat == some 1) = true ∧
    ((holding queA tA 6 1).thread 0).level ≠ 0 ∧ ((holding queA tA 6 1).crew 1).stage ≠ .gone := by decide +kernel

/-- The thread at level 0. -/
def lowA : State := baseA.setThread 0 { baseA.thread 0 with level := 0 }

theorem witness_close_low :
    issuesQ .qclose { q0 with reg := 6, q := 5 } lowA tA = true ∧ (lowA.thread 0).level = 0 := by decide +kernel

theorem test_close_leaves_poison :
    let v : Queue := { wordQueue 2 0 4 with entries := [entry 8], mid := true }
    v.closed.entries.map (·.p) = [true] ∧ v.closed.disc = 1 ∧ v.closed.lost = true ∧ v.closed.isOpen = false := by decide +kernel

/-! ### Witnesses: addresses, loads, stores, phases (R83, R84, R105-R132, R164, R203-R211) -/

/-- Registers 6 and 7 address a line whose first bytes are written. -/
def memA : State :=
  holding (holding { baseA with mem := baseA.mem.pokes 0x40000 [0x80#8, 1#8, 2#8, 0xFF#8, 4#8, 5#8, 6#8, 0xFE#8] } tA 6 0x40000) tA 7 1

theorem witness_loads :
    issuesI (.ld { m0 with d := 5, a := 6, sz := 3, off := 0 }) [6, 5] memA tA = true ∧
    answers (dataAddr 0 (formM memA 0 { m0 with d := 5, a := 6, sz := 3 }) 3 false) memA = some 0x40000 ∧
    answers (readPhys (.thread 0) 0x40000 8) (doneIn (dataAddr 0 0x40000 3 false) memA) =
      some (some [0x80#8, 1#8, 2#8, 0xFF#8, 4#8, 5#8, 6#8, 0xFE#8]) ∧
    issues .ldx { r0 with d := 0, a := 6, b := 7, fn := 6 } [6, 7, 0] memA tA = true ∧
    answers (dataAddr 0 (formX memA 0 { r0 with d := 0, a := 6, b := 7, fn := 6 }) 1 false) memA = some 0x40002 ∧
    answers (readPhys (.thread 0) 0x40002 2) (doneIn (dataAddr 0 0x40002 1 false) memA) = some (some [2#8, 0xFF#8]) := by
  decide +kernel

theorem witness_stores :
    issuesI (.st { m0 with d := 7, a := 6, sz := 2, off := 1023 }) [6, 7] memA tA = true ∧
    answers (dataAddr 0 (formM memA 0 { m0 with d := 7, a := 6, sz := 2, off := 1023 }) 2 true) memA = some 0x3FFFC ∧
    issues .stx { r0 with d := 0, a := 6, b := 7, fn := 12 } [6, 7, 0] memA tA = true ∧
    answers (dataAddr 0 (formX memA 0 { r0 with d := 0, a := 6, b := 7, fn := 12 }) 3 true) memA = some 0x40008 := by decide +kernel

theorem witness_misaligned :
    issuesI (.ld { m0 with d := 5, a := 7, sz := 3 }) [7, 5] memA tA = true ∧ (formM memA 0 { m0 with a := 7, sz := 3 }).toNat % 2 ^ 3 ≠ 0 ∧
    issuesI (.st { m0 with d := 5, a := 7, sz := 1 }) [7, 5] memA tA = true ∧ (formM memA 0 { m0 with a := 7, sz := 1 }).toNat % 2 ^ 1 ≠ 0 ∧
    issues .ldx { r0 with a := 7, b := 0, fn := 8 } [7, 0, 0] memA tA = true ∧ (formX memA 0 { r0 with a := 7, fn := 8 }).toNat % 2 ^ 2 ≠ 0 ∧
    issues .stx { r0 with a := 7, b := 0, fn := 4 } [7, 0, 0] memA tA = true ∧ (formX memA 0 { r0 with a := 7, fn := 4 }).toNat % 2 ^ 1 ≠ 0 := by
  decide +kernel

/-- A descriptor table at 0x50000 whose entry 2 is a DENSE f32 tensor of 64 by 64 elements at 0x60000, or one of another
control word. -/
def descBytes (ctl : Nat) (str : Nat := 8) (side : Nat := 0) : List Byte :=
  leBytes 8 0x60000 ++ leBytes 8 0 ++ leBytes 8 side ++ leBytes 8 0 ++ leBytes 4 64 ++ leBytes 4 64 ++ leBytes 8 0 ++ leBytes 4 str ++ leBytes 8 0 ++ leBytes 4 ctl

def tidA (ctl : Nat) (str : Nat := 8) (side : Nat := 0) : State :=
  let s := { baseA with mem := baseA.mem.pokes (0x50000 + 128) (descBytes ctl str side) }
  holding (s.setContext 1 { s.context 1 with tidTable := 0x50000 }) tA 6 2

theorem witness_tadr :
    issues .tadr { r0 with d := 5, a := 6, b := 7 } [6, 7, 5] (holding baseA tA 6 4096) tA = true ∧
    issues .tadr { r0 with d := 5, a := 6, b := 7 } [6, 7, 5] (holding (tidA 0x80A40000) tA 7 0x00010007) tA = true ∧
    (answers (tidOrTrap 1 2 (some 1) (.thread 0)) (tidA 0x80A40000)).map (fun d => (d.kind, d.inGrid 7 1 0 0, d.inGrid 8 0 0 0)) =
      some (0, true, false) ∧
    issues .madr { r0 with d := 5, a := 6, b := 7, fn := 15 } [6, 7, 5] numA tA = true := by decide +kernel

theorem witness_tadr_kind :
    (answers (tidOrTrap 1 2 (some 1) (.thread 0)) (tidA 0x98A40000 0)).map (fun d => d.kind) = some 3 := by decide +kernel

theorem test_tadr_address :
    ((nextOf (exec (.tadr { r0 with d := 5, a := 6, b := 7 }) (holding (tidA 0x80A40000) tA 7 0x00010007))).thread 0).sc.reg 5 =
      0x60000 + 1024 * 15 := by decide +kernel

/-! ### Witnesses: releases, pins, translations, arrivals (R111-R115, R164, R167, R206, R213-R216, R238, R461-R463) -/

/-- The thread has stored a byte and not released it. -/
def storedA : State := nextOf (exec (.st { m0 with d := 7, a := 6, sz := 0 }) memA)

/-- It has released it at cluster scope, and the cluster half of its crew has acquired it. -/
def releasedA : State := release storedA (.thread 0) 2
def acquiredA : State := acquire releasedA (.half 1) 2

theorem witness_release :
    ((storedA.view (.thread 0)).pend.map (·.cells.length)) = [1] ∧ storedA.mem.log = [] ∧ gangHolds storedA (.thread 0) = false ∧
    releasedA.mem.log.length = 1 ∧ (releasedA.mem.log.all fun w => (releasedA.view (.thread 0)).made.contains w.id) = true := by
  decide +kernel

theorem witness_acquire :
    (releasedA.mem.log.all fun w => w.pubs.any fun p => p.covers releasedA (.half 1) &&
      reach (clampScope (placeOf releasedA (.half 1)) 2) (placeOf releasedA (.half 1)) (p.place releasedA)) = true ∧
    (releasedA.crews.find? 1).any onUnit = true ∧ 1 < releasedA.nextId ∧
    (acquiredA.mem.log.all fun w => (acquiredA.view (.half 1)).gained.contains w.id && (w.cells.find? 0x40000).isSome) = true ∧
    (acquiredA.view (.half 1)).snap = [] ∧
    (acquiredA.mem.log.all fun w => !issuedAfter (acquiredA.view (.half 1)) (.half 1) w) = true ∧ answers (chooseSnap (.half 1) (0x40000 / 1024)) acquiredA = some () := by
  decide +kernel

theorem test_acquire_shows_the_write :
    byteSeen (doneIn (chooseSnap (.half 1) (0x40000 / 1024)) acquiredA) (.half 1) 0x40000 = 1 ∧
    byteSeen (doneIn (chooseSnap (.half 1) (0x40000 / 1024)) releasedA) (.thread 0) 0x40000 = 1 := by decide +kernel

theorem witness_ifence : issuesI (.ifence r0) [] codeA tA = true := by decide +kernel

/-- A footprint record of TID 0's tiles 0x100 to 0x101 at 0x42000, or of the tensor of `tidA`. -/
def footBytes (tid lo hi : Nat) : List Byte :=
  leBytes 2 tid ++ leBytes 2 1 ++ leBytes 4 0 ++ leBytes 4 lo ++ leBytes 12 0 ++ leBytes 4 hi ++ leBytes 12 0 ++ leBytes 24 0

def footA (tid lo hi : Nat) : State :=
  let s := tidA 0x80A40000
  holding { s with mem := s.mem.pokes 0x42000 (footBytes tid lo hi) } tA 6 0x42000

theorem witness_pin :
    issues .pin { r0 with d := 5, a := 6 } [6, 5] (footA 2 0 7) tA = true ∧
    (answers (readFootprint 0 0x42000) (footA 2 0 7)).map (fun x => (x.1.tid, x.1.w, x.1.ranges x.2)) =
      some (2, true, [(0x60000, 8192)]) ∧
    pinOwnerOf (footA 2 0 7) 0 = .crew 1 ∧
    ((doneIn (readFootprint 0 0x42000) (footA 2 0 7)).pins.filter fun p => p.owner == .crew 1) = [] ∧ 0 < pinLimit (.crew 1) ∧
    (answers (pinLeaves 0 true [(0x60000, 8192)] (descRange (footA 2 0 7) 1 2))
      (doneIn (readFootprint 0 0x42000) (footA 2 0 7))).map (fun x => (x.1.length, x.2.length)) = some (1, 1) := by decide +kernel

theorem witness_pin_misaligned :
    issues .pin { r0 with d := 5, a := 6 } [6, 5] (holding baseA tA 6 0x42020) tA = true ∧
    (regVal (holding baseA tA 6 0x42020) tA 6).toNat % 64 ≠ 0 := by decide +kernel

/-- The crew holds pin 40, revoked or not. -/
def pinA (revoked : Bool) : State :=
  let s := pinned baseA
  holding { s with pins := s.pins.map fun p => if p.handle = 40 then { p with revoked := revoked } else p } tA 6 40

theorem witness_unpin :
    ([true, false].all fun b => issues .unpin { r0 with a := 6 } [6] (pinA b) tA &&
      ((pinA b).pins.find? fun q => q.owner == pinOwnerOf (pinA b) 0 && q.handle == (regVal (pinA b) tA 6).toNat &&
        q.leaving.isNone).map (·.revoked) == some b) = true ∧
    issues .unpin { r0 with a := 6 } [6] (holding (pinned baseA) tA 6 41) tA = true ∧
    ((holding (pinned baseA) tA 6 41).pins.all fun q => !(q.owner == .crew 1 && q.handle == 41)) = true := by decide +kernel

/-- A TLB holds a translation of the page at 2^34 in context 1. -/
def tlbA : State :=
  { baseA with tlb := [(3, [{ ctx := 1, leaf := { va := 0x400000000, size := 65536, pa := 0x30000, mem := 0, w := true, x := false, u := true } }])] }

theorem witness_tlbi :
    issues .tlbi { r0 with a := 6, b := 7 } [6, 7] (holding tlbA tA 6 0x400000008) tA = true ∧
    ((holding tlbA tA 6 0x400000008).thread 0).level = 2 ∧ ((holding tlbA tA 6 0x400000008).contexts.find? 1).isSome = true ∧
    (removeTranslations (release (holding tlbA tA 6 0x400000008) (.thread 0) 4) 0 0 1 0x400000008 false).2 = [] ∧
    issues .tlbi { r0 with a := 6, b := 7 } [6, 7] (holding lowA tA 6 0) tA = true ∧ (lowA.thread 0).level = 0 ∧
    3 / 4 ∈ (tlbA.partition (tlbA.context (tlbA.thread 0).ctx).part).units ∧
    ((tlbA.tlb.getD 3 []).all fun e => e.ctx == 1 && e.leaf.holds 0x400000008) = true := by decide +kernel

theorem witness_tlbi_waits :
    (removeTranslations (release (holding (pinned baseA) tA 6 0x30008) (.thread 0) 4) 0 0 1 0x30008 true).2 = [0] ∧
    issues .tlbi { r0 with a := 6, b := 7 } [6, 7] (holding (holding (pinned baseA) tA 6 0x30008) tA 7 65536) tA = true := by
  decide +kernel

/-- The thread waits in TLBI for pin 40. -/
def tlbiA (revoked : Bool) : State := (pinA revoked).setThread 0 { (pinA revoked).thread 0 with mode := .tlbi [40] }

theorem witness_tlbi_wake :
    ((tlbiA true).thread 0).mode = .tlbi [40] ∧ ((tlbiA true).pins.all fun p => p.handle != 40 || p.revoked) = true ∧
    ((tlbiA false).pins.any fun p => p.handle == 40 && !p.revoked) = true := by decide +kernel

/-- A threshold word waits to be merged; a counter has reached what the thread waits for. -/
def hrdS (v : BitVec 32) : State := baseS.setCrew 1 { baseS.crew 1 with hrds := [(3, some v)] }
def waitA : State := baseA.setThread 0 { baseA.thread 0 with mode := .waitc 0x30000 0 2 0x30000 }
def waitS : State := baseS.setCrew 1 { baseS.crew 1 with smode := .waitc 0x30000 1 2 0x30000 0 }

theorem witness_arrivals :
    ((emptied baseA tA 31).scalar tA).pend.find? 31 = some (.value 7) ∧ ((emptied baseS cS 0).scalar cS).pend.find? 0 = some (.value 7) ∧
    ((withPend baseA tA 5 (.pin 9)).thread 0).sc.pend.find? 5 = some (.pin 9) ∧
    (((hrdS 0x7FC00000).crew 1).hrds.find? fun r => r.1 == 3) = some (3, some 0x7FC00000) ∧
    FFmt.f32.isNaN (0x7FC00000#32).toNat = true ∧ FFmt.f32.isNaN (0x3F800000#32).toNat = false ∧
    parkedAt waitA tA = some (0x30000, 0, 2, 0x30000) ∧ answers (readPort 0x30000 8) waitA = some (some (List.replicate 8 0)) ∧
    parkedAt (pinned waitS) cS = some (0x30000, 1, 2, 0x30000) ∧
    (match waitedAt (pinned waitS) cS 0x30000 0x30000, waitedAt waitA tA 0x30000 0x30000 with
      | .ok p, .ok q => p == 0x30000 && q == 0x30000 | _, _ => false) = true ∧
    answers (readPort 0x30000 8) (pinned waitS) = some (some (List.replicate 8 0)) ∧
    ([tA, tA].zip [1, 31]).all (fun (w, r) => !ownerAway baseA w &&
      ((withPend baseA w r (.load { va := 8, pa := 8, n := 8, signed := false, level := 1, upto := 3, v := 7 })).scalar w).pend.find? r ==
        some (.load { va := 8, pa := 8, n := 8, signed := false, level := 1, upto := 3, v := 7 })) = true := by decide +kernel

theorem test_hrd_merge :
    ((nextOf (exec (.hrdMerge 1 3) (hrdS 0x3F800000))).crew 1).thr 3 = 0x3F800000 ∧
    ((nextOf (exec (.hrdMerge 1 3) (hrdS 0x7FC00000))).crew 1).thr 3 = 0xFF800000 := by decide +kernel

theorem test_arrival_fills :
    ((nextOf (exec (.loadDataArrival tA 31) (emptied baseA tA 31))).scalar tA).isFull 31 = true ∧
    ((nextOf (exec (.loadDataArrival tA 31) (emptied baseA tA 31))).scalar tA).reg 31 = 7 := by decide +kernel

/-! ### Witnesses: exceptions, returns, control (R134-R142, R179, R236-R242, R352, R358, R436, R437, R443-R446, R481) -/

/-- EXC_VEC of context 1 names the lane after the thread's, which is a good target. -/
def vecOf (s : State) : State := s.setContext 1 { s.context 1 with excVec := 0x10002 }
def excA : State := vecOf codeA
def handledA (cluster : Bool) : State :=
  excA.setThread 0 (enteredThread (excA.thread 0) (recordAddr excA 0 cluster) cluster)

/-- Step 3 of an entry: the record is written. -/
def recordA (cluster : Bool) : M Unit :=
  writeParts (.thread 0) [(0x1000000 + (if cluster then 0x180 else 0x100), 128)]
    (recordBytes (excA.thread 0) (handleOf (excA.crew 1)) { stream := 0, exc := { cause := 25 }, pc := 0, resume := 0 }
      (if cluster then (excA.thread 0).sc.pc else 0))

theorem witness_exception :
    ([false, true].all fun cluster => answers (recordParts 0 (recordAddr excA 0 cluster) 128 true) excA ==
        some (some [(0x1000000 + (if cluster then 0x180 else 0x100), 128)]) &&
      answers (recordA cluster) (handledA cluster) == some () &&
      answers (targetOk (.thread 0) 0x10002 true) (doneIn (recordA cluster) (handledA cluster)) == some true) = true ∧
    doneIn (recordParts 0 (recordAddr excA 0 false) 128 true) excA = excA ∧ (excA.thread 0).inexc = false ∧
    (excA.context (excA.thread 0).ctx).excVec = 0x10002 ∧ ([28, 29, 30, 31].all (excA.thread 0).sc.isFull) = true ∧
    (baseA.context (baseA.thread 0).ctx).excVec = 0 ∧ ((handledA false).thread 0).inexc = true := by decide +kernel

theorem witness_calls_of_the_system :
    ((Instr.bkpt { i0 with imm := 16383 }).wf && (Instr.sysc { i0 with imm := 16383 }).wf) = true ∧
    curOwner excA = some (.thread 0) ∧ curOwner baseS = some (.crew 1) := by decide +kernel

/-- The thread has taken exception 25 of immediate 7, or a cluster exception; SKIP may be set in the record. -/
def tookA (cluster skip : Bool) (d : BitVec 32 := 0) : State :=
  let p : Posted := { stream := if cluster then 3 else 0, exc := { cause := 25, info := 7 }, pc := 0x10001, resume := 0x10003, after := true }
  let s := doneIn (takeException 0 p cluster) (atDepth excA tA d)
  let s := s.setCrew 1 { s.crew 1 with handling := if cluster then some p else none, smode := if cluster then .faulted else .running }
  if skip then doneIn (writeParts (.thread 0) [(recordAddr s 0 cluster + 2, 1)] [11#8]) s else s

theorem witness_return :
    ([(false, false), (false, true), (true, false), (true, true)].all fun x =>
      issuesI (.eret r0) [] (tookA x.1 x.2) tA && decide (1 ≤ ((tookA x.1 x.2).thread 0).level.toNat) && ((tookA x.1 x.2).thread 0).inexc &&
      (answers (readRecord 0) (tookA x.1 x.2)).map (fun b => (bits (fieldAt b 2 2) 3 2, fieldAt b 0x10 8, fieldAt b 0x30 8, bit (fieldAt b 2 2) 0)) ==
        some (2, 0x10003, if x.1 then 0x10001 else 0, x.2) && ((tookA x.1 x.2).thread 0).recCluster == x.1) = true := by decide +kernel

/-- A return to a pointer that is no code pointer. -/
def lostA : State := doneIn (writeParts (.thread 0) [(recordAddr excA 0 false + 16, 1)] [8#8]) (tookA false false)

theorem witness_return_lost :
    (answers (readRecord 0) lostA).map (fun b => ptrOk (fieldAt b 0x10 8)) = some false ∧ issuesI (.eret r0) [] lostA tA = true ∧
    (lostA.thread 0).recCluster = false ∧ bits (fieldAt (leBytes 4 0x00020000) 2 2) 3 2 < 3 := by decide +kernel

theorem test_record_holds_the_cause :
    (answers (readRecord 0) (tookA false false)).map (fun b => (fieldAt b 0 1, fieldAt b 2 2, fieldAt b 8 8, fieldAt b 0x20 8)) =
      some (25, 10, 0x10001, 7) := by decide +kernel

/-- DBG_CTL lets a halted crew be suspended. -/
def debugA : State := baseA.setContext 1 { baseA.context 1 with dbgCtl := true }

theorem witness_halt :
    issuesI (.halt r0) [] freeA tF = true ∧ (freeA.thread 1).crew = none ∧ 1 ≤ (freeA.thread 1).level.toNat ∧
    issuesI (.halt r0) [] debugA tA = true ∧ (debugA.context (debugA.crew 1).ctx).dbgCtl = true ∧ (debugA.thread 0).crew = some 1 ∧
    issuesI (.halt r0) [] baseA tA = true ∧ (baseA.context (baseA.crew 1).ctx).dbgCtl = false ∧ (baseA.crew 1).thread = 0 ∧
    (baseA.crew 1).stage ≠ .gone ∧ 1 ≤ (baseA.thread 0).level.toNat := by decide +kernel

theorem witness_privileged :
    issuesI (.eret r0) [] lowA tA = true ∧ (lowA.thread 0).level = 0 ∧ issuesI (.eret r0) [] baseA tA = true ∧
    (baseA.thread 0).level ≠ 0 ∧ (baseA.thread 0).inexc = false ∧ issuesI (.halt r0) [] lowA tA = true := by decide +kernel

/-- Two cluster exceptions stand posted. -/
def postedA : State :=
  let p : Posted := { stream := 3, exc := { cause := 21, info := 4 }, pc := 0x10001, resume := 0x10001 }
  excA.setCrew 1 { excA.crew 1 with posted := [p, { p with stream := 2 }] }

theorem witness_delivery :
    canDeliver postedA 0 1 = true ∧ (postedA.crew 1).posted.length = 2 ∧
    (answers (takeException 0 ((postedA.crew 1).posted.headD default) true) postedA).isSome = true ∧
    ((doneIn (takeException 0 ((postedA.crew 1).posted.headD default) true) postedA).crew 1).stage = .resident ∧
    ((doneIn (takeException 0 ((postedA.crew 1).posted.headD default) true) postedA).thread 0).inexc = true ∧
    canDeliver baseA 0 1 = false := by decide +kernel

/-- TSF entry 5 of array 1 holds 0x123; a drain to entry 6 is queued. -/
def tsfS : State :=
  let k := baseS.crew 1
  baseS.setCrew 1 { k with
    strokes := [(1, { tsf := [(5, 0x123)] })]
    mq := [{ name := 9, instr := .mdrain { k0 with x := 0, q := 3, arr := 1 }, pc := 0x10001, sidx := 6 }] }

theorem witness_status :
    issuesI (.tsrd { i0 with d := 5, imm := 256 + 5 }) [5] tsfS cS = true ∧ issuesI (.tsrd { i0 with d := 5, imm := 256 + 6 }) [5] tsfS cS = true ∧
    drainsTo (tsfS.crew 1) 1 5 = false ∧ drainsTo (tsfS.crew 1) 1 6 = true ∧
    issuesI (.hrd { i0 with d := 15, a := 6, imm := 4 }) [6] (holding (pinned baseS) cS 6 0x30000) cS = true ∧
    answers (readPinned (.half 1) (crewPins 1) 0x30004 4) (holding (pinned baseS) cS 6 0x30000) = some (.ok [0, 0, 0, 0]) ∧
    (match answers (readPinned (.half 1) (crewPins 1) 0x30004 4) (holding baseS cS 6 0x30000) with
      | some (.error .footprint) => true | _ => false) = true ∧
    issuesI (.hrd { i0 with d := 0, a := 6, imm := 0 }) [6] (holding baseS cS 6 2) cS = true ∧
    issues .hwr { r0 with d := 15, a := 6 } [6] (holding baseS cS 6 0x3F800000) cS = true := by decide +kernel

theorem test_hwr_does_not_fall :
    ((nextOf (exec (.hwr { r0 with d := 3, a := 6 }) (hrdS 0 |> fun s => holding (s.setCrew 1 { s.crew 1 with h := [(3, 0x40000000)] }) cS 6 0x3F800000))).crew 1).thr 3 =
      0x40000000 := by decide +kernel

/-- An image of a source of queue 4 that feeds a sink to queue 3, and the section it makes, a tile begun or not. -/
def sweepImage : List Byte :=
  leBytes 4 1 ++ leBytes 4 96 ++ leBytes 8 0x00000001_02010000 ++ leBytes 8 0 ++ leBytes 40 0 ++
  leBytes 8 0 ++ leBytes 4 (4 * 2 ^ 19 + 1 + 3 * 64) ++ leBytes 4 0 ++ leBytes 8 0x8000 ++ leBytes 4 (3 * 2 ^ 19 + 2 + 3 * 64) ++ leBytes 4 0
def sweepA (armed begun : Nat) : Section :=
  { image := sweepImage, armed := armed, elems := if begun = 0 then [] else [(0, { begun := begun })] }

/-- Section 0 is loaded; it may have tiles armed. -/
def fabS (z : Section) : State :=
  let s := queued (queued baseS 4 (wordQueue 0 8 4)) 3 (wordQueue 8 0 4)
  holding (s.setCrew 1 { s.crew 1 with sections := [(0, z)] }) cS 7 4

theorem witness_fabric_control :
    issues .farm { r0 with a := 6, b := 7 } [6, 7] (fabS (sweepA 0 0)) cS = true ∧
    issues .fwait { r0 with a := 6 } [6] (fabS (sweepA 2 0)) cS = true ∧
    issues .fcommit { r0 with a := 6 } [6] (fabS (sweepA 2 1)) cS = true ∧ ((fabS (sweepA 0 0)).crew 1).sectionCount = 1 ∧
    (sweepA 2 1).hasWork = true ∧ (sweepA 2 0).hasWork = false ∧
    issues .fcfg { r0 with a := 6, b := 5 } [6, 5] (holding (fabS (sweepA 0 0)) cS 6 64) cS = true ∧
    (regVal (holding (fabS (sweepA 0 0)) cS 6 64) cS 5).toNat = 0 ∧ ((fabS (sweepA 0 0)).crew 1).loading = none ∧
    issues .farm { r0 with a := 6, b := 7 } [6, 7] (holding (fabS (sweepA 0 0)) cS 6 1) cS = true := by decide +kernel

/-- Nothing is loaded in section 0; the loader has answered an FCFG with reason 5. -/
def bareS : State := baseS.setCrew 1 { baseS.crew 1 with sections := [] }
def answeredS (n : Nat) : State :=
  let s := holding (fabS (sweepA 0 0)) cS 6 64
  s.setCrew 1 { s.crew 1 with loading := some { ptr := 64, sec := 0, answer := some n } }

/-- An FCOMMIT of section 0 has asked for marker 2, which is committed or not. -/
def askedS (committed : Nat) : State := fabS { sweepA 2 1 with wanted := some 2, committed := committed }

theorem witness_fabric_waits :
    ([1, 2].all fun n => issues .fcommit { r0 with a := 6 } [6] (askedS n) cS &&
      (((askedS n).crew 1).sections.find? 0).map (fun z => (z.wanted, z.committed)) == some (some 2, n)) = true ∧
    ([none, some 0, some 7].all fun n =>
      let s := holding (holding (fabS (sweepA 0 0)) cS 6 0x18000) cS 5 0
      let s := s.setCrew 1 { s.crew 1 with loading := some { ptr := 0x18000, sec := 0, answer := n } }
      issues .fcfg { r0 with a := 6, b := 5 } [6, 5] s cS && decide ((regVal s cS 6).toNat = 0x18000)) = true := by decide +kernel

theorem witness_fabric_faults :
    ((bareS.crew 1).sections.find? 0).isNone = true ∧
    ([.fwait, .fcommit].all fun i => issues i { r0 with a := 6 } [6] bareS cS && issues i { r0 with a := 6 } [6] (holding bareS cS 6 1) cS) =
      true ∧
    issues .farm { r0 with a := 6, b := 7 } [6, 7] bareS cS = true ∧
    issues .farm { r0 with a := 6, b := 7 } [6, 7] (holding (fabS (sweepA 1 0)) cS 7 0xFFFFFFFF) cS = true ∧
    2 ^ 32 ≤ (sweepA 1 0).armed - (sweepA 1 0).committed + 0xFFFFFFFF ∧
    ([0, 5].all fun n => issues .fcfg { r0 with a := 6, b := 5 } [6, 5] (answeredS n) cS &&
      ((answeredS n).crew 1).loading == some { ptr := 64, sec := 0, answer := some n }) = true ∧
    ([(16, 0), (64, 64), (64, 1)].all fun (p, n) =>
      issues .fcfg { r0 with a := 6, b := 5 } [6, 5] (holding (holding bareS cS 6 (BitVec.ofNat 64 p)) cS 5 (BitVec.ofNat 64 n)) cS) =
      true := by decide +kernel

/-- Lines of kind 2 that carry an image. -/
def imageLinesOf : List Byte → Nat → List Byte
  | _, 0 => []
  | bs, n + 1 => leBytes 4 2 ++ ((bs ++ List.replicate 28 0).take 28) ++ imageLinesOf (bs.drop 28) n

/-- An FCFG waits: for an image, or at an address where no image is. -/
def loadS (s : State) : State := s.setCrew 1 { s.crew 1 with loading := some { ptr := 0x18000, sec := 0 } }
def imageS : State :=
  let s := fabS (sweepA 0 0)
  loadS { s with mem := s.mem.pokes 0x18000 (imageLinesOf sweepImage 4) }

theorem witness_loading :
    (imageS.crew 1).loading = some { ptr := 0x18000, sec := 0 } ∧ (imageS.crew 1).stage = .resident ∧
    (answers (readImage 1 0x18000) imageS).map (·.map (·.take 96)) = some (some sweepImage) ∧
    (match answers (imageReasons 1 0 { image := sweepImage ++ List.replicate 16 0 }) (doneIn (readImage 1 0x18000) imageS) with
      | some (.ok []) => true | _ => false) = true ∧
    floorsFit (doneIn (imageReasons 1 0 { image := sweepImage ++ List.replicate 16 0 }) (doneIn (readImage 1 0x18000) imageS)) 1 0
      { image := sweepImage ++ List.replicate 16 0 } = true ∧
    answers (readImage 1 0x18000) (loadS baseS) = some none := by decide +kernel

/-- An image whose sink names a queue that is not open. -/
def badImage : List Byte := (sweepImage.take 88) ++ leBytes 4 (9 * 2 ^ 19 + 2 + 3 * 64) ++ leBytes 4 0 ++ List.replicate 16 0

theorem witness_load_refused :
    (answers (readImage 1 0x18000) { imageS with mem := imageS.mem.pokes 0x18000 (imageLinesOf badImage 4) }) = some (some badImage) ∧
    (match answers (imageReasons 1 0 { image := badImage }) imageS with
      | some (.ok l) => !l.isEmpty | _ => false) = true := by decide +kernel

/-- A V instruction stands handed over. -/
def vWaits : State := baseS.setCrew 1 { baseS.crew 1 with vq := [{ name := 9, instr := .vadd v0, pc := 0x10001 }] }

theorem witness_control_reads :
    ([0x000, 0x001, 0x003, 0x004, 0x006, 0x008, 0x009, 0x00A, 0x00C, 0x00E, 0x040, 0x07F, 0x080, 0x0BF].all fun n =>
      issuesI (.ctlr { i0 with d := 5, imm := n }) [5] baseA tA && issuesI (.ctlr { i0 with d := 5, imm := n }) [5] baseS cS &&
      (crewRegister baseA 1 n).isSome) = true ∧ crewOf baseA tA = some 1 ∧ crewOf baseS cS = some 1 ∧
    ([0x00D, 0x101, 0x102, 0x103, 0x104, 0x105, 0x107, 0x108, 0x109, 0x10A, 0x10C, 0x10D, 0x10E, 0x110, 0x111].all fun n =>
      issuesI (.ctlr { i0 with d := 5, imm := n }) [5] lowA tA && (contextRegister (lowA.context (ctxOf lowA tA)) 1 n).isSome) = true ∧
    levelOf lowA tA = 0 ∧ levelOf baseA tA = 2 ∧
    ([0x100, 0x106, 0x201].all fun n => issuesI (.ctlr { i0 with d := 5, imm := n }) [5] baseA tA &&
      (threadRegister (baseA.thread 0) n).isSome) = true ∧
    issuesI (.ctlr { i0 with d := 5, imm := 4 }) [5] freeA tF = true ∧ (freeA.thread 1).crew = none ∧
    (baseS.crew 1).vq = [] ∧ (((vWaits.crew 1).vq == []) = false) ∧ issuesI (.ctlr { i0 with d := 5, imm := 0 }) [5] vWaits cS = true ∧
    ([0, 5, 6].all fun n => issuesI (.featq { i0 with d := 5, imm := n }) [5] baseS cS) = true := by decide +kernel

theorem witness_control_writes :
    ([0x00B, 0x00D, 0x103, 0x104, 0x105, 0x108, 0x109, 0x10A, 0x10B, 0x10C, 0x10E, 0x111].all fun n =>
      (contextWritable n).isSome && issuesI (.ctlw { i0 with a := 6, imm := n }) [6] lowA tA &&
        issuesI (.ctlw { i0 with a := 6, imm := n }) [6] baseA tA) = true ∧
    ([0x200, 0x202, 0x203].all fun n => issuesI (.ctlw { i0 with a := 6, imm := n }) [6] lowA tA &&
      issuesI (.ctlw { i0 with a := 6, imm := n }) [6] baseA tA && (answers (partitionWrite 0 n 0) baseA).isSome) = true ∧
    stillThere lowA tA = true ∧ stillThere baseA tA = true ∧ stillThere baseS cS = true ∧
    ([0x000, 0x001, 0x002, 0x003, 0x004, 0x005, 0x006, 0x008, 0x009, 0x00A, 0x00C, 0x040, 0x07F, 0x080].all fun n =>
      (crewWritable n).isSome && issuesI (.ctlw { i0 with a := 6, imm := n }) [6] baseS cS &&
        issuesI (.ctlw { i0 with a := 6, imm := n }) [6] baseA tA) = true := by decide +kernel

theorem witness_queue_configuration :
    (queueOf queA 1 3).isOpen = true ∧ (queueOf queA 1 9).isOpen = false ∧ (queA.crew 1).stage ≠ .gone ∧
    (let cfg := BitVec.ofNat 32 0x80200003 &&& 0xFFFEFFFF#32
     cfg.getLsbD 31 && qcfgOk cfg && !cfg.getLsbD 28 && decide (qcfgBytes cfg ≤ queueRoom queA 0)) = true ∧
    (let cfg := BitVec.ofNat 32 0x80220003 &&& 0xFFFEFFFF#32
     cfg.getLsbD 31 && !qcfgOk cfg) = true := by decide +kernel

/-- An open branch queue stands; three queues hold most of the cluster's room. -/
def crowdedA : State := queued (queued tightA 8 { cfg := 0x80200000#32 + 16383#32 }) 9 { cfg := 0x80200000#32 + 16382#32 }

theorem witness_queue_refused :
    ((tightA.crew 1).queues.any fun e => e.1 != 11 && e.2.isOpen && e.2.brq) = true ∧ (queueOf tightA 1 11).isOpen = false ∧
    (let cfg := BitVec.ofNat 32 0x91000000 &&& 0xFFFEFFFF#32
     cfg.getLsbD 31 && cfg.getLsbD 28 && qcfgOk cfg && (queueOf queA 1 11).isOpen == false &&
       (queA.crew 1).queues.all (fun e => !(e.2.isOpen && e.2.brq)) && decide (qcfgBytes cfg ≤ queueRoom queA 0)) = true ∧
    (let cfg := BitVec.ofNat 32 0x80200003 &&& 0xFFFEFFFF#32
     qcfgOk cfg && decide (queueRoom crowdedA 0 < qcfgBytes cfg) && !(queueOf crowdedA 1 11).isOpen) = true ∧
    ((BitVec.ofNat 32 3).getLsbD 31) = false ∧ ((baseS.crew 1).vq = [] → (baseS.crew 1).vwrites = []) := by decide +kernel

theorem test_qcfg_opens :
    (queueOf (nextOf (exec (.qcfgWrite 1 9 0x80200003) queA)) 1 9).isOpen = true ∧
    (queueOf (nextOf (exec (.qcfgWrite 1 9 0x80220003) queA)) 1 9).isOpen = false := by decide +kernel

/-! ### Witnesses: the V stream (R19-R24, R146-R148, R171, R245-R268) -/

/-- The head of a V queue. -/
def vEntry (i : Instr) (sval : Word := 0) (vnf : Option Nat := none) (vctl : BitVec 32 := 0x20) : Entry :=
  { name := 9, instr := i, pc := 0x10001, sval := sval, sidx := 3, vctl := vctl, seed := 5, vnf := vnf, vnfTid := 77 }

/-- Rows 0 to 3 of register 0 hold f32 numbers, and codes of every kind stand among them; mask 1 is on in part. -/
def vecS (e : Entry) : State :=
  let f (i : Nat) : Nat := [0x3F800000, 0xC0000000, 0x40490FDB, 0x7F800000, 0x7FC00001, 0x00000001, 0x80000000, 0x447A8123].getD (i % 8) 0
  let k := baseS.crew 1
  { baseS.setCrew 1 { k with
      m := (List.range 128).map fun i => (i, BitVec.ofNat 32 (f (i * 5 + i / 32)))
      w := [(1, 0xF0F0FFFF)], vq := [e], rndCtr := 6 } with cur := .vec 0 }

/-- The queue's head can run. -/
def performs (st tok : Nat) (s : State) (c : Nat) (e : Entry) : Bool :=
  streamHead s s.cur == some (c, st, e) && !e.finished && e.pushed == 0 &&
  (e.popped || (tokenFifos st tok).1.all fun f => tokenCount (s.crew c) f != 0) &&
  (tokenFifos st tok).2.all (fun f => decide (tokenCount (s.crew c) f < 8)) && (s.crew c).vwrites.all fun w => w.1 != e.name

theorem performs_meets {st tok : Nat} {s : State} {c : Nat} {e : Entry} (h : performs st tok s c e = true) : Performs st tok s c e := by
  simp only [performs, Bool.and_eq_true, beq_iff_eq, Bool.or_eq_true, List.all_eq_true, bne_iff_ne, decide_eq_true_eq,
    Bool.not_eq_true'] at h
  exact ⟨h.1.1.1.1.1, h.1.1.1.1.2, h.1.1.1.2, h.1.1.2, h.1.2, h.2⟩

/-- Row 5 of register 0, from rows 0 and 3, in the lanes of mask 1. -/
def vO : VFmt := { v0 with d := 5, a := 0, b := 3, mg := 1 }

/-- A V instruction may run, without tokens and with them. -/
def runsV (i : VFmt → Instr) (o : VFmt) : Bool :=
  (i o).wf && performs 2 o.tok (vecS (vEntry (i o))) 1 (vEntry (i o))

theorem witness_vector_arithmetic :
    (([.vadd, .vsub, .vmul] : List (VFmt → Instr)).all fun i => [0, 1, 2, 3, 8].all fun f => runsV i { vO with fmt := f }) = true ∧
    (([.vadd, .vsub, .vmul, .vfma, .vfms, .vfnma, .vexp2, .vlog2] : List (VFmt → Instr)).all fun i => [1, 4, 5].all fun r =>
      (i { vO with rm := r, b := 0 }).wf) = true ∧
    (([.vfma, .vfms, .vfnma, .vmin, .vmax, .vcps] : List (VFmt → Instr)).all fun i => [0, 2].all fun f => runsV i { vO with fmt := f }) =
      true ∧
    (([.vabs, .vneg, .vrcpe, .vrsqe, .vexp2, .vlog2, .vclass] : List (VFmt → Instr)).all fun i => runsV i { vO with b := 0 }) = true ∧
    (runsV .vmin { vO with fmt := 4 } && runsV .vabs { vO with b := 0, fmt := 3 }) = true := by decide +kernel

theorem witness_mode_legal : ModeLegal vO (vEntry (.vadd vO)) := by
  unfold ModeLegal
  decide +kernel

/-- A product that is inexact traps where VCTL enables it. -/
theorem witness_vector_trap :
    performs 2 0 (vecS (vEntry (.vfma vO) 0 none 0x3F)) 1 (vEntry (.vfma vO) 0 none 0x3F) = true ∧
    gather ((List.range 32).map (lanewise (vecS (vEntry (.vfma vO) 0 none 0x3F)) 1 (vEntry (.vfma vO) 0 none 0x3F) vO 0
      (elemArith (fun f m r a b d => fmaF f m r false false a b d) (fun a _ => a) vO))) &&& 0x3F ≠ 0 ∧
    gather ((List.range 32).map (lanewise (vecS (vEntry (.vmin vO))) 1 (vEntry (.vmin vO)) vO 0
      (elemArith (fun f _ _ a b _ => ordinary f [a, b] (fminmax f false a b)) min vO))) &&& 0x20 = 0 := by
  decide +kernel

theorem witness_vector_bits :
    (([.vand, .vor, .vxor, .vselv, .vperm] : List (VFmt → Instr)).all fun i => runsV i vO) = true ∧ runsV .vmov { vO with b := 0, fmt := 8 } = true ∧
    (([.vshl, .vshr, .vsar] : List (VFmt → Instr)).all fun i => [3, 5, 8].all fun f => [0, 31].all fun n => runsV i { vO with b := 0, fmt := f, c := n }) =
      true ∧
    (([.vpopc, .vclz] : List (VFmt → Instr)).all fun i => runsV i { vO with b := 0, fmt := 3 }) = true ∧ runsV .vsel { vO with c := 1 } = true ∧
    (runsV .vbcast { vO with a := 6, b := 0 } && runsV .vset { vO with a := 6, b := 0, c := 31, mg := 0 }) = true := by decide +kernel

theorem witness_vector_masks :
    ([0, 5].all fun cc => runsV .vcmp { vO with d := 256, c := cc } && runsV .vcmpv { vO with d := 896, b := 128, c := cc }) = true ∧
    (runsV .vmand { v0 with d := 256, a := 128, b := 0 } && runsV .vmor { v0 with d := 128, a := 128, b := 896 } &&
      runsV .vmnot { v0 with d := 0, a := 128 }) = true := by decide +kernel

/-- The narrow format of 8 bits, a sign, 4 exponent bits of bias 7 and one NaN code. -/
def narrowDesc : Nat := 0x981D

theorem witness_vector_conversions :
    ([(0, 1), (1, 0), (2, 0), (0, 3), (3, 0), (0, 17), (5, 0)].all fun x => runsV .vcvt { vO with b := 0, fmt := x.1, c := x.2 }) = true ∧
    (let o : VFmt := { v0 with d := 5, a := 0, b := 2, fmt := 9 }
     let e (i : Instr) := vEntry i 0 (some narrowDesc)
     (Instr.vqnt o).wf && (Instr.vdqnt o).wf && performs 2 0 (vecS (e (.vqnt o))) 1 (e (.vqnt o)) &&
       performs 2 0 (vecS (e (.vdqnt o))) 1 (e (.vdqnt o)) && runsV .vqnt o && runsV .vdqnt o) = true := by decide +kernel

theorem witness_vector_from_narrow :
    (let o : VFmt := { vO with b := 0, c := 9 }
     let e (n : Option Nat) (a : Option Nat) : Entry := { vEntry (.vcvt o) 0 n with vnfAt := a }
     (Instr.vcvt o).wf && [e (some narrowDesc) none, e none none, e none (some 0x50080)].all fun x => performs 2 0 (vecS x) 1 x) = true ∧
    (let o : VFmt := { v0 with d := 5, a := 0, b := 2, fmt := 9 }
     let e : Entry := { vEntry (.vqnt o) with vnfAt := some 0x50080 }
     performs 2 0 (vecS e) 1 e) = true := by decide +kernel

theorem witness_vector_reductions :
    (([.vred, .vscan] : List (VFmt → Instr)).all fun i => [0, 1, 2].all fun op => [0, 3, 8].all fun f => runsV i { vO with b := 0, c := op, fmt := f }) =
      true ∧
    (runsV .vdot vO && runsV .vdot { vO with fmt := 4 } && runsV .vminx { vO with b := 0 } && runsV .vmaxx { vO with b := 0, fmt := 5 }) = true ∧
    runsV .vtopk { vO with d := 64 * 2 + 5, c := 5 } = true ∧
    (((List.range 5).map (listEntry (vecS (vEntry (.vtopk { vO with d := 133, c := 5 }))) 1 { reg := 1, dir := 0, idx := 5 })).all
      fun x => !FFmt.f32.isNaN x.1) = true ∧ selectExtreme (.int 8 true) 1 [(1, 0xFF), (2, 0x7F)] = (0xFF, 1, 0) := by decide +kernel

/-- V may pop queue 5 and push queue 3. -/
def vqS (i : VFmt → Instr) (o : VFmt) (p : Bool) : State :=
  queued (queued (vecS (vEntry (i o))) 5 { wordQueue 4 2 4 with entries := [{ entry 9 with p := p }] }) 3 (wordQueue 2 4 2)

theorem witness_vector_queues :
    ([false, true].all fun p => runsV .vpop { v0 with d := 5, a := 5 } &&
      performs 2 0 (vqS .vpop { v0 with d := 5, a := 5 } p) 1 (vEntry (.vpop { v0 with d := 5, a := 5 }))) = true ∧
    queueRefuses (queueOf (vqS .vpop { v0 with d := 5, a := 5 } true) 1 5) 2 0 false = none ∧
    (Instr.vpush { v0 with d := 3, a := 1, c := 3 }).wf = true ∧
    performs 2 0 (vqS .vpush { v0 with d := 3, a := 1, c := 3 } false) 1 (vEntry (.vpush { v0 with d := 3, a := 1, c := 3 })) = true ∧
    queueRefuses (queueOf (vqS .vpush { v0 with d := 3, a := 1, c := 3 } false) 1 3) 2 0 true = none ∧
    (queueOf (vqS .vpush { v0 with d := 3, a := 1, c := 3 } false) 1 3).isFull = false ∧
    runsV .vget { v0 with d := 5, a := 1, c := 31 } = true := by decide +kernel

/-! ### Witnesses: handover and tokens (R19, R20, R55, R146-R148, R167, R170, R171, R238, R282, R285) -/

/-- S hands over to a stream. -/
def hands (i : Instr) (st : Nat) (rs : List Nat) (s : State) : Bool :=
  i.wf && curOwner s == some (.crew 1) && decide ((streamQueue (s.crew 1) st).length < 16) && rs.all (regReady s cS)

theorem hands_meets {i : Instr} {st : Nat} {rs : List Nat} {s : State} (h : hands i st rs s = true) :
    i.wf = true ∧ Hands st s 1 ∧ RegsReady s cS rs := by
  simp only [hands, Bool.and_eq_true, beq_iff_eq, decide_eq_true_eq, List.all_eq_true] at h
  exact ⟨h.1.1.1, ⟨h.1.1.2, h.1.2⟩, h.2⟩

theorem witness_handover :
    (hands (.vadd { v0 with c := 256 + 7 }) 2 [7] numS && hands (.vperm vO) 2 [] numS && hands (.vcmp v0) 2 [] numS &&
      hands (.vbcast { v0 with a := 6 }) 2 [6] numS && hands (.vset { v0 with a := 6 }) 2 [6] numS && hands (.vget { v0 with d := 5 }) 2 [5] numS &&
      hands (.vcvt v0) 2 [] numS && hands (.vcmpv { v0 with d := 128, b := 384 }) 2 [] (hrdS 0) &&
      hands (.vcmpv { v0 with d := 128, b := 256 }) 2 [] (hrdS 0)) = true ∧
    (([.mlds, .mldsp, .mswap, .mmask, .mbnd, .mzero, .mwait] : List (StrokeFmt → Instr)).all fun i => hands (i k0) 3 [] numS) = true ∧
    ((Instr.mrun k0).wf && (Instr.mstat k0).wf && hands (.mver { k0 with f := 9 }) 3 [] numS && hands (.mver { k0 with f := 9, p := 1, h := 3 }) 3 [] (hrdS 0) &&
      hands (.mdrain k0) 3 [] numS && hands (.mdrainv k0) 3 [] numS) = true ∧
    ([4, 5].all fun n =>
      let s := { numS with lane := n }
      hands (.agrun l0) (laneStream s) [] s && hands (.agdef { l0 with s := 6 }) (laneStream s) [6] s &&
        hands (.agput { l0 with s := 6 }) (laneStream s) [6] s) = true := by decide +kernel

/-- The queues of the streams are full, or S may read the narrow format it names. -/
def fullS : State := baseS.setCrew 1 { baseS.crew 1 with
  vq := List.replicate 16 (vEntry (.vadd v0)), mq := List.replicate 16 (vEntry (.mwait k0)), lq := List.replicate 16 (vEntry (.agrun l0)) }

/-- VNF_TID names a descriptor of a narrow format, one of another format, or one that no pin covers. -/
def vnfS (n ctl : Nat) : State :=
  let s := { numS with mem := numS.mem.pokes (0x50000 + 128) (descBytes ctl 8 narrowDesc) }
  let s := s.setContext 1 { s.context 1 with tidTable := 0x50000 }
  { s.setCrew 1 { s.crew 1 with vnfTid := BitVec.ofNat 64 n } with
    pins := s.pins ++ [{ handle := 41, owner := .crew 1, ctx := 1, ranges := [(0x50000, 0x100)], w := false
                         leaves := [{ va := 0, size := 2 ^ 34, pa := 0, mem := 0, w := true, x := true, u := true }] }] }

theorem witness_handover_full :
    (curOwner fullS == some (.crew 1) && decide (16 ≤ (fullS.crew 1).vq.length) && decide (16 ≤ (fullS.crew 1).mq.length) &&
      decide (16 ≤ (streamQueue (fullS.crew 1) (laneStream { fullS with lane := 4 })).length)) = true ∧
    (hands (.vqnt { v0 with fmt := 9 }) 2 [] numS && hands (.vdqnt { v0 with fmt := 9 }) 2 [] numS && hands (.vcvt { v0 with c := 9 }) 2 [] numS) =
      true ∧
    ([(2, 0x80D40000), (2, 0x80A40000), (3, 0x80D40000)].all fun (n, ctl) =>
      match answers (nameTid 1 n (some 1) (.half 1)) (vnfS n ctl) with
      | some (.ecc _) => false
      | some _ => ((vnfS n ctl).crew 1).vnfTid.toNat % 4096 == n
      | none => false) = true := by decide +kernel

/-- A V instruction that pops the FIFO of L and pushes that of W. -/
def tokE (done : Bool) : Entry := { vEntry (.vadd { vO with tok := 9 }) with finished := done }
def tokS (done : Bool) (l w : Nat) : State :=
  let s := vecS (tokE done)
  s.setCrew 1 { s.crew 1 with tokens := [(0, l), (5, w)].filter fun e => e.2 != 0 }

theorem witness_tokens :
    streamHead (tokS false 0 0) (.vec 0) = some (1, 2, tokE false) ∧ (tokenFifos 2 9).1 = [0] ∧ (tokenFifos 2 9).2 = [5] ∧
    tokenCount ((tokS false 0 0).crew 1) 0 = 0 ∧ performs 2 9 (tokS false 1 7) 1 (tokE false) = true ∧
    streamHead (tokS true 0 7) (.vec 0) = some (1, 2, tokE true) ∧ streamHead (tokS true 0 8) (.vec 0) = some (1, 2, tokE true) ∧
    tokenCount ((tokS true 0 8).crew 1) 5 = 8 := by decide +kernel

/-- An M or L instruction that pops the FIFO of another stream and pushes into one. -/
def mTok (tok : Nat) (done : Bool) : Entry := { vEntry (.mwait { k0 with tok := tok }) with finished := done, done := 4 }
def lTok (tok : Nat) (done : Bool) : Entry := { vEntry (.agmark { l0 with tok := tok, q := 1 }) with finished := done }
def mTokS (es : List Entry) (toks : List (Nat × Nat)) : State :=
  { baseS.setCrew 1 { baseS.crew 1 with mq := es, tokens := toks } with cur := .stroke 0 0 }
def lTokS (e : Entry) (toks : List (Nat × Nat)) : State :=
  { baseS.setCrew 1 { baseS.crew 1 with lq := [e], tokens := toks } with cur := .lgen 0 }

theorem witness_tokens_of_all :
    (List.range 16).all (fun tok =>
      streamHead (mTokS [mTok tok false] []) (.stroke 0 0) == some (1, 3, mTok tok false) &&
      streamHead (lTokS (lTok tok false) []) (.lgen 0) == some (1, 4, lTok tok false) &&
      streamHead (mTokS [mTok tok true] ((List.range 12).map fun f => (f, 8))) (.stroke 0 0) == some (1, 3, mTok tok true) &&
      streamHead (lTokS (lTok tok true) ((List.range 12).map fun f => (f, 8))) (.lgen 0) == some (1, 4, lTok tok true)) = true ∧
    ((tokenFifos 3 9).1 ≠ [] ∧ (tokenFifos 4 9).1 ≠ [] ∧ (tokenFifos 5 9).2 ≠ []) ∧
    (owed ((mTokS [{ mTok 9 true with done := 2, name := 8 }, mTok 9 true] []).crew 1) (mTok 9 true)) = (tokenFifos 3 9).2 := by
  decide +kernel

theorem test_tokens_move :
    tokenCount ((nextOf (exec (.vadd { vO with tok := 9 }) (tokS false 2 7))).crew 1) 0 = 1 ∧
    tokenCount ((nextOf (exec (.vadd { vO with tok := 9 }) (tokS false 2 7))).crew 1) 5 = 8 ∧
    ((nextOf (exec (.vadd { vO with tok := 9 }) (tokS false 2 8))).crew 1).vq.map (·.finished) = [true] := by decide +kernel

/-! ### Witnesses: the M stream (R70-R73, R136, R140, R270, R273-R293) -/

/-- The descriptor of TID 2, and a pin whose page of descriptors holds it; the sequencer's crew. -/
def descS (ctl : Nat) (side : Nat := 0) : State :=
  let s := pinned (tidA ctl 8 side)
  { s with cur := .stroke 0 0, pins := s.pins.map fun p => if p.handle = 40 then { p with descPages := p.leaves } else p }

/-- The head of the M queue. -/
def mEntry (i : Instr) (p : Progress := {}) : Entry := { name := 9, instr := i, pc := 0x10001, sval := 2, sidx := 6, prog := p }

/-- The M queue holds one instruction; queue 5 holds entries for M, queue 3 takes them. -/
def mS (s : State) (e : Entry) (z : Stroke := {}) (es : List QEntry := []) : State :=
  let s := queued (queued s 5 { cfg := BitVec.ofNat 32 (2 ^ 31 + 2 ^ 29 + 4 * 2 ^ 24 + 3 * 2 ^ 20 + 2 ^ 17 + 39), entries := es }) 3
    { cfg := BitVec.ofNat 32 (2 ^ 31 + 2 ^ 29 + 3 * 2 ^ 24 + 5 * 2 ^ 20 + 39) }
  s.setCrew 1 { s.crew 1 with mq := [e], strokes := [(0, z)] }

/-- It can have a turn. -/
def turns (tok : Nat) (s : State) (e : Entry) : Bool :=
  streamHead s s.cur == some (1, 3, e) && e.exc.isNone && !e.finished && e.pushed == 0 && (e.prog.begun || mayBegin (s.crew 1) e) &&
  (e.popped || (tokenFifos 3 tok).1.all fun f => tokenCount (s.crew 1) f != 0)

theorem turns_meets {tok : Nat} {s : State} {e : Entry} (h : turns tok s e = true) : MTurn tok s 1 e := by
  simp only [turns, Bool.and_eq_true, beq_iff_eq, Bool.or_eq_true, List.all_eq_true, bne_iff_ne, Option.isNone_iff_eq_none,
    Bool.not_eq_true'] at h
  exact ⟨h.1.1.1.1.1, h.1.1.1.1.2, h.1.1.1.2, h.1.1.2, h.1.2, h.2⟩

/-- It may retire. -/
def retires (b : State) (tok : Nat) (e : Entry) : Bool :=
  (tokenFifos 3 tok).2.all (fun f => decide (tokenCount (b.crew 1) f < 8) && !(owed (b.crew 1) e).contains f) && (b.crew 1).vwrites.all fun w => w.1 != e.name

/-- A burst of the f32 tensor of `tidA` or another: eights in its elements. -/
def burstOf (tid : Nat) (cs : List Nat) (word : Nat := 0x41000000) : List QEntry :=
  burstEntries 1 (burstBytes tid false cs [] (List.replicate 256 (leBytes 4 word)).flatten)

/-- F code 0 is f32. -/
def kF : StrokeFmt := { k0 with q := 5 }

/-- A load at burst n. -/
def loadS1 (i : StrokeFmt → Instr) (n : Nat) : State × Entry :=
  let e := mEntry (i kF) { begun := n != 0, count := n, nums := if n = 0 then [] else [2, 0, 0, 0, 0] }
  (mS (descS 0x80A40000) e {} (burstOf 2 [n % 32, n / 32, 0, 0]), e)

/-- What a load's clause asks. -/
def loads (i : StrokeFmt → Instr) (n : Nat) : Bool :=
  let (s, e) := loadS1 i n
  let b := mBegun s 1 0 e
  (i kF).wf && turns 0 s e && (answers (popBurst 1 5) b).isSome &&
  (answers (burstDesc 1 5 0 [0, 1] (if n = 0 then none else some 2) ((answers (popBurst 1 5) b).getD [])) (doneIn (popBurst 1 5) b)).map
    (·.epr) == some 8 && retires b 0 e && burstCoords ((answers (popBurst 1 5) b).getD []) == [n % 32, n / 32, 0, 0]

theorem witness_plane_loads :
    (loads .mlds 0 && loads .mlds 1 && loads .mlds 255 && loads .mldsp 0 && loads .mldsp 255) = true ∧
    queueRefuses (queueOf (loadS1 .mlds 0).1 1 5) 3 1 false = none ∧ ((queueOf (loadS1 .mlds 0).1 1 5).entries.map (·.p)).contains true = false := by
  decide +kernel

/-- M instructions that pop nothing, on an array with a tile and a bounded shadow plane. -/
def plainS (i : StrokeFmt → Instr) (o : StrokeFmt) : State × Entry :=
  (mS baseS (mEntry (i o)) { tiles := [(0, { cells := [(7, { acc := 5 })], np := 3, c1 := 4 })] } |> fun s => { s with cur := .stroke 0 0 }, mEntry (i o))

/-- MMASK at its burst n, of masks of two ones in each four or of three; MBND of bounds of 8 or of -1. -/
def maskS (n word : Nat) : State × Entry :=
  let e := mEntry (.mmask { k0 with q := 5 }) { begun := n != 0, count := n, bytes := [] }
  (mS (descS 0x80A40000) e {} (burstOf 0 [0, 0, 0, 0] word), e)
def bndS (mqv : Bool) (word : Nat := 0x41000000) : State × Entry :=
  let e := mEntry (.mbnd { k0 with q := 5 })
  (mS (descS 0x80A40000) e { shadow := { mqv := mqv } } (burstOf 0 [0, 0, 0, 0] word), e)

theorem witness_planes :
    (([.mswap, .mzero, .mwait] : List (StrokeFmt → Instr)).all fun i =>
      (i k0).wf && turns 0 (plainS i k0).1 (plainS i k0).2 && retires (mBegun (plainS i k0).1 1 0 (plainS i k0).2) 0 (plainS i k0).2) = true ∧
    ([(0, 0x33333333), (7, 0x33333333), (7, 0x77777777)].all fun (n, w) => (Instr.mmask { k0 with q := 5 }).wf && turns 0 (maskS n w).1 (maskS n w).2 &&
      (answers (popBurst 1 5) (mBegun (maskS n w).1 1 0 (maskS n w).2)).isSome && (earlier ((maskS n w).1.crew 1).mq 9).isEmpty) = true ∧
    (turns 0 (bndS true).1 (bndS true).2 && turns 0 (bndS false).1 (bndS false).2 && (earlier ((bndS false).1.crew 1).mq 9).isEmpty &&
      (answers (popBurst 1 5) (mBegun (bndS true).1 1 0 (bndS true).2)).isSome && (Instr.mbnd { k0 with q := 5 }).wf) = true := by
  decide +kernel

/-- MRUN with no burst yet, or with 32 held at a block. -/
def runS (n pos : Nat) (held : List Byte := []) : State × Entry :=
  let e := mEntry (.mrun { kF with x := 3 }) { begun := n != 0, count := n, pos := pos, nums := [2, 0, 0, 0, 0]
                                               bytes := held }
  (mS (descS 0x80A40000) e { front := { origin := 1 } } (burstOf 2 [n, 0, 0, 0]), e)

theorem witness_runs :
    (let (s, e) := runS 0 0
     (Instr.mrun { kF with x := 3 }).wf && turns 0 s e && (answers (popBurst 1 5) (mBegun s 1 0 e)).isSome &&
       (answers (burstDesc 1 5 0 [0, 1] none ((answers (popBurst 1 5) (mBegun s 1 0 e)).getD [])) (doneIn (popBurst 1 5) (mBegun s 1 0 e))).isSome) =
      true ∧
    ([(4, 0), (32, 7)].all fun (n, pos) =>
      let (s, e) := runS n pos
      turns 0 s e && (answers (knownDesc 1 2) (mBegun s 1 0 e)).map (·.epr) == some 8 && decide (32 * pos + 32 ≤ n * 8) &&
        answers (blockCheck 0 0) (doneIn (knownDesc 1 2) (mBegun s 1 0 e)) == some true && retires (mBegun s 1 0 e) 0 e) = true := by
  decide +kernel

/-- A tile of a MAGORD tensor of 64 by 64 elements of 8 bits, np of its 2 positions stored; MVER with bursts held. -/
def verS (np count pos events : Nat) (mqv : Bool := true) (held : List Byte := []) : State × Entry :=
  let e := mEntry (.mver { k0 with x := 3, q := 5, f := 9, p := 1, h := 4 })
    { begun := count != 0, count := count, pos := pos, events := events, nums := [2, 0, 0, 0, 0], bytes := held }
  (mS (descS 0x88D4981D 0x30000) e { front := { mqv := mqv }, tiles := [(3, { np := np, vtid := 2 })] } (burstOf 2 [count, 0, 0, 0]), e)

theorem witness_umpire :
    ([(0, 1, 0, 3), (1, 2, 1, 3), (2, 2, 2, 3)].all fun (np, count, pos, events) =>
      let (s, e) := verS np count pos events
      let b := mBegun s 1 0 e
      (Instr.mver { k0 with x := 3, q := 5, f := 9, p := 1, h := 4 }).wf && turns 0 s e &&
        (answers (knownDesc 1 2) b).map (fun d => (d.epr, d.nb)) == some (32, 2) &&
        answers (blockCheck 0 0) (doneIn (knownDesc 1 2) b) == some true && retires b 0 e && ((s.crew 1).stroke 0).front.mqv &&
        !(tileOf s 1 0 3).settled) = true ∧
    (let (s, e) := verS 0 1 0 3
     let b := doneIn (blockCheck 0 0) (doneIn (knownDesc 1 2) (mBegun s 1 0 e))
     match answers (knownDesc 1 2) (mBegun s 1 0 e) with
     | some d => (answers (tailBounds 1 d 0 1 (List.range 32)) b).map (·.length) == some 32
     | none => false) = true ∧
    (turns 0 (verS 0 0 0 0 false).1 (verS 0 0 0 0 false).2 && (earlier ((verS 0 0 0 0 false).1.crew 1).mq 9).isEmpty) = true := by
  decide +kernel

/-- A burst of codes of the narrow format. -/
def codedBurst (tid : Nat) (cs : List Nat) : List QEntry := burstEntries 1 (burstBytes tid true cs (List.replicate 64 200) (List.replicate 1024 7))

/-- MVER that takes its first burst, of an empty tile. -/
def verFirst : State × Entry :=
  let (s, e) := verS 0 0 0 0
  (queued s 5 { queueOf s 1 5 with entries := codedBurst 2 [0, 0, 0, 0] }, e)

theorem witness_umpire_first :
    (let (s, e) := verFirst
     let b := mBegun s 1 0 e
     turns 0 s e && ((s.crew 1).stroke 0).front.mqv && (tileOf s 1 0 3).np == 0 && (answers (popBurst 1 5) b).isSome &&
       (answers (burstDesc 1 5 9 [1] none ((answers (popBurst 1 5) b).getD [])) (doneIn (popBurst 1 5) b)).map (·.epr) == some 32) = true := by
  decide +kernel

/-- MVER on the settled tile, at a block in hand or after it, and its queue 5 as it is given. -/
def settledS (pos : Nat) (f : Queue → Queue) : State × Entry :=
  let (s, e) := verS 1 1 pos 3
  let z := (s.crew 1).stroke 0
  let s := s.setCrew 1 { s.crew 1 with strokes := [(0, { z with tiles := [(3, { np := 1, vtid := 2, settled := true })] })] }
  (queued s 5 (f { queueOf s 1 5 with entries := codedBurst 2 [1, 0, 0, 0] }), e)

/-- The burst that stands in queue 5, or went by with its header kept. -/
def standing (v : Queue) : List Byte := v.watch.getD ((v.entries.take v.burst).flatMap (·.data))

theorem witness_settled :
    ([(settledS 0 id), (settledS 1 id), (settledS 1 fun v => { v with entries := codedBurst 2 [0, 0, 0, 0] }),
      (settledS 1 fun v => { v with entries := codedBurst 3 [1, 0, 0, 0] }), (settledS 1 fun v => { v with entries := [], skip := true }),
      (settledS 1 fun v => { v with entries := [] }), (settledS 1 fun v => { v with entries := [], watch := some [] }),
      (settledS 1 fun v => { v with watch := some (standing v), entries := [] })].all fun (s, e) =>
      (Instr.mver { k0 with x := 3, q := 5, f := 9, p := 1, h := 4 }).wf && turns 0 s e &&
        (answers (knownDesc 1 2) (mBegun s 1 0 e)).map (fun d => (d.epr, d.nb)) == some (32, 2) && (tileOf s 1 0 3).settled &&
        e.prog.events == 3 && (queueRefuses (queueOf s 1 5) 3 1 false).isNone &&
        (earlier (s.crew 1).mq 9).isEmpty) = true ∧
    ([((settledS 1 id), true, true), ((settledS 1 fun v => { v with entries := codedBurst 2 [0, 0, 0, 0] }), true, false),
      ((settledS 1 fun v => { v with entries := codedBurst 3 [1, 0, 0, 0] }), false, true),
      ((settledS 1 fun v => { v with watch := some (standing v), entries := [] }), true, true)].all fun ((s, e), good, inPlace) =>
      let x := standing (queueOf s 1 5)
      (match answers (headerDesc 1 9 [1] (some 2) x) (mBegun s 1 0 e) with
        | some (.ok _) => good
        | some (.error _) => !good
        | none => false) && ((burstCoords x).getD 0 0 == 1) == inPlace && x.length != 0) = true := by decide +kernel

/-- A drain of tile 3 at a place in its bursts, to queue 3. -/
def drainS (i : StrokeFmt → Instr) (o : StrokeFmt) (pos count : Nat) : State × Entry :=
  let e := mEntry (i o) { begun := pos + count != 0, pos := pos, count := count }
  (mS (descS 0x80A40000) e { tiles := [(3, { cells := [(7, { acc := 0x40490FDB }), (8, { st := .gone 1 1 2 })], np := 2 })], tsf := [(1, 5)] }, e)

def kD (h : Nat) : StrokeFmt := { k0 with x := 3, q := 3, h := h }

theorem witness_drains :
    (([.mdrain, .mdrainv] : List (StrokeFmt → Instr)).all fun i => [0, 1].all fun h => [(0, 0), (18, 0), (19, 0), (19, 31)].all fun (pos, count) =>
      let (s, e) := drainS i (kD h) pos count
      let b := mBegun s 1 0 e
      (i (kD h)).wf && turns 0 s e && (answers (drainDesc 1 0 2 0 (count == 0 && pos == 0)) b).map (·.epr) == some 8 && retires b 0 e &&
        (queueRefuses (queueOf b 1 3) 3 1 true).isNone && !(queueOf b 1 3).isFull && !(queueOf b 1 3).skip && !(queueOf b 1 3).whole) = true ∧
    ([0, 18, 19].all fun pos =>
      let (s, e) := drainS .mstat (kD 0) pos 0
      (Instr.mstat (kD 0)).wf && turns 0 s e && retires (mBegun s 1 0 e) 0 e) = true ∧ entryBytes 1 = 64 := by decide +kernel

/-! ### Witnesses: the L and W streams (R100-R102, R324-R327) -/

/-- An entry of the L or W queue; S field 6 held `v`. -/
def agEntry (i : Instr) (v : Word) (p : Progress := {}) : Entry := { name := 9, instr := i, pc := 0x10001, sval := v, sidx := 6, prog := p }

/-- A TILE descriptor of TID 2 whose box is the first `n` tiles, a DROP one of `n` groups. -/
def tileBox (n : Nat) : List Byte := leBytes 2 0 ++ leBytes 2 2 ++ leBytes 4 0 ++ leBytes 16 0 ++ leBytes 4 (n - 1) ++ leBytes 36 0
def dropBox (n : Nat) : List Byte := leBytes 4 2 ++ leBytes 4 n ++ leBytes 56 0

/-- The stream's queue holds the entry, slot 4 a descriptor; the crew has 2 banks and section 0. Queue 3 is of words, 5 and 7
of lines to and from the stream. -/
def agS (w : Bool) (e : Entry) (slot : List Byte) (bank : Nat := 0) : State :=
  let ep := if w then 5 else 4
  let s := queued (queued (queued (descS 0x80A40000) 3 (wordQueue ep 0 4)) 5
    { cfg := BitVec.ofNat 32 (2 ^ 31 + 2 ^ 29 + ep * 2 ^ 24 + 2 * 2 ^ 20 + 39) }) 7
    { cfg := BitVec.ofNat 32 (2 ^ 31 + 2 ^ 29 + 2 * 2 ^ 24 + ep * 2 ^ 20 + 39)
      entries := [{ data := leBytes 64 7, t := true }, { data := leBytes 64 8 }] }
  let k := s.crew 1
  let slots := if slot.isEmpty then [] else [(4, slot)]
  let k := { k with spad := 2, sections := [(0, { image := [] })], banks := if bank = 0 then [] else [(1, bank)] }
  let k := if w then { k with wq := [e], wslots := slots } else { k with lq := [e], lslots := slots }
  { s.setCrew 1 k with mem := s.mem.pokes 0x30040 (tileBox 2), cur := if w then .wgen 0 else .lgen 0 }

/-- It can have a turn, and may retire. -/
def agTurns (o : LWFmt) (s : State) (e : Entry) : Bool :=
  streamHead s s.cur == some (1, laneStream s, e) && !e.finished && e.pushed == 0 &&
  (e.popped || (tokenFifos (laneStream s) o.tok).1.all fun f => tokenCount (s.crew 1) f != 0) &&
  (s.view (.half 1)).past.all fun p => decide (p.upto ≤ e.name)
def agRetires (o : LWFmt) (s : State) (e : Entry) : Bool :=
  let b := agBegun o s 1 e
  (tokenFifos (laneStream b) o.tok).2.all (fun f => decide (tokenCount (b.crew 1) f < 8)) && (b.crew 1).vwrites.all fun w => w.1 != e.name

theorem agTurns_meets {o : LWFmt} {s : State} {e : Entry} (h : agTurns o s e = true) : AgTurn o s 1 e := by
  simp only [agTurns, Bool.and_eq_true, beq_iff_eq, Bool.or_eq_true, List.all_eq_true, bne_iff_ne, Bool.not_eq_true',
    decide_eq_true_eq] at h
  exact ⟨h.1.1.1.1, h.1.1.1.2, h.1.1.2, h.1.2, h.2⟩

/-- Queue q takes an entry of the stream. -/
def agTakes (s : State) (q width : Nat) : Bool :=
  let v := queueOf s 1 q
  (queueRefuses v (laneStream s) width true).isNone && !v.isFull && !v.skip && !v.whole

def lD : LWFmt := { l0 with s := 6, d := 4 }
def lP : LWFmt := { l0 with s := 6, q := 3, b := 3 }
def lI : LWFmt := { l0 with q := 3, d := 4 }
def lR (q : Nat) : LWFmt := { l0 with q := q, d := 4 }
def lB (n : Nat) : LWFmt := { l0 with s := 6, b := n }

/-- The read of AGDEF at 0x30040, through the pins it may use. -/
def agdefRead (s : State) : M (Except Bad (List Byte)) :=
  readPinned (.half 1)
    (agdefPins (s.crew 1) ((s.launches.getD (s.crew 1).launch default).cards.getD (s.crew 1).card default).lodor 1) 0x30040 64

/-- A descriptor in memory that AGDEF refuses: of a tensor that has no descriptor, of a box beyond its grid, of a TID whose
descriptor no pin covers. -/
def refusedS (slot : List Byte) : State :=
  let s := agS false (agEntry (.agdef lD) 0x30040) []
  { s with mem := s.mem.pokes 0x30040 slot }

theorem witness_agdef_refused :
    ([(leBytes 2 0 ++ leBytes 2 3 ++ (tileBox 2).drop 4, 0), (tileBox 100, 1), (tileBox 2, 2)].all fun (slot, n) =>
      let s := refusedS slot
      let s : State := if n = 2 then s.setContext 1 { s.context 1 with tidTable := 0x4000000000000 } else s
      let e := agEntry (.agdef lD) 0x30040
      let b := agBegun lD s 1 e
      agTurns lD s e && (match answers (agdefRead s) b with | some (.ok bs) => bs == slot | _ => false) &&
        (match answers (agCheck 1 slot false) (doneIn (agdefRead s) b) with
          | some .descriptor => n == 0
          | some .bounds => n == 1
          | some (.refused _) => n == 2
          | _ => false)) = true := by decide +kernel

theorem witness_agdef :
    ([false, true].all fun w =>
      let e := agEntry (.agdef lD) 0x30040
      let s := agS w e []
      let b := agBegun lD s 1 e
      (Instr.agdef lD).wf && agTurns lD s e && agRetires lD s e &&
        (match answers (agdefRead s) b with | some (.ok bs) => bs == tileBox 2 | _ => false) &&
        answers (agCheck 1 (tileBox 2) (laneStream s == 5)) (doneIn (agdefRead s) b) == some .ok &&
        agTurns lD (agS w (agEntry (.agdef lD) 0x30044) []) (agEntry (.agdef lD) 0x30044)) = true := by decide +kernel

theorem witness_agput :
    ([false, true].all fun w => ([(Instr.agput lP, lP), (Instr.agmark { lP with s := 0 }, { lP with s := 0 })] : List (Instr × LWFmt)).all fun (i, o) =>
      i.wf && agTurns o (agS w (agEntry i 77) []) (agEntry i 77) && agRetires o (agS w (agEntry i 77) []) (agEntry i 77) &&
        agTakes (agS w (agEntry i 77) []) 3 0) = true := by decide +kernel

theorem witness_agidx :
    ([false, true].all fun w => [0, 1].all fun n =>
      let e := agEntry (.agidx lI) 0 { count := n }
      let s := agS w e (tileBox 2)
      (Instr.agidx lI).wf && agTurns lI s e && agRetires lI s e && agTakes s 3 0 &&
        (agSlots (s.crew 1) (laneStream s)).find? 4 == some (tileBox 2)) = true ∧
    ((AgDesc.ofBytes (tileBox 2)).kind, (AgDesc.ofBytes (tileBox 2)).box.count, (AgDesc.ofBytes (dropBox 2)).kind,
      (AgDesc.ofBytes (dropBox 2)).count) = (0, 2, 2, 2) ∧
    ((Instr.agrun (lR 5)).wf && agTurns (lR 5) (agS false (agEntry (.agrun (lR 5)) 0) []) (agEntry (.agrun (lR 5)) 0) &&
      (agSlots ((agS false (agEntry (.agrun (lR 5)) 0) []).crew 1) 4).isEmpty) = true := by decide +kernel

/-- AGRUN of L inside its burst n. -/
def runL (pos n : Nat) : State × Entry :=
  let e := agEntry (.agrun (lR 5)) 0 { pos := pos, count := n, bytes := burstBytes 2 false [n, 0, 0, 0] [] (List.replicate 1024 7), nums := [0] }
  (agS false e (tileBox 2), e)

/-- AGRUN of W that drops groups, n gone. -/
def runW (n : Nat) : State × Entry :=
  let e := agEntry (.agrun (lR 7)) 0 { count := n }
  (agS true e (dropBox 2), e)

theorem witness_agrun :
    ([(0, 0), (19, 0), (19, 1)].all fun (pos, n) =>
      let (s, e) := runL pos n
      let b0 := agBegun (lR 5) s 1 e
      let b1 := doneIn (awaitEdges (some 1) 9 (entryFeet b0 1 false e)) b0
      agTurns (lR 5) s e && agRetires (lR 5) s e && answers (awaitEdges (some 1) 9 (entryFeet b0 1 false e)) b0 == some () &&
        queueOf b1 1 5 == queueOf s 1 5 && agTakes b1 5 1 && (answers (agDesc 1 2 false) b1).isSome &&
        queueOf (doneIn (agDesc 1 2 false) b1) 1 5 == queueOf s 1 5 && !e.prog.bytes.isEmpty) = true ∧
    ([0, 1].all fun n =>
      let (s, e) := runW n
      let b0 := agBegun (lR 7) s 1 e
      agTurns (lR 7) s e && agRetires (lR 7) s e && answers (awaitEdges (some 1) 9 (entryFeet b0 1 true e)) b0 == some () &&
        (queueRefuses (queueOf s 1 7) 5 1 false).isNone && (queueOf s 1 7).entries.map (·.t) == [true, false]) = true := by decide +kernel

/-- AGRUN may act on slot 4. -/
def agRuns (o : LWFmt) (s : State) (e : Entry) : Bool :=
  let b0 := agBegun o s 1 e
  (Instr.agrun o).wf && agTurns o s e && (agSlots (s.crew 1) (laneStream s)).find? 4 != none &&
    answers (awaitEdges (some 1) 9 (entryFeet b0 1 (laneStream s == 5) e)) b0 == some ()
def agActs (o : LWFmt) (s : State) (e : Entry) : State :=
  let b0 := agBegun o s 1 e
  doneIn (awaitEdges (some 1) 9 (entryFeet b0 1 (laneStream s == 5) e)) b0

/-- The crew's pin reaches the tensor too, or one byte of it is in error, or a scale of it is out of range. -/
def reachAll (s : State) : State :=
  { s with pins := s.pins.map fun p => if p.handle = 40 then { p with ranges := [(0x30000, 0x80000)] } else p }
def narrowTid (s : State) : State :=
  { s with mem := s.mem.pokes (0x50000 + 128) (leBytes 8 0x60000 ++ leBytes 8 0x70000 ++ leBytes 8 0 ++ leBytes 8 0 ++ leBytes 4 64 ++ leBytes 4 64 ++
      leBytes 8 0 ++ leBytes 4 8 ++ leBytes 8 0 ++ leBytes 4 0x80D4981D) |>.pokes 0x70000 [0xFF#8, 0xFF#8] }

/-- How the first tile of the box reads. -/
def tileReads (s : State) : Option (Nat × Bool) :=
  let e := agEntry (.agrun (lR 5)) 0
  let b1 := agActs (lR 5) s e
  match answers (agDesc 1 2 false) b1 with
  | none => none
  | some d => (answers (readTile (.half 1) (crewPins 1) d [0, 0, 0, 0]) (doneIn (agDesc 1 2 false) b1)).map fun r =>
    (match r with
      | .ok _ _ => 0
      | .layout => 1
      | .bad .ecc => 2
      | .bad _ => 3, agRuns (lR 5) s e && laneStream (doneIn (agDesc 1 2 false) b1) == 4)

theorem witness_tile_reads :
    (let s := agS false (agEntry (.agrun (lR 5)) 0) (tileBox 2)
     let r := reachAll s
     (queueOf s 1 5).width != 0 && (queueRefuses (queueOf (agActs (lR 5) r (agEntry (.agrun (lR 5)) 0)) 1 5) 4 1 true).isNone &&
       tileReads r == some (0, true) && tileReads (narrowTid r) == some (1, true) &&
       tileReads { r with mem := { r.mem with poison := [0x60000 / 32] } } == some (2, true) && tileReads s == some (3, true)) = true := by
  decide +kernel

/-- W in the middle of its second tile, with entries of a burst to come. -/
def writesW (count pos : Nat) (held : List Byte) (es : List QEntry) : State × Entry :=
  let e := agEntry (.agrun (lR 7)) 0 { pos := pos, count := count, bytes := held }
  let s := agS true e (tileBox 2)
  (queued s 7 { queueOf s 1 7 with entries := es }, e)

/-- Entry `i` of the burst of TID 2's tile, poisoned or not. -/
def burstAt (tid i : Nat) (p : Bool := false) : QEntry := { (burstOf tid [0, 0, 0, 0]).getD i { data := [] } with p := p }
def heldOf (tid n : Nat) : List Byte := ((burstOf tid [0, 0, 0, 0]).take n).flatMap (·.data)

theorem witness_tile_writes :
    ([writesW 2 0 [] [], writesW 0 0 [] [burstAt 2 0 true], writesW 0 0 [] [burstAt 2 0], writesW 0 19 (heldOf 2 19) [burstAt 3 18],
      writesW 0 4 (heldOf 2 4) [burstAt 2 19], writesW 0 19 (heldOf 2 19) [burstAt 2 19], writesW 1 19 (heldOf 2 19) [burstAt 2 19]].all
      fun (s, e) =>
        let s := reachAll s
        let b1 := agActs (lR 7) s e
        let b := doneIn (agDesc 1 2 true) b1
        agRuns (lR 7) s e && (answers (agDesc 1 2 true) b1).isSome && laneStream b == 5 && queueOf b1 1 7 == queueOf b 1 7 &&
          (queueRefuses (queueOf b 1 7) 5 1 false).isNone && 1280 / entryBytes (queueOf b 1 7).width == 20 && agRetires (lR 7) b e) = true ∧
    headerOk (heldOf 2 20) = true ∧ burstTid (heldOf 2 20) = 2 ∧ burstSc (heldOf 2 20) = false ∧
    (AgDesc.ofBytes (tileBox 2)).box.contains (burstCoords (heldOf 2 20)) = true ∧ (burstAt 2 19).t = true ∧ (burstAt 2 18).t = false := by
  decide +kernel

theorem witness_tile_written :
    ([true, false].all fun reach =>
      let (s, e) := writesW 0 19 (heldOf 2 19) [burstAt 2 19]
      let s := if reach then reachAll s else s
      let b := withQueue (doneIn (agDesc 1 2 true) (agActs (lR 7) s e)) 1 7 ((queueOf s 1 7).popped (burstAt 2 19) [])
      match answers (agDesc 1 2 true) (agActs (lR 7) s e) with
      | some d => match answers (writeTile (.half 1) (crewPins 1) d [0, 0, 0, 0] (burstBody (heldOf 2 20)) []) b with
        | some (.ok ()) => reach
        | some (.error _) => !reach
        | none => false
      | none => false) = true := by decide +kernel

/-- A BANK slot of bank 1: 64 bytes or 72 from offset 128 on; W has an entry to store, good or poisoned. -/
def bankSlot (n : Nat) : List Byte := leBytes 1 1 ++ leBytes 1 1 ++ leBytes 6 0 ++ leBytes 32 0 ++ leBytes 4 128 ++ leBytes 4 n ++ leBytes 16 0

theorem witness_bank_moves :
    ([false, true].all fun w => [(64, 0), (64, 1), (128, 0), (72, 0)].all fun (n, i) => [0, 1].all fun bank =>
      let o := lR (if w then 7 else 5)
      let e := agEntry (.agrun o) 0 { count := i }
      let s := agS w e (bankSlot n) bank
      let b := agActs o s e
      agRuns o s e && (AgDesc.ofBytes (bankSlot n)).kind == 1 && (AgDesc.ofBytes (bankSlot n)).length == n && agRetires o b e &&
        (queueRefuses (queueOf b 1 o.q) (laneStream s) 1 (laneStream s == 4)).isNone && (b.crew 1).banks.getD 1 0 == bank &&
        (b.crew 1).spBad.isEmpty && (w || agTakes b 5 1)) = true ∧
    (queueOf (agS true (agEntry (.agrun (lR 7)) 0) (bankSlot 64)) 1 7).entries.map (·.p) = [false, false] := by decide +kernel

theorem witness_banks :
    ([false, true].all fun w =>
      let e := agEntry (.agbank (lB 1)) 0
      let s := agS w e []
      let t := agEntry (.agtake { lB 1 with s := 0 }) 0
      (Instr.agbank (lB 1)).wf && agTurns (lB 1) s e && agRetires (lB 1) s e && (s.crew 1).spad == 2 &&
        answers (sectionArg 1 0) (agBegun (lB 1) s 1 e) == some 0 && (answers (getSection 1 0) (agBegun (lB 1) s 1 e)).isSome &&
        (Instr.agtake { lB 1 with s := 0 }).wf && agTurns { lB 1 with s := 0 } (agS w t []) t && agTurns { lB 1 with s := 0 } (agS w t [] 1) t &&
        agRetires { lB 1 with s := 0 } (agS w t []) t && ((agS w t [] 1).crew 1).banks == [(1, 1)] &&
        (Instr.agbank (lB 2)).wf && agTurns (lB 2) (agS w (agEntry (.agbank (lB 2)) 0) []) (agEntry (.agbank (lB 2)) 0)) = true := by
  decide +kernel

/-! ### Witnesses: engine commands (R106, R118-R120, R125, R173-R176, R295-R323) -/

/-- Bytes put over others. -/
def putAt (bs : List Byte) (off : Nat) (new : List Byte) : List Byte := bs.take off ++ new ++ bs.drop (off + new.length)

/-- A block's bytes with fields, as offset, bytes and value. -/
def fields (size : Nat) (l : List (Nat × Nat × Nat)) : List Byte :=
  l.foldl (fun b e => putAt b e.1 (leBytes e.2.1 e.2.2)) (List.replicate size 0)

/-- A descriptor. -/
def tensor (base scale side aux d0 d1 str ctl : Nat) : List Byte :=
  leBytes 8 base ++ leBytes 8 scale ++ leBytes 8 side ++ leBytes 8 aux ++ leBytes 4 d0 ++ leBytes 4 d1 ++ leBytes 8 0 ++ leBytes 4 str ++
    leBytes 8 0 ++ leBytes 4 ctl

/-- TIDs 2 and 3 are f32 tensors of 16 by 64, 4 and 5 bf16 ones, 6 a byte mask of 2 by 64, 7 and 8 sparse vectors of 64 f32
elements, 9 a coordinate tensor of 16 by 32 f32 elements, 10 a row-class table of 16 by 4. -/
def tensors : List (List Byte) :=
  [tensor 0x60000 0 0 0 16 64 2 0x80A40000, tensor 0x62000 0 0 0 16 64 2 0x80A40000, tensor 0x64000 0 0 0 16 64 1 0x80B40000,
   tensor 0x65000 0 0 0 16 64 1 0x80B40000, tensor 0x66000 0 0 0 2 64 1 0x80640000, tensor 0x66800 0 0x67000 0 64 0 0 0x98A00000,
   tensor 0x66C00 0 0x67400 0 64 0 0 0x98A00000, tensor 0x68000 0 0x68400 0x68800 16 32 0 0x90A40000,
   tensor 0x69000 0x1400 0 0x69400 16 4 0 0xA0B4981D]

/-- Memory as given, its regions in order of address. -/
def laid (l : List (Nat × List Byte)) : Memory :=
  let cells (e : Nat × List Byte) : List Host.Cell := (e.2.zipIdx.filter fun b => b.1 != 0).map fun b => (e.1 + b.2, b.1)
  { cells := baseA.mem.cells ++ (sortBy (fun a b => decide (a.1 ≤ b.1)) l).flatMap cells }

/-- A command at the head of cluster 0's engine, its block taken; the crew's pin reaches its pages; memory as given. -/
def engS (copy : Bool) (i : Instr) (block : List Byte) (more : Cmd → Cmd := id) (mem : List (Nat × List Byte) := []) : State × Cmd :=
  let c := more { id := 9, instr := i, issuer := .crew 1, crew := some 1, ctx := 1, av := 0x30000, bv := 5, fetch := none
                  prog := { begun := !block.isEmpty, bytes := block } }
  let tids : List (Nat × List Byte) := if block.isEmpty then [] else [(0x50080, tensors.flatMap id)]
  let s : State := pinned baseA
  let wide (p : Pin) : Pin := if p.handle = 40 then { p with ranges := [(0x30000, 0x10000), (0x50000, 0x1000), (0x60000, 0x10000)] } else p
  let s : State := { s.setContext 1 { s.context 1 with tidTable := 0x50000 } with
    pins := s.pins.map wide, mem := laid (mem ++ tids), cur := if copy then .copyEng 0 else .indexEng 0 }
  (s.setCluster 0 ((s.cluster 0).setQueueOf copy [c]), c)

theorem test_engine_memory : (engS false (.gath c0) [1]).1.mem.wf = true := by decide +kernel

/-- It can have a turn. -/
def engTurns (i : Instr) (copy : Bool) (x : State × Cmd) : Bool :=
  engineHead x.1 x.1.cur == some (0, x.2) && x.2.instr == i && !x.2.lost && x.2.status.isNone &&
  x.1.pins.all (fun p => !(p.owner == .cmd x.2.id && p.revoked)) && x.1.cur == (if copy then .copyEng 0 else .indexEng 0) &&
  !shufRevoked x.1 { cl := 0, copy := copy } x.2

theorem engTurns_meets {i : Instr} {copy : Bool} {x : State × Cmd} (h : engTurns i copy x = true) :
    EngTurn i { cl := 0, copy := copy } x.1 x.2 := by
  simp only [engTurns, Bool.and_eq_true, beq_iff_eq, List.all_eq_true, Bool.not_eq_true', Bool.and_eq_false_iff,
    Option.isNone_iff_eq_none] at h
  refine ⟨h.1.2, h.1.1.1.1.1.1, h.1.1.1.1.1.2, h.1.1.1.1.2, h.1.1.1.2, fun p hp hq => ?_, h.2⟩
  rcases h.1.1.2 p hp with hn | hn
  · simp_all
  · simp_all

/-- A block command past its block. -/
def blockTurns (i : Instr) (copy : Bool) (x : State × Cmd) : Bool := engTurns i copy x && !x.2.prog.bytes.isEmpty && !x.2.decl

def cE : Eng := { cl := 0, copy := true }
def xE : Eng := { cl := 0, copy := false }

/-- S may queue a command: the a field's register 6 holds an aligned address. -/
def laneS : State := holding (holding baseS cS 6 0x30000) cS 7 3

theorem witness_lanes :
    (laneKinds.all fun k =>
      let o : LaneFmt := if k.block then { c0 with a := 6 } else { c0 with a := 6, b := 7, d := if k.fetches then 8 else 0 }
      let o : LaneFmt := [o, { o with b := 0, d := 0 }, { o with fn := 1 }, { o with fn := 4 }].find? (fun o => (k.lane o).wf) |>.getD o
      (k.lane o).wf && curOwner laneS == some (.crew 1) && [o.a, o.b, o.d].all (regReady laneS cS) && (laneS.crew 1).lq.isEmpty &&
        (laneS.crew 1).wq.isEmpty && ((laneS.cluster 0).queueOf k.copy).isEmpty) = true ∧
    (regVal laneS cS 6).toNat % 64 = 0 ∧ (regVal laneS cS 7).toNat % 64 ≠ 0 ∧ (Instr.copy { c0 with a := 7 }).wf = true := by
  decide +kernel

/-- An engine full of 32 commands, L or W busy, a fence with a command before it. -/
def laneFull : State := laneS.setCluster 0 { laneS.cluster 0 with copyQ := List.replicate 32 (engS true (.prefl2 c0) []).2 }
def laneBusy : State := laneS.setCrew 1 { laneS.crew 1 with lq := [agEntry (.agput lP) 7] }

theorem witness_lanes_wait :
    ((((laneFull.cluster 0).queueOf true).filter fun e => !e.prog.begun).length = 32 ∧ (laneBusy.crew 1).lq ≠ [] ∧
      curOwner laneFull = some (.crew 1) ∧ curOwner laneBusy = some (.crew 1)) ∧
    ((Instr.cefence c0).wf && (Instr.ixfence c0).wf) = true ∧ issuerBusy laneFull cS true = true ∧ issuerBusy laneS cS true = false ∧
    issuerBusy laneS cS false = false ∧ engTurns (.prefl2 c0) true (engS true (.prefl2 c0) []) = true := by decide +kernel

/-- A block in memory: its header, or one of another version. -/
def headed (ver size opc : Nat) : List (Nat × List Byte) := [(0x30000, fields 160 [(0, 2, ver), (2, 2, size), (4, 1, opc)])]

theorem witness_blocks_taken :
    (blockForms.all fun f =>
      let x := engS f.2.1 (f.1 c0) [] id (headed 1 f.2.2.2 f.2.2.1)
      let y := engS f.2.1 (f.1 c0) [] id (headed 2 f.2.2.2 f.2.2.1)
      let g : Eng := { cl := 0, copy := f.2.1 }
      engTurns (f.1 c0) f.2.1 x && x.2.prog.bytes.isEmpty && answers (takeBlock g x.2 f.2.2.1 f.2.2.2) x.1 == some () &&
        (match takeBlock g y.2 f.2.2.1 f.2.2.2 y.1 with | .error (.status 2) _ => true | _ => false)) = true := by decide +kernel

/-- A box record of tiles 0 to n of a TID. -/
def boxAt (off tid hi : Nat) (w : Bool) : List (Nat × Nat × Nat) := [(off, 2, tid), (off + 2, 2, if w then 1 else 0), (off + 0x18, 4, hi)]

def copyX (dst hi : Nat) : State × Cmd := engS true (.copy c0) (fields 160 (boxAt 0x20 2 1 false ++ boxAt 0x60 dst hi true))
def copy2X (pos : Nat) : State × Cmd :=
  engS true (.copy2 c0) (fields 64 [(0x18, 8, 0x60000), (0x20, 8, 0x62000), (0x28, 4, 16), (0x2C, 4, 2), (0x30, 8, 64), (0x38, 8, 16)])
    fun c => { c with prog := { c.prog with pos := pos } }
def fillX (mode count : Nat) : State × Cmd :=
  engS true (.fill c0) (if mode = 1 then fields 128 [(0x18, 8, 0x0706050403020100), (0x20, 1, 1), (0x28, 8, 0x603F0), (0x30, 8, 64)]
    else fields 128 ([(0x18, 8, 7), (0x22, 2, 3)] ++ boxAt 0x40 2 1 true)) fun c => { c with count := count }

theorem witness_copies :
    ([(3, 1), (4, 0), (3, 0)].all fun (d, h) => blockTurns (.copy c0) true (copyX d h) &&
      (answers (boxOp cE (copyX d h).2 0x20 false) (copyX d h).1).isSome &&
      (answers (boxOp cE (copyX d h).2 0x60 true) (doneIn (boxOp cE (copyX d h).2 0x20 false) (copyX d h).1)).isSome) = true := by decide +kernel

theorem witness_copies_read :
    (let (s, c) := copyX 3 1
     let s2 := doneIn (boxOp cE c 0x60 true) (doneIn (boxOp cE c 0x20 false) s)
     match answers (boxOp cE c 0x20 false) s with
     | some src => match answers (cmdReadTile cE c src.d (src.box.coords 0)) s2 with
       | some (body, sc) => body.length == 1024 && sc == []
       | none => false
     | none => false) = true := by decide +kernel

theorem witness_copy2 :
    ([0, 2].all fun i => blockTurns (.copy2 c0) true (copy2X i)) = true ∧
    (answers (cmdRead cE (copy2X 0).2 0x60000 16) (copy2X 0).1).map (·.length) = some 16 ∧
    answers (cmdWrite cE (copy2X 0).2 0x62000 (List.replicate 16 0)) (doneIn (cmdRead cE (copy2X 0).2 0x60000 16) (copy2X 0).1) = some () := by decide +kernel

theorem witness_fills :
    ([(1, 0), (1, 16), (1, 64), (0, 0), (0, 1)].all fun (m, n) => blockTurns (.fill c0) true (fillX m n)) = true ∧
    answers (cmdWrite cE (fillX 1 0).2 0x603F0 (List.replicate 16 7)) (fillX 1 0).1 = some () ∧
    (answers (boxOp cE (fillX 0 0).2 0x40 true) (fillX 0 0).1).map (fun d => (d.d.efmt, d.box.count)) = some (10, 2) := by decide +kernel

/-- Queue 5 takes bursts of the copy engine, queue 7 holds a burst of TID 3 for it, whole or not. -/
def engQ (x : State × Cmd) (whole : Bool := true) : State × Cmd :=
  let s := queued x.1 5 { cfg := BitVec.ofNat 32 (2 ^ 31 + 2 ^ 29 + 6 * 2 ^ 24 + 2 * 2 ^ 20 + 39) }
  (queued s 7 { cfg := BitVec.ofNat 32 (2 ^ 31 + 2 ^ 29 + 2 * 2 ^ 24 + 6 * 2 ^ 20 + (if whole then 2 ^ 17 else 0) + 39)
                entries := burstOf 3 [1, 0, 0, 0] }, x.2)
def strmqX (pos count : Nat) : State × Cmd :=
  engQ (engS true (.strmq c0) (fields 96 ([(0x18, 1, 5)] ++ boxAt 0x20 2 1 false))
    fun c => { c with count := count, prog := { c.prog with pos := pos } })
def drainqX (whole : Bool) (count : Nat) : State × Cmd :=
  engQ (engS true (.drainq c0) (fields 96 ([(0x18, 1, 7), (0x1C, 4, 1)] ++ boxAt 0x20 3 1 true)) fun c => { c with count := count }) whole

theorem witness_streams_to_queues :
    ([(0, 0), (19, 0), (19, 1)].all fun (pos, n) =>
      let (s, c) := strmqX pos n
      blockTurns (.strmq c0) true (s, c) && (queueRefuses (queueOf s 1 5) 6 1 true).isNone && (answers (boxOp cE c 0x20 false) s).isSome &&
        (answers (pushQueue 1 5 6 1 { data := leBytes 64 0 }) s).isSome) = true ∧
    ([(false, 0), (true, 0), (true, 1)].all fun (w, n) =>
      let (s, c) := drainqX w n
      blockTurns (.drainq c0) true (s, c) && (queueRefuses (queueOf s 1 7) 6 1 false).isNone && (queueOf s 1 7).whole == w &&
        (answers (boxOp cE c 0x20 true) s).map (fun d => d.box.contains [1, 0, 0, 0]) == some true) = true := by decide +kernel

/-- CSIG and ACCW of the address in `a`, with the doubleword there. -/
def sigX (a old : Nat) (scope : Nat := 2) : State × Cmd :=
  engS true (.csig { c0 with fn := scope }) [] (fun c => { c with av := BitVec.ofNat 64 a, scope := scope }) [(0x60000, leBytes 8 old)]
def accX (i : LaneFmt → Instr) (o : LaneFmt) (a old : Nat) : State × Cmd :=
  engS true (i o) [] (fun c => { c with av := BitVec.ofNat 64 a, dv := 7, fetch := some 8 }) [(0x60000, leBytes 8 old)]

/-- The gang of a launch is not committed. -/
def gangX : State × Cmd :=
  let (s, c) := sigX 0x60000 1 5
  ({ s with launches := [(1, { ctx := 1, order := 0, record := [], gang := .member 3 1 0 1 false })] }.setView (cE.agent c)
    { launch := some 1 }, c)

theorem witness_signals :
    ([sigX 0x60000 1, sigX 0x60004 1, sigX 0x60000 (2 ^ 64 - 1)].all fun x => engTurns (.csig { c0 with fn := 2 }) true x) = true ∧
    gangHolds (sigX 0x60000 1).1 (cE.agent (sigX 0x60000 1).2) = false ∧ engTurns (.csig { c0 with fn := 5 }) true gangX = true ∧
    gangHolds gangX.1 (cE.agent gangX.2) = true ∧
    (let (s, c) := sigX 0x60000 1
     let s0 := publishAs s (agentOf c.issuer) (cE.agent c) 2 (releaseIds (s.view (cE.agent c)))
     crewOf s c.issuer == c.crew &&
     answers (cmdPhys c 0x60000 8 true) s0 == some 0x60000 &&
       answers (readPort 0x60000 8) (doneIn (cmdPhys c 0x60000 8 true) s0) == some (some (leBytes 8 1))) = true ∧
    (([.accwAdd, .accwMin, .accwMinn, .accwMax, .accwMaxn, .accwAnd, .accwOr, .accwXor, .accwXchg, .accwCas] : List (LaneFmt → Instr)).all
      fun i => [4, 5].all fun n => engTurns (i { c0 with fn := n }) true (accX i { c0 with fn := n } 0x60000 7)) = true ∧
    (([.accwFaddF32, .accwFaddBf16, .accwFmax] : List (LaneFmt → Instr)).all fun i =>
      engTurns (i { c0 with fn := 4 }) true (accX i { c0 with fn := 4 } 0x60001 7)) = true := by decide +kernel

theorem test_csig_adds :
    answers (readPort 0x60000 8) (nextOf (exec (.csig { c0 with fn := 2 }) (sigX 0x60000 1).1)) = some (some (leBytes 8 6)) := by decide +kernel

/-- Index commands over the tensors, with their lists at 0x30100. -/
def ixMem : List (Nat × List Byte) :=
  [(0x30100, leBytes 4 3 ++ leBytes 4 70 ++ leBytes 4 1 ++ leBytes 4 0), (0x30200, leBytes 4 0 ++ leBytes 4 2 ++ leBytes 4 1),
   (0x30300, leBytes 4 77 ++ leBytes 4 2 ++ leBytes 8 0), (0x67000, leBytes 8 0x15), (0x67400, leBytes 8 0x14),
   (0x69400, (List.range 4).flatMap fun i => leBytes 8 ((0x69000 / 64 + i) * 64 % 64 + i * 64)),
   (0x30400, (List.range 3).flatMap fun i => leBytes 4 (5 - i) ++ leBytes 4 i ++ leBytes 8 0), (0x30500, leBytes 4 1 ++ leBytes 4 2 ++ leBytes 4 3)]

def gathX (n count opt : Nat) : State × Cmd :=
  engS false (.gath c0) (fields 64 [(0x18, 2, 2), (0x1A, 2, 3), (0x1C, 2, opt), (0x20, 8, 0x30100), (0x28, 4, n)]) (fun c => { c with count := count }) ixMem
def scatX (n count pos op opt : Nat) : State × Cmd :=
  engS false (.scat c0) (fields 64 [(0x18, 2, 2), (0x1A, 2, 3), (0x1C, 2, op * 16 + opt), (0x20, 8, 0x30100), (0x28, 4, n),
    (0x30, 8, if opt / 4 % 2 = 1 then 0x30300 else 0)]) (fun c => { c with count := count, prog := { c.prog with pos := pos } }) ixMem
def bagsX (ofs : Nat) : State × Cmd :=
  engS false (.bags c0) (fields 64 [(0x18, 2, 10), (0x1A, 2, 3), (0x1C, 2, 1), (0x20, 8, 0x30100), (0x28, 8, 0x30200 + ofs), (0x30, 4, 1)])
    (more := id) ixMem
def isectX (nums : List Nat) : State × Cmd :=
  engS false (.isect c0) (fields 64 [(0x18, 2, 7), (0x1A, 2, 8), (0x20, 8, 0x31000), (0x28, 8, 0x32000), (0x30, 8, 0x33000)])
    (fun c => { c with prog := { c.prog with nums := nums } }) ixMem
def msortX : State × Cmd :=
  engS false (.msort c0) (fields 64 [(0x18, 2, 9), (0x1A, 2, 1), (0x20, 8, 0x30400), (0x28, 8, 0x30500), (0x30, 4, 3)]) (more := id) ixMem
def spsrchX (pos : Nat) : State × Cmd :=
  engS false (.spsrch c0) (fields 32 [(0x18, 2, 4), (0x1A, 2, 5), (0x1C, 2, 6)]) (fun c => { c with prog := { c.prog with pos := pos } }) ixMem

/-- The descriptors two TIDs name, and the state after reading them. -/
def twoDescs (x : State × Cmd) (a b : Nat) (w : Bool) : Option (Desc × Desc) × State :=
  let s1 := doneIn (cmdDesc xE x.2 a false) x.1
  match answers (cmdDesc xE x.2 a false) x.1, answers (cmdDesc xE x.2 b w) s1 with
  | some p, some q => (some (p, q), doneIn (cmdDesc xE x.2 b w) s1)
  | _, _ => (none, s1)

theorem witness_gathers :
    ([(2, 0, 0), (2, 2, 0)].all fun (n, count, opt) =>
      let x := gathX n count opt
      blockTurns (.gath c0) false x &&
        (match twoDescs x 2 3 true with
         | (some (a, b), s2) => a.nd == 2 && a.kind == 0 && b.nd == 2 && b.kind == 0 && a.dim0 == 16 && b.dim0 == 16 && a.efmt == b.efmt &&
             a.nfd == b.nfd && a.rax == 0 && b.dim1 == 64 && answers (indexAt xE x.2 0x30100 1) s2 == some 70 &&
             (answers (denseRow xE x.2 a 3) s2).map (·.1.length) == some 16
         | _ => false)) = true := by decide +kernel

theorem witness_gathers_out_of_range :
    ([(2, 1, 0), (2, 1, 1)].all fun (n, count, opt) =>
      let x := gathX n count opt
      blockTurns (.gath c0) false x &&
        (match twoDescs x 2 3 true with
         | (some (a, b), s2) => a.nd == 2 && a.kind == 0 && b.nd == 2 && b.kind == 0 && a.dim0 == 16 && b.dim0 == 16 && a.efmt == b.efmt &&
             a.nfd == b.nfd && a.rax == 0 && b.dim1 == 64 && answers (indexAt xE x.2 0x30100 1) s2 == some 70 &&
             (answers (denseRow xE x.2 a 3) s2).map (·.1.length) == some 16
         | _ => false)) = true := by decide +kernel

theorem witness_scatters_end :
    (([(1, 1, 0, 0, 0), (1, 1, 0, 1, 4)] : List (Nat × Nat × Nat × Nat × Nat)).all
      fun (n, count, pos, op, opt) =>
        let x := scatX n count pos op opt
        blockTurns (.scat c0) false x && (answers (scatOperands xE x.2) x.1).map (fun z => (z.n, z.op, z.ordered, z.qin, z.oobz)) ==
          some (n, op, opt == 4, false, opt == 1)) = true := by decide +kernel

theorem witness_scatters_out_of_range :
    (([(2, 1, 0, 1, 1), (2, 1, 0, 1, 0)] : List (Nat × Nat × Nat × Nat × Nat)).all
      fun (n, count, pos, op, opt) =>
        let x := scatX n count pos op opt
        blockTurns (.scat c0) false x && (answers (scatOperands xE x.2) x.1).map (fun z => (z.n, z.op, z.ordered, z.qin, z.oobz)) ==
          some (n, op, opt == 4, false, opt == 1)) = true := by decide +kernel

theorem witness_scatters_rows :
    (([(1, 0, 0, 0, 0), (1, 0, 16, 1, 0)] : List (Nat × Nat × Nat × Nat × Nat)).all
      fun (n, count, pos, op, opt) =>
        let x := scatX n count pos op opt
        blockTurns (.scat c0) false x && (answers (scatOperands xE x.2) x.1).map (fun z => (z.n, z.op, z.ordered, z.qin, z.oobz)) ==
          some (n, op, opt == 4, false, opt == 1)) = true := by decide +kernel

theorem witness_scatters_elements :
    (([(1, 0, 3, 1, 0), (1, 0, 3, 1, 4)] : List (Nat × Nat × Nat × Nat × Nat)).all
      fun (n, count, pos, op, opt) =>
        let x := scatX n count pos op opt
        blockTurns (.scat c0) false x && (answers (scatOperands xE x.2) x.1).map (fun z => (z.n, z.op, z.ordered, z.qin, z.oobz)) ==
          some (n, op, opt == 4, false, opt == 1)) = true := by decide +kernel

theorem witness_scatter_adds : (scatAcc 10 1, scatAcc 10 2) = (some .fadd, some .fmax) := by decide +kernel

theorem witness_bags :
    ([0, 4].all fun ofs =>
      let x := bagsX ofs
      blockTurns (.bags c0) false x &&
        (match twoDescs x 10 3 true with
         | (some (t, d), s2) => t.kind == 4 && d.dim0 == t.dim0 && d.efmt == 10 && (answers (cmdRead xE x.2 (0x30200 + ofs) 8) s2).isSome &&
             (ofs != 0 || (answers (bagRows xE x.2 t true false 0x30100 2 0 { acc := List.replicate 16 0 }) s2).map (·.events) == some 1)
         | _ => false)) = true := by decide +kernel

theorem witness_walks :
    (([[]] : List (List Nat)).all fun nums =>
      let x := isectX nums
      blockTurns (.isect c0) false x &&
        (match twoDescs x 7 8 false with
         | (some (a, b), s2) => a.kind == 3 && b.kind == 3 && a.nd == 1 && b.nd == 1 && a.dim0 == 64 && b.dim0 == 64 &&
             answers (occWord xE x.2 a 0) s2 == some 0x15 && answers (readPacked xE x.2 a.base 32 1 1) s2 == some [0]
         | _ => false)) = true := by decide +kernel

theorem witness_walks_begun :
    ([[1, 0, 0, 0x15, 0x14, 0x14], [1, 0, 0, 0x15, 0x14, 0]].all fun nums =>
      let x := isectX nums
      blockTurns (.isect c0) false x &&
        (match twoDescs x 7 8 false with
         | (some (a, b), s2) => a.kind == 3 && b.kind == 3 && a.nd == 1 && b.nd == 1 && a.dim0 == 64 && b.dim0 == 64 &&
             answers (occWord xE x.2 a 0) s2 == some 0x15 && answers (readPacked xE x.2 a.base 32 1 1) s2 == some [0]
         | _ => false)) = true := by decide +kernel

theorem witness_sorts :
    (let x := msortX
     blockTurns (.msort c0) false x &&
       (match answers (cmdDesc xE x.2 9 true) x.1 with
        | some d => d.kind == 2 && (answers (readCoords xE x.2 d 0x30400 0x30500 3 0) (doneIn (cmdDesc xE x.2 9 true) x.1)).map (·.length) == some 3
        | _ => false)) = true := by decide +kernel

theorem witness_searches :
    ([0, 31].all fun pos =>
      let x := spsrchX pos
      blockTurns (.spsrch c0) false x &&
        (match twoDescs x 4 5 false with
         | (some (a, b), s2) => a.efmt == 11 && b.efmt == 11 && a.dim0 == 16 && a.dim1 == 64 && b.dim0 == 16 && b.dim1 == 64 &&
             (answers (cmdDesc xE x.2 6 true) s2).map (fun m => (m.efmt, m.dim0, m.dim1, m.kind)) == some (6, 2, 64, 0)
         | _ => false)) = true := by decide +kernel

/-! ### Witnesses: lanes of threads, queues of index commands, kinds of rows (R90, R93-R95, R176, R298, R314-R321) -/

/-- Thread 0's registers 6 and 7 hold an address and a number; its engine has 32 commands, none begun. -/
def laneA (a : Nat := 0x30000) : State := holding (holding baseA tA 6 (BitVec.ofNat 64 a)) tA 7 3
def laneFullA (copy : Bool) : State :=
  (laneA).setCluster 0 (((laneA).cluster 0).setQueueOf copy (List.replicate 32 (engS true (.prefl2 c0) []).2))

/-- A lane's fields, its address in register 6. -/
def laneFields (k : LaneKind) : LaneFmt :=
  let o : LaneFmt := if k.block then { c0 with a := 6 } else { c0 with a := 6, b := 7, d := if k.fetches then 8 else 0 }
  [o, { o with b := 0, d := 0 }, { o with fn := 1 }, { o with fn := 4 }].find? (fun o => (k.lane o).wf) |>.getD o

/-- What a thread's lane pins, and whether its issue pins are taken, or their fault. -/
def lanePins (k : LaneKind) (a : Nat := 0x30000) : Option (Option Exc) :=
  let o := laneFields k
  match issueRanges k o 0 (BitVec.ofNat 64 a) (laneA a) with
  | .ok rs s1 => match issuePins 0 9 rs s1 with
    | .ok _ _ => some none
    | .error (.trap e) _ => some (some e)
    | _ => none
  | _ => none

theorem witness_thread_lanes :
    (laneKinds.all fun k =>
      (k.lane (laneFields k)).wf && curOwner laneA == some tA && (laneRegs k (laneFields k)).all (regReady laneA tA) &&
        decide (waiting laneA tA k.copy < 32) && (lanePins k).isSome) = true ∧
    ((laneKinds.filter fun k => lanePins k == some none).length = 25) := by decide +kernel

theorem witness_thread_lane_faults :
    ((lanePins (accKind .accwAdd accBytes) (2 ^ 48)).map fun e => e.map (·.cause)) = some (some 5) ∧
    (∀ k ∈ [(true, 32), (false, 32)], ((((laneFullA k.1).cluster 0).queueOf k.1).filter fun e => !e.prog.begun).length = k.2) ∧
    (match issueRanges { lane := .copy, copy := true } { c0 with a := 6 } 0 (BitVec.ofNat 64 (2 ^ 48)) (laneA (2 ^ 48)) with
      | .error (.trap e) _ => e.cause == 5
      | _ => false) = true := by decide +kernel

theorem witness_issue_pins :
    ([(0x30000, 0x31000), (2 ^ 48, 0x31000), (0x30000, 2 ^ 48), (2 ^ 48 + 64, 2 ^ 48), (2 ^ 48, 2 ^ 48 + 64)].map fun x =>
      match walkRanges 1 2 false false [(x.1, 8)] laneA with
      | .ok a s1 => match walkRanges 1 2 true false [(x.2, 8)] s1 with
        | .ok b _ => some (a.isOk, b.isOk)
        | _ => none
      | _ => none) = [some (true, true), some (false, true), some (true, false), some (false, false), some (false, false)] := by decide +kernel

/-- Queue 5 takes lines of the index engine, queue 8 holds entries for it. -/
def ixQ (x : State × Cmd) (es : List QEntry := []) (wide : Bool := true) : State × Cmd :=
  let s := queued x.1 5 { cfg := BitVec.ofNat 32 (2 ^ 31 + (if wide then 2 ^ 29 else 0) + 7 * 2 ^ 24 + 2 * 2 ^ 20 + 39) }
  (queued s 8 { cfg := BitVec.ofNat 32 (2 ^ 31 + 2 ^ 29 + 2 * 2 ^ 24 + 7 * 2 ^ 20 + 39), entries := es }, x.2)

/-- GATH to the queue, holding bytes of a row. -/
def gathQX (tid count opt : Nat) (nums : List Nat := []) (pos : Nat := 0) : State × Cmd :=
  ixQ (engS false (.gath c0) (fields 64 [(0x18, 2, tid), (0x1C, 2, opt), (0x1E, 2, 5), (0x20, 8, 0x30100), (0x28, 4, 2)])
    (fun c => { c with count := count, prog := { c.prog with nums := nums, pos := pos } }) ixMem)

/-- The queue of an index command, in its state after its descriptors. -/
def queueStands (s : State) (c : Cmd) (q : Nat) (push : Bool) (width : Nat := 1) : Bool :=
  c.crew == some 1 && (queueOf s 1 q).width == width && (queueRefuses (queueOf s 1 q) 7 width push).isNone

theorem witness_gathers_to_queues :
    (([(2, 0, 2), (2, 1, 2), (2, 1, 3), (10, 0, 2)] : List (Nat × Nat × Nat)).all fun (tid, count, opt) =>
      let x := gathQX tid count opt
      let s1 := doneIn (cmdDesc xE x.2 tid false) x.1
      blockTurns (.gath c0) false x && queueStands s1 x.2 5 true &&
        (answers (cmdDesc xE x.2 tid false) x.1).map (fun d => (d.nd, d.rax, d.efmt == 13)) == some (2, 0, false) &&
        (answers (indexAt xE x.2 0x30100 count) s1) == some (if count = 0 then 3 else 70)) = true := by decide +kernel

theorem witness_rows_pushed :
    (([(64, 0), (128, 0), (128, 1)] : List (Nat × Nat)).all fun (n, pos) =>
      let x := gathQX 2 0 2 (List.replicate n 1) pos
      let s1 := doneIn (cmdDesc xE x.2 2 false) x.1
      blockTurns (.gath c0) false x && queueStands s1 x.2 5 true &&
        (answers (pushQueue 1 5 7 1 { data := List.replicate 64 1, h := decide (pos = 0) }) s1).isSome) = true := by decide +kernel

theorem witness_gathers_classes :
    (let x := engS false (.gath c0) (fields 64 [(0x18, 2, 10), (0x1A, 2, 4), (0x20, 8, 0x30100), (0x28, 4, 1)]) (more := id) ixMem
     blockTurns (.gath c0) false x &&
       match twoDescs x 10 4 true with
       | (some (a, b), s2) => a.kind == 4 && a.nd == 2 && a.rax == 0 && b.efmt == 11 && b.nd == 2 && b.kind == 0 && a.dim0 == b.dim0 &&
           (match answers (tableRow xE x.2 a 3) s2 with | some (.ok (vs, _)) => vs.length == 16 | _ => false)
       | _ => false) = true := by decide +kernel

/-- SCAT of its queue, its first entry as given. -/
def scatQX (n count taken op opt : Nat) (e : QEntry) (pos : Nat := 0) : State × Cmd :=
  ixQ (engS false (.scat c0) (fields 64 [(0x1A, 2, 3), (0x1C, 2, op * 16 + 2 + opt), (0x1E, 2, 8), (0x20, 8, 0x30100), (0x28, 4, n),
      (0x30, 8, if opt = 4 then 0x30300 else 0)])
    (fun c => { c with count := count
                       prog := { c.prog with count := taken, nums := List.replicate (64 * taken) 1, pos := pos } }) ixMem) [e]

theorem witness_scatters_of_queues :
    (([(0, 0, 0, 0), (1, 0, 0, 0), (1, 0, 16, 1), (1, 0, 3, 1), (1, 4, 3, 1)] : List (Nat × Nat × Nat × Nat)).all fun (taken, opt, pos, op) =>
      [({ data := List.replicate 64 1, h := true, t := true } : QEntry), { data := List.replicate 64 1, h := true, t := true, p := true },
        { data := List.replicate 64 1, h := true }].all fun e =>
        let x := scatQX 1 0 taken op opt e pos
        let s1 := doneIn (scatOperands xE x.2) x.1
        blockTurns (.scat c0) false x && queueStands s1 x.2 8 false &&
          (answers (scatOperands xE x.2) x.1).map (fun z => (z.n, z.op, z.ordered, z.qin, z.oobz, z.q, z.width)) ==
            some (1, op, opt == 4, true, false, 8, 1) &&
          answers (indexAt xE x.2 0x30100 0) s1 == some 3) = true := by decide +kernel

theorem witness_scatters_of_queues_skip :
    (let x := scatQX 2 1 1 0 1 { data := List.replicate 64 1, h := true, t := true }
     let s1 := doneIn (scatOperands xE x.2) x.1
     blockTurns (.scat c0) false x && (answers (scatOperands xE x.2) x.1).map (fun z => (z.n, z.qin, z.oobz)) == some (2, true, true) &&
       answers (indexAt xE x.2 0x30100 1) s1 == some 70 && rowEntries 64 32 16 false == 1) = true := by decide +kernel

/-- BAGS to the queue. -/
def bagsQX (ofs : Nat) (nums : List Nat) : State × Cmd :=
  ixQ (engS false (.bags c0) (fields 64 [(0x18, 2, 10), (0x1C, 2, 3), (0x1E, 2, 5), (0x20, 8, 0x30100), (0x28, 8, 0x30200 + ofs), (0x30, 4, 1)])
    (fun c => { c with prog := { c.prog with nums := nums } }) ixMem)

theorem witness_bags_to_queues :
    ([[], List.replicate 64 1].all fun nums =>
      let x := bagsQX 0 nums
      let s1 := doneIn (cmdDesc xE x.2 10 false) x.1
      blockTurns (.bags c0) false x && queueStands s1 x.2 5 true &&
        (answers (cmdDesc xE x.2 10 false) x.1).map (·.kind) == some 4 && (answers (cmdRead xE x.2 0x30200 8) s1).isSome &&
        (match answers (cmdDesc xE x.2 10 false) x.1 with
          | some t => (answers (bagRows xE x.2 t true false 0x30100 2 0 { acc := List.replicate 16 0 })
              (doneIn (cmdRead xE x.2 0x30200 8) s1)).isSome
          | none => false) &&
        (answers (pushQueue 1 5 7 1 { data := List.replicate 64 1, h := true, t := true }) s1).isSome) = true := by decide +kernel

/-- ISECT in mode 1 over 16-bit values, its walk as given. -/
def isectQX (nums : List Nat) : State × Cmd :=
  ixQ (engS false (.isect c0) (fields 64 [(0x18, 2, 11), (0x1A, 2, 12), (0x1C, 1, 1), (0x1D, 1, 5)])
    (fun c => { c with prog := { c.prog with nums := nums } })
    (ixMem ++ [(0x502C0, tensor 0x66800 0 0x67000 0 64 0 0 0x98B00000 ++ tensor 0x66C00 0 0x67400 0 64 0 0 0x98B00000)])) [] false

theorem witness_walks_to_queues :
    (([[], [1, 0, 0, 0x15, 0x14, 0x14], [1, 0, 0, 0x15, 0x14, 0x10, 2, 7, 8], [1, 0, 0, 0x15, 0x14, 0, 2, 7, 8], [1, 0, 0, 0x15, 0x14, 0]] :
        List (List Nat)).all fun nums =>
      let x := isectQX nums
      blockTurns (.isect c0) false x && (Walk.ofNums nums).held.length == nums.length - 6 &&
        (match twoDescs x 11 12 false with
         | (some (a, b), s2) => a.kind == 3 && b.kind == 3 && a.nd == 1 && b.nd == 1 && a.dim0 == 64 && b.dim0 == 64 && a.elemBits == 16 &&
             b.elemBits == 16 && queueStands s2 x.2 5 true 0 && answers (occWord xE x.2 a 0) s2 == some 0x15 &&
             answers (readPacked xE x.2 a.base 16 1 1) s2 == some [0] && (answers (pushQueue 1 5 7 0 { data := leBytes 8 0 }) s2).isSome
         | _ => false)) = true := by decide +kernel

/-- An index command over tables of other kinds: a block order, coordinates, bitmaps, a sparse table of rows, classes of rows. -/
def rowX : State × Cmd :=
  engS false (.gath c0) [1] id
    [(0x60000, leBytes 4 7 ++ leBytes 4 8 ++ leBytes 4 9), (0x60400, leBytes 4 5), (0x68400, leBytes 2 1 ++ leBytes 2 5), (0x68800, leBytes 8 (2 ^ 49)),
     (0x67000, leBytes 8 0x15), (0x69800, leBytes 2 1 ++ leBytes 2 0), (0x69900, leBytes 4 0 ++ leBytes 4 2 ++ leBytes 4 2), (0x69A00, leBytes 4 3 ++ leBytes 4 1),
     (0x69B00, leBytes 8 (64 * 0) ++ leBytes 8 (64 * 2 + 1) ++ leBytes 8 (64 * 2 + 2))]
def rowD (kind side aux d0 d1 : Nat) : Desc :=
  { base := 0x60000, scale := 0x1400, side := side, aux := aux, dim0 := d0, dim1 := d1, dim2 := 0, dim3 := 0, str1 := 4, str2 := 0, str3 := 0
    ctl := 0x80A40000 + 2 ^ 27 * kind + (if kind = 4 then 0x10581D else 0) }

theorem witness_row_kinds :
    (rowD 1 0 0x69800 64 16).kind = 1 ∧ answers (cmdRead xE rowX.2 0x69800 4) rowX.1 = some [1, 0, 0, 0] ∧
    isPermutation (halves [1, 0, 0, 0]) 2 = true ∧
    (answers (storedRow xE rowX.2 (rowD 1 0 0x69800 64 16) 0 8 0) rowX.1).map (fun x => x.1.take 2) = some [7, 8] ∧
    (answers (denseRow xE rowX.2 (rowD 1 0 0x69800 64 16) 0) rowX.1).map (fun x => (x.1.drop 32).take 2) = some [7, 8] ∧
    (rowD 2 0x68400 0x68800 8 32).kind = 2 ∧
    answers (coomRow xE rowX.2 (rowD 2 0x68400 0x68800 8 32) 0 1 0) rowX.1 = some [(1, 7), (3, 8)] ∧
    (rowD 3 0x67000 0 64 1).kind = 3 ∧ (rowD 3 0x67000 0 64 1).dimOf 1 = 1 ∧
    answers (cmdRead xE rowX.2 0x67000 8) rowX.1 = some (leBytes 8 0x15) ∧
    (answers (denseRow xE rowX.2 (rowD 3 0x67000 0 64 1) 0) rowX.1).map (·.1.take 5) = some [7, 0, 8, 0, 9] ∧
    (answers (denseRow xE rowX.2 (rowD 3 0x67000 0x69C00 64 2) 0) rowX.1).map (·.1.take 5) = some [7, 0, 8, 0, 9] ∧
    (rowD 5 0x69900 0x69A00 8 2).kind = 5 ∧ answers (cmdRead xE rowX.2 0x69A00 8) rowX.1 = some (leBytes 4 3 ++ leBytes 4 1) ∧
    (answers (denseRow xE rowX.2 (rowD 5 0x69900 0x69A00 8 2) 0) rowX.1).map (·.1) = some [0, 8, 0, 7, 0, 0, 0, 0] ∧
    (answers (denseRow xE rowX.2 (rowD 5 0x69900 0x69A00 8 2) 1) rowX.1).map (·.1) = some (List.replicate 8 0) := by decide +kernel

theorem witness_row_classes :
    ([0, 1, 2].all fun r =>
      let d := rowD 4 0 0x69B00 8 3
      let s1 := doneIn (tableRead xE rowX.2 (0x69B00 + 8 * r) 8) rowX.1
      d.kind == 4 && answers (tableRead xE rowX.2 (0x69B00 + 8 * r) 8) rowX.1 == some (some (leBytes 8 (if r = 0 then 0 else 64 * 2 + r))) &&
        answers (tableRead xE rowX.2 (if r = 0 then 0x60000 else 0x60080) (if r = 0 then 16 else packedBytes (if r = 1 then 8 else 4) 8)) s1 ==
          some (some (if r = 0 then leBytes 4 7 ++ leBytes 4 8 ++ leBytes 4 9 ++ List.replicate 4 0
            else List.replicate (packedBytes (if r = 1 then 8 else 4) 8) 0)) &&
        (match answers (tableRow xE rowX.2 d r) rowX.1 with | some (.ok (vs, _)) => vs.length == 8 | _ => false)) = true := by decide +kernel

theorem witness_padded : rowBytes 64 16 false [1, 2] [] = leBytes 2 1 ++ leBytes 2 2 ++ List.replicate 60 0 := by decide +kernel

/-- MSORT of two entries of four bits each. -/
theorem witness_sorts_nibbles :
    (let x := engS false (.msort c0) (fields 64 [(0x18, 2, 11), (0x1A, 2, 1), (0x20, 8, 0x30400), (0x28, 8, 0x30500), (0x30, 4, 3)]) (more := id)
       (ixMem ++ [(0x502C0, tensor 0x68000 0 0x68400 0x68800 64 32 0 0x90540000)])
     let s1 := doneIn (cmdDesc xE x.2 11 true) x.1
     blockTurns (.msort c0) false x &&
       match answers (cmdDesc xE x.2 11 true) x.1 with
        | some d => d.kind == 2 && d.elemBits == 4 &&
            (match answers (readCoords xE x.2 d 0x30400 0x30500 3 0) s1 with
              | some raw => (mergeCoords d true [] (sortBy Coord.before raw) 0).1.length == 3
              | none => false) && (answers (writePacked xE x.2 d.base 4 2 1) s1).isSome
        | _ => false) = true := by decide +kernel

/-! ### Witnesses: completion, epochs, replays (R301-R303, R313, R318, R477) -/

/-- A command with a reply record, a fetch register, a counter and flags as given. -/
def endX (copy : Bool) (reply : Nat) (fetch : Option Nat) (cntr : Nat := 0) : State × Cmd :=
  let i : Instr := if copy then .fill c0 else .gath c0
  let (s, c) := engS copy i [1] fun c => { c with reply := reply, cntr := cntr, flags := 5, events := 2, count := 3, fetch := fetch }
  (match fetch with
   | some r => withPend s c.issuer r (.cmd c.id)
   | none => s, c)

theorem witness_completion :
    ([true, false].all fun copy =>
      let g : Eng := { cl := 0, copy := copy }
      let (s, c) := endX copy 0x60000 none
      let (t, d) := endX copy 0 (some 8)
      answers (cmdWrite g c c.reply (leBytes 2 1 ++ leBytes 2 5 ++ leBytes 4 2 ++ leBytes 8 3)) s == some () && c.reply != 0 &&
        d.reply == 0 && d.crew == some 1 && answers (stickyFlags g d) t == some () && d.fetch == some 8 && d.cntr == 0 &&
        (t.scalar d.issuer).pend.find? 8 == some (.cmd d.id) && answers (fillFetch d 0) t == some () &&
        (let u := doneIn (stickyFlags g d) t
         answers (event d.ctx 1 5 (handleOf (u.crew 1)) d.av.toNat 5) u == some ())) = true := by decide +kernel

/-- A command whose reply stands, its release held by its gang; and one of no counter that may leave. -/
theorem witness_completion_holds :
    (let (s, c) := endX true 0x60000 none
     c.replied = false ∧ { c with replied := true }.replied = true ∧ c.cntr = 0 ∧ c.scope < 5 ∧ gangHolds s (cE.agent c) = false ∧
       ownerAway s c.issuer = false) ∧ (endX true 0x60000 none 0x61000).2.cntr = 0x61000 ∧
    gangHolds gangX.1 (cE.agent gangX.2) = true ∧ gangX.2.scope = 5 := by decide +kernel

theorem test_completion_replies :
    (let (s, c) := endX true 0x60000 none
     let t := doneIn (complete cE c 5) s
     (leNat ((List.range 16).map fun i => t.mem.port (0x60000 + i)), (t.cluster 0).copyQ.length)) =
      (5 + 5 * 2 ^ 16 + 2 * 2 ^ 32 + 3 * 2 ^ 64, 0) := by decide +kernel

/-- An epoch of two closes at one port with two accumulates held out of order. -/
def heldAdds : List HeldAdd :=
  [{ cl := 1, seq := 0, cmd := 9, pa := 0x60000, efmt := 3, op := 1, v := 5 }, { cl := 0, seq := 1, cmd := 9, pa := 0x60000, efmt := 3, op := 2, v := 9 }]
def epochS (closes : Nat) (applied : Bool) : State :=
  { (endX false 0 none).1 with
    cur := .package
    epochs := [(7, { nsrc := 2, closes := closes, waiting := [(9, [4])]
                     ports := [(4, { held := if applied then [] else heldAdds, applied := applied })] })] }

theorem witness_epochs :
    (epochS 1 false).epochs.find? 7 ≠ none ∧ (epochS 1 false).epochs.find? 8 = none ∧
    ([(1, false), (2, true), (2, false)].all fun (n, a) => ((epochS n a).epochs.getD 7 {}).closes == n &&
      (((epochS n a).epochs.getD 7 {}).ports.all fun p => p.2.applied == a)) = true ∧
    answers (pick 0 0) (epochS 2 false) = some 0 ∧ answers (applyAllHeld (sortBy HeldAdd.before heldAdds)) (epochS 2 false) = some () := by
  decide +kernel

theorem test_epoch_applies_in_order :
    leNat ((List.range 4).map fun i => (nextOf (exec (.epochApply 7) (epochS 2 false))).mem.port (0x60000 + i)) = 14 := by decide +kernel

/-- Port 4 has applied sequences 5 and 6 of source 1, and forgotten those before. -/
def replayS : State := { epochS 1 false with portLogs := [(4 * 128 + 1, { next := 7, recent := [(5, some 0), (6, some 3)] })] }

theorem witness_replays :
    (replayS.portLogs.getD (4 * 128 + 1) {}).next = 7 ∧ ((replayS.portLogs.getD (4 * 128 + 1) {}).recent.map (·.1)) = [5, 6] := by
  decide +kernel

theorem test_replay_changes_nothing : 
    nextOf (exec (.portRequestReplay 1 6 { port := 4 }) replayS) = replayS := by decide +kernel

theorem witness_remote :
    answers (remoteAct 1 { port := 4, pkg := some 7, pa := 0x30000, act := .signal 3 } 7) replayS = some (some 0) := by
  decide +kernel

/-- A new signal of another package at a counter of 5 adds 3, and is recorded with the old value (R313). -/
theorem test_remote_signal :
    let t := nextOf (exec (.portRequestReplay 1 6 { port := 4, pkg := some 7, pa := 0x30000, act := .signal 3 })
      { replayS with mem := replayS.mem.pokes 0x30000 [5#8] })
    t.mem.port 0x30000 = 8 ∧ (t.portLogs.getD (logKey (some 7) 4 1) {}).recent = [(6, some 5)] ∧
    (t.portLogs.getD (logKey (some 7) 4 1) {}).next = 7 := by decide +kernel

theorem completes_linkReports (port : Nat) (l : List Nat) : Completes (linkReports port l) := by
  induction l with
  | nil => exact Completes.pure _
  | cons x t ih =>
    unfold linkReports
    refine (completes_pick _ _).bind fun k => ?_
    split
    · exact (completes_event _ _ _ _ _ _).bind fun _ => ih
    · exact ih

theorem completes_linkDown (port : Nat) : Completes (linkDown port) := by
  unfold linkDown
  exact (Completes.upd _).bind fun _ => (Completes.upd _).bind fun _ => Completes.get.bind fun _ => completes_linkReports _ _

theorem completes_strayReports (port pkg : Nat) (l : List Nat) : Completes (strayReports port pkg l) := by
  induction l with
  | nil => exact Completes.pure _
  | cons x t ih =>
    unfold strayReports
    refine (completes_pick _ _).bind fun k => ?_
    split
    · exact (completes_event _ _ _ _ _ _).bind fun _ => ih
    · exact ih

/-- A sequence of source 1 older than what its port remembers is an error that lasts. -/
theorem witness_stray_replay :
    ((replayS.portLogs.getD (logKey none 4 1) {}).next = 7 ∧ (∀ x ∈ (replayS.portLogs.getD (logKey none 4 1) {}).recent, x.1 ≠ 2)) ∧
    ∀ pkg s, ∃ s1, strayReplay pkg 1 s = .ok () s1 := by
  refine ⟨by decide +kernel, fun pkg s => ?_⟩
  have h : Completes (strayReplay pkg 1) := by
    unfold strayReplay
    refine (completes_pick _ _).bind fun port => (Completes.upd _).bind fun _ => Completes.get.bind fun s => ?_
    have last : Completes (do let s ← get; if linkLanes s port = 0 then pure () else linkDown port : M Unit) := by
      refine Completes.get.bind fun s => ?_
      split
      · exact Completes.pure _
      · exact completes_linkDown _
    split
    · exact (completes_strayReports _ _ _).bind fun _ => last
    · refine (completes_pick _ _).bind fun i => ?_
      split
      · exact (completes_event _ _ _ _ _ _).bind fun _ => (Completes.upd _).bind fun _ => last
      · exact last
  exact (h s).elim fun _ h => h

/-! ### Witnesses: launches and gangs (R119, R368-R374, R378-R382) -/

/-- A record of no version in context 1's port, from the host or from a LAUNCH command; a port of `n` records. -/
def portS (n : Nat) (o : Origin := .host []) : State :=
  { baseA.setContext 1 { baseA.context 1 with port := List.replicate n { record := List.replicate 64 0, origin := o } } with cur := .package }

theorem witness_port_writes :
    State.reset.boot ≠ 0xFF#16 ∧ (portS 0).boot = 0xFF#16 ∧ (portS 0).contexts.find? (0x5000 / 4096) = none ∧
    ([portS 63, portS 64].all fun s => (s.contexts.find? (0x1000 / 4096)).isSome) = true ∧ ((portS 64).context 1).port.length = 64 ∧
    ((portS 63).context 1).port.length = 63 ∧ 0x1000 % 4096 = 0 ∧ 0x1010 % 4096 ≠ 0 := by decide +kernel

/-- LAUNCH with its record in its block, queued or not, and answered or not. -/
def launchX (pos : Nat) (st : Option Nat) : State × Cmd :=
  engS true (.launch c0) (fields 96 [(0x20, 2, 1), (0x22, 1, 1)]) fun c => { c with prog := { c.prog with pos := pos }, status := st }

theorem witness_launch :
    blockTurns (.launch c0) true (launchX 0 none) = true ∧ (((launchX 0 none).1.context 1).port.length, (launchX 0 none).2.ctx) = (0, 1) ∧
    ((launchX 0 none).2.prog.bytes.drop 0x18).take 8 = List.replicate 8 0 ∧
    (let (s, c) := launchX 1 (some 35)
     (engineHead s s.cur == some (0, c) && !c.lost) = true ∧ c.status = some 35) := by decide +kernel

theorem witness_refusals :
    ([Origin.host [], .command 9 0].all fun o =>
      let s := portS 1 o
      let p := (s.context 1).port.headD { record := [], origin := .host [] }
      (match acceptRecord 1 p s with | .error (.status n) _ => n == 35 | _ => false) &&
        answers (launchReply 1 (recReply p.record) 35 0 0 4) (answerOrigin o 35 0 (popPort 1 s)) == some ()) = true := by decide +kernel

/-- Launch 20 of one card's instance: waiting, or reported; it may have been stopped. -/
def launchedS (st : InstState) (stopped : Option Nat) (reply : Nat := 0x60000) : State :=
  { baseA with cur := .package, launches := [(20, {
      ctx := 1, order := 20, record := [], levels := [{ count := 1, domain := 1, scope := 2 }], reply := reply, cntr := reply + 0x100
      cards := [{ bytes := List.replicate 1024 0 }], insts := [(instKey 0 0, st)], stopped := stopped, completed := 1 })] }

theorem witness_ends_of_launches :
    ([(InstState.waiting, none), (.reported, none), (.dispatched 1, some 36), (.waiting, some 36)].all fun (st, stop) =>
      let s := launchedS st stop
      let l := s.launches.getD 20 { ctx := 0, order := 0, record := [] }
      (launchOver l == (st == .reported || (st == .waiting && stop.isSome))) && !l.finished &&
        (match l.gang with | .none => true | _ => false) &&
        (let x := launchReply l.ctx l.reply (l.stopped.getD 1) l.residues l.completed (launchScope l)
         let y := hubSignal l.ctx l.cntr (launchScope l)
         answers x s == some () && answers y (doneIn x s) == some () &&
           answers refreshReady (finishLaunch 20 (doneIn y (doneIn x s))) == some ())) = true := by decide +kernel

theorem test_launch_replies :
    (let s := nextOf (exec (.launchComplete 20) (launchedS .reported none))
     (leNat ((List.range 16).map fun i => s.mem.port (0x60000 + i)), leNat ((List.range 8).map fun i => s.mem.port (0x60100 + i)))) =
      (1 + 2 ^ 64, 1) := by decide +kernel

/-- A message of a gang from this package to itself. -/
def gangMsg (status : Nat) : GangMsg :=
  { sender := selfId, ctx := 1, lctx := 1, gangId := 3, rank := 0, nmem := 2, status := status, tenant := some 0
    record := List.replicate 64 0, count := 5, events := 1 }

theorem send_self (s : State) (m : CourseMsg) : send s selfId m = { s with selfbox := s.selfbox ++ [m] } := by simp [send]
theorem send_next (s : State) (m : CourseMsg) : send s (selfId + 1) m = { s with outbox := s.outbox ++ [(selfId + 1, m)] } := by
  simp [send]

/-- A launch that leads the gang, one that is a member of it with a write held back, and their package with a message come. -/
def leads (acks reports : List Nat) (committed : Bool) : Launch :=
  { ctx := 1, order := 20, record := [], gang := .leader 3 [(selfId, 1), (selfId + 1, 0)] acks reports committed }
def follows : Launch := { ctx := 1, order := 20, record := [], gang := .member 3 0 selfId 1 false, held := [(4, 0, [7])] }
def gangS (l : Launch) (box : List CourseMsg) : State := { baseA with cur := .package, launches := [(20, l)], selfbox := box }

theorem comes_self (l : Launch) (m : CourseMsg) : Comes m selfId 0 (gangS l [m]) (gangS l []) := .inl ⟨rfl, [], rfl, rfl⟩

theorem witness_comes_of_another (m : GangMsg) (l : Launch) (h : m.sender ≠ selfId) :
    Comes (.ack m) m.sender m.seq (gangS l []) { gangS l [] with heard := (gangS l []).heard.insert m.sender (m.seq + 1) } :=
  .inr ⟨h, Nat.zero_le _, rfl⟩

/-- A gang message to this package, and one to its neighbour. -/
theorem sent_self (mk : GangMsg → CourseMsg) (m : GangMsg) (s : State) : sendGang selfId mk m s =
    { s with nextId := s.nextId + 1, selfbox := s.selfbox ++ [mk { m with seq := s.nextId }] } := by
  simp [sendGang, send]
theorem sent_next (mk : GangMsg → CourseMsg) (m : GangMsg) (s : State) : sendGang (selfId + 1) mk m s =
    { s with nextId := s.nextId + 1, outbox := s.outbox ++ [(selfId + 1, mk { m with seq := s.nextId })] } := by
  simp [sendGang, send]

theorem witness_arming :
    Comes (.arm (gangMsg 0)) (gangMsg 0).sender (gangMsg 0).seq (gangS follows [.arm (gangMsg 0)]) (gangS follows []) ∧
    (∃ s1, armMember (gangMsg 0) (gangS follows []) = .error (.status 35) s1) ∧
    ∃ s1, event 1 7 35 0 0 3 (gangSent selfId .ack { gangMsg 0 with ctx := 1, status := 35, record := [] } (gangS follows [])) =
      .ok () s1 := by
  refine ⟨comes_self _ _, ?_, ?_⟩
  · have h : (match armMember (gangMsg 0) (gangS follows []) with | .error (.status n) _ => n == 35 | _ => false) = true := by
      decide +kernel
    split at h <;> rename_i heq
    · simp only [beq_iff_eq] at h
      subst h
      exact ⟨_, heq⟩
    · cases h
  · rw [show gangSent selfId .ack { gangMsg 0 with ctx := 1, status := 35, record := [] } (gangS follows []) =
      sendGang selfId .ack { gangMsg 0 with ctx := 1, status := 35, record := [] } (gangS follows []) from rfl, sent_self]
    exact ⟨_, ok_of_answers (a := ()) (by decide +kernel)⟩

theorem witness_arming_tenants :
    (gangS follows []).contexts.find? 5 = none ∧ (gangS follows []).contexts.find? 1 ≠ none ∧ tenantOf (gangS follows []) 1 = some 0 ∧
    (gangMsg 0).tenant = some 0 ∧ BadRecord (gangMsg 0).record := ⟨by decide +kernel, by decide +kernel, by decide +kernel, rfl, .inl (by decide)⟩

theorem witness_acknowledging :
    (∀ st, Comes (.ack (gangMsg st)) (gangMsg st).sender (gangMsg st).seq (gangS (leads [1] [] false) [.ack (gangMsg st)])
      (gangS (leads [1] [] false) [])) ∧
    (∀ acks, leaderOf (gangS (leads acks [] false) []) 1 3 = some (20, leads acks [] false)) ∧
    (∀ st, isMember [(selfId, 1), (selfId + 1, 0)] (gangMsg st) = true) ∧ (addName [1] 0).length = 2 ∧ (addName [] 0).length = 1 ∧
    ∃ s1, abortGang 20 (leads [] [] false) 3 [(selfId, 1), (selfId + 1, 0)] (gangS (leads [] [] false) []) = .ok () s1 := by
  refine ⟨fun _ => comes_self _ _, fun _ => rfl, fun _ => by simp [isMember, gangMsg], rfl, rfl, ?_⟩
  have h : toMembers (leads [] [] false) 3 [(selfId, 1), (selfId + 1, 0)] none .abort (gangS (leads [] [] false) []) =
      sendGang (selfId + 1) .abort { gangMsg 0 with rank := 1, ctx := 0, tenant := none, record := [], count := 0, events := 0 }
        (sendGang selfId .abort { gangMsg 0 with rank := 0, ctx := 1, tenant := none, record := [], count := 0, events := 0 }
          (gangS (leads [] [] false) [])) := rfl
  rw [sent_self, sent_next] at h
  have e : abortGang 20 (leads [] [] false) 3 [(selfId, 1), (selfId + 1, 0)] (gangS (leads [] [] false) []) =
      (do launchReply 1 0 37 0 0 4; upd (finishLaunch 20); refreshReady : M Unit)
        (toMembers (leads [] [] false) 3 [(selfId, 1), (selfId + 1, 0)] none .abort (gangS (leads [] [] false) [])) := rfl
  rw [e, h]
  exact ⟨_, ok_of_answers (a := ()) (by decide +kernel)⟩

theorem witness_commits :
    Comes (.commit (gangMsg 0)) (gangMsg 0).sender (gangMsg 0).seq (gangS follows [.commit (gangMsg 0)]) (gangS follows []) ∧
    Comes (.abort (gangMsg 0)) (gangMsg 0).sender (gangMsg 0).seq (gangS follows [.abort (gangMsg 0)]) (gangS follows []) ∧
    memberOf (gangS follows []) (gangMsg 0) = some (20, follows) ∧
    answers refreshReady (endLaunch 20 (gangS follows [])) = some () := by
  refine ⟨comes_self _ _, comes_self _ _, by simp [memberOf, gangS, belongs, follows, gangMsg], by decide +kernel⟩

theorem witness_reports :
    Comes (.report (gangMsg 36)) (gangMsg 36).sender (gangMsg 36).seq (gangS (leads [] [1] true) [.report (gangMsg 36)]) (gangS (leads [] [1] true) []) ∧
    leaderOf (gangS (leads [] [1] true) []) 1 3 = some (20, leads [] [1] true) ∧ (gangMsg 36).rank ∉ [1] ∧
    answers (crewReport 0) { launchedS .waiting none with reports := [{ launch := 20, card := 0, inst := 0, cl := 0, discarded := 2 }] } =
      some () := by
  refine ⟨comes_self _ _, rfl, by decide, by decide +kernel⟩

/-- Of two reports of one cluster the later waits for the earlier; the other is taken. -/
theorem witness_crew_reports :
    let l : List Report := [{ launch := 20, card := 0, inst := 0, cl := 0, discarded := 2 }, { launch := 20, card := 0, inst := 1, cl := 0, discarded := 0 }]
    l[2]? = none ∧ (∃ x ∈ l.take 1, x.cl = 0) ∧ (∀ x ∈ l.take 0, x.cl ≠ 0) ∧
    answers refreshReady { launchedS .waiting none with
      reports := l.eraseIdx 0
      launches := (launchedS .waiting none).launches.modify 20 fun v => { v with
        insts := v.insts.insert (instKey 0 0) .reported, completed := v.completed + 1, residues := v.residues + 1 } } = some () := by
  decide +kernel

/-- A member's launch is over; so is a leader's, once its members have reported. -/
def memberOver : Launch :=
  { (launchedS .reported none).launches.getD 20 { ctx := 0, order := 0, record := [] } with gang := .member 3 0 selfId 1 true }

theorem witness_members_end :
    launchOver memberOver = true ∧ memberOver.finished = false ∧
    (∃ t, refreshReady (finishLaunch 20 (gangSent selfId .report {
      sender := selfId, ctx := 1, lctx := 1, gangId := 3, rank := 0, nmem := 0, status := 1, tenant := none, record := [], count := 1, events := 0 }
      { launchedS .reported none with launches := [(20, memberOver)] })) = .ok () t) := by
  refine ⟨by decide +kernel, rfl, ?_⟩
  rw [show ∀ m s, gangSent selfId .report m s = sendGang selfId .report { m with sender := selfId } s from fun _ _ => rfl, sent_self]
  exact ⟨_, ok_of_answers (a := ()) (by decide +kernel)⟩

theorem witness_sequencer_answers :
    (let s := launchedS .reported none
     answers (hubParts 1 true [(0x60100, 8)]) s == some (some [(0x60100, 8)]) && answers (readPort 0x60100 8) s == some (some (leBytes 8 0)) &&
       answers (writePort .hub 0x60100 (leBytes 8 1)) s == some () && answers (event 1 2 14 0 0x60100 1) s == some () &&
       (let f := { s with mem := s.mem.pokes 0x60100 (leBytes 8 (2 ^ 64 - 1)) }
        answers (readPort 0x60100 8) f == some (some (leBytes 8 (2 ^ 64 - 1))))) = true ∧ 0x60000 % 16 = 0 ∧ 0x60008 % 16 ≠ 0 := by decide +kernel

/-- A record with levels, each a count, a domain and a scope; its graph at 0x60000. -/
def recordOf (flags nlev graph : Nat) (ls : List (Nat × Nat × Nat)) : List Byte :=
  fields 64 ([(0, 2, 1), (2, 1, nlev), (3, 1, flags), (8, 8, graph), (0x10, 8, 0x69000), (0x18, 8, if bit flags 3 then 0x6A000 else 0)] ++
    ls.zipIdx.map fun e => (0x20 + 4 * e.2, 4, e.1.1 + e.1.2.1 * 2 ^ 16 + e.1.2.2 * 2 ^ 20))

/-- A graph of one card, its code of no object, and a gang record whose one entry alone is in memory. -/
def graphA : State :=
  let s := portS 0
  { s with mem := laid [(0x60000, fields 1024 [(0, 2, 1), (2, 2, 1)]), (0x60400, fields 1024 [(0, 2, 1), (8, 8, 0x70000)]),
      (0x6A000, fields 64 [(8, 4, 3), (0xC, 4, 2), (0x10, 8, 0x6A040)])] }

/-- A launch is made of what each check gives; a card's code is one of a signed object. -/
theorem launch_made {ctx : Nat} {r : List Byte} {s s1 s2 s3 s4 s5 s6 s7 : State} {hd : List Byte} {cards : List Card} {codes : List Code}
    {pins : List Pin} (h1 : checkLevels (recLevels r) none s = .ok () s1) (h2 : graphRead ctx (recGraph r) 1024 35 0 s1 = .ok hd s2)
    (hh : (fieldAt hd 0 2 != 1 || fieldAt hd 2 2 == 0 || decide (4095 < fieldAt hd 2 2) || !zeroAt hd 4 1020) = false)
    (h3 : readCards ctx (recGraph r) (fieldAt hd 2 2) (recLevels r).length (crewLevel (recLevels r)) (List.range (fieldAt hd 2 2)) s2 =
      .ok cards s3) (h4 : checkQueues (numbered cards) s3 = .ok () s4)
    (h5 : checkCodes ctx (sectionCountOf (recLevels r)) (numbered cards) s4 = .ok codes s5)
    (h6 : pinCode ctx s5.nextId (numbered codes) { s5 with nextId := s5.nextId + 1 } = .ok pins s6)
    (h7 : writeWindows ctx codes s6 = .ok () s7) :
    (match makeLaunch ctx r none s with | .ok _ _ => true | _ => false) = true := by
  simp only [makeLaunch, Bind.bind, EStateM.bind, h1, h2, hh, h3, h4, h5, Bool.false_eq_true, if_false, pure, EStateM.pure, freshId, get, getThe,
    MonadStateOf.get, EStateM.get, upd, modify, modifyGet, MonadStateOf.modifyGet, EStateM.modifyGet, h6, h7]

def goodRecord : List Byte := recordOf 0 1 0x60000 [(1, 1, 2)]

/-- A record is good, of a good count; its levels, graph and card are read; its card's code, of no object, is refused. -/
theorem witness_accepting :
    (recordBad goodRecord || recordBad (recordOf 0 0 0x60000 []) || recordBad (recordOf 8 1 0x60000 [(2, 3, 4)])) = false ∧
    recordBad (List.replicate 64 0) = true ∧ fieldAt (recordOf 0 0 0x60000 []) 2 1 = 0 ∧ fieldAt goodRecord 2 1 = 1 ∧
    answers (checkLevels (recLevels goodRecord) none) graphA = some () ∧
    (let hd := (answers (graphRead 1 (recGraph goodRecord) 1024 35 0) graphA).getD []
     let s2 := doneIn (graphRead 1 (recGraph goodRecord) 1024 35 0) graphA
     (fieldAt hd 0 2 != 1 || fieldAt hd 2 2 == 0 || decide (4095 < fieldAt hd 2 2) || !zeroAt hd 4 1020) = false ∧
       ((answers (readCards 1 (recGraph goodRecord) 1 1 0 [0]) s2).map fun l => l.map (·.code)) = some [0x70000] ∧
       answers (checkQueues (numbered ((answers (readCards 1 (recGraph goodRecord) 1 1 0 [0]) s2).getD []))) s2 = some ()) ∧
    (match makeLaunch 1 goodRecord none graphA with | .error (.status n) _ => n == 36 + 256 * 2 ^ 24 | _ => false) = true := by decide +kernel

/-- A gang record is read where its two members are, and one of them is this package and context. -/
theorem gang_read {s s1 s2 : State} {b e : List Byte} {n : Nat} (h1 : graphRead 1 0x6A000 64 35 0 s = .ok b s1)
    (hb : (fieldAt b 0 8 % 8 != 0 || !zeroAt b 0x18 40 || decide (fieldAt b 0xC 4 < 2) || decide (400000 < fieldAt b 0xC 4)) = false)
    (hn : fieldAt b 0xC 4 = n) (h2 : graphRead 1 (fieldAt b 0x10 8) (8 * n) 35 0 s1 = .ok e s2)
    (hm : let raw := (List.range n).map fun k => fieldAt e (8 * k) 8
      let ms := raw.map fun v => (bits v 19 0, bits v 47 32)
      ((raw.any fun v => bits v 31 20 != 0 || bits v 63 48 != 0) || !decide (ms.map (·.1)).Nodup || !ms.contains (selfId, 1)) = false) :
    (match readGang 1 0x6A000 s with | .ok _ _ => true | _ => false) = true := by
  subst hn
  simp only [bne] at hb hm
  simp only [readGang, Bind.bind, EStateM.bind, h1, hb, h2, hm, Bool.false_eq_true, if_false, pure, EStateM.pure, bne]

theorem witness_gangs :
    recGang (recordOf 8 1 0x60000 [(2, 3, 4)]) = true ∧ (graphA.launches.all fun x => !Machine.leads x.2 1 3) = true ∧
    Machine.leads (leads [] [] false) 1 3 = true ∧
    (match graphRead 1 0x6A000 64 35 0 graphA with
      | .ok b s1 => (fieldAt b 0xC 4, fieldAt b 8 4, fieldAt b 0x10 8) == (2, 3, 0x6A040) &&
          (answers (graphRead 1 0x6A040 16 35 0) s1).isSome &&
          !(fieldAt b 0 8 % 8 != 0 || !zeroAt b 0x18 40 || decide (fieldAt b 0xC 4 < 2) || decide (400000 < fieldAt b 0xC 4))
      | _ => false) = true := by decide +kernel

theorem witness_levels :
    (recLevels (recordOf 0 2 0x60000 [(1, 1, 2), (3, 1, 1)])).length = 2 ∧ levelOk (recLevels (recordOf 0 2 0x60000 [(1, 1, 2), (3, 1, 1)])) none 1 = false ∧
    levelOk (recLevels (recordOf 0 2 0x60000 [(1, 1, 2), (3, 1, 1)])) none 0 = true ∧
    levelOk (recLevels (recordOf 0 1 0x60000 [(0, 1, 2)])) none 0 = false := by decide +kernel

/-! ### Witnesses: the coded shuffle (R398-R415, R501) -/

/-- The block a component names, and packets from package 5 to rank 1 of shuffle 3. -/
def comp (blk len : Nat) : Comp := { shid := 3, len := len, src := 5, blk := blk }
def pkt (kind : Nat) (comps : List Comp) (payload : List Byte := []) : Packet :=
  { pkind := kind, sender := 5, dmask := 2, comps := comps, payload := payload }
def control (kind : Nat) : Packet := pkt kind [{ shid := 3, len := 0, src := 0, blk := 0 }]

/-- A side-information entry of 4 bytes at 0x60000 + 64 × block. -/
def siOf (blk : Nat) (st : SiState) : SiEntry :=
  { ctx := 1, name := { shid := 3, src := 5, blk := blk }, addr := 0x60000 + 64 * blk, len := 4, st := st, shid := 3 }

/-- SHUF has bound shuffle 3 of two packages: blocks 10 and 11 to send in one group, block 0 known, blocks 1 and 2 expected. -/
def boundShuf (ready todo : List Nat) (closed : Bool) : Shuffle :=
  let send (n : Nat) : SendEntry :=
    { name := { shid := 3, src := 9, blk := n }, len := 4, nelem := 0, addr := 0x61000 + 64 * n, dmask := 1, left := closed }
  { cl := 0, cmd := 9, ctx := 1, rank := 1, parts := [5, selfId], mtrap := false, qrm := 0, qtid := 0, nfd := 0, bcntr := 0
    sends := [send 10, send 11], groups := [[0, 1]], todo := todo, ready := ready, closed := closed, closes := if closed then [0] else [] }
def shufX (x : Shuffle) (settled : Bool := false) : State × Cmd :=
  let (s, c) := engS true (.shuf c0) (fields 48 [(0x20, 8, 0x30400)]) (fun c => { c with prog := { c.prog with pos := 1, nums := [3] } })
    [(0x60000, [1#8, 2#8, 3#8, 4#8]), (0x61280, [5#8, 6#8])]
  ({ s with shuffles := [(3, x)], sit := if settled then [siOf 0 .pinned] else [siOf 0 .pinned, siOf 1 .expect, siOf 2 .expect] }, c)

theorem witness_shuffle_turns :
    ([boundShuf [] [0, 1] false, boundShuf [0] [0, 1] false, boundShuf [0] [] true].all fun x =>
      blockTurns (.shuf c0) true (shufX x true) && (shufX x true).2.prog.nums.headD 0 == 3 &&
        ((shufX x true).1.shuffles.find? 3).isSome && (x.sends.all (·.left) == x.closed) && x.closes.length + (if x.closed then 1 else 2) == 2) = true ∧
    ((boundShuf [] [0, 1] false).ready.length + 1 < (boundShuf [] [0, 1] false).parts.length) ∧
    answers (readSend cE (shufX (boundShuf [0] [0, 1] false)).2 3 0) (shufX (boundShuf [0] [0, 1] false)).1 = some () ∧
    answers (closeShuffle 3 (boundShuf [0] [] true)) (shufX (boundShuf [0] [] true) true).1 = some false := by decide +kernel

/-- A shuffle whose receive entry failed. -/
def failedShuf : State :=
  let s := (shufX (boundShuf [0] [] true) true).1
  { s with sit := [siOf 1 .failed] }

theorem witness_shuffle_fails : answers (closeShuffle 3 (boundShuf [0] [] true)) failedShuf = some true := by decide +kernel

theorem witness_shuffle_packets :
    ((pkt 0x20 [comp 1 4] [7, 0]).wf || (pkt 0x21 [comp 1 4] (List.replicate 4 0)).wf) = false ∧
    ((pkt 0x20 [comp 1 4] (List.replicate 4 0)).wf && (pkt 0x21 [comp 0 4, comp 1 4] (List.replicate 4 0)).wf &&
      (pkt 0x22 [comp 1 4] (List.replicate 4 0)).wf && (pkt 0x23 [comp 1 4]).wf && (control 0x24).wf && (control 0x25).wf &&
      (control 0x26).wf) = true ∧
    (shufX (boundShuf [] [] false)).1.shuffles.find? 4 = none ∧
    (let s := (shufX (boundShuf [] [] false)).1
     let x := s.shuffles.getD 3 default
     x.parts.contains 5 = true ∧ bit 2 x.rank = true ∧ bit 1 x.rank = false ∧ shufCmd s x = some (shufX (boundShuf [] [] false)).2) := by
  decide +kernel

theorem arrives {k : Nat} {p : Packet} {x : Shuffle} {b : Bool} (hk : p.pkind = k) (hf : p.wf = true) (hs : packetShuf p = 3)
    (hp : p.sender = 5) (hd : p.dmask = 2) (hx : x.parts = [5, selfId]) (hr : x.rank = 1)
    (hc : shufCmd (shufX x b).1 x = some (shufX x b).2) : Arrives k p (shufX x b).1 x (shufX x b).2 := by
  refine ⟨hk, hf, ?_, by simp [hx, hp], by rw [hd, hr]; rfl, hc⟩
  rw [hs]
  rfl

theorem witness_ready :
    Arrives 0x24 (control 0x24) (shufX (boundShuf [] [] false)).1 (boundShuf [] [] false) (shufX (boundShuf [] [] false)).2 ∧
    Arrives 0x24 (control 0x24) (shufX (boundShuf [0] [] false)).1 (boundShuf [0] [] false) (shufX (boundShuf [0] [] false)).2 ∧
    (boundShuf [0] [] false).ready.contains ((boundShuf [0] [] false).parts.idxOf 5) = true ∧
    (boundShuf [] [] false).ready.contains ((boundShuf [] [] false).parts.idxOf 5) = false := by
  refine ⟨arrives rfl ?_ rfl rfl rfl rfl rfl ?_, arrives rfl ?_ rfl rfl rfl rfl rfl ?_, ?_, ?_⟩ <;> decide +kernel

/-- The data packets: a block alone, and one coded with the known block 0. -/
def soloPkt (kind : Nat) : Packet := pkt kind [comp 1 4] [9#8, 8#8, 7#8, 6#8]
def codedPkt : Packet := pkt 0x21 [comp 0 4, comp 1 4] [8#8, 10#8, 4#8, 2#8]
def dataS : State × Cmd := shufX (boundShuf [0] [] false)

theorem witness_data :
    Arrives 0x20 (soloPkt 0x20) dataS.1 (boundShuf [0] [] false) dataS.2 ∧ Arrives 0x22 (soloPkt 0x22) dataS.1 (boundShuf [0] [] false) dataS.2 ∧
    Arrives 0x21 codedPkt dataS.1 (boundShuf [0] [] false) dataS.2 := by
  refine ⟨arrives rfl ?_ rfl rfl rfl rfl rfl ?_, arrives rfl ?_ rfl rfl rfl rfl rfl ?_, arrives rfl ?_ rfl rfl rfl rfl rfl ?_⟩ <;>
    decide +kernel

theorem witness_data_decodes :
    ([soloPkt 0x20, codedPkt, soloPkt 0x22].all fun p =>
      let x := boundShuf [0] [] false
      (packetDone x 3 (decodeAll (shufEng x) dataS.2 3 (retryBound dataS.1 x) [(false, p)] dataS.1) dataS.1).isSome) = true := by decide +kernel

theorem test_coded_decodes :
    (let s := nextOf (exec (.coded codedPkt) dataS.1)
     (answers (readPhys (.cmd 9) 0x60040 4) s, s.sit.map (·.st))) =
      (some (some [9#8, 8#8, 7#8, 6#8]), [.pinned, .held, .expect]) := by decide +kernel

theorem witness_requests :
    Arrives 0x23 (pkt 0x23 [{ comp 10 4 with src := 9 }]) dataS.1 (boundShuf [0] [] false) dataS.2 ∧
    (((boundShuf [0] [] false).sends.find? fun e => ([{ comp 10 4 with src := 9 }] : List Comp).any fun k => nameOf k == e.name).map
      (·.addr)) = some 0x61280 ∧
    answers (sendForm (shufEng (boundShuf [0] [] false)) dataS.2 3 (boundShuf [0] [] false) ((boundShuf [0] [] false).sends.headD default))
      dataS.1 = some [5#8, 6#8, 0#8, 0#8] := by
  refine ⟨arrives rfl ?_ rfl rfl rfl rfl rfl ?_, ?_, ?_⟩ <;> decide +kernel

theorem witness_ends_of_shuffles :
    Arrives 0x25 (control 0x25) dataS.1 (boundShuf [0] [] false) dataS.2 ∧ Arrives 0x26 (control 0x26) dataS.1 (boundShuf [0] [] false) dataS.2 ∧
    answers (finishShuf (boundShuf [0] [] false) 52) (unbind dataS.1 3) = some () := by
  refine ⟨arrives rfl ?_ rfl rfl rfl rfl rfl ?_, arrives rfl ?_ rfl rfl rfl rfl rfl ?_, ?_⟩ <;> decide +kernel

/-- One block of the group waits for its partner, or none does. -/
def pairS (n : Nat) : State :=
  (shufX { boundShuf [0] [1] false with waiting := List.replicate n (0, [5#8, 6#8, 0#8, 0#8]) }).1

theorem witness_pairing :
    ([0, 1].all fun n =>
      let s := pairS n
      let x := s.shuffles.getD 3 default
      let here := x.waiting.filter fun w => (x.groups.getD 0 []).contains w.1
      here.length == n && (answers (sendSolos 3 here)
        { s with shuffles := s.shuffles.modify 3 fun y => { y with broken := addName y.broken 0 } }).isSome) = true := by decide +kernel

theorem witness_cancelling :
    ([SiState.held, .pinned].all fun st =>
      let s := { dataS.1 with sit := [siOf 0 st, siOf 1 .expect] }
      let (ea, eb) := (siOf 0 st, siOf 1 .expect)
      siFind s 1 (nameOf (comp 0 4)) == some ea && siFind s 1 (nameOf (comp 1 4)) == some eb && ea.len == 4 && eb.len == 4 &&
        answers (sideRead cE dataS.2 ea) s == some (some [1#8, 2#8, 3#8, 4#8]) &&
        siFind (doneIn (sideRead cE dataS.2 ea) s) 1 (nameOf (comp 1 4)) == some eb) = true := by decide +kernel

/-- A plan of two packages, the second number 7, with one block to send alone and one to receive; a SHUF that names it. -/
def planMem : List (Nat × List Byte) :=
  [(0x30400, fields 64 [(0, 2, 1), (2, 2, 3), (4, 1, 2), (5, 1, 1), (0x10, 4, 1), (0x14, 4, 1), (0x20, 8, 0x30500), (0x28, 8, 0x30600),
    (0x30, 8, 0x30700)]), (0x30500, leBytes 4 5 ++ leBytes 4 7),
   (0x30600, fields 64 [(4, 4, 7), (8, 2, 4), (0xA, 2, 3), (0x10, 8, 0x60000), (0x18, 8, 1), (0x24, 4, 5), (0x28, 2, 4), (0x2A, 2, 3),
    (0x30, 8, 0x60040)])]
def planX : State × Cmd :=
  let (s, c) := engS true (.shuf c0) (fields 48 [(0x20, 8, 0x30400)]) id planMem
  (s.setContext 1 { s.context 1 with sitq := 4 }, c)
def planOf : Plan := (answers (readPlan cE planX.2 0x30400) planX.1).getD { h := [] }
def planned : State := doneIn (planFormat cE planX.2 planOf) (doneIn (readPlan cE planX.2 0x30400) planX.1)

theorem witness_binding_turn :
    blockTurns (.shuf c0) true planX = true ∧ (answers (readPlan cE planX.2 0x30400) planX.1).isSome = true ∧
    answers (planFormat cE planX.2 planOf) (doneIn (readPlan cE planX.2 0x30400) planX.1) = some 0 ∧
    answers (bind cE planX.2 planOf 0) planned = some () ∧ planX.2.prog.pos = 0 := by decide +kernel

/-- The plan is this package's where this package is number 7. -/
theorem witness_plan (h : selfId = 7) : planOf.ok = true := by
  have e : planOf.parts.getD planOf.rank 0 = 7 := by decide +kernel
  simp only [Plan.ok, Bool.and_eq_true]
  refine ⟨⟨⟨⟨⟨⟨⟨⟨⟨⟨⟨?_, by rw [e, h]; rfl⟩, ?_⟩, ?_⟩, ?_⟩, ?_⟩, ?_⟩, ?_⟩, ?_⟩, ?_⟩, ?_⟩, ?_⟩ <;> decide +kernel

/-! ### Witnesses: scheduling (R23-R27, R149, R371-R373, R438-R442, R448) -/

/-- Launch 1 of one card of `banks` banks, whose footprint may name a TID with no descriptor; units 0 and 1; a pool. -/
def schedS (pool : List PoolEntry) (banks : Nat := 2) (badTid : Bool := false) (units : List Nat := [0, 1]) : State :=
  let card : Card := { bytes := if badTid then fields 1024 [(4, 1, 1), (0x200, 2, 5)] else List.replicate 1024 0, spad := banks }
  let s := { baseA with cur := .package, launches := [(1, {
    ctx := 1, order := 1, record := [], graph := 0x80000, levels := [{ count := 4, domain := 1, scope := 2 }], cards := [card] })] }
  s.setPartition 0 { s.partition 0 with units := units, pool := pool }
def poolEntry (level : Nat) (crew : Option Nat := none) : PoolEntry :=
  { crew := crew, launch := 1, card := 0, inst := 2, ctx := 1, level := level }

theorem witness_dispatch :
    ([0, 32].all fun t =>
      let s := schedS [poolEntry 3]
      (s.partition 0).pool[0]? == some (poolEntry 3) &&
        (isNext s 0 0 && fitsOn s 0 (needOf s (poolEntry 3)) 1 && threadFits s 0 0 t) == decide (t = 32) &&
        (s.launches.find? 1).isSome) = true ∧
    answers (dispatchNode 0 0 (poolEntry 3) ((schedS [poolEntry 3]).launches.getD 1 default) 1 32) (schedS [poolEntry 3]) = some () := by
  decide +kernel

/-- A crew that was pre-empted waits in the pool behind an entry of its level. -/
def evictedS : State :=
  let s := schedS [poolEntry 3, poolEntry 3 (some 2)]
  (s.setCrew 2 { s.crew 1 with stage := .evicted, thread := storedThread 2, spad := 2 }).setThread (storedThread 2)
    { s.thread 0 with mode := .ready, crew := some 2 }

theorem witness_restore :
    (evictedS.partition 0).pool[1]? = some (poolEntry 3 (some 2)) ∧
    (isNext evictedS 0 1 && fitsOn evictedS 0 (needOf evictedS (poolEntry 3 (some 2))) 1 && threadFits evictedS 0 0 32) = true ∧
    isNext evictedS 0 0 = false ∧ takenBefore (evictedS.partition 0).pool 1 0 = true ∧
    answers (restoreCrew 0 1 2 1 32) evictedS = some () := by decide +kernel

theorem witness_dispatch_refused :
    answers (anyDescBad 1 (((schedS [] 2 true).launches.getD 1 default).cards.getD 0 default).feet) (schedS [poolEntry 3] 2 true) = some true ∧
    answers (dispatchNode 0 0 (poolEntry 3) ((schedS [] 2 true).launches.getD 1 default) 1 32) (schedS [poolEntry 3] 2 true) = some () := by
  decide +kernel

theorem test_dispatch_registers :
    (let s := nextOf (exec (.crewDispatch { part := 0, index := 0, cluster := 1, thread := 32 }) (schedS [poolEntry 3]))
     ((s.thread 32).sc.reg 1, (s.thread 32).sc.reg 3, (s.thread 32).mode, (s.partition 0).pool)) =
      (2, 0x80400, .bound, []) := by decide +kernel

/-- Crew 1 waits for its start; its halves are over; it is parked. -/
def startS : State := baseA.setCrew 1 { baseA.crew 1 with smode := .waiting, startThread := true }
def overS : State :=
  let k := baseA.crew 1
  (baseA.setCrew 1 { k with smode := .stopped, queues := [(4, { wordQueue 0 1 4 with entries := [entry 3] })] }).setThread 0
    { baseA.thread 0 with mode := .returned }

theorem witness_starts_and_ends :
    (startS.crew 1).stage = .resident ∧ (startS.crew 1).smode = .waiting ∧ (startS.crew 1).startThread = true ∧
    (baseA.crew 1).startThread = false ∧ (baseA.crew 1).smode = .running ∧ crewDone overS 1 = true ∧ crewDone baseA 1 = false := by
  decide +kernel

theorem test_completion_reports :
    (nextOf (exec (.crewComplete 1) overS)).reports = [{ launch := 1, card := 0, inst := 0, cl := 0, discarded := 1, seq := 1 }] := by decide +kernel

/-- Two crews on cluster 0; the second has work or has none. -/
def pairedS (busy : Bool) : State :=
  let s := baseA.setCrew 2 { baseA.crew 1 with slot := 1, smode := if busy then .running else .stopped }
  s.setCluster 0 { s.cluster 0 with slots := [(0, 1), (1, 2)] }
/-- Crew 1 holds 5 banks of the one unit; an entry of level 3 needs 6. -/
def wantedS : State :=
  let s := schedS [poolEntry 3] 6 false [0]
  s.setCrew 1 { s.crew 1 with spad := 5 }

theorem witness_quantum :
    baseA.activeCrew 5 = none ∧ (pairedS true).activeCrew 0 = some 1 ∧ ((pairedS true).crew 1).stage = .resident ∧
    (rotate (pairedS true) 0).activeCrew 0 = some 2 ∧ (rotate (pairedS false) 0).activeCrew 0 = some 1 ∧
    unitWanted (pairedS false) 0 1 = none ∧ (rotate wantedS 0).activeCrew 0 = some 1 ∧ unitWanted wantedS 0 1 = some 0 ∧
    wantedS.activeCrew 0 = some 1 ∧ (wantedS.crew 1).stage = .resident := by decide +kernel

theorem witness_ageing :
    ([poolEntry 7, poolEntry 6, poolEntry 6 (some 2)].all fun e =>
      ((schedS [poolEntry 1, e]).partition 0).pool[1]? == some e && ((schedS []).context e.ctx).prioCeil.toNat == 7) = true := by decide +kernel

theorem witness_preemption :
    (∃ e ∈ (wantedS.partition 0).pool, placeable wantedS 0 e = false ∧ isVictim wantedS 0 e.level 1 = true) ∧
    ((schedS [poolEntry 3]).partition 0).pool.all (fun e => placeable (schedS [poolEntry 3]) 0 e) = true ∧ preempted wantedS 1 = true ∧
    preempted (schedS [poolEntry 3]) 1 = false ∧
    crewDone wantedS 1 = false := by decide +kernel

/-- Both halves of the victim are over. -/
theorem witness_preemption_completes :
    (let s := (wantedS.setCrew 1 { wantedS.crew 1 with smode := .stopped }).setThread 0 { wantedS.thread 0 with mode := .returned }
     crewDone s 1 && (s.partition 0).pool.any fun e => !placeable s 0 e && isVictim s 0 e.level 1) = true := by decide +kernel

/-- Crew 1 is being saved. -/
def savingS (suspend : Bool) : State := baseA.setCrew 1 { baseA.crew 1 with stage := .saving suspend 28 }

theorem witness_saves :
    (∀ b, ((savingS b).crew 1).stage = .saving b 28) ∧ (∀ b, saveLost ((savingS b).crew 1) = false) ∧ ∀ b, ∃ s1, saveDone 1 b 28 (savingS b) = .ok () s1 :=
  ⟨by decide +kernel, by decide +kernel, fun b => by
    obtain ⟨_, s1, h⟩ := completes_saveDone 1 b 28 (savingS b)
    exact ⟨s1, h⟩⟩

/-- A skip token for a branch queue with room, a full one, and none. -/
def skipS (n : Option Nat) : State :=
  let q (n : Nat) : Queue := { cfg := BitVec.ofNat 32 (2 ^ 31 + 2 ^ 28 + 3 * 2 ^ 24 + 1), entries := List.replicate n (entry 1) }
  baseA.setCrew 1 { baseA.crew 1 with skipToks := [(0x203, false)], queues := match n with
    | some n => [(9, q n)]
    | none => [] }

theorem witness_skip_tokens :
    ((skipS none).crew 1).skipToks = [(0x203, false)] ∧ branchQueue ((skipS none).crew 1) = none ∧
    ([0, 2].all fun n => branchQueue ((skipS (some n)).crew 1) == some 9 &&
      (((skipS (some n)).crew 1).queues.getD 9 {}).isFull == (n == 2) && !(((skipS (some n)).crew 1).queues.getD 9 {}).skip &&
      !(((skipS (some n)).crew 1).queues.getD 9 {}).whole) = true := by decide +kernel

/-- The token came after a push that S waits with at the branch queue. -/
def lateS (stalled : Bool) : State :=
  let s := skipS (some 0)
  let k := s.crew 1
  s.setCrew 1 { k with skipToks := [(0x203, true)], atBrq := true, sc := { k.sc with stalled := stalled } }

theorem witness_late_tokens :
    ([true, false].all fun b => ((lateS b).crew 1).skipToks == [(0x203, true)] && branchQueue ((lateS b).crew 1) == some 9 &&
      ((lateS b).crew 1).atBrq && ((lateS b).crew 1).sc.stalled == b && ((lateS b).crew 1).smode == .running &&
      !(((lateS b).crew 1).queues.getD 9 {}).isFull) = true := by decide +kernel

/-- A wait of the thread, or of the cluster half, whose context's watchdog runs or not; it may have been reported. -/
def parkedS (thread : Bool) (wdog : Nat) (told : Bool) : State :=
  let s := baseA.setContext 1 { baseA.context 1 with wdog := BitVec.ofNat 16 wdog, evqBase := 0x70000 }
  if thread then s.setThread 0 { s.thread 0 with mode := .waitc 0x60000 5 2 0x60000, reported := told }
  else s.setCrew 1 { s.crew 1 with smode := .waitc 0x60000 5 2 0x60000 40, reported := told }

theorem witness_watchdog :
    ([(true, 0, false), (true, 1, false), (true, 1, true), (false, 1, false)].all fun x =>
      let s := parkedS x.1 x.2.1 x.2.2
      let w := if x.1 then tA else cS
      parkedAt s w == some (0x60000, 5, 2, 0x60000) && (s.context (ctxOf s w)).wdog.toNat == x.2.1 && crewOf s w == some 1 &&
        (if x.1 then (s.thread 0).reported else (s.crew 1).reported) == x.2.2 &&
        answers (event (ctxOf s w) 4 0 (handleOf (s.crew 1)) 0x60000 5) s == some ()) = true := by decide +kernel

/-! ### Witnesses: contexts and crews under command (R434, R435, R440, R449) -/

/-- A context descriptor at 0x40000 for identifier `id`, of `q` side-information entries. -/
def ctxDesc (id q : Nat) : List Byte :=
  fields 64 [(0, 2, id), (3, 1, 7), (4, 2, 20), (8, 8, placeTable), (0x18, 8, 0x2000000), (0x20, 4, 2), (0x30, 8, 0x70000), (0x3C, 4, q)]
def createS (id q : Nat) : State := { baseA with mem := baseA.mem.pokes 0x40000 (ctxDesc id q) }

theorem witness_creation :
    supervises lowA 0 = false ∧ supervises (createS 5 4) 0 = true ∧
    answers (threadRead 0 (lineParts 2 (0x40000 % 2 ^ 64) 64)) (createS 5 4) = some (ctxDesc 5 4) ∧
    ctxRefusals (createS 5 4) 0 (ctxDesc 5 4) = [] ∧ ctxRefusals (createS 1 4) 0 (ctxDesc 1 4) = [4] ∧
    ctxRefusals (createS 0 65537) 0 (ctxDesc 0 65537) = [2, 5] ∧
    answers (threadRead 0 (lineParts 2 (0x40000 % 2 ^ 64) 64)) (createS 1 4) = some (ctxDesc 1 4) := by decide +kernel

/-- Context 2 of the partition has crew 2; context 3 is another partition's. -/
def tearS : State :=
  let s := (baseA.setContext 2 { baseA.context 1 with frames := [0] }).setContext 3 { baseA.context 1 with part := 1 }
  s.setCrew 2 { s.crew 1 with ctx := 2, slot := 1 }

theorem witness_teardown :
    supervises tearS 0 = true ∧ tearS.contexts.find? 9 = none ∧ (tearS.context 3).part ≠ (tearS.context (tearS.thread 0).ctx).part ∧
    (tearS.contexts.find? 3).isSome = true ∧ (tearS.contexts.find? 2).isSome = true ∧
    (tearS.context 2).part = (tearS.context (tearS.thread 0).ctx).part ∧ answers (tearContext 1 2) tearS = some () := by decide +kernel

theorem test_teardown_ends_crews :
    (let s := nextOf (exec (.ctxTear 0 2) tearS)
     ((s.crew 2).stage, (s.crew 1).stage, s.contexts.map (·.1))) = (.gone, .resident, [1, 3]) := by decide +kernel

/-- Crew 1 at a stage. -/
def stagedS (st : Stage) : State := baseA.setCrew 1 { baseA.crew 1 with stage := st }

/-- Its record in its frame, every register full, holds 7 in register 5. -/
def resumeS : State :=
  let s := stagedS .suspended
  { s with mem := (s.mem.pokes 0x1000A28 (leBytes 8 7)).pokes 0x1000B00 (leBytes 4 0xFFFFFFFF) }

theorem witness_crew_commands :
    crewNamed baseA 0 1 = some 1 ∧ crewNamed baseA 1 1 = none ∧ crewNamed (stagedS .gone) 0 1 = none ∧
    crewNamed resumeS 0 1 = some 1 ∧ (resumeS.crew 1).stage = .suspended ∧ (baseA.crew 1).stage = .resident ∧
    answers (resumeCrew 1) resumeS = some () := by decide +kernel

/-- Both halves of crew 1 are over: it is not suspended. -/
theorem witness_suspend_of_a_finished_crew : crewNamed overS 0 1 = some 1 ∧ crewDone overS 1 = true ∧ crewDone baseA 1 = false := by
  decide +kernel

theorem test_resume_reads_the_record :
    (let s := nextOf (exec (.crewCmdResume 0 1) resumeS)
     ((s.crew 1).sc.reg 5, (s.crew 1).stage, (s.partition 0).pool.map (·.crew))) = (7, .evicted, [some 1]) := by decide +kernel

theorem witness_crew_ends : ∃ cause s1 s2, pick 0 28 baseA = .ok cause s1 ∧ failCrew 1 cause s1 = .ok () s2 := by
  obtain ⟨_, s2, h⟩ := completes_failCrew 1 (0 + Config.freeNat baseA.draws % 29) { baseA with draws := baseA.draws + 1 }
  exact ⟨_, _, s2, rfl, h⟩

/-! ### Witnesses: the host, links, failed packages, the scrubber (R433, R467-R469, R475-R478, R494-R499) -/

/-- A sector at 0x60000 with an upset waiting, or poisoned. -/
def sectorS (u : Option Upset) (poison : Bool := false) : State :=
  let s := { baseA with cur := .package, mem := baseA.mem.pokes 0x60000 [5#8, 6#8] }
  { s with mem := { s.mem with
      upsets := match u with
        | some v => [(0x3000, v)]
        | none => []
      poison := if poison then [0x3000] else [] } }

/-- An access below the end of HBM4E is one of device memory, and below the host's own. -/
theorem inDevice_low {a n : Nat} (h : a + n ≤ hbmBytes) : inDevice a n = true :=
  decide_eq_true (Nat.le_trans h (Nat.le_add_right _ _))
theorem below_host {a : Nat} (h : a < hbmBytes) : a < hostBase :=
  Nat.lt_of_lt_of_le h (Nat.le_trans (Nat.le_add_right _ _) (Nat.le_add_right _ _))

theorem witness_host :
    State.reset.boot ≠ 0xFF#16 ∧ (sectorS none).boot = 0xFF#16 ∧
    answers (checkCounted (sectorsOf 0x60000 2)) (acquire (sectorS none) .host 4) = some true ∧
    answers (writePhys .host 0x60000 [7#8]) (sectorS none) = some () ∧ inDevice 0x60000 2 = true ∧ inDevice 0x60000 1 = true ∧
    0x60000 < hostBase :=
  ⟨by decide +kernel, by decide +kernel, by decide +kernel, by decide +kernel, inDevice_low (by decide), inDevice_low (by decide),
    below_host (by decide)⟩

/-- A poisoned sector has no data; what is counted of it is free. -/
theorem witness_host_poison : ∃ s1, checkCounted [0x3000] (acquire (sectorS none true) .host 4) = .ok false s1 := by
  have h : checkSector 0x3000 (acquire (sectorS none true) .host 4) = .ok false (acquire (sectorS none true) .host 4) := by
    have e : (acquire (sectorS none true) .host 4).mem.poison.contains 0x3000 = true := by decide +kernel
    simp only [checkSector, Bind.bind, EStateM.bind, get, getThe, MonadStateOf.get, EStateM.get, e, Bool.true_or, if_true, pure, EStateM.pure]
  obtain ⟨_, s1, h2⟩ := completes_countSector 3 0x3000 (acquire (sectorS none true) .host 4)
  refine ⟨s1, ?_⟩
  simp [checkCounted, Bind.bind, EStateM.bind, h, h2, pure, EStateM.pure]

theorem inDevice_high {a n : Nat} (h : deviceTop < a + n) : inDevice a n = false := decide_eq_false (Nat.not_le.2 h)
theorem in_window {n : Nat} (h : n < 2 ^ 28) : windowOffset (deviceTop + n) = some n ∧ deviceTop + n < hostBase :=
  ⟨by rw [windowOffset, if_pos ⟨Nat.le_add_right _ _, Nat.add_lt_add_left h _⟩, Nat.add_sub_cancel_left], Nat.add_lt_add_left h _⟩
theorem below_window {a : Nat} (h : a < deviceTop) : windowOffset a = none ∧ a < hostBase :=
  ⟨if_neg fun x => Nat.not_le.2 h x.1, Nat.lt_of_lt_of_le h (Nat.le_add_right _ _)⟩

/-- Host memory stands above the window; an access of device memory too high, one to the launch window. -/
theorem witness_host_windows :
    (∃ a, hostBase ≤ a ∧ inDevice a 64 = false) ∧ (∃ a, windowOffset a = some 4096 ∧ inDevice a 64 = false ∧ a < hostBase) ∧
    ∃ a, windowOffset a = none ∧ inDevice a 64 = false ∧ a < hostBase := by
  have h8 : 0 < deviceTop := Nat.lt_of_lt_of_le (by decide) (Nat.le_add_right hbmBytes _)
  refine ⟨⟨_, Nat.le_refl _, inDevice_high ?_⟩, ⟨_, (in_window (by decide)).1, inDevice_high ?_, (in_window (by decide)).2⟩,
    ⟨deviceTop - 1, (below_window ?_).1, inDevice_high ?_, (below_window ?_).2⟩⟩
  · exact Nat.lt_add_right 64 (Nat.lt_add_of_pos_right (by decide))
  · exact Nat.lt_add_right 64 (Nat.lt_add_of_pos_right (by decide))
  all_goals generalize deviceTop = d at h8 ⊢
  all_goals omega

theorem witness_host_writes : ∃ s1, writePhys .host (hostBase + 64) [] (sectorS none) = .ok () s1 := ⟨_, rfl⟩

/-- BAR0 ends at 2 MiB; the status word and the table lie in it. -/
theorem witness_bar : (2 ^ 21 < 2 ^ 21 - 1 + 2) ∧ statusAt + 2 ≤ 2 ^ 21 ∧ tableAt + msixBytes ≤ 2 ^ 21 := by
  simp only [statusAt, tableAt, msixBytes]
  omega

theorem test_host_reads :
    (runM (hostLoad 0x60000 2) (sectorS none)).hostAnswer = some [5#8, 6#8] := by
  simp only [hostLoad, inDevice_low (show 0x60000 + 2 ≤ hbmBytes by decide), if_true]
  decide +kernel

theorem witness_mailbox :
    Mailbox .mailboxReadErrorCounters ∧ Mailbox (.mailboxAssignUnits 1 [0]) ∧ ([0] : List Nat).all (· < 64) = true ∧
    ((List.replicate 32 0 : List Byte)).length = 32 :=
  ⟨.inr (.inr (.inr (.inr (.inr (.inl rfl))))), .inl ⟨_, _, rfl⟩, rfl, rfl⟩

theorem test_units_move :
    (let s := assignUnits 1 [1, 70] baseA
     ((s.partition 1).units, (s.partition 0).units.contains 1)) = ([1], false) := by decide +kernel

theorem test_reset_release : ((nextOf (exec (.resetRelease 3) baseA)).boot, (nextOf (exec (.resetRelease 3) baseA)).bootFail) = (1, 3) := by decide +kernel

/-- Port 2 runs on some lanes. -/
def linkS (n : Nat) : State := { baseA with cur := .package, links := [(2, n)] }

theorem witness_links :
    linkLanes (linkS 0) 2 = 0 ∧ linkLanes (linkS 1) 2 = 0 ∧ linkLanes (linkS 2) 2 = 2 ∧ linkLanes (linkS 6) 2 = 4 ∧
    linkLanes (linkS 4) 23 = 8 ∧ ∀ s, ∃ s1, linkDown 2 s = .ok () s1 :=
  ⟨by decide +kernel, by decide +kernel, by decide +kernel, by decide +kernel, by decide +kernel,
    fun s => (completes_linkDown 2 s).elim fun _ h => h⟩

theorem test_lane_withdrawal :
    ([8, 6, 4].map fun n => linkLanes (nextOf (exec (.laneWithdrawal 2) (linkS n))) 2) = [4, 4, 2] := by decide +kernel

/-- Package 5 takes part in shuffle 3. -/
theorem witness_failed_package :
    answers (packageLost 5) dataS.1 = some () ∧ dataS.1.shuffles.any (fun e => e.2.parts.contains 5) = true := by decide +kernel

theorem witness_scrub :
    (∃ k ∈ (sectorS none true).mem.poison, k = 0x3000) ∧ 0x3000 ∉ (sectorS none).mem.poison ∧
    ((sectorS none).mem.upsets.lookup 0x3000).getD .transient = .transient ∧
    ((sectorS (some .lasting)).mem.upsets.lookup 0x3000).getD .clean = .lasting ∧
    ((sectorS (some .corrected)).mem.upsets.lookup 0x3000).getD .clean = .corrected ∧
    ((sectorS none).mem.upsets.lookup 0x3000).getD .clean = .clean := by decide +kernel

/-- A sector of the GiB that pseudo-channel 0 took with it, if it did. -/
theorem witness_lost_sector :
    lostSector { sectorS none with channelsGone := List.range 768 } 0x3000 = true ∧ lostSector (sectorS none) 0x3000 = false ∧
    0x3000 ∉ (sectorS none).mem.poison := by
  refine ⟨?_, by decide +kernel, by decide +kernel⟩
  simp only [lostSector, List.any_eq_true, List.mem_range, beq_iff_eq]
  exact ⟨(768 - Config.channelShift % 768) % 768, by omega, by omega⟩

theorem test_scrub_poisons :
    (doneIn (checkSector 0x3000) (upsetSector 0x3000 .lasting (sectorS none))).mem.poison = [0x3000] := by decide +kernel

/-- The package at step `n` of bring-up, which will fail at step `f`. -/
def bringS (n f : Nat) : State :=
  { State.reset with boot := BitVec.ofNat 16 n, bootFail := f, agenda := [.run .package]
                     images := [{ kind := .firmware, bytes := [1], rsa := [], slh := [] }]
                     staged := [{ kind := .firmware, bytes := [2], rsa := [], slh := [] }] }

theorem witness_bring_up :
    (∀ n ∈ [1, 2, 3, 4, 5, 6], PackageTurn (bringS n 0) [] n ∧ n ≠ (bringS n 0).bootFail ∧ PackageTurn (bringS n n) [] n ∧
      n = (bringS n n).bootFail) ∧ ∀ s, ∃ t, selfTests 64 s = .ok () t := by
  refine ⟨?_, fun s => ?_⟩
  · intro n hn
    simp only [List.mem_cons, List.not_mem_nil, or_false] at hn
    rcases hn with rfl | rfl | rfl | rfl | rfl | rfl <;>
      exact ⟨⟨rfl, rfl, rfl, by decide, by decide⟩, by decide, ⟨rfl, rfl, rfl, by decide, by decide⟩, rfl⟩
  · have h : ∀ n, Completes (selfTests n) := by
      intro n
      induction n with
      | zero => exact Completes.pure _
      | succ n ih =>
        unfold selfTests
        refine (completes_pick _ _).bind fun k => ?_
        split
        · refine (completes_pick _ _).bind fun unit => (completes_pick _ _).bind fun i => Completes.bind ?_ fun _ => ih
          exact Completes.get.bind fun _ => (Completes.upd _).bind fun _ => (Completes.upd _).bind fun _ =>
            (Completes.upd _).bind fun _ => Completes.upd _
        · exact ih
    exact (h 64 s).elim fun _ h => h

/-- Step 2 takes the staged image in (R497, R498). -/
theorem test_bring_up_installs :
    (let s := nextOf (step (bringS 2 0)); (s.boot, s.images.map (·.bytes), s.staged.length, s.msix.contains 0)) = (3, [[2]], 0, true) := by
  decide +kernel

theorem test_bring_up_fails : (nextOf (step (bringS 2 2))).boot = 0x8002 := by decide +kernel

/-- An image of no signature is not sound; a package that takes 500 W, and its limit. -/
theorem witness_mailbox_changes :
    (rsaVerify Config.imageModulus (sha384 [0]) [] = false) ∧ (500 ≤ ({ baseA with power := 500 } : State).power) ∧
    (({ baseA with power := 500 } : State).power < 501) ∧ baseA.boot = 0xFF#16 := by
  refine ⟨?_, by decide, by decide, by decide⟩
  unfold rsaVerify
  simp

/-- A port of three sound lanes loses one, one of two its link. -/
theorem witness_lane_withdrawal :
    (linkS 3).links.getD 2 8 = 3 ∧ (linkS 2).links.getD 2 8 = 2 ∧ linkLanes (linkS 3) 2 = 2 ∧
    ∃ s1, linkDown 2 (graved (linkS 2) 4 10 2) = .ok () s1 :=
  ⟨by decide +kernel, by decide +kernel, by decide +kernel, (completes_linkDown 2 _).elim fun _ h => h⟩

/-! ### Witnesses: elements of the Sweep fabric (R333-R353, R359) -/

/-- A section of one row: records as used inputs with their sources, control word and immediate; descriptor slots. -/
def elemImage (recs : List (List (Nat × Nat) × Nat × Nat)) (slots : List (List Byte)) : List Byte :=
  fields 64 [(0, 4, 1), (4, 4, 64 + 64 * slots.length + 16 * recs.length), (10, 1, 1), (11, 1, recs.length), (12, 1, 1), (13, 1, slots.length)] ++
    slots.flatMap id ++ recs.flatMap fun r =>
      [0, 1, 2, 3].flatMap (fun i => leBytes 2 ((r.1.lookup i).getD 0)) ++ leBytes 4 r.2.1 ++ leBytes 4 r.2.2

/-- Element 0 of section 0 with an operation, a format, a parameter, tokens at its inputs, a state, a slot. -/
def elemS (op param : Nat) (used : List Nat) (toks : List (Nat × Tok)) (st : Option ElemState := none) (slots : List (List Byte) := []) :
    State :=
  let image := elemImage [(used.map fun i => (i, 0x8005), op + 8 * 64 + param * 2 ^ 19, 3)] slots
  let inq : Tbl (List Tok) := toks.map fun e => (e.1, [e.2])
  let elems : Tbl ElemState := match st with
    | some v => [(0, v)]
    | none => []
  { fabS { image := image, armed := 1, inq := inq, elems := elems } with cur := .package }

def el0 : ElemRef := ⟨1, 0, 0⟩
def sectionOf (s : State) : Section := (s.crew 1).sections.getD 0 { image := [] }
def dat (n tag : Nat) (t : Bool := false) (eod : Nat := 0) : Tok := .data (BitVec.ofNat 32 n) tag false t eod

/-- It has the operation and its turn, its output ports are free, and every used input has a token of the tag. -/
def elemTurns (s : State) (code : Nat) : Bool :=
  (s.crew 1).stage == .resident && ((s.crew 1).sections.find? 0).isSome && decide (0 < (sectionOf s).size) &&
    ((sectionOf s).record 0).op == code && slotTurn s (s.crew 1).cl (s.crew 1).slot ((sectionOf s).place 0) &&
    canEmit s 1 0 (sectionOf s) 0 ([0, 1, 2, 3].map fun p => (p, dat 1 0))
def elemReady (s : State) (tag : Nat) : Bool :=
  let u := ((sectionOf s).record 0).usedInputs
  !u.isEmpty && u.all fun i => (ready (sectionOf s) 0 i).isSome && (tokAt (sectionOf s) 0 i).tag == tag

/-- The operations on data, each with its used inputs. -/
def computing : List (Nat × List Nat) :=
  [(0x04, [0, 1]), (0x05, [0, 1]), (0x06, [0, 1]), (0x07, [0, 1, 2]), (0x08, [0]), (0x09, [0, 1]), (0x0A, [0, 1]), (0x0B, [0, 1]),
   (0x0C, [0, 1]), (0x0D, [0]), (0x0E, [0]), (0x0F, [0]), (0x10, [0, 1]), (0x12, [0]), (0x19, [0]), (0x1A, [0]), (0x1D, [0])]
def unguarded : List (Nat × List Nat) := [(0x11, [0, 1, 3]), (0x1B, [0]), (0x1C, [0]), (0x17, [0]), (0x1E, [0])]

theorem witness_computing :
    (computing.all fun (code, u) =>
      let toks := u.map fun i => (i, dat (5 - i) 2)
      let s := elemS code 0 u toks
      elemTurns s code && elemReady s 2 && !((sectionOf s).record 0).uses 3) = true := by decide +kernel

theorem witness_guarded :
    (computing.all fun (code, u) => [true, false].all fun g =>
      let toks := u.map fun i => (i, dat (5 - i) 2)
      let s := elemS code 0 (u ++ [3]) (toks ++ [(3, .pred g 2)])
      elemTurns s code && elemReady s 2 && ((sectionOf s).record 0).uses 3 && (tokAt (sectionOf s) 0 3).truth == g) = true := by
  decide +kernel

theorem witness_unguarded :
    (unguarded.all fun (code, u) =>
      let toks := u.map fun i => (i, if i = 3 then Tok.pred false 2 else dat (5 - i) 2)
      let s := elemS code 0 u toks
      elemTurns s code && elemReady s 2) = true := by decide +kernel

theorem witness_tags_differ :
    (([0x04, 0x08, 0x10, 0x11, 0x19, 0x1B] : List Nat).all fun code =>
      let s := elemS code 0 [0, 1] [(0, dat 5 2), (1, dat 4 1)]
      elemTurns s code && ((sectionOf s).record 0).usedInputs == [0, 1] && (ready (sectionOf s) 0 0).isSome &&
        (ready (sectionOf s) 0 1).isSome && (tokAt (sectionOf s) 0 0).tag != (tokAt (sectionOf s) 0 1).tag) = true := by decide +kernel

theorem witness_steering :
    ([(false, 2, true), (false, 2, false), (true, 2, false), (true, 0, false)].all fun (exit, tag, p) =>
      let s := elemS 0x13 (if exit then 1 else 0) [0, 3] [(0, dat 5 tag), (3, .pred p tag)]
      elemTurns s 0x13 && elemReady s tag && ((sectionOf s).record 0).uses 0 && ((sectionOf s).record 0).uses 3 &&
        bit ((sectionOf s).record 0).param 0 == exit) = true := by decide +kernel

theorem witness_merging :
    ([(true, 2), (false, 2), (true, 1)].all fun (p, tag) =>
      let s := elemS 0x14 0 [0, 1, 3] [(0, dat 5 tag), (1, dat 4 tag), (3, .pred p 2)]
      elemTurns s 0x14 && ready (sectionOf s) 0 3 == some (.pred p 2) &&
        ready (sectionOf s) 0 (if p then 0 else 1) == some (dat (if p then 5 else 4) tag)) = true := by decide +kernel

theorem witness_carrying :
    ([(false, 2, true), (false, 7, true), (true, 2, true), (true, 2, false)].all fun (looping, tag, p) =>
      let s := elemS 0x15 0 [0, 1, 3] [(0, dat 5 tag), (1, dat 4 tag), (3, .pred p tag)] (some { flag := looping })
      elemTurns s 0x15 && ((sectionOf s).elem 0).flag == looping && ready (sectionOf s) 0 0 == some (dat 5 tag) &&
        ready (sectionOf s) 0 3 == some (.pred p tag) && ready (sectionOf s) 0 1 == some (dat 4 tag)) = true := by decide +kernel

theorem witness_joins :
    (let s := elemS 0x16 0 [0, 1] [(0, dat 5 2), (1, dat 4 1)]
     elemTurns s 0x16 && ((sectionOf s).record 0).usedInputs.all fun i => (ready (sectionOf s) 0 i).isSome) = true ∧
    (let s := elemS 0x18 2 [0] [(0, dat 5 2)]
     elemTurns s 0x18 && Tbl.sorted (s.crew 1).sections && ready (sectionOf s) 0 0 == some (dat 5 2)) = true ∧
    ([(0, dat 5 2 true), (3, Tok.pred true 2), (3, Tok.pred false 2)].all fun (i, t) =>
      let s := elemS 0x1F 0 [i] [(i, t)]
      elemTurns s 0x1F && ready (sectionOf s) 0 i == some t) = true := by decide +kernel

/-- A source of queue 4, whose entries and state are given. -/
def sourceS (st : ElemState) (entries : List QEntry := []) : State :=
  let s := elemS 0x01 4 [] [] (some st)
  s.setCrew 1 { s.crew 1 with queues := (s.crew 1).queues.put 4 { wordQueue 0 8 4 with entries := entries } {} }

theorem witness_sources :
    ([(({ mark := some 1 } : ElemState), ([] : List QEntry)), ({ out := [dat 5 0 true], flag := true, begun := 1 }, []), ({}, [entry 3]),
      ({}, [{ entry 3 with p := true }]), ({ begun := 1 }, [])].all fun (st, es) =>
      let s := sourceS st es
      elemTurns s 0x01 && ((sectionOf s).elem 0) == st && decide ((sectionOf s).waitingMarks 0 < 2) &&
        (queueRefuses ((s.crew 1).queues.getD 4 {}) 8 ((s.crew 1).queues.getD 4 {}).width false).isNone &&
        ((s.crew 1).queues.getD 4 {}).entries == es && admitted (sectionOf s) st == (st.begun == 0 || st.flag)) = true ∧
    (wordTokens (entry 3).h (entry 3).t (wordsOf (entry 3).data)).length = 2 ∧
    answers (recordMarker 1 0 0 1) (movedAs (sourceS { mark := some 1 }) el0 (sectionOf (sourceS { mark := some 1 })) []
      [(0, .marker 1)] {} 0) = some () := by decide +kernel

/-- A sink to queue 3: the words before, the token, its guard; the queue full or closed or open. -/
def sinkS (nums : List Nat) (t : Tok) (guard : Option Bool) (q : Queue) : State :=
  let s := elemS 0x02 3 (match guard with | some _ => [0, 3] | none => [0]) ([(0, t)] ++ match guard with
    | some g => [(3, .pred g t.tag)]
    | none => []) (some { nums := nums })
  s.setCrew 1 { s.crew 1 with queues := (s.crew 1).queues.put 3 q {} }

theorem witness_sinks :
    ([([], dat 5 2, some false, wordQueue 8 0 4), ([], dat 5 2, none, wordQueue 8 0 4), ([], dat 5 2, some true, wordQueue 8 0 4),
      ([7], dat 5 2, none, wordQueue 8 0 4), ([], dat 5 2 true, none, wordQueue 8 0 4), ([], dat 5 2 true, none, wordQueue 1 0 4),
      ([], dat 5 2 true, none, { wordQueue 8 0 4 with entries := List.replicate 4 (entry 1) })].all
      fun (x : List Nat × Tok × Option Bool × Queue) =>
      let s := sinkS x.1 x.2.1 x.2.2.1 x.2.2.2
      elemTurns s 0x02 && ready (sectionOf s) 0 0 == some x.2.1 && ((sectionOf s).record 0).uses 3 == x.2.2.1.isSome &&
        ((sectionOf s).elem 0).nums == x.1 && (s.crew 1).queues.getD 3 {} == x.2.2.2) = true ∧
    (match holdEntry (wordQueue 8 0 4) [7, 5] false false with | .ok _ => true | _ => false) = true ∧
    (match holdEntry (wordQueue 1 0 4) [5] false true with | .error (some _) => true | _ => false) = true ∧
    (match holdEntry { wordQueue 8 0 4 with entries := List.replicate 4 (entry 1) } [5] false true with | .error none => true | _ => false) =
      true := by decide +kernel

/-- An address generator of mode `mode` over tiles of TID 2, or over 64 bytes of bank 1, whose token the section holds. -/
def agenS (mode : Nat) (used : List Nat) (toks : List (Nat × Tok)) (bank : Bool) (st : ElemState := {}) : State :=
  let slot : List Byte := if bank then fields 64 [(0, 1, 1), (1, 1, 1), (44, 4, 64)] else tileBox 2
  let s := elemS 0x03 (mode * 8) used toks (some st) [slot]
  let t := descS 0x80A40000
  { t.setCrew 1 { t.crew 1 with sections := (s.crew 1).sections, banks := [(1, 1)], spad := 2 } with
    cur := .package, pins := t.pins.map fun p => { p with ranges := [(0x10000, 0x60000)] } }

theorem witness_generators :
    (let s := agenS 2 [] [] false
     elemTurns s 0x03 && ((sectionOf s).record 0).isSource && (agenDesc (sectionOf s) 0).box.count == 2 && admitted (sectionOf s) {}) = true ∧
    (let s := agenS 0 [] [] false { out := [dat 1 0, dat 2 0 true], flag := true, begun := 1 }
     elemTurns s 0x03 && bits ((sectionOf s).record 0).param 4 3 == 0) = true ∧
    (let s := agenS 0 [] [] false
     elemTurns s 0x03 && !((sectionOf s).record 0).uses 0 && (agenDesc (sectionOf s) 0).kind == 0 &&
       match agenTile el0 (sectionOf s) 0 s with
       | .ok (.bytes bs) s1 => (s1.crew 1).sections.find? 0 == some (sectionOf s) && bs.length == 1024 &&
           canEmit s1 1 0 (sectionOf s) 0 [(0, dat 1 0)]
       | _ => false) = true := by decide +kernel

theorem witness_writers :
    (let s := agenS 1 [0, 1] [(0, dat 5 2), (1, dat 3 2)] true
     let x := sectionOf s
     elemTurns s 0x03 && (agenDesc x 0).kind == 1 && ready x 0 0 == some (dat 5 2) && ready x 0 1 == some (dat 3 2) &&
       (s.crew 1).banks.getD (agenDesc x 0).bank 0 == 1 && decide (4 * 3 + 4 ≤ (agenDesc x 0).length) &&
       (logWrite (s.crew 1) x 0 true (cellsAt ((agenDesc x 0).bank * 524288 + (agenDesc x 0).offset + 4 * 3) (leBytes 4 5)) {}).isSome) =
      true := by decide +kernel

/-- An addition with a marker at one input, or at both; with two markers forwarded and not committed. -/
def markS (both : Bool) (waiting : Nat) : State :=
  let s := elemS 0x04 0 [0, 1] [(0, .marker 1), (1, if both then .marker 1 else dat 4 2)]
  s.setCrew 1 { s.crew 1 with sections := [(0, { sectionOf s with ckpts := List.replicate waiting (0, 7, {}) })] }

theorem witness_markers :
    ([(false, 0), (true, 0), (true, 2)].all fun (both, n) =>
      let s := markS both n
      elemTurns s 0x04 && !((sectionOf s).record 0).isSink && ((sectionOf s).record 0).usedInputs == [0, 1] &&
        markAt (sectionOf s) 0 0 == some 1 && (markAt (sectionOf s) 0 1).isSome == both && (sectionOf s).waitingMarks 0 == n) = true ∧
    ((sectionOf (markS true 0)).ports 0) = [] ∧
    answers (recordMarker 1 0 0 1) (movedAs (markS true 0) el0 (sectionOf (markS true 0)) [0, 1] [] {} 0) = some () := by decide +kernel

/-- A `CARRY` with markers at some inputs, in its first mode or looping. -/
def carryMarkS (ins : List Nat) (looping : Bool) : State :=
  elemS 0x15 0 [0, 1, 3] (ins.map fun i => (i, .marker 1)) (some { flag := looping })

theorem witness_carry_markers :
    ([([0, 1], false), ([0, 3], false), ([0], true), ([0], false)].all fun (ins, b) =>
      let s := carryMarkS ins b
      let x := sectionOf s
      (s.crew 1).stage == .resident && decide (0 < x.size) && (x.record 0).op == 0x15 && markAt x 0 0 == some 1 &&
        (markAt x 0 1).isSome == ins.contains 1 && (markAt x 0 3).isSome == ins.contains 3 && (x.elem 0).flag == b &&
        x.waitingMarks 0 == 0 && canEmit s 1 0 x 0 ((x.ports 0).map fun p => (p, .marker 1)) &&
        answers (recordMarker 1 0 0 1) (movedAs s el0 x [0] ((x.ports 0).map fun p => (p, .marker 1)) (x.elem 0) 0) == some ()) = true := by
  decide +kernel

theorem witness_widen_markers :
    (let s := elemS 0x18 2 [0] [(0, .marker 1)]
     let x := sectionOf s
     (s.crew 1).stage == .resident && (x.record 0).op == 0x18 && !(x.record 0).isSink && Tbl.sorted (s.crew 1).sections &&
       markAt x 0 0 == some 1 && (x.elem 0).out == [] && x.waitingMarks 0 == 0 && canEmit s 1 0 x 0 ((x.ports 0).map fun p => (p, .marker 1)) &&
       answers (recordMarker 1 0 0 1) (movedAs (widenRelease s el0 x) el0 (widenedBy x 0) [0] ((x.ports 0).map fun p => (p, .marker 1)) (x.elem 0) 0) ==
         some ()) = true := by decide +kernel

/-- An addition held for alignment while its other input is full; it may have been aborted before. -/
def blockedS (again : Bool) : State :=
  let s := elemS 0x04 0 [0, 1] []
  s.setCrew 1 { s.crew 1 with sections := [(0, { sectionOf s with
    inq := [(0, [.marker 1]), (1, List.replicate 8 (dat 4 2))], aborted := if again then some 1 else none })] }

theorem witness_alignment :
    (sectionOf (markS true 0)).blocked = [] ∧ ([false, true].all fun b => (sectionOf (blockedS b)).blocked == [(0, 1)] &&
      (sectionOf (blockedS b)).aborted == (if b then some 1 else none)) = true ∧
    answers (pick 0 0) (blockedS true) = some 0 := by decide +kernel

/-- A `CARRY` is held for alignment at its input 0 alone (R348). -/
theorem witness_carry_alignment :
    ([(0, 1), (1, 0)].all fun (i, j) =>
      let x := { sectionOf (elemS 0x15 0 [0, 1, 3] []) with inq := [(0, []), (1, [])].map fun e : Nat × List Tok =>
        (e.1, if e.1 = i then [Tok.marker 1] else if e.1 = j then List.replicate 8 (dat 4 2) else []) }
      x.blocked == (if i = 0 then [(0, 1)] else [])) = true := by decide +kernel

/-- Two crews hold an operation at one place of the fabric: once the first has had its turn there, it is the other's (R328). -/
theorem test_contexts_take_turns :
    (let s := elemS 0x04 0 [0, 1] [(0, dat 5 2), (1, dat 4 2)]
     let s := (s.setCrew 2 { s.crew 1 with slot := 1, order := 2 }).setCluster 0 { s.cluster 0 with slots := [(0, 1), (1, 2)] }
     let t := nextOf (exec (.elementAdd 1 0 0) s)
     let p := (sectionOf s).place 0
     (slotTurn s 0 0 p, slotTurn s 0 1 p, slotTurn t 0 0 p, slotTurn t 0 1 p)) = (true, false, false, true) := by decide +kernel

/-! ### Witnesses: encodings, steps and memory's history (R159-R184) -/

theorem witness_encodings :
    (Instr.addi { d := 3, a := 3, imm := 16383, ta := 0 }).wf = true ∧
    encode (.addi { d := 3, a := 3, imm := 16383, ta := 0 }) = some [0x4031FFFE] ∧
    encode (.vadd { tok := 9, d := 256, mg := 0, rm := 0, fmt := 0, a := 0, b := 128, c := 0 }) = some [0x01240000, 0x00020000] ∧
    (match decodeLane .v 0x01240000 0x00020000 with | .ok i => i.wf && i.streams.contains .v | _ => false) = true := by decide

/-- A line of one owner's lanes: a header and the first words. -/
def lineOf (cox : Bool) (header : Nat) (ws : List Nat) : List Byte :=
  leBytes 4 (header + if cox then 0 else 1) ++ (ws ++ List.replicate (7 - ws.length) 0).flatMap (leBytes 4)

/-- A line is read at the pointer; the first lane with an instruction, and what it decodes to. -/
def fetches (o : Owner) (s : State) : Option (Bool × Option Nat × Option (Option Instr)) :=
  match fetchLine o (ptrLine (s.scalar o).pc.toNat) s with
  | .error _ _ => none
  | .ok bs _ =>
    let l := Line.ofBytes bs
    let k := l.first (ptrLane (s.scalar o).pc.toNat)
    some (l.wf (isCox o) (ptrLine (s.scalar o).pc.toNat), k, k.map fun k =>
      match decodeLane (l.stream (isCox o) k) (l.word k) (l.word (k + 1)) with
      | .ok i => some i
      | .error _ => none)

/-- The line at the pointer holds one word, and nothing after it; the pointer is at its first lane, or at a later one. -/
def oneLane (w lane : Nat) : State :=
  let s := { baseA with mem := baseA.mem.pokes placeLine (Line.single true 1 w 0) }
  s.setScalar tA { s.scalar tA with pc := BitVec.ofNat 64 (placeLine + lane) }

theorem witness_fetches :
    (([(tA, codeA), (cS, codeS)].all fun (o, s) => ptrOk (s.scalar o).pc.toNat &&
      fetches o s == some (true, some 1, some (some (.nop r0))))) = true ∧
    (fetches tA (oneLane 0xFE000000 1) == some (true, some 1, some none) && (fetches tA (oneLane 0x6E000000 2)).any fun x => x.1 && x.2.1 == none) =
      true ∧
    (fetches tA (coded baseA placeLine (List.replicate 32 0xFF))).any (fun x => !x.1) = true ∧
    ptrOk ((oneLane 0 9).scalar tA).pc.toNat = false := by decide +kernel

/-- A thread's turn: nothing is due, none before it in the rotation would act, and its fetch gives an instruction, moves on, or
raises its exception; a lasting error stands at its line. -/
def turnOf (s : State) : Bool := !s.halted && (dueNow 0 s).isNone && mayFetch s 0 && !(before s 0).any (acts s)
def spoiltA : State := { codeA with mem := { codeA.mem with poison := (List.range 32).map (placeLine / 32 + ·) } }

theorem witness_turns :
    ([codeA, oneLane 0x6E000000 2, oneLane 0 9, spoiltA].all turnOf) = true ∧
    (!codeS.halted && codeS.activeCrew 0 == some 1 && (codeS.crew 1).stage == .resident && (codeS.crew 1).smode == .running) = true ∧
    (match fetchAt (.thread 0) (codeA.setThread 0 { codeA.thread 0 with mode := .ready }) with | .ok (.run i) _ => i == .nop r0 | _ => false) =
      true ∧
    (match fetchAt (.thread 0) (oneLane 0x6E000000 2) with | .ok .moved _ => true | _ => false) = true ∧
    (match fetchAt (.thread 0) (oneLane 0 9) with | .error (.trap e) _ => e.cause == 15 | _ => false) = true ∧
    (match fetchAt (.thread 0) spoiltA with | .error (.lasting _) _ => true | _ => false) = true ∧
    (match fetchAt cS (let s := { codeS with mem := { codeS.mem with poison := (List.range 32).map (placeLine / 32 + ·) } }; s) with
      | .error (.lasting _) _ => true | _ => false) = true := by
  decide +kernel

theorem witness_queued :
    (let s := fullS.setCrew 1 { fullS.crew 1 with vq := [vEntry (.vadd v0)] }
     (streamHead { s with cur := .vec 0 } (.vec 0)).map fun x => (x.1, x.2.1, x.2.2.bad)) = some (1, 2, false) ∧
    (engineHead { laneFull with cur := .copyEng 0 } (.copyEng 0)).isSome = true := by decide +kernel

/-- A loss of decoupling is due, or a cluster exception; another thread of the core is ready, and thread 0 issued last; it may
itself have nothing to do. -/
def lossA : State := baseA.setThread 0 { baseA.thread 0 with lossDue := some (0x10001, true) }
def twoA (mode : ThreadMode := .ready) : State := issued 0 (codeA.setThread 1 { codeA.thread 0 with mode := mode })

theorem witness_thread_turns :
    mayFetch lossA 0 = true ∧ lossNow lossA 0 = some 0x10001 ∧ lossNow postedA 0 = none ∧ deliveryDue postedA 0 = some 1 ∧
    dueNow 0 twoA = none ∧ mayFetch twoA 0 = true ∧ (before twoA 0).any (acts twoA) = true ∧ (before twoA 1).any (acts twoA) = false ∧
    (before (twoA .free) 0).any (acts (twoA .free)) = false ∧ mayFetch (twoA .free) 0 = true ∧ before baseA 0 = [] ∧
    dueNow 1 (twoA .free) = none ∧ mayFetch (twoA .free) 1 = false := by
  decide +kernel

/-- A thread that stalls keeps its place; one that issues gives it up (R16, R17). -/
theorem test_a_stall_keeps_its_place :
    (let s := { withPend baseA tA 6 (.value 7) with mem := baseA.mem.pokes placeLine (Line.single true 1 0x40630002 0), agenda := [.run (.thread 0)] }
     (nextOf (step s)).turns.getD 0 0 = s.turns.getD 0 0) ∧
    (nextOf (step { codeA with agenda := [.run (.thread 0)] })).turns.getD 0 0 = 1 := by decide +kernel

/-- A write in the coherence order that a release has published. -/
def writtenS : State :=
  { baseA with mem := { baseA.mem with log := [{ id := 3, agent := .hub, cells := [(0x40000, 7)], pubs := [{ scope := 4, cl := 64 }] }] } }

theorem witness_history :
    (match step { writtenS with agenda := [.event .thermalWarning] } with | .next t => t.mem == writtenS.mem && t.slowClock | _ => false) =
      true ∧
    (match exec (.resetRelease 3) writtenS with | .next t => t.mem == writtenS.mem | _ => false) = true ∧
    Tbl.wf (0 : Byte) writtenS.mem.cells = true ∧
    (match step { writtenS with halted := true } with | .fault _ => true | _ => false) = true := by decide +kernel

theorem test_reset_keeps_memory_until_step_4 :
    (match exec (.resetRelease 3) writtenS with | .next t => t.boot | _ => 0) = 1 := by decide +kernel

/-! ### Lodor sections (R385-R396, R430): the section of spec/16 -/

/-- The dot product of spec/16, from its tables of blocks, edges and records. -/
def dotSection : List Byte :=
  (([0x400030001, 0x1D, 0x0, 0x0, 0x0, 0x700000000, 0x5, 0x0, 0x1, 0xA00000007, 0x4, 0x0, 0x1, 0xC00000011] ++
    [0xA, 0x0, 0x10000010000, 0x1, 0x1050400010001, 0x14, 0x1020400020001, 0x4, 0x200000002, 0x1, 0x100002800, 0x100B000000000, 0x1000200002000, 0x10000000000] ++
    [0x2000300004500, 0x0, 0x1000400002A00, 0x3, 0x4000000000105, 0x0, 0x500000005, 0x300000000, 0x1000500024100, 0x20000000000, 0x100000005, 0x0, 0x1000000000003, 0x0] ++
    [0x1000200002000, 0x4000000000, 0x2000000010003, 0x0, 0x1000300002000, 0x8000000000, 0x3000000000003, 0x1000000000000, 0x103, 0x100000000, 0x2010103, 0x100000000, 0x1000406072601, 0x0] ++
    [0x8000103, 0x1000200000000, 0x100000005, 0x200000000, 0x200000005, 0x200000000, 0x300000005, 0x200000000, 0x400000005, 0x200000000, 0x3000500001001, 0x200000000, 0x4000600001001, 0x200000000] ++
    [0x5000700000201, 0x6, 0x1000800001001, 0x200000000, 0x2000900001001, 0x200000000, 0x8000700000301, 0x9, 0x7000A00000006, 0x0, 0xA000000000105, 0x300000000] : List Nat)).flatMap (leBytes 8)

/-- The section with some bytes of a record replaced. -/
def dotWith (record offset : Nat) (bs : List Byte) : List Byte :=
  let n := 32 + 32 * 3 + 16 * 4 + 16 * record + offset
  dotSection.take n ++ bs ++ dotSection.drop (n + bs.length)

/-- It is sound; a queue read twice is not what is refused, but stochastic rounding (7), a branch (6), a read before any write (5) and
a bank the card has not (4) are (R388, R393, R396). -/
theorem test_lodor_reasons :
    lodorReasons dotSection 1 = [] ∧ lodorReasons (dotWith 21 2 [0x40#8]) 1 = [7] ∧ lodorReasons (dotWith 0 1 [0x30#8]) 1 = [6] ∧
    lodorReasons (dotWith 21 6 [9#8, 0#8]) 1 = [5] ∧ lodorReasons (dotWith 13 0 (leBytes 4 0x403 ++ List.replicate 8 0 ++ leBytes 4 (2 * 2 ^ 24))) 2 = [4] ∧
    lodorReasons (dotWith 27 2 [0x50#8]) 1 = [] := by decide +kernel

/-- What the translation answers about its queues and its entries. -/
def dotAnswer : Option (List (Nat × Nat) × Nat × List Nat) :=
  match chervil dotSection 1 1 with
  | .done t => some (t.qcfg, t.centLine, (List.range 3).map fun k => leNat ((t.lines.drop (4 * k)).take 4))
  | _ => none

/-- `q0` to `q3` as spec/16 gives them, the access code in one fetch block, and its first lanes: `LIMM g1, 0x00B0, 1` and
`ADDI g2, g1, 256`. -/
theorem test_lodor_translation :
    dotAnswer = some ([(0, 0x80100000), (1, 0xA4500013), (2, 0xA4200003), (3, 0x82000000)], 4, [0x99999998, 0x501400B0, 0x40208200]) := by
  decide +kernel

/-- An f32 tree of 32 elements: an addition for each of its five levels, and one that repeats every one of its 31; the result stands
alone in element 0 (R390). -/
theorem test_lodor_tree :
    (let code := treeCode { op := 0, mode := 0, tok := 0, d := 10, a := 7, b := 0, g := 0, imm := 0 } 20 14 false
     ((code.filter fun x => match x.2 with | .vadd o => o.mg == 7 | _ => false).length, (code.drop 88).map (·.2))) =
      (6, [.vxor (laneV 8 0 0 (spareRow 4) (spareRow 4) (spareRow 4) 0), .vsel (laneV 8 0 0 20 (spareRow 7) (spareRow 4) 7)]) := by
  decide +kernel

/-! ### The named standards (R486) -/

/-- SHA-384 of "abc", from FIPS 180-4's example: its first bytes. -/
theorem test_sha384 : (sha384 [0x61, 0x62, 0x63]).take 8 = [0xcb, 0x00, 0x75, 0x3f, 0x45, 0xa3, 0x5e, 0x8b] := by decide +kernel

end Sys2Proof.Tests
end

/-! ### Steps: what a turn runs, and that every meaning answers a next state (O57) -/

section
namespace Sys2Proof.Machine

/-- An outcome that is a next state. -/
def Goes (r : Out) : Prop := ∃ t, r = .next t

theorem Goes.ne_fault {r : Out} (h : Goes r) (f : Fault) : r ≠ .fault f := by
  obtain ⟨t, rfl⟩ := h
  nofun

theorem Goes.ne_refused {r : Out} (h : Goes r) (f : Refusal) : r ≠ .refused f := by
  obtain ⟨t, rfl⟩ := h
  nofun

theorem runScalar_goes (body : Owner → M Flow) (s : State) : Goes (runScalar body s) := by
  unfold runScalar
  split <;> exact ⟨_, rfl⟩

theorem runLane_goes (st lanes tok : Nat) (hand : Nat → M Entry) (mmask : State → BitVec 16) (body : Nat → Entry → M Bool)
    (s : State) : Goes (runLane st lanes tok hand mmask body s) := by
  unfold runLane
  repeat' split
  all_goals exact ⟨_, rfl⟩

theorem runStroke_goes (tok : Nat) (i : Instr) (hand : Nat → Entry → M Entry) (body : Nat → Entry → M Bool) (s : State) :
    Goes (runStroke tok i hand body s) := by
  unfold runStroke
  repeat' split
  all_goals exact ⟨_, rfl⟩

theorem runCommand_goes (o : LaneFmt) (i : Instr) (n : Issue) (body : Eng → Cmd → M Bool) (more : MoreOperands) (s : State) :
    Goes (runCommand o i n body more s) := by
  unfold runCommand
  dsimp only
  repeat' split
  all_goals exact ⟨_, rfl⟩

theorem fire_goes (code : Nat) (a : ElemRef) (s : State) : Goes (fire code a s) := by
  unfold fire
  dsimp only
  repeat' split
  all_goals exact ⟨_, rfl⟩

/-- Every instruction answers a next state: none faults and none is refused. -/
theorem exec_goes (i : Instr) (s : State) : Goes (exec i s) := by
  cases i with
  | add | sub | mul | mulh | mulhn | div | divn | rem | remn | neg | abs | min | max | minn | maxn | and | or | xor
  | andn | shl | shr | sar | rotl | clz | ctz | popc | bswap | ext | ins | mort | demort | addi | andi | ori | xori
  | shli | shri | sari | cmpi | limm | limmK | mov | sel | cmp | pand | por | pxor | pnot | br | bc | call | jr
  | callr | ret | waitc | nop | qpush | qpushm | qpop | ctlr | ctlw | featq | ld | st | ldx | stx | pref | pin | unpin
  | phase | madr | tadr | qpeek | qskip | qstat | yield | eret | tlbi | ifence | halt | qclose | loop | loopq | tsrd
  | hrd | hwr | fcfg | farm | fwait | fcommit | stop | cefence | ixfence => exact runScalar_goes _ _
  | vadd | vsub | vmul | vfma | vfms | vfnma | vmin | vmax | vabs | vneg | vcps | vclass | vrcpe | vrsqe | vexp2
  | vlog2 | vcvt | vqnt | vdqnt | vcmp | vsel | vscan | vred | vdot | vminx | vmaxx | vbcast | vget | vset | vpop
  | vpush | vperm | vtopk | vcmpv | vmand | vmor | vmnot | vand | vor | vxor | vshl | vshr | vsar | vpopc | vclz
  | vmov | vselv | agdef | agrun | agput | agidx | agbank | agtake | agmark => exact runLane_goes _ _ _ _ _ _ _
  | mlds | mldsp | mswap | mrun | mzero | mdrain | mdrainv | mmask | mbnd | mwait | mstat => exact runStroke_goes _ _ _ _ _
  | csig | prefl2 | copy | copy2 | fill | strmq | drainq | shuf | launch | gath | scat | bags | isect | msort | spsrch
  | accwAdd | accwMin | accwMinn | accwMax | accwMaxn | accwAnd | accwOr | accwXor | accwXchg | accwCas | accwFaddF32
  | accwFaddBf16 | accwFmax => exact runCommand_goes _ _ _ _ _ _
  | elementSrc | elementSnk | elementAgen | elementAdd | elementSub | elementMul | elementMac | elementMin
  | elementMax | elementAnd | elementOr | elementXor | elementShl | elementShr | elementSar | elementCmp | elementSel
  | elementCvt | elementSteer | elementMerge | elementCarry | elementJoin | elementFork | elementWiden | elementRed
  | elementAcc | elementCnt | elementConst | elementPass | elementDelay | elementCommit => exact fire_goes _ _ _
  | clusterExceptionDelivery | loadDataArrival | pinHandleArrival | waitcWake | unpinRelease | tlbiWake | epochApply
  | portRequestReplay | crewDispatch | crewComplete | quantumExpiry | ageing | preemption | watchdogExpiry | ctxCreate
  | ctxTear | crewCmdResume | crewCmdEnd | crewCmdSuspend | qcfgWrite | qstatWrite | launchAccept | launchComplete
  | gangArm | gangAcknowledge | gangArmTimeout | gangCommit | gangAbort | pairingDeadline | flitRetransmit
  | laneWithdrawal | packageDeclaredFailed | failureNotification | scrubRead | hostRead | resetRelease
  | thermalWarning | thermalTrip | arithmeticClockRecovery | ready | solo | coded | repe | rreq | close | quit
  | mailboxReadErrorCounters | mailboxAttestation | mailboxAssignUnits | mailboxAssignTenant | mailboxRegisterKey
  | mailboxSetCacheQuota | mailboxSetPowerLimit | mailboxUpdateFirmware | launchPortWrite => exact ⟨_, rfl⟩
  | sysc =>
    dsimp only [exec, execSysc]
    split
    case h_2 => exact runScalar_goes _ _
    all_goals exact ⟨_, rfl⟩
  | mver =>
    dsimp only [exec, execMver]
    exact runStroke_goes _ _ _ _ _
  | completionReport | saveComplete | hostWrite | markerForward | alignmentAbort | configurationLoad | skipToken | hrdMerge | startClusterHalf | startCoxThread | bkpt =>
    dsimp only [exec, execCompletionReport, execSaveComplete, execHostWrite, execMarkerForward, execAlignmentAbort, execConfigurationLoad, execSkipToken, execHrdMerge, execStartClusterHalf, execStartCoxThread, execBkpt]
    repeat' split
    all_goals exact ⟨_, rfl⟩

/-! ### The turn a step gives -/

/-- A package that runs takes the turn its agenda appoints. -/
theorem step_appointed {s : State} {t : Turn} {rest : List Turn} (hs : s.halted = false) (ha : s.agenda = t :: rest) :
    step s = takeTurn t { s with agenda := rest } := by
  simp [step, hs, ha]

theorem step_run {s : State} {u : UnitId} {rest : List Turn} (hs : s.halted = false) (ha : s.agenda = .run u :: rest) :
    step s = stepUnit u (turned s rest u) :=
  step_appointed hs ha

/-- A unit that finds an entry in its command queue is one of the four streams. -/
theorem stepUnit_of_streamHead {u : UnitId} {s : State} {c st : Nat} {e : Entry} (h : streamHead s u = some (c, st, e))
    (he : e.bad = false) : stepUnit u s = exec e.instr s := by
  have hstream : stepStream u s = exec e.instr s := by simp [stepStream, h, he]
  cases u with
  | vec | stroke | lgen | wgen => exact hstream
  | thread | seq | copyEng | indexEng | package => cases h

/-- A unit that finds a command at the head of its queue is an engine. -/
theorem stepUnit_of_engineHead {u : UnitId} {s : State} {cl : Nat} {c : Cmd} (h : engineHead s u = some (cl, c)) :
    stepUnit u s = exec c.instr s := by
  have hengine : stepEngine u s = exec c.instr s := by simp [stepEngine, h]
  cases u with
  | copyEng | indexEng => exact hengine
  | thread | seq | vec | stroke | lgen | wgen | package => cases h

/-- Only the release of its reset revives a halted package. -/
theorem revives_eq_false {t : Turn} (h : ∀ n, t ≠ .event (.resetRelease n)) : revives t = false := by
  unfold revives
  split
  · exact absurd rfl (h _)
  · rfl

theorem step_halted {s : State} (hs : s.halted = true) (h : ∀ n rest, s.agenda ≠ .event (.resetRelease n) :: rest) :
    step s = .fault .packageHalted := by
  have hr : s.agenda.head?.any revives = false := by
    cases ha : s.agenda with
    | nil => rfl
    | cons t rest => exact revives_eq_false fun n ht => h n rest (ht ▸ ha)
  simp [step, hs, hr]

theorem step_resetRelease {s : State} {n : Nat} {rest : List Turn} (ha : s.agenda = .event (.resetRelease n) :: rest) :
    step s = exec (.resetRelease n) (turned s rest .package) := by
  simp [step, ha, revives, takeTurn, turned]

end Sys2Proof.Machine

open Sys2Proof Sys2Proof.Machine

/-- Settles O57: the agenda's turn by its unit, and `exec_goes` for the two clauses that no instruction faults or is refused. -/
theorem stepRunsQueuedAndEvents : Obligations.StepRunsQueuedAndEvents := by
  unfold Obligations.StepRunsQueuedAndEvents
  refine ⟨?stream, ?engine, ?event, ?drawn, ?halted, ?reset, fun s i => (exec_goes i s).ne_fault,
    fun s i => (exec_goes i s).ne_refused⟩
  case stream =>
    intro s rest u c st e hs ha hh hb
    exact (step_run hs ha).trans (stepUnit_of_streamHead hh hb)
  case engine =>
    intro s rest u cl c hs ha hh
    exact (step_run hs ha).trans (stepUnit_of_engineHead hh)
  case event =>
    intro s rest i hs ha
    exact step_appointed hs ha
  case drawn =>
    intro s hs ha
    simp [step, hs, ha]
  case halted => exact fun s hs h => step_halted hs h
  case reset => exact fun s n rest ha => step_resetRelease ha
end

/-! ### RET (O11) -/

section
namespace Sys2Proof.Machine

/-- An instruction that stops at its own pointer before it changes anything raises its exception there. -/
theorem runScalar_raised {s : State} {w : Owner} {body : Owner → M Flow} {e : Exc} (hw : curOwner s = some w)
    (h : body w s = .error (.trap e) s) : runScalar body s = .next (raised s w e) :=
  runScalar_trap hw h

@[simp] theorem depthOfCall_ok (w : Owner) (s : State) : depthOfCall w s = .ok (s.scalar w).depth s := rfl

/-- An instruction whose guard is open reads its call depth and a ready register, and goes on with them. -/
theorem guarded_depth_readReg {s : State} {w : Owner} {o : RFmt} (hw : Guarded s w o.g o.ng) (hr : RegsReady s w [o.a])
    (k : BitVec 32 → Word → M Flow) :
    guarded w o.g o.ng (do let d ← depthOfCall w; let x ← readReg w o.a o.ta; k d x) s =
      k (s.scalar w).depth (regVal s w o.a) s := by
  rw [guarded_open hw.2, m_bind_ok (depthOfCall_ok w s), m_bind_ok (readReg_ok (hr o.a (by simp)) _)]

/-- RET at depth 0 ends a bound thread's access code. -/
theorem endAccess_bound {s : State} {t c : Nat} (h : (s.thread t).crew = some c) :
    endAccess t s = .ok .stay (s.setThread t { s.thread t with mode := .returned }) := by
  simp [endAccess, m_bind, h]

/-- RET at depth 0 frees a thread of no crew, with its pins (log 114). -/
theorem endAccess_unbound {s : State} {t : Nat} (h : (s.thread t).crew = none) :
    endAccess t s =
      .ok .stay ({ s with pins := s.pins.filter fun q => q.owner != PinOwner.thread t }.setThread t {}) := by
  simp [endAccess, m_bind, h, dropPins, bne]

end Sys2Proof.Machine

open Sys2Proof Sys2Proof.Machine

/-- Settles O11, by the depth, and at depth 0 by the owner and its crew. -/
theorem returnEndsOrGoesBack : Obligations.ReturnEndsOrGoesBack := by
  unfold Obligations.ReturnEndsOrGoesBack
  intro o s w _ hw hr p d
  refine ⟨fun hd hp => runScalar_goto hw.1 ?back, fun hd hp => runScalar_raised hw.1 ?bad,
    fun t c hd hwt hc => runScalar_stay hw.1 ?bound, fun t hd hwt hc => runScalar_stay hw.1 ?unbound,
    fun c hd hwc => runScalar_raised hw.1 ?sequencer⟩
  all_goals rw [guarded_depth_readReg hw hr]
  case back => rw [if_neg (by simpa using hd), if_neg (by simpa using hp)]; rfl
  case bad => rw [if_neg (by simpa using hd), if_pos (by simpa using hp)]; rfl
  case bound => rw [if_pos (by simpa using hd), hwt]; exact endAccess_bound hc
  case unbound => rw [if_pos (by simpa using hd), hwt]; exact endAccess_unbound hc
  case sequencer => rw [if_pos (by simpa using hd), hwc]; rfl
end

/-! ### Fetches and the turns of threads and sequencers (O56) -/

section
namespace Sys2Proof.Machine

@[simp] theorem pcOf_ok (o : Owner) (s : State) : pcOf o s = .ok (s.scalar o).pc s := rfl

/-! #### What a fetch gives -/

section
variable {o : Owner} {s s1 : State} {bs : List Byte}

theorem fetchAt_badPointer (h : ptrOk (s.scalar o).pc.toNat = false) :
    fetchAt o s = .error (.trap { cause := 15, info := (s.scalar o).pc }) s := by
  unfold fetchAt
  rw [m_bind_ok (pcOf_ok o s), if_pos (by simp [h])]
  rfl

theorem fetchAt_noLine {e : Stop} (h : ptrOk (s.scalar o).pc.toNat = true)
    (hl : fetchLine o (ptrLine (s.scalar o).pc.toNat) s = .error e s1) : fetchAt o s = .error e s1 := by
  unfold fetchAt
  rw [m_bind_ok (pcOf_ok o s), if_neg (by simp [h])]
  exact m_bind_err hl

theorem fetchAt_badLine (h : ptrOk (s.scalar o).pc.toNat = true)
    (hl : fetchLine o (ptrLine (s.scalar o).pc.toNat) s = .ok bs s1)
    (hw : (Line.ofBytes bs).wf (isCox o) (ptrLine (s.scalar o).pc.toNat) = false) :
    fetchAt o s = .error (.trap { cause := 16, info := BitVec.ofNat 64 (ptrLine (s.scalar o).pc.toNat) }) s1 := by
  unfold fetchAt
  rw [m_bind_ok (pcOf_ok o s), if_neg (by simp [h])]
  refine (m_bind_ok hl).trans ?_
  rw [if_pos (by simp [hw])]
  rfl

theorem fetchAt_moved (h : ptrOk (s.scalar o).pc.toNat = true)
    (hl : fetchLine o (ptrLine (s.scalar o).pc.toNat) s = .ok bs s1)
    (hw : (Line.ofBytes bs).wf (isCox o) (ptrLine (s.scalar o).pc.toNat) = true)
    (hf : (Line.ofBytes bs).first (ptrLane (s.scalar o).pc.toNat) = none) :
    fetchAt o s =
      .ok .moved (s1.setScalar o { s1.scalar o with pc := BitVec.ofNat 64 (ptrLine (s.scalar o).pc.toNat + 33) }) := by
  unfold fetchAt
  rw [m_bind_ok (pcOf_ok o s), if_neg (by simp [h])]
  refine (m_bind_ok hl).trans ?_
  rw [if_neg (by simp [hw]), hf]
  rfl

/-- The state in which the lane `k` of a line has been found. -/
def laneFound (o : Owner) (s1 : State) (l : Line) (va k : Nat) : State :=
  { s1.setScalar o { s1.scalar o with pc := BitVec.ofNat 64 (va + k) } with lane := l.sid k }

theorem fetchAt_run {k : Nat} {i : Instr} (h : ptrOk (s.scalar o).pc.toNat = true)
    (hl : fetchLine o (ptrLine (s.scalar o).pc.toNat) s = .ok bs s1)
    (hw : (Line.ofBytes bs).wf (isCox o) (ptrLine (s.scalar o).pc.toNat) = true)
    (hf : (Line.ofBytes bs).first (ptrLane (s.scalar o).pc.toNat) = some k)
    (hd : decodeLane ((Line.ofBytes bs).stream (isCox o) k) ((Line.ofBytes bs).word k) ((Line.ofBytes bs).word (k + 1)) =
      .ok i) :
    fetchAt o s = .ok (.run i) (laneFound o s1 (Line.ofBytes bs) (ptrLine (s.scalar o).pc.toNat) k) := by
  unfold fetchAt
  rw [m_bind_ok (pcOf_ok o s), if_neg (by simp [h])]
  refine (m_bind_ok hl).trans ?_
  rw [if_neg (by simp [hw]), hf]
  dsimp only
  rw [hd]
  rfl

theorem fetchAt_illegal {k : Nat} (h : ptrOk (s.scalar o).pc.toNat = true)
    (hl : fetchLine o (ptrLine (s.scalar o).pc.toNat) s = .ok bs s1)
    (hw : (Line.ofBytes bs).wf (isCox o) (ptrLine (s.scalar o).pc.toNat) = true)
    (hf : (Line.ofBytes bs).first (ptrLane (s.scalar o).pc.toNat) = some k)
    (hd : decodeLane ((Line.ofBytes bs).stream (isCox o) k) ((Line.ofBytes bs).word k) ((Line.ofBytes bs).word (k + 1)) =
      .error .illegal)
    (hst : (Line.ofBytes bs).stream (isCox o) k = .a ∨ (Line.ofBytes bs).stream (isCox o) k = .s) :
    fetchAt o s = .error (.trap { cause := 1 }) (laneFound o s1 (Line.ofBytes bs) (ptrLine (s.scalar o).pc.toNat) k) := by
  unfold fetchAt
  rw [m_bind_ok (pcOf_ok o s), if_neg (by simp [h])]
  refine (m_bind_ok hl).trans ?_
  rw [if_neg (by simp [hw]), hf]
  dsimp only
  rw [hd]
  rcases hst with hst | hst <;> rw [hst] <;> rfl

end

/-! #### What a thread takes before its next instruction -/

theorem dueNow_eq_none {t : Nat} {s : State} :
    dueNow t s = none ↔ (mayFetch s t = true → lossNow s t = none) ∧ deliveryDue s t = none := by
  unfold dueNow
  cases mayFetch s t <;> cases lossNow s t <;> simp

theorem dueNow_loss {t : Nat} {s : State} {pc : Word} (h : mayFetch s t = true) (hl : lossNow s t = some pc) :
    dueNow t s = some (takeLoss t pc s) := by
  simp [dueNow, h, hl]

theorem dueNow_delivery {t c : Nat} {s : State} (h : mayFetch s t = true → lossNow s t = none)
    (hd : deliveryDue s t = some c) : dueNow t s = some (deliver s c) := by
  have hnone : (if mayFetch s t then lossNow s t else none) = none := by simpa using h
  simp [dueNow, hnone, hd]

/-! #### The rotation of a core's threads -/

/-- The threads before one in its rotation are others of its core. -/
theorem before_others {s : State} {t u : Nat} (h : u ∈ before s t) : u / 8 = t / 8 ∧ u ≠ t := by
  have hne : u ≠ t := by simpa using List.mem_takeWhile_imp h
  obtain ⟨i, -, rfl⟩ := List.mem_map.1 ((List.takeWhile_prefix _).subset h)
  exact ⟨by omega, hne⟩

/-- Once a thread has issued, every other of its core comes before it. -/
theorem before_issued {s : State} {t u : Nat} (hc : u / 8 = t / 8) (hu : u ≠ t) : u ∈ before (issued t s) t := by
  have hturn : (issued t s).turns.getD (t / 8) 0 = t % 8 + 1 := by simp [issued]
  have hothers : ∀ x ∈ (List.range 7).map fun i => t / 8 * 8 + (t % 8 + 1 + i) % 8, (x != t) = true := by
    intro x hx
    obtain ⟨i, hi, rfl⟩ := List.mem_map.1 hx
    have hi : i < 7 := List.mem_range.1 hi
    simp only [bne_iff_ne, ne_eq]
    omega
  unfold before
  dsimp only
  rw [hturn, List.range_succ, List.map_append, List.takeWhile_append_of_pos hothers]
  refine List.mem_append_left _ (List.mem_map.2 ⟨(u % 8 + 7 - t % 8) % 8, List.mem_range.2 ?_, ?_⟩) <;> omega

/-! #### A thread's turn to issue -/

theorem stepThread_due {t : Nat} {s s' : State} (h : dueNow t s = some s') : stepThread t s = .next s' := by
  simp [stepThread, h]

theorem stepThread_idle {t : Nat} {s : State} (h : dueNow t s = none) (hm : mayFetch s t = false) :
    stepThread t s = .next s := by
  simp [stepThread, h, hm]

theorem stepThread_waits {t : Nat} {s : State} (h : dueNow t s = none) (hm : mayFetch s t = true)
    (hb : (before s t).any (acts s) = true) : stepThread t s = .next s := by
  simp only [stepThread, h, hm, issueTurn, hb, if_true]

theorem stepThread_tries {t : Nat} {s s' : State} (h : dueNow t s = none) (hm : mayFetch s t = true)
    (hb : (before s t).any (acts s) = false) (hout : (tryIssue t s).out = .next s') :
    stepThread t s = .next (if (tryIssue t s).issues then issued t s' else s') := by
  simp only [stepThread, h, hm, issueTurn, hb, if_true, hout, Bool.false_eq_true, if_false]

/-- A try that leaves `b` after a fetch that left `a`: it has issued unless the thread only stalled. -/
theorem stepThread_ran {t : Nat} {s a b : State} (h : dueNow t s = none) (hm : mayFetch s t = true)
    (hb : (before s t).any (acts s) = false)
    (htry : tryIssue t s = { acts := !stays t a b, issues := !stays t a b, out := .next b }) :
    stepThread t s = .next (if stays t a b = true then b else issued t b) := by
  rw [stepThread_tries h hm hb (by rw [htry]), htry]
  cases stays t a b <;> rfl

/-- The fetch of a thread's turn, made as a thread that is ready. -/
def turnFetch (t : Nat) (s : State) : EStateM.Result Stop State Fetched :=
  fetchAt (.thread t) (s.setThread t { s.thread t with mode := .ready })

theorem tryIssue_run {t : Nat} {s s' s'' : State} {i : Instr} (h : turnFetch t s = .ok (.run i) s')
    (he : exec i s' = .next s'') :
    tryIssue t s = { acts := !stays t s' s'', issues := !stays t s' s'', out := .next s'' } := by
  unfold turnFetch at h
  simp only [tryIssue, h, he]

theorem tryIssue_moved {t : Nat} {s s' : State} (h : turnFetch t s = .ok .moved s') :
    tryIssue t s = { acts := true, issues := false, out := .next s' } := by
  unfold turnFetch at h
  simp only [tryIssue, h]

theorem tryIssue_stop {t : Nat} {s s' : State} {e : Stop} (h : turnFetch t s = .error e s') :
    tryIssue t s = { acts := !stays t s' (fetchStop (.thread t) e s'), issues := !stays t s' (fetchStop (.thread t) e s')
                     out := .next (fetchStop (.thread t) e s') } := by
  unfold turnFetch at h
  simp only [tryIssue, h]

/-- An exception of a fetch is raised at the pointer, or where its cause is a page fault at the lane found there. -/
theorem fetchStop_trap (o : Owner) (e : Exc) (s : State) :
    fetchStop o (.trap e) s =
      runM (raiseAt o e (if e.cause = 5 then laneAfter o s else (s.scalar o).pc)
        (if e.cause = 5 then laneAfter o s else (s.scalar o).pc) false) s := rfl

/-- What a sequencer's turn makes of what its fetch gives. -/
def seqFetched (c : Nat) : EStateM.Result Stop State Fetched → Out
  | .ok (.run i) s => exec i s
  | .ok (.badLane st w) s => .next (handBad c st w s)
  | .ok .moved s => .next s
  | .error st s => .next (fetchStop (.crew c) st s)

theorem stepSeq_active {cl c : Nat} {s : State} (ha : s.activeCrew cl = some c) (hr : (s.crew c).stage = .resident)
    (hm : (s.crew c).smode = .running) : stepSeq cl s = seqFetched c (fetchAt (.crew c) s) := by
  simp only [stepSeq, ha, hr, hm, beq_self_eq_true, Bool.and_self, if_true]
  rfl

end Sys2Proof.Machine

open Sys2Proof Sys2Proof.Machine

/-- Settles O56, by what the fetch gives, what is due to the thread, and where it stands in its core's rotation. -/
theorem stepRunsFetched : Obligations.StepRunsFetched := by
  unfold Obligations.StepRunsFetched
  refine ⟨?fetch, ?thread, fun _ _ => dueNow_eq_none, fun _ _ _ => before_others, fun _ _ _ => before_issued, ?seq⟩
  case fetch =>
    intro o s s1 bs e pc va l
    refine ⟨fetchAt_badPointer, fetchAt_noLine, fun hp hl => ⟨fetchAt_badLine hp hl, fun hw => ⟨fetchAt_moved hp hl hw, ?_⟩⟩⟩
    exact fun k hk => ⟨fun i => fetchAt_run hp hl hw hk, fetchAt_illegal hp hl hw hk⟩
  case thread =>
    intro s rest t hs ha b
    have hstep : step s = stepThread t b := step_run hs ha
    rw [hstep]
    refine ⟨fun hm pc hl => stepThread_due (dueNow_loss hm hl), fun hl c hd => stepThread_due (dueNow_delivery hl hd),
      stepThread_idle, fun hd hm => ⟨stepThread_waits hd hm, fun hb => ⟨?_, ?_, ?_, ?_⟩⟩⟩
    · exact fun i s' s'' hf he => stepThread_ran hd hm hb (tryIssue_run hf he)
    · intro s' hf
      have htry := tryIssue_moved hf
      rw [stepThread_tries hd hm hb (by rw [htry]), htry]
      rfl
    · intro e s' hf
      have hran := stepThread_ran hd hm hb (tryIssue_stop hf)
      rwa [fetchStop_trap] at hran
    · exact fun va s' hf => stepThread_ran hd hm hb (tryIssue_stop hf)
  case seq =>
    intro s rest cl c hs ha b hact hr hm
    have hstep : step s = stepSeq cl b := step_run hs ha
    rw [hstep, stepSeq_active hact hr hm]
    refine ⟨fun i s' hf => ?run, fun s' hf => ?moved, fun e s' hf he => ?trap, fun va s' hf => ?lasting,
      fun w s' hf => ?badLane⟩ <;> rw [hf]
    case trap => simp only [seqFetched, fetchStop_trap, if_neg he]; rfl
    all_goals rfl
end

/-! ### Translations removed, and arrivals (O22) -/

section
namespace Sys2Proof.Tbl

/-- What a table gives at an index stands in one of its entries. -/
theorem mem_of_find? {α : Type} {t : Tbl α} {k : Nat} {v : α} (h : t.find? k = some v) : (k, v) ∈ t := by
  induction t with
  | nil => cases h
  | cons e t ih =>
    unfold find? at h
    split at h
    · next hk => cases h; exact hk ▸ List.mem_cons_self
    · exact List.mem_cons_of_mem _ (ih h)

theorem mem_of_mem_getD {α : Type} {t : Tbl (List α)} {k : Nat} {x : α} (h : x ∈ t.getD k []) : ∃ l, (k, l) ∈ t ∧ x ∈ l := by
  unfold getD at h
  cases hf : t.find? k with
  | none => simp [hf] at h
  | some l => exact ⟨l, mem_of_find? hf, by simpa [hf] using h⟩

end Sys2Proof.Tbl

namespace Sys2Proof.Machine

/-! #### TLBI -/

/-- At level 0 TLBI is refused before it does anything (R179). -/
theorem tlbi_unprivileged {o : RFmt} {s : State} {t : Nat} (hw : Guarded s (.thread t) o.g o.ng)
    (hr : RegsReady s (.thread t) [o.a, o.b]) (hl : (s.thread t).level = 0) :
    exec (.tlbi o) s = .next (raised s (.thread t) { cause := 2 }) := by
  refine runScalar_raised hw.1 ?_
  dsimp only
  rw [guarded_open hw.2, m_bind_ok (readReg_ok (hr o.a (by simp)) _), m_bind_ok (readReg_ok (hr o.b (by simp)) _),
    m_bind_ok (m_get s), if_pos (by simp [hl])]
  rfl

/-- What TLBI does once its level and operands allow it. -/
theorem tlbi_admitted {o : RFmt} {s : State} {t : Nat} (hw : Guarded s (.thread t) o.g o.ng)
    (hr : RegsReady s (.thread t) [o.a, o.b]) (hl : (s.thread t).level ≠ 0) (hy : (regVal s (.thread t) o.b).toNat < 2 ^ 17)
    (hx : o.fn = 0 ∨ regVal s (.thread t) o.a = 0) (hk : o.fn ≠ 2 ∨ (regVal s (.thread t) o.b).toNat % 2 ^ 16 = 0)
    {ctx : Nat}
    (hctx : (if (regVal s (.thread t) o.b).toNat % 2 ^ 16 = 0 then (s.thread t).ctx
      else (regVal s (.thread t) o.b).toNat % 2 ^ 16) = ctx)
    (hlive : (s.contexts.find? ctx).isSome = true) (hpart : (s.context ctx).part = (s.context (s.thread t).ctx).part)
    (hlevel : (s.thread t).level = 2 ∨ (o.fn ≠ 2 ∧ ctx = (s.thread t).ctx)) :
    let r := removeTranslations (release s (.thread t) 4) t o.fn ctx (regVal s (.thread t) o.a).toNat
      (bit (regVal s (.thread t) o.b).toNat 16)
    (r.2 = [] → exec (.tlbi o) s = .next (advance r.1 (.thread t) 1)) ∧
    (r.2 ≠ [] → exec (.tlbi o) s =
      .next (r.1.setThread t { r.1.thread t with mode := .tlbi r.2, reported := false })) := by
  intro r
  have hform : ¬((2 : Nat) ^ 17 ≤ (regVal s (.thread t) o.b).toNat ∨ (o.fn ≠ 0 ∧ regVal s (.thread t) o.a ≠ 0) ∨
      (o.fn = 2 ∧ (regVal s (.thread t) o.b).toNat % 2 ^ 16 ≠ 0)) := by
    rintro (h | ⟨h, h'⟩ | ⟨h, h'⟩)
    · omega
    · exact hx.elim h h'
    · exact hk.elim (· h) h'
  have hadmit : ¬((o.fn = 2 ∨ ctx ≠ (s.thread t).ctx) ∧ (s.thread t).level ≠ 2) := by
    rintro ⟨h, h2⟩
    obtain hl2 | ⟨hf, hc⟩ := hlevel
    · exact h2 hl2
    · exact h.elim hf (· hc)
  refine ⟨fun hn => runScalar_next hw.1 ?_, fun hn => runScalar_stay hw.1 ?_⟩
  all_goals
    dsimp only
    rw [guarded_open hw.2, m_bind_ok (readReg_ok (hr o.a (by simp)) _), m_bind_ok (readReg_ok (hr o.b (by simp)) _),
      m_bind_ok (m_get s), if_neg (by simpa using hl), if_neg hform, hctx, if_neg (by simp [Option.isSome_iff_ne_none.1 hlive, hpart]), if_neg hadmit]
    rw [m_bind_ok (m_upd _ s), m_bind_ok (m_get _)]
  · rw [if_pos (List.isEmpty_iff.2 hn)]
    rfl
  · rw [if_neg (by simpa using hn)]
    rfl

theorem tlbiWake_parked {s : State} {t : Nat} {wait : List Nat} (h : (s.thread t).mode = .tlbi wait) :
    ((∀ p ∈ s.pins, p.handle ∈ wait → p.revoked = true) →
      exec (.tlbiWake t) s = .next (advance (s.setThread t { s.thread t with mode := .ready }) (.thread t) 1)) ∧
    ((∃ p ∈ s.pins, p.handle ∈ wait ∧ p.revoked = false) → exec (.tlbiWake t) s = .next s) := by
  have hstands : (wait.any fun h => s.pins.any fun p => p.handle == h && !p.revoked) = true ↔
      ∃ p ∈ s.pins, p.handle ∈ wait ∧ p.revoked = false := by
    simp only [List.any_eq_true, Bool.and_eq_true, beq_iff_eq, Bool.not_eq_true']
    constructor
    · rintro ⟨n, hn, p, hp, rfl, hr⟩
      exact ⟨p, hp, hn, hr⟩
    · rintro ⟨p, hp, hn, hr⟩
      exact ⟨_, hn, p, hp, rfl, hr⟩
  simp only [exec, execTlbiWake, h]
  refine ⟨fun hall => ?_, fun hex => by rw [if_pos (hstands.2 hex)]⟩
  rw [if_neg]
  intro hs
  obtain ⟨p, hp, hn, hr⟩ := hstands.1 hs
  rw [hall p hp hn] at hr
  cases hr

/-! #### The TLBs after translations are removed -/

@[simp] theorem updAnyCmd_tlb (id : Nat) (f : Cmd → Cmd) (s : State) : (updAnyCmd id f s).tlb = s.tlb := rfl

theorem foldl_updAnyCmd_tlb (l : List Nat) (f : Cmd → Cmd) (s : State) :
    (l.foldl (fun s id => updAnyCmd id f s) s).tlb = s.tlb := by
  induction l generalizing s with
  | nil => rfl
  | cons id l ih => exact ih _

@[simp] theorem dropRevoked_tlb (s : State) : (dropRevoked s).tlb = s.tlb := foldl_updAnyCmd_tlb ..

@[simp] theorem markLogs_tlb (s : State) (hits : Nat → Leaf → Bool) : (markLogs s hits).tlb = s.tlb := rfl

/-- No TLB of the partition keeps a translation that TLBI names. -/
theorem removeTranslations_tlb {s : State} {t kind ctx x : Nat} {rev : Bool} {core : Nat} {e : TlbEntry}
    (hown : core / 4 ∈ (s.partition (s.context (s.thread t).ctx).part).units) (hctx : e.ctx = ctx)
    (hx : e.leaf.holds x = true) (hk : kind < 2) : e ∉ (removeTranslations s t kind ctx x rev).1.tlb.getD core [] := by
  have hhits : tlbiHits s kind ctx (s.context (s.thread t).ctx).part x e.ctx e.leaf = true := by
    rw [tlbiHits, if_neg (by omega)]
    simp [hctx, hx]
  simp only [removeTranslations, dropRevoked_tlb, markLogs_tlb]
  intro he
  obtain ⟨l, hl, he⟩ := Tbl.mem_of_mem_getD he
  obtain ⟨y, -, hy⟩ := List.mem_map.1 (List.mem_filter.1 hl).1
  obtain ⟨rfl, rfl⟩ := Prod.mk.inj hy
  rw [if_pos (List.contains_iff_mem.2 hown)] at he
  simpa [hhits] using (List.mem_filter.1 he).2

/-! #### Arrivals -/

theorem loadDataArrival_fills {s : State} {w : Owner} {r : Nat} {v : Word} (ha : ownerAway s w = false)
    (hp : (s.scalar w).pend.find? r = some (.value v) ∨ ∃ l, (s.scalar w).pend.find? r = some (.load l) ∧ l.v = v) :
    exec (.loadDataArrival w r) s = .next (s.setScalar w ((s.scalar w).write r v)) := by
  simp only [exec, execLoadDataArrival, arriveValue, ha]
  obtain hp | ⟨l, hp, rfl⟩ := hp <;> simp [hp]

theorem pinHandleArrival_fills {s : State} {t r : Nat} {h : Word} (ha : ownerAway s (.thread t) = false)
    (hp : (s.thread t).sc.pend.find? r = some (.pin h)) :
    exec (.pinHandleArrival t r) s = .next (s.setScalar (.thread t) ((s.thread t).sc.write r h)) := by
  have hp' : (s.scalar (.thread t)).pend.find? r = some (.pin h) := hp
  simp only [exec, execPinHandleArrival, arrivePin, ha, hp']
  rfl

/-! #### Threshold registers -/

theorem maxMerge_frame (k : Crew) (h v : Nat) : maxMerge k h v = { k with h := (maxMerge k h v).h } := by
  unfold maxMerge
  dsimp only
  repeat' split
  all_goals rfl

theorem maxMerge_thr_other (k : Crew) {h j : Nat} (v : Nat) (hj : j ≠ h) : (maxMerge k h v).thr j = k.thr j := by
  unfold maxMerge
  dsimp only
  repeat' split
  all_goals simp [Crew.thr, Tbl.getD_put_other _ _ _ hj]

theorem maxMerge_thr_nan (k : Crew) (h : Nat) {v : BitVec 32} (hv : FFmt.f32.isNaN v.toNat = true) :
    (maxMerge k h v.toNat).thr h = k.thr h := by
  simp [maxMerge, Nat.mod_eq_of_lt v.isLt, hv]

theorem maxMerge_thr (k : Crew) (h : Nat) {v : BitVec 32} (hv : FFmt.f32.isNaN v.toNat = false) :
    (maxMerge k h v.toNat).thr h =
      if (FFmt.f32.decode (k.thr h)).ltZ (FFmt.f32.decode v.toNat) then v.toNat else k.thr h := by
  simp only [maxMerge, Nat.mod_eq_of_lt v.isLt, hv, Bool.false_eq_true, if_false]
  split
  · simp [Crew.thr]
  · rfl

/-! #### A parked wait that wakes -/

theorem runM_ok {m : M Unit} {s s' : State} (h : m s = .ok () s') : runM m s = s' := by
  simp only [runM, h]

theorem runM_error {m : M Unit} {s s' : State} {e : Stop} (h : m s = .error e s') : runM m s = s := by
  simp only [runM, h]

/-- An owner whose wait is over: it acquires and goes on, and a crew's cluster turns to a crew with work (R25, R121). -/
def woken (s : State) (scope : Nat) : Owner → State
  | .thread t => advance (unpark (.thread t) (acquire s (.thread t) scope)) (.thread t) 1
  | .crew c =>
    let u := advance (unpark (.crew c) (acquire s (.half c) scope)) (.crew c) 1
    rouse u (u.crew c).cl

/-- A parked wait reads its counter where it stands, and is over once the value has been reached. -/
theorem waitcWake_reads {s s1 : State} {w : Owner} {pa at_ v scope va : Nat} {bs : List Byte}
    (hp : parkedAt s w = some (pa, v, scope, va)) (ha : waitedAt s w pa va = .ok at_)
    (hr : readPort at_ 8 s = .ok (some bs) s1) :
    exec (.waitcWake w) s = .next (if v ≤ leNat bs then woken s1 scope w else s1) := by
  refine congrArg _ (runM_ok ?_)
  unfold wake
  rw [m_bind_ok (m_get s), hp]
  dsimp only
  rw [ha]
  refine (m_bind_ok hr).trans ?_
  dsimp only
  split
  · cases w <;> rfl
  · rfl

end Sys2Proof.Machine

open Sys2Proof Sys2Proof.Machine

/-- Settles O22, by what passes the checks of TLBI, and for each arrival by what the register or the wait holds. -/
theorem translationsAndArrivals : Obligations.TranslationsAndArrivals := by
  unfold Obligations.TranslationsAndArrivals
  refine ⟨⟨?tlbi, fun s t wait => tlbiWake_parked, fun s t kind ctx x rev core e => removeTranslations_tlb⟩,
    ?load, ?pin, ?threshold, ?wait⟩
  case tlbi =>
    intro o s t _ hw hr x y th ctx s1 r
    exact ⟨tlbi_unprivileged hw hr, fun hl hy hx hk hlive hpart hlevel =>
      tlbi_admitted hw hr hl hy hx hk rfl hlive hpart hlevel⟩
  case load =>
    intro s w r v hr ha hp
    exact ⟨loadDataArrival_fills ha hp, write_isFull _ v hr, write_reg _ r v⟩
  case pin =>
    intro s t r h hr ha hp
    exact ⟨pinHandleArrival_fills ha hp, write_isFull _ h hr, write_reg _ r h⟩
  case threshold =>
    intro s c h v hf
    refine ⟨s.setCrew c (maxMerge { s.crew c with hrds := (s.crew c).hrds.erase (h, some v) } h v.toNat), ?_, ?_, ?_⟩
    · simp only [exec, execHrdMerge, hf]
    · rw [State.crew_setCrew, maxMerge_frame]
    · rw [State.crew_setCrew]
      exact ⟨fun k hk => maxMerge_thr_other _ _ hk, maxMerge_thr_nan _ h, maxMerge_thr _ h⟩
  case wait =>
    intro s s1 w pa at_ v scope va bs hp ha hr
    rw [waitcWake_reads hp ha hr]
    refine ⟨fun hv => by rw [if_neg (by omega)], fun hv t hw => ?_, fun hv c hw => ?_⟩
    all_goals
      rw [if_pos hv, hw]
      rfl
end

/-! ### The streams: handover and dependence tokens (O37) -/

section
namespace Sys2Proof.Machine

/-! #### The queues of a crew's streams -/

@[simp] theorem streamQueue_setStreamQueue (k : Crew) (st : Nat) (l : List Entry) :
    streamQueue (setStreamQueue k st l) st = l := by
  match st with
  | 0 | 1 | 2 | 3 | 4 | _ + 5 => rfl

@[simp] theorem setStreamQueue_tokens (k : Crew) (st : Nat) (l : List Entry) : (setStreamQueue k st l).tokens = k.tokens := by
  unfold setStreamQueue
  split <;> rfl

/-! #### Handover (R20, R171) -/

theorem roomFor_ok {c st : Nat} {s : State} (h : (streamQueue (s.crew c) st).length < 16) : roomFor c st s = .ok () s := by
  unfold roomFor
  rw [m_bind_ok (m_get s), if_neg (by omega)]
  rfl

theorem roomFor_full {c st : Nat} {s : State} (h : 16 ≤ (streamQueue (s.crew c) st).length) :
    roomFor c st s = .error .stall s := by
  unfold roomFor
  rw [m_bind_ok (m_get s), if_pos h]
  rfl

theorem handOver_ok (c st : Nat) (e : Entry) (s : State) : handOver c st e s = .ok () (handed s c st e) := rfl

/-- A sequencer at work is that of a cluster whose active crew it is. -/
theorem curOwner_crew {s : State} {c : Nat} (h : curOwner s = some (.crew c)) :
    ∃ cl, s.cur = .seq cl ∧ s.activeCrew cl = some c := by
  unfold curOwner at h
  split at h
  · cases h
  · next cl hcur =>
    cases ha : s.activeCrew cl with
    | none => simp [ha] at h
    | some k =>
      simp only [ha, Option.map_some, Option.some.injEq, Owner.crew.injEq] at h
      exact ⟨cl, hcur, h ▸ ha⟩
  · cases h

section
variable {st lanes tok : Nat} {hand : Nat → M Entry} {mmask : State → BitVec 16} {body : Nat → Entry → M Bool}
  {s s' : State} {c : Nat} {e : Entry}

theorem runLane_hands (h : Hands st s c) (he : hand c s = .ok e s') :
    runLane st lanes tok hand mmask body s = .next (advance (handed s' c st e) (.crew c) lanes) := by
  obtain ⟨cl, hcur, hact⟩ := curOwner_crew h.cur
  unfold runLane
  rw [hcur]
  dsimp only
  rw [hact]
  refine congrArg _ (scalarStep_next ?_)
  rw [m_bind_ok (roomFor_ok h.room), m_bind_ok he, m_bind_ok (handOver_ok c st e s')]
  rfl

/-- A lane that cannot be handed over holds the sequencer at it, with nothing changed. -/
theorem runLane_stalls (hcur : curOwner s = some (.crew c)) (h : (do roomFor c st; hand c : M Entry) s = .error .stall s') :
    runLane st lanes tok hand mmask body s = .next s := by
  obtain ⟨cl, hcur, hact⟩ := curOwner_crew hcur
  unfold runLane
  rw [hcur]
  dsimp only
  rw [hact]
  refine congrArg _ (scalarStep_stall (s' := s') ?_)
  rw [← bind_assoc]
  exact m_bind_err h

/-- A stream whose entry stands at its place runs it. -/
theorem runLane_atHead (h : streamHead s s.cur = some (c, st, e)) :
    runLane st lanes tok hand mmask body s = .next (runEntry c st tok e mmask (body c e) s) := by
  unfold runLane
  split
  · next hcur => rw [hcur] at h; cases h
  · rw [h]
    simp

end

section
variable {tok : Nat} {i : Instr} {hand : Nat → Entry → M Entry} {body : Nat → Entry → M Bool}
  {s s' : State} {c : Nat} {e : Entry}

theorem runStroke_hands (h : Hands 3 s c) (he : hand c { name := 0, instr := i, pc := 0 } s = .ok e s') :
    runStroke tok i hand body s = .next (advance (handed s' c 3 e) (.crew c) 1) := by
  obtain ⟨cl, hcur, hact⟩ := curOwner_crew h.cur
  unfold runStroke
  rw [hcur]
  dsimp only
  rw [hact]
  refine congrArg _ (scalarStep_next ?_)
  rw [m_bind_ok (roomFor_ok h.room), m_bind_ok he, m_bind_ok (handOver_ok c 3 e s')]
  rfl

theorem runStroke_stalls (hcur : curOwner s = some (.crew c))
    (h : (do roomFor c 3; hand c { name := 0, instr := i, pc := 0 } : M Entry) s = .error .stall s') :
    runStroke tok i hand body s = .next s := by
  obtain ⟨cl, hcur, hact⟩ := curOwner_crew hcur
  unfold runStroke
  rw [hcur]
  dsimp only
  rw [hact]
  refine congrArg _ (scalarStep_stall (s' := s') ?_)
  rw [← bind_assoc]
  exact m_bind_err h

theorem runStroke_atHead (h : streamHead s s.cur = some (c, 3, e)) :
    runStroke tok i hand body s = .next (strokeTurn c tok e body s) := by
  unfold runStroke
  split
  · next hcur => rw [hcur] at h; cases h
  · simp only [h]

end

/-! #### Pushing tokens (R146, R147) -/

@[simp] theorem tokenCount_addToken (k : Crew) (f : Nat) : tokenCount (addToken k f) f = tokenCount k f + 1 := by
  simp [tokenCount, addToken]

@[simp] theorem tokenCount_takeToken (k : Crew) (f : Nat) : tokenCount (takeToken k f) f = tokenCount k f - 1 := by
  simp [tokenCount, takeToken]

theorem tokenCount_addToken_other (k : Crew) {f g : Nat} (h : g ≠ f) : tokenCount (addToken k f) g = tokenCount k g := by
  simp [tokenCount, addToken, Tbl.getD_put_other _ _ _ h]

@[simp] theorem streamQueue_addToken (k : Crew) (f st : Nat) : streamQueue (addToken k f) st = streamQueue k st := rfl

@[simp] theorem streamQueue_addTokens (k : Crew) (l : List Nat) (st : Nat) :
    streamQueue (l.foldl addToken k) st = streamQueue k st := by
  induction l generalizing k with
  | nil => rfl
  | cons f l ih => rw [List.foldl_cons, ih, streamQueue_addToken]

theorem tokenCount_addTokens (k : Crew) {l : List Nat} (hl : l.Nodup) (g : Nat) :
    tokenCount (l.foldl addToken k) g = tokenCount k g + if g ∈ l then 1 else 0 := by
  induction l generalizing k with
  | nil => simp
  | cons f l ih =>
    obtain ⟨hf, hl⟩ := List.nodup_cons.1 hl
    rw [List.foldl_cons, ih _ hl]
    by_cases hg : g = f
    · subst hg
      simp [hf]
    · simp [hg, tokenCount_addToken_other k hg]

/-- Tokens are pushed as long as each FIFO has room; the first that has none ends the pushing. -/
theorem pushTokens_room (k : Crew) {pre rest : List Nat} (hn : (pre ++ rest).Nodup) (hpre : ∀ f ∈ pre, tokenCount k f < 8)
    (hrest : ∀ f ∈ rest.head?, 8 ≤ tokenCount k f) :
    pushTokens k (pre ++ rest) = (pre.foldl addToken k, pre.length) := by
  induction pre generalizing k with
  | nil =>
    cases rest with
    | nil => rfl
    | cons f rest => exact if_pos (hrest f rfl)
  | cons f pre ih =>
    obtain ⟨hf, hn⟩ := List.nodup_cons.1 hn
    have hother {g : Nat} (hg : g ∈ pre ++ rest) : tokenCount (addToken k f) g = tokenCount k g :=
      tokenCount_addToken_other k fun h => hf (h ▸ hg)
    have ih := ih (addToken k f) hn
      (fun g hg => by rw [hother (List.mem_append_left _ hg)]; exact hpre g (List.mem_cons_of_mem _ hg))
      (fun g hg => by rw [hother (List.mem_append_right _ (List.mem_of_mem_head? hg))]; exact hrest g hg)
    have hroom : ¬8 ≤ tokenCount k f := Nat.not_le.2 (hpre f List.mem_cons_self)
    simp only [List.cons_append, pushTokens, if_neg hroom, ih, List.foldl_cons, List.length_cons]

/-- The same where some FIFOs are owed tokens by others: the pushing also ends at the first of those. -/
theorem pushTokens_owed (k : Crew) {due pre rest owed : List Nat} (hd : due = pre ++ rest) (hn : due.Nodup)
    (hpre : ∀ f ∈ pre, tokenCount k f < 8 ∧ f ∉ owed)
    (hrest : ∀ f ∈ rest.head?, ¬(tokenCount k f < 8 ∧ f ∉ owed)) :
    pushTokens k (due.takeWhile fun f => !owed.contains f) = (pre.foldl addToken k, pre.length) := by
  subst hd
  rw [List.takeWhile_append_of_pos fun f hf => by simpa using (hpre f hf).2]
  refine pushTokens_room k ?_ (fun f hf => (hpre f hf).1) ?_
  · exact hn.sublist (List.Sublist.append_left (List.takeWhile_sublist _) _)
  · cases rest with
    | nil => simp
    | cons f rest =>
      intro g hg
      rw [List.takeWhile_cons] at hg
      split at hg
      · next hf =>
        obtain rfl : f = g := by simpa using hg
        have hfree : f ∉ owed := by simpa using hf
        exact Nat.not_lt.1 fun h => hrest f rfl ⟨h, hfree⟩
      · simp at hg

/-! #### The end of an instruction -/

theorem applyCtl_streams (k : Crew) (reg : Nat) (v : Word) (st : Nat) :
    streamQueue (applyCtl k reg v) st = streamQueue k st ∧ (applyCtl k reg v).tokens = k.tokens := by
  unfold applyCtl
  split <;> exact ⟨rfl, rfl⟩

theorem applyCtls_streams (k : Crew) (l : List (Nat × Nat × Word)) (st : Nat) :
    streamQueue (l.foldl (fun k w => applyCtl k w.2.1 w.2.2) k) st = streamQueue k st ∧
      (l.foldl (fun k w => applyCtl k w.2.1 w.2.2) k).tokens = k.tokens := by
  induction l generalizing k with
  | nil => exact ⟨rfl, rfl⟩
  | cons w l ih =>
    obtain ⟨hq, ht⟩ := ih (applyCtl k w.2.1 w.2.2)
    obtain ⟨hq', ht'⟩ := applyCtl_streams k w.2.1 w.2.2 st
    exact ⟨hq.trans hq', ht.trans ht'⟩

theorem settleCtl_streams (k : Crew) (name st : Nat) :
    streamQueue (settleCtl k name) st = streamQueue k st ∧ (settleCtl k name).tokens = k.tokens :=
  applyCtls_streams k _ st

theorem retire_streams (c st name : Nat) (s : State) :
    streamQueue ((retire c st name s).crew c) st = (streamQueue (s.crew c) st).filter (fun x => x.name != name) ∧
    ((retire c st name s).crew c).tokens = (s.crew c).tokens := by
  obtain ⟨hq, ht⟩ := settleCtl_streams
    (setStreamQueue (s.crew c) st ((streamQueue (s.crew c) st).filter fun e => e.name != name)) name st
  rw [streamQueue_setStreamQueue] at hq
  rw [setStreamQueue_tokens] at ht
  unfold retire
  dsimp only
  rw [State.crew_setCrew]
  exact ⟨hq, ht⟩

section
variable {c st tok : Nat} {e : Entry} {s : State} {owed : List Nat}

/-- With room in every FIFO it has still to push, a finished instruction leaves its queue. -/
theorem finishEntry_leaves (hn : ((tokenFifos st tok).2.drop e.pushed).Nodup)
    (hfree : ∀ f ∈ (tokenFifos st tok).2.drop e.pushed, tokenCount (s.crew c) f < 8 ∧ f ∉ owed) :
    let t := finishEntry c st tok e s owed
    streamQueue (t.crew c) st = (streamQueue (s.crew c) st).filter (fun x => x.name != e.name) ∧
    ∀ f, tokenCount (t.crew c) f = tokenCount (s.crew c) f + if f ∈ (tokenFifos st tok).2.drop e.pushed then 1 else 0 := by
  intro t
  have hpush := pushTokens_owed (s.crew c) (List.append_nil _).symm hn hfree (by simp)
  have ht : t = retire c st e.name (s.setCrew c (((tokenFifos st tok).2.drop e.pushed).foldl addToken (s.crew c))) := by
    simp only [t, finishEntry, hpush, lt_irrefl, if_false]
  obtain ⟨hq, htok⟩ := retire_streams c st e.name
    (s.setCrew c (((tokenFifos st tok).2.drop e.pushed).foldl addToken (s.crew c)))
  rw [State.crew_setCrew] at hq htok
  rw [ht]
  refine ⟨by rw [hq, streamQueue_addTokens], fun f => ?_⟩
  rw [← tokenCount_addTokens _ hn]
  unfold tokenCount
  rw [htok]

/-- Where a FIFO has no room, a finished instruction has pushed its tokens up to it, and stays. -/
theorem finishEntry_stays {pre post : List Nat} {f : Nat} (hn : ((tokenFifos st tok).2.drop e.pushed).Nodup)
    (hfin : e.finished = true) (hd : (tokenFifos st tok).2.drop e.pushed = pre ++ f :: post)
    (hpre : ∀ g ∈ pre, tokenCount (s.crew c) g < 8 ∧ g ∉ owed) (hf : ¬(tokenCount (s.crew c) f < 8 ∧ f ∉ owed)) :
    let t := finishEntry c st tok e s owed
    (∀ g, tokenCount (t.crew c) g = tokenCount (s.crew c) g + if g ∈ pre then 1 else 0) ∧
    (streamQueue (t.crew c) st).map (·.name) = (streamQueue (s.crew c) st).map (·.name) ∧
    ∀ x ∈ streamQueue (t.crew c) st, x.name = e.name → x.finished = true ∧ x.pushed = e.pushed + pre.length := by
  intro t
  have hpush := pushTokens_owed (s.crew c) hd hn hpre (by simpa using hf)
  have hlt : pre.length < ((tokenFifos st tok).2.drop e.pushed).length := by simp [hd]
  have hpn : pre.Nodup := (hd ▸ hn).sublist (List.sublist_append_left ..)
  have ht : t.crew c = setStreamQueue (pre.foldl addToken (s.crew c)) st ((streamQueue (s.crew c) st).map fun x =>
      if x.name == e.name then { x with finished := true, pushed := e.pushed + pre.length
                                        done := if x.finished then x.done else s.nextId } else x) := by
    simp only [t, finishEntry, hpush, hlt, hfin, if_true, updEntry, State.crew_setCrew, streamQueue_addTokens,
      State.setCrew_nextId]
  rw [ht, streamQueue_setStreamQueue]
  refine ⟨fun g => ?_, ?_, fun x hx hname => ?_⟩
  · rw [← tokenCount_addTokens _ hpn]
    unfold tokenCount
    rw [setStreamQueue_tokens]
  · rw [List.map_map]
    refine List.map_congr_left fun x _ => ?_
    simp only [Function.comp_apply]
    split <;> rfl
  · obtain ⟨y, -, rfl⟩ := List.mem_map.1 hx
    by_cases hy : y.name = e.name
    · simp [hy]
    · simp [hy] at hname

end

/-! #### The families of stream instructions -/

/-- A lane of V, L or W: it is handed over or performed as `runLane` says. -/
def IsLane (st tok : Nat) (i : Instr) (s : State) : Prop :=
  ∃ lanes hand mmask body, exec i s = runLane st lanes tok hand mmask body s

/-- A lane of M: it is handed over or performed as `runStroke` says. -/
def IsStroke (tok : Nat) (i : Instr) : Prop := ∃ hand body, ∀ s, exec i s = runStroke tok i hand body s

theorem plainV_runs : ∀ mk ∈ plainV, ∀ o, ∃ body, ∀ s, exec (mk o) s = runV o (mk o) {} body s := by
  intro mk hm o
  fin_cases hm <;> exact ⟨_, fun _ => rfl⟩

theorem everyV_isLane : ∀ mk ∈ everyV, ∀ o s, IsLane 2 o.tok (mk o) s := by
  intro mk hm o s
  obtain hm | hm := List.mem_append.1 hm
  · obtain ⟨body, h⟩ := plainV_runs mk hm o
    exact ⟨_, _, _, _, h s⟩
  · fin_cases hm <;> exact ⟨_, _, _, _, rfl⟩

theorem plainM_runs : ∀ mk ∈ plainM, ∀ o, ∃ body, ∀ s, exec (mk o) s = runStroke o.tok (mk o) plainHand body s := by
  intro mk hm o
  fin_cases hm <;> exact ⟨_, fun _ => rfl⟩

theorem everyM_isStroke : ∀ mk ∈ everyM, ∀ o, IsStroke o.tok (mk o) := by
  intro mk hm o
  obtain hm | hm := List.mem_append.1 hm
  · obtain ⟨body, h⟩ := plainM_runs mk hm o
    exact ⟨_, body, h⟩
  · fin_cases hm <;> exact ⟨_, _, fun _ => by dsimp only [exec, execMver, execMdrain, execMdrainv]⟩

theorem plainLW_runs : ∀ mk ∈ plainLW, ∀ o, ∃ body, ∀ s, exec (mk o) s = runAg o (mk o) false body s := by
  intro mk hm o
  fin_cases hm <;> exact ⟨_, fun _ => by dsimp only [exec, execAgrun, execAgidx, execAgtake, execAgmark]⟩

theorem readingLW_runs : ∀ mk ∈ readingLW, ∀ o, ∃ body, ∀ s, exec (mk o) s = runAg o (mk o) true body s := by
  intro mk hm o
  fin_cases hm <;> exact ⟨_, fun _ => by dsimp only [exec, execAgdef, execAgput, execAgbank]⟩

theorem everyLW_isLane : ∀ mk ∈ plainLW ++ readingLW, ∀ o s, IsLane (laneStream s) o.tok (mk o) s := by
  intro mk hm o s
  obtain hm | hm := List.mem_append.1 hm
  · obtain ⟨body, h⟩ := plainLW_runs mk hm o
    exact ⟨_, _, _, _, h s⟩
  · obtain ⟨body, h⟩ := readingLW_runs mk hm o
    exact ⟨_, _, _, _, h s⟩

/-- A stream unit that finds an entry runs its own stream. -/
theorem streamOf_of_streamHead {s : State} {u : UnitId} {c st : Nat} {e : Entry} (h : streamHead s u = some (c, st, e)) :
    ∃ cl pos, streamOf u = some (cl, st, pos) := by
  unfold streamHead at h
  split at h
  · cases h
  · next cl st' pos hu =>
    refine ⟨cl, pos, hu.trans ?_⟩
    dsimp only at h
    repeat' split at h
    all_goals cases h
    rfl

/-- The unit of an entry of L or W performs it in its own stream. -/
theorem laneStream_of_streamHead {s : State} {c st : Nat} {e : Entry} (h : streamHead s s.cur = some (c, st, e))
    (hst : st = 4 ∨ st = 5) : laneStream s = st := by
  obtain ⟨cl, pos, hu⟩ := streamOf_of_streamHead h
  unfold laneStream
  generalize s.cur = u at hu ⊢
  cases u with
  | lgen | wgen => cases hu; rfl
  | vec | stroke => cases hu; omega
  | thread | seq | copyEng | indexEng | package => cases hu

/-! #### What tokens make an instruction wait for -/

theorem tokenFifos_nodup : ∀ st < 6, ∀ tok < 16, 2 ≤ st →
    (tokenFifos st tok).1.Nodup ∧ (tokenFifos st tok).2.Nodup ∧ ∀ f ∈ (tokenFifos st tok).1, f ∉ (tokenFifos st tok).2 := by
  decide

theorem pushes_nodup (st tok : Nat) : (tokenFifos st tok).2.Nodup := by
  have hfour (l : List Nat) (hl : l ∈ [[1, 3, 0, 2], [5, 7, 4, 6], [0, 4, 1, 5], [2, 6, 3, 7]]) (x y : Bool) :
      ((if x then [l.getD 2 0] else []) ++ (if y then [l.getD 3 0] else [])).Nodup := by
    fin_cases hl <;> cases x <;> cases y <;> decide
  unfold tokenFifos
  dsimp only
  apply hfour
  split <;> simp

theorem isLane_waits {st tok : Nat} {i : Instr}
    (hi : ∀ s c e, streamHead s s.cur = some (c, st, e) → IsLane st tok i s) : WaitsForTokens st tok i := by
  rintro s c e hh - hfin hpop ⟨f, hf, h0⟩
  obtain ⟨lanes, hand, mmask, body, hrun⟩ := hi s c e hh
  have hempty : ((tokenFifos st tok).1.any fun f => tokenCount (s.crew c) f == 0) = true :=
    List.any_eq_true.2 ⟨f, hf, by simp [h0]⟩
  rw [hrun, runLane_atHead hh]
  simp only [runEntry, hfin, hpop, hempty, Bool.false_eq_true, if_false, if_true]

theorem isLane_pushes {st tok : Nat} {i : Instr}
    (hi : ∀ s c e, streamHead s s.cur = some (c, st, e) → IsLane st tok i s) :
    PushesTokens st tok i fun _ _ => [] := by
  intro s c e hh _ hfin k due free
  obtain ⟨lanes, hand, mmask, body, hrun⟩ := hi s c e hh
  have hn : due.Nodup := (pushes_nodup st tok).sublist (List.drop_sublist _ _)
  have hend : exec i s = .next (finishEntry c st tok e s []) := by
    rw [hrun, runLane_atHead hh]
    simp only [runEntry, hfin, if_true]
  exact ⟨fun hfree => ⟨_, hend, finishEntry_leaves hn hfree⟩,
    fun pre f post hd hpre hf => ⟨_, hend, finishEntry_stays hn hfin hd hpre hf⟩⟩

theorem isStroke_waits {tok : Nat} {i : Instr} (hi : IsStroke tok i) : WaitsForTokens 3 tok i := by
  rintro s c e hh hexc hfin hpop ⟨f, hf, h0⟩
  obtain ⟨hand, body, hrun⟩ := hi
  have hempty : ((tokenFifos 3 tok).1.any fun f => tokenCount (s.crew c) f == 0) = true :=
    List.any_eq_true.2 ⟨f, hf, by simp [h0]⟩
  rw [hrun, runStroke_atHead hh]
  simp only [strokeTurn, hexc rfl, hfin, hpop, hempty, Bool.false_eq_true, if_false, if_true, ite_self]

theorem isStroke_pushes {tok : Nat} {i : Instr} (hi : IsStroke tok i) : PushesTokens 3 tok i owed := by
  intro s c e hh hexc hfin k due free
  obtain ⟨hand, body, hrun⟩ := hi
  have hn : due.Nodup := (pushes_nodup 3 tok).sublist (List.drop_sublist _ _)
  have hend : exec i s = .next (finishEntry c 3 tok e s (owed (s.crew c) e)) := by
    rw [hrun, runStroke_atHead hh]
    simp only [strokeTurn, hexc rfl, hfin, if_true]
  exact ⟨fun hfree => ⟨_, hend, finishEntry_leaves hn hfree⟩,
    fun pre f post hd hpre hf => ⟨_, hend, finishEntry_stays hn hfin hd hpre hf⟩⟩

theorem mem_owed {k : Crew} {e : Entry} {f : Nat} : f ∈ owed k e ↔ ∃ j ∈ k.mq, j.finished = true ∧ j.name ≠ e.name ∧
    (e.finished = true → j.done < e.done) ∧ f ∈ (tokenFifos 3 (strokeTok j.instr)).2.drop j.pushed := by
  simp only [owed, List.mem_flatMap, List.mem_filter, Bool.and_eq_true, bne_iff_ne, Bool.or_eq_true, Bool.not_eq_true',
    decide_eq_true_eq]
  refine exists_congr fun j => ?_
  have : (e.finished = false ∨ j.done < e.done) ↔ (e.finished = true → j.done < e.done) := by
    cases e.finished <;> simp
  rw [this]
  tauto

/-! #### What each family reads at its handover -/

/-- The entry of a V lane once the register of its index override has been read. -/
def handWith (o : VFmt) (i : Instr) (n : VNeeds) (c : Nat) (idx : Word) : M Entry := do
  let w := Owner.crew c
  let val ← if n.scal then readReg w o.a 0 else pure 0
  if n.thr then hrdSettled c (o.b / 128)
  if n.get then
    destReady w o.d
    let s ← get
    awaitReg w o.d (.vget ((s.scalar w).reg o.d))
  let s ← get
  let e : Entry := { name := 0, instr := i, pc := (s.crew c).sc.pc, sval := val, sidx := idx.toNat % 32 }
  if n.nf then readVnf c e else return e

/-- The index override of a V lane is read at its handover (R170). -/
theorem handV_override {o : VFmt} {i : Instr} {n : VNeeds} {s : State} {c : Nat}
    (h : RegsReady s (.crew c) (overrideRegs o)) :
    ∃ x : Word, handV o i n c s = handWith o i n c x s ∧ x.toNat % 32 = overrideOf s c o := by
  unfold handV overrideOf
  by_cases ho : o.c / 256 = 0
  · exact ⟨0, by rw [if_pos ho]; rfl, by rw [if_pos ho]; rfl⟩
  · have hr : regReady s (.crew c) (o.c % 32) = true := h _ (by simp [overrideRegs, ho])
    exact ⟨_, by rw [if_neg ho]; exact m_bind_ok (readReg_ok hr 0), by rw [if_neg ho]⟩

/-- A lane whose c field is an immediate has no index override. -/
theorem handV_immediate {o : VFmt} {i : Instr} {n : VNeeds} {s : State} {c : Nat} (h : o.c / 256 = 0) :
    handV o i n c s = handWith o i n c 0 s := by
  unfold handV
  rw [if_pos h]
  rfl

theorem hrdSettled_ok {c h : Nat} {s : State} (hs : ∀ r ∈ (s.crew c).hrds, r.1 ≠ h) : hrdSettled c h s = .ok () s := by
  have hnone : ¬((s.crew c).hrds.any fun r => r.1 == h) = true := fun hany => by
    obtain ⟨r, hr, hh⟩ := List.any_eq_true.1 hany
    exact hs r hr (by simpa using hh)
  unfold hrdSettled
  rw [m_bind_ok (m_get s), if_neg hnone]
  rfl

theorem hrdSettled_waits {c h : Nat} {s : State} (hs : ∃ r ∈ (s.crew c).hrds, r.1 = h) :
    hrdSettled c h s = .error .stall s := by
  unfold hrdSettled
  rw [m_bind_ok (m_get s), if_pos (by simpa using hs)]
  rfl

/-- What VNF_TID's descriptor leaves in an entry (R55, R245). -/
theorem readVnf_ok {c : Nat} {e : Entry} {s s' : State} {n : Named}
    (hn : nameTid (s.crew c).ctx ((s.crew c).vnfTid.toNat % 4096) (some c) (.half c) s = .ok n s') (hecc : ∀ va, n ≠ .ecc va) :
    readVnf c e s = .ok (withFormat n ((s.crew c).vnfTid.toNat % 4096) e) s' := by
  have hbits : bits (s.crew c).vnfTid.toNat 11 0 = (s.crew c).vnfTid.toNat % 4096 := by simp [bits]
  unfold readVnf
  rw [m_bind_ok (m_get s), hbits]
  refine (m_bind_ok hn).trans ?_
  cases n with
  | ecc va => exact absurd rfl (hecc va)
  | ok | bad | refused => rfl

section
variable {o : VFmt} {i : Instr} {s s' : State} {c : Nat}

theorem handV_plain (h : RegsReady s (.crew c) (overrideRegs o)) :
    handV o i {} c s = .ok { name := 0, instr := i, pc := (s.crew c).sc.pc, sidx := overrideOf s c o } s := by
  obtain ⟨x, hx, hidx⟩ := handV_override h
  rw [hx, ← hidx]
  rfl

theorem handV_scalar (h : RegsReady s (.crew c) (o.a :: overrideRegs o)) :
    handV o i { scal := true } c s = .ok { name := 0, instr := i, pc := (s.crew c).sc.pc, sval := regVal s (.crew c) o.a
                                           sidx := overrideOf s c o } s := by
  obtain ⟨x, hx, hidx⟩ := handV_override fun r hr => h r (List.mem_cons_of_mem _ hr)
  rw [hx, ← hidx]
  exact m_bind_ok (readReg_ok (h o.a List.mem_cons_self) 0)

theorem handV_get (hc : o.c / 256 = 0) (h : RegsReady s (.crew c) [o.d]) :
    let s' := withPend s (.crew c) o.d (.vget (regVal s (.crew c) o.d))
    handV o i { get := true } c s = .ok { name := 0, instr := i, pc := (s'.crew c).sc.pc } s' := by
  have hd := h o.d List.mem_cons_self
  have hp : withPend s (.crew c) o.d (.vget ((s.scalar (.crew c)).reg o.d)) =
      withPend s (.crew c) o.d (.vget (regVal s (.crew c) o.d)) := by
    unfold withPend regVal
    split <;> rfl
  rw [handV_immediate hc]
  refine (m_bind_ok (s' := s) (a := (0 : Word)) rfl).trans ?_
  refine (m_bind_ok (destReady_ok hd)).trans ((m_bind_ok (m_get s)).trans ((m_bind_ok (awaitReg_ok hd _)).trans ?_))
  rw [hp]
  rfl

theorem handV_format {b : Bool} (hb : b = true) (h : RegsReady s (.crew c) (overrideRegs o)) {n : Named}
    (hn : nameTid (s.crew c).ctx ((s.crew c).vnfTid.toNat % 4096) (some c) (.half c) s = .ok n s') (hecc : ∀ va, n ≠ .ecc va) :
    handV o i { nf := b } c s = .ok (withFormat n ((s.crew c).vnfTid.toNat % 4096)
      { name := 0, instr := i, pc := (s.crew c).sc.pc, sidx := overrideOf s c o }) s' := by
  subst hb
  obtain ⟨x, hx, hidx⟩ := handV_override h
  rw [hx, ← hidx]
  exact readVnf_ok hn hecc

theorem handV_threshold (hc : o.c / 256 = 0) (h : ∀ r ∈ (s.crew c).hrds, r.1 ≠ o.b / 128) :
    handV o i { thr := true } c s = .ok { name := 0, instr := i, pc := (s.crew c).sc.pc } s := by
  rw [handV_immediate hc]
  exact (m_bind_ok (s' := s) (a := (0 : Word)) rfl).trans (m_bind_ok (hrdSettled_ok h))

theorem handV_threshold_waits (hc : o.c / 256 = 0) (h : ∃ r ∈ (s.crew c).hrds, r.1 = o.b / 128) :
    handV o i { thr := true } c s = .error .stall s := by
  rw [handV_immediate hc]
  exact (m_bind_ok (s' := s) (a := (0 : Word)) rfl).trans (m_bind_err (hrdSettled_waits h))

end

end Sys2Proof.Machine
end

section
/-! #### The handover of each family, and O37 -/

namespace Sys2Proof.Machine

theorem handV_unformatted {o : VFmt} {i : Instr} {s : State} {c : Nat} {b : Bool} (hb : b = false) (hc : o.c / 256 = 0) :
    handV o i { nf := b } c s = .ok { name := 0, instr := i, pc := (s.crew c).sc.pc } s := by
  subst hb
  rw [handV_immediate hc]
  rfl

section
variable {st : Nat} {mk : VFmt → Instr} {o : VFmt} {s : State} {c : Nat}

theorem everyV_full (hm : mk ∈ everyV) (hcur : curOwner s = some (.crew c)) (hfull : 16 ≤ (s.crew c).vq.length) :
    exec (mk o) s = .next s := by
  obtain ⟨lanes, hand, mmask, body, h⟩ := everyV_isLane mk hm o s
  rw [h]
  exact runLane_stalls hcur (m_bind_err (roomFor_full (st := 2) hfull))

theorem everyM_full {mk : StrokeFmt → Instr} {o : StrokeFmt} (hm : mk ∈ everyM) (hcur : curOwner s = some (.crew c))
    (hfull : 16 ≤ (s.crew c).mq.length) : exec (mk o) s = .next s := by
  obtain ⟨hand, body, h⟩ := everyM_isStroke mk hm o
  rw [h]
  exact runStroke_stalls hcur (m_bind_err (roomFor_full (st := 3) hfull))

theorem everyLW_full {mk : LWFmt → Instr} {o : LWFmt} (hm : mk ∈ plainLW ++ readingLW) (hcur : curOwner s = some (.crew c))
    (hfull : 16 ≤ (streamQueue (s.crew c) (laneStream s)).length) : exec (mk o) s = .next s := by
  obtain ⟨lanes, hand, mmask, body, h⟩ := everyLW_isLane mk hm o s
  rw [h]
  exact runLane_stalls hcur (m_bind_err (roomFor_full hfull))

/-- A handed over lane of V keeps the pointer the sequencer has then, whatever its entry said. -/
theorem runV_hands {i : Instr} {n : VNeeds} {body : Nat → Entry → M Unit} {s' : State} {e : Entry} (hh : Hands 2 s c)
    (h : handV o i n c s = .ok e s') :
    runV o i n body s = .next (advance (handed s' c 2 { e with pc := 0 }) (.crew c) 2) :=
  (runLane_hands hh h).trans rfl

/-- An instruction of V that waits at its handover holds the sequencer at it. -/
theorem runV_waits {i : Instr} {n : VNeeds} {body : Nat → Entry → M Unit} {s' : State} (hh : Hands 2 s c)
    (h : handV o i n c s = .error .stall s') : runV o i n body s = .next s :=
  runLane_stalls hh.cur ((m_bind_ok (roomFor_ok hh.room)).trans h)

end

section
variable {s : State} {c : Nat}

theorem plainM_hands {mk : StrokeFmt → Instr} {o : StrokeFmt} (hm : mk ∈ plainM) (hh : Hands 3 s c) :
    exec (mk o) s = .next (advance (handed s c 3 { name := 0, instr := mk o, pc := 0 }) (.crew c) 1) := by
  obtain ⟨body, h⟩ := plainM_runs mk hm o
  rw [h]
  exact runStroke_hands hh rfl

theorem mver_hands {o : StrokeFmt} (hh : Hands 3 s c) (h : o.p = 0 ∨ ∀ r ∈ (s.crew c).hrds, r.1 ≠ o.h) :
    exec (.mver o) s = .next (advance (handed s c 3 { name := 0, instr := .mver o, pc := 0 }) (.crew c) 1) := by
  unfold exec execMver
  refine runStroke_hands hh ?_
  by_cases hp : o.p = 0
  · rw [if_neg (not_not.2 hp)]
    rfl
  · rw [if_pos hp]
    exact m_bind_ok (hrdSettled_ok (h.resolve_left hp))

theorem mver_waits {o : StrokeFmt} (hh : Hands 3 s c) (hp : o.p ≠ 0) (h : ∃ r ∈ (s.crew c).hrds, r.1 = o.h) :
    exec (.mver o) s = .next s := by
  unfold exec execMver
  refine runStroke_stalls (s' := s) hh.cur ((m_bind_ok (roomFor_ok hh.room)).trans ?_)
  rw [if_pos hp]
  exact m_bind_err (hrdSettled_waits h)

theorem drain_hands {mk : StrokeFmt → Instr} {o : StrokeFmt} (hm : mk = .mdrain ∨ mk = .mdrainv) (hh : Hands 3 s c) :
    let v := (s.crew c).stroke o.arr
    let s' := s.setCrew c { s.crew c with strokes := (s.crew c).strokes.put o.arr { v with dsn := v.dsn + 1 } {} }
    exec (mk o) s = .next (advance (handed s' c 3 { name := 0, instr := mk o, pc := 0, sval := (s.crew c).strokeOut.getD o.arr 0
                                                    sidx := v.dsn.toNat }) (.crew c) 1) := by
  obtain rfl | rfl := hm
  · exact runStroke_hands hh rfl
  · exact runStroke_hands hh rfl

theorem plainLW_hands {mk : LWFmt → Instr} {o : LWFmt} (hm : mk ∈ plainLW) (hh : Hands (laneStream s) s c) :
    exec (mk o) s = .next (advance (handed s c (laneStream s) { name := 0, instr := mk o, pc := 0, sidx := o.s }) (.crew c) 1) := by
  obtain ⟨body, h⟩ := plainLW_runs mk hm o
  rw [h]
  exact runLane_hands hh rfl

theorem readingLW_hands {mk : LWFmt → Instr} {o : LWFmt} (hm : mk ∈ readingLW) (hh : Hands (laneStream s) s c)
    (hr : RegsReady s (.crew c) [o.s]) :
    exec (mk o) s = .next (advance (handed s c (laneStream s)
      { name := 0, instr := mk o, pc := 0, sval := regVal s (.crew c) o.s, sidx := o.s }) (.crew c) 1) := by
  obtain ⟨body, h⟩ := readingLW_runs mk hm o
  rw [h]
  exact runLane_hands hh (m_bind_ok (readReg_ok (hr o.s List.mem_cons_self) 0))

end

section
variable {o : VFmt}

theorem vget_immediate (h : (Instr.vget o).wf = true) : o.c / 256 = 0 := by
  simp only [Instr.wf, VFmt.classes, VFmt.cOk, Bool.and_eq_true, decide_eq_true_eq] at h
  have hcount : o.count ≤ 128 := by
    unfold VFmt.count vWidth
    repeat' split
    all_goals decide
  omega

theorem vcvt_immediate (h : (Instr.vcvt o).wf = true) : o.c / 256 = 0 := by
  simp only [Instr.wf, VFmt.classes, VFmt.cOk, Bool.and_eq_true, decide_eq_true_eq] at h
  omega

theorem vcmpv_immediate (h : (Instr.vcmpv o).wf = true) : o.c / 256 = 0 := by
  simp only [Instr.wf, VFmt.classes, VFmt.cOk, Bool.and_eq_true, decide_eq_true_eq] at h
  omega

end

end Sys2Proof.Machine

open Sys2Proof Sys2Proof.Machine

/-- Settles O37: what each family reads at its handover (`handV_…`, `hrdSettled_…`) is what `runLane_hands` or
`runStroke_hands` puts in the stream's queue; the tokens are those of `runLane_atHead` and `runStroke_atHead`. -/
theorem streamsTakeTurns : Obligations.StreamsTakeTurns := by
  unfold Obligations.StreamsTakeTurns
  refine ⟨⟨?plain, ?scalar, ?get, ?format, ?unformatted, ?threshold, fun mk hm o s c => everyV_full hm,
    fun mk hm o s c => everyM_full hm, fun mk hm o s c => everyLW_full hm, fun mk hm o s c _ => plainM_hands hm,
    fun o s c _ hh => ⟨mver_hands hh, mver_waits hh⟩, fun mk o s c hm _ => drain_hands hm, fun mk hm o s c _ => plainLW_hands hm,
    fun mk hm o s c _ => readingLW_hands hm⟩, ?tokensV, ?tokensM, ?tokensLW, fun k e f => mem_owed, ?nodup,
    fun k f => ⟨tokenCount_addToken k f, tokenCount_takeToken k f⟩⟩
  case plain =>
    intro mk hm o s c _ hh hr
    obtain ⟨body, h⟩ := plainV_runs mk hm o
    rw [h]
    exact runV_hands hh (handV_plain hr)
  case scalar =>
    rintro mk o s c (rfl | rfl) _ hh hr
    · exact runV_hands hh (handV_scalar hr)
    · exact runV_hands hh (handV_scalar hr)
  case get =>
    intro o s c hw hh hr
    exact runV_hands hh (handV_get (vget_immediate hw) hr)
  case format =>
    rintro mk o s s' c n (rfl | rfl | ⟨rfl, h9⟩) _ hh hr hn hecc
    · exact runLane_hands hh (handV_format rfl hr hn hecc)
    · exact runLane_hands hh (handV_format rfl hr hn hecc)
    · exact runLane_hands hh (handV_format (by simpa using h9) hr hn hecc)
  case unformatted =>
    intro o s c hw h9 hh
    exact runV_hands hh (handV_unformatted (by simpa using h9) (vcvt_immediate hw))
  case threshold =>
    intro o s c hw hh
    exact ⟨fun hs => runV_hands hh (handV_threshold (vcmpv_immediate hw) hs),
      fun hs => runV_waits hh (handV_threshold_waits (vcmpv_immediate hw) hs)⟩
  case tokensV =>
    exact fun mk hm o => ⟨isLane_waits fun s _ _ _ => everyV_isLane mk hm o s, isLane_pushes fun s _ _ _ => everyV_isLane mk hm o s⟩
  case tokensM =>
    exact fun mk hm o => ⟨isStroke_waits (everyM_isStroke mk hm o), isStroke_pushes (everyM_isStroke mk hm o)⟩
  case tokensLW =>
    intro mk hm o st hst
    have hrun : ∀ s c e, streamHead s s.cur = some (c, st, e) → IsLane st o.tok (mk o) s := fun s c e hh =>
      laneStream_of_streamHead hh hst ▸ everyLW_isLane mk hm o s
    exact ⟨isLane_waits hrun, isLane_pushes hrun⟩
  case nodup =>
    intro st tok h2 h5 htok
    exact tokenFifos_nodup st (by omega) tok htok h2

end

/-! ### Launches and gangs (O44) -/

section
namespace Sys2Proof.Machine

/-! #### Records -/

theorem badRecord_iff (r : List Byte) : BadRecord r ↔ recordBad r = true := by
  have hlevel (i : Nat) : (let w := fieldAt r (0x20 + 4 * i) 4
      if i < fieldAt r 2 1 then 2 ^ 23 ≤ w % 2 ^ 32 ∨ bit w 19 = true else w ≠ 0) ↔
      (let w := recLevel r i
       if i < recNlev r then bits w 31 23 != 0 || bit w 19 else w != 0) = true := by
    simp only [recLevel, recNlev]
    by_cases hi : i < fieldAt r 2 1
    · simp only [hi, if_true, Bool.or_eq_true, bne_iff_ne, bits]
      refine or_congr_left ?_
      omega
    · simp only [hi, if_false, bne_iff_ne]
  unfold BadRecord recordBad
  simp only [Bool.or_eq_true, bne_iff_ne, decide_eq_true_eq, List.any_eq_true, List.mem_range, or_assoc, hlevel]
  rfl

theorem checkCount_ok {r : List Byte} (h1 : 1 ≤ fieldAt r 2 1) (h8 : fieldAt r 2 1 ≤ 8) (s : State) :
    checkCount r s = .ok () s := by
  unfold checkCount recNlev
  rw [if_neg (by omega)]
  rfl

theorem checkCount_refuses {r : List Byte} (h : fieldAt r 2 1 = 0 ∨ 8 < fieldAt r 2 1) (s : State) :
    ∃ n t, checkCount r s = .error (.status n) t ∧ (n = 32 ∨ n = 35) := by
  obtain ⟨k, t, hk⟩ := completes_pick 0 1 s
  unfold checkCount recNlev
  rw [if_pos h, m_bind_ok hk]
  by_cases h0 : k = 0
  · exact ⟨32, t, by rw [if_pos h0]; rfl, .inl rfl⟩
  · exact ⟨35, t, by rw [if_neg h0]; rfl, .inr rfl⟩

/-- The first level that breaks a rule is refused with its index (R29). -/
theorem makeLaunch_levelBad : LevelsChecked := by
  intro ctx r nmem s i hi hbad hok
  have hfind : (List.range (recLevels r).length).find? (fun i => !levelOk (recLevels r) nmem i) = some i := by
    rw [List.find?_range_eq_some]
    refine ⟨by simp [hbad], by simpa using hi, fun j hj => by simp [hok j hj]⟩
  have hcheck : checkLevels (recLevels r) nmem s = .error (.status (32 + 256 * i)) s := by
    unfold checkLevels
    rw [hfind]
    dsimp only
    rw [refuse, Nat.mul_comm i]
    rfl
  unfold makeLaunch
  exact m_bind_err hcheck

/-! #### Acceptance -/

section
variable {ctx : Nat} {p : PortRec} {s a t u : State} {id : Nat} {l : Launch}

/-- The state in which a record is checked: what was written before it is released (R370). -/
def beforeCheck (p : PortRec) (s : State) : State :=
  acceptRelease p.origin (max 4 ((recLevels p.record).headD default).scope) s

theorem acceptRecord_bad (h : BadRecord p.record) : acceptRecord ctx p s = .error (.status 35) (beforeCheck p s) := by
  unfold acceptRecord
  rw [m_bind_ok (m_upd _ s), if_pos ((badRecord_iff _).1 h)]
  rfl

theorem acceptRecord_miscounted (h : ¬BadRecord p.record) (hn : fieldAt p.record 2 1 = 0 ∨ 8 < fieldAt p.record 2 1) :
    ∃ n t, acceptRecord ctx p s = .error (.status n) t ∧ (n = 32 ∨ n = 35) := by
  obtain ⟨n, t, hc, hor⟩ := checkCount_refuses hn (beforeCheck p s)
  refine ⟨n, t, ?_, hor⟩
  unfold acceptRecord
  rw [m_bind_ok (m_upd _ s), if_neg (fun hb => h ((badRecord_iff _).2 hb))]
  exact m_bind_err hc

/-- A record that is no gang's: its launch is made and kept. -/
def keepLaunch (ctx : Nat) (r : List Byte) : M Unit := do
  let x ← makeLaunch ctx r none
  upd fun s => { s with launches := s.launches.insert x.1 x.2 }

/-- A record of good form has its levels, header, cards and code checked; a gang's has its members read first. -/
theorem acceptRecord_good (h : ¬BadRecord p.record) (h1 : 1 ≤ fieldAt p.record 2 1) (h8 : fieldAt p.record 2 1 ≤ 8) :
    acceptRecord ctx p s =
      (if recGang p.record then startGang ctx p.record else keepLaunch ctx p.record) (beforeCheck p s) := by
  unfold acceptRecord
  rw [m_bind_ok (m_upd _ s), if_neg (fun hb => h ((badRecord_iff _).2 hb))]
  exact m_bind_ok (checkCount_ok h1 h8 _)

theorem acceptRecord_makes (h : ¬BadRecord p.record) (h1 : 1 ≤ fieldAt p.record 2 1) (h8 : fieldAt p.record 2 1 ≤ 8)
    (hg : bit (fieldAt p.record 3 1) 3 = false) (hm : makeLaunch ctx p.record none (beforeCheck p s) = .ok (id, l) t) :
    acceptRecord ctx p s = .ok () { t with launches := t.launches.insert id l } := by
  rw [acceptRecord_good h h1 h8, if_neg (by simp [recGang, recFlags, hg])]
  exact m_bind_ok hm

theorem acceptRecord_fails (h : ¬BadRecord p.record) (h1 : 1 ≤ fieldAt p.record 2 1) (h8 : fieldAt p.record 2 1 ≤ 8)
    (hg : bit (fieldAt p.record 3 1) 3 = false) {e : Stop} (hm : makeLaunch ctx p.record none (beforeCheck p s) = .error e t) :
    acceptRecord ctx p s = .error e t := by
  rw [acceptRecord_good h h1 h8, if_neg (by simp [recGang, recFlags, hg])]
  exact m_bind_err hm

section
variable {r : List Byte} {gr : GangRec}

/-- A gang's identifier is that of no gang of the context in flight (R380). -/
theorem startGang_taken (hr : readGang ctx (recCntr r) a = .ok gr t) (h : ∃ x ∈ t.launches, leads x.2 ctx gr.id = true) :
    startGang ctx r a = .error (.status 35) t := by
  unfold startGang
  rw [m_bind_ok hr, m_bind_ok (m_get t), if_pos (List.any_eq_true.2 h)]
  rfl

theorem startGang_arms (hr : readGang ctx (recCntr r) a = .ok gr t) (h : ∀ x ∈ t.launches, leads x.2 ctx gr.id = false)
    (hm : makeLaunch ctx r (some gr.members.length) t = .ok (id, l) u) :
    let l' := { l with cntr := gr.cntr, gang := .leader gr.id gr.members [] [] false }
    startGang ctx r a = .ok () (toMembers l' gr.id gr.members (tenantOf u ctx) .arm
      { u with launches := u.launches.insert id l' }) := by
  have hnone : ¬(t.launches.any fun e => leads e.2 ctx gr.id) = true := by
    rw [List.any_eq_true]
    rintro ⟨x, hx, hl⟩
    rw [h x hx] at hl
    cases hl
  unfold startGang
  rw [m_bind_ok hr, m_bind_ok (m_get t), if_neg hnone]
  exact m_bind_ok hm

end

theorem acceptRecord_gang (h : ¬BadRecord p.record) (h1 : 1 ≤ fieldAt p.record 2 1) (h8 : fieldAt p.record 2 1 ≤ 8)
    (hg : bit (fieldAt p.record 3 1) 3 = true) : acceptRecord ctx p s = startGang ctx p.record (beforeCheck p s) := by
  rw [acceptRecord_good h h1 h8, if_pos (by exact hg)]

theorem accepting : Accepting := by
  intro ctx p s t u id l gr r a
  refine ⟨badRecord_iff r, acceptRecord_bad, acceptRecord_miscounted, fun h h1 h8 =>
    ⟨fun hg => ⟨acceptRecord_makes h h1 h8 hg, fun e => acceptRecord_fails h h1 h8 hg⟩, fun hg hr => ⟨fun hx => ?_, fun hx hm => ?_⟩⟩⟩
  · rw [acceptRecord_gang h h1 h8 hg]
    exact startGang_taken hr hx
  · rw [acceptRecord_gang h h1 h8 hg]
    exact startGang_arms hr hx hm

end

end Sys2Proof.Machine
end

section
/-! #### Answers, completion and gangs, and O44 -/

namespace Sys2Proof.Machine

/-! ##### The sequencer's reply and add -/

theorem launchReply_none {ctx reply status events count scope : Nat} (h : reply = 0 ∨ reply % 16 ≠ 0) (s : State) :
    launchReply ctx reply status events count scope s = .ok () s := by
  unfold launchReply
  rw [if_pos h]
  rfl

theorem launchReply_stores {ctx reply status events count scope : Nat} (h : reply ≠ 0) (ha : reply % 16 = 0) (s : State) :
    launchReply ctx reply status events count scope s =
      hubStore ctx reply (leBytes 2 status ++ leBytes 2 0 ++ leBytes 4 events ++ leBytes 8 count) scope s := by
  unfold launchReply
  rw [if_neg (by rintro (h' | h'); exacts [h h', h' ha])]

section
variable {ctx cntr scope pa n : Nat} {s s1 s2 s3 : State} {b : List Byte}

theorem hubSignal_reads (h0 : cntr ≠ 0) (hp : hubParts ctx true [(cntr, 8)] s = .ok (some [(pa, n)]) s1)
    (hr : readPort pa 8 s1 = .ok (some b) s2) :
    hubSignal ctx cntr scope s = (if 2 ^ 64 ≤ leNat b + 1 then event ctx 2 14 0 cntr 1
      else do
        writePort .hub pa (leBytes 8 (leNat b + 1))
        upd (release · .hub scope)) s2 := by
  unfold hubSignal
  rw [if_neg h0]
  exact (m_bind_ok hp).trans (m_bind_ok hr)

theorem hubSignal_adds (h0 : cntr ≠ 0) (hp : hubParts ctx true [(cntr, 8)] s = .ok (some [(pa, n)]) s1)
    (hr : readPort pa 8 s1 = .ok (some b) s2) (hb : leNat b + 1 < 2 ^ 64)
    (hw : writePort .hub pa (leBytes 8 (leNat b + 1)) s2 = .ok () s3) :
    hubSignal ctx cntr scope s = .ok () (release s3 .hub scope) := by
  rw [hubSignal_reads h0 hp hr, if_neg (Nat.not_le.2 hb)]
  exact m_bind_ok hw

theorem hubSignal_overflows (h0 : cntr ≠ 0) (hp : hubParts ctx true [(cntr, 8)] s = .ok (some [(pa, n)]) s1)
    (hr : readPort pa 8 s1 = .ok (some b) s2) (hb : 2 ^ 64 ≤ leNat b + 1) (he : event ctx 2 14 0 cntr 1 s2 = .ok () s3) :
    hubSignal ctx cntr scope s = .ok () s3 := by
  rw [hubSignal_reads h0 hp hr, if_pos hb, he]

end

/-- The pins a launch over gives up are those of its code. -/
theorem mem_finishLaunch_pins {id : Nat} {s : State} {p : Pin} :
    p ∈ (finishLaunch id s).pins ↔ p ∈ s.pins ∧ ∀ card, p.owner ≠ .launch id card := by
  unfold finishLaunch dropPins
  rw [List.mem_filter]
  refine and_congr_right fun _ => ?_
  dsimp only
  generalize p.owner = w
  cases w with
  | launch n card => simp
  | thread | crew | cmd => simp

theorem sequencerAnswers : SequencerAnswers := by
  refine ⟨fun ctx reply status events count scope s => ⟨fun h => launchReply_none h s, fun h ha => launchReply_stores h ha s⟩,
    fun ctx cntr scope pa n s s1 s2 s3 b => ⟨fun h => by unfold hubSignal; rw [if_pos h]; rfl, fun h0 hp hr =>
      ⟨hubSignal_adds h0 hp hr, hubSignal_overflows h0 hp hr⟩⟩,
    fun id s => ⟨fun p hp => (mem_finishLaunch_pins.1 hp).2, fun p hp h => mem_finishLaunch_pins.2 ⟨hp, h⟩, rfl⟩⟩

/-! ##### The head of a port -/

section
variable {ctx : Nat} {s s1 s2 : State} {p : PortRec} {rest : List PortRec}

theorem launchAccept_accepts (hp : (s.context ctx).port = p :: rest) (ha : acceptRecord ctx p s = .ok () s1)
    (hr : refreshReady (answerOrigin p.origin 1 0 (popPort ctx s1)) = .ok () s2) : exec (.launchAccept ctx) s = .next s2 := by
  refine congrArg _ (runM_ok ?_)
  unfold acceptHead
  rw [hp]
  dsimp only
  rw [ha]
  exact hr

theorem launchAccept_refuses {n : Nat} (hp : (s.context ctx).port = p :: rest) (ha : acceptRecord ctx p s = .error (.status n) s1)
    (hr : launchReply ctx (fieldAt p.record 0x10 8) (n % 256) 0 (n / 256) 4
      (answerOrigin p.origin (n % 256) (n / 256) (popPort ctx (keepErrors s s1))) = .ok () s2) :
    exec (.launchAccept ctx) s = .next s2 := by
  refine congrArg _ (runM_ok ?_)
  unfold acceptHead
  rw [hp]
  dsimp only
  rw [ha]
  exact hr

end

/-! ##### LAUNCH, and the turns of engine commands -/

section
variable {g : Eng} {s s' : State} {c : Cmd} {body : Eng → Cmd → M Bool}

/-- An engine that finds a command of its own at its head takes that command's turn (R297). -/
theorem runCommand_atHead {o : LaneFmt} {n : Issue} {more : MoreOperands}
    (hu : s.cur = if g.copy then .copyEng g.cl else .indexEng g.cl) (hn : n.copy = g.copy)
    (hh : engineHead s s.cur = some (g.cl, c)) : runCommand o c.instr n body more s = .next (cmdTurn g c body s) := by
  obtain ⟨cl, copy⟩ := g
  have hcur : curOwner s = none := by
    cases copy <;> simp only [hu, curOwner, if_true, if_false, Bool.false_eq_true]
  unfold runCommand
  rw [hcur]
  dsimp only at hh hn ⊢
  rw [hh]
  cases copy with
  | true =>
    rw [show s.cur = .copyEng cl from hu, hn]
    simp
  | false =>
    rw [show s.cur = .indexEng cl from hu, hn]
    simp

/-- The work of a block command: its block taken first, then its body, once its derived edges allow (R175, R298). -/
def blockBody (opc known : Nat) (body : Eng → Cmd → M Bool) (g : Eng) (c : Cmd) : M Bool := do
  if c.prog.bytes.isEmpty then
    takeBlock g c opc known
    return false
  else
    if c.decl then
      let s ← get
      awaitEdges c.crew c.id (cmdFeet s g c)
    body g c

theorem runBlock_eq (o : LaneFmt) (i : Instr) (copy : Bool) (opc known : Nat) (more : MoreOperands) (s : State) :
    runBlock o i copy opc known body more s =
      runCommand o i { copy := copy, block := true } (blockBody opc known body) more s := rfl

theorem blockBody_taken {opc known : Nat} (ht : c.prog.bytes ≠ []) (hd : c.decl = false) :
    blockBody opc known body g c s = body g c s := by
  unfold blockBody
  rw [if_neg (by simpa using ht), hd]
  rfl

/-- A command that has been given its outcome ends with it (R302). -/
theorem cmdTurn_ends {st : Nat} (hl : c.lost = false) (hs : c.status = some st) : cmdTurn g c body s = ends g c st s := by
  unfold cmdTurn
  rw [hl, hs]
  rfl

theorem cmdTurn_continues {i : Instr} (h : EngTurn i g s c) (hb : body g c s = .ok false s') :
    cmdTurn g c body s = updCmd g.cl g.copy c.id (fun e => { e with stalled := false }) s' := by
  have hpins : (s.pins.any fun p => p.owner == .cmd c.id && p.revoked) = false := by
    rw [List.any_eq_false]
    exact fun p hp hr => h.pins p hp (by simpa using hr)
  unfold cmdTurn
  dsimp only
  rw [h.kept, h.running, hpins, h.blocks, hb]
  rfl

end

theorem launchBody_queues {g : Eng} {c : Cmd} {s : State} {x : Context} (hz : blockZero c 0x18 8)
    (hx : s.contexts.find? c.ctx = some x) (hp : c.prog.pos = 0) (hl : x.port.length < 64) :
    launchBody g c s = .ok false ((updCmd g.cl g.copy c.id (fun _ => { c with prog := { c.prog with pos := 1 } }) s).setContext c.ctx
      { x with port := x.port ++ [{ record := (c.prog.bytes.drop 0x20).take 64, origin := .command c.id g.cl }] }) := by
  have hres : reserved c.prog.bytes [(0x18, 8)] s = .ok () s := by
    unfold reserved
    rw [if_pos (by simpa [blockZero] using hz)]
    rfl
  unfold launchBody
  rw [m_bind_ok hres, m_bind_ok (m_get s), hx]
  dsimp only
  rw [if_pos (by simp [hp, hl])]
  rfl

end Sys2Proof.Machine
end

section
/-! #### Completion, gangs and reports, and O44 -/

namespace Sys2Proof.Machine

/-! ##### A launch that is over -/

/-- A launch has nothing more to come: a leader's once it has committed and every member has reported, any other once its
cards are done (R374). -/
def launchEnds (l : Launch) : Bool :=
  match l.gang with
  | .leader _ members _ reports committed => committed && reports.length == members.length
  | _ => launchOver l

/-- The same as a proposition. -/
def LaunchEnds (l : Launch) : Prop :=
  match l.gang with
  | .leader _ members _ reports committed => committed = true ∧ reports.length = members.length
  | _ => launchOver l = true

theorem launchEnds_iff (l : Launch) : launchEnds l = true ↔ LaunchEnds l := by
  unfold launchEnds LaunchEnds
  cases l.gang with
  | leader gang members acks reports committed => simp
  | none | member => rfl

section
variable {id : Nat} {s s1 s2 s3 : State} {l : Launch}

theorem tryComplete_eq (hf : s.launches.find? id = some l) (hl : l.finished = false) :
    tryComplete id s = (if launchEnds l then completeLaunch id l else pure ()) s := by
  unfold tryComplete
  rw [m_bind_ok (m_get s), hf]
  dsimp only
  rw [hl]
  rfl

theorem launchComplete_waits (hf : s.launches.find? id = some l) (hl : l.finished = false) (h : ¬LaunchEnds l) :
    exec (.launchComplete id) s = .next s := by
  refine congrArg _ (runM_ok ?_)
  rw [tryComplete_eq hf hl, if_neg (fun he => h ((launchEnds_iff l).1 he))]
  rfl

theorem launchComplete_replies (hf : s.launches.find? id = some l) (hl : l.finished = false) (h : LaunchEnds l)
    (hg : ∀ gang rank leader lctx done, l.gang ≠ .member gang rank leader lctx done)
    (hr : launchReply l.ctx l.reply (l.stopped.getD 1) l.residues l.completed (launchScope l) s = .ok () s1)
    (hs : hubSignal l.ctx l.cntr (launchScope l) s1 = .ok () s2) (hp : refreshReady (finishLaunch id s2) = .ok () s3) :
    exec (.launchComplete id) s = .next s3 := by
  refine congrArg _ (runM_ok ?_)
  rw [tryComplete_eq hf hl, if_pos ((launchEnds_iff l).2 h)]
  unfold completeLaunch
  cases hgang : l.gang with
  | member gang rank leader lctx done => exact (hg gang rank leader lctx done hgang).elim
  | none | leader => exact (m_bind_ok hr).trans ((m_bind_ok hs).trans ((m_bind_ok (m_upd _ s2)).trans hp))

/-- A gang's member reports to its leader (R381). -/
theorem launchComplete_reports {gang rank leader lctx : Nat} {done : Bool} (hf : s.launches.find? id = some l)
    (hl : l.finished = false) (h : LaunchEnds l) (hg : l.gang = .member gang rank leader lctx done)
    (hp : refreshReady (finishLaunch id (gangSent leader .report {
      sender := selfId, ctx := lctx, lctx := lctx, gangId := gang, rank := rank, nmem := 0, status := l.stopped.getD 1
      tenant := none, record := [], count := l.completed, events := l.residues } s)) = .ok () s3) :
    exec (.launchComplete id) s = .next s3 := by
  refine congrArg _ (runM_ok ?_)
  rw [tryComplete_eq hf hl, if_pos ((launchEnds_iff l).2 h)]
  unfold completeLaunch
  rw [hg]
  exact hp

end

/-! ##### Messages of gangs -/

theorem received_of_comes {m : CourseMsg} {sender seq : Nat} {s s' : State} (h : Comes m sender seq s s') :
    received m sender seq s = some s' := by
  unfold received
  obtain ⟨hs, rest, hbox, rfl⟩ | ⟨hs, hseq, rfl⟩ := h
  · rw [if_pos hs, hbox]
    exact if_pos rfl
  · rw [if_neg hs, if_neg (Nat.not_lt.2 hseq)]

section
variable {m : GangMsg} {s s' s1 s2 : State} {id : Nat} {l : Launch}

theorem gangArm_received (h : Comes (.arm m) m.sender m.seq s s') : exec (.gangArm m) s = .next (runM (arm m) s') := by
  dsimp only [exec, execGangArm]
  rw [received_of_comes h]

theorem arm_armed (ha : armMember m s = .ok () s1)
    (hr : refreshReady (gangSent m.sender .ack { m with ctx := m.lctx, status := 1, record := [] } s1) = .ok () s2) :
    arm m s = .ok () s2 := by
  unfold arm
  rw [ha]
  exact hr

theorem arm_refused {n : Nat} (ha : armMember m s = .error (.status n) s1) (he : event m.ctx 7 (n % 256) 0 0 m.gangId
    (gangSent m.sender .ack { m with ctx := m.lctx, status := n % 256, record := [] } (keepErrors s s1)) = .ok () s2) :
    arm m s = .ok () s2 := by
  unfold arm
  rw [ha]
  exact he

theorem armMember_torn (h : s.contexts.find? m.ctx = none) : armMember m s = .error (.status 16) s := by
  unfold armMember
  rw [m_bind_ok (m_get s), if_pos (by simp [h])]
  rfl

theorem armMember_bad (h : s.contexts.find? m.ctx ≠ none) (hb : tenantOf s m.ctx ≠ m.tenant ∨ BadRecord m.record) :
    armMember m s = .error (.status 35) s := by
  unfold armMember
  rw [m_bind_ok (m_get s), if_neg (by simpa using h)]
  by_cases ht : tenantOf s m.ctx = m.tenant
  · rw [if_neg (by simp [ht]), if_pos ((badRecord_iff _).1 (hb.resolve_left (not_not.2 ht)))]
    rfl
  · rw [if_pos (by simpa using ht)]
    rfl

/-- What a member does once its context, tenant and record are right (R381). -/
def armLaunch (m : GangMsg) : M Unit := do
  let x ← makeLaunch m.ctx m.record (some m.nmem)
  upd fun s => { s with launches := s.launches.insert x.1 { x.2 with
    order := memberOrder s m x.1, reply := 0, cntr := 0, gang := .member m.gangId m.rank m.sender m.lctx false } }

theorem armMember_checked (h : s.contexts.find? m.ctx ≠ none) (ht : tenantOf s m.ctx = m.tenant) (hb : ¬BadRecord m.record)
    (h1 : 1 ≤ fieldAt m.record 2 1) (h8 : fieldAt m.record 2 1 ≤ 8) : armMember m s = armLaunch m s := by
  unfold armMember
  rw [m_bind_ok (m_get s), if_neg (by simpa using h), if_neg (by simp [ht]), if_neg (fun hb' => hb ((badRecord_iff _).2 hb'))]
  exact m_bind_ok (checkCount_ok h1 h8 s)

/-! ###### The leader -/

theorem gangAcknowledge_received (h : Comes (.ack m) m.sender m.seq s s') :
    exec (.gangAcknowledge m) s = .next (runM (takeAck m) s') := by
  dsimp only [exec, execGangAcknowledge]
  rw [received_of_comes h]

section
variable {members : List (Nat × Nat)} {acks reports : List Nat}

section
variable (hl : leaderOf s m.ctx m.gangId = some (id, l)) (hg : l.gang = .leader m.gangId members acks reports false)
  (hm : isMember members m = true)
include hl hg hm

theorem takeAck_refusal (hs : m.status ≠ 1) : takeAck m s = abortGang id l m.gangId members s := by
  unfold takeAck
  rw [m_bind_ok (m_get s), hl]
  dsimp only
  rw [hg]
  dsimp only
  rw [if_neg (by simp [hm]), if_pos hs]

theorem takeAck_counts (hs : m.status = 1) : takeAck m s =
    .ok () (if (addName acks m.rank).length = members.length then commitGang id l m.gangId members (addName acks m.rank) reports s
      else { s with launches :=
        s.launches.insert id { l with gang := .leader m.gangId members (addName acks m.rank) reports false } }) := by
  unfold takeAck
  rw [m_bind_ok (m_get s), hl]
  dsimp only
  rw [hg]
  dsimp only
  rw [if_neg (by simp [hm]), if_neg (not_not.2 hs)]
  split <;> rfl

end

/-- The leader tells its members, answers that the gang was aborted, and its launch is over (R381, R382). -/
theorem abortGang_ok {gang : Nat}
    (hr : launchReply l.ctx l.reply 37 0 0 (launchScope l) (toMembers l gang members none .abort s) = .ok () s1)
    (hp : refreshReady (finishLaunch id s1) = .ok () s2) : abortGang id l gang members s = .ok () s2 := by
  unfold abortGang
  rw [m_bind_ok (m_upd _ s), m_bind_ok hr, m_bind_ok (m_upd _ s1), hp]

theorem abortUncommitted_aborts {gang : Nat} (hf : s.launches.find? id = some l)
    (hg : l.gang = .leader gang members acks reports false) (hl : l.finished = false) :
    abortUncommitted id s = abortGang id l gang members s := by
  unfold abortUncommitted
  rw [m_bind_ok (m_get s), hf]
  dsimp only
  rw [hg, hl]
  rfl

theorem memberReport_adds {committed : Bool} (hl : leaderOf s m.ctx m.gangId = some (id, l))
    (hg : l.gang = .leader m.gangId members acks reports committed) (hm : isMember members m = true) (hr : m.rank ∉ reports) :
    memberReport m s = { s with launches := s.launches.insert id { l with
      gang := .leader m.gangId members acks (reports ++ [m.rank]) committed
      completed := l.completed + m.count
      residues := l.residues + m.events
      stopped := if m.status = 1 then l.stopped else some (l.stopped.getD m.status) } } := by
  unfold memberReport
  rw [hl]
  dsimp only
  rw [hg]
  dsimp only
  rw [if_pos (by simp [hm, hr])]

end

/-! ###### Commit and abort at a member -/

/-- The publication a held release makes at the commit (R119). -/
def pubHeld (h : Nat × Nat × List Nat) : Pub := { scope := clampScope h.2.1 h.1, cl := h.2.1 }

/-- Of a write, its name and bytes, with a publication from a place. -/
def Published (p : Pub) (w x : Write) : Prop := x.id = w.id ∧ x.cells = w.cells ∧ p ∈ x.pubs

theorem addPub_id (ids : List Nat) (p : Pub) (w : Write) : (addPub ids p w).id = w.id := by
  unfold addPub
  split <;> rfl

theorem mem_addPub {ids : List Nat} {p q : Pub} {w : Write} (h : q ∈ w.pubs) : q ∈ (addPub ids p w).pubs := by
  unfold addPub
  split
  · exact List.mem_append_left _ h
  · exact h

theorem addPub_named {ids : List Nat} (p : Pub) {w : Write} (h : w.id ∈ ids) : p ∈ (addPub ids p w).pubs := by
  unfold addPub
  by_cases hp : p ∈ w.pubs
  · rw [if_neg (by simp [hp])]
    exact hp
  · rw [if_pos (by simp [hp, h])]
    exact List.mem_append_right _ List.mem_cons_self

/-- Publishing a list of held releases leaves the rest of the state alone. -/
theorem publishHeld_launches (held : List (Nat × Nat × List Nat)) (s : State) :
    (held.foldl (fun s h => publishFrom h.1 h.2.1 h.2.2 s) s).launches = s.launches := by
  induction held generalizing s with
  | nil => rfl
  | cons h held ih => exact ih _

/-- Publishing keeps every write, with the publications it had. -/
theorem publishHeld_keeps {held : List (Nat × Nat × List Nat)} {p : Pub} {w x : Write} (hx : Published p w x) (s : State)
    (hm : x ∈ s.mem.log) : ∃ y ∈ (held.foldl (fun s h => publishFrom h.1 h.2.1 h.2.2 s) s).mem.log, Published p w y := by
  induction held generalizing s x with
  | nil => exact ⟨x, hm, hx⟩
  | cons h held ih =>
    obtain ⟨hid, hcells, hp⟩ := hx
    exact ih ⟨(addPub_id ..).trans hid, (addPub_cells ..).trans hcells, mem_addPub hp⟩ _ (List.mem_map_of_mem hm)

/-- Every write a held release names is published from its place (R119). -/
theorem publishHeld_publishes {held : List (Nat × Nat × List Nat)} {h : Nat × Nat × List Nat} (hh : h ∈ held) {w : Write}
    (hw : w.id ∈ h.2.2) (s : State) (hm : ∃ x ∈ s.mem.log, x.id = w.id ∧ x.cells = w.cells) :
    ∃ y ∈ (held.foldl (fun s h => publishFrom h.1 h.2.1 h.2.2 s) s).mem.log,
      Published (pubHeld h) w y := by
  obtain ⟨x, hx, hid, hcells⟩ := hm
  induction held generalizing s x with
  | nil => cases hh
  | cons h' held ih =>
    have hx' : addPub h'.2.2 (pubHeld h') x ∈ (publishFrom h'.1 h'.2.1 h'.2.2 s).mem.log := List.mem_map_of_mem hx
    have hid' := (addPub_id h'.2.2 (pubHeld h') x).trans hid
    have hcells' := (addPub_cells h'.2.2 (pubHeld h') x).trans hcells
    rw [List.foldl_cons]
    obtain rfl | hh := List.mem_cons.1 hh
    · exact publishHeld_keeps ⟨hid', hcells', addPub_named _ (hid ▸ hw)⟩ _ hx'
    · exact ih hh _ _ hx' hid' hcells'

theorem gangCommit_member (h : Comes (.commit m) m.sender m.seq s s') (hm : memberOf s' m = some (id, l)) :
    exec (.gangCommit m) s = .next { (l.held.foldl (fun s h => publishFrom h.1 h.2.1 h.2.2 s) s') with
      launches := s'.launches.insert id { l with gang := .member m.gangId m.rank m.sender m.lctx true, held := [] } } := by
  dsimp only [exec, execGangCommit]
  rw [received_of_comes h]
  dsimp only
  unfold commitMember
  rw [hm]
  dsimp only
  rw [publishHeld_launches]

theorem gangAbort_member (h : Comes (.abort m) m.sender m.seq s s') (hm : memberOf s' m = some (id, l))
    (hr : reportMoves (endLaunch id s') = .ok () s1) (hp : refreshReady s1 = .ok () s2) :
    exec (.gangAbort m) s = .next s2 := by
  dsimp only [exec, execGangAbort]
  rw [received_of_comes h]
  refine congrArg _ (runM_ok ?_)
  unfold abortMember
  rw [m_bind_ok (m_get s'), hm]
  exact (m_bind_ok (m_upd _ s')).trans ((m_bind_ok hr).trans hp)

end

/-! ##### Reports of crews -/

section
variable {i : Nat} {s s1 : State} {r : Report}

theorem crewReport_none (h : s.reports[i]? = none) : crewReport i s = .ok () s := by
  unfold crewReport
  rw [m_bind_ok (m_get s), h]
  rfl

/-- Reports of one cluster arrive in order (R377). -/
theorem crewReport_waits (h : s.reports[i]? = some r) (ho : ∃ x ∈ s.reports.take i, x.cl = r.cl) : crewReport i s = .ok () s := by
  have hany : ((s.reports.take i).any fun x => x.cl == r.cl) = true := by
    obtain ⟨x, hx, hc⟩ := ho
    exact List.any_eq_true.2 ⟨x, hx, by simpa using hc⟩
  unfold crewReport
  rw [m_bind_ok (m_get s), h]
  dsimp only
  rw [if_pos hany]
  rfl

theorem crewReport_counts (h : s.reports[i]? = some r) (ho : ∀ x ∈ s.reports.take i, x.cl ≠ r.cl)
    (hp : refreshReady { s with
        reports := s.reports.eraseIdx i
        launches := s.launches.modify r.launch fun v => { v with
          insts := v.insts.insert (instKey r.card r.inst) .reported
          completed := v.completed + 1, residues := v.residues + if r.discarded = 0 then 0 else 1 } } = .ok () s1) :
    crewReport i s = .ok () s1 := by
  have hnone : ¬((s.reports.take i).any fun x => x.cl == r.cl) = true := fun hany => by
    obtain ⟨x, hx, hc⟩ := List.any_eq_true.1 hany
    exact ho x hx (by simpa using hc)
  unfold crewReport
  rw [m_bind_ok (m_get s), h]
  dsimp only
  rw [if_neg hnone]
  exact hp

end

/-! ##### Writes of a launch port -/

theorem launchPortWrite_early {offset : Nat} {data : List Byte} {s : State} (h : s.boot ≠ 0xFF#16) :
    exec (.launchPortWrite offset data) s = .next (s.bump 17 1) := by
  dsimp only [exec, execLaunchPortWrite]
  rw [if_pos (by simpa [isUp] using h)]
  rfl

theorem launchPortWrite_stray {offset : Nat} {data : List Byte} {s : State} (h : s.boot = 0xFF#16)
    (hx : s.contexts.find? (offset / 4096) = none) : exec (.launchPortWrite offset data) s = .next (s.bump 16 1) := by
  dsimp only [exec, execLaunchPortWrite]
  rw [if_neg (by simp [isUp, h]), hx]
  rfl

theorem launchPortWrite_arrives {offset : Nat} {data : List Byte} {s : State} {v : Context} (h : s.boot = 0xFF#16)
    (hx : s.contexts.find? (offset / 4096) = some v) :
    exec (.launchPortWrite offset data) s = .next (
      if offset % 4096 ≠ 0 ∨ data.length ≠ 64 then s.setContext (offset / 4096) { v with launchDrop := v.launchDrop + 1 }
      else if 64 ≤ v.port.length then s
      else s.setContext (offset / 4096)
        { v with port := v.port ++ [{ record := data, origin := .host (releaseIds (s.view .host)) }] }) := by
  dsimp only [exec, execLaunchPortWrite]
  rw [if_neg (by simp [isUp, h]), hx]
  simp only [Bool.or_eq_true, bne_iff_ne]

end Sys2Proof.Machine

open Sys2Proof Sys2Proof.Machine

/-- Settles O44: a clause each for the port, LAUNCH, acceptance, completion and the messages of gangs and crews. -/
theorem launchesAndGangs : Obligations.LaunchesAndGangs := by
  unfold Obligations.LaunchesAndGangs
  refine ⟨?port, ?launch, ?outcome, fun ctx s s1 s2 p rest hp => ⟨launchAccept_accepts hp, fun n => launchAccept_refuses hp⟩,
    accepting, makeLaunch_levelBad, sequencerAnswers, ?complete, ?arm, ?check, ?ack, ?timeout,
    fun id gang l members s s1 s2 => abortGang_ok, ?commit, fun m s s' s1 s2 id l => gangAbort_member, ?member, ?crew⟩
  case port =>
    intro offset data s i x
    refine ⟨launchPortWrite_early, fun h hx => launchPortWrite_stray h hx, fun v h hx => ?_⟩
    have harrives := launchPortWrite_arrives (data := data) h hx
    refine ⟨fun hbad => ?_, fun ho hd hfull => ?_, fun ho hd hroom => ?_⟩
    · rw [harrives, if_pos hbad]
    · rw [harrives, if_neg (by simp [ho, hd]), if_pos hfull]
    · rw [harrives, if_neg (by simp [ho, hd]), if_neg (by omega)]
  case launch =>
    intro o cl s c x g h hz hx hp hl
    obtain ⟨turn, taken, free⟩ := h
    have hrun := runCommand_atHead (g := g) (o := o) (n := { copy := true, block := true }) (body := blockBody 0x07 96 launchBody)
      (more := fun _ _ _ => return []) turn.unit rfl turn.head
    rw [turn.instr] at hrun
    refine hrun.trans (congrArg _ ?_)
    exact cmdTurn_continues turn ((blockBody_taken taken free).trans (launchBody_queues hz hx hp hl))
  case outcome =>
    intro o cl st s c g hu hh hi hlost hs
    have hrun := runCommand_atHead (g := g) (o := o) (n := { copy := true, block := true }) (body := blockBody 0x07 96 launchBody)
      (more := fun _ _ _ => return []) hu rfl hh
    rw [hi] at hrun
    exact hrun.trans (congrArg _ (cmdTurn_ends hlost hs))
  case complete =>
    intro id s s1 s2 s3 l hf hl
    exact ⟨launchComplete_waits hf hl, fun ho hg hr hs hp => launchComplete_replies hf hl ho hg hr hs hp,
      fun gang rank leader lctx done ho hg hp => launchComplete_reports hf hl ho hg hp⟩
  case arm =>
    intro m s s' s1 s2 h
    rw [gangArm_received h]
    exact ⟨fun ha hr => congrArg _ (runM_ok (arm_armed ha hr)), fun n ha he => congrArg _ (runM_ok (arm_refused ha he))⟩
  case check =>
    intro m s s1 id l
    refine ⟨armMember_torn, armMember_bad, fun hx ht hb h1 h8 => ?_⟩
    rw [armMember_checked hx ht hb h1 h8]
    exact ⟨fun hm => m_bind_ok hm, fun e hm => m_bind_err hm⟩
  case ack =>
    intro m s s' s1 id l members acks reports h hl hg hm
    rw [gangAcknowledge_received h]
    refine ⟨fun hs hall => ?_, fun hs hsome => ?_, fun hs hab => ?_⟩
    · rw [runM_ok (takeAck_counts hl hg hm hs), if_pos hall]
    · rw [runM_ok (takeAck_counts hl hg hm hs), if_neg hsome]
    · rw [runM_ok ((takeAck_refusal hl hg hm hs).trans hab)]
  case timeout =>
    intro s s1 id gang l members acks reports hf hg hl hab
    exact congrArg _ (runM_ok ((abortUncommitted_aborts hf hg hl).trans hab))
  case commit =>
    intro m s s' id l h hm
    refine ⟨_, gangCommit_member h hm, rfl, fun hh hheld w hw hin => ?_⟩
    exact publishHeld_publishes hheld hin s' ⟨w, hw, rfl, rfl⟩
  case member =>
    intro m s s' id l members acks reports committed h hl hg hm hr
    dsimp only [exec, execCompletionReport]
    rw [received_of_comes h]
    exact congrArg _ (memberReport_adds hl hg hm hr)
  case crew =>
    intro i s s1
    exact ⟨fun h => congrArg _ (runM_ok (crewReport_none h)), fun r h => ⟨fun ho => congrArg _ (runM_ok (crewReport_waits h ho)),
      fun ho hp => congrArg _ (runM_ok (crewReport_counts h ho hp))⟩⟩

end

/-! ### Contexts, crews and their commands (O47) -/

section
namespace Sys2Proof.Machine

/-! #### What a computation that completes has gone through -/

theorem ok_of_bind {α β : Type} {m : M α} {f : α → M β} {s t : State} {b : β} (h : (m >>= f) s = .ok b t) :
    ∃ a u, m s = .ok a u ∧ f a u = .ok b t := by
  rw [m_bind] at h
  cases hm : m s with
  | ok a u => exact ⟨a, u, rfl, by rwa [hm] at h⟩
  | error e u => rw [hm] at h; cases h

/-! #### What the hub and its reports keep -/

/-- The crews, the pools and which contexts stand in which partition are as they were. -/
structure Kept (s t : State) : Prop where
  crews : t.crews = s.crews
  partitions : t.partitions = s.partitions
  parts : ∀ x, (t.contexts.find? x).map (·.part) = (s.contexts.find? x).map (·.part)

section
variable {s t u : State}

theorem Kept.refl (s : State) : Kept s s := ⟨rfl, rfl, fun _ => rfl⟩

theorem Kept.trans (h : Kept s t) (k : Kept t u) : Kept s u :=
  ⟨k.crews.trans h.crews, k.partitions.trans h.partitions, fun x => (k.parts x).trans (h.parts x)⟩

theorem Kept.of_eq (hc : t.crews = s.crews) (hp : t.partitions = s.partitions) (hx : t.contexts = s.contexts) : Kept s t :=
  ⟨hc, hp, fun x => by rw [hx]⟩

/-- A context that changes, but for its partition. -/
theorem Kept.setContext (h : Kept s t) {x : Nat} {v : Context} (hv : (s.contexts.find? x).map (·.part) = some v.part) :
    Kept s (t.setContext x v) := by
  refine ⟨h.crews, h.partitions, fun y => ?_⟩
  by_cases hy : y = x
  · subst hy
    exact (congrArg _ (Tbl.find?_insert_same ..)).trans hv.symm
  · exact (congrArg _ (Tbl.find?_insert_other _ _ hy)).trans (h.parts y)

theorem Kept.signalled (h : Kept s t) (l : List Nat) : Kept s { t with msix := l } := ⟨h.crews, h.partitions, h.parts⟩

theorem Kept.crew (h : Kept s t) (c : Nat) : t.crew c = s.crew c := by
  unfold State.crew
  rw [h.crews]

theorem Kept.partition (h : Kept s t) (p : Nat) : t.partition p = s.partition p := by
  unfold State.partition
  rw [h.partitions]

theorem Kept.part (h : Kept s t) (x : Nat) : (t.context x).part = (s.context x).part := by
  have hx := h.parts x
  unfold State.context Tbl.getD
  cases ht : t.contexts.find? x <;> cases hs : s.contexts.find? x <;> simp_all

theorem Kept.torn (h : Kept s t) {x : Nat} (hx : s.contexts.find? x = none) : t.contexts.find? x = none := by
  simpa [hx] using h.parts x

end

/-- The state that is read has the property too. -/
theorem stays_get_bind {β : Type} {P : State → Prop} {f : State → M β} (hf : ∀ t, P t → Stays P (f t)) :
    Stays P (get >>= f) := fun t ht => by
  rw [m_bind_ok (m_get t)]
  exact hf t ht t ht

section
variable (s : State)

theorem keeps_pick (lo hi : Nat) : Stays (Kept s) (pick lo hi) :=
  stays_pick (fun _ _ h => h.trans (.of_eq rfl rfl rfl)) lo hi

theorem keeps_memoryUnit (mem : Option Nat) : Stays (Kept s) (memoryUnit mem) := by
  unfold memoryUnit
  repeat' first
    | with_reducible exact Stays.pure _ | with_reducible exact Stays.get | exact keeps_pick s _ _
    | (refine Stays.bind ?_ fun _ => ?_) | split | (dsimp only)

theorem keeps_countSector (cls sec : Nat) : Stays (Kept s) (countSector cls sec) :=
  (keeps_memoryUnit s _).bind fun _ => Stays.upd fun _ h => h.trans (.of_eq rfl rfl rfl)

theorem keeps_checkSector (k : Nat) : Stays (Kept s) (checkSector k) := by
  unfold checkSector
  repeat' first
    | exact Stays.pure _ | exact Stays.get | exact keeps_countSector s _ _
    | exact Stays.upd fun _ h => h.trans (.of_eq rfl rfl rfl)
    | (refine Stays.bind ?_ fun _ => ?_) | split

theorem keeps_checkCounted (l : List Nat) : Stays (Kept s) (checkCounted l) := by
  induction l with
  | nil => exact Stays.pure _
  | cons k l ih =>
    unfold checkCounted
    refine (keeps_checkSector s k).bind fun a => ?_
    split
    · exact (keeps_countSector s 3 k).bind fun _ => ih.bind fun _ => Stays.pure _
    · exact (Stays.pure _).bind fun _ => ih.bind fun _ => Stays.pure _

theorem keeps_readPublished (pa n : Nat) : Stays (Kept s) (readPublished pa n) := by
  unfold readPublished
  refine (keeps_checkCounted s _).bind fun ok => ?_
  split
  · exact Stays.pure _
  · exact Stays.get.bind fun _ => Stays.pure _

theorem keeps_walkFrom (va t depth : Nat) (l : List (Nat × Nat × Nat)) : Stays (Kept s) (walkFrom va t depth l) := by
  induction l generalizing t depth with
  | nil => exact Stays.pure _
  | cons e rest ih =>
    unfold walkFrom
    refine (keeps_readPublished s _ _).bind fun got => ?_
    split
    · exact Stays.pure _
    · dsimp only
      repeat' first | exact Stays.pure _ | exact ih _ _ | split

theorem keeps_walk (ctx level va : Nat) (write fetch : Bool) : Stays (Kept s) (walk ctx level va write fetch) := by
  unfold walk
  split
  · exact Stays.pure _
  · refine Stays.get.bind fun _ => (keeps_walkFrom s _ _ _ _).bind fun r => ?_
    repeat' first | exact Stays.pure _ | split

theorem keeps_hubParts (ctx : Nat) (write : Bool) (l : List (Nat × Nat)) : Stays (Kept s) (hubParts ctx write l) := by
  induction l with
  | nil => exact Stays.pure _
  | cons e l ih =>
    unfold hubParts
    refine (keeps_walk s _ _ _ _ _).bind fun w => ih.bind fun r => ?_
    repeat' first | exact Stays.pure _ | split

theorem keeps_hubWrite (pa : Nat) (bs : List Byte) (scope : Nat) : Stays (Kept s) (hubWrite pa bs scope) := by
  refine Stays.upd fun t ht => ?_
  generalize splitLines (bs.length / 1024 + 2) pa bs = l
  induction l generalizing t with
  | nil => exact ht
  | cons e l ih => exact ih _ (ht.trans (.of_eq rfl rfl rfl))

theorem keeps_hubWriteParts (scope : Nat) (l : List (Nat × Nat)) (bs : List Byte) :
    Stays (Kept s) (hubWriteParts scope l bs) := by
  induction l generalizing bs with
  | nil => exact Stays.pure _
  | cons e l ih => exact (keeps_hubWrite s _ _ _).bind fun _ => ih _

theorem keeps_hubStore (ctx va : Nat) (bs : List Byte) (scope : Nat) : Stays (Kept s) (hubStore ctx va bs scope) := by
  unfold hubStore
  refine (keeps_hubParts s _ _ _).bind fun p => ?_
  split
  · exact keeps_hubWriteParts s _ _ _
  · exact Stays.pure _

/-- An event changes its context's ring, never which partition the context stands in. -/
theorem keeps_event (ctx type cause crew addr info : Nat) : Stays (Kept s) (event ctx type cause crew addr info) := by
  unfold event
  refine stays_get_bind fun t ht => ?_
  cases hf : t.contexts.find? ctx with
  | none => exact Stays.pure _
  | some c =>
    have hc : (s.contexts.find? ctx).map (·.part) = some c.part := by rw [← ht.parts ctx, hf]; rfl
    dsimp only
    split
    · exact Stays.upd fun u hu => hu.setContext hc
    · refine (keeps_hubStore s _ _ _ _).bind fun _ => Stays.upd fun u hu => ?_
      have hset (h : Word) : Kept s (u.setContext ctx { c with evqHead := h }) := hu.setContext hc
      split
      · exact (hset _).signalled _
      · exact hset _

theorem keeps_moveReports (w : Withdrawal) (l : List Nat) : Stays (Kept s) (moveReports w l) := by
  induction l with
  | nil => exact Stays.pure _
  | cons x l ih =>
    simp only [moveReports]
    split
    · exact ih
    · exact (keeps_event s _ _ _ _ _ _).bind fun _ => ih

theorem keeps_reportWithdrawals (l : List Withdrawal) : Stays (Kept s) (reportWithdrawals l) := by
  induction l with
  | nil => exact Stays.pure _
  | cons w l ih => exact (keeps_moveReports s w _).bind fun _ => ih

theorem keeps_reportMoves : Stays (Kept s) reportMoves :=
  Stays.get.bind fun _ => (Stays.upd fun _ h => h.trans (.of_eq rfl rfl rfl)).bind fun _ => keeps_reportWithdrawals s _

end

/-! #### Cards that become ready -/

theorem enterPool_keeps (id y : Nat) (s : State) :
    (enterPool id y s).crews = s.crews ∧ (enterPool id y s).contexts = s.contexts := by
  unfold enterPool
  split <;> exact ⟨rfl, rfl⟩

theorem stays_enterAll (s : State) (n : Nat) (l : List (Nat × Nat)) :
    Stays (fun t => t.crews = s.crews ∧ t.contexts = s.contexts) (enterAll n l) := by
  induction n generalizing l with
  | zero => exact Stays.pure _
  | succ n ih =>
    cases l with
    | nil => exact Stays.pure _
    | cons e l =>
      unfold enterAll
      refine (stays_pick (fun _ _ h => h) _ _).bind fun i => ?_
      split
      · exact Stays.pure _
      · refine (Stays.upd fun t ht => ?_).bind fun _ => ih _
        obtain ⟨hc, hx⟩ := enterPool_keeps ‹Nat × Nat›.1 ‹Nat × Nat›.2 t
        exact ⟨hc.trans ht.1, hx.trans ht.2⟩

theorem stays_refreshReady (s : State) : Stays (fun t => t.crews = s.crews ∧ t.contexts = s.contexts) refreshReady := by
  unfold refreshReady
  exact Stays.get.bind fun _ => stays_enterAll s _ _

theorem refreshReady_keeps {s t : State} (h : refreshReady s = .ok () t) : t.crews = s.crews ∧ t.contexts = s.contexts :=
  (stays_refreshReady s).ok ⟨rfl, rfl⟩ h

/-! #### The end of a crew -/

/-- No crew and no report has changed, and no pin has come. -/
structure Quiet (s t : State) : Prop where
  crews : t.crews = s.crews
  reports : t.reports = s.reports
  pins : ∀ p ∈ t.pins, p ∈ s.pins

section
variable {s t u : State}

theorem Quiet.refl (s : State) : Quiet s s := ⟨rfl, rfl, fun _ h => h⟩

theorem Quiet.trans (h : Quiet s t) (k : Quiet t u) : Quiet s u :=
  ⟨k.crews.trans h.crews, k.reports.trans h.reports, fun p hp => h.pins p (k.pins p hp)⟩

theorem Quiet.of_eq (hc : t.crews = s.crews) (hr : t.reports = s.reports) (hp : t.pins = s.pins) : Quiet s t :=
  ⟨hc, hr, fun _ h => hp ▸ h⟩

theorem Quiet.crew (h : Quiet s t) (c : Nat) : t.crew c = s.crew c := by
  unfold State.crew
  rw [h.crews]

theorem Quiet.foldl {α : Type} {f : State → α → State} (hf : ∀ s a, Quiet s (f s a)) (l : List α) (s : State) :
    Quiet s (l.foldl f s) := by
  induction l generalizing s with
  | nil => exact .refl s
  | cons a l ih => exact (hf s a).trans (ih _)

end

theorem quiet_chargeTime (s : State) (cl : Nat) : Quiet s (chargeTime s cl) := by
  unfold chargeTime
  split <;> exact .of_eq rfl rfl rfl

theorem quiet_rotate (s : State) (cl : Nat) : Quiet s (rotate s cl) := by
  unfold rotate
  dsimp only
  split
  · exact (quiet_chargeTime s cl).trans (.of_eq rfl rfl rfl)
  · exact .refl s

theorem quiet_leave (s : State) (cl slot : Nat) : Quiet s (leave s cl slot) := by
  unfold leave
  dsimp only
  split
  · exact (quiet_rotate s cl).trans (quiet_chargeTime _ cl)
  · exact quiet_rotate s cl

theorem quiet_leaveSlot (s : State) (c : Nat) : Quiet s (leaveSlot s c) := by
  unfold leaveSlot
  dsimp only
  split
  · split
    · exact (quiet_leave s _ _).trans (.of_eq rfl rfl rfl)
    · exact .of_eq rfl rfl rfl
  · exact .refl s

theorem quiet_vacate (s : State) (c : Nat) : Quiet s (vacate s c) := by
  unfold vacate
  dsimp only
  split
  · exact (quiet_leaveSlot s c).trans (.of_eq rfl rfl rfl)
  · exact quiet_leaveSlot s c

theorem quiet_dropPins (s : State) (f : Pin → Bool) : Quiet s (dropPins s f) :=
  ⟨rfl, rfl, fun _ hp => (List.mem_filter.1 hp).1⟩

theorem quiet_send (s : State) (pkg : Nat) (m : CourseMsg) : Quiet s (send s pkg m) := by
  unfold send
  split <;> exact .of_eq rfl rfl rfl

theorem quiet_sendPacket (s : State) (x : Shuffle) (p : Packet) : Quiet s (sendPacket s x p) := by
  refine Quiet.foldl (fun s e => ?_) _ s
  split
  · exact quiet_send s _ _
  · exact .refl s

theorem quiet_quitShuffles (s : State) (f : Shuffle → Bool) : Quiet s (quitShuffles s f) := by
  refine Quiet.foldl (fun s e => ?_) _ s
  split
  · exact (quiet_sendPacket s _ _).trans (.of_eq rfl rfl rfl)
  · exact .refl s

theorem quiet_dropCmds (s : State) (f : Cmd → Bool) : Quiet s (dropCmds s f) := by
  have hdrop (s : State) (e : Nat × Nat) : Quiet s ((dropPins s fun p => p.owner == .cmd e.2).dropView (.cmd e.2)) :=
    (quiet_dropPins s _).trans (.of_eq rfl rfl rfl)
  unfold dropCmds
  refine Quiet.trans ?_ (quiet_quitShuffles _ _)
  refine Quiet.trans ?_ (Quiet.foldl hdrop _ _)
  exact .of_eq rfl rfl rfl

/-- The commands of a crew go, with their pins. -/
def shedCmds (k : Crew) (c : Nat) (s : State) : State :=
  dropPins (dropCmds s fun e => e.crew == some c)
    fun p => ((k.savedCE ++ k.savedIX).map fun e => PinOwner.cmd e.id).contains p.owner

/-- Its views go, its frame and its place in a pool. -/
def shedPlace (k : Crew) (c : Nat) (s : State) : State :=
  let s := (s.dropView (.half c)).dropView (.thread k.thread)
  let s := if (s.contexts.find? k.ctx).isSome then
      s.setContext k.ctx { s.context k.ctx with frames := (s.context k.ctx).frames.filter (· != k.frame) }
    else s
  { s with partitions := Tbl.mapVals (fun v => { v with pool := v.pool.filter fun p => p.crew != some c }) s.partitions }

theorem quiet_shedCmds (k : Crew) (c : Nat) (s : State) : Quiet s (shedCmds k c s) :=
  (quiet_dropCmds s _).trans (quiet_dropPins _ _)

theorem quiet_shedPlace (k : Crew) (c : Nat) (s : State) : Quiet s (shedPlace k c s) := by
  unfold shedPlace
  dsimp only
  split <;> exact .of_eq rfl rfl rfl

/-- A crew off its unit, its pins gone. -/
def unpinned (s : State) (c : Nat) : State := dropPins (vacate (settleMove s c true) c) fun p => p.owner == .crew c

theorem quiet_unpinned (s : State) (c : Nat) : Quiet s (unpinned s c) :=
  (Quiet.of_eq (s := s) (t := settleMove s c true) rfl rfl rfl).trans ((quiet_vacate _ c).trans (quiet_dropPins _ _))

theorem endCrew_gone {s : State} {c : Nat} (h : (s.crew c).stage = .gone) : endCrew s c = s := by
  unfold endCrew
  exact if_pos (by simp [h])

/-- A crew that ends holds no pin, no report is made of it, and it is the one crew that changes (R26, R216). -/
theorem endCrew_steps {s : State} {c : Nat} (h : (s.crew c).stage ≠ .gone) :
    ∃ u, Quiet s u ∧ (∀ p ∈ u.pins, p.owner ≠ .crew c) ∧ endCrew s c = u.setCrew c { s.crew c with stage := .gone } := by
  have hq := (quiet_shedCmds (s.crew c) c (unpinned s c)).trans (quiet_shedPlace (s.crew c) c _)
  refine ⟨shedPlace (s.crew c) c (shedCmds (s.crew c) c (unpinned s c)), (quiet_unpinned s c).trans hq, fun p hp => ?_, ?_⟩
  · simpa using (List.mem_filter.1 (hq.pins p hp)).2
  · unfold endCrew
    exact if_neg (by simpa using h)

theorem endCrew_crews {s : State} {c : Nat} (h : (s.crew c).stage ≠ .gone) :
    (endCrew s c).crews = s.crews.insert c { s.crew c with stage := .gone } := by
  obtain ⟨u, hq, -, hu⟩ := endCrew_steps h
  rw [hu, State.setCrew, hq.crews]

theorem endCrew_reports (s : State) (c : Nat) : (endCrew s c).reports = s.reports := by
  by_cases h : (s.crew c).stage = .gone
  · rw [endCrew_gone h]
  · obtain ⟨u, hq, -, hu⟩ := endCrew_steps h
    rw [hu]
    exact hq.reports

theorem endCrew_pins {s : State} {c : Nat} (h : (s.crew c).stage ≠ .gone) : ∀ p ∈ (endCrew s c).pins, p.owner ≠ .crew c := by
  obtain ⟨u, -, hp, hu⟩ := endCrew_steps h
  rw [hu]
  exact hp

theorem endCrew_stage (s : State) (c : Nat) : ((endCrew s c).crew c).stage = .gone := by
  by_cases h : (s.crew c).stage = .gone
  · rw [endCrew_gone h]
    exact h
  · unfold State.crew
    rw [endCrew_crews h, Tbl.getD_insert_same]

theorem endCrew_crew_other (s : State) {c d : Nat} (hd : d ≠ c) : (endCrew s c).crew d = s.crew d := by
  by_cases h : (s.crew c).stage = .gone
  · rw [endCrew_gone h]
  · unfold State.crew
    rw [endCrew_crews h, Tbl.getD_insert_other _ _ _ hd]

theorem endCrew_find? {s : State} {c d : Nat} {k : Crew} (h : (endCrew s c).crews.find? d = some k) :
    k.stage = .gone ∨ s.crews.find? d = some k := by
  by_cases hg : (s.crew c).stage = .gone
  · rw [endCrew_gone hg] at h
    exact .inr h
  · rw [endCrew_crews hg] at h
    by_cases hd : d = c
    · rw [hd, Tbl.find?_insert_same] at h
      cases h
      exact .inl rfl
    · rw [Tbl.find?_insert_other _ _ hd] at h
      exact .inr h

theorem endCrew_stage_kept {s : State} (c : Nat) {d : Nat} (h : (s.crew d).stage = .gone) :
    ((endCrew s c).crew d).stage = .gone := by
  by_cases hd : d = c
  · exact hd ▸ endCrew_stage s c
  · rw [endCrew_crew_other s hd]
    exact h

/-! ##### Several crews that end -/

theorem endCrews_stage_kept (l : List (Nat × Crew)) {s : State} {d : Nat} (h : (s.crew d).stage = .gone) :
    ((l.foldl (fun s e => endCrew s e.1) s).crew d).stage = .gone := by
  induction l generalizing s with
  | nil => exact h
  | cons e l ih => exact ih (endCrew_stage_kept e.1 h)

theorem endCrews_stage {l : List (Nat × Crew)} {e : Nat × Crew} (he : e ∈ l) (s : State) :
    ((l.foldl (fun s e => endCrew s e.1) s).crew e.1).stage = .gone := by
  induction l generalizing s with
  | nil => cases he
  | cons x l ih =>
    obtain rfl | he := List.mem_cons.1 he
    · exact endCrews_stage_kept l (endCrew_stage s e.1)
    · exact ih he _

theorem endCrews_find? {l : List (Nat × Crew)} {s : State} {d : Nat} {k : Crew}
    (h : (l.foldl (fun s e => endCrew s e.1) s).crews.find? d = some k) : k.stage = .gone ∨ s.crews.find? d = some k := by
  induction l generalizing s with
  | nil => exact .inr h
  | cons e l ih => exact (ih h).elim .inl endCrew_find?

/-- Every crew that a condition names has ended. -/
theorem endCrews_named (f : Nat × Crew → Bool) {s : State} {d : Nat} {k : Crew}
    (h : ((s.crews.filter fun e => f e && e.2.stage != .gone).foldl (fun s e => endCrew s e.1) s).crews.find? d = some k)
    (hf : f (d, k) = true) : k.stage = .gone := by
  obtain hg | hs := endCrews_find? h
  · exact hg
  · by_contra hk
    have hm : (d, k) ∈ s.crews.filter fun e => f e && e.2.stage != .gone :=
      List.mem_filter.2 ⟨Tbl.mem_of_find? hs, by simp [hf, hk]⟩
    have hgone := endCrews_stage hm s
    rw [State.crew, Tbl.getD, h] at hgone
    exact hk hgone

end Sys2Proof.Machine
end

section
/-! #### CTX_CREATE, CTX_TEAR and CREW_CMD, and O47 -/

namespace Sys2Proof.Machine

/-! ##### CTX_CREATE -/

theorem pick_bounds (lo hi : Nat) (h : lo ≤ hi) (s : State) : ∃ k t, pick lo hi s = .ok k t ∧ lo ≤ k ∧ k ≤ hi ∧
    t.contexts = s.contexts ∧ t.threads = s.threads := by
  unfold pick
  split
  · exact ⟨lo, s, rfl, le_refl _, h, rfl, rfl⟩
  · refine ⟨_, _, rfl, Nat.le_add_right _ _, ?_, rfl, rfl⟩
    have : Config.freeNat s.draws % (hi - lo + 1) < hi - lo + 1 := Nat.mod_lt _ (Nat.succ_pos _)
    omega

section
variable {t va : Nat} {s s1 : State} {b : List Byte}

/-- The result a thread reads after CTX_CREATE (R434). -/
def withResult (t id status : Nat) (s : State) : State :=
  s.setThread t { s.thread t with ctxResult := BitVec.ofNat 64 (id + status * 2 ^ 16) }

theorem thread_setThread (s : State) (t : Nat) (v : Thread) : (s.setThread t v).thread t = v := Tbl.getD_put_same ..

theorem withResult_result (t id status : Nat) (s : State) :
    ((withResult t id status s).thread t).ctxResult = BitVec.ofNat 64 (id + status * 2 ^ 16) := by
  rw [withResult, thread_setThread]

theorem createContext_creates (hr : threadRead t (lineParts 2 va 64) s = .ok b s1)
    (hl : ctxRefusals s1 (s1.context (s1.thread t).ctx).part b = []) :
    ∃ (v : Nat) (u : State), 1 ≤ v ∧ v ≤ 256 ∧ u.contexts = s1.contexts ∧ createContext t va s = .ok () (withResult t (fieldAt b 0 2) 1
      (u.setContext (fieldAt b 0 2) (ctxOfDesc (s1.context (s1.thread t).ctx).part b v))) := by
  obtain ⟨v, u, hv, h1, h256, hx, -⟩ := pick_bounds 1 256 (by omega) s1
  refine ⟨v, u, h1, h256, hx, ?_⟩
  unfold createContext
  rw [m_bind_ok hr, m_bind_ok (m_get s1)]
  dsimp only
  rw [hl]
  exact m_bind_ok hv

theorem createContext_refuses (hr : threadRead t (lineParts 2 va 64) s = .ok b s1)
    (hl : ctxRefusals s1 (s1.context (s1.thread t).ctx).part b ≠ []) :
    ∃ (st id : Nat) (u : State), st ∈ ctxRefusals s1 (s1.context (s1.thread t).ctx).part b ∧ u.contexts = s1.contexts ∧
      createContext t va s = .ok () (withResult t id st u) := by
  obtain ⟨i, u, hi, -, hle, hx, -⟩ := pick_bounds 0 ((ctxRefusals s1 (s1.context (s1.thread t).ctx).part b).length - 1)
    (Nat.zero_le _) s1
  obtain ⟨id, u', hid, -, -, hx', -⟩ := pick_bounds 0 0xFFFF (Nat.zero_le _) u
  have hlt : i < (ctxRefusals s1 (s1.context (s1.thread t).ctx).part b).length := by
    have := List.length_pos_iff.2 hl
    omega
  refine ⟨_, id, u', List.getElem_mem hlt, hx'.trans hx, ?_⟩
  unfold createContext
  rw [m_bind_ok hr, m_bind_ok (m_get s1)]
  dsimp only
  rw [← List.getD_eq_getElem _ 2 hlt]
  generalize ctxRefusals s1 (s1.context (s1.thread t).ctx).part b = l at hl hi ⊢
  cases l with
  | nil => exact absurd rfl hl
  | cons x l => exact (m_bind_ok hi).trans (m_bind_ok hid)

end

theorem mem_ctxRefusals (s : State) (part : Nat) (b : List Byte) : let l := ctxRefusals s part b
    (2 ∈ l ↔ ctxDescOk s part b = false) ∧ (3 ∈ l ↔ 256 ≤ s.contexts.length) ∧
    (4 ∈ l ↔ (s.contexts.find? (fieldAt b 0 2)).isSome = true) ∧ (5 ∈ l ↔ 65536 < sitqUsed s + fieldAt b 0x3C 4) := by
  have hadd (n m : Nat) (x : Bool) : n ∈ (if x = true then [m] else []) ↔ n = m ∧ x = true := by
    cases x <;> simp
  simp only [ctxRefusals, List.mem_append, hadd]
  simp

/-! ##### CTX_TEAR -/

/-- What a teardown takes away (R435). -/
def removed (ctx : Nat) (s : State) : State :=
  let s := (s.crews.filter fun e => e.2.ctx == ctx && e.2.stage != .gone).foldl (fun s e => endCrew s e.1) s
  let s := dropPins (dropCmds s fun c => c.ctx == ctx) fun p => p.ctx == ctx
  let s := (s.threads.filter fun e => e.2.ctx == ctx).foldl (fun s e => (s.setThread e.1 {}).dropView (.thread e.1)) s
  { s with
    partitions := Tbl.mapVals (fun v => { v with pool := v.pool.filter fun e => e.ctx != ctx }) s.partitions
    sit := s.sit.filter fun e => e.ctx != ctx
    tlb := (s.tlb.map fun e => (e.1, e.2.filter fun v => v.ctx != ctx)).filter fun e => !e.2.isEmpty
    contexts := s.contexts.erase ctx }

theorem removed_context (ctx : Nat) (s : State) : (removed ctx s).contexts.find? ctx = none := Tbl.find?_erase_same ..

theorem removed_crews {ctx : Nat} {s : State} {c : Nat} {k : Crew} (h : (removed ctx s).crews.find? c = some k)
    (hk : k.ctx = ctx) : k.stage = .gone := by
  have hthread (s : State) (e : Nat × Thread) : Quiet s ((s.setThread e.1 {}).dropView (.thread e.1)) := .of_eq rfl rfl rfl
  have hq (s : State) : Quiet s ((s.threads.filter fun e => e.2.ctx == ctx).foldl
      (fun s e => (s.setThread e.1 {}).dropView (.thread e.1)) s) := Quiet.foldl hthread _ _
  have hcrews : (removed ctx s).crews =
      ((s.crews.filter fun e => e.2.ctx == ctx && e.2.stage != .gone).foldl (fun s e => endCrew s e.1) s).crews :=
    ((quiet_dropCmds _ fun c => c.ctx == ctx).trans ((quiet_dropPins _ fun p => p.ctx == ctx).trans (hq _))).crews
  rw [hcrews] at h
  exact endCrews_named (fun e => e.2.ctx == ctx) h (by simp [hk])

/-- A teardown ends with its context gone, its event written and what became ready queued (R435). -/
theorem tearContext_steps {by_ ctx : Nat} {s t : State} (h : tearContext by_ ctx s = .ok () t) :
    ∃ u v w, event by_ 9 0 0 0 ctx (removed ctx u) = .ok () v ∧ reportMoves v = .ok () w ∧ refreshReady w = .ok () t := by
  unfold tearContext at h
  obtain ⟨_, _, _, h⟩ := ok_of_bind h
  obtain ⟨_, _, _, h⟩ := ok_of_bind h
  obtain ⟨_, _, _, h⟩ := ok_of_bind h
  obtain ⟨_, _, _, h⟩ := ok_of_bind h
  obtain ⟨_, _, _, h⟩ := ok_of_bind h
  obtain ⟨_, u, _, h⟩ := ok_of_bind h
  obtain ⟨_, u', hu, h⟩ := ok_of_bind h
  cases hu
  obtain ⟨_, v, hv, h⟩ := ok_of_bind h
  obtain ⟨_, w, hw, h⟩ := ok_of_bind h
  exact ⟨u, v, w, hv, hw, h⟩

theorem tearContext_ends {by_ ctx : Nat} {s t : State} (h : tearContext by_ ctx s = .ok () t) :
    t.contexts.find? ctx = none ∧ ∀ c k, t.crews.find? c = some k → k.ctx = ctx → k.stage = .gone := by
  obtain ⟨u, v, w, hv, hw, ht⟩ := tearContext_steps h
  have hkept := (keeps_reportMoves _).ok ((keeps_event _ by_ 9 0 0 0 ctx).ok (Kept.refl _) hv) hw
  obtain ⟨hcrews, hcontexts⟩ := refreshReady_keeps ht
  rw [hcrews, hcontexts, hkept.crews]
  exact ⟨hkept.torn (removed_context ctx u), fun c k => removed_crews⟩

/-! ##### Crew commands -/

theorem mem_of_crewNamed {s : State} {part handle c : Nat} (h : crewNamed s part handle = some c) :
    ∃ k, (c, k) ∈ s.crews ∧ k.stage ≠ .gone ∧ k.ctx = handle % 2 ^ 16 ∧ k.frame = handle / 2 ^ 16 % 2 ^ 16 ∧
      (s.context k.ctx).part = part := by
  obtain ⟨⟨d, k⟩, hf, rfl⟩ := Option.map_eq_some_iff.1 h
  have hk := List.find?_some hf
  simp only [Bool.and_eq_true, bne_iff_ne, beq_iff_eq] at hk
  obtain ⟨⟨⟨hs, hx⟩, hframe⟩, hp⟩ := hk
  exact ⟨k, List.mem_of_find?_eq_some hf, hs, hx, hframe, hp⟩

theorem commandCrew_none {s : State} {part handle op : Nat} (h : crewNamed s part handle = none) :
    commandCrew part handle op s = .ok () s := by
  unfold commandCrew
  rw [m_bind_ok (m_get s), h]
  rfl

theorem commandCrew_some {s : State} {part handle op c : Nat} (h : crewNamed s part handle = some c) :
    commandCrew part handle op s = crewCmd op c s := by
  unfold commandCrew
  rw [m_bind_ok (m_get s), h]

theorem crewCmd_resume {s : State} {c : Nat} (h : (s.crew c).stage = .suspended) : crewCmd 1 c s = resumeCrew c s := by
  unfold crewCmd
  rw [m_bind_ok (m_get s)]
  exact congrFun (if_pos (by simp [h])) s

theorem crewCmd_resume_other {s : State} {c : Nat} (h : (s.crew c).stage ≠ .suspended) : crewCmd 1 c s = .ok () s := by
  unfold crewCmd
  rw [m_bind_ok (m_get s)]
  exact congrFun (if_neg (by simpa using h)) s

theorem crewCmd_end {s s1 s2 : State} {c cause : Nat} (hp : pick 0 28 s = .ok cause s1) (hf : failCrew c cause s1 = .ok () s2) :
    crewCmd 2 c s = .ok () s2 := by
  unfold crewCmd
  rw [m_bind_ok (m_get s)]
  exact (m_bind_ok hp).trans hf

theorem crewCmd_suspend (s : State) (c : Nat) : crewCmd 3 c s = .ok () (requestHalt s c true 28) := rfl

theorem requestHalt_halts {s : State} {c cause : Nat} {suspend : Bool} (h : (s.crew c).stage = .resident)
    (hd : crewDone s c = false) : requestHalt s c suspend cause = haltCrew s c suspend cause := by
  unfold requestHalt
  exact if_pos (by simp [h, hd])

theorem requestHalt_other {s : State} {c cause : Nat} {suspend : Bool} (h : (s.crew c).stage ≠ .resident ∨ crewDone s c = true) :
    requestHalt s c suspend cause = s := by
  unfold requestHalt
  refine if_neg fun hh => ?_
  obtain ⟨hr, hd⟩ := Bool.and_eq_true_iff.1 hh
  obtain h | h := h
  · exact h (by simpa using hr)
  · simp [h] at hd

theorem endInstance_crews (s : State) (k : Crew) : (endInstance s k).crews = s.crews := by
  unfold endInstance
  split <;> rfl

theorem stopLaunch_crews (s : State) (l status : Nat) : (stopLaunch s l status).crews = s.crews := by
  unfold stopLaunch
  split <;> rfl

/-- A crew that fails has ended (R446). -/
theorem failCrew_stage {c cause : Nat} {s t : State} (h : failCrew c cause s = .ok () t) : (t.crew c).stage = .gone := by
  unfold failCrew at h
  obtain ⟨_, _, hs, h⟩ := ok_of_bind h
  cases hs
  obtain ⟨_, u, _, h⟩ := ok_of_bind h
  obtain ⟨_, v, hv, h⟩ := ok_of_bind h
  cases hv
  rw [((keeps_reportMoves _).ok (Kept.refl _) h).crew, State.crew, stopLaunch_crews, endInstance_crews]
  exact endCrew_stage u c

end Sys2Proof.Machine

open Sys2Proof Sys2Proof.Machine

/-- Settles O47: a teardown's crews by `removed_crews` and what the reports after it keep. -/
theorem contextsAndCrewCommands : Obligations.ContextsAndCrewCommands := by
  unfold Obligations.ContextsAndCrewCommands
  refine ⟨?level, ?create, mem_ctxRefusals, ?tear, ?none, ?named⟩
  case level =>
    intro t va s h
    exact ⟨congrArg _ (if_neg (by simp [h])), fun x => congrArg _ (if_neg (by simp [h]))⟩
  case create =>
    intro t va s s1 b h hr part id
    have hexec {u : State} (hu : createContext t (va % 2 ^ 64) s = .ok () u) : exec (.ctxCreate t va) s = .next u :=
      congrArg _ ((if_pos h).trans (runM_ok hu))
    refine ⟨fun hl => ?_, fun hl => ?_⟩
    · obtain ⟨v, u, h1, h256, hx, hu⟩ := createContext_creates hr hl
      refine ⟨_, v, hexec hu, h1, h256, Tbl.find?_insert_same .., fun x hne => ?_, ?_⟩
      · exact (Tbl.find?_insert_other _ _ hne).trans (by rw [hx])
      · rw [withResult_result, Nat.one_mul]
    · obtain ⟨st, i, u, hst, hx, hu⟩ := createContext_refuses hr hl
      exact ⟨_, st, i, hexec hu, hx, hst, withResult_result ..⟩
  case tear =>
    intro t x s h by_
    have hexec {u : State} (hu : tear by_ x s = .ok () u) : exec (.ctxTear t x) s = .next u :=
      congrArg _ ((if_pos h).trans (runM_ok hu))
    refine ⟨fun hx => hexec ?_, fun v hx hp => hexec ?_, fun v s1 hx hp ht => ⟨hexec ?_, tearContext_ends ht⟩⟩
    all_goals
      unfold tear
      rw [m_bind_ok (m_get s), hx]
      dsimp only
    · rfl
    · rw [if_neg hp]
      rfl
    · rw [if_pos hp]
      exact ht
  case none =>
    intro part handle s h
    exact ⟨congrArg _ (runM_ok (commandCrew_none h)), congrArg _ (runM_ok (commandCrew_none h)),
      congrArg _ (runM_ok (commandCrew_none h))⟩
  case named =>
    intro part handle c s s1 s2 h
    refine ⟨mem_of_crewNamed h, fun hs => ?_, fun hs hr => ?_, fun cause hp hf => ⟨?_, failCrew_stage hf⟩, fun hs hd => ?_,
      fun ho => ?_⟩
    all_goals refine congrArg _ (runM_ok ((commandCrew_some h).trans ?_))
    · exact crewCmd_resume_other hs
    · exact (crewCmd_resume hs).trans hr
    · exact crewCmd_end hp hf
    · rw [crewCmd_suspend, requestHalt_halts hs hd]
    · rw [crewCmd_suspend, requestHalt_other ho]

end

/-! ### Scheduling of crews (O46) -/

section
namespace Sys2Proof.Machine

/-! #### Dispatch -/

section
variable {p : Placement} {s s1 s2 : State} {e : PoolEntry}

/-- The conditions on which an entry is dispatched where a turn of dispatch says (R438). -/
def dispatches (s : State) (p : Placement) (e : PoolEntry) : Bool :=
  isNext s p.part p.index && fitsOn s p.part (needOf s e) p.cluster && threadFits s p.part (p.cluster / 16) p.thread

theorem dispatchEntry_keeps (he : (s.partition p.part).pool[p.index]? = some e) (h : dispatches s p e = false) :
    dispatchEntry p s = .ok () s := by
  unfold dispatchEntry
  rw [m_bind_ok (m_get s), he]
  exact congrFun (if_neg (ne_true_of_eq_false h)) s

theorem dispatchEntry_restores {c : Nat} (he : (s.partition p.part).pool[p.index]? = some e) (h : dispatches s p e = true)
    (hc : e.crew = some c) : dispatchEntry p s = restoreCrew p.part p.index c p.cluster p.thread s := by
  unfold dispatchEntry
  rw [m_bind_ok (m_get s), he]
  refine (congrFun (if_pos h) s).trans ?_
  rw [hc]

theorem dispatchEntry_places {l : Launch} (he : (s.partition p.part).pool[p.index]? = some e) (h : dispatches s p e = true)
    (hc : e.crew = none) (hl : s.launches.find? e.launch = some l) :
    dispatchEntry p s = dispatchNode p.part p.index e l p.cluster p.thread s := by
  unfold dispatchEntry
  rw [m_bind_ok (m_get s), he]
  refine (congrFun (if_pos h) s).trans ?_
  rw [hc, hl]

theorem placeable_of_isNext {part i j : Nat} (h : isNext s part i = true) (hj : j < (s.partition part).pool.length) (hi : j ≠ i)
    (hb : takenBefore (s.partition part).pool j i = true) : placeable s part ((s.partition part).pool.getD j default) = false := by
  have hall := List.all_eq_true.1 h j (List.mem_range.2 hj)
  simpa [hi, hb] using hall

/-- A node with a TID that fails is refused (R80). -/
theorem dispatchNode_refuses {part i cl t : Nat} {l : Launch}
    (hb : anyDescBad e.ctx (l.cards.getD e.card default).feet s = .ok true s1)
    (hd : dispatchNode part i e l cl t s = .ok () s2) : s2 = stopLaunch s1 e.launch 33 := by
  unfold dispatchNode at hd
  rw [m_bind_ok hb, if_pos rfl] at hd
  cases hd
  rfl

end

/-! #### The state a crew begins in (R373) -/

/-- Register `r` of a half is given a number at its start. -/
def putReg (v : Scalar) (r n : Nat) : Scalar := v.write r (BitVec.ofNat 64 n)

/-- Nothing but registers has changed since the start, and all of them are full. -/
structure Fresh (v : Scalar) : Prop where
  full : ∀ r, v.isFull r = decide (r < 32)
  depth : v.depth = 0
  preds : v.preds = 1

theorem fresh_default : Fresh {} := by
  refine ⟨fun r => ?_, rfl, rfl⟩
  show (BitVec.allOnes 32).getLsbD r = _
  rw [BitVec.getLsbD_allOnes]

theorem Fresh.putReg {v : Scalar} (h : Fresh v) {r : Nat} (n : Nat) (hr : r < 32) : Fresh (putReg v r n) := by
  refine ⟨fun q => ?_, h.depth, h.preds⟩
  by_cases hq : q = r
  · subst hq
    exact (write_isFull v _ hr).trans (decide_eq_true hr).symm
  · exact (write_isFull_other v _ hq).trans (h.full q)

theorem putReg_reg (v : Scalar) (r n q : Nat) : (putReg v r n).reg q = if q = r then BitVec.ofNat 64 n else v.reg q := by
  by_cases hq : q = r
  · rw [if_pos hq, hq]
    exact write_reg v r _
  · rw [if_neg hq]
    exact write_reg_other v _ hq

/-- Declared TIDs stand in registers 4 on, from number `k`. -/
def putTids (v : Scalar) (tids : List Nat) (k : Nat) : Scalar :=
  ((tids.zipIdx k).map fun e => (e.2, e.1)).foldl (fun v e => putReg v (4 + e.1) e.2) v

theorem putTids_cons (v : Scalar) (n : Nat) (tids : List Nat) (k : Nat) :
    putTids v (n :: tids) k = putTids (putReg v (4 + k) n) tids (k + 1) := rfl

theorem Fresh.putTids {v : Scalar} (h : Fresh v) {tids : List Nat} {k : Nat} (hk : k + tids.length ≤ 8) :
    Fresh (putTids v tids k) := by
  induction tids generalizing v k with
  | nil => exact h
  | cons n tids ih =>
    rw [List.length_cons] at hk
    rw [putTids_cons]
    exact ih (h.putReg n (by omega)) (by omega)

theorem putTids_reg (v : Scalar) (tids : List Nat) (k q : Nat) : (putTids v tids k).reg q =
    if 4 + k ≤ q ∧ q < 4 + k + tids.length then BitVec.ofNat 64 (tids.getD (q - 4 - k) 0) else v.reg q := by
  induction tids generalizing v k with
  | nil => simp [putTids]
  | cons n tids ih =>
    rw [putTids_cons, ih, putReg_reg, List.length_cons]
    by_cases hq : q = 4 + k
    · subst hq
      simp
    · by_cases hin : 4 + k ≤ q ∧ q < 4 + k + (tids.length + 1)
      · obtain ⟨j, hj⟩ : ∃ j, q - 4 - k = j + 1 := ⟨q - 4 - k - 1, by omega⟩
        rw [if_pos (by omega), if_pos hin, hj, show q - 4 - (k + 1) = j by omega, List.getD_cons_succ]
      · rw [if_neg (by omega), if_neg hq, if_neg hin]

theorem startRegs_eq (m : Active) (entry : Word) : startRegs m entry =
    { putTids (putReg (putReg (putReg {} 1 m.inst) 2 m.arg) 3 m.card) m.tids 0 with pc := entry } := rfl

/-- What a half finds in its registers at its start (R373). -/
structure Starts (v : Scalar) (entry : Word) (inst arg card : Nat) (tids : List Nat) : Prop where
  pc : v.pc = entry
  fresh : Fresh v
  inst : v.reg 1 = BitVec.ofNat 64 inst
  arg : v.reg 2 = BitVec.ofNat 64 arg
  card : v.reg 3 = BitVec.ofNat 64 card
  tids : ∀ f < 8, v.reg (4 + f) = BitVec.ofNat 64 (tids.getD f 0)
  rest : ∀ r, r = 0 ∨ 12 ≤ r → v.reg r = 0

theorem startRegs_starts (m : Active) (entry : Word) (h : m.tids.length ≤ 8) :
    Starts (startRegs m entry) entry m.inst m.arg m.card m.tids := by
  have hfresh : Fresh (putTids (putReg (putReg (putReg {} 1 m.inst) 2 m.arg) 3 m.card) m.tids 0) :=
    (((fresh_default.putReg _ (by omega)).putReg _ (by omega)).putReg _ (by omega)).putTids (by omega)
  have hreg (q : Nat) : (startRegs m entry).reg q =
      (putTids (putReg (putReg (putReg {} 1 m.inst) 2 m.arg) 3 m.card) m.tids 0).reg q := rfl
  have hzero (q : Nat) : ({} : Scalar).reg q = 0 := rfl
  refine ⟨rfl, ⟨hfresh.full, hfresh.depth, hfresh.preds⟩, ?_, ?_, ?_, fun f hf => ?_, fun r hr => ?_⟩
  all_goals simp only [hreg, putTids_reg, putReg_reg, hzero]
  · simp
  · simp
  · simp
  · by_cases hl : f < m.tids.length
    · rw [if_pos (by omega), show 4 + f - 4 - 0 = f by omega]
    · rw [if_neg (by omega), if_neg (by omega), if_neg (by omega), if_neg (by omega), List.getD_eq_default _ _ (by omega)]
      rfl
  · rw [if_neg (by omega), if_neg (by omega), if_neg (by omega), if_neg (by omega)]

end Sys2Proof.Machine
end

section
/-! #### Starts, completion, quanta, ageing, pre-emption, saves, skip tokens and the watchdog, and O46 -/

namespace Sys2Proof.Machine

/-! ##### Starts (R23) -/

section
variable {c : Nat} {s : State}

theorem startClusterHalf_starts (hr : (s.crew c).stage = .resident) (hw : (s.crew c).smode = .waiting) :
    exec (.startClusterHalf c) s =
      .next (rouse (loopFaultNow c (s.setCrew c { s.crew c with smode := .running })) (s.crew c).cl) :=
  if_pos (by simp [hr, hw])

theorem startClusterHalf_other (h : (s.crew c).stage ≠ .resident ∨ (s.crew c).smode ≠ .waiting) :
    exec (.startClusterHalf c) s = .next s := by
  refine if_neg fun hh => ?_
  simp only [Bool.and_eq_true, beq_iff_eq] at hh
  exact h.elim (· hh.1) (· hh.2)

theorem startCoxThread_starts (hr : (s.crew c).stage = .resident) (hw : (s.crew c).startThread = true) :
    exec (.startCoxThread c) s = .next (s.setCrew c { s.crew c with startThread := false }) :=
  if_pos (by simp [hr, hw])

theorem startCoxThread_other (h : (s.crew c).stage ≠ .resident ∨ (s.crew c).startThread = false) :
    exec (.startCoxThread c) s = .next s := by
  refine if_neg fun hh => ?_
  simp only [Bool.and_eq_true, beq_iff_eq] at hh
  exact h.elim (· hh.1) (ne_true_of_eq_false · hh.2)

end

/-! ##### Completion (R26) -/

/-- The conditions on which a crew completes (R26). -/
def CrewOver (s : State) (c : Nat) : Prop :=
  (s.crew c).stage = .resident ∧ (s.crew c).smode = .stopped ∧ (s.crew c).vq = [] ∧ (s.crew c).mq = [] ∧ (s.crew c).lq = [] ∧
    (s.crew c).wq = [] ∧ crewCmds s c = false ∧ (s.thread (s.crew c).thread).mode = .returned ∧
    ∀ e ∈ (s.crew c).sections, e.2.retired = true

theorem crewDone_iff (s : State) (c : Nat) : crewDone s c = true ↔ CrewOver s c := by
  simp only [crewDone, CrewOver, Bool.and_eq_true, beq_iff_eq, List.isEmpty_iff, Bool.not_eq_true', List.all_eq_true, and_assoc]

theorem quiet_publishAs (s : State) (a b : Agent) (scope : Nat) (ids : List Nat) : Quiet s (publishAs s a b scope ids) := by
  unfold publishAs
  dsimp only
  split <;> exact .of_eq rfl rfl rfl

theorem quiet_publishIds (s : State) (a : Agent) (scope : Nat) (ids : List Nat) : Quiet s (publishIds s a scope ids) :=
  quiet_publishAs s a a scope ids

theorem quiet_releaseNames (s : State) (a : Agent) (scope : Nat) (ids : List Nat) : Quiet s (releaseNames s a scope ids) := by
  unfold releaseNames
  dsimp only
  split
  · split
    · exact (quiet_publishIds s a 4 ids).trans (.of_eq rfl rfl rfl)
    · exact quiet_publishIds s a 4 ids
  · exact quiet_publishIds s a scope ids

/-- The crew's last releases (R116). -/
def lastReleases (s : State) (c : Nat) : State :=
  let scope := launchScope (s.launches.getD (s.crew c).launch default)
  finalRelease (.thread (s.crew c).thread) scope (finalRelease (.half c) scope s)

theorem quiet_lastReleases (s : State) (c : Nat) : Quiet s (lastReleases s c) :=
  (quiet_releaseNames s _ _ _).trans (quiet_releaseNames _ _ _ _)

theorem crewComplete_over {s : State} {c : Nat} (h : CrewOver s c) : ∃ t, exec (.crewComplete c) s = .next t ∧
    (t.crew c).stage = .gone ∧
    t.reports = s.reports ++ [{ launch := (s.crew c).launch, card := (s.crew c).card, inst := (s.crew c).inst, cl := (s.crew c).cl
                                discarded := (s.crew c).queues.foldl (fun n e => n + e.2.occ) 0, seq := c }] ∧
    ∀ p ∈ t.pins, p.owner ≠ .crew c := by
  have hq := quiet_lastReleases s c
  have hlive : ((lastReleases s c).crew c).stage ≠ .gone := by
    rw [hq.crew, h.1]
    simp
  refine ⟨completeCrew c s, congrArg _ (if_pos ((crewDone_iff s c).2 h)), endCrew_stage (lastReleases s c) c, ?_,
    endCrew_pins hlive⟩
  exact congrArg (· ++ _) ((endCrew_reports (lastReleases s c) c).trans hq.reports)

theorem crewComplete_other {s : State} {c : Nat} (h : ¬CrewOver s c) : exec (.crewComplete c) s = .next s :=
  congrArg _ (if_neg fun hd => h ((crewDone_iff s c).1 hd))

/-! ##### Quanta (R441) -/

section
variable {cl c : Nat} {s : State}

theorem quantum_idle (h : s.activeCrew cl = none) : quantum cl s = s := by
  unfold quantum
  rw [h]

theorem quantum_active (h : s.activeCrew cl = some c) (hr : (s.crew c).stage = .resident) : quantum cl s =
    if (rotate s cl).activeCrew cl != some c then rotate s cl
    else ((unitWanted s cl c).map fun i => preempt (promise (s.context (s.crew c).ctx).part i s) c).getD s := by
  unfold quantum
  rw [h]
  dsimp only
  rw [if_neg (by simp [hr])]
  cases unitWanted s cl c <;> rfl

end

/-! ##### Ageing (R438) -/

section
variable {part i : Nat} {s : State} {e : PoolEntry}

theorem partition_setPartition (s : State) (p : Nat) (v : Partition) : (s.setPartition p v).partition p = v :=
  Tbl.getD_insert_same ..

theorem age_ceiling (he : (s.partition part).pool[i]? = some e) (h : (s.context e.ctx).prioCeil.toNat ≤ e.level) :
    age part i s = s := by
  unfold age
  dsimp only
  rw [he]
  exact if_neg (Nat.not_lt.2 h)

/-- The pool in which an entry has risen a level and waits anew. -/
def risen (part i : Nat) (e : PoolEntry) (s : State) : State :=
  s.setPartition part { s.partition part with pool := (s.partition part).pool.eraseIdx i ++ [{ e with level := e.level + 1 }] }

theorem age_rises (he : (s.partition part).pool[i]? = some e) (h : e.level < (s.context e.ctx).prioCeil.toNat) :
    (∀ c, e.crew = some c → age part i s = (risen part i e s).setCrew c { s.crew c with level := e.level + 1 }) ∧
    (e.crew = none → age part i s = risen part i e s) := by
  unfold age
  dsimp only
  rw [he]
  dsimp only
  rw [if_pos h]
  refine ⟨fun c hc => ?_, fun hc => ?_⟩ <;> split <;> rename_i hd
  · obtain rfl := Option.some.inj (hc.symm.trans hd)
    rfl
  · cases hc.symm.trans hd
  · cases hc.symm.trans hd
  · rfl

theorem ageing_rises (he : (s.partition part).pool[i]? = some e) (h : e.level < (s.context e.ctx).prioCeil.toNat) :
    ∃ t, exec (.ageing part i) s = .next t ∧
      (t.partition part).pool = (s.partition part).pool.eraseIdx i ++ [{ e with level := e.level + 1 }] ∧
      (∀ c, e.crew = some c → t.crew c = { s.crew c with level := e.level + 1 }) ∧
      (∀ c, e.crew ≠ some c → t.crew c = s.crew c) := by
  obtain ⟨hsome, hnone⟩ := age_rises he h
  have hpool : ((risen part i e s).partition part).pool = (s.partition part).pool.eraseIdx i ++ [{ e with level := e.level + 1 }] := by
    rw [risen, partition_setPartition]
  have hexec {u : State} (hu : age part i s = u) : exec (.ageing part i) s = .next u := congrArg _ hu
  obtain hc | ⟨d, hc⟩ := Option.eq_none_or_eq_some e.crew
  · refine ⟨_, hexec (hnone hc), hpool, fun c hd => ?_, fun c _ => rfl⟩
    cases hc.symm.trans hd
  · refine ⟨_, hexec (hsome d hc), hpool, fun c hd => ?_, fun c hd => ?_⟩
    · obtain rfl := Option.some.inj (hc.symm.trans hd)
      exact State.crew_setCrew ..
    · exact Tbl.getD_insert_other _ _ _ fun h => hd (h ▸ hc)

end

/-! ##### Pre-emption (R441) -/

/-- A crew that an entry of level `p` pre-empts: resident in the partition, below the level, and of the lowest such crews the
last dispatched. -/
def Victim (s : State) (part c p : Nat) : Prop :=
  (s.crew c).level < p ∧ ((s.crew c).stage = .resident ∧ (s.context (s.crew c).ctx).part = part) ∧
    ∀ e ∈ s.crews, e.2.stage = .resident ∧ (s.context e.2.ctx).part = part →
      (s.crew c).level < e.2.level ∨ (e.2.level = (s.crew c).level ∧ e.2.order ≤ (s.crew c).order)

theorem isVictim_iff (s : State) (part c p : Nat) : isVictim s part p c = true ↔ Victim s part c p := by
  simp only [isVictim, Victim, Bool.and_eq_true, Bool.or_eq_true, decide_eq_true_eq, beq_iff_eq, List.all_eq_true,
    Bool.not_eq_true', ← Bool.not_eq_true, or_assoc, and_assoc, imp_iff_not_or]

theorem preempted_iff (s : State) (c : Nat) : preempted s c = true ↔
    ∃ e ∈ (s.partition (s.context (s.crew c).ctx).part).pool,
      placeable s (s.context (s.crew c).ctx).part e = false ∧ Victim s (s.context (s.crew c).ctx).part c e.level := by
  simp only [preempted, List.any_eq_true, Bool.and_eq_true, Bool.not_eq_true', isVictim_iff]

/-! ##### Skip tokens (R149) -/

section
variable {c : Nat} {s : State} {w : Word} {late : Bool} {rest : List (Word × Bool)}

theorem pushWaits_iff (k : Crew) : pushWaits k = true ↔ k.atBrq = true ∧ k.sc.stalled = true ∧ k.smode = .running := by
  simp only [pushWaits, Bool.and_eq_true, beq_iff_eq, and_assoc]

theorem skipToken_dropped (ht : (s.crew c).skipToks = (w, late) :: rest) (hb : branchQueue (s.crew c) = none) :
    exec (.skipToken c) s = .next (s.setCrew c { s.crew c with skipToks := rest }) := by
  dsimp only [exec, execSkipToken]
  rw [ht]
  dsimp only
  rw [hb]

theorem skipToken_arrives {q : Nat} (ht : (s.crew c).skipToks = (w, late) :: rest) (hb : branchQueue (s.crew c) = some q) :
    exec (.skipToken c) s =
      if (((s.crew c).queues.getD q {}).isFull && !((s.crew c).queues.getD q {}).skip) || (late && pushWaits (s.crew c)) then .next s
      else .next (s.setCrew c { s.crew c with
        skipToks := rest, queues := (s.crew c).queues.put q (((s.crew c).queues.getD q {}).arrive (tokenEntry w)) {} }) := by
  dsimp only [exec, execSkipToken]
  rw [ht]
  dsimp only
  rw [hb]

theorem arrive_plain {v : Queue} (hs : v.skip = false) (hw : v.whole = false) (e : QEntry) :
    (v.arrive e).entries = v.entries ++ [e] := by
  unfold Queue.arrive
  rw [hs, hw]
  rfl

end

/-! ##### The watchdog (R448) -/

section
variable {w : Owner} {s s1 : State} {pa v scope va : Nat}

/-- The handle a stall is reported with: that of the owner's crew. -/
def stallHandle (s : State) (w : Owner) : Nat :=
  match crewOf s w with
  | some c => handleOf (s.crew c)
  | none => 0

theorem watchdog_off (h : (s.context (ctxOf s w)).wdog = 0) : watchdog w s = .ok () s := by
  unfold watchdog
  rw [m_bind_ok (m_get s), if_pos (by simp [h])]
  rfl

theorem watchdog_thread {t : Nat} (h : (s.context (ctxOf s (.thread t))).wdog ≠ 0)
    (hp : parkedAt s (.thread t) = some (pa, v, scope, va)) : watchdog (.thread t) s =
      (if !(s.thread t).reported then do
        event (ctxOf s (.thread t)) 4 0 (stallHandle s (.thread t)) va v
        upd fun s => s.setThread t { s.thread t with reported := true } else pure ()) s := by
  unfold watchdog
  rw [m_bind_ok (m_get s), if_neg (by simpa using h)]
  dsimp only
  rw [hp]
  rfl

theorem watchdog_crew {c : Nat} (h : (s.context (ctxOf s (.crew c))).wdog ≠ 0)
    (hp : parkedAt s (.crew c) = some (pa, v, scope, va)) (hr : (s.crew c).reported = false) : watchdog (.crew c) s =
      (do
        event (ctxOf s (.crew c)) 4 0 (stallHandle s (.crew c)) va v
        upd fun s => s.setCrew c { s.crew c with reported := true } : M Unit) s := by
  unfold watchdog
  rw [m_bind_ok (m_get s), if_neg (by simpa using h)]
  dsimp only
  rw [hp, hr]
  rfl

end

end Sys2Proof.Machine
end

section
/-! #### Saves, and O46 -/

namespace Sys2Proof.Machine

/-! ##### Saves (R442) -/

theorem keeps_freeBytes (s : State) (n : Nat) : Stays (Kept s) (freeBytes n) := fun _ h => h.trans (.of_eq rfl rfl rfl)

theorem keeps_writeHeader (s : State) (ctx addr : Nat) : Stays (Kept s) (writeHeader ctx addr) :=
  (keeps_freeBytes s _).bind fun _ => keeps_hubStore s _ _ _ _

theorem keeps_storeFrame (s : State) (ctx addr : Nat) (k : Crew) : Stays (Kept s) (storeFrame ctx addr k) := by
  unfold storeFrame
  -- where the parts of the frame stand is of no matter, and unification would unfold the sums
  generalize addr + 0x200 = first
  generalize addr + 0xA00 = second
  generalize addr + 0xBC0 = third
  exact (keeps_writeHeader s _ _).bind fun _ => (keeps_freeBytes s _).bind fun _ => (keeps_hubStore s _ _ _ _).bind fun _ =>
    (keeps_hubStore s _ _ _ _).bind fun _ => (keeps_freeBytes s _).bind fun _ => keeps_hubStore s _ _ _ _

/-- A crew whose state is off its unit is suspended, or waits in its partition's pool. -/
def saved (c : Nat) (k : Crew) (s : State) : State :=
  let s := s.setCrew c { s.crew c with stage := .evicted }
  s.setPartition (s.context k.ctx).part { s.partition (s.context k.ctx).part with
    pool := (s.partition (s.context k.ctx).part).pool ++ [{ crew := some c, ctx := k.ctx, level := k.level }] }

theorem saveDone_stores {c cause : Nat} {suspend : Bool} {s t : State} (hl : saveLost (s.crew c) = false)
    (h : saveDone c suspend cause s = .ok () t) : ∃ u v, storeFrame (u.crew c).ctx (frameAddr u c) (u.crew c) u = .ok () v ∧
      (suspend = true → ∃ w, event (u.crew c).ctx 6 cause (handleOf (u.crew c)) 0 cause
        (v.setCrew c { v.crew c with stage := .suspended }) = .ok () w ∧ reportMoves (settleMove w c false) = .ok () t) ∧
      (suspend = false → reportMoves (settleMove (saved c (u.crew c) v) c false) = .ok () t) := by
  unfold saveDone at h
  rw [m_bind_ok (m_get s)] at h
  rw [if_neg (ne_true_of_eq_false hl)] at h
  obtain ⟨_, _, _, h⟩ := ok_of_bind h
  obtain ⟨_, _, _, h⟩ := ok_of_bind h
  obtain ⟨_, u, _, h⟩ := ok_of_bind h
  rw [m_bind_ok (m_get u)] at h
  obtain ⟨_, v, hv, h⟩ := ok_of_bind h
  refine ⟨u, v, hv, fun hs => ?_, fun hs => ?_⟩
  · subst hs
    rw [if_pos rfl, m_bind_ok (m_upd _ v)] at h
    obtain ⟨_, w, hw, h⟩ := ok_of_bind h
    exact ⟨w, hw, h⟩
  · subst hs
    exact h

/-- A save that meets no lasting error ends with its crew suspended, or at the end of its partition's pool at the level it
held. -/
theorem saveDone_ends {c cause : Nat} {suspend : Bool} {s t : State} (hl : saveLost (s.crew c) = false)
    (h : saveDone c suspend cause s = .ok () t) :
    (suspend = true → (t.crew c).stage = .suspended) ∧
    (suspend = false → (t.crew c).stage = .evicted ∧
      ∃ l, (t.partition (t.context (t.crew c).ctx).part).pool =
        l ++ [{ crew := some c, ctx := (t.crew c).ctx, level := (t.crew c).level }]) := by
  obtain ⟨u, v, hv, hsuspend, hpool⟩ := saveDone_stores hl h
  have hmove (w : State) : Kept w (settleMove w c false) := .of_eq rfl rfl rfl
  refine ⟨fun hs => ?_, fun hs => ?_⟩
  · obtain ⟨w, hw, ht⟩ := hsuspend hs
    have hkept := (keeps_reportMoves _).ok (((keeps_event _ _ _ _ _ _ _).ok (Kept.refl _) hw).trans (hmove w)) ht
    rw [hkept.crew, State.crew_setCrew]
  · have hkept := (keeps_reportMoves _).ok (hmove _) (hpool hs)
    have hcrew : t.crew c = { u.crew c with stage := .evicted } := by
      have hstored := ((keeps_storeFrame u _ _ _).ok (Kept.refl u) hv).crew c
      rw [hkept.crew, ← hstored]
      exact State.crew_setCrew ..
    rw [hcrew]
    refine ⟨rfl, (v.partition (v.context (u.crew c).ctx).part).pool, ?_⟩
    rw [hkept.partition, hkept.part]
    exact congrArg _ (partition_setPartition ..)

end Sys2Proof.Machine

open Sys2Proof Sys2Proof.Machine

/-- Settles O46, a clause each for dispatch, the state a half begins in, completion, quanta, ageing, pre-emption, saves, skip
tokens and the watchdog. -/
theorem crewsAreScheduled : Obligations.CrewsAreScheduled := by
  unfold Obligations.CrewsAreScheduled
  refine ⟨?dispatch, fun part i s h j hj hi hb => placeable_of_isNext h hj hi hb,
    fun s s1 s2 part i cl t e l hb hd => dispatchNode_refuses hb hd, ?start,
    fun c s => ⟨fun h => startClusterHalf_starts h.1 h.2, startClusterHalf_other, fun h => startCoxThread_starts h.1 h.2,
      startCoxThread_other⟩,
    fun c s => ⟨crewComplete_other, crewComplete_over⟩, ?quantum, ?ageing, ?preempt, ?save, ?token, ?watchdog⟩
  case dispatch =>
    intro p s e he ok
    refine ⟨fun h => ?_, fun s1 c h hc hr => ?_, fun s1 l h hc hl hn => ?_⟩
    all_goals refine congrArg _ (runM_ok ?_)
    · exact dispatchEntry_keeps he h
    · exact (dispatchEntry_restores he h hc).trans hr
    · exact (dispatchEntry_places he h hc hl).trans hn
  case start =>
    intro s id l e cl slot t frame c starts k
    have hstarts (opc : Nat) (entry : Word) : starts (startRegs (startMessage opc id l e) entry) entry := by
      intro hf
      obtain ⟨hpc, ⟨hfull, hdepth, hpreds⟩, hinst, harg, hcard, htids, hrest⟩ :=
        startRegs_starts (startMessage opc id l e) entry (by rwa [← List.length_map] at hf)
      refine ⟨hpc, hdepth, hpreds, hfull, hinst, harg, hcard, fun f hf8 => ?_, hrest⟩
      rw [htids f hf8, List.getD_eq_getElem?_getD]
      exact congrArg (fun x => BitVec.ofNat 64 (x.getD 0)) List.getElem?_map
    exact ⟨hstarts 1 _, hstarts 2 _, fun n => rfl, rfl, fun f => rfl, rfl, rfl, rfl, rfl⟩
  case quantum =>
    intro cl s
    refine ⟨fun h => congrArg _ (quantum_idle h), fun c h hr => ?_⟩
    have hexec {t : State} (hq : quantum cl s = t) : exec (.quantumExpiry cl) s = .next t := congrArg _ hq
    refine ⟨fun ht => hexec ?_, fun ht hn => hexec ?_, fun i ht hw => hexec ?_⟩
    all_goals rw [quantum_active h hr]
    · exact if_pos (by simpa using ht)
    · rw [if_neg (by simp [ht]), hn]
      rfl
    · rw [if_neg (by simp [ht]), hw]
      rfl
  case ageing =>
    intro part i s e he
    exact ⟨fun h => congrArg _ (age_ceiling he h), ageing_rises he⟩
  case preempt =>
    intro c s part rival victim
    have hexec {t : State} (hp : (if preempted s c then preempt s c else s) = t) : exec (.preemption c) s = .next t :=
      congrArg _ hp
    refine ⟨fun hv => ?_, fun hn => hexec (if_neg fun hp => ?_)⟩
    · have hp := (preempted_iff s c).2 hv
      obtain ⟨e, -, -, -, ⟨hr, -⟩, -⟩ := hv
      exact ⟨fun hd => hexec ((if_pos hp).trans (requestHalt_halts hr hd)),
        fun hd => hexec ((if_pos hp).trans (requestHalt_other (.inr hd)))⟩
    · obtain ⟨e, he, hpl, hv⟩ := (preempted_iff s c).1 hp
      exact hn e he hpl hv
  case save =>
    intro c cause suspend s s1 hs hl hd
    refine ⟨?_, saveDone_ends hl hd⟩
    dsimp only [exec, execSaveComplete]
    rw [hs]
    exact congrArg _ (runM_ok hd)
  case token =>
    intro c s w late rest ht k
    refine ⟨skipToken_dropped ht, ?_⟩
    intro q hb v
    refine ⟨fun hf hs => ?_, fun hlate ha hst hm => ?_, fun hf hw => ?_, fun hs hw => arrive_plain hs hw⟩
    · rw [skipToken_arrives ht hb]
      exact if_pos (Bool.or_eq_true_iff.2 (.inl (Bool.and_eq_true_iff.2 ⟨hf, congrArg not hs⟩)))
    · rw [skipToken_arrives ht hb]
      exact if_pos (Bool.or_eq_true_iff.2 (.inr (Bool.and_eq_true_iff.2 ⟨hlate, (pushWaits_iff k).2 ⟨ha, hst, hm⟩⟩)))
    · rw [skipToken_arrives ht hb]
      refine if_neg fun hh => ?_
      obtain hfull | hlate := Bool.or_eq_true_iff.1 hh
      · exact ne_true_of_eq_false hf (Bool.and_eq_true_iff.1 hfull).1
      · obtain ⟨hlate, hpush⟩ := Bool.and_eq_true_iff.1 hlate
        obtain ⟨ha, hst, hm⟩ := (pushWaits_iff k).1 hpush
        exact hw.elim (ne_true_of_eq_false · hlate) (·.elim (ne_true_of_eq_false · ha) (·.elim (ne_true_of_eq_false · hst) (· hm)))
  case watchdog =>
    intro w s s1 pa v scope va h
    refine ⟨fun h0 => congrArg _ (runM_ok (watchdog_off h0)), ?_, ?_⟩
    · rintro t rfl h0 hp
      refine ⟨fun hr => congrArg _ (runM_ok ?_), fun hr he => congrArg _ (runM_ok ?_)⟩
      all_goals rw [watchdog_thread h0 hp, hr]
      · rfl
      · exact m_bind_ok he
    · rintro c rfl h0 hp hr he
      exact congrArg _ (runM_ok ((watchdog_crew h0 hp hr).trans (m_bind_ok he)))

end

/-! ### Operands of the vector unit: what a write of elements or words leaves (R168-R170, R244) -/

section
namespace Sys2Proof.Machine

/-! #### Places of an operand's words -/

theorem MatOp.at_injective (d : MatOp) : Function.Injective d.at := fun i j h => by
  unfold MatOp.at MatOp.place at h
  split at h <;> dsimp only at h <;> omega

/-! #### Elements of words -/

theorem elemsOf_length (w : Nat) (ws : List Nat) : (elemsOf w ws).length = 32 / w * ws.length := by
  simp [elemsOf, List.length_flatMap, Nat.mul_comm]

/-- Element i lies in word i / per, at place i % per (R169). -/
theorem elemsOf_getD {w : Nat} (hw : 0 < 32 / w) (ws : List Nat) (i : Nat) :
    (elemsOf w ws).getD i 0 = ws.getD (i / (32 / w)) 0 / 2 ^ (w * (i % (32 / w))) % 2 ^ w := by
  induction ws generalizing i with
  | nil => simp [elemsOf]
  | cons v ws ih =>
    have hcons : elemsOf w (v :: ws) = ((List.range (32 / w)).map fun j => v / 2 ^ (w * j) % 2 ^ w) ++ elemsOf w ws := rfl
    rw [hcons]
    by_cases hi : i < 32 / w
    · rw [List.getD_append _ _ _ _ (by simpa using hi), Nat.div_eq_of_lt hi, Nat.mod_eq_of_lt hi]
      simp [List.getD_eq_getElem?_getD, hi]
    · obtain ⟨k, rfl⟩ := Nat.exists_eq_add_of_le (Nat.le_of_not_lt hi)
      rw [List.getD_append_right _ _ _ _ (by simp), List.length_map, List.length_range, Nat.add_sub_cancel_left, ih,
        Nat.add_div_left _ hw, Nat.add_mod_left, List.getD_cons_succ]

/-- The words of an operand, after a change of words of the matrix registers. -/
theorem readWords_getD (k : Crew) (d : MatOp) {i : Nat} (hi : i < 32) :
    (readWords k d).getD i 0 = (k.m.getD (d.at i) 0).toNat := by
  simp [readWords, List.getD_eq_getElem?_getD, hi]

theorem readElems_getD (k : Crew) (d : MatOp) {w i : Nat} (hw : 0 < 32 / w) (hi : i / (32 / w) < 32) :
    (readElems k d w).getD i 0 = (k.m.getD (d.at (i / (32 / w))) 0).toNat / 2 ^ (w * (i % (32 / w))) % 2 ^ w := by
  rw [readElems, elemsOf_getD hw, readWords_getD k d hi]

theorem readElems_length (k : Crew) (d : MatOp) (w : Nat) : (readElems k d w).length = 32 / w * 32 := by
  simp [readElems, elemsOf_length, readWords]

/-- Elements of 32 bits are the words. -/
theorem readElems_word (k : Crew) (d : MatOp) : readElems k d 32 = readWords k d := by
  have hlen : (readWords k d).length = 32 := by simp [readWords]
  refine List.ext_getElem (by rw [readElems_length, hlen]) fun i hi _ => ?_
  rw [readElems_length] at hi
  have hi' : i < 32 := by omega
  have hword := readElems_getD k d (w := 32) (i := i) (by decide) (by simpa using hi')
  have hsame := readWords_getD k d hi'
  rw [List.getD_eq_getElem _ _ (by rw [readElems_length]; omega)] at hword
  rw [List.getD_eq_getElem _ _ (by omega)] at hsame
  rw [hword, hsame]
  simp [Nat.mod_one, Nat.mod_eq_of_lt (BitVec.isLt _)]

/-! #### A write of words -/

/-- A write of words changes only the places where a word is given. -/
theorem writeWords_other {d : MatOp} {x : Nat} (m : Tbl (BitVec 32)) (l : List (Option Nat)) (i : Nat)
    (hx : ∀ j, l.getD j none ≠ none → x ≠ d.at (i + j)) : (writeWords m d i l).find? x = m.find? x := by
  induction l generalizing m i with
  | nil => rfl
  | cons v l ih =>
    have htail (n : Tbl (BitVec 32)) : (writeWords n d (i + 1) l).find? x = n.find? x :=
      ih n (i + 1) fun j hj => by
        rw [Nat.add_assoc, Nat.add_comm 1]
        exact hx (j + 1) hj
    cases v with
    | none => exact htail m
    | some v => exact (htail _).trans (Tbl.find?_put_other _ _ _ (hx 0 nofun))

/-- A word of an operand after a write of words from word i on: the one given, or where none is, the one it held. -/
theorem writeWords_at {d : MatOp} (m : Tbl (BitVec 32)) (l : List (Option Nat)) (i : Nat) (hl : i + l.length ≤ 32) {j : Nat}
    (hj : j < l.length) :
    (writeWords m d i l).getD (d.at (i + j)) 0 = ((l.getD j none).map (BitVec.ofNat 32)).getD (m.getD (d.at (i + j)) 0) := by
  induction l generalizing m i j with
  | nil => simp at hj
  | cons v l ih =>
    rw [List.length_cons] at hl hj
    cases j with
    | zero =>
      have hhead (n : Tbl (BitVec 32)) : (writeWords n d (i + 1) l).getD (d.at i) 0 = n.getD (d.at i) 0 :=
        congrArg (Option.getD · 0) (writeWords_other n l (i + 1) fun j _ h => by
          have := d.at_injective h
          omega)
      cases v with
      | none => exact hhead m
      | some v => exact (hhead _).trans (Tbl.getD_put_same _ _ _ _)
    | succ j =>
      have htail (n : Tbl (BitVec 32)) := ih n (i + 1) (by omega) (j := j) (by omega)
      rw [show i + 1 + j = i + (j + 1) by omega] at htail
      cases v with
      | none => exact htail m
      | some v =>
        refine (htail _).trans ?_
        rw [Tbl.getD_put_other _ _ _ fun h => by have := d.at_injective h; omega]
        rfl

/-! #### A write of elements -/

/-- What an element given, or none, makes of an element. -/
def elemOr (w : Nat) (e : Option Nat) (old : Nat) : Nat :=
  match e with
  | some v => v % 2 ^ w
  | none => old

theorem packWord_cons (w old j : Nat) (e : Option Nat) (l : List (Option Nat)) : packWord w old j (e :: l) =
    elemOr w e (old / 2 ^ (w * j) % 2 ^ w) * 2 ^ (w * j) + packWord w old (j + 1) l := rfl

theorem packWord_dvd (w old j : Nat) (l : List (Option Nat)) : 2 ^ (w * j) ∣ packWord w old j l := by
  induction l generalizing j with
  | nil => exact Dvd.intro_left _ rfl
  | cons e l ih => exact Nat.dvd_add (Dvd.intro_left _ rfl) ((Nat.pow_dvd_pow 2 (by rw [Nat.mul_succ]; omega)).trans (ih (j + 1)))

/-- Element n of a word of which the elements from j on are replaced (R169). -/
theorem packWord_elem (w old : Nat) {j n : Nat} (hn : j ≤ n) (l : List (Option Nat)) :
    packWord w old j l / 2 ^ (w * n) % 2 ^ w = elemOr w (l.getD (n - j) none) (old / 2 ^ (w * n) % 2 ^ w) := by
  induction l generalizing j with
  | nil =>
    obtain ⟨k, rfl⟩ := Nat.exists_eq_add_of_le hn
    simp only [packWord, List.getD_nil, elemOr, Nat.mul_add, Nat.pow_add, ← Nat.div_div_eq_div_mul]
    rw [Nat.mul_div_cancel _ (Nat.two_pow_pos _)]
  | cons e l ih =>
    obtain ⟨q, hq⟩ := packWord_dvd w old (j + 1) l
    have hlt : elemOr w e (old / 2 ^ (w * j) % 2 ^ w) < 2 ^ w := by
      cases e <;> exact Nat.mod_lt _ (Nat.two_pow_pos _)
    rw [packWord_cons]
    obtain rfl | hlt' := Nat.eq_or_lt_of_le hn
    · rw [hq, Nat.mul_succ, Nat.pow_add, Nat.mul_assoc, Nat.mul_comm (elemOr ..), ← Nat.mul_add,
        Nat.mul_div_cancel_left _ (Nat.two_pow_pos _), Nat.add_mul_mod_self_left, Nat.mod_eq_of_lt hlt]
      simp
    · obtain ⟨k, rfl⟩ := Nat.exists_eq_add_of_lt hlt'
      have hdiv : (elemOr w e (old / 2 ^ (w * j) % 2 ^ w) * 2 ^ (w * j) + packWord w old (j + 1) l) / 2 ^ (w * (j + 1)) =
          packWord w old (j + 1) l / 2 ^ (w * (j + 1)) := by
        rw [hq, Nat.add_mul_div_left _ _ (Nat.two_pow_pos _), Nat.mul_div_cancel_left _ (Nat.two_pow_pos _),
          Nat.div_eq_of_lt, Nat.zero_add]
        rw [Nat.mul_succ, Nat.pow_add, Nat.mul_comm]
        exact Nat.mul_lt_mul_of_pos_left hlt (Nat.two_pow_pos _)
      have ih := ih (j := j + 1) (by omega)
      rw [show j + k + 1 = j + 1 + k by omega, Nat.add_sub_cancel_left] at ih
      rw [show j + k + 1 - j = k + 1 by omega, show j + k + 1 = j + 1 + k by omega, List.getD_cons_succ, ← ih]
      simp only [Nat.mul_add w (j + 1) k, Nat.pow_add 2 (w * (j + 1)), ← Nat.div_div_eq_div_mul, hdiv]

theorem groups_length (n : Nat) (k : Nat) (l : List (Option Nat)) : (groups n k l).length = k := by
  induction k generalizing l with
  | zero => rfl
  | succ k ih => simp [groups, ih]

theorem groups_getD (n : Nat) {k i : Nat} (hi : i < k) (l : List (Option Nat)) :
    (groups n k l).getD i [] = (l.drop (n * i)).take n := by
  induction k generalizing l i with
  | zero => omega
  | succ k ih =>
    cases i with
    | zero => simp [groups]
    | succ i =>
      rw [groups, List.getD_cons_succ, ih (by omega), List.drop_drop]
      congr 2
      rw [Nat.mul_succ]
      omega

/-- A width that divides a word. -/
structure DividesWord (w : Nat) : Prop where
  per : 0 < 32 / w
  whole : w * (32 / w) = 32

theorem dividesWord_vWidth (fmt : Nat) : DividesWord (vWidth fmt) := by
  unfold vWidth
  split
  · exact ⟨by decide, by decide⟩
  · split
    · exact ⟨by decide, by decide⟩
    · exact ⟨by decide, by decide⟩

theorem DividesWord.count {w : Nat} (hw : DividesWord w) : 1024 / w = 32 / w * 32 := by
  obtain ⟨hper, hwhole⟩ := hw
  have hw0 : 0 < w := Nat.pos_of_ne_zero fun h => by simp [h] at hwhole
  rw [Nat.div_eq_of_eq_mul_right hw0]
  rw [← Nat.mul_assoc, hwhole]

/-- An element of a word survives the truncation to 32 bits. -/
theorem DividesWord.elem_mod {w : Nat} (hw : DividesWord w) {i : Nat} (hi : i < 32 / w) (v : Nat) :
    v % 2 ^ 32 / 2 ^ (w * i) % 2 ^ w = v / 2 ^ (w * i) % 2 ^ w := by
  have hle : w * i + w ≤ 32 := by
    rw [← Nat.mul_succ]
    calc w * (i + 1) ≤ w * (32 / w) := Nat.mul_le_mul_left _ hi
      _ = 32 := hw.whole
  refine Nat.eq_of_testBit_eq fun j => ?_
  simp only [Nat.testBit_mod_two_pow, Nat.testBit_div_two_pow]
  by_cases hj : j < w
  · simp [hj, show j + w * i < 32 by omega]
  · simp [hj]

/-- The words a write of elements makes. -/
def elemWords (k : Crew) (d : MatOp) (w : Nat) (es : List (Option Nat)) : List (Option Nat) :=
  (groups (32 / w) 32 es).zipIdx.map fun p =>
    if p.1.all (·.isNone) then none else some (packWord w ((readWords k d).getD p.2 0) 0 p.1)

theorem writeElems_m (k : Crew) (d : MatOp) (w : Nat) (es : List (Option Nat)) :
    (writeElems k d w es).m = writeWords k.m d 0 (elemWords k d w es) := rfl

theorem elemWords_length (k : Crew) (d : MatOp) (w : Nat) (es : List (Option Nat)) : (elemWords k d w es).length = 32 := by
  simp [elemWords, groups_length]

theorem elemWords_getD (k : Crew) (d : MatOp) (w : Nat) (es : List (Option Nat)) {i : Nat} (hi : i < 32) :
    (elemWords k d w es).getD i none =
      if ((es.drop (32 / w * i)).take (32 / w)).all (·.isNone) then none
      else some (packWord w ((readWords k d).getD i 0) 0 ((es.drop (32 / w * i)).take (32 / w))) := by
  have hlen : i < (groups (32 / w) 32 es).length := by rwa [groups_length]
  rw [← groups_getD _ hi, List.getD_eq_getElem _ _ hlen, elemWords, List.getD_eq_getElem _ _ (by simpa using hlen),
    List.getElem_map, List.getElem_zipIdx]
  simp

/-- An element of an operand after a write of elements (R169). -/
theorem writeElems_elem (k : Crew) (d : MatOp) {w : Nat} (hw : DividesWord w) (es : List (Option Nat)) {i : Nat}
    (hi : i < 1024 / w) :
    (readElems (writeElems k d w es) d w).getD i 0 = elemOr w (es.getD i none) ((readElems k d w).getD i 0) := by
  have hword : i / (32 / w) < 32 := by
    rw [hw.count, Nat.mul_comm] at hi
    exact Nat.div_lt_of_lt_mul (by rwa [Nat.mul_comm])
  have hplace : i % (32 / w) < 32 / w := Nat.mod_lt _ hw.per
  have hgroup : ((es.drop (32 / w * (i / (32 / w)))).take (32 / w)).getD (i % (32 / w)) none = es.getD i none := by
    rw [List.getD_eq_getElem?_getD, List.getElem?_take, if_pos hplace, List.getElem?_drop, Nat.div_add_mod]
    simp [List.getD_eq_getElem?_getD]
  have hput := writeWords_at (d := d) k.m (elemWords k d w es) 0 (by simp [elemWords_length]) (j := i / (32 / w))
    (by rwa [elemWords_length])
  rw [Nat.zero_add, elemWords_getD k d w es hword] at hput
  rw [readElems_getD _ _ hw.per hword, readElems_getD _ _ hw.per hword, writeElems_m, hput]
  split
  · next hnone =>
    have hi : es.getD i none = none := by
      rw [← hgroup, List.getD_eq_getElem?_getD]
      cases hg : ((es.drop (32 / w * (i / (32 / w)))).take (32 / w))[i % (32 / w)]? with
      | none => rfl
      | some x => simpa using List.all_eq_true.1 hnone x (List.mem_of_getElem? hg)
    rw [hi]
    rfl
  · simp only [Option.map_some, Option.getD_some, BitVec.toNat_ofNat]
    rw [hw.elem_mod hplace, packWord_elem w _ (Nat.zero_le _), Nat.sub_zero, hgroup, readWords_getD k d hword]

/-- A write of elements changes only the words that hold one of them. -/
theorem writeElems_other (k : Crew) (d : MatOp) (w : Nat) (es : List (Option Nat)) {x : Nat}
    (hx : ∀ i < 32, 32 / w * i < es.length → x ≠ d.at i) : (writeElems k d w es).m.find? x = k.m.find? x :=
  writeWords_other k.m (elemWords k d w es) 0 fun j hj => by
    rw [Nat.zero_add]
    by_cases hlt : j < 32
    · refine hx j hlt (Nat.lt_of_not_le fun hle => hj ?_)
      rw [elemWords_getD k d w es hlt, List.drop_eq_nil_of_le hle, List.take_nil]
      rfl
    · exact absurd (List.getD_eq_default _ _ (by rw [elemWords_length]; omega)) hj

end Sys2Proof.Machine
end

/-! ### V instructions: what a turn that performs one leaves (R146, R147, R246, R247) -/

section
namespace Sys2Proof.Machine

/-! #### States that differ in one crew -/

/-- Nothing but one crew has changed, and that crew is this. -/
structure OnlyCrew (s t : State) (c : Nat) (k : Crew) : Prop where
  rest : { t with crews := s.crews } = s
  others : ∀ x, x ≠ c → t.crew x = s.crew x
  crew : t.crew c = k

theorem OnlyCrew.refl (s : State) (c : Nat) : OnlyCrew s s c (s.crew c) := ⟨rfl, fun _ _ => rfl, rfl⟩

theorem OnlyCrew.setCrew {s t : State} {c : Nat} {k : Crew} (h : OnlyCrew s t c k) (k' : Crew) :
    OnlyCrew s (t.setCrew c k') c k' :=
  ⟨h.rest, fun x hx => (State.crew_setCrew_other t k' hx).trans (h.others x hx), State.crew_setCrew t c k'⟩

theorem OnlyCrew.updEntry {s t : State} {c : Nat} {k : Crew} (h : OnlyCrew s t c k) (st name : Nat) (f : Entry → Entry) :
    OnlyCrew s (updEntry c st name f t) c
      (setStreamQueue k st ((streamQueue k st).map fun e => if e.name == name then f e else e)) := by
  have := h.setCrew (setStreamQueue (t.crew c) st ((streamQueue (t.crew c) st).map fun e => if e.name == name then f e else e))
  rw [h.crew] at this
  unfold Machine.updEntry
  rwa [h.crew]

/-! #### Tokens taken and pushed -/

theorem takeTokens_crew (k : Crew) (l : List Nat) : l.foldl takeToken k = { k with tokens := (l.foldl takeToken k).tokens } := by
  induction l generalizing k with
  | nil => rfl
  | cons f l ih => exact ih (takeToken k f)

theorem addTokens_crew (k : Crew) (l : List Nat) : l.foldl addToken k = { k with tokens := (l.foldl addToken k).tokens } := by
  induction l generalizing k with
  | nil => rfl
  | cons f l ih => exact ih (addToken k f)

theorem tokenCount_takeToken_other (k : Crew) {f g : Nat} (h : g ≠ f) : tokenCount (takeToken k f) g = tokenCount k g := by
  simp [tokenCount, takeToken, Tbl.getD_put_other _ _ _ h]

theorem tokenCount_takeTokens (k : Crew) {l : List Nat} (hl : l.Nodup) (g : Nat) :
    tokenCount (l.foldl takeToken k) g = tokenCount k g - if g ∈ l then 1 else 0 := by
  induction l generalizing k with
  | nil => simp
  | cons f l ih =>
    obtain ⟨hf, hl⟩ := List.nodup_cons.1 hl
    rw [List.foldl_cons, ih _ hl]
    by_cases hg : g = f
    · subst hg
      simp [hf]
    · simp [hg, tokenCount_takeToken_other k hg]

theorem pops_nodup (st tok : Nat) : (tokenFifos st tok).1.Nodup := by
  have hfour (l : List Nat) (hl : l ∈ [[1, 3, 0, 2], [5, 7, 4, 6], [0, 4, 1, 5], [2, 6, 3, 7]]) (x y : Bool) :
      ((if x then [l.getD 0 0] else []) ++ (if y then [l.getD 1 0] else [])).Nodup := by
    fin_cases hl <;> cases x <;> cases y <;> decide
  unfold tokenFifos
  dsimp only
  apply hfour
  split <;> simp

/-- The FIFOs that an instruction has still to pop. -/
def popsLeft (st tok : Nat) (e : Entry) : List Nat := if e.popped then [] else (tokenFifos st tok).1

theorem mem_popsLeft {st tok : Nat} {e : Entry} {f : Nat} :
    f ∈ popsLeft st tok e ↔ e.popped = false ∧ f ∈ (tokenFifos st tok).1 := by
  unfold popsLeft
  cases e.popped <;> simp

theorem popsLeft_nodup (st tok : Nat) (e : Entry) : (popsLeft st tok e).Nodup := by
  unfold popsLeft
  split
  · exact List.nodup_nil
  · exact pops_nodup st tok

/-- The FIFOs an instruction has still to pop all hold a token. -/
theorem popsLeft_ready {st tok : Nat} {e : Entry} {k : Crew}
    (h : e.popped = true ∨ ∀ f ∈ (tokenFifos st tok).1, tokenCount k f ≠ 0) :
    ¬((popsLeft st tok e).any fun f => tokenCount k f == 0) = true := fun hany => by
  obtain ⟨f, hf, h0⟩ := List.any_eq_true.1 hany
  obtain ⟨hp, hf⟩ := mem_popsLeft.1 hf
  exact h.elim (fun hp' => by simp [hp] at hp') fun h => h f hf (by simpa using h0)

/-! #### The turn of an entry of V -/

/-- The crew of a V instruction as its turn begins: its tokens taken. -/
def vCrew (k : Crew) (tok : Nat) (e : Entry) : Crew :=
  { k with
    tokens := ((popsLeft 2 tok e).foldl takeToken k).tokens
    vq := k.vq.map fun x => if x.name == e.name then { x with popped := true } else x }

/-- The state a V instruction's turn begins in. -/
def vBegun (s : State) (c tok : Nat) (e : Entry) : State :=
  updEntry c 2 e.name (fun e => { e with popped := true }) (s.setCrew c ((popsLeft 2 tok e).foldl takeToken (s.crew c)))

theorem vBegun_only (s : State) (c tok : Nat) (e : Entry) : OnlyCrew s (vBegun s c tok e) c (vCrew (s.crew c) tok e) := by
  have h := ((OnlyCrew.refl s c).setCrew ((popsLeft 2 tok e).foldl takeToken (s.crew c))).updEntry 2 e.name
    fun e => { e with popped := true }
  rw [takeTokens_crew] at h
  unfold vBegun
  rw [takeTokens_crew]
  exact h

@[simp] theorem vBegun_crew (s : State) (c tok : Nat) (e : Entry) : (vBegun s c tok e).crew c = vCrew (s.crew c) tok e :=
  (vBegun_only s c tok e).crew

section
variable {s s2 : State} {c tok : Nat} {e : Entry} {mmask : State → BitVec 16} {body : M Bool}

theorem runEntry_completes (h : Performs 2 tok s c e) (hb : body (vBegun s c tok e) = .ok true s2) :
    runEntry c 2 tok e mmask body s = finishEntry c 2 tok e s2 := by
  have hpop := popsLeft_ready h.pops
  unfold popsLeft at hpop
  unfold vBegun popsLeft at hb
  unfold runEntry
  dsimp only
  rw [h.going, if_neg Bool.false_ne_true, if_neg hpop, hb]

theorem runEntry_traps {x : Exc} (h : Performs 2 tok s c e)
    (hb : body (vBegun s c tok e) = .error (.trap x) (vBegun s c tok e)) :
    runEntry c 2 tok e mmask body s = raiseStream c 2 e x (mmask (vBegun s c tok e))
      (updEntry c 2 e.name (fun e => { e with stalled := false }) (vBegun s c tok e)) := by
  have hpop := popsLeft_ready h.pops
  unfold popsLeft at hpop
  unfold vBegun popsLeft at hb ⊢
  unfold runEntry
  dsimp only
  rw [h.going, if_neg Bool.false_ne_true, if_neg hpop, hb]
  rfl

end

/-! #### Its end -/

/-- With no write of a control register waiting on it, an entry leaves its queue and nothing else happens. -/
theorem settleCtl_quiet {k : Crew} {name : Nat} (h : ∀ w ∈ k.vwrites, w.1 ≠ name) : settleCtl k name = k := by
  have hnone : (k.vwrites.filter fun w => w.1 == name) = [] := List.filter_eq_nil_iff.2 fun w hw => by simpa using h w hw
  have hall : (k.vwrites.filter fun w => w.1 != name) = k.vwrites := List.filter_eq_self.2 fun w hw => by simpa using h w hw
  unfold settleCtl
  rw [hnone, hall]
  rfl

/-- The crew an instruction of V that has completed leaves. -/
def vFinished (k : Crew) (tok : Nat) (e : Entry) : Crew :=
  { k with
    tokens := ((tokenFifos 2 tok).2.foldl addToken k).tokens
    vq := k.vq.filter fun x => x.name != e.name
    idle := false }

theorem vFinished_eq (k : Crew) (tok : Nat) (e : Entry) : vFinished k tok e =
    { (tokenFifos 2 tok).2.foldl addToken k with
      vq := ((tokenFifos 2 tok).2.foldl addToken k).vq.filter fun x => x.name != e.name, idle := false } := by
  unfold vFinished
  generalize hk : (tokenFifos 2 tok).2.foldl addToken k = k'
  have hkept := addTokens_crew k (tokenFifos 2 tok).2
  rw [hk] at hkept
  generalize k'.tokens = tokens at hkept ⊢
  subst hkept
  rfl

theorem retire_quiet {s : State} {c name : Nat} (h : ∀ w ∈ (s.crew c).vwrites, w.1 ≠ name) :
    retire c 2 name s = s.setCrew c { s.crew c with vq := (s.crew c).vq.filter fun x => x.name != name, idle := false } := by
  generalize hk : s.crew c = k at h
  have hset : settleCtl (setStreamQueue k 2 (k.vq.filter fun x => x.name != name)) name = _ := settleCtl_quiet h
  have hret : retire c 2 name s = s.setCrew c
      { settleCtl (setStreamQueue (s.crew c) 2 ((streamQueue (s.crew c) 2).filter fun x => x.name != name)) name with
        idle := false } := rfl
  rw [hret, hk]
  exact congrArg (fun k => s.setCrew c { k with idle := false }) hset

theorem finishEntry_only {s s2 : State} {c tok : Nat} {e : Entry} {k : Crew} (hfresh : e.pushed = 0)
    (hroom : ∀ f ∈ (tokenFifos 2 tok).2, tokenCount k f < 8) (hquiet : ∀ w ∈ k.vwrites, w.1 ≠ e.name)
    (h : OnlyCrew s s2 c k) : OnlyCrew s (finishEntry c 2 tok e s2) c (vFinished k tok e) := by
  have hpush : pushTokens k ((tokenFifos 2 tok).2.takeWhile fun f => !([] : List Nat).contains f) =
      ((tokenFifos 2 tok).2.foldl addToken k, (tokenFifos 2 tok).2.length) :=
    pushTokens_owed k (List.append_nil _).symm (pushes_nodup 2 tok) (fun f hf => ⟨hroom f hf, by simp⟩) (by simp)
  have hfin : finishEntry c 2 tok e s2 = retire c 2 e.name (s2.setCrew c ((tokenFifos 2 tok).2.foldl addToken k)) := by
    simp only [finishEntry, h.crew, hfresh, List.drop_zero, hpush, lt_irrefl, if_false]
  rw [hfin, retire_quiet (by rw [State.crew_setCrew, addTokens_crew]; exact hquiet), State.crew_setCrew, vFinished_eq]
  exact (h.setCrew _).setCrew _

theorem addName_contains (l : List Nat) (n : Nat) : (addName l n).contains n = true := by
  unfold addName
  split
  · assumption
  · simp

/-- What a V instruction changes of its crew, but for its tokens, its place in the queue and the crew's idle mark. -/
structure VLeaves (s t : State) (c : Nat) (e : Entry) (tok : Nat) (k : Crew) : Prop where
  done : VDone s t c e tok
  m : (t.crew c).m = k.m
  w : (t.crew c).w = k.w
  scalar : (t.crew c).sc = k.sc
  queues : (t.crew c).queues = k.queues
  vstat : (t.crew c).vstat = k.vstat
  ctr : (t.crew c).rndCtr = k.rndCtr

/-- A crew with registers, masks, flags, the counter of stochastic rounding, queues and scalar registers of another. -/
def withResults (k r : Crew) : Crew :=
  { k with m := r.m, w := r.w, vstat := r.vstat, rndCtr := r.rndCtr, queues := r.queues, sc := r.sc }

theorem tokens_of_performs (k r : Crew) (tok : Nat) (e : Entry) (f : Nat) :
    tokenCount (vFinished (withResults (vCrew k tok e) r) tok e) f = tokenCount k f
      - (if e.popped = false ∧ f ∈ (tokenFifos 2 tok).1 then 1 else 0) + (if f ∈ (tokenFifos 2 tok).2 then 1 else 0) := by
  refine (tokenCount_addTokens (withResults (vCrew k tok e) r) (pushes_nodup 2 tok) f).trans ?_
  refine congrArg (· + _) ((tokenCount_takeTokens k (popsLeft_nodup 2 tok e) f).trans ?_)
  simp only [mem_popsLeft]

theorem kept_of_performs (k r : Crew) (tok : Nat) (e : Entry) :
    let f := vFinished (withResults (vCrew k tok e) r) tok e
    { f with
      m := k.m, w := k.w, vstat := k.vstat, rndCtr := k.rndCtr, tokens := k.tokens, vq := k.vq, idle := k.idle
      queues := k.queues, sc := k.sc } = k := rfl

theorem queue_of_performs (k r : Crew) (tok : Nat) (e : Entry) :
    (vFinished (withResults (vCrew k tok e) r) tok e).vq = k.vq.filter fun x => x.name != e.name := by
  change (k.vq.map _).filter _ = _
  rw [List.filter_map, List.map_congr_left (g := id), List.map_id]
  · refine congrArg (fun p => List.filter p _) (funext fun x => ?_)
    simp only [Function.comp_apply]
    split <;> rfl
  · intro x hx
    have hne := (List.mem_filter.1 hx).2
    simp only [Function.comp_apply] at hne
    by_cases hname : x.name = e.name
    · simp [hname] at hne
    · simp [hname]

section
variable {o : VFmt} {i : Instr} {n : VNeeds} {body : Nat → Entry → M Unit} {s s2 : State} {c : Nat} {e : Entry}

/-- A V instruction whose body runs to its end completes. -/
theorem runV_completes {k : Crew} (h : Performs 2 o.tok s c e) (hb : body c e (vBegun s c o.tok e) = .ok () s2)
    (h2 : OnlyCrew s s2 c (withResults (vCrew (s.crew c) o.tok e) k)) :
    ∃ t, runV o i n body s = .next t ∧ VLeaves s t c e o.tok k := by
  have hrun : runV o i n body s = .next (finishEntry c 2 o.tok e s2) := by
    unfold runV
    rw [runLane_atHead h.head, runEntry_completes h]
    exact m_bind_ok hb
  have hroom : ∀ f ∈ (tokenFifos 2 o.tok).2, tokenCount (withResults (vCrew (s.crew c) o.tok e) k) f < 8 := fun f hf =>
    lt_of_le_of_lt ((tokenCount_takeTokens (s.crew c) (popsLeft_nodup 2 o.tok e) f).le.trans (Nat.sub_le ..)) (h.room f hf)
  have ht := finishEntry_only h.fresh hroom h.quiet h2
  refine ⟨_, hrun, ?_⟩
  have hcrew := ht.crew
  refine ⟨⟨ht.rest, ht.others, ?_, ?_, ?_⟩, ?_, ?_, ?_, ?_, ?_, ?_⟩
  all_goals rw [hcrew]
  · exact kept_of_performs (s.crew c) k o.tok e
  · exact queue_of_performs (s.crew c) k o.tok e
  · exact tokens_of_performs (s.crew c) k o.tok e
  all_goals rfl

/-- A V instruction that stops before it has changed anything posts its exception, and its stream stops (R54, R444). -/
theorem runV_traps {x : Exc} (h : Performs 2 o.tok s c e)
    (hb : body c e (vBegun s c o.tok e) = .error (.trap x) (vBegun s c o.tok e)) :
    ∃ t, runV o i n body s = .next t ∧ (t.crew c).m = (s.crew c).m ∧ (t.crew c).w = (s.crew c).w ∧
      (t.crew c).vstat = (s.crew c).vstat ∧ (t.crew c).rndCtr = (s.crew c).rndCtr ∧
      (t.crew c).posted = (s.crew c).posted ++ [{ stream := 2, exc := x, pc := e.pc, resume := e.pc }] ∧
      (t.crew c).stopped.contains 2 = true := by
  have hrun : runV o i n body s = .next (raiseStream c 2 e x 0
      (updEntry c 2 e.name (fun e => { e with stalled := false }) (vBegun s c o.tok e))) := by
    unfold runV
    rw [runLane_atHead h.head, runEntry_traps h (m_bind_err hb)]
  have hupd := (vBegun_only s c o.tok e).updEntry 2 e.name fun e => { e with stalled := false }
  refine ⟨_, hrun, ?_⟩
  simp only [raiseStream, postException, hupd.crew, State.crew_setCrew]
  generalize s.crew c = k
  exact ⟨rfl, rfl, rfl, rfl, rfl, addName_contains _ _⟩

end

end Sys2Proof.Machine
end

/-! ### V arithmetic (O31) -/

section
namespace Sys2Proof.Machine

/-! #### Flags, rounding modes and the counter of stochastic rounding (R48, R51-R54) -/

theorem modeOf_ok {e : Entry} {rm : Nat} (s : State)
    (h : ¬(rm = 5 ∧ bits e.vctl.toNat 10 8 = 4 ∧ e.vctl.getLsbD 7 = true)) :
    modeOf e rm s = .ok (if rm = 5 then bits e.vctl.toNat 10 8 else rm) s := by
  unfold modeOf
  by_cases hrm : rm = 5
  · rw [if_pos hrm, if_pos hrm]
    dsimp only
    rw [if_neg fun hm => h ⟨hrm, hm⟩]
    rfl
  · rw [if_neg hrm, if_neg hrm]
    rfl

/-- A mode that no NSR makes illegal is the one the instruction rounds in (R53). -/
theorem vMode_ok {o : VFmt} {e : Entry} (s : State) (h : vecMode o e ≠ 0 → ModeLegal o e) :
    vMode o e s = .ok (vecMode o e) s := by
  unfold vMode vecMode
  unfold vecMode at h
  split
  · next hf =>
    rw [if_pos hf] at h
    refine modeOf_ok s fun hill => h ?_ hill
    rw [if_pos hill.1, hill.2.1]
    decide
  · rfl

/-- A crew with these flags collected in VSTAT (R54). -/
def collected (k : Crew) (fl : Flags) : Crew := { k with vstat := k.vstat ||| BitVec.ofNat 32 fl }

/-- A crew whose counter of stochastic rounding has moved on after an instruction of this mode (R51). -/
def ctrMoved (k : Crew) (mode : Nat) : Crew :=
  { k with rndCtr := if mode = 4 then BitVec.ofNat 64 ((k.rndCtr.toNat + 1) % 2 ^ 32) else k.rndCtr }

/-- How a V instruction that computes ends: its flags collect or trap, its results are written, and the counter of stochastic
rounding moves on (R51, R54, R247). -/
def collect (c : Nat) (e : Entry) (fl : Flags) (write : Crew → Crew) (mode : Nat) : M Unit := do
  applyFlags c e fl
  upd fun s => s.setCrew c (write (s.crew c))
  advanceCtr c mode

theorem upd_setCrew {s t : State} {c : Nat} {k : Crew} (h : OnlyCrew s t c k) (f : Crew → Crew) :
    ∃ t', upd (fun s => s.setCrew c (f (s.crew c))) t = .ok () t' ∧ OnlyCrew s t' c (f k) :=
  ⟨_, rfl, h.crew ▸ h.setCrew (f (t.crew c))⟩

theorem applyFlags_collects {s t : State} {c : Nat} {k : Crew} {e : Entry} {fl : Flags} (h : OnlyCrew s t c k)
    (hfl : fl &&& e.vctl.toNat &&& 0x3F = 0) : ∃ t', applyFlags c e fl t = .ok () t' ∧ OnlyCrew s t' c (collected k fl) := by
  unfold applyFlags
  rw [if_neg (not_not.2 hfl)]
  exact upd_setCrew h fun k => collected k fl

theorem applyFlags_traps {c : Nat} {e : Entry} {fl : Flags} (s : State) (h : fl &&& e.vctl.toNat &&& 0x3F ≠ 0) :
    applyFlags c e fl s = .error (.trap { cause := 19, info := BitVec.ofNat 64 fl }) s := by
  unfold applyFlags
  rw [if_pos h]
  rfl

theorem advanceCtr_counts {s t : State} {c : Nat} {k : Crew} (h : OnlyCrew s t c k) (mode : Nat) :
    ∃ t', advanceCtr c mode t = .ok () t' ∧ OnlyCrew s t' c (ctrMoved k mode) := by
  unfold advanceCtr ctrMoved
  split
  · exact upd_setCrew h fun k => { k with rndCtr := BitVec.ofNat 64 ((k.rndCtr.toNat + 1) % 2 ^ 32) }
  · exact ⟨t, rfl, h⟩

theorem collect_ok {s t : State} {c : Nat} {k : Crew} {e : Entry} {fl : Flags} {write : Crew → Crew} {mode : Nat}
    (h : OnlyCrew s t c k) (hfl : fl &&& e.vctl.toNat &&& 0x3F = 0) :
    ∃ s2, collect c e fl write mode t = .ok () s2 ∧ OnlyCrew s s2 c (ctrMoved (write (collected k fl)) mode) := by
  obtain ⟨t1, h1, ho1⟩ := applyFlags_collects h hfl
  obtain ⟨t2, h2, ho2⟩ := upd_setCrew ho1 write
  obtain ⟨t3, h3, ho3⟩ := advanceCtr_counts ho2 mode
  exact ⟨t3, (m_bind_ok h1).trans ((m_bind_ok h2).trans h3), ho3⟩

theorem collect_traps {s : State} {c : Nat} {e : Entry} {fl : Flags} {write : Crew → Crew} {mode : Nat}
    (h : fl &&& e.vctl.toNat &&& 0x3F ≠ 0) :
    collect c e fl write mode s = .error (.trap { cause := 19, info := BitVec.ofNat 64 fl }) s :=
  m_bind_err (applyFlags_traps s h)

/-! #### Instructions that write elements of their destination -/

/-- What completing a V instruction that computes leaves: its crew has these matrix registers, its flags are in VSTAT, and the
counter of stochastic rounding has moved on where its mode is stochastic. -/
structure VWrote (s t : State) (c : Nat) (e : Entry) (tok : Nat) (m : Tbl (BitVec 32)) (fl mode : Nat) : Prop where
  done : VDone s t c e tok
  m : (t.crew c).m = m
  masks : (t.crew c).w = (s.crew c).w
  scalar : (t.crew c).sc = (s.crew c).sc
  queues : (t.crew c).queues = (s.crew c).queues
  vstat : (t.crew c).vstat = (s.crew c).vstat ||| BitVec.ofNat 32 fl
  ctr : (t.crew c).rndCtr =
    if mode = 4 then BitVec.ofNat 64 (((s.crew c).rndCtr.toNat + 1) % 2 ^ 32) else (s.crew c).rndCtr

section
variable {o : VFmt} {i : Instr} {n : VNeeds} {body : Nat → Entry → M Unit} {s : State} {c : Nat} {e : Entry} {fl : Flags}
  {write : Crew → Crew} {mode : Nat}

/-- A V instruction that ends by collecting flags which trap (R54). -/
theorem runV_flagTrap (h : Performs 2 o.tok s c e)
    (hb : body c e (vBegun s c o.tok e) = collect c e fl write mode (vBegun s c o.tok e))
    (hfl : fl &&& e.vctl.toNat &&& 0x3F ≠ 0) : ∃ t, runV o i n body s = .next t ∧ VTraps s t c e fl := by
  obtain ⟨t, ht, hm, hw, hv, hc, hp, hst⟩ := runV_traps (i := i) (n := n) h (hb.trans (collect_traps hfl))
  exact ⟨t, ht, hm, hw, hv, hc, hp, hst⟩

/-- A V instruction that ends by collecting flags which do not trap, having written matrix registers. -/
theorem runV_writes (h : Performs 2 o.tok s c e) (hb : body c e (vBegun s c o.tok e) = collect c e fl write mode (vBegun s c o.tok e))
    (hwrite : ∀ k, write k = { k with m := (write k).m }) (hm : ∀ k k', k.m = k'.m → (write k).m = (write k').m)
    (hfl : fl &&& e.vctl.toNat &&& 0x3F = 0) :
    ∃ t, runV o i n body s = .next t ∧ VWrote s t c e o.tok (write (s.crew c)).m fl mode := by
  obtain ⟨s2, hs2, honly⟩ := collect_ok (write := write) (mode := mode) (vBegun_only s c o.tok e) hfl
  have hk : ∀ k, ctrMoved (write (collected (vCrew k o.tok e) fl)) mode =
      withResults (vCrew k o.tok e) (ctrMoved (collected (write k) fl) mode) := fun k => by
    rw [hwrite (collected (vCrew k o.tok e) fl), hwrite k, hm (collected (vCrew k o.tok e) fl) k rfl]
    rfl
  rw [hk] at honly
  obtain ⟨t, ht, hdone, hm, hmasks, hscalar, hqueues, hvstat, hctr⟩ := runV_completes (i := i) (n := n) h (hb.trans hs2) honly
  rw [hwrite (s.crew c)] at hmasks hscalar hqueues hvstat hctr
  exact ⟨t, ht, hdone, hm, hmasks, hscalar, hqueues, hvstat, hctr⟩

/-- The same where it writes elements of width w of its destination (R54, R169, R247). -/
theorem runV_elements {w : Nat} {es : List (Option Nat)} {r : Nat → Option Nat} (hwd : DividesWord w)
    (h : Performs 2 o.tok s c e)
    (hb : body c e (vBegun s c o.tok e) =
      collect c e fl (fun k => writeElems k (matOperand o e 1) w es) mode (vBegun s c o.tok e))
    (hr : ∀ i < 1024 / w, es.getD i none = r i) :
    (fl &&& e.vctl.toNat &&& 0x3F = 0 → ∃ t, runV o i n body s = .next t ∧ VWrites s t c e o w r fl mode) ∧
    (fl &&& e.vctl.toNat &&& 0x3F ≠ 0 → ∃ t, runV o i n body s = .next t ∧ VTraps s t c e fl) := by
  refine ⟨fun hfl => ?_, runV_flagTrap h hb⟩
  have hm (k k' : Crew) (hk : k.m = k'.m) :
      (writeElems k (matOperand o e 1) w es).m = (writeElems k' (matOperand o e 1) w es).m := by
    simp only [writeElems_m, elemWords, readWords, hk]
  obtain ⟨t, ht, hdone, htm, hmasks, hscalar, hqueues, hvstat, hctr⟩ :=
    runV_writes (i := i) (n := n) h hb (fun _ => rfl) hm hfl
  refine ⟨t, ht, hdone, hscalar, hqueues, fun i hi => ?_, fun x hx => ?_, hmasks, hvstat, hctr⟩
  · have hread : readElems (t.crew c) (matOperand o e 1) w =
        readElems (writeElems (s.crew c) (matOperand o e 1) w es) (matOperand o e 1) w := by
      simp only [readElems, readWords, htm]
    rw [hread, writeElems_elem _ _ hwd es hi, hr i hi]
    rfl
  · rw [htm]
    exact writeElems_other _ _ w es fun i hi _ => hx i hi

end

/-! #### Element-wise instructions (R247, R248) -/

theorem getD_map_range {α β : Type} (f : Nat → Option α) (g : α → β) {n i : Nat} (hi : i < n) :
    (((List.range n).map f).map fun r => r.map g).getD i none = (f i).map g := by
  simp [List.getD_eq_getElem?_getD, hi]

theorem elementwise_collects (c : Nat) (e : Entry) (o : VFmt) (mode : Nat) (f : Nat → Nat → Nat → Nat → Nat → Nat × Flags)
    (s : State) :
    elementwise c e o mode f s = collect c e (gather (elementResults (s.crew c) e o mode f))
      (fun k => writeElems k (matOperand o e 1) (vWidth o.fmt) ((elementResults (s.crew c) e o mode f).map fun r => r.map (·.1)))
      mode s := rfl

/-- The element-wise operation gives what `lanewise` says. -/
theorem elementResults_lanewise {s : State} {c : Nat} {e : Entry} {o : VFmt} {mode : Nat}
    {f : Nat → Nat → Nat → Nat → Nat → Nat × Flags} {g : Nat → Nat → Nat → Nat → Nat → Nat × Flags}
    (hfg : ∀ i rnd a b d, f i rnd a b d = g mode rnd a b d) :
    elementResults (vCrew (s.crew c) o.tok e) e o mode f = (List.range o.count).map (lanewise s c e o mode g) := by
  obtain rfl : f = fun _ => g mode := by
    funext i rnd a b d
    exact hfg i rnd a b d
  rfl

/-- An instruction whose body is the element-wise operation in its rounding mode. -/
theorem lanewise_of_elementwise {mk : VFmt → Instr} {f : VFmt → Nat → Nat → Nat → Nat → Nat → Nat × Flags}
    {g : VFmt → Nat → Nat → Nat → Nat → Nat → Nat → Nat × Flags}
    (hrun : ∀ o s, exec (mk o) s = runV o (mk o) {} (fun c e => do
      let mode ← vMode o e
      elementwise c e o mode (g o mode)) s)
    (hfg : ∀ o, (mk o).wf = true → ∀ mode i rnd a b d, g o mode i rnd a b d = f o mode rnd a b d) :
    Lanewise mk vecMode f := by
  intro o s c e hwf h hmode r fl
  rw [hrun]
  have hresults := elementResults_lanewise (s := s) (c := c) (e := e) (o := o) (hfg o hwf (vecMode o e))
  refine runV_elements (dividesWord_vWidth o.fmt) (es := ((List.range o.count).map r).map fun r => r.map (·.1)) h ?_
    fun i hi => getD_map_range r (·.1) hi
  refine (m_bind_ok (vMode_ok _ hmode)).trans ?_
  rw [elementwise_collects, vBegun_crew, hresults]

/-- An arithmetic instruction, given on floating and on integer elements (R248, R251); `gi` is how the model writes `fi`. -/
theorem lanewise_of_vArith {mk : VFmt → Instr} {ff : FFmt → Nat → Nat → Nat → Nat → Nat → Nat × Flags}
    {fi : Int → Int → Int} (gi : Int → Int → Int) (hi : ∀ a b, gi a b = fi a b)
    (hrun : ∀ o s, exec (mk o) s = vArith o (mk o) ff gi s) (hwf : ∀ o, (mk o).wf = true → o.fmt ≤ 8) :
    Lanewise mk vecMode (elemArith ff fi) := by
  refine lanewise_of_elementwise hrun fun o hw mode _ rnd a b d => ?_
  obtain rfl : gi = fi := funext fun a => funext (hi a)
  have hfmt := hwf o hw
  unfold efOf elemArith
  interval_cases o.fmt <;> rfl

/-- An instruction of f32 alone. -/
theorem lanewise_of_vArith_f32 {mk : VFmt → Instr} {ff : FFmt → Nat → Nat → Nat → Nat → Nat → Nat × Flags}
    (fi : Int → Int → Int) (hrun : ∀ o s, exec (mk o) s = vArith o (mk o) ff fi s)
    (hwf : ∀ o, (mk o).wf = true → o.fmt = 0) :
    Lanewise mk vecMode fun _ => ff .f32 := by
  refine lanewise_of_elementwise hrun fun o hw mode _ rnd a b d => ?_
  unfold efOf
  rw [hwf o hw]
  rfl

/-! #### The formats of a V instruction -/

/-- The format of a well-formed V instruction. -/
theorem fmt_le_of_wf {o : VFmt} {x y : Bool} {n : Nat} (hn : n ≤ 8) (h : (x && decide (o.fmt ≤ n) && y) = true) : o.fmt ≤ 8 := by
  simp only [Bool.and_eq_true, decide_eq_true_eq] at h
  exact h.1.2.trans hn

end Sys2Proof.Machine

open Sys2Proof Sys2Proof.Machine

/-- Settles O31: each instruction is the element-wise operation on its elements. -/
theorem vectorArithmetic : Obligations.VectorArithmetic := by
  unfold Obligations.VectorArithmetic
  have hsigned {o : VFmt} {x y : Bool}
      (h : (x && (decide (o.fmt ≤ 3) || o.fmt == 5 || o.fmt == 7) && y) = true) : o.fmt ≤ 8 := by
    simp only [Bool.and_eq_true, Bool.or_eq_true, decide_eq_true_eq, beq_iff_eq] at h
    omega
  have hsingle {o : VFmt} {x y : Bool} (h : (x && o.fmt == 0 && y) = true) : o.fmt = 0 := by
    simp only [Bool.and_eq_true, beq_iff_eq] at h
    exact h.1.2
  have hle {n : Nat} (hn : n ≤ 8) {o : VFmt} {x y : Bool} (h : (x && decide (o.fmt ≤ n) && y) = true) : o.fmt ≤ 8 :=
    fmt_le_of_wf hn h
  have hmin (a b : Int) : (if b < a then b else a) = min a b := by rw [min_def]; split <;> split <;> omega
  have hmax (a b : Int) : (if a < b then b else a) = max a b := by rw [max_def]; split <;> split <;> omega
  have habs (a _b : Int) : (if a < 0 then -a else a) = (a.natAbs : Int) := by split <;> omega
  refine ⟨?add, ?sub, ?mul, ?fma, ?fms, ?fnma, ?min, ?max, ?abs, ?neg, ?cps, ?rcpe, ?rsqe, ?exp2, ?log2, ?cls⟩
  case add | sub | mul => exact lanewise_of_vArith _ (fun _ _ => rfl) (fun _ _ => rfl) fun _ h => hle (by decide) h
  case fma | fms | fnma | cps | exp2 | log2 | cls =>
    exact lanewise_of_vArith _ (fun _ _ => rfl) (fun _ _ => rfl) fun _ h => hle (n := 2) (by decide) h
  case min => exact lanewise_of_vArith _ hmin (fun _ _ => rfl) fun _ h => hle (by decide) h
  case max => exact lanewise_of_vArith _ hmax (fun _ _ => rfl) fun _ h => hle (by decide) h
  case abs => exact lanewise_of_vArith _ habs (fun _ _ => rfl) fun _ h => hsigned h
  case neg => exact lanewise_of_vArith _ (fun _ _ => rfl) (fun _ _ => rfl) fun _ h => hsigned h
  case rcpe =>
    exact lanewise_of_vArith_f32 (ff := fun _ _ _ a _ _ => seedOf false a) (fun a _ => a) (fun _ _ => rfl) fun _ h => hsingle h
  case rsqe =>
    exact lanewise_of_vArith_f32 (ff := fun _ _ _ a _ _ => seedOf true a) (fun a _ => a) (fun _ _ => rfl) fun _ h => hsingle h
end

/-! ### V conversions and quantisation (O34) -/

section
namespace Sys2Proof.Machine

/-! #### The narrow format of an entry (R245) -/

/-- The exception of a V instruction whose narrow format was not read at its handover (R245, R459). -/
def noFormat (e : Entry) : Exc :=
  match e.vnfAt with
  | none => { cause := 6, info := BitVec.ofNat 64 e.vnfTid }
  | some va => { cause := 9, addr := BitVec.ofNat 64 va }

theorem needNf_ok {e : Entry} {d : Nat} (h : e.vnf = some d) (s : State) : needNf e s = .ok (NF.ofDesc d) s := by
  unfold needNf
  rw [h]
  rfl

theorem needNf_fails {e : Entry} (h : e.vnf = none) (s : State) : needNf e s = .error (.trap (noFormat e)) s := by
  unfold needNf noFormat
  rw [h]
  cases e.vnfAt <;> rfl

/-! #### VCVT (R253) -/

theorem cvtRounds_iff (o : VFmt) : cvtRounds o = true ↔ o.c % 16 ≤ 2 ∨ o.c % 16 = 9 ∨ o.fmt ≤ 2 := by
  simp [cvtRounds, or_assoc]

/-- The mode VCVT rounds in. -/
theorem cvtMode_ok {o : VFmt} {e : Entry} (s : State) (h : cvtMode o e ≠ 0 → ModeLegal o e) :
    (if cvtRounds o = true then modeOf e o.rm else pure 0 : M Nat) s = .ok (cvtMode o e) s := by
  unfold cvtMode at h ⊢
  simp only [cvtRounds_iff]
  split
  · next hf =>
    rw [if_pos hf] at h
    refine modeOf_ok s fun hill => h ?_ hill
    rw [if_pos hill.1, hill.2.1]
    decide
  · rfl

/-- What the model computes for element t of VCVT's destination. -/
def cvtResult (k : Crew) (e : Entry) (o : VFmt) (nf : NF) (mode t : Nat) : Option (Nat × Flags) :=
  let nS := 1024 / vWidth (o.c % 16)
  let nD := 1024 / vWidth o.fmt
  let m := min nS nD
  let part := bits o.c 5 4
  let j := if nD > nS then t - part * m else t
  let inside := if nD > nS then part * m ≤ t && t < part * m + m else t < m
  if inside && enabled k o.mg t then
    some (convertElem nf ((EF.ofCode (o.c % 16)).getD (.flt .f32)) (efOf o) mode o.rm
      (vRandom mode k e (matOperand o e 1) (vWidth o.fmt) t)
      ((readElems k (matOperand o e 2) (vWidth (o.c % 16))).getD (if nS > nD then part * m + j else j) 0))
  else none

/-- How VCVT ends once its mode and its narrow format are known. -/
def cvtEnd (o : VFmt) (c : Nat) (e : Entry) (mode : Nat) (nf : NF) : M Unit := fun s =>
  let rs := (List.range (1024 / vWidth o.fmt)).map (cvtResult (s.crew c) e o nf mode)
  collect c e (gather rs) (fun k => writeElems k (matOperand o e 1) (vWidth o.fmt) (rs.map fun r => r.map (·.1))) mode s

theorem cvtBody_eq (o : VFmt) (c : Nat) (e : Entry) (s : State) :
    cvtBody o c e s = ((if cvtRounds o = true then modeOf e o.rm else pure 0 : M Nat) >>= fun mode =>
      (if o.c % 16 = 9 then needNf e else pure (NF.ofDesc 0) : M NF) >>= fun nf => cvtEnd o c e mode nf) s := by
  unfold cvtBody
  split <;> split <;> rfl

/-- A conversion from another format does not look at the narrow format. -/
theorem convertElem_format {src : EF} (h : src ≠ .nf) (d d' : NF) (dst : EF) (mode rm rnd x : Nat) :
    convertElem d src dst mode rm rnd x = convertElem d' src dst mode rm rnd x := by
  cases src with
  | nf => exact absurd rfl h
  | flt | int => rfl

theorem ofCode_eq_nf {n : Nat} (h : (EF.ofCode n).getD (.flt .f32) = .nf) : n = 9 := by
  unfold EF.ofCode at h
  split at h <;> simp_all

/-- Only a conversion from nf looks at the narrow format. -/
theorem convertElem_vnf (o : VFmt) (d d' : NF) (h : o.c % 16 = 9 → d = d') (dst : EF) (mode rm rnd x : Nat) :
    convertElem d ((EF.ofCode (o.c % 16)).getD (.flt .f32)) dst mode rm rnd x =
      convertElem d' ((EF.ofCode (o.c % 16)).getD (.flt .f32)) dst mode rm rnd x := by
  by_cases hc : o.c % 16 = 9
  · rw [h hc]
  · exact convertElem_format (fun hnf => hc (ofCode_eq_nf hnf)) d d' dst mode rm rnd x

theorem cvtFormat_ok {o : VFmt} {e : Entry} (s : State) (h : o.c % 16 = 9 → e.vnf ≠ none) :
    ∃ nf, (if o.c % 16 = 9 then needNf e else pure (NF.ofDesc 0) : M NF) s = .ok nf s ∧
      (o.c % 16 = 9 → nf = NF.ofDesc (e.vnf.getD 0)) := by
  by_cases hc : o.c % 16 = 9
  · obtain ⟨d, hd⟩ := Option.ne_none_iff_exists'.1 (h hc)
    rw [if_pos hc, hd]
    exact ⟨_, needNf_ok hd s, fun _ => rfl⟩
  · rw [if_neg hc]
    exact ⟨_, rfl, fun h => absurd h hc⟩

/-- Where the element of A that VCVT converts for element t stands (R253). -/
theorem cvtResult_place {o : VFmt} (hc : o.c ≤ 63) (k : Crew) (e : Entry) (nf : NF) (mode : Nat) {t : Nat}
    (ht : t < 1024 / vWidth o.fmt) :
    let nS := 1024 / vWidth (o.c % 16)
    let nD := 1024 / vWidth o.fmt
    let part := o.c / 16
    let conv (x : Nat) := convertElem nf ((EF.ofCode (o.c % 16)).getD (.flt .f32)) (efOf o) mode o.rm
      (vRandom mode k e (matOperand o e 1) (vWidth o.fmt) t) ((readElems k (matOperand o e 2) (vWidth (o.c % 16))).getD x 0)
    cvtResult k e o nf mode t =
      if enabled k o.mg t = false then none
      else if nD > nS then (if part * nS ≤ t ∧ t < (part + 1) * nS then some (conv (t - part * nS)) else none)
      else some (conv (if nS > nD then part * nD + t else t)) := by
  intro nS nD part conv
  have hpart : bits o.c 5 4 = part := by
    simp only [bits, part]
    omega
  unfold cvtResult
  simp only [hpart]
  change t < nD at ht
  change (if ((if nD > nS then decide (part * min nS nD ≤ t) && decide (t < part * min nS nD + min nS nD)
    else decide (t < min nS nD)) && enabled k o.mg t) = true then some (conv (if nS > nD then part * min nS nD +
      (if nD > nS then t - part * min nS nD else t) else if nD > nS then t - part * min nS nD else t)) else none) = _
  rw [Nat.succ_mul]
  cases enabled k o.mg t with
  | false => simp
  | true =>
    by_cases hlt : nD > nS
    · simp only [if_pos hlt, if_neg (show ¬nS > nD by omega), min_eq_left hlt.le]
      simp
    · simp only [if_neg hlt, min_eq_right (show nD ≤ nS by omega)]
      simp [ht]

/-! #### VQNT and VDQNT (R254, R255) -/

theorem quantise_length (ws : List Nat) (d : NF) (mode : Nat) (rnd : Nat → Nat) :
    (quantise ws d mode rnd).2.1.length = ws.length := by
  unfold quantise
  dsimp only
  split_ifs <;> simp

/-- What the model gives a block that VQNT quantises: its scale, its codes and its flags. -/
def qntResult (k : Crew) (e : Entry) (o : VFmt) (nf : NF) (mode : Nat) : Nat × List Nat × Flags :=
  quantise (readWords k (matOperand o e 2)) nf mode fun i => vRandom mode k e (matOperand o e 1) 8 i

/-- The crew once VQNT has written its codes and then its scale. -/
def qntWritten (o : VFmt) (e : Entry) (σ : Nat) (codes : List Nat) (k : Crew) : Crew :=
  { k with m := writeWords (writeElems k (matOperand o e 1) 8 (codes.map some)).m (matOperand o e 3) 0 [some σ] }

theorem qntBody_collects {o : VFmt} {c d mode : Nat} {e : Entry} {s : State} (hnf : e.vnf = some d)
    (hmode : modeOf e o.rm s = .ok mode s) :
    let q := qntResult (s.crew c) e o (NF.ofDesc d) mode
    qntBody o c e s = collect c e (orf q.2.2 (flagIf ((readWords (s.crew c) (matOperand o e 2)).any isSCR) Flag.sx))
      (qntWritten o e q.1 q.2.1) mode s :=
  (m_bind_ok (needNf_ok hnf s)).trans ((m_bind_ok hmode).trans rfl)

theorem dqntBody_collects {o : VFmt} {c d mode : Nat} {e : Entry} {s : State} (hnf : e.vnf = some d)
    (hmode : modeOf e o.rm s = .ok mode s) :
    let rs := (List.range 32).map fun i => dequantise (NF.ofDesc d) ((readElems (s.crew c) (matOperand o e 2) 8).getD i 0)
      ((readWords (s.crew c) (matOperand o e 3)).getD 0 0 % 1024) .f32 mode
      (vRandom mode (s.crew c) e (matOperand o e 1) 32 i)
    dqntBody o c e s = collect c e (allFlags rs)
      (fun k => writeElems k (matOperand o e 1) 32 (rs.map fun r => some r.1)) mode s :=
  (m_bind_ok (needNf_ok hnf s)).trans ((m_bind_ok hmode).trans rfl)

/-- The mode of VQNT and VDQNT, whose format is nf. -/
theorem nfMode_ok {o : VFmt} {e : Entry} (s : State) (hfmt : o.fmt = 9) (h : ModeLegal o e) :
    modeOf e o.rm s = .ok (vecMode o e) s := by
  rw [vecMode, if_pos (.inr hfmt)]
  exact modeOf_ok s h

section
variable (o : VFmt) (e : Entry) (k : Crew) (σ : Nat) {codes : List Nat}

/-- The scale of a block, as VQNT leaves it. -/
theorem qntWritten_scale (codes : List Nat) :
    (qntWritten o e σ codes k).m.getD ((matOperand o e 3).at 0) 0 = BitVec.ofNat 32 σ :=
  writeWords_at (d := matOperand o e 3) _ [some σ] 0 (by simp) (j := 0) (by simp)

/-- VQNT writes its scale into one word alone. -/
theorem qntWritten_find? (codes : List Nat) {x : Nat} (hx : x ≠ (matOperand o e 3).at 0) :
    (qntWritten o e σ codes k).m.find? x = (writeElems k (matOperand o e 1) 8 (codes.map some)).m.find? x :=
  writeWords_other _ _ 0 fun j hj => by
    cases j with
    | zero => exact hx
    | succ j => exact absurd rfl hj

/-- A code of a block, as VQNT leaves it, unless its scale covers it. -/
theorem qntWritten_code (hcodes : codes.length = 32) {i : Nat} (hi : i < 32)
    (hs : (matOperand o e 1).at (i / 4) ≠ (matOperand o e 3).at 0) :
    (readElems (qntWritten o e σ codes k) (matOperand o e 1) 8).getD i 0 = codes.getD i 0 % 256 := by
  have hword : i / (32 / 8) < 32 := by omega
  have hread := writeElems_elem k (matOperand o e 1) (w := 8) ⟨by decide, by decide⟩ (codes.map some) (i := i) (by omega)
  rw [readElems_getD _ _ (by decide) hword] at hread ⊢
  rw [Tbl.getD, qntWritten_find? o e k σ codes hs, ← Tbl.getD, hread]
  simp [List.getD_eq_getElem?_getD, hcodes, hi, elemOr]

/-- VQNT changes no word but those of its codes and its scale. -/
theorem qntWritten_other (hcodes : codes.length = 32) {x : Nat} (hs : x ≠ (matOperand o e 3).at 0)
    (hx : ∀ i < 8, x ≠ (matOperand o e 1).at i) : (qntWritten o e σ codes k).m.find? x = k.m.find? x := by
  rw [qntWritten_find? o e k σ codes hs]
  refine writeElems_other _ _ _ _ fun i _ hi => hx i ?_
  rw [List.length_map, hcodes] at hi
  omega

end

end Sys2Proof.Machine
end

section
namespace Sys2Proof.Machine

/-! #### The instructions, and O34 -/

/-- What a write of the elements of a list of results leaves. -/
theorem getD_map_results {α : Type} (r : Nat → α × Flags) {n i : Nat} (hi : i < n) :
    (((List.range n).map r).map fun r => some r.1).getD i none = some (r i).1 := by
  simp [List.getD_eq_getElem?_getD, hi]

theorem elemOf_word (s : State) (c : Nat) (d : MatOp) (i : Nat) : elemOf s c d 32 i = (readWords (s.crew c) d).getD i 0 := by
  rw [elemOf, readElems_word]

theorem words_of_elems (s : State) (c : Nat) (d : MatOp) : (List.range 32).map (elemOf s c d 32) = readWords (s.crew c) d := by
  refine List.map_congr_left fun i hi => ?_
  rw [elemOf_word, readWords_getD _ _ (List.mem_range.1 hi)]

theorem exec_vcvt (o : VFmt) (s : State) : exec (.vcvt o) s = runV o (.vcvt o) { nf := o.c % 16 == 9 } (cvtBody o) s := rfl
theorem exec_vqnt (o : VFmt) (s : State) : exec (.vqnt o) s = runV o (.vqnt o) { nf := true } (qntBody o) s := rfl
theorem exec_vdqnt (o : VFmt) (s : State) : exec (.vdqnt o) s = runV o (.vdqnt o) { nf := true } (dqntBody o) s := rfl

theorem vcvt_fits {o : VFmt} (h : (Instr.vcvt o).wf = true) : o.c ≤ 63 := by
  have h : (o.ranged && o.classes .matrix .matrix .none (some 63) && decide (o.fmt ≤ 8) && o.cvtOk) = true := h
  simp only [VFmt.classes, VFmt.cOk, Bool.and_eq_true, decide_eq_true_eq] at h
  exact h.1.1.2.2

theorem vqnt_fmt {o : VFmt} (h : (Instr.vqnt o).wf = true) : o.fmt = 9 := by
  have h : (o.ranged && o.classes .matrix .matrix .matrix none && o.fmt == 9 && decide (o.rm ≤ 5) && o.mg == 0) = true := h
  simp only [Bool.and_eq_true, beq_iff_eq] at h
  exact h.1.1.2

/-- Where no narrow format was read at handover, a V instruction that needs one raises its exception (R245, R459). -/
theorem runV_noFormat {o : VFmt} {i : Instr} {n : VNeeds} {body : Nat → Entry → M Unit} {s : State} {c : Nat} {e : Entry}
    (h : Performs 2 o.tok s c e)
    (hb : body c e (vBegun s c o.tok e) = .error (.trap (noFormat e)) (vBegun s c o.tok e)) :
    ∃ t, runV o i n body s = .next t ∧ (t.crew c).m = (s.crew c).m ∧ (t.crew c).w = (s.crew c).w ∧
      (t.crew c).vstat = (s.crew c).vstat ∧
      (t.crew c).posted = (s.crew c).posted ++ [{ stream := 2, pc := e.pc, resume := e.pc, exc := noFormat e }] := by
  obtain ⟨t, ht, hm, hw, hv, -, hp, -⟩ := runV_traps (i := i) (n := n) h hb
  exact ⟨t, ht, hm, hw, hv, hp⟩

/-- VCVT whose source is nf, and whose format was not read. -/
theorem cvtBody_noFormat {o : VFmt} {c : Nat} {e : Entry} {s : State} (hc : o.c % 16 = 9)
    (hmode : cvtMode o e ≠ 0 → ModeLegal o e) (h : e.vnf = none) :
    cvtBody o c e s = .error (.trap (noFormat e)) s := by
  refine (cvtBody_eq o c e s).trans ((m_bind_ok (cvtMode_ok s hmode)).trans (m_bind_err ?_))
  rw [if_pos hc]
  exact needNf_fails h s

end Sys2Proof.Machine

open Sys2Proof Sys2Proof.Machine

/-- Settles O34, by what each body computes before it collects its flags and writes. -/
theorem vectorConversions : Obligations.VectorConversions := by
  unfold Obligations.VectorConversions
  refine ⟨?cvt, ?qnt, ?dqnt, ?unread⟩
  case cvt =>
    intro o s c e hwf h hmode hvnf nS nD part src dst m conv r fl
    obtain ⟨nf, hnf, heq⟩ := cvtFormat_ok (o := o) (vBegun s c o.tok e) hvnf
    have hrs : (List.range nD).map (cvtResult (vCrew (s.crew c) o.tok e) e o nf m) = (List.range nD).map r := by
      refine List.map_congr_left fun t ht => ?_
      rw [cvtResult_place (vcvt_fits hwf) _ e nf m (List.mem_range.1 ht)]
      simp only [convertElem_vnf o nf (NF.ofDesc (e.vnf.getD 0)) heq]
      rfl
    rw [exec_vcvt]
    refine runV_elements (dividesWord_vWidth o.fmt) (es := ((List.range nD).map r).map fun r => r.map (·.1)) h ?_
      fun i hi => getD_map_range r (·.1) hi
    rw [cvtBody_eq, m_bind_ok (cvtMode_ok _ hmode), m_bind_ok hnf, cvtEnd, vBegun_crew]
    exact congrArg (fun rs => collect c e (gather rs)
      (fun k => writeElems k (matOperand o e 1) (vWidth o.fmt) (rs.map fun r => r.map (·.1))) m (vBegun s c o.tok e)) hrs
  case qnt =>
    intro o s c d e hwf h hmode hvnf m dst ws q fl
    have hb : qntBody o c e (vBegun s c o.tok e) = collect c e fl (qntWritten o e q.1 q.2.1) m (vBegun s c o.tok e) := by
      have hws : ws = readWords (s.crew c) (matOperand o e 2) := words_of_elems s c _
      rw [qntBody_collects hvnf (nfMode_ok _ (vqnt_fmt hwf) hmode), vBegun_crew]
      simp only [fl, q, hws]
      rfl
    have hcodes : q.2.1.length = 32 := by
      rw [quantise_length]
      simp [ws]
    rw [exec_vqnt]
    refine ⟨fun hfl => ?_, runV_flagTrap h hb⟩
    have hm (k k' : Crew) (hk : k.m = k'.m) : (qntWritten o e q.1 q.2.1 k).m = (qntWritten o e q.1 q.2.1 k').m := by
      simp only [qntWritten, writeElems_m, elemWords, readWords, hk]
    obtain ⟨t, ht, hdone, htm, hw, hsc, hqs, hv, hctr⟩ :=
      runV_writes (i := .vqnt o) (n := { nf := true }) h hb (fun _ => rfl) hm hfl
    refine ⟨t, ht, hdone, hw, hsc, hqs, hv, hctr, ?_, fun i hi hs => ?_, fun x hs hx => ?_⟩
    · rw [htm, qntWritten_scale]
    · have hread : elemOf t c dst 8 i = (readElems (qntWritten o e q.1 q.2.1 (s.crew c)) dst 8).getD i 0 := by
        simp only [elemOf, readElems, readWords, htm]
      rw [hread]
      exact qntWritten_code o e (s.crew c) q.1 hcodes hi hs
    · rw [htm]
      exact qntWritten_other o e (s.crew c) q.1 hcodes hs hx
  case dqnt =>
    intro o s c d e hwf h hmode hvnf m σ r fl
    rw [exec_vdqnt]
    refine runV_elements (es := ((List.range 32).map r).map fun r => some r.1) ⟨by decide, by decide⟩ h ?_
      fun i hi => getD_map_results r hi
    rw [dqntBody_collects hvnf (nfMode_ok _ (vqnt_fmt hwf) hmode), vBegun_crew]
    simp only [fl, r, σ, elemOf_word]
    rfl
  case unread =>
    intro o s c e mk hmk hwf h hmode hvnf
    obtain rfl | rfl | ⟨rfl, hc⟩ := hmk
    · exact runV_noFormat h (m_bind_err (needNf_fails hvnf _))
    · exact runV_noFormat h (m_bind_err (needNf_fails hvnf _))
    · exact runV_noFormat h (cvtBody_noFormat hc (hmode rfl) hvnf)
end

/-! ### V reductions, scans, dot products and extrema (O35) -/

section
namespace Sys2Proof.Machine

/-! #### The enabled elements of A -/

theorem DividesWord.readElems_length {w : Nat} (h : DividesWord w) (k : Crew) (d : MatOp) :
    (readElems k d w).length = 1024 / w := by
  rw [Machine.readElems_length, h.count]

theorem enabledElems_eq_chosen (s : State) (c : Nat) (e : Entry) (o : VFmt) : enabledElems (s.crew c) e o = chosen s c e o := by
  have hlist : ((readElems (s.crew c) (matOperand o e 2) (vWidth o.fmt)).zipIdx.map fun (v, i) => (i, v)) =
      (List.range o.count).map fun i => (i, elemOf s c (matOperand o e 2) (vWidth o.fmt) i) := by
    have hlen := (dividesWord_vWidth o.fmt).readElems_length (s.crew c) (matOperand o e 2)
    refine List.ext_getElem (by simp [hlen, VFmt.count]) fun i hi _ => ?_
    have hi : i < (readElems (s.crew c) (matOperand o e 2) (vWidth o.fmt)).length := by simpa using hi
    simp [elemOf, hi]
  unfold enabledElems chosen
  rw [hlist, List.filter_map]
  rfl

theorem efOf_eq {o : VFmt} (h : o.fmt ≤ 8) : efOf o = (EF.ofCode o.fmt).getD .nf := by
  unfold efOf
  interval_cases o.fmt <;> rfl

/-! #### Instructions that write the first elements of their destination -/

theorem getD_map_some (l : List Nat) (i : Nat) : (l.map some).getD i none = l[i]? := by
  rw [List.getD_eq_getElem?_getD, List.getElem?_map]
  cases l[i]? <;> rfl

/-- An instruction whose body collects the flags of a reduction and writes its values. -/
theorem reducing_of {mk : VFmt → Instr} {body : VFmt → Nat → Entry → M Unit} {w : VFmt → Nat} {mode : VFmt → Entry → Nat}
    {f : VFmt → Nat → (Nat → Nat → Nat) → List (Nat × Nat) → Nat → List Nat × Flags}
    (hrun : ∀ o s, exec (mk o) s = runV o (mk o) {} (body o) s) (hw : ∀ o, DividesWord (w o))
    (hb : ∀ o s c e, (mk o).wf = true → (mode o e ≠ 0 → ModeLegal o e) →
      let rnd := if mode o e = 4 then vecRnd (s.crew c) e (matOperand o e 1) (w o) 0 else 0
      let r := f o (mode o e) (fun k i => elemOf s c (matOperand o e k) (vWidth o.fmt) i) (enabledElems (s.crew c) e o) rnd
      body o c e (vBegun s c o.tok e) = collect c e r.2 (fun k => writeElems k (matOperand o e 1) (w o) (r.1.map some)) (mode o e)
        (vBegun s c o.tok e)) : Reducing mk w mode f := by
  intro o s c e hwf h hmode rnd r
  have hb := hb o s c e hwf hmode
  rw [enabledElems_eq_chosen] at hb
  rw [hrun]
  exact runV_elements (hw o) (es := r.1.map some) h hb fun i _ => getD_map_some r.1 i

theorem reducing_vred : Reducing .vred (fun o => vWidth o.fmt) vecMode (fun o m _ xs rnd =>
    let r := reduce o m rnd (xs.map (·.2))
    ([r.1], r.2)) := by
  refine reducing_of (body := redBody) (fun _ _ => rfl) (fun o => dividesWord_vWidth o.fmt) fun o s c e _ hmode => ?_
  refine (m_bind_ok (vMode_ok _ hmode)).trans ?_
  rw [m_bind_ok (m_get _), vBegun_crew]
  rfl

theorem reducing_vdot : Reducing .vdot (fun _ => 32) vecMode (fun o m el xs rnd =>
    let r := dotOf o m rnd (xs.map fun p => (p.2, el 3 p.1))
    ([r.1], r.2)) := by
  refine reducing_of (body := dotBody) (fun _ _ => rfl) (fun _ => ⟨by decide, by decide⟩) fun o s c e _ hmode => ?_
  refine (m_bind_ok (vMode_ok _ hmode)).trans ?_
  rw [m_bind_ok (m_get _), vBegun_crew]
  rfl

theorem reducing_extreme {mk : VFmt → Instr} {op : Nat} (hrun : ∀ o s, exec (mk o) s = runV o (mk o) {} (extremeBody o op) s)
    (hwf : ∀ o, (mk o).wf = true → o.fmt ≤ 8) :
    Reducing mk (fun _ => 32) (fun _ _ => 0) (fun o _ _ xs _ =>
      let r := selectExtreme ((EF.ofCode o.fmt).getD .nf) op xs
      ([r.1, r.2.1], r.2.2)) := by
  refine reducing_of (body := fun o => extremeBody o op) hrun (fun _ => ⟨by decide, by decide⟩) fun o s c e hw _ => ?_
  dsimp only [extremeBody]
  rw [m_bind_ok (m_get _), vBegun_crew, ← efOf_eq (hwf o hw)]
  rfl

/-! #### VSCAN -/

theorem vscan_scans (o : VFmt) (s : State) (c : Nat) (e : Entry) (h : Performs 2 o.tok s c e)
    (hmode : vecMode o e ≠ 0 → ModeLegal o e) :
    let m := vecMode o e
    let r (i : Nat) : Option (Nat × Flags) :=
      if enabled (s.crew c) o.mg i then
        some (reduce o m (if m = 4 then vecRnd (s.crew c) e (matOperand o e 1) (vWidth o.fmt) i else 0)
          (((chosen s c e o).filter fun p => p.1 ≤ i).map (·.2)))
      else none
    let fl := gather ((List.range o.count).map r)
    (fl &&& e.vctl.toNat &&& 0x3F = 0 → ∃ t, exec (.vscan o) s = .next t ∧
      VWrites s t c e o (vWidth o.fmt) (fun i => (r i).map (·.1)) fl m) ∧
    (fl &&& e.vctl.toNat &&& 0x3F ≠ 0 → ∃ t, exec (.vscan o) s = .next t ∧ VTraps s t c e fl) := by
  intro m r fl
  have hrun : exec (.vscan o) s = runV o (.vscan o) {} (scanBody o) s := rfl
  rw [hrun]
  refine runV_elements (dividesWord_vWidth o.fmt) (es := ((List.range o.count).map r).map fun r => r.map (·.1)) h ?_
    fun i hi => getD_map_range r (·.1) hi
  refine (m_bind_ok (vMode_ok _ hmode)).trans ?_
  simp only [fl, r, ← enabledElems_eq_chosen]
  rw [m_bind_ok (m_get _), vBegun_crew]
  rfl

/-! #### The extreme of integer elements (R261) -/

theorem wrapN_ival {w : Nat} (sg : Bool) {x : Nat} (hx : x < 2 ^ w) : wrapN (ival w sg x) w = x := by
  have hcast : ((2 : Int) ^ w) = ((2 ^ w : Nat) : Int) := by push_cast; rfl
  unfold wrapN ival
  cases sg with
  | false =>
    rw [if_neg Bool.false_ne_true, hcast, Int.emod_eq_of_lt (by omega) (by omega), Int.toNat_natCast]
  | true =>
    rw [if_pos rfl]
    unfold sext
    dsimp only
    rw [Nat.mod_eq_of_lt hx]
    split
    · rw [hcast, Int.emod_eq_of_lt (by omega) (by omega), Int.toNat_natCast]
    · rw [hcast, Int.sub_emod_right, Int.emod_eq_of_lt (by omega) (by omega), Int.toNat_natCast]

/-- An element that no other goes before is the one a fold for the extreme keeps. -/
theorem foldl_extreme {α : Type} [DecidableEq α] (before : α → α → Prop) [DecidableRel before] (v : α) (l : List α) (a : α)
    (hbest : ∀ x ∈ a :: l, x = v ∨ before v x) (hirr : ∀ x, before v x → ¬before x v) (hmem : v ∈ a :: l) :
    l.foldl (fun a x => if before x a then x else a) a = v := by
  have hvv : ¬before v v := fun h => hirr v h h
  induction l generalizing a with
  | nil => exact (List.mem_singleton.1 hmem).symm
  | cons x l ih =>
    rw [List.foldl_cons]
    have hx := hbest x (by simp)
    have ha := hbest a (by simp)
    refine ih _ (fun y hy => ?_) ?_
    · obtain rfl | hy := List.mem_cons.1 hy
      · split
        · exact hx
        · exact ha
      · exact hbest y (by simp [hy])
    · obtain rfl | hm := List.mem_cons.1 hmem
      · refine List.mem_cons.2 (.inl ?_)
        rw [if_neg]
        exact hx.elim (fun h => h ▸ hvv) (hirr x)
      · obtain rfl | hm := List.mem_cons.1 hm
        · obtain rfl | ha := ha
          · simp
          · simp [ha]
        · exact List.mem_cons.2 (.inr hm)

/-- VMINX or VMAXX of integer elements: the extreme one, and the first of those that hold it (R261). -/
theorem selectExtreme_int {op : Nat} {sg : Bool} {w : Nat} {es : List (Nat × Nat)} {p : Nat × Nat} (hp : p ∈ es)
    (hbest : ∀ q ∈ es, q.2 < 2 ^ w ∧
      ((if op = 1 then ival w sg p.2 < ival w sg q.2 else ival w sg q.2 < ival w sg p.2) ∨ (q.2 = p.2 ∧ p.1 ≤ q.1)))
    (hop : op = 1 ∨ op = 2) (hord : es.Pairwise fun a b => a.1 < b.1) :
    selectExtreme (.int w sg) op es = (p.2, p.1, 0) := by
  have hreduce : reduceI w sg op 0 (es.map (·.2)) = p.2 := by
    have hfold := foldl_extreme (fun x a : Int => if op = 1 then x < a else a < x) (ival w sg p.2)
    have hall (x : Int) (hx : x ∈ (es.map (·.2)).map (ival w sg)) :
        x = ival w sg p.2 ∨ if op = 1 then ival w sg p.2 < x else x < ival w sg p.2 := by
      obtain ⟨v, hv, rfl⟩ := List.mem_map.1 hx
      obtain ⟨q, hq, rfl⟩ := List.mem_map.1 hv
      exact (hbest q hq).2.elim .inr fun h => .inl (congrArg _ h.1)
    have hmem : ival w sg p.2 ∈ (es.map (·.2)).map (ival w sg) :=
      List.mem_map_of_mem (List.mem_map_of_mem hp)
    have hirr (x : Int) (h : if op = 1 then ival w sg p.2 < x else x < ival w sg p.2) :
        ¬if op = 1 then x < ival w sg p.2 else ival w sg p.2 < x := by
      by_cases h1 : op = 1
      · simp only [if_pos h1] at h ⊢
        omega
      · simp only [if_neg h1] at h ⊢
        omega
    unfold reduceI
    dsimp only
    rw [if_neg (by omega)]
    cases hvs : (es.map (·.2)).map (ival w sg) with
    | nil => simp [hvs] at hmem
    | cons v t =>
      rw [hvs] at hall hmem
      dsimp only
      rw [hfold t v hall hirr hmem, wrapN_ival sg (hbest p hp).1]
  have hfind : (es.find? fun q => q.2 == p.2) = some p := by
    obtain ⟨as, bs, rfl⟩ := List.append_of_mem hp
    refine List.find?_eq_some_iff_append.2 ⟨by simp, as, bs, rfl, fun q hq => ?_⟩
    have hlt : q.1 < p.1 := (List.pairwise_append.1 hord).2.2 q hq p List.mem_cons_self
    have hq := (hbest q (List.mem_append_left _ hq)).2
    simp only [Bool.not_eq_true', beq_eq_false_iff_ne]
    intro heq
    obtain hq | ⟨-, hle⟩ := hq
    · rw [heq] at hq
      split at hq <;> omega
    · omega
  unfold selectExtreme
  dsimp only
  rw [hreduce, hfind]

end Sys2Proof.Machine
end

/-! ### VTOPK (O35) -/

section
namespace Sys2Proof.Ex

/-! #### The order of values with -0 below +0 (R47) -/

/-- A value that is not NaN, with a denominator above zero. -/
def Proper : Ex → Prop
  | .nan => False
  | .inf _ => True
  | .fin _ _ d => 0 < d

/-- A numerator with its sign. -/
def signed (s : Bool) (n : Nat) : Int := if s then -(n : Int) else n

/-- Where a value stands in the order: its class, its real value, and a zero's sign. -/
def rank : Ex → Int ×ₗ ℚ ×ₗ Int
  | .nan => toLex (0, toLex (0, 0))
  | .inf s => toLex (if s then -1 else 1, toLex (0, 0))
  | .fin s n d => toLex (0, toLex ((signed s n : ℚ) / d, if n = 0 ∧ s = false then 1 else 0))

theorem lt_fin_iff {s t : Bool} {n m d e : Nat} (hd : 0 < d) (he : 0 < e) :
    (fin s n d).lt (fin t m e) = true ↔ (signed s n : ℚ) / d < (signed t m : ℚ) / e := by
  have hmul (s : Bool) (n e : Nat) : (if s then -((n * e : Nat) : Int) else (n * e : Nat)) = signed s n * e := by
    cases s <;> simp [signed]
  rw [div_lt_div_iff₀ (by exact_mod_cast hd) (by exact_mod_cast he)]
  unfold lt cmp
  dsimp only
  rw [hmul, hmul, beq_iff_eq, Option.some.injEq, compare_lt_iff_lt]
  exact_mod_cast Iff.rfl

theorem ltZ_iff {a b : Ex} (ha : a.Proper) (hb : b.Proper) : a.ltZ b = true ↔ a.rank < b.rank := by
  match a, b, ha, hb with
  | .inf s, .inf t, _, _ => cases s <;> cases t <;> simp [ltZ, lt, cmp, rank, isZero, Prod.Lex.toLex_lt_toLex]
  | .inf s, .fin .., _, _ => cases s <;> simp [ltZ, lt, cmp, rank, isZero, Prod.Lex.toLex_lt_toLex]
  | .fin .., .inf t, _, _ => cases t <;> simp [ltZ, lt, cmp, rank, isZero, Prod.Lex.toLex_lt_toLex]
  | .fin s n d, .fin t m e, hd, he =>
    have hd : 0 < d := hd
    have he : 0 < e := he
    have hzero : (signed s n : ℚ) / d = (signed t m : ℚ) / e → (n = 0 ↔ m = 0) := fun h => by
      have hnum (s : Bool) (n d : Nat) (hd : 0 < d) : (signed s n : ℚ) / d = 0 ↔ n = 0 := by
        cases s <;> simp [signed, Nat.ne_of_gt hd]
      rw [← hnum s n d hd, ← hnum t m e he, h]
    simp only [ltZ, Bool.or_eq_true, lt_fin_iff hd he, rank, Prod.Lex.toLex_lt_toLex, lt_self_iff_false, false_or, true_and]
    refine or_congr_right ?_
    simp only [isZero, negative, Bool.and_eq_true, beq_iff_eq, Bool.not_eq_true']
    constructor
    · rintro ⟨⟨⟨rfl, rfl⟩, rfl⟩, rfl⟩
      simp [signed]
    · rintro ⟨h, hlt⟩
      have hmt : m = 0 ∧ t = false := by
        by_contra hmt
        rw [if_neg hmt] at hlt
        split at hlt <;> omega
      rw [if_pos hmt] at hlt
      have hns : ¬(n = 0 ∧ s = false) := fun hns => by simp [hns] at hlt
      have hn : n = 0 := (hzero h).2 hmt.1
      exact ⟨⟨⟨hn, hmt.1⟩, by simpa [hn] using hns⟩, hmt.2⟩

theorem proper_scaled (s : Bool) (m : Nat) (e : Int) : (scaled s m e).Proper := by
  unfold scaled
  split
  · exact Nat.two_pow_pos _
  · exact Nat.one_pos

end Sys2Proof.Ex

namespace Sys2Proof.Machine

theorem proper_decode {f : FFmt} {x : Nat} (h : f.isNaN x = false) : (f.decode x).Proper := by
  unfold FFmt.decode
  dsimp only
  split
  · next he =>
    split
    · trivial
    · next hm => simp [FFmt.isNaN, he, hm] at h
  · split <;> exact Ex.proper_scaled ..

/-! #### The order of a list (R265) -/

/-- An entry that is not NaN goes before another by value, then by identifier. -/
theorem goesBefore_iff {x y : Nat × Nat} (hx : FFmt.f32.isNaN x.1 = false) (hy : FFmt.f32.isNaN y.1 = false) :
    goesBefore x y = true ↔ (FFmt.f32.decode y.1).rank < (FFmt.f32.decode x.1).rank ∨
      ((FFmt.f32.decode x.1).rank = (FFmt.f32.decode y.1).rank ∧ x.2 < y.2) := by
  have hxy := Ex.ltZ_iff (proper_decode hx) (proper_decode hy)
  have hyx := Ex.ltZ_iff (proper_decode hy) (proper_decode hx)
  simp only [goesBefore, Bool.or_eq_true, Bool.and_eq_true, Bool.not_eq_true', decide_eq_true_eq, hyx, ← Bool.not_eq_true, hxy]
  rcases lt_trichotomy (FFmt.f32.decode x.1).rank (FFmt.f32.decode y.1).rank with h | h | h
  · simp [h, h.ne]
  · simp [h]
  · simp [h]

/-- A list entry's place, greatest value first. -/
def place (x : Nat × Nat) : (Int ×ₗ ℚ ×ₗ Int)ᵒᵈ ×ₗ Nat := toLex (OrderDual.toDual (FFmt.f32.decode x.1).rank, x.2)

theorem goesBefore_place {x y : Nat × Nat} (hx : FFmt.f32.isNaN x.1 = false) (hy : FFmt.f32.isNaN y.1 = false) :
    goesBefore x y = true ↔ place x < place y := by
  rw [goesBefore_iff hx hy, place, place, Prod.Lex.toLex_lt_toLex]
  simp

/-- Entries in order, none of them NaN. -/
def Ranked (l : List (Nat × Nat)) : Prop := l.Pairwise (fun x y => place x ≤ place y) ∧ ∀ x ∈ l, FFmt.f32.isNaN x.1 = false

theorem rankIn_perm (x : Nat × Nat) (l : List (Nat × Nat)) : (rankIn x l).Perm (x :: l) := by
  induction l with
  | nil => rfl
  | cons y l ih =>
    unfold rankIn
    split
    · rfl
    · exact (ih.cons y).trans (List.Perm.swap x y l)

theorem rankIn_ranked {x : Nat × Nat} (hx : FFmt.f32.isNaN x.1 = false) {l : List (Nat × Nat)} (h : Ranked l) :
    Ranked (rankIn x l) := by
  obtain ⟨hl, hnan⟩ := h
  refine ⟨?_, fun y hy => ?_⟩
  · induction l with
    | nil => exact List.pairwise_singleton ..
    | cons y l ih =>
      have hy := hnan y List.mem_cons_self
      obtain ⟨hyl, hl'⟩ := List.pairwise_cons.1 hl
      unfold rankIn
      split
      · next hb =>
        have hlt := (goesBefore_place hx hy).1 hb
        refine List.pairwise_cons.2 ⟨fun z hz => ?_, hl⟩
        obtain rfl | hz := List.mem_cons.1 hz
        · exact hlt.le
        · exact hlt.le.trans (hyl z hz)
      · next hb =>
        refine List.pairwise_cons.2 ⟨fun z hz => ?_, ih hl' fun z hz => hnan z (List.mem_cons_of_mem _ hz)⟩
        obtain rfl | hz := List.mem_cons.1 ((rankIn_perm x l).mem_iff.1 hz)
        · exact not_lt.1 fun h => hb ((goesBefore_place hx hy).2 h)
        · exact hyl z hz
  · obtain rfl | hy := List.mem_cons.1 ((rankIn_perm x l).mem_iff.1 hy)
    · exact hx
    · exact hnan y hy

theorem rankAll {l acc : List (Nat × Nat)} (hl : ∀ x ∈ l, FFmt.f32.isNaN x.1 = false) (hacc : Ranked acc) :
    let ranked := l.foldl (fun l x => rankIn x l) acc
    Ranked ranked ∧ ranked.Perm (acc ++ l) := by
  induction l generalizing acc with
  | nil => exact ⟨hacc, by simp⟩
  | cons x l ih =>
    obtain ⟨hr, hp⟩ := ih (fun y hy => hl y (List.mem_cons_of_mem _ hy)) (rankIn_ranked (hl x List.mem_cons_self) hacc)
    refine ⟨hr, hp.trans ?_⟩
    exact ((rankIn_perm x acc).append_right l).trans (List.perm_middle.symm)

/-! #### The words of the list -/

theorem topkWord_inj (d : MatOp) {j j' part part' : Nat} (hj : j < 128) (hj' : j' < 128) (hp : part < 2) (hp' : part' < 2)
    (h : topkWord d j part = topkWord d j' part') : j = j' ∧ part = part' := by
  have hcol : j % 32 = j' % 32 := by
    unfold topkWord MatOp.at MatOp.shift MatOp.place at h
    dsimp only at h
    split at h <;> dsimp only at h <;> omega
  have hidx : (d.idx + (2 * (j / 32) + part)) % 32 = (d.idx + (2 * (j' / 32) + part')) % 32 := by
    unfold topkWord MatOp.at MatOp.shift MatOp.place at h
    rw [hcol] at h
    dsimp only at h
    have ha : (d.idx + (2 * (j / 32) + part)) % 32 < 32 := Nat.mod_lt _ (by decide)
    generalize (d.idx + (2 * (j / 32) + part)) % 32 = a at h ha ⊢
    split at h <;> dsimp only at h <;> omega
  omega

/-- The matrix registers with list entries written, from entry j on. -/
def topkPut (m : Tbl (BitVec 32)) (d : MatOp) (x : Nat × Nat) (j : Nat) : Tbl (BitVec 32) :=
  (m.put (topkWord d j 0) (BitVec.ofNat 32 x.1) 0).put (topkWord d j 1) (BitVec.ofNat 32 x.2) 0

def topkList (m : Tbl (BitVec 32)) (d : MatOp) (l : List (Nat × Nat)) (j : Nat) : Tbl (BitVec 32) :=
  (l.zipIdx j).foldl (fun m p => topkPut m d p.1 p.2) m

theorem topkList_cons (m : Tbl (BitVec 32)) (d : MatOp) (x : Nat × Nat) (l : List (Nat × Nat)) (j : Nat) :
    topkList m d (x :: l) j = topkList (topkPut m d x j) d l (j + 1) := rfl

theorem topkPut_other (m : Tbl (BitVec 32)) {d : MatOp} (x : Nat × Nat) {j y : Nat} (h : ∀ part < 2, y ≠ topkWord d j part) :
    (topkPut m d x j).find? y = m.find? y :=
  (Tbl.find?_put_other _ _ _ (h 1 (by omega))).trans (Tbl.find?_put_other _ _ _ (h 0 (by omega)))

theorem topkList_other (m : Tbl (BitVec 32)) {d : MatOp} (l : List (Nat × Nat)) {j y : Nat}
    (h : ∀ i < l.length, ∀ part < 2, y ≠ topkWord d (j + i) part) : (topkList m d l j).find? y = m.find? y := by
  induction l generalizing m j with
  | nil => rfl
  | cons x l ih =>
    rw [topkList_cons, ih (topkPut m d x j) fun i hi part hp => ?_]
    · exact topkPut_other _ _ (h 0 (by simp))
    rw [Nat.add_assoc, Nat.add_comm 1]
    exact h (i + 1) (by simpa using hi) part hp

/-- Entry i of a list that has been written. -/
theorem topkList_at (m : Tbl (BitVec 32)) (d : MatOp) (l : List (Nat × Nat)) {j i : Nat} (hl : j + l.length ≤ 128)
    (hi : i < l.length) :
    (topkList m d l j).getD (topkWord d (j + i) 0) 0 = BitVec.ofNat 32 l[i].1 ∧
    (topkList m d l j).getD (topkWord d (j + i) 1) 0 = BitVec.ofNat 32 l[i].2 := by
  induction l generalizing m j i with
  | nil => simp at hi
  | cons x l ih =>
    rw [List.length_cons] at hl hi
    rw [topkList_cons]
    cases i with
    | zero =>
      have hkeep (part : Nat) (hp : part < 2) :
          (topkList (topkPut m d x j) d l (j + 1)).getD (topkWord d j part) 0 = (topkPut m d x j).getD (topkWord d j part) 0 :=
        congrArg (Option.getD · 0) (topkList_other _ l fun i hi part' hp' h => by
          have := topkWord_inj d (by omega) (by omega) hp hp' h
          omega)
      have hne : topkWord d j 0 ≠ topkWord d j 1 := fun h => by
        have := topkWord_inj d (by omega) (by omega) (by omega) (by omega) h
        omega
      simp only [Nat.add_zero, hkeep 0 (by omega), hkeep 1 (by omega)]
      exact ⟨(Tbl.getD_put_other _ _ _ hne).trans (Tbl.getD_put_same _ _ _ _), Tbl.getD_put_same _ _ _ _⟩
    | succ i =>
      rw [← Nat.add_assoc, Nat.add_right_comm]
      exact ih (topkPut m d x j) (by omega) (by omega)

end Sys2Proof.Machine
end

section
namespace Sys2Proof.Machine

/-! #### VTOPK, and O35 -/

/-- VTOPK's list as its registers hold it. -/
def topkOld (k : Crew) (o : VFmt) (e : Entry) : List (Nat × Nat) :=
  (List.range (o.c % 128)).map fun j =>
    ((k.m.getD (topkWord (matOperand o e 1) j 0) 0).toNat, (k.m.getD (topkWord (matOperand o e 1) j 1) 0).toNat)

/-- The candidates: the enabled elements of A, with those of B as identifiers. -/
def topkCands (k : Crew) (o : VFmt) (e : Entry) : List (Nat × Nat) :=
  (enabledElems k e o).map fun p => (p.2, (readWords k (matOperand o e 3)).getD p.1 0)

/-- List and candidates in order, without those that are NaN. -/
def topkRanked (k : Crew) (o : VFmt) (e : Entry) : List (Nat × Nat) :=
  ((topkOld k o e ++ topkCands k o e).filter fun x => !FFmt.f32.isNaN x.1).foldl (fun l x => rankIn x l) []

def topkFlags (k : Crew) (o : VFmt) (e : Entry) : Flags :=
  flagIf ((topkCands k o e).any fun x => FFmt.f32.isSNaN x.1 && !isSCR x.1) Flag.nv

/-- Where the list holds no NaN, VTOPK leaves the first of the ranked entries. -/
theorem topkBody_collects {o : VFmt} {c : Nat} {e : Entry} {s : State}
    (h : ∀ x ∈ topkOld (s.crew c) o e, FFmt.f32.isNaN x.1 = false) :
    topkBody o c e s = collect c e (topkFlags (s.crew c) o e)
      (fun k => { k with
        m := topkList k.m (matOperand o e 1) ((topkRanked (s.crew c) o e).take (o.c % 128)) 0 }) 0 s := by
  have hnone : (topkOld (s.crew c) o e).filter (fun x => FFmt.f32.isNaN x.1) = [] :=
    List.filter_eq_nil_iff.2 fun x hx => by simp [h x hx]
  have hplace : placeFree (topkRanked (s.crew c) o e) ((topkOld (s.crew c) o e).filter fun x => FFmt.f32.isNaN x.1) s =
      .ok (topkRanked (s.crew c) o e) s := by
    rw [hnone]
    rfl
  unfold topkBody
  rw [m_bind_ok (m_get s)]
  exact (m_bind_ok hplace).trans rfl

section
variable {k : Crew} {o : VFmt} {e : Entry}

theorem topkRanked_spec (h : ∀ x ∈ topkOld k o e, FFmt.f32.isNaN x.1 = false) :
    Ranked (topkRanked k o e) ∧
      (topkRanked k o e).Perm (topkOld k o e ++ (topkCands k o e).filter fun x => !FFmt.f32.isNaN x.1) := by
  obtain ⟨hr, hp⟩ := rankAll (l := (topkOld k o e ++ topkCands k o e).filter fun x => !FFmt.f32.isNaN x.1) (acc := [])
    (fun x hx => by simpa using (List.mem_filter.1 hx).2) ⟨List.Pairwise.nil, nofun⟩
  refine ⟨hr, hp.trans ?_⟩
  rw [List.nil_append, List.filter_append, List.filter_eq_self.2 fun x hx => by simp [h x hx]]

theorem topkOld_lt : ∀ x ∈ topkOld k o e, x.1 < 2 ^ 32 ∧ x.2 < 2 ^ 32 := by
  intro x hx
  obtain ⟨j, -, rfl⟩ := List.mem_map.1 hx
  exact ⟨BitVec.isLt _, BitVec.isLt _⟩

theorem readWords_lt (k : Crew) (d : MatOp) (i : Nat) : (readWords k d).getD i 0 < 2 ^ 32 := by
  by_cases hi : i < 32
  · rw [readWords_getD k d hi]
    exact BitVec.isLt _
  · rw [List.getD_eq_default _ _ (by simp [readWords]; omega)]
    exact Nat.two_pow_pos _

theorem topkCands_lt (hfmt : o.fmt = 0) : ∀ x ∈ topkCands k o e, x.1 < 2 ^ 32 ∧ x.2 < 2 ^ 32 := by
  intro x hx
  obtain ⟨p, hp, rfl⟩ := List.mem_map.1 hx
  refine ⟨?_, readWords_lt _ _ _⟩
  obtain ⟨q, hq, rfl⟩ := List.mem_map.1 (List.mem_filter.1 hp).1
  have hv : q.1 ∈ readElems k (matOperand o e 2) (vWidth o.fmt) := List.fst_mem_of_mem_zipIdx hq
  rw [hfmt, show vWidth 0 = 32 from rfl, readElems_word] at hv
  obtain ⟨i, -, hi⟩ := List.mem_map.1 hv
  rw [← hi]
  exact BitVec.isLt _

end

theorem listEntries_topkList {t : State} {c : Nat} {d : MatOp} {m : Tbl (BitVec 32)} {l : List (Nat × Nat)}
    (ht : (t.crew c).m = topkList m d l 0) (hl : l.length ≤ 128) (hlt : ∀ x ∈ l, x.1 < 2 ^ 32 ∧ x.2 < 2 ^ 32) :
    (List.range l.length).map (listEntry t c d) = l := by
  refine List.ext_getElem (by simp) fun i _ hi => ?_
  obtain ⟨hv, hid⟩ := topkList_at m d l (j := 0) (by omega) hi
  obtain ⟨hvlt, hidlt⟩ := hlt _ (List.getElem_mem hi)
  rw [Nat.zero_add] at hv hid
  simp only [List.getElem_map, List.getElem_range, listEntry, ht, hv, hid, BitVec.toNat_ofNat, Nat.mod_eq_of_lt hvlt,
    Nat.mod_eq_of_lt hidlt]

/-- Entries in order: none goes before an earlier one. -/
theorem Ranked.goesBefore_eq_false {l : List (Nat × Nat)} (h : Ranked l) :
    l.Pairwise fun x y => goesBefore y x = false := by
  obtain ⟨hl, hnan⟩ := h
  refine hl.imp_of_mem fun {x y} hx hy hxy => ?_
  rw [← Bool.not_eq_true, goesBefore_place (hnan y hy) (hnan x hx)]
  exact not_lt.2 hxy

end Sys2Proof.Machine

open Sys2Proof Sys2Proof.Machine

/-- Settles O35: each reduction by what its body collects, VTOPK by the order of the ranked entries. -/
theorem vectorReductions : Obligations.VectorReductions := by
  unfold Obligations.VectorReductions
  have hle {o : VFmt} {x y : Bool} (h : (x && decide (o.fmt ≤ 8) && y) = true) : o.fmt ≤ 8 := fmt_le_of_wf le_rfl h
  refine ⟨reducing_vred, reducing_vdot, reducing_extreme (fun _ _ => rfl) fun _ h => hle h,
    reducing_extreme (fun _ _ => rfl) fun _ h => hle h, fun o s c e _ => vscan_scans o s c e,
    fun op sg w es p hop _ hp hbest => selectExtreme_int hp hbest hop, ?topk⟩
  case topk =>
    intro o s c e hwf h k dst old cands fl hold
    have hfmt : o.fmt = 0 := by
      have hwf : (o.ranged && o.classes .matrix .matrix .matrix (some 127) && o.fmt == 0 && decide (1 ≤ o.c) &&
          o.rm == 0) = true := hwf
      simp only [Bool.and_eq_true, beq_iff_eq] at hwf
      exact hwf.1.1.2
    have hcands : topkCands (s.crew c) o e = cands := by
      unfold topkCands
      simp only [cands, enabledElems_eq_chosen, elemOf_word]
    have hflags : topkFlags (s.crew c) o e = fl := by rw [topkFlags, hcands]
    have hold' : ∀ x ∈ topkOld (vCrew (s.crew c) o.tok e) o e, FFmt.f32.isNaN x.1 = false := hold
    obtain ⟨hranked, hperm⟩ := topkRanked_spec (k := s.crew c) (o := o) (e := e) hold
    have hrun : exec (.vtopk o) s = runV o (.vtopk o) {} (topkBody o) s := rfl
    rw [hrun]
    have hb : topkBody o c e (vBegun s c o.tok e) = collect c e fl
        (fun k' => { k' with m := topkList k'.m dst ((topkRanked (s.crew c) o e).take k) 0 }) 0 (vBegun s c o.tok e) := by
      rw [topkBody_collects (by rw [vBegun_crew]; exact hold'), vBegun_crew, ← hflags]
      rfl
    refine ⟨fun hfl => ?_, runV_flagTrap h hb⟩
    obtain ⟨t, ht, hdone, htm, hw, hsc, hqs, hv, hctr⟩ :=
      runV_writes (i := .vtopk o) (n := {}) h hb (fun _ => rfl) (fun k k' hk => by simp only [hk]) hfl
    have hk : k < 128 := Nat.mod_lt _ (by decide)
    have hlen : ((topkRanked (s.crew c) o e).take k).length = k := by
      have hold : (topkOld (s.crew c) o e).length = k := by simp [topkOld, k]
      rw [List.length_take, hperm.length_eq, List.length_append, hold]
      omega
    have hlt : ∀ x ∈ (topkRanked (s.crew c) o e).take k, x.1 < 2 ^ 32 ∧ x.2 < 2 ^ 32 := fun x hx => by
      obtain hx | hx := List.mem_append.1 (hperm.mem_iff.1 (List.mem_of_mem_take hx))
      · exact topkOld_lt x hx
      · exact topkCands_lt hfmt x (List.mem_filter.1 hx).1
    have hnew : (List.range k).map (listEntry t c dst) = (topkRanked (s.crew c) o e).take k := by
      have := listEntries_topkList htm (by omega) hlt
      rwa [hlen] at this
    have hsplit := hranked.goesBefore_eq_false
    rw [← List.take_append_drop k (topkRanked (s.crew c) o e), List.pairwise_append] at hsplit
    obtain ⟨hsorted, -, hahead⟩ := hsplit
    refine ⟨t, ht, hdone, hw, hsc, hqs, hv, hctr, fun x hx => ?_, ?_⟩
    · rw [htm]
      refine topkList_other _ _ fun j hj part hp => ?_
      rw [Nat.zero_add]
      exact hx j (hlen ▸ hj) part hp
    · rw [hnew]
      refine ⟨hsorted, (topkRanked (s.crew c) o e).drop k, ?_, hahead⟩
      rw [List.take_append_drop, ← hcands]
      exact hperm
end

/-! ### Control registers (O30) -/

section
namespace Sys2Proof.Machine

/-! #### The rows of the table, by their holders (R436) -/

theorem ctlRow_range {n : Nat} (h : (0x040 ≤ n ∧ n ≤ 0x07F) ∨ (0x080 ≤ n ∧ n ≤ 0x0BF)) :
    ∃ wr, ctlRow n = some (.crew, some 0, some wr) := by
  unfold ctlRow
  by_cases h1 : 0x040 ≤ n ∧ n ≤ 0x07F
  · exact ⟨1, if_pos h1⟩
  · exact ⟨0, (if_neg h1).trans (if_pos (h.resolve_left h1))⟩

/-- A crew's register that CTLR reads: its row of the table, and its value. -/
theorem ctlRow_of_crewRegister {s : State} {c n : Nat} {v : Word} (h : crewRegister s c n = some v) :
    (∃ wr, ctlRow n = some (.crew, some 0, wr)) ∧ readCrewCtl s c n = v := by
  unfold crewRegister at h
  dsimp only at h
  split at h
  case h_13 =>
    split at h
    · next h1 =>
      obtain ⟨wr, hrow⟩ := ctlRow_range (.inl h1)
      cases h
      exact ⟨⟨_, hrow⟩, if_pos h1⟩
    · next h1 =>
      split at h
      · next h2 =>
        obtain ⟨wr, hrow⟩ := ctlRow_range (.inr h2)
        cases h
        exact ⟨⟨_, hrow⟩, (if_neg h1).trans (if_pos h2)⟩
      · cases h
  all_goals
    cases h
    exact ⟨⟨_, rfl⟩, rfl⟩

/-- A context's register that CTLR reads. -/
theorem ctlRow_of_contextRegister {x : Context} {id n lv : Nat} {v : Word} (h : contextRegister x id n = some (lv, v)) :
    (∃ wr, ctlRow n = some (.context, some lv, wr)) ∧ readContextCtl x id n = v := by
  unfold contextRegister at h
  split at h <;> cases h
  all_goals exact ⟨⟨_, rfl⟩, rfl⟩

/-- A thread's register that CTLR reads. -/
theorem ctlRow_of_threadRegister {s : State} {t n lv : Nat} {v : Word} (h : threadRegister (s.thread t) n = some (lv, v)) :
    (∃ wr, ctlRow n = some (.thread, some lv, wr)) ∧ readThreadCtl s (.thread t) n = v := by
  unfold threadRegister at h
  split at h <;> cases h
  all_goals exact ⟨⟨_, rfl⟩, rfl⟩

theorem ctlRow_of_crewWritable {n lv : Nat} (h : crewWritable n = some lv) : ctlRow n = some (.crew, some 0, some lv) := by
  unfold crewWritable at h
  split at h
  · next hn =>
    cases h
    obtain hn | hn := hn
    · simp only [List.mem_cons, List.not_mem_nil, or_false] at hn
      obtain rfl | rfl | rfl | rfl | rfl | rfl | rfl | rfl | rfl | rfl := hn <;> rfl
    · unfold ctlRow
      rw [if_neg (by omega), if_pos hn]
  · split at h
    · next hn =>
      cases h
      obtain rfl | hn := hn
      · rfl
      · exact if_pos hn
    · cases h

theorem ctlRow_of_contextWritable {n lv : Nat} (h : contextWritable n = some lv) :
    ∃ r, ctlRow n = some (.context, some r, some lv) := by
  unfold contextWritable at h
  split at h
  · next hn =>
    cases h
    subst hn
    exact ⟨_, rfl⟩
  · split at h
    · next hn =>
      cases h
      simp only [List.mem_cons, List.not_mem_nil, or_false] at hn
      obtain rfl | rfl | rfl | rfl | rfl | rfl | rfl | rfl := hn <;> exact ⟨_, rfl⟩
    · split at h
      · next hn =>
        cases h
        simp only [List.mem_cons, List.not_mem_nil, or_false] at hn
        obtain rfl | rfl | rfl := hn <;> exact ⟨_, rfl⟩
      · cases h

theorem ctlRow_of_partitionWritable {n : Nat} (h : partitionWritable n) : ctlRow n = some (.partition, none, some 2) := by
  obtain rfl | rfl | rfl := h <;> rfl

/-! #### The checks of an access (R179, R437) -/

section
variable {s : State} {w : Owner} {n lv : Nat} {write : Bool} {h : Holder} {row : Holder × Option Nat × Option Nat}

theorem ctlCheck_ok (hrow : ctlRow n = some row) (hh : row.1 = h) (hlv : (if write then row.2.2 else row.2.1) = some lv)
    (hcrew : h = .crew → (crewOf s w).isSome = true) (hle : lv ≤ levelOf s w) : ctlCheck w n write s = .ok h s := by
  obtain ⟨h', r, wr⟩ := row
  obtain rfl : h' = h := hh
  have hno : ¬((h' == .crew && (crewOf s w).isNone) = true) := fun hc => by
    simp only [Bool.and_eq_true, beq_iff_eq] at hc
    have := hcrew hc.1
    simp_all
  unfold ctlCheck
  rw [m_bind_ok (m_get s), hrow]
  dsimp only
  rw [hlv]
  dsimp only
  rw [if_neg hno, if_neg (by omega)]
  rfl

theorem ctlCheck_low (hrow : ctlRow n = some row) (hlv : (if write then row.2.2 else row.2.1) = some lv)
    (hcrew : row.1 = .crew → (crewOf s w).isSome = true) (hlt : levelOf s w < lv) :
    ctlCheck w n write s = .error (.trap { cause := 2, info := BitVec.ofNat 64 n }) s := by
  obtain ⟨h', r, wr⟩ := row
  have hno : ¬((h' == .crew && (crewOf s w).isNone) = true) := fun hc => by
    simp only [Bool.and_eq_true, beq_iff_eq] at hc
    have := hcrew hc.1
    simp_all
  unfold ctlCheck
  rw [m_bind_ok (m_get s), hrow]
  dsimp only
  rw [hlv]
  dsimp only
  rw [if_neg hno, if_pos hlt]
  rfl

theorem ctlCheck_noCrew (hrow : ctlRow n = some row) (hlv : (if write then row.2.2 else row.2.1) = some lv)
    (hh : row.1 = .crew) (hcrew : crewOf s w = none) : ctlCheck w n write s = .error (.trap { cause := 1 }) s := by
  obtain ⟨h', r, wr⟩ := row
  obtain rfl : h' = .crew := hh
  unfold ctlCheck
  rw [m_bind_ok (m_get s), hrow]
  dsimp only
  rw [hlv]
  dsimp only
  rw [hcrew]
  rfl

end

/-! #### CTLR and FEATQ -/

section
variable {o : IFmt} {s : State} {w : Owner}

theorem ctlr_reads {v : Word} (hw : curOwner s = some w) (hd : regReady s w o.d = true) (hv : readCtl w o.imm s = .ok v s) :
    exec (.ctlr o) s = .next (advance (withReg s w o.d v) w 1) := by
  refine runScalar_next hw ?_
  rw [m_bind_ok (destReady_ok hd), m_bind_ok hv, m_bind_ok (writeReg_ok hd v)]
  rfl

theorem ctlr_raises {e : Exc} (hw : curOwner s = some w) (hd : regReady s w o.d = true)
    (hv : readCtl w o.imm s = .error (.trap e) s) : exec (.ctlr o) s = .next (raised s w e) := by
  refine runScalar_raised hw ?_
  rw [m_bind_ok (destReady_ok hd), m_bind_err hv]

theorem ctlr_waits (hw : curOwner s = some w) (hd : regReady s w o.d = true) (hv : readCtl w o.imm s = .error .stall s) :
    exec (.ctlr o) s = .next s := by
  refine runScalar_stall hw (s' := s) ?_
  rw [m_bind_ok (destReady_ok hd), m_bind_err hv]

variable {n c lv : Nat} {v : Word}

/-- Reading a crew's register, but for VSTAT while S would wait (R55). -/
theorem readCtl_crew (hc : crewOf s w = some c) (hv : crewRegister s c n = some v)
    (hn : n = 0 → isCox w = true ∨ (s.crew c).vq = []) : readCtl w n s = .ok v s := by
  obtain ⟨⟨wr, hrow⟩, hread⟩ := ctlRow_of_crewRegister hv
  have hgo : ¬((decide (n = 0) && !isCox w && !(s.crew c).vq.isEmpty) = true) := fun hstop => by
    simp only [Bool.and_eq_true, decide_eq_true_eq, Bool.not_eq_true', List.isEmpty_eq_false_iff] at hstop
    exact (hn hstop.1.1).elim (ne_true_of_eq_false hstop.1.2) hstop.2
  unfold readCtl
  rw [m_bind_ok (ctlCheck_ok (h := .crew) (lv := 0) hrow rfl rfl (fun _ => by simp [hc]) (Nat.zero_le _)), m_bind_ok (m_get s)]
  dsimp only
  rw [hc]
  dsimp only
  rw [if_neg hgo, hread]
  rfl

theorem readCtl_vstat_waits (hc : crewOf s w = some c) (hw : isCox w = false) (hq : (s.crew c).vq ≠ []) :
    readCtl w 0 s = .error .stall s := by
  unfold readCtl
  rw [m_bind_ok (ctlCheck_ok (n := 0) (row := (.crew, some 0, some 0)) (h := .crew) (lv := 0) rfl rfl rfl (fun _ => by simp [hc])
    (Nat.zero_le _)), m_bind_ok (m_get s)]
  dsimp only
  rw [hc]
  dsimp only
  rw [if_pos (by simp [hw, hq])]
  rfl

theorem readCtl_noCrew (hc : crewOf s w = none) (hv : crewRegister s c n = some v) :
    readCtl w n s = .error (.trap { cause := 1 }) s := by
  obtain ⟨⟨wr, hrow⟩, -⟩ := ctlRow_of_crewRegister hv
  exact m_bind_err (ctlCheck_noCrew (lv := 0) hrow rfl rfl hc)

/-- Reading a register of the context or the thread, at the level its row gives. -/
theorem readCtl_other (hv : contextRegister (s.context (ctxOf s w)) (ctxOf s w) n = some (lv, v) ∨
      ∃ t, w = .thread t ∧ threadRegister (s.thread t) n = some (lv, v)) :
    (lv ≤ levelOf s w → readCtl w n s = .ok v s) ∧
    (levelOf s w < lv → readCtl w n s = .error (.trap { cause := 2, info := BitVec.ofNat 64 n }) s) := by
  unfold readCtl
  obtain hv | ⟨t, rfl, hv⟩ := hv
  · obtain ⟨⟨wr, hrow⟩, hread⟩ := ctlRow_of_contextRegister hv
    refine ⟨fun hle => ?_, fun hlt => m_bind_err (ctlCheck_low (write := false) hrow rfl (fun h => Holder.noConfusion h) hlt)⟩
    rw [m_bind_ok (ctlCheck_ok (write := false) (h := .context) hrow rfl rfl (fun h => Holder.noConfusion h) hle), m_bind_ok (m_get s)]
    dsimp only
    rw [hread]
    rfl
  · obtain ⟨⟨wr, hrow⟩, hread⟩ := ctlRow_of_threadRegister hv
    refine ⟨fun hle => ?_, fun hlt => m_bind_err (ctlCheck_low (write := false) hrow rfl (fun h => Holder.noConfusion h) hlt)⟩
    rw [m_bind_ok (ctlCheck_ok (write := false) (h := .thread) hrow rfl rfl (fun h => Holder.noConfusion h) hle), m_bind_ok (m_get s)]
    dsimp only
    rw [hread]
    rfl

theorem featq_reads (hw : curOwner s = some w) (hd : regReady s w o.d = true) :
    exec (.featq o) s = .next (advance (withReg s w o.d (featureWord o.imm)) w 1) := by
  refine runScalar_next hw ?_
  rw [m_bind_ok (writeReg_ok hd _)]
  rfl

end

theorem featureWord_0 : featureWord 0 = BitVec.ofNat 64 (940 + Config.stepping % 256 * 2 ^ 16 + 4 * 2 ^ 24) := by
  unfold featureWord
  rfl

theorem featureWord_4 : featureWord 4 = BitVec.ofNat 64 (Config.packageId % 2 ^ 20) := by
  unfold featureWord
  rfl

theorem featureWord_5 : featureWord 5 = BitVec.ofNat 64 (Config.packageId % 2 ^ 20
    - Config.groupId % (Config.packageId % 2 ^ 20 + 1) + (1 + Config.groupSize % 399999) * 2 ^ 20) := by
  unfold featureWord
  rfl

/-- The product code in word 0 (R481). -/
theorem featureWord_product : (featureWord 0).toNat % 2 ^ 16 = 940 := by
  have h (x : Nat) : (BitVec.ofNat 64 (940 + x % 256 * 2 ^ 16 + 4 * 2 ^ 24)).toNat % 2 ^ 16 = 940 := by
    rw [BitVec.toNat_ofNat, Nat.mod_mod_of_dvd _ (Nat.pow_dvd_pow 2 (by decide : 16 ≤ 64))]
    omega
  simpa only [← featureWord_0] using h Config.stepping

/-- Word 4 is the package's number, and word 5 the first package and the size of its group (R481). -/
theorem featureWord_group :
    (featureWord 5).toNat % 2 ^ 20 ≤ (featureWord 4).toNat ∧ 1 ≤ (featureWord 5).toNat / 2 ^ 20 := by
  have h {own g size : Nat} {x y : Word} (hx : x = BitVec.ofNat 64 (own - g + (1 + size) * 2 ^ 20)) (hy : y = BitVec.ofNat 64 own)
      (hown : own < 2 ^ 20) (hsize : size < 399999) : x.toNat % 2 ^ 20 ≤ y.toNat ∧ 1 ≤ x.toNat / 2 ^ 20 := by
    subst hx hy
    simp only [BitVec.toNat_ofNat]
    omega
  exact h featureWord_5 featureWord_4 (Nat.mod_lt _ (by decide)) (Nat.mod_lt _ (by decide))

theorem featureWord_zero {n : Nat} (h : 5 < n) : featureWord n = 0 := by
  delta featureWord
  split
  case h_6 => rfl
  all_goals exact absurd h (by decide)

/-! #### CTLW -/

section
variable {o : IFmt} {s s1 : State} {w : Owner} {h : Holder}

theorem ctlw_writes (hw : curOwner s = some w) (ha : regReady s w o.a = true) (hh : ctlCheck w o.imm true s = .ok h s)
    (hv : ctlWrite w o.imm (regVal s w o.a) h s = .ok () s1) :
    exec (.ctlw o) s = .next (if stillThere s1 w = true then advance s1 w 1 else s1) := by
  have hbody : (do
      let x ← readReg w o.a o.ta
      let h ← ctlCheck w o.imm true
      ctlWrite w o.imm x h
      let s ← get
      return if stillThere s w then Flow.next else Flow.stay : M Flow) s =
      .ok (if stillThere s1 w then Flow.next else Flow.stay) s1 := by
    rw [m_bind_ok (readReg_ok ha o.ta), m_bind_ok hh]
    exact m_bind_ok hv
  by_cases hst : stillThere s1 w = true
  · rw [if_pos hst] at hbody ⊢
    exact runScalar_next hw hbody
  · rw [if_neg hst] at hbody ⊢
    exact runScalar_stay hw hbody

theorem ctlw_raises {e : Exc} (hw : curOwner s = some w) (ha : regReady s w o.a = true)
    (hh : ctlCheck w o.imm true s = .error (.trap e) s) : exec (.ctlw o) s = .next (raised s w e) := by
  refine runScalar_raised hw ?_
  rw [m_bind_ok (readReg_ok ha o.ta), m_bind_err hh]

theorem ctlWrite_context (n : Nat) (v : Word) :
    ctlWrite w n v .context s = .ok () (s.setContext (ctxOf s w) (writeContextCtl (s.context (ctxOf s w)) n v)) := by
  unfold ctlWrite
  rw [m_bind_ok (m_get s)]
  rfl

theorem ctlWrite_crew {c : Nat} (hc : crewOf s w = some c) (n : Nat) (v : Word) :
    ctlWrite w n v .crew s = .ok () (writeCrewCtl c n v s) := by
  unfold ctlWrite
  rw [m_bind_ok (m_get s), hc]
  rfl

theorem ctlWrite_partition (t n : Nat) (v : Word) : ctlWrite (.thread t) n v .partition s = partitionWrite t n v s := by
  unfold ctlWrite
  rw [m_bind_ok (m_get s)]

end

/-- A write of a crew's register changes its crew alone, and not that crew's stage. -/
theorem writeCrewCtl_only (c n : Nat) (v : Word) (s : State) :
    ∃ k, OnlyCrew s (writeCrewCtl c n v s) c k ∧ k.stage = (s.crew c).stage := by
  have hself := OnlyCrew.refl s c
  have hset (k : Crew) (h : k.stage = (s.crew c).stage) : ∃ k', OnlyCrew s (s.setCrew c k) c k' ∧ k'.stage = (s.crew c).stage :=
    ⟨k, hself.setCrew k, h⟩
  have hq : ∃ k, OnlyCrew s (writeQcfg c (n - 0x040) v s) c k ∧ k.stage = (s.crew c).stage := by
    unfold writeQcfg
    dsimp only
    split_ifs
    · exact ⟨_, hself, rfl⟩
    · exact hset _ rfl
    · exact hset _ rfl
    · exact ⟨_, hself, rfl⟩
  have hv (reg : Nat) (x : Word) : ∃ k, OnlyCrew s (writeVctl c reg x s) c k ∧ k.stage = (s.crew c).stage := by
    unfold writeVctl
    refine hset _ ?_
    split
    · unfold applyCtl
      split <;> rfl
    · rfl
  unfold writeCrewCtl
  dsimp only
  split
  · exact hq
  · split
    · exact hset _ rfl
    · split
      · exact hv ..
      · exact hv ..
      · exact hv ..
      · exact hv ..
      case h_12 => exact ⟨_, hself, rfl⟩
      all_goals exact hset _ rfl

end Sys2Proof.Machine
end

/-! ### Control registers: what a write leaves (R133-R135, R142, R303, R436, R437) -/

section
namespace Sys2Proof.Machine

/-- A context's register takes the values its rule admits (R78, R437, R451). -/
theorem writeContextCtl_values (x : Context) (v : Word) :
    (writeContextCtl x 0x103 v).tidTable = (if v.toNat < 2 ^ 48 ∧ v.toNat % 2 ^ 16 = 0 then v else x.tidTable) ∧
    (writeContextCtl x 0x104 v).ptRoot = (if v.toNat < 2 ^ 52 ∧ v.toNat % 2 ^ 17 = 0 then v else x.ptRoot) ∧
    (writeContextCtl x 0x105 v).excVec = v ∧
    (writeContextCtl x 0x108 v).quantum = (if 10 ≤ v.toNat ∧ v.toNat < 2 ^ 16 then v.setWidth 16 else x.quantum) ∧
    (writeContextCtl x 0x10A v).wdog = (if v.toNat < 2 ^ 16 then v.setWidth 16 else x.wdog) := by
  have htable : tableOk v = true ↔ v.toNat < 2 ^ 48 ∧ v.toNat % 2 ^ 16 = 0 := by
    simp only [tableOk, Bool.and_eq_true, decide_eq_true_eq, beq_iff_eq]
  have hroot : rootOk v = true ↔ v.toNat < 2 ^ 52 ∧ v.toNat % 2 ^ 17 = 0 := by
    simp only [rootOk, Bool.and_eq_true, decide_eq_true_eq, beq_iff_eq]
  refine ⟨?_, ?_, rfl, ?_, ?_⟩
  · rw [← if_congr htable rfl rfl]
    exact apply_ite Context.tidTable ..
  · rw [← if_congr hroot rfl rfl]
    exact apply_ite Context.ptRoot ..
  · exact apply_ite Context.quantum ..
  · exact apply_ite Context.wdog ..


theorem getLsbD_low10 (i : Nat) : (0x3FF#64).getLsbD i = decide (i < 10) := by
  rw [show 0x3FF#64 = (BitVec.allOnes 10).setWidth 64 by decide, BitVec.getLsbD_setWidth, BitVec.getLsbD_allOnes,
    ← Bool.decide_and]
  exact decide_eq_decide.mpr (by omega)

theorem getLsbD_mid16 (i : Nat) : (0xFFFF0000#64).getLsbD i = decide (16 ≤ i ∧ i < 32) := by
  rw [show 0xFFFF0000#64 = (BitVec.allOnes 16).setWidth 64 <<< 16 by decide, BitVec.getLsbD_shiftLeft, BitVec.getLsbD_setWidth,
    BitVec.getLsbD_allOnes]
  by_cases h : 16 ≤ i ∧ i < 32
  · simp [h, show i - 16 < 64 by omega, show i < 64 by omega, show i - 16 < 16 by omega]
  · simp only [h]
    by_cases h' : 16 ≤ i
    · simp [show ¬ i - 16 < 16 by omega]
    · simp [show i < 16 by omega]

theorem getLsbD_clear {w : Nat} (a b : BitVec w) (i : Nat) : (a &&& ~~~b).getLsbD i = (a.getLsbD i && !b.getLsbD i) := by
  rw [BitVec.getLsbD_and, BitVec.getLsbD_not]
  by_cases h : i < w
  · simp [h]
  · simp [h, BitVec.getLsbD_of_ge a i (by omega)]

/-- Bit i of a field of a word. -/
theorem getLsbD_bits (v : Word) {w hi lo : Nat} (hw : hi + 1 - lo ≤ w) (i : Nat) :
    (BitVec.ofNat w (bits v.toNat hi lo)).getLsbD i = (decide (i < hi + 1 - lo) && v.getLsbD (lo + i)) := by
  rw [BitVec.getLsbD_ofNat, bits, Nat.testBit_mod_two_pow, Nat.testBit_div_two_pow, BitVec.getLsbD, Nat.add_comm i lo]
  by_cases h : i < hi + 1 - lo
  · simp [h, show i < w by omega]
  · simp [h]

/-- Flags written as ones are cleared (R303). -/
theorem getLsbD_clearFlags (f : BitVec 32) (v : Word) (i : Nat) :
    (f &&& ~~~(BitVec.ofNat 32 (bits v.toNat 25 16))).getLsbD i = (f.getLsbD i && !(decide (i < 10) && v.getLsbD (16 + i))) := by
  rw [getLsbD_clear, getLsbD_bits v (by decide)]

/-- The fields of a crew that a write of its registers leaves. -/
theorem writeCrewCtl_values (s : State) (c : Nat) (v : Word) :
    ((writeCrewCtl c 0x004 v s).crew c).vnfTid = v &&& 0xFFF ∧
    ((writeCrewCtl c 0x005 v s).crew c).strokeOut.getD 0 0 = v &&& 0xFFF ∧
    ((writeCrewCtl c 0x006 v s).crew c).strokeOut.getD 1 0 = v &&& 0xFFF ∧
    ((writeCrewCtl c 0x00C v s).crew c).dcplCnt = v.setWidth 32 ∧
    (∀ i, ((writeCrewCtl c 0x008 v s).crew c).ceFlags.getLsbD i =
      ((s.crew c).ceFlags.getLsbD i && !(decide (i < 10) && v.getLsbD (16 + i)))) ∧
    (∀ i, ((writeCrewCtl c 0x009 v s).crew c).ixFlags.getLsbD i =
      ((s.crew c).ixFlags.getLsbD i && !(decide (i < 10) && v.getLsbD (16 + i)))) ∧
    (∀ i, ((writeCrewCtl c 0x00A v s).crew c).fstat.getLsbD i =
      ((s.crew c).fstat.getLsbD i && !(decide (i < 10) && v.getLsbD i) && !decide (16 ≤ i ∧ i < 32))) := by
  refine ⟨?_, ?_, ?_, ?_, fun i => ?_, fun i => ?_, fun i => ?_⟩
  · exact congrArg Crew.vnfTid (State.crew_setCrew ..)
  · exact (congrArg (fun k : Crew => k.strokeOut.getD 0 0) (State.crew_setCrew ..)).trans (Tbl.getD_put_same ..)
  · exact (congrArg (fun k : Crew => k.strokeOut.getD 1 0) (State.crew_setCrew ..)).trans (Tbl.getD_put_same ..)
  · exact congrArg Crew.dcplCnt (State.crew_setCrew ..)
  · exact (congrArg (fun k : Crew => k.ceFlags.getLsbD i) (State.crew_setCrew ..)).trans (getLsbD_clearFlags ..)
  · exact (congrArg (fun k : Crew => k.ixFlags.getLsbD i) (State.crew_setCrew ..)).trans (getLsbD_clearFlags ..)
  · refine (congrArg (fun k : Crew => k.fstat.getLsbD i) (State.crew_setCrew ..)).trans ?_
    dsimp only
    rw [getLsbD_clear, getLsbD_clear, BitVec.getLsbD_and, getLsbD_mid16, Bool.and_comm (v.getLsbD i)]
    exact congrArg (fun b => (_ && !(b && _)) && _) (getLsbD_low10 i)

/-! #### V's control registers (R53, R55) -/

/-- What a write of one of V's control registers leaves of the crew. -/
def vctlWritten (k : Crew) (reg : Nat) (v : Word) : Crew :=
  match k.vq.getLast? with
  | none => applyCtl k reg v
  | some e => { k with vwrites := k.vwrites ++ [(e.name, reg, v)] }

theorem crew_writeVctl (s : State) (c reg : Nat) (v : Word) : (writeVctl c reg v s).crew c = vctlWritten (s.crew c) reg v :=
  State.crew_setCrew ..

/-- A register's value with its own write the last of those that wait. -/
theorem ctlNow_last {k k' : Crew} {name reg : Nat} {v x : Word} (h : k'.vwrites = k.vwrites ++ [(name, reg, v)]) :
    ctlNow k' reg x = v := by
  have hlast : (k'.vwrites.filter fun w => w.2.1 == reg).getLast? = some (name, reg, v) := by
    rw [h, List.filter_append, List.filter_cons_of_pos (by simp), List.filter_nil, List.getLast?_concat]
  unfold ctlNow
  rw [hlast]

theorem ctlNow_none {k : Crew} (h : k.vwrites = []) (reg : Nat) (x : Word) : ctlNow k reg x = x := by
  unfold ctlNow
  rw [h]
  rfl

/-- A write of a register of V is read back, at once or over the writes that wait. -/
theorem ctlNow_vctlWritten (k : Crew) (hk : k.vq = [] → k.vwrites = []) (reg : Nat) (v : Word) (f : Crew → Word)
    (hf : f (applyCtl k reg v) = v) (hw : (applyCtl k reg v).vwrites = k.vwrites) :
    ctlNow (vctlWritten k reg v) reg (f (vctlWritten k reg v)) = v := by
  unfold vctlWritten
  split
  · next hq => rw [ctlNow_none (hw.trans (hk (List.getLast?_eq_none_iff.mp hq))), hf]
  · exact ctlNow_last rfl

theorem vctlValue_toNat (old x : Word) : (vctlValue old x).toNat = x.toNat % 64 + old.toNat / 128 % 2 * 128 +
    (if bits x.toNat 10 8 < 5 then bits x.toNat 10 8 else bits old.toNat 10 8) * 256 := by
  have hdrm : (if bits x.toNat 10 8 < 5 then bits x.toNat 10 8 else bits old.toNat 10 8) < 8 := by
    split
    · exact Nat.mod_lt _ (by decide)
    · exact Nat.mod_lt _ (by decide)
  refine (BitVec.toNat_ofNat ..).trans (Nat.mod_eq_of_lt ?_)
  omega

theorem toNat_extract_drm (x : Word) : (x.extractLsb' 8 3).toNat = bits x.toNat 10 8 := by
  rw [BitVec.extractLsb'_toNat, Nat.shiftRight_eq_div_pow]
  rfl

/-- The value VCTL takes keeps within its field, and its bits are the written enables, NSR as it was, and the DRM if legal. -/
theorem vctlValue_bits (old x : Word) :
    (vctlValue old x).toNat < 2 ^ 11 ∧ (vctlValue old x).getLsbD 6 = false ∧ (vctlValue old x).getLsbD 7 = old.getLsbD 7 ∧
    (∀ i, i < 6 → (vctlValue old x).getLsbD i = x.getLsbD i) ∧
    (vctlValue old x).extractLsb' 8 3 =
      if (x.extractLsb' 8 3).toNat < 5 then x.extractLsb' 8 3 else old.extractLsb' 8 3 := by
  have hv := vctlValue_toNat old x
  have hdrm : (if bits x.toNat 10 8 < 5 then bits x.toNat 10 8 else bits old.toNat 10 8) < 8 := by
    split <;> exact Nat.mod_lt _ (by decide)
  have hbit (v : Word) (i : Nat) : v.getLsbD i = decide (v.toNat / 2 ^ i % 2 = 1) := Nat.testBit_eq_decide_div_mod_eq
  have hfield : ((vctlValue old x).extractLsb' 8 3).toNat =
      if bits x.toNat 10 8 < 5 then bits x.toNat 10 8 else bits old.toNat 10 8 := by
    rw [toNat_extract_drm, bits, hv]
    omega
  simp only [hbit, hv, decide_eq_decide, decide_eq_false_iff_not]
  refine ⟨by omega, by omega, by omega, fun i hi => ?_, BitVec.eq_of_toNat_eq ?_⟩
  · interval_cases i <;> omega
  · rw [hfield, toNat_extract_drm, apply_ite BitVec.toNat, toNat_extract_drm, toNat_extract_drm]

/-- What a write of each of V's control registers is read back as. -/
theorem crewRegister_written {s : State} {c : Nat} (v : Word) (hk : (s.crew c).vq = [] → (s.crew c).vwrites = []) :
    crewRegister (writeCrewCtl c 0x000 v s) c 0x000 = some (v &&& 0x3FF) ∧
    crewRegister (writeCrewCtl c 0x001 v s) c 0x001 =
      some (vctlValue (ctlNow (s.crew c) 1 ((s.crew c).vctl.setWidth 64)) v) ∧
    crewRegister (writeCrewCtl c 0x002 v s) c 0x002 = some v ∧
    crewRegister (writeCrewCtl c 0x003 v s) c 0x003 = some (v &&& 0xFFFFFFFF) := by
  have hread (t : State) : crewRegister t c 0x000 = some (ctlNow (t.crew c) 0 ((t.crew c).vstat.setWidth 64)) ∧
      crewRegister t c 0x001 = some (ctlNow (t.crew c) 1 ((t.crew c).vctl.setWidth 64)) ∧
      crewRegister t c 0x002 = some (ctlNow (t.crew c) 2 (t.crew c).rndSeed) ∧
      crewRegister t c 0x003 = some (ctlNow (t.crew c) 3 (t.crew c).rndCtr) := ⟨rfl, rfl, rfl, rfl⟩
  have hstat : ((v &&& 0x3FF).setWidth 32).setWidth 64 = v &&& 0x3FF := by
    have : (v &&& 0x3FF).toNat < 2 ^ 10 := Nat.and_lt_two_pow _ (by decide)
    bv_omega
  have hctl (old : Word) : ((vctlValue old v).setWidth 32).setWidth 64 = vctlValue old v := by
    have := (vctlValue_bits old v).1
    bv_omega
  have hw0 : (writeCrewCtl c 0x000 v s).crew c = vctlWritten (s.crew c) 0 (v &&& 0x3FF) := crew_writeVctl ..
  have hw1 : (writeCrewCtl c 0x001 v s).crew c =
      vctlWritten (s.crew c) 1 (vctlValue (ctlNow (s.crew c) 1 ((s.crew c).vctl.setWidth 64)) v) := crew_writeVctl ..
  have hw2 : (writeCrewCtl c 0x002 v s).crew c = vctlWritten (s.crew c) 2 v := crew_writeVctl ..
  have hw3 : (writeCrewCtl c 0x003 v s).crew c = vctlWritten (s.crew c) 3 (v &&& 0xFFFFFFFF) := crew_writeVctl ..
  rw [(hread _).1, (hread _).2.1, (hread _).2.2.1, (hread _).2.2.2, hw0, hw1, hw2, hw3]
  generalize s.crew c = k at hk
  exact ⟨congrArg some (ctlNow_vctlWritten k hk 0 _ (fun k => k.vstat.setWidth 64) hstat rfl),
    congrArg some (ctlNow_vctlWritten k hk 1 _ (fun k => k.vctl.setWidth 64) (hctl _) rfl),
    congrArg some (ctlNow_vctlWritten k hk 2 _ Crew.rndSeed rfl rfl),
    congrArg some (ctlNow_vctlWritten k hk 3 _ Crew.rndCtr rfl rfl)⟩

/-! #### A write from outside of a queue's registers (R133-R135, R142) -/

section
variable {s : State} {c q x : Nat}

theorem qcfgWrite_next (hst : (s.crew c).stage ≠ .gone) (hq : q < 64) :
    exec (.qcfgWrite c q x) s = .next (writeQcfg c q (BitVec.ofNat 64 x) s) :=
  by
  have hgo : ((s.crew c).stage == .gone || decide (64 ≤ q)) = false := by simp [hst, hq]
  exact congrArg Host.Outcome.next (if_neg (ne_true_of_eq_false hgo))

theorem qstatWrite_next (hst : (s.crew c).stage ≠ .gone) (hq : q < 64) :
    exec (.qstatWrite c q x) s = .next (writeQstat c q (BitVec.ofNat 64 x) s) :=
  by
  have hgo : ((s.crew c).stage == .gone || decide (64 ≤ q)) = false := by simp [hst, hq]
  exact congrArg Host.Outcome.next (if_neg (ne_true_of_eq_false hgo))

theorem any_branchQueue (l : Tbl Queue) : (l.any fun e => e.1 != q && e.2.isOpen && e.2.brq) = true ↔
    ∃ e ∈ l, e.1 ≠ q ∧ e.2.isOpen = true ∧ e.2.brq = true := by
  simp only [List.any_eq_true, Bool.and_eq_true, bne_iff_ne, and_assoc]

/-- The write of QCFG by the cases of R133. -/
theorem writeQcfg_cases (y : Word) :
    let cfg := y.setWidth 32 &&& 0xFFFEFFFF#32
    let branch := ∃ e ∈ (s.crew c).queues, e.1 ≠ q ∧ e.2.isOpen = true ∧ e.2.brq = true
    writeQcfg c q y s = if (queueOf s c q).isOpen = true then s
      else if cfg.getLsbD 31 = false then withQueue s c q { queueOf s c q with cfg := cfg }
      else if qcfgOk cfg = true ∧ (cfg.getLsbD 28 = true → ¬branch) ∧ qcfgBytes cfg ≤ queueRoom s (s.crew c).cl then
        withQueue s c q { cfg := cfg }
      else s := by
  intro cfg branch
  refine if_congr Iff.rfl rfl (if_congr (by simp [cfg]) rfl (if_congr ?_ rfl rfl))
  rw [Bool.and_eq_true, Bool.and_eq_true, decide_eq_true_iff, and_assoc, Bool.not_eq_true', Bool.and_eq_false_imp,
    ← Bool.not_eq_true, any_branchQueue]

/-- The fields of a write of QSTAT are those of its number. -/
theorem bits_ofNat64 (x : Nat) : bits (BitVec.ofNat 64 x).toNat 31 16 = bits x 31 16 ∧
    bits (BitVec.ofNat 64 x).toNat 47 32 = bits x 47 32 ∧ bits (BitVec.ofNat 64 x).toNat 63 48 = bits x 63 48 := by
  simp only [bits, BitVec.toNat_ofNat]
  omega

end

end Sys2Proof.Machine
end

/-! ### Control registers: the obligation (O30) -/

section
namespace Sys2Proof.Machine

theorem OnlyCrew.threads {s t : State} {c : Nat} {k : Crew} (h : OnlyCrew s t c k) : t.threads = s.threads := by
  have hrest := congrArg State.threads h.rest
  exact hrest

section
variable {s s1 : State} {w : Owner} {c : Nat}

theorem stillThere_writeCrewCtl (n : Nat) (v : Word) (hc : crewOf s w = some c) (h : stillThere s w = true) :
    stillThere (writeCrewCtl c n v s) w = true := by
  obtain ⟨k, hk, hstage⟩ := writeCrewCtl_only c n v s
  cases w with
  | thread t =>
    have hth : (writeCrewCtl c n v s).threads = s.threads := hk.threads
    unfold stillThere State.thread at h ⊢
    dsimp only at h ⊢
    rwa [hth]
  | crew d =>
    cases hc
    unfold stillThere at h ⊢
    dsimp only at h ⊢
    rwa [hk.crew, hstage]

theorem stillThere_setContext (i : Nat) (x : Context) : stillThere (s.setContext i x) w = stillThere s w := by
  cases w with
  | thread t => rfl
  | crew d => rfl

variable {o : IFmt} {lv : Nat}

theorem ctlw_context (hw : curOwner s = some w) (ha : regReady s w o.a = true) (hst : stillThere s w = true)
    (hn : contextWritable o.imm = some lv) :
    (levelOf s w < lv → exec (.ctlw o) s = .next (raised s w { cause := 2, info := BitVec.ofNat 64 o.imm })) ∧
    (lv ≤ levelOf s w → exec (.ctlw o) s = .next (advance (s.setContext (ctxOf s w)
      (writeContextCtl (s.context (ctxOf s w)) o.imm (regVal s w o.a))) w 1)) := by
  obtain ⟨r, hrow⟩ := ctlRow_of_contextWritable hn
  have hno : Holder.context = .crew → (crewOf s w).isSome = true := fun h => Holder.noConfusion h
  refine ⟨fun hlt => ctlw_raises hw ha (ctlCheck_low hrow rfl hno hlt), fun hle => ?_⟩
  have hh : ctlCheck w o.imm true s = .ok .context s := ctlCheck_ok hrow rfl rfl hno hle
  rw [ctlw_writes hw ha hh (ctlWrite_context ..), if_pos ((stillThere_setContext ..).trans hst)]

theorem ctlw_crew (hw : curOwner s = some w) (ha : regReady s w o.a = true) (hst : stillThere s w = true)
    (hc : crewOf s w = some c) (hn : crewWritable o.imm = some lv) :
    (levelOf s w < lv → exec (.ctlw o) s = .next (raised s w { cause := 2, info := BitVec.ofNat 64 o.imm })) ∧
    (lv ≤ levelOf s w → exec (.ctlw o) s = .next (advance (writeCrewCtl c o.imm (regVal s w o.a) s) w 1)) := by
  have hrow := ctlRow_of_crewWritable hn
  have hsome : Holder.crew = .crew → (crewOf s w).isSome = true := fun _ => by rw [hc]; rfl
  refine ⟨fun hlt => ctlw_raises hw ha (ctlCheck_low hrow rfl hsome hlt), fun hle => ?_⟩
  have hh : ctlCheck w o.imm true s = .ok .crew s := ctlCheck_ok hrow rfl rfl hsome hle
  rw [ctlw_writes hw ha hh (ctlWrite_crew hc ..), if_pos (stillThere_writeCrewCtl _ _ hc hst)]

theorem ctlw_partition {t : Nat} (hw : curOwner s = some (.thread t)) (ha : regReady s (.thread t) o.a = true)
    (hn : partitionWritable o.imm) :
    ((s.thread t).level.toNat < 2 →
      exec (.ctlw o) s = .next (raised s (.thread t) { cause := 2, info := BitVec.ofNat 64 o.imm })) ∧
    (2 ≤ (s.thread t).level.toNat → partitionWrite t o.imm (regVal s (.thread t) o.a) s = .ok () s1 →
      exec (.ctlw o) s = .next (if stillThere s1 (.thread t) = true then advance s1 (.thread t) 1 else s1)) := by
  have hrow := ctlRow_of_partitionWritable hn
  have hno : Holder.partition = .crew → (crewOf s (.thread t)).isSome = true := fun h => Holder.noConfusion h
  refine ⟨fun hlt => ctlw_raises hw ha (ctlCheck_low (w := .thread t) hrow rfl hno hlt), fun hle hp => ?_⟩
  have hh : ctlCheck (.thread t) o.imm true s = .ok .partition s := ctlCheck_ok (w := .thread t) hrow rfl rfl hno hle
  exact ctlw_writes hw ha hh ((ctlWrite_partition ..).trans hp)

end

end Sys2Proof.Machine

open Sys2Proof.Machine

/-- Settles O30: each access through its row of the table, and each register's value bit by bit. -/
theorem controlRegisters : Obligations.ControlRegisters := by
  unfold Obligations.ControlRegisters
  refine ⟨⟨fun o s w c v _ hw hr hc hv => ?crew, fun o s t c v _ hw hr hc hv => ?noCrew, fun o s w lv v _ hw hr hv => ?other,
      fun o s w _ hw hr => ?featq, rfl, rfl, featureWord_product, featureWord_group.1, featureWord_group.2,
      fun n hn => featureWord_zero hn⟩,
    ⟨fun o s w lv _ hw hr hst hn => ctlw_context hw (hr _ List.mem_cons_self) hst hn, writeContextCtl_values,
      fun o s w c lv _ hw hr hst hc hn => ?ctlwCrew, writeCrewCtl_values, fun s c v hk => ?vctl,
      fun o s s1 t _ hw hr hn => ctlw_partition hw (hr _ List.mem_cons_self) hn⟩,
    fun s c q x hst hq => ?qcfg, fun s c q x hst hq => ?qstat⟩
  case crew =>
    have hd := hr _ List.mem_cons_self
    refine ⟨fun hn => ctlr_reads hw hd (readCtl_crew hc hv hn), fun hn hx hq => ctlr_waits hw hd ?_⟩
    rw [hn]
    exact readCtl_vstat_waits hc hx hq
  case noCrew => exact ctlr_raises hw (hr _ List.mem_cons_self) (readCtl_noCrew hc hv)
  case other =>
    have hd := hr _ List.mem_cons_self
    obtain ⟨hok, hlow⟩ := readCtl_other hv
    exact ⟨fun h => ctlr_reads hw hd (hok h), fun h => ctlr_raises hw hd (hlow h)⟩
  case featq => exact featq_reads hw (hr _ List.mem_cons_self)
  case ctlwCrew =>
    obtain ⟨hlow, hok⟩ := ctlw_crew hw (hr _ List.mem_cons_self) hst hc hn
    exact ⟨hlow, fun hle u hu => hu ▸ ⟨stillThere_writeCrewCtl _ _ hc hst, hok hle⟩⟩
  case vctl =>
    obtain ⟨h0, h1, h2, h3⟩ := crewRegister_written v hk
    exact ⟨h0, h2, h3, _, _, rfl, h1, vctlValue_bits _ v⟩
  case qcfg =>
    have hcfg : (BitVec.ofNat 64 x).setWidth 32 = BitVec.ofNat 32 x := BitVec.setWidth_ofNat_of_le (by decide) x
    have hcases := writeQcfg_cases (s := s) (c := c) (q := q) (BitVec.ofNat 64 x)
    rw [hcfg] at hcases
    rw [qcfgWrite_next hst hq, hcases]
    intro cfg
    refine ⟨fun hopen => congrArg _ (if_pos hopen), ?_⟩
    intro branch
    refine ⟨fun hclosed hon hok hbr => ?_, fun hclosed hon hbrq hbr => ?_, fun hclosed hon hbad => ?_, fun hclosed hoff => ?_⟩
    all_goals rw [if_neg (ne_true_of_eq_false hclosed)]
    · rw [if_neg (fun hoff => Bool.noConfusion (hon.symm.trans hoff))]
      exact ⟨fun hroom => congrArg _ (if_pos ⟨hok, hbr, hroom⟩),
        fun hroom => congrArg _ (if_neg fun h => absurd h.2.2 (Nat.not_le.mpr hroom))⟩
    · rw [if_neg (fun hoff => Bool.noConfusion (hon.symm.trans hoff)), if_neg (fun h => h.2.1 hbrq hbr)]
    · rw [if_neg (fun hoff => Bool.noConfusion (hon.symm.trans hoff)), if_neg (fun h => Bool.noConfusion (hbad.symm.trans h.1))]
    · rw [if_pos hoff]
  case qstat =>
    obtain ⟨h0, h1, h2⟩ := bits_ofNat64 x
    rw [qstatWrite_next hst hq]
    simp only [writeQstat, h0, h1, h2]
    rfl
end

/-! ### M instructions: what a turn leaves (R146-R148, R269, R270, R279, R280) -/

section
namespace Sys2Proof.Machine

/-! #### Writes of one index, twice -/

theorem insert_insert {α : Type} (t : Tbl α) (i : Nat) (v w : α) : (t.insert i v).insert i w = t.insert i w := by
  induction t with
  | nil => simp [Tbl.insert]
  | cons e t ih =>
    simp only [Tbl.insert]
    split
    · simp [Tbl.insert]
    · next hne =>
      split
      · simp [Tbl.insert]
      · next hge => simp [Tbl.insert, hne, hge, ih]

theorem setCrew_setCrew (s : State) (c : Nat) (k k' : Crew) : (s.setCrew c k).setCrew c k' = s.setCrew c k' := by
  unfold State.setCrew
  dsimp only
  rw [insert_insert]

/-! #### The crew of an M instruction -/

/-- A crew with other arrays, queues, skip tokens and M instructions. -/
def mSet (k : Crew) (S : Tbl Stroke) (Q : Tbl Queue) (K : List (Word × Bool)) (L : List Entry) : Crew :=
  { k with strokes := S, queues := Q, skipToks := K, mq := L }

theorem mSet_self (k : Crew) : mSet k k.strokes k.queues k.skipToks k.mq = k := rfl

/-- A state whose crew has these arrays, queues, skip tokens and M instructions, and nothing else has changed. -/
def MCrew (b u : State) (c : Nat) (S : Tbl Stroke) (Q : Tbl Queue) (K : List (Word × Bool)) (L : List Entry) : Prop :=
  OnlyCrew b u c (mSet (b.crew c) S Q K L)

theorem OnlyCrew.of_eq {s t : State} {c : Nat} {k k' : Crew} (h : OnlyCrew s t c k) (hk : k = k') : OnlyCrew s t c k' := hk ▸ h

theorem MCrew.refl (b : State) (c : Nat) :
    MCrew b b c (b.crew c).strokes (b.crew c).queues (b.crew c).skipToks (b.crew c).mq := by
  unfold MCrew
  rw [mSet_self]
  exact OnlyCrew.refl b c

section
variable {b u : State} {c : Nat} {S : Tbl Stroke} {Q : Tbl Queue} {K : List (Word × Bool)} {L : List Entry}

theorem MCrew.crew (h : MCrew b u c S Q K L) : u.crew c = mSet (b.crew c) S Q K L := OnlyCrew.crew h

theorem MCrew.setStroke (h : MCrew b u c S Q K L) (a : Nat) (v : Stroke) :
    ∃ u', setStroke c a v u = .ok () u' ∧ MCrew b u' c (S.put a v {}) Q K L := by
  have hk : { u.crew c with strokes := (u.crew c).strokes.put a v {} } = mSet (b.crew c) (S.put a v {}) Q K L := by
    rw [h.crew]
    rfl
  exact ⟨_, rfl, (OnlyCrew.setCrew h _).of_eq hk⟩

theorem MCrew.setQueue (h : MCrew b u c S Q K L) (q : Nat) (v : Queue) :
    ∃ u', setQueue c q v u = .ok () u' ∧ MCrew b u' c S (Q.put q v {}) K L := by
  have hk : { u.crew c with queues := (u.crew c).queues.put q v {} } = mSet (b.crew c) S (Q.put q v {}) K L := by
    rw [h.crew]
    rfl
  exact ⟨_, rfl, (OnlyCrew.setCrew h _).of_eq hk⟩

/-- An entry of a list of M instructions with another progress. -/
def withProg (n : Nat) (p : Progress) (x : Entry) : Entry := if x.name == n then { x with prog := p } else x

theorem MCrew.setProg (h : MCrew b u c S Q K L) (n : Nat) (p : Progress) :
    ∃ u', setProg c n p u = .ok () u' ∧ MCrew b u' c S Q K (L.map (withProg n p)) := by
  refine ⟨_, rfl, ?_⟩
  exact OnlyCrew.updEntry h 3 n _

theorem MCrew.getStroke (h : MCrew b u c S Q K L) (a : Nat) : getStroke c a u = .ok (S.getD a {}) u := by
  unfold Machine.getStroke
  rw [m_bind_ok (m_get u), h.crew]
  rfl

theorem MCrew.getQueue (h : MCrew b u c S Q K L) (q : Nat) : getQueue c q u = .ok (Q.getD q {}) u := by
  unfold Machine.getQueue
  rw [m_bind_ok (m_get u), h.crew]
  rfl

end

end Sys2Proof.Machine
end

section
namespace Sys2Proof.Machine

/-! #### The turn (R147, R148, R279) -/

/-- The entry of an M instruction as its turn runs it. -/
def mEntry (e : Entry) : Entry := { e with popped := true, prog := { e.prog with begun := true } }

/-- What the end of its body makes of a turn that began in this state. -/
def mEnd (c tok : Nat) (e : Entry) (s1 : State) : EStateM.Result Stop State Bool → State
  | .ok true s2 => finishEntry c 3 tok e s2 (owed (s2.crew c) e)
  | .ok false s2 => updEntry c 3 e.name (fun e => { e with stalled := false }) s2
  | .error .stall _ => s1
  | .error (.stallQ q push _) _ =>
    if e.stalled then s1
    else updEntry c 3 e.name (fun e => { e with stalled := true }) (countEpisode s1 c q push false)
  | .error (.trap x) _ => raiseStroke c (mEntry e) x s1
  | .error (.trapQ q push x) _ => raiseStroke c (mEntry e) x (countEpisode s1 c q push false)
  | .error (.trapKeep x) s2 => raiseStroke c (mEntry e) x s2
  | .error (.lasting va) s2 => runM (containOwner (.crew c) 3 va) (keepErrors s1 s2)
  | .error (.status _) _ => s1

/-- An M instruction that can have a turn runs its body from the state in which it has begun. -/
theorem strokeTurn_runs {s : State} {c tok : Nat} {e : Entry} (h : MTurn tok s c e) (body : Nat → Entry → M Bool) :
    strokeTurn c tok e body s = mEnd c tok e (mBegun s c tok e) (body c (mEntry e) (mBegun s c tok e)) := by
  have hbegins : ¬(!e.prog.begun && !mayBegin (s.crew c) e) = true := fun hno => by
    simp only [Bool.and_eq_true, Bool.not_eq_true'] at hno
    exact h.begins.elim (ne_true_of_eq_false hno.1) (ne_true_of_eq_false hno.2)
  have hpops : ¬((if e.popped then [] else (tokenFifos 3 tok).1).any fun f => tokenCount (s.crew c) f == 0) = true := fun hno => by
    simp only [List.any_eq_true, beq_iff_eq] at hno
    obtain ⟨f, hf, hzero⟩ := hno
    obtain hp | hp := h.pops
    · simp [hp] at hf
    · split at hf
      · cases hf
      · exact hp f hf hzero
  unfold strokeTurn
  split
  · next x hx => cases h.noexc.symm.trans hx
  · exact (if_neg (ne_true_of_eq_false h.going)).trans ((if_neg hbegins).trans (if_neg hpops))

/-- The crew of an M instruction that has begun. -/
def mCrew (k : Crew) (tok : Nat) (e : Entry) : Crew :=
  { k with
    tokens := ((if e.popped then [] else (tokenFifos 3 tok).1).foldl takeToken k).tokens
    mq := k.mq.map fun x => if x.name == e.name then mEntry e else x }

theorem mBegun_only (s : State) (c tok : Nat) (e : Entry) : OnlyCrew s (mBegun s c tok e) c (mCrew (s.crew c) tok e) := by
  have h := ((OnlyCrew.refl s c).setCrew
    ((if e.popped then [] else (tokenFifos 3 tok).1).foldl takeToken (s.crew c))).updEntry 3 e.name fun _ => mEntry e
  rw [takeTokens_crew] at h
  unfold mBegun
  rw [takeTokens_crew]
  exact h

@[simp] theorem mBegun_crew (s : State) (c tok : Nat) (e : Entry) : (mBegun s c tok e).crew c = mCrew (s.crew c) tok e :=
  (mBegun_only s c tok e).crew

/-! #### Its end -/

/-- After a turn only the arrays, queues, skip tokens, tokens and M instructions of the crew can differ, and these are its
arrays, queues and skip tokens. -/
structure MAfter (b t : State) (c : Nat) (S : Tbl Stroke) (Q : Tbl Queue) (K : List (Word × Bool)) : Prop where
  leaves : MLeaves b t c
  strokes : (t.crew c).strokes = S
  queues : (t.crew c).queues = Q
  skips : (t.crew c).skipToks = K

/-- The crew with its tokens and its idle mark moved. -/
def mIdle (k : Crew) (T : Tbl Nat) (i : Bool) : Crew := { k with tokens := T, idle := i }

theorem mKept (k : Crew) (S : Tbl Stroke) (Q : Tbl Queue) (K : List (Word × Bool)) (L : List Entry) (T : Tbl Nat) (i : Bool) :
    { mIdle (mSet k S Q K L) T i with
      strokes := k.strokes, queues := k.queues, tokens := k.tokens, mq := k.mq, skipToks := k.skipToks, idle := k.idle } = k := rfl

section
variable {b t u : State} {c : Nat} {S : Tbl Stroke} {Q : Tbl Queue} {K : List (Word × Bool)} {L : List Entry}

theorem mAfter_of_only {T : Tbl Nat} {i : Bool} (h : OnlyCrew b t c (mIdle (mSet (b.crew c) S Q K L) T i)) :
    MAfter b t c S Q K where
  leaves := ⟨h.rest, h.others, by rw [h.crew]; exact mKept ..⟩
  strokes := by rw [h.crew]; rfl
  queues := by rw [h.crew]; rfl
  skips := by rw [h.crew]; rfl

theorem mIdle_self (k : Crew) : mIdle k k.tokens k.idle = k := rfl

theorem MCrew.after (h : MCrew b u c S Q K L) : MAfter b u c S Q K :=
  mAfter_of_only (OnlyCrew.of_eq h (mIdle_self _).symm)

section
variable {s : State} {tok : Nat} {e : Entry} {body : Nat → Entry → M Bool} (h : MTurn tok s c e)
include h

/-- A body that has not done its last part leaves the entry where it is, not stalled. -/
theorem strokeTurn_goesOn (hb : body c (mEntry e) (mBegun s c tok e) = .ok false u) (hu : MCrew b u c S Q K L) :
    MAfter b (strokeTurn c tok e body s) c S Q K ∧
    ((strokeTurn c tok e body s).crew c).mq = L.map fun x => if x.name == e.name then { x with stalled := false } else x := by
  have hend : strokeTurn c tok e body s = updEntry c 3 e.name (fun e => { e with stalled := false }) u := by
    rw [strokeTurn_runs h, hb]
    rfl
  have hupd : MCrew b (strokeTurn c tok e body s) c S Q K
      (L.map fun x => if x.name == e.name then { x with stalled := false } else x) := by
    rw [hend]
    exact OnlyCrew.updEntry hu 3 e.name _
  exact ⟨hupd.after, by rw [hupd.crew]; rfl⟩

/-- Where it has set its progress, it goes on with that. -/
theorem strokeTurn_progresses {p : Progress} (hb : body c (mEntry e) (mBegun s c tok e) = .ok false u)
    (hu : MCrew b u c S Q K ((b.crew c).mq.map (withProg e.name p))) :
    MAfter b (strokeTurn c tok e body s) c S Q K ∧ MGoesOn b (strokeTurn c tok e body s) c e p := by
  obtain ⟨hafter, hmq⟩ := strokeTurn_goesOn h hb hu
  refine ⟨hafter, hmq.trans ?_⟩
  rw [List.map_map]
  refine List.map_congr_left fun x _ => ?_
  simp only [Function.comp_apply, withProg]
  by_cases hx : x.name = e.name
  · simp [hx]
  · simp [hx]

end

theorem owed_congr {k k' : Crew} {e : Entry}
    (h : k.mq.filter (fun x => x.name != e.name) = k'.mq.filter fun x => x.name != e.name) : owed k e = owed k' e := by
  have hsub (l : List Entry) : l.filter (fun j => j.finished && j.name != e.name && (!e.finished || decide (j.done < e.done))) =
      (l.filter fun x => x.name != e.name).filter fun j => j.finished && (!e.finished || decide (j.done < e.done)) := by
    rw [List.filter_filter]
    exact congrArg (List.filter · l) (funext fun j => by rw [Bool.and_right_comm])
  unfold owed
  dsimp only
  rw [hsub, hsub, h]

theorem withProg_name (n : Nat) (p : Progress) (x : Entry) : (withProg n p x).name = x.name := by
  unfold withProg
  split <;> rfl

theorem withProg_other {n : Nat} {x : Entry} (p : Progress) (h : x.name ≠ n) : withProg n p x = x := by
  unfold withProg
  simp [h]

theorem filter_withProg (l : List Entry) (n : Nat) (p : Progress) :
    (l.map (withProg n p)).filter (fun x => x.name != n) = l.filter fun x => x.name != n := by
  induction l with
  | nil => rfl
  | cons x l ih =>
    by_cases hx : x.name = n
    · rw [List.map_cons, List.filter_cons_of_neg (by simp [withProg_name, hx]), List.filter_cons_of_neg (by simp [hx]), ih]
    · rw [List.map_cons, withProg_other p hx, List.filter_cons_of_pos (by simp [hx]), List.filter_cons_of_pos (by simp [hx]), ih]

theorem retire_stroke {s : State} {name : Nat} (h : ∀ w ∈ (s.crew c).vwrites, w.1 ≠ name) :
    retire c 3 name s = s.setCrew c { s.crew c with mq := (s.crew c).mq.filter fun x => x.name != name, idle := false } := by
  generalize hk : s.crew c = k at h
  have hset : settleCtl (setStreamQueue k 3 (k.mq.filter fun x => x.name != name)) name = _ := settleCtl_quiet h
  have hret : retire c 3 name s = s.setCrew c
      { settleCtl (setStreamQueue (s.crew c) 3 ((streamQueue (s.crew c) 3).filter fun x => x.name != name)) name with
        idle := false } := rfl
  rw [hret, hk]
  exact congrArg (fun k => s.setCrew c { k with idle := false }) hset

theorem mFinished_eq (k : Crew) (l : List Nat) (name : Nat) :
    { l.foldl addToken k with mq := (l.foldl addToken k).mq.filter fun x => x.name != name, idle := false } =
      mIdle { k with mq := k.mq.filter fun x => x.name != name } (l.foldl addToken k).tokens false := by
  generalize hk : l.foldl addToken k = k'
  have hkept := addTokens_crew k l
  rw [hk] at hkept
  generalize k'.tokens = tokens at hkept ⊢
  subst hkept
  rfl

/-- A body that has done its last part takes the instruction off its queue. -/
theorem strokeTurn_ends {s : State} {tok : Nat} {e : Entry} {body : Nat → Entry → M Bool} (h : MTurn tok s c e)
    (hret : MRetires b c tok e) (hb : body c (mEntry e) (mBegun s c tok e) = .ok true u) (hu : MCrew b u c S Q K L)
    (hM : L.filter (fun x => x.name != e.name) = (b.crew c).mq.filter fun x => x.name != e.name) :
    MAfter b (strokeTurn c tok e body s) c S Q K ∧ MGone b (strokeTurn c tok e body s) c e := by
  have hrun : strokeTurn c tok e body s = finishEntry c 3 tok e u (owed (u.crew c) e) := by
    rw [strokeTurn_runs h, hb]
    rfl
  have howed : owed (u.crew c) e = owed (b.crew c) e := by
    rw [hu.crew]
    exact owed_congr hM
  have hpush := pushTokens_owed (mSet (b.crew c) S Q K L) (List.append_nil (tokenFifos 3 tok).2).symm (pushes_nodup 3 tok)
    (fun f hf => hret.1 f hf) (by simp)
  have hfin : finishEntry c 3 tok e u (owed (b.crew c) e) =
      retire c 3 e.name (u.setCrew c ((tokenFifos 3 tok).2.foldl addToken (mSet (b.crew c) S Q K L))) := by
    simp only [finishEntry, hu.crew, h.fresh, List.drop_zero, hpush, lt_irrefl, if_false]
  have hquiet : ∀ w ∈ ((u.setCrew c ((tokenFifos 3 tok).2.foldl addToken (mSet (b.crew c) S Q K L))).crew c).vwrites,
      w.1 ≠ e.name := by
    rw [State.crew_setCrew, addTokens_crew]
    exact hret.2
  rw [hrun, howed, hfin, retire_stroke hquiet, State.crew_setCrew, mFinished_eq]
  have honly := (OnlyCrew.setCrew hu ((tokenFifos 3 tok).2.foldl addToken (mSet (b.crew c) S Q K L))).setCrew
    (mIdle { mSet (b.crew c) S Q K L with mq := L.filter fun x => x.name != e.name }
      ((tokenFifos 3 tok).2.foldl addToken (mSet (b.crew c) S Q K L)).tokens false)
  refine ⟨mAfter_of_only (L := L.filter fun x => x.name != e.name) honly, ?_⟩
  refine (congrArg Crew.mq honly.crew).trans hM

end

end Sys2Proof.Machine
end

section
namespace Sys2Proof.Machine

/-! #### Its exceptions (R280) -/

/-- The exception of an M instruction with none before it is posted at once, and the stream stops. -/
theorem raiseStroke_first {u : State} {c : Nat} {e : Entry} (x : Exc) (h : earlier (u.crew c).mq e.name = []) :
    ∃ p, ((raiseStroke c (mEntry e) x u).crew c).posted = (u.crew c).posted ++ [p] ∧ p.stream = 3 ∧ p.pc = e.pc ∧ p.exc = x ∧
      ((raiseStroke c (mEntry e) x u).crew c).stopped.contains 3 = true ∧
      ((raiseStroke c (mEntry e) x u).crew c).strokes = (u.crew c).strokes := by
  have hnone : ¬(!(earlier (u.crew c).mq (mEntry e).name).isEmpty) = true := by
    have : earlier (u.crew c).mq (mEntry e).name = [] := h
    simp [this]
  unfold raiseStroke
  rw [if_neg hnone]
  generalize u.crew c = k
  unfold postException
  dsimp only
  rw [State.crew_setCrew, State.crew_setCrew]
  exact ⟨_, rfl, rfl, rfl, rfl, addName_contains _ _, rfl⟩

theorem mRaises_of_raise {u : State} {c : Nat} {e : Entry} (n : Nat) (h : earlier (u.crew c).mq e.name = []) :
    MRaises u (raiseStroke c (mEntry e) (strokeExc n) u) c e 21 n := by
  obtain ⟨p, hposted, hstream, hpc, hexc, hstop, hstrokes⟩ := raiseStroke_first (strokeExc n) h
  exact ⟨p, hposted, hstream, hpc, hexc, hstop, hstrokes⟩

section
variable {s u : State} {c tok : Nat} {e : Entry} {body : Nat → Entry → M Bool} {x : Exc}

theorem strokeTurn_raises (h : MTurn tok s c e) (hb : body c (mEntry e) (mBegun s c tok e) = .error (.trap x) u) :
    strokeTurn c tok e body s = raiseStroke c (mEntry e) x (mBegun s c tok e) := by
  rw [strokeTurn_runs h, hb]
  rfl

theorem strokeTurn_keeps (h : MTurn tok s c e) (hb : body c (mEntry e) (mBegun s c tok e) = .error (.trapKeep x) u) :
    strokeTurn c tok e body s = raiseStroke c (mEntry e) x u := by
  rw [strokeTurn_runs h, hb]
  rfl

theorem strokeTurn_waits (h : MTurn tok s c e) (hb : body c (mEntry e) (mBegun s c tok e) = .error .stall u) :
    strokeTurn c tok e body s = mBegun s c tok e := by
  rw [strokeTurn_runs h, hb]
  rfl

/-- Nothing stands before an entry in the state in which it begins that did not before. -/
theorem earlier_mBegun (h : earlier (s.crew c).mq e.name = []) : earlier ((mBegun s c tok e).crew c).mq e.name = [] := by
  have hname (x : Entry) : (if x.name == e.name then mEntry e else x).name = x.name := by
    split
    · next hx => exact (beq_iff_eq.1 hx).symm
    · rfl
  rw [mBegun_crew]
  unfold earlier at h ⊢
  show ((s.crew c).mq.map _).takeWhile _ = []
  rw [List.takeWhile_map, List.map_eq_nil_iff]
  refine Eq.trans (congrArg (List.takeWhile · _) (funext fun x => ?_)) h
  exact congrArg (· != e.name) (hname x)

end

/-! #### Arrays and tiles -/

section
variable {b t : State} {c : Nat} {S : Tbl Stroke} {Q : Tbl Queue} {K : List (Word × Bool)}

theorem MAfter.stroke (h : MAfter b t c S Q K) (a : Nat) : (t.crew c).stroke a = S.getD a {} := by
  unfold Crew.stroke
  rw [h.strokes]

/-- A turn that writes one array leaves the others. -/
theorem MAfter.otherArrays {a : Nat} {v : Stroke} (h : MAfter b t c ((b.crew c).strokes.put a v {}) Q (b.crew c).skipToks) :
    OtherArrays b t c a :=
  ⟨fun x hx => (h.stroke x).trans (Tbl.getD_put_other _ _ _ hx), h.skips⟩

theorem MAfter.written {a : Nat} {v : Stroke} {S : Tbl Stroke} (h : MAfter b t c (S.put a v {}) Q K) :
    (t.crew c).stroke a = v := (h.stroke a).trans (Tbl.getD_put_same ..)

theorem Stroke.setTile_same (v : Stroke) (x : Nat) (w : XTile) : (v.setTile x w).tile x = w := Tbl.getD_put_same ..

theorem Stroke.setTile_other (v : Stroke) {x y : Nat} (w : XTile) (h : y ≠ x) : (v.setTile x w).tile y = v.tile y :=
  Tbl.getD_put_other _ _ _ h

/-- A turn that writes one tile of an array leaves the rest of the array, and the tile is what was written. -/
theorem MAfter.tile {a x : Nat} {w : XTile} {S : Tbl Stroke}
    (h : MAfter b t c (S.put a (((b.crew c).stroke a).setTile x w) {}) Q K) :
    OtherTiles b t c a x ∧ tileOf t c a x = w := by
  have hv := h.written
  refine ⟨⟨fun y hy => ?_, ?_⟩, ?_⟩
  · unfold tileOf
    rw [hv, Stroke.setTile_other _ _ hy]
  · rw [hv]
    rfl
  · unfold tileOf
    rw [hv, Stroke.setTile_same]

end

/-! #### The cells of a tile, mapped -/

theorem getD_cons {α : Type} (i j : Nat) (v d : α) (t : Tbl α) :
    Tbl.getD ((i, v) :: t) j d = if i = j then v else t.getD j d := by
  by_cases h : i = j
  · simp [Tbl.getD, Tbl.find?, h]
  · simp [Tbl.getD, Tbl.find?, h]

/-- Every index that a map of cells lists is one it ran over. -/
theorem mapCells_find? (f : Nat → Cell → Cell) (n i : Nat) (t : Tbl Cell) {j : Nat} (hj : j < i) :
    (mapCells f n i t).getD j {} = {} := by
  induction n generalizing i t with
  | zero => rfl
  | succ n ih =>
    unfold mapCells
    dsimp only
    split
    · exact ih _ _ (by omega)
    · rw [getD_cons, if_neg (by omega)]
      exact ih _ _ (by omega)

/-- What is dropped of the table once index i has been read lists no later index. -/
theorem getD_rest (t : Tbl Cell) {i j : Nat} (h : i < j) :
    Tbl.getD (if (t.headD (i + 1, {})).1 ≤ i then t.drop 1 else t) j ({} : Cell) = t.getD j {} := by
  cases t with
  | nil => simp
  | cons e t =>
    obtain ⟨k, v⟩ := e
    rw [List.headD_cons]
    dsimp only
    split
    · next hk => rw [List.drop_succ_cons, List.drop_zero, getD_cons, if_neg (by omega)]
    · rfl

theorem getD_mapCells (f : Nat → Cell → Cell) (n i : Nat) (t : Tbl Cell) {j : Nat} (hi : i ≤ j) (hj : j < i + n) :
    (mapCells f n i t).getD j {} = f j (t.getD j {}) := by
  induction n generalizing i t with
  | zero => omega
  | succ n ih =>
    unfold mapCells
    dsimp only
    by_cases heq : i = j
    · subst heq
      split
      · next hv => rw [hv, mapCells_find? _ _ _ _ (Nat.lt_succ_self i)]
      · rw [getD_cons, if_pos rfl]
    · have hlt : i < j := by omega
      have hrest := ih (i + 1) (if (t.headD (i + 1, {})).1 ≤ i then t.drop 1 else t) hlt (by omega)
      rw [getD_rest t hlt] at hrest
      split
      · exact hrest
      · rw [getD_cons, if_neg heq]
        exact hrest

theorem mapAll_cell (t : XTile) (f : Nat → Cell → Cell) {i : Nat} (hi : i < 8192) :
    (t.mapAll f).cells.getD i {} = f i (t.cells.getD i {}) := getD_mapCells f 8192 0 t.cells (Nat.zero_le i) (by omega)

/-- A block's sums as the statements say them. -/
theorem addBlock_cell (t : XTile) (p : Plane) (blk : Nat) (rows : List (List (Option Ex))) {i : Nat} (hi : i < 8192) :
    (t.addBlock p blk rows).cells.getD i {} = blockAdded t p blk rows i := by
  have hcol : ((List.range 256).map fun j => p.block blk j).getD (i % 256) default = p.block blk (i % 256) := by
    simp [List.getD_eq_getElem?_getD, Nat.mod_lt]
  unfold XTile.addBlock blockAdded
  rw [mapAll_cell _ _ hi]
  dsimp only
  rw [hcol]

end Sys2Proof.Machine
end

section
namespace Sys2Proof.Machine

/-! #### MRUN (R277, R291) -/

/-- The body of MRUN. -/
def mrunBody (o : StrokeFmt) (c : Nat) (e : Entry) : M Bool := do
  let p := e.prog
  if p.count = 0 then
    runBurst o c e
    return false
  let d ← knownDesc c (p.nums.headD 0)
  if 32 * p.pos + 32 ≤ p.count * d.epr then
    let s ← get
    if !(← blockCheck (s.crew c).cl o.arr) then return false
    let v ← getStroke c o.arr
    let t := (v.tile o.x).addBlock v.front p.pos (blockRows d p p.pos)
    let t := { t with rsv := t.rsv || blockReserved d p p.pos (v.tile o.x) }
    setStroke c o.arr (v.setTile o.x t)
    setProg c e.name { p with pos := p.pos + 1 }
    return p.pos = 7
  else
    runBurst o c e
    return false

theorem exec_mrun (o : StrokeFmt) (s : State) : exec (.mrun o) s = runStroke o.tok (.mrun o) plainHand (mrunBody o) s := rfl

section
variable {o : StrokeFmt} {s b b1 : State} {c : Nat} {e : Entry} {x : List Byte} {d : Desc}

/-- The first burst gives the tile its tag, and is held. -/
theorem runBurst_first (h0 : e.prog.count = 0) (hpop : popBurst c o.q s = .ok x b1)
    (hdesc : burstDesc c o.q o.f [0, 1] none x b1 = .ok d b) :
    ∃ u, runBurst o c e s = .ok () u ∧
      MCrew b u c ((b.crew c).strokes.put o.arr (((b.crew c).stroke o.arr).setTile o.x
        ((tileOf b c o.arr o.x).tagged (burstCoords x) ((b.crew c).stroke o.arr).front.origin)) {}) (b.crew c).queues
        (b.crew c).skipToks ((b.crew c).mq.map (withProg e.name { e.prog with
          count := 1, nums := burstTid x :: burstCoords x, bytes := e.prog.bytes ++ x })) := by
  obtain ⟨u, hset, hu⟩ := (MCrew.refl b c).setStroke o.arr (((b.crew c).stroke o.arr).setTile o.x
    ((tileOf b c o.arr o.x).tagged (burstCoords x) ((b.crew c).stroke o.arr).front.origin))
  obtain ⟨u', hprog, hu'⟩ := hu.setProg e.name { e.prog with
    count := 1, nums := burstTid x :: burstCoords x, bytes := e.prog.bytes ++ x }
  refine ⟨u', ?_, hu'⟩
  unfold runBurst
  dsimp only
  simp only [h0, if_true]
  rw [m_bind_ok hpop, m_bind_ok hdesc, if_neg (by simp), m_bind_ok ((MCrew.refl b c).getStroke o.arr)]
  exact (m_bind_ok hset).trans hprog

theorem mrunBody_first {u : State} (h0 : e.prog.count = 0) (hrun : runBurst o c e s = .ok () u) :
    mrunBody o c e s = .ok false u := by
  unfold mrunBody
  dsimp only
  rw [if_pos h0, m_bind_ok hrun]
  rfl

theorem mrun_first (h : MTurn o.tok s c e) (h0 : e.prog.count = 0) (hpop : popBurst c o.q (mBegun s c o.tok e) = .ok x b1)
    (hdesc : burstDesc c o.q o.f [0, 1] none x b1 = .ok d b) :
    ∃ t, exec (.mrun o) s = .next t ∧ MLeaves b t c ∧ OtherArrays b t c o.arr ∧ OtherTiles b t c o.arr o.x ∧
      (t.crew c).queues = (b.crew c).queues ∧
      tileOf t c o.arr o.x = (tileOf b c o.arr o.x).tagged (burstCoords x) ((b.crew c).stroke o.arr).front.origin ∧
      MGoesOn b t c e { e.prog with begun := true, count := 1, nums := burstTid x :: burstCoords x, bytes := e.prog.bytes ++ x } := by
  obtain ⟨u, hrun, hu⟩ := runBurst_first (e := mEntry e) h0 hpop hdesc
  obtain ⟨hafter, hprog⟩ := strokeTurn_progresses h (mrunBody_first (e := mEntry e) h0 hrun) hu
  obtain ⟨htiles, htile⟩ := hafter.tile
  exact ⟨_, (exec_mrun o s).trans (runStroke_atHead h.head), hafter.leaves, hafter.otherArrays, htiles, hafter.queues, htile,
    hprog⟩

/-- A tile with a block of an instruction's bursts added. -/
def summedTile (t : XTile) (pl : Plane) (d : Desc) (p : Progress) : XTile :=
  { t.addBlock pl p.pos (blockRows d p p.pos) with rsv := t.rsv || blockReserved d p p.pos t }

theorem summedTile_cell (t : XTile) (pl : Plane) (d : Desc) (p : Progress) {i : Nat} (hi : i < 8192) :
    (summedTile t pl d p).cells.getD i {} = blockAdded t pl p.pos (blockRows d p p.pos) i := addBlock_cell t pl p.pos _ hi

/-- A block is added to the tile, and the position moves on. -/
theorem mrunBody_block (hc : e.prog.count ≠ 0) (hd : knownDesc c (e.prog.nums.headD 0) s = .ok d b1)
    (hpos : 32 * e.prog.pos + 32 ≤ e.prog.count * d.epr) (hok : blockCheck (b1.crew c).cl o.arr b1 = .ok true b) :
    ∃ u, mrunBody o c e s = .ok (decide (e.prog.pos = 7)) u ∧
      MCrew b u c ((b.crew c).strokes.put o.arr (((b.crew c).stroke o.arr).setTile o.x
        (summedTile (tileOf b c o.arr o.x) ((b.crew c).stroke o.arr).front d e.prog)) {}) (b.crew c).queues
        (b.crew c).skipToks ((b.crew c).mq.map (withProg e.name { e.prog with pos := e.prog.pos + 1 })) := by
  obtain ⟨u, hset, hu⟩ := (MCrew.refl b c).setStroke o.arr (((b.crew c).stroke o.arr).setTile o.x
    (summedTile (tileOf b c o.arr o.x) ((b.crew c).stroke o.arr).front d e.prog))
  obtain ⟨u', hprog, hu'⟩ := hu.setProg e.name { e.prog with pos := e.prog.pos + 1 }
  refine ⟨u', ?_, hu'⟩
  unfold mrunBody
  dsimp only
  rw [if_neg hc, m_bind_ok hd, if_pos hpos, m_bind_ok (m_get b1), m_bind_ok hok, if_neg (by decide),
    m_bind_ok ((MCrew.refl b c).getStroke o.arr)]
  exact (m_bind_ok hset).trans (m_bind_ok hprog)

theorem mrun_block (h : MTurn o.tok s c e) (hc : e.prog.count ≠ 0)
    (hd : knownDesc c (e.prog.nums.headD 0) (mBegun s c o.tok e) = .ok d b1)
    (hpos : 32 * e.prog.pos + 32 ≤ e.prog.count * d.epr) (hok : blockCheck (b1.crew c).cl o.arr b1 = .ok true b) :
    let p := e.prog
    let tile := tileOf b c o.arr o.x
    let result (t : State) : Prop := MLeaves b t c ∧ OtherArrays b t c o.arr ∧ OtherTiles b t c o.arr o.x ∧
      (t.crew c).queues = (b.crew c).queues ∧
      (∀ i < 8192, (tileOf t c o.arr o.x).cells.getD i {} =
        blockAdded tile ((b.crew c).stroke o.arr).front p.pos (blockRows d p p.pos) i) ∧
      (tileOf t c o.arr o.x).rsv = (tile.rsv || blockReserved d p p.pos tile) ∧
      { tileOf t c o.arr o.x with cells := tile.cells, rsv := tile.rsv } = tile
    (p.pos ≠ 7 → ∃ t, exec (.mrun o) s = .next t ∧ result t ∧ MGoesOn b t c e { p with begun := true, pos := p.pos + 1 }) ∧
    (p.pos = 7 → MRetires b c o.tok e → ∃ t, exec (.mrun o) s = .next t ∧ result t ∧ MGone b t c e) := by
  intro p tile result
  obtain ⟨u, hrun, hu⟩ := mrunBody_block (o := o) (e := mEntry e) hc hd hpos hok
  have hresult {t : State} (ht : MAfter b t c ((b.crew c).strokes.put o.arr (((b.crew c).stroke o.arr).setTile o.x
      (summedTile tile ((b.crew c).stroke o.arr).front d (mEntry e).prog)) {}) (b.crew c).queues (b.crew c).skipToks) :
      result t := by
    obtain ⟨htiles, htile⟩ := ht.tile
    refine ⟨ht.leaves, ht.otherArrays, htiles, ht.queues, ?_, ?_, ?_⟩
    all_goals rw [htile]
    · exact fun i hi => summedTile_cell tile _ d (mEntry e).prog hi
    · rfl
    · rfl
  have hexec := (exec_mrun o s).trans (runStroke_atHead h.head)
  refine ⟨fun hne => ?_, fun heq hret => ?_⟩
  · obtain ⟨hafter, hprog⟩ := strokeTurn_progresses h (hrun.trans (congrArg (EStateM.Result.ok · u) (decide_eq_false hne))) hu
    exact ⟨_, hexec, hresult hafter, hprog⟩
  · obtain ⟨hafter, hgone⟩ := strokeTurn_ends h hret
      (hrun.trans (congrArg (EStateM.Result.ok · u) (decide_eq_true heq))) hu (filter_withProg ..)
    exact ⟨_, hexec, hresult hafter, hgone⟩

end

end Sys2Proof.Machine
end

section
namespace Sys2Proof.Machine

/-! #### Branches of a body -/

theorem m_if_pos {α : Type} {p : Prop} [Decidable p] {x y : M α} {s : State} (h : p) : (if p then x else y) s = x s := by
  rw [if_pos h]

theorem m_if_neg {α : Type} {p : Prop} [Decidable p] {x y : M α} {s : State} (h : ¬p) : (if p then x else y) s = y s := by
  rw [if_neg h]

/-! #### Bursts pushed (R136, R282, R287) -/

section
variable {b u : State} {c q : Nat} {S : Tbl Stroke} {Q : Tbl Queue} {K : List (Word × Bool)} {L : List Entry}

theorem MCrew.setSkips (h : MCrew b u c S Q K L) (l : List (Word × Bool)) :
    ∃ u', upd (fun s => s.setCrew c { s.crew c with skipToks := l }) u = .ok () u' ∧ MCrew b u' c S Q l L := by
  have hk : { u.crew c with skipToks := l } = mSet (b.crew c) S Q l L := by
    rw [h.crew]
    rfl
  exact ⟨_, rfl, (OnlyCrew.setCrew h _).of_eq hk⟩

theorem burstWidth_run (c q : Nat) (b : State) : burstWidth c q b = .ok (mWidth (queueOf b c q)) b := by
  unfold burstWidth
  rw [m_bind_ok ((MCrew.refl b c).getQueue q)]
  rfl

theorem checkQueue_ok {ep w : Nat} {push : Bool} (h : queueRefuses (queueOf b c q) ep w push = none) :
    checkQueue c q ep w push b = .ok (queueOf b c q) b := by
  unfold checkQueue
  rw [m_bind_ok ((MCrew.refl b c).getQueue q)]
  show (match queueRefuses (queueOf b c q) ep w push with
    | some cause => throw (.trap (queueExc cause q))
    | none => pure (queueOf b c q) : M Queue) b = _
  rw [h]
  rfl

/-- A queue with an entry at its end. -/
def withEntry (v : Queue) (x : QEntry) : Queue := { v with entries := v.entries ++ [x] }

theorem pushQueue_ok (x : QEntry) (h : mPushes b c q) :
    ∃ u, pushQueue c q 3 (mWidth (queueOf b c q)) x b = .ok () u ∧
      MCrew b u c (b.crew c).strokes ((b.crew c).queues.put q (withEntry (queueOf b c q) x) {}) (b.crew c).skipToks
        (b.crew c).mq := by
  obtain ⟨hok, hfull, hskip, hwhole, hbrq⟩ := h
  have harrive : (queueOf b c q).arrive x = withEntry (queueOf b c q) x := by
    exact (if_neg (ne_true_of_eq_false hskip)).trans (if_neg (ne_true_of_eq_false hwhole))
  have htoks : tokensFirst (b.crew c) (queueOf b c q) = (queueOf b c q, (b.crew c).skipToks) := by
    unfold tokensFirst
    split
    · next hb => rw [hbrq hb]; rfl
    · rfl
  have hgo : ¬((queueOf b c q).isFull && !(queueOf b c q).skip ||
      (queueOf b c q).brq && (b.crew c).skipToks.any fun w => !w.2) = true := fun hno => by
    simp only [hfull, Bool.false_and, Bool.false_or, Bool.and_eq_true] at hno
    rw [hbrq hno.1] at hno
    exact Bool.noConfusion hno.2
  obtain ⟨u, hset, hu⟩ := (MCrew.refl b c).setQueue q (withEntry (queueOf b c q) x)
  obtain ⟨u', hskips, hu'⟩ := hu.setSkips ((b.crew c).skipToks.map fun w => (w.1, false))
  unfold pushQueue
  rw [m_bind_ok (checkQueue_ok hok), m_bind_ok (m_get b), htoks]
  dsimp only
  rw [if_neg hgo, harrive, m_bind_ok hset]
  split
  · next hb =>
    rw [hbrq hb] at hu' hskips ⊢
    exact ⟨u', hskips, hu'⟩
  · exact ⟨u, rfl, hu⟩

theorem pushBurstEntry_ok (bs : List Byte) (pos : Nat) (h : mPushes b c q) :
    let es := burstEntries (mWidth (queueOf b c q)) bs
    ∃ u, pushBurstEntry c q bs pos b = .ok (decide (pos + 1 = es.length)) u ∧
      MCrew b u c (b.crew c).strokes
        ((b.crew c).queues.put q (withEntry (queueOf b c q) (es.getD pos { data := [] })) {}) (b.crew c).skipToks
        (b.crew c).mq := by
  intro es
  obtain ⟨u, hpush, hu⟩ := pushQueue_ok (es.getD pos { data := [] }) h
  refine ⟨u, ?_, hu⟩
  unfold pushBurstEntry
  rw [m_bind_ok (burstWidth_run c q b)]
  exact m_bind_ok hpush

theorem MAfter.pushed {t : State} {S : Tbl Stroke} {x : QEntry}
    (h : MAfter b t c S ((b.crew c).queues.put q (withEntry (queueOf b c q) x) {}) K) : mPushed b t c q x := by
  have hq (y : Nat) : queueOf t c y = ((b.crew c).queues.put q (withEntry (queueOf b c q) x) {}).getD y {} := by
    unfold queueOf
    rw [h.queues]
    rfl
  exact ⟨(hq q).trans (Tbl.getD_put_same ..), fun y hy => (hq y).trans (Tbl.getD_put_other _ _ _ hy)⟩

end

/-! #### MSTAT (R287) -/

/-- The body of MSTAT. -/
def mstatBody (o : StrokeFmt) (c : Nat) (e : Entry) : M Bool := do
  let v ← getStroke c o.arr
  let last ← pushBurstEntry c o.q (statBurst (v.tile o.x)) e.prog.pos
  if last then return true
  else
    setProg c e.name { e.prog with pos := e.prog.pos + 1 }
    return false

theorem exec_mstat (o : StrokeFmt) (s : State) : exec (.mstat o) s = runStroke o.tok (.mstat o) plainHand (mstatBody o) s := rfl

theorem tileOf_mBegun (s : State) (c tok : Nat) (e : Entry) (a x : Nat) : tileOf (mBegun s c tok e) c a x = tileOf s c a x := by
  unfold tileOf
  rw [mBegun_crew]
  rfl

theorem queueOf_mBegun (s : State) (c tok : Nat) (e : Entry) (q : Nat) : queueOf (mBegun s c tok e) c q = queueOf s c q := by
  unfold queueOf
  rw [mBegun_crew]
  rfl

theorem mPushes_mBegun {s : State} {c q : Nat} (tok : Nat) (e : Entry) (h : mPushes s c q) : mPushes (mBegun s c tok e) c q := by
  unfold mPushes at h ⊢
  rw [queueOf_mBegun, mBegun_crew]
  exact h

section
variable {o : StrokeFmt} {s u : State} {c : Nat} {e : Entry}

theorem mstatBody_last (hpush : pushBurstEntry c o.q (statBurst (tileOf s c o.arr o.x)) e.prog.pos s = .ok true u) :
    mstatBody o c e s = .ok true u := by
  unfold mstatBody
  rw [m_bind_ok ((MCrew.refl s c).getStroke o.arr)]
  exact m_bind_ok hpush

theorem mstatBody_more {u' : State} (hpush : pushBurstEntry c o.q (statBurst (tileOf s c o.arr o.x)) e.prog.pos s = .ok false u)
    (hprog : setProg c e.name { e.prog with pos := e.prog.pos + 1 } u = .ok () u') : mstatBody o c e s = .ok false u' := by
  unfold mstatBody
  rw [m_bind_ok ((MCrew.refl s c).getStroke o.arr)]
  refine (m_bind_ok hpush).trans ?_
  exact m_bind_ok hprog

theorem mstat_turn (h : MTurn o.tok s c e) (hp : mPushes s c o.q) :
    let b := mBegun s c o.tok e
    let p := e.prog
    let tile := tileOf s c o.arr o.x
    let es := burstEntries (mWidth (queueOf s c o.q)) (statBurst tile)
    (p.pos + 1 < es.length → ∃ t, exec (.mstat o) s = .next t ∧ MLeaves b t c ∧
      mPushed b t c o.q (es.getD p.pos { data := [] }) ∧ (t.crew c).strokes = (b.crew c).strokes ∧
      MGoesOn b t c e { p with begun := true, pos := p.pos + 1 }) ∧
    (p.pos + 1 = es.length → MRetires b c o.tok e → ∃ t, exec (.mstat o) s = .next t ∧ MLeaves b t c ∧
      mPushed b t c o.q (es.getD p.pos { data := [] }) ∧ (t.crew c).strokes = (b.crew c).strokes ∧ MGone b t c e) := by
  intro b p tile es
  have hexec := (exec_mstat o s).trans (runStroke_atHead h.head)
  obtain ⟨u, hpush, hu⟩ := pushBurstEntry_ok (statBurst (tileOf b c o.arr o.x)) p.pos (mPushes_mBegun o.tok e hp)
  have hes : burstEntries (mWidth (queueOf b c o.q)) (statBurst (tileOf b c o.arr o.x)) = es := by
    rw [tileOf_mBegun, queueOf_mBegun]
  rw [hes] at hpush hu
  refine ⟨fun hlt => ?_, fun heq hret => ?_⟩
  · obtain ⟨u', hprog, hu'⟩ := hu.setProg e.name { (mEntry e).prog with pos := p.pos + 1 }
    have hlast : decide (p.pos + 1 = es.length) = false := decide_eq_false (by omega)
    obtain ⟨hafter, hgoes⟩ := strokeTurn_progresses h (mstatBody_more (e := mEntry e) (hlast ▸ hpush) hprog) hu'
    exact ⟨_, hexec, hafter.leaves, hafter.pushed, hafter.strokes, hgoes⟩
  · have hlast : decide (p.pos + 1 = es.length) = true := decide_eq_true heq
    obtain ⟨hafter, hgone⟩ := strokeTurn_ends h hret (mstatBody_last (e := mEntry e) (hlast ▸ hpush)) hu rfl
    exact ⟨_, hexec, hafter.leaves, hafter.pushed, hafter.strokes, hgone⟩

end

/-! #### MDRAIN and MDRAINV (R282-R286) -/

section
variable {o : StrokeFmt} {raw : Bool} {s b u : State} {c : Nat} {e : Entry} {d : Desc}

/-- The flags of a drain up to its present burst. -/
def drainFlags (o : StrokeFmt) (e : Entry) (d : Desc) (t : XTile) (raw : Bool) : Flags :=
  orf e.prog.events (drainBurst o e d t raw e.prog.count).2

/-- What the last turn of a drain leaves of its array. -/
def drainedArray (o : StrokeFmt) (e : Entry) (v : Stroke) (fl : Flags) : Stroke :=
  let v' := { v with tsf := v.tsf.put e.sidx (BitVec.ofNat 32 (tsfWord o (v.tile o.x) fl)) 0 }
  if o.h % 2 = 1 then v'.setTile o.x (v.tile o.x).zeroed else v'

/-- A turn of a drain of this tile that has its descriptor and pushes its entry. -/
structure DrainPushes (o : StrokeFmt) (raw : Bool) (c : Nat) (e : Entry) (s b u : State) (d : Desc) (t : XTile) (last : Bool) :
    Prop where
  tile : tileOf s c o.arr o.x = t
  desc : drainDesc c o.f (e.sval.toNat % 4096) t.origin (e.prog.count == 0 && e.prog.pos == 0) s = .ok d b
  push : pushBurstEntry c o.q (drainBurst o e d t raw e.prog.count).1 e.prog.pos b = .ok last u

variable {t : XTile} {u' : State}

theorem drainTurn_more (h : DrainPushes o raw c e s b u d t false)
    (hprog : setProg c e.name { e.prog with pos := e.prog.pos + 1 } u = .ok () u') : drainTurn o raw c e s = .ok false u' := by
  obtain ⟨rfl, hdesc, hpush⟩ := h
  unfold drainTurn
  rw [m_bind_ok ((MCrew.refl s c).getStroke o.arr)]
  refine (m_bind_ok hdesc).trans ((m_bind_ok hpush).trans ?_)
  exact m_bind_ok hprog

theorem drainTurn_burst (h : DrainPushes o raw c e s b u d t true) (hlt : e.prog.count + 1 < 256 / d.epr)
    (hprog : setProg c e.name { e.prog with
      pos := 0, count := e.prog.count + 1, events := drainFlags o e d t raw } u = .ok () u') :
    drainTurn o raw c e s = .ok false u' := by
  obtain ⟨rfl, hdesc, hpush⟩ := h
  unfold drainTurn
  rw [m_bind_ok ((MCrew.refl s c).getStroke o.arr)]
  refine (m_bind_ok hdesc).trans ((m_bind_ok hpush).trans ((m_if_neg Bool.false_ne_true).trans ((m_if_pos hlt).trans ?_)))
  exact m_bind_ok hprog

theorem drainTurn_last (h : DrainPushes o raw c e s b u d t true) (hge : 256 / d.epr ≤ e.prog.count + 1)
    (hset : setStroke c o.arr (drainedArray o e ((s.crew c).stroke o.arr) (drainFlags o e d t raw)) u = .ok () u') :
    drainTurn o raw c e s = .ok true u' := by
  obtain ⟨rfl, hdesc, hpush⟩ := h
  unfold drainTurn
  rw [m_bind_ok ((MCrew.refl s c).getStroke o.arr)]
  refine (m_bind_ok hdesc).trans
    ((m_bind_ok hpush).trans ((m_if_neg Bool.false_ne_true).trans ((m_if_neg (Nat.not_lt.2 hge)).trans ?_)))
  exact m_bind_ok hset

/-- An array with a tile of it zeroed or not, and an entry of its status file. -/
theorem drainedArray_tile (o : StrokeFmt) (e : Entry) (v : Stroke) (fl : Flags) (hh : o.h ≤ 1) :
    (drainedArray o e v fl).tsf = v.tsf.put e.sidx (BitVec.ofNat 32 (tsfWord o (v.tile o.x) fl)) 0 ∧
    { drainedArray o e v fl with tiles := v.tiles, tsf := v.tsf } = v ∧
    (∀ y, y ≠ o.x → (drainedArray o e v fl).tile y = v.tile y) ∧
    (drainedArray o e v fl).tile o.x = if o.h = 1 then (v.tile o.x).zeroed else v.tile o.x := by
  unfold drainedArray
  dsimp only
  obtain hz | hz : o.h = 0 ∨ o.h = 1 := by omega
  · rw [hz, if_neg (by decide), if_neg (by decide)]
    exact ⟨rfl, rfl, fun _ _ => rfl, rfl⟩
  · rw [hz, if_pos (by decide), if_pos rfl]
    exact ⟨rfl, rfl, fun y hy => Stroke.setTile_other _ _ hy, Stroke.setTile_same ..⟩

/-- A turn of a drain, from the turn of its body. -/
theorem drains_of_turn {mk : StrokeFmt → Instr} {raw : Bool} (hwf : ∀ o, (mk o).wf = true → o.h ≤ 1)
    (hexec : ∀ o s, exec (mk o) s = runStroke o.tok (mk o) (drainHand o) (drainTurn o raw) s) : Drains mk raw := by
  intro o s b c e d hw h p tile hdesc hstroke hp bytes es fl
  have hrun := (hexec o s).trans (runStroke_atHead h.head)
  obtain ⟨u, hpush, hu⟩ := pushBurstEntry_ok bytes.1 p.pos hp
  have htile : tileOf (mBegun s c o.tok e) c o.arr o.x = tile := tileOf_mBegun ..
  have hturn (last : Bool) (hlast : decide (p.pos + 1 = es.length) = last) :
      DrainPushes o raw c (mEntry e) (mBegun s c o.tok e) b u d tile last :=
    ⟨htile, hdesc, hpush.trans (congrArg (EStateM.Result.ok · u) hlast)⟩
  refine ⟨fun hlt => ?_, fun heq hlt => ?_, fun heq hge hret => ?_⟩
  · obtain ⟨u', hprog, hu'⟩ := hu.setProg e.name { (mEntry e).prog with pos := p.pos + 1 }
    obtain ⟨hafter, hgoes⟩ := strokeTurn_progresses h (drainTurn_more (hturn false (decide_eq_false (by omega))) hprog) hu'
    exact ⟨_, hrun, hafter.leaves, hafter.pushed, hafter.strokes, hgoes⟩
  · obtain ⟨u', hprog, hu'⟩ := hu.setProg e.name { (mEntry e).prog with pos := 0, count := p.count + 1, events := fl }
    obtain ⟨hafter, hgoes⟩ := strokeTurn_progresses h (drainTurn_burst (hturn true (decide_eq_true heq)) hlt hprog) hu'
    exact ⟨_, hrun, hafter.leaves, hafter.pushed, hafter.strokes, hgoes⟩
  · have hbegun : ((mBegun s c o.tok e).crew c).stroke o.arr = (b.crew c).stroke o.arr := by
      rw [mBegun_crew]
      exact hstroke.symm
    obtain ⟨u', hset, hu'⟩ := hu.setStroke o.arr (drainedArray o (mEntry e) (((mBegun s c o.tok e).crew c).stroke o.arr) fl)
    obtain ⟨hafter, hgone⟩ := strokeTurn_ends h hret (drainTurn_last (hturn true (decide_eq_true heq)) hge hset) hu' rfl
    rw [hbegun] at hafter
    obtain ⟨htsf, hrest, hother, hsame⟩ := drainedArray_tile o (mEntry e) ((b.crew c).stroke o.arr) fl (hwf o hw)
    have hv := hafter.written
    refine ⟨_, hrun, hafter.leaves, hafter.pushed, hafter.otherArrays, ⟨fun y hy => ?_, ?_⟩,
      ⟨?_, fun i hi => ?_, ?_⟩, hgone⟩
    · unfold tileOf
      rw [hv, hother y hy]
    · rw [hv]
      exact hrest
    · rw [hv, htsf]
      exact Tbl.getD_put_same ..
    · rw [hv, htsf]
      exact Tbl.find?_put_other _ _ _ hi
    · unfold tileOf
      rw [hv, hsame]

end

end Sys2Proof.Machine
end

section
namespace Sys2Proof.Machine

/-! #### MVER (R288-R293) -/

theorem getStroke_run (c a : Nat) (s : State) : getStroke c a s = .ok ((s.crew c).stroke a) s := (MCrew.refl s c).getStroke a

/-- The handover of MVER. -/
def mverHand (o : StrokeFmt) (c : Nat) (e : Entry) : M Entry := do
  if o.p ≠ 0 then hrdSettled c o.h
  return e

theorem exec_mver (o : StrokeFmt) (s : State) : exec (.mver o) s = runStroke o.tok (.mver o) (mverHand o) (verTurn o) s := rfl

/-- The rest of a turn of MVER, once its descriptor and the bursts it will pop are known. -/
def verRest (o : StrokeFmt) (c : Nat) (v : Stroke) (d : Desc) (e : Entry) : M Bool := do
  let t := v.tile o.x
  let p := e.prog
  if p.pos < p.count * (d.epr / 32) && t.np < d.nb then
    if t.settled then
      setStroke c o.arr (v.setTile o.x (t.reach d.nb (t.np + 1)))
      setProg c e.name { p with pos := p.pos + 1 }
      return false
    else
      let s ← get
      if !(← blockCheck (s.crew c).cl o.arr) then return false
      verBlock o c e d
      return false
  else if p.count + 1 < p.events then
    if t.settled then verDiscard o c e d else verBurst o c e
    return false
  else return true

section
variable {o : StrokeFmt} {s b u : State} {c : Nat} {e : Entry} {d : Desc}

theorem verTurn_unbounded (h0 : e.prog.count = 0) (hm : ((s.crew c).stroke o.arr).front.mqv = false) :
    verTurn o c e s = .error (.trap (strokeExc 6)) s := by
  unfold verTurn
  rw [m_bind_ok (getStroke_run c o.arr s)]
  refine (m_if_pos ?_).trans rfl
  simp [h0, hm]

theorem verTurn_first (h0 : e.prog.count = 0) (hm : ((s.crew c).stroke o.arr).front.mqv = true)
    (hnp : (tileOf s c o.arr o.x).np = 0) (hrun : verBurst o c e s = .ok () u) : verTurn o c e s = .ok false u := by
  unfold verTurn
  rw [m_bind_ok (getStroke_run c o.arr s)]
  have hnp' : (((s.crew c).stroke o.arr).tile o.x).np = 0 := hnp
  refine (m_if_neg (by simp [hm])).trans ((m_if_pos (by simp [hnp', h0])).trans ?_)
  exact m_bind_ok hrun

theorem verTurn_known (hm : e.prog.count = 0 → ((s.crew c).stroke o.arr).front.mqv = true)
    (hstart : ¬((tileOf s c o.arr o.x).np = 0 ∧ e.prog.count = 0)) (hd : knownDesc c (tileOf s c o.arr o.x).vtid s = .ok d b)
    (hroom : e.prog.count ≠ 0 ∨ (tileOf s c o.arr o.x).np < d.nb) :
    verTurn o c e s =
      verRest o c ((s.crew c).stroke o.arr) d { e with prog := verProg (tileOf s c o.arr o.x) d e } b := by
  unfold verTurn
  rw [m_bind_ok (getStroke_run c o.arr s)]
  have hm' : ¬(e.prog.count = 0 && !((s.crew c).stroke o.arr).front.mqv) = true := fun hno => by
    simp only [Bool.and_eq_true, decide_eq_true_eq, Bool.not_eq_true'] at hno
    exact absurd (hm hno.1) (ne_true_of_eq_false hno.2)
  have hstart' : ¬((((s.crew c).stroke o.arr).tile o.x).np = 0 && e.prog.count = 0) = true := fun hno => by
    simp only [Bool.and_eq_true, decide_eq_true_eq] at hno
    exact hstart hno
  have hroom' : ¬(e.prog.count = 0 && e.prog.events = 0 && d.nb ≤ (((s.crew c).stroke o.arr).tile o.x).np) = true :=
    fun hno => by
      simp only [Bool.and_eq_true, decide_eq_true_eq] at hno
      exact hroom.elim (fun h => h hno.1.1) (fun h => absurd h (Nat.not_lt.2 hno.2))
  refine (m_if_neg hm').trans ((m_if_neg hstart').trans ((m_bind_ok hd).trans ((m_if_neg hroom').trans ?_)))
  rfl

theorem verProg_begun (t0 : XTile) (d : Desc) (e : Entry) :
    verProg t0 d (mEntry e) = { verProg t0 d e with begun := true } := by
  unfold verProg
  by_cases h : e.prog.events = 0
  · rw [if_pos h]
    exact if_pos h
  · rw [if_neg h]
    exact if_neg h

end

end Sys2Proof.Machine
end

section
namespace Sys2Proof.Machine

section
variable {o : StrokeFmt} {s b b1 b2 u : State} {c : Nat} {e : Entry} {d : Desc} {x : List Byte}

/-- The tile of the first burst of an MVER that starts it. -/
def verTagged (t : XTile) (x : List Byte) (origin : Nat) : XTile :=
  { t.tagged (burstCoords x) origin with vtid := burstTid x }

theorem verBurst_first (h0 : e.prog.count = 0) (hnp : (tileOf s c o.arr o.x).np = 0) (hpop : popBurst c o.q s = .ok x b1)
    (hdesc : burstDesc c o.q o.f [1] none x b1 = .ok d b) (hcs : (burstCoords x).getD 0 0 * d.epr = 0)
    (hb : (b.crew c).stroke o.arr = (s.crew c).stroke o.arr) :
    ∃ u, verBurst o c e s = .ok () u ∧
      MCrew b u c ((b.crew c).strokes.put o.arr (((b.crew c).stroke o.arr).setTile o.x
        (verTagged (tileOf s c o.arr o.x) x ((s.crew c).stroke o.arr).front.origin)) {}) (b.crew c).queues
        (b.crew c).skipToks ((b.crew c).mq.map (withProg e.name { e.prog with
          count := 1, nums := burstTid x :: burstCoords x, bytes := e.prog.bytes ++ x })) := by
  rw [hb]
  obtain ⟨u, hset, hu⟩ := (MCrew.refl b c).setStroke o.arr (((s.crew c).stroke o.arr).setTile o.x
    (verTagged (tileOf s c o.arr o.x) x ((s.crew c).stroke o.arr).front.origin))
  obtain ⟨u', hprog, hu'⟩ := hu.setProg e.name { e.prog with
    count := 1, nums := burstTid x :: burstCoords x, bytes := e.prog.bytes ++ x }
  refine ⟨u', ?_, hu'⟩
  have hnp' : (((s.crew c).stroke o.arr).tile o.x).np = 0 := hnp
  unfold verBurst
  rw [m_bind_ok (getStroke_run c o.arr s)]
  dsimp only
  rw [m_bind_ok hpop]
  simp only [h0, hnp', if_true]
  rw [m_bind_ok hdesc, if_neg fun h => h.elim (fun h => h hcs) (fun h => h rfl)]
  exact (m_bind_ok hset).trans hprog

/-- A tile after a block and the umpire's verdicts. -/
def judged (pred : Nat) (pl : Plane) (d : Desc) (tbs : List (Ex × Bool)) (T : Ex) (p : Progress) (t : XTile) : XTile :=
  let u := umpire pred t.np pl d t.c1 tbs T { summedTile t pl d p with np := t.np + 1 }
  { u with rsv := u.rsv || tbs.any (·.2), settled := isSettled pl d t.c1 u }

/-- The skip tokens of a crew once a tile has been settled, or not. -/
def skipsAfter (o : StrokeFmt) (k : Crew) (settled : Bool) : List (Word × Bool) :=
  if settled && (branchQueue k).isSome then
    k.skipToks ++ [(BitVec.ofNat 64 (o.x * 2 ^ 9 + o.arr * 2 ^ 8 + o.q), pushWaits k)]
  else k.skipToks

theorem skipToken_run {S : Tbl Stroke} {L : List Entry} (o : StrokeFmt) (settled : Bool)
    (h : MCrew b u c S (b.crew c).queues (b.crew c).skipToks L) :
    ∃ u', (if settled then skipToken c o.arr o.x o.q else pure ()) u = .ok () u' ∧
      MCrew b u' c S (b.crew c).queues (skipsAfter o (b.crew c) settled) L := by
  have hbranch : branchQueue (u.crew c) = branchQueue (b.crew c) := by
    rw [h.crew]
    rfl
  have hwaits : pushWaits (u.crew c) = pushWaits (b.crew c) := by
    rw [h.crew]
    rfl
  have hskips : (u.crew c).skipToks = (b.crew c).skipToks := by
    rw [h.crew]
    rfl
  unfold skipsAfter
  cases settled with
  | false => exact ⟨u, rfl, h⟩
  | true =>
    obtain ⟨u', hrun, hu'⟩ := h.setSkips ((u.crew c).skipToks ++
      [(BitVec.ofNat 64 (o.x * 2 ^ 9 + o.arr * 2 ^ 8 + o.q), pushWaits (u.crew c))])
    rw [Bool.true_and]
    by_cases hs : (branchQueue (b.crew c)).isSome = true
    · rw [if_pos hs, ← hskips, ← hwaits]
      rw [← hbranch] at hs
      exact ⟨u', (congrArg (EStateM.Result.ok ()) (if_pos hs)).trans hrun, hu'⟩
    · rw [if_neg hs]
      rw [← hbranch] at hs
      exact ⟨u, congrArg (EStateM.Result.ok ()) (if_neg hs), h⟩

variable {tbs : List (Ex × Bool)}

/-- A block of MVER, as one of two writes of its tile. -/
theorem verBlock_eq (o : StrokeFmt) (c : Nat) (e : Entry) (d : Desc) : verBlock o c e d = (do
    let v ← getStroke c o.arr
    let t := v.tile o.x
    if t.np + 1 < d.nb then
      let tbs ← tailBounds c d t.c1 (t.np + 1) (List.range 32)
      let s ← get
      let w := judged o.p v.front d tbs (FFmt.f32.decode ((s.crew c).thr o.h)) e.prog t
      setStroke c o.arr (v.setTile o.x w)
      if w.settled then skipToken c o.arr o.x o.q
    else
      setStroke c o.arr (v.setTile o.x
        (({ summedTile t v.front d e.prog with np := t.np + 1 } : XTile).reach d.nb (t.np + 1)))
    setProg c e.name { e.prog with pos := e.prog.pos + 1 }) := rfl

theorem verBlock_judges (hnp : (tileOf b2 c o.arr o.x).np + 1 < d.nb)
    (ht : tailBounds c d (tileOf b2 c o.arr o.x).c1 ((tileOf b2 c o.arr o.x).np + 1) (List.range 32) b2 = .ok tbs b)
    (hb : (b.crew c).stroke o.arr = (b2.crew c).stroke o.arr) :
    let w := judged o.p ((b.crew c).stroke o.arr).front d tbs (FFmt.f32.decode ((b.crew c).thr o.h)) e.prog (tileOf b c o.arr o.x)
    ∃ u, verBlock o c e d b2 = .ok () u ∧
      MCrew b u c ((b.crew c).strokes.put o.arr (((b.crew c).stroke o.arr).setTile o.x w) {}) (b.crew c).queues
        (skipsAfter o (b.crew c) w.settled) ((b.crew c).mq.map (withProg e.name { e.prog with pos := e.prog.pos + 1 })) := by
  intro w
  have htile : tileOf b c o.arr o.x = tileOf b2 c o.arr o.x := by
    unfold tileOf
    rw [hb]
  obtain ⟨u, hset, hu⟩ := (MCrew.refl b c).setStroke o.arr (((b.crew c).stroke o.arr).setTile o.x w)
  obtain ⟨u', hskip, hu'⟩ := skipToken_run o w.settled hu
  obtain ⟨u'', hprog, hu''⟩ := hu'.setProg e.name { e.prog with pos := e.prog.pos + 1 }
  refine ⟨u'', ?_, hu''⟩
  rw [verBlock_eq]
  rw [m_bind_ok (getStroke_run c o.arr b2)]
  refine (m_if_pos hnp).trans ((m_bind_ok ht).trans ((m_bind_ok (m_get b)).trans ?_))
  rw [← hb]
  refine (m_bind_ok hset).trans ?_
  cases hw : w.settled with
  | true =>
    rw [hw] at hskip
    exact (m_if_pos hw).trans ((m_bind_ok hskip).trans hprog)
  | false =>
    rw [hw] at hskip
    obtain rfl : u = u' := by cases hskip; rfl
    exact (m_if_neg (ne_true_of_eq_false hw)).trans hprog

theorem verBlock_completes (hnp : (tileOf b c o.arr o.x).np + 1 = d.nb) :
    let t0 := tileOf b c o.arr o.x
    let w := ({ summedTile t0 ((b.crew c).stroke o.arr).front d e.prog with np := t0.np + 1 } : XTile).reach d.nb (t0.np + 1)
    ∃ u, verBlock o c e d b = .ok () u ∧
      MCrew b u c ((b.crew c).strokes.put o.arr (((b.crew c).stroke o.arr).setTile o.x w) {}) (b.crew c).queues
        (b.crew c).skipToks ((b.crew c).mq.map (withProg e.name { e.prog with pos := e.prog.pos + 1 })) := by
  intro t0 w
  obtain ⟨u, hset, hu⟩ := (MCrew.refl b c).setStroke o.arr (((b.crew c).stroke o.arr).setTile o.x w)
  obtain ⟨u', hprog, hu'⟩ := hu.setProg e.name { e.prog with pos := e.prog.pos + 1 }
  refine ⟨u', ?_, hu'⟩
  rw [verBlock_eq]
  rw [m_bind_ok (getStroke_run c o.arr b)]
  refine (m_if_neg (Nat.not_lt.2 (Nat.le_of_eq hnp.symm))).trans ((m_bind_ok hset).trans hprog)

end

end Sys2Proof.Machine
end

section
namespace Sys2Proof.Machine

/-! #### A turn of MVER on a tile that is not settled (R289, R291, R292) -/

section
variable {o : StrokeFmt} {s b b1 b2 u : State} {c : Nat} {e : Entry} {d : Desc} {v : Stroke} {r : Bool}

theorem verRest_block (hpos : e.prog.pos < e.prog.count * (d.epr / 32)) (hnp : (v.tile o.x).np < d.nb)
    (hset : (v.tile o.x).settled = false) (hok : blockCheck (b1.crew c).cl o.arr b1 = .ok true b2)
    (hrun : verBlock o c e d b2 = .ok () u) : verRest o c v d e b1 = .ok false u := by
  unfold verRest
  refine (m_if_pos (by simp [hpos, hnp])).trans ((m_if_neg (ne_true_of_eq_false hset)).trans ?_)
  refine (m_bind_ok (m_get b1)).trans ((m_bind_ok hok).trans ((m_if_neg (by decide)).trans ?_))
  exact m_bind_ok hrun

theorem verRest_done (hpos : e.prog.count * (d.epr / 32) ≤ e.prog.pos ∨ d.nb ≤ (v.tile o.x).np)
    (hev : e.prog.events ≤ e.prog.count + 1) : verRest o c v d e b = .ok true b := by
  unfold verRest
  have hpos' : ¬(e.prog.pos < e.prog.count * (d.epr / 32) && (v.tile o.x).np < d.nb) = true := fun h => by
    simp only [Bool.and_eq_true, decide_eq_true_eq] at h
    omega
  exact (m_if_neg hpos').trans (m_if_neg (Nat.not_lt.2 hev))

theorem mver_first {x : List Byte} (h : MTurn o.tok s c e) (h0 : e.prog.count = 0) :
    let t0 := tileOf s c o.arr o.x
    let cs := burstCoords x
    ((s.crew c).stroke o.arr).front.mqv = true → t0.np = 0 → popBurst c o.q (mBegun s c o.tok e) = .ok x b1 →
    burstDesc c o.q o.f [1] none x b1 = .ok d b → (b.crew c).stroke o.arr = (s.crew c).stroke o.arr →
    cs.getD 0 0 * d.epr = 0 → ∃ t, exec (.mver o) s = .next t ∧ MLeaves b t c ∧ OtherTiles b t c o.arr o.x ∧
      (t.crew c).queues = (b.crew c).queues ∧
      tileOf t c o.arr o.x = { t0 with vtid := burstTid x, c1 := cs.getD 1 0, c2 := cs.getD 2 0, c3 := cs.getD 3 0
                                       origin := ((s.crew c).stroke o.arr).front.origin } ∧
      MGoesOn b t c e { e.prog with begun := true, count := 1, nums := burstTid x :: cs, bytes := e.prog.bytes ++ x } := by
  intro t0 cs hm hnp hpop hdesc hb hcs
  have hstroke : ((mBegun s c o.tok e).crew c).stroke o.arr = (s.crew c).stroke o.arr := by
    rw [mBegun_crew]
    rfl
  have htile : tileOf (mBegun s c o.tok e) c o.arr o.x = t0 := tileOf_mBegun ..
  obtain ⟨u, hrun, hu⟩ := verBurst_first (e := mEntry e) h0 (by rw [htile]; exact hnp) hpop hdesc hcs (hb.trans hstroke.symm)
  rw [htile, hstroke] at hu
  have hbody := verTurn_first (e := mEntry e) h0 (by rw [hstroke]; exact hm) (by rw [htile]; exact hnp) hrun
  obtain ⟨hafter, hgoes⟩ := strokeTurn_progresses h hbody hu
  obtain ⟨htiles, hw⟩ := hafter.tile
  exact ⟨_, (exec_mver o s).trans (runStroke_atHead h.head), hafter.leaves, htiles, hafter.queues, hw, hgoes⟩

/-- The rest of a turn of MVER from the state in which it begins. -/
theorem verTurn_begun (hm : e.prog.count = 0 → ((s.crew c).stroke o.arr).front.mqv = true)
    (hstart : ¬((tileOf s c o.arr o.x).np = 0 ∧ e.prog.count = 0))
    (hd : knownDesc c (tileOf s c o.arr o.x).vtid (mBegun s c o.tok e) = .ok d b)
    (hroom : e.prog.count ≠ 0 ∨ (tileOf s c o.arr o.x).np < d.nb) :
    verTurn o c (mEntry e) (mBegun s c o.tok e) = verRest o c ((s.crew c).stroke o.arr) d
      { mEntry e with prog := { verProg (tileOf s c o.arr o.x) d e with begun := true } } b := by
  have hstroke : ((mBegun s c o.tok e).crew c).stroke o.arr = (s.crew c).stroke o.arr := by
    rw [mBegun_crew]
    rfl
  have htile : tileOf (mBegun s c o.tok e) c o.arr o.x = tileOf s c o.arr o.x := tileOf_mBegun ..
  rw [← verProg_begun, ← hstroke, ← htile]
  exact verTurn_known (e := mEntry e) (fun h0 => by rw [hstroke]; exact hm h0) (by rw [htile]; exact hstart)
    (by rw [htile]; exact hd) (by rw [htile]; exact hroom)

theorem mver_done (h : MTurn o.tok s c e) :
    let t0 := tileOf s c o.arr o.x
    let p := verProg t0 d e
    p.count ≠ 0 →
    knownDesc c t0.vtid (mBegun s c o.tok e) = .ok d b → (p.count * (d.epr / 32) ≤ p.pos ∨ d.nb ≤ t0.np) →
    p.events ≤ p.count + 1 → MRetires b c o.tok e →
    ∃ t, exec (.mver o) s = .next t ∧ MLeaves b t c ∧ MGone b t c e ∧ (t.crew c).strokes = (b.crew c).strokes ∧
      (t.crew c).queues = (b.crew c).queues := by
  intro t0 p hc hd hpos hev hret
  have hcount : p.count = e.prog.count := by
    simp only [p, verProg]
    split <;> rfl
  rw [hcount] at hc
  have hbody := (verTurn_begun (fun h0 => absurd h0 hc) (fun h0 => hc h0.2) hd (.inl hc)).trans (verRest_done hpos hev)
  obtain ⟨hafter, hgone⟩ := strokeTurn_ends h hret hbody (MCrew.refl b c) rfl
  exact ⟨_, (exec_mver o s).trans (runStroke_atHead h.head), hafter.leaves, hgone, hafter.strokes, hafter.queues⟩

theorem mver_unbounded (h : MTurn o.tok s c e) (hm : ((s.crew c).stroke o.arr).front.mqv = false) (h0 : e.prog.count = 0)
    (hfirst : earlier (s.crew c).mq e.name = []) : ∃ t, exec (.mver o) s = .next t ∧ MRaises s t c e 21 6 := by
  have hbody := verTurn_unbounded (o := o) (s := mBegun s c o.tok e) (c := c) (e := mEntry e) h0 (by rw [mBegun_crew]; exact hm)
  obtain ⟨p, hposted, hrest⟩ := mRaises_of_raise 6 (earlier_mBegun (tok := o.tok) hfirst)
  refine ⟨_, (exec_mver o s).trans (runStroke_atHead h.head), ?_⟩
  rw [strokeTurn_raises h hbody]
  rw [mBegun_crew] at hposted hrest
  exact ⟨p, hposted, hrest⟩

end

end Sys2Proof.Machine
end

section
namespace Sys2Proof.Machine

section
variable {pred : Nat} {pl : Plane} {d : Desc} {tbs : List (Ex × Bool)} {T : Ex} {p : Progress} {t : XTile}

theorem judged_np : (judged pred pl d tbs T p t).np = t.np + 1 := rfl

theorem isSettled_congr {t u : XTile} (c1 : Nat) (h : t.cells = u.cells) : isSettled pl d c1 t = isSettled pl d c1 u := by
  unfold isSettled
  rw [h]

theorem judged_settled : (judged pred pl d tbs T p t).settled = isSettled pl d t.c1 (judged pred pl d tbs T p t) :=
  isSettled_congr (t := umpire pred t.np pl d t.c1 tbs T { summedTile t pl d p with np := t.np + 1 }) t.c1 rfl

/-- The cells after a block and the umpire (R292). -/
theorem judged_cell {i : Nat} (hi : i < 8192) : (judged pred pl d tbs T p t).cells.getD i {} =
    let x := blockAdded t pl p.pos (blockRows d p p.pos) i
    if x.isGone ∨ inert pl d t.c1 i then x
    else
      let tb := (tbs.getD (i / 256) (Ex.zero, false)).1
      let mq := FFmt.f32.decode (pl.mq.getD (i % 256) 0).toNat
      let bound := if tb.isInf || mq.isInf then Ex.inf false else rup (tb.mul mq)
      match verdict pred (FFmt.f32.decode x.acc.toNat) (FFmt.f32.decode x.err.toNat) bound T with
      | some v => { x with st := .gone pred v (t.np + 1) }
      | none => x := by
  have hsum : (summedTile t pl d p).cells.getD i {} = blockAdded t pl p.pos (blockRows d p p.pos) i := summedTile_cell t pl d p hi
  show (umpire pred t.np pl d t.c1 tbs T { summedTile t pl d p with np := t.np + 1 }).cells.getD i {} = _
  unfold umpire
  rw [mapAll_cell _ _ hi]
  dsimp only
  rw [hsum]
  generalize blockAdded t pl p.pos (blockRows d p p.pos) i = x
  by_cases hx : x.isGone ∨ inert pl d t.c1 i
  · rw [if_pos hx, if_pos (by simpa using hx)]
  · rw [if_neg hx]
    exact if_neg (by simpa using hx)

theorem reach_np (t : XTile) (nb np : Nat) : (t.reach nb np).np = min nb np := by
  unfold XTile.reach
  dsimp only
  split <;> rfl

theorem reach_cell (t : XTile) (nb np : Nat) {i : Nat} (hi : i < 8192) : (t.reach nb np).cells.getD i {} =
    let x := t.cells.getD i {}
    if nb ≤ np ∧ x.isGone = false then { x with st := .complete } else x := by
  unfold XTile.reach
  dsimp only
  by_cases hnp : nb ≤ np
  · rw [if_pos hnp, mapAll_cell _ _ hi]
    dsimp only
    by_cases hg : (t.cells.getD i {}).isGone = true
    · rw [if_pos hg, if_neg fun h => ne_true_of_eq_false h.2 hg]
    · rw [if_neg hg, if_pos ⟨hnp, Bool.eq_false_of_not_eq_true hg⟩]
  · rw [if_neg hnp, if_neg fun h => hnp h.1]

theorem reachedTile_reach (t : XTile) (nb np : Nat) : ReachedTile t (t.reach nb np) nb np := by
  refine ⟨reach_np t nb np, ?_, fun i hi => reach_cell t nb np hi⟩
  unfold XTile.reach
  dsimp only
  split <;> rfl

end

section
variable {o : StrokeFmt} {s b b1 b2 : State} {c : Nat} {e : Entry} {d : Desc} {tbs : List (Ex × Bool)}

theorem mver_block (h : MTurn o.tok s c e) :
    let t0 := tileOf s c o.arr o.x
    let p := verProg t0 d e
    ((s.crew c).stroke o.arr).front.mqv = true → ¬(t0.np = 0 ∧ p.count = 0) →
    knownDesc c t0.vtid (mBegun s c o.tok e) = .ok d b1 → p.pos < p.count * (d.epr / 32) → t0.np < d.nb →
    t0.settled = false → blockCheck (b1.crew c).cl o.arr b1 = .ok true b2 →
    (t0.np + 1 < d.nb → tailBounds c d t0.c1 (t0.np + 1) (List.range 32) b2 = .ok tbs b →
      tileOf b c o.arr o.x = t0 → tileOf b2 c o.arr o.x = t0 → ((b.crew c).stroke o.arr) = ((b2.crew c).stroke o.arr) →
      let pl := ((b.crew c).stroke o.arr).front
      ∃ t, exec (.mver o) s = .next t ∧ MLeaves b t c ∧ OtherTiles b t c o.arr o.x ∧
        (tileOf t c o.arr o.x).np = t0.np + 1 ∧
        (∀ i < 8192, (tileOf t c o.arr o.x).cells.getD i {} =
          let x := blockAdded t0 pl p.pos (blockRows d p p.pos) i
          if x.isGone ∨ inert pl d t0.c1 i then x
          else
            let tb := (tbs.getD (i / 256) (Ex.zero, false)).1
            let mq := FFmt.f32.decode (pl.mq.getD (i % 256) 0).toNat
            let bound := if tb.isInf || mq.isInf then Ex.inf false else rup (tb.mul mq)
            match verdict o.p (FFmt.f32.decode x.acc.toNat) (FFmt.f32.decode x.err.toNat) bound
              (FFmt.f32.decode ((b.crew c).thr o.h)) with
            | some v => { x with st := .gone o.p v (t0.np + 1) }
            | none => x) ∧
        (tileOf t c o.arr o.x).settled = isSettled pl d t0.c1 (tileOf t c o.arr o.x) ∧
        ((tileOf t c o.arr o.x).settled = true → (branchQueue (b.crew c)).isSome →
          (t.crew c).skipToks = (b.crew c).skipToks ++
            [(BitVec.ofNat 64 (o.x * 2 ^ 9 + o.arr * 2 ^ 8 + o.q), pushWaits (b.crew c))]) ∧
        MGoesOn b t c e { p with begun := true, pos := p.pos + 1 }) ∧
    (t0.np + 1 = d.nb → tileOf b2 c o.arr o.x = t0 →
      ∃ t, exec (.mver o) s = .next t ∧ MLeaves b2 t c ∧ OtherTiles b2 t c o.arr o.x ∧
        (tileOf t c o.arr o.x).np = t0.np + 1 ∧
        (∀ i < 8192, (tileOf t c o.arr o.x).cells.getD i {} =
          let x := blockAdded t0 ((b2.crew c).stroke o.arr).front p.pos (blockRows d p p.pos) i
          if x.isGone then x else { x with st := .complete }) ∧
        MGoesOn b2 t c e { p with begun := true, pos := p.pos + 1 }) := by
  intro t0 p hm hstart hd hpos hnp hset hok
  have hcount : p.count = e.prog.count := by
    simp only [p, verProg]
    split <;> rfl
  rw [hcount] at hstart
  have hexec := (exec_mver o s).trans (runStroke_atHead h.head)
  have hbegun := verTurn_begun (fun _ => hm) hstart hd (.inr hnp)
  have hbody {u : State} (hrun : verBlock o c { mEntry e with prog := { p with begun := true } } d b2 = .ok () u) :
      verTurn o c (mEntry e) (mBegun s c o.tok e) = .ok false u := hbegun.trans (verRest_block hpos hnp hset hok hrun)
  refine ⟨fun hlt htb htile htile2 hb => ?_, fun heq htile2 => ?_⟩
  · intro pl
    obtain ⟨u, hrun, hu⟩ := verBlock_judges (o := o) (e := { mEntry e with prog := { p with begun := true } })
      (by rw [htile2]; exact hlt) (by rw [htile2]; exact htb) hb
    rw [htile] at hu
    obtain ⟨hafter, hgoes⟩ := strokeTurn_progresses h (hbody hrun) hu
    obtain ⟨htiles, hw⟩ := hafter.tile
    refine ⟨_, hexec, hafter.leaves, htiles, ?_, fun i hi => ?_, ?_, fun hdone hbranch => ?_, hgoes⟩
    · rw [hw]
      exact judged_np
    · rw [hw]
      exact judged_cell hi
    · rw [hw]
      exact judged_settled
    · rw [hw] at hdone
      rw [hafter.skips, hdone]
      exact if_pos hbranch
  · obtain ⟨u, hrun, hu⟩ := verBlock_completes (o := o) (e := { mEntry e with prog := { p with begun := true } })
      (by rw [htile2]; exact heq)
    rw [htile2] at hu
    obtain ⟨hafter, hgoes⟩ := strokeTurn_progresses h (hbody hrun) hu
    obtain ⟨htiles, hw⟩ := hafter.tile
    refine ⟨_, hexec, hafter.leaves, htiles, ?_, fun i hi => ?_, hgoes⟩
    · rw [hw, reach_np]
      exact min_eq_right (Nat.le_of_eq heq)
    · rw [hw, reach_cell _ _ _ hi]
      dsimp only
      have hsum : (summedTile t0 ((b2.crew c).stroke o.arr).front d { p with begun := true }).cells.getD i {} =
          blockAdded t0 ((b2.crew c).stroke o.arr).front p.pos (blockRows d p p.pos) i := summedTile_cell _ _ _ _ hi
      rw [hsum]
      generalize blockAdded t0 ((b2.crew c).stroke o.arr).front p.pos (blockRows d p p.pos) i = y
      by_cases hg : y.isGone = true
      · rw [if_pos hg, if_neg fun h => ne_true_of_eq_false h.2 hg]
      · rw [if_neg hg, if_pos ⟨Nat.le_of_eq heq.symm, Bool.eq_false_of_not_eq_true hg⟩]

end

end Sys2Proof.Machine
end

section
namespace Sys2Proof.Machine

/-! #### What naming a descriptor leaves of a crew's M instructions (R81) -/

section
variable (c : Nat) (L : List Entry)

/-- The M instructions of a crew are these. -/
def HasMq (s : State) : Prop := (s.crew c).mq = L

theorem stays_of_kept {α : Type} {m : M α} (h : ∀ s, Stays (Kept s) m) : Stays (HasMq c L) m := fun s hs => by
  have hk := h s s (Kept.refl s)
  have hmq {t : State} (ht : Kept s t) : HasMq c L t := (congrArg Crew.mq (ht.crew c)).trans hs
  split
  · next hm => rw [hm] at hk; exact hmq hk
  · next hm => rw [hm] at hk; exact hmq hk

theorem mq_checkSectors (l : List Nat) : Stays (HasMq c L) (checkSectors l) := by
  induction l with
  | nil => exact Stays.pure _
  | cons k t ih => exact (stays_of_kept c L fun s => keeps_checkSector s k).bind fun _ => ih.bind fun _ => Stays.pure _

theorem mq_descPlace (ctx va : Nat) (crew : Option Nat) (c' : Nat) : Stays (HasMq c L) (descPlace ctx va crew (.half c')) := by
  unfold descPlace
  exact Stays.get.bind fun _ => Stays.pure _

theorem mq_descEntry (ctx tid : Nat) : Stays (HasMq c L) (descEntry ctx tid (some c) (.half c)) := by
  unfold descEntry
  refine Stays.get.bind fun s => ?_
  dsimp only
  split
  · exact Stays.pure _
  · refine (mq_descPlace c L ctx _ (some c) c).bind fun r => ?_
    split
    · exact Stays.pure _
    · exact Stays.pure _
    · refine (mq_checkSectors c L _).bind fun ok => ?_
      split
      · exact Stays.pure _
      · refine Stays.get.bind fun s' => (Stays.upd fun t ht => ?_).bind fun _ => Stays.pure _
        unfold HasMq at ht ⊢
        rw [State.crew_setCrew]
        exact ht

theorem mq_tidDesc (tid : Nat) : Stays (HasMq c L) (tidDesc c tid) := by
  unfold tidDesc nameTid
  refine Stays.get.bind fun s => (Stays.bind ?_ fun r => ?_)
  · split
    · exact Stays.pure _
    · refine Stays.get.bind fun s' => (mq_descEntry c L _ tid).bind fun r => ?_
      split <;> exact Stays.pure _
  · split
    · exact Stays.throw _
    · exact Stays.throw _
    · exact Stays.pure _
    · exact Stays.pure _

end

theorem knownDesc_mq {c tid : Nat} {s b : State} {d : Desc} (h : knownDesc c tid s = .ok d b) :
    (b.crew c).mq = (s.crew c).mq := by
  have hstays : Stays (HasMq c (s.crew c).mq) (knownDesc c tid) := by
    unfold knownDesc
    refine (mq_tidDesc c _ tid).bind fun r => ?_
    split
    · exact Stays.pure _
    · exact Stays.throw _
  exact hstays.ok (s := s) rfl h

end Sys2Proof.Machine
end

section
namespace Sys2Proof.Machine

/-! #### The next burst of an MVER on a settled tile, discarded (R140, R144, R293) -/

theorem setQueue_run (c q : Nat) (v : Queue) (s : State) : setQueue c q v s = .ok () (withQueue s c q v) := rfl

theorem queueOf_withQueue (s : State) (c q : Nat) (v : Queue) : queueOf (withQueue s c q v) c q = v := by
  unfold queueOf withQueue
  rw [State.crew_setCrew]
  exact Tbl.getD_put_same ..

theorem getQueue_run (c q : Nat) (s : State) : getQueue c q s = .ok (queueOf s c q) s := (MCrew.refl s c).getQueue q

theorem ne_default_of_width {v : Queue} (h : v.width ≠ 0) : v ≠ {} := fun hv => h (hv ▸ rfl)

theorem withQueue_withQueue (s : State) (c q : Nat) {v w : Queue} (hv : v.width ≠ 0) (hw : w.width ≠ 0) :
    withQueue (withQueue s c q v) c q w = withQueue s c q w := by
  have hput (t : Tbl Queue) : (t.put q v {}).put q w {} = t.put q w {} := by
    unfold Tbl.put
    rw [if_neg (ne_default_of_width hv), if_neg (ne_default_of_width hw), if_neg (ne_default_of_width hw), insert_insert]
  unfold withQueue
  rw [setCrew_setCrew, State.crew_setCrew]
  generalize s.crew c = k
  exact congrArg (fun t => s.setCrew c { k with queues := t }) (hput k.queues)

section
variable {b : State} {c q : Nat}

/-- A queue whose front burst has been popped. -/
def burstTaken (v : Queue) : Queue := { v with entries := v.entries.drop v.burst, mid := false }

/-- The burst that stands at the front of the queue is popped. -/
theorem popBurst_ok {h : QEntry} {r : List QEntry}
    (hok : queueRefuses (queueOf b c q) 3 (mWidth (queueOf b c q)) false = none) (he : (queueOf b c q).entries = h :: r)
    (hp : h.p = false) :
    popBurst c q b = .ok (((queueOf b c q).entries.take (queueOf b c q).burst).flatMap (·.data))
      (withQueue b c q (burstTaken (queueOf b c q))) := by
  unfold popBurst burstTaken
  rw [m_bind_ok (burstWidth_run c q b), m_bind_ok (checkQueue_ok hok), he]
  exact (m_if_neg (ne_true_of_eq_false hp)).trans (m_bind_ok (setQueue_run ..))

/-- The states of the queue in which a header is there to be taken, and the queue without it. -/
def HeaderThere (v : Queue) (x : List Byte) (v' : Queue) : Prop :=
  v.watch = some x ∧ v' = { v with watch := none } ∨
    v.watch = none ∧ v.width ≠ 0 ∧ (∃ h r, v.entries = h :: r ∧ h.p = false) ∧
    x = (v.entries.take v.burst).flatMap (·.data) ∧
    v' = { v with entries := v.entries.drop v.burst, mid := false, disc := satAdd v.disc v.burst }

variable (hok : queueRefuses (queueOf b c q) 3 (mWidth (queueOf b c q)) false = none)
include hok

theorem skippedHeader_waits (hskip : (queueOf b c q).skip = true) : skippedHeader c q b = .error .stall b := by
  unfold skippedHeader
  rw [m_bind_ok (burstWidth_run c q b), m_bind_ok (checkQueue_ok hok)]
  exact (m_if_pos hskip).trans rfl

theorem skippedHeader_begins (hskip : (queueOf b c q).skip = false) (hw : (queueOf b c q).watch = none)
    (he : (queueOf b c q).entries = []) :
    skippedHeader c q b = .ok none (withQueue b c q (queueOf b c q).skipWatched) := by
  unfold skippedHeader
  rw [m_bind_ok (burstWidth_run c q b), m_bind_ok (checkQueue_ok hok)]
  refine (m_if_neg (ne_true_of_eq_false hskip)).trans ?_
  rw [hw]
  exact (m_if_pos (by rw [he]; rfl)).trans (m_bind_ok (setQueue_run ..))

theorem skippedHeader_takes {x : List Byte} {v' : Queue} (hskip : (queueOf b c q).skip = false)
    (h : HeaderThere (queueOf b c q) x v') : skippedHeader c q b = .ok (some x) (withQueue b c q v') := by
  unfold skippedHeader
  rw [m_bind_ok (burstWidth_run c q b), m_bind_ok (checkQueue_ok hok)]
  refine (m_if_neg (ne_true_of_eq_false hskip)).trans ?_
  obtain ⟨hw, rfl⟩ | ⟨hw, hwidth, ⟨h, r, he, hp⟩, hx, hv⟩ := h
  · rw [hw]
    exact m_bind_ok (setQueue_run ..)
  · rw [hw]
    refine (m_if_neg (by simp [he])).trans ((m_bind_ok (popBurst_ok hok he hp)).trans ?_)
    rw [m_bind_ok (getQueue_run ..), m_bind_ok (setQueue_run ..), queueOf_withQueue, hx, hv]
    exact congrArg (EStateM.Result.ok (some _)) (withQueue_withQueue b c q (v := burstTaken (queueOf b c q))
      (w := (burstTaken (queueOf b c q)).discard (burstTaken (queueOf b c q)).burst) hwidth hwidth)

end

end Sys2Proof.Machine
end

section
namespace Sys2Proof.Machine

/-! #### MVER on a settled tile (R288, R289, R293) -/

section
variable {o : StrokeFmt} {b b' b'' : State} {c : Nat} {e : Entry} {d d' : Desc} {x : List Byte}

/-- The coordinates an MVER compares its bursts with: its first burst's. -/
def firstCoords (p : Progress) (x : List Byte) : List Nat := if p.nums = [] then burstCoords x else p.nums.drop 1

theorem firstCoords_eq (p : Progress) (x : List Byte) :
    (if p.nums.isEmpty then burstCoords x else p.nums.drop 1) = firstCoords p x := by
  unfold firstCoords
  cases p.nums with
  | nil => rfl
  | cons n l => rfl

theorem verDiscard_waits (h : skippedHeader c o.q b = .error .stall b) : verDiscard o c e d b = .error .stall b := by
  unfold verDiscard
  exact m_bind_err h

theorem verDiscard_begins (h : skippedHeader c o.q b = .ok none b') : verDiscard o c e d b = .ok () b' := by
  unfold verDiscard
  exact (m_bind_ok h).trans rfl

/-- The progress of an MVER that has passed over a burst. -/
def passedProg (p : Progress) (d : Desc) (nums : List Nat) : Progress :=
  { p with count := p.count + 1, pos := (p.count + 1) * (d.epr / 32), nums := nums }

theorem verDiscard_empty (h : skippedHeader c o.q b = .ok (some []) b') :
    let t := tileOf b' c o.arr o.x
    ∃ u, verDiscard o c e d b = .ok () u ∧
      MCrew b' u c ((b'.crew c).strokes.put o.arr (((b'.crew c).stroke o.arr).setTile o.x
        (t.reach d.nb (t.np + d.epr / 32))) {}) (b'.crew c).queues (b'.crew c).skipToks
        ((b'.crew c).mq.map (withProg e.name (passedProg e.prog d e.prog.nums))) := by
  intro t
  obtain ⟨u, hset, hu⟩ := (MCrew.refl b' c).setStroke o.arr (((b'.crew c).stroke o.arr).setTile o.x
    (t.reach d.nb (t.np + d.epr / 32)))
  obtain ⟨u', hprog, hu'⟩ := hu.setProg e.name (passedProg e.prog d e.prog.nums)
  refine ⟨u', ?_, hu'⟩
  unfold verDiscard
  refine (m_bind_ok h).trans ((m_bind_ok (getStroke_run c o.arr b')).trans ((m_if_neg (by decide)).trans ?_))
  rw [if_neg fun h => h.2 rfl]
  exact (m_bind_ok hset).trans hprog

theorem verDiscard_bad {exc : Exc} (h : skippedHeader c o.q b = .ok (some x) b') (hx : x ≠ [])
    (hd : headerDesc c o.f [1] (some (tileOf b' c o.arr o.x).vtid) x b' = .ok (.error exc) b'') :
    verDiscard o c e d b = .error (.trapKeep exc) b'' := by
  unfold verDiscard
  refine (m_bind_ok h).trans ((m_bind_ok (getStroke_run c o.arr b')).trans ((m_if_pos (by simp [hx])).trans ?_))
  exact (m_bind_ok hd).trans rfl

theorem verDiscard_misplaced (h : skippedHeader c o.q b = .ok (some x) b') (hx : x ≠ [])
    (hd : headerDesc c o.f [1] (some (tileOf b' c o.arr o.x).vtid) x b' = .ok (.ok d') b'')
    (hcs : (burstCoords x).getD 0 0 * d.epr ≠ 32 * (tileOf b' c o.arr o.x).np ∨
      (burstCoords x).drop 1 ≠ (firstCoords e.prog x).drop 1) :
    verDiscard o c e d b = .error (.trapKeep (strokeExc 2)) b'' := by
  unfold verDiscard
  refine (m_bind_ok h).trans ((m_bind_ok (getStroke_run c o.arr b')).trans ((m_if_pos (by simp [hx])).trans ?_))
  refine (m_bind_ok hd).trans ?_
  rw [← firstCoords_eq] at hcs
  exact (m_if_pos hcs).trans rfl

theorem verDiscard_passes (h : skippedHeader c o.q b = .ok (some x) b') (hx : x ≠ [])
    (hd : headerDesc c o.f [1] (some (tileOf b' c o.arr o.x).vtid) x b' = .ok (.ok d') b'')
    (hb : (b''.crew c).stroke o.arr = (b'.crew c).stroke o.arr)
    (hat : (burstCoords x).getD 0 0 * d.epr = 32 * (tileOf b' c o.arr o.x).np)
    (hcs : (burstCoords x).drop 1 = (firstCoords e.prog x).drop 1) :
    let t := tileOf b' c o.arr o.x
    let t1 := if e.prog.count = 0 then t.tagged (burstCoords x) ((b''.crew c).stroke o.arr).front.origin else t
    ∃ u, verDiscard o c e d b = .ok () u ∧
      MCrew b'' u c ((b''.crew c).strokes.put o.arr (((b''.crew c).stroke o.arr).setTile o.x
        (t1.reach d.nb (t.np + d.epr / 32))) {}) (b''.crew c).queues (b''.crew c).skipToks
        ((b''.crew c).mq.map (withProg e.name (passedProg e.prog d (burstTid x :: firstCoords e.prog x)))) := by
  intro t t1
  obtain ⟨u, hset, hu⟩ := (MCrew.refl b'' c).setStroke o.arr (((b''.crew c).stroke o.arr).setTile o.x
    (t1.reach d.nb (t.np + d.epr / 32)))
  obtain ⟨u', hprog, hu'⟩ := hu.setProg e.name (passedProg e.prog d (burstTid x :: firstCoords e.prog x))
  refine ⟨u', ?_, hu'⟩
  have hempty : x.isEmpty = false := by simp [hx]
  have hnp : t1.np = t.np := by
    simp only [t1]
    split <;> rfl
  have htagged : (if e.prog.count = 0 ∧ x ≠ [] then t.tagged (burstCoords x) ((b'.crew c).stroke o.arr).front.origin else t) =
      t1 := by
    simp only [t1, hb]
    exact if_congr (by simp [hx]) rfl rfl
  unfold verDiscard
  refine (m_bind_ok h).trans ((m_bind_ok (getStroke_run c o.arr b')).trans ((m_if_pos (by simp [hx])).trans ?_))
  refine (m_bind_ok hd).trans ((m_if_neg ?_).trans ?_)
  · rw [← firstCoords_eq] at hcs
    exact fun hno => hno.elim (fun h => h hat) (fun h => h hcs)
  · have hset' : setStroke c o.arr (((b'.crew c).stroke o.arr).setTile o.x
        ((if e.prog.count = 0 ∧ x ≠ [] then t.tagged (burstCoords x) ((b'.crew c).stroke o.arr).front.origin else t).reach d.nb
          ((if e.prog.count = 0 ∧ x ≠ [] then t.tagged (burstCoords x) ((b'.crew c).stroke o.arr).front.origin else t).np +
            d.epr / 32))) b'' = .ok () u := by
      rw [htagged, hnp, ← hb]
      exact hset
    have hprog' : setProg c e.name { e.prog with
        count := e.prog.count + 1, pos := (e.prog.count + 1) * (d.epr / 32)
        nums := if x.isEmpty then e.prog.nums else
          burstTid x :: (if e.prog.nums.isEmpty then burstCoords x else e.prog.nums.drop 1) } u = .ok () u' := by
      rw [hempty, firstCoords_eq]
      exact hprog
    exact (m_bind_ok hset').trans hprog'

end

end Sys2Proof.Machine
end

section
namespace Sys2Proof.Machine

section
variable {o : StrokeFmt} {s b b' u : State} {c : Nat} {e : Entry} {d : Desc} {v : Stroke}

theorem verRest_passes (hpos : e.prog.pos < e.prog.count * (d.epr / 32)) (hnp : (v.tile o.x).np < d.nb)
    (hset : (v.tile o.x).settled = true) :
    ∃ u, verRest o c v d e b = .ok false u ∧
      MCrew b u c ((b.crew c).strokes.put o.arr (v.setTile o.x ((v.tile o.x).reach d.nb ((v.tile o.x).np + 1))) {})
        (b.crew c).queues (b.crew c).skipToks ((b.crew c).mq.map (withProg e.name { e.prog with pos := e.prog.pos + 1 })) := by
  obtain ⟨u, hwrite, hu⟩ := (MCrew.refl b c).setStroke o.arr
    (v.setTile o.x ((v.tile o.x).reach d.nb ((v.tile o.x).np + 1)))
  obtain ⟨u', hprog, hu'⟩ := hu.setProg e.name { e.prog with pos := e.prog.pos + 1 }
  refine ⟨u', ?_, hu'⟩
  unfold verRest
  refine (m_if_pos (by simp [hpos, hnp])).trans ((m_if_pos hset).trans ?_)
  exact (m_bind_ok hwrite).trans (m_bind_ok hprog)

theorem verRest_discards (hpos : e.prog.count * (d.epr / 32) ≤ e.prog.pos) (hev : e.prog.count + 1 < e.prog.events)
    (hset : (v.tile o.x).settled = true) :
    verRest o c v d e b = (do verDiscard o c e d; return false : M Bool) b := by
  unfold verRest
  have hpos' : ¬(e.prog.pos < e.prog.count * (d.epr / 32) && (v.tile o.x).np < d.nb) = true := fun h => by
    simp only [Bool.and_eq_true, decide_eq_true_eq] at h
    omega
  exact (m_if_neg hpos').trans ((m_if_pos hev).trans (m_if_pos hset))

theorem stroke_withQueue (s : State) (c q : Nat) (w : Queue) (a : Nat) :
    ((withQueue s c q w).crew c).stroke a = (s.crew c).stroke a := by
  unfold withQueue
  rw [State.crew_setCrew]
  rfl

theorem tileOf_withQueue (s : State) (c q : Nat) (w : Queue) (a x : Nat) :
    tileOf (withQueue s c q w) c a x = tileOf s c a x := by
  unfold tileOf
  rw [stroke_withQueue]

/-- The queue of an MVER that has begun to skip. -/
theorem skipWatched_empty {w : Queue} (hskip : w.skip = false) (he : w.entries = []) :
    w.skipWatched = { w with part := [], skip := true, mid := false, disc := satAdd w.disc w.part.length
                             watch := some ((w.part.head?.map (·.data)).getD []) } := by
  have htail : w.skipTail = { w with part := [], skip := true, mid := false, disc := satAdd w.disc w.part.length } := by
    unfold Queue.skipTail
    refine (if_neg (ne_true_of_eq_false hskip)).trans ?_
    rw [he]
    simp only [dropToTail, Queue.discard, List.length_nil, Nat.zero_add]
  unfold Queue.skipWatched
  rw [htail]

/-- An entry that has begun and set no progress goes on with that of its beginning. -/
theorem begun_goesOn {tok : Nat} (h : (b.crew c).mq = ((mBegun s c tok e).crew c).mq) :
    ((b.crew c).mq.map fun x => if x.name == e.name then { x with stalled := false } else x) =
      (b.crew c).mq.map fun x =>
        if x.name == e.name then { x with prog := { e.prog with begun := true }, stalled := false } else x := by
  rw [h, mBegun_crew]
  unfold mCrew
  dsimp only
  rw [List.map_map, List.map_map]
  refine List.map_congr_left fun x _ => ?_
  simp only [Function.comp_apply]
  by_cases hx : (x.name == e.name) = true
  · rw [if_pos hx]
    exact (if_pos (beq_self_eq_true e.name)).trans (if_pos (beq_self_eq_true e.name)).symm
  · rw [if_neg hx, if_neg hx, if_neg hx]

theorem mver_settled (h : MTurn o.tok s c e) (hm : e.prog.count = 0 → ((s.crew c).stroke o.arr).front.mqv = true)
    (hstart : ¬((tileOf s c o.arr o.x).np = 0 ∧ e.prog.count = 0))
    (hd : knownDesc c (tileOf s c o.arr o.x).vtid (mBegun s c o.tok e) = .ok d b)
    (hset : (tileOf s c o.arr o.x).settled = true) (hnp : (tileOf s c o.arr o.x).np < d.nb)
    (hb : (b.crew c).stroke o.arr = (s.crew c).stroke o.arr) : SettledTile o s b c e d := by
  unfold SettledTile
  intro t0 p q
  have hexec := (exec_mver o s).trans (runStroke_atHead h.head)
  have hbegun := verTurn_begun hm hstart hd (.inr hnp)
  have htile : tileOf b c o.arr o.x = t0 := congrArg (Stroke.tile · o.x) hb
  refine ⟨fun hpos => ?_, fun hpos hev hok => ⟨fun hskip => ?_, fun hskip hw he => ?_, fun x v' hskip hthere => ?_⟩⟩
  · obtain ⟨u, hrun, hu⟩ := verRest_passes (o := o) (b := b) (c := c) (e := { mEntry e with prog := { p with begun := true } })
      hpos hnp hset
    rw [← hb] at hu
    obtain ⟨hafter, hgoes⟩ := strokeTurn_progresses h (hbegun.trans hrun) hu
    obtain ⟨htiles, hw⟩ := hafter.tile
    refine ⟨_, hexec, hafter.leaves, hafter.otherArrays, htiles, hafter.queues, ?_, hgoes⟩
    rw [hw, hb]
    exact reachedTile_reach ..
  all_goals
    have hdiscards := hbegun.trans (verRest_discards (o := o) (b := b) (c := c)
      (e := { mEntry e with prog := { p with begun := true } }) hpos hev hset)
  · have hbody := hdiscards.trans (m_bind_err (verDiscard_waits (skippedHeader_waits hok hskip)))
    exact hexec.trans (congrArg _ (strokeTurn_waits h hbody))
  · have hheader := skippedHeader_begins hok hskip hw he
    rw [skipWatched_empty hskip he] at hheader
    have hbody := hdiscards.trans (m_bind_ok (verDiscard_begins hheader))
    obtain ⟨u, hset', hu⟩ := (MCrew.refl b c).setQueue o.q { q with
      part := [], skip := true, mid := false, disc := satAdd q.disc q.part.length
      watch := some ((q.part.head?.map (·.data)).getD []) }
    obtain rfl := (EStateM.Result.ok.inj hset').2
    obtain ⟨hafter, hmq⟩ := strokeTurn_goesOn h hbody hu
    refine ⟨_, hexec, hafter.leaves, hafter.strokes, fun y hy => ?_, ?_, ?_⟩
    · unfold queueOf
      rw [hafter.queues]
      exact Tbl.getD_put_other _ _ _ hy
    · unfold queueOf
      rw [hafter.queues]
      exact Tbl.getD_put_same ..
    · exact hmq.trans (begun_goesOn (knownDesc_mq hd))
  · intro b'
    have hheader := skippedHeader_takes hok hskip hthere
    have htile' : tileOf b' c o.arr o.x = t0 := (tileOf_withQueue ..).trans htile
    have hstroke' : (b'.crew c).stroke o.arr = (b.crew c).stroke o.arr := stroke_withQueue ..
    refine ⟨fun hx => ?_, fun d' b'' hx hdesc hb'' hat hcs => ?_, fun exc b'' hx hdesc hfirst => ?_,
      fun d' b'' hx hdesc hbad hfirst => ?_⟩
    · subst hx
      obtain ⟨u, hrun, hu⟩ := verDiscard_empty (e := { mEntry e with prog := { p with begun := true } }) (d := d) hheader
      obtain ⟨hafter, hgoes⟩ := strokeTurn_progresses h (hdiscards.trans (m_bind_ok hrun)) hu
      obtain ⟨htiles, hw⟩ := hafter.tile
      refine ⟨_, hexec, hafter.leaves, htiles, hafter.queues, ?_, hgoes⟩
      rw [hw, htile']
      exact reachedTile_reach ..
    · obtain ⟨u, hrun, hu⟩ := verDiscard_passes (e := { mEntry e with prog := { p with begun := true } }) hheader hx
        (by rw [htile']; exact hdesc) (hb''.trans hstroke'.symm) (by rw [htile']; exact hat) hcs
      obtain ⟨hafter, hgoes⟩ := strokeTurn_progresses h (hdiscards.trans (m_bind_ok hrun)) hu
      obtain ⟨htiles, hw⟩ := hafter.tile
      refine ⟨_, hexec, hafter.leaves, htiles, hafter.queues, ?_, hgoes⟩
      rw [hw, htile']
      exact reachedTile_reach ..
    · have hbody := hdiscards.trans (m_bind_err
        (verDiscard_bad (e := { mEntry e with prog := { p with begun := true } }) hheader hx (by rw [htile']; exact hdesc)))
      obtain ⟨r, hposted, hstream, hpc, hexc, -, hstrokes⟩ := raiseStroke_first exc hfirst
      exact ⟨_, r, hexec.trans (congrArg _ (strokeTurn_keeps h hbody)), hposted, hstream, hpc, hexc, hstrokes⟩
    · have hbody := hdiscards.trans (m_bind_err
        (verDiscard_misplaced (e := { mEntry e with prog := { p with begun := true } }) hheader hx
          (by rw [htile']; exact hdesc) (by rw [htile']; exact hbad)))
      exact ⟨_, hexec.trans (congrArg _ (strokeTurn_keeps h hbody)), mRaises_of_raise 2 hfirst⟩

end

end Sys2Proof.Machine
end

/-! ### Sums, verdicts, drains and status of M: the obligation (O39) -/

section
namespace Sys2Proof.Machine

/-- MDRAIN and MDRAINV take CLR as one bit (R282). -/
theorem drain_clr {mk : StrokeFmt → Instr} (hm : mk = .mdrain ∨ mk = .mdrainv) (o : StrokeFmt) (h : (mk o).wf = true) :
    o.h ≤ 1 := by
  obtain rfl | rfl := hm
  all_goals
    simp only [Instr.wf, Bool.and_eq_true, decide_eq_true_eq] at h
    omega

end Sys2Proof.Machine

open Sys2Proof.Machine

/-- Settles O39: each instruction's turn, from what its body leaves of the crew. -/
theorem strokeSumsAndDrains : Obligations.StrokeSumsAndDrains := by
  unfold Obligations.StrokeSumsAndDrains
  refine ⟨?first, ?block, ?verFirst, ?verBlock, ?verDone, ?settled, ?unbounded,
    drains_of_turn (drain_clr (.inl rfl)) fun _ _ => rfl, drains_of_turn (drain_clr (.inr rfl)) fun _ _ => rfl, ?stat⟩
  case first => exact fun o s b1 b c e x d _ h h0 hpop hdesc => mrun_first h h0 hpop hdesc
  case block => exact fun o s b1 b c e d _ h hc hd hpos hok => mrun_block h hc hd hpos hok
  case verFirst => exact fun o s b1 b c e x d _ h h0 => mver_first h h0
  case verBlock => exact fun o s b1 b2 b c e d tbs _ h => mver_block h
  case verDone => exact fun o s b c e d _ h _ => mver_done h
  case settled => exact fun o s b c e d _ h hm hstart hd hset hnp hb => mver_settled h hm hstart hd hset hnp hb
  case unbounded => exact fun o s c e _ h hm h0 hfirst => mver_unbounded h hm h0 hfirst
  case stat => exact fun o s c e _ h hp => mstat_turn h hp

end

/-! ### What a look at memory leaves (R112, R206, R453, R458, R465) -/

section
namespace Sys2Proof.Machine

/-- A look at memory by an agent finds out about errors, draws free values, fills translation buffers and chooses snapshots of
lines that had none; nothing else changes. -/
structure Looked (s t : State) : Prop where
  rest : { t with mem := s.mem, views := s.views, tlb := s.tlb, errorAddrs := s.errorAddrs, counters := s.counters
                  draws := s.draws } = s
  cells : t.mem.cells = s.mem.cells
  log : t.mem.log = s.mem.log
  views : ∀ b, { t.view b with snap := (s.view b).snap } = s.view b
  snaps : ∀ b line ids, (s.view b).snap.find? line = some ids → (t.view b).snap.find? line = some ids

section
variable {s t u : State}

theorem Looked.refl (s : State) : Looked s s := ⟨rfl, rfl, rfl, fun _ => rfl, fun _ _ _ h => h⟩

theorem Looked.trans (h : Looked s t) (k : Looked t u) : Looked s u where
  rest := by
    have h1 := h.rest
    have k1 := k.rest
    rw [← h1, ← k1]
  cells := k.cells.trans h.cells
  log := k.log.trans h.log
  views b := by
    have h1 := h.views b
    have k1 := k.views b
    rw [← h1, ← k1]
  snaps b line ids hf := k.snaps b line ids (h.snaps b line ids hf)

/-- Views, the initial contents and the order of writes standing, so does what they are read from. -/
theorem Looked.of_eq (hr : { t with mem := s.mem, tlb := s.tlb, errorAddrs := s.errorAddrs, counters := s.counters
                                    draws := s.draws } = s) (hc : t.mem.cells = s.mem.cells) (hl : t.mem.log = s.mem.log) :
    Looked s t := by
  have hviews : t.views = s.views := (congrArg State.views hr :)
  have hview (b : Agent) : t.view b = s.view b := by rw [State.view, hviews]; rfl
  exact ⟨(congrArg (fun x : State => { x with views := s.views }) hr :), hc, hl, fun b => by rw [hview b],
    fun b line ids h => by rwa [hview b]⟩

theorem Looked.threads (h : Looked s t) : t.threads = s.threads := (congrArg State.threads h.rest :)
theorem Looked.crews (h : Looked s t) : t.crews = s.crews := (congrArg State.crews h.rest :)

/-- A byte whose line an agent had a snapshot of reads as before. -/
theorem Looked.byteSeen (h : Looked s t) {b : Agent} {a : Nat} (hs : ((s.view b).snap.find? (a / 1024)).isSome = true) :
    byteSeen t b a = byteSeen s b a := by
  obtain ⟨ids, hids⟩ := Option.isSome_iff_exists.1 hs
  have hids' := h.snaps b _ ids hids
  have hpend : (t.view b).pend = (s.view b).pend := (congrArg View.pend (h.views b) :)
  have hfresh : (t.view b).fresh = (s.view b).fresh := (congrArg View.fresh (h.views b) :)
  have hhanded : (t.view b).handed = (s.view b).handed := (congrArg View.handed (h.views b) :)
  unfold Machine.byteSeen byteUnder
  simp only [h.log, Memory.base, h.cells, hpend, hfresh, hhanded, Tbl.getD, hids, hids']

end

section
variable (s : State)

theorem pick_draws (lo hi : Nat) (t : State) : ∃ k n, pick lo hi t = .ok k { t with draws := n } := by
  unfold pick
  split
  · exact ⟨_, _, rfl⟩
  · exact ⟨_, _, rfl⟩

theorem looks_pick (lo hi : Nat) : Stays (Looked s) (pick lo hi) :=
  stays_pick (fun _ _ h => h.trans (.of_eq rfl rfl rfl)) lo hi

theorem looks_memoryUnit (mem : Option Nat) : Stays (Looked s) (memoryUnit mem) := by
  unfold memoryUnit
  repeat' first
    | with_reducible exact Stays.pure _ | with_reducible exact Stays.get | exact looks_pick s _ _
    | (refine Stays.bind ?_ fun _ => ?_) | split | (dsimp only)

theorem looks_countSector (cls sec : Nat) : Stays (Looked s) (countSector cls sec) :=
  (looks_memoryUnit s _).bind fun _ => Stays.upd fun _ h => h.trans (.of_eq rfl rfl rfl)

theorem looks_checkSector (k : Nat) : Stays (Looked s) (checkSector k) := by
  unfold checkSector
  refine Stays.get.bind fun t => ?_
  split
  · exact Stays.pure _
  · split
    · exact Stays.pure _
    · refine (Stays.upd fun _ h => h.trans (.of_eq rfl rfl rfl)).bind fun _ => ?_
      split
      · exact Stays.pure _
      · exact (looks_countSector s 1 k).bind fun _ => Stays.pure _
      · exact (looks_countSector s 2 k).bind fun _ => Stays.pure _
      · exact (Stays.upd fun _ h => h.trans (.of_eq rfl rfl rfl)).bind fun _ => Stays.pure _

theorem looks_checkSectors (l : List Nat) : Stays (Looked s) (checkSectors l) := by
  induction l with
  | nil => exact Stays.pure _
  | cons k l ih => exact (looks_checkSector s k).bind fun _ => ih.bind fun _ => Stays.pure _

theorem looks_checkCounted (l : List Nat) : Stays (Looked s) (checkCounted l) := by
  induction l with
  | nil => exact Stays.pure _
  | cons k l ih =>
    unfold checkCounted
    refine (looks_checkSector s k).bind fun a => ?_
    split
    · exact (looks_countSector s 3 k).bind fun _ => ih.bind fun _ => Stays.pure _
    · exact (Stays.pure _).bind fun _ => ih.bind fun _ => Stays.pure _

theorem looks_readPublished (pa n : Nat) : Stays (Looked s) (readPublished pa n) := by
  unfold readPublished
  refine (looks_checkCounted s _).bind fun ok => ?_
  split
  · exact Stays.pure _
  · exact Stays.get.bind fun _ => Stays.pure _

theorem looks_walkFrom (va t depth : Nat) (l : List (Nat × Nat × Nat)) : Stays (Looked s) (walkFrom va t depth l) := by
  induction l generalizing t depth with
  | nil => exact Stays.pure _
  | cons e rest ih =>
    unfold walkFrom
    refine (looks_readPublished s _ _).bind fun got => ?_
    split
    · exact Stays.pure _
    · dsimp only
      repeat' first | exact Stays.pure _ | exact ih _ _ | split

theorem looks_walk (ctx level va : Nat) (write fetch : Bool) : Stays (Looked s) (walk ctx level va write fetch) := by
  unfold walk
  split
  · exact Stays.pure _
  · refine Stays.get.bind fun _ => (looks_walkFrom s _ _ _ _).bind fun r => ?_
    repeat' first | exact Stays.pure _ | split

theorem looked_fillTlb (core : Nat) (e : TlbEntry) : Looked s (fillTlb s core e) := by
  unfold fillTlb
  dsimp only
  split
  · exact Looked.refl s
  · exact .of_eq rfl rfl rfl

/-- Translation fills the TLB of the thread's core, and changes nothing but what its walk finds out. -/
theorem looks_translate (t level va : Nat) (write fetch : Bool) : Stays (Looked s) (translate t level va write fetch) := by
  unfold translate
  refine Stays.get.bind fun _ => (looks_walk s _ _ _ _ _).bind fun w => ?_
  dsimp only
  refine Stays.bind ?_ fun r => ?_
  · split
    · exact Stays.pure _
    · split
      · exact Stays.pure _
      · exact (looks_pick s _ _).bind fun _ => Stays.pure _
  · split
    · exact Stays.throw _
    · exact (Stays.upd fun u h => h.trans (looked_fillTlb u _ _)).bind fun _ => Stays.pure _

theorem looks_dataAddr (t : Nat) (ea : Word) (sz : Nat) (write : Bool) : Stays (Looked s) (dataAddr t ea sz write) := by
  unfold dataAddr
  split
  · exact Stays.bind (Stays.throw _) fun _ => Stays.get.bind fun _ => looks_translate s _ _ _ _ _
  · exact Stays.get.bind fun _ => looks_translate s _ _ _ _ _

theorem choosePrefix_draws (v : View) (dec : Write → Option Bool) (vis : List Write) (t : State) :
    ∃ ids u, choosePrefix v dec vis t = .ok ids u ∧ Looked t u ∧ u.views = t.views := by
  unfold choosePrefix
  obtain ⟨k, n, hp⟩ := pick_draws 0 ((vis.drop (afterLast (fun w => v.made.contains w.id || v.gained.contains w.id ||
    dec w == some true) vis)).takeWhile fun w => dec w != some false).length t
  exact ⟨_, _, m_bind_ok hp, .of_eq rfl rfl rfl, rfl⟩

/-- A snapshot is chosen only where the agent had none of the line. -/
theorem looked_snap {t : State} {a : Agent} {line : Nat} (h : (t.view a).snap.find? line = none) (ids : List Nat) :
    Looked t (t.setView a { t.view a with snap := (t.view a).snap.insert line ids }) := by
  refine ⟨rfl, rfl, rfl, fun b => ?_, fun b l ids' hf => ?_⟩
  · by_cases hb : b = a
    · subst hb
      rw [State.view_setView]
    · rw [State.view_setView_other t _ hb]
  · by_cases hb : b = a
    · subst hb
      have hl : l ≠ line := fun hl => by
        rw [hl, h] at hf
        cases hf
      rw [State.view_setView]
      exact (Tbl.find?_insert_other _ _ hl).trans hf
    · rwa [State.view_setView_other t _ hb]

theorem looks_chooseSnap (a : Agent) (line : Nat) : Stays (Looked s) (chooseSnap a line) := fun t ht => by
  unfold chooseSnap
  rw [m_bind_ok (m_get t)]
  cases hf : (t.view a).snap.find? line with
  | some ids => exact ht
  | none =>
    obtain ⟨ids, u, hp, hu, hviews⟩ := choosePrefix_draws (t.view a) (decided (t.view a) a line) (visible t a line) t
    dsimp only
    rw [m_bind_ok hp, m_upd]
    have hnone : (u.view a).snap.find? line = none := by
      unfold State.view at hf ⊢
      rwa [hviews]
    exact (ht.trans hu).trans (looked_snap hnone ids)

theorem looks_chooseSnaps (a : Agent) (l : List Nat) : Stays (Looked s) (chooseSnaps a l) := by
  induction l with
  | nil => exact Stays.pure _
  | cons k l ih => exact (looks_chooseSnap s a k).bind fun _ => ih

theorem looks_readPhys (a : Agent) (pa n : Nat) : Stays (Looked s) (readPhys a pa n) := by
  unfold readPhys
  refine (looks_checkSectors s _).bind fun ok => ?_
  split
  · exact Stays.pure _
  · exact (looks_chooseSnaps s a _).bind fun _ => Stays.get.bind fun _ => Stays.pure _

end

/-- What a meaning is seen to keep by its looks at memory is so of its answer. -/
theorem looked_of_ok {α : Type} {m : M α} {s t : State} {a : α} (h : ∀ s, Stays (Looked s) m) (hm : m s = .ok a t) : Looked s t :=
  (h s).ok (Looked.refl s) hm

/-! #### What naming a descriptor leaves (R80, R81) -/

/-- Nothing of threads has changed, and of crews only the descriptors they hold. -/
structure TidsOnly (s t : State) : Prop where
  threads : t.threads = s.threads
  crews : ∀ c, { t.crew c with tids := (s.crew c).tids } = s.crew c

theorem TidsOnly.refl (s : State) : TidsOnly s s := ⟨rfl, fun _ => rfl⟩

theorem TidsOnly.looked {s t u : State} (h : TidsOnly s t) (k : Looked t u) : TidsOnly s u :=
  ⟨k.threads.trans h.threads, fun c => by rw [← h.crews c, State.crew, k.crews]; rfl⟩

section
variable (s : State)

theorem names_of_looks {α : Type} {m : M α} (h : ∀ t, Stays (Looked t) m) : Stays (TidsOnly s) m := fun t ht => by
  have hk := h t t (Looked.refl t)
  split
  · next hm => rw [hm] at hk; exact ht.looked hk
  · next hm => rw [hm] at hk; exact ht.looked hk

theorem names_descPlace (ctx va : Nat) (crew : Option Nat) (a : Agent) : Stays (TidsOnly s) (descPlace ctx va crew a) := by
  unfold descPlace
  split
  · refine (names_of_looks s fun t => looks_walk t _ _ _ _ _).bind fun r => ?_
    split
    · exact Stays.pure _
    · exact Stays.pure _
  · exact Stays.get.bind fun _ => Stays.pure _

theorem tidsOnly_setTids {t : State} (h : TidsOnly s t) (c : Nat) (l : Tbl (List Byte)) :
    TidsOnly s (t.setCrew c { t.crew c with tids := l }) := by
  refine ⟨h.threads, fun d => ?_⟩
  by_cases hd : d = c
  · subst hd
    rw [State.crew_setCrew]
    exact h.crews d
  · rw [State.crew_setCrew_other t _ hd]
    exact h.crews d

theorem names_descEntry (ctx tid : Nat) (crew : Option Nat) (a : Agent) : Stays (TidsOnly s) (descEntry ctx tid crew a) := by
  unfold descEntry
  refine Stays.get.bind fun _ => ?_
  dsimp only
  split
  · exact Stays.pure _
  · refine (names_descPlace s _ _ _ _).bind fun r => ?_
    split
    · exact Stays.pure _
    · exact Stays.pure _
    · split
      · refine (names_of_looks s fun t => looks_readPhys t _ _ _).bind fun b => ?_
        split
        · exact Stays.pure _
        · exact Stays.pure _
      · refine (names_of_looks s fun t => looks_checkSectors t _).bind fun ok => ?_
        split
        · exact Stays.pure _
        · exact Stays.get.bind fun _ => (Stays.upd fun t ht => tidsOnly_setTids s ht _ _).bind fun _ => Stays.pure _

theorem names_nameTid (ctx tid : Nat) (crew : Option Nat) (a : Agent) : Stays (TidsOnly s) (nameTid ctx tid crew a) := by
  unfold nameTid
  split
  · exact Stays.pure _
  · refine Stays.get.bind fun _ => (names_descEntry s _ _ _ _).bind fun r => ?_
    split
    · exact Stays.pure _
    · exact Stays.pure _
    · exact Stays.pure _

theorem names_tidOrTrap (ctx tid : Nat) (crew : Option Nat) (a : Agent) : Stays (TidsOnly s) (tidOrTrap ctx tid crew a) := by
  unfold tidOrTrap
  refine (names_nameTid s _ _ _ _).bind fun r => ?_
  split
  · exact Stays.pure _
  · exact Stays.throw _
  · exact Stays.throw _
  · exact Stays.throw _

end

/-- The registers of a thread that names a descriptor stand. -/
theorem TidsOnly.regReady {s t : State} (h : TidsOnly s t) (v r : Nat) :
    regReady t (.thread v) r = regReady s (.thread v) r := by
  unfold Machine.regReady
  simp only [State.scalar, State.thread, h.threads]

end Sys2Proof.Machine
end

/-! ### Addresses, loads and alignment (O19) -/

section
namespace Sys2Proof.Machine

/-! #### Address formation (R203, R205) -/

theorem ofNat_mul_pow (y : Word) (n : Nat) : BitVec.ofNat 64 (y.toNat * 2 ^ n) = y <<< n := by
  refine BitVec.eq_of_toNat_eq ?_
  rw [BitVec.toNat_ofNat, BitVec.toNat_shiftLeft, Nat.shiftLeft_eq]

theorem sext_eq_toInt (v n : Nat) (hn : 0 < n) : sext v n = (BitVec.ofNat n v).toInt := by
  obtain ⟨m, rfl⟩ : ∃ m, n = m + 1 := ⟨n - 1, by omega⟩
  unfold sext
  rw [BitVec.toInt_eq_toNat_cond, BitVec.toNat_ofNat]
  have h2 : 2 ^ (m + 1) = 2 * 2 ^ m := by rw [Nat.pow_succ, Nat.mul_comm]
  dsimp only
  rw [Nat.add_sub_cancel]
  refine if_congr (by omega) rfl ?_
  push_cast
  rfl

theorem ofInt64_eq (z : Int) : ofInt64 z = BitVec.ofInt 64 z := by
  unfold ofInt64 wrapN
  refine BitVec.eq_of_toNat_eq ?_
  rw [BitVec.toNat_ofNat, BitVec.toNat_ofInt]
  omega

/-- The effective address of format M is the register plus the scaled offset. -/
theorem memEa_eq (s : State) (t : Nat) (o : MemFmt) : memEa (regVal s (.thread t) o.a) o = formM s t o := by
  unfold memEa formM
  rw [ofInt64_eq, sext_eq_toInt o.off 10 (by decide), BitVec.signExtend, BitVec.shiftLeft_eq_mul_twoPow, BitVec.ofInt_mul]
  refine congrArg (fun x => regVal s (.thread t) o.a + BitVec.ofInt 64 _ * x) (BitVec.eq_of_toNat_eq ?_)
  rw [BitVec.toNat_ofInt, BitVec.toNat_twoPow]
  norm_cast

theorem indexEa_eq (x y : Word) (sz : Nat) : indexEa x y sz = x + y <<< sz := by
  unfold indexEa
  rw [ofNat_mul_pow]

/-! #### The frame of A instructions -/

theorem scalarStep_congr {o : Owner} {n : Nat} {m m' : M Flow} {s : State} (h : m s = m' s) :
    scalarStep o n m s = scalarStep o n m' s := by
  unfold scalarStep
  rw [h]

theorem runScalar_thread {s : State} {t : Nat} (hw : curOwner s = some (.thread t)) (body : Owner → M Flow) :
    runScalar body s = .next (scalarStep (.thread t) 1 (body (.thread t)) s) := by
  unfold runScalar
  rw [hw]

theorem runA_thread {s : State} {t : Nat} (hw : curOwner s = some (.thread t)) (body : Nat → M Flow) :
    runA body s = .next (scalarStep (.thread t) 1 (body t) s) := runScalar_thread hw _

/-- An instruction whose body stops with an exception raises it, with what its reads found out (R8). -/
theorem runA_raises {s s' : State} {t : Nat} {body : Nat → M Flow} {e : Exc} (hw : curOwner s = some (.thread t))
    (h : body t s = .error (.trap e) s') : runA body s = .next (raisedAfter s s' (.thread t) e) :=
  (runA_thread hw body).trans (congrArg _ (scalarStep_trap h))

theorem runA_next {s s' : State} {t : Nat} {body : Nat → M Flow} (hw : curOwner s = some (.thread t))
    (h : body t s = .ok .next s') : runA body s = .next (advance s' (.thread t) 1) :=
  (runA_thread hw body).trans (congrArg _ (scalarStep_next h))

theorem madr_next {o : RFmt} {s : State} {t : Nat} (hg : Guarded s (.thread t) o.g o.ng)
    (hr : RegsReady s (.thread t) [o.a, o.b, o.d]) :
    exec (.madr o) s = .next (advance (withReg s (.thread t) o.d
      (regVal s (.thread t) o.a + regVal s (.thread t) o.b <<< o.fn)) (.thread t) 1) := by
  rw [← ofNat_mul_pow]
  exact ((runA_thread hg.1 _).trans (runScalar_thread hg.1 _).symm).trans (regBin_next (madrOp o.fn) hg hr)

/-! #### TADR (R83, R84, R204) -/

section
variable {o : RFmt} {s s' : State} {t x : Nat} {y : Word} {d : Desc}

theorem tadrAddr_noTid (h : 4096 ≤ x) :
    tadrAddr t x y s = .error (.trap { cause := 6, info := BitVec.ofNat 64 (x % 4096) }) s := by
  unfold tadrAddr
  rw [m_bind_ok (m_get s)]
  dsimp only
  rw [if_pos h]
  exact m_bind_err (m_trap ..)

/-- The answer of TADR for a descriptor. -/
theorem tadrAddr_named (h : x < 4096) (hd : tidOrTrap (s.thread t).ctx x (s.thread t).crew (.thread t) s = .ok d s') :
    tadrAddr t x y s =
      let c (n : Nat) : Nat := (y.extractLsb' (16 * n) 16).toNat
      if 1 < d.kind then .error (.trap { cause := 8, info := BitVec.ofNat 64 (x % 4096) }) s'
      else if d.inGrid (c 0) (c 1) (c 2) (c 3) then .ok (BitVec.ofNat 64 (d.tileAddr (c 0) (c 1) (c 2) (c 3))) s'
      else .error (.trap { cause := 7, info := BitVec.ofNat 64 (x % 4096) }) s' := by
  have hbits (n : Nat) : (y.extractLsb' (16 * n) 16).toNat = bits y.toNat (16 * n + 15) (16 * n) := by
    rw [BitVec.extractLsb'_toNat, Nat.shiftRight_eq_div_pow, bits, show 16 * n + 15 + 1 - 16 * n = 16 by omega]
  have hmod : x % 4096 = x := Nat.mod_eq_of_lt h
  unfold tadrAddr
  rw [m_bind_ok (m_get s)]
  dsimp only
  rw [if_neg (by omega), hmod, m_bind_ok hd]
  simp only [hbits]
  by_cases hk : 1 < d.kind
  · rw [if_pos hk, if_pos hk]
    exact m_bind_err (m_trap ..)
  · rw [if_neg hk, if_neg hk]
    cases hin : d.inGrid (bits y.toNat 15 0) (bits y.toNat 31 16) (bits y.toNat 47 32) (bits y.toNat 63 48) with
    | true => simp
    | false => simp [m_bind]

theorem ofNat_tileAddr (d : Desc) (c0 c1 c2 c3 : Nat) : BitVec.ofNat 64 (d.tileAddr c0 c1 c2 c3) =
    BitVec.ofNat 64 (d.base + 1024 * (c0 + c1 * d.str1 + c2 * d.str2 + c3 * d.str3)) := by
  refine BitVec.eq_of_toNat_eq ?_
  rw [BitVec.toNat_ofNat, BitVec.toNat_ofNat, Desc.tileAddr, Nat.mod_mod]

/-- The body of TADR, its guard and its sources read. -/
theorem tadrBody_eq (hg : Guarded s (.thread t) o.g o.ng) (hr : RegsReady s (.thread t) [o.a, o.b, o.d]) :
    (guarded (.thread t) o.g o.ng do
      let x ← readReg (.thread t) o.a o.ta
      let y ← readReg (.thread t) o.b o.tb
      let v ← tadrAddr t x.toNat y
      writeReg (.thread t) o.d v
      return .next) s = (do
      let v ← tadrAddr t (regVal s (.thread t) o.a).toNat (regVal s (.thread t) o.b)
      writeReg (.thread t) o.d v
      return .next : M Flow) s := by
  rw [guarded_open hg.2, m_bind_ok (readReg_ok (hr o.a (by simp)) _), m_bind_ok (readReg_ok (hr o.b (by simp)) _)]

theorem tadr_raises {e : Exc} (hg : Guarded s (.thread t) o.g o.ng) (hr : RegsReady s (.thread t) [o.a, o.b, o.d])
    (h : tadrAddr t (regVal s (.thread t) o.a).toNat (regVal s (.thread t) o.b) s = .error (.trap e) s') :
    exec (.tadr o) s = .next (raisedAfter s s' (.thread t) e) :=
  runA_raises hg.1 ((tadrBody_eq hg hr).trans (m_bind_err h))

theorem tadr_writes {v : Word} (hg : Guarded s (.thread t) o.g o.ng) (hr : RegsReady s (.thread t) [o.a, o.b, o.d])
    (h : tadrAddr t (regVal s (.thread t) o.a).toNat (regVal s (.thread t) o.b) s = .ok v s') (hn : TidsOnly s s') :
    exec (.tadr o) s = .next (advance (withReg s' (.thread t) o.d v) (.thread t) 1) := by
  have hd : Machine.regReady s' (.thread t) o.d = true := (hn.regReady t o.d).trans (hr o.d (by simp))
  exact runA_next hg.1 ((tadrBody_eq hg hr).trans ((m_bind_ok h).trans (m_bind_ok (writeReg_ok hd v))))

end

/-! #### Loads (R112, R206) -/

theorem await_other (c : Scalar) {r q : Nat} (p : Pend) (h : q ≠ r) :
    (c.await r p).isFull q = c.isFull q ∧ (c.await r p).pend.find? q = c.pend.find? q :=
  ⟨setBit_other _ _ h, Tbl.find?_insert_other _ _ h⟩

/-- Marking a register of a thread empty and advancing changes that register alone. -/
theorem withPend_frame (s : State) (t d : Nat) (p : Pend) :
    let u := advance (withPend s (.thread t) d p) (.thread t) 1
    RegsBut (.thread t) (if d = 0 then [] else [d]) s u ∧ PredsBut (.thread t) [] s u ∧
    (u.scalar (.thread t)).depth = (s.scalar (.thread t)).depth := by
  intro u
  unfold RegsBut PredsBut
  rw [advance_scalar]
  unfold withPend isG0
  by_cases hd : d = 0
  · subst hd
    exact ⟨fun _ _ => ⟨rfl, rfl, rfl⟩, fun _ _ => rfl, rfl⟩
  · simp only [hd, beq_iff_eq, if_false, scalar_setScalar]
    refine ⟨fun r hr => ?_, fun _ _ => rfl, rfl⟩
    obtain ⟨hfull, hpend⟩ := await_other (s.scalar (.thread t)) p (q := r) (by simpa using hr)
    exact ⟨rfl, hfull, hpend⟩

/-- The state a thread's load leaves: its destination awaits the value, and its pointer has moved on. -/
def loadEnds (s : State) (t d : Nat) (p : Pend) : State := advance (withPend s (.thread t) d p) (.thread t) 1

theorem loadEnds_rest (s : State) (t d : Nat) (p : Pend) : { loadEnds s t d p with threads := s.threads } = s := by
  unfold loadEnds withPend
  split <;> rfl

theorem loadEnds_thread_other (s : State) {t v : Nat} (d : Nat) (p : Pend) (h : v ≠ t) :
    (loadEnds s t d p).thread v = s.thread v := by
  unfold loadEnds withPend
  split
  · exact State.thread_setThread_other _ _ h
  · exact (State.thread_setThread_other _ _ h).trans (State.thread_setThread_other _ _ h)

/-- What a load has looked at and its destination are all that it changes. -/
theorem loadsOnly_of_looked {s s2 : State} (h : Looked s s2) (t d : Nat) (p : Pend) : LoadsOnly s (loadEnds s2 t d p) t d := by
  obtain ⟨hregs, hpreds, hdepth⟩ := withPend_frame s2 t d p
  have hrest := loadEnds_rest s2 t d p
  have hthread (v : Nat) : s2.thread v = s.thread v := by
    unfold State.thread
    rw [h.threads]
  have hscalar : s2.scalar (.thread t) = s.scalar (.thread t) := congrArg Thread.sc (hthread t)
  have hmem : (loadEnds s2 t d p).mem = s2.mem := (congrArg State.mem hrest :)
  have hviews : (loadEnds s2 t d p).views = s2.views := (congrArg State.views hrest :)
  unfold RegsBut PredsBut at *
  rw [hscalar] at hregs hpreds hdepth
  refine ⟨hregs, hpreds, hdepth, ?_, ?_, ?_, ?_, ?_, ?_, fun v hv => (loadEnds_thread_other s2 d p hv).trans (hthread v),
    fun b a hs => ?_⟩
  · exact (congrArg State.crews hrest :).trans (congrArg State.crews h.rest :)
  · exact (congrArg State.pins hrest :).trans (congrArg State.pins h.rest :)
  · exact (congrArg State.clusters hrest :).trans (congrArg State.clusters h.rest :)
  · exact (congrArg State.contexts hrest :).trans (congrArg State.contexts h.rest :)
  · rw [hmem, h.log]
  · rw [hmem, h.cells]
  · rw [← h.byteSeen hs]
    unfold byteSeen State.view
    rw [hviews]
    unfold byteUnder
    rw [hmem]

section
variable {s s1 s2 : State} {t d pa sz sx : Nat} {ea : Word} {bs : List Byte}

theorem load_next (hd : regReady s (.thread t) d = true) (ha : dataAddr t ea sz false s = .ok pa s1)
    (hb : readPhys (.thread t) pa (2 ^ sz) s1 = .ok (some bs) s2) :
    Looked s s2 ∧ ∃ p, load t d ea sz sx s = .ok .next (withPend s2 (.thread t) d p) := by
  have h1 : Looked s s1 := looked_of_ok (fun s => looks_dataAddr s t ea sz false) ha
  have h2 := h1.trans (looked_of_ok (fun s => looks_readPhys s (.thread t) pa (2 ^ sz)) hb)
  have hd2 : regReady s2 (.thread t) d = true := ((TidsOnly.refl s).looked h2).regReady t d ▸ hd
  refine ⟨h2, .load { va := ea.toNat, pa := pa, n := 2 ^ sz, signed := sx == 1, level := (s2.thread t).level.toNat
                      upto := s2.nextId, v := loaded bs sz sx }, ?_⟩
  unfold load
  rw [m_bind_ok (destReady_ok hd), m_bind_ok ha, m_bind_ok hb]
  exact (m_bind_ok (m_get s2)).trans (m_bind_ok (awaitReg_ok hd2 _))

theorem dataAddr_misaligned {write : Bool} (h : ea.toNat % 2 ^ sz ≠ 0) :
    dataAddr t ea sz write s = .error (.trap { cause := 4, addr := ea, info := BitVec.ofNat 64 (2 ^ sz) }) s := by
  unfold dataAddr
  rw [if_pos h]
  exact m_bind_err (m_trap ..)

theorem load_misaligned (hd : regReady s (.thread t) d = true) (h : ea.toNat % 2 ^ sz ≠ 0) :
    load t d ea sz sx s = .error (.trap { cause := 4, addr := ea, info := BitVec.ofNat 64 (2 ^ sz) }) s :=
  (m_bind_ok (destReady_ok hd)).trans (m_bind_err (dataAddr_misaligned h))

theorem store_misaligned {v : Word} (h : ea.toNat % 2 ^ sz ≠ 0) :
    store t v ea sz s = .error (.trap { cause := 4, addr := ea, info := BitVec.ofNat 64 (2 ^ sz) }) s :=
  m_bind_err (dataAddr_misaligned h)

end

/-! #### The bodies of loads and stores, their registers read -/

section
variable {s : State} {t : Nat}

theorem ld_eq {o : MemFmt} (hw : curOwner s = some (.thread t)) (hr : RegsReady s (.thread t) [o.a, o.d]) :
    exec (.ld o) s = .next (scalarStep (.thread t) 1 (load t o.d (formM s t o) o.sz o.sx) s) := by
  rw [← memEa_eq]
  exact (runA_thread hw _).trans (congrArg _ (scalarStep_congr (m_bind_ok (readReg_ok (hr o.a (by simp)) _))))

theorem st_eq {o : MemFmt} (hw : curOwner s = some (.thread t)) (hr : RegsReady s (.thread t) [o.a, o.d]) :
    exec (.st o) s = .next (scalarStep (.thread t) 1 (store t (regVal s (.thread t) o.d) (formM s t o) o.sz) s) := by
  rw [← memEa_eq]
  refine (runA_thread hw _).trans (congrArg _ (scalarStep_congr ?_))
  exact (m_bind_ok (readReg_ok (hr o.a (by simp)) _)).trans (m_bind_ok (readReg_ok (hr o.d (by simp)) _))

theorem fn_size {fn : Nat} (h : fn < 16) : bits fn 3 2 = fn / 4 := by
  unfold bits
  omega

theorem ldx_eq {o : RFmt} (hf : o.fn < 16) (hg : Guarded s (.thread t) o.g o.ng)
    (hr : RegsReady s (.thread t) [o.a, o.b, o.d]) :
    exec (.ldx o) s = .next (scalarStep (.thread t) 1 (load t o.d (formX s t o) (o.fn / 4) (bits o.fn 1 1)) s) := by
  unfold formX
  rw [← indexEa_eq, ← fn_size hf]
  refine (runA_thread hg.1 _).trans (congrArg _ (scalarStep_congr ((guarded_open hg.2 _).trans ?_)))
  exact (m_bind_ok (readReg_ok (hr o.a (by simp)) _)).trans (m_bind_ok (readReg_ok (hr o.b (by simp)) _))

theorem stx_eq {o : RFmt} (hf : o.fn < 16) (hg : Guarded s (.thread t) o.g o.ng)
    (hr : RegsReady s (.thread t) [o.a, o.b, o.d]) :
    exec (.stx o) s =
      .next (scalarStep (.thread t) 1 (store t (regVal s (.thread t) o.d) (formX s t o) (o.fn / 4)) s) := by
  unfold formX
  rw [← indexEa_eq, ← fn_size hf]
  refine (runA_thread hg.1 _).trans (congrArg _ (scalarStep_congr ((guarded_open hg.2 _).trans ?_)))
  exact (m_bind_ok (readReg_ok (hr o.a (by simp)) _)).trans
    ((m_bind_ok (readReg_ok (hr o.b (by simp)) _)).trans (m_bind_ok (readReg_ok (hr o.d (by simp)) _)))

theorem fn_lt_of_ldx {o : RFmt} (h : (Instr.ldx o).wf = true) : o.fn < 16 := by
  simp only [Instr.wf, RFmt.ranged, Bool.and_eq_true, decide_eq_true_eq] at h
  omega

theorem fn_lt_of_stx {o : RFmt} (h : (Instr.stx o).wf = true) : o.fn < 16 := by
  simp only [Instr.wf, RFmt.ranged, Bool.and_eq_true, decide_eq_true_eq] at h
  omega

end

end Sys2Proof.Machine

open Sys2Proof.Machine

/-- Settles O19: TADR by the branches of `tadrAddr`, loads by what a look at memory leaves, alignment by `dataAddr`. -/
theorem addressesLoadsAndAlignment : Obligations.AddressesLoadsAndAlignment := by
  unfold Obligations.AddressesLoadsAndAlignment
  refine ⟨⟨fun o s t _ hg hr => madr_next hg hr, fun o s s' t d _ hg hr => ⟨fun hx => ?_, fun hx hd => ⟨fun hk => ?_,
    fun hk hin => ?_, fun hk hin => ?_⟩⟩⟩, ⟨fun o s s1 s2 u t pa bs _ hw hr ha hb hu => ?_,
    fun o s s1 s2 u t pa bs hwf hg hr ha hb hu => ?_⟩, ⟨fun o s t _ hw hr hal => ?_, fun o s t _ hw hr hal => ?_,
    fun o s t hwf hg hr hal => ?_, fun o s t hwf hg hr hal => ?_⟩⟩
  · exact tadr_raises hg hr (tadrAddr_noTid hx)
  · exact tadr_raises hg hr ((tadrAddr_named hx hd).trans (if_pos hk))
  · exact tadr_raises hg hr ((tadrAddr_named hx hd).trans ((if_neg (Nat.not_lt.2 hk)).trans (if_neg (ne_true_of_eq_false hin))))
  · have htile := (tadrAddr_named (y := regVal s (.thread t) o.b) hx hd).trans ((if_neg (Nat.not_lt.2 hk)).trans (if_pos hin))
    rw [ofNat_tileAddr] at htile
    exact tadr_writes hg hr htile ((names_tidOrTrap s _ _ _ _).ok (TidsOnly.refl s) hd)
  · obtain ⟨hl, p, hload⟩ := load_next (sx := o.sx) (hr o.d (by simp)) ha hb
    rw [ld_eq hw hr, scalarStep_next hload] at hu
    obtain rfl := Host.Outcome.next.inj hu
    exact loadsOnly_of_looked hl t o.d p
  · obtain ⟨hl, p, hload⟩ := load_next (sx := Sys2Proof.bits o.fn 1 1) (hr o.d (by simp)) ha hb
    rw [ldx_eq (fn_lt_of_ldx hwf) hg hr, scalarStep_next hload] at hu
    obtain rfl := Host.Outcome.next.inj hu
    exact loadsOnly_of_looked hl t o.d p
  · exact (ld_eq hw hr).trans (congrArg _ (scalarStep_trap (load_misaligned (hr o.d (by simp)) hal)))
  · exact (st_eq hw hr).trans (congrArg _ (scalarStep_trap (store_misaligned hal)))
  · exact (ldx_eq (fn_lt_of_ldx hwf) hg hr).trans (congrArg _ (scalarStep_trap (load_misaligned (hr o.d (by simp)) hal)))
  · exact (stx_eq (fn_lt_of_stx hwf) hg hr).trans (congrArg _ (scalarStep_trap (store_misaligned hal)))

end


/-! ### L and W instructions: what a turn leaves (R146, R147, R324) -/

section
namespace Sys2Proof.Machine

/-! #### The stream's queue, and the rest of its crew -/

theorem laneStream_cases (s : State) : laneStream s = 4 ∨ laneStream s = 5 := by
  unfold laneStream
  split
  · exact .inl rfl
  · exact .inr rfl
  · split
    · exact .inr rfl
    · exact .inl rfl

theorem setStreamQueue_self (k : Crew) (st : Nat) : setStreamQueue k st (streamQueue k st) = k := by
  match st with
  | 0 | 1 | 2 | 3 | 4 | _ + 5 => rfl

theorem setStreamQueue_twice (k : Crew) (st : Nat) (l m : List Entry) :
    setStreamQueue (setStreamQueue k st l) st m = setStreamQueue k st m := by
  match st with
  | 0 | 1 | 2 | 3 | 4 | _ + 5 => rfl

theorem setStreamQueue_vwrites (k : Crew) (st : Nat) (l : List Entry) : (setStreamQueue k st l).vwrites = k.vwrites := by
  unfold setStreamQueue
  split <;> rfl

/-- A change of a crew that the queue of a stream has no part in. -/
theorem setStreamQueue_queues (k : Crew) (st : Nat) (l : List Entry) (Q : Tbl Queue) :
    { setStreamQueue k st l with queues := Q } = setStreamQueue { k with queues := Q } st l := by
  unfold setStreamQueue
  split <;> rfl

/-! #### What a body has done -/

/-- Since state b, queues, slots and banks of one crew have become those of k, its L or W instructions L, and nothing else has
changed. -/
structure AgActed (b u : State) (c st : Nat) (k : Crew) (L : List Entry) : Prop where
  only : OnlyCrew b u c (setStreamQueue k st L)
  kept : { k with
    queues := (b.crew c).queues, lslots := (b.crew c).lslots, wslots := (b.crew c).wslots
    banks := (b.crew c).banks } = b.crew c

section
variable {b u : State} {c st : Nat} {k : Crew} {L : List Entry}

theorem AgActed.refl (b : State) (c st : Nat) : AgActed b b c st (b.crew c) (streamQueue (b.crew c) st) :=
  ⟨by rw [setStreamQueue_self]; exact OnlyCrew.refl b c, rfl⟩

theorem AgActed.tokens (h : AgActed b u c st k L) : k.tokens = (b.crew c).tokens := (congrArg Crew.tokens h.kept :)
theorem AgActed.vwrites (h : AgActed b u c st k L) : k.vwrites = (b.crew c).vwrites := (congrArg Crew.vwrites h.kept :)
theorem AgActed.posted (h : AgActed b u c st k L) : k.posted = (b.crew c).posted := (congrArg Crew.posted h.kept :)

theorem AgActed.setQueue (h : AgActed b u c st k L) (q : Nat) (v : Queue) :
    AgActed b (withQueue u c q v) c st { k with queues := k.queues.put q v {} } L := by
  refine ⟨(h.only.setCrew _).of_eq ?_, h.kept⟩
  have hq : (setStreamQueue k st L).queues = k.queues := by
    unfold setStreamQueue
    split <;> rfl
  rw [h.only.crew, hq]
  exact setStreamQueue_queues ..

theorem AgActed.queue (h : AgActed b u c st k L) (q : Nat) : queueOf u c q = k.queues.getD q {} := by
  have hq : (setStreamQueue k st L).queues = k.queues := by
    unfold setStreamQueue
    split <;> rfl
  unfold queueOf
  rw [h.only.crew, hq]

theorem AgActed.setProg (h : AgActed b u c st k L) (n : Nat) (p : Progress) :
    AgActed b (updEntry c st n (fun e => { e with prog := p }) u) c st k (L.map (withProg n p)) := by
  refine ⟨(h.only.updEntry st n fun e => { e with prog := p }).of_eq ?_, h.kept⟩
  rw [setStreamQueue_twice, streamQueue_setStreamQueue]
  rfl

theorem AgActed.setLslots (h : AgActed b u c 4 k L) (d : Nat) (bs : List Byte) :
    AgActed b (u.setCrew c { u.crew c with lslots := (u.crew c).lslots.insert d bs }) c 4
      { k with lslots := k.lslots.insert d bs } L :=
  ⟨(h.only.setCrew _).of_eq (by rw [h.only.crew]; rfl), h.kept⟩

theorem AgActed.setWslots (h : AgActed b u c 5 k L) (d : Nat) (bs : List Byte) :
    AgActed b (u.setCrew c { u.crew c with wslots := (u.crew c).wslots.insert d bs }) c 5
      { k with wslots := k.wslots.insert d bs } L :=
  ⟨(h.only.setCrew _).of_eq (by rw [h.only.crew]; rfl), h.kept⟩

theorem AgActed.setBanks (h : AgActed b u c st k L) (n v : Nat) :
    AgActed b (u.setCrew c { u.crew c with banks := (u.crew c).banks.put n v 0 }) c st { k with banks := k.banks.put n v 0 } L := by
  refine ⟨(h.only.setCrew _).of_eq ?_, h.kept⟩
  rw [h.only.crew]
  unfold setStreamQueue
  split <;> rfl

end

/-! #### The turn -/

/-- An entry that is not stalled. -/
def unstalled (n : Nat) (x : Entry) : Entry := if x.name == n then { x with stalled := false } else x

/-- An instruction of L or W raises an exception. -/
def agRaise (c st : Nat) (e : Entry) (x : Exc) (s : State) : State :=
  raiseStream c st e x 0 (updEntry c st e.name (fun e => { e with stalled := false }) s)

/-- What the end of its body makes of a turn that began in state s1. -/
def agEnd (c st tok : Nat) (e : Entry) (s1 : State) : EStateM.Result Stop State Bool → State
  | .ok true s2 => finishEntry c st tok e s2
  | .ok false s2 => updEntry c st e.name (fun e => { e with stalled := false }) s2
  | .error .stall _ => s1
  | .error (.stallQ q push _) _ =>
    if e.stalled then s1 else updEntry c st e.name (fun e => { e with stalled := true }) (countEpisode s1 c q push false)
  | .error (.trap x) s2 => agRaise c st e x (keepErrors s1 s2)
  | .error (.trapQ q push x) _ => agRaise c st e x (countEpisode s1 c q push false)
  | .error (.trapKeep x) s2 => agRaise c st e x s2
  | .error (.lasting va) s2 => runM (containOwner (.crew c) 3 va) (keepErrors s1 s2)
  | .error (.status _) _ => s1

section
variable {o : LWFmt} {s : State} {c : Nat} {e : Entry}

theorem agBegun_eq (o : LWFmt) (s : State) (c : Nat) (e : Entry) :
    agBegun o s c e = updEntry c (laneStream s) e.name (fun e => { e with popped := true })
      (s.setCrew c ((popsLeft (laneStream s) o.tok e).foldl takeToken (s.crew c))) := rfl

/-- A meaning run in the phase its instruction was handed over in, where that is the half's present one (R121). -/
theorem inPhase_present {α : Type} {n : Nat} (m : M α) (h : ∀ p ∈ (s.view (.half c)).past, p.upto ≤ n) : inPhase c n m s = m s := by
  have hnone : ((s.view (.half c)).past.find? fun p => n < p.upto) = none := by
    rw [List.find?_eq_none]
    intro p hp
    simpa using h p hp
  unfold inPhase
  rw [m_bind_ok (m_get s), hnone]

/-- An L or W instruction that can have a turn runs its body from the state in which it has taken its tokens. -/
theorem runAg_turn (h : AgTurn o s c e) (i : Instr) (uses : Bool) (body : Nat → Nat → Entry → M Bool) :
    runAg o i uses body s = .next (agEnd c (laneStream s) o.tok e (agBegun o s c e)
      (body (laneStream s) c e (agBegun o s c e))) := by
  have hphase : ∀ p ∈ ((agBegun o s c e).view (.half c)).past, p.upto ≤ e.name := h.phase
  unfold runAg
  dsimp only
  rw [runLane_atHead h.head, ← inPhase_present (body (laneStream s) c e) hphase]
  unfold runEntry
  rw [if_neg (ne_true_of_eq_false h.going)]
  exact congrArg _ ((if_neg (popsLeft_ready h.pops)).trans rfl)

end

end Sys2Proof.Machine
end

section
namespace Sys2Proof.Machine

/-! #### Its end -/

/-- What a turn of L or W shows of its crew. -/
structure AgShows (t : State) (c st : Nat) (k : Crew) (L : List Entry) : Prop where
  queues : (t.crew c).queues = k.queues
  lslots : (t.crew c).lslots = k.lslots
  wslots : (t.crew c).wslots = k.wslots
  banks : (t.crew c).banks = k.banks
  sp : (t.crew c).sp = k.sp
  stream : streamQueue (t.crew c) st = L

theorem AgShows.queue {t : State} {c st : Nat} {k : Crew} {L : List Entry} (h : AgShows t c st k L) (q : Nat) :
    queueOf t c q = k.queues.getD q {} := by
  unfold queueOf
  rw [h.queues]

/-- The crew whose instruction has completed, with these tokens. -/
def agFinished (k : Crew) (st : Nat) (T : Tbl Nat) (i : Bool) (L : List Entry) : Crew :=
  { setStreamQueue k st L with tokens := T, idle := i }

section
variable {b t u : State} {c st : Nat} {k : Crew} {L : List Entry} (hst : st = 4 ∨ st = 5)
include hst

theorem agShows_of_only {T : Tbl Nat} {i : Bool} (h : OnlyCrew b t c (agFinished k st T i L)) : AgShows t c st k L := by
  have hcrew := h.crew
  obtain rfl | rfl := hst <;> exact ⟨by rw [hcrew]; rfl, by rw [hcrew]; rfl, by rw [hcrew]; rfl, by rw [hcrew]; rfl,
    by rw [hcrew]; rfl, by rw [hcrew]; rfl⟩

/-- The crew after a turn differs in what L and W may change. -/
theorem agLeaves_of_only {T : Tbl Nat} {i : Bool} (h : OnlyCrew b t c (agFinished k st T i L))
    (hk : { k with
      queues := (b.crew c).queues, lslots := (b.crew c).lslots, wslots := (b.crew c).wslots
      banks := (b.crew c).banks } = b.crew c) : AgLeaves b t c := by
  refine ⟨h.rest, h.others, ?_⟩
  have hall := congrArg (fun x : Crew => { x with
    tokens := (b.crew c).tokens, lq := (b.crew c).lq, wq := (b.crew c).wq, idle := (b.crew c).idle }) hk
  rw [h.crew]
  obtain rfl | rfl := hst <;> exact hall

omit hst in
theorem setStreamQueue_unfinished (k : Crew) (st : Nat) (L : List Entry) :
    setStreamQueue k st L = agFinished k st k.tokens k.idle L := by
  unfold agFinished setStreamQueue
  split <;> rfl

theorem AgActed.leaves (h : AgActed b u c st k L) : AgLeaves b u c :=
  agLeaves_of_only hst (h.only.of_eq (setStreamQueue_unfinished ..)) h.kept

theorem AgActed.shows (h : AgActed b u c st k L) : AgShows u c st k L :=
  agShows_of_only hst (h.only.of_eq (setStreamQueue_unfinished ..))

omit hst in
theorem retire_stream {s : State} {name : Nat} (h : ∀ w ∈ (s.crew c).vwrites, w.1 ≠ name) :
    retire c st name s = s.setCrew c
      { setStreamQueue (s.crew c) st ((streamQueue (s.crew c) st).filter fun x => x.name != name) with idle := false } := by
  unfold retire
  dsimp only
  rw [settleCtl_quiet]
  rwa [setStreamQueue_vwrites]

/-- The end of an instruction whose tokens have room: it leaves its queue. -/
theorem AgActed.finished {tok : Nat} {e : Entry} (h : AgActed b u c st k L) (hfresh : e.pushed = 0)
    (hroom : ∀ f ∈ (tokenFifos st tok).2, tokenCount (b.crew c) f < 8) (hquiet : ∀ w ∈ (b.crew c).vwrites, w.1 ≠ e.name) :
    ∃ T, OnlyCrew b (finishEntry c st tok e u) c (agFinished k st T false (L.filter fun x => x.name != e.name)) := by
  generalize hl : (tokenFifos st tok).2 = due at hroom
  have hcount (f : Nat) : tokenCount (setStreamQueue k st L) f = tokenCount (b.crew c) f := by
    unfold tokenCount
    rw [setStreamQueue_tokens, h.tokens]
  have hpush : pushTokens (setStreamQueue k st L) (due.takeWhile fun f => !([] : List Nat).contains f) =
      (due.foldl addToken (setStreamQueue k st L), due.length) :=
    pushTokens_owed _ (List.append_nil _).symm (hl ▸ pushes_nodup st tok)
      (fun f hf => ⟨by rw [hcount]; exact hroom f hf, by simp⟩) (by simp)
  have hfin : finishEntry c st tok e u = retire c st e.name (u.setCrew c (due.foldl addToken (setStreamQueue k st L))) := by
    simp only [finishEntry, h.only.crew, hfresh, List.drop_zero, hl, hpush, lt_irrefl, if_false]
  have hvw : (due.foldl addToken (setStreamQueue k st L)).vwrites = (b.crew c).vwrites := by
    rw [addTokens_crew]
    exact (setStreamQueue_vwrites ..).trans h.vwrites
  refine ⟨(due.foldl addToken (setStreamQueue k st L)).tokens, ?_⟩
  rw [hfin, retire_stream (by rwa [State.crew_setCrew, hvw]), State.crew_setCrew, streamQueue_addTokens,
    streamQueue_setStreamQueue]
  refine ((h.only.setCrew _).setCrew _).of_eq ?_
  rw [addTokens_crew]
  obtain rfl | rfl := hst <;> rfl

end

section
variable {o : LWFmt} {s b u : State} {c : Nat} {e : Entry} {k : Crew} {L : List Entry} {body : Nat → Nat → Entry → M Bool}
  {i : Instr} {uses : Bool} (hx : exec i s = runAg o i uses body s) (h : AgTurn o s c e)
include hx h

/-- A body that has done its last part takes the instruction off its queue. -/
theorem runAg_ends (hb : body (laneStream s) c e (agBegun o s c e) = .ok true u) (hlane : laneStream b = laneStream s)
    (hu : AgActed b u c (laneStream s) k L) (hret : AgRetires o b c e) :
    ∃ t, exec i s = .next t ∧ AgLeaves b t c ∧
      AgShows t c (laneStream s) k (L.filter fun x => x.name != e.name) := by
  obtain ⟨hroom, hquiet⟩ := hret
  rw [hlane] at hroom
  obtain ⟨T, honly⟩ := hu.finished (laneStream_cases s) h.fresh hroom hquiet
  refine ⟨_, by rw [hx, runAg_turn h, hb]; rfl, agLeaves_of_only (laneStream_cases s) honly hu.kept,
    agShows_of_only (laneStream_cases s) honly⟩

/-- A body that has not done its last part leaves the instruction where it is, not stalled. -/
theorem runAg_goesOn (hb : body (laneStream s) c e (agBegun o s c e) = .ok false u)
    (hu : AgActed b u c (laneStream s) k L) :
    ∃ t, exec i s = .next t ∧ AgLeaves b t c ∧ AgShows t c (laneStream s) k (L.map (unstalled e.name)) := by
  have hupd : AgActed b (updEntry c (laneStream s) e.name (fun e => { e with stalled := false }) u) c (laneStream s) k
      (L.map (unstalled e.name)) := by
    refine ⟨(hu.only.updEntry _ _ _).of_eq ?_, hu.kept⟩
    rw [setStreamQueue_twice, streamQueue_setStreamQueue]
    rfl
  exact ⟨_, by rw [hx, runAg_turn h, hb]; rfl, hupd.leaves (laneStream_cases s), hupd.shows (laneStream_cases s)⟩

theorem runAg_waits (hb : body (laneStream s) c e (agBegun o s c e) = .error .stall u) :
    exec i s = .next (agBegun o s c e) := by
  rw [hx, runAg_turn h, hb]
  rfl

end

end Sys2Proof.Machine
end

section
namespace Sys2Proof.Machine

section
variable {b t : State} {c : Nat} {k : Crew} {e : Entry}

theorem AgShows.gone {st : Nat} {L : List Entry} (h : AgShows t c st k (L.filter fun x => x.name != e.name))
    (hlane : laneStream b = st)
    (hL : L.filter (fun x => x.name != e.name) = (streamQueue (b.crew c) st).filter fun x => x.name != e.name) :
    AgGone b t c e := by
  subst hlane
  exact h.stream.trans hL

theorem AgShows.goesOn {st : Nat} {p : Progress}
    (h : AgShows t c st k (((streamQueue (b.crew c) st).map (withProg e.name p)).map (unstalled e.name)))
    (hlane : laneStream b = st) : AgGoesOn b t c e p := by
  subst hlane
  refine h.stream.trans ?_
  rw [List.map_map]
  refine List.map_congr_left fun x _ => ?_
  by_cases hx : x.name = e.name
  · simp [unstalled, withProg, hx]
  · simp [unstalled, withProg, hx]

theorem AgShows.sameSlots {st : Nat} {L : List Entry} (h : AgShows t c st k L)
    (hk : k.lslots = (b.crew c).lslots ∧ k.wslots = (b.crew c).wslots ∧ k.banks = (b.crew c).banks) : SameSlots b t c :=
  ⟨h.lslots.trans hk.1, h.wslots.trans hk.2.1, h.banks.trans hk.2.2⟩

end

/-! #### The state in which a turn runs -/

section
variable {o : LWFmt} {s : State} {c : Nat} {e : Entry}

/-- A turn begins by taking tokens, and marks its entry. -/
theorem agBegun_only (o : LWFmt) (s : State) (c : Nat) (e : Entry) :
    ∃ T, OnlyCrew s (agBegun o s c e) c (setStreamQueue { s.crew c with tokens := T } (laneStream s)
      ((streamQueue (s.crew c) (laneStream s)).map fun x => if x.name == e.name then { x with popped := true } else x)) := by
  refine ⟨((popsLeft (laneStream s) o.tok e).foldl takeToken (s.crew c)).tokens, ?_⟩
  have h := ((OnlyCrew.refl s c).setCrew ((popsLeft (laneStream s) o.tok e).foldl takeToken (s.crew c))).updEntry
    (laneStream s) e.name fun e => { e with popped := true }
  rw [takeTokens_crew] at h
  rw [agBegun_eq, takeTokens_crew]
  exact h

theorem agBegun_kept (o : LWFmt) (s : State) (c : Nat) (e : Entry) :
    { (agBegun o s c e).crew c with tokens := (s.crew c).tokens, lq := (s.crew c).lq, wq := (s.crew c).wq } = s.crew c := by
  obtain ⟨T, h⟩ := agBegun_only o s c e
  rw [h.crew]
  obtain hst | hst := laneStream_cases s <;> rw [hst] <;> rfl

section
variable (o : LWFmt) (s : State) (c : Nat) (e : Entry)

@[simp] theorem agBegun_queues : ((agBegun o s c e).crew c).queues = (s.crew c).queues :=
  (congrArg Crew.queues (agBegun_kept o s c e) :)
@[simp] theorem agBegun_lslots : ((agBegun o s c e).crew c).lslots = (s.crew c).lslots :=
  (congrArg Crew.lslots (agBegun_kept o s c e) :)
@[simp] theorem agBegun_wslots : ((agBegun o s c e).crew c).wslots = (s.crew c).wslots :=
  (congrArg Crew.wslots (agBegun_kept o s c e) :)
@[simp] theorem agBegun_banks : ((agBegun o s c e).crew c).banks = (s.crew c).banks :=
  (congrArg Crew.banks (agBegun_kept o s c e) :)
@[simp] theorem agBegun_spad : ((agBegun o s c e).crew c).spad = (s.crew c).spad :=
  (congrArg Crew.spad (agBegun_kept o s c e) :)
@[simp] theorem agBegun_skipToks : ((agBegun o s c e).crew c).skipToks = (s.crew c).skipToks :=
  (congrArg Crew.skipToks (agBegun_kept o s c e) :)
@[simp] theorem agBegun_posted : ((agBegun o s c e).crew c).posted = (s.crew c).posted :=
  (congrArg Crew.posted (agBegun_kept o s c e) :)
@[simp] theorem agBegun_launch : ((agBegun o s c e).crew c).launch = (s.crew c).launch :=
  (congrArg Crew.launch (agBegun_kept o s c e) :)
@[simp] theorem agBegun_card : ((agBegun o s c e).crew c).card = (s.crew c).card :=
  (congrArg Crew.card (agBegun_kept o s c e) :)
@[simp] theorem agBegun_launches : (agBegun o s c e).launches = s.launches := rfl
@[simp] theorem agBegun_lane : laneStream (agBegun o s c e) = laneStream s := rfl

@[simp] theorem agBegun_queueOf (q : Nat) : queueOf (agBegun o s c e) c q = queueOf s c q := by
  unfold queueOf
  rw [agBegun_queues]

@[simp] theorem agBegun_slots (st : Nat) : agSlots ((agBegun o s c e).crew c) st = agSlots (s.crew c) st := by
  unfold agSlots
  rw [agBegun_lslots, agBegun_wslots]

end

end

/-! #### Its exceptions (R444) -/

section
variable {u : State} {c st : Nat} {e : Entry} {x : Exc}

theorem agRaise_crew (hst : st = 4 ∨ st = 5) :
    (agRaise c st e x u).crew c =
      { setStreamQueue (u.crew c) st ((streamQueue (u.crew c) st).map (unstalled e.name)) with
        posted := (u.crew c).posted ++ [{ stream := st, exc := x, pc := e.pc, resume := e.pc }]
        stopped := addName (u.crew c).stopped st } := by
  have hupd := (OnlyCrew.refl u c).updEntry st e.name fun e => { e with stalled := false }
  unfold agRaise raiseStream postException
  dsimp only
  rw [State.crew_setCrew, hupd.crew]
  obtain rfl | rfl := hst <;> rfl

theorem agRaise_raises {s : State} (hst : st = 4 ∨ st = 5) (hlane : laneStream s = st)
    (hposted : (u.crew c).posted = (s.crew c).posted) : AgRaises s (agRaise c st e x u) c e x := by
  unfold AgRaises
  rw [agRaise_crew hst, hlane, ← hposted]
  exact ⟨rfl, addName_contains _ _⟩

theorem agRaise_shows {b : State} {k : Crew} {L : List Entry} (hst : st = 4 ∨ st = 5) (h : AgActed b u c st k L) :
    AgShows (agRaise c st e x u) c st k (L.map (unstalled e.name)) := by
  have hcrew := agRaise_crew (u := u) (c := c) (e := e) (x := x) hst
  rw [h.only.crew, streamQueue_setStreamQueue] at hcrew
  obtain rfl | rfl := hst <;> exact ⟨by rw [hcrew]; rfl, by rw [hcrew]; rfl, by rw [hcrew]; rfl, by rw [hcrew]; rfl,
    by rw [hcrew]; rfl, by rw [hcrew]; rfl⟩

end

section
variable {o : LWFmt} {s u : State} {c : Nat} {e : Entry} {x : Exc} {body : Nat → Nat → Entry → M Bool}
  {i : Instr} {uses : Bool} (hx : exec i s = runAg o i uses body s) (h : AgTurn o s c e)
include hx h

/-- An exception that undoes what the body did leaves what its reads found out. -/
theorem runAg_found (hb : body (laneStream s) c e (agBegun o s c e) = .error (.trap x) u) :
    ∃ t, exec i s = .next t ∧ AgRaises (keepErrors (agBegun o s c e) u) t c e x :=
  ⟨_, by rw [hx, runAg_turn h, hb]; rfl, agRaise_raises (laneStream_cases s) rfl rfl⟩

/-- An exception before anything has been done. -/
theorem runAg_raises (hb : body (laneStream s) c e (agBegun o s c e) = .error (.trap x) (agBegun o s c e)) :
    ∃ t, exec i s = .next t ∧ AgRaises s t c e x ∧ SameSlots s t c := by
  have hshows := agRaise_shows (e := e) (x := x) (laneStream_cases s) (AgActed.refl (agBegun o s c e) c (laneStream s))
  refine ⟨_, by rw [hx, runAg_turn h, hb]; rfl, agRaise_raises (laneStream_cases s) rfl (agBegun_posted ..), ?_⟩
  exact hshows.sameSlots ⟨agBegun_lslots .., agBegun_wslots .., agBegun_banks ..⟩

/-- An exception that leaves what the body has done. -/
theorem runAg_keeps {b : State} {k : Crew} {L : List Entry}
    (hb : body (laneStream s) c e (agBegun o s c e) = .error (.trapKeep x) u) (hlane : laneStream b = laneStream s)
    (hu : AgActed b u c (laneStream s) k L) :
    ∃ t, exec i s = .next t ∧ AgRaises b t c e x ∧
      AgShows t c (laneStream s) k (L.map (unstalled e.name)) := by
  have hposted : (u.crew c).posted = (b.crew c).posted := by
    rw [hu.only.crew, ← hu.posted]
    obtain hst | hst := laneStream_cases s <;> rw [hst] <;> rfl
  refine ⟨_, by rw [hx, runAg_turn h, hb]; rfl, agRaise_raises (laneStream_cases s) hlane hposted,
    agRaise_shows (laneStream_cases s) hu⟩

end

end Sys2Proof.Machine
end

section
namespace Sys2Proof.Machine

/-! #### Entries pushed and popped (R136, R139, R177) -/

section
variable {b : State} {c q ep w : Nat} {x : QEntry}

/-- A push to a queue that can take it adds the entry, and changes nothing else. -/
theorem pushQueue_run (h : agRoom b c q ep w) :
    pushQueue c q ep w x b = .ok () (withQueue b c q (withEntry (queueOf b c q) x)) := by
  obtain ⟨hok, hfull, hskip, hwhole, hbrq⟩ := h
  have harrive : (queueOf b c q).arrive x = withEntry (queueOf b c q) x :=
    (if_neg (ne_true_of_eq_false hskip)).trans (if_neg (ne_true_of_eq_false hwhole))
  have htoks : tokensFirst (b.crew c) (queueOf b c q) = (queueOf b c q, (b.crew c).skipToks) := by
    unfold tokensFirst
    split
    · next hb => rw [hbrq hb]; rfl
    · rfl
  have hgo : ¬((queueOf b c q).isFull && !(queueOf b c q).skip ||
      (queueOf b c q).brq && (b.crew c).skipToks.any fun w => !w.2) = true := fun hno => by
    simp only [hfull, Bool.false_and, Bool.false_or, Bool.and_eq_true] at hno
    rw [hbrq hno.1] at hno
    exact Bool.noConfusion hno.2
  unfold pushQueue
  rw [m_bind_ok (checkQueue_ok hok), m_bind_ok (m_get b), htoks]
  dsimp only
  rw [if_neg hgo, harrive, m_bind_ok (setQueue_run ..)]
  split
  · next hb =>
    rw [m_upd]
    unfold withQueue
    rw [setCrew_setCrew, State.crew_setCrew]
    have hnone := hbrq hb
    rw [hnone]
    generalize b.crew c = k at hnone
    refine congrArg (fun k => EStateM.Result.ok () (b.setCrew c k)) ?_
    rw [List.map_nil, ← hnone]
  · rfl

/-- A pop takes the first entry, and changes nothing else. -/
theorem popQueue_run {rest : List QEntry} (hok : queueRefuses (queueOf b c q) ep w false = none)
    (he : (queueOf b c q).entries = x :: rest) :
    popQueue c q ep w false b = .ok x (withQueue b c q ((queueOf b c q).popped x rest)) := by
  unfold popQueue
  rw [m_bind_ok (checkQueue_ok hok), he]
  rfl

end

section
variable {b t : State} {c q st : Nat} {k : Crew} {L : List Entry} {v : Queue}

/-- A turn that puts one queue leaves the others. -/
theorem AgShows.put (h : AgShows t c st k L) (hk : k.queues = (b.crew c).queues.put q v {}) :
    OtherQueues b t c q ∧ queueOf t c q = v := by
  refine ⟨fun y hy => ?_, ?_⟩
  · rw [h.queue, hk, Tbl.getD_put_other _ _ _ hy]
    rfl
  · rw [h.queue, hk, Tbl.getD_put_same]

/-- So does one that puts it twice. -/
theorem AgShows.putTwice {w : Queue} (h : AgShows t c st k L) (hk : k.queues = ((b.crew c).queues.put q w {}).put q v {}) :
    OtherQueues b t c q ∧ queueOf t c q = v := by
  refine ⟨fun y hy => ?_, ?_⟩
  · rw [h.queue, hk, Tbl.getD_put_other _ _ _ hy, Tbl.getD_put_other _ _ _ hy]
    rfl
  · rw [h.queue, hk, Tbl.getD_put_same]

theorem agRoom_agBegun {o : LWFmt} {s : State} {e : Entry} (h : agRoom s c q ep w) : agRoom (agBegun o s c e) c q ep w := by
  unfold agRoom at h ⊢
  rwa [agBegun_queueOf, agBegun_skipToks]

end

/-! #### Words and marks (R327) -/

section
variable {o : LWFmt} {s : State} {c : Nat} {e : Entry}

/-- An instruction that pushes one entry and completes. -/
theorem runAg_pushes {i : Instr} {uses : Bool} {body : Nat → Nat → Entry → M Bool} {w : Nat} {x : QEntry}
    (hx : exec i s = runAg o i uses body s) (h : AgTurn o s c e)
    (hroom : agRoom s c o.q (laneStream s) w) (hret : AgRetires o (agBegun o s c e) c e)
    (hb : ∀ u, pushQueue c o.q (laneStream s) w x (agBegun o s c e) = .ok () u →
      body (laneStream s) c e (agBegun o s c e) = .ok true u) :
    ∃ t, exec i s = .next t ∧ AgLeaves (agBegun o s c e) t c ∧ AgGone (agBegun o s c e) t c e ∧
      SameSlots (agBegun o s c e) t c ∧ OtherQueues (agBegun o s c e) t c o.q ∧
      queueOf t c o.q = withEntry (queueOf s c o.q) x := by
  have hpush := pushQueue_run (x := x) (agRoom_agBegun (o := o) (e := e) hroom)
  have hu := (AgActed.refl (agBegun o s c e) c (laneStream s)).setQueue o.q (withEntry (queueOf (agBegun o s c e) c o.q) x)
  obtain ⟨t, hrun, hleaves, hshows⟩ := runAg_ends hx h (hb _ hpush) (agBegun_lane ..) hu hret
  obtain ⟨hother, hq⟩ := hshows.put (b := agBegun o s c e) rfl
  exact ⟨t, hrun, hleaves, hshows.gone (agBegun_lane ..) rfl, hshows.sameSlots ⟨rfl, rfl, rfl⟩, hother,
    hq.trans (by rw [agBegun_queueOf])⟩

end

end Sys2Proof.Machine
end


section
namespace Sys2Proof.Machine

/-! #### The bodies (R325-R327) -/

def agputBody (o : LWFmt) (st c : Nat) (e : Entry) : M Bool := do
  pushQueue c o.q st 0 { data := leBytes 8 e.sval.toNat, h := bit o.b 1, t := bit o.b 0 }
  return true

def agmarkBody (o : LWFmt) (st c : Nat) (_ : Entry) : M Bool := do
  let v ← getQueue c o.q
  pushQueue c o.q st v.width { data := List.replicate (entryBytes v.width) 0, h := bit o.b 1, t := bit o.b 0 }
  return true

/-- An AGBANK waits for the earlier accesses of its bank. -/
def bankPending (s : State) (c bank name : Nat) (w : Bool) : Bool :=
  (if w then (s.crew c).wq else (s.crew c).lq).any fun x => x.name < name && !x.finished && usesBank s c w bank x

def agbankBody (o : LWFmt) (_ c : Nat) (e : Entry) : M Bool := do
  bankArg c o.b
  let sec ← sectionArg c e.sval
  if (← getSection c sec).isNone then fabricFault 3
  awaitBank c o.b
  let s ← get
  if bankPending s c o.b e.name false || bankPending s c o.b e.name true then throw .stall
  upd fun s => s.setCrew c { s.crew c with banks := (s.crew c).banks.put o.b (sec + 1) 0 }
  return true

def agtakeBody (o : LWFmt) (_ c : Nat) (_ : Entry) : M Bool := do
  bankArg c o.b
  awaitBank c o.b
  return true

section
variable (o : LWFmt) (s : State)

theorem exec_agdef : exec (.agdef o) s = runAg o (.agdef o) true (agdefBody o) s := rfl
theorem exec_agrun : exec (.agrun o) s = runAg o (.agrun o) false (agrunBody o) s := rfl
theorem exec_agidx : exec (.agidx o) s = runAg o (.agidx o) false (agidxBody o) s := rfl
theorem exec_agput : exec (.agput o) s = runAg o (.agput o) true (agputBody o) s := rfl
theorem exec_agmark : exec (.agmark o) s = runAg o (.agmark o) false (agmarkBody o) s := rfl
theorem exec_agbank : exec (.agbank o) s = runAg o (.agbank o) true (agbankBody o) s := rfl
theorem exec_agtake : exec (.agtake o) s = runAg o (.agtake o) false (agtakeBody o) s := rfl

end

section
variable {o : LWFmt} {s : State} {c : Nat} {e : Entry}

/-- The marks of an entry are the two bits of the mark field. -/
theorem bit_one_of_le {n : Nat} (h : n ≤ 3) : bit n 1 = (n / 2 == 1) := by
  interval_cases n <;> rfl

theorem agput_pushes (hwf : (Instr.agput o).wf = true) (h : AgTurn o s c e) (hroom : agRoom s c o.q (laneStream s) 0)
    (hret : AgRetires o (agBegun o s c e) c e) :
    ∃ t, exec (.agput o) s = .next t ∧ AgLeaves (agBegun o s c e) t c ∧ AgGone (agBegun o s c e) t c e ∧
      SameSlots (agBegun o s c e) t c ∧ OtherQueues (agBegun o s c e) t c o.q ∧
      queueOf t c o.q = withEntry (queueOf s c o.q)
        { data := leBytes 8 e.sval.toNat, h := o.b / 2 == 1, t := o.b % 2 == 1 } := by
  have hb : o.b ≤ 3 := by
    simp only [Instr.wf, Bool.and_eq_true, decide_eq_true_eq] at hwf
    exact hwf.2
  rw [← bit_one_of_le hb]
  have ht : (o.b % 2 == 1) = bit o.b 0 := by simp [bit]
  rw [ht]
  exact runAg_pushes (exec_agput o s) h hroom hret fun u hu => m_bind_ok hu

theorem agmark_pushes (hwf : (Instr.agmark o).wf = true) (h : AgTurn o s c e)
    (hroom : agRoom s c o.q (laneStream s) (queueOf s c o.q).width) (hret : AgRetires o (agBegun o s c e) c e) :
    ∃ t, exec (.agmark o) s = .next t ∧ AgLeaves (agBegun o s c e) t c ∧ AgGone (agBegun o s c e) t c e ∧
      SameSlots (agBegun o s c e) t c ∧ OtherQueues (agBegun o s c e) t c o.q ∧
      queueOf t c o.q = withEntry (queueOf s c o.q)
        { data := List.replicate (entryBytes (queueOf s c o.q).width) 0, h := o.b / 2 == 1, t := o.b % 2 == 1 } := by
  have hb : o.b ≤ 3 := by
    simp only [Instr.wf, Bool.and_eq_true, decide_eq_true_eq] at hwf
    exact hwf.2
  rw [← bit_one_of_le hb]
  have ht : (o.b % 2 == 1) = bit o.b 0 := by simp [bit]
  rw [ht]
  refine runAg_pushes (exec_agmark o s) h hroom hret fun u hu => ?_
  unfold agmarkBody
  rw [m_bind_ok (getQueue_run ..), agBegun_queueOf]
  exact m_bind_ok hu

/-! #### Banks (R100-R102, R327) -/

theorem bankArg_ok {b : State} {n : Nat} (h9 : n ≤ 9) (h : n < (b.crew c).spad) : bankArg c n b = .ok () b := by
  unfold bankArg
  rw [m_bind_ok (m_get b)]
  exact (m_if_neg (by omega)).trans (m_if_neg (by omega))

theorem bankArg_raises {b : State} {n : Nat} (h9 : n ≤ 9) (h : (b.crew c).spad ≤ n) :
    bankArg c n b = .error (.trap { cause := 7 }) b := by
  unfold bankArg
  rw [m_bind_ok (m_get b)]
  exact (m_if_neg (by omega)).trans (m_if_pos h)

theorem awaitBank_free {b : State} {n : Nat} (h : (b.crew c).banks.getD n 0 = 0) : awaitBank c n b = .ok () b := by
  unfold awaitBank
  rw [m_bind_ok (m_get b)]
  exact m_if_neg (not_not.2 h)

theorem awaitBank_waits {b : State} {n : Nat} (h : (b.crew c).banks.getD n 0 ≠ 0) : awaitBank c n b = .error .stall b := by
  unfold awaitBank
  rw [m_bind_ok (m_get b)]
  exact m_if_pos h

theorem bank_le_nine {mk : LWFmt → Instr} (hmk : mk = .agbank ∨ mk = .agtake) (hwf : (mk o).wf = true) : o.b ≤ 9 := by
  obtain rfl | rfl := hmk <;> simp only [Instr.wf, Bool.and_eq_true, decide_eq_true_eq] at hwf <;> exact hwf.2

theorem agtake_takes (hwf : (Instr.agtake o).wf = true) (h : AgTurn o s c e) (hspad : o.b < (s.crew c).spad)
    (hbank : (s.crew c).banks.getD o.b 0 = 0) (hret : AgRetires o (agBegun o s c e) c e) :
    ∃ t, exec (.agtake o) s = .next t ∧ AgLeaves (agBegun o s c e) t c ∧ AgGone (agBegun o s c e) t c e ∧
      SameSlots (agBegun o s c e) t c ∧ (t.crew c).queues = (s.crew c).queues := by
  have harg : bankArg c o.b (agBegun o s c e) = .ok () (agBegun o s c e) :=
    bankArg_ok (bank_le_nine (.inr rfl) hwf) (by rwa [agBegun_spad])
  have hfree : awaitBank c o.b (agBegun o s c e) = .ok () (agBegun o s c e) := awaitBank_free (by rwa [agBegun_banks])
  obtain ⟨t, hrun, hleaves, hshows⟩ := runAg_ends (exec_agtake o s) h ((m_bind_ok harg).trans (m_bind_ok hfree)) (agBegun_lane ..)
    (AgActed.refl (agBegun o s c e) c (laneStream s)) hret
  exact ⟨t, hrun, hleaves, hshows.gone (agBegun_lane ..) rfl, hshows.sameSlots ⟨rfl, rfl, rfl⟩, hshows.queues.trans (agBegun_queues ..)⟩

theorem agtake_waits (hwf : (Instr.agtake o).wf = true) (h : AgTurn o s c e) (hspad : o.b < (s.crew c).spad)
    (hbank : (s.crew c).banks.getD o.b 0 ≠ 0) : exec (.agtake o) s = .next (agBegun o s c e) := by
  have harg : bankArg c o.b (agBegun o s c e) = .ok () (agBegun o s c e) :=
    bankArg_ok (bank_le_nine (.inr rfl) hwf) (by rwa [agBegun_spad])
  have hheld : awaitBank c o.b (agBegun o s c e) = .error .stall (agBegun o s c e) :=
    awaitBank_waits (by rwa [agBegun_banks])
  exact runAg_waits (exec_agtake o s) h
    ((m_bind_ok harg).trans (m_bind_err hheld))

/-- A bank past the crew's raises the bounds fault. -/
theorem bank_raises {mk : LWFmt → Instr} (hmk : mk = .agbank ∨ mk = .agtake) (hwf : (mk o).wf = true) (h : AgTurn o s c e)
    (hspad : (s.crew c).spad ≤ o.b) : ∃ t, exec (mk o) s = .next t ∧ AgRaises s t c e { cause := 7 } := by
  have harg : bankArg c o.b (agBegun o s c e) = .error (.trap { cause := 7 }) (agBegun o s c e) :=
    bankArg_raises (bank_le_nine hmk hwf) (by rwa [agBegun_spad])
  obtain rfl | rfl := hmk
  · obtain ⟨t, hrun, hraise, -⟩ := runAg_raises (exec_agbank o s) h (m_bind_err harg)
    exact ⟨t, hrun, hraise⟩
  · obtain ⟨t, hrun, hraise, -⟩ := runAg_raises (exec_agtake o s) h (m_bind_err harg)
    exact ⟨t, hrun, hraise⟩

/-- No access of a bank by an earlier L or W instruction is still to come. -/
def bankQuiet (b : State) (c n name : Nat) : Prop :=
  (∀ x ∈ (b.crew c).lq, x.name < name → x.finished = false → usesBank b c false n x = false) ∧
  (∀ x ∈ (b.crew c).wq, x.name < name → x.finished = false → usesBank b c true n x = false)

theorem none_pending {b : State} {n name : Nat} {w : Bool} {l : List Entry}
    (h : ∀ x ∈ l, x.name < name → x.finished = false → usesBank b c w n x = false) :
    (l.any fun x => x.name < name && !x.finished && usesBank b c w n x) = false := by
  rw [List.any_eq_false]
  intro x hx hno
  simp only [Bool.and_eq_true, decide_eq_true_eq, Bool.not_eq_true'] at hno
  exact Bool.noConfusion ((h x hx hno.1.1 hno.1.2).symm.trans hno.2)

theorem agbank_gives {n : Nat} {b1 b : State} {sec : Section} (hwf : (Instr.agbank o).wf = true) (h : AgTurn o s c e)
    (hspad : o.b < (s.crew c).spad) (harg : sectionArg c e.sval (agBegun o s c e) = .ok n b1)
    (hsec : getSection c n b1 = .ok (some sec) b) (hlane : laneStream b = laneStream s)
    (hbank : (b.crew c).banks.getD o.b 0 = 0) (hquiet : bankQuiet b c o.b e.name) (hret : AgRetires o b c e) :
    ∃ t, exec (.agbank o) s = .next t ∧ AgLeaves b t c ∧ AgGone b t c e ∧ (t.crew c).queues = (b.crew c).queues ∧
      (t.crew c).lslots = (b.crew c).lslots ∧ (t.crew c).wslots = (b.crew c).wslots ∧
      (t.crew c).banks.getD o.b 0 = n + 1 ∧ ∀ x, x ≠ o.b → (t.crew c).banks.find? x = (b.crew c).banks.find? x := by
  have hin : bankArg c o.b (agBegun o s c e) = .ok () (agBegun o s c e) :=
    bankArg_ok (bank_le_nine (.inl rfl) hwf) (by rwa [agBegun_spad])
  have hu := (AgActed.refl b c (laneStream s)).setBanks o.b (n + 1)
  have hnone : ¬(bankPending b c o.b e.name false || bankPending b c o.b e.name true) = true := by
    have hl : bankPending b c o.b e.name false = false := none_pending hquiet.1
    have hw : bankPending b c o.b e.name true = false := none_pending hquiet.2
    rw [hl, hw]
    exact Bool.false_ne_true
  obtain ⟨t, hrun, hleaves, hshows⟩ := runAg_ends (exec_agbank o s) h
    ((m_bind_ok hin).trans ((m_bind_ok harg).trans ((m_bind_ok hsec).trans ((m_if_neg Bool.false_ne_true).trans
      ((m_bind_ok (awaitBank_free hbank)).trans ((m_bind_ok (m_get b)).trans (m_if_neg hnone))))))) hlane hu hret
  have hbanks : (t.crew c).banks = (b.crew c).banks.put o.b (n + 1) 0 := hshows.banks
  refine ⟨t, hrun, hleaves, hshows.gone hlane rfl, hshows.queues, hshows.lslots, hshows.wslots, ?_, fun x hx => ?_⟩
  · rw [hbanks]
    exact Tbl.getD_put_same ..
  · rw [hbanks]
    exact Tbl.find?_put_other _ _ _ hx

end

end Sys2Proof.Machine
end

section
namespace Sys2Proof.Machine

section
variable {o : LWFmt} {s : State} {c : Nat} {e : Entry}

/-! #### Walks (R327) -/

theorem setAg_run (c st name : Nat) (p : Progress) (b : State) :
    setAg c st name p b = .ok () (updEntry c st name (fun e => { e with prog := p }) b) := rfl

/-- What a turn has done that pushes one entry and moves its progress. -/
theorem acted_pushed (b : State) (c st q : Nat) (x : QEntry) (n : Nat) (p : Progress) :
    AgActed b (updEntry c st n (fun e => { e with prog := p }) (withQueue b c q (withEntry (queueOf b c q) x))) c st
      { b.crew c with queues := (b.crew c).queues.put q (withEntry (queueOf b c q) x) {} }
      ((streamQueue (b.crew c) st).map (withProg n p)) :=
  ((AgActed.refl b c st).setQueue q _).setProg n p

/-- A slot that is empty raises the descriptor fault. -/
theorem slot_raises (h : AgTurn o s c e) (hslot : (agSlots (s.crew c) (laneStream s)).find? o.d = none)
    {mk : LWFmt → Instr} (hmk : mk = .agrun ∨ mk = .agidx) :
    ∃ t, exec (mk o) s = .next t ∧ AgRaises s t c e { cause := 6 } ∧ SameSlots s t c := by
  have hnone : (agSlots ((agBegun o s c e).crew c) (laneStream s)).find? o.d = none := by rwa [agBegun_slots]
  obtain rfl | rfl := hmk
  · refine runAg_raises (exec_agrun o s) h ?_
    unfold agrunBody
    rw [m_bind_ok (m_get _), hnone]
    rfl
  · refine runAg_raises (exec_agidx o s) h ?_
    unfold agidxBody
    rw [m_bind_ok (m_get _), hnone]
    rfl

theorem agidx_runs {bs : List Byte} (hslot : (agSlots (s.crew c) (laneStream s)).find? o.d = some bs)
    (hkind : (AgDesc.ofBytes bs).kind = 0) (hext : ∀ n < 4, (AgDesc.ofBytes bs).box.extent n ≤ 16384)
    (hroom : agRoom s c o.q (laneStream s) 0) :
    let a := AgDesc.ofBytes bs
    let b := agBegun o s c e
    let x : QEntry := { data := leBytes 8 (indexWord a.box (a.box.coords e.prog.count))
                        t := decide (e.prog.count + 1 = a.box.count) }
    agidxBody o (laneStream s) c e b = .ok (decide (e.prog.count + 1 = a.box.count))
      (updEntry c (laneStream s) e.name (fun y => { y with prog := { e.prog with count := e.prog.count + 1 } })
        (withQueue b c o.q (withEntry (queueOf b c o.q) x))) := by
  intro a b x
  have hsome : (agSlots (b.crew c) (laneStream s)).find? o.d = some bs := by rwa [agBegun_slots]
  have hfits : ¬((List.range 4).any fun n => 16384 < a.box.extent n) = true := by
    simp only [List.any_eq_true, List.mem_range, decide_eq_true_eq, not_exists, not_and, Nat.not_lt]
    exact hext
  have hpush := pushQueue_run (x := x) (agRoom_agBegun (o := o) (e := e) hroom)
  unfold agidxBody
  rw [m_bind_ok (m_get _), hsome]
  exact (m_if_neg (not_not.2 hkind)).trans ((m_if_neg hfits).trans (m_bind_ok hpush))

theorem agidx_pushes {bs : List Byte} (h : AgTurn o s c e)
    (hslot : (agSlots (s.crew c) (laneStream s)).find? o.d = some bs)
    (hkind : (AgDesc.ofBytes bs).kind = 0) (hext : ∀ n < 4, (AgDesc.ofBytes bs).box.extent n ≤ 16384)
    (hroom : agRoom s c o.q (laneStream s) 0) :
    let a := AgDesc.ofBytes bs
    let b := agBegun o s c e
    let i := e.prog.count
    let pushed (t : State) : Prop := AgLeaves b t c ∧ SameSlots b t c ∧ OtherQueues b t c o.q ∧
      queueOf t c o.q = withEntry (queueOf s c o.q)
        { data := leBytes 8 (indexWord a.box (a.box.coords i)), t := decide (i + 1 = a.box.count) }
    (i + 1 ≠ a.box.count → ∃ t, exec (.agidx o) s = .next t ∧ pushed t ∧ AgGoesOn b t c e { e.prog with count := i + 1 }) ∧
    (i + 1 = a.box.count → AgRetires o b c e → ∃ t, exec (.agidx o) s = .next t ∧ pushed t ∧ AgGone b t c e) := by
  intro a b i pushed
  have hrun := agidx_runs (o := o) (e := e) hslot hkind hext hroom
  have hu := acted_pushed b c (laneStream s) o.q
    { data := leBytes 8 (indexWord a.box (a.box.coords i)), t := decide (i + 1 = a.box.count) } e.name
    { e.prog with count := i + 1 }
  refine ⟨fun hmore => ?_, fun hlast hret => ?_⟩
  · obtain ⟨t, hexec, hleaves, hshows⟩ := runAg_goesOn (exec_agidx o s) h (hrun.trans (by rw [decide_eq_false hmore])) hu
    obtain ⟨hother, hq⟩ := hshows.put (b := b) rfl
    exact ⟨t, hexec, ⟨hleaves, hshows.sameSlots ⟨rfl, rfl, rfl⟩, hother, hq.trans (by rw [agBegun_queueOf])⟩,
      hshows.goesOn (agBegun_lane ..)⟩
  · obtain ⟨t, hexec, hleaves, hshows⟩ := runAg_ends (exec_agidx o s) h (hrun.trans (by rw [decide_eq_true hlast]))
      (agBegun_lane ..) hu hret
    obtain ⟨hother, hq⟩ := hshows.put (b := b) rfl
    exact ⟨t, hexec, ⟨hleaves, hshows.sameSlots ⟨rfl, rfl, rfl⟩, hother, hq.trans (by rw [agBegun_queueOf])⟩,
      hshows.gone (agBegun_lane ..) (filter_withProg ..)⟩

/-! #### Descriptors (R325) -/

theorem agdef_misaligned (h : AgTurn o s c e) (ha : e.sval.toNat % 64 ≠ 0) :
    ∃ t, exec (.agdef o) s = .next t ∧ AgRaises s t c e { cause := 4, addr := e.sval, info := 64 } ∧ SameSlots s t c :=
  runAg_raises (exec_agdef o s) h (m_if_pos ha)

/-- The pins an AGDEF reads its descriptor through. -/
def agdefHolds (s : State) (c : Nat) : Pin → Bool :=
  agdefPins (s.crew c) ((s.launches.getD (s.crew c).launch default).cards.getD (s.crew c).card default).lodor c

theorem agdefHolds_agBegun : agdefHolds (agBegun o s c e) c = agdefHolds s c := by
  have hpins (k k' : Crew) (hl : k.launch = k'.launch) (hc : k.card = k'.card) (d : Bool) :
      agdefPins k d c = agdefPins k' d c := by
    unfold agdefPins
    rw [hl, hc]
  unfold agdefHolds
  rw [agBegun_launch, agBegun_card, agBegun_launches]
  exact hpins _ _ (agBegun_launch ..) (agBegun_card ..) _

/-- What AGDEF makes of the answer of the check of its descriptor. -/
def agdefEnd (o : LWFmt) (st c : Nat) (bs : List Byte) : AgCheck → M Bool
  | .ecc bad => throw (.lasting bad)
  | .refused bad => agTrap 9 0 (BitVec.ofNat 64 bad)
  | .descriptor => agTrap 6 (AgDesc.ofBytes bs).tid
  | .bounds => agTrap 7 (AgDesc.ofBytes bs).tid
  | .ok => do
    upd fun s => s.setCrew c (if st = 5 then { s.crew c with wslots := (s.crew c).wslots.insert o.d bs }
      else { s.crew c with lslots := (s.crew c).lslots.insert o.d bs })
    return true

section
variable {bs : List Byte} {b1 b : State} (ha : e.sval.toNat % 64 = 0)
  (hread : readPinned (.half c) (agdefHolds s c) e.sval.toNat 64 (agBegun o s c e) = .ok (.ok bs) b1)
include ha hread

/-- AGDEF comes to the check of the descriptor it has read. -/
theorem agdef_checks {r : AgCheck} (hcheck : agCheck c bs (laneStream s == 5) b1 = .ok r b) :
    agdefBody o (laneStream s) c e (agBegun o s c e) = agdefEnd o (laneStream s) c bs r b := by
  rw [← agdefHolds_agBegun (o := o) (e := e)] at hread
  unfold agdefBody
  refine (m_if_neg (not_not.2 ha)).trans ((m_bind_ok (m_get _)).trans ((m_bind_ok hread).trans ((m_bind_ok hcheck).trans ?_)))
  cases r <;> rfl

theorem agdef_raises {r : AgCheck} (h : AgTurn o s c e) (hcheck : agCheck c bs (laneStream s == 5) b1 = .ok r b) :
    let tid := (AgDesc.ofBytes bs).tid
    let raises (x : Exc) : Prop := ∃ t, exec (.agdef o) s = .next t ∧ AgRaises (keepErrors (agBegun o s c e) b) t c e x
    (r = .descriptor → raises { cause := 6, info := BitVec.ofNat 64 tid }) ∧
    (r = .bounds → raises { cause := 7, info := BitVec.ofNat 64 tid }) ∧
    (∀ va, r = .refused va → raises { cause := 9, addr := BitVec.ofNat 64 va }) := by
  have hrun := agdef_checks ha hread hcheck (o := o)
  refine ⟨fun hr => ?_, fun hr => ?_, fun va hr => ?_⟩
  all_goals
    subst hr
    exact runAg_found (exec_agdef o s) h hrun

/-- A descriptor that passes is kept in its slot, and the other slots are as they were. -/
theorem agdef_keeps (h : AgTurn o s c e) (hcheck : agCheck c bs (laneStream s == 5) b1 = .ok .ok b)
    (hlane : laneStream b = laneStream s) (hret : AgRetires o b c e) :
    ∃ t, exec (.agdef o) s = .next t ∧ AgLeaves b t c ∧ AgGone b t c e ∧ (t.crew c).queues = (b.crew c).queues ∧
      (t.crew c).banks = (b.crew c).banks ∧
      (agSlots (t.crew c) (laneStream s)).find? o.d = some bs ∧
      (∀ d, d ≠ o.d → (agSlots (t.crew c) (laneStream s)).find? d = (agSlots (b.crew c) (laneStream s)).find? d) ∧
      agSlots (t.crew c) (9 - laneStream s) = agSlots (b.crew c) (9 - laneStream s) := by
  have hrun := agdef_checks ha hread hcheck (o := o)
  obtain hst | hst := laneStream_cases s
  · have hu := (AgActed.refl b c 4).setLslots o.d bs
    rw [← hst] at hu
    obtain ⟨t, hexec, hleaves, hshows⟩ := runAg_ends (exec_agdef o s) h (hrun.trans (by rw [hst]; rfl)) hlane hu hret
    have hl : (t.crew c).lslots = (b.crew c).lslots.insert o.d bs := hshows.lslots
    have hw : (t.crew c).wslots = (b.crew c).wslots := hshows.wslots
    refine ⟨t, hexec, hleaves, hshows.gone hlane rfl, hshows.queues, hshows.banks, ?_⟩
    rw [hst]
    refine ⟨(congrArg (Tbl.find? · o.d) hl).trans (Tbl.find?_insert_same ..), fun d hd => ?_, hw⟩
    exact (congrArg (Tbl.find? · d) hl).trans (Tbl.find?_insert_other _ _ hd)
  · have hu := (AgActed.refl b c 5).setWslots o.d bs
    rw [← hst] at hu
    obtain ⟨t, hexec, hleaves, hshows⟩ := runAg_ends (exec_agdef o s) h (hrun.trans (by rw [hst]; rfl)) hlane hu hret
    have hl : (t.crew c).lslots = (b.crew c).lslots := hshows.lslots
    have hw : (t.crew c).wslots = (b.crew c).wslots.insert o.d bs := hshows.wslots
    refine ⟨t, hexec, hleaves, hshows.gone hlane rfl, hshows.queues, hshows.banks, ?_⟩
    rw [hst]
    refine ⟨(congrArg (Tbl.find? · o.d) hw).trans (Tbl.find?_insert_same ..), fun d hd => ?_, hl⟩
    exact (congrArg (Tbl.find? · d) hw).trans (Tbl.find?_insert_other _ _ hd)

end

end

end Sys2Proof.Machine
end


section
namespace Sys2Proof.Machine

/-! #### AGRUN (R326) -/

/-- What AGRUN does with its slot's descriptor, once its derived edges are clear. -/
def agrunKind (o : LWFmt) (st c : Nat) (e : Entry) (a : AgDesc) : M Bool :=
  if a.kind = 0 then (if st = 4 then loadTiles o c e a else storeTiles o c e a)
  else if a.kind = 1 then (if st = 4 then loadBank o c e a else storeBank o c e a)
  else dropGroups o c e a

/-- Waiting for derived edges changes nothing. -/
theorem awaitEdges_state {crew : Option Nat} {n : Nat} {l : List Foot} {s b : State} (h : awaitEdges crew n l s = .ok () b) :
    b = s := by
  unfold awaitEdges at h
  split at h
  · cases h; rfl
  · split at h
    · cases h; rfl
    · rw [m_bind_ok (m_get s)] at h
      split at h
      · cases h
      · cases h; rfl

section
variable {o : LWFmt} {s b b0 b1 : State} {c : Nat} {e : Entry} {a : AgDesc}

theorem Runs.begun (h : Runs o s b c e a) : b = agBegun o s c e := awaitEdges_state h.edges

/-- An AGRUN with a turn does what its slot's kind says. -/
theorem Runs.body (h : Runs o s b c e a) :
    agrunBody o (laneStream s) c e (agBegun o s c e) = agrunKind o (laneStream s) c e a (agBegun o s c e) := by
  obtain ⟨bs, hslot, hbs⟩ := h.slot
  have hsome : (agSlots ((agBegun o s c e).crew c) (laneStream s)).find? o.d = some bs := by rwa [agBegun_slots]
  have hedges := h.edges
  rw [h.begun] at hedges
  unfold agrunBody
  rw [m_bind_ok (m_get _), hsome]
  refine (m_bind_ok hedges).trans ?_
  rw [hbs]
  unfold agrunKind
  match a.kind with
  | 0 | 1 | _ + 2 => rfl

theorem Runs.loadTiles (h : Runs o s b c e a) (hst : laneStream s = 4) (hk : a.kind = 0) :
    agrunBody o (laneStream s) c e (agBegun o s c e) = Machine.loadTiles o c e a b := by
  rw [h.body, h.begun]
  exact (m_if_pos hk).trans (m_if_pos hst)

theorem Runs.storeTiles (h : Runs o s b c e a) (hst : laneStream s = 5) (hk : a.kind = 0) :
    agrunBody o (laneStream s) c e (agBegun o s c e) = Machine.storeTiles o c e a b := by
  rw [h.body, h.begun]
  exact (m_if_pos hk).trans (m_if_neg (by omega))

theorem Runs.loadBank (h : Runs o s b c e a) (hst : laneStream s = 4) (hk : a.kind = 1) :
    agrunBody o (laneStream s) c e (agBegun o s c e) = Machine.loadBank o c e a b := by
  rw [h.body, h.begun]
  exact (m_if_neg (by omega)).trans ((m_if_pos hk).trans (m_if_pos hst))

theorem Runs.storeBank (h : Runs o s b c e a) (hst : laneStream s = 5) (hk : a.kind = 1) :
    agrunBody o (laneStream s) c e (agBegun o s c e) = Machine.storeBank o c e a b := by
  rw [h.body, h.begun]
  exact (m_if_neg (by omega)).trans ((m_if_pos hk).trans (m_if_neg (by omega)))

theorem Runs.dropGroups (h : Runs o s b c e a) (hk : 2 ≤ a.kind) :
    agrunBody o (laneStream s) c e (agBegun o s c e) = Machine.dropGroups o c e a b := by
  rw [h.body, h.begun]
  exact (m_if_neg (by omega)).trans (m_if_neg (by omega))

theorem tileWidth_run {q ep : Nat} {push : Bool} (hw : (queueOf b c q).width ≠ 0)
    (hok : queueRefuses (queueOf b c q) ep (queueOf b c q).width push = none) :
    tileWidth c q ep push b = .ok (queueOf b c q).width b := by
  unfold tileWidth
  rw [m_bind_ok (getQueue_run ..)]
  exact (m_if_neg hw).trans (m_bind_ok (checkQueue_ok hok))

/-! #### Tiles read into bursts -/

/-- L with a TILE slot and no burst makes one. -/
theorem loadTiles_makes {d : Desc} (hw : (queueOf b1 c o.q).width ≠ 0)
    (hok : queueRefuses (queueOf b1 c o.q) 4 (queueOf b1 c o.q).width true = none) (hempty : e.prog.bytes = [])
    (hdesc : agDesc c a.tid false b1 = .ok d b) :
    loadTiles o c e a b1 = (do makeBurst c e a d; return false) b := by
  unfold loadTiles
  rw [m_bind_ok (tileWidth_run hw hok), m_bind_ok hdesc]
  exact m_if_pos (by rw [hempty]; rfl)

section
variable {d : Desc} {b2 : State}

theorem makeBurst_ok {body : List Byte} {sc : List Nat}
    (hread : readTile (.half c) (crewPins c) d (a.box.coords e.prog.count) b = .ok (.ok body sc) b2) :
    makeBurst c e a d b = .ok () (updEntry c 4 e.name (fun x => { x with prog := { e.prog with
      bytes := burstBytes a.tid (d.efmt == 13) (a.box.coords e.prog.count) sc body, nums := [0] } }) b2) := by
  unfold makeBurst
  exact m_bind_ok hread

theorem makeBurst_layout (hread : readTile (.half c) (crewPins c) d (a.box.coords e.prog.count) b = .ok .layout b2) :
    makeBurst c e a d b = .error (.trap { cause := 8, info := BitVec.ofNat 64 a.tid }) b2 := by
  unfold makeBurst
  exact m_bind_ok hread

theorem makeBurst_refused {why : Bad} (hwhy : why ≠ .ecc)
    (hread : readTile (.half c) (crewPins c) d (a.box.coords e.prog.count) b = .ok (.bad why) b2) :
    makeBurst c e a d b = .error (.trap { cause := 9, addr := BitVec.ofNat 64 (d.tile (a.box.coords e.prog.count)) }) b2 := by
  unfold makeBurst
  refine (m_bind_ok hread).trans ?_
  cases why
  case ecc => exact absurd rfl hwhy
  all_goals rfl

theorem keeps_containReport (s : State) (ctx crew addr unit inst kind detail : Nat) :
    Stays (Kept s) (containReport ctx crew addr unit inst kind detail) := by
  unfold containReport
  refine Stays.get.bind fun u => ?_
  have hreport (unit inst : Nat) : Stays (Kept s) (do
      upd fun s => s.countError 3 unit inst
      event ctx 8 3 crew addr (detail + kind * 2 ^ 32 + inst * 2 ^ 40 + unit * 2 ^ 56)) :=
    (Stays.upd fun _ h => h.trans (.of_eq rfl rfl rfl)).bind fun _ => keeps_event s _ _ _ _ _ _
  dsimp only
  split
  · exact (keeps_memoryUnit s _).bind fun p => hreport p.1 p.2
  · exact (Stays.pure _).bind fun p => hreport p.1 p.2

/-- A tile with a lasting error gives a burst of free values, to be poisoned at its end (R471). -/
theorem makeBurst_lasting
    (hread : readTile (.half c) (crewPins c) d (a.box.coords e.prog.count) b = .ok (.bad .ecc) b2) :
    ∃ u body sc, Kept b2 u ∧ makeBurst c e a d b = .ok () (updEntry c 4 e.name (fun x => { x with prog := { e.prog with
      bytes := burstBytes a.tid (d.efmt == 13) (a.box.coords e.prog.count) sc body, nums := [1] } }) u) := by
  obtain ⟨_, u, hu⟩ := completes_containReport (b2.crew c).ctx (handleOf (b2.crew c)) (d.tile (a.box.coords e.prog.count))
    3 0 1 3 b2
  obtain ⟨body, v, hv⟩ := completes_freeBytes 1024 u
  obtain ⟨sc, w, hw⟩ := completes_freeBytes 128 v
  have hkept : Kept b2 w := (keeps_freeBytes b2 128).ok ((keeps_freeBytes b2 1024).ok
    ((keeps_containReport b2 _ _ _ _ _ _ _).ok (Kept.refl b2) hu) hv) hw
  refine ⟨w, d.maskPadding ((a.box.coords e.prog.count).getD 0 0) ((a.box.coords e.prog.count).getD 1 0) body,
    (halves sc).map (· % 1024), hkept, ?_⟩
  unfold makeBurst
  exact (m_bind_ok hread).trans ((m_bind_ok (m_get b2)).trans ((m_bind_ok hu).trans ((m_bind_ok hv).trans (m_bind_ok hw))))

end

theorem readsTile (o : LWFmt) : ReadsTile o := by
  intro s b1 b b2 c e a d r h v p cs hst hk hw hok hempty hdesc hread hlane
  have hrun {x : EStateM.Result Stop State Bool} (hx : (do makeBurst c e a d; return false : M Bool) b = x) :
      agrunBody o (laneStream s) c e (agBegun o s c e) = x := by
    rw [h.loadTiles hst hk, loadTiles_makes hw hok hempty hdesc, hx]
  have hmade (p : Progress) (u : State) : AgActed u (updEntry c 4 e.name (fun x => { x with prog := p }) u) c (laneStream s)
      (u.crew c) ((streamQueue (u.crew c) (laneStream s)).map (withProg e.name p)) := by
    rw [hst]
    exact (AgActed.refl u c 4).setProg e.name p
  refine ⟨fun body sc hr => ?_, fun hr => ?_, fun why hr hwhy => ?_, fun hr => ?_⟩ <;> subst hr
  · obtain ⟨t, hexec, hleaves, hshows⟩ := runAg_goesOn (exec_agrun o s) h.turn (hrun (m_bind_ok (makeBurst_ok hread)))
      (hmade _ b2)
    exact ⟨t, hexec, hleaves, hshows.sameSlots ⟨rfl, rfl, rfl⟩, hshows.queues, hshows.goesOn (hlane.trans hst.symm)⟩
  · exact runAg_found (exec_agrun o s) h.turn (hrun (m_bind_err (makeBurst_layout hread)))
  · exact runAg_found (exec_agrun o s) h.turn (hrun (m_bind_err (makeBurst_refused hwhy hread)))
  · obtain ⟨u, body, sc, hkept, hmake⟩ := makeBurst_lasting hread
    obtain ⟨t, hexec, -, hshows⟩ := runAg_goesOn (exec_agrun o s) h.turn (hrun (m_bind_ok hmake)) (hmade _ u)
    rw [hkept.crew] at hshows
    exact ⟨t, sc, body, hexec, hshows.goesOn (hlane.trans hst.symm)⟩

/-! #### Bursts pushed entry by entry -/

section
variable {d : Desc}

theorem loadTiles_pushes {x : QEntry} (hw : (queueOf b1 c o.q).width ≠ 0)
    (hok : queueRefuses (queueOf b1 c o.q) 4 (queueOf b1 c o.q).width true = none) (hbytes : e.prog.bytes ≠ [])
    (hdesc : agDesc c a.tid false b1 = .ok d b) (hroom : agRoom b c o.q 4 (queueOf b1 c o.q).width)
    (hx : (burstEntries (queueOf b1 c o.q).width e.prog.bytes).getD e.prog.pos { data := [] } = x) :
    loadTiles o c e a b1 =
      (if e.prog.pos + 1 < (burstEntries (queueOf b1 c o.q).width e.prog.bytes).length then do
        setAg c 4 e.name { e.prog with pos := e.prog.pos + 1 }
        return false
      else do
        setAg c 4 e.name { e.prog with pos := 0, count := e.prog.count + 1, bytes := [], nums := [] }
        return e.prog.count + 1 = a.box.count : M Bool)
      (withQueue b c o.q (withEntry (queueOf b c o.q) { x with p := e.prog.nums.headD 0 == 1 && x.t })) := by
  have hempty : ¬e.prog.bytes.isEmpty = true := by simpa using hbytes
  unfold loadTiles
  rw [m_bind_ok (tileWidth_run hw hok), m_bind_ok hdesc]
  refine (m_if_neg hempty).trans ?_
  dsimp only
  rw [hx]
  exact m_bind_ok (pushQueue_run hroom)

theorem tids_agDesc {tid : Nat} {write : Bool} (h : agDesc c tid write b1 = .ok d b) : TidsOnly b1 b := by
  have hstays : Stays (TidsOnly b1) (agDesc c tid write) := by
    unfold agDesc
    refine Stays.get.bind fun u => (names_tidOrTrap b1 _ _ _ _).bind fun d => ?_
    split
    · exact Stays.throw _
    · exact Stays.pure _
  exact hstays.ok (TidsOnly.refl b1) h

theorem agRoom_agDesc {q ep w tid : Nat} {write : Bool} (h : agDesc c tid write b1 = .ok d b)
    (hq : queueOf b c q = queueOf b1 c q) (hroom : agRoom b1 c q ep w) : agRoom b c q ep w := by
  have hskips : (b.crew c).skipToks = (b1.crew c).skipToks := (congrArg Crew.skipToks ((tids_agDesc h).crews c) :)
  unfold agRoom at hroom ⊢
  rwa [hq, hskips]

/-- What an AGRUN with a burst does with its next entry. -/
theorem agrun_pushes (h : Runs o s b1 c e a) (hst : laneStream s = 4) (hlane : laneStream b = 4) (hk : a.kind = 0)
    (hw : (queueOf b1 c o.q).width ≠ 0) (hroom : agRoom b1 c o.q 4 (queueOf b1 c o.q).width)
    (hdesc : agDesc c a.tid false b1 = .ok d b) (hq : queueOf b c o.q = queueOf b1 c o.q) (hbytes : e.prog.bytes ≠ []) :
    let v := queueOf b1 c o.q
    let p := e.prog
    let es := burstEntries v.width p.bytes
    let x := es.getD p.pos { data := [] }
    let pushed (t : State) : Prop := AgLeaves b t c ∧ SameSlots b t c ∧ OtherQueues b t c o.q ∧
      queueOf t c o.q = withEntry v { x with p := p.nums.headD 0 == 1 && x.t }
    (p.pos + 1 < es.length → ∃ t, exec (.agrun o) s = .next t ∧ pushed t ∧ AgGoesOn b t c e { p with pos := p.pos + 1 }) ∧
    (es.length ≤ p.pos + 1 → p.count + 1 ≠ a.box.count → ∃ t, exec (.agrun o) s = .next t ∧ pushed t ∧
      AgGoesOn b t c e { p with pos := 0, count := p.count + 1, bytes := [], nums := [] }) ∧
    (es.length ≤ p.pos + 1 → p.count + 1 = a.box.count → AgRetires o b c e →
      ∃ t, exec (.agrun o) s = .next t ∧ pushed t ∧ AgGone b t c e) := by
  intro v p es x pushed
  have hbody := (h.loadTiles hst hk).trans
    (loadTiles_pushes (x := x) hw hroom.1 hbytes hdesc (agRoom_agDesc hdesc hq hroom) rfl)
  have hlanes : laneStream b = laneStream s := hlane.trans hst.symm
  have hacted (p' : Progress) : AgActed b (updEntry c 4 e.name (fun y => { y with prog := p' })
      (withQueue b c o.q (withEntry (queueOf b c o.q) { x with p := p.nums.headD 0 == 1 && x.t }))) c (laneStream s)
      { b.crew c with
        queues := (b.crew c).queues.put o.q (withEntry (queueOf b c o.q) { x with p := p.nums.headD 0 == 1 && x.t }) {} }
      ((streamQueue (b.crew c) (laneStream s)).map (withProg e.name p')) := by
    rw [hst]
    exact acted_pushed ..
  have hpushed {t : State} {L : List Entry} (hleaves : AgLeaves b t c) (hshows : AgShows t c (laneStream s)
      { b.crew c with
        queues := (b.crew c).queues.put o.q (withEntry (queueOf b c o.q) { x with p := p.nums.headD 0 == 1 && x.t }) {} }
      L) : pushed t := by
    obtain ⟨hother, hqt⟩ := hshows.put (b := b) rfl
    exact ⟨hleaves, hshows.sameSlots ⟨rfl, rfl, rfl⟩, hother, hqt.trans (by rw [hq])⟩
  refine ⟨fun hlt => ?_, fun hge hmore => ?_, fun hge hlast hret => ?_⟩
  · obtain ⟨t, hexec, hleaves, hshows⟩ := runAg_goesOn (exec_agrun o s) h.turn (hbody.trans (m_if_pos hlt)) (hacted _)
    exact ⟨t, hexec, hpushed hleaves hshows, hshows.goesOn hlanes⟩
  · obtain ⟨t, hexec, hleaves, hshows⟩ := runAg_goesOn (exec_agrun o s) h.turn
      (hbody.trans ((m_if_neg (Nat.not_lt.2 hge)).trans (by rw [decide_eq_false hmore]; rfl))) (hacted _)
    exact ⟨t, hexec, hpushed hleaves hshows, hshows.goesOn hlanes⟩
  · obtain ⟨t, hexec, hleaves, hshows⟩ := runAg_ends (exec_agrun o s) h.turn
      (hbody.trans ((m_if_neg (Nat.not_lt.2 hge)).trans (by rw [decide_eq_true hlast]; rfl))) hlanes (hacted _) hret
    exact ⟨t, hexec, hpushed hleaves hshows, hshows.gone hlanes (filter_withProg ..)⟩

end

end

end Sys2Proof.Machine
end


section
namespace Sys2Proof.Machine

/-! #### Groups of entries written as tiles (R140, R144, R326) -/

section
variable {o : LWFmt} {s b b1 : State} {c : Nat} {e : Entry} {a : AgDesc} {d : Desc}

/-- A burst that fails: what is left of it is discarded, and it counts as taken. -/
theorem failBurst_run {α : Type} (c q n : Nat) (ended : Bool) (e : Entry) (x : Exc) (f : State) :
    (failBurst c q n ended e x : M α) f = .error (.trapKeep x)
      (updEntry c 5 e.name (fun y => { y with prog := { e.prog with pos := 0, count := e.prog.count + 1, bytes := [] } })
        (withQueue f c q (if ended then (queueOf f c q).discard n else ((queueOf f c q).discard n).skipTail))) := by
  unfold failBurst
  rw [m_bind_ok (getQueue_run ..)]
  rfl

/-- A turn of W whose burst fails. -/
theorem agrun_fails {f : State} {n : Nat} {ended : Bool} {x : Exc} (h : AgTurn o s c e) (hst : laneStream s = 5)
    (hlane : laneStream f = 5)
    (hbody : agrunBody o (laneStream s) c e (agBegun o s c e) = (failBurst c o.q n ended e x : M Bool) f) :
    ∃ t, exec (.agrun o) s = .next t ∧ AgRaises f t c e x ∧ OtherQueues f t c o.q ∧
      queueOf t c o.q = (if ended then (queueOf f c o.q).discard n else ((queueOf f c o.q).discard n).skipTail) ∧
      AgGoesOn f t c e { e.prog with pos := 0, count := e.prog.count + 1, bytes := [] } := by
  have hlanes : laneStream f = laneStream s := hlane.trans hst.symm
  have hu := ((AgActed.refl f c 5).setQueue o.q
    (if ended then (queueOf f c o.q).discard n else ((queueOf f c o.q).discard n).skipTail)).setProg e.name
    { e.prog with pos := 0, count := e.prog.count + 1, bytes := [] }
  rw [← hst] at hu
  obtain ⟨t, hexec, hraise, hshows⟩ := runAg_keeps (exec_agrun o s) h
    (hbody.trans ((failBurst_run ..).trans (by rw [hst]))) hlanes hu
  obtain ⟨hother, hq⟩ := hshows.put (b := f) rfl
  exact ⟨t, hexec, hraise, hother, hq, hshows.goesOn hlanes⟩

/-- A turn of W that sets its progress, in a state f, and goes on. -/
theorem agrun_progresses {f : State} {p : Progress} (h : AgTurn o s c e) (hst : laneStream s = 5) (hlane : laneStream f = 5)
    (hbody : agrunBody o (laneStream s) c e (agBegun o s c e) = (do setAg c 5 e.name p; return false : M Bool) f) :
    ∃ t, exec (.agrun o) s = .next t ∧ AgLeaves f t c ∧ SameSlots f t c ∧ (t.crew c).queues = (f.crew c).queues ∧
      AgGoesOn f t c e p := by
  have hu := (AgActed.refl f c 5).setProg e.name p
  rw [← hst] at hu
  obtain ⟨t, hexec, hleaves, hshows⟩ := runAg_goesOn (exec_agrun o s) h (hbody.trans (by rw [hst]; rfl)) hu
  exact ⟨t, hexec, hleaves, hshows.sameSlots ⟨rfl, rfl, rfl⟩, hshows.queues, hshows.goesOn (hlane.trans hst.symm)⟩

/-- A turn of W that sets its progress, in a state f, and completes. -/
theorem agrun_completes {f : State} {p : Progress} (h : AgTurn o s c e) (hst : laneStream s = 5) (hlane : laneStream f = 5)
    (hbody : agrunBody o (laneStream s) c e (agBegun o s c e) = (do setAg c 5 e.name p; return true : M Bool) f)
    (hret : AgRetires o f c e) :
    ∃ t, exec (.agrun o) s = .next t ∧ AgLeaves f t c ∧ SameSlots f t c ∧ (t.crew c).queues = (f.crew c).queues ∧
      AgGone f t c e := by
  have hu := (AgActed.refl f c 5).setProg e.name p
  rw [← hst] at hu
  have hlanes := hlane.trans hst.symm
  obtain ⟨t, hexec, hleaves, hshows⟩ := runAg_ends (exec_agrun o s) h (hbody.trans (by rw [hst]; rfl)) hlanes hu hret
  exact ⟨t, hexec, hleaves, hshows.sameSlots ⟨rfl, rfl, rfl⟩, hshows.queues, hshows.gone hlanes (filter_withProg ..)⟩

/-- A turn that has nothing left to do completes with nothing changed. -/
theorem agrun_done {f : State} (h : AgTurn o s c e) (hlane : laneStream f = laneStream s)
    (hbody : agrunBody o (laneStream s) c e (agBegun o s c e) = .ok true f) (hret : AgRetires o f c e) :
    ∃ t, exec (.agrun o) s = .next t ∧ AgLeaves f t c ∧ SameSlots f t c ∧ AgGone f t c e ∧
      (t.crew c).queues = (f.crew c).queues := by
  obtain ⟨t, hexec, hleaves, hshows⟩ := runAg_ends (exec_agrun o s) h hbody hlane (AgActed.refl f c (laneStream s)) hret
  exact ⟨t, hexec, hleaves, hshows.sameSlots ⟨rfl, rfl, rfl⟩, hshows.gone hlane rfl, hshows.queues⟩

/-- What W does with an entry that it has popped for a group, on a queue of width w. -/
def storeEntry (o : LWFmt) (c : Nat) (e : Entry) (a : AgDesc) (d : Desc) (w : Nat) (x : QEntry) : M Bool := do
  let p := e.prog
  let n := p.pos + 1
  let want := 1280 / entryBytes w
  if x.p then failBurst c o.q n x.t e (poisonExc o.q)
  let bs := p.bytes ++ x.data
  if !x.t then
    if n < want then
      setAg c 5 e.name { p with pos := n, bytes := bs }
      return false
    else failBurst c o.q n false e (boundsExc a.tid)
  else
    let cs := burstCoords bs
    if n ≠ want ∨ !headerOk bs ∨ burstTid bs ≠ a.tid ∨ burstSc bs ≠ (d.efmt == 13) ∨ !a.box.contains cs then
      failBurst c o.q n true e (boundsExc a.tid)
    match ← writeTile (.half c) (crewPins c) d cs (burstBody bs) (burstScales bs) with
    | .error _ => failBurst c o.q n true e { cause := 9, addr := BitVec.ofNat 64 (d.tile cs) }
    | .ok _ =>
      setAg c 5 e.name { p with pos := 0, count := p.count + 1, bytes := [] }
      return p.count + 1 = a.box.count

/-- A burst is one that the header of the slot's box asks for (R138, R326). -/
def burstFits (a : AgDesc) (d : Desc) (n want : Nat) (bs : List Byte) : Prop :=
  n = want ∧ headerOk bs = true ∧ burstTid bs = a.tid ∧ burstSc bs = (d.efmt == 13) ∧ a.box.contains (burstCoords bs) = true

theorem not_burstFits_iff {n want : Nat} {bs : List Byte} : ¬burstFits a d n want bs ↔
    n ≠ want ∨ (!headerOk bs) = true ∨ burstTid bs ≠ a.tid ∨ burstSc bs ≠ (d.efmt == 13) ∨
      (!a.box.contains (burstCoords bs)) = true := by
  unfold burstFits
  simp only [not_and_or, Bool.not_eq_true', Bool.not_eq_true, ne_eq]

section
variable (hw : (queueOf b1 c o.q).width ≠ 0)
  (hok : queueRefuses (queueOf b1 c o.q) 5 (queueOf b1 c o.q).width false = none)
  (hdesc : agDesc c a.tid true b1 = .ok d b)
include hw hok hdesc

theorem storeTiles_done (hcount : a.box.count ≤ e.prog.count) : storeTiles o c e a b1 = .ok true b := by
  unfold storeTiles
  rw [m_bind_ok (tileWidth_run hw hok), m_bind_ok hdesc]
  exact m_if_pos hcount

theorem storeTiles_pops {x : QEntry} {rest : List QEntry} (hcount : e.prog.count < a.box.count)
    (hq : queueOf b c o.q = queueOf b1 c o.q) (he : (queueOf b1 c o.q).entries = x :: rest) :
    storeTiles o c e a b1 = storeEntry o c e a d (queueOf b1 c o.q).width x
      (withQueue b c o.q ((queueOf b1 c o.q).popped x rest)) := by
  have hpop := popQueue_run (b := b) (c := c) (q := o.q) (hq ▸ hok) (hq ▸ he)
  rw [hq] at hpop
  unfold storeTiles
  rw [m_bind_ok (tileWidth_run hw hok), m_bind_ok hdesc]
  exact (m_if_neg (Nat.not_le.2 hcount)).trans (m_bind_ok hpop)

end

section
variable {w : Nat} {x : QEntry} {f : State}

theorem storeEntry_poisoned (hp : x.p = true) :
    storeEntry o c e a d w x f = (failBurst c o.q (e.prog.pos + 1) x.t e (poisonExc o.q) : M Bool) f :=
  (m_if_pos hp).trans ((m_bind_err (failBurst_run ..)).trans (failBurst_run ..).symm)

variable (hp : x.p = false)
include hp

theorem storeEntry_takes (ht : x.t = false) (hn : e.prog.pos + 1 < 1280 / entryBytes w) :
    storeEntry o c e a d w x f =
      (do setAg c 5 e.name { e.prog with pos := e.prog.pos + 1, bytes := e.prog.bytes ++ x.data }; return false : M Bool) f :=
  (m_if_neg (ne_true_of_eq_false hp)).trans ((m_if_pos (by simp [ht])).trans (m_if_pos hn))

theorem storeEntry_long (ht : x.t = false) (hn : 1280 / entryBytes w ≤ e.prog.pos + 1) :
    storeEntry o c e a d w x f = (failBurst c o.q (e.prog.pos + 1) false e (boundsExc a.tid) : M Bool) f :=
  (m_if_neg (ne_true_of_eq_false hp)).trans ((m_if_pos (by simp [ht])).trans (m_if_neg (Nat.not_lt.2 hn)))

variable (ht : x.t = true)
include ht

theorem storeEntry_misfit (hfits : ¬burstFits a d (e.prog.pos + 1) (1280 / entryBytes w) (e.prog.bytes ++ x.data)) :
    storeEntry o c e a d w x f = (failBurst c o.q (e.prog.pos + 1) true e (boundsExc a.tid) : M Bool) f :=
  (m_if_neg (ne_true_of_eq_false hp)).trans ((m_if_neg (by simp [ht])).trans
    ((m_if_pos (not_burstFits_iff.1 hfits)).trans ((m_bind_err (failBurst_run ..)).trans (failBurst_run ..).symm)))

variable {f2 : State} (hfits : burstFits a d (e.prog.pos + 1) (1280 / entryBytes w) (e.prog.bytes ++ x.data))
include hfits

theorem storeEntry_writes
    (hwrite : writeTile (.half c) (crewPins c) d (burstCoords (e.prog.bytes ++ x.data)) (burstBody (e.prog.bytes ++ x.data))
      (burstScales (e.prog.bytes ++ x.data)) f = .ok (.ok ()) f2) :
    storeEntry o c e a d w x f = (do
      setAg c 5 e.name { e.prog with pos := 0, count := e.prog.count + 1, bytes := [] }
      return e.prog.count + 1 = a.box.count : M Bool) f2 :=
  (m_if_neg (ne_true_of_eq_false hp)).trans ((m_if_neg (by simp [ht])).trans
    ((m_if_neg fun hno => not_burstFits_iff.2 hno hfits).trans (m_bind_ok hwrite)))

theorem storeEntry_refused {why : Bad}
    (hwrite : writeTile (.half c) (crewPins c) d (burstCoords (e.prog.bytes ++ x.data)) (burstBody (e.prog.bytes ++ x.data))
      (burstScales (e.prog.bytes ++ x.data)) f = .ok (.error why) f2) :
    storeEntry o c e a d w x f = (failBurst c o.q (e.prog.pos + 1) true e
      { cause := 9, addr := BitVec.ofNat 64 (d.tile (burstCoords (e.prog.bytes ++ x.data))) } : M Bool) f2 :=
  (m_if_neg (ne_true_of_eq_false hp)).trans ((m_if_neg (by simp [ht])).trans
    ((m_if_neg fun hno => not_burstFits_iff.2 hno hfits).trans (m_bind_ok hwrite)))

end

theorem writesTile (o : LWFmt) : WritesTile o := by
  intro s b1 b c e a d h v p n want next hst hk hv hw hok hdesc hlane
  have hw1 : (queueOf b1 c o.q).width ≠ 0 := hv ▸ hw
  have hok1 : queueRefuses (queueOf b1 c o.q) 5 (queueOf b1 c o.q).width false = none := hv ▸ hok
  refine ⟨fun hcount hret => ?_, ?_⟩
  · exact agrun_done h.turn (hlane.trans hst.symm) ((h.storeTiles hst hk).trans (storeTiles_done hw1 hok1 hdesc hcount)) hret
  · intro x rest hcount he b' bs cs fits fails
    have hpops : agrunBody o (laneStream s) c e (agBegun o s c e) = storeEntry o c e a d v.width x b' := by
      have := storeTiles_pops hw1 hok1 hdesc hcount hv.symm (hv ▸ he)
      rw [hv] at this
      exact (h.storeTiles hst hk).trans this
    have hqb : queueOf b' c o.q = v.popped x rest := queueOf_withQueue ..
    have hlane' : laneStream b' = 5 := hlane
    have hfail {f : State} {ended : Bool} {exc : Exc} (hx : x.t = ended) (hf : laneStream f = 5)
        (hqf : queueOf f c o.q = v.popped x rest)
        (hbody : storeEntry o c e a d v.width x b' = (failBurst c o.q n ended e exc : M Bool) f) :
        ∃ t, exec (.agrun o) s = .next t ∧ fails f t exc := by
      obtain ⟨t, hexec, hraise, hother, hq, hgoes⟩ := agrun_fails h.turn hst hf (hpops.trans hbody)
      rw [hqf, ← hx] at hq
      exact ⟨t, hexec, hraise, hother, hq, hgoes⟩
    refine ⟨fun hp => hfail rfl hlane' hqb (storeEntry_poisoned hp), fun hp ht hn => ?_, fun hp hbad => ?_,
      fun b2 hp ht hfits hwrite hlane2 => ⟨fun hmore => ?_, fun hlast hret => ?_⟩,
      fun b2 why hp ht hfits hwrite hlane2 hq2 => hfail ht hlane2 hq2 (storeEntry_refused hp ht hfits hwrite)⟩
    · exact agrun_progresses h.turn hst hlane' (hpops.trans (storeEntry_takes hp ht hn))
    · cases ht : x.t with
      | false =>
        rw [ht] at hbad
        exact hfail ht hlane' hqb (storeEntry_long hp ht hbad)
      | true =>
        rw [ht] at hbad
        exact hfail ht hlane' hqb (storeEntry_misfit hp ht hbad)
    · refine agrun_progresses h.turn hst hlane2 (hpops.trans ((storeEntry_writes hp ht hfits hwrite).trans ?_))
      rw [decide_eq_false hmore]
    · refine agrun_completes (p := next) h.turn hst hlane2 (hpops.trans ((storeEntry_writes hp ht hfits hwrite).trans ?_)) hret
      rw [decide_eq_true hlast]

end

end Sys2Proof.Machine
end


section
namespace Sys2Proof.Machine

/-! #### Groups dropped (R326) -/

section
variable {o : LWFmt} {s b : State} {c : Nat} {e : Entry} {a : AgDesc}

theorem dropGroups_run {x : QEntry} {rest : List QEntry} (hcount : e.prog.count < a.count)
    (hok : queueRefuses (queueOf b c o.q) 5 (queueOf b c o.q).width false = none)
    (he : (queueOf b c o.q).entries = x :: rest) (hp : x.p = false) :
    let n := e.prog.count + (if x.t then 1 else 0)
    dropGroups o c e a b = .ok (decide (n = a.count))
      (updEntry c 5 e.name (fun y => { y with prog := { e.prog with count := n } })
        (withQueue (withQueue b c o.q ((queueOf b c o.q).popped x rest)) c o.q
          (((queueOf b c o.q).popped x rest).discard 1))) := by
  intro n
  unfold dropGroups
  rw [m_bind_ok (getQueue_run ..)]
  refine (m_if_neg (Nat.not_le.2 hcount)).trans ((m_bind_ok (popQueue_run hok he)).trans ((m_bind_ok (getQueue_run ..)).trans
    ((m_bind_ok (setQueue_run ..)).trans ((m_bind_ok (setAg_run ..)).trans ((m_if_neg (ne_true_of_eq_false hp)).trans ?_)))))
  rw [queueOf_withQueue]
  rfl

theorem agrun_drops {x : QEntry} {rest : List QEntry} (h : Runs o s b c e a) (hst : laneStream s = 5) (hk : 2 ≤ a.kind)
    (hcount : e.prog.count < a.count) (hok : queueRefuses (queueOf b c o.q) 5 (queueOf b c o.q).width false = none)
    (he : (queueOf b c o.q).entries = x :: rest) (hp : x.p = false) :
    let n := e.prog.count + (if x.t then 1 else 0)
    let dropped (t : State) : Prop := AgLeaves b t c ∧ SameSlots b t c ∧ OtherQueues b t c o.q ∧
      queueOf t c o.q = ((queueOf b c o.q).popped x rest).discard 1
    (n ≠ a.count → ∃ t, exec (.agrun o) s = .next t ∧ dropped t ∧ AgGoesOn b t c e { e.prog with count := n }) ∧
    (n = a.count → AgRetires o b c e → ∃ t, exec (.agrun o) s = .next t ∧ dropped t ∧ AgGone b t c e) := by
  intro n dropped
  have hbody := (h.dropGroups hk).trans (dropGroups_run hcount hok he hp)
  have hu := (((AgActed.refl b c 5).setQueue o.q ((queueOf b c o.q).popped x rest)).setQueue o.q
    (((queueOf b c o.q).popped x rest).discard 1)).setProg e.name { e.prog with count := n }
  rw [← hst] at hu hbody
  refine ⟨fun hmore => ?_, fun hlast hret => ?_⟩
  · obtain ⟨t, hexec, hleaves, hshows⟩ := runAg_goesOn (exec_agrun o s) h.turn (hbody.trans (by rw [decide_eq_false hmore])) hu
    obtain ⟨hother, hq⟩ := hshows.putTwice (b := b) rfl
    exact ⟨t, hexec, ⟨hleaves, hshows.sameSlots ⟨rfl, rfl, rfl⟩, hother, hq⟩, hshows.goesOn h.lane⟩
  · obtain ⟨t, hexec, hleaves, hshows⟩ := runAg_ends (exec_agrun o s) h.turn (hbody.trans (by rw [decide_eq_true hlast]))
      h.lane hu hret
    obtain ⟨hother, hq⟩ := hshows.putTwice (b := b) rfl
    exact ⟨t, hexec, ⟨hleaves, hshows.sameSlots ⟨rfl, rfl, rfl⟩, hother, hq⟩, hshows.gone h.lane (filter_withProg ..)⟩

end

/-! #### Bytes of a bank (R98) -/

/-- Cells laid over a table: those of the bytes where they stand, and the table's elsewhere. -/
theorem find?_insertAll_cells (t : Tbl Byte) (pa n : Nat) (bs : List Byte) (y : Nat) :
    (insertAll t ((bs.zipIdx n).map fun (b, i) => (pa + i, b))).find? y =
      if pa + n ≤ y ∧ y < pa + n + bs.length then bs[y - (pa + n)]? else t.find? y := by
  induction bs generalizing t n with
  | nil => rw [if_neg (by simp)]; rfl
  | cons v bs ih =>
    simp only [List.zipIdx_cons, List.map_cons, insertAll]
    rw [ih, List.length_cons]
    by_cases hy : y = pa + n
    · subst hy
      rw [if_neg (by omega), if_pos (by omega), Tbl.find?_insert_same, Nat.sub_self]
      rfl
    · rw [Tbl.find?_insert_other _ _ hy]
      by_cases hin : pa + (n + 1) ≤ y ∧ y < pa + (n + 1) + bs.length
      · rw [if_pos hin, if_pos (by omega), show y - (pa + n) = (y - (pa + (n + 1))) + 1 by omega, List.getElem?_cons_succ]
      · rw [if_neg hin, if_neg (by omega)]

theorem find?_insertAll_cellsAt (t : Tbl Byte) (pa : Nat) (bs : List Byte) (y : Nat) :
    (insertAll t (cellsAt pa bs)).find? y = if pa ≤ y ∧ y < pa + bs.length then bs[y - pa]? else t.find? y :=
  find?_insertAll_cells t pa 0 bs y

section
variable {k k' : Crew} {base : Nat} {bs : List Byte} (hsp : k'.sp = insertAll k.sp (cellsAt base bs))
  (hfree : ∀ y, bankFree k' y = bankFree k y)
include hsp

theorem bankByte_written {j : Nat} (hj : j < bs.length) : bankByte k' (base + j) = bs.getD j 0 := by
  unfold bankByte
  rw [hsp, find?_insertAll_cellsAt, if_pos (by omega), Nat.add_sub_cancel_left, List.getElem?_eq_getElem hj]
  exact (List.getD_eq_getElem bs 0 hj).symm

include hfree in
theorem bankByte_other {y : Nat} (hy : ∀ j < bs.length, y ≠ base + j) : bankByte k' y = bankByte k y := by
  have hout : ¬(base ≤ y ∧ y < base + bs.length) := fun hin => hy (y - base) (by omega) (by omega)
  unfold bankByte
  rw [hsp, find?_insertAll_cellsAt, if_neg hout, hfree]

end

/-! #### Entries moved into and out of a bank (R98, R100, R326) -/

section
variable {o : LWFmt} {s b : State} {c : Nat} {e : Entry} {a : AgDesc} {ep : Nat} {push : Bool}

theorem bankEntries_ok (hok : queueRefuses (queueOf b c o.q) ep (queueOf b c o.q).width push = none)
    (hlen : a.length % entryBytes (queueOf b c o.q).width = 0) :
    bankEntries c o.q ep push a b = .ok ((queueOf b c o.q).width, a.length / entryBytes (queueOf b c o.q).width) b := by
  unfold bankEntries
  rw [m_bind_ok (getQueue_run ..), m_bind_ok (checkQueue_ok hok)]
  exact m_if_neg (not_not.2 hlen)

theorem bankEntries_raises (hok : queueRefuses (queueOf b c o.q) ep (queueOf b c o.q).width push = none)
    (hlen : a.length % entryBytes (queueOf b c o.q).width ≠ 0) :
    bankEntries c o.q ep push a b = .error (.trap { cause := 7 }) b := by
  unfold bankEntries
  rw [m_bind_ok (getQueue_run ..), m_bind_ok (checkQueue_ok hok)]
  exact m_if_pos hlen

/-- What a BANK slot's turn does, whichever way entries go. -/
def moveBank (o : LWFmt) (st c : Nat) (e : Entry) (a : AgDesc) : M Bool :=
  if st = 4 then loadBank o c e a else storeBank o c e a

theorem Runs.moveBank (h : Runs o s b c e a) (hk : a.kind = 1) :
    agrunBody o (laneStream s) c e (agBegun o s c e) = Machine.moveBank o (laneStream s) c e a b := by
  rw [h.body, h.begun]
  exact (m_if_neg (by omega)).trans (m_if_pos hk)

section
variable {st : Nat} (hst : st = 4 ∨ st = 5)
  (hok : queueRefuses (queueOf b c o.q) st (queueOf b c o.q).width (st == 4) = none)
include hst hok

theorem moveBank_raises (hlen : a.length % entryBytes (queueOf b c o.q).width ≠ 0) :
    moveBank o st c e a b = .error (.trap { cause := 7 }) b := by
  obtain rfl | rfl := hst
  · exact m_bind_err (bankEntries_raises hok hlen)
  · exact m_bind_err (bankEntries_raises hok hlen)

variable (hlen : a.length % entryBytes (queueOf b c o.q).width = 0)
include hlen

theorem moveBank_done (hi : a.length / entryBytes (queueOf b c o.q).width ≤ e.prog.count) :
    moveBank o st c e a b = .ok true b := by
  obtain rfl | rfl := hst
  · exact (m_bind_ok (bankEntries_ok hok hlen)).trans (m_if_pos hi)
  · exact (m_bind_ok (bankEntries_ok hok hlen)).trans (m_if_pos hi)

theorem moveBank_waits (hi : e.prog.count < a.length / entryBytes (queueOf b c o.q).width)
    (hheld : (b.crew c).banks.getD a.bank 0 ≠ 0) : moveBank o st c e a b = .error .stall b := by
  obtain rfl | rfl := hst
  · exact (m_bind_ok (bankEntries_ok hok hlen)).trans ((m_if_neg (Nat.not_le.2 hi)).trans (m_bind_err (awaitBank_waits hheld)))
  · exact (m_bind_ok (bankEntries_ok hok hlen)).trans ((m_if_neg (Nat.not_le.2 hi)).trans (m_bind_err (awaitBank_waits hheld)))

end

end

end Sys2Proof.Machine
end


section
namespace Sys2Proof.Machine

section
variable {o : LWFmt} {s b b' u : State} {c : Nat} {e : Entry} {a : AgDesc}

/-- An entry read from a bank, of a bank with nothing lost. -/
theorem loadBank_pushes (hok : queueRefuses (queueOf b c o.q) 4 (queueOf b c o.q).width true = none)
    (hlen : a.length % entryBytes (queueOf b c o.q).width = 0)
    (hi : e.prog.count < a.length / entryBytes (queueOf b c o.q).width) (hfree : (b.crew c).banks.getD a.bank 0 = 0)
    (hgood : (b.crew c).spBad = []) (hroom : agRoom b c o.q 4 (queueOf b c o.q).width) :
    let n := entryBytes (queueOf b c o.q).width
    let m := a.length / n
    let i := e.prog.count
    loadBank o c e a b = .ok (decide (i + 1 = m)) (updEntry c 4 e.name (fun y => { y with prog := { e.prog with count := i + 1 } })
      (withQueue b c o.q (withEntry (queueOf b c o.q) {
        data := (List.range n).map fun j => bankByte (b.crew c) (a.bank * 524288 + a.offset + n * i + j)
        h := decide (i = 0), t := decide (i + 1 = m) }))) := by
  intro n m i
  have hlost (off k : Nat) : bankLost (b.crew c) a.bank off k = false := by
    unfold bankLost
    rw [hgood]
    rfl
  have hread : bankRead (b.crew c) a.bank (a.offset + n * i) n =
      (List.range n).map fun j => bankByte (b.crew c) (a.bank * 524288 + a.offset + n * i + j) := by
    unfold bankRead
    simp only [Nat.add_assoc]
  unfold loadBank
  refine (m_bind_ok (bankEntries_ok hok hlen)).trans ((m_if_neg (Nat.not_le.2 hi)).trans
    ((m_bind_ok (awaitBank_free hfree)).trans ((m_bind_ok (m_get b)).trans ?_)))
  dsimp only
  rw [hlost, hlost, Bool.and_false, hread]
  exact (m_if_neg Bool.false_ne_true).trans ((m_bind_ok rfl).trans ((m_bind_ok (pushQueue_run hroom)).trans
    (m_if_neg Bool.false_ne_true)))

/-- The state in which the next entry of W's queue has been popped and stored in the bank. -/
def banked (b : State) (c q : Nat) (a : AgDesc) (off : Nat) (x : QEntry) (rest : List QEntry) : State :=
  let f := withQueue b c q ((queueOf b c q).popped x rest)
  f.setCrew c (bankWrite (f.crew c) a.bank off x.data)

theorem banked_crew (b : State) (c q : Nat) (a : AgDesc) (off : Nat) (x : QEntry) (rest : List QEntry) :
    (banked b c q a off x rest).crew c = bankWrite
      { b.crew c with queues := (b.crew c).queues.put q ((queueOf b c q).popped x rest) {} } a.bank off x.data := by
  unfold banked withQueue
  rw [State.crew_setCrew, State.crew_setCrew]

/-- The bytes of the entry stand in the bank, and the others are as they were. -/
theorem banked_bytes {t : State} {q off : Nat} {x : QEntry} {rest : List QEntry} {st : Nat} {L : List Entry}
    (hleaves : AgLeaves (banked b c q a off x rest) t c)
    (hshows : AgShows t c st ((banked b c q a off x rest).crew c) L) :
    (∀ j < x.data.length, bankByte (t.crew c) (a.bank * 524288 + off + j) = x.data.getD j 0) ∧
    (∀ y, (∀ j < x.data.length, y ≠ a.bank * 524288 + off + j) → bankByte (t.crew c) y = bankByte (b.crew c) y) := by
  have hcrew := banked_crew b c q a off x rest
  have hsp : (t.crew c).sp = insertAll (b.crew c).sp (cellsAt (a.bank * 524288 + off) x.data) :=
    hshows.sp.trans ((congrArg Crew.sp hcrew).trans rfl)
  have hfree (y : Nat) : bankFree (t.crew c) y = bankFree (b.crew c) y :=
    (congrArg (bankFree · y) hleaves.kept :).trans ((congrArg (bankFree · y) hcrew).trans rfl)
  exact ⟨fun j hj => bankByte_written hsp hj, fun y hy => bankByte_other hsp hfree hy⟩

theorem OnlyCrew.rebase {k k' : Crew} (h : OnlyCrew b u c k) (h' : OnlyCrew b b' c k') : OnlyCrew b' u c k where
  rest := (congrArg (fun x : State => { x with crews := b'.crews }) (h.rest.trans h'.rest.symm) :)
  others x hx := (h.others x hx).trans (h'.others x hx).symm
  crew := h.crew

section
variable {x : QEntry} {rest : List QEntry} (hok : queueRefuses (queueOf b c o.q) 5 (queueOf b c o.q).width false = none)
  (hlen : a.length % entryBytes (queueOf b c o.q).width = 0)
  (hi : e.prog.count < a.length / entryBytes (queueOf b c o.q).width) (hfree : (b.crew c).banks.getD a.bank 0 = 0)
  (he : (queueOf b c o.q).entries = x :: rest)
include hok hlen hi hfree he

/-- An entry stored in a bank. -/
theorem storeBank_stores (hp : x.p = false) :
    let n := entryBytes (queueOf b c o.q).width
    let i := e.prog.count
    ∃ u, storeBank o c e a b = .ok (decide (i + 1 = a.length / n)) u ∧
      AgActed (banked b c o.q a (a.offset + n * i) x rest) u c 5 ((banked b c o.q a (a.offset + n * i) x rest).crew c)
        ((streamQueue ((banked b c o.q a (a.offset + n * i) x rest).crew c) 5).map
          (withProg e.name { e.prog with count := i + 1 })) := by
  intro n i
  have hpopped := ((AgActed.refl b c 5).setQueue o.q ((queueOf b c o.q).popped x rest)).setProg e.name
    { e.prog with count := i + 1 }
  have hstored := hpopped.only.setCrew (bankWrite ((updEntry c 5 e.name (fun y => { y with prog := { e.prog with count := i + 1 } })
    (withQueue b c o.q ((queueOf b c o.q).popped x rest))).crew c) a.bank (a.offset + n * i) x.data)
  have hbase := (((AgActed.refl b c 5).setQueue o.q ((queueOf b c o.q).popped x rest)).only.setCrew
    (bankWrite ((withQueue b c o.q ((queueOf b c o.q).popped x rest)).crew c) a.bank (a.offset + n * i) x.data))
  refine ⟨_, ?_, (OnlyCrew.rebase hstored hbase).of_eq ?_, rfl⟩
  · unfold storeBank
    refine (m_bind_ok (bankEntries_ok hok hlen)).trans ((m_if_neg (Nat.not_le.2 hi)).trans
      ((m_bind_ok (awaitBank_free hfree)).trans ((m_bind_ok (popQueue_run hok he)).trans ((m_bind_ok (setAg_run ..)).trans
        ((m_if_neg (ne_true_of_eq_false hp)).trans rfl)))))
  · rw [hpopped.only.crew, banked_crew]
    rfl

/-- A poisoned entry is discarded, and the bank stays as it was. -/
theorem storeBank_poisoned (hp : x.p = true) :
    storeBank o c e a b = .error (.trapKeep (poisonExc o.q)) (withQueue
      (updEntry c 5 e.name (fun y => { y with prog := { e.prog with count := e.prog.count + 1 } })
        (withQueue b c o.q ((queueOf b c o.q).popped x rest))) c o.q (((queueOf b c o.q).popped x rest).discard 1)) := by
  have hpopped := ((AgActed.refl b c 5).setQueue o.q ((queueOf b c o.q).popped x rest)).setProg e.name
    { e.prog with count := e.prog.count + 1 }
  have hq := (hpopped.queue o.q).trans (Tbl.getD_put_same ..)
  unfold storeBank
  refine (m_bind_ok (bankEntries_ok hok hlen)).trans ((m_if_neg (Nat.not_le.2 hi)).trans
    ((m_bind_ok (awaitBank_free hfree)).trans ((m_bind_ok (popQueue_run hok he)).trans ((m_bind_ok (setAg_run ..)).trans
      ((m_if_pos hp).trans ((m_bind_ok (getQueue_run ..)).trans ?_))))))
  rw [hq]
  rfl

end

theorem movesBank (o : LWFmt) : MovesBank o := by
  intro s b c e a h hk st v n m i base hok
  have hst : st = 4 ∨ st = 5 := laneStream_cases s
  have hbody : agrunBody o (laneStream s) c e (agBegun o s c e) = moveBank o st c e a b := h.moveBank hk
  refine ⟨fun hlen => ?_, fun hlen hi hret => ?_, fun hlen hi hheld => ?_, fun hlen hi hfree => ⟨fun h4 hgood hroom => ?_, ?_, ?_⟩⟩
  · refine runAg_raises (exec_agrun o s) h.turn (hbody.trans ?_)
    rw [moveBank_raises hst hok hlen, h.begun]
  · exact agrun_done h.turn h.lane (hbody.trans (moveBank_done hst hok hlen hi)) hret
  · exact runAg_waits (exec_agrun o s) h.turn (hbody.trans (moveBank_waits hst hok hlen hi hheld))
  · intro pushed
    have hst4 : laneStream s = 4 := h4
    rw [show (st == 4) = true by rw [h4]; rfl, h4] at hok
    have hbody := (h.loadBank hst4 hk).trans (loadBank_pushes hok hlen hi hfree hgood hroom)
    have hu := acted_pushed b c 4 o.q { data := (List.range n).map fun j => bankByte (b.crew c) (base + j), h := decide (i = 0)
                                        t := decide (i + 1 = m) } e.name { e.prog with count := i + 1 }
    rw [← hst4] at hu hbody
    refine ⟨fun hmore => ?_, fun hlast hret => ?_⟩
    · obtain ⟨t, hexec, hleaves, hshows⟩ := runAg_goesOn (exec_agrun o s) h.turn (hbody.trans (by rw [decide_eq_false hmore]))
        hu
      obtain ⟨hother, hq⟩ := hshows.put (b := b) rfl
      exact ⟨t, hexec, ⟨hleaves, hshows.sameSlots ⟨rfl, rfl, rfl⟩, hother, hq⟩, hshows.goesOn h.lane⟩
    · obtain ⟨t, hexec, hleaves, hshows⟩ := runAg_ends (exec_agrun o s) h.turn (hbody.trans (by rw [decide_eq_true hlast]))
        h.lane hu hret
      obtain ⟨hother, hq⟩ := hshows.put (b := b) rfl
      exact ⟨t, hexec, ⟨hleaves, hshows.sameSlots ⟨rfl, rfl, rfl⟩, hother, hq⟩, hshows.gone h.lane (filter_withProg ..)⟩
  · intro x rest h5 he hp b' stored
    have hst5 : laneStream s = 5 := h5
    rw [show (st == 4) = false by rw [h5]; rfl, h5] at hok
    obtain ⟨u, hrun, hu⟩ := storeBank_stores hok hlen hi hfree he hp
    have hbody := (h.storeBank hst5 hk).trans hrun
    have hlane : laneStream b' = laneStream s := h.lane
    have hstored {t : State} {L : List Entry} (hleaves : AgLeaves b' t c) (hshows : AgShows t c (laneStream s) (b'.crew c) L) :
        stored t := by
      have hbytes := banked_bytes hleaves hshows
      rw [← Nat.add_assoc] at hbytes
      exact ⟨hleaves, hshows.sameSlots ⟨rfl, rfl, rfl⟩, hshows.queues, hbytes⟩
    rw [← hst5] at hu
    refine ⟨fun hmore => ?_, fun hlast hret => ?_⟩
    · obtain ⟨t, hexec, hleaves, hshows⟩ := runAg_goesOn (exec_agrun o s) h.turn
        (hbody.trans (by rw [decide_eq_false hmore])) hu
      exact ⟨t, hexec, hstored hleaves hshows, hshows.goesOn hlane⟩
    · obtain ⟨t, hexec, hleaves, hshows⟩ := runAg_ends (exec_agrun o s) h.turn
        (hbody.trans (by rw [decide_eq_true hlast])) hlane hu hret
      exact ⟨t, hexec, hstored hleaves hshows, hshows.gone hlane (filter_withProg ..)⟩
  · intro x rest h5 he hp
    have hst5 : laneStream s = 5 := h5
    rw [show (st == 4) = false by rw [h5]; rfl, h5] at hok
    have hbody := (h.storeBank hst5 hk).trans (storeBank_poisoned hok hlen hi hfree he hp)
    have hu := (((AgActed.refl b c 5).setQueue o.q (v.popped x rest)).setProg e.name
      { e.prog with count := e.prog.count + 1 }).setQueue o.q ((v.popped x rest).discard 1)
    rw [← hst5] at hu hbody
    obtain ⟨t, hexec, hraise, hshows⟩ := runAg_keeps (exec_agrun o s) h.turn hbody h.lane hu
    exact ⟨t, hexec, hraise, hshows.sp, (hshows.putTwice (b := b) rfl).2⟩

end

end Sys2Proof.Machine
end

section
open Sys2Proof.Machine

/-- Settles O40: each instruction of L and W through the turn that runs its body. -/
theorem addressGenerators : Obligations.AddressGenerators := by
  unfold Obligations.AddressGenerators
  refine ⟨fun o s b1 b c e bs _ h ha hread hcheck hlane hret => agdef_keeps ha hread h hcheck hlane hret,
    fun o s b1 b c e bs r _ h ha hread hcheck => agdef_raises ha hread h hcheck,
    fun o => ⟨readsTile o, writesTile o, movesBank o⟩, fun o s c e _ h ha => agdef_misaligned h ha,
    fun o s c e hwf h hroom hret => agput_pushes hwf h hroom hret,
    fun o s c e hwf h hroom hret => agmark_pushes hwf h hroom hret,
    fun o s c e bs _ h hslot hk hext hroom => agidx_pushes h hslot hk hext hroom,
    fun o s c e _ h hslot mk hmk => slot_raises h hslot hmk,
    fun o s b1 b c e bs d hwf h hslot hst hlane => ?bursts, fun o s b1 c e bs x rest hwf h hslot hst hlane => ?drops,
    fun o s b1 b c n e sec hwf h hspad harg hsec hlane hbank hl hw hret =>
      agbank_gives hwf h hspad harg hsec hlane hbank ⟨hl, hw⟩ hret,
    fun o s c e hwf h hspad => ⟨fun hbank hret => agtake_takes hwf h hspad hbank hret, fun hbank => agtake_waits hwf h hspad hbank⟩,
    fun o s c e mk hmk hwf h hspad => bank_raises hmk hwf h hspad⟩
  case bursts =>
    intro a b0 v p hk hedges hq1 hw hroom hdesc hq hbytes
    have hstream : (laneStream s == 5) = false := by rw [hst]; rfl
    have hruns : Runs o s b1 c e a := ⟨hwf, h, ⟨bs, hslot, rfl⟩, by rw [hstream]; exact hedges, by
      rw [awaitEdges_state hedges]; exact agBegun_lane ..⟩
    have hpush := agrun_pushes hruns hst hlane hk (hq1 ▸ hw) (hq1 ▸ hroom) hdesc (hq.trans hq1.symm) hbytes
    rw [hq1] at hpush
    exact hpush
  case drops =>
    intro a b0 v n hk hedges hq hcount hok he hp
    have hstream : (laneStream s == 5) = true := by rw [hst]; rfl
    have hruns : Runs o s b1 c e a := ⟨hwf, h, ⟨bs, hslot, rfl⟩, by rw [hstream]; exact hedges, by
      rw [awaitEdges_state hedges]; exact agBegun_lane ..⟩
    have hdrop := agrun_drops hruns hst hk hcount (hq ▸ hok) (hq ▸ he) hp
    rw [hq] at hdrop
    exact hdrop

end


/-! ### Index commands: the turn of a block command (R175, R297, R314) -/

section
namespace Sys2Proof.Machine

/-- A lane of the index engine performs its block commands by this body. -/
def IndexLane (i : Instr) (body : Eng → Cmd → M Bool) : Prop :=
  ∃ o opc known, ∀ s, exec i s = runBlock o i false opc known body (s := s)

theorem indexLane_gath (o : LaneFmt) : IndexLane (.gath o) gathBody := ⟨o, 0x00, 64, fun _ => rfl⟩
theorem indexLane_scat (o : LaneFmt) : IndexLane (.scat o) scatBody := ⟨o, 0x01, 64, fun _ => rfl⟩
theorem indexLane_bags (o : LaneFmt) : IndexLane (.bags o) bagsBody := ⟨o, 0x02, 64, fun _ => rfl⟩
theorem indexLane_isect (o : LaneFmt) : IndexLane (.isect o) isectBody := ⟨o, 0x03, 64, fun _ => rfl⟩
theorem indexLane_msort (o : LaneFmt) : IndexLane (.msort o) msortBody := ⟨o, 0x04, 64, fun _ => rfl⟩
theorem indexLane_spsrch (o : LaneFmt) : IndexLane (.spsrch o) spsrchBody := ⟨o, 0x05, 32, fun _ => rfl⟩

section
variable {i : Instr} {g : Eng} {s t : State} {c : Cmd} {body : Eng → Cmd → M Bool}

theorem EngTurn.unrevoked (h : EngTurn i g s c) : (s.pins.any fun p => p.owner == .cmd c.id && p.revoked) = false := by
  rw [List.any_eq_false]
  exact fun p hp hr => h.pins p hp (by simpa using hr)

theorem cmdTurn_completes (h : EngTurn i g s c) (hb : body g c s = .ok true t) : cmdTurn g c body s = ends g c 1 t := by
  unfold cmdTurn
  dsimp only
  rw [h.kept, h.running, h.unrevoked, h.blocks, hb]
  rfl

theorem cmdTurn_stops {n : Nat} (h : EngTurn i g s c) (hb : body g c s = .error (.status n) t) :
    cmdTurn g c body s = ends g c n t := by
  unfold cmdTurn
  dsimp only
  rw [h.kept, h.running, h.unrevoked, h.blocks, hb]
  rfl

variable (hi : IndexLane i body) (hg : g.copy = false) (h : BlockTurn i g s c)
include hi hg h

/-- A turn of an index command past its block is one of its body. -/
theorem exec_block : ∃ body', exec i s = .next (cmdTurn g c body' s) ∧ body' g c s = body g c s := by
  obtain ⟨o, opc, known, hrun⟩ := hi
  have hhead := runCommand_atHead (g := g) (o := o) (n := { copy := false, block := true }) (body := blockBody opc known body)
    (more := fun _ _ _ => return []) h.turn.unit hg.symm h.turn.head
  rw [h.turn.instr] at hhead
  exact ⟨blockBody opc known body, (hrun s).trans hhead, blockBody_taken h.taken h.free⟩

theorem block_stops {n : Nat} (hb : body g c s = .error (.status n) t) : exec i s = .next (ends g c n t) := by
  obtain ⟨body', hrun, heq⟩ := exec_block hi hg h
  rw [hrun, cmdTurn_stops h.turn (heq.trans hb)]

theorem block_completes (hb : body g c s = .ok true t) : exec i s = .next (ends g c 1 t) := by
  obtain ⟨body', hrun, heq⟩ := exec_block hi hg h
  rw [hrun, cmdTurn_completes h.turn (heq.trans hb)]

/-- A body that ends by setting its command, and does not complete. -/
theorem block_goesOn {c' : Cmd} (hid : c'.id = c.id) (hb : body g c s = (do setCmd g c'; return false : M Bool) t) :
    exec i s = .next (goesOn g c c' t) := by
  obtain ⟨body', hrun, heq⟩ := exec_block hi hg h
  have hset : (do setCmd g c'; return false : M Bool) t = .ok false (updCmd g.cl g.copy c.id (fun _ => c') t) := by
    rw [← hid]
    rfl
  rw [hrun, cmdTurn_continues h.turn ((heq.trans hb).trans hset)]
  rfl

/-- A body that ends by setting its command, and completes where that was its last unit of work. -/
theorem block_counts {c' : Cmd} {last : Bool} (hid : c'.id = c.id)
    (hb : body g c s = (do setCmd g c'; return last : M Bool) t) : exec i s = .next (counted g c c' last t) := by
  cases last with
  | false => exact block_goesOn hi hg h hid hb
  | true =>
    have hset : (do setCmd g c'; return true : M Bool) t = .ok true (updCmd g.cl g.copy c.id (fun _ => c') t) := by
      rw [← hid]
      rfl
    exact block_completes hi hg h (hb.trans hset)

end

/-! #### Operand checks (R314) -/

section
variable {s t : State} {c : Cmd}

theorem need_ok {n : Nat} {ok : Bool} (h : ok = true) : need n ok s = .ok () s := by
  subst h
  rfl

theorem need_fails {n : Nat} {ok : Bool} (h : ok = false) : need n ok s = .error (.status n) s := by
  subst h
  rfl

theorem reserved_ok {l : List (Nat × Nat)} (h : ∀ e ∈ l, blockZero c e.1 e.2) : reserved c.prog.bytes l s = .ok () s := by
  have hall : (l.all fun e => ((c.prog.bytes.drop e.1).take e.2).all (· == 0)) = true :=
    List.all_eq_true.2 fun e he => h e he
  exact m_if_pos hall

theorem tidField_ok {off : Nat} (h : blockField c off 2 < 4096) : tidField c off s = .ok (blockField c off 2) s :=
  m_if_neg (Nat.not_le.2 h)

theorem queueField_ok {off : Nat} (h : blockField c off 2 < 64) : queueField c off s = .ok (blockField c off 2) s :=
  m_if_neg (Nat.not_le.2 h)

theorem plane_iff {tid : Nat} {d : Desc} : plane tid d = true ↔ tid ≠ 0 ∧ d.nd = 2 := by
  simp [plane]

theorem rowTable_plane {tid : Nat} {d : Desc} (h : rowTable tid d) : plane tid d = true ∧ (d.kind == 0) = true := by
  obtain ⟨hid, hnd, hkind⟩ := h
  exact ⟨plane_iff.2 ⟨hid, hnd⟩, by rw [hkind]; rfl⟩

theorem crewOrFault_ok {k : Nat} (h : c.crew = some k) : c.crewOrFault s = .ok k s := by
  unfold Cmd.crewOrFault
  rw [h]
  rfl

theorem asCommand_ok {α : Type} {m : M α} {a : α} (h : m s = .ok a t) : asCommand m s = .ok a t := by
  unfold asCommand
  rw [h]

/-- A queue that a command can use, by the widths it allows. -/
theorem cmdQueue_ok {k q ep w : Nat} {push : Bool} {widths : List Nat} (hc : c.crew = some k)
    (hw : (if widths.contains (queueOf s k q).width then (queueOf s k q).width else widths.headD 0) = w)
    (hok : queueRefuses (queueOf s k q) ep w push = none) : cmdQueue c q ep push widths s = .ok (queueOf s k q) s := by
  unfold cmdQueue
  rw [m_bind_ok (crewOrFault_ok hc), m_bind_ok (getQueue_run ..), hw]
  exact asCommand_ok (checkQueue_ok hok)

theorem rowQueue_ok {k q : Nat} {push : Bool} (h : RowQueue s c k q push) :
    rowQueue c q push s = .ok (queueOf s k q).width s := by
  obtain ⟨hcrew, -, hwidth, hok⟩ := h
  have hw : (if [1, 2].contains (queueOf s k q).width then (queueOf s k q).width else [1, 2].headD 0) =
      (queueOf s k q).width := if_pos (by obtain h | h := hwidth <;> rw [h] <;> rfl)
  exact m_bind_ok (cmdQueue_ok hcrew hw hok)

end

theorem orf_zero (x : Flags) : orf x 0 = x := Nat.or_zero x

theorem bit_zero (n : Nat) : bit n 0 = (n % 2 == 1) := by simp [bit]

end Sys2Proof.Machine
end


section
namespace Sys2Proof.Machine

/-! #### Rows held for a queue (R314, R316) -/

section
variable {i : Instr} {g : Eng} {s b : State} {c : Cmd} {body : Eng → Cmd → M Bool} {k q n : Nat}

/-- The next entry of a row held for the queue is pushed; the last counts the row. -/
def pushHeld (g : Eng) (c : Cmd) (q width n : Nat) : M Bool := do
  if ← pushRowEntry g c q width then
    setCmd g { c with count := c.count + 1, prog := { c.prog with nums := [], pos := 0 } }
    return c.count + 1 = n
  else return false

/-- The entry at this place of the row that a command holds. -/
def heldEntry (c : Cmd) (w : Nat) : QEntry :=
  { data := ((c.prog.nums.drop (entryBytes w * c.prog.pos)).take (entryBytes w)).map (BitVec.ofNat 8)
    h := decide (c.prog.pos = 0), t := decide (c.prog.pos + 1 = c.prog.nums.length / entryBytes w) }

section
variable {w : Nat} {t : State} (hc : c.crew = some k) (hpush : pushQueue k q 7 w (heldEntry c w) b = .ok () t)
include hc hpush

theorem pushRowEntry_more (hmore : c.prog.pos + 1 ≠ c.prog.nums.length / entryBytes w) :
    pushRowEntry g c q w b = (do setCmd g { c with prog := { c.prog with pos := c.prog.pos + 1 } }; return false : M Bool) t :=
  (m_bind_ok (crewOrFault_ok hc)).trans ((m_bind_ok (asCommand_ok hpush)).trans (m_if_neg hmore))

theorem pushRowEntry_last (hlast : c.prog.pos + 1 = c.prog.nums.length / entryBytes w) :
    pushRowEntry g c q w b = .ok true t :=
  (m_bind_ok (crewOrFault_ok hc)).trans ((m_bind_ok (asCommand_ok hpush)).trans (m_if_pos hlast))

end

/-- A command whose body pushes the next entry of the row it holds. -/
theorem pushesRow (hi : IndexLane i body) (hg : g.copy = false) (h : BlockTurn i g s c) (hc : c.crew = some k)
    (hb : body g c s = pushHeld g c q (queueOf b k q).width n b) : PushesRow i g s b c k q n := by
  intro t hpush
  refine ⟨fun hmore => ?_, fun hlast => ?_⟩
  · refine block_goesOn hi hg h rfl (hb.trans ?_)
    exact (m_bind_ok ((pushRowEntry_more hc hpush hmore).trans rfl)).trans (m_if_neg Bool.false_ne_true)
  · refine block_counts hi hg h rfl (hb.trans ?_)
    exact (m_bind_ok (pushRowEntry_last hc hpush hlast)).trans (m_if_pos rfl)

end

/-! #### GATH (R315, R316) -/

/-- GATH past the checks of its operands. -/
def gathRow (g : Eng) (c : Cmd) (src dst : Desc) (width : Nat) : M Bool := do
  let b := c.prog.bytes
  let opt := bodyField b 0x1C 2
  let n := bodyField b 0x28 4
  let qout := bit opt 1
  let i := c.count
  if n ≤ i then return true
  if !c.prog.nums.isEmpty then
    pushHeld g c (bodyField b 0x1E 2) width n
  else
    let r ← indexAt g c (bodyField b 0x20 8) i
    let oob := src.dim1 ≤ r
    need 5 (!oob || bit opt 0)
    let (es, ss, fl) ← if oob then pure (List.replicate src.dim0 0, List.replicate src.nb 0, 0)
      else if src.kind == 4 then (do
        match ← tableRow g c src r with
        | .error va => eccStop c va
        | .ok (vs, fl) =>
          let rs := vs.map fun v => roundF v .bf16 0 0
          pure (rs.map (·.1), [], orf fl (allFlags rs)))
      else (do
        let (es, ss) ← denseRow g c src r
        pure (es, ss, 0))
    let c := { c with events := c.events + (if oob then 1 else 0), flags := orf c.flags fl }
    if qout then
      holdRow g c (rowBytes (entryBytes width) src.elemBits (src.efmt == 13) es ss)
      return false
    else
      writeRow g c dst (bodyField b 0x2C 4 + i) es ss (dst.grid 0) 0
      setCmd g { c with count := i + 1 }
      return i + 1 = n

/-- What the operands of a GATH to a table must be. -/
structure GathTable (c : Cmd) (src dst : Desc) : Prop where
  zero : blockZero c 0x30 16
  opt : blockField c 0x1C 2 < 2
  named : blockField c 0x18 2 < 4096 ∧ blockField c 0x1A 2 < 4096
  noQueue : blockField c 0x1E 2 = 0
  source : blockField c 0x18 2 ≠ 0 ∧ src.nd = 2 ∧ src.rax = 0
  table : rowTable (blockField c 0x1A 2) dst
  size : dst.dim0 = src.dim0
  format : if src.kind = 4 then dst.efmt = 11 else dst.efmt = src.efmt ∧ dst.nfd = src.nfd ∧ dst.rax = 0
  rows : blockField c 0x2C 4 + blockField c 0x28 4 ≤ dst.dim1

section
variable {g : Eng} {c : Cmd} {src dst : Desc} {s s1 s2 : State}

theorem bit_one_of_lt {n : Nat} (h : n < 2) : bit n 1 = false := by
  interval_cases n <;> rfl

theorem gathBody_table (h : GathTable c src dst) (hs : cmdDesc g c (blockField c 0x18 2) false s = .ok src s1)
    (hd : cmdDesc g c (blockField c 0x1A 2) true s1 = .ok dst s2) : gathBody g c s = gathRow g c src dst 0 s2 := by
  obtain ⟨hz, hopt, ⟨hts, htd⟩, hq, ⟨hid, hnd, hrax⟩, htable, hsize, hformat, hrows⟩ := h
  have hqout : bit (blockField c 0x1C 2) 1 = false := bit_one_of_lt hopt
  obtain ⟨hplane, hkind⟩ := rowTable_plane htable
  have hshape : (plane (blockField c 0x18 2) src && (bit (blockField c 0x1C 2) 1 ||
      (plane (blockField c 0x1A 2) dst && dst.kind == 0 && dst.dim0 == src.dim0))) = true := by
    simp [plane_iff.2 ⟨hid, hnd⟩, hplane, hkind, hsize]
  have hfmt : (bit (blockField c 0x1C 2) 1 ||
      (if src.kind == 4 then dst.efmt == 11 else dst.efmt == src.efmt && dst.nfd == src.nfd && dst.rax == 0)) = true := by
    by_cases hk : src.kind = 4 <;> simp_all
  have hfits : (bit (blockField c 0x1C 2) 1 || decide (blockField c 0x2C 4 + blockField c 0x28 4 ≤ dst.dim1)) = true := by
    rw [decide_eq_true hrows, Bool.or_true]
  have hplace : (if bit (blockField c 0x1C 2) 1 then blockField c 0x1A 2 == 0 && blockField c 0x2C 4 == 0
      else blockField c 0x1E 2 == 0) = true := by
    rw [hqout, hq]
    rfl
  have hnarrow : (!(bit (blockField c 0x1C 2) 1) || !(src.efmt == 13) || decide (2 * src.nb ≤ entryBytes 0)) = true := by
    rw [hqout]
    rfl
  unfold gathBody
  refine (m_bind_ok (reserved_ok (by simpa using hz))).trans ((m_bind_ok (need_ok (decide_eq_true (Nat.lt_of_lt_of_le hopt (by decide))))).trans
    ((m_bind_ok (tidField_ok hts)).trans ((m_bind_ok (tidField_ok htd)).trans
    ((m_bind_ok (queueField_ok (by omega))).trans ((m_bind_ok hs).trans ((m_if_neg (ne_true_of_eq_false hqout)).trans
    ((m_bind_ok hd).trans ((m_bind_ok (need_ok hshape)).trans ((m_bind_ok (need_ok (by simp [hrax]))).trans
    ((m_bind_ok (need_ok hfmt)).trans ((m_bind_ok (need_ok hfits)).trans ((m_if_neg (ne_true_of_eq_false hqout)).trans
    ((m_bind_ok rfl).trans ((m_bind_ok (need_ok hplace)).trans ((m_bind_ok (need_ok hnarrow)).trans rfl)))))))))))))))

/-- What GATH does with a row: it holds it for its queue, or writes it. -/
def gathDeliver (g : Eng) (c : Cmd) (src dst : Desc) (width : Nat) (es ss : List Nat) : M Bool := do
  let b := c.prog.bytes
  if bit (bodyField b 0x1C 2) 1 then
    holdRow g c (rowBytes (entryBytes width) src.elemBits (src.efmt == 13) es ss)
    return false
  else
    writeRow g c dst (bodyField b 0x2C 4 + c.count) es ss (dst.grid 0) 0
    setCmd g { c with count := c.count + 1 }
    return c.count + 1 = bodyField b 0x28 4

section
variable {width : Nat}

theorem gathRow_done (h : blockField c 0x28 4 ≤ c.count) : gathRow g c src dst width s = .ok true s := m_if_pos h

variable (hlt : c.count < blockField c 0x28 4)
include hlt

theorem gathRow_held (hheld : c.prog.nums ≠ []) :
    gathRow g c src dst width s = pushHeld g c (blockField c 0x1E 2) width (blockField c 0x28 4) s :=
  (m_if_neg (Nat.not_le.2 hlt)).trans (m_if_pos (by simpa using hheld))

variable (hempty : c.prog.nums = []) {r : Nat} (hidx : indexAt g c (blockField c 0x20 8) c.count s = .ok r s1)
include hempty hidx

theorem gathRow_refuses (hr : src.dim1 ≤ r) (hz : bit (blockField c 0x1C 2) 0 = false) :
    gathRow g c src dst width s = .error (.status 5) s1 :=
  (m_if_neg (Nat.not_le.2 hlt)).trans ((m_if_neg (by simp [hempty])).trans ((m_bind_ok hidx).trans
    (m_bind_err (need_fails (by
      rw [decide_eq_true hr]
      exact hz)))))

theorem gathRow_zeros (hr : src.dim1 ≤ r) (hz : bit (blockField c 0x1C 2) 0 = true) :
    gathRow g c src dst width s = gathDeliver g { c with events := c.events + 1 } src dst width (List.replicate src.dim0 0)
      (List.replicate src.nb 0) s1 := by
  have hneed : (!(decide (src.dim1 ≤ r)) || bit (blockField c 0x1C 2) 0) = true := by rw [hz, Bool.or_true]
  refine (m_if_neg (Nat.not_le.2 hlt)).trans ((m_if_neg (by simp [hempty])).trans ((m_bind_ok hidx).trans
    ((m_bind_ok (need_ok hneed)).trans ((m_if_pos hr).trans ((m_bind_ok rfl).trans ?_)))))
  dsimp only
  rw [if_pos hr, orf_zero]
  rfl

theorem gathRow_reads {es ss : List Nat} {fl : Flags} (hr : r < src.dim1) (hread : ReadsRow g c src r s1 es ss fl s2) :
    gathRow g c src dst width s = gathDeliver g { c with flags := orf c.flags fl } src dst width es ss s2 := by
  have hin : ¬src.dim1 ≤ r := Nat.not_le.2 hr
  have hneed : (!(decide (src.dim1 ≤ r)) || bit (blockField c 0x1C 2) 0) = true := by rw [decide_eq_false hin]; rfl
  refine (m_if_neg (Nat.not_le.2 hlt)).trans ((m_if_neg (by simp [hempty])).trans ((m_bind_ok hidx).trans
    ((m_bind_ok (need_ok hneed)).trans ((m_if_neg hin).trans ?_))))
  unfold ReadsRow at hread
  by_cases hk : src.kind = 4
  · rw [if_pos hk] at hread
    obtain ⟨vs, f, htable, rfl, rfl, rfl⟩ := hread
    refine (m_if_pos (by simp [hk])).trans ((m_bind_ok (s' := s2) (a := ((vs.map fun v => roundF v .bf16 0 0).map (·.1), [],
      orf f (allFlags (vs.map fun v => roundF v .bf16 0 0)))) ?_).trans ?_)
    · exact m_bind_ok htable
    · dsimp only
      rw [if_neg hin, List.map_map]
      rfl
  · rw [if_neg hk] at hread
    obtain ⟨hdense, rfl⟩ := hread
    refine (m_if_neg (by simp [hk])).trans ((m_bind_ok (s' := s2) (a := (es, ss, 0)) ?_).trans ?_)
    · exact m_bind_ok hdense
    · dsimp only
      rw [if_neg hin]
      rfl

end

theorem gathDeliver_writes {width : Nat} {es ss : List Nat} (hqout : bit (blockField c 0x1C 2) 1 = false)
    (hw : writeRow g c dst (blockField c 0x2C 4 + c.count) es ss (dst.grid 0) 0 s = .ok () s1) :
    gathDeliver g c src dst width es ss s = (do
      setCmd g { c with count := c.count + 1 }
      return decide (c.count + 1 = blockField c 0x28 4) : M Bool) s1 :=
  (m_if_neg (ne_true_of_eq_false hqout)).trans (m_bind_ok hw)

theorem gathDeliver_holds {width : Nat} {es ss : List Nat} (hqout : bit (blockField c 0x1C 2) 1 = true) :
    gathDeliver g c src dst width es ss s = (do
      setCmd g (holdsRow c (rowBytes (entryBytes width) src.elemBits (src.efmt == 13) es ss))
      return false : M Bool) s :=
  m_if_pos hqout

theorem gathers (o : LaneFmt) : Gathers o := by
  intro cl s s1 s2 s3 s4 s5 c src dst r es ss fl g f ts td c' h hz hopt hts htd hq hs hd hid hnd htable hsize hrax hformat hrows
  have hbody : gathBody g c s = gathRow g c src dst 0 s2 :=
    gathBody_table ⟨hz, hopt, ⟨hts, htd⟩, hq, ⟨hid, hnd, hrax⟩, htable, hsize, hformat, hrows⟩ hs hd
  have hqout : bit (blockField c 0x1C 2) 1 = false := bit_one_of_lt hopt
  refine ⟨fun hdone => ?_, fun hlt hempty hidx => ⟨fun hr hread hwrite => ?_, fun hr hz => ?_, fun hr hz hwrite => ?_⟩⟩
  · exact block_completes (indexLane_gath o) rfl h (hbody.trans (gathRow_done hdone))
  · refine block_counts (indexLane_gath o) rfl h rfl (hbody.trans ((gathRow_reads hlt hempty hidx hr hread).trans ?_))
    exact gathDeliver_writes hqout hwrite
  · refine block_stops (indexLane_gath o) rfl h (hbody.trans (gathRow_refuses hlt hempty hidx hr ?_))
    exact (congrArg (bit · 0) hz).trans rfl
  · refine block_counts (indexLane_gath o) rfl h rfl (hbody.trans ((gathRow_zeros hlt hempty hidx hr ?_).trans ?_))
    · exact (congrArg (bit · 0) hz).trans rfl
    · exact gathDeliver_writes hqout hwrite

/-- What the operands of a GATH to a queue must be. -/
structure GathQueue (c : Cmd) (src : Desc) (b : State) (k : Nat) : Prop where
  zero : blockZero c 0x30 16
  opt : blockField c 0x1C 2 = 2 ∨ blockField c 0x1C 2 = 3
  source : blockField c 0x18 2 < 4096 ∧ blockField c 0x18 2 ≠ 0 ∧ src.nd = 2 ∧ src.rax = 0
  noTable : blockField c 0x1A 2 = 0 ∧ blockField c 0x2C 4 = 0
  queue : RowQueue b c k (blockField c 0x1E 2) true
  scales : src.efmt = 13 → 2 * src.nb ≤ entryBytes (queueOf b k (blockField c 0x1E 2)).width

theorem GathQueue.qout {b : State} {k : Nat} (h : GathQueue c src b k) : bit (blockField c 0x1C 2) 1 = true := by
  obtain hopt | hopt := h.opt <;> rw [hopt] <;> rfl

theorem gathBody_queue {b : State} {k : Nat} (h : GathQueue c src b k)
    (hs : cmdDesc g c (blockField c 0x18 2) false s = .ok src b) :
    gathBody g c s = gathRow g c src src (queueOf b k (blockField c 0x1E 2)).width b := by
  have hqout := h.qout
  obtain ⟨hz, hopt, ⟨hts, hid, hnd, hrax⟩, ⟨htd, hdrow⟩, hqueue, hscales⟩ := h
  have hopt4 : blockField c 0x1C 2 < 4 := by omega
  have hshape : (plane (blockField c 0x18 2) src && (bit (blockField c 0x1C 2) 1 ||
      (plane (blockField c 0x1A 2) src && src.kind == 0 && src.dim0 == src.dim0))) = true := by
    rw [hqout, plane_iff.2 ⟨hid, hnd⟩]
    rfl
  have hfmt : (bit (blockField c 0x1C 2) 1 ||
      (if src.kind == 4 then src.efmt == 11 else src.efmt == src.efmt && src.nfd == src.nfd && src.rax == 0)) = true := by
    rw [hqout]
    rfl
  have hfits : (bit (blockField c 0x1C 2) 1 || decide (blockField c 0x2C 4 + blockField c 0x28 4 ≤ src.dim1)) = true := by
    rw [hqout]
    rfl
  have hplace : (if bit (blockField c 0x1C 2) 1 then blockField c 0x1A 2 == 0 && blockField c 0x2C 4 == 0
      else blockField c 0x1E 2 == 0) = true := by
    rw [hqout, htd, hdrow]
    rfl
  have hnarrow : (!(bit (blockField c 0x1C 2) 1) || !(src.efmt == 13) ||
      decide (2 * src.nb ≤ entryBytes (queueOf b k (blockField c 0x1E 2)).width)) = true := by
    by_cases hn : src.efmt = 13
    · rw [decide_eq_true (hscales hn), Bool.or_true]
    · simp [hn]
  unfold gathBody
  exact (m_bind_ok (reserved_ok (by simpa using hz))).trans ((m_bind_ok (need_ok (decide_eq_true hopt4))).trans
    ((m_bind_ok (tidField_ok hts)).trans ((m_bind_ok (tidField_ok (htd ▸ by decide))).trans
    ((m_bind_ok (queueField_ok hqueue.2.1)).trans ((m_bind_ok hs).trans ((m_if_pos hqout).trans
    ((m_bind_ok rfl).trans ((m_bind_ok (need_ok hshape)).trans ((m_bind_ok (need_ok (by simp [hrax]))).trans
    ((m_bind_ok (need_ok hfmt)).trans ((m_bind_ok (need_ok hfits)).trans ((m_if_pos hqout).trans
    ((m_bind_ok (rowQueue_ok hqueue)).trans ((m_bind_ok (need_ok hplace)).trans
    ((m_bind_ok (need_ok hnarrow)).trans rfl)))))))))))))))

theorem gathersToQueue (o : LaneFmt) : GathersToQueue o := by
  intro cl k s b s3 s4 c src r es ss fl g f q n narrow h hz hopt hts hid htd hdrow hs hnd hrax hqueue hscales hlt
  have hops : GathQueue c src b k :=
    ⟨hz, hopt, ⟨hts, hid, hnd, hrax⟩, ⟨htd, hdrow⟩, hqueue, fun hn => hscales (beq_iff_eq.2 hn)⟩
  have hbody : gathBody g c s = gathRow g c src src (queueOf b k q).width b := gathBody_queue hops hs
  refine ⟨fun hheld => ?_, fun hempty hidx => ⟨fun hr hread => ?_, fun hr hz => ?_, fun hr hz => ?_⟩⟩
  · exact pushesRow (indexLane_gath o) rfl h hqueue.1 (hbody.trans (gathRow_held hlt hheld))
  · refine block_goesOn (indexLane_gath o) rfl h rfl (hbody.trans ((gathRow_reads hlt hempty hidx hr hread).trans ?_))
    exact gathDeliver_holds hops.qout
  · refine block_stops (indexLane_gath o) rfl h (hbody.trans (gathRow_refuses hlt hempty hidx hr ?_))
    exact (congrArg (bit · 0) hz).trans rfl
  · refine block_goesOn (indexLane_gath o) rfl h rfl (hbody.trans ((gathRow_zeros hlt hempty hidx hr ?_).trans ?_))
    · exact (congrArg (bit · 0) hz).trans rfl
    · exact gathDeliver_holds hops.qout

end

end Sys2Proof.Machine
end


section
namespace Sys2Proof.Machine

/-! #### BAGS (R320) -/

/-- BAGS past the checks of its operands. -/
def bagsRow (g : Eng) (c : Cmd) (tbl dst : Desc) (width : Nat) : M Bool := do
  let b := c.prog.bytes
  let opt := bodyField b 0x1C 2
  let nb := bodyField b 0x30 4
  let qout := bit opt 1
  let efmt := 10 + bits opt 6 4
  let i := c.count
  if nb ≤ i then return true
  if !c.prog.nums.isEmpty then
    pushHeld g c (bodyField b 0x1E 2) width nb
  else
    let ofs ← cmdRead g c (bodyField b 0x28 8 + 4 * i) 8
    let lo := fieldAt ofs 0 4
    let hi := fieldAt ofs 4 4
    need 6 (lo ≤ hi)
    let bag ← bagRows g c tbl (bit opt 0) (bit opt 2) (bodyField b 0x20 8) (hi - lo) lo { acc := List.replicate tbl.dim0 0 }
    let cnt := hi - lo
    let acc := if bit opt 3 && cnt != 0 then
        bag.acc.map fun a => roundNE ((FFmt.f32.decode a).divFin (.fin false cnt 1))
      else bag.acc
    let f : FFmt := if efmt = 10 then .f32 else if efmt = 11 then .bf16 else .f16
    let outs := acc.map fun a => roundF (FFmt.f32.decode a) f 0 0
    let fl := outs.foldl (fun x e => orf x (roundFlags e.2)) bag.flags
    let c := { c with events := c.events + bag.events, flags := orf c.flags fl }
    let es := outs.map (·.1)
    if qout then
      holdRow g c (rowBytes (entryBytes width) f.width false es [])
      return false
    else
      setCmd g c
      writeRow g c dst (bodyField b 0x34 4 + i) es [] (dst.grid 0) 0
      setCmd g { c with count := i + 1 }
      return i + 1 = nb

/-- The sums of a bag of n rows, or their means. -/
def bagSums (opt n : Nat) (bag : Bag) : List Nat :=
  if opt / 8 % 2 = 1 ∧ n ≠ 0 then bag.acc.map fun a => roundNE ((FFmt.f32.decode a).divFin (.fin false n 1)) else bag.acc

/-- The format in which BAGS delivers. -/
def bagFmt (opt : Nat) : FFmt := if opt / 16 = 0 then .f32 else if opt / 16 = 1 then .bf16 else .f16

/-- What BAGS delivers of its sums: their codes and the flags of rounding them. -/
def bagOuts (opt : Nat) (acc : List Nat) : List (Nat × Flags) := acc.map fun a => roundF (FFmt.f32.decode a) (bagFmt opt) 0 0

/-- The command once a bag has been summed. -/
def bagDone (c : Cmd) (bag : Bag) (outs : List (Nat × Flags)) : Cmd :=
  { c with events := c.events + bag.events, flags := orf c.flags (outs.foldl (fun x e => orf x (roundFlags e.2)) bag.flags) }

/-- What BAGS does with a bag's sums: it holds them for its queue, or writes them. -/
def bagDeliver (g : Eng) (c : Cmd) (bag : Bag) (dst : Desc) (width : Nat) (outs : List (Nat × Flags)) : M Bool := do
  let opt := blockField c 0x1C 2
  if bit opt 1 then
    holdRow g (bagDone c bag outs) (rowBytes (entryBytes width) (bagFmt opt).width false (outs.map (·.1)) [])
    return false
  else
    setCmd g (bagDone c bag outs)
    writeRow g (bagDone c bag outs) dst (blockField c 0x34 4 + c.count) (outs.map (·.1)) [] (dst.grid 0) 0
    setCmd g { bagDone c bag outs with count := c.count + 1 }
    return c.count + 1 = blockField c 0x30 4

/-- What is asked of the options of a BAGS. -/
structure BagOptions (c : Cmd) : Prop where
  zero : blockZero c 0x38 8
  opt : blockField c 0x1C 2 < 128
  fmt : blockField c 0x1C 2 / 16 < 3

theorem bits_six_four {n : Nat} (h : n < 128) : bits n 6 4 = n / 16 := by
  have : n / 2 ^ 4 < 2 ^ (6 + 1 - 4) := by omega
  unfold bits
  omega

section
variable {g : Eng} {c : Cmd} {tbl dst : Desc} {s s1 s2 s3 s4 s5 : State}

theorem BagOptions.need (h : BagOptions c) (s : State) : need 2 (decide (bodyField c.prog.bytes 0x1C 2 < 128) &&
    decide (bits (bodyField c.prog.bytes 0x1C 2) 6 4 < 3)) s = .ok () s :=
  need_ok (by rw [Bool.and_eq_true]; exact ⟨decide_eq_true h.opt, decide_eq_true ((bits_six_four h.opt).symm ▸ h.fmt)⟩)

theorem bit_one (n : Nat) : bit n 1 = (n / 2 % 2 == 1) := rfl

theorem bagsBody_table (h : BagOptions c) (hq : blockField c 0x1C 2 / 2 % 2 = 0) (htt : blockField c 0x18 2 < 4096)
    (htd : blockField c 0x1A 2 < 4096) (hnq : blockField c 0x1E 2 = 0)
    (hs : cmdDesc g c (blockField c 0x18 2) false s = .ok tbl s1) (hd : cmdDesc g c (blockField c 0x1A 2) true s1 = .ok dst s2)
    (hkind : tbl.kind = 4) (htable : rowTable (blockField c 0x1A 2) dst) (hsize : dst.dim0 = tbl.dim0)
    (hfmt : dst.efmt = 10 + blockField c 0x1C 2 / 16) (hrows : blockField c 0x34 4 + blockField c 0x30 4 ≤ dst.dim1) :
    bagsBody g c s = bagsRow g c tbl dst 0 s2 := by
  have hqout : bit (blockField c 0x1C 2) 1 = false := by rw [bit_one, hq]; rfl
  obtain ⟨hplane, hdense⟩ := rowTable_plane htable
  have hshape : (tbl.kind == 4 && (bit (blockField c 0x1C 2) 1 ||
      (plane (blockField c 0x1A 2) dst && dst.kind == 0 && dst.dim0 == tbl.dim0))) = true := by
    simp [hkind, hplane, hdense, hsize]
  have hformat : (bit (blockField c 0x1C 2) 1 || dst.efmt == 10 + bits (blockField c 0x1C 2) 6 4) = true := by
    simp [bits_six_four h.opt, hfmt]
  have hfits : (bit (blockField c 0x1C 2) 1 || decide (blockField c 0x34 4 + blockField c 0x30 4 ≤ dst.dim1)) = true := by
    simp [hrows]
  have hplace : (if bit (blockField c 0x1C 2) 1 then blockField c 0x1A 2 == 0 && blockField c 0x34 4 == 0
      else blockField c 0x1E 2 == 0) = true := by
    rw [hqout, hnq]
    rfl
  unfold bagsBody
  exact (m_bind_ok (reserved_ok (by simpa using h.zero))).trans ((m_bind_ok (h.need s)).trans
    ((m_bind_ok (tidField_ok htt)).trans ((m_bind_ok (tidField_ok htd)).trans ((m_bind_ok (queueField_ok (hnq ▸ by decide))).trans
    ((m_bind_ok hs).trans ((m_if_neg (ne_true_of_eq_false hqout)).trans ((m_bind_ok hd).trans ((m_bind_ok (need_ok hshape)).trans
    ((m_bind_ok (need_ok hformat)).trans ((m_bind_ok (need_ok hfits)).trans ((m_if_neg (ne_true_of_eq_false hqout)).trans
    ((m_bind_ok rfl).trans ((m_bind_ok (need_ok hplace)).trans rfl)))))))))))))

theorem bagsBody_queue {k : Nat} (h : BagOptions c) (hq : blockField c 0x1C 2 / 2 % 2 = 1) (htt : blockField c 0x18 2 < 4096)
    (htd : blockField c 0x1A 2 = 0) (hdrow : blockField c 0x34 4 = 0)
    (hs : cmdDesc g c (blockField c 0x18 2) false s = .ok tbl s1) (hkind : tbl.kind = 4)
    (hqueue : RowQueue s1 c k (blockField c 0x1E 2) true) :
    bagsBody g c s = bagsRow g c tbl tbl (queueOf s1 k (blockField c 0x1E 2)).width s1 := by
  have hqout : bit (blockField c 0x1C 2) 1 = true := by rw [bit_one, hq]; rfl
  have hshape : (tbl.kind == 4 && (bit (blockField c 0x1C 2) 1 ||
      (plane (blockField c 0x1A 2) tbl && tbl.kind == 0 && tbl.dim0 == tbl.dim0))) = true := by
    rw [hqout, hkind]
    rfl
  have hformat : (bit (blockField c 0x1C 2) 1 || tbl.efmt == 10 + bits (blockField c 0x1C 2) 6 4) = true := by
    rw [hqout]
    rfl
  have hfits : (bit (blockField c 0x1C 2) 1 || decide (blockField c 0x34 4 + blockField c 0x30 4 ≤ tbl.dim1)) = true := by
    rw [hqout]
    rfl
  have hplace : (if bit (blockField c 0x1C 2) 1 then blockField c 0x1A 2 == 0 && blockField c 0x34 4 == 0
      else blockField c 0x1E 2 == 0) = true := by
    rw [hqout, htd, hdrow]
    rfl
  unfold bagsBody
  exact (m_bind_ok (reserved_ok (by simpa using h.zero))).trans ((m_bind_ok (h.need s)).trans
    ((m_bind_ok (tidField_ok htt)).trans ((m_bind_ok (tidField_ok (htd ▸ by decide))).trans
    ((m_bind_ok (queueField_ok hqueue.2.1)).trans ((m_bind_ok hs).trans ((m_if_pos hqout).trans ((m_bind_ok rfl).trans
    ((m_bind_ok (need_ok hshape)).trans ((m_bind_ok (need_ok hformat)).trans ((m_bind_ok (need_ok hfits)).trans
    ((m_if_pos hqout).trans ((m_bind_ok (rowQueue_ok hqueue)).trans ((m_bind_ok (need_ok hplace)).trans rfl)))))))))))))

section
variable {width : Nat} (hlt : c.count < blockField c 0x30 4)
include hlt

theorem bagsRow_held (hheld : c.prog.nums ≠ []) :
    bagsRow g c tbl dst width s = pushHeld g c (blockField c 0x1E 2) width (blockField c 0x30 4) s :=
  (m_if_neg (Nat.not_le.2 hlt)).trans (m_if_pos (by simpa using hheld))

variable (hempty : c.prog.nums = []) {ofs : List Byte}
  (hofs : cmdRead g c (blockField c 0x28 8 + 4 * c.count) 8 s = .ok ofs s1)
include hempty hofs

theorem bagsRow_backward (hback : fieldAt ofs 4 4 < fieldAt ofs 0 4) :
    bagsRow g c tbl dst width s = .error (.status 6) s1 :=
  (m_if_neg (Nat.not_le.2 hlt)).trans ((m_if_neg (by simp [hempty])).trans ((m_bind_ok hofs).trans
    (m_bind_err (need_fails (decide_eq_false (Nat.not_le.2 hback))))))

theorem bagsRow_sums (hopt : blockField c 0x1C 2 < 128) {bag : Bag} (hle : fieldAt ofs 0 4 ≤ fieldAt ofs 4 4)
    (hbag : bagRows g c tbl (blockField c 0x1C 2 % 2 == 1) (blockField c 0x1C 2 / 4 % 2 == 1) (blockField c 0x20 8)
      (fieldAt ofs 4 4 - fieldAt ofs 0 4) (fieldAt ofs 0 4) { acc := List.replicate tbl.dim0 0 } s1 = .ok bag s2) :
    bagsRow g c tbl dst width s = bagDeliver g c bag dst width
      (bagOuts (blockField c 0x1C 2) (bagSums (blockField c 0x1C 2) (fieldAt ofs 4 4 - fieldAt ofs 0 4) bag)) s2 := by
  have hbag' : bagRows g c tbl (bit (blockField c 0x1C 2) 0) (bit (blockField c 0x1C 2) 2) (blockField c 0x20 8)
      (fieldAt ofs 4 4 - fieldAt ofs 0 4) (fieldAt ofs 0 4) { acc := List.replicate tbl.dim0 0 } s1 = .ok bag s2 := by
    rw [bit_zero]
    exact hbag
  have hsums : (if bit (blockField c 0x1C 2) 3 && fieldAt ofs 4 4 - fieldAt ofs 0 4 != 0 then
      bag.acc.map fun a => roundNE ((FFmt.f32.decode a).divFin (.fin false (fieldAt ofs 4 4 - fieldAt ofs 0 4) 1)) else bag.acc) =
      bagSums (blockField c 0x1C 2) (fieldAt ofs 4 4 - fieldAt ofs 0 4) bag := by
    unfold bagSums bit
    simp only [Bool.and_eq_true, beq_iff_eq, bne_iff_ne, Nat.reducePow]
  have hfmt : (if 10 + bits (blockField c 0x1C 2) 6 4 = 10 then FFmt.f32 else
      if 10 + bits (blockField c 0x1C 2) 6 4 = 11 then .bf16 else .f16) = bagFmt (blockField c 0x1C 2) := by
    rw [bits_six_four hopt]
    unfold bagFmt
    simp only [Nat.add_eq_left, show ∀ n, 10 + n = 11 ↔ n = 1 by omega]
  refine (m_if_neg (Nat.not_le.2 hlt)).trans ((m_if_neg (by simp [hempty])).trans ((m_bind_ok hofs).trans
    ((m_bind_ok (need_ok (decide_eq_true hle))).trans ((m_bind_ok hbag').trans ?_))))
  unfold bagDeliver bagOuts
  rw [← hfmt, ← hsums]
  rfl

end

section
variable {bag : Bag} {width : Nat} {outs : List (Nat × Flags)}

theorem bagDeliver_holds (hqout : bit (blockField c 0x1C 2) 1 = true) :
    bagDeliver g c bag dst width outs s = (do
      setCmd g (holdsRow (bagDone c bag outs)
        (rowBytes (entryBytes width) (bagFmt (blockField c 0x1C 2)).width false (outs.map (·.1)) []))
      return false : M Bool) s := m_if_pos hqout

theorem bagDeliver_writes (hqout : bit (blockField c 0x1C 2) 1 = false)
    (hw : writeRow g (bagDone c bag outs) dst (blockField c 0x34 4 + c.count) (outs.map (·.1)) [] (dst.grid 0) 0
      (updCmd g.cl g.copy c.id (fun _ => bagDone c bag outs) s) = .ok () s1) :
    bagDeliver g c bag dst width outs s = (do
      setCmd g { bagDone c bag outs with count := c.count + 1 }
      return decide (c.count + 1 = blockField c 0x30 4) : M Bool) s1 :=
  (m_if_neg (ne_true_of_eq_false hqout)).trans ((m_bind_ok rfl).trans (m_bind_ok hw))

end

theorem bagSums_eq {opt lo hi : Nat} (bag : Bag) (hle : lo ≤ hi) : bagSums opt (hi - lo) bag =
    if opt / 8 % 2 = 1 ∧ hi ≠ lo then
      bag.acc.map fun a => roundNE ((FFmt.f32.decode a).divFin (.fin false (hi - lo) 1)) else bag.acc := by
  have hne : hi - lo ≠ 0 ↔ hi ≠ lo := by omega
  unfold bagSums
  simp only [hne]

end

/-- What the sums of a bag are, as the statement of BAGS writes it. -/
theorem bagOuts_eq {opt lo hi : Nat} (bag : Bag) (hle : lo ≤ hi) :
    ((if opt / 8 % 2 = 1 ∧ hi ≠ lo then
      bag.acc.map fun a => roundNE ((FFmt.f32.decode a).divFin (.fin false (hi - lo) 1)) else bag.acc).map
        fun a => roundF (FFmt.f32.decode a) (if opt / 16 = 0 then .f32 else if opt / 16 = 1 then .bf16 else .f16) 0 0) =
      bagOuts opt (bagSums opt (hi - lo) bag) := by
  rw [bagSums_eq bag hle]
  rfl

end Sys2Proof.Machine
end


section
namespace Sys2Proof.Machine

/-! #### SCAT (R317, R318) -/

/-- Meanings that agree from two states go on alike. -/
theorem bind_of_eq {α β : Type} {m m' : M α} {f : α → M β} {s t : State} (h : m s = m' t) : (m >>= f) s = (m' >>= f) t := by
  rw [m_bind, m_bind, h]

/-- SCAT's row, once its index has been read and its group taken. -/
def scatRow (g : Eng) (c : Cmd) (x : Scat) (r : Nat) : M Bool := do
  let (es, ss) ← if x.qin then pure (heldRow x c.prog.nums) else denseRow g c x.src (x.srow + c.count)
  if x.op = 0 then
    writeRow g c x.dst r es ss (x.dst.grid 0) 0
    scatNext g c
    return false
  else
    let e := c.prog.pos
    if e < x.dst.dim0 then
      scatElement g c x r e (es.getD e 0)
      return false
    else
      scatNext g c
      return false

/-- The command once a row of SCAT is done. -/
def scatDone (c : Cmd) : Cmd := { c with count := c.count + 1, prog := { c.prog with pos := 0, count := 0, nums := [] } }

/-- Entries of the group of a row. -/
def scatWant (x : Scat) : Nat := rowEntries (entryBytes x.width) x.dst.elemBits x.dst.dim0 (x.dst.efmt == 13)

section
variable {g : Eng} {c : Cmd} {x : Scat} {s s1 s2 s3 s4 s5 s6 : State} {r : Nat} (hops : scatOperands g c s = .ok x s1)
include hops

theorem scatBody_done (hn : x.n ≤ c.count) (ho : x.ordered = false) : scatBody g c s = .ok true s1 :=
  (m_bind_ok hops).trans ((m_if_pos hn).trans (m_if_pos (by rw [ho]; rfl)))

theorem scatBody_closes (hn : x.n ≤ c.count) (ho : x.ordered = true) (he : c.prog.events = 0) :
    scatBody g c s = (do
      setCmd g { c with prog := { c.prog with events := 1 } }
      return false : M Bool) (closeEpoch (epochKey s1 x.epid (some c.id)) x.nsrc (some c.id) s1) :=
  (m_bind_ok hops).trans ((m_if_pos hn).trans ((m_if_neg (by rw [ho]; exact Bool.false_ne_true)).trans ((m_if_pos he).trans
    (m_bind_ok rfl))))

variable (hn : c.count < x.n) (hidx : indexAt g c (blockField c 0x20 8) c.count s1 = .ok r s2)
include hn hidx

theorem scatBody_refuses (hr : x.dst.dim1 ≤ r) (ho : x.oobz = false) : scatBody g c s = .error (.status 5) s2 :=
  (m_bind_ok hops).trans ((m_if_neg (Nat.not_le.2 hn)).trans ((m_bind_ok hidx).trans (m_bind_err (need_fails (by
    rw [decide_eq_true hr, ho]
    rfl)))))

variable (hin : r < x.dst.dim1 ∨ x.oobz = true)
include hin

omit hops hn hidx in
theorem scat_need : (!(decide (x.dst.dim1 ≤ r)) || x.oobz) = true := by
  obtain hr | ho := hin
  · rw [decide_eq_false (Nat.not_le.2 hr)]
    rfl
  · rw [ho, Bool.or_true]

/-- With QIN, the entries of a row's group are taken first. -/
theorem scatBody_pops (hq : x.qin = true) (hwant : c.prog.count < scatWant x) :
    scatBody g c s = (do let _ ← popRowEntry g c x.q x.width (scatWant x); return false : M Bool) s2 :=
  (m_bind_ok hops).trans ((m_if_neg (Nat.not_le.2 hn)).trans ((m_bind_ok hidx).trans ((m_bind_ok (need_ok (scat_need hin))).trans
    (m_if_pos (by
      rw [hq]
      exact decide_eq_true hwant)))))

variable (htaken : x.qin = true → scatWant x ≤ c.prog.count)
include htaken

omit hops hn hidx hin in
theorem scat_taken : ¬(x.qin && decide (c.prog.count < scatWant x)) = true := by
  rw [Bool.and_eq_true, decide_eq_true_eq]
  exact fun h => absurd (htaken h.1) (Nat.not_le.2 h.2)

theorem scatBody_skips (hr : x.dst.dim1 ≤ r) : scatBody g c s = (do
    setCmd g (scatDone { c with events := c.events + 1 })
    return false : M Bool) s2 :=
  (m_bind_ok hops).trans ((m_if_neg (Nat.not_le.2 hn)).trans ((m_bind_ok hidx).trans ((m_bind_ok (need_ok (scat_need hin))).trans
    ((m_if_neg (scat_taken htaken)).trans (m_if_pos hr)))))

theorem scatBody_row (hr : r < x.dst.dim1) : scatBody g c s = scatRow g c x r s2 :=
  (m_bind_ok hops).trans ((m_if_neg (Nat.not_le.2 hn)).trans ((m_bind_ok hidx).trans ((m_bind_ok (need_ok (scat_need hin))).trans
    ((m_if_neg (scat_taken htaken)).trans (m_if_neg (Nat.not_le.2 hr))))))

end

section
variable {g : Eng} {c : Cmd} {x : Scat} {s s1 s2 s3 s4 : State} {r : Nat} {es ss : List Nat}
  (hrow : (if x.qin then pure (heldRow x c.prog.nums) else denseRow g c x.src (x.srow + c.count) : M _) s = .ok (es, ss) s1)
include hrow

omit hrow in
theorem scatRow_eq : scatRow g c x r =
    ((if x.qin then pure (heldRow x c.prog.nums) else denseRow g c x.src (x.srow + c.count) : M _) >>= fun p =>
      if x.op = 0 then do
        writeRow g c x.dst r p.1 p.2 (x.dst.grid 0) 0
        scatNext g c
        return false
      else if c.prog.pos < x.dst.dim0 then do
        scatElement g c x r c.prog.pos (p.1.getD c.prog.pos 0)
        return false
      else do
        scatNext g c
        return false) := by
  by_cases hq : x.qin = true
  · exact (if_pos hq).trans ((congrArg (· >>= _) (if_pos hq)).trans rfl).symm
  · exact (if_neg hq).trans ((congrArg (· >>= _) (if_neg hq)).trans rfl).symm

theorem scatRow_stores (hop : x.op = 0) (hw : writeRow g c x.dst r es ss (x.dst.grid 0) 0 s1 = .ok () s2) :
    scatRow g c x r s = (do setCmd g (scatDone c); return false : M Bool) s2 := by
  rw [scatRow_eq]
  exact (m_bind_ok hrow).trans ((m_if_pos hop).trans (m_bind_ok hw))

theorem scatRow_ends (hop : x.op ≠ 0) (he : x.dst.dim0 ≤ c.prog.pos) :
    scatRow g c x r s = (do setCmd g (scatDone c); return false : M Bool) s1 := by
  rw [scatRow_eq]
  exact (m_bind_ok hrow).trans ((m_if_neg hop).trans (m_if_neg (Nat.not_lt.2 he)))

theorem scatRow_element (hop : x.op ≠ 0) (he : c.prog.pos < x.dst.dim0) : scatRow g c x r s =
    (do scatElement g c x r c.prog.pos (es.getD c.prog.pos 0); return false : M Bool) s1 := by
  rw [scatRow_eq]
  exact (m_bind_ok hrow).trans ((m_if_neg hop).trans (m_if_pos he))

end

section
variable {g : Eng} {c : Cmd} {x : Scat} {s s1 s2 s3 : State} {r e v pa : Nat} {op : Acc}

/-- The address of an element of a row. -/
def elementAt (d : Desc) (r e : Nat) : Nat :=
  d.tile [e / d.epr, r / 32, 0, 0] + 32 * (r % 32) + e % d.epr * (d.elemBits / 8)

variable (hacc : scatAcc x.dst.efmt x.op = some op)
  (hpa : cmdPhys c (elementAt x.dst r e % 2 ^ 64) (x.dst.elemBits / 8) true s = .ok pa s1)
include hacc hpa

theorem scatElement_holds (ho : x.ordered = true) :
    scatElement g c x r e v s = setCmd g { c with prog := { c.prog with pos := e + 1 } }
      (heldAdd g c x (elementAt x.dst r e % 2 ^ 64) pa v s1) := by
  unfold scatElement
  rw [hacc]
  exact (m_bind_ok hpa).trans ((m_if_pos ho).trans (m_bind_ok rfl))

theorem scatElement_adds {bs : List Byte} {new : Nat} (ho : x.ordered = false)
    (hread : readPort pa (x.dst.elemBits / 8) s1 = .ok (some bs) s2)
    (hnew : (accNew op x.dst.elemBits 0 (leNat bs) v).1 = some new)
    (hwrite : writePort (g.agent c) pa (leBytes (x.dst.elemBits / 8) new) s2 = .ok () s3) :
    scatElement g c x r e v s = setCmd g
      { c with flags := orf c.flags (accNew op x.dst.elemBits 0 (leNat bs) v).2, prog := { c.prog with pos := e + 1 } }
      (runM (logPort g.source pa (leNat bs)) s3) := by
  have hport : portUpdate g c (elementAt x.dst r e % 2 ^ 64) pa (x.dst.elemBits / 8)
      (fun old => (accNew op x.dst.elemBits 0 old v).1) s1 = .ok (leNat bs) (runM (logPort g.source pa (leNat bs)) s3) := by
    unfold portUpdate
    refine (m_bind_ok hread).trans ?_
    dsimp only
    rw [hnew]
    exact (m_bind_ok hwrite).trans (m_bind_ok rfl)
  unfold scatElement
  rw [hacc]
  exact (m_bind_ok hpa).trans ((m_if_neg (ne_true_of_eq_false ho)).trans (m_bind_ok hport))

end

theorem scatters (o : LaneFmt) : Scatters o := by
  intro cl s s1 s2 s3 s4 c x r pa es ss op bs g w e va next held narrow taken row h hops
  have hstores : IndexLane (.scat o) scatBody := indexLane_scat o
  refine ⟨fun hn ho => ?_, fun hn ho hev => ?_, fun hn hidx hr => ⟨fun ho htaken => ?_, fun ho => ?_⟩,
    fun hn hidx hr htaken hrow => ?_⟩
  · exact block_completes hstores rfl h (scatBody_done hops hn ho)
  · exact block_goesOn hstores rfl h rfl (scatBody_closes hops hn ho hev)
  · exact block_goesOn hstores rfl h rfl (scatBody_skips hops hn hidx (.inr ho) htaken hr)
  · exact block_stops hstores rfl h (scatBody_refuses hops hn hidx hr ho)
  · have hbody := scatBody_row hops hn hidx (.inl hr) htaken hr
    have hread : (if x.qin then pure (heldRow x c.prog.nums) else denseRow g c x.src (x.srow + c.count) : M _) s2 =
        .ok (es, ss) s3 := by
      by_cases hq : x.qin = true
      · obtain ⟨rfl, rfl, rfl⟩ := (if_pos hq).mp hrow
        exact m_if_pos hq
      · exact (m_if_neg hq).trans ((if_neg hq).mp hrow)
    refine ⟨fun hop hwrite => ?_, fun hop he => ?_, fun hop he hacc hpa => ⟨fun ho => ?_, fun s5 s6 v ho hport hnew hwrite => ?_⟩⟩
    · exact block_goesOn hstores rfl h rfl (hbody.trans (scatRow_stores hread hop hwrite))
    · exact block_goesOn hstores rfl h rfl (hbody.trans (scatRow_ends hread hop he))
    · refine block_goesOn hstores rfl h rfl (hbody.trans ((scatRow_element hread hop he).trans ?_))
      exact bind_of_eq (scatElement_holds hacc hpa ho)
    · refine block_goesOn hstores rfl h rfl (hbody.trans ((scatRow_element hread hop he).trans ?_))
      exact bind_of_eq (scatElement_adds hacc hpa ho hport hnew hwrite)

/-! The entries of a group (R314). -/

section
variable {g : Eng} {c : Cmd} {s : State} {k q width want : Nat} {e : QEntry} {rest : List QEntry} (hc : c.crew = some k)
  (hok : queueRefuses (queueOf s k q) 7 width false = none) (he : (queueOf s k q).entries = e :: rest)
include hc hok he

theorem popRowEntry_poisoned (hp : e.p = true) :
    popRowEntry g c q width want s = .error (.status 11) (withQueue s k q ((queueOf s k q).popped e rest)) :=
  (m_bind_ok (crewOrFault_ok hc)).trans ((m_bind_ok (asCommand_ok (popQueue_run hok he))).trans
    ((m_if_pos hp).trans rfl))

variable (hp : e.p = false)
include hp

theorem popRowEntry_misfit (hbad : e.h ≠ decide (c.prog.count + 1 = 1) ∨ e.t ≠ decide (c.prog.count + 1 = want)) :
    popRowEntry g c q width want s = .error (.status 6) (withQueue s k q ((queueOf s k q).popped e rest)) := by
  have hmarks : ((c.prog.count + 1 == 1) != e.h) = true ∨ (e.t != (c.prog.count + 1 == want)) = true := by
    rw [bne_iff_ne, bne_iff_ne]
    exact hbad.imp_left Ne.symm
  exact (m_bind_ok (crewOrFault_ok hc)).trans ((m_bind_ok (asCommand_ok (popQueue_run hok he))).trans
    ((m_if_neg (ne_true_of_eq_false hp)).trans ((m_if_pos hmarks).trans rfl)))

theorem popRowEntry_takes (hh : e.h = decide (c.prog.count + 1 = 1)) (ht : e.t = decide (c.prog.count + 1 = want)) :
    popRowEntry g c q width want s = (do
      setCmd g { c with prog := { c.prog with
        count := c.prog.count + 1, nums := c.prog.nums ++ e.data.map (·.toNat) } }
      return e.t : M Bool) (withQueue s k q ((queueOf s k q).popped e rest)) := by
  have hcond : ¬(((c.prog.count + 1 == 1) != e.h) = true ∨ (e.t != (c.prog.count + 1 == want)) = true) := by
    rw [bne_iff_ne, bne_iff_ne, not_or, not_not, not_not]
    exact ⟨hh.symm, ht⟩
  exact (m_bind_ok (crewOrFault_ok hc)).trans ((m_bind_ok (asCommand_ok (popQueue_run hok he))).trans
    ((m_if_neg (ne_true_of_eq_false hp)).trans (m_if_neg hcond)))

end

theorem takesGroups (o : LaneFmt) : TakesGroups o := by
  intro cl k s s1 s2 c x r e rest g want n v t h hops hq hn hidx hin hwant hc hok he
  have hbody := scatBody_pops hops hn hidx hin hq hwant
  refine ⟨fun hp => ?_, fun hp hbad => ?_, fun hp hh ht => ?_⟩
  · exact block_stops (indexLane_scat o) rfl h (hbody.trans (m_bind_err (popRowEntry_poisoned hc hok he hp)))
  · exact block_stops (indexLane_scat o) rfl h (hbody.trans (m_bind_err (popRowEntry_misfit hc hok he hp hbad)))
  · refine block_goesOn (indexLane_scat o) rfl h rfl (hbody.trans (m_bind_ok ((popRowEntry_takes hc hok he hp hh ht).trans rfl)))

end Sys2Proof.Machine
end


section
namespace Sys2Proof.Machine

/-! #### ISECT (R321) -/

/-- The walk at a word whose common bits are all done: the next words, else its end. -/
def isectNext (g : Eng) (c : Cmd) (da db : Desc) (q mode : Nat) (x : Walk) : M Bool := do
  if x.w < (da.dim0 + 63) / 64 then
    let oa ← occWord g c da x.w
    let ob ← occWord g c db x.w
    setCmd g (setWalk c { x with
      w := x.w + 1, pa := x.pa + popCount x.oa 64, pb := x.pb + popCount x.ob 64, oa := oa, ob := ob
      left := oa &&& ob })
    return false
  else isectEnd g c q mode x

/-- The next common index of the words in hand, with its two values. -/
def isectEmit (g : Eng) (c : Cmd) (da db : Desc) (q mode : Nat) (x : Walk) : M Bool := do
  let b := c.prog.bytes
  let j := trailZeros x.left 64
  let va ← readPacked g c da.base da.elemBits (x.pa + popCount (x.oa % 2 ^ j) 64) 1
  let vb ← readPacked g c db.base db.elemBits (x.pb + popCount (x.ob % 2 ^ j) 64) 1
  let i := 64 * (x.w - 1) + j
  let x' := { x with left := x.left - 2 ^ j }
  if mode = 0 then
    cmdWrite g c (bodyField b 0x20 8 + 4 * c.count) (leBytes 4 i)
    writePacked g c (bodyField b 0x28 8) da.elemBits c.count (va.headD 0)
    writePacked g c (bodyField b 0x30 8) db.elemBits c.count (vb.headD 0)
    setCmd g { setWalk c x' with count := c.count + 1 }
  else if x.held.isEmpty then
    setCmd g (setWalk c { x' with held := [i, va.headD 0, vb.headD 0] })
  else
    pushEmission c q x.held false
    setCmd g { setWalk c { x' with held := [i, va.headD 0, vb.headD 0] } with count := c.count + 1 }
  return false

/-- ISECT past the checks of its operands. -/
def isectStep (g : Eng) (c : Cmd) (da db : Desc) (q mode : Nat) : M Bool :=
  if (Walk.ofNums c.prog.nums).left = 0 then isectNext g c da db q mode (Walk.ofNums c.prog.nums)
  else isectEmit g c da db q mode (Walk.ofNums c.prog.nums)

/-- What the operands of an ISECT must be. -/
structure IsectOperands (c : Cmd) (da db : Desc) : Prop where
  zero : blockZero c 0x1E 2 ∧ blockZero c 0x38 8
  named : blockField c 0x18 2 < 4096 ∧ blockField c 0x1A 2 < 4096
  bitmaps : da.kind = 3 ∧ db.kind = 3
  vectors : da.nd = 1 ∧ db.nd = 1
  size : da.dim0 = db.dim0

section
variable {g : Eng} {c : Cmd} {da db : Desc} {s s1 s2 s3 s4 s5 s6 s7 : State} {k : Nat}

theorem IsectOperands.reserved (h : IsectOperands c da db) : reserved c.prog.bytes [(0x1E, 2), (0x38, 8)] s = .ok () s := by
  refine reserved_ok fun e he => ?_
  obtain rfl | rfl : e = (0x1E, 2) ∨ e = (0x38, 8) := by simpa using he
  · exact h.zero.1
  · exact h.zero.2

theorem IsectOperands.shape (h : IsectOperands c da db) :
    (da.kind == 3 && db.kind == 3 && da.nd == 1 && db.nd == 1 && da.dim0 == db.dim0) = true := by
  simp [h.bitmaps.1, h.bitmaps.2, h.vectors.1, h.vectors.2, h.size]

section
variable (h : IsectOperands c da db) (ha : cmdDesc g c (blockField c 0x18 2) false s = .ok da s1)
  (hb : cmdDesc g c (blockField c 0x1A 2) false s1 = .ok db s2)
include h ha hb

theorem isectBody_memory (hmode : blockField c 0x1C 1 = 0) (hq : blockField c 0x1D 1 = 0) :
    isectBody g c s = isectStep g c da db (blockField c 0x1D 1) 0 s2 := by
  have hform : (decide (blockField c 0x1C 1 < 2) && decide (blockField c 0x1D 1 < 64)) = true := by
    rw [hmode, hq]
    rfl
  have hwide : (blockField c 0x1C 1 == 0 || (decide (da.elemBits ≤ 16) && decide (db.elemBits ≤ 16))) = true := by
    rw [hmode]
    rfl
  have hplace : (if blockField c 0x1C 1 = 0 then blockField c 0x1D 1 == 0
      else ((c.prog.bytes.drop 0x20).take 24).all (· == 0)) = true := by
    rw [hmode, hq]
    rfl
  have hstep : isectBody g c s = isectStep g c da db (blockField c 0x1D 1) (blockField c 0x1C 1) s2 := by
    unfold isectBody
    exact (m_bind_ok h.reserved).trans ((m_bind_ok (need_ok hform)).trans ((m_bind_ok (tidField_ok h.named.1)).trans
      ((m_bind_ok (tidField_ok h.named.2)).trans ((m_bind_ok ha).trans ((m_bind_ok hb).trans ((m_bind_ok (need_ok h.shape)).trans
      ((m_bind_ok (need_ok hwide)).trans ((m_if_neg (by
        rw [show bodyField c.prog.bytes 0x1C 1 = 0 from hmode]
        decide)).trans ((m_bind_ok (need_ok hplace)).trans rfl)))))))))
  rw [hstep, hmode]

theorem isectBody_queue (hmode : blockField c 0x1C 1 = 1) (hq : blockField c 0x1D 1 < 64) (hz : blockZero c 0x20 24)
    (hbits : da.elemBits ≤ 16 ∧ db.elemBits ≤ 16) (hc : c.crew = some k)
    (hok : queueRefuses (queueOf s2 k (blockField c 0x1D 1)) 7 0 true = none) :
    isectBody g c s = isectStep g c da db (blockField c 0x1D 1) 1 s2 := by
  have hform : (decide (blockField c 0x1C 1 < 2) && decide (blockField c 0x1D 1 < 64)) = true := by
    rw [hmode, decide_eq_true hq]
    rfl
  have hwide : (blockField c 0x1C 1 == 0 || (decide (da.elemBits ≤ 16) && decide (db.elemBits ≤ 16))) = true := by
    rw [decide_eq_true hbits.1, decide_eq_true hbits.2, Bool.and_self, Bool.or_true]
  have hplace : (if blockField c 0x1C 1 = 0 then blockField c 0x1D 1 == 0
      else ((c.prog.bytes.drop 0x20).take 24).all (· == 0)) = true := by
    rw [hmode]
    exact hz
  have hwidth : (if [0].contains (queueOf s2 k (blockField c 0x1D 1)).width then (queueOf s2 k (blockField c 0x1D 1)).width
      else [0].headD 0) = 0 := by
    split
    · next hin => simpa using hin
    · rfl
  have hstep : isectBody g c s = isectStep g c da db (blockField c 0x1D 1) (blockField c 0x1C 1) s2 := by
    unfold isectBody
    exact (m_bind_ok h.reserved).trans ((m_bind_ok (need_ok hform)).trans ((m_bind_ok (tidField_ok h.named.1)).trans
      ((m_bind_ok (tidField_ok h.named.2)).trans ((m_bind_ok ha).trans ((m_bind_ok hb).trans ((m_bind_ok (need_ok h.shape)).trans
      ((m_bind_ok (need_ok hwide)).trans ((m_if_pos hmode).trans ((m_bind_ok (cmdQueue_ok hc hwidth hok)).trans
      ((m_bind_ok (need_ok hplace)).trans rfl))))))))))
  rw [hstep, hmode]

end

section
variable {q mode oa ob : Nat} {x : Walk} {va vb : List Nat}

/-- The walk's next step from the words it holds. -/
def nextWords (x : Walk) (oa ob : Nat) : Walk :=
  { x with
    w := x.w + 1, pa := x.pa + popCount x.oa 64, pb := x.pb + popCount x.ob 64, oa := oa, ob := ob, left := oa &&& ob }

theorem isectNext_reads (hw : x.w < (da.dim0 + 63) / 64) (ha : occWord g c da x.w s = .ok oa s1)
    (hb : occWord g c db x.w s1 = .ok ob s2) :
    isectNext g c da db q mode x s = (do setCmd g (setWalk c (nextWords x oa ob)); return false : M Bool) s2 :=
  (m_if_pos hw).trans ((m_bind_ok ha).trans (m_bind_ok hb))

theorem isectNext_ends (hw : (da.dim0 + 63) / 64 ≤ x.w) : isectNext g c da db q mode x s = isectEnd g c q mode x s :=
  m_if_neg (Nat.not_lt.2 hw)

theorem pushEmission_ok {l : List Nat} {t : Bool} (hc : c.crew = some k) (hpush : pushQueue k q 7 0 (emitWord l t) s = .ok () s1) :
    pushEmission c q l t s = .ok () s1 := (m_bind_ok (crewOrFault_ok hc)).trans (asCommand_ok hpush)

theorem isectEnd_empty (hc : c.crew = some k) (hheld : x.held = [])
    (hpush : pushQueue k q 7 0 (emitWord [0xFFFFFFFF, 0, 0] true) s = .ok () s1) : isectEnd g c q 1 x s = .ok true s1 :=
  (m_if_neg Nat.one_ne_zero).trans ((m_if_pos (by rw [hheld]; rfl)).trans (m_bind_ok (pushEmission_ok hc hpush)))

theorem isectEnd_last (hc : c.crew = some k) (hheld : x.held ≠ [])
    (hpush : pushQueue k q 7 0 (emitWord x.held true) s = .ok () s1) :
    isectEnd g c q 1 x s = .ok true (updCmd g.cl g.copy c.id (fun _ => { c with count := c.count + 1 }) s1) :=
  (m_if_neg Nat.one_ne_zero).trans ((m_if_neg (by simpa using hheld)).trans (m_bind_ok (pushEmission_ok hc hpush)))

/-- The walk once the lowest of its common bits has been emitted. -/
def emitted (x : Walk) : Walk := { x with left := x.left - 2 ^ trailZeros x.left 64 }

/-- The index of the lowest common bit, with the values read for it. -/
def emission (x : Walk) (va vb : List Nat) : List Nat := [64 * (x.w - 1) + trailZeros x.left 64, va.headD 0, vb.headD 0]

variable
  (ha : readPacked g c da.base da.elemBits (x.pa + popCount (x.oa % 2 ^ trailZeros x.left 64) 64) 1 s = .ok va s1)
  (hb : readPacked g c db.base db.elemBits (x.pb + popCount (x.ob % 2 ^ trailZeros x.left 64) 64) 1 s1 = .ok vb s2)
include ha hb

theorem isectEmit_writes
    (hi : cmdWrite g c (blockField c 0x20 8 + 4 * c.count) (leBytes 4 (64 * (x.w - 1) + trailZeros x.left 64)) s2 = .ok () s3)
    (hva : writePacked g c (blockField c 0x28 8) da.elemBits c.count (va.headD 0) s3 = .ok () s4)
    (hvb : writePacked g c (blockField c 0x30 8) db.elemBits c.count (vb.headD 0) s4 = .ok () s5) :
    isectEmit g c da db q 0 x s = (do
      setCmd g { setWalk c (emitted x) with count := c.count + 1 }
      return false : M Bool) s5 :=
  (m_bind_ok ha).trans ((m_bind_ok hb).trans ((m_if_pos rfl).trans ((m_bind_ok hi).trans ((m_bind_ok hva).trans
    (m_bind_ok hvb)))))

theorem isectEmit_holds (hheld : x.held = []) : isectEmit g c da db q 1 x s = (do
    setCmd g (setWalk c { emitted x with held := emission x va vb })
    return false : M Bool) s2 :=
  (m_bind_ok ha).trans ((m_bind_ok hb).trans ((m_if_neg Nat.one_ne_zero).trans (m_if_pos (by rw [hheld]; rfl))))

theorem isectEmit_pushes (hc : c.crew = some k) (hheld : x.held ≠ [])
    (hpush : pushQueue k q 7 0 (emitWord x.held false) s2 = .ok () s3) : isectEmit g c da db q 1 x s = (do
    setCmd g { setWalk c { emitted x with held := emission x va vb } with count := c.count + 1 }
    return false : M Bool) s3 :=
  (m_bind_ok ha).trans ((m_bind_ok hb).trans ((m_if_neg Nat.one_ne_zero).trans ((m_if_neg (by simpa using hheld)).trans
    (m_bind_ok (pushEmission_ok hc hpush)))))

end

end

theorem emitsWords (o : LaneFmt) : EmitsWords o := by
  intro cl k s s1 s2 s3 s4 s5 c da db g f x q word h hz1 hz2 hmode hq hz3 hta htb ha hb hka hkb hna hnb hsize hwa hwb hc hok
  have hbody : isectBody g c s = isectStep g c da db q 1 s2 :=
    isectBody_queue ⟨⟨hz1, hz2⟩, ⟨hta, htb⟩, ⟨hka, hkb⟩, ⟨hna, hnb⟩, hsize⟩ ha hb hmode hq hz3 ⟨hwa, hwb⟩ hc hok
  have hi := indexLane_isect o
  refine ⟨fun hleft hw oa ob hoa hob => ?_, fun hleft hw => ⟨fun hheld hpush => ?_, fun hheld hpush => ?_⟩, ?_⟩
  · exact block_goesOn hi rfl h rfl (hbody.trans ((m_if_pos hleft).trans (isectNext_reads hw hoa hob)))
  · exact block_completes hi rfl h (hbody.trans ((m_if_pos hleft).trans ((isectNext_ends hw).trans
      (isectEnd_empty hc hheld hpush))))
  · exact block_completes hi rfl h (hbody.trans ((m_if_pos hleft).trans ((isectNext_ends hw).trans
      (isectEnd_last hc hheld hpush))))
  · intro va vb hleft j now hva hvb
    refine ⟨fun hheld => ?_, fun hheld hpush => ?_⟩
    · exact block_goesOn hi rfl h rfl (hbody.trans ((m_if_neg hleft).trans (isectEmit_holds hva hvb hheld)))
    · exact block_goesOn hi rfl h rfl (hbody.trans ((m_if_neg hleft).trans (isectEmit_pushes hva hvb hc hheld hpush)))

end Sys2Proof.Machine
end


section
namespace Sys2Proof.Machine

/-! #### MSORT (R322) -/

/-- The stores of MSORT: values, keys, directory. -/
def msortStore (g : Eng) (c : Cmd) (d : Desc) (l : List Coord) : M Bool := do
  let n := l.length
  if d.elemBits = 4 ∧ n % 2 = 1 then
    cmdWrite g c d.base ((packElems 4 (l.map (·.v))).take (n / 2))
    writePacked g c d.base 4 (n - 1) ((l.map (·.v)).getLastD 0)
  else cmdWrite g c d.base (packElems d.elemBits (l.map (·.v)))
  cmdWrite g c d.side (unhalves (l.map (·.key)))
  cmdWrite g c d.aux (directory l (d.grid 0 * d.grid 1 * d.grid 2 * d.grid 3) 0 0)
  setCmd g { c with count := n }
  return true

section
variable {g : Eng} {c : Cmd} {d : Desc} {s s1 s2 s3 s4 s5 : State} {l : List Coord}

/-- The values are written: with an odd last nibble, that by itself. -/
def ValuesWritten (g : Eng) (c : Cmd) (d : Desc) (vs : List Nat) (s t : State) : Prop :=
  if d.elemBits = 4 ∧ vs.length % 2 = 1 then ∃ u, cmdWrite g c d.base ((packElems 4 vs).take (vs.length / 2)) s = .ok () u ∧
    writePacked g c d.base 4 (vs.length - 1) (vs.getLastD 0) u = .ok () t
  else cmdWrite g c d.base (packElems d.elemBits vs) s = .ok () t

theorem msortStore_stores (hv : ValuesWritten g c d (l.map (·.v)) s s1)
    (hk : cmdWrite g c d.side (unhalves (l.map (·.key))) s1 = .ok () s2)
    (hd : cmdWrite g c d.aux (directory l (d.grid 0 * d.grid 1 * d.grid 2 * d.grid 3) 0 0) s2 = .ok () s3) :
    msortStore g c d l s = .ok true (updCmd g.cl g.copy c.id (fun _ => { c with count := l.length }) s3) := by
  unfold ValuesWritten at hv
  rw [List.length_map] at hv
  by_cases hodd : d.elemBits = 4 ∧ l.length % 2 = 1
  · obtain ⟨u, hfirst, hlast⟩ := (if_pos hodd).mp hv
    exact (m_if_pos hodd).trans ((m_bind_ok hfirst).trans ((m_bind_ok hlast).trans ((m_bind_ok hk).trans (m_bind_ok hd))))
  · exact (m_if_neg hodd).trans ((m_bind_ok ((if_neg hodd).mp hv)).trans ((m_bind_ok hk).trans (m_bind_ok hd)))

theorem msortBody_runs {raw : List Coord} (hz1 : blockZero c 0x1C 4) (hz2 : blockZero c 0x34 4) (hz3 : blockZero c 0x38 8)
    (hopt : blockField c 0x1A 2 < 2) (htd : blockField c 0x18 2 < 4096)
    (hd : cmdDesc g c (blockField c 0x18 2) true s = .ok d s1) (hkind : d.kind = 2)
    (hraw : readCoords g c d (blockField c 0x20 8) (blockField c 0x28 8) (blockField c 0x30 4) 0 s1 = .ok raw s2) :
    let m := mergeCoords d (blockField c 0x1A 2 == 1) [] (sortBy Coord.before raw) 0
    let c1 := { c with flags := orf c.flags m.2 }
    msortBody g c s = msortStore g c1 d m.1 (updCmd g.cl g.copy c.id (fun _ => c1) s2) := by
  intro m c1
  have hres : reserved c.prog.bytes [(0x1C, 4), (0x34, 4), (0x38, 8)] s = .ok () s := by
    refine reserved_ok fun e he => ?_
    obtain rfl | rfl | rfl : e = (0x1C, 4) ∨ e = (0x34, 4) ∨ e = (0x38, 8) := by simpa using he
    · exact hz1
    · exact hz2
    · exact hz3
  have hbit : bit (blockField c 0x1A 2) 0 = (blockField c 0x1A 2 == 1) := by
    rw [bit_zero, Nat.mod_eq_of_lt hopt]
  have hm : mergeCoords d (bit (bodyField c.prog.bytes 0x1A 2) 0) [] (sortBy Coord.before raw) 0 = m :=
    congrArg (fun dup => mergeCoords d dup [] (sortBy Coord.before raw) 0) hbit
  unfold msortBody
  refine (m_bind_ok hres).trans ((m_bind_ok (need_ok (decide_eq_true hopt))).trans ((m_bind_ok (tidField_ok htd)).trans
    ((m_bind_ok hd).trans ((m_bind_ok (need_ok (by rw [hkind]; rfl))).trans ((m_bind_ok hraw).trans ?_)))))
  rw [hm]
  exact m_bind_ok rfl

end

/-! Sorting and merging. -/

theorem insertBy_perm {α : Type} (before : α → α → Bool) (x : α) (l : List α) : (insertBy before x l).Perm (x :: l) := by
  induction l with
  | nil => exact List.Perm.refl _
  | cons y l ih =>
    unfold insertBy
    split
    · exact List.Perm.refl _
    · exact (ih.cons y).trans (List.Perm.swap ..)

theorem sortBy_perm {α : Type} (before : α → α → Bool) (l : List α) : (sortBy before l).Perm l := by
  induction l with
  | nil => exact List.Perm.refl _
  | cons x l ih => exact (insertBy_perm before x _).trans (ih.cons x)

/-- Entries no two of which stand for the same element are merged into themselves. -/
theorem mergeCoords_distinct (d : Desc) (dup : Bool) (acc l : List Coord) (fl : Flags)
    (h : (acc.reverse ++ l).Pairwise fun x y => x.same y = false) : mergeCoords d dup acc l fl = (acc.reverse ++ l, fl) := by
  induction l generalizing acc with
  | nil => cases acc <;> simp [mergeCoords]
  | cons e l ih =>
    have hnext : ((e :: acc).reverse ++ l).Pairwise fun x y => x.same y = false := by simpa using h
    cases acc with
    | nil =>
      rw [mergeCoords, ih [e] hnext]
      rfl
    | cons a acc =>
      have hne : a.same e = false := (List.pairwise_append.1 h).2.2 a (by simp) e List.mem_cons_self
      rw [mergeCoords, hne, if_neg Bool.false_ne_true, ih (e :: a :: acc) hnext]
      simp

theorem mergeCoords_sorted (d : Desc) (dup : Bool) {l : List Coord}
    (hsame : ∀ x ∈ sortBy Coord.before l, ∀ y ∈ sortBy Coord.before l, x.same y = true → x = y) (hl : l.Nodup) :
    mergeCoords d dup [] (sortBy Coord.before l) 0 = (sortBy Coord.before l, 0) := by
  have hnodup : (sortBy Coord.before l).Nodup := (sortBy_perm _ l).nodup_iff.2 hl
  refine mergeCoords_distinct d dup [] _ 0 (List.Pairwise.imp_of_mem (fun {x y} hx hy hne => ?_) hnodup)
  exact Bool.eq_false_of_not_eq_true fun hs => hne (hsame x hx y hy hs)

/-! #### SPSRCH (R323) -/

section
variable {g : Eng} {c : Cmd} {wt gd mk : Desc} {s s1 s2 s3 s4 s5 s6 : State} {a b : Nat × Nat × Flags}

/-- What the operands of an SPSRCH must be. -/
structure SpsrchOperands (c : Cmd) (wt gd mk : Desc) : Prop where
  zero : blockZero c 0x1E 2
  named : blockField c 0x18 2 < 4096 ∧ blockField c 0x1A 2 < 4096 ∧ blockField c 0x1C 2 < 4096
  tables : rowTable (blockField c 0x18 2) wt ∧ rowTable (blockField c 0x1A 2) gd ∧ rowTable (blockField c 0x1C 2) mk
  formats : wt.efmt = 11 ∧ gd.efmt = 11 ∧ mk.efmt = 6
  size : wt.dim0 = gd.dim0 ∧ wt.dim1 = gd.dim1 ∧ wt.dim0 % 4 = 0 ∧ wt.dim1 % 4 = 0
  mask : mk.dim0 = (wt.dim0 + 7) / 8 ∧ mk.dim1 = wt.dim1

theorem spsrchBody_runs (h : SpsrchOperands c wt gd mk) (hw : cmdDesc g c (blockField c 0x18 2) false s = .ok wt s1)
    (hg : cmdDesc g c (blockField c 0x1A 2) false s1 = .ok gd s2) (hm : cmdDesc g c (blockField c 0x1C 2) true s2 = .ok mk s3)
    (ha : groupMask g c wt gd (2 * (c.prog.pos % mk.dim0)) (c.prog.pos / mk.dim0) s3 = .ok a s4)
    (hb : groupMask g c wt gd (2 * (c.prog.pos % mk.dim0) + 1) (c.prog.pos / mk.dim0) s4 = .ok b s5)
    (hwrite : writeMaskBytes g c mk (c.prog.pos % mk.dim0) (c.prog.pos / mk.dim0) a.1 b.1 4 s5 = .ok () s6) :
    spsrchBody g c s = (do
      setCmd g { c with
        count := c.count + a.2.1 + b.2.1, flags := orf c.flags (orf a.2.2 b.2.2)
        prog := { c.prog with pos := c.prog.pos + 1 } }
      return decide (c.prog.pos + 1 = mk.dim0 * (wt.dim1 / 4)) : M Bool) s6 := by
  obtain ⟨hz, ⟨htw, htg, htm⟩, ⟨htabw, htabg, htabm⟩, ⟨hfw, hfg, hfm⟩, ⟨hd0, hd1, hm0, hm1⟩, hmk0, hmk1⟩ := h
  obtain ⟨hpw, hkw⟩ := rowTable_plane htabw
  obtain ⟨hpg, hkg⟩ := rowTable_plane htabg
  obtain ⟨hpm, hkm⟩ := rowTable_plane htabm
  have hshape : (plane (blockField c 0x18 2) wt && plane (blockField c 0x1A 2) gd && plane (blockField c 0x1C 2) mk &&
      wt.kind == 0 && gd.kind == 0 && mk.kind == 0) = true := by
    rw [hpw, hpg, hpm, hkw, hkg, hkm]
    rfl
  have hformat : (wt.efmt == 11 && gd.efmt == 11 && mk.efmt == 6) = true := by
    rw [hfw, hfg, hfm]
    rfl
  have hsize : (wt.dim0 == gd.dim0 && wt.dim1 == gd.dim1 && wt.dim0 % 4 == 0 && wt.dim1 % 4 == 0 &&
      mk.dim0 == (wt.dim0 + 7) / 8 && mk.dim1 == wt.dim1) = true := by
    simp only [Bool.and_eq_true, beq_iff_eq]
    exact ⟨⟨⟨⟨⟨hd0, hd1⟩, hm0⟩, hm1⟩, hmk0⟩, hmk1⟩
  unfold spsrchBody
  exact (m_bind_ok (reserved_ok (by simpa using hz))).trans ((m_bind_ok (tidField_ok htw)).trans
    ((m_bind_ok (tidField_ok htg)).trans ((m_bind_ok (tidField_ok htm)).trans ((m_bind_ok hw).trans ((m_bind_ok hg).trans
    ((m_bind_ok hm).trans ((m_bind_ok (need_ok hshape)).trans ((m_bind_ok (need_ok hformat)).trans
    ((m_bind_ok (need_ok hsize)).trans ((m_bind_ok ha).trans ((m_bind_ok hb).trans (m_bind_ok hwrite))))))))))))

end

/-! #### Rows as bytes (R316), and sums (R320) -/

theorem padded_replicate {n : Nat} (hn : 0 < n) (bs : List Byte) :
    Padded n bs (bs ++ List.replicate ((n - bs.length % n) % n) 0) := by
  refine ⟨_, fun b hb => List.eq_of_mem_replicate hb, ?_, rfl, ?_⟩
  · rw [List.length_replicate]
    exact Nat.mod_lt _ hn
  · rw [List.length_append, List.length_replicate, Nat.add_mod_mod]
    have hlt := Nat.mod_lt bs.length hn
    have hdiv := Nat.div_add_mod bs.length n
    rw [show bs.length + (n - bs.length % n) = n * (bs.length / n + 1) by rw [Nat.mul_succ]; omega]
    exact Nat.mul_mod_right ..

theorem rowBytes_padded {n : Nat} (hn : 0 < n) (w : Nat) (es ss : List Nat) :
    Padded n (packElems w es) (rowBytes n w false es ss) ∧
      ∃ x y, Padded n (unhalves ss) x ∧ Padded n (packElems w es) y ∧ rowBytes n w true es ss = x ++ y :=
  ⟨padded_replicate hn _, _, _, padded_replicate hn _, padded_replicate hn _, rfl⟩

theorem Bag.add_acc (b : Bag) (row : List Ex) :
    (b.add row).acc = (b.acc.zip row).map fun e => (roundF ((FFmt.f32.decode e.1).add 0 e.2) .f32 0 0).1 :=
  List.map_map

end Sys2Proof.Machine
end


section
namespace Sys2Proof.Machine

/-! #### Rows of every kind of table (R90, R93-R95, R315) -/

/-! Codes at positions. -/

section
variable {n e v i : Nat} {l : List (Nat × Nat)}

theorem spread_length (n : Nat) (l : List (Nat × Nat)) : (spread n l).length = n := by simp [spread]

theorem spread_getD (h : e < n) : (spread n l).getD e 0 = ((l.filter fun x => x.1 == e).getLast?.map (·.2)).getD 0 := by
  simp [spread, List.getD_eq_getElem?_getD, h]

/-- A position that no entry names is zero. -/
theorem spread_unnamed (h : e < n) (hno : ∀ x ∈ l, x.1 ≠ e) : (spread n l).getD e 0 = 0 := by
  rw [spread_getD h, List.filter_eq_nil_iff.2 fun x hx => by simpa using hno x hx]
  rfl

/-- Of the entries for one position the last stands. -/
theorem spread_last {pre post : List (Nat × Nat)} (h : e < n) (hl : l = pre ++ (e, v) :: post) (hno : ∀ x ∈ post, x.1 ≠ e) :
    (spread n l).getD e 0 = v := by
  have hpost : post.filter (fun x => x.1 == e) = [] := List.filter_eq_nil_iff.2 fun x hx => by simpa using hno x hx
  rw [spread_getD h, hl, List.filter_append, List.filter_cons_of_pos (by simp), hpost, List.getLast?_concat]
  rfl

/-- Codes taken in turn to named positions. -/
theorem spread_zip {ps vs : List Nat} (hi : i < ps.length) (hlen : ps.length ≤ vs.length) (h : ps[i] < n)
    (hlast : ∀ j (hj : j < ps.length), i < j → ps[j] ≠ ps[i]) : (spread n (ps.zip vs)).getD ps[i] 0 = vs.getD i 0 := by
  have hz : i < (ps.zip vs).length := by rw [List.length_zip]; omega
  have hat : (ps.zip vs)[i] = (ps[i], vs.getD i 0) := by
    rw [List.getElem_zip, List.getD_eq_getElem vs 0 (by omega)]
  have hsplit : ps.zip vs = (ps.zip vs).take i ++ (ps[i], vs.getD i 0) :: (ps.zip vs).drop (i + 1) := by
    rw [← hat, ← List.drop_eq_getElem_cons hz, List.take_append_drop]
  refine spread_last h hsplit fun x hx => ?_
  obtain ⟨j, hj, rfl⟩ := List.mem_iff_getElem.1 hx
  rw [List.length_drop, List.length_zip] at hj
  rw [List.getElem_drop, List.getElem_zip]
  exact hlast _ (by omega) (by omega)

theorem spread_zip_unnamed {ps vs : List Nat} (h : e < n) (hno : ∀ p ∈ ps, p ≠ e) : (spread n (ps.zip vs)).getD e 0 = 0 :=
  spread_unnamed h fun _ hx => hno _ (List.of_mem_zip hx).1

end

/-! Blocks in stored order (R90). -/

theorem isPermutation_nodup {l : List Nat} {n : Nat} (h : isPermutation l n = true) : l.Nodup ∧ ∀ b ∈ l, b < n := by
  obtain ⟨hlen, hall⟩ : l.length = n ∧ ∀ x < n, x ∈ l := by simpa [isPermutation] using h
  have hperm : (List.range n).Perm l := by
    refine (List.nodup_range.subperm fun x hx => hall x (List.mem_range.1 hx)).perm_of_length_le ?_
    rw [List.length_range, hlen]
  exact ⟨hperm.nodup_iff.1 List.nodup_range, fun b hb => List.mem_range.1 (hperm.mem_iff.2 hb)⟩

theorem storedAt_of_getElem? {l : List Nat} {p b : Nat} (h : l.Nodup) (hp : l[p]? = some b) : storedAt l b = p := by
  induction l generalizing p with
  | nil => simp at hp
  | cons a l ih =>
    obtain ⟨ha, hl⟩ := List.nodup_cons.1 h
    unfold storedAt at ih ⊢
    cases p with
    | zero =>
      obtain rfl : a = b := by simpa using hp
      simp
    | succ p =>
      have hb : l[p]? = some b := by simpa using hp
      have hne : a ≠ b := fun he => ha (he ▸ List.mem_of_getElem? hb)
      rw [List.takeWhile_cons_of_pos (by simpa using hne), List.length_cons, ih hl hb]

theorem getD_take_zeros {l : List Nat} {n k m : Nat} (h : k < n) : (l.take n ++ List.replicate m 0).getD k 0 = l.getD k 0 := by
  simp only [List.getD_eq_getElem?_getD, List.getElem?_append, List.length_take]
  split
  · rw [List.getElem?_take_of_lt h]
  · rw [List.getElem?_eq_none (l := l) (by omega), List.getElem?_replicate]
    split <;> rfl

theorem getD_range_map {f : Nat → Nat} {n e : Nat} (h : e < n) : ((List.range n).map f).getD e 0 = f e := by
  simp [List.getD_eq_getElem?_getD, h]

section
variable {g : Eng} {c : Cmd} {d : Desc} {r : Nat} {s s1 s2 s3 : State}

theorem magord_row {row : List Byte} {es ss : List Nat} (hk : d.kind = 1)
    (hrow : cmdRead g c (d.aux + r / 32 * 1024 * ((d.nb + 511) / 512)) (2 * d.nb) s = .ok row s1)
    (hperm : isPermutation (halves row) d.nb = true) (hst : storedRow g c d r (d.grid 0) 0 s1 = .ok (es, ss) s2) :
    ∃ es' ss', denseRow g c d r s = .ok (es', ss') s2 ∧ es'.length = d.dim0 ∧ ss'.length = d.nb ∧
      ∀ p b, p < d.nb → (halves row)[p]? = some b → ss'.getD b 0 = ss.getD p 0 ∧
        ∀ j < 32, 32 * b + j < d.dim0 → 32 * p + j < d.dim0 → es'.getD (32 * b + j) 0 = es.getD (32 * p + j) 0 := by
  obtain ⟨hnodup, hbound⟩ := isPermutation_nodup hperm
  have hrun : denseRow g c d r s = .ok
      ((List.range d.dim0).map fun e => (es.take d.dim0 ++ List.replicate 32 0).getD
        (32 * storedAt (halves row) (e / 32) + e % 32) 0,
        (List.range d.nb).map fun b => ss.getD (storedAt (halves row) b) 0) s2 := by
    unfold denseRow
    rw [hk]
    exact (m_bind_ok hrow).trans ((m_bind_ok (need_ok hperm)).trans (m_bind_ok hst))
  refine ⟨_, _, hrun, by simp, by simp, fun p b _ hp => ⟨?_, fun j hj hb hpj => ?_⟩⟩
  · rw [getD_range_map (hbound b (List.mem_of_getElem? hp)), storedAt_of_getElem? hnodup hp]
  · rw [getD_range_map hb, show (32 * b + j) / 32 = b by omega, show (32 * b + j) % 32 = j by omega,
      storedAt_of_getElem? hnodup hp, getD_take_zeros hpj]

theorem coom_row {l : List (Nat × Nat)} (hk : d.kind = 2) (hl : coomRow g c d r (d.grid 0) 0 s = .ok l s1) :
    ∃ es, denseRow g c d r s = .ok (es, []) s1 ∧ es.length = d.dim0 ∧
      ∀ e < d.dim0, ((∀ x ∈ l, x.1 ≠ e) → es.getD e 0 = 0) ∧
        ∀ v pre post, l = pre ++ (e, v) :: post → (∀ x ∈ post, x.1 ≠ e) → es.getD e 0 = v := by
  refine ⟨spread d.dim0 l, ?_, spread_length .., fun e he => ⟨spread_unnamed he, fun v pre post => spread_last he⟩⟩
  unfold denseRow
  rw [hk]
  exact m_bind_ok hl

end

/-! Occupancy words (R94). -/

theorem leNat_cons_div (b : Byte) (bs : List Byte) : leNat (b :: bs) / 256 = leNat bs := by
  have := b.isLt
  simp only [leNat]
  omega

theorem leNat_cons_mod (b : Byte) (bs : List Byte) : leNat (b :: bs) % 256 = b.toNat := by
  have := b.isLt
  simp only [leNat]
  omega

theorem leNat_drop (bs : List Byte) (k : Nat) : leNat (bs.drop k) = leNat bs / 256 ^ k := by
  induction k generalizing bs with
  | zero => simp
  | succ k ih =>
    cases bs with
    | nil => simp [leNat]
    | cons b bs => rw [List.drop_succ_cons, ih, Nat.pow_succ', ← Nat.div_div_eq_div_mul, leNat_cons_div]

theorem leNat_take (bs : List Byte) (k : Nat) : leNat (bs.take k) = leNat bs % 256 ^ k := by
  induction k generalizing bs with
  | zero => simp [leNat, Nat.mod_one]
  | succ k ih =>
    cases bs with
    | nil => simp [leNat]
    | cons b bs => rw [List.take_succ_cons, leNat, ih, Nat.pow_succ', Nat.mod_mul, leNat_cons_mod, leNat_cons_div]

theorem bit_eq_testBit (n i : Nat) : bit n i = n.testBit i := by
  rw [Nat.testBit_eq_decide_div_mod_eq]
  rfl

theorem bit_word (occ : List Byte) (i : Nat) {b : Nat} (hb : b < 64) :
    bit (fieldAt occ (8 * i) 8) b = bit (leNat occ) (64 * i + b) := by
  have hpow : (256 : Nat) ^ (8 * i) = 2 ^ (64 * i) := by
    rw [show (256 : Nat) = 2 ^ 8 by rfl, ← pow_mul]
    exact congrArg (2 ^ ·) (by omega)
  have h : fieldAt occ (8 * i) 8 = leNat occ / 2 ^ (64 * i) % 2 ^ 64 := by
    unfold fieldAt
    rw [leNat_take, leNat_drop, hpow]
    rfl
  rw [bit_eq_testBit, bit_eq_testBit, h, Nat.testBit_mod_two_pow, decide_eq_true hb, Nat.testBit_div_two_pow, Bool.true_and,
    Nat.add_comm]

/-- The set bits of the words of an occupancy are its set bits. -/
theorem setBits_words (occ : List Byte) (n : Nat) :
    setBits ((List.range n).map fun i => fieldAt occ (8 * i) 8) = (List.range (64 * n)).filter fun e => bit (leNat occ) e := by
  induction n with
  | zero => rfl
  | succ n ih =>
    have hword : ((List.range 64).filter (bit (fieldAt occ (8 * n) 8) ·)).map (fun b => 64 * n + b) =
        ((List.range 64).map (64 * n + ·)).filter fun e => bit (leNat occ) e := by
      rw [List.filter_map]
      refine congrArg _ (List.filter_congr fun b hb => ?_)
      exact bit_word occ n (List.mem_range.1 hb)
    have hsplit : setBits ((List.range (n + 1)).map fun i => fieldAt occ (8 * i) 8) =
        setBits ((List.range n).map fun i => fieldAt occ (8 * i) 8) ++
          ((List.range 64).filter (bit (fieldAt occ (8 * n) 8) ·)).map (fun b => 64 * n + b) := by
      unfold setBits
      rw [List.range_succ (n := n), List.map_append, List.zipIdx_append, List.flatMap_append]
      simp
    rw [hsplit, ih, hword, Nat.mul_succ, List.range_add, List.filter_append]

/-- Where none past the end is set, they are those of the row. -/
theorem setBits_row {occ : List Byte} {m n : Nat} (hmn : m ≤ 64 * n) (hoff : ∀ e, m ≤ e → e < 64 * n → bit (leNat occ) e = false) :
    setBits ((List.range n).map fun i => fieldAt occ (8 * i) 8) = (List.range m).filter fun e => bit (leNat occ) e := by
  obtain ⟨k, hk⟩ := Nat.exists_eq_add_of_le hmn
  have hnone : ((List.range k).map (m + ·)).filter (fun e => bit (leNat occ) e) = [] := by
    refine List.filter_eq_nil_iff.2 fun e he => ?_
    obtain ⟨j, hj, rfl⟩ := List.mem_map.1 he
    have hlt := List.mem_range.1 hj
    rw [hoff _ (by omega) (by omega)]
    exact Bool.false_ne_true
  rw [setBits_words, hk, List.range_add, List.filter_append, hnone, List.append_nil]

/-- The place of a number that satisfies a condition among those that do. -/
theorem filter_range_getElem? {on : Nat → Bool} {m e : Nat} (he : e < m) (hon : on e = true) :
    ((List.range m).filter on)[((List.range e).filter on).length]? = some e := by
  obtain ⟨k, rfl⟩ := Nat.exists_eq_add_of_lt he
  rw [show e + k + 1 = e + (k + 1) by omega, List.range_add, List.filter_append, List.getElem?_append_right (Nat.le_refl _),
    Nat.sub_self, List.range_succ_eq_map, List.map_cons, Nat.add_zero, List.filter_cons_of_pos hon]
  rfl

section
variable {g : Eng} {c : Cmd} {d : Desc} {r first : Nat} {s s1 s2 s3 : State}

theorem bitmap_row {occ : List Byte} {vs : List Nat} (hk : d.kind = 3)
    (hocc : cmdRead g c (d.side + 8 * ((d.dim0 + 63) / 64) * r) (8 * ((d.dim0 + 63) / 64)) s = .ok occ s1)
    (hoff : ∀ e, d.dim0 ≤ e → e < 64 * ((d.dim0 + 63) / 64) → bit (leNat occ) e = false)
    (hfirst : if d.aux = 0 ∧ d.dimOf 1 = 1 then first = 0 ∧ s2 = s1
      else ∃ b, cmdRead g c (d.aux + 8 * r) 8 s1 = .ok b s2 ∧ first = leNat b)
    (hvs : readPacked g c d.base d.elemBits first (((List.range d.dim0).filter fun e => bit (leNat occ) e).length) s2 =
      .ok vs s3)
    (hlen : ((List.range d.dim0).filter fun e => bit (leNat occ) e).length ≤ vs.length) :
    ∃ es, denseRow g c d r s = .ok (es, []) s3 ∧ es.length = d.dim0 ∧
      ∀ e < d.dim0, es.getD e 0 = if bit (leNat occ) e then
        vs.getD (((List.range e).filter fun e => bit (leNat occ) e).length) 0 else 0 := by
  have hbits : setBits ((List.range ((d.dim0 + 63) / 64)).map fun i => fieldAt occ (8 * i) 8) =
      (List.range d.dim0).filter fun e => bit (leNat occ) e := setBits_row (by omega) hoff
  have hin : (((List.range d.dim0).filter fun e => bit (leNat occ) e).all (· < d.dim0)) = true :=
    List.all_eq_true.2 fun e he => decide_eq_true (List.mem_range.1 (List.mem_filter.1 he).1)
  refine ⟨spread d.dim0 (((List.range d.dim0).filter fun e => bit (leNat occ) e).zip vs), ?_, spread_length .., fun e he => ?_⟩
  · unfold denseRow
    rw [hk]
    refine (m_bind_ok hocc).trans ?_
    dsimp only
    rw [hbits]
    refine (m_bind_ok (need_ok hin)).trans ?_
    by_cases hnone : d.aux = 0 ∧ d.dimOf 1 = 1
    · obtain ⟨rfl, rfl⟩ := (if_pos hnone).mp hfirst
      exact (m_if_pos hnone).trans ((m_bind_ok rfl).trans (m_bind_ok hvs))
    · obtain ⟨b, hread, rfl⟩ := (if_neg hnone).mp hfirst
      refine (m_if_neg hnone).trans ((m_bind_ok (a := leNat b) (s' := s2) ?_).trans (m_bind_ok hvs))
      exact m_bind_ok hread
  · by_cases hon : bit (leNat occ) e = true
    · obtain ⟨hi, hat⟩ := List.getElem?_eq_some_iff.1 (filter_range_getElem? he hon)
      have hnodup : ((List.range d.dim0).filter fun e => bit (leNat occ) e).Nodup := List.nodup_range.filter _
      have := spread_zip (vs := vs) hi hlen (n := d.dim0) (by rw [hat]; exact he)
        fun j hj hlt heq => absurd ((List.Nodup.getElem_inj_iff hnodup).1 heq) (by omega)
      rw [if_pos hon, ← this, hat]
    · rw [if_neg hon]
      exact spread_zip_unnamed he fun p hp heq => hon (heq ▸ (List.mem_filter.1 hp).2)

/-! Compressed rows (R94). -/

theorem denseRow_compressed (hk : 5 ≤ d.kind) : denseRow g c d r = (do
    let p ← cmdRead g c (d.side + 4 * r) 8
    need 6 (fieldAt p 0 4 ≤ fieldAt p 4 4)
    let cs ← if fieldAt p 0 4 = fieldAt p 4 4 then pure []
      else cmdRead g c (d.aux + 4 * fieldAt p 0 4) (4 * (fieldAt p 4 4 - fieldAt p 0 4))
    let cols := (List.range (fieldAt p 4 4 - fieldAt p 0 4)).map fun i => fieldAt cs (4 * i) 4
    need 6 (cols.all (· < d.dim0))
    let vs ← readPacked g c d.base d.elemBits (fieldAt p 0 4) (fieldAt p 4 4 - fieldAt p 0 4)
    return (spread d.dim0 (cols.zip vs), [])) := by
  unfold denseRow
  split
  case h_5 => rfl
  all_goals omega

theorem csr_row {p cs : List Byte} {vs : List Nat} (hk : 5 ≤ d.kind)
    (hp : cmdRead g c (d.side + 4 * r) 8 s = .ok p s1) (hlt : fieldAt p 0 4 < fieldAt p 4 4)
    (hcs : cmdRead g c (d.aux + 4 * fieldAt p 0 4) (4 * (fieldAt p 4 4 - fieldAt p 0 4)) s1 = .ok cs s2)
    (hcol : ∀ i < fieldAt p 4 4 - fieldAt p 0 4, fieldAt cs (4 * i) 4 < d.dim0)
    (hvs : readPacked g c d.base d.elemBits (fieldAt p 0 4) (fieldAt p 4 4 - fieldAt p 0 4) s2 = .ok vs s3)
    (hlen : vs.length = fieldAt p 4 4 - fieldAt p 0 4) :
    let n := fieldAt p 4 4 - fieldAt p 0 4
    let col (i : Nat) := fieldAt cs (4 * i) 4
    ∃ es, denseRow g c d r s = .ok (es, []) s3 ∧ es.length = d.dim0 ∧
      (∀ e < d.dim0, (∀ i < n, col i ≠ e) → es.getD e 0 = 0) ∧
      ∀ i < n, (∀ j < n, i < j → col j ≠ col i) → es.getD (col i) 0 = vs.getD i 0 := by
  intro n col
  have hall : (((List.range n).map col).all (· < d.dim0)) = true := by
    simpa [List.all_eq_true] using hcol
  refine ⟨spread d.dim0 (((List.range n).map col).zip vs), ?_, spread_length .., fun e he hno => ?_, fun i hi hlast => ?_⟩
  · rw [denseRow_compressed hk]
    exact (m_bind_ok hp).trans ((m_bind_ok (need_ok (decide_eq_true hlt.le))).trans ((m_if_neg hlt.ne).trans
      ((m_bind_ok hcs).trans ((m_bind_ok (need_ok hall)).trans (m_bind_ok hvs)))))
  · exact spread_zip_unnamed he (by simpa using hno)
  · have hi' : i < ((List.range n).map col).length := by simpa using hi
    have hat : ((List.range n).map col)[i] = col i := by simp
    rw [← hat]
    refine spread_zip hi' (by simp [hlen, n]) (hat ▸ hcol i hi) fun j hj hij => ?_
    have hjn : j < n := by simpa using hj
    simpa using hlast j hjn hij

theorem csr_empty {p : List Byte} {vs : List Nat} (hk : 5 ≤ d.kind) (hp : cmdRead g c (d.side + 4 * r) 8 s = .ok p s1)
    (heq : fieldAt p 0 4 = fieldAt p 4 4) (hvs : readPacked g c d.base d.elemBits (fieldAt p 0 4) 0 s1 = .ok vs s3) :
    denseRow g c d r s = .ok (List.replicate d.dim0 0, []) s3 := by
  have hn : fieldAt p 4 4 - fieldAt p 0 4 = 0 := by omega
  have hvs' : readPacked g c d.base d.elemBits (fieldAt p 0 4) (fieldAt p 4 4 - fieldAt p 0 4) s1 = .ok vs s3 := by rwa [hn]
  have hcols : ((List.range (fieldAt p 4 4 - fieldAt p 0 4)).map fun i => fieldAt [] (4 * i) 4) = [] := by
    rw [hn]
    rfl
  have hspread : spread d.dim0 [] = List.replicate d.dim0 0 := by
    refine List.eq_replicate_iff.2 ⟨spread_length .., fun x hx => ?_⟩
    obtain ⟨i, -, rfl⟩ := List.mem_map.1 hx
    rfl
  rw [denseRow_compressed hk]
  refine (m_bind_ok hp).trans ((m_bind_ok (need_ok (decide_eq_true heq.le))).trans ((m_if_pos heq).trans
    ((m_bind_ok rfl).trans ?_)))
  dsimp only
  rw [hcols]
  refine (m_bind_ok (need_ok rfl)).trans ((m_bind_ok hvs').trans ?_)
  rw [List.zip_nil_left, hspread]
  rfl

/-! Rows by class (R95, R320). -/

theorem classEntry_bits {e : Nat} (h : e < 2 ^ 64) :
    bits e 1 0 = e % 4 ∧ bits e 5 2 = e / 4 % 16 ∧ bits e 63 6 = e / 64 := by
  unfold bits
  refine ⟨by omega, by omega, by omega⟩

theorem leNat_lt (bs : List Byte) : leNat bs < 256 ^ bs.length := by
  induction bs with
  | nil => simp [leNat]
  | cons b bs ih =>
    have := b.isLt
    rw [leNat, List.length_cons, Nat.pow_succ']
    omega

section
variable {eb bs sc : List Byte} (heb : tableRead g c (d.aux + 8 * r) 8 s = .ok (some eb) s1) (hlen : eb.length = 8)
  (hzero : leNat eb / 4 % 16 = 0)
include heb hlen hzero

theorem tableRow_plain (hclass : leNat eb % 4 = 0)
    (hread : tableRead g c (d.base + 64 * (leNat eb / 64)) (2 * d.dim0) s1 = .ok (some bs) s2) : tableRow g c d r s =
      .ok (.ok ((halves bs).map (FFmt.bf16.decode ·), flagIf ((halves bs).any FFmt.bf16.isSNaN) Flag.nv)) s2 := by
  obtain ⟨h10, h52, h636⟩ := classEntry_bits (hlen ▸ leNat_lt eb)
  unfold tableRow
  refine (m_bind_ok heb).trans ?_
  dsimp only
  rw [h10, h52, h636, hzero, hclass]
  exact (m_bind_ok (need_ok rfl)).trans ((m_if_pos rfl).trans (m_bind_ok hread))

/-- The width of the codes of a class. -/
def classWidth (k : Nat) : Nat := if k = 1 then 8 else 4

theorem tableRow_scaled (hclass : leNat eb % 4 = 1 ∨ leNat eb % 4 = 2)
    (hread : tableRead g c (d.base + 64 * (leNat eb / 64)) (packedBytes (classWidth (leNat eb % 4)) d.dim0) s1 =
      .ok (some bs) s2)
    (hscales : tableRead g c (d.base + 64 * (leNat eb / 64) + packedBytes (classWidth (leNat eb % 4)) d.dim0) (2 * d.nb) s2 =
      .ok (some sc) s3) (hsc : ∀ h ∈ halves sc, h < 1024)
    (hdim : d.dim0 ≤ (unpackElems (classWidth (leNat eb % 4)) bs).length) :
    ∃ vs fl, tableRow g c d r s = .ok (.ok (vs, fl)) s3 ∧ vs.length = d.dim0 ∧
      ∀ i < d.dim0, vs[i]? = some (scaledValue (if leNat eb % 4 = 1 then d.nf else d.coldNf)
        ((unpackElems (classWidth (leNat eb % 4)) bs).getD i 0) ((halves sc).getD (i / 32) 0)) := by
  obtain ⟨h10, h52, h636⟩ := classEntry_bits (hlen ▸ leNat_lt eb)
  have hform : (decide (leNat eb % 4 < 3) && leNat eb / 4 % 16 == 0) = true := by
    rw [hzero, decide_eq_true (by omega)]
    rfl
  have hgood : ((halves sc).all (· < 1024)) = true := List.all_eq_true.2 fun h hh => decide_eq_true (hsc h hh)
  refine ⟨((unpackElems (classWidth (leNat eb % 4)) bs).take d.dim0).zipIdx.map fun v =>
      scaledValue (if leNat eb % 4 = 1 then d.nf else d.coldNf) v.1 ((halves sc).getD (v.2 / 32) 0),
    flagIf ((halves sc).any fun h => decodeS10 h == .nan true) Flag.rsv, ?_, ?_, fun i hi => ?_⟩
  · unfold tableRow
    refine (m_bind_ok heb).trans ?_
    dsimp only
    rw [h10, h52, h636]
    exact (m_bind_ok (need_ok hform)).trans ((m_if_neg (by omega)).trans ((m_bind_ok hread).trans ((m_bind_ok hscales).trans
      (m_bind_ok (need_ok hgood)))))
  · rw [List.length_map, List.length_zipIdx, List.length_take]
    omega
  · have hin : i < (unpackElems (classWidth (leNat eb % 4)) bs).length := by omega
    rw [List.getElem?_map, List.getElem?_zipIdx, List.getElem?_take_of_lt hi, List.getElem?_eq_getElem hin,
      List.getD_eq_getElem _ 0 hin, Nat.zero_add]
    rfl

end

theorem rowKinds : RowKinds :=
  ⟨fun _ _ _ _ _ _ _ _ _ _ hk hrow hperm hst => magord_row hk hrow hperm hst, fun _ _ _ _ _ _ _ hk hl => coom_row hk hl,
    fun _ _ _ _ _ _ _ _ _ _ _ hk hocc _ hoff hfirst hvs hlen => bitmap_row hk hocc hoff hfirst hvs hlen,
    fun _ _ _ _ _ _ _ _ _ _ _ hk hp hlt hcs hcol hvs hlen => csr_row hk hp hlt hcs hcol hvs hlen,
    fun _ _ _ _ _ _ _ _ _ hk hp heq hvs => csr_empty hk hp heq hvs,
    fun _ _ _ _ _ _ _ _ _ _ _ heb hlen hzero => ⟨fun hclass hread => tableRow_plain heb hlen hzero hclass hread,
      fun hclass hread hscales hsc hdim => tableRow_scaled heb hlen hzero hclass hread hscales hsc hdim⟩⟩

end

end Sys2Proof.Machine
end


section
open Sys2Proof.Machine

/-- Settles O43: each command through its body past the checks of its operands, and each kind of row through what it stores. -/
theorem indexEngineCommands : Obligations.IndexEngineCommands := by
  unfold Obligations.IndexEngineCommands
  refine ⟨fun o => ⟨gathers o, gathersToQueue o⟩, fun o => ⟨scatters o, takesGroups o⟩,
    fun o cl s s1 s2 s3 s4 s5 c tbl dst ofs bag => ?bagsTable, fun o cl k s b s3 s4 c tbl ofs bag => ?bagsQueue,
    fun n w es ss hn => rowBytes_padded hn w es ss, rowKinds, emitsWords,
    fun o cl s s1 s2 s3 s4 c da db oa ob => ?isect, fun o cl s s1 s2 s3 s4 s5 c d raw => ?msort,
    fun o cl s s1 s2 s3 s4 s5 s6 c wt gd mk a b => ?spsrch, fun d l hsame hl => mergeCoords_sorted d true hsame hl,
    fun b row _ => b.add_acc row⟩
  case bagsTable =>
    intro g f lo hi opt h hz hopt hfmt hq htt htd hnq hs hd hkind htable hsize hefmt hrows hlt hempty hofs
    have hqout : Sys2Proof.bit (blockField c 0x1C 2) 1 = false := (bit_one _).trans ((congrArg (· == 1) hq).trans rfl)
    have hbody : bagsBody g c s = bagsRow g c tbl dst 0 s2 :=
      bagsBody_table ⟨hz, hopt, hfmt⟩ hq htt htd hnq hs hd hkind htable hsize hefmt hrows
    refine ⟨fun hback => ?_, fun hle hbag => ?_⟩
    · exact block_stops (indexLane_bags o) rfl h (hbody.trans (bagsRow_backward hlt hempty hofs hback))
    · intro acc fmt outs c' hwrite
      have houts : outs = bagOuts opt (bagSums opt (hi - lo) bag) := bagOuts_eq bag hle
      have hsums := bagsRow_sums (dst := dst) (width := 0) hlt hempty hofs hopt hle hbag
      rw [← houts] at hsums
      exact block_counts (indexLane_bags o) rfl h rfl (hbody.trans (hsums.trans (bagDeliver_writes hqout hwrite)))
  case bagsQueue =>
    intro g f lo hi opt q h hz hopt hfmt hq htt htd hdrow hs hkind hqueue hlt
    have hqout : Sys2Proof.bit (blockField c 0x1C 2) 1 = true := (bit_one _).trans ((congrArg (· == 1) hq).trans rfl)
    have hbody : bagsBody g c s = bagsRow g c tbl tbl (queueOf b k q).width b :=
      bagsBody_queue ⟨hz, hopt, hfmt⟩ hq htt htd hdrow hs hkind hqueue
    refine ⟨fun hheld => ?_, fun hempty hofs hle hbag => ?_⟩
    · exact pushesRow (indexLane_bags o) rfl h hqueue.1 (hbody.trans (bagsRow_held hlt hheld))
    · intro acc fmt outs
      have houts : outs = bagOuts opt (bagSums opt (hi - lo) bag) := bagOuts_eq bag hle
      have hsums := bagsRow_sums (dst := tbl) (width := (queueOf b k q).width) hlt hempty hofs hopt hle hbag
      rw [← houts] at hsums
      exact block_goesOn (indexLane_bags o) rfl h rfl (hbody.trans (hsums.trans (bagDeliver_holds hqout)))
  case isect =>
    intro g f x h hz1 hz2 hmode hq hta htb ha hb hka hkb hna hnb hsize
    have hi := indexLane_isect o
    have hbody : isectBody g c s = isectStep g c da db (f 0x1D 1) 0 s2 :=
      isectBody_memory ⟨⟨hz1, hz2⟩, ⟨hta, htb⟩, ⟨hka, hkb⟩, ⟨hna, hnb⟩, hsize⟩ ha hb hmode hq
    refine ⟨fun hleft hw => ?_, fun hleft hw hoa hob => ?_, fun s5 s6 s7 va vb hleft => ?_⟩
    · exact block_completes hi rfl h (hbody.trans ((m_if_pos hleft).trans ((isectNext_ends hw).trans (m_if_pos rfl))))
    · exact block_goesOn hi rfl h rfl (hbody.trans ((m_if_pos hleft).trans (isectNext_reads hw hoa hob)))
    · intro j hva hvb hindex hwa hwb
      exact block_goesOn hi rfl h rfl (hbody.trans ((m_if_neg hleft).trans (isectEmit_writes hva hvb hindex hwa hwb)))
  case msort =>
    intro g f m c1 h hz1 hz2 hz3 hopt htd hd hkind hraw b vs hvs hkeys hdir
    have hbody : msortBody g c s = msortStore g c1 d m.1 b := msortBody_runs hz1 hz2 hz3 hopt htd hd hkind hraw
    exact block_completes (indexLane_msort o) rfl h (hbody.trans (msortStore_stores hvs hkeys hdir))
  case spsrch =>
    intro g f p h hz htw htg htm hw hg hm htabw htabg htabm hfw hfg hfm hd0 hd1 hm0 hm1 hmk0 hmk1 ha hb hwrite
    exact block_counts (indexLane_spsrch o) rfl h rfl (spsrchBody_runs ⟨hz, ⟨htw, htg, htm⟩, ⟨htabw, htabg, htabm⟩,
      ⟨hfw, hfg, hfm⟩, ⟨hd0, hd1, hm0, hm1⟩, hmk0, hmk1⟩ hw hg hm ha hb hwrite)

end


section
namespace Sys2Proof.Machine

/-! ### Every step keeps the past of the coherence order (R110, R111)

The relation `HistoryKept` to a fixed earlier memory is the invariant. A meaning in the monad has it as `KeepsPast`, a function
on states as a lemma on the memory of what it answers, an instruction as `OutKeeps`. -/

/-- A write of the order as a later memory may hold it: the same name, agent and bytes, with no publication undone. -/
def SameWrite (w v : Write) : Prop := v.id = w.id ∧ v.agent = w.agent ∧ v.cells = w.cells ∧ w.pubs ⊆ v.pubs

theorem SameWrite.refl (w : Write) : SameWrite w w := ⟨rfl, rfl, rfl, fun _ h => h⟩

theorem SameWrite.trans {u v w : Write} (h : SameWrite u v) (h' : SameWrite v w) : SameWrite u w := by
  obtain ⟨h1, h2, h3, h4⟩ := h
  obtain ⟨k1, k2, k3, k4⟩ := h'
  exact ⟨k1.trans h1, k2.trans h2, k3.trans h3, fun _ h => k4 (h4 h)⟩

theorem sameWrite_addPub (ids : List Nat) (p : Pub) (w : Write) : SameWrite w (addPub ids p w) := by
  unfold addPub
  split
  · exact ⟨rfl, rfl, rfl, List.subset_append_left ..⟩
  · exact .refl w

/-- The same writes in the same places. -/
def SameWrites (l m : List Write) : Prop := List.Forall₂ SameWrite l m

theorem SameWrites.refl (l : List Write) : SameWrites l l := List.forall₂_same.2 fun w _ => .refl w

theorem SameWrites.trans {l m n : List Write} (h : SameWrites l m) (h' : SameWrites m n) : SameWrites l n := by
  induction h generalizing n with
  | nil => exact h'
  | cons hw _ ih =>
    cases h' with
    | cons hv ht => exact .cons (hw.trans hv) (ih ht)

theorem sameWrites_map {f : Write → Write} (hf : ∀ w, SameWrite w (f w)) (l : List Write) : SameWrites l (l.map f) :=
  List.forall₂_map_right_iff.2 (List.forall₂_same.2 fun w _ => hf w)

theorem SameWrites.front {l m n : List Write} (h : SameWrites (l ++ m) n) :
    ∃ front back, n = front ++ back ∧ SameWrites l front := by
  refine ⟨n.take l.length, n.drop l.length, (List.take_append_drop ..).symm, ?_⟩
  have ht := List.forall₂_take l.length h
  rwa [List.take_left] at ht

/-- The order of a later memory: the earlier one's writes in their places, then new ones. -/
theorem HistoryKept.of_log {m n : Memory} {old new : List Write} (hc : n.cells = m.cells) (hl : n.log = old ++ new)
    (hs : SameWrites m.log old) : HistoryKept m n := ⟨hc, old, new, hl, hs⟩

theorem HistoryKept.of_same {m n : Memory} (hc : n.cells = m.cells) (hl : n.log = m.log) : HistoryKept m n :=
  .of_log hc (hl.trans (List.append_nil _).symm) (.refl _)

@[simp] theorem HistoryKept.refl (m : Memory) : HistoryKept m m := .of_same rfl rfl

theorem HistoryKept.trans {m n k : Memory} (h : HistoryKept m n) (h' : HistoryKept n k) : HistoryKept m k := by
  obtain ⟨hc, old, new, hl, hs⟩ := h
  obtain ⟨hc', old', new', hl', hs'⟩ := h'
  rw [hl] at hs'
  obtain ⟨front, back, rfl, hf⟩ := SameWrites.front hs'
  exact .of_log (hc'.trans hc) (hl'.trans (List.append_assoc ..)) (SameWrites.trans hs hf)

/-- A meaning keeps the past of memory, from every state and however it ends. -/
def KeepsPast {α : Type} (m : M α) : Prop := ∀ k, Stays (fun s => HistoryKept k s.mem) m

section
variable {α β : Type}

@[simp] theorem past_pure (a : α) : KeepsPast (pure a : M α) := fun _ => .pure a
@[simp] theorem past_get : KeepsPast (get : M State) := fun _ => .get
@[simp] theorem past_throw (e : Stop) : KeepsPast (throw e : M α) := fun _ => .throw e
@[simp] theorem past_trap (c : Nat) (x y : Word) : KeepsPast (trap c x y : M α) := fun _ => .throw _

@[simp] theorem past_upd (f : State → State) : KeepsPast (upd f) ↔ ∀ s, HistoryKept s.mem (f s).mem :=
  ⟨fun h s => h s.mem s (.refl _), fun h _ => .upd fun s hs => hs.trans (h s)⟩

theorem KeepsPast.bind {m : M α} {f : α → M β} (hm : KeepsPast m) (hf : ∀ a, KeepsPast (f a)) : KeepsPast (m >>= f) :=
  fun k => (hm k).bind fun a => hf a k

end

section
variable {α β : Type}

theorem KeepsPast.ok {m : M α} (hm : KeepsPast m) {k : Memory} {s t : State} {a : α} (h : HistoryKept k s.mem)
    (hs : m s = .ok a t) : HistoryKept k t.mem := (hm k).ok h hs

theorem KeepsPast.stop {m : M α} (hm : KeepsPast m) {k : Memory} {s t : State} {e : Stop} (h : HistoryKept k s.mem)
    (hs : m s = .error e t) : HistoryKept k t.mem := by
  have := hm k s h
  rwa [hs] at this

@[simp] theorem past_map {m : M α} (f : α → β) (hm : KeepsPast m) : KeepsPast (f <$> m) := by
  rw [map_eq_pure_bind]
  exact hm.bind fun _ => past_pure _

theorem KeepsPast.ite {c : Prop} [Decidable c] {m n : M α} (hm : KeepsPast m) (hn : KeepsPast n) :
    KeepsPast (if c then m else n) := by
  split
  · exact hm
  · exact hn

@[simp] theorem past_runM {k : Memory} {m : M Unit} {s : State} (hm : KeepsPast m) (h : HistoryKept k s.mem) :
    HistoryKept k (runM m s).mem := (hm k).runM h

@[simp] theorem past_foldl {k : Memory} {f : State → α → State} {s : State} {l : List α}
    (hf : ∀ m s a, HistoryKept m s.mem → HistoryKept m (f s a).mem) (h : HistoryKept k s.mem) :
    HistoryKept k (l.foldl f s).mem := by
  induction l generalizing s with
  | nil => exact h
  | cons a l ih => exact ih (hf _ _ _ h)

@[simp] theorem ite_mem {c : Prop} [Decidable c] {s t : State} :
    (if c then s else t).mem = if c then s.mem else t.mem := apply_ite ..

@[simp] theorem foldl_mem {f : State → α → State} {s : State} {l : List α} (hf : ∀ s a, (f s a).mem = s.mem) :
    (l.foldl f s).mem = s.mem := by
  induction l generalizing s with
  | nil => rfl
  | cons a l ih => exact ih.trans (hf s a)

theorem past_runs {m : M α} (h : ∀ k s, HistoryKept k s.mem → match m s with
    | .ok _ t => HistoryKept k t.mem
    | .error _ t => HistoryKept k t.mem) : KeepsPast m := h

end

theorem past_trap_bind {α β : Type} {c : Nat} {x y : Word} {f : α → M β} : KeepsPast (trap c x y >>= f) := fun _ _ h => h
theorem past_throw_bind {α β : Type} {e : Stop} {f : α → M β} : KeepsPast (throw e >>= f) := fun _ _ h => h

/-- An outcome keeps the past of the memory of a state: where it goes on, the next state has it. -/
def OutKeeps (s : State) (r : Out) : Prop := ∀ t, r = .next t → HistoryKept s.mem t.mem

@[simp] theorem outKeeps_next {s t : State} : OutKeeps s (.next t) ↔ HistoryKept s.mem t.mem :=
  ⟨fun h => h t rfl, fun h _ ht => by cases ht; exact h⟩

theorem outKeeps_ite {c : Prop} [Decidable c] {s : State} {x y : Out} (hx : OutKeeps s x) (hy : OutKeeps s y) :
    OutKeeps s (if c then x else y) := by
  split
  · exact hx
  · exact hy

theorem past_ite_state {c : Prop} [Decidable c] {k : Memory} {s t : State} (hs : HistoryKept k s.mem) (ht : HistoryKept k t.mem) :
    HistoryKept k (if c then s else t).mem := by
  split
  · exact hs
  · exact ht

@[simp] theorem past_pick (lo hi) : KeepsPast (pick lo hi) := fun _ => stays_pick (fun _ _ h => h) lo hi
@[simp] theorem past_freshId : KeepsPast freshId := fun _ _ h => h

@[simp] theorem past_ite {c : Prop} [Decidable c] {k m n : Memory} (hm : HistoryKept k m) (hn : HistoryKept k n) :
    HistoryKept k (if c then m else n) := by
  split
  · exact hm
  · exact hn

theorem past_forIn {α β : Type} {l : List α} {b : β} {f : α → β → M (ForInStep β)} (hf : ∀ a b, KeepsPast (f a b)) :
    KeepsPast (forIn l b f) := by
  induction l generalizing b with
  | nil => exact past_pure _
  | cons a l ih =>
    rw [List.forIn_cons]
    refine (hf a b).bind fun r => ?_
    cases r with
    | done b => exact past_pure _
    | yield b => exact ih

/-- A memory with the initial contents of another and its order followed by new writes. -/
theorem HistoryKept.append {k m n : Memory} {new : List Write} (h : HistoryKept k m) (hc : n.cells = m.cells)
    (hl : n.log = m.log ++ new) : HistoryKept k n := h.trans (.of_log hc hl (.refl _))

theorem HistoryKept.same {k m n : Memory} (h : HistoryKept k m) (hc : n.cells = m.cells) (hl : n.log = m.log) :
    HistoryKept k n := h.trans (.of_same hc hl)

@[simp] theorem past_clearPoison {k m pa n} (h : HistoryKept k m) : HistoryKept k (clearPoison m pa n) :=
  h.same (clearPoison_cells ..) (clearPoison_log ..)

@[simp] theorem past_clearSectors {k m t} (h : HistoryKept k m) : HistoryKept k (clearSectors m t) :=
  h.same (clearSectors_cells ..) (clearSectors_log ..)

@[simp] theorem past_marks {k m : Memory} {p : List Nat} {u : List (Nat × Upset)} (h : HistoryKept k m) :
    HistoryKept k { cells := m.cells, log := m.log, poison := p, upsets := u } := h.same rfl rfl

end Sys2Proof.Machine
end

section
namespace Sys2Proof.Machine
open State

/-! ### What each function of the model does to the past

One lemma for each function, in the order of the model's definitions: a function that leaves memory alone has the equation
`f_mem`, one that writes or reads memory the lemma `past_f`. -/

/-! #### Parts of the state -/

@[simp] theorem past_State_setThread {k s t v} (h : HistoryKept k s.mem) : HistoryKept k (State.setThread s t v).mem := h
@[simp] theorem past_State_setCluster {k s c v} (h : HistoryKept k s.mem) : HistoryKept k (State.setCluster s c v).mem := h
@[simp] theorem past_State_setCrew {k s c v} (h : HistoryKept k s.mem) : HistoryKept k (State.setCrew s c v).mem := h
@[simp] theorem past_State_setContext {k s c v} (h : HistoryKept k s.mem) : HistoryKept k (State.setContext s c v).mem := h
@[simp] theorem past_State_setPartition {k s p v} (h : HistoryKept k s.mem) : HistoryKept k (State.setPartition s p v).mem := h
@[simp] theorem past_State_bump {past s k n} (h : HistoryKept past s.mem) : HistoryKept past (State.bump s k n).mem := h
@[simp] theorem State_countError_mem {s cls unit inst} : (State.countError s cls unit inst).mem = s.mem := rfl
@[simp] theorem past_State_setView {k s a v} (h : HistoryKept k s.mem) : HistoryKept k (State.setView s a v).mem := h
@[simp] theorem past_State_dropView {k s a} (h : HistoryKept k s.mem) : HistoryKept k (State.dropView s a).mem := h
@[simp] theorem updAnyCmd_mem {id f s} : (updAnyCmd id f s).mem = s.mem := rfl

/-! #### Phase consistency -/

@[simp] theorem past_choosePrefix {v dec vis} : KeepsPast (choosePrefix v dec vis) := by simp [choosePrefix]

@[simp] theorem past_chooseSnap {a line} : KeepsPast (chooseSnap a line) := by
  unfold chooseSnap; repeat' first | with_reducible refine .bind ?_ fun _ => ?_ | split | simp

@[simp] theorem past_memoryUnit {mem} : KeepsPast (memoryUnit mem) := by
  unfold memoryUnit; repeat' first | with_reducible refine .bind ?_ fun _ => ?_ | split | simp

@[simp] theorem past_countSector {cls sec} : KeepsPast (countSector cls sec) := by
  unfold countSector; repeat' first | with_reducible refine .bind ?_ fun _ => ?_ | simp

@[simp] theorem past_checkSector {sec} : KeepsPast (checkSector sec) := by
  unfold checkSector; repeat' first | with_reducible refine .bind ?_ fun _ => ?_ | split | simp

@[simp] theorem past_checkSectors {a} : KeepsPast (checkSectors a) := by
  fun_induction checkSectors a <;> repeat' first | with_reducible refine .bind ?_ fun _ => ?_ | simp [*]

@[simp] theorem past_checkCounted {a} : KeepsPast (checkCounted a) := by
  fun_induction checkCounted a <;> repeat' first | with_reducible refine .bind ?_ fun _ => ?_ | split | simp [*]

@[simp] theorem past_chooseSnaps {a x} : KeepsPast (chooseSnaps a x) := by
  fun_induction chooseSnaps a x <;> repeat' first | with_reducible refine .bind ?_ fun _ => ?_ | simp [*]

@[simp] theorem past_readPhys {a pa n} : KeepsPast (readPhys a pa n) := by
  unfold readPhys; repeat' first | with_reducible refine .bind ?_ fun _ => ?_ | split | simp

@[simp] theorem past_readPort {pa n} : KeepsPast (readPort pa n) := by
  unfold readPort; repeat' first | with_reducible refine .bind ?_ fun _ => ?_ | split | simp

@[simp] theorem past_readPublished {pa n} : KeepsPast (readPublished pa n) := by
  unfold readPublished; repeat' first | with_reducible refine .bind ?_ fun _ => ?_ | split | simp

@[simp] theorem past_writeLine {k s a pa bs} (h : HistoryKept k s.mem) : HistoryKept k (writeLine s a pa bs).mem := by
  simp [writeLine, h]

@[simp] theorem past_writePhys {a pa bs} : KeepsPast (writePhys a pa bs) := by
  unfold writePhys
  exact (past_upd _).2 fun s => past_foldl (fun _ _ _ h => past_writeLine h) (.refl _)

@[simp] theorem past_writeUnit {a parts} : KeepsPast (writeUnit a parts) := by
  unfold writeUnit
  exact (past_upd _).2 fun s => .of_same (clear_parts parts s.mem).1 (clear_parts parts s.mem).2

@[simp] theorem past_writePort {a pa bs} : KeepsPast (writePort a pa bs) := by
  unfold writePort
  exact (past_upd _).2 fun s => .append (.refl _) (clearPoison_cells ..) rfl

/-- A release adds the agent's unpublished writes to the order and its publication to those named (R114). -/
@[simp] theorem past_publishAs {m s a b scope ids} (h : HistoryKept m s.mem) : HistoryKept m (publishAs s a b scope ids).mem := by
  have hlog (fresh : List Write) (p : Pub) :
      HistoryKept m { s.mem with log := (s.mem.log ++ fresh).map (addPub ids p) } :=
    h.trans (.of_log rfl (List.map_append ..) (sameWrites_map (sameWrite_addPub ids p) _))
  unfold publishAs
  dsimp only
  split
  · exact hlog ..
  · exact hlog ..

@[simp] theorem past_publishIds {k s a scope ids} (h : HistoryKept k s.mem) : HistoryKept k (publishIds s a scope ids).mem := by
  simp [publishIds, h]

@[simp] theorem past_releaseNames {k s a scope ids} (h : HistoryKept k s.mem) : HistoryKept k (releaseNames s a scope ids).mem := by
  unfold releaseNames; repeat' first | exact h | split | simp [*]

@[simp] theorem past_release {k s a scope} (h : HistoryKept k s.mem) : HistoryKept k (release s a scope).mem := by
  simp [release, h]

@[simp] theorem gainIds_mem {s a ids} : (gainIds s a ids).mem = s.mem := rfl
@[simp] theorem acquire_mem {s a scope} : (acquire s a scope).mem = s.mem := rfl

@[simp] theorem past_underPhase {α : Type} {a p} {m : M α} (hm : KeepsPast m) : KeepsPast (underPhase a p m) := by
  refine past_runs fun k s h => ?_
  have hrun := hm k (s.setView a { s.view a with snap := p.snap, fresh := p.fresh, gained := p.gained }) h
  unfold underPhase
  dsimp only
  cases hs : m (s.setView a _) <;> rw [hs] at hrun <;> exact hrun

@[simp] theorem past_inPhase {α : Type} {c name} {m : M α} (hm : KeepsPast m) : KeepsPast (inPhase c name m) := by
  unfold inPhase
  repeat' first | with_reducible refine .bind ?_ fun _ => ?_ | split | simp [hm]

/-! #### Translation and pins -/

@[simp] theorem past_walkFrom {va t depth l} : KeepsPast (walkFrom va t depth l) := by
  induction l generalizing t depth with
  | nil => exact past_pure _
  | cons x l ih =>
    unfold walkFrom
    repeat' first | with_reducible refine .bind ?_ fun _ => ?_ | split | simp [ih]

@[simp] theorem past_walk {ctx level va write fetch} : KeepsPast (walk ctx level va write fetch) := by
  unfold walk; repeat' first | with_reducible refine .bind ?_ fun _ => ?_ | split | simp

@[simp] theorem fillTlb_mem {s core e} : (fillTlb s core e).mem = s.mem := by simp [fillTlb]

@[simp] theorem past_translate {t level va write fetch} : KeepsPast (translate t level va write fetch) := by
  unfold translate; repeat' first | with_reducible refine .bind ?_ fun _ => ?_ | split | simp

@[simp] theorem past_walkRange {ctx level write fetch a x y} : KeepsPast (walkRange ctx level write fetch a x y) := by
  fun_induction walkRange ctx level write fetch a x y <;> repeat' first | with_reducible refine .bind ?_ fun _ => ?_ | split | simp [*]

@[simp] theorem past_walkRanges {ctx level write fetch a} : KeepsPast (walkRanges ctx level write fetch a) := by
  fun_induction walkRanges ctx level write fetch a <;> repeat' first | with_reducible refine .bind ?_ fun _ => ?_ | split | simp [*]

@[simp] theorem past_readParts {a x} : KeepsPast (readParts a x) := by
  fun_induction readParts a x <;> repeat' first | with_reducible refine .bind ?_ fun _ => ?_ | split | simp [*]

@[simp] theorem past_readPinned {a holds va n} : KeepsPast (readPinned a holds va n) := by
  unfold readPinned; repeat' first | with_reducible refine .bind ?_ fun _ => ?_ | split | simp

@[simp] theorem past_writeParts {a x y} : KeepsPast (writeParts a x y) := by
  fun_induction writeParts a x y <;> repeat' first | with_reducible refine .bind ?_ fun _ => ?_ | simp [*]

@[simp] theorem past_writePinned {a holds va bs} : KeepsPast (writePinned a holds va bs) := by
  unfold writePinned; repeat' first | with_reducible refine .bind ?_ fun _ => ?_ | split | simp

/-! #### Registers, events, queues, crews -/

@[simp] theorem past_updScalar {o f} : KeepsPast (updScalar o f) := by simp [updScalar]

@[simp] theorem past_readReg {o r ta} : KeepsPast (readReg o r ta) := by
  unfold readReg; repeat' first | with_reducible refine .bind ?_ fun _ => ?_ | split | simp

@[simp] theorem past_destReady {o r} : KeepsPast (destReady o r) := by
  unfold destReady; repeat' first | with_reducible refine .bind ?_ fun _ => ?_ | split | simp

@[simp] theorem past_writeReg {o r v} : KeepsPast (writeReg o r v) := by
  unfold writeReg; repeat' first | with_reducible refine .bind ?_ fun _ => ?_ | split | simp

@[simp] theorem past_awaitReg {o r p} : KeepsPast (awaitReg o r p) := by
  unfold awaitReg; repeat' first | with_reducible refine .bind ?_ fun _ => ?_ | split | simp

@[simp] theorem past_readPred {o k} : KeepsPast (readPred o k) := by simp [readPred]
@[simp] theorem past_writePred {o k b} : KeepsPast (writePred o k b) := by simp [writePred]
@[simp] theorem past_guardHolds {o g ng} : KeepsPast (guardHolds o g ng) := by simp [guardHolds]
@[simp] theorem past_illegal {α : Type} : KeepsPast (illegal : M α) := by simp [illegal]
@[simp] theorem past_privileged {α : Type} {info} : KeepsPast (privileged info : M α) := by simp [privileged]

@[simp] theorem past_hubWrite {pa bs scope} : KeepsPast (hubWrite pa bs scope) := by
  refine (past_upd _).2 fun s => past_foldl (fun _ _ _ h => ?_) (.refl _)
  exact h.append (clearPoison_cells ..) rfl

@[simp] theorem past_hubParts {ctx write a} : KeepsPast (hubParts ctx write a) := by
  fun_induction hubParts ctx write a <;> repeat' first | with_reducible refine .bind ?_ fun _ => ?_ | split | simp [*]

@[simp] theorem past_hubWriteParts {scope a x} : KeepsPast (hubWriteParts scope a x) := by
  fun_induction hubWriteParts scope a x <;> repeat' first | with_reducible refine .bind ?_ fun _ => ?_ | simp [*]

@[simp] theorem past_hubStore {ctx va bs scope} : KeepsPast (hubStore ctx va bs scope) := by
  unfold hubStore; repeat' first | with_reducible refine .bind ?_ fun _ => ?_ | split | simp

@[simp] theorem past_hubLoadParts {a} : KeepsPast (hubLoadParts a) := by
  fun_induction hubLoadParts a <;> repeat' first | with_reducible refine .bind ?_ fun _ => ?_ | split | simp [*]

@[simp] theorem past_hubLoad {ctx va n} : KeepsPast (hubLoad ctx va n) := by
  unfold hubLoad; repeat' first | with_reducible refine .bind ?_ fun _ => ?_ | split | simp

@[simp] theorem past_event {ctx type cause crew addr info} : KeepsPast (event ctx type cause crew addr info) := by
  unfold event; repeat' first | with_reducible refine .bind ?_ fun _ => ?_ | split | simp

@[simp] theorem past_containReport {ctx crew addr unit inst kind detail} : KeepsPast (containReport ctx crew addr unit inst kind detail) := by
  unfold containReport; repeat' first | with_reducible refine .bind ?_ fun _ => ?_ | split | simp

@[simp] theorem past_errorReport {ctx cls unit inst kind detail} : KeepsPast (errorReport ctx cls unit inst kind detail) := by simp [errorReport]
@[simp] theorem settleMove_mem {s c ended} : (settleMove s c ended).mem = s.mem := rfl

@[simp] theorem past_moveReports {w l} : KeepsPast (moveReports w l) := by
  induction l with
  | nil => exact past_pure _
  | cons x l ih =>
    unfold moveReports
    repeat' first | with_reducible refine .bind ?_ fun _ => ?_ | split | simp [ih]

@[simp] theorem past_reportWithdrawals {a} : KeepsPast (reportWithdrawals a) := by
  fun_induction reportWithdrawals a <;> repeat' first | with_reducible refine .bind ?_ fun _ => ?_ | simp [*]

@[simp] theorem past_reportMoves : KeepsPast (reportMoves) := by
  unfold reportMoves; repeat' first | with_reducible refine .bind ?_ fun _ => ?_ | simp

@[simp] theorem past_getQueue {c q} : KeepsPast (getQueue c q) := by simp [getQueue]
@[simp] theorem past_setQueue {c q v} : KeepsPast (setQueue c q v) := by simp [setQueue]

@[simp] theorem past_checkQueue {c q ep width push} : KeepsPast (checkQueue c q ep width push) := by
  unfold checkQueue; repeat' first | with_reducible refine .bind ?_ fun _ => ?_ | split | simp

@[simp] theorem past_popQueue {c q ep width thread} : KeepsPast (popQueue c q ep width thread) := by
  unfold popQueue; repeat' first | with_reducible refine .bind ?_ fun _ => ?_ | split | simp

@[simp] theorem past_pushQueue {c q ep width e} : KeepsPast (pushQueue c q ep width e) := by
  unfold pushQueue; repeat' first | with_reducible refine .bind ?_ fun _ => ?_ | split | simp

@[simp] theorem countEpisode_mem {s c q push loss} : (countEpisode s c q push loss).mem = s.mem := by simp [countEpisode]
@[simp] theorem fenceNow_mem {s o} : (fenceNow s o).mem = s.mem := by simp [fenceNow]

@[simp] theorem past_lineBefore {o pa} : KeepsPast (lineBefore o pa) := by
  unfold lineBefore; repeat' first | with_reducible refine .bind ?_ fun _ => ?_ | split | simp

@[simp] theorem past_fetchBytes {o va pa} : KeepsPast (fetchBytes o va pa) := by
  unfold fetchBytes; repeat' first | with_reducible refine .bind ?_ fun _ => ?_ | split | simp

@[simp] theorem past_fetchLine {o va} : KeepsPast (fetchLine o va) := by
  unfold fetchLine; repeat' first | with_reducible refine .bind ?_ fun _ => ?_ | split | simp

@[simp] theorem past_lookLine {o va} : KeepsPast (lookLine o va) := by
  refine past_runs fun k s h => ?_
  unfold lookLine
  cases hs : fetchLine o va s with
  | ok bs t => simpa using past_fetchLine.ok h hs
  | error e t => have := past_fetchLine.stop h hs; cases e <;> exact this

@[simp] theorem past_targetOk {o p entry} : KeepsPast (targetOk o p entry) := by
  unfold targetOk; repeat' first | with_reducible refine .bind ?_ fun _ => ?_ | split | simp

@[simp] theorem chargeTime_mem {s cl} : (chargeTime s cl).mem = s.mem := by
  unfold chargeTime; split <;> simp

@[simp] theorem rotate_mem {s cl} : (rotate s cl).mem = s.mem := by
  unfold rotate; repeat' first | split | simp

@[simp] theorem rouse_mem {s cl} : (rouse s cl).mem = s.mem := by
  unfold rouse; split <;> simp

@[simp] theorem dropPins_mem {s f} : (dropPins s f).mem = s.mem := rfl
@[simp] theorem leave_mem {s cl slot} : (leave s cl slot).mem = s.mem := by simp [leave]
@[simp] theorem leaveSlot_mem {s c} : (leaveSlot s c).mem = s.mem := by simp [leaveSlot]
@[simp] theorem vacate_mem {s c} : (vacate s c).mem = s.mem := by simp [vacate]
@[simp] theorem send_mem {s pkg x} : (send s pkg x).mem = s.mem := by simp [send]
@[simp] theorem sendPacket_mem {s x p} : (sendPacket s x p).mem = s.mem := by simp [sendPacket]
@[simp] theorem sendAll_mem {s shid kind x} : (sendAll s shid kind x).mem = s.mem := by simp [sendAll]
@[simp] theorem unbind_mem {s shid} : (unbind s shid).mem = s.mem := rfl
@[simp] theorem quitShuffles_mem {s f} : (quitShuffles s f).mem = s.mem := by simp [quitShuffles]

@[simp] theorem dropCmds_mem {s f} : (dropCmds s f).mem = s.mem := by
  unfold dropCmds
  exact quitShuffles_mem.trans (foldl_mem fun s e => rfl)

@[simp] theorem endCrew_mem {s c} : (endCrew s c).mem = s.mem := by simp [endCrew]
@[simp] theorem purge_mem {s l} : (purge s l).mem = s.mem := rfl

@[simp] theorem stopLaunch_mem {s l status} : (stopLaunch s l status).mem = s.mem := by
  unfold stopLaunch; split <;> simp

@[simp] theorem endInstance_mem {s k} : (endInstance s k).mem = s.mem := by
  unfold endInstance; split <;> simp

@[simp] theorem past_failCrew {c cause} : KeepsPast (failCrew c cause) := by
  unfold failCrew; repeat' first | with_reducible refine .bind ?_ fun _ => ?_ | simp

@[simp] theorem haltCrew_mem {s c suspend cause} : (haltCrew s c suspend cause).mem = s.mem := by simp [haltCrew]

@[simp] theorem past_haltOwner {t cause} : KeepsPast (haltOwner t cause) := by
  unfold haltOwner; repeat' first | with_reducible refine .bind ?_ fun _ => ?_ | split | simp

@[simp] theorem past_recordParts {t va n write} : KeepsPast (recordParts t va n write) := by
  unfold recordParts; repeat' first | with_reducible refine .bind ?_ fun _ => ?_ | simp

@[simp] theorem past_handlerOk {t vec} : KeepsPast (handlerOk t vec) := by
  refine past_runs fun k s h => ?_
  unfold handlerOk
  cases hs : targetOk (.thread t) vec true s with
  | ok b u => exact past_targetOk.ok h hs
  | error e u => exact past_targetOk.stop h hs

@[simp] theorem past_takeException {t p cluster} : KeepsPast (takeException t p cluster) := by
  unfold takeException; repeat' first | with_reducible refine .bind ?_ fun _ => ?_ | split | simp

@[simp] theorem postException_mem {s c p} : (postException s c p).mem = s.mem := rfl

@[simp] theorem past_containOwner {o unit addr} : KeepsPast (containOwner o unit addr) := by
  unfold containOwner; repeat' first | with_reducible refine .bind ?_ fun _ => ?_ | split | simp

@[simp] theorem past_raiseAt {o e pc resume after} : KeepsPast (raiseAt o e pc resume after) := by
  unfold raiseAt; split <;> simp

@[simp] theorem land_mem {s o c} : (land s o c).mem = s.mem := by
  unfold land; split <;> simp

@[simp] theorem advance_mem {s o n} : (advance s o n).mem = s.mem := by
  unfold advance; split <;> simp

@[simp] theorem past_keepErrors {m s found} (h : HistoryKept m s.mem) : HistoryKept m (keepErrors s found).mem := past_marks h

@[simp] theorem past_raisedAt {m o e s s1} (h : HistoryKept m s.mem) (h1 : HistoryKept m s1.mem) :
    HistoryKept m (raisedAt o e s s1).mem := by
  unfold raisedAt
  dsimp only
  split
  next hs => exact past_raiseAt.ok (s := s1.setScalar o _) (by simpa using h1) hs
  next => exact h

@[simp] theorem beginEpisode_mem {o k q push loss s} : (beginEpisode o k q push loss s).mem = s.mem := by
  unfold beginEpisode; split <;> simp

@[simp] theorem past_scalarStep {k o n body s} (hb : KeepsPast body) (h : HistoryKept k s.mem) :
    HistoryKept k (scalarStep o n body s).mem := by
  unfold scalarStep
  cases hs : body s with
  | ok r t => have := hb.ok h hs; cases r <;> simpa using this
  | error e t =>
    have := hb.stop h hs
    cases e <;> simp [*]
    all_goals split <;> simp [*]

@[simp] theorem past_runScalar {body s} (hb : ∀ w, KeepsPast (body w)) : OutKeeps s (runScalar body s) := by
  unfold runScalar
  split
  · exact outKeeps_next.2 (past_scalarStep (hb _) (.refl _))
  · exact outKeeps_next.2 (.refl _)

@[simp] theorem past_runA {body s} (hb : ∀ t, KeepsPast (body t)) : OutKeeps s (runA body s) :=
  past_runScalar fun w => by cases w <;> simp [hb]

@[simp] theorem past_runS {body s} (hb : ∀ c, KeepsPast (body c)) : OutKeeps s (runS body s) :=
  past_runScalar fun w => by cases w <;> simp [hb]

@[simp] theorem past_guarded {o g ng body} (hb : KeepsPast body) : KeepsPast (guarded o g ng body) := by
  unfold guarded
  repeat' first | with_reducible refine .bind ?_ fun _ => ?_ | split | simp [*]

/-! #### Integer instructions -/

@[simp] theorem past_regBin {o f w} : KeepsPast (regBin o f w) :=
  past_guarded (past_readReg.bind fun _ => past_readReg.bind fun _ => past_writeReg.bind fun _ => past_pure _)

@[simp] theorem past_regUn {o f w} : KeepsPast (regUn o f w) :=
  past_guarded (past_readReg.bind fun _ => past_writeReg.bind fun _ => past_pure _)

@[simp] theorem past_regImm {o f w} : KeepsPast (regImm o f w) := by
  unfold regImm; repeat' first | with_reducible refine .bind ?_ fun _ => ?_ | simp

@[simp] theorem past_execIns {o s} : OutKeeps s (execIns o s) := by
  refine past_runScalar fun _ => past_guarded ?_
  repeat' first | with_reducible refine .bind ?_ fun _ => ?_ | simp

@[simp] theorem past_execLimmK {o s} : OutKeeps s (execLimmK o s) := by
  refine past_runScalar fun _ => ?_
  repeat' first | with_reducible refine .bind ?_ fun _ => ?_ | simp

@[simp] theorem past_execSel {o s} : OutKeeps s (execSel o s) := by
  refine past_runScalar fun _ => past_guarded ?_
  repeat' first | with_reducible refine .bind ?_ fun _ => ?_ | simp

@[simp] theorem past_execCmp {o s} : OutKeeps s (execCmp o s) := by
  refine past_runScalar fun _ => past_guarded ?_
  repeat' first | with_reducible refine .bind ?_ fun _ => ?_ | simp

@[simp] theorem past_execCmpi {o s} : OutKeeps s (execCmpi o s) := by
  refine past_runScalar fun _ => ?_
  repeat' first | with_reducible refine .bind ?_ fun _ => ?_ | simp

@[simp] theorem past_predBin {o f w} : KeepsPast (predBin o f w) :=
  past_guarded (past_readPred.bind fun _ => past_readPred.bind fun _ => past_writePred.bind fun _ => past_pure _)

/-! #### Tensors -/

@[simp] theorem past_descPlace {ctx va crew a} : KeepsPast (descPlace ctx va crew a) := by
  unfold descPlace; repeat' first | with_reducible refine .bind ?_ fun _ => ?_ | split | simp

@[simp] theorem past_descEntry {ctx tid crew a} : KeepsPast (descEntry ctx tid crew a) := by
  unfold descEntry; repeat' first | with_reducible refine .bind ?_ fun _ => ?_ | split | simp

@[simp] theorem past_nameTid {ctx tid crew a} : KeepsPast (nameTid ctx tid crew a) := by
  unfold nameTid; repeat' first | with_reducible refine .bind ?_ fun _ => ?_ | split | simp

@[simp] theorem past_tidOrTrap {ctx tid crew a} : KeepsPast (tidOrTrap ctx tid crew a) := by
  unfold tidOrTrap; repeat' first | with_reducible refine .bind ?_ fun _ => ?_ | split | simp

/-! #### Boxes and tiles -/

@[simp] theorem past_readTile {a holds d c} : KeepsPast (readTile a holds d c) := by
  unfold readTile; repeat' first | with_reducible refine .bind ?_ fun _ => ?_ | split | simp

@[simp] theorem past_writeCells {a cells} : KeepsPast (writeCells a cells) := by simp [writeCells]

@[simp] theorem past_writeTile {a holds d c body scales} : KeepsPast (writeTile a holds d c body scales) := by
  unfold writeTile; repeat' first | with_reducible refine .bind ?_ fun _ => ?_ | split | simp

@[simp] theorem past_agCheck {c b w} : KeepsPast (agCheck c b w) := by
  unfold agCheck; repeat' first | with_reducible refine .bind ?_ fun _ => ?_ | split | simp

@[simp] theorem past_bankReport {c detail} : KeepsPast (bankReport c detail) := by
  unfold bankReport; repeat' first | with_reducible refine .bind ?_ fun _ => ?_ | simp

/-! #### Control -/

@[simp] theorem past_transfer {o target entry leaves} : KeepsPast (transfer o target entry leaves) := by
  unfold transfer; repeat' first | with_reducible refine .bind ?_ fun _ => ?_ | split | simp

@[simp] theorem past_pcOf {o} : KeepsPast (pcOf o) := by simp [pcOf]
@[simp] theorem past_depthOfCall {o} : KeepsPast (depthOfCall o) := by simp [depthOfCall]

@[simp] theorem past_execBr {o s} : OutKeeps s (execBr o s) := by
  refine past_runScalar fun _ => ?_
  repeat' first | with_reducible refine .bind ?_ fun _ => ?_ | simp

@[simp] theorem past_execBc {o s} : OutKeeps s (execBc o s) := by
  refine past_runScalar fun _ => past_guarded ?_
  repeat' first | with_reducible refine .bind ?_ fun _ => ?_ | simp

@[simp] theorem past_callTo {w target} : KeepsPast (callTo w target) := by
  unfold callTo; repeat' first | with_reducible refine .bind ?_ fun _ => ?_ | split | simp

@[simp] theorem past_execCall {o s} : OutKeeps s (execCall o s) := by
  refine past_runScalar fun _ => ?_
  repeat' first | with_reducible refine .bind ?_ fun _ => ?_ | simp

@[simp] theorem past_execCallr {o s} : OutKeeps s (execCallr o s) := by
  refine past_runScalar fun _ => past_guarded ?_
  repeat' first | with_reducible refine .bind ?_ fun _ => ?_ | simp

@[simp] theorem past_execJr {o s} : OutKeeps s (execJr o s) := by
  refine past_runScalar fun _ => past_guarded ?_
  repeat' first | with_reducible refine .bind ?_ fun _ => ?_ | simp

@[simp] theorem past_endAccess {t} : KeepsPast (endAccess t) := by
  unfold endAccess; repeat' first | with_reducible refine .bind ?_ fun _ => ?_ | split | simp [*] | with_reducible intro

@[simp] theorem past_execRet {o s} : OutKeeps s (execRet o s) := by
  refine past_runScalar fun _ => past_guarded ?_
  repeat' first | with_reducible refine .bind ?_ fun _ => ?_ | split | simp

@[simp] theorem past_firstLane {o a x y} : KeepsPast (firstLane o a x y) := by
  fun_induction firstLane o a x y <;> repeat' first | with_reducible refine .bind ?_ fun _ => ?_ | split | simp [*]

@[simp] theorem past_startLoop {c l n elane len} : KeepsPast (startLoop c l n elane len) := by
  unfold startLoop; repeat' first | with_reducible refine .bind ?_ fun _ => ?_ | split | simp

@[simp] theorem past_execLoop {o s} : OutKeeps s (execLoop o s) := by
  refine past_runS fun _ => ?_
  repeat' first | with_reducible refine .bind ?_ fun _ => ?_ | split | simp

@[simp] theorem past_execLoopq {o s} : OutKeeps s (execLoopq o s) := by
  refine past_runS fun _ => ?_
  repeat' first | with_reducible refine .bind ?_ fun _ => ?_ | split | simp

@[simp] theorem past_phase {a scope} : KeepsPast (phase a scope) := by
  unfold phase; repeat' first | with_reducible refine .bind ?_ fun _ => ?_ | split | simp

@[simp] theorem past_counterAddr {w x} : KeepsPast (counterAddr w x) := by
  unfold counterAddr; repeat' first | with_reducible refine .bind ?_ fun _ => ?_ | split | simp

@[simp] theorem past_parkWait {w pa v scope va} : KeepsPast (parkWait w pa v scope va) := by
  unfold parkWait; repeat' first | with_reducible refine .bind ?_ fun _ => ?_ | split | simp

@[simp] theorem past_execWaitc {o s} : OutKeeps s (execWaitc o s) := by
  refine past_runScalar fun _ => past_guarded ?_
  repeat' first | with_reducible refine .bind ?_ fun _ => ?_ | split | simp

/-! #### Loads and stores -/

@[simp] theorem past_dataAddr {t ea sz write} : KeepsPast (dataAddr t ea sz write) := by
  unfold dataAddr; repeat' first | with_reducible refine .bind ?_ fun _ => ?_ | split | simp

@[simp] theorem past_load {t d ea sz sx} : KeepsPast (load t d ea sz sx) := by
  unfold load; repeat' first | with_reducible refine .bind ?_ fun _ => ?_ | split | simp

@[simp] theorem past_store {t v ea sz} : KeepsPast (store t v ea sz) := by
  unfold store; repeat' first | with_reducible refine .bind ?_ fun _ => ?_ | simp

@[simp] theorem past_execLd {o s} : OutKeeps s (execLd o s) := by
  refine past_runA fun _ => ?_
  repeat' first | with_reducible refine .bind ?_ fun _ => ?_ | simp

@[simp] theorem past_execSt {o s} : OutKeeps s (execSt o s) := by
  refine past_runA fun _ => ?_
  repeat' first | with_reducible refine .bind ?_ fun _ => ?_ | simp

@[simp] theorem past_execLdx {o s} : OutKeeps s (execLdx o s) := by
  refine past_runA fun _ => past_guarded ?_
  repeat' first | with_reducible refine .bind ?_ fun _ => ?_ | simp

@[simp] theorem past_execStx {o s} : OutKeeps s (execStx o s) := by
  refine past_runA fun _ => past_guarded ?_
  repeat' first | with_reducible refine .bind ?_ fun _ => ?_ | simp

@[simp] theorem past_tadrAddr {t x y} : KeepsPast (tadrAddr t x y) := by
  unfold tadrAddr; repeat' first | with_reducible refine .bind ?_ fun _ => ?_ | split | simp

@[simp] theorem past_execTadr {o s} : OutKeeps s (execTadr o s) := by
  refine past_runA fun _ => past_guarded ?_
  repeat' first | with_reducible refine .bind ?_ fun _ => ?_ | simp

/-! #### Queue instructions -/

@[simp] theorem past_queueCrew {w q} : KeepsPast (queueCrew w q) := by
  unfold queueCrew; repeat' first | with_reducible refine .bind ?_ fun _ => ?_ | split | simp

@[simp] theorem past_pushReg {o h t w} : KeepsPast (pushReg o h t w) := by
  refine past_guarded ?_
  repeat' first | with_reducible refine .bind ?_ fun _ => ?_ | split | simp [*]

@[simp] theorem past_execQpushm {o s} : OutKeeps s (execQpushm o s) := by
  refine past_runScalar fun _ => ?_
  repeat' first | with_reducible refine .bind ?_ fun _ => ?_ | split | simp

@[simp] theorem past_writeMarks {w o e} : KeepsPast (writeMarks w o e) := by
  unfold writeMarks; repeat' first | with_reducible refine .bind ?_ fun _ => ?_ | split | simp

@[simp] theorem past_settleLoss {w} : KeepsPast (settleLoss w) := by
  unfold settleLoss; repeat' first | with_reducible refine .bind ?_ fun _ => ?_ | split | simp [*] | with_reducible intro

@[simp] theorem past_popReg {o w} : KeepsPast (popReg o w) := by
  refine past_guarded ?_
  repeat' first | with_reducible refine .bind ?_ fun _ => ?_ | split | simp [*]

@[simp] theorem past_execQpeek {o s} : OutKeeps s (execQpeek o s) := by
  refine past_runA fun _ => past_guarded ?_
  repeat' first | with_reducible refine .bind ?_ fun _ => ?_ | split | simp

@[simp] theorem past_execQskip {o s} : OutKeeps s (execQskip o s) := by
  refine past_runA fun _ => past_guarded ?_
  repeat' first | with_reducible refine .bind ?_ fun _ => ?_ | simp

@[simp] theorem past_execQstat {o s} : OutKeeps s (execQstat o s) := by
  refine past_runA fun _ => past_guarded ?_
  repeat' first | with_reducible refine .bind ?_ fun _ => ?_ | simp

@[simp] theorem past_execQclose {o s} : OutKeeps s (execQclose o s) := by
  refine past_runA fun _ => past_guarded ?_
  repeat' first | with_reducible refine .bind ?_ fun _ => ?_ | split | simp

/-! #### Pins and TLBI -/

@[simp] theorem past_badFootprint {α : Type} {addr} : KeepsPast (badFootprint addr : M α) := by simp [badFootprint]

@[simp] theorem past_pinLeaves {t write rs ds} : KeepsPast (pinLeaves t write rs ds) := by
  unfold pinLeaves; repeat' first | with_reducible refine .bind ?_ fun _ => ?_ | split | simp

@[simp] theorem past_readFootprint {t x} : KeepsPast (readFootprint t x) := by
  unfold readFootprint; repeat' first | with_reducible refine .bind ?_ fun _ => ?_ | split | simp

@[simp] theorem past_execPin {o s} : OutKeeps s (execPin o s) := by
  refine past_runA fun _ => past_guarded ?_
  repeat' first | with_reducible refine .bind ?_ fun _ => ?_ | split | simp

@[simp] theorem past_execUnpin {o s} : OutKeeps s (execUnpin o s) := by
  refine past_runA fun _ => past_guarded ?_
  repeat' first | with_reducible refine .bind ?_ fun _ => ?_ | split | simp

@[simp] theorem dropRevoked_mem {s} : (dropRevoked s).mem = s.mem := by
  unfold dropRevoked
  exact foldl_mem fun s id => updAnyCmd_mem

@[simp] theorem markLogs_mem {s hits} : (markLogs s hits).mem = s.mem := rfl

@[simp] theorem past_removeTranslations {k s t kind ctx x rev} (h : HistoryKept k s.mem) :
    HistoryKept k (removeTranslations s t kind ctx x rev).1.mem := by
  simpa [removeTranslations] using h

@[simp] theorem past_execTlbi {o s} : OutKeeps s (execTlbi o s) := by
  refine past_runA fun t => ?_
  have hremove (x y : Word) (ctx : Nat) : KeepsPast (do
      let s ← get
      let (s', wait) := removeTranslations s t o.fn ctx x.toNat (bit y.toNat 16)
      if wait.isEmpty then
        set s'
        return Flow.next
      else
        set (s'.setThread t { s'.thread t with mode := .tlbi wait, reported := false })
        return Flow.stay) := by
    refine past_runs fun k s h => ?_
    have hk := past_removeTranslations (t := t) (kind := o.fn) (ctx := ctx) (x := x.toNat) (rev := bit y.toNat 16) h
    rw [m_bind_ok (m_get s)]
    by_cases hw : (removeTranslations s t o.fn ctx x.toNat (bit y.toNat 16)).2.isEmpty
    · simpa [hw, m_bind_ok (m_set _ s)] using hk
    · simpa [hw, m_bind_ok (m_set _ s)] using hk
  repeat' first
    | with_reducible exact hremove .. | with_reducible refine .bind ?_ fun _ => ?_ | with_reducible refine past_guarded ?_
    | with_reducible refine .ite ?_ ?_ | simp

@[simp] theorem past_execTlbiWake {t s} : OutKeeps s (execTlbiWake t s) := by
  unfold execTlbiWake; split <;> simp

/-! #### Fetching -/

@[simp] theorem past_deliver {m s c} (h : HistoryKept m s.mem) : HistoryKept m (deliver s c).mem := by
  unfold deliver
  dsimp only
  split
  · split
    · exact h
    · split
      · have := past_takeException.ok h ‹_›
        split <;> exact this
      · exact h
  · exact h

@[simp] theorem past_fetchAt {o} : KeepsPast (fetchAt o) := by
  unfold fetchAt; repeat' first | with_reducible refine .bind ?_ fun _ => ?_ | split | simp

@[simp] theorem past_fetchStop {k o st s} (h : HistoryKept k s.mem) : HistoryKept k (fetchStop o st s).mem := by
  unfold fetchStop; repeat' first | exact h | split | simp [*]

@[simp] theorem raiseStream_mem {c st e x mmask s} : (raiseStream c st e x mmask s).mem = s.mem := rfl

@[simp] theorem past_takeLoss {m t pc s} (h : HistoryKept m s.mem) : HistoryKept m (takeLoss t pc s).mem := by
  unfold takeLoss
  dsimp only
  split
  next hs => exact past_raiseAt.ok (s := s.setThread t _) h hs
  next => exact h

/-! #### Streams -/

@[simp] theorem updEntry_mem {c st name f s} : (updEntry c st name f s).mem = s.mem := rfl
@[simp] theorem retire_mem {c st name s} : (retire c st name s).mem = s.mem := rfl
@[simp] theorem finishEntry_mem {c st tok e s owed} : (finishEntry c st tok e s owed).mem = s.mem := by simp [finishEntry]

@[simp] theorem past_runEntry {k c st tok e mmask body s} (hb : KeepsPast body) (h : HistoryKept k s.mem) :
    HistoryKept k (runEntry c st tok e mmask body s).mem := by
  unfold runEntry
  generalize (if e.popped = true then [] else (tokenFifos st tok).1) = pops
  refine past_ite_state (by simpa using h) (past_ite_state h ?_)
  dsimp only
  have h1 : HistoryKept k (updEntry c st e.name (fun e => { e with popped := true })
      (s.setCrew c (pops.foldl takeToken (s.crew c)))).mem := by simpa using h
  generalize updEntry c st e.name _ (s.setCrew c _) = s1 at h1 ⊢
  cases hs : body s1 with
  | ok r t =>
    have := hb.ok h1 hs
    cases r <;> simpa using this
  | error x t =>
    have := hb.stop h1 hs
    cases x <;> simp [*]

@[simp] theorem past_roomFor {c st} : KeepsPast (roomFor c st) := by
  unfold roomFor; repeat' first | with_reducible refine .bind ?_ fun _ => ?_ | split | simp

@[simp] theorem past_handOver {c st e} : KeepsPast (handOver c st e) := by
  unfold handOver; repeat' first | with_reducible refine .bind ?_ fun _ => ?_ | simp

@[simp] theorem past_hrdSettled {c h} : KeepsPast (hrdSettled c h) := by
  unfold hrdSettled; repeat' first | with_reducible refine .bind ?_ fun _ => ?_ | split | simp

@[simp] theorem past_handBad {m c st w s} (h : HistoryKept m s.mem) : HistoryKept m (handBad c st w s).mem := by
  refine past_scalarStep ?_ h
  repeat' first | with_reducible refine .bind ?_ fun _ => ?_ | split | simp

@[simp] theorem past_runLane {st lanes tok hand mmask body s} (hh : ∀ c, KeepsPast (hand c)) (hb : ∀ c e, KeepsPast (body c e)) :
    OutKeeps s (runLane st lanes tok hand mmask body s) := by
  unfold runLane
  split
  · split
    · exact outKeeps_next.2 (past_scalarStep (past_roomFor.bind fun _ => (hh _).bind fun _ => past_handOver.bind fun _ => past_pure _)
        (.refl _))
    · exact outKeeps_next.2 (.refl _)
  · repeat' split
    · exact outKeeps_next.2 (past_runEntry (hb _ _) (.refl _))
    all_goals exact outKeeps_next.2 (.refl _)

/-! #### Vector flags -/

@[simp] theorem past_applyFlags {c e fl} : KeepsPast (applyFlags c e fl) := by
  unfold applyFlags; repeat' first | with_reducible refine .bind ?_ fun _ => ?_ | split | simp

@[simp] theorem past_modeOf {e rm} : KeepsPast (modeOf e rm) := by
  unfold modeOf; repeat' first | with_reducible refine .bind ?_ fun _ => ?_ | split | simp

@[simp] theorem past_advanceCtr {c mode} : KeepsPast (advanceCtr c mode) := by
  unfold advanceCtr; split <;> simp

/-! #### Vector instructions -/

@[simp] theorem past_readVnf {c e} : KeepsPast (readVnf c e) := by
  unfold readVnf; repeat' first | with_reducible refine .bind ?_ fun _ => ?_ | split | simp

@[simp] theorem past_handV {o i n c} : KeepsPast (handV o i n c) := by
  unfold handV; repeat' first | with_reducible refine .bind ?_ fun _ => ?_ | split | simp

@[simp] theorem past_runV {o i n body s} (hb : ∀ c e, KeepsPast (body c e)) : OutKeeps s (runV o i n body s) :=
  past_runLane (fun _ => past_handV) fun _ _ => (hb _ _).bind fun _ => past_pure _

@[simp] theorem past_vMode {o e} : KeepsPast (vMode o e) := by
  unfold vMode; split <;> simp

@[simp] theorem past_elementwise {c e o mode f} : KeepsPast (elementwise c e o mode f) := by
  unfold elementwise; repeat' first | with_reducible refine .bind ?_ fun _ => ?_ | simp

@[simp] theorem past_vArith {o i ff fi s} : OutKeeps s (vArith o i ff fi s) := by
  refine past_runV fun _ _ => ?_
  repeat' first | with_reducible refine .bind ?_ fun _ => ?_ | simp

@[simp] theorem past_vBits {o i f s} : OutKeeps s (vBits o i f s) := by
  refine past_runV fun _ _ => ?_
  repeat' first | with_reducible refine .bind ?_ fun _ => ?_ | simp

@[simp] theorem past_needNf {e} : KeepsPast (needNf e) := by
  unfold needNf; repeat' first | with_reducible refine .bind ?_ fun _ => ?_ | split | simp

@[simp] theorem past_cvtBody {o c e} : KeepsPast (cvtBody o c e) := by
  unfold cvtBody; repeat' first | with_reducible refine .bind ?_ fun _ => ?_ | split | simp

@[simp] theorem past_qntBody {o c e} : KeepsPast (qntBody o c e) := by
  unfold qntBody; repeat' first | with_reducible refine .bind ?_ fun _ => ?_ | simp

@[simp] theorem past_dqntBody {o c e} : KeepsPast (dqntBody o c e) := by
  unfold dqntBody; repeat' first | with_reducible refine .bind ?_ fun _ => ?_ | simp

@[simp] theorem past_compareBody {o f c e} : KeepsPast (compareBody o f c e) := by
  unfold compareBody; repeat' first | with_reducible refine .bind ?_ fun _ => ?_ | simp

@[simp] theorem past_execVsel {o s} : OutKeeps s (execVsel o s) := by
  refine past_runV fun _ _ => ?_
  repeat' first | with_reducible refine .bind ?_ fun _ => ?_ | simp

@[simp] theorem past_maskOp {o i f s} : OutKeeps s (maskOp o i f s) := by
  refine past_runV fun _ _ => ?_
  repeat' first | with_reducible refine .bind ?_ fun _ => ?_ | simp

@[simp] theorem past_redBody {o c e} : KeepsPast (redBody o c e) := by
  unfold redBody; repeat' first | with_reducible refine .bind ?_ fun _ => ?_ | simp

@[simp] theorem past_scanBody {o c e} : KeepsPast (scanBody o c e) := by
  unfold scanBody; repeat' first | with_reducible refine .bind ?_ fun _ => ?_ | simp

@[simp] theorem past_dotBody {o c e} : KeepsPast (dotBody o c e) := by
  unfold dotBody; repeat' first | with_reducible refine .bind ?_ fun _ => ?_ | simp

@[simp] theorem past_extremeBody {o op c e} : KeepsPast (extremeBody o op c e) := by
  unfold extremeBody; repeat' first | with_reducible refine .bind ?_ fun _ => ?_ | simp

@[simp] theorem past_execVget {o s} : OutKeeps s (execVget o s) := by
  refine past_runV fun _ _ => ?_
  repeat' first | with_reducible refine .bind ?_ fun _ => ?_ | simp

@[simp] theorem past_execVperm {o s} : OutKeeps s (execVperm o s) := by
  refine past_runV fun _ _ => ?_
  repeat' first | with_reducible refine .bind ?_ fun _ => ?_ | simp

@[simp] theorem past_execVpop {o s} : OutKeeps s (execVpop o s) := by
  refine past_runV fun _ _ => ?_
  repeat' first | with_reducible refine .bind ?_ fun _ => ?_ | split | simp

@[simp] theorem past_execVpush {o s} : OutKeeps s (execVpush o s) := by
  refine past_runV fun _ _ => ?_
  repeat' first | with_reducible refine .bind ?_ fun _ => ?_ | simp

@[simp] theorem past_placeFree {l t} : KeepsPast (placeFree l t) := by
  induction t generalizing l with
  | nil => exact past_pure _
  | cons x t ih => exact (past_pick _ _).bind fun _ => ih

@[simp] theorem past_topkBody {o c e} : KeepsPast (topkBody o c e) := by
  unfold topkBody; repeat' first | with_reducible refine .bind ?_ fun _ => ?_ | simp

/-! #### The fabric -/

@[simp] theorem State_putSection_mem {s c sec x} : (State.putSection s c sec x).mem = s.mem := rfl
@[simp] theorem tookSlot_mem {s cl slot p} : (tookSlot s cl slot p).mem = s.mem := rfl
@[simp] theorem past_getSection {c sec} : KeepsPast (getSection c sec) := by simp [getSection]
@[simp] theorem past_setSection {c sec x} : KeepsPast (setSection c sec x) := by simp [setSection]
@[simp] theorem past_orFstat {c fl} : KeepsPast (orFstat c fl) := by simp [orFstat]
@[simp] theorem past_contextFault {c sec el reason} : KeepsPast (contextFault c sec el reason) := by simp [contextFault]

@[simp] theorem past_applyLogged {k c sec w s} (h : HistoryKept k s.mem) : HistoryKept k (applyLogged c sec w s).mem := by
  unfold applyLogged; repeat' first | exact h | split | simp [*]

@[simp] theorem past_commitSection {c sec m} : KeepsPast (commitSection c sec m) := by
  unfold commitSection
  repeat' first
    | with_reducible refine .bind ?_ fun _ => ?_ | split | (simp; done)
    | exact (past_upd _).2 fun s => past_foldl (fun _ _ _ h => past_applyLogged h) (.refl _)

@[simp] theorem past_recordMarker {c sec el x} : KeepsPast (recordMarker c sec el x) := by
  unfold recordMarker; repeat' first | with_reducible refine .bind ?_ fun _ => ?_ | split | simp

/-! #### Elements -/

@[simp] theorem past_portIsFree {a x port} : KeepsPast (portIsFree a x port) := by simp [portIsFree]

@[simp] theorem past_applyFiring {a take outs st fl} : KeepsPast (applyFiring a take outs st fl) := by
  unfold applyFiring; repeat' first | with_reducible refine .bind ?_ fun _ => ?_ | split | simp

@[simp] theorem past_simple {guardable f a x} : KeepsPast (simple guardable f a x) := by
  unfold simple; repeat' first | with_reducible refine .bind ?_ fun _ => ?_ | split | simp

@[simp] theorem past_arithBody {code a x} : KeepsPast (arithBody code a x) := by simp [arithBody]
@[simp] theorem past_cmpBody {a x} : KeepsPast (cmpBody a x) := by simp [cmpBody]
@[simp] theorem past_selBody {a x} : KeepsPast (selBody a x) := by simp [selBody]
@[simp] theorem past_elemCvtBody {a x} : KeepsPast (elemCvtBody a x) := by simp [elemCvtBody]

@[simp] theorem past_steerBody {a x} : KeepsPast (steerBody a x) := by
  unfold steerBody; repeat' first | with_reducible refine .bind ?_ fun _ => ?_ | split | simp

@[simp] theorem past_mergeBody {a x} : KeepsPast (mergeBody a x) := by
  unfold mergeBody; repeat' first | with_reducible refine .bind ?_ fun _ => ?_ | split | simp

@[simp] theorem past_carryBody {a x} : KeepsPast (carryBody a x) := by
  unfold carryBody; repeat' first | with_reducible refine .bind ?_ fun _ => ?_ | split | simp

@[simp] theorem past_joinBody {a x} : KeepsPast (joinBody a x) := by
  unfold joinBody; repeat' first | with_reducible refine .bind ?_ fun _ => ?_ | split | simp

@[simp] theorem past_forkBody {a x} : KeepsPast (forkBody a x) := by simp [forkBody]

@[simp] theorem past_widenPass {a x} : KeepsPast (widenPass a x) := by
  unfold widenPass; repeat' first | with_reducible refine .bind ?_ fun _ => ?_ | split | simp

@[simp] theorem past_widenBody {a x} : KeepsPast (widenBody a x) := by
  unfold widenBody; repeat' first | with_reducible refine .bind ?_ fun _ => ?_ | split | simp

@[simp] theorem past_elemRedBody {a x} : KeepsPast (elemRedBody a x) := by simp [elemRedBody]
@[simp] theorem past_elemAccBody {a x} : KeepsPast (elemAccBody a x) := by simp [elemAccBody]
@[simp] theorem past_cntBody {a x} : KeepsPast (cntBody a x) := by simp [cntBody]
@[simp] theorem past_constBody {a x} : KeepsPast (constBody a x) := by simp [constBody]
@[simp] theorem past_passBody {a x} : KeepsPast (passBody a x) := by simp [passBody]
@[simp] theorem past_delayBody {a x} : KeepsPast (delayBody a x) := by simp [delayBody]

@[simp] theorem past_commitBody {a x} : KeepsPast (commitBody a x) := by
  unfold commitBody; repeat' first | with_reducible refine .bind ?_ fun _ => ?_ | split | simp

@[simp] theorem past_emitMark {a x st x1} : KeepsPast (emitMark a x st x1) := by
  unfold emitMark; repeat' first | with_reducible refine .bind ?_ fun _ => ?_ | split | simp

@[simp] theorem past_srcBody {a x} : KeepsPast (srcBody a x) := by
  unfold srcBody; repeat' first | with_reducible refine .bind ?_ fun _ => ?_ | split | simp

@[simp] theorem past_snkBody {a x} : KeepsPast (snkBody a x) := by
  unfold snkBody; repeat' first | with_reducible refine .bind ?_ fun _ => ?_ | split | simp

@[simp] theorem past_eccReport {c va} : KeepsPast (eccReport c va) := by
  unfold eccReport; repeat' first | with_reducible refine .bind ?_ fun _ => ?_ | simp

@[simp] theorem past_tileDesc {c tid} : KeepsPast (tileDesc c tid) := by
  unfold tileDesc; repeat' first | with_reducible refine .bind ?_ fun _ => ?_ | simp

@[simp] theorem past_widenedRead {c scope m} (hm : KeepsPast m) : KeepsPast (widenedRead c scope m) := by
  unfold widenedRead
  repeat' first | with_reducible refine .bind ?_ fun _ => ?_ | split | simp [hm]

@[simp] theorem past_agenTile {a x pos} : KeepsPast (agenTile a x pos) := by
  unfold agenTile; repeat' first | with_reducible refine .bind ?_ fun _ => ?_ | split | simp

@[simp] theorem past_agenBank {a x off n} : KeepsPast (agenBank a x off n) := by
  unfold agenBank; repeat' first | with_reducible refine .bind ?_ fun _ => ?_ | split | simp

@[simp] theorem past_logTile {a x st ws} : KeepsPast (logTile a x st ws) := by
  unfold logTile; repeat' first | with_reducible refine .bind ?_ fun _ => ?_ | split | simp

@[simp] theorem past_agenWrite {a x} : KeepsPast (agenWrite a x) := by
  unfold agenWrite; repeat' first | with_reducible refine .bind ?_ fun _ => ?_ | split | simp [*]

@[simp] theorem past_agenSource {a x st} : KeepsPast (agenSource a x st) := by
  unfold agenSource; repeat' first | with_reducible refine .bind ?_ fun _ => ?_ | split | simp

@[simp] theorem past_agenIndexed {a x st} : KeepsPast (agenIndexed a x st) := by
  unfold agenIndexed; repeat' first | with_reducible refine .bind ?_ fun _ => ?_ | split | simp

@[simp] theorem past_agenBody {a x} : KeepsPast (agenBody a x) := by
  unfold agenBody; repeat' first | with_reducible refine .bind ?_ fun _ => ?_ | split | simp

@[simp] theorem past_elemBody {code a x} : KeepsPast (elemBody code a x) := by
  unfold elemBody; split <;> simp

@[simp] theorem past_fire {code a s} : OutKeeps s (fire code a s) := by
  unfold fire
  dsimp only
  split
  · simp
  · refine outKeeps_ite (outKeeps_next.2 (past_runM ?_ (.refl _))) (outKeeps_next.2 (.refl _))
    repeat' first | with_reducible refine .bind ?_ fun _ => ?_ | split | simp

@[simp] theorem past_forwardFrom {a x take x1 st} : KeepsPast (forwardFrom a x take x1 st) := by
  unfold forwardFrom; repeat' first | with_reducible refine .bind ?_ fun _ => ?_ | split | simp

@[simp] theorem past_sinkMarker {a x take x1} : KeepsPast (sinkMarker a x take x1) := by
  unfold sinkMarker; repeat' first | with_reducible refine .bind ?_ fun _ => ?_ | split | simp

@[simp] theorem past_markerStep {a x} : KeepsPast (markerStep a x) := by
  unfold markerStep; repeat' first | with_reducible refine .bind ?_ fun _ => ?_ | split | simp

@[simp] theorem past_execMarkerForward {crew sec el s} : OutKeeps s (execMarkerForward crew sec el s) := by
  unfold execMarkerForward; repeat' first | split | simp

@[simp] theorem past_abortSection {c sec x} : KeepsPast (abortSection c sec x) := by
  unfold abortSection; repeat' first | with_reducible refine .bind ?_ fun _ => ?_ | split | simp

@[simp] theorem past_execAlignmentAbort {crew sec s} : OutKeeps s (execAlignmentAbort crew sec s) := by
  unfold execAlignmentAbort; repeat' first | split | simp

/-! #### The configuration loader -/

@[simp] theorem past_slotsBad {c x} : KeepsPast (slotsBad c x) := by
  unfold slotsBad
  repeat' first
    | with_reducible refine .bind ?_ fun _ => ?_ | split | with_reducible refine past_forIn (fun _ _ => ?_) | (simp; done)
    | dsimp only

@[simp] theorem past_imageReasons {c sec x} : KeepsPast (imageReasons c sec x) := by
  unfold imageReasons; repeat' first | with_reducible refine .bind ?_ fun _ => ?_ | split | simp

@[simp] theorem past_imageLines {c a x} : KeepsPast (imageLines c a x) := by
  fun_induction imageLines c a x <;> repeat' first | with_reducible refine .bind ?_ fun _ => ?_ | split | simp [*]

@[simp] theorem past_readImage {c ptr} : KeepsPast (readImage c ptr) := by
  unfold readImage; repeat' first | with_reducible refine .bind ?_ fun _ => ?_ | split | simp

@[simp] theorem past_loaderAnswer {c q} : KeepsPast (loaderAnswer c q) := by
  unfold loaderAnswer; repeat' first | with_reducible refine .bind ?_ fun _ => ?_ | split | simp

@[simp] theorem past_execConfigurationLoad {crew s} : OutKeeps s (execConfigurationLoad crew s) := by
  unfold execConfigurationLoad
  dsimp only
  split
  · refine outKeeps_ite ?_ (outKeeps_next.2 (.refl _))
    split
    next hs => exact outKeeps_next.2 (past_loaderAnswer.ok (.refl _) hs)
    next hs => exact outKeeps_next.2 (past_runM past_containOwner (past_loaderAnswer.stop (.refl _) hs))
    · exact outKeeps_next.2 (.refl _)
  · exact outKeeps_next.2 (.refl _)

@[simp] theorem past_fabricFault {α : Type} {reason} : KeepsPast (fabricFault reason : M α) := by simp [fabricFault]

@[simp] theorem past_sectionArg {c v} : KeepsPast (sectionArg c v) := by
  unfold sectionArg; repeat' first | with_reducible refine .bind ?_ fun _ => ?_ | split | simp

@[simp] theorem past_setLoading {c q} : KeepsPast (setLoading c q) := by simp [setLoading]

@[simp] theorem past_execFcfg {o s} : OutKeeps s (execFcfg o s) := by
  refine past_runS fun _ => past_guarded ?_
  repeat' first | with_reducible refine .bind ?_ fun _ => ?_ | split | simp

@[simp] theorem past_execFarm {o s} : OutKeeps s (execFarm o s) := by
  refine past_runS fun _ => past_guarded ?_
  repeat' first | with_reducible refine .bind ?_ fun _ => ?_ | split | simp

@[simp] theorem past_execFwait {o s} : OutKeeps s (execFwait o s) := by
  refine past_runS fun _ => past_guarded ?_
  repeat' first | with_reducible refine .bind ?_ fun _ => ?_ | split | simp

@[simp] theorem past_execFcommit {o s} : OutKeeps s (execFcommit o s) := by
  refine past_runS fun _ => past_guarded ?_
  repeat' first | with_reducible refine .bind ?_ fun _ => ?_ | split | simp

/-! #### Spares and withdrawn units -/

@[simp] theorem requestHalt_mem {s c suspend cause} : (requestHalt s c suspend cause).mem = s.mem := by simp [requestHalt]
@[simp] theorem preempt_mem {s c} : (preempt s c).mem = s.mem := by simp [preempt]
@[simp] theorem past_grave {cls unit inst} : KeepsPast (grave cls unit inst) := by simp [grave]

@[simp] theorem past_withdrawUnit {cl unit inst} : KeepsPast (withdrawUnit cl unit inst) := by
  unfold withdrawUnit; repeat' first | with_reducible refine .bind ?_ fun _ => ?_ | simp

@[simp] theorem past_blockCheck {cl arr} : KeepsPast (blockCheck cl arr) := by
  unfold blockCheck; repeat' first | with_reducible refine .bind ?_ fun _ => ?_ | split | simp

/-! #### Stroke -/

@[simp] theorem past_setStroke {c a v} : KeepsPast (setStroke c a v) := by simp [setStroke]
@[simp] theorem past_getStroke {c a} : KeepsPast (getStroke c a) := by simp [getStroke]
@[simp] theorem raiseStroke_mem {c e x s} : (raiseStroke c e x s).mem = s.mem := by simp [raiseStroke]

@[simp] theorem past_strokeTurn {k c tok e body s} (hb : ∀ c e, KeepsPast (body c e)) (h : HistoryKept k s.mem) :
    HistoryKept k (strokeTurn c tok e body s).mem := by
  unfold strokeTurn
  split
  · simpa using h
  · generalize (if e.popped = true then [] else (tokenFifos 3 tok).1) = pops
    refine past_ite_state (by simpa using h) (past_ite_state h (past_ite_state h ?_))
    dsimp only
    have h1 : HistoryKept k (updEntry c 3 e.name (fun _ => { e with popped := true, prog := { e.prog with begun := true } })
        (s.setCrew c (pops.foldl takeToken (s.crew c)))).mem := by simpa using h
    generalize updEntry c 3 e.name _ (s.setCrew c _) = s1 at h1 ⊢
    cases hs : body c _ s1 with
    | ok r t =>
      have := (hb c _).ok h1 hs
      cases r <;> simpa using this
    | error x t =>
      have := (hb c _).stop h1 hs
      cases x <;> simp [*]

@[simp] theorem past_runStroke {tok i hand body s} (hh : ∀ c e, KeepsPast (hand c e)) (hb : ∀ c e, KeepsPast (body c e)) :
    OutKeeps s (runStroke tok i hand body s) := by
  unfold runStroke
  split
  · split
    · exact outKeeps_next.2 (past_scalarStep (past_roomFor.bind fun _ => (hh _ _).bind fun _ => past_handOver.bind fun _ => past_pure _)
        (.refl _))
    · exact outKeeps_next.2 (.refl _)
  · split
    · exact outKeeps_next.2 (past_strokeTurn hb (.refl _))
    · exact outKeeps_next.2 (.refl _)

@[simp] theorem past_plainHand {x e} : KeepsPast (plainHand x e) := by simp [plainHand]
@[simp] theorem past_setProg {c name p} : KeepsPast (setProg c name p) := by simp [setProg]
@[simp] theorem past_strokeTrap {α : Type} {reason} : KeepsPast (strokeTrap reason : M α) := by simp [strokeTrap]
@[simp] theorem past_burstWidth {c q} : KeepsPast (burstWidth c q) := by simp [burstWidth]

@[simp] theorem past_popBurst {c q} : KeepsPast (popBurst c q) := by
  unfold popBurst; repeat' first | with_reducible refine .bind ?_ fun _ => ?_ | split | simp

@[simp] theorem past_discardBurst {α : Type} {c q reason} : KeepsPast (discardBurst c q reason : M α) := by
  unfold discardBurst; repeat' first | with_reducible refine .bind ?_ fun _ => ?_ | simp

@[simp] theorem past_tidDesc {c tid} : KeepsPast (tidDesc c tid) := by
  unfold tidDesc; repeat' first | with_reducible refine .bind ?_ fun _ => ?_ | split | simp

@[simp] theorem past_headerDesc {c f kinds want b} : KeepsPast (headerDesc c f kinds want b) := by
  unfold headerDesc; repeat' first | with_reducible refine .bind ?_ fun _ => ?_ | split | simp

@[simp] theorem past_burstDesc {c q f kinds want b} : KeepsPast (burstDesc c q f kinds want b) := by
  unfold burstDesc; repeat' first | with_reducible refine .bind ?_ fun _ => ?_ | split | simp

@[simp] theorem past_loadPlane {o bound c e} : KeepsPast (loadPlane o bound c e) := by
  unfold loadPlane; repeat' first | with_reducible refine .bind ?_ fun _ => ?_ | split | simp

@[simp] theorem past_execMswap {o s} : OutKeeps s (execMswap o s) := by
  refine past_runStroke (fun _ _ => ?_) fun _ _ => ?_
  all_goals repeat' first | with_reducible refine .bind ?_ fun _ => ?_ | simp

@[simp] theorem past_execMmask {o s} : OutKeeps s (execMmask o s) := by
  refine past_runStroke (fun _ _ => ?_) fun _ _ => ?_
  all_goals repeat' first | with_reducible refine .bind ?_ fun _ => ?_ | split | simp

@[simp] theorem past_execMbnd {o s} : OutKeeps s (execMbnd o s) := by
  refine past_runStroke (fun _ _ => ?_) fun _ _ => ?_
  all_goals repeat' first | with_reducible refine .bind ?_ fun _ => ?_ | split | simp

@[simp] theorem past_knownDesc {c tid} : KeepsPast (knownDesc c tid) := by
  unfold knownDesc; repeat' first | with_reducible refine .bind ?_ fun _ => ?_ | split | simp

@[simp] theorem past_runBurst {o c e} : KeepsPast (runBurst o c e) := by
  unfold runBurst; repeat' first | with_reducible refine .bind ?_ fun _ => ?_ | split | simp

@[simp] theorem past_execMrun {o s} : OutKeeps s (execMrun o s) := by
  refine past_runStroke (fun _ _ => ?_) fun _ _ => ?_
  all_goals repeat' first | with_reducible refine .bind ?_ fun _ => ?_ | split | simp

@[simp] theorem past_execMzero {o s} : OutKeeps s (execMzero o s) := by
  refine past_runStroke (fun _ _ => ?_) fun _ _ => ?_
  all_goals repeat' first | with_reducible refine .bind ?_ fun _ => ?_ | simp

@[simp] theorem past_tailBounds {c d c1 p a} : KeepsPast (tailBounds c d c1 p a) := by
  fun_induction tailBounds c d c1 p a <;> repeat' first | with_reducible refine .bind ?_ fun _ => ?_ | split | simp [*]

@[simp] theorem past_skipToken {c arr x q} : KeepsPast (skipToken c arr x q) := by simp [skipToken]

@[simp] theorem past_verBurst {o c e} : KeepsPast (verBurst o c e) := by
  unfold verBurst; repeat' first | with_reducible refine .bind ?_ fun _ => ?_ | split | simp

@[simp] theorem past_verBlock {o c e d} : KeepsPast (verBlock o c e d) := by
  unfold verBlock; repeat' first | with_reducible refine .bind ?_ fun _ => ?_ | split | simp

@[simp] theorem past_skippedHeader {c q} : KeepsPast (skippedHeader c q) := by
  unfold skippedHeader; repeat' first | with_reducible refine .bind ?_ fun _ => ?_ | split | simp

@[simp] theorem past_verDiscard {o c e d} : KeepsPast (verDiscard o c e d) := by
  unfold verDiscard; repeat' first | with_reducible refine .bind ?_ fun _ => ?_ | split | simp

@[simp] theorem past_verTurn {o c e} : KeepsPast (verTurn o c e) := by
  unfold verTurn
  repeat' first
    | with_reducible refine .bind ?_ fun _ => ?_ | with_reducible refine .ite ?_ ?_ | simp

@[simp] theorem past_execMver {o s} : OutKeeps s (execMver o s) := by
  refine past_runStroke (fun _ _ => ?_) fun _ _ => ?_
  all_goals repeat' first | with_reducible refine .bind ?_ fun _ => ?_ | split | simp

@[simp] theorem past_drainHand {o c e} : KeepsPast (drainHand o c e) := by
  unfold drainHand; repeat' first | with_reducible refine .bind ?_ fun _ => ?_ | simp

@[simp] theorem past_drainDesc {c f tid origin first} : KeepsPast (drainDesc c f tid origin first) := by
  unfold drainDesc; repeat' first | with_reducible refine .bind ?_ fun _ => ?_ | split | simp

@[simp] theorem past_pushBurstEntry {c q b pos} : KeepsPast (pushBurstEntry c q b pos) := by
  unfold pushBurstEntry; repeat' first | with_reducible refine .bind ?_ fun _ => ?_ | simp

@[simp] theorem past_drainTurn {o raw c e} : KeepsPast (drainTurn o raw c e) := by
  unfold drainTurn; repeat' first | with_reducible refine .bind ?_ fun _ => ?_ | split | simp

@[simp] theorem past_execMstat {o s} : OutKeeps s (execMstat o s) := by
  refine past_runStroke (fun _ _ => ?_) fun _ _ => ?_
  all_goals repeat' first | with_reducible refine .bind ?_ fun _ => ?_ | split | simp

/-! #### Engine commands -/

@[simp] theorem updCmd_mem {cl copy id f s} : (updCmd cl copy id f s).mem = s.mem := rfl
@[simp] theorem past_endStatus {α : Type} {n} : KeepsPast (endStatus n : M α) := by simp [endStatus]

@[simp] theorem past_asCommand {α : Type} {m : M α} (hm : KeepsPast m) : KeepsPast (asCommand m) := by
  refine past_runs fun k s h => ?_
  unfold asCommand
  cases hs : m s with
  | ok r t => exact hm.ok h hs
  | error e t => have := hm.stop h hs; cases e <;> exact this

@[simp] theorem past_Cmd_crewOrFault {c} : KeepsPast (Cmd.crewOrFault c) := by
  unfold Cmd.crewOrFault; split <;> simp

@[simp] theorem past_eccStop {α : Type} {c va} : KeepsPast (eccStop c va : M α) := by
  unfold eccStop; repeat' first | with_reducible refine .bind ?_ fun _ => ?_ | simp

@[simp] theorem past_cmdRead {g c va n} : KeepsPast (cmdRead g c va n) := by
  unfold cmdRead; repeat' first | with_reducible refine .bind ?_ fun _ => ?_ | split | simp

@[simp] theorem past_cmdWrite {g c va bs} : KeepsPast (cmdWrite g c va bs) := by
  unfold cmdWrite; repeat' first | with_reducible refine .bind ?_ fun _ => ?_ | split | simp

@[simp] theorem past_cmdPhys {c va n write} : KeepsPast (cmdPhys c va n write) := by
  unfold cmdPhys; repeat' first | with_reducible refine .bind ?_ fun _ => ?_ | split | simp

@[simp] theorem past_cmdDesc {g c tid write} : KeepsPast (cmdDesc g c tid write) := by
  unfold cmdDesc; repeat' first | with_reducible refine .bind ?_ fun _ => ?_ | split | simp

@[simp] theorem past_setCmd {g c} : KeepsPast (setCmd g c) := by simp [setCmd]

@[simp] theorem past_reserved {b spans} : KeepsPast (reserved b spans) := by
  unfold reserved; split <;> simp

@[simp] theorem past_takeBlock {g c opc known} : KeepsPast (takeBlock g c opc known) := by
  unfold takeBlock; repeat' first | with_reducible refine .bind ?_ fun _ => ?_ | split | simp

@[simp] theorem past_boxOp {g c off write} : KeepsPast (boxOp g c off write) := by
  unfold boxOp; repeat' first | with_reducible refine .bind ?_ fun _ => ?_ | split | simp

@[simp] theorem past_cmdReadTile {g c d cs} : KeepsPast (cmdReadTile g c d cs) := by
  unfold cmdReadTile; repeat' first | with_reducible refine .bind ?_ fun _ => ?_ | split | simp

@[simp] theorem past_cmdWriteTile {g c d cs body sc} : KeepsPast (cmdWriteTile g c d cs body sc) := by
  unfold cmdWriteTile; repeat' first | with_reducible refine .bind ?_ fun _ => ?_ | split | simp

@[simp] theorem logRequest_mem {key old s} : (logRequest key old s).mem = s.mem := rfl
@[simp] theorem past_logPort {src pa old} : KeepsPast (logPort src pa old) := by simp [logPort]

@[simp] theorem past_portUpdate {g c va pa n f} : KeepsPast (portUpdate g c va pa n f) := by
  unfold portUpdate; repeat' first | with_reducible refine .bind ?_ fun _ => ?_ | split | simp

@[simp] theorem past_portAdd {g c va pa n} : KeepsPast (portAdd g c va pa n) := by
  unfold portAdd; repeat' first | with_reducible refine .bind ?_ fun _ => ?_ | split | simp

@[simp] theorem past_commandFault {c addr status} : KeepsPast (commandFault c addr status) := by
  unfold commandFault; repeat' first | with_reducible refine .bind ?_ fun _ => ?_ | simp

@[simp] theorem past_tryStep {c m} (hm : KeepsPast m) : KeepsPast (tryStep c m) := by
  refine past_runs fun k s h => ?_
  unfold tryStep
  cases hs : m s with
  | ok a t => exact hm.ok h hs
  | error e t =>
    have ht := hm.stop h hs
    cases e with
    | status n => exact past_commandFault k t ht
    | _ => exact ht

@[simp] theorem past_fillFetch {c v} : KeepsPast (fillFetch c v) := by
  unfold fillFetch; repeat' first | with_reducible refine .bind ?_ fun _ => ?_ | split | simp [*] | with_reducible intro

@[simp] theorem past_stickyFlags {g c} : KeepsPast (stickyFlags g c) := by
  unfold stickyFlags; split <;> simp

@[simp] theorem past_fenceGain {g c} : KeepsPast (fenceGain g c) := by simp [fenceGain]
@[simp] theorem past_dropCmd {g c} : KeepsPast (dropCmd g c) := by simp [dropCmd]

@[simp] theorem past_reply {g c status} : KeepsPast (reply g c status) := by
  unfold reply; repeat' first | with_reducible refine .bind ?_ fun _ => ?_ | split | simp

@[simp] theorem past_leaveEngine {g c status} : KeepsPast (leaveEngine g c status) := by
  unfold leaveEngine
  repeat' first | with_reducible refine .bind ?_ fun _ => ?_ | split | with_reducible refine past_tryStep ?_ | simp

@[simp] theorem past_complete {g c status} : KeepsPast (complete g c status) := by
  unfold complete; repeat' first | with_reducible refine .bind ?_ fun _ => ?_ | split | simp

@[simp] theorem past_peekDesc {ctx crew a tid} : KeepsPast (peekDesc ctx crew a tid) := by
  unfold peekDesc; repeat' first | with_reducible refine .bind ?_ fun _ => ?_ | split | simp

@[simp] theorem past_blockOperands {i b d} (hd : ∀ n, KeepsPast (d n)) : KeepsPast (blockOperands i b d) := by
  unfold blockOperands
  repeat' first | with_reducible refine .bind ?_ fun _ => ?_ | split | simp [hd]

@[simp] theorem past_awaitEdges {crew name mine} : KeepsPast (awaitEdges crew name mine) := by
  unfold awaitEdges; repeat' first | with_reducible refine .bind ?_ fun _ => ?_ | split | simp

@[simp] theorem past_operandRanges {a d x} (hd : ∀ n, KeepsPast (d n)) : KeepsPast (operandRanges a d x) := by
  cases x <;> unfold operandRanges <;> repeat' first | with_reducible refine .bind ?_ fun _ => ?_ | split | simp [hd]

@[simp] theorem past_allRanges {a d l} (hd : ∀ n, KeepsPast (d n)) : KeepsPast (allRanges a d l) := by
  induction l with
  | nil => exact past_pure _
  | cons x l ih => exact (past_operandRanges hd).bind fun _ => ih.bind fun _ => past_pure _

@[simp] theorem past_issuePins {t id rs} : KeepsPast (issuePins t id rs) := by
  unfold issuePins; repeat' first | with_reducible refine .bind ?_ fun _ => ?_ | split | simp

@[simp] theorem past_threadBlock {t a} : KeepsPast (threadBlock t a) := by
  fun_induction threadBlock t a <;> repeat' first | with_reducible refine .bind ?_ fun _ => ?_ | split | simp [*]

@[simp] theorem past_blockRanges {t i va more} (hm : ∀ t va b, KeepsPast (more t va b)) : KeepsPast (blockRanges t i va more) := by
  unfold blockRanges
  repeat' first | with_reducible refine .bind ?_ fun _ => ?_ | split | simp [hm]

@[simp] theorem past_afterStreams {w} : KeepsPast (afterStreams w) := by
  unfold afterStreams; repeat' first | with_reducible refine .bind ?_ fun _ => ?_ | split | simp

@[simp] theorem past_issueCmd {w o i n more} (hm : ∀ t va b, KeepsPast (more t va b)) : KeepsPast (issueCmd w o i n more) := by
  unfold issueCmd
  generalize (if n.fetches && o.d ≠ 0 then some o.d else none) = fetch
  cases fetch <;> cases w
  all_goals repeat' first
    | with_reducible exact past_trap_bind | with_reducible exact past_throw_bind
    | with_reducible refine .bind ?_ fun _ => ?_ | with_reducible refine .ite ?_ ?_ | simp [hm]

@[simp] theorem past_finishCmd {g id status} : KeepsPast (finishCmd g id status) := by
  unfold finishCmd; repeat' first | with_reducible refine .bind ?_ fun _ => ?_ | split | simp

@[simp] theorem saveStalled_mem {g c s} : (saveStalled g c s).mem = s.mem := by
  unfold saveStalled; split <;> simp

@[simp] theorem past_cmdTurn {k g c body s} (hb : ∀ g c, KeepsPast (body g c)) (h : HistoryKept k s.mem) :
    HistoryKept k (cmdTurn g c body s).mem := by
  unfold cmdTurn
  refine past_ite_state h ?_
  split
  · exact past_runM past_finishCmd h
  · refine past_ite_state (past_runM past_finishCmd (by simpa using h)) ?_
    cases hs : body g c s with
    | ok r t =>
      have := (hb g c).ok h hs
      cases r
      · simpa using this
      · exact past_runM past_finishCmd this
    | error x t =>
      have := (hb g c).stop h hs
      cases x <;> simp [*]
      all_goals split <;> simp [*]

@[simp] theorem past_runCommand {o i n body more s} (hb : ∀ g c, KeepsPast (body g c))
    (hm : ∀ t va b, KeepsPast (more t va b)) : OutKeeps s (runCommand o i n body more s) := by
  unfold runCommand
  cases curOwner s with
  | some w => exact outKeeps_next.2 (past_scalarStep (past_issueCmd hm) (.refl _))
  | none =>
    dsimp only
    cases engineHead s s.cur with
    | none => exact outKeeps_next.2 (.refl _)
    | some x => exact outKeeps_ite (outKeeps_next.2 (past_cmdTurn hb (.refl _))) (outKeeps_next.2 (.refl _))

@[simp] theorem past_runBlock {o i copy opc known body more s} (hb : ∀ g c, KeepsPast (body g c))
    (hm : ∀ t va b, KeepsPast (more t va b)) : OutKeeps s (runBlock o i copy opc known body more s) := by
  refine past_runCommand (fun g c => ?_) hm
  repeat' first | with_reducible refine .bind ?_ fun _ => ?_ | split | simp [hb]

@[simp] theorem past_fence {copy s} : OutKeeps s (fence copy s) := by
  refine past_runScalar fun _ => ?_
  repeat' first | with_reducible refine .bind ?_ fun _ => ?_ | split | simp

@[simp] theorem past_execPrefl2 {o s} : OutKeeps s (execPrefl2 o s) := by
  refine past_runCommand (fun _ _ => ?_) fun _ _ _ => ?_
  all_goals repeat' first | with_reducible refine .bind ?_ fun _ => ?_ | split | simp

/-! #### The copy engine -/

@[simp] theorem past_copyBody {g c} : KeepsPast (copyBody g c) := by
  unfold copyBody; repeat' first | with_reducible refine .bind ?_ fun _ => ?_ | split | simp

@[simp] theorem past_copy2Body {g c} : KeepsPast (copy2Body g c) := by
  unfold copy2Body; repeat' first | with_reducible refine .bind ?_ fun _ => ?_ | split | simp

@[simp] theorem past_fillBody {g c} : KeepsPast (fillBody g c) := by
  unfold fillBody; repeat' first | with_reducible refine .bind ?_ fun _ => ?_ | split | simp

@[simp] theorem past_cmdQueue {c q ep push widths} : KeepsPast (cmdQueue c q ep push widths) := by
  unfold cmdQueue; repeat' first | with_reducible refine .bind ?_ fun _ => ?_ | simp

@[simp] theorem past_cmdPush {c q ep w es i} : KeepsPast (cmdPush c q ep w es i) := by
  unfold cmdPush; repeat' first | with_reducible refine .bind ?_ fun _ => ?_ | split | simp

@[simp] theorem past_strmqBody {g c} : KeepsPast (strmqBody g c) := by
  unfold strmqBody; repeat' first | with_reducible refine .bind ?_ fun _ => ?_ | split | simp

@[simp] theorem past_drainqBody {g c} : KeepsPast (drainqBody g c) := by
  unfold drainqBody; repeat' first | with_reducible refine .bind ?_ fun _ => ?_ | split | simp

@[simp] theorem past_issuerRelease {k g c s} (h : HistoryKept k s.mem) : HistoryKept k (issuerRelease g c s).mem := by
  simp [issuerRelease, h]

@[simp] theorem past_csigBody {g c} : KeepsPast (csigBody g c) := by
  unfold csigBody; repeat' first | with_reducible refine .bind ?_ fun _ => ?_ | split | simp

@[simp] theorem past_accBody {op n g c} : KeepsPast (accBody op n g c) := by
  unfold accBody; repeat' first | with_reducible refine .bind ?_ fun _ => ?_ | split | simp

@[simp] theorem past_runAcc {o i op n s} : OutKeeps s (runAcc o i op n s) := by
  refine past_runCommand (fun _ _ => ?_) fun _ _ _ => ?_
  all_goals repeat' first | with_reducible refine .bind ?_ fun _ => ?_ | simp

/-! #### The index engine -/

@[simp] theorem past_tidField {c off} : KeepsPast (tidField c off) := by
  unfold tidField; repeat' first | with_reducible refine .bind ?_ fun _ => ?_ | split | simp

@[simp] theorem past_queueField {c off} : KeepsPast (queueField c off) := by
  unfold queueField; repeat' first | with_reducible refine .bind ?_ fun _ => ?_ | split | simp

@[simp] theorem past_need {status ok} : KeepsPast (need status ok) := by
  unfold need; split <;> simp

@[simp] theorem past_rowQueue {c q push} : KeepsPast (rowQueue c q push) := by simp [rowQueue]

@[simp] theorem past_readPacked {g c base w i n} : KeepsPast (readPacked g c base w i n) := by
  unfold readPacked; split <;> simp

@[simp] theorem past_writePacked {g c base w i v} : KeepsPast (writePacked g c base w i v) := by
  unfold writePacked; repeat' first | with_reducible refine .bind ?_ fun _ => ?_ | split | simp

@[simp] theorem past_storedRow {g c d r a x} : KeepsPast (storedRow g c d r a x) := by
  fun_induction storedRow g c d r a x <;> repeat' first | with_reducible refine .bind ?_ fun _ => ?_ | simp [*]

@[simp] theorem past_coomRow {g c d r a x} : KeepsPast (coomRow g c d r a x) := by
  fun_induction coomRow g c d r a x <;> repeat' first | with_reducible refine .bind ?_ fun _ => ?_ | split | simp [*]

@[simp] theorem past_denseRow {g c d r} : KeepsPast (denseRow g c d r) := by
  unfold denseRow; repeat' first | with_reducible refine .bind ?_ fun _ => ?_ | split | simp

@[simp] theorem past_tableRead {g c va n} : KeepsPast (tableRead g c va n) := by
  unfold tableRead; repeat' first | with_reducible refine .bind ?_ fun _ => ?_ | split | simp

@[simp] theorem past_tableRow {g c d r} : KeepsPast (tableRow g c d r) := by
  unfold tableRow; repeat' first | with_reducible refine .bind ?_ fun _ => ?_ | split | simp

@[simp] theorem past_writeRow {g c d r es ss a x} : KeepsPast (writeRow g c d r es ss a x) := by
  fun_induction writeRow g c d r es ss a x <;> repeat' first | with_reducible refine .bind ?_ fun _ => ?_ | split | simp [*]

@[simp] theorem past_pushRowEntry {g c q width} : KeepsPast (pushRowEntry g c q width) := by
  unfold pushRowEntry; repeat' first | with_reducible refine .bind ?_ fun _ => ?_ | split | simp

@[simp] theorem past_holdRow {g c bs} : KeepsPast (holdRow g c bs) := by simp [holdRow]
@[simp] theorem past_indexAt {g c base i} : KeepsPast (indexAt g c base i) := by simp [indexAt]

@[simp] theorem past_gathBody {g c} : KeepsPast (gathBody g c) := by
  unfold gathBody; repeat' first | with_reducible refine .bind ?_ fun _ => ?_ | split | simp

@[simp] theorem holdAdd_mem {epid nsrc port a s} : (holdAdd epid nsrc port a s).mem = s.mem := rfl
@[simp] theorem closeEpoch_mem {epid nsrc cmd s} : (closeEpoch epid nsrc cmd s).mem = s.mem := rfl

@[simp] theorem leaveEpoch_mem {epid cmd s} : (leaveEpoch epid cmd s).mem = s.mem := by
  unfold leaveEpoch; split <;> simp

@[simp] theorem past_heldLost {h} : KeepsPast (heldLost h) := by
  unfold heldLost; repeat' first | with_reducible refine .bind ?_ fun _ => ?_ | split | simp

@[simp] theorem past_applyHeld {h} : KeepsPast (applyHeld h) := by
  unfold applyHeld; repeat' first | with_reducible refine .bind ?_ fun _ => ?_ | split | simp

@[simp] theorem past_applyAllHeld {a} : KeepsPast (applyAllHeld a) := by
  fun_induction applyAllHeld a <;> repeat' first | with_reducible refine .bind ?_ fun _ => ?_ | simp [*]

@[simp] theorem past_epochApply {epid} : KeepsPast (epochApply epid) := by
  unfold epochApply; repeat' first | with_reducible refine .bind ?_ fun _ => ?_ | split | simp

@[simp] theorem past_popRowEntry {g c q width want} : KeepsPast (popRowEntry g c q width want) := by
  unfold popRowEntry; repeat' first | with_reducible refine .bind ?_ fun _ => ?_ | split | simp

@[simp] theorem past_scatOperands {g c} : KeepsPast (scatOperands g c) := by
  unfold scatOperands; repeat' first | with_reducible refine .bind ?_ fun _ => ?_ | split | simp

@[simp] theorem past_scatNext {g c} : KeepsPast (scatNext g c) := by simp [scatNext]

@[simp] theorem past_scatElement {g c x r e v} : KeepsPast (scatElement g c x r e v) := by
  unfold scatElement; repeat' first | with_reducible refine .bind ?_ fun _ => ?_ | split | simp

@[simp] theorem past_scatBody {g c} : KeepsPast (scatBody g c) := by
  unfold scatBody; repeat' first | with_reducible refine .bind ?_ fun _ => ?_ | split | simp

@[simp] theorem past_Bag_zeroRow {g c b n} : KeepsPast (Bag.zeroRow g c b n) := by simp [Bag.zeroRow]

@[simp] theorem past_bagRows {g c t oobz zf idx n j b} : KeepsPast (bagRows g c t oobz zf idx n j b) := by
  induction n generalizing j b with
  | zero => exact past_pure _
  | succ n ih =>
    unfold bagRows
    repeat' first | with_reducible refine .bind ?_ fun _ => ?_ | split | simp [ih]

@[simp] theorem past_bagsBody {g c} : KeepsPast (bagsBody g c) := by
  unfold bagsBody; repeat' first | with_reducible refine .bind ?_ fun _ => ?_ | split | simp

@[simp] theorem past_pushEmission {c q l t} : KeepsPast (pushEmission c q l t) := by
  unfold pushEmission; repeat' first | with_reducible refine .bind ?_ fun _ => ?_ | simp

@[simp] theorem past_occWord {g c d w} : KeepsPast (occWord g c d w) := by
  unfold occWord; repeat' first | with_reducible refine .bind ?_ fun _ => ?_ | simp

@[simp] theorem past_isectEnd {g c q mode x} : KeepsPast (isectEnd g c q mode x) := by
  unfold isectEnd; repeat' first | with_reducible refine .bind ?_ fun _ => ?_ | split | simp

@[simp] theorem past_isectBody {g c} : KeepsPast (isectBody g c) := by
  unfold isectBody; repeat' first | with_reducible refine .bind ?_ fun _ => ?_ | split | simp

@[simp] theorem past_readCoords {g c d coord val a x} : KeepsPast (readCoords g c d coord val a x) := by
  fun_induction readCoords g c d coord val a x <;> repeat' first | with_reducible refine .bind ?_ fun _ => ?_ | simp [*]

@[simp] theorem past_msortBody {g c} : KeepsPast (msortBody g c) := by
  unfold msortBody; repeat' first | with_reducible refine .bind ?_ fun _ => ?_ | split | simp

@[simp] theorem past_bf16At {g c d e r} : KeepsPast (bf16At g c d e r) := by simp [bf16At]

@[simp] theorem past_groupSal {g c wt gd gi h a x} : KeepsPast (groupSal g c wt gd gi h a x) := by
  fun_induction groupSal g c wt gd gi h a x <;> repeat' first | with_reducible refine .bind ?_ fun _ => ?_ | simp [*]

@[simp] theorem past_groupMask {g c wt gd gi h} : KeepsPast (groupMask g c wt gd gi h) := by
  unfold groupMask; split <;> simp

@[simp] theorem past_writeMaskBytes {g c x bc h a b y} : KeepsPast (writeMaskBytes g c x bc h a b y) := by
  fun_induction writeMaskBytes g c x bc h a b y <;> repeat' first | with_reducible refine .bind ?_ fun _ => ?_ | simp [*]

@[simp] theorem past_spsrchBody {g c} : KeepsPast (spsrchBody g c) := by
  unfold spsrchBody; repeat' first | with_reducible refine .bind ?_ fun _ => ?_ | simp

/-! #### Address generators -/

@[simp] theorem past_freeBytes {n} : KeepsPast (freeBytes n) := fun _ _ h => h

@[simp] theorem past_runAg {o i uses body s} (hb : ∀ st c e, KeepsPast (body st c e)) : OutKeeps s (runAg o i uses body s) :=
  past_runLane (fun _ => by split <;> simp) fun _ _ => past_inPhase (hb _ _ _)

@[simp] theorem past_setAg {c st name p} : KeepsPast (setAg c st name p) := by simp [setAg]
@[simp] theorem past_agTrap {α : Type} {cause info addr} : KeepsPast (agTrap cause info addr : M α) := by simp [agTrap]

@[simp] theorem past_agdefBody {o st c e} : KeepsPast (agdefBody o st c e) := by
  unfold agdefBody; repeat' first | with_reducible refine .bind ?_ fun _ => ?_ | split | simp

@[simp] theorem past_agDesc {c tid write} : KeepsPast (agDesc c tid write) := by
  unfold agDesc; repeat' first | with_reducible refine .bind ?_ fun _ => ?_ | split | simp

@[simp] theorem past_tileWidth {c q ep push} : KeepsPast (tileWidth c q ep push) := by
  unfold tileWidth; repeat' first | with_reducible refine .bind ?_ fun _ => ?_ | split | simp

@[simp] theorem past_makeBurst {c e a d} : KeepsPast (makeBurst c e a d) := by
  unfold makeBurst; repeat' first | with_reducible refine .bind ?_ fun _ => ?_ | split | simp

@[simp] theorem past_loadTiles {o c e a} : KeepsPast (loadTiles o c e a) := by
  unfold loadTiles; repeat' first | with_reducible refine .bind ?_ fun _ => ?_ | split | simp

@[simp] theorem past_failBurst {α : Type} {c q n ended e x} : KeepsPast (failBurst c q n ended e x : M α) := by
  unfold failBurst; repeat' first | with_reducible refine .bind ?_ fun _ => ?_ | simp

@[simp] theorem past_storeTiles {o c e a} : KeepsPast (storeTiles o c e a) := by
  unfold storeTiles; repeat' first | with_reducible refine .bind ?_ fun _ => ?_ | split | simp

@[simp] theorem past_awaitBank {c b} : KeepsPast (awaitBank c b) := by
  unfold awaitBank; repeat' first | with_reducible refine .bind ?_ fun _ => ?_ | split | simp

@[simp] theorem past_bankEntries {c q ep push a} : KeepsPast (bankEntries c q ep push a) := by
  unfold bankEntries; repeat' first | with_reducible refine .bind ?_ fun _ => ?_ | split | simp

@[simp] theorem past_loadBank {o c e a} : KeepsPast (loadBank o c e a) := by
  unfold loadBank; repeat' first | with_reducible refine .bind ?_ fun _ => ?_ | split | simp

@[simp] theorem past_storeBank {o c e a} : KeepsPast (storeBank o c e a) := by
  unfold storeBank; repeat' first | with_reducible refine .bind ?_ fun _ => ?_ | split | simp

@[simp] theorem past_dropGroups {o c e a} : KeepsPast (dropGroups o c e a) := by
  unfold dropGroups; repeat' first | with_reducible refine .bind ?_ fun _ => ?_ | split | simp

@[simp] theorem past_agrunBody {o st c e} : KeepsPast (agrunBody o st c e) := by
  unfold agrunBody; repeat' first | with_reducible refine .bind ?_ fun _ => ?_ | split | simp

@[simp] theorem past_execAgmark {o s} : OutKeeps s (execAgmark o s) := by
  refine past_runAg fun _ _ _ => ?_
  repeat' first | with_reducible refine .bind ?_ fun _ => ?_ | simp

@[simp] theorem past_agidxBody {o st c e} : KeepsPast (agidxBody o st c e) := by
  unfold agidxBody; repeat' first | with_reducible refine .bind ?_ fun _ => ?_ | split | simp

@[simp] theorem past_bankArg {c b} : KeepsPast (bankArg c b) := by
  unfold bankArg; repeat' first | with_reducible refine .bind ?_ fun _ => ?_ | split | simp

@[simp] theorem past_execAgbank {o s} : OutKeeps s (execAgbank o s) := by
  refine past_runAg fun _ _ _ => ?_
  repeat' first | with_reducible refine .bind ?_ fun _ => ?_ | split | simp

@[simp] theorem past_execAgtake {o s} : OutKeeps s (execAgtake o s) := by
  refine past_runAg fun _ _ _ => ?_
  repeat' first | with_reducible refine .bind ?_ fun _ => ?_ | simp

/-! #### Control registers -/

@[simp] theorem writeQcfg_mem {c q x s} : (writeQcfg c q x s).mem = s.mem := by simp [writeQcfg]
@[simp] theorem writeQstat_mem {c q x s} : (writeQstat c q x s).mem = s.mem := rfl

@[simp] theorem past_ctlCheck {w n write} : KeepsPast (ctlCheck w n write) := by
  unfold ctlCheck; repeat' first | with_reducible refine .bind ?_ fun _ => ?_ | split | simp

@[simp] theorem past_readCtl {w n} : KeepsPast (readCtl w n) := by
  unfold readCtl; repeat' first | with_reducible refine .bind ?_ fun _ => ?_ | split | simp

@[simp] theorem writeVctl_mem {c reg v s} : (writeVctl c reg v s).mem = s.mem := rfl

@[simp] theorem writeCrewCtl_mem {c n x s} : (writeCrewCtl c n x s).mem = s.mem := by
  unfold writeCrewCtl; repeat' first | split | simp

@[simp] theorem past_execCtlr {o s} : OutKeeps s (execCtlr o s) := by
  refine past_runScalar fun _ => ?_
  repeat' first | with_reducible refine .bind ?_ fun _ => ?_ | simp

/-! #### System instructions and arrivals -/

@[simp] theorem past_execTsrd {o s} : OutKeeps s (execTsrd o s) := by
  refine past_runS fun _ => ?_
  repeat' first | with_reducible refine .bind ?_ fun _ => ?_ | split | simp

@[simp] theorem past_hrdRead {c d ea} : KeepsPast (hrdRead c d ea) := by
  unfold hrdRead; repeat' first | with_reducible refine .bind ?_ fun _ => ?_ | split | simp

@[simp] theorem past_execHrd {o s} : OutKeeps s (execHrd o s) := by
  refine past_runS fun _ => ?_
  repeat' first | with_reducible refine .bind ?_ fun _ => ?_ | split | simp

@[simp] theorem past_execHwr {o s} : OutKeeps s (execHwr o s) := by
  refine past_runS fun _ => past_guarded ?_
  repeat' first | with_reducible refine .bind ?_ fun _ => ?_ | simp

@[simp] theorem past_execHrdMerge {crew h s} : OutKeeps s (execHrdMerge crew h s) := by
  unfold execHrdMerge; repeat' first | split | simp

@[simp] theorem past_raiseAfter {k cause imm o s} (h : HistoryKept k s.mem) : HistoryKept k (raiseAfter cause imm o s).mem := by
  simp [raiseAfter, h]

@[simp] theorem past_execBkpt {o s} : OutKeeps s (execBkpt o s) := by
  unfold execBkpt; split <;> simp

@[simp] theorem past_execSysc {o s} : OutKeeps s (execSysc o s) := by
  unfold execSysc; split <;> simp

@[simp] theorem past_needLevel {t n} : KeepsPast (needLevel t n) := by
  unfold needLevel; repeat' first | with_reducible refine .bind ?_ fun _ => ?_ | split | simp

@[simp] theorem past_execHalt {x s} : OutKeeps s (execHalt x s) := by
  refine past_runA fun _ => ?_
  repeat' first | with_reducible refine .bind ?_ fun _ => ?_ | simp

@[simp] theorem loopFaultNow_mem {c s} : (loopFaultNow c s).mem = s.mem := by
  unfold loopFaultNow; repeat' first | split | simp

@[simp] theorem resumeSeq_mem {c p s} : (resumeSeq c p s).mem = s.mem := by simp [resumeSeq]

@[simp] theorem unskip_mem {c e s} : (unskip c e s).mem = s.mem := by
  unfold unskip; repeat' first | split | simp

@[simp] theorem resumeStream_mem {c st skip s} : (resumeStream c st skip s).mem = s.mem := by
  unfold resumeStream; repeat' first | split | simp

@[simp] theorem resumeCluster_mem {c resume skip s} : (resumeCluster c resume skip s).mem = s.mem := by
  unfold resumeCluster; repeat' first | split | simp

@[simp] theorem past_restoredLevel {flags} : KeepsPast (restoredLevel flags) := by
  unfold restoredLevel; split <;> simp

@[simp] theorem past_readRecord {t} : KeepsPast (readRecord t) := by
  unfold readRecord; repeat' first | with_reducible refine .bind ?_ fun _ => ?_ | split | simp

@[simp] theorem past_eret {t} : KeepsPast (eret t) := by
  unfold eret; repeat' first | with_reducible refine .bind ?_ fun _ => ?_ | split | simp

@[simp] theorem arriveValue_mem {o r s} : (arriveValue o r s).mem = s.mem := by
  unfold arriveValue; repeat' first | split | simp

@[simp] theorem arrivePin_mem {t r s} : (arrivePin t r s).mem = s.mem := by
  unfold arrivePin; repeat' first | split | simp

@[simp] theorem unpark_mem {o s} : (unpark o s).mem = s.mem := by
  unfold unpark; split <;> simp

@[simp] theorem past_raiseWoken {k o e s} (h : HistoryKept k s.mem) : HistoryKept k (raiseWoken o e s).mem := by
  simp [raiseWoken, h]

@[simp] theorem past_wake {o} : KeepsPast (wake o) := by
  unfold wake; repeat' first | with_reducible refine .bind ?_ fun _ => ?_ | split | simp

@[simp] theorem past_execSkipToken {crew s} : OutKeeps s (execSkipToken crew s) := by
  unfold execSkipToken; repeat' first | split | simp

@[simp] theorem past_execStartClusterHalf {crew s} : OutKeeps s (execStartClusterHalf crew s) := by
  unfold execStartClusterHalf; repeat' first | split | simp

@[simp] theorem past_execStartCoxThread {crew s} : OutKeeps s (execStartCoxThread crew s) := by
  unfold execStartCoxThread; repeat' first | split | simp

@[simp] theorem past_stallEvent {ctx crew addr v} : KeepsPast (stallEvent ctx crew addr v) := by simp [stallEvent]

@[simp] theorem past_watchdog {o} : KeepsPast (watchdog o) := by
  unfold watchdog; repeat' first | with_reducible refine .bind ?_ fun _ => ?_ | split | simp

/-! #### Launch records and graphs -/

@[simp] theorem past_refuse {α : Type} {status count} : KeepsPast (refuse status count : M α) := by simp [refuse]

@[simp] theorem past_graphRead {ctx va n status count} : KeepsPast (graphRead ctx va n status count) := by
  unfold graphRead; repeat' first | with_reducible refine .bind ?_ fun _ => ?_ | split | simp

@[simp] theorem past_checkCount {r} : KeepsPast (checkCount r) := by
  unfold checkCount; repeat' first | with_reducible refine .bind ?_ fun _ => ?_ | split | simp

@[simp] theorem past_checkLevels {ls nmem} : KeepsPast (checkLevels ls nmem) := by
  unfold checkLevels; repeat' first | with_reducible refine .bind ?_ fun _ => ?_ | split | simp

@[simp] theorem past_hubDesc {ctx tid} : KeepsPast (hubDesc ctx tid) := by
  unfold hubDesc; repeat' first | with_reducible refine .bind ?_ fun _ => ?_ | split | simp

@[simp] theorem past_footBad {ctx f} : KeepsPast (footBad ctx f) := by
  unfold footBad; repeat' first | with_reducible refine .bind ?_ fun _ => ?_ | split | simp

@[simp] theorem past_anyFootBad {ctx a} : KeepsPast (anyFootBad ctx a) := by
  fun_induction anyFootBad ctx a <;> repeat' first | with_reducible refine .bind ?_ fun _ => ?_ | simp [*]

@[simp] theorem past_readCard {ctx graph i ncard nlev crew} : KeepsPast (readCard ctx graph i ncard nlev crew) := by
  unfold readCard; repeat' first | with_reducible refine .bind ?_ fun _ => ?_ | split | simp

@[simp] theorem past_readCards {ctx graph ncard nlev crew a} : KeepsPast (readCards ctx graph ncard nlev crew a) := by
  fun_induction readCards ctx graph ncard nlev crew a <;> repeat' first | with_reducible refine .bind ?_ fun _ => ?_ | simp [*]

@[simp] theorem past_checkQueues {l} : KeepsPast (checkQueues l) := by
  induction l with
  | nil => exact past_pure _
  | cons x l ih =>
    unfold checkQueues
    repeat' first | with_reducible refine .bind ?_ fun _ => ?_ | split | simp [ih]

@[simp] theorem past_codeBad {α : Type} {card sub why} : KeepsPast (codeBad card sub why : M α) := by simp [codeBad]

@[simp] theorem cacheRoom_mem {tenant n a x} : (cacheRoom tenant n a x).mem = x.mem := by
  fun_induction cacheRoom tenant n a x <;> simp [*]

@[simp] theorem past_cacheStore {tenant key window} : KeepsPast (cacheStore tenant key window) := by
  unfold cacheStore; repeat' first | with_reducible refine .bind ?_ fun _ => ?_ | simp

@[simp] theorem past_cachedWindow {tenant obj fresh} : KeepsPast (cachedWindow tenant obj fresh) := by
  unfold cachedWindow; repeat' first | with_reducible refine .bind ?_ fun _ => ?_ | split | simp

@[simp] theorem past_nativeCode {i c h vs} : KeepsPast (nativeCode i c h vs) := by
  unfold nativeCode; repeat' first | with_reducible refine .bind ?_ fun _ => ?_ | split | simp

@[simp] theorem past_chervilMakes {i c h sections obj} : KeepsPast (chervilMakes i c h sections obj) := by
  unfold chervilMakes; repeat' first | with_reducible refine .bind ?_ fun _ => ?_ | split | simp

@[simp] theorem past_lodorCode {ctx i c h tenant sections obj} : KeepsPast (lodorCode ctx i c h tenant sections obj) := by
  unfold lodorCode; repeat' first | with_reducible refine .bind ?_ fun _ => ?_ | split | simp

@[simp] theorem past_checkCode {ctx sections i c} : KeepsPast (checkCode ctx sections i c) := by
  unfold checkCode; repeat' first | with_reducible refine .bind ?_ fun _ => ?_ | split | simp

@[simp] theorem past_checkCodes {ctx sections a} : KeepsPast (checkCodes ctx sections a) := by
  fun_induction checkCodes ctx sections a <;> repeat' first | with_reducible refine .bind ?_ fun _ => ?_ | simp [*]

@[simp] theorem past_pinCode {ctx id a} : KeepsPast (pinCode ctx id a) := by
  fun_induction pinCode ctx id a <;> repeat' first | with_reducible refine .bind ?_ fun _ => ?_ | split | simp [*]

@[simp] theorem past_writeWindows {ctx l} : KeepsPast (writeWindows ctx l) := by
  induction l with
  | nil => exact past_pure _
  | cons x l ih =>
    unfold writeWindows
    repeat' first | with_reducible refine .bind ?_ fun _ => ?_ | split | simp [ih]

@[simp] theorem past_makeLaunch {ctx r nmem} : KeepsPast (makeLaunch ctx r nmem) := by
  unfold makeLaunch; repeat' first | with_reducible refine .bind ?_ fun _ => ?_ | split | simp

@[simp] theorem past_readGang {ctx va} : KeepsPast (readGang ctx va) := by
  unfold readGang; repeat' first | with_reducible refine .bind ?_ fun _ => ?_ | split | simp

/-! #### Scheduling -/

@[simp] theorem enterPool_mem {id y s} : (enterPool id y s).mem = s.mem := by
  unfold enterPool; split <;> simp

@[simp] theorem past_enterAll {a x} : KeepsPast (enterAll a x) := by
  fun_induction enterAll a x <;> repeat' first | with_reducible refine .bind ?_ fun _ => ?_ | split | simp [*]

@[simp] theorem past_refreshReady : KeepsPast (refreshReady) := by
  unfold refreshReady; repeat' first | with_reducible refine .bind ?_ fun _ => ?_ | simp

@[simp] theorem dropEntry_mem {part i s} : (dropEntry part i s).mem = s.mem := rfl

@[simp] theorem past_writeHeader {ctx addr} : KeepsPast (writeHeader ctx addr) := by
  unfold writeHeader; repeat' first | with_reducible refine .bind ?_ fun _ => ?_ | simp

@[simp] theorem startAgent_mem {o launch scope s} : (startAgent o launch scope s).mem = s.mem := by simp [startAgent]
@[simp] theorem occupy_mem {cl slot c s} : (occupy cl slot c s).mem = s.mem := rfl

@[simp] theorem past_pickSlot {cl} : KeepsPast (pickSlot cl) := by
  unfold pickSlot; repeat' first | with_reducible refine .bind ?_ fun _ => ?_ | simp

@[simp] theorem past_pickFrame {ctx} : KeepsPast (pickFrame ctx) := by
  unfold pickFrame; repeat' first | with_reducible refine .bind ?_ fun _ => ?_ | simp

@[simp] theorem past_anyDescBad {ctx a} : KeepsPast (anyDescBad ctx a) := by
  fun_induction anyDescBad ctx a <;> repeat' first | with_reducible refine .bind ?_ fun _ => ?_ | simp [*]

@[simp] theorem past_dispatchNode {part i e l cl t} : KeepsPast (dispatchNode part i e l cl t) := by
  unfold dispatchNode; repeat' first | with_reducible refine .bind ?_ fun _ => ?_ | split | simp

@[simp] theorem renameThread_mem {a b s} : (renameThread a b s).mem = s.mem := rfl

@[simp] theorem past_storeFrame {ctx addr k} : KeepsPast (storeFrame ctx addr k) := by
  unfold storeFrame; repeat' first | with_reducible refine .bind ?_ fun _ => ?_ | simp

@[simp] theorem past_publishRecords {c} : KeepsPast (publishRecords c) := by
  unfold publishRecords; repeat' first | with_reducible refine .bind ?_ fun _ => ?_ | split | simp

@[simp] theorem past_stopStored {c} : KeepsPast (stopStored c) := by
  unfold stopStored; repeat' first | with_reducible refine .bind ?_ fun _ => ?_ | split | simp

@[simp] theorem past_saveDone {c suspend cause} : KeepsPast (saveDone c suspend cause) := by
  unfold saveDone; repeat' first | with_reducible refine .bind ?_ fun _ => ?_ | split | simp

@[simp] theorem past_execSaveComplete {crew s} : OutKeeps s (execSaveComplete crew s) := by
  unfold execSaveComplete; split <;> simp

@[simp] theorem requeue_mem {c cl s} : (requeue c cl s).mem = s.mem := rfl

@[simp] theorem past_reissueAt {t l} : KeepsPast (reissueAt t l) := by
  refine past_runs fun k s h => ?_
  unfold reissueAt
  cases hs : translate t l.level l.va false false s with
  | ok a t => exact past_translate.ok h hs
  | error e t => exact past_keepErrors h

@[simp] theorem past_reissue {t l} : KeepsPast (reissue t l) := by
  unfold reissue; repeat' first | with_reducible refine .bind ?_ fun _ => ?_ | split | simp

@[simp] theorem past_reissueLoads {t a} : KeepsPast (reissueLoads t a) := by
  fun_induction reissueLoads t a <;> repeat' first | with_reducible refine .bind ?_ fun _ => ?_ | split | simp [*]

@[simp] theorem past_frameSound {ctx addr} : KeepsPast (frameSound ctx addr) := by
  unfold frameSound; repeat' first | with_reducible refine .bind ?_ fun _ => ?_ | split | simp

@[simp] theorem past_placeAgain {c cl t} : KeepsPast (placeAgain c cl t) := by
  unfold placeAgain; repeat' first | with_reducible refine .bind ?_ fun _ => ?_ | simp

@[simp] theorem past_restoreCrew {part i c cl t} : KeepsPast (restoreCrew part i c cl t) := by
  unfold restoreCrew; repeat' first | with_reducible refine .bind ?_ fun _ => ?_ | split | simp

@[simp] theorem past_dispatchEntry {p} : KeepsPast (dispatchEntry p) := by
  unfold dispatchEntry; repeat' first | with_reducible refine .bind ?_ fun _ => ?_ | split | simp

@[simp] theorem past_finalRelease {k a scope s} (h : HistoryKept k s.mem) : HistoryKept k (finalRelease a scope s).mem := by
  simp [finalRelease, h]

@[simp] theorem past_completeCrew {k c s} (h : HistoryKept k s.mem) : HistoryKept k (completeCrew c s).mem := by
  simp [completeCrew, h]

@[simp] theorem past_crewReport {i} : KeepsPast (crewReport i) := by
  unfold crewReport; repeat' first | with_reducible refine .bind ?_ fun _ => ?_ | split | simp

@[simp] theorem promise_mem {part i s} : (promise part i s).mem = s.mem := rfl

@[simp] theorem quantum_mem {cl s} : (quantum cl s).mem = s.mem := by
  unfold quantum; repeat' first | split | simp

@[simp] theorem age_mem {part i s} : (age part i s).mem = s.mem := by
  unfold age; repeat' first | split | simp

/-! #### Launches and gangs -/

@[simp] theorem past_launchReply {ctx reply status events count scope} : KeepsPast (launchReply ctx reply status events count scope) := by
  unfold launchReply; split <;> simp

@[simp] theorem past_hubSignal {ctx cntr scope} : KeepsPast (hubSignal ctx cntr scope) := by
  unfold hubSignal; repeat' first | with_reducible refine .bind ?_ fun _ => ?_ | split | simp

@[simp] theorem finishLaunch_mem {id s} : (finishLaunch id s).mem = s.mem := rfl

@[simp] theorem past_execLaunchPortWrite {offset data s} : OutKeeps s (execLaunchPortWrite offset data s) := by
  unfold execLaunchPortWrite; repeat' first | split | simp

@[simp] theorem past_launchBody {g c} : KeepsPast (launchBody g c) := by
  unfold launchBody; repeat' first | with_reducible refine .bind ?_ fun _ => ?_ | split | simp

@[simp] theorem past_acceptRelease {k o scope s} (h : HistoryKept k s.mem) : HistoryKept k (acceptRelease o scope s).mem := by
  unfold acceptRelease; split <;> simp [h]

@[simp] theorem answerOrigin_mem {o status count s} : (answerOrigin o status count s).mem = s.mem := by
  unfold answerOrigin; split <;> simp

@[simp] theorem sendGang_mem {pkg mk x s} : (sendGang pkg mk x s).mem = s.mem := by simp [sendGang]
@[simp] theorem toMembers_mem {l gang members tenant mk s} : (toMembers l gang members tenant mk s).mem = s.mem := by simp [toMembers]

@[simp] theorem past_startGang {ctx r} : KeepsPast (startGang ctx r) := by
  unfold startGang; repeat' first | with_reducible refine .bind ?_ fun _ => ?_ | split | simp

@[simp] theorem past_acceptRecord {ctx p} : KeepsPast (acceptRecord ctx p) := by
  unfold acceptRecord; repeat' first | with_reducible refine .bind ?_ fun _ => ?_ | split | simp

@[simp] theorem popPort_mem {ctx s} : (popPort ctx s).mem = s.mem := by
  unfold popPort; split <;> simp

@[simp] theorem past_acceptHead {ctx} : KeepsPast (acceptHead ctx) := by
  refine past_runs fun k s h => ?_
  unfold acceptHead
  cases hp : (s.context ctx).port with
  | nil => exact h
  | cons p l =>
    have hgo : KeepsPast (do
        upd (popPort ctx)
        upd (answerOrigin p.origin 1 0)
        refreshReady) := by
      repeat' first | with_reducible refine .bind ?_ fun _ => ?_ | simp
    have hend (n : Nat) : KeepsPast (do
        upd (popPort ctx)
        upd (answerOrigin p.origin (n % 256) (n / 256))
        launchReply ctx (recReply p.record) (n % 256) 0 (n / 256) 4) := by
      repeat' first | with_reducible refine .bind ?_ fun _ => ?_ | simp
    dsimp only
    cases hs : acceptRecord ctx p s with
    | ok _ t => exact hgo k t (past_acceptRecord.ok h hs)
    | error e t =>
      cases e with
      | status n => exact hend n k _ (past_keepErrors h)
      | _ => exact past_keepErrors h

@[simp] theorem past_completeLaunch {id l} : KeepsPast (completeLaunch id l) := by
  unfold completeLaunch; repeat' first | with_reducible refine .bind ?_ fun _ => ?_ | split | simp

@[simp] theorem past_tryComplete {id} : KeepsPast (tryComplete id) := by
  unfold tryComplete; repeat' first | with_reducible refine .bind ?_ fun _ => ?_ | split | simp

theorem received_mem {msg sender seq s t} (h : received msg sender seq s = some t) : t.mem = s.mem := by
  unfold received at h
  repeat' split at h
  all_goals simp at h
  all_goals rw [← h]

theorem past_onMessage {msg sender seq s} {f : State → State} (hf : ∀ k s, HistoryKept k s.mem → HistoryKept k (f s).mem) :
    OutKeeps s (.next (match received msg sender seq s with
      | some t => f t
      | none => s)) := by
  rw [outKeeps_next]
  split
  next hr => exact hf _ _ (by rw [received_mem hr]; exact .refl _)
  · exact .refl _

@[simp] theorem past_armMember {x} : KeepsPast (armMember x) := by
  unfold armMember; repeat' first | with_reducible refine .bind ?_ fun _ => ?_ | split | simp

@[simp] theorem acknowledge_mem {x status s} : (acknowledge x status s).mem = s.mem := by simp [acknowledge]

@[simp] theorem past_arm {x} : KeepsPast (arm x) := by
  refine past_runs fun k s h => ?_
  have hgo : KeepsPast (do
      upd (acknowledge x 1)
      refreshReady) := by
    repeat' first | with_reducible refine .bind ?_ fun _ => ?_ | simp
  have hend (n : Nat) : KeepsPast (do
      upd (acknowledge x (n % 256))
      event x.ctx 7 (n % 256) 0 0 x.gangId) := by
    repeat' first | with_reducible refine .bind ?_ fun _ => ?_ | simp
  unfold arm
  cases hs : armMember x s with
  | ok _ t => exact hgo k t (past_armMember.ok h hs)
  | error e t =>
    cases e with
    | status n => exact hend n k _ (past_keepErrors h)
    | _ => exact past_keepErrors h

@[simp] theorem past_execGangArm {msg s} : OutKeeps s (execGangArm msg s) := past_onMessage fun _ _ h => past_runM past_arm h
@[simp] theorem commitGang_mem {id l gang members acks reports s} : (commitGang id l gang members acks reports s).mem = s.mem := by simp [commitGang]

@[simp] theorem past_abortGang {id l gang members} : KeepsPast (abortGang id l gang members) := by
  unfold abortGang; repeat' first | with_reducible refine .bind ?_ fun _ => ?_ | simp

@[simp] theorem past_takeAck {x} : KeepsPast (takeAck x) := by
  unfold takeAck; repeat' first | with_reducible refine .bind ?_ fun _ => ?_ | split | simp

@[simp] theorem past_execGangAcknowledge {msg s} : OutKeeps s (execGangAcknowledge msg s) :=
  past_onMessage fun _ _ h => past_runM past_takeAck h

@[simp] theorem past_abortUncommitted {id} : KeepsPast (abortUncommitted id) := by
  unfold abortUncommitted; repeat' first | with_reducible refine .bind ?_ fun _ => ?_ | split | simp

@[simp] theorem past_publishFrom {m scope cl ids s} (h : HistoryKept m s.mem) : HistoryKept m (publishFrom scope cl ids s).mem :=
  h.trans (.of_log rfl (List.append_nil _).symm (sameWrites_map (sameWrite_addPub ids _) _))

@[simp] theorem past_commitMember {m x s} (h : HistoryKept m s.mem) : HistoryKept m (commitMember x s).mem := by
  unfold commitMember
  split
  · exact h
  · exact past_foldl (fun _ _ _ h => past_publishFrom h) h

@[simp] theorem past_execGangCommit {msg s} : OutKeeps s (execGangCommit msg s) := past_onMessage fun _ _ h => past_commitMember h
@[simp] theorem endLaunch_mem {id s} : (endLaunch id s).mem = s.mem := by simp [endLaunch]

@[simp] theorem past_abortMember {x} : KeepsPast (abortMember x) := by
  unfold abortMember; repeat' first | with_reducible refine .bind ?_ fun _ => ?_ | split | simp

@[simp] theorem past_execGangAbort {msg s} : OutKeeps s (execGangAbort msg s) :=
  past_onMessage fun _ _ h => past_runM past_abortMember h

@[simp] theorem memberReport_mem {x s} : (memberReport x s).mem = s.mem := by
  unfold memberReport; repeat' first | split | simp

@[simp] theorem past_execCompletionReport {msg s} : OutKeeps s (execCompletionReport msg s) := by
  cases msg with
  | crew i => exact outKeeps_next.2 (past_runM past_crewReport (.refl _))
  | member m => exact past_onMessage fun _ _ h => by simpa using h

/-! #### Messages -/

@[simp] theorem past_refuseMessage {x} : KeepsPast (refuseMessage x) := by simp [refuseMessage]

@[simp] theorem past_refuseCmds {l} : KeepsPast (refuseCmds l) := by
  induction l with
  | nil => exact past_pure _
  | cons x l ih =>
    unfold refuseCmds
    repeat' first | with_reducible refine .bind ?_ fun _ => ?_ | split | simp [ih]

/-! #### Contexts -/

@[simp] theorem past_threadRead {t a} : KeepsPast (threadRead t a) := by
  fun_induction threadRead t a <;> repeat' first | with_reducible refine .bind ?_ fun _ => ?_ | split | simp [*]

@[simp] theorem past_createContext {t va} : KeepsPast (createContext t va) := by
  unfold createContext; repeat' first | with_reducible refine .bind ?_ fun _ => ?_ | split | simp

@[simp] theorem past_finishCmds {status a} : KeepsPast (finishCmds status a) := by
  fun_induction finishCmds status a <;> repeat' first | with_reducible refine .bind ?_ fun _ => ?_ | simp [*]

@[simp] theorem past_refusePort {ctx a} : KeepsPast (refusePort ctx a) := by
  fun_induction refusePort ctx a <;> repeat' first | with_reducible refine .bind ?_ fun _ => ?_ | split | simp [*]

@[simp] theorem past_endLaunches {a} : KeepsPast (endLaunches a) := by
  fun_induction endLaunches a <;> repeat' first | with_reducible refine .bind ?_ fun _ => ?_ | simp [*]

@[simp] theorem past_tearContext {by_ ctx} : KeepsPast (tearContext by_ ctx) := by
  unfold tearContext
  repeat' first
    | with_reducible refine .bind ?_ fun _ => ?_ | split | (simp; done) | (rw [past_upd]; intro _; dsimp only)
    | refine past_foldl (fun _ _ _ h => h) ?_

@[simp] theorem past_tear {by_ ctx} : KeepsPast (tear by_ ctx) := by
  unfold tear; repeat' first | with_reducible refine .bind ?_ fun _ => ?_ | split | simp

@[simp] theorem past_loopOk_sounded {lines} (hm : KeepsPast lines) : KeepsPast (loopOk.sounded lines) := by
  refine past_runs fun k s h => ?_
  unfold loopOk.sounded
  cases hs : lines s with
  | ok a t => exact hm.ok h hs
  | error e t => have := hm.stop h hs; cases e <;> first | exact this | exact past_keepErrors h

@[simp] theorem past_loopOk {c ctl r} : KeepsPast (loopOk c ctl r) := by
  unfold loopOk
  split
  · exact past_pure _
  · exact (past_loopOk_sounded (past_fetchLine.bind fun _ => past_fetchLine.bind fun _ => past_pure _)).bind fun _ => past_pure _

@[simp] theorem past_readLoop {c b n} : KeepsPast (readLoop c b n) := by
  unfold readLoop; repeat' first | with_reducible refine .bind ?_ fun _ => ?_ | split | simp

@[simp] theorem past_readLoops {c b a} : KeepsPast (readLoops c b a) := by
  fun_induction readLoops c b a <;> repeat' first | with_reducible refine .bind ?_ fun _ => ?_ | simp [*]

@[simp] theorem past_readBack {c b n} : KeepsPast (readBack c b n) := by
  unfold readBack; repeat' first | with_reducible refine .bind ?_ fun _ => ?_ | split | simp

@[simp] theorem past_readRegs {c b a} : KeepsPast (readRegs c b a) := by
  fun_induction readRegs c b a <;> repeat' first | with_reducible refine .bind ?_ fun _ => ?_ | simp [*]

@[simp] theorem past_applyRecord {c b} : KeepsPast (applyRecord c b) := by
  unfold applyRecord; repeat' first | with_reducible refine .bind ?_ fun _ => ?_ | split | simp

@[simp] theorem past_resumeCrew_lost {c k va} : KeepsPast (resumeCrew.lost c k va) := by
  unfold resumeCrew.lost; repeat' first | with_reducible refine .bind ?_ fun _ => ?_ | simp

@[simp] theorem past_resumeCrew {c} : KeepsPast (resumeCrew c) := by
  unfold resumeCrew
  repeat' first | with_reducible refine .bind ?_ fun _ => ?_ | split | (simp; done) | dsimp only
  generalize hm : (applyRecord c _ >>= fun _ => upd _ : M Unit) = m
  have hm : KeepsPast m := by
    rw [← hm]
    exact past_applyRecord.bind fun _ => by simp
  refine past_runs fun k s h => ?_
  cases hs : m s with
  | ok _ t => exact hm.ok h hs
  | error e t =>
    cases e with
    | lasting va => exact past_resumeCrew_lost k _ (past_keepErrors h)
    | _ => exact hm.stop h hs

@[simp] theorem past_crewCmd {op c} : KeepsPast (crewCmd op c) := by
  unfold crewCmd; repeat' first | with_reducible refine .bind ?_ fun _ => ?_ | split | simp

@[simp] theorem past_commandCrew {part handle op} : KeepsPast (commandCrew part handle op) := by
  unfold commandCrew; repeat' first | with_reducible refine .bind ?_ fun _ => ?_ | split | simp

@[simp] theorem past_partitionWrite {t n v} : KeepsPast (partitionWrite t n v) := by
  unfold partitionWrite; repeat' first | with_reducible refine .bind ?_ fun _ => ?_ | split | simp

@[simp] theorem past_ctlWrite {w n v h} : KeepsPast (ctlWrite w n v h) := by
  unfold ctlWrite; repeat' first | with_reducible refine .bind ?_ fun _ => ?_ | split | simp

@[simp] theorem past_execCtlw {o s} : OutKeeps s (execCtlw o s) := by
  refine past_runScalar fun _ => ?_
  repeat' first | with_reducible refine .bind ?_ fun _ => ?_ | simp

/-! #### Shuffles -/

@[simp] theorem countShuf_mem {ctx field n s} : (countShuf ctx field n s).mem = s.mem := by
  unfold countShuf; split <;> simp

@[simp] theorem past_readPlan {g c va} : KeepsPast (readPlan g c va) := by
  unfold readPlan; repeat' first | with_reducible refine .bind ?_ fun _ => ?_ | split | simp

@[simp] theorem past_planFormat {g c p} : KeepsPast (planFormat g c p) := by
  unfold planFormat; repeat' first | with_reducible refine .bind ?_ fun _ => ?_ | split | simp

@[simp] theorem siUpd_mem {ctx n f s} : (siUpd ctx n f s).mem = s.mem := rfl

@[simp] theorem evict_mem {spare a x} : (evict spare a x).mem = x.mem := by
  fun_induction evict spare a x <;> simp [*]

@[simp] theorem past_bind {g c p nfd} : KeepsPast (bind g c p nfd) := by
  unfold bind; repeat' first | with_reducible refine .bind ?_ fun _ => ?_ | split | simp

@[simp] theorem past_setShuf {shid f} : KeepsPast (setShuf shid f) := by simp [setShuf]

@[simp] theorem past_sendForm {g c shid x e} : KeepsPast (sendForm g c shid x e) := by
  unfold sendForm; repeat' first | with_reducible refine .bind ?_ fun _ => ?_ | split | simp

@[simp] theorem past_sendSolo {shid i form forced} : KeepsPast (sendSolo shid i form forced) := by
  unfold sendSolo; repeat' first | with_reducible refine .bind ?_ fun _ => ?_ | split | simp

@[simp] theorem past_sendCoded {shid x group} : KeepsPast (sendCoded shid x group) := by
  unfold sendCoded; repeat' first | with_reducible refine .bind ?_ fun _ => ?_ | simp

@[simp] theorem past_readSend {g c shid i} : KeepsPast (readSend g c shid i) := by
  unfold readSend; repeat' first | with_reducible refine .bind ?_ fun _ => ?_ | split | simp

@[simp] theorem past_sendSolos {shid a} : KeepsPast (sendSolos shid a) := by
  fun_induction sendSolos shid a <;> repeat' first | with_reducible refine .bind ?_ fun _ => ?_ | simp [*]

@[simp] theorem past_breakGroup {shid group} : KeepsPast (breakGroup shid group) := by
  unfold breakGroup; repeat' first | with_reducible refine .bind ?_ fun _ => ?_ | split | simp

@[simp] theorem sendRreqs_mem {x sender cs s} : (sendRreqs x sender cs s).mem = s.mem := by simp [sendRreqs]

@[simp] theorem past_missAll {g c x a} : KeepsPast (missAll g c x a) := by
  fun_induction missAll g c x a <;> repeat' first | with_reducible refine .bind ?_ fun _ => ?_ | split | simp [*]

@[simp] theorem mismatch_mem {x p s} : (mismatch x p s).mem = s.mem := by
  unfold mismatch
  split
  · exact foldl_mem fun s c => by simp
  · simp

@[simp] theorem past_sideRead {g c e} : KeepsPast (sideRead g c e) := by
  unfold sideRead; repeat' first | with_reducible refine .bind ?_ fun _ => ?_ | split | simp

@[simp] theorem past_cancelKnown {g c x a x1} : KeepsPast (cancelKnown g c x a x1) := by
  fun_induction cancelKnown g c x a x1 <;> repeat' first | with_reducible refine .bind ?_ fun _ => ?_ | split | simp [*]

@[simp] theorem past_blockSignal {g c x} : KeepsPast (blockSignal g c x) := by
  unfold blockSignal
  repeat' first | with_reducible refine .bind ?_ fun _ => ?_ | split | with_reducible refine past_tryStep ?_ | simp

@[simp] theorem past_cmdWriteUnit {g c va bs} : KeepsPast (cmdWriteUnit g c va bs) := by
  unfold cmdWriteUnit; repeat' first | with_reducible refine .bind ?_ fun _ => ?_ | split | simp

@[simp] theorem past_recover {g c shid x k data p} : KeepsPast (recover g c shid x k data p) := by
  unfold recover; repeat' first | with_reducible refine .bind ?_ fun _ => ?_ | split | simp

@[simp] theorem past_decodePacket {g c shid p} : KeepsPast (decodePacket g c shid p) := by
  unfold decodePacket; repeat' first | with_reducible refine .bind ?_ fun _ => ?_ | split | simp

@[simp] theorem past_takePacket {shid held p} : KeepsPast (takePacket shid held p) := by
  unfold takePacket; repeat' first | with_reducible refine .bind ?_ fun _ => ?_ | split | simp

@[simp] theorem past_decodeAll {g c shid a x} : KeepsPast (decodeAll g c shid a x) := by
  fun_induction decodeAll g c shid a x <;> repeat' first | with_reducible refine .bind ?_ fun _ => ?_ | split | simp [*]

@[simp] theorem tryClose_mem {shid s} : (tryClose shid s).mem = s.mem := by
  unfold tryClose; split <;> simp

@[simp] theorem past_closeShuffle {shid x} : KeepsPast (closeShuffle shid x) := by
  unfold closeShuffle; repeat' first | with_reducible refine .bind ?_ fun _ => ?_ | simp

@[simp] theorem past_shufTurn {g c} : KeepsPast (shufTurn g c) := by
  unfold shufTurn; repeat' first | with_reducible refine .bind ?_ fun _ => ?_ | split | simp

@[simp] theorem past_shufBody {g c} : KeepsPast (shufBody g c) := by
  refine past_runs fun k s h => ?_
  unfold shufBody
  cases hs : shufTurn g c s with
  | ok a t => exact past_shufTurn.ok h hs
  | error e t => have := past_shufTurn.stop h hs; cases e <;> simpa using this

@[simp] theorem past_threadMapped {t va n} : KeepsPast (threadMapped t va n) := by
  unfold threadMapped; repeat' first | with_reducible refine .bind ?_ fun _ => ?_ | split | simp

@[simp] theorem past_shufOperands {t _va b} : KeepsPast (shufOperands t _va b) := by
  unfold shufOperands; repeat' first | with_reducible refine .bind ?_ fun _ => ?_ | split | simp

@[simp] theorem past_finishShuf {x status} : KeepsPast (finishShuf x status) := by simp [finishShuf]

@[simp] theorem past_onPacket {ok p act s} (ha : ∀ g c n x, KeepsPast (act g c n x)) : OutKeeps s (onPacket ok p act s) := by
  unfold onPacket
  refine outKeeps_next.2 (past_ite_state (by simp) ?_)
  split
  · simp
  · refine past_ite_state (by simp) ?_
    split
    · simp
    · split
      next hs => simpa using KeepsPast.ok (ha _ _ _ _) (.refl _) hs
      next hs => exact past_runM past_finishShuf (by simpa using KeepsPast.stop (ha _ _ _ _) (.refl _) hs)
      · simp

@[simp] theorem past_execReady {pkt s} : OutKeeps s (execReady pkt s) := by
  refine past_onPacket fun _ _ _ _ => ?_
  repeat' first | with_reducible refine .bind ?_ fun _ => ?_ | split | simp

@[simp] theorem past_arriveData {pkt g c shid x} : KeepsPast (arriveData pkt g c shid x) := by
  unfold arriveData; repeat' first | with_reducible refine .bind ?_ fun _ => ?_ | simp

@[simp] theorem past_execRepe {pkt s} : OutKeeps s (execRepe pkt s) := by
  refine past_onPacket fun _ _ _ _ => ?_
  repeat' first | with_reducible refine .bind ?_ fun _ => ?_ | simp

@[simp] theorem past_execRreq {pkt s} : OutKeeps s (execRreq pkt s) := by
  refine past_onPacket fun _ _ _ _ => ?_
  repeat' first | with_reducible refine .bind ?_ fun _ => ?_ | split | simp

@[simp] theorem past_execQuit {pkt s} : OutKeeps s (execQuit pkt s) := by
  refine past_onPacket fun _ _ _ _ => ?_
  repeat' first | with_reducible refine .bind ?_ fun _ => ?_ | simp

/-! #### Links and the scrubber -/

@[simp] theorem past_linkReports {port a} : KeepsPast (linkReports port a) := by
  fun_induction linkReports port a <;> repeat' first | with_reducible refine .bind ?_ fun _ => ?_ | split | simp [*]

@[simp] theorem past_linkDown {port} : KeepsPast (linkDown port) := by
  unfold linkDown; repeat' first | with_reducible refine .bind ?_ fun _ => ?_ | simp

@[simp] theorem past_retransmit {port failures} : KeepsPast (retransmit port failures) := by
  unfold retransmit; repeat' first | with_reducible refine .bind ?_ fun _ => ?_ | split | simp

@[simp] theorem past_withdrawLane {port} : KeepsPast (withdrawLane port) := by
  unfold withdrawLane; repeat' first | with_reducible refine .bind ?_ fun _ => ?_ | split | simp

@[simp] theorem past_strayReports {port pkg a} : KeepsPast (strayReports port pkg a) := by
  fun_induction strayReports port pkg a <;> repeat' first | with_reducible refine .bind ?_ fun _ => ?_ | split | simp [*]

@[simp] theorem past_strayReplay {pkg source} : KeepsPast (strayReplay pkg source) := by
  unfold strayReplay; repeat' first | with_reducible refine .bind ?_ fun _ => ?_ | split | simp

@[simp] theorem past_remoteUpdate {pa n f} : KeepsPast (remoteUpdate pa n f) := by
  unfold remoteUpdate; repeat' first | with_reducible refine .bind ?_ fun _ => ?_ | split | simp

@[simp] theorem past_remoteAct {source r pkg} : KeepsPast (remoteAct source r pkg) := by
  unfold remoteAct; repeat' first | with_reducible refine .bind ?_ fun _ => ?_ | split | simp

@[simp] theorem past_replay {source sequence r} : KeepsPast (replay source sequence r) := by
  unfold replay; repeat' first | with_reducible refine .bind ?_ fun _ => ?_ | split | simp

@[simp] theorem past_touchedContexts {s pkg a} : KeepsPast (touchedContexts s pkg a) := by
  fun_induction touchedContexts s pkg a <;> repeat' first | with_reducible refine .bind ?_ fun _ => ?_ | split | simp [*]

@[simp] theorem past_loseShuffles {a} : KeepsPast (loseShuffles a) := by
  fun_induction loseShuffles a <;> repeat' first | with_reducible refine .bind ?_ fun _ => ?_ | simp [*]

@[simp] theorem past_loseGangs {l} : KeepsPast (loseGangs l) := by
  induction l with
  | nil => exact past_pure _
  | cons x l ih =>
    unfold loseGangs
    repeat' first | with_reducible refine .bind ?_ fun _ => ?_ | split | simp [ih]

@[simp] theorem past_reportFailed {pkg a} : KeepsPast (reportFailed pkg a) := by
  fun_induction reportFailed pkg a <;> repeat' first | with_reducible refine .bind ?_ fun _ => ?_ | simp [*]

@[simp] theorem past_packageLost {pkg} : KeepsPast (packageLost pkg) := by
  unfold packageLost; repeat' first | with_reducible refine .bind ?_ fun _ => ?_ | simp

@[simp] theorem past_upsetSector {k sector found s} (h : HistoryKept k s.mem) : HistoryKept k (upsetSector sector found s).mem := by
  simp [upsetSector, h]

@[simp] theorem past_scrub {sector found} : KeepsPast (scrub sector found) := by
  unfold scrub; repeat' first | with_reducible refine .bind ?_ fun _ => ?_ | split | simp

@[simp] theorem past_classify {u unit inst m} (hm : KeepsPast m) : KeepsPast (classify u unit inst m) := by
  cases u <;> simp [classify, hm]

@[simp] theorem past_loseEntry {c q i} : KeepsPast (loseEntry c q i) := by
  unfold loseEntry; repeat' first | with_reducible refine .bind ?_ fun _ => ?_ | split | simp

@[simp] theorem past_loseWord {c addr} : KeepsPast (loseWord c addr) := by simp [loseWord]
@[simp] theorem past_loseSave {c} : KeepsPast (loseSave c) := by simp [loseSave]

@[simp] theorem past_loseBank {cl bank} : KeepsPast (loseBank cl bank) := by
  unfold loseBank; repeat' first | with_reducible refine .bind ?_ fun _ => ?_ | split | simp

@[simp] theorem past_loseRegister {o} : KeepsPast (loseRegister o) := by
  unfold loseRegister; repeat' first | with_reducible refine .bind ?_ fun _ => ?_ | split | simp

@[simp] theorem past_loseStroke {c arr} : KeepsPast (loseStroke c arr) := by
  unfold loseStroke; repeat' first | with_reducible refine .bind ?_ fun _ => ?_ | split | simp

@[simp] theorem past_losePairing {shid i} : KeepsPast (losePairing shid i) := by
  unfold losePairing; repeat' first | with_reducible refine .bind ?_ fun _ => ?_ | split | simp

@[simp] theorem past_loseHeld {shid i} : KeepsPast (loseHeld shid i) := by
  unfold loseHeld; repeat' first | with_reducible refine .bind ?_ fun _ => ?_ | split | simp

@[simp] theorem past_corrupt {i offset value} : KeepsPast (corrupt i offset value) := by simp [corrupt]
@[simp] theorem past_sense {power temps} : KeepsPast (sense power temps) := by simp [sense]

@[simp] theorem past_loseLane {chan} : KeepsPast (loseLane chan) := by
  unfold loseLane; repeat' first | with_reducible refine .bind ?_ fun _ => ?_ | split | simp

@[simp] theorem past_meet {g} : KeepsPast (meet g) := by
  unfold meet
  repeat' first | with_reducible refine .bind ?_ fun _ => ?_ | split | with_reducible refine past_classify ?_ | simp

@[simp] theorem past_strike {k s g} (h : HistoryKept k s.mem) : HistoryKept k (strike s g).mem := by
  simp [strike, h]

/-! #### The host and bring-up -/

@[simp] theorem past_hostLoad {addr len} : KeepsPast (hostLoad addr len) := by
  unfold hostLoad; repeat' first | with_reducible refine .bind ?_ fun _ => ?_ | split | simp

@[simp] theorem past_dvsecLoad : KeepsPast (dvsecLoad) := by
  unfold dvsecLoad; repeat' first | with_reducible refine .bind ?_ fun _ => ?_ | simp

@[simp] theorem past_barByte {offset} : KeepsPast (barByte offset) := by
  unfold barByte; repeat' first | with_reducible refine .bind ?_ fun _ => ?_ | split | simp

@[simp] theorem past_barBytes {a} : KeepsPast (barBytes a) := by
  fun_induction barBytes a <;> repeat' first | with_reducible refine .bind ?_ fun _ => ?_ | simp [*]

@[simp] theorem past_barLoad {offset len} : KeepsPast (barLoad offset len) := by
  unfold barLoad; repeat' first | with_reducible refine .bind ?_ fun _ => ?_ | split | simp

@[simp] theorem past_execHostRead {addr len s} : OutKeeps s (execHostRead addr len s) := by
  unfold execHostRead; split <;> simp

@[simp] theorem past_hostStore {addr data} : KeepsPast (hostStore addr data) := by
  unfold hostStore; repeat' first | with_reducible refine .bind ?_ fun _ => ?_ | split | simp

@[simp] theorem barStore_mem {offset data s} : (barStore offset data s).mem = s.mem := by simp [barStore]

@[simp] theorem past_execHostWrite {addr data s} : OutKeeps s (execHostWrite addr data s) := by
  unfold execHostWrite; repeat' first | split | simp

@[simp] theorem past_mailbox {act s} (ha : KeepsPast act) : OutKeeps s (mailbox act s) := by
  unfold mailbox
  rw [outKeeps_next]
  split
  · simp
  · exact past_runM (ha.bind fun _ => (past_pick _ _).bind fun _ => by simp) (.refl _)

@[simp] theorem past_mailChange {f s} (hf : ∀ s, HistoryKept s.mem (f s).mem) : OutKeeps s (mailChange f s) :=
  past_mailbox (((past_upd f).2 hf).bind fun _ => past_pure _)

@[simp] theorem freeUnits_mem {units s} : (freeUnits units s).mem = s.mem := rfl
@[simp] theorem drainUnit_mem {part u s} : (drainUnit part u s).mem = s.mem := by simp [drainUnit]
@[simp] theorem assignUnits_mem {part units s} : (assignUnits part units s).mem = s.mem := by simp [assignUnits]
@[simp] theorem stageImage_mem {x s} : (stageImage x s).mem = s.mem := by simp [stageImage]

@[simp] theorem past_attest {nonce} : KeepsPast (attest nonce) := by
  unfold attest; repeat' first | with_reducible refine .bind ?_ fun _ => ?_ | split | simp

@[simp] theorem past_selfTests {a} : KeepsPast (selfTests a) := by
  fun_induction selfTests a <;> repeat' first | with_reducible refine .bind ?_ fun _ => ?_ | split | simp [*]

@[simp] theorem past_trainPorts {a} : KeepsPast (trainPorts a) := by
  fun_induction trainPorts a <;> repeat' first | with_reducible refine .bind ?_ fun _ => ?_ | simp [*]

@[simp] theorem resetReleased_mem {failedStep s} : (resetReleased failedStep s).mem = s.mem := rfl
@[simp] theorem setBoot_mem {n s} : (setBoot n s).mem = s.mem := rfl
@[simp] theorem install_mem {s} : (install s).mem = s.mem := rfl
@[simp] theorem fuseMaps_mem {s} : (fuseMaps s).mem = s.mem := rfl

/-! #### Turns -/


end Sys2Proof.Machine
end

section
namespace Sys2Proof.Machine
open State

/-! ### Every instruction, every turn, every step -/

theorem past_exec (i : Instr) (s : State) : OutKeeps s (exec i s) := by
  cases i
  case add | sub | mul | mulh | mulhn | div | divn | rem | remn | neg | abs | min | max | minn | maxn | and | or | xor
      | andn | shl | shr | sar | rotl | clz | ctz | popc | bswap | ext | mort | demort | addi | andi | ori | xori
      | shli | shri | sari | limm | mov | pand | por | pxor | pnot | nop | qpush | qpop | featq =>
    unfold exec; exact past_runScalar fun _ => by simp
  case pref | phase | madr | yield | eret | ifence =>
    unfold exec; exact past_runA fun _ => by simp
  case stop =>
    unfold exec; exact past_runS fun _ => by simp
  case vadd | vsub | vmul | vfma | vfms | vfnma | vmin | vmax | vabs | vneg | vcps | vclass | vrcpe | vrsqe | vexp2
      | vlog2 =>
    unfold exec; exact past_vArith
  case vcvt | vqnt | vdqnt | vcmp | vscan | vred | vdot | vminx | vmaxx | vbcast | vset | vtopk | vcmpv =>
    unfold exec; exact past_runV fun _ _ => by simp
  case vmand | vmor | vmnot =>
    unfold exec; exact past_maskOp
  case vand | vor | vxor | vshl | vshr | vsar | vpopc | vclz | vmov | vselv =>
    unfold exec; exact past_vBits
  case mlds | mldsp | mdrain | mdrainv | mwait =>
    unfold exec; exact past_runStroke (fun _ _ => by simp) fun _ _ => by simp
  case agdef | agrun | agput | agidx =>
    unfold exec; exact past_runAg fun _ _ _ => by simp
  case copy | copy2 | fill | strmq | drainq | shuf | launch | gath | scat | bags | isect | msort | spsrch =>
    unfold exec; exact past_runBlock (fun _ _ => by simp) fun _ _ _ => by simp
  case csig =>
    unfold exec; exact past_runCommand (fun _ _ => by simp) fun _ _ _ => by simp
  case cefence | ixfence =>
    unfold exec; exact past_fence
  case accwAdd | accwMin | accwMinn | accwMax | accwMaxn | accwAnd | accwOr | accwXor | accwXchg | accwCas
      | accwFaddF32 | accwFaddBf16 | accwFmax =>
    unfold exec; exact past_runAcc
  case elementSrc | elementSnk | elementAgen | elementAdd | elementSub | elementMul | elementMac | elementMin
      | elementMax | elementAnd | elementOr | elementXor | elementShl | elementShr | elementSar | elementCmp
      | elementSel | elementCvt | elementSteer | elementMerge | elementCarry | elementJoin | elementFork
      | elementWiden | elementRed | elementAcc | elementCnt | elementConst | elementPass | elementDelay
      | elementCommit =>
    unfold exec; exact past_fire
  case clusterExceptionDelivery | loadDataArrival | pinHandleArrival | waitcWake | unpinRelease | epochApply
      | portRequestReplay | crewDispatch | crewComplete | quantumExpiry | ageing | preemption | watchdogExpiry
      | ctxCreate | ctxTear | crewCmdResume | crewCmdEnd | crewCmdSuspend | qcfgWrite | qstatWrite | launchAccept
      | launchComplete | gangArmTimeout | pairingDeadline | flitRetransmit | laneWithdrawal | packageDeclaredFailed
      | failureNotification | scrubRead | resetRelease | thermalWarning | thermalTrip | arithmeticClockRecovery =>
    unfold exec; exact outKeeps_next.2 (by simp)
  case solo | coded | close =>
    unfold exec; exact past_onPacket fun _ _ _ _ => by simp
  case mailboxAssignUnits | mailboxAssignTenant | mailboxRegisterKey | mailboxSetCacheQuota | mailboxSetPowerLimit
      | mailboxUpdateFirmware =>
    unfold exec; exact past_mailChange fun _ => by simp
  case mailboxReadErrorCounters | mailboxAttestation =>
    unfold exec; exact past_mailbox (by simp)
  all_goals (unfold exec; simp)

/-! ### A turn and a step -/

theorem OutKeeps.after {s t : State} {r : Out} (h : OutKeeps t r) (hm : HistoryKept s.mem t.mem) : OutKeeps s r :=
  fun u hu => hm.trans (h u hu)

theorem past_tryIssue (t : Nat) (s : State) : OutKeeps s (tryIssue t s).out := by
  have hm : HistoryKept s.mem (s.setThread t { s.thread t with mode := .ready }).mem := by simp
  unfold tryIssue
  dsimp only
  split
  next i s' hs =>
    have hx := (past_exec i s').after (past_fetchAt.ok hm hs)
    split
    next hr => rwa [hr] at hx
    · exact hx
  next hs => exact outKeeps_next.2 (past_fetchAt.ok hm ‹_›)
  next hs => exact outKeeps_next.2 (past_fetchStop (past_fetchAt.stop hm hs))

theorem past_issueTurn (t : Nat) (s : State) : OutKeeps s (issueTurn t s) := by
  unfold issueTurn
  have hx := past_tryIssue t s
  split
  · exact outKeeps_next.2 (.refl _)
  · dsimp only
    split
    next u hu =>
      rw [hu, outKeeps_next] at hx
      rw [outKeeps_next]
      split <;> exact hx
    · exact hx

theorem past_dueNow {t : Nat} {s u : State} (h : dueNow t s = some u) : HistoryKept s.mem u.mem := by
  unfold dueNow at h
  split at h
  · cases h; exact past_takeLoss (.refl _)
  · obtain ⟨c, -, rfl⟩ := Option.map_eq_some_iff.1 h
    exact past_deliver (.refl _)

theorem past_stepThread (t : Nat) (s : State) : OutKeeps s (stepThread t s) := by
  unfold stepThread
  split
  next h => exact outKeeps_next.2 (past_dueNow h)
  · exact outKeeps_ite (past_issueTurn t s) (outKeeps_next.2 (.refl _))

theorem past_stepSeq (cl : Nat) (s : State) : OutKeeps s (stepSeq cl s) := by
  unfold stepSeq
  split
  · exact outKeeps_next.2 (.refl _)
  · refine outKeeps_ite ?_ (outKeeps_next.2 (.refl _))
    split
    next hs => exact (past_exec _ _).after (past_fetchAt.ok (.refl _) hs)
    next hs => exact outKeeps_next.2 (past_handBad (past_fetchAt.ok (.refl _) hs))
    next hs => exact outKeeps_next.2 (past_fetchAt.ok (.refl _) hs)
    next hs => exact outKeeps_next.2 (past_fetchStop (past_fetchAt.stop (.refl _) hs))

theorem past_stepStream (u : UnitId) (s : State) : OutKeeps s (stepStream u s) := by
  unfold stepStream
  split
  · exact outKeeps_next.2 (.refl _)
  · exact outKeeps_ite (outKeeps_next.2 (by simp [badEntry])) (past_exec _ s)

theorem past_stepEngine (u : UnitId) (s : State) : OutKeeps s (stepEngine u s) := by
  unfold stepEngine
  split
  · exact outKeeps_next.2 (.refl _)
  · exact past_exec _ s

theorem past_bringUpAction {n : Nat} (hn : n ≠ 4) : KeepsPast (bringUpAction n) := by
  unfold bringUpAction
  split <;> simp at hn ⊢

/-- Every step of bring-up but the fourth keeps memory's past; that one writes zeros over device memory (R498). -/
theorem past_bringUpStep (s : State) :
    HistoryKept s.mem (runM bringUpStep s).mem ∨ (s.boot = 4 ∧ (runM bringUpStep s).mem = (zeroMemory s).mem) := by
  have hrun : bringUpStep s = (if s.boot.toNat = 0 ∨ 7 ≤ s.boot.toNat then pure ()
      else if s.boot.toNat = s.bootFail then upd (setBoot (0x8000 + s.boot.toNat))
      else do
        bringUpAction s.boot.toNat
        upd (setBoot (if s.boot.toNat = 6 then 0xFF else s.boot.toNat + 1)) : M Unit) s := rfl
  unfold runM
  rw [hrun]
  by_cases hb : s.boot.toNat = 4
  · rw [hb, if_neg (by decide)]
    by_cases hf : 4 = s.bootFail
    · rw [if_pos hf]
      exact .inl (.refl _)
    · rw [if_neg hf]
      exact .inr ⟨BitVec.eq_of_toNat_eq hb, rfl⟩
  · refine .inl (past_runM ?_ (.refl s.mem))
    exact .ite (past_pure _) (.ite (by simp) ((past_bringUpAction hb).bind fun _ => by simp))

theorem past_stepUnit (u : UnitId) (s t : State) (h : stepUnit u s = .next t) :
    HistoryKept s.mem t.mem ∨ (s.boot = 4 ∧ t.mem = (zeroMemory s).mem) := by
  have hk {r : Out} (hr : OutKeeps s r) (h : r = .next t) := Or.inl (b := s.boot = 4 ∧ t.mem = (zeroMemory s).mem) (hr t h)
  cases u with
  | thread x => exact hk (past_stepThread x s) h
  | seq cl => exact hk (past_stepSeq cl s) h
  | vec | stroke | lgen | wgen => exact hk (past_stepStream _ s) h
  | copyEng | indexEng => exact hk (past_stepEngine _ s) h
  | package => cases h; exact past_bringUpStep s

theorem past_takeTurn (x : Turn) (s t : State) (h : takeTurn x s = .next t) :
    HistoryKept s.mem t.mem ∨ (s.boot = 4 ∧ t.mem = (zeroMemory s).mem) := by
  cases x with
  | run u => exact past_stepUnit u { s with cur := u } t h
  | event i => exact .inl (past_exec i { s with cur := .package } t h)
  | upset g => cases h; exact .inl (past_strike (.refl _))

theorem past_step (s t : State) (h : step s = .next t) : HistoryKept s.mem t.mem ∨ (s.boot = 4 ∧ t.mem = (zeroMemory s).mem) := by
  unfold step at h
  split at h
  · cases h
  · split at h
    next x rest hx => exact past_takeTurn x { s with agenda := rest } t h
    · exact past_takeTurn _ { s with draws := s.draws + 1 } t h

theorem find?_kept_none {t : Tbl Byte} {a : Nat} (h : a < hostBase) : Tbl.find? (t.filter fun e => hostBase ≤ e.1) a = none := by
  induction t with
  | nil => rfl
  | cons e t ih =>
    by_cases he : hostBase ≤ e.1
    · rw [List.filter_cons_of_pos (by simpa using he), Tbl.find?, if_neg (by omega), ih]
    · rw [List.filter_cons_of_neg (by simpa using he), ih]

theorem lastCover_none {l : List Write} {a : Nat} (h : ∀ w ∈ l, w.cells.find? a = none) : lastCover l a = none := by
  induction l with
  | nil => rfl
  | cons w l ih =>
    rw [lastCover, ih fun x hx => h x (List.mem_cons_of_mem _ hx)]
    exact h w List.mem_cons_self

/-- Step 4 of bring-up: device memory reads as zero (R498). -/
theorem zeroMemory_reads (s : State) {a : Nat} (ha : a < hostBase) :
    (zeroMemory s).mem.port a = 0 ∧ (zeroMemory s).mem.published a = 0 := by
  have hbase : (zeroMemory s).mem.base a = 0 := by
    unfold zeroMemory Memory.base Tbl.getD
    rw [find?_kept_none ha]
    rfl
  have hlog : ∀ w ∈ (zeroMemory s).mem.log, w.cells.find? a = none := fun w hw => by
    obtain ⟨x, -, rfl⟩ := List.mem_map.1 (List.mem_of_mem_filter hw)
    exact find?_kept_none ha
  unfold Memory.port Memory.published
  rw [lastCover_none hlog, lastCover_none fun w hw => hlog w (List.mem_of_mem_filter hw), hbase]
  exact ⟨rfl, rfl⟩

end Sys2Proof.Machine
end

section
open Sys2Proof Sys2Proof.Machine

/-- Settles O59: the relation to every earlier memory is kept by each meaning, part by part, and so by each turn. -/
theorem memoryHistoryIsKept : Obligations.MemoryHistoryIsKept := by
  unfold Obligations.MemoryHistoryIsKept
  refine ⟨fun i s t h => past_exec i s t h, fun s t h => past_step s t h, fun s a ha => zeroMemory_reads s ha,
    fun s t hwf h => ?_⟩
  obtain ⟨hc, -⟩ | ⟨-, hz⟩ := past_step s t h
  · rwa [hc]
  · rw [hz]
    exact Tbl.wf_filter hwf _
end

/-! ### Stops, phases, waits and hints (O13) -/

section
namespace Sys2Proof.Machine

theorem runS_stay {s s' : State} {c : Nat} {body : Nat → M Flow} (hw : curOwner s = some (.crew c))
    (h : body c s = .ok .stay s') : runS body s = .next s' := runScalar_stay hw h

/-- A body that does nothing goes on whether its guard is open or shut. -/
theorem guarded_pure (s : State) (w : Owner) (g ng : Nat) : guarded w g ng (return .next) s = .ok .next s := by
  cases h : guardOpen s w g ng with
  | true => exact guarded_open h _
  | false => exact guarded_shut h _

theorem phase_ok {s : State} {a : Agent} {scope : Nat} (h : scope < 5 ∨ gangHolds s a = false) :
    phase a scope s = .ok () (acquire (release s a scope) a scope) := by
  have hgo : ¬(5 ≤ scope ∧ gangHolds s a = true) := by
    rintro ⟨hs, hg⟩
    obtain h | h := h
    · omega
    · simp [h] at hg
  simp [phase, m_bind, hgo]

/-- An address that is no multiple of 8 names no counter (R230). -/
theorem counterAddr_misaligned {s : State} {w : Owner} {x : Word} (h : x.toNat % 8 ≠ 0) :
    counterAddr w x.toNat s = .error (.trap { cause := 4, addr := x, info := 8 }) s := by
  unfold counterAddr
  rw [if_pos h]
  simp [m_bind]

/-- What WAITC does once its registers are read: it goes on where its counter has reached the value, and parks otherwise. -/
def waitOn (w : Owner) (scope : Nat) (x v : Word) (pa : Nat) : M Flow := do
  match ← readPort pa 8 with
  | none => throw (.lasting x.toNat)
  | some bs =>
    if v.toNat ≤ leNat bs then
      upd fun s => acquire s (agentOf w) scope
      return .next
    else
      parkWait w pa v.toNat scope x.toNat
      return .stay

theorem exec_waitc {o : RFmt} {s : State} {w : Owner} (hg : Guarded s w o.g o.ng) (hr : RegsReady s w [o.a, o.b]) :
    exec (.waitc o) s = .next (scalarStep w 1 (do
      let pa ← counterAddr w (regVal s w o.a).toNat
      waitOn w o.fn (regVal s w o.a) (regVal s w o.b) pa) s) := by
  have hbody : ∀ k : Word → Word → M Flow, guarded w o.g o.ng (do
      let x ← readReg w o.a o.ta
      let v ← readReg w o.b o.tb
      k x v) s = k (regVal s w o.a) (regVal s w o.b) s := fun k => by
    rw [guarded_open hg.2, m_bind_ok (readReg_ok (hr o.a (by simp)) _), m_bind_ok (readReg_ok (hr o.b (by simp)) _)]
  show runScalar _ s = _
  unfold runScalar
  rw [hg.1]
  exact congrArg Host.Outcome.next (scalarStep_congr (hbody _))

/-- A crew that parks rouses the other crews of its cluster (R25). -/
theorem parkWait_crew (c pa v scope va : Nat) (s : State) :
    parkWait (.crew c) pa v scope va s = .ok () (
      let u : State := { s with nextId := s.nextId + 1 }
      rouse (u.setCrew c { u.crew c with smode := .waitc pa v scope va s.nextId, reported := false }) (s.crew c).cl) := by
  have hcl (u : State) (v : Crew) : ((u.setCrew c v).crew c).cl = v.cl := by rw [State.crew_setCrew]
  exact congrArg (fun n => EStateM.Result.ok () (rouse _ n)) (hcl _ _)

theorem waitOn_reached {w : Owner} {scope pa : Nat} {x v : Word} {s s' : State} {bs : List Byte}
    (h : readPort pa 8 s = .ok (some bs) s') (hv : v.toNat ≤ leNat bs) :
    waitOn w scope x v pa s = .ok .next (acquire s' (agentOf w) scope) := by
  unfold waitOn
  rw [m_bind_ok h]
  dsimp only
  rw [if_pos hv]
  rfl

theorem waitOn_parks {w : Owner} {scope pa : Nat} {x v : Word} {s s' u : State} {bs : List Byte}
    (h : readPort pa 8 s = .ok (some bs) s') (hv : leNat bs < v.toNat)
    (hp : parkWait w pa v.toNat scope x.toNat s' = .ok () u) : waitOn w scope x v pa s = .ok .stay u := by
  unfold waitOn
  rw [m_bind_ok h]
  dsimp only
  rw [if_neg (by omega), m_bind_ok hp]
  rfl

end Sys2Proof.Machine
end

section
open Sys2Proof Sys2Proof.Machine

/-- Settles O13: each body runs to its end, WAITC's by whether its counter has reached the value. -/
theorem stopsWaitsAndHints : Obligations.StopsWaitsAndHints := by
  unfold Obligations.StopsWaitsAndHints
  refine ⟨⟨?stop, ?phase, ?waitc⟩, ?nop, ?yield, ?pref⟩
  case stop =>
    intro o s c _ hg
    exact runS_stay hg.1 (guarded_open hg.2 _)
  case phase =>
    intro o s t _ hg hgang
    refine runA_next hg.1 ((guarded_open hg.2 _).trans ?_)
    rw [m_bind_ok (phase_ok hgang)]
    rfl
  case waitc =>
    intro o s s1 s2 w pa bs _ hg hr
    rw [exec_waitc hg hr]
    refine ⟨fun hx => ?_, fun hpa hbs => ⟨fun hv => ?_, fun hv t ht => ?_, fun hv c hc => ?_⟩⟩
    · exact congrArg _ (scalarStep_trap (m_bind_err (counterAddr_misaligned hx)))
    · exact congrArg _ (scalarStep_next ((m_bind_ok hpa).trans (waitOn_reached hbs hv)))
    · subst ht
      exact congrArg _ (scalarStep_stay ((m_bind_ok hpa).trans (waitOn_parks hbs hv rfl)))
    · subst hc
      exact congrArg _ (scalarStep_stay ((m_bind_ok hpa).trans (waitOn_parks hbs hv (parkWait_crew ..))))
  case nop =>
    intro o s w _ hw
    exact runScalar_next hw (guarded_pure s w _ _)
  case yield =>
    intro o s t _ hw
    exact runA_next hw (guarded_pure s (.thread t) _ _)
  case pref =>
    intro o s t _ hw hr
    exact runA_next hw (m_bind_ok (readReg_ok (hr o.a (by simp)) _))
end

/-! ### Stores (O18) -/

section
namespace Sys2Proof.Machine

/-! #### Translation leaves what agents see (R451-R454) -/

/-- A meaning that changes no view. -/
def KeepsViews {α : Type} (m : M α) : Prop := ∀ v, Stays (fun s => s.views = v) m

section
variable {α β : Type}

theorem KeepsViews.bind {m : M α} {f : α → M β} (hm : KeepsViews m) (hf : ∀ a, KeepsViews (f a)) : KeepsViews (m >>= f) :=
  fun v => (hm v).bind fun a => hf a v

theorem KeepsViews.ok {m : M α} (hm : KeepsViews m) {s t : State} {a : α} (h : m s = .ok a t) : t.views = s.views :=
  (hm s.views).ok rfl h

@[simp] theorem views_pure (a : α) : KeepsViews (pure a : M α) := fun _ => .pure a
@[simp] theorem views_get : KeepsViews (get : M State) := fun _ => .get
@[simp] theorem views_trap (c : Nat) (x y : Word) : KeepsViews (trap c x y : M α) := fun _ => .throw _
@[simp] theorem views_throw (e : Stop) : KeepsViews (throw e : M α) := fun _ => .throw e

@[simp] theorem views_map {m : M α} (f : α → β) (hm : KeepsViews m) : KeepsViews (f <$> m) := by
  rw [map_eq_pure_bind]
  exact hm.bind fun _ => views_pure _

theorem views_upd {f : State → State} (h : ∀ s, (f s).views = s.views) : KeepsViews (upd f) :=
  fun _ => .upd fun s hs => (h s).trans hs

end

@[simp] theorem views_pick (lo hi : Nat) : KeepsViews (pick lo hi) := fun _ => stays_pick (fun _ _ h => h) lo hi

@[simp] theorem views_memoryUnit (mem : Option Nat) : KeepsViews (memoryUnit mem) := by
  unfold memoryUnit
  repeat' first | with_reducible refine .bind ?_ fun _ => ?_ | split | simp

@[simp] theorem views_countSector (cls sec : Nat) : KeepsViews (countSector cls sec) :=
  (views_memoryUnit _).bind fun _ => views_upd fun _ => rfl

@[simp] theorem views_checkSector (sec : Nat) : KeepsViews (checkSector sec) := by
  unfold checkSector
  repeat' first
    | with_reducible refine .bind ?_ fun _ => ?_ | split | with_reducible exact views_upd fun _ => rfl | simp

@[simp] theorem views_checkCounted (l : List Nat) : KeepsViews (checkCounted l) := by
  induction l with
  | nil => exact views_pure _
  | cons k l ih =>
    unfold checkCounted
    repeat' first | with_reducible refine .bind ?_ fun _ => ?_ | split | simp [ih]

@[simp] theorem views_readPublished (pa n : Nat) : KeepsViews (readPublished pa n) := by
  unfold readPublished
  repeat' first | with_reducible refine .bind ?_ fun _ => ?_ | split | simp

@[simp] theorem views_walkFrom (va t depth : Nat) (l : List (Nat × Nat × Nat)) : KeepsViews (walkFrom va t depth l) := by
  induction l generalizing t depth with
  | nil => exact views_pure _
  | cons x l ih =>
    unfold walkFrom
    repeat' first | with_reducible refine .bind ?_ fun _ => ?_ | split | simp [ih]

@[simp] theorem views_walk (ctx level va : Nat) (write fetch : Bool) : KeepsViews (walk ctx level va write fetch) := by
  unfold walk
  repeat' first | with_reducible refine .bind ?_ fun _ => ?_ | split | simp

theorem fillTlb_views (s : State) (core : Nat) (e : TlbEntry) : (fillTlb s core e).views = s.views := by
  unfold fillTlb
  dsimp only
  split <;> rfl

@[simp] theorem views_translate (t level va : Nat) (write fetch : Bool) : KeepsViews (translate t level va write fetch) := by
  unfold translate
  repeat' first
    | with_reducible refine .bind ?_ fun _ => ?_ | split | with_reducible exact views_upd fun s => fillTlb_views s _ _ | simp

theorem views_dataAddr (t : Nat) (ea : Word) (sz : Nat) (write : Bool) : KeepsViews (dataAddr t ea sz write) := by
  unfold dataAddr
  repeat' first | with_reducible refine .bind ?_ fun _ => ?_ | split | simp

/-- Views, the initial contents and the order standing, every agent sees what it saw. -/
theorem byteSeen_of_views {s t : State} (hv : t.views = s.views) (hc : t.mem.cells = s.mem.cells)
    (hl : t.mem.log = s.mem.log) (b : Agent) (a : Nat) : byteSeen t b a = byteSeen s b a := by
  unfold byteSeen byteUnder State.view Memory.base
  rw [hv, hc, hl]

/-! #### A store of bytes (R110, R113) -/

theorem find?_cells_outside (pa n : Nat) (bs : List Byte) (y : Nat) (h : y < pa + n ∨ pa + n + bs.length ≤ y) :
    Tbl.find? ((bs.zipIdx n).map fun (b, i) => (pa + i, b)) y = none := by
  induction bs generalizing n with
  | nil => rfl
  | cons b bs ih =>
    rw [List.length_cons] at h
    rw [List.zipIdx_cons, List.map_cons, Tbl.find?, if_neg (by omega)]
    exact ih (n + 1) (by omega)

theorem find?_cellsAt_outside (pa : Nat) (bs : List Byte) (y : Nat) (h : y < pa ∨ pa + bs.length ≤ y) :
    (cellsAt pa bs).find? y = none := find?_cells_outside pa 0 bs y h

theorem lastCover_append_none {l : List Write} {w : Write} {pa : Nat} (h : w.cells.find? pa = none) :
    lastCover (l ++ [w]) pa = lastCover l pa := by
  induction l with
  | nil => exact h
  | cons x l ih => rw [List.cons_append, lastCover, lastCover, ih]

/-- A store to one line: the agent reads its bytes there, and all else is as it was. -/
theorem stores_writeLine (s : State) (t pa : Nat) (bs : List Byte) : Stores s (writeLine s (.thread t) pa bs) t pa bs := by
  have hmem : (writeLine s (.thread t) pa bs).mem = clearPoison s.mem pa bs.length := rfl
  have hview : (writeLine s (.thread t) pa bs).view (.thread t) = { s.view (.thread t) with
      pend := (s.view (.thread t)).pend ++ [{ id := s.nextId, agent := .thread t, cells := cellsAt pa bs, pubs := [] }]
      fresh := insertAll (s.view (.thread t)).fresh (cellsAt pa bs) } := State.view_setView ..
  refine ⟨fun i hi => ?_, fun a ha => ?_, fun b a hb => ?_, fun a => ?_⟩
  · unfold byteSeen byteUnder
    rw [hview]
    dsimp only
    rw [find?_insertAll_cellsAt, if_pos (by omega), Nat.add_sub_cancel_left, List.getElem?_eq_getElem hi]
    exact (List.getD_eq_getElem bs 0 hi).symm
  · unfold byteSeen byteUnder Memory.base
    rw [hview, hmem, clearPoison_log, clearPoison_cells]
    dsimp only
    rw [find?_insertAll_cellsAt, if_neg (by omega), List.filter_append]
    have hnone := find?_cellsAt_outside pa bs a ha
    have hlast (l : List Write) (p : Write → Bool) (w : Write) (hw : w.cells = cellsAt pa bs) :
        lastCover (l ++ [w].filter p) a = lastCover l a := by
      cases hp : p w with
      | true => rw [List.filter_cons_of_pos hp]; exact lastCover_append_none (hw ▸ hnone)
      | false => rw [List.filter_cons_of_neg (by simp [hp])]; simp
    rw [hlast _ _ _ rfl]
  · have hother : (writeLine s (.thread t) pa bs).view b = s.view b := State.view_setView_other _ _ hb
    unfold byteSeen byteUnder Memory.base
    rw [hother, hmem, clearPoison_log, clearPoison_cells]
  · unfold Memory.port Memory.published Memory.base
    rw [hmem, clearPoison_log, clearPoison_cells]
    exact ⟨rfl, rfl⟩

theorem Stores.refl (s : State) (t pa : Nat) : Stores s s t pa [] :=
  ⟨fun _ h => absurd h (Nat.not_lt_zero _), fun _ _ => rfl, fun _ _ _ => rfl, fun _ => ⟨rfl, rfl⟩⟩

/-- A store of some bytes and then one of those after them are one store. -/
theorem Stores.append {s u v : State} {t pa : Nat} {bs cs : List Byte} (h : Stores s u t pa bs)
    (h' : Stores u v t (pa + bs.length) cs) : Stores s v t pa (bs ++ cs) := by
  obtain ⟨hin, hout, hother, hport⟩ := h
  obtain ⟨hin', hout', hother', hport'⟩ := h'
  refine ⟨fun i hi => ?_, fun a ha => ?_, fun b a hb => (hother' b a hb).trans (hother b a hb), fun a => ?_⟩
  · rw [List.length_append] at hi
    by_cases hlt : i < bs.length
    · rw [hout' _ (by omega), hin i hlt, List.getD_append _ _ _ _ hlt]
    · have := hin' (i - bs.length) (by omega)
      rwa [show pa + bs.length + (i - bs.length) = pa + i by omega, ← List.getD_append_right _ _ _ _ (by omega)] at this
  · rw [List.length_append] at ha
    rw [hout' a (by omega), hout a (by omega)]
  · exact ⟨(hport' a).1.trans (hport a).1, (hport' a).2.trans (hport a).2⟩

/-- The state a store of physical bytes leaves, its parts written line by line. -/
def storeLines (s : State) (a : Agent) (l : List (Nat × List Byte)) : State :=
  l.foldl (fun s e => writeLine s a e.1 e.2) s

/-- The parts of a store by line are stored as the whole, where the lines suffice. -/
theorem stores_splitLines (n : Nat) (s : State) (t pa : Nat) (bs : List Byte) (h : bs.length + pa % 1024 ≤ 1024 * n) :
    Stores s (storeLines s (.thread t) (splitLines n pa bs)) t pa bs := by
  induction n generalizing s pa bs with
  | zero =>
    obtain rfl : bs = [] := List.eq_nil_of_length_eq_zero (by omega)
    exact Stores.refl s t pa
  | succ n ih =>
    unfold splitLines
    cases hbs : bs.isEmpty with
    | true =>
      obtain rfl := List.isEmpty_iff.1 hbs
      exact Stores.refl s t pa
    | false =>
      have hfirst := stores_writeLine s t pa (bs.take (1024 - pa % 1024))
      have hrest := ih (writeLine s (.thread t) pa (bs.take (1024 - pa % 1024))) (pa + (1024 - pa % 1024))
        (bs.drop (1024 - pa % 1024)) (by rw [List.length_drop]; omega)
      have hall := List.take_append_drop (1024 - pa % 1024) bs
      by_cases hk : 1024 - pa % 1024 ≤ bs.length
      · have hlen : (bs.take (1024 - pa % 1024)).length = 1024 - pa % 1024 := List.length_take_of_le hk
        have happ := fun v (h : Stores _ v t _ (bs.drop (1024 - pa % 1024))) => hfirst.append h
        rw [hlen, hall] at happ
        exact happ _ hrest
      · have hnil : bs.drop (1024 - pa % 1024) = [] := List.drop_eq_nil_of_le (by omega)
        have hlines (n p : Nat) : splitLines n p ([] : List Byte) = [] := by cases n <;> rfl
        simp only [hnil, hlines, Bool.false_eq_true, if_false]
        rw [List.take_of_length_le (by omega)] at hfirst ⊢
        exact hfirst

theorem storeLines_rest (s : State) (a : Agent) (l : List (Nat × List Byte)) :
    { storeLines s a l with views := s.views, nextId := s.nextId, mem := s.mem } = s := by
  induction l generalizing s with
  | nil => rfl
  | cons e l ih =>
    have h := ih (writeLine s a e.1 e.2)
    exact (congrArg (fun x : State => { x with views := s.views, nextId := s.nextId, mem := s.mem }) h :)

/-- What a store leaves of its owner: nothing but the pointer has changed. -/
theorem stored_frame {s s1 : State} (hl : Looked s s1) (t : Nat) (parts : List (Nat × List Byte)) :
    let u := advance (storeLines s1 (.thread t) parts) (.thread t) 1
    RegsBut (.thread t) [] s u ∧ PredsBut (.thread t) [] s u ∧ u.crews = s.crews ∧ ∀ v, v ≠ t → u.thread v = s.thread v := by
  intro u
  have hrest := storeLines_rest s1 (.thread t) parts
  have hthreads : (storeLines s1 (.thread t) parts).threads = s.threads :=
    (congrArg State.threads hrest :).trans hl.threads
  have hcrews : (storeLines s1 (.thread t) parts).crews = s.crews := (congrArg State.crews hrest :).trans hl.crews
  have hthread (v : Nat) : (storeLines s1 (.thread t) parts).thread v = s.thread v := by
    unfold State.thread
    rw [hthreads]
  have hscalar : (storeLines s1 (.thread t) parts).scalar (.thread t) = s.scalar (.thread t) :=
    congrArg Thread.sc (hthread t)
  unfold RegsBut PredsBut
  rw [advance_scalar, hscalar]
  exact ⟨fun _ _ => ⟨rfl, rfl, rfl⟩, fun _ _ => rfl, hcrews,
    fun v hv => (State.thread_setThread_other _ _ hv).trans (hthread v)⟩

/-- A store whose address translates writes its bytes and completes. -/
theorem store_completes {s s1 : State} {t pa sz : Nat} {v ea : Word} (ha : dataAddr t ea sz true s = .ok pa s1) :
    ∃ u, scalarStep (.thread t) 1 (store t v ea sz) s = u ∧ Stores s u t pa (leBytes (2 ^ sz) v.toNat) ∧
      RegsBut (.thread t) [] s u ∧ PredsBut (.thread t) [] s u ∧ u.crews = s.crews ∧ ∀ x, x ≠ t → u.thread x = s.thread x := by
  have hl : Looked s s1 := looked_of_ok (fun s => looks_dataAddr s t ea sz true) ha
  have hv : s1.views = s.views := (views_dataAddr t ea sz true).ok ha
  have hseen := byteSeen_of_views hv hl.cells hl.log
  generalize hbs : leBytes (2 ^ sz) v.toNat = bs
  have hstep : store t v ea sz s =
      .ok .next (storeLines s1 (.thread t) (splitLines (bs.length / 1024 + 2) pa bs)) := by
    rw [← hbs]
    exact m_bind_ok ha
  obtain ⟨hin, hout, hother, hport⟩ := stores_splitLines (bs.length / 1024 + 2) s1 t pa bs (by omega)
  refine ⟨_, scalarStep_next hstep, ⟨hin, fun a ha => ?_, fun b a hb => ?_, fun a => ?_⟩, stored_frame hl t _⟩
  · exact (hout a ha).trans (hseen _ a)
  · exact (hother b a hb).trans (hseen b a)
  · have hmem : s1.mem.port a = s.mem.port a ∧ s1.mem.published a = s.mem.published a := by
      unfold Memory.port Memory.published Memory.base
      rw [hl.log, hl.cells]
      exact ⟨rfl, rfl⟩
    exact ⟨(hport a).1.trans hmem.1, (hport a).2.trans hmem.2⟩

end Sys2Proof.Machine
end

section
open Sys2Proof Sys2Proof.Machine

/-- Settles O18: both are one store of bytes, whose parts by line are stored one after the other. -/
theorem storesWriteTheirBytes : Obligations.StoresWriteTheirBytes := by
  unfold Obligations.StoresWriteTheirBytes
  refine ⟨fun o s s1 t pa _ hw hr ha => ?_, fun o s s1 t pa hwf hg hr ha => ?_⟩
  · obtain ⟨u, hu, hstores⟩ := store_completes (v := regVal s (.thread t) o.d) ha
    exact ⟨u, (st_eq hw hr).trans (congrArg _ hu), hstores⟩
  · obtain ⟨u, hu, hstores⟩ := store_completes (v := regVal s (.thread t) o.d) ha
    exact ⟨u, (stx_eq (fn_lt_of_stx hwf) hg hr).trans (congrArg _ hu), hstores⟩
end

/-! ### Releases, acquires and IFENCE (O20) -/

section
namespace Sys2Proof.Machine

/-! #### What a release publishes (R111, R114) -/

/-- A crew on a unit within reach at the instant is covered. -/
theorem pubBy_covers_half {s : State} {a : Agent} {scope c : Nat} {k : Crew} (hc : s.crews.find? c = some k)
    (hname : c < s.nextId) (hk : onUnit k = true)
    (hr : reach (clampScope (placeOf s a) scope) (placeOf s a) k.cl = true) : (pubBy s a scope).covers s (.half c) = true := by
  unfold Pub.covers pubBy
  by_cases hsc : 4 ≤ clampScope (placeOf s a) scope
  · simp [hsc]
  · have hmem : c ∈ (s.crews.filter fun e => onUnit e.2 && reach (clampScope (placeOf s a) scope) (placeOf s a) e.2.cl).map
        (·.1) := List.mem_map.2 ⟨(c, k), List.mem_filter.2 ⟨Tbl.mem_of_find? hc, by simp [hk, hr]⟩, rfl⟩
    simp only [agentCrew, birth, hsc, if_false, hname, if_true, List.contains_iff_mem.2 hmem, Bool.or_true]

theorem clampScope_wide (cl : Nat) {scope : Nat} (h : 4 ≤ scope) : 4 ≤ clampScope cl scope := by
  unfold clampScope
  split <;> omega

theorem pubBy_covers_wide (s : State) (a b : Agent) {scope : Nat} (h : 4 ≤ scope) :
    (pubBy s a scope).covers s b = true := by
  have hsc := clampScope_wide (placeOf s a) h
  simp [Pub.covers, pubBy, hsc]

/-- A release that no gang holds makes its publication at its own scope. -/
theorem release_log {s : State} {a : Agent} {scope : Nat} (h : scope < 5 ∨ gangHolds s a = false) :
    (release s a scope).mem.log =
      (s.mem.log ++ (s.view a).pend.filter fun w =>
        (releaseIds (s.view a)).contains w.id && !(s.mem.log.map (·.id)).contains w.id).map
          (addPub (releaseIds (s.view a)) (pubBy s a scope)) := by
  have hgo : ¬(decide (5 ≤ scope) && gangHolds s a) = true := by
    obtain h | h := h
    · simp [h]
    · simp [h]
  unfold release releaseNames
  rw [if_neg hgo]
  unfold publishIds publishAs
  dsimp only
  rw [if_pos rfl, if_pos rfl, List.append_nil]

/-- A release publishes each write it names that stands in the order or in the agent's view. -/
theorem release_publishes {s : State} {a : Agent} {scope : Nat} (h : scope < 5 ∨ gangHolds s a = false) {w : Write}
    (hid : w.id ∈ releaseIds (s.view a)) (hw : w ∈ s.mem.log ∨ (w ∈ (s.view a).pend ∧ ∀ x ∈ s.mem.log, x.id ≠ w.id)) :
    ∃ x ∈ (release s a scope).mem.log, x.id = w.id ∧ x.cells = w.cells ∧ pubBy s a scope ∈ x.pubs := by
  rw [release_log h]
  refine ⟨_, List.mem_map_of_mem (a := w) ?_, addPub_id .., addPub_cells .., addPub_named _ hid⟩
  obtain hlog | ⟨hpend, hnew⟩ := hw
  · exact List.mem_append_left _ hlog
  · refine List.mem_append_right _ (List.mem_filter.2 ⟨hpend, ?_⟩)
    simp only [List.contains_iff_mem.2 hid, Bool.true_and, Bool.not_eq_true', List.contains_eq_mem, decide_eq_false_iff_not,
      List.mem_map]
    rintro ⟨x, hx, hxw⟩
    exact hnew x hx hxw

/-! #### What an acquire gains (R112, R115) -/

theorem mem_unionNames {a b : List Nat} {n : Nat} (h : n ∈ a ∨ n ∈ b) : n ∈ unionNames a b := by
  unfold unionNames
  induction b generalizing a with
  | nil => exact h.resolve_right List.not_mem_nil
  | cons x b ih =>
    have hkeep {m : Nat} (hm : m ∈ a ∨ m = x) : m ∈ addName a x := by
      unfold addName
      split
      next hx => exact hm.elim id fun hm => hm ▸ List.contains_iff_mem.1 hx
      next => exact List.mem_append.2 (hm.imp_right List.mem_singleton.2)
    obtain h | h := h
    · exact ih (.inl (hkeep (.inl h)))
    · obtain rfl | h := List.mem_cons.1 h
      · exact ih (.inl (hkeep (.inr rfl)))
      · exact ih (.inr h)

theorem acquire_gains {s : State} {a : Agent} {scope : Nat} {w : Write} {p : Pub} (hw : w ∈ s.mem.log) (hp : p ∈ w.pubs)
    (hc : p.covers s a = true) (hr : reach (clampScope (placeOf s a) scope) (placeOf s a) (p.place s) = true) :
    w.id ∈ ((acquire s a scope).view a).gained ∧ ((acquire s a scope).view a).snap = [] ∧
      ((acquire s a scope).view a).fresh = [] := by
  have hin : w.id ∈ acquireIds s a scope := by
    refine List.mem_map.2 ⟨w, List.mem_filter.2 ⟨hw, List.any_eq_true.2 ⟨p, hp, ?_⟩⟩, rfl⟩
    rw [hc, hr]
    rfl
  unfold acquire gainIds
  rw [State.view_setView]
  exact ⟨mem_unionNames (.inr hin), rfl, rfl⟩

theorem mem_take_afterLast {α : Type} {p : α → Bool} {l : List α} {w : α} (hw : w ∈ l) (hp : p w = true) :
    w ∈ l.take (afterLast p l) := by
  induction l with
  | nil => cases hw
  | cons x l ih =>
    rw [afterLast]
    obtain rfl | hw := List.mem_cons.1 hw
    · rw [hp]
      split
      · exact List.mem_cons_self
      · exact List.mem_cons_self
    · have hlt := ih hw
      have hn : afterLast p l ≠ 0 := fun h0 => by
        rw [h0] at hlt
        cases hlt
      rw [if_neg hn]
      exact List.mem_cons_of_mem _ hlt

/-- What is chosen of a visible order holds what the agent gained, unless an earlier snapshot decides against it. -/
theorem choosePrefix_gained {v : View} {dec : Write → Option Bool} {vis : List Write} {w : Write} {s u : State}
    {ids : List Nat} (hw : w ∈ vis) (hg : w.id ∈ v.gained) (hd : dec w ≠ some false)
    (h : choosePrefix v dec vis s = .ok ids u) : w.id ∈ ids := by
  unfold choosePrefix at h
  rw [m_bind] at h
  split at h
  · cases h
    refine List.mem_map.2 ⟨w, List.mem_append_left _ (List.mem_filter.2 ⟨mem_take_afterLast hw ?_, by simpa using hd⟩), rfl⟩
    simp [hg]
  · cases h

/-- A line read for the first time after an acquire shows each write gained (R112, R125). -/
theorem chooseSnap_gained {s u : State} {a : Agent} {w : Write} {line : Nat} (hw : w ∈ s.mem.log)
    (hg : w.id ∈ (s.view a).gained) (ht : touches w line = true) (hnone : (s.view a).snap.find? line = none)
    (hdec : ∀ e ∈ (s.view a).snap, touches w e.1 = true → w.id ∈ e.2) (hissued : issuedAfter (s.view a) a w = false)
    (h : chooseSnap a line s = .ok () u) : w.id ∈ (u.view a).snap.getD line [] := by
  have hvis : w ∈ visible s a line := by
    refine List.mem_filter.2 ⟨hw, ?_⟩
    simp [publishedTo, ht, hg, hissued]
  have hd : decided (s.view a) a line w ≠ some false := by
    have hfind : (List.find? (fun e => e.1 != line && touches w e.1) (s.view a).snap).map (fun e => e.2.contains w.id) ≠
        some false := fun hc => by
      obtain ⟨e, he, hf⟩ := Option.map_eq_some_iff.1 hc
      have htouch := List.find?_some he
      rw [Bool.and_eq_true] at htouch
      rw [List.contains_iff_mem.2 (hdec e (List.mem_of_find?_eq_some he) htouch.2)] at hf
      cases hf
    unfold decided
    split
    · exact nofun
    · exact hfind
  unfold chooseSnap at h
  rw [m_bind_ok (m_get s)] at h
  dsimp only at h
  rw [hnone] at h
  dsimp only at h
  rw [m_bind] at h
  split at h
  next ids s' hp =>
    cases h
    rw [State.view_setView, Tbl.getD_insert_same]
    exact choosePrefix_gained hvis hg hd hp
  next => cases h

/-! #### IFENCE (R164, R211) -/

/-- The guard of an instruction that has none holds. -/
theorem guardOpen_none (s : State) (w : Owner) : guardOpen s w 0 0 = true := rfl

theorem ifence_unguarded {o : RFmt} (h : (Instr.ifence o).wf = true) : o.g = 0 ∧ o.ng = 0 := by
  simp only [Instr.wf, RFmt.ranged, Bool.and_eq_true, Bool.or_eq_true, beq_iff_eq, bne_iff_ne] at h
  obtain ⟨⟨⟨⟨-, hng⟩, -⟩, -⟩, hg⟩ := h
  exact ⟨hg, hng.resolve_left fun h => h hg⟩

end Sys2Proof.Machine
end

section
open Sys2Proof Sys2Proof.Machine

/-- Settles O20: releases by the order they leave, acquires by the names they gain, snapshots by what is chosen of the order. -/
theorem fencesAndReleases : Obligations.FencesAndReleases := by
  unfold Obligations.FencesAndReleases
  refine ⟨⟨?half, ?wide, ?pend, ?named, ?acquire, ?snap⟩, ?ifence⟩
  case half => exact fun s a scope c k hc hn hk hr => pubBy_covers_half hc hn hk hr
  case wide => exact fun s a b scope h => pubBy_covers_wide s a b h
  case pend =>
    intro s a scope w h hw hnew
    have hid : w.id ∈ releaseIds (s.view a) :=
      List.mem_append_left _ (List.mem_append_left _ (List.mem_map_of_mem hw))
    exact release_publishes h hid (.inr ⟨hw, hnew⟩)
  case named =>
    intro s a scope w h hw hid
    refine release_publishes h ?_ (.inl hw)
    unfold releaseIds
    rw [List.append_assoc]
    exact List.mem_append_right _ hid
  case acquire => exact fun s a scope w p hw hp hc hr => acquire_gains hw hp hc hr
  case snap =>
    intro s u a w pa hw hg hcell hnone hdec hissued h
    refine chooseSnap_gained hw hg ?_ hnone hdec hissued h
    obtain ⟨b, hb⟩ := Option.isSome_iff_exists.1 hcell
    exact List.any_eq_true.2 ⟨(pa, b), Tbl.mem_of_find? hb, by simp⟩
  case ifence =>
    intro o s t hwf hw
    obtain ⟨hg, hng⟩ := ifence_unguarded hwf
    refine runA_next hw ((guarded_open ?_ _).trans rfl)
    rw [hg, hng]
    exact guardOpen_none s _
end

/-! ### Completion, epochs and replays (O48) -/

section
namespace Sys2Proof.Machine

/-! #### Completion (R302, R303) -/

theorem tryStep_ok {c : Cmd} {m : M Unit} {s s' : State} (h : m s = .ok () s') : tryStep c m s = .ok () s' := by
  unfold tryStep
  rw [h]

section
variable {g : Eng} {c : Cmd} {status : Nat} {s s1 s2 s3 : State}

theorem reply_record (hr : c.reply ≠ 0)
    (hw : cmdWrite g c c.reply (leBytes 2 status ++ leBytes 2 (c.flags % 1024) ++ leBytes 4 c.events ++ leBytes 8 c.count) s =
      .ok () s1) (hf : fillFetch c 0 s1 = .ok () s2) : reply g c status s = .ok () s2 := by
  unfold reply
  rw [if_pos hr]
  exact (m_bind_ok (tryStep_ok hw)).trans hf

theorem reply_quiet (hr : c.reply = 0) (hq : status = 1 ∨ status = 14) (hs : stickyFlags g c s = .ok () s1)
    (hf : fillFetch c 0 s1 = .ok () s2) : reply g c status s = .ok () s2 := by
  have hgood : ¬(status ≠ 1 ∧ status ≠ 14) := fun h => hq.elim h.1 h.2
  unfold reply
  rw [if_neg (not_not.2 hr)]
  refine (m_bind_ok hs).trans ?_
  rw [if_neg hgood]
  exact hf

theorem reply_fault {k : Nat} (hr : c.reply = 0) (h1 : status ≠ 1) (h14 : status ≠ 14) (hs : stickyFlags g c s = .ok () s1)
    (hk : c.crew = some k) (he : event c.ctx 1 status (handleOf (s1.crew k)) c.av.toNat status s1 = .ok () s2)
    (hf : fillFetch c 0 s2 = .ok () s3) : reply g c status s = .ok () s3 := by
  have hh : c.handle s1 = handleOf (s1.crew k) := by
    unfold Cmd.handle
    rw [hk]
  rw [← hh] at he
  have hfault : commandFault c c.av.toNat status s1 = .ok () s2 := (m_bind_ok (m_get s1)).trans he
  unfold reply
  rw [if_neg (not_not.2 hr)]
  refine (m_bind_ok hs).trans ?_
  rw [if_pos ⟨h1, h14⟩]
  exact (m_bind_ok hfault).trans hf

/-- Once its reply is made, a command's completion is what follows a reply. -/
theorem complete_after (hr : c.replied = false) (h : reply g c status s = .ok () s1) :
    complete g c status s = afterReply g c status s1 := by
  unfold complete
  rw [hr]
  exact m_bind_ok h

theorem complete_replied (hr : c.replied = true) : complete g c status s = afterReply g c status s := by
  unfold complete
  rw [hr]
  rfl

theorem stickyFlags_crew {k : Nat} (hk : c.crew = some k) (h : stickyFlags g c s = .ok () s1) :
    s1.crew k = if g.copy then { s.crew k with ceFlags := (s.crew k).ceFlags ||| BitVec.ofNat 32 (c.flags % 1024) }
      else { s.crew k with ixFlags := (s.crew k).ixFlags ||| BitVec.ofNat 32 (c.flags % 1024) } := by
  cases h
  dsimp only
  rw [hk]
  exact State.crew_setCrew ..

theorem fillFetch_waiting {r : Nat} {v : Word} (hr : c.fetch = some r)
    (hp : (s.scalar c.issuer).pend.find? r = some (.cmd c.id)) (ha : ownerAway s c.issuer = false) :
    fillFetch c v s = .ok () (s.setScalar c.issuer ((s.scalar c.issuer).write r v)) := by
  unfold fillFetch
  simp only [m_upd, hr, hp, ha, if_true, Bool.false_eq_true, if_false]

end

/-! #### The command leaves (R302) -/

/-- A release of some writes changes memory, its agent's view, and of launches what they hold. -/
theorem releaseNames_rest (s : State) (a : Agent) (scope : Nat) (ids : List Nat) :
    { releaseNames s a scope ids with mem := s.mem, views := s.views, launches := s.launches } = s := by
  have hpub (n : Nat) (ids : List Nat) : { publishIds s a n ids with mem := s.mem, views := s.views, launches := s.launches } = s := by
    unfold publishIds publishAs
    dsimp only
    rw [if_pos rfl]
    rfl
  unfold releaseNames
  split
  · dsimp only
    split
    · exact hpub ..
    · exact hpub ..
  · exact hpub ..

theorem release_rest (s : State) (a : Agent) (scope : Nat) :
    { release s a scope with mem := s.mem, views := s.views, launches := s.launches } = s := releaseNames_rest ..

/-- A command of no counter, or a rejected block, leaves at once with its pins. -/
theorem leaves_drops {g : Eng} {c : Cmd} {status : Nat} {s : State} (h : c.cntr = 0 ∨ status = 2) :
    ∃ t, leaves g c status s = .ok () t ∧
      (t.cluster g.cl).queueOf g.copy = ((s.cluster g.cl).queueOf g.copy).filter (fun e => e.id != c.id) ∧
      t.pins = s.pins.filter fun p => !(p.owner == .cmd c.id) := by
  have hno : ¬(c.cntr ≠ 0 ∧ status ≠ 2) := fun hn => h.elim hn.1 hn.2
  have hrest := release_rest s (g.agent c) c.scope
  have hcl : (release s (g.agent c) c.scope).clusters = s.clusters := (congrArg State.clusters hrest :)
  have hpins : (release s (g.agent c) c.scope).pins = s.pins := (congrArg State.pins hrest :)
  unfold leaves
  rw [m_bind_ok (m_upd ..), if_neg hno]
  refine ⟨_, rfl, ?_, ?_⟩
  · rw [← show ((release s (g.agent c) c.scope).cluster g.cl) = s.cluster g.cl by unfold State.cluster; rw [hcl]]
    refine (congrArg (Cluster.queueOf · g.copy) (State.cluster_setCluster _ g.cl _)).trans ?_
    unfold Cluster.queueOf Cluster.setQueueOf
    cases g.copy <;> rfl
  · exact congrArg (List.filter _) hpins

/-! #### The order of application (R318) -/

theorem insertBy_eq {α : Type} (before : α → α → Bool) (x : α) (l : List α) :
    insertBy before x l = l.orderedInsert (before · · = true) x := by
  induction l with
  | nil => rfl
  | cons y l ih => rw [insertBy, List.orderedInsert, ih]

/-- Sorting by a total order that composes sorts. -/
theorem sortBy_pairwise {α : Type} {before : α → α → Bool} (htotal : ∀ a b, before a b = true ∨ before b a = true)
    (htrans : ∀ a b c, before a b = true → before b c = true → before a c = true) (l : List α) :
    (sortBy before l).Pairwise (before · · = true) := by
  have hsort : sortBy before l = l.insertionSort (before · · = true) := by
    induction l with
    | nil => rfl
    | cons x l ih => rw [List.insertionSort_cons, ← ih, ← insertBy_eq]; rfl
  have : Std.Total (α := α) (before · · = true) := ⟨htotal⟩
  have : IsTrans α (before · · = true) := ⟨htrans⟩
  rw [hsort]
  exact List.pairwise_insertionSort _ l

theorem before_iff (a b : HeldAdd) : a.before b = true ↔
    (a.pkg = b.pkg ∧ (a.cl < b.cl ∨ (a.cl = b.cl ∧ a.seq ≤ b.seq))) ∨
    (a.pkg ≠ b.pkg ∧ (a.package < b.package ∨ (a.package = b.package ∧ a.pkg = none))) := by
  unfold HeldAdd.before
  by_cases h : a.pkg = b.pkg
  · simp [h]
  · simp [h]

theorem package_congr {a b : HeldAdd} (h : a.pkg = b.pkg) : a.package = b.package := by
  unfold HeldAdd.package
  rw [h]

/-- Two writings of one package differ in that one of them names none. -/
theorem pkg_none_of_package {a b : HeldAdd} (h : a.package = b.package) (hne : a.pkg ≠ b.pkg) : a.pkg = none ∨ b.pkg = none := by
  unfold HeldAdd.package at h
  cases ha : a.pkg with
  | none => exact .inl rfl
  | some p =>
    cases hb : b.pkg with
    | none => exact .inr rfl
    | some q =>
      rw [ha, hb] at h hne
      exact absurd (congrArg some h) hne

theorem before_total (a b : HeldAdd) : a.before b = true ∨ b.before a = true := by
  rw [before_iff, before_iff]
  by_cases h : a.pkg = b.pkg
  · simp only [h, true_and, ne_eq, not_true, false_and, or_false]
    omega
  · have hs := Ne.symm h
    by_cases hp : a.package = b.package
    · have := pkg_none_of_package hp h
      have := hp.symm
      tauto
    · have := Nat.lt_or_gt_of_ne hp
      tauto

theorem before_trans (a b c : HeldAdd) (h : a.before b = true) (h' : b.before c = true) : a.before c = true := by
  rw [before_iff] at *
  have hab := package_congr (a := a) (b := b)
  have hbc := package_congr (a := b) (b := c)
  by_cases hac : a.pkg = c.pkg
  · have := package_congr hac
    grind
  · grind

/-- What is applied stands in the order of source package, source cluster, then sequence. -/
theorem sorted_held (l : List HeldAdd) : (sortBy HeldAdd.before l).Pairwise fun a b => a.package < b.package ∨
    (a.package = b.package ∧ (a.pkg = b.pkg → a.cl < b.cl ∨ (a.cl = b.cl ∧ a.seq ≤ b.seq))) := by
  refine (sortBy_pairwise before_total before_trans l).imp fun {a b} h => ?_
  obtain ⟨hp, ho⟩ | ⟨hne, hlt | ⟨heq, -⟩⟩ := (before_iff a b).1 h
  · exact .inr ⟨package_congr hp, fun _ => ho⟩
  · exact .inl hlt
  · exact .inr ⟨heq, fun hp => absurd hp hne⟩

/-! #### Epochs (R318) -/

section
variable {epid : Nat} {s : State} {e : Epoch}

/-- What EPOCH_APPLY does of an epoch at a port it draws, once every source has closed it. -/
theorem epochApply_open (he : s.epochs.find? epid = some e) (hc : e.closes < e.nsrc) : epochApply epid s = .ok () s := by
  unfold epochApply
  rw [m_bind_ok (m_get s)]
  dsimp only
  rw [he]
  exact m_if_pos hc

theorem epochApply_none (he : s.epochs.find? epid = none) : epochApply epid s = .ok () s := by
  unfold epochApply
  rw [m_bind_ok (m_get s)]
  dsimp only
  rw [he]
  rfl

/-- The ports of an epoch that have yet to apply what they hold. -/
def portsDue (e : Epoch) : List Nat := (e.ports.filter fun p => !p.2.applied).map (·.1)

theorem epochApply_done (he : s.epochs.find? epid = some e) (hc : e.nsrc ≤ e.closes) (hd : portsDue e = []) :
    epochApply epid s = .ok () (leaveEpoch epid none s) := by
  unfold portsDue at hd
  unfold epochApply
  rw [m_bind_ok (m_get s)]
  dsimp only
  rw [he]
  refine (m_if_neg (Nat.not_lt.2 hc)).trans ?_
  rw [hd]
  rfl

theorem epochApply_port {k : Nat} {s1 s2 : State} (he : s.epochs.find? epid = some e) (hc : e.nsrc ≤ e.closes)
    (hd : portsDue e ≠ []) (hk : pick 0 ((portsDue e).length - 1) s = .ok k s1)
    (ha : applyAllHeld (sortBy HeldAdd.before (e.ports.getD ((portsDue e).getD k 0) {}).held) s1 = .ok () s2) :
    epochApply epid s = .ok () (leaveEpoch epid none { s2 with
      epochs := s2.epochs.insert epid { s2.epochs.getD epid {} with
        ports := (s2.epochs.getD epid {}).ports.insert ((portsDue e).getD k 0)
          { e.ports.getD ((portsDue e).getD k 0) {} with held := [], applied := true } } }) := by
  have hne : ¬(portsDue e).isEmpty = true := fun h => hd (List.isEmpty_iff.1 h)
  unfold portsDue at *
  unfold epochApply
  rw [m_bind_ok (m_get s)]
  dsimp only
  rw [he]
  refine (m_if_neg (Nat.not_lt.2 hc)).trans ((m_if_neg hne).trans ?_)
  rw [m_bind_ok hk, m_bind_ok ha]
  rfl

end

/-! #### Replays (R313, R477) -/

section
variable {source sequence : Nat} {r : PortReq} {s s1 : State}

theorem replay_known (h : ∃ x ∈ (s.portLogs.getD (logKey r.pkg r.port source) {}).recent, x.1 = sequence) :
    replay source sequence r s = .ok () s := by
  have hany : (s.portLogs.getD (logKey r.pkg r.port source) {}).recent.any (·.1 == sequence) = true := by
    obtain ⟨x, hx, he⟩ := h
    exact List.any_eq_true.2 ⟨x, hx, beq_iff_eq.2 he⟩
  unfold replay
  rw [m_bind_ok (m_get s)]
  exact m_if_pos hany

/-- A request no port has applied is a stray, or takes effect, by its sequence number. -/
theorem replay_unknown (h : ∀ x ∈ (s.portLogs.getD (logKey r.pkg r.port source) {}).recent, x.1 ≠ sequence) :
    replay source sequence r s =
      (if sequence < (s.portLogs.getD (logKey r.pkg r.port source) {}).next then strayReplay r.pkg source
      else match r.pkg with
        | none => pure ()
        | some pkg => do
          let old ← remoteAct source r pkg
          upd fun s =>
            let p := s.portLogs.getD (logKey r.pkg r.port source) {}
            logRequest (logKey r.pkg r.port source) old
              { s with portLogs := s.portLogs.insert (logKey r.pkg r.port source) { p with next := sequence } }) s := by
  have hany : ¬(s.portLogs.getD (logKey r.pkg r.port source) {}).recent.any (·.1 == sequence) = true := fun hc => by
    obtain ⟨x, hx, he⟩ := List.any_eq_true.1 hc
    exact h x hx (beq_iff_eq.1 he)
  unfold replay
  rw [m_bind_ok (m_get s)]
  exact m_if_neg hany

theorem portRequestReplay_runs (h : source < 128) {t : State} (hr : replay source sequence r s = .ok () t) :
    exec (.portRequestReplay source sequence r) s = .next t := by
  show Host.Outcome.next (if source < 128 then runM (replay source sequence r) s else s) = _
  rw [if_pos h, runM_ok hr]

end

end Sys2Proof.Machine
end

section
open Sys2Proof Sys2Proof.Machine

/-- Settles O48: completion by what its reply does, epochs by the ports that are due, replays by the filter. -/
theorem commandsAndEpochsComplete : Obligations.CommandsAndEpochsComplete := by
  unfold Obligations.CommandsAndEpochsComplete
  refine ⟨⟨?record, ?quiet, ?fault, ?replied, ?flags, ?fill, ?leave⟩, ?none, ?epoch, ?order, ?replay⟩
  case record => exact fun g c status s s1 s2 hr h0 hw hf => complete_after hr (reply_record h0 hw hf)
  case quiet =>
    exact fun g c s s1 s2 hr h0 hs hf =>
      ⟨complete_after hr (reply_quiet h0 (.inl rfl) hs hf), complete_after hr (reply_quiet h0 (.inr rfl) hs hf)⟩
  case fault =>
    exact fun g c status k s s1 s2 s3 hr h0 h1 h14 hs hk he hf => complete_after hr (reply_fault h0 h1 h14 hs hk he hf)
  case replied => exact fun g c status s hr => complete_replied hr
  case flags =>
    intro g c k s s1 hk hs
    rw [stickyFlags_crew hk hs]
    exact ⟨fun hg => by rw [hg]; exact ⟨rfl, rfl⟩, fun hg => by rw [hg]; exact ⟨rfl, rfl⟩⟩
  case fill =>
    intro c s s1 r hr hp ha h
    rw [fillFetch_waiting hr hp ha] at h
    cases h
    rfl
  case leave =>
    intro g c status s hc hgang
    obtain ⟨t, ht, hq, hpins⟩ := leaves_drops (g := g) (s := s) hc
    have hgo : ¬(decide (5 ≤ c.scope) && gangHolds s (g.agent c)) = true := by
      obtain h | h := hgang <;> simp [h]
    refine ⟨t, ?_, hq, fun p hp => ?_, fun p hp ho => ?_⟩
    · unfold afterReply
      exact (m_bind_ok (m_get s)).trans ((m_if_neg hgo).trans ht)
    · rw [hpins] at hp
      simpa using (List.mem_filter.1 hp).2
    · rw [hpins]
      exact List.mem_filter.2 ⟨hp, by simpa using ho⟩
  case none => exact fun epid s he => congrArg _ (runM_ok (epochApply_none he))
  case epoch =>
    exact fun epid s e he => ⟨fun hc => congrArg _ (runM_ok (epochApply_open he hc)),
      fun hc hd => congrArg _ (runM_ok (epochApply_done he hc hd)),
      fun k s1 s2 hc hd hk ha => congrArg _ (runM_ok (epochApply_port he hc hd hk ha))⟩
  case order => exact fun l => ⟨sortBy_perm _ l, sorted_held l⟩
  case replay =>
    intro source sequence r s s1
    refine ⟨fun h => ?_, fun hs hx => ⟨fun hlt hstray => ?_, fun hge => ⟨fun hp => ?_, fun pkg old hp ha => ?_⟩⟩⟩
    · by_cases hs : source < 128
      · exact portRequestReplay_runs hs (replay_known (h.resolve_left (Nat.not_le.2 hs)))
      · exact congrArg Host.Outcome.next (if_neg hs)
    · exact portRequestReplay_runs hs ((replay_unknown hx).trans ((m_if_pos hlt).trans hstray))
    · refine portRequestReplay_runs hs ((replay_unknown hx).trans ((m_if_neg (Nat.not_lt.2 hge)).trans ?_))
      rw [hp]
      rfl
    · refine portRequestReplay_runs hs ((replay_unknown hx).trans ((m_if_neg (Nat.not_lt.2 hge)).trans ?_))
      simp only [hp]
      exact m_bind_ok ha
end

/-! ### The copy engine's commands (O42) -/

section
namespace Sys2Proof.Machine

/-! #### A turn at the head of an engine (R297) -/

/-- A command at the head of its engine, whose lane there does the work of a body. -/
def TakesTurn (i : Instr) (g : Eng) (s : State) (c : Cmd) (body : Eng → Cmd → M Bool) : Prop :=
  EngTurn i g s c ∧ ∃ body', exec i s = .next (cmdTurn g c body' s) ∧ body' g c s = body g c s

section
variable {i : Instr} {g : Eng} {s t : State} {c : Cmd} {body : Eng → Cmd → M Bool}

/-- An inline lane's turn is one of its body. -/
theorem takesTurn_inline {o : LaneFmt} {n : Issue} {more : MoreOperands} (h : EngTurn i g s c) (hn : n.copy = g.copy)
    (hrun : exec i s = runCommand o i n body more s) : TakesTurn i g s c body := by
  have hhead := runCommand_atHead (o := o) (n := n) (body := body) (more := more) h.unit hn h.head
  rw [h.instr] at hhead
  exact ⟨h, body, hrun.trans hhead, rfl⟩

/-- A block lane's turn past its block is one of its body. -/
theorem takesTurn_block {o : LaneFmt} {opc known : Nat} (h : BlockTurn i g s c) (hg : g.copy = true)
    (hrun : exec i s = runBlock o i true opc known body (s := s)) : TakesTurn i g s c body := by
  obtain ⟨hturn, body', hexec, heq⟩ := takesTurn_inline (n := { copy := true, block := true }) h.turn hg.symm
    (hrun.trans (runBlock_eq ..))
  exact ⟨hturn, _, hexec, heq.trans (blockBody_taken h.taken h.free)⟩

section
variable (h : TakesTurn i g s c body)
include h

theorem TakesTurn.stops {n : Nat} (hb : body g c s = .error (.status n) t) : exec i s = .next (ends g c n t) := by
  obtain ⟨hturn, body', hrun, heq⟩ := h
  rw [hrun, cmdTurn_stops hturn (heq.trans hb)]

theorem TakesTurn.completes (hb : body g c s = .ok true t) : exec i s = .next (ends g c 1 t) := by
  obtain ⟨hturn, body', hrun, heq⟩ := h
  rw [hrun, cmdTurn_completes hturn (heq.trans hb)]

theorem TakesTurn.continues (hb : body g c s = .ok false t) :
    exec i s = .next (updCmd g.cl g.copy c.id (fun e => { e with stalled := false }) t) := by
  obtain ⟨hturn, body', hrun, heq⟩ := h
  rw [hrun, cmdTurn_continues hturn (heq.trans hb)]

theorem TakesTurn.goesOn {c' : Cmd} (hid : c'.id = c.id) (hb : body g c s = (do setCmd g c'; return false : M Bool) t) :
    exec i s = .next (Machine.goesOn g c c' t) := by
  have hset : (do setCmd g c'; return false : M Bool) t = .ok false (updCmd g.cl g.copy c.id (fun _ => c') t) := by
    rw [← hid]
    rfl
  exact h.continues (hb.trans hset)

theorem TakesTurn.counts {c' : Cmd} {last : Bool} (hid : c'.id = c.id)
    (hb : body g c s = (do setCmd g c'; return last : M Bool) t) : exec i s = .next (counted g c c' last t) := by
  cases last with
  | false => exact h.goesOn hid hb
  | true =>
    have hset : (do setCmd g c'; return true : M Bool) t = .ok true (updCmd g.cl g.copy c.id (fun _ => c') t) := by
      rw [← hid]
      rfl
    exact h.completes (hb.trans hset)

end

end

/-! #### COPY, COPY2, FILL (R304-R306) -/

section
variable {g : Eng} {c : Cmd} {s s1 s2 s3 s4 : State} {src dst : BoxOp}

/-- COPY past its operands. -/
def copyTile (g : Eng) (c : Cmd) (src dst : BoxOp) : M Bool := do
  if src.d.efmt ≠ dst.d.efmt ∨ src.d.nfd ≠ dst.d.nfd then endStatus 7
  if (List.range 4).any fun i => src.box.extent i != dst.box.extent i then endStatus 5
  let (b, sc) ← cmdReadTile g c src.d (src.box.coords c.count)
  cmdWriteTile g c dst.d (dst.box.coords c.count) b sc
  setCmd g { c with count := c.count + 1 }
  return c.count + 1 = src.box.count

theorem copyBody_operands (hz : blockZero c 0x18 8) (hs : boxOp g c 0x20 false s = .ok src s1)
    (hd : boxOp g c 0x60 true s1 = .ok dst s2) : copyBody g c s = copyTile g c src dst s2 :=
  (m_bind_ok (reserved_ok (by simpa using hz))).trans ((m_bind_ok hs).trans (m_bind_ok hd))

theorem copyTile_format (h : src.d.efmt ≠ dst.d.efmt ∨ src.d.nfd ≠ dst.d.nfd) :
    copyTile g c src dst s = .error (.status 7) s := (m_if_pos h).trans rfl

theorem sameExtents_iff : ((List.range 4).any fun i => src.box.extent i != dst.box.extent i) = true ↔
    ∃ i < 4, src.box.extent i ≠ dst.box.extent i := by
  simp [List.any_eq_true]

section
variable (he : src.d.efmt = dst.d.efmt) (hn : src.d.nfd = dst.d.nfd)
include he hn

theorem copyTile_extent (h : ∃ i < 4, src.box.extent i ≠ dst.box.extent i) :
    copyTile g c src dst s = .error (.status 5) s :=
  (m_if_neg (by simp [he, hn])).trans ((m_if_pos (sameExtents_iff.2 h)).trans rfl)

theorem copyTile_moves {body : List Byte} {sc : List Nat} (h : ∀ i < 4, src.box.extent i = dst.box.extent i)
    (hr : cmdReadTile g c src.d (src.box.coords c.count) s = .ok (body, sc) s1)
    (hw : cmdWriteTile g c dst.d (dst.box.coords c.count) body sc s1 = .ok () s2) :
    copyTile g c src dst s = (do
      setCmd g { c with count := c.count + 1 }
      return decide (c.count + 1 = src.box.count) : M Bool) s2 := by
  have hext : ¬((List.range 4).any fun i => src.box.extent i != dst.box.extent i) = true := fun hany => by
    obtain ⟨i, hi, hne⟩ := sameExtents_iff.1 hany
    exact hne (h i hi)
  exact (m_if_neg (by simp [he, hn])).trans ((m_if_neg hext).trans ((m_bind_ok hr).trans (m_bind_ok hw)))

end

theorem copy2Body_done (h : blockField c 0x2C 4 ≤ c.prog.pos) : copy2Body g c s = .ok true s := m_if_neg (Nat.not_lt.2 h)

theorem copy2Body_row {row : List Byte} (h : c.prog.pos < blockField c 0x2C 4) (hlen : blockField c 0x28 4 ≠ 0)
    (hr : cmdRead g c (blockField c 0x18 8 + c.prog.pos * blockField c 0x30 8) (blockField c 0x28 4) s = .ok row s1)
    (hw : cmdWrite g c (blockField c 0x20 8 + c.prog.pos * blockField c 0x38 8) row s1 = .ok () s2) :
    copy2Body g c s = (do
      setCmd g { c with count := c.count + blockField c 0x28 4, prog := { c.prog with pos := c.prog.pos + 1 } }
      return false : M Bool) s2 :=
  (m_if_pos h).trans ((m_if_pos hlen).trans ((m_bind_ok hr).trans (m_bind_ok hw)))

/-- The checks that every FILL makes of its block. -/
structure FillOk (c : Cmd) : Prop where
  zero : blockZero c 0x21 1 ∧ blockZero c 0x24 4 ∧ blockZero c 0x38 8
  scale : blockField c 0x22 2 < 1024

/-- FILL of a line of bytes, or of a tile. -/
def fillUnit (g : Eng) (c : Cmd) : M Bool := do
  let b := c.prog.bytes
  if bodyField b 0x20 1 = 1 then
    reserved b [(0x40, 64)]
    if bodyField b 0x30 8 ≤ c.count then return true
    let a := (bodyField b 0x28 8 + c.count) % 2 ^ 64
    let n := min (bodyField b 0x30 8 - c.count) (1024 - a % 1024)
    cmdWrite g c a ((List.range n).map fun i => patternByte b (a + i))
    setCmd g { c with count := c.count + n }
    return false
  else
    let dst ← boxOp g c 0x40 true
    cmdWriteTile g c dst.d (dst.box.coords c.count) ((List.range 1024).map (patternByte b))
      (List.replicate 64 (bodyField b 0x22 2))
    let fl := flagIf (dst.d.efmt = 13 && 0x3FE ≤ bodyField b 0x22 2) Flag.rsv
    setCmd g { c with count := c.count + 1, flags := orf c.flags fl }
    return c.count + 1 = dst.box.count

theorem fillBody_checked (h : FillOk c) (hm : blockField c 0x20 1 ≤ 1) : fillBody g c s = fillUnit g c s := by
  obtain ⟨⟨h1, h2, h3⟩, hs⟩ := h
  have hgood : ¬(1024 ≤ blockField c 0x22 2 ∨ 1 < blockField c 0x20 1) := by omega
  exact (m_bind_ok (reserved_ok (by simpa using ⟨h1, h2, h3⟩))).trans ((m_if_neg hgood).trans rfl)

theorem fillUnit_line (hm : blockField c 0x20 1 = 1) (hz : blockZero c 0x40 64) :
    fillUnit g c s = (do
      if blockField c 0x30 8 ≤ c.count then return true
      let a := (blockField c 0x28 8 + c.count) % 2 ^ 64
      let n := min (blockField c 0x30 8 - c.count) (1024 - a % 1024)
      cmdWrite g c a ((List.range n).map fun i => patternByte c.prog.bytes (a + i))
      setCmd g { c with count := c.count + n }
      return false : M Bool) s :=
  (m_if_pos hm).trans (m_bind_ok (reserved_ok (by simpa using hz)))

theorem fillUnit_tile (hm : blockField c 0x20 1 = 0) (hd : boxOp g c 0x40 true s = .ok dst s1)
    (hw : cmdWriteTile g c dst.d (dst.box.coords c.count) ((List.range 1024).map (patternByte c.prog.bytes))
      (List.replicate 64 (blockField c 0x22 2)) s1 = .ok () s2) :
    fillUnit g c s = (do
      setCmd g { c with
        count := c.count + 1, flags := orf c.flags (flagIf (dst.d.efmt = 13 && 0x3FE ≤ blockField c 0x22 2) Flag.rsv) }
      return decide (c.count + 1 = dst.box.count) : M Bool) s2 :=
  (m_if_neg (show ¬blockField c 0x20 1 = 1 by omega)).trans ((m_bind_ok hd).trans (m_bind_ok hw))

end

/-! #### STRMQ and DRAINQ (R307, R308) -/

section
variable {g : Eng} {c : Cmd} {s s1 s2 s3 : State} {k : Nat}

/-- A burst queue of its crew that a copy command names, free of what refuses it. -/
structure CopyQueue (s : State) (c : Cmd) (k : Nat) (push : Bool) : Prop where
  crew : c.crew = some k
  named : blockField c 0x18 1 < 64
  width : (queueOf s k (blockField c 0x18 1)).width = 1 ∨ (queueOf s k (blockField c 0x18 1)).width = 2
  free : queueRefuses (queueOf s k (blockField c 0x18 1)) 6 (queueOf s k (blockField c 0x18 1)).width push = none

theorem CopyQueue.get {push : Bool} (h : CopyQueue s c k push) :
    cmdQueue c (blockField c 0x18 1) 6 push [1, 2] s = .ok (queueOf s k (blockField c 0x18 1)) s :=
  cmdQueue_ok h.crew (if_pos (by obtain h | h := h.width <;> rw [h] <;> rfl)) h.free

/-- Entry `pos` of the burst of the tile is pushed; the last counts the tile. -/
def strmqPush (g : Eng) (c : Cmd) (w : Nat) (src : BoxOp) (es : List QEntry) : M Bool := do
  if ← cmdPush c (blockField c 0x18 1) 6 w es c.prog.pos then
    setCmd g { c with count := c.count + 1, prog := { c.prog with pos := 0 } }
    return c.count + 1 = src.box.count
  else
    setCmd g { c with prog := { c.prog with pos := c.prog.pos + 1 } }
    return false

theorem strmqBody_burst {src : BoxOp} {body : List Byte} {sc : List Nat} (hq : CopyQueue s c k true) (hz : blockZero c 0x19 7)
    (hs : boxOp g c 0x20 false s = .ok src s1) (hr : cmdReadTile g c src.d (src.box.coords c.count) s1 = .ok (body, sc) s2) :
    strmqBody g c s = strmqPush g c (queueOf s k (blockField c 0x18 1)).width src
      (burstEntries (queueOf s k (blockField c 0x18 1)).width
        (burstBytes src.tid (src.d.efmt == 13) (src.box.coords c.count) sc body)) s2 := by
  unfold strmqBody
  refine (m_bind_ok (reserved_ok (by simpa using hz))).trans ((m_if_neg (Nat.not_le.2 hq.named)).trans ((m_bind_ok hq.get).trans
    ((m_bind_ok hs).trans ((m_bind_ok hr).trans ?_))))
  rfl

section
variable {q ep w i : Nat} {es : List QEntry} {t : State}

theorem cmdPush_ok (hc : c.crew = some k) (hi : i < es.length)
    (hp : pushQueue k q ep w (es.getD i { data := [] }) s = .ok () t) :
    cmdPush c q ep w es i s = .ok (decide (i + 1 = es.length)) t := by
  have hget : es[i]? = some (es.getD i { data := [] }) := by
    rw [List.getD_eq_getElem _ _ hi]
    exact List.getElem?_eq_getElem hi
  refine (m_bind_ok (crewOrFault_ok hc)).trans ?_
  rw [hget]
  exact m_bind_ok (asCommand_ok hp)

end

/-- DRAINQ past the queue it names. -/
def drainTile (g : Eng) (c : Cmd) (k : Nat) (v : Queue) : M Bool := do
  let b := c.prog.bytes
  if !v.whole then endStatus 9
  let dst ← boxOp g c 0x20 true
  if bodyField b 0x1C 4 ≤ c.count then return true
  match v.entries with
  | [] => throw (emptyStop (bodyField b 0x18 1) v false true)
  | e :: _ =>
    if e.p then endStatus 10
    let n := v.burst
    let d := (v.entries.take n).flatMap (·.data)
    let v' := { v with entries := v.entries.drop n, mid := false }
    if burstTid d ≠ dst.tid ∨ !dst.box.contains (burstCoords d) ∨ burstSc d ≠ (dst.d.efmt == 13) then
      setQueue k (bodyField b 0x18 1) (v'.discard n)
      endStatus 5
    setQueue k (bodyField b 0x18 1) v'
    cmdWriteTile g c dst.d (burstCoords d) (burstBody d) (burstScales d)
    setCmd g { c with count := c.count + 1 }
    return false

theorem drainqBody_queue (hq : CopyQueue s c k false) (hz : blockZero c 0x19 3) :
    drainqBody g c s = drainTile g c k (queueOf s k (blockField c 0x18 1)) s :=
  (m_bind_ok (reserved_ok (by simpa using hz))).trans ((m_if_neg (Nat.not_le.2 hq.named)).trans
    ((m_bind_ok (crewOrFault_ok hq.crew)).trans (m_bind_ok hq.get)))

section
variable {v : Queue} {dst : BoxOp}

theorem drainTile_torn (hw : v.whole = false) : drainTile g c k v s = .error (.status 9) s := by
  unfold drainTile
  rw [hw]
  rfl

variable (hw : v.whole = true) (hd : boxOp g c 0x20 true s = .ok dst s1)
include hw hd

theorem drainTile_done (h : blockField c 0x1C 4 ≤ c.count) : drainTile g c k v s = .ok true s1 :=
  (m_if_neg (by simp [hw])).trans ((m_bind_ok hd).trans (m_if_pos h))

theorem drainTile_writes {x : QEntry} {rest : List QEntry} (h : c.count < blockField c 0x1C 4) (hv : v.entries = x :: rest)
    (hx : x.p = false) (htid : burstTid ((v.entries.take v.burst).flatMap (·.data)) = dst.tid)
    (hbox : dst.box.contains (burstCoords ((v.entries.take v.burst).flatMap (·.data))) = true)
    (hsc : burstSc ((v.entries.take v.burst).flatMap (·.data)) = (dst.d.efmt == 13))
    (hwrite : cmdWriteTile g c dst.d (burstCoords ((v.entries.take v.burst).flatMap (·.data)))
      (burstBody ((v.entries.take v.burst).flatMap (·.data))) (burstScales ((v.entries.take v.burst).flatMap (·.data)))
      (withQueue s1 k (blockField c 0x18 1) { v with entries := v.entries.drop v.burst, mid := false }) = .ok () s2) :
    drainTile g c k v s = (do setCmd g { c with count := c.count + 1 }; return false : M Bool) s2 := by
  refine (m_if_neg (by simp [hw])).trans ((m_bind_ok hd).trans ((m_if_neg (Nat.not_le.2 h)).trans ?_))
  have hfits : ¬(burstTid ((v.entries.take v.burst).flatMap (·.data)) ≠ dst.tid ∨
      (!dst.box.contains (burstCoords ((v.entries.take v.burst).flatMap (·.data)))) = true ∨
      burstSc ((v.entries.take v.burst).flatMap (·.data)) ≠ (dst.d.efmt == 13)) := by
    simp [htid, hbox, hsc]
  simp only [hv] at hfits hwrite ⊢
  exact (m_if_neg (by simp [hx])).trans ((m_if_neg hfits).trans ((m_bind_ok (setQueue_run ..)).trans (m_bind_ok hwrite)))

end

end

/-! #### Updates at a port (R120, R310, R312, R313) -/

section
variable {g : Eng} {c : Cmd} {s s1 s2 s3 : State} {va pa n : Nat} {bs : List Byte} {f : Nat → Option Nat}

/-- A read-modify-write answers the old value and logs it, and writes where the operation gives a value. -/
theorem portUpdate_ok (hr : readPort pa n s = .ok (some bs) s1)
    (hw : ∀ v, f (leNat bs) = some v → writePort (g.agent c) pa (leBytes n v) s1 = .ok () s2)
    (hn : f (leNat bs) = none → s2 = s1) :
    portUpdate g c va pa n f s = .ok (leNat bs) (runM (logPort g.source pa (leNat bs)) s2) := by
  unfold portUpdate
  rw [m_bind_ok hr]
  cases hf : f (leNat bs) with
  | some v =>
    dsimp only
    rw [hf]
    exact m_bind_ok (hw v hf)
  | none =>
    dsimp only
    rw [hf, hn hf]
    rfl

theorem portAdd_adds (hr : readPort pa 8 s = .ok (some bs) s1) (h : leNat bs + n < 2 ^ 64)
    (hw : writePort (g.agent c) pa (leBytes 8 (leNat bs + n)) s1 = .ok () s2) :
    portAdd g c va pa n s = .ok true (runM (logPort g.source pa (leNat bs)) s2) := by
  have hf : (if 2 ^ 64 ≤ leNat bs + n then none else some (leNat bs + n)) = some (leNat bs + n) := if_neg (Nat.not_le.2 h)
  unfold portAdd
  rw [m_bind_ok (portUpdate_ok (s2 := s2) hr (fun v hv => ?_) fun hv => ?_)]
  · exact m_if_neg (Nat.not_le.2 h)
  · obtain rfl := Option.some.inj (hf.symm.trans hv)
    exact hw
  · cases hf.symm.trans hv

theorem portAdd_overflows (hr : readPort pa 8 s = .ok (some bs) s1) (h : 2 ^ 64 ≤ leNat bs + n)
    (he : event c.ctx 2 14 (c.handle s1) va n (runM (logPort g.source pa (leNat bs)) s1) = .ok () s2) :
    portAdd g c va pa n s = .ok false s2 := by
  have hf : (if 2 ^ 64 ≤ leNat bs + n then none else some (leNat bs + n)) = none := if_pos h
  unfold portAdd
  rw [m_bind_ok (portUpdate_ok (s2 := s1) hr (fun v hv => ?_) fun _ => rfl)]
  · exact (m_if_pos h).trans ((m_bind_ok (m_get _)).trans (m_bind_ok he))
  · cases hf.symm.trans hv

/-! #### CSIG (R116, R119, R120, R310) -/

theorem csigBody_held (hs : 5 ≤ c.scope) (hg : gangHolds s (g.agent c) = true) : csigBody g c s = .ok false s :=
  (m_bind_ok (m_get s)).trans (m_if_pos (by simp [hs, hg]))

section
variable (hgo : c.scope < 5 ∨ gangHolds s (g.agent c) = false)
include hgo

theorem not_held : ¬(decide (5 ≤ c.scope) && gangHolds s (g.agent c)) = true := by
  obtain h | h := hgo <;> simp [h]

theorem csigBody_misaligned (ha : c.av.toNat % 8 ≠ 0) : csigBody g c s = .error (.status 8) s :=
  (m_bind_ok (m_get s)).trans ((m_if_neg (not_held hgo)).trans ((m_if_pos ha).trans rfl))

section
variable (ha : c.av.toNat % 8 = 0) (hp : cmdPhys c c.av.toNat 8 true (issuerRelease g c s) = .ok pa s1)
  (hr : readPort pa 8 s1 = .ok (some bs) s2)
include ha hp hr

theorem csigBody_adds (h : leNat bs + c.bv.toNat < 2 ^ 64)
    (hw : writePort (g.agent c) pa (leBytes 8 (leNat bs + c.bv.toNat)) s2 = .ok () s3) :
    csigBody g c s = .ok true (runM (logPort g.source pa (leNat bs)) s3) :=
  (m_bind_ok (m_get s)).trans ((m_if_neg (not_held hgo)).trans ((m_if_neg (not_not.2 ha)).trans
    ((m_bind_ok (m_upd ..)).trans ((m_bind_ok hp).trans ((m_bind_ok (portAdd_adds hr h hw)).trans (m_if_pos rfl))))))

theorem csigBody_overflows (h : 2 ^ 64 ≤ leNat bs + c.bv.toNat)
    (he : event c.ctx 2 14 (c.handle s2) c.av.toNat c.bv.toNat (runM (logPort g.source pa (leNat bs)) s2) = .ok () s3) :
    csigBody g c s = .error (.status 14) s3 :=
  (m_bind_ok (m_get s)).trans ((m_if_neg (not_held hgo)).trans ((m_if_neg (not_not.2 ha)).trans
    ((m_bind_ok (m_upd ..)).trans ((m_bind_ok hp).trans ((m_bind_ok (portAdd_overflows hr h he)).trans
    (m_if_neg Bool.false_ne_true))))))

end

end

/-! #### ACCW (R312) -/

section
variable {op : Acc} {w : Nat}

theorem accBody_misaligned (ha : c.av.toNat % (w / 8) ≠ 0) : accBody op w g c s = .error (.status 8) s :=
  (m_if_pos ha).trans rfl

/-- An ACCW whose port answers: its value replaced, the old one in its register, its flags with the command. -/
theorem accBody_ok (ha : c.av.toNat % (w / 8) = 0) (hp : cmdPhys c c.av.toNat (w / 8) true s = .ok pa s1)
    (hr : readPort pa (w / 8) s1 = .ok (some bs) s2)
    (hw : ∀ v, (accNew op w (c.dv.toNat % 2 ^ w) (leNat bs) (c.bv.toNat % 2 ^ w)).1 = some v →
      writePort (g.agent c) pa (leBytes (w / 8) v) s2 = .ok () s3)
    (hn : (accNew op w (c.dv.toNat % 2 ^ w) (leNat bs) (c.bv.toNat % 2 ^ w)).1 = none → s3 = s2) :
    accBody op w g c s = .ok true (updCmd g.cl g.copy c.id
      (fun _ => { c with flags := orf c.flags (accNew op w (c.dv.toNat % 2 ^ w) (leNat bs) (c.bv.toNat % 2 ^ w)).2 })
      (runM (do
        logPort g.source pa (leNat bs)
        fillFetch c (BitVec.ofNat 64 (leNat bs))) s3)) :=
  (m_if_neg (not_not.2 ha)).trans ((m_bind_ok hp).trans ((m_bind_ok (portUpdate_ok hr hw hn)).trans rfl))

end

end

theorem accNew_minn (n expected old v : Nat) : accNew (.min false) n expected old v = (some (min old v), 0) := by
  have hmin : (if ival n false v < ival n false old then v else old) = min old v := by
    unfold ival
    simp only [Bool.false_eq_true, if_false, Nat.cast_lt]
    split <;> omega
  exact congrArg (fun x => (some x, 0)) hmin

theorem accNew_maxn (n expected old v : Nat) : accNew (.max false) n expected old v = (some (max old v), 0) := by
  have hmax : (if ival n false old < ival n false v then v else old) = max old v := by
    unfold ival
    simp only [Bool.false_eq_true, if_false, Nat.cast_lt]
    split <;> omega
  exact congrArg (fun x => (some x, 0)) hmax

/-- What an ACCW of `n o` bits does, by what its operation makes of the expected, the old and the given value. -/
def Accumulates (mk : LaneFmt → Instr) (n : LaneFmt → Nat) (f : Nat → Nat → Nat → Nat → Option Nat × Flags) : Prop :=
  ∀ (o : LaneFmt) (cl pa : Nat) (s s1 s2 s3 : State) (c : Cmd) (bs : List Byte),
    let g : Eng := { cl := cl, copy := true }
    let w := n o
    let r := f w (c.dv.toNat % 2 ^ w) (leNat bs) (c.bv.toNat % 2 ^ w)
    EngTurn (mk o) g s c →
    (c.av.toNat % (w / 8) ≠ 0 → exec (mk o) s = .next (ends g c 8 s)) ∧
    (c.av.toNat % (w / 8) = 0 → cmdPhys c c.av.toNat (w / 8) true s = .ok pa s1 →
      readPort pa (w / 8) s1 = .ok (some bs) s2 →
      (match r.1 with
        | some v => writePort (g.agent c) pa (leBytes (w / 8) v) s2 = .ok () s3
        | none => s3 = s2) →
      exec (mk o) s = .next (ends g c 1 (updCmd g.cl true c.id (fun _ => { c with flags := orf c.flags r.2 })
        (runM (do
          logPort g.source pa (leNat bs)
          fillFetch c (BitVec.ofNat 64 (leNat bs))) s3))))

theorem accumulates {mk : LaneFmt → Instr} {n : LaneFmt → Nat} {f : Nat → Nat → Nat → Nat → Option Nat × Flags} {op : Acc}
    (hrun : ∀ o s, exec (mk o) s = runAcc o (mk o) op (n o) s) (hf : ∀ o, accNew op (n o) = f (n o)) : Accumulates mk n f := by
  intro o cl pa s s1 s2 s3 c bs g w r h
  have hturn : TakesTurn (mk o) g s c (accBody op w) := takesTurn_inline h rfl (hrun o s)
  refine ⟨fun ha => hturn.stops (accBody_misaligned ha), fun ha hp hr hw => ?_⟩
  have hacc : accNew op w (c.dv.toNat % 2 ^ w) (leNat bs) (c.bv.toNat % 2 ^ w) = r := by rw [hf o]
  rw [← hacc] at hw ⊢
  refine hturn.completes (accBody_ok ha hp hr (fun v hv => ?_) fun hv => ?_)
  · rwa [hv] at hw
  · rwa [hv] at hw

end Sys2Proof.Machine
end

section
open Sys2Proof Sys2Proof.Machine

/-- Settles O42: each lane's turn is one of its body, whose steps past the operands are taken in order. -/
theorem copyEngineCommands : Obligations.CopyEngineCommands := by
  unfold Obligations.CopyEngineCommands
  refine ⟨?copy, ?copy2, ?fill, ?strmq, ?drainq, ?csig, ?accw⟩
  case copy =>
    intro o cl s s1 s2 s3 s4 c src dst body sc g h hz hs hd
    have hturn : TakesTurn (.copy o) g s c copyBody := takesTurn_block h rfl rfl
    have hbody := copyBody_operands hz hs hd
    exact ⟨fun hf => hturn.stops (hbody.trans (copyTile_format hf)),
      fun he hn hx => hturn.stops (hbody.trans (copyTile_extent he hn hx)),
      fun he hn hx hr hw => hturn.counts rfl (hbody.trans (copyTile_moves he hn hx hr hw))⟩
  case copy2 =>
    intro o cl s s1 s2 c row g f i h
    have hturn : TakesTurn (.copy2 o) g s c copy2Body := takesTurn_block h rfl rfl
    exact ⟨fun hdone => hturn.completes (copy2Body_done hdone),
      fun hlt hlen hr hw => hturn.goesOn rfl (copy2Body_row hlt hlen hr hw)⟩
  case fill =>
    intro o cl s s1 s2 c dst g f a n h h1 h2 h3 hs
    have hturn : TakesTurn (.fill o) g s c fillBody := takesTurn_block h rfl rfl
    have hbody (hm : f 0x20 1 ≤ 1) := fillBody_checked (g := g) (s := s) ⟨⟨h1, h2, h3⟩, hs⟩ hm
    refine ⟨fun hm hz hdone => ?_, fun hm hz hlt hw => ?_, fun hm hd hw => ?_⟩
    · exact hturn.completes ((hbody (Nat.le_of_eq hm)).trans ((fillUnit_line hm hz).trans (m_if_pos hdone)))
    · exact hturn.goesOn rfl ((hbody (Nat.le_of_eq hm)).trans ((fillUnit_line hm hz).trans
        ((m_if_neg (Nat.not_le.2 hlt)).trans (m_bind_ok hw))))
    · exact hturn.counts rfl ((hbody (hm ▸ Nat.zero_le 1)).trans (fillUnit_tile hm hd hw))
  case strmq =>
    intro o cl k s s1 s2 s3 c src body sc g q v cs es h hc hz hq hwidth hfree hs hr hlt hp
    have hturn : TakesTurn (.strmq o) g s c strmqBody := takesTurn_block h rfl rfl
    have hbody := strmqBody_burst (g := g) ⟨hc, hq, hwidth, hfree⟩ hz hs hr
    have hpush := cmdPush_ok hc hlt hp
    refine ⟨fun hmore => hturn.goesOn rfl (hbody.trans ((m_bind_ok hpush).trans (m_if_neg ?_))),
      fun hlast => hturn.counts rfl (hbody.trans ((m_bind_ok hpush).trans (m_if_pos ?_)))⟩
    · simpa using Nat.ne_of_lt hmore
    · simpa using hlast
  case drainq =>
    intro o cl k s s1 s2 c dst x rest g q v d h hc hz hq hwidth hfree
    have hturn : TakesTurn (.drainq o) g s c drainqBody := takesTurn_block h rfl rfl
    have hbody := drainqBody_queue (g := g) ⟨hc, hq, hwidth, hfree⟩ hz
    exact ⟨fun hw => hturn.stops (hbody.trans (drainTile_torn hw)),
      fun hw hd hdone => hturn.completes (hbody.trans (drainTile_done hw hd hdone)),
      fun hw hd hlt hv hx htid hbox hsc hwrite =>
        hturn.goesOn rfl (hbody.trans (drainTile_writes hw hd hlt hv hx htid hbox hsc hwrite))⟩
  case csig =>
    intro o cl pa s s1 s2 s3 c bs g a who h
    have hturn : TakesTurn (.csig o) g s c csigBody :=
      takesTurn_inline (o := o) (n := { copy := true, width := 8, scope := o.fn }) h rfl rfl
    exact ⟨fun hs hg => hturn.continues (csigBody_held hs hg), fun hgo =>
      ⟨fun ha => hturn.stops (csigBody_misaligned hgo ha), fun ha hp hr =>
        ⟨fun hlt hw => hturn.completes (csigBody_adds hgo ha hp hr hlt hw),
          fun hge he => hturn.stops (csigBody_overflows hgo ha hp hr hge he)⟩⟩⟩
  case accw =>
    intro acc int
    have hacc : acc = Accumulates := rfl
    have hint : int = accWidth := rfl
    rw [hacc, hint]
    exact ⟨accumulates (fun _ _ => rfl) fun _ => rfl, accumulates (fun _ _ => rfl) fun _ => rfl,
      accumulates (fun _ _ => rfl) fun o => by
        funext expected old v; exact accNew_minn .., accumulates (fun _ _ => rfl) fun _ => rfl,
      accumulates (fun _ _ => rfl) fun o => by
        funext expected old v; exact accNew_maxn .., accumulates (fun _ _ => rfl) fun _ => rfl,
      accumulates (fun _ _ => rfl) fun _ => rfl, accumulates (fun _ _ => rfl) fun _ => rfl,
      accumulates (fun _ _ => rfl) fun _ => rfl, accumulates (fun _ _ => rfl) fun _ => rfl,
      accumulates (fun _ _ => rfl) fun _ => rfl, accumulates (fun _ _ => rfl) fun _ => rfl,
      accumulates (fun _ _ => rfl) fun _ => rfl⟩
end


/-! ### Command lanes (O41) -/

section
namespace Sys2Proof.Machine

/-! #### What a lane issues with (R174) -/

/-- What issuing a lane of a kind needs to know. -/
def issueOf (k : LaneKind) (o : LaneFmt) : Issue :=
  { copy := k.copy, block := k.block, width := k.width o, fetches := k.fetches, cas := k.cas, scope := k.scope o }

/-- A lane of a kind issues its command by the kind's fields; one that fetches is inline, and only such a one compares. -/
structure Issues (k : LaneKind) : Prop where
  runs : ∀ o s w, curOwner s = some w →
    exec (k.lane o) s = .next (scalarStep w 1 (issueCmd w o (k.lane o) (issueOf k o) (issueMore (k.lane o))) s)
  inline : k.fetches = true → k.block = false
  compares : k.cas = true → k.fetches = true
  plain : k.block = true → ∀ o, k.width o = 0

theorem runCommand_owner {o : LaneFmt} {i : Instr} {n : Issue} {body : Eng → Cmd → M Bool} {more : MoreOperands} {s : State}
    {w : Owner} (hw : curOwner s = some w) :
    runCommand o i n body more s = .next (scalarStep w 1 (issueCmd w o i n more) s) := by
  unfold runCommand
  rw [hw]

theorem accWidth_bytes (o : LaneFmt) : accWidth o / 8 = accBytes o := by
  unfold accWidth accBytes
  split <;> rfl

/-- An ACCW of a width issues with the bytes of that width. -/
theorem issues_acc {mk : LaneFmt → Instr} {op : Acc} {n bytes : LaneFmt → Nat}
    (hrun : ∀ o s, exec (mk o) s = runAcc o (mk o) op (n o) s) (hn : ∀ o, n o / 8 = bytes o)
    (hmore : ∀ o, issueMore (mk o) = fun _ _ _ => pure []) : Issues (accKind mk bytes (op == .cas)) where
  runs o s w hw := by
    refine (hrun o s).trans ((runCommand_owner hw).trans ?_)
    rw [hn o, ← hmore o]
    rfl
  inline _ := rfl
  compares _ := rfl
  plain h := absurd h Bool.false_ne_true

theorem issues_block {mk : LaneFmt → Instr} {copy : Bool} {opc known : Nat} {body : Eng → Cmd → M Bool}
    (hrun : ∀ o s, exec (mk o) s = runBlock o (mk o) copy opc known body (issueMore (mk o)) s) :
    Issues { lane := mk, copy := copy } where
  runs o s _ hw := (hrun o s).trans (runCommand_owner hw)
  inline h := absurd h Bool.false_ne_true
  compares h := absurd h Bool.false_ne_true
  plain _ _ := rfl

theorem issues_lanes : ∀ k ∈ laneKinds, Issues k := by
  have int {mk : LaneFmt → Instr} {op : Acc} (hrun : ∀ o s, exec (mk o) s = runAcc o (mk o) op (accWidth o) s)
      (hmore : ∀ o, issueMore (mk o) = fun _ _ _ => pure []) := issues_acc hrun accWidth_bytes hmore
  have csig : Issues { lane := .csig, copy := true, block := false, width := fun _ => 8, scope := fun o => o.fn } :=
    ⟨fun _ _ _ => runCommand_owner, fun _ => rfl, id, fun h => absurd h Bool.false_ne_true⟩
  have prefl2 : Issues { lane := .prefl2, copy := true, block := false } :=
    ⟨fun _ _ _ => runCommand_owner, fun _ => rfl, id, fun _ _ => rfl⟩
  simp only [laneKinds, List.forall_mem_cons]
  exact ⟨issues_block fun _ _ => rfl, issues_block fun _ _ => rfl, issues_block fun _ _ => rfl, issues_block fun _ _ => rfl,
    issues_block fun _ _ => rfl, issues_block fun _ _ => rfl, issues_block fun _ _ => rfl, issues_block fun _ _ => rfl,
    issues_block fun _ _ => rfl, issues_block fun _ _ => rfl, issues_block fun _ _ => rfl, issues_block fun _ _ => rfl,
    issues_block fun _ _ => rfl, csig, prefl2,
    int (op := .add) (fun _ _ => rfl) fun _ => rfl, int (op := .min true) (fun _ _ => rfl) fun _ => rfl,
    int (op := .min false) (fun _ _ => rfl) fun _ => rfl, int (op := .max true) (fun _ _ => rfl) fun _ => rfl,
    int (op := .max false) (fun _ _ => rfl) fun _ => rfl, int (op := .and) (fun _ _ => rfl) fun _ => rfl,
    int (op := .or) (fun _ _ => rfl) fun _ => rfl, int (op := .xor) (fun _ _ => rfl) fun _ => rfl,
    int (op := .xchg) (fun _ _ => rfl) fun _ => rfl, int (op := .cas) (fun _ _ => rfl) fun _ => rfl,
    issues_acc (op := .fadd) (fun _ _ => rfl) (fun _ => rfl) fun _ => rfl,
    issues_acc (op := .fadd) (fun _ _ => rfl) (fun _ => rfl) fun _ => rfl,
    issues_acc (op := .fmax) (fun _ _ => rfl) (fun _ => rfl) fun _ => rfl, List.forall_mem_nil _⟩


/-! #### Issue (R106, R174, R296) -/

/-- The register a command of a lane will fill. -/
def laneFetch (n : Issue) (o : LaneFmt) : Option Nat := if n.fetches && o.d ≠ 0 then some o.d else none

/-- Queue the command of a lane, its pins taken. -/
def laneSend (w : Owner) (o : LaneFmt) (i : Instr) (n : Issue) (x y old : Word) (cl id : Nat) : M Flow := do
  match laneFetch n o with
  | some d => awaitReg w d (.cmd id)
  | none => pure ()
  let s ← get
  let crew := crewOf s w
  let c : Cmd :=
    { id := id, instr := i, issuer := w, crew := crew, ctx := ctxOf s w, av := x, bv := y, dv := old, fetch := laneFetch n o,
      seed := (crew.map fun k => ctlNow (s.crew k) 2 (s.crew k).rndSeed).getD 0, scope := max 2 n.scope }
  upd fun s =>
    let s := s.setView (.cmd id) (commandView (s.view (agentOf w)) (agentOf w) crew cl)
    let q := s.cluster cl
    s.setCluster cl (q.setQueueOf n.copy (q.queueOf n.copy ++ [c]))
  return .next

/-- What a lane does once its operands are read and checked: it waits for the streams, and for room, and queues its command. -/
def laneQueue (w : Owner) (o : LaneFmt) (i : Instr) (n : Issue) (more : MoreOperands) (x y old : Word) : M Flow := do
  afterStreams w
  let s ← get
  let cl := engineOf s w
  if 32 ≤ (((s.cluster cl).queueOf n.copy).filter fun e => !e.prog.begun).length then throw .stall
  let id ← freshId
  match w with
  | .thread t =>
    if n.block then
      let rs ← blockRanges t i x.toNat more
      issuePins t id rs
    else if n.width ≠ 0 then issuePins t id [(x.toNat, n.width, true)]
  | .crew _ => pure ()
  laneSend w o i n x y old cl id

/-- The checks of a lane's address and destination, its registers read. -/
def laneCheck (w : Owner) (o : LaneFmt) (i : Instr) (n : Issue) (more : MoreOperands) (x y old : Word) : M Flow := do
  if n.block && x.toNat % 64 ≠ 0 then trap 4 x 64
  if isCox w && n.width ≠ 0 && x.toNat % n.width ≠ 0 then trap 4 x (BitVec.ofNat 64 n.width)
  match laneFetch n o with
  | some d => destReady w d
  | none => pure ()
  laneQueue w o i n more x y old

section
variable {k : LaneKind} {o : LaneFmt} {i : Instr} {more : MoreOperands} {s s1 f : State} {w : Owner}

/-- The second operand of a lane: none of a block. -/
def laneB (k : LaneKind) (o : LaneFmt) (s : State) (w : Owner) : Word := if k.block then 0 else regVal s w o.b

/-- The value a compare expects. -/
def laneD (k : LaneKind) (o : LaneFmt) (s : State) (w : Owner) : Word := if k.cas ∧ o.d ≠ 0 then regVal s w o.d else 0

theorem issueCmd_reads (h : Issues k) (hr : RegsReady s w (laneRegs k o)) :
    issueCmd w o i (issueOf k o) more s =
      laneCheck w o i (issueOf k o) more (regVal s w o.a) (laneB k o s w) (laneD k o s w) s := by
  have ha : regReady s w o.a = true := hr o.a (by simp [laneRegs])
  have hold (g : Word → M Flow) :
      (if (k.cas && decide (o.d ≠ 0)) = true then readReg w o.d 0 >>= g else pure 0 >>= g) s = g (laneD k o s w) s := by
    unfold laneD
    by_cases hc : k.cas = true ∧ o.d ≠ 0
    · have hd : regReady s w o.d = true := hr o.d (by simp [laneRegs, h.compares hc.1, hc.2])
      rw [if_pos hc]
      exact (m_if_pos (by simpa using hc)).trans (m_bind_ok (readReg_ok hd _))
    · rw [if_neg hc]
      exact (m_if_neg (by simpa using hc)).trans rfl
  unfold issueCmd laneB
  refine (m_bind_ok (readReg_ok ha _)).trans ?_
  by_cases hb : k.block = true
  · rw [if_pos hb]
    exact (m_if_pos hb).trans ((m_bind_ok rfl).trans (hold _))
  · have hbr : regReady s w o.b = true := hr o.b (by simp [laneRegs, hb])
    rw [if_neg hb]
    exact (m_if_neg hb).trans ((m_bind_ok (readReg_ok hbr _)).trans (hold _))

end

/-! #### The checks, the streams, and room in the queue -/

section
variable {k : LaneKind} {o : LaneFmt} {i : Instr} {n : Issue} {more : MoreOperands} {s s0 s1 s2 f : State} {w : Owner}
  {x y old : Word}

theorem laneFetch_eq (k : LaneKind) (o : LaneFmt) :
    laneFetch (issueOf k o) o = if k.fetches ∧ o.d ≠ 0 then some o.d else none := by
  unfold laneFetch issueOf
  simp

/-- The register that a lane will fill is among those it needs ready. -/
theorem fetchReady (hr : RegsReady s w (laneRegs k o)) {d : Nat} (h : laneFetch (issueOf k o) o = some d) :
    regReady s w d = true := by
  rw [laneFetch_eq] at h
  split at h
  next hf =>
    cases h
    exact hr o.d (by simp [laneRegs, hf])
  next => cases h

theorem laneCheck_blockMisaligned (hb : n.block = true) (hx : x.toNat % 64 ≠ 0) :
    laneCheck w o i n more x y old s = .error (.trap { cause := 4, addr := x, info := 64 }) s :=
  (m_if_pos (by simp [hb, hx])).trans (m_bind_err (m_trap ..))

theorem laneCheck_misaligned (hw : isCox w = true) (hb : n.block = false) (hn : n.width ≠ 0) (hx : x.toNat % n.width ≠ 0) :
    laneCheck w o i n more x y old s = .error (.trap { cause := 4, addr := x, info := BitVec.ofNat 64 n.width }) s :=
  (m_if_neg (by simp [hb])).trans ((m_if_pos (by simp [hw, hn, hx])).trans (m_bind_err (m_trap ..)))

theorem laneCheck_passes (hb : n.block = true → x.toNat % 64 = 0)
    (hx : isCox w = true → n.width ≠ 0 → x.toNat % n.width = 0) (hd : ∀ d, laneFetch n o = some d → regReady s w d = true) :
    laneCheck w o i n more x y old s = laneQueue w o i n more x y old s := by
  have hblock : ¬(n.block && decide (x.toNat % 64 ≠ 0)) = true := by simpa using hb
  have hinline : ¬(isCox w && decide (n.width ≠ 0) && decide (x.toNat % n.width ≠ 0)) = true := by
    simpa using hx
  refine (m_if_neg hblock).trans ((m_if_neg hinline).trans ?_)
  cases hf : laneFetch n o with
  | none => rfl
  | some d => exact m_bind_ok (destReady_ok (hd d hf))

theorem laneQueue_streams (h : afterStreams w s = .error .stall s) : laneQueue w o i n more x y old s = .error .stall s :=
  m_bind_err h

section
variable (h : afterStreams w s = .ok () s)
include h

theorem laneQueue_full (hfull : 32 ≤ waiting s w n.copy) : laneQueue w o i n more x y old s = .error .stall s :=
  (m_bind_ok h).trans ((m_bind_ok (m_get s)).trans ((m_if_pos hfull).trans rfl))

variable (hroom : waiting s w n.copy < 32)
include hroom

theorem laneQueue_crew {c : Nat} (hw : w = .crew c) : laneQueue w o i n more x y old s =
    laneSend w o i n x y old (engineOf s w) s.nextId { s with nextId := s.nextId + 1 } := by
  subst hw
  exact (m_bind_ok h).trans ((m_bind_ok (m_get s)).trans ((m_if_neg (Nat.not_le.2 hroom)).trans rfl))

section
variable {t : Nat} (hw : w = .thread t)
include hw

theorem laneQueue_block (hb : n.block = true) : laneQueue w o i n more x y old s = (do
    let rs ← blockRanges t i x.toNat more
    issuePins t s.nextId rs
    laneSend w o i n x y old (engineOf s w) s.nextId : M Flow) { s with nextId := s.nextId + 1 } := by
  subst hw
  exact (m_bind_ok h).trans ((m_bind_ok (m_get s)).trans ((m_if_neg (Nat.not_le.2 hroom)).trans (m_if_pos hb)))

theorem laneQueue_inline (hb : n.block = false) (hn : n.width ≠ 0) : laneQueue w o i n more x y old s = (do
    issuePins t s.nextId [(x.toNat, n.width, true)]
    laneSend w o i n x y old (engineOf s w) s.nextId : M Flow) { s with nextId := s.nextId + 1 } := by
  subst hw
  exact (m_bind_ok h).trans ((m_bind_ok (m_get s)).trans ((m_if_neg (Nat.not_le.2 hroom)).trans
    ((m_if_neg (ne_true_of_eq_false hb)).trans (m_if_pos hn))))

theorem laneQueue_bare (hb : n.block = false) (hn : n.width = 0) : laneQueue w o i n more x y old s =
    laneSend w o i n x y old (engineOf s w) s.nextId { s with nextId := s.nextId + 1 } := by
  subst hw
  exact (m_bind_ok h).trans ((m_bind_ok (m_get s)).trans ((m_if_neg (Nat.not_le.2 hroom)).trans
    ((m_if_neg (ne_true_of_eq_false hb)).trans (m_if_neg (not_not.2 hn)))))

end

end

theorem afterStreams_crew {c : Nat} (hl : (s.crew c).lq = []) (hw : (s.crew c).wq = []) :
    afterStreams (.crew c) s = .ok () s :=
  (m_bind_ok (m_get s)).trans (m_if_neg (by simp [hl, hw]))

theorem afterStreams_waits {c : Nat} (h : (s.crew c).lq ≠ [] ∨ (s.crew c).wq ≠ []) :
    afterStreams (.crew c) s = .error .stall s :=
  (m_bind_ok (m_get s)).trans ((m_if_pos (by
    obtain h | h := h <;> simp [h])).trans rfl)

/-- The state a lane's command leaves, but for the advance of the pointer. -/
def laneSent (k : LaneKind) (o : LaneFmt) (s f : State) (w : Owner) : State :=
  let f := if k.fetches ∧ o.d ≠ 0 then withPend f w o.d (.cmd s.nextId) else f
  let cl := engineOf s w
  let t := f.setView (.cmd s.nextId) (commandView (f.view (agentOf w)) (agentOf w) (crewOf f w) cl)
  t.setCluster cl ((t.cluster cl).setQueueOf k.copy ((t.cluster cl).queueOf k.copy ++ [laneCmd k o s f w]))

/-- A lane's command is queued, its register marked empty. -/
theorem laneSend_queues (hd : ∀ d, laneFetch (issueOf k o) o = some d → regReady f w d = true) :
    laneSend w o (k.lane o) (issueOf k o) (regVal s w o.a) (laneB k o s w) (laneD k o s w) (engineOf s w) s.nextId f =
      .ok .next (laneSent k o s f w) := by
  unfold laneSend laneSent laneCmd
  rw [laneFetch_eq] at *
  by_cases hf : k.fetches = true ∧ o.d ≠ 0
  · simp only [if_pos hf] at hd ⊢
    exact (m_bind_ok (awaitReg_ok (hd o.d rfl) _)).trans rfl
  · simp only [if_neg hf]
    rfl

end

section
variable {k : LaneKind} {o : LaneFmt} {s s1 s2 : State} {w : Owner}

theorem scalarStep_sent {body : M Flow} {f : State} (h : body s = .ok .next (laneSent k o s f w)) :
    scalarStep w 1 body s = laneQueued k o s f w := scalarStep_next h

end

/-! #### Issue pins (R176, R298) -/

section
variable (s : State)

theorem looks_walkRange (ctx level : Nat) (write fetch : Bool) (k va n : Nat) :
    Stays (Looked s) (walkRange ctx level write fetch k va n) := by
  induction k generalizing va n with
  | zero => exact Stays.pure _
  | succ k ih =>
    unfold walkRange
    split
    · exact Stays.pure _
    · refine (looks_walk s _ _ _ _ _).bind fun r => ?_
      split
      · exact Stays.pure _
      · exact (ih _ _).bind fun _ => Stays.pure _

theorem looks_walkRanges (ctx level : Nat) (write fetch : Bool) (l : List (Nat × Nat)) :
    Stays (Looked s) (walkRanges ctx level write fetch l) := by
  induction l with
  | nil => exact Stays.pure _
  | cons e l ih =>
    unfold walkRanges
    refine (looks_walkRange s _ _ _ _ _ _ _).bind fun a => ih.bind fun b => ?_
    split <;> exact Stays.pure _

end

theorem pinsIssued : PinsIssued := by
  intro s s1 s2 t id rs a b th part fault ha hb
  have hrun (k : Except (Nat × Nat × Nat) (List Leaf) → Except (Nat × Nat × Nat) (List Leaf) → M Unit) :
      (do
        let a ← walkRanges th.ctx th.level.toNat false false (part false)
        let b ← walkRanges th.ctx th.level.toNat true false (part true)
        k a b : M Unit) s = k a b s2 := (m_bind_ok ha).trans (m_bind_ok hb)
  refine ⟨?_, ?_, ?_, ?_⟩
  · rintro x y rfl rfl
    exact (m_bind_ok (m_get s)).trans ((hrun _).trans rfl)
  · rintro e y rfl rfl
    exact (m_bind_ok (m_get s)).trans ((hrun _).trans rfl)
  · rintro x e rfl rfl
    exact (m_bind_ok (m_get s)).trans ((hrun _).trans rfl)
  · rintro e e' rfl rfl
    split
    next hlt => exact (m_bind_ok (m_get s)).trans ((hrun _).trans (m_if_pos hlt))
    next hge => exact (m_bind_ok (m_get s)).trans ((hrun _).trans (m_if_neg hge))

/-- Issue pins leave threads alone. -/
theorem issuePins_threads {t id : Nat} {rs : List (Nat × Nat × Bool)} {s u : State} (h : issuePins t id rs s = .ok () u) :
    u.threads = s.threads := by
  have hlook {α : Type} {m : M α} (hm : ∀ s, Stays (Looked s) m) : Stays (fun x => x.threads = s.threads) m := fun x hx => by
    have hk := hm x x (Looked.refl x)
    split <;> rename_i heq <;> rw [heq] at hk <;> exact hk.threads.trans hx
  have hstays : Stays (fun x => x.threads = s.threads) (issuePins t id rs) := by
    unfold issuePins
    refine Stays.get.bind fun _ => (hlook fun s => looks_walkRanges s _ _ _ _ _).bind fun a =>
      (hlook fun s => looks_walkRanges s _ _ _ _ _).bind fun b => ?_
    have hfresh : Stays (fun x => x.threads = s.threads) freshId := fun _ hx => hx
    split
    · exact hfresh.bind fun _ => hfresh.bind fun _ => Stays.upd fun _ hx => hx
    · exact Stays.throw _
    · exact Stays.throw _
    · split <;> exact Stays.throw _
  exact hstays.ok rfl h

/-! #### The lanes of S and of a cox thread -/

section
variable {k : LaneKind} {o : LaneFmt} {s : State}

/-- What a lane of S does once its registers are ready. -/
theorem lane_crew {c : Nat} (hk : Issues k) (hw : curOwner s = some (.crew c)) (hr : RegsReady s (.crew c) (laneRegs k o)) :
    let w := Owner.crew c
    (k.block = true → (regVal s w o.a).toNat % 64 ≠ 0 →
      exec (k.lane o) s = .next (raised s w { cause := 4, addr := regVal s w o.a, info := 64 })) ∧
    ((k.block = true → (regVal s w o.a).toNat % 64 = 0) → (s.crew c).lq = [] → (s.crew c).wq = [] →
      (waiting s w k.copy < 32 → exec (k.lane o) s = .next (laneQueued k o s { s with nextId := s.nextId + 1 } w)) ∧
      (32 ≤ waiting s w k.copy → exec (k.lane o) s = .next s)) ∧
    ((k.block = true → (regVal s w o.a).toNat % 64 = 0) → ((s.crew c).lq ≠ [] ∨ (s.crew c).wq ≠ []) →
      exec (k.lane o) s = .next s) := by
  intro w
  have hreads := issueCmd_reads (i := k.lane o) (more := issueMore (k.lane o)) hk hr
  have hpass (hb : k.block = true → (regVal s w o.a).toNat % 64 = 0) :=
    hreads.trans (laneCheck_passes hb (fun h => absurd h Bool.false_ne_true) fun _ => fetchReady hr)
  rw [hk.runs o s w hw]
  refine ⟨fun hb hx => ?_, fun hb hl hwq => ⟨fun hroom => ?_, fun hfull => ?_⟩, fun hb hq => ?_⟩
  · exact congrArg _ (scalarStep_trap (hreads.trans (laneCheck_blockMisaligned hb hx)))
  · exact congrArg _ (scalarStep_sent ((hpass hb).trans ((laneQueue_crew (afterStreams_crew hl hwq) hroom rfl).trans
      (laneSend_queues fun _ => fetchReady hr))))
  · exact congrArg _ (scalarStep_stall ((hpass hb).trans (laneQueue_full (afterStreams_crew hl hwq) hfull)))
  · exact congrArg _ (scalarStep_stall ((hpass hb).trans (laneQueue_streams (afterStreams_waits hq))))

section
variable {t : Nat}

/-- The ranges that an inline lane pins are known at once. -/
theorem issueRanges_inline {x : Word} (hb : k.block = false) (hn : k.width o ≠ 0) (s : State) :
    issueRanges k o t x s = .ok [(x.toNat, k.width o, true)] s := by
  unfold issueRanges
  rw [hb, if_neg hn]
  rfl

theorem issueRanges_block {x : Word} (hb : k.block = true) :
    issueRanges k o t x = blockRanges t (k.lane o) x.toNat (issueMore (k.lane o)) := by
  unfold issueRanges
  rw [hb]
  rfl

/-- PREFL2, which writes nothing, pins nothing. -/
theorem issueRanges_bare {x : Word} (hb : k.block = false) (hn : k.width o = 0) (s : State) :
    issueRanges k o t x s = .ok [] s := by
  unfold issueRanges
  rw [hb, if_pos hn]
  rfl

end

/-- The address of a lane of a cox thread is aligned as its block, or the bytes it writes, need it. -/
def laneAligned (k : LaneKind) (o : LaneFmt) (x : Word) : Prop :=
  if k.block then x.toNat % 64 = 0 else k.width o ≠ 0 → x.toNat % k.width o = 0

section
variable {t : Nat} (hk : Issues k) (hw : curOwner s = some (.thread t)) (hr : RegsReady s (.thread t) (laneRegs k o))
include hk hw hr

theorem lane_thread_misaligned (h : ¬laneAligned k o (regVal s (.thread t) o.a)) :
    exec (k.lane o) s = .next (raised s (.thread t)
      { cause := 4, addr := regVal s (.thread t) o.a, info := if k.block then 64 else BitVec.ofNat 64 (k.width o) }) := by
  have hreads := issueCmd_reads (i := k.lane o) (more := issueMore (k.lane o)) hk hr
  unfold laneAligned at h
  rw [hk.runs o s _ hw]
  refine congrArg _ (scalarStep_trap (hreads.trans ?_))
  cases hb : k.block with
  | true => exact laneCheck_blockMisaligned hb (by simpa [hb] using h)
  | false =>
    have hx : k.width o ≠ 0 ∧ (regVal s (.thread t) o.a).toNat % k.width o ≠ 0 := by simpa [hb] using h
    exact laneCheck_misaligned rfl hb hx.1 hx.2

/-- A lane of a cox thread whose address is aligned comes to its queue. -/
theorem lane_thread_queue (h : laneAligned k o (regVal s (.thread t) o.a)) :
    exec (k.lane o) s = .next (scalarStep (.thread t) 1 (laneQueue (.thread t) o (k.lane o) (issueOf k o)
      (issueMore (k.lane o)) (regVal s (.thread t) o.a) (laneB k o s (.thread t)) (laneD k o s (.thread t))) s) := by
  unfold laneAligned at h
  rw [hk.runs o s _ hw]
  refine congrArg _ (scalarStep_congr ((issueCmd_reads hk hr).trans
    (laneCheck_passes (fun hb => ?_) (fun _ hn => ?_) fun _ => fetchReady hr)))
  · have hb : k.block = true := hb
    rwa [if_pos hb] at h
  · rw [if_neg fun hb => hn (hk.plain hb o)] at h
    exact h hn


variable (h : laneAligned k o (regVal s (.thread t) o.a))
include h

theorem lane_thread_full (hfull : 32 ≤ waiting s (.thread t) k.copy) : exec (k.lane o) s = .next s :=
  (lane_thread_queue hk hw hr h).trans (congrArg _ (scalarStep_stall (laneQueue_full rfl hfull)))

variable (hroom : waiting s (.thread t) k.copy < 32)
include hroom

theorem lane_thread_bare (hb : k.block = false) (hn : k.width o = 0) :
    exec (k.lane o) s = .next (laneQueued k o s { s with nextId := s.nextId + 1 } (.thread t)) :=
  (lane_thread_queue hk hw hr h).trans (congrArg _ (scalarStep_sent ((laneQueue_bare rfl hroom rfl hb hn).trans
    (laneSend_queues fun _ => fetchReady hr))))

/-- A lane of a cox thread that pins its footprint first. -/
theorem lane_thread_pins (hp : k.block = true ∨ k.width o ≠ 0) {f : State} {r : EStateM.Result Stop State Flow}
    (hq : (do
      let rs ← issueRanges k o t (regVal s (.thread t) o.a)
      issuePins t s.nextId rs
      laneSend (.thread t) o (k.lane o) (issueOf k o) (regVal s (.thread t) o.a) (laneB k o s (.thread t))
        (laneD k o s (.thread t)) (engineOf s (.thread t)) s.nextId : M Flow) { s with nextId := s.nextId + 1 } = r)
    (hf : ∀ body : M Flow, body s = r → scalarStep (.thread t) 1 body s = f) : exec (k.lane o) s = .next f := by
  refine (lane_thread_queue hk hw hr h).trans (congrArg _ (hf _ (Eq.trans ?_ hq)))
  cases hb : k.block with
  | true =>
    rw [issueRanges_block hb]
    exact laneQueue_block rfl hroom rfl hb
  | false =>
    have hn := hp.resolve_left (ne_true_of_eq_false hb)
    rw [m_bind_ok (issueRanges_inline hb hn _)]
    exact laneQueue_inline rfl hroom rfl hb hn

variable {rs : List (Nat × Nat × Bool)} {s1 s2 : State} {exc : Exc}

theorem lane_thread_noRanges
    (he : issueRanges k o t (regVal s (.thread t) o.a) { s with nextId := s.nextId + 1 } = .error (.trap exc) s1) :
    exec (k.lane o) s = .next (raisedAfter s s1 (.thread t) exc) := by
  have hp : k.block = true ∨ k.width o ≠ 0 := by
    by_contra hno
    obtain ⟨hb, hn⟩ := not_or.1 hno
    rw [issueRanges_bare (eq_false_of_ne_true hb) (not_not.1 hn)] at he
    cases he
  exact lane_thread_pins hk hw hr h hroom hp (m_bind_err he) fun _ hb => scalarStep_trap hb

variable (hp : k.block = true ∨ k.width o ≠ 0)
  (hrs : issueRanges k o t (regVal s (.thread t) o.a) { s with nextId := s.nextId + 1 } = .ok rs s1)
include hp hrs

theorem lane_thread_pinFault (he : issuePins t s.nextId rs s1 = .error (.trap exc) s2) :
    exec (k.lane o) s = .next (raisedAfter s s2 (.thread t) exc) :=
  lane_thread_pins hk hw hr h hroom hp ((m_bind_ok hrs).trans (m_bind_err he)) fun _ hb => scalarStep_trap hb

theorem lane_thread_sends (hpins : issuePins t s.nextId rs s1 = .ok () s2) :
    exec (k.lane o) s = .next (laneQueued k o s s2 (.thread t)) := by
  refine lane_thread_pins hk hw hr h hroom hp ((m_bind_ok hrs).trans ((m_bind_ok hpins).trans
    (laneSend_queues fun _ hd => ?_))) fun _ hb => scalarStep_sent hb
  have hfetch : k.fetches = true ∧ o.d ≠ 0 := by
    rw [laneFetch_eq] at hd
    by_contra hno
    rw [if_neg hno] at hd
    cases hd
  have hb := hk.inline hfetch.1
  rw [issueRanges_inline hb (hp.resolve_left (ne_true_of_eq_false hb))] at hrs
  cases hrs
  have hscalar : s2.scalar (.thread t) = s.scalar (.thread t) := by
    unfold State.scalar State.thread
    rw [issuePins_threads hpins]
  unfold regReady
  rw [hscalar]
  exact fetchReady hr hd

end

end

/-! #### PREFL2, blocks taken, and fences (R175, R309, R311) -/

theorem lookupView_filter {l : List (Agent × View)} {a b : Agent} (h : b ≠ a) :
    State.lookupView (l.filter fun e => decide (e.1 ≠ a)) b = State.lookupView l b := by
  induction l with
  | nil => rfl
  | cons e l ih =>
    by_cases he : e.1 = a
    · rw [List.filter_cons_of_neg (by simp [he]), ih, State.lookupView, if_neg (he ▸ h)]
    · rw [List.filter_cons_of_pos (by simp [he]), State.lookupView, State.lookupView, ih]

theorem view_dropView_other (s : State) {a b : Agent} (h : b ≠ a) : (s.dropView a).view b = s.view b := lookupView_filter h

theorem setQueueOf_twice (v : Cluster) (copy : Bool) (l m : List Cmd) :
    (v.setQueueOf copy l).setQueueOf copy m = v.setQueueOf copy m := by
  cases copy <;> rfl

theorem queueOf_setQueueOf (v : Cluster) (copy : Bool) (l : List Cmd) : (v.setQueueOf copy l).queueOf copy = l := by
  cases copy <;> rfl

/-- The crew of a command is no longer idle. -/
def crewRouses (c : Cmd) (s : State) : State :=
  match c.crew with
  | some k => s.setCrew k { s.crew k with idle := false }
  | none => s

theorem crewRouses_rest (c : Cmd) (s : State) : { crewRouses c s with crews := s.crews } = s := by
  unfold crewRouses
  split <;> rfl

theorem crewRouses_crew (c : Cmd) (s : State) (x : Nat) : { (crewRouses c s).crew x with idle := (s.crew x).idle } = s.crew x := by
  unfold crewRouses
  split
  next k _ =>
    by_cases hx : x = k
    · subst hx
      rw [State.crew_setCrew]
    · rw [State.crew_setCrew_other _ _ hx]
  next => rfl

/-- The state without a command: its engine's queue, its pins and its view. -/
def withoutCmd (g : Eng) (c : Cmd) (s : State) : State :=
  ({ s.setCluster g.cl ((s.cluster g.cl).setQueueOf g.copy (((s.cluster g.cl).queueOf g.copy).filter fun e => e.id != c.id)) with
    pins := s.pins.filter fun p => p.owner != PinOwner.cmd c.id }).dropView (.cmd c.id)

/-- Changing a command that is gone from its queue changes nothing of its cluster. -/
theorem updCmd_gone {g : Eng} {c : Cmd} {s u : State} {f : Cmd → Cmd} (hu : u.clusters = (withoutCmd g c s).clusters) :
    (updCmd g.cl g.copy c.id f u).cluster g.cl =
      (s.cluster g.cl).setQueueOf g.copy (((s.cluster g.cl).queueOf g.copy).filter fun e => e.id != c.id) := by
  have hcl : u.cluster g.cl =
      (s.cluster g.cl).setQueueOf g.copy (((s.cluster g.cl).queueOf g.copy).filter fun e => e.id != c.id) := by
    have hw : (withoutCmd g c s).cluster g.cl =
        (s.cluster g.cl).setQueueOf g.copy (((s.cluster g.cl).queueOf g.copy).filter fun e => e.id != c.id) :=
      State.cluster_setCluster ..
    rw [← hw]
    unfold State.cluster
    rw [hu]
  have hmap : (((s.cluster g.cl).queueOf g.copy).filter fun e => e.id != c.id).map (fun e => if e.id == c.id then f e else e) =
      ((s.cluster g.cl).queueOf g.copy).filter fun e => e.id != c.id := by
    refine (List.map_congr_left fun e he => ?_).trans (List.map_id _)
    have hne : (e.id == c.id) = false := by simpa using (List.mem_filter.1 he).2
    simp [hne]
  unfold updCmd
  rw [State.cluster_setCluster, hcl, queueOf_setQueueOf, hmap, setQueueOf_twice]

/-- PREFL2's turn: its command leaves, and its crew is not idle. -/
theorem prefl2_turn {o : LaneFmt} {g : Eng} {s : State} {c : Cmd} (h : EngTurn (.prefl2 o) g s c) (hg : g.copy = true) :
    exec (.prefl2 o) s = .next (updCmd g.cl g.copy c.id (fun e => { e with stalled := false }) (crewRouses c (withoutCmd g c s))) := by
  have hturn : TakesTurn (.prefl2 o) g s c _ := takesTurn_inline (o := o) (n := { copy := true }) h hg.symm rfl
  refine hturn.continues ((m_bind_ok (m_upd _ s)).trans ?_)
  unfold crewRouses
  cases c.crew <;> rfl

/-- A block lane's turn before its block is taken. -/
theorem takesTurn_opening {i : Instr} {g : Eng} {s : State} {c : Cmd} {o : LaneFmt} {opc known : Nat} {copy : Bool}
    {body : Eng → Cmd → M Bool} {more : MoreOperands} (h : EngTurn i g s c) (hg : g.copy = copy)
    (hrun : exec i s = runBlock o i copy opc known body more s) : TakesTurn i g s c (blockBody opc known body) :=
  takesTurn_inline (n := { copy := copy, block := true }) h hg.symm hrun

theorem blockBody_open {g : Eng} {c : Cmd} {s : State} {opc known : Nat} {body : Eng → Cmd → M Bool} (h : c.prog.bytes = []) :
    blockBody opc known body g c s = (do takeBlock g c opc known; return false : M Bool) s :=
  m_if_pos (by simp [h])

/-- A lane of a block, by its form. -/
def OpensBlock (f : (LaneFmt → Instr) × Bool × Nat × Nat) : Prop :=
  ∀ o s, ∃ body more, exec (f.1 o) s = runBlock o (f.1 o) f.2.1 f.2.2.1 f.2.2.2 body more s

theorem opensBlock : ∀ f ∈ blockForms, OpensBlock f := by
  simp only [blockForms, List.forall_mem_cons]
  exact ⟨fun _ _ => ⟨_, _, rfl⟩, fun _ _ => ⟨_, _, rfl⟩, fun _ _ => ⟨_, _, rfl⟩, fun _ _ => ⟨_, _, rfl⟩, fun _ _ => ⟨_, _, rfl⟩,
    fun _ _ => ⟨_, _, rfl⟩, fun _ _ => ⟨_, _, rfl⟩, fun _ _ => ⟨_, _, rfl⟩, fun _ _ => ⟨_, _, rfl⟩, fun _ _ => ⟨_, _, rfl⟩,
    fun _ _ => ⟨_, _, rfl⟩, fun _ _ => ⟨_, _, rfl⟩, fun _ _ => ⟨_, _, rfl⟩, List.forall_mem_nil _⟩

theorem afterStreams_ok {s : State} {w : Owner} (h : ∀ c, w = .crew c → (s.crew c).lq = [] ∧ (s.crew c).wq = []) :
    afterStreams w s = .ok () s := by
  cases w with
  | thread t => rfl
  | crew c =>
    obtain ⟨hl, hw⟩ := h c rfl
    exact afterStreams_crew hl hw

section
variable {s : State} {w : Owner} {copy : Bool} (hw : curOwner s = some w) (hs : afterStreams w s = .ok () s)
include hw hs

theorem fence_waits (h : issuerBusy s w copy = true) : fence copy s = .next s :=
  runScalar_stall hw ((m_bind_ok hs).trans ((m_bind_ok (m_get s)).trans ((m_if_pos h).trans rfl)))

theorem fence_gains (h : issuerBusy s w copy = false) : fence copy s = .next (advance (gainIds s (agentOf w)
    (unionNames (acquireIds s (agentOf w) 2)
      (if copy then (s.view (agentOf w)).fenceCE else (s.view (agentOf w)).fenceIX))) w 1) :=
  runScalar_next hw ((m_bind_ok hs).trans ((m_bind_ok (m_get s)).trans ((m_if_neg (ne_true_of_eq_false h)).trans rfl)))

end

end Sys2Proof.Machine
end

section
open Sys2Proof Sys2Proof.Machine

/-- Settles O41: every lane issues by the fields of its kind, and its checks are taken in their order; at the engine, PREFL2's
turn, the turn that takes a block, and the fences. -/
theorem commandsAreQueued : Obligations.CommandsAreQueued := by
  unfold Obligations.CommandsAreQueued
  refine ⟨?crew, ?thread, pinsIssued, ?prefl2, ?block, ?fence⟩
  case crew => exact fun k hk o s c _ hw hr => lane_crew (issues_lanes k hk) hw hr
  case thread =>
    intro k hmem o s t _ hw hr w x aligned s0
    have hk := issues_lanes k hmem
    refine ⟨fun h => lane_thread_misaligned hk hw hr h, fun h hfull => lane_thread_full hk hw hr h hfull,
      fun exc s1 h hroom he => lane_thread_noRanges hk hw hr h hroom he, fun rs s1 h hroom hrs =>
        ⟨fun hb hn => lane_thread_bare hk hw hr h hroom hb hn, fun hp => ⟨fun s2 hpins => ?_, fun exc s2 he => ?_⟩⟩⟩
    · exact lane_thread_sends hk hw hr h hroom hp hrs hpins
    · exact lane_thread_pinFault hk hw hr h hroom hp hrs he
  case prefl2 =>
    intro o g s c h hg
    have hrest := crewRouses_rest c (withoutCmd g c s)
    have hclusters : (crewRouses c (withoutCmd g c s)).clusters = (withoutCmd g c s).clusters :=
      (congrArg State.clusters hrest :)
    have hcl := updCmd_gone (f := fun e => { e with stalled := false }) hclusters
    refine ⟨_, prefl2_turn h hg, ?_, ?_, fun x hx => ?_, ?_, fun a ha => ?_, fun x => ?_, ?_⟩
    · rw [hcl, hg]
      rfl
    · rw [hcl, hg]
      rfl
    · refine (State.cluster_setCluster_other _ _ hx).trans ?_
      unfold State.cluster
      rw [hclusters]
      exact State.cluster_setCluster_other _ _ hx
    · exact (congrArg State.pins hrest :)
    · refine Eq.trans ?_ (view_dropView_other s ha)
      exact (congrArg (fun u : State => u.view a) hrest :)
    · exact crewRouses_crew c (withoutCmd g c s) x
    · exact (congrArg (fun u : State => { u with clusters := s.clusters, pins := s.pins, views := s.views }) hrest :)
  case block =>
    intro f hf o g s s' c h hg hbytes
    obtain ⟨body, more, hrun⟩ := opensBlock f hf o s
    have hturn := takesTurn_opening h hg hrun
    exact ⟨fun ht => hturn.continues ((blockBody_open hbytes).trans (m_bind_ok ht)),
      fun n ht => hturn.stops ((blockBody_open hbytes).trans (m_bind_err ht))⟩
  case fence =>
    rintro o s w mk copy (⟨rfl, rfl⟩ | ⟨rfl, rfl⟩) _ hw hq
    · exact ⟨fun hb => fence_waits hw (afterStreams_ok hq) hb, fun hb => fence_gains hw (afterStreams_ok hq) hb⟩
    · exact ⟨fun hb => fence_waits hw (afterStreams_ok hq) hb, fun hb => fence_gains hw (afterStreams_ok hq) hb⟩
end

/-! ### Elements of the Sweep fabric (O52) -/

section
namespace Sys2Proof.Machine

/-! #### What a firing comes to (R328, R334) -/

section
variable {s s1 : State} {a : ElemRef} {x y : Section} {code : Nat}

theorem getSection_run (c sec : Nat) (s : State) : getSection c sec s = .ok ((s.crew c).sections.find? sec) s := rfl

theorem setSection_run (c sec : Nat) (x : Section) (s : State) : setSection c sec x s = .ok () (s.putSection c sec x) := rfl

theorem portIsFree_run (a : ElemRef) (x : Section) (p : Nat) (s : State) :
    portIsFree a x p s = .ok (portFree s (s.crew a.c).cl x a.el p) s := rfl

@[simp] theorem sections_putSection (s : State) (c sec : Nat) (x : Section) :
    ((s.putSection c sec x).crew c).sections = (s.crew c).sections.insert sec x := by
  unfold State.putSection
  rw [State.crew_setCrew]

theorem putSection_putSection (s : State) (c sec : Nat) (x y : Section) :
    (s.putSection c sec x).putSection c sec y = s.putSection c sec y := by
  unfold State.putSection
  rw [State.crew_setCrew, setCrew_setCrew, insert_insert]

/-- What an element leaves replaces whatever its section was. -/
theorem movedAs_putSection (s : State) (a : ElemRef) (x y : Section) (take : List Nat) (outs : List (Nat × Tok)) (st : ElemState)
    (fl : Flags) : movedAs (s.putSection a.c a.sec y) a x take outs st fl = movedAs s a x take outs st fl := by
  unfold movedAs State.putSection
  dsimp only
  rw [State.crew_setCrew, setCrew_setCrew, insert_insert]

theorem applyFiring_run {take : List Nat} {outs : List (Nat × Tok)} {st : ElemState} {fl : Flags}
    (hx : (s.crew a.c).sections.find? a.sec = some x) :
    applyFiring a take outs st fl s = .ok () (movedAs s a x take outs st fl) := by
  unfold applyFiring
  rw [m_bind_ok (getSection_run ..), hx]
  dsimp only
  rw [m_bind_ok (setSection_run ..)]
  unfold movedAs flagged orFstat
  dsimp only
  by_cases hfl : fl = 0
  · rw [if_neg (not_not.mpr hfl), if_pos hfl]
    rfl
  · rw [if_pos hfl, if_neg hfl, m_upd]
    unfold State.putSection
    dsimp only
    rw [State.crew_setCrew, setCrew_setCrew]

/-- What becomes of what an element's body came to. -/
def afterBody (s : State) (a : ElemRef) (x : Section) (f : Fired) : M Unit :=
  match f with
  | .wait => pure ()
  | .fault n => contextFault a.c a.sec a.el n
  | .go take outs st fl => do
    let t ← get
    if canEmit t a.c a.sec x a.el outs then
      applyFiring a take outs st fl
      upd (tookSlot · (s.crew a.c).cl (s.crew a.c).slot (x.place a.el))

theorem fire_of_turn (h : ElemTurn s a x code) : fire code a s = .next (runM (elemBody code a x >>= afterBody s a x) s) := by
  have hgo : ((s.crew a.c).stage == .resident && a.el < x.size && (x.record a.el).op == code &&
      slotTurn s (s.crew a.c).cl (s.crew a.c).slot (x.place a.el)) = true := by
    simp [h.resident, h.inside, h.op, h.turn]
  unfold fire
  simp only [h.found, hgo, if_true]
  refine congrArg Host.Outcome.next (congrFun (congrArg runM (congrArg _ (funext fun f => ?_))) s)
  cases f <;> rfl

theorem fire_waits (h : ElemTurn s a x code) (hb : elemBody code a x s = .ok .wait s1) : fire code a s = .next s1 := by
  rw [fire_of_turn h, runM_ok (s' := s1)]
  rw [m_bind_ok hb]
  rfl

theorem fire_faults (h : ElemTurn s a x code) {n : Nat} (hb : elemBody code a x s = .ok (.fault n) s1) :
    fire code a s = .next (runM (contextFault a.c a.sec a.el n) s1) := by
  rw [fire_of_turn h, runM_ok (s' := runM (contextFault a.c a.sec a.el n) s1)]
  rw [m_bind_ok hb]
  rfl

/-- An element whose body fires leaves the section it finds there with what it moved, and its context has had its turn. -/
theorem fire_moves (h : ElemTurn s a x code) {take : List Nat} {outs : List (Nat × Tok)} {st : ElemState} {fl : Flags}
    (hb : elemBody code a x s = .ok (.go take outs st fl) s1) (hy : (s1.crew a.c).sections.find? a.sec = some y)
    (hfree : canEmit s1 a.c a.sec x a.el outs = true) :
    fire code a s = .next (hadTurn s a x (movedAs s1 a y take outs st fl)) := by
  rw [fire_of_turn h, runM_ok (s' := hadTurn s a x (movedAs s1 a y take outs st fl))]
  rw [m_bind_ok hb]
  unfold afterBody
  dsimp only
  rw [m_bind_ok (m_get _), m_if_pos hfree, m_bind_ok (applyFiring_run hy)]
  rfl

/-- An element whose body only looks fires as the obligations name it. -/
theorem fire_looks (h : ElemTurn s a x code) {take : List Nat} {outs : List (Nat × Tok)} {st : ElemState} {fl : Flags}
    (hb : elemBody code a x s = .ok (.go take outs st fl) s) (hfree : Free s a x outs) :
    fire code a s = .next (firedAs s a x take outs st fl) :=
  fire_moves h hb h.found hfree

end

/-! #### Elements that route (R338, R344) -/

section
variable {s : State} {a : ElemRef} {x : Section}

theorem mem_usedInputs {r : ERec} {i : Nat} (hi : i < 4) (h : r.uses i = true) : i ∈ r.usedInputs :=
  List.mem_filter.mpr ⟨by simp; omega, h⟩

theorem tokAt_of_ready {el i : Nat} {t : Tok} (h : ready x el i = some t) : tokAt x el i = t := by
  unfold tokAt
  rw [h]
  rfl

theorem Ready.some {tag i : Nat} (h : Ready a x tag) (hi : i ∈ (x.record a.el).usedInputs) :
    ready x a.el i = some (tokAt x a.el i) := by
  obtain ⟨t, ht⟩ := Option.ne_none_iff_exists'.mp (h.heads i hi)
  rw [tokAt_of_ready ht, ht]

theorem any_ready_isNone {u : List Nat} {el : Nat} (h : ∀ i ∈ u, ready x el i ≠ none) :
    (u.any fun i => (ready x el i).isNone) = false :=
  List.any_eq_false.mpr fun i hi => by
    rw [Option.isNone_iff_eq_none]
    exact h i hi

/-- An operation whose inputs are ready, and that no guard absorbs, goes by its function. -/
theorem simple_ready {tag : Nat} {f : Section → ERec → ElemState → (Nat → Tok) → List (Nat × Tok) × ElemState × Flags}
    (h : Ready a x tag) :
    simple false f a x = pure (.go (x.record a.el).usedInputs (f x (x.record a.el) (x.elem a.el) (tokAt x a.el)).1
      (f x (x.record a.el) (x.elem a.el) (tokAt x a.el)).2.1 (f x (x.record a.el) (x.elem a.el) (tokAt x a.el)).2.2) := by
  have hwait : ((x.record a.el).usedInputs.isEmpty ||
      ((x.record a.el).usedInputs.map fun i => ready x a.el i).any (·.isNone)) = false := by
    rw [Bool.or_eq_false_iff, List.any_map]
    exact ⟨by simpa using h.used, any_ready_isNone h.heads⟩
  have htags : (((x.record a.el).usedInputs.map fun i => (tokAt x a.el i).tag).any
      fun t => t != ((x.record a.el).usedInputs.map fun i => (tokAt x a.el i).tag).headD 0) = false := by
    have hmap : ((x.record a.el).usedInputs.map fun i => (tokAt x a.el i).tag) =
        (x.record a.el).usedInputs.map fun _ => tag := List.map_congr_left h.tags
    rw [hmap]
    cases (x.record a.el).usedInputs <;> simp
  unfold simple
  simp only [hwait, Bool.false_and, Bool.false_eq_true, if_false]
  exact if_neg (ne_true_of_eq_false htags)

theorem steer_faults {tag : Nat} (h : ElemTurn s a x 0x13) (hr : Ready a x tag) (h0 : (x.record a.el).uses 0 = true)
    (h3 : (x.record a.el).uses 3 = true) (hexit : bit (x.record a.el).param 0 = true) (htag : tag = 0) :
    exec (.elementSteer a.c a.sec a.el) s = .next (runM (contextFault a.c a.sec a.el 1) s) := by
  have hbody : steerBody a x = pure (.fault 1) := by
    unfold steerBody
    simp only [hr.some (mem_usedInputs (by omega) h0), hr.some (mem_usedInputs (by omega) h3), hexit,
      hr.tags 0 (mem_usedInputs (by omega) h0), htag]
    rfl
  exact fire_faults h (congrFun hbody s)

theorem steer_fires {tag : Nat} (h : ElemTurn s a x 0x13) (hr : Ready a x tag) (h0 : (x.record a.el).uses 0 = true)
    (hpass : bit (x.record a.el).param 0 = false ∨ tag ≠ 0) {o : Nat × Tok}
    (ho : (if (tokAt x a.el 3).truth = true then (0, tokAt x a.el 0) else (1, if bit (x.record a.el).param 0 = true then
      (tokAt x a.el 0).lower else tokAt x a.el 0)) = o) (hfree : Free s a x [o]) :
    exec (.elementSteer a.c a.sec a.el) s = .next (firedAs s a x (x.record a.el).usedInputs [o] (x.elem a.el) 0) := by
  have hbody : steerBody a x = pure (.go (x.record a.el).usedInputs [o] (x.elem a.el) 0) := by
    have hno : (bit (x.record a.el).param 0 && (tokAt x a.el 0).tag == 0 && (ready x a.el 3).isSome) = false := by
      rw [hr.tags 0 (mem_usedInputs (by omega) h0)]
      rcases hpass with he | ht
      · rw [he]; rfl
      · simp [ht]
    unfold steerBody
    simp only [hr.some (mem_usedInputs (by omega) h0), hno, Bool.false_eq_true, if_false, simple_ready hr]
    rw [← ho]
  exact fire_looks h (congrFun hbody s) hfree

theorem merge_faults {p t : Tok} (h : ElemTurn s a x 0x14) (hp : ready x a.el 3 = some p)
    (ht : ready x a.el (if p.truth = true then 0 else 1) = some t) (htag : t.tag ≠ p.tag) :
    exec (.elementMerge a.c a.sec a.el) s = .next (runM (contextFault a.c a.sec a.el 1) s) := by
  have hbody : mergeBody a x = pure (.fault 1) := by
    unfold mergeBody
    simp only [hp, ht, bne_iff_ne, ne_eq, htag, not_false_eq_true, if_true]
  exact fire_faults h (congrFun hbody s)

theorem merge_fires {p t : Tok} (h : ElemTurn s a x 0x14) (hp : ready x a.el 3 = some p)
    (ht : ready x a.el (if p.truth = true then 0 else 1) = some t) (htag : t.tag = p.tag) (hfree : Free s a x [(0, t)]) :
    exec (.elementMerge a.c a.sec a.el) s =
      .next (firedAs s a x [if p.truth = true then 0 else 1, 3] [(0, t)] (x.elem a.el) 0) := by
  have hbody : mergeBody a x = pure (.go [if p.truth = true then 0 else 1, 3] [(0, t)] (x.elem a.el) 0) := by
    unfold mergeBody
    simp only [hp, ht, htag, bne_self_eq_false, Bool.false_eq_true, if_false]
  exact fire_looks h (congrFun hbody s) hfree

/-- Before its loop begins, CARRY takes the token of `in0` and raises its tag. -/
theorem carryBody_first {t : Tok} (hf : (x.elem a.el).flag = false) (ht : ready x a.el 0 = some t) :
    carryBody a x = pure (if t.tag = 7 then .fault 1 else .go [0] [(0, t.raise)] { x.elem a.el with flag := true } 0) := by
  unfold carryBody
  simp only [hf, ht]
  rfl

theorem carryBody_last {p : Tok} (hf : (x.elem a.el).flag = true) (hp : ready x a.el 3 = some p) (hv : p.truth = false) :
    carryBody a x = pure (.go [3] [] { x.elem a.el with flag := false } 0) := by
  unfold carryBody
  simp only [hf, hp, hv]
  rfl

theorem carryBody_next {p t : Tok} (hf : (x.elem a.el).flag = true) (hp : ready x a.el 3 = some p) (hv : p.truth = true)
    (ht : ready x a.el 1 = some t) (htag : t.tag = p.tag) : carryBody a x = pure (.go [1, 3] [(0, t)] (x.elem a.el) 0) := by
  unfold carryBody
  simp only [hf, hp, hv, ht, htag, bne_self_eq_false]
  rfl

theorem carry_faults {t : Tok} (h : ElemTurn s a x 0x15) (hf : (x.elem a.el).flag = false) (ht : ready x a.el 0 = some t)
    (htag : t.tag = 7) : exec (.elementCarry a.c a.sec a.el) s = .next (runM (contextFault a.c a.sec a.el 1) s) :=
  fire_faults h (congrFun ((carryBody_first hf ht).trans (by rw [if_pos htag]; rfl)) s)

theorem carry_enters {t : Tok} (h : ElemTurn s a x 0x15) (hf : (x.elem a.el).flag = false) (ht : ready x a.el 0 = some t)
    (htag : t.tag ≠ 7) (hfree : Free s a x [(0, t.raise)]) :
    exec (.elementCarry a.c a.sec a.el) s =
      .next (firedAs s a x [0] [(0, t.raise)] { x.elem a.el with flag := true } 0) :=
  fire_looks h (congrFun ((carryBody_first hf ht).trans (by rw [if_neg htag]; rfl)) s) hfree

theorem carry_leaves {p : Tok} (h : ElemTurn s a x 0x15) (hf : (x.elem a.el).flag = true) (hp : ready x a.el 3 = some p)
    (hv : p.truth = false) :
    exec (.elementCarry a.c a.sec a.el) s = .next (firedAs s a x [3] [] { x.elem a.el with flag := false } 0) :=
  fire_looks h (congrFun (carryBody_last hf hp hv) s) rfl

theorem carry_turns {p t : Tok} (h : ElemTurn s a x 0x15) (hf : (x.elem a.el).flag = true) (hp : ready x a.el 3 = some p)
    (hv : p.truth = true) (ht : ready x a.el 1 = some t) (htag : t.tag = p.tag) (hfree : Free s a x [(0, t)]) :
    exec (.elementCarry a.c a.sec a.el) s = .next (firedAs s a x [1, 3] [(0, t)] (x.elem a.el) 0) :=
  fire_looks h (congrFun (carryBody_next hf hp hv ht htag) s) hfree

/-- What JOIN emits once every used input has its token: one token for each. -/
def joined (a : ElemRef) (x : Section) : List (Nat × Tok) :=
  (List.range (x.record a.el).usedInputs.length).map fun p =>
    (p, .data 0 (tokAt x a.el ((x.record a.el).usedInputs.headD 0)).tag false false 0)

theorem join_fires (h : ElemTurn s a x 0x16) (hu : ∀ i ∈ (x.record a.el).usedInputs, ready x a.el i ≠ none)
    (hfree : Free s a x (joined a x)) :
    exec (.elementJoin a.c a.sec a.el) s = .next (firedAs s a x (x.record a.el).usedInputs (joined a x) (x.elem a.el) 0) := by
  have hbody : joinBody a x = pure (.go (x.record a.el).usedInputs (joined a x) (x.elem a.el) 0) := by
    unfold joinBody
    exact if_neg (ne_true_of_eq_false (any_ready_isNone hu))
  exact fire_looks h (congrFun hbody s) hfree

/-! #### COMMIT (R352) -/

/-- A section that a token has made due what its `COMMIT` asks for. -/
def asked (x : Section) (asks : Bool) : Section := if asks = true then { x with due := x.due ++ [x.nextDue] } else x

theorem commit_fires {t : Tok} (h : ElemTurn s a x 0x1F)
    (ht : ready x a.el (if (x.record a.el).uses 0 = true then 0 else 3) = some t) :
    exec (.elementCommit a.c a.sec a.el) s = .next (firedAs s a
      (asked x (if (if (x.record a.el).uses 0 = true then 0 else 3) = 0 then t.tail else t.truth))
      [if (x.record a.el).uses 0 = true then 0 else 3] [] (x.elem a.el) 0) := by
  generalize hi : (if (x.record a.el).uses 0 = true then 0 else 3) = i at ht ⊢
  have hrun : ∀ asks, (if i = 0 then t.tail else t.truth) = asks → ∃ s1, commitBody a x s = .ok (.go [i] [] (x.elem a.el) 0) s1 ∧
      (s1.crew a.c).sections.find? a.sec = some (asked x asks) ∧
      movedAs s1 a (asked x asks) [i] [] (x.elem a.el) 0 = movedAs s a (asked x asks) [i] [] (x.elem a.el) 0 := by
    intro asks hasks
    cases asks with
    | true =>
      refine ⟨s.putSection a.c a.sec (asked x true), ?_, ?_, movedAs_putSection ..⟩
      · unfold commitBody
        simp only [hi, ht, hasks]
        rfl
      · rw [sections_putSection, Tbl.find?_insert_same]
    | false =>
      refine ⟨s, ?_, h.found, rfl⟩
      unfold commitBody
      simp only [hi, ht, hasks]
      rfl
  obtain ⟨s1, hb, hy, hmoved⟩ := hrun _ rfl
  show fire 0x1F a s = _
  rw [fire_moves h hb hy rfl, hmoved]
  unfold firedAs hadTurn
  have hplace : ∀ b, (asked x b).place a.el = x.place a.el := fun b => by cases b <;> rfl
  rw [hplace]

end

/-! #### WIDEN (R128) -/

section
variable {s : State} {a : ElemRef} {x : Section}

theorem widenRelease_crews (s : State) (a : ElemRef) (x : Section) : (widenRelease s a x).crews = s.crews :=
  (congrArg State.crews (releaseNames_rest s ..) :)

@[simp] theorem widenRelease_crew (s : State) (a : ElemRef) (x : Section) (c : Nat) : (widenRelease s a x).crew c = s.crew c := by
  unfold State.crew
  rw [widenRelease_crews]

theorem widenRelease_clusters (s : State) (a : ElemRef) (x : Section) : (widenRelease s a x).clusters = s.clusters :=
  (congrArg State.clusters (releaseNames_rest s ..) :)

@[simp] theorem widenedBy_place (x : Section) (el i : Nat) : (widenedBy x el).place i = x.place i := by
  unfold widenedBy
  split <;> rfl

theorem widenedBy_entriesAt (x : Section) (el : Nat) (p : Nat × Nat) : (widenedBy x el).entriesAt p = x.entriesAt p := by
  unfold widenedBy
  split <;> rfl

/-- A listed value replaced by one that a function reads alike: the function reads the table alike. -/
theorem map_insert_of_eq {α β : Type} {t : Tbl α} {k : Nat} {v w : α} {f : Nat × α → β} (ht : t.sorted = true)
    (hv : t.find? k = some v) (hf : f (k, w) = f (k, v)) : (t.insert k w).map f = t.map f := by
  have hmap (u : Tbl α) : (u.insert k w).map f = (u.insert k v).map f := by
    induction u with
    | nil => simp [Tbl.insert, hf]
    | cons e u ih =>
      simp only [Tbl.insert]
      split
      · simp [hf]
      · split
        · simp [hf]
        · simp [ih]
  have hsame : t.insert k v = t := Tbl.ext_of_find? (Tbl.sorted_insert ht k v) ht fun j => by
    by_cases hj : j = k
    · rw [hj, Tbl.find?_insert_same, hv]
    · rw [Tbl.find?_insert_other t v hj]
  rw [hmap, hsame]

theorem entriesUsed_congr {s t : State} {cl : Nat} (hcl : t.clusters = s.clusters)
    (hcrew : ∀ c p, ((t.crew c).sections.map fun y => y.2.entriesAt p) = (s.crew c).sections.map fun y => y.2.entriesAt p)
    (p : Nat × Nat) : entriesUsed t cl p = entriesUsed s cl p := by
  unfold entriesUsed State.cluster
  rw [hcl]
  simp only [hcrew]

theorem portFree_congr {s t : State} {cl el port : Nat} (h : ∀ p, entriesUsed t cl p = entriesUsed s cl p) :
    portFree t cl x el port = portFree s cl x el port := by
  unfold portFree
  simp only [h]

/-- What a token or a marker that passes WIDEN leaves, up to where its section stands again. -/
structure Widened (s : State) (a : ElemRef) (x : Section) (t : State) : Prop where
  found : (t.crew a.c).sections.find? a.sec = some (widenedBy x a.el)
  cl : (t.crew a.c).cl = (s.crew a.c).cl
  moved : ∀ y take outs st fl, movedAs t a y take outs st fl = movedAs (widenRelease s a x) a y take outs st fl
  used : Tbl.sorted (s.crew a.c).sections = true → ∀ cl p, entriesUsed t cl p = entriesUsed s cl p

theorem widened_released (hx : (s.crew a.c).sections.find? a.sec = some x) (hd : x.dest a.el 0 = none) :
    Widened s a x (widenRelease s a x) where
  found := by
    rw [widenRelease_crew, hx]
    unfold widenedBy
    rw [hd]
  cl := by rw [widenRelease_crew]
  moved := fun _ _ _ _ _ => rfl
  used := fun _ _ => entriesUsed_congr (widenRelease_clusters ..) fun c p => by rw [widenRelease_crew]

theorem widened_put (hx : (s.crew a.c).sections.find? a.sec = some x) :
    Widened s a x ((widenRelease s a x).putSection a.c a.sec (widenedBy x a.el)) where
  found := by rw [sections_putSection, Tbl.find?_insert_same]
  cl := by
    unfold State.putSection
    rw [State.crew_setCrew, widenRelease_crew]
  moved := fun _ _ _ _ _ => movedAs_putSection ..
  used := fun hs cl => entriesUsed_congr (widenRelease_clusters ..) fun c p => by
    by_cases hc : c = a.c
    · rw [hc, sections_putSection, widenRelease_crew]
      exact map_insert_of_eq hs hx (widenedBy_entriesAt ..)
    · unfold State.putSection
      rw [State.crew_setCrew_other _ _ hc, widenRelease_crew]

theorem widenPass_run (hx : (s.crew a.c).sections.find? a.sec = some x) : ∃ t, widenPass a x s = .ok () t ∧ Widened s a x t := by
  unfold widenPass
  rw [m_bind_ok (m_upd ..)]
  cases hd : x.dest a.el 0 with
  | none => exact ⟨_, rfl, widened_released hx hd⟩
  | some d =>
    refine ⟨_, ?_, widened_put hx⟩
    have hfound : ((widenRelease s a x).crew a.c).sections.find? a.sec = some x := by rw [widenRelease_crew, hx]
    unfold widenedBy
    rw [hd]
    dsimp only
    rw [m_bind_ok (getSection_run ..)]
    unfold widenRelease at hfound ⊢
    rw [hfound]
    rfl

theorem widen_fires {t : Tok} (h : ElemTurn s a x 0x18) (hs : Tbl.sorted (s.crew a.c).sections = true)
    (ht : ready x a.el 0 = some t) (hfree : Free s a x [(0, t)]) :
    exec (.elementWiden a.c a.sec a.el) s =
      .next (firedAs (widenRelease s a x) a (widenedBy x a.el) [0] [(0, t)] (x.elem a.el) 0) := by
  obtain ⟨s1, hpass, hw⟩ := widenPass_run h.found
  have hb : widenBody a x s = .ok (.go [0] [(0, t)] (x.elem a.el) 0) s1 := by
    have hport : portFree s (s.crew a.c).cl x a.el 0 = true := hfree
    unfold widenBody
    simp only [ht]
    rw [m_bind_ok (portIsFree_run ..), m_if_neg (by simp [hport]), m_bind_ok hpass]
    rfl
  have hfree1 : canEmit s1 a.c a.sec x a.el [(0, t)] = true := by
    show portFree s1 (s1.crew a.c).cl x a.el 0 = true
    rw [hw.cl, portFree_congr (hw.used hs _)]
    exact hfree
  show fire 0x18 a s = _
  rw [fire_moves h hb hw.found hfree1, hw.moved]
  unfold firedAs hadTurn
  rw [widenRelease_crew, widenedBy_place]

end

/-! #### Sources (R340, R346, R347) -/

section
variable {s s1 : State} {a : ElemRef} {x y : Section}

theorem portFree_of_free {t : Tok} {p : Nat} (h : Free s a x [(p, t)]) : portFree s (s.crew a.c).cl x a.el p = true := h

theorem isEmpty_of_cons {α : Type} {l : List α} {e : α} {es : List α} (h : l = e :: es) : (!l.isEmpty) = true := by rw [h]; rfl

theorem movedAs_zero (s : State) (a : ElemRef) (x : Section) (take : List Nat) (outs : List (Nat × Tok)) (st : ElemState) :
    movedAs s a x take outs st 0 = s.putSection a.c a.sec (((x.consume a.el take).emit a.el outs).setElem a.el st) := rfl

/-- A source that owes a marker and has room for it emits it, and fires nothing. -/
theorem emitMark_run {st : ElemState} {m : Nat} (hwait : x.waitingMarks a.el < 2) (hfree : Free s a x [(0, .marker m)])
    (hrec : recordMarker a.c a.sec a.el m (movedAs s a x [] [(0, .marker m)] { st with mark := none } 0) = .ok () s1) :
    emitMark a x st m s = .ok .wait s1 := by
  have hgo : (decide (2 ≤ x.waitingMarks a.el) || !portFree s (s.crew a.c).cl x a.el 0) = false := by
    rw [portFree_of_free hfree, decide_eq_false (by omega)]
    rfl
  unfold emitMark
  rw [m_bind_ok (portIsFree_run ..), m_if_neg (ne_true_of_eq_false hgo), m_bind_ok (setSection_run ..)]
  exact m_bind_ok hrec

theorem emitNext_source {st : ElemState} {t : Tok} {rest : List Tok} {take : List Nat} (h : st.out = t :: rest) :
    emitNext x take st true = .go take [(0, t)] (sourceAfter x st t rest) 0 := by
  unfold emitNext sourceAfter
  simp only [h, Bool.true_and]

theorem emitNext_other {st : ElemState} {t : Tok} {rest : List Tok} {take : List Nat} (h : st.out = t :: rest) :
    emitNext x take st false = .go take [(0, t)] { st with out := rest } 0 := by
  unfold emitNext
  simp only [h, Bool.false_and]
  rfl

/-- What a source has made before does not show in its state after a token of new ones. -/
theorem sourceAfter_out (x : Section) (st : ElemState) (l : List Tok) (t : Tok) (rest : List Tok) :
    sourceAfter x { st with out := l } t rest = sourceAfter x st t rest := rfl

theorem src_marks {m : Nat} (h : ElemTurn s a x 0x01) (hm : (x.elem a.el).mark = some m) (hwait : x.waitingMarks a.el < 2)
    (hfree : Free s a x [(0, .marker m)])
    (hrec : recordMarker a.c a.sec a.el m (movedAs s a x [] [(0, .marker m)] { x.elem a.el with mark := none } 0) = .ok () s1) :
    exec (.elementSrc a.c a.sec a.el) s = .next s1 := by
  refine fire_waits h ?_
  show srcBody a x s = _
  unfold srcBody
  simp only [hm]
  exact emitMark_run hwait hfree hrec

theorem src_nexts {t : Tok} {rest : List Tok} (h : ElemTurn s a x 0x01) (hm : (x.elem a.el).mark = none)
    (ho : (x.elem a.el).out = t :: rest) (hfree : Free s a x [(0, t)]) :
    exec (.elementSrc a.c a.sec a.el) s = .next (firedAs s a x [] [(0, t)] (sourceAfter x (x.elem a.el) t rest) 0) := by
  refine fire_looks h ?_ hfree
  show srcBody a x s = _
  unfold srcBody
  simp only [hm]
  rw [m_bind_ok (portIsFree_run ..), m_if_neg (by rw [portFree_of_free hfree]; decide), m_if_pos (isEmpty_of_cons ho),
    emitNext_source ho]
  rfl

theorem src_waits {o : Tok} (h : ElemTurn s a x 0x01) (hm : (x.elem a.el).mark = none) (ho : (x.elem a.el).out = [])
    (hadm : admitted x (x.elem a.el) = false) (hfree : Free s a x [(0, o)]) :
    exec (.elementSrc a.c a.sec a.el) s = .next s := by
  refine fire_waits h ?_
  show srcBody a x s = _
  unfold srcBody
  simp only [hm]
  rw [m_bind_ok (portIsFree_run ..), m_if_neg (by rw [portFree_of_free hfree]; decide), m_if_neg (by rw [ho]; decide),
    m_if_pos (by rw [hadm]; rfl)]
  rfl

/-- A source that may take an entry takes the first of its queue, or faults at a poisoned one. -/
theorem srcBody_entry {v : Queue} {o : Tok} {e : QEntry} {es : List QEntry} (hm : (x.elem a.el).mark = none)
    (ho : (x.elem a.el).out = []) (hadm : admitted x (x.elem a.el) = true) (hfree : Free s a x [(0, o)])
    (hv : queueOf s a.c (bits (x.record a.el).param 5 0) = v) (hok : queueRefuses v 8 v.width false = none)
    (he : v.entries = e :: es) :
    srcBody a x s = (do
      if e.p then return .fault 7
      setQueue a.c (bits (x.record a.el).param 5 0) (v.popped e es)
      return emitNext x [] { beginTile (x.elem a.el) with
        out := wordTokens e.h e.t (wordsOf e.data), moved := (x.elem a.el).moved + 1 } true : M Fired) s := by
  unfold srcBody
  simp only [hm]
  rw [m_bind_ok (portIsFree_run ..), m_if_neg (by rw [portFree_of_free hfree]; decide), m_if_neg (by rw [ho]; decide),
    m_if_neg (by rw [hadm]; decide), m_bind_ok (getQueue_run ..), hv, hok, he]

theorem src_faults {v : Queue} {o : Tok} {e : QEntry} {es : List QEntry} (h : ElemTurn s a x 0x01)
    (hm : (x.elem a.el).mark = none) (ho : (x.elem a.el).out = []) (hadm : admitted x (x.elem a.el) = true)
    (hfree : Free s a x [(0, o)]) (hv : queueOf s a.c (bits (x.record a.el).param 5 0) = v)
    (hok : queueRefuses v 8 v.width false = none) (he : v.entries = e :: es) (hp : e.p = true) :
    exec (.elementSrc a.c a.sec a.el) s = .next (runM (contextFault a.c a.sec a.el 7) s) :=
  fire_faults h ((srcBody_entry hm ho hadm hfree hv hok he).trans ((m_if_pos hp).trans rfl))

theorem withQueue_sections (s : State) (c q : Nat) (v : Queue) : ((withQueue s c q v).crew c).sections = (s.crew c).sections := by
  unfold withQueue
  rw [State.crew_setCrew]

theorem withQueue_place (s : State) (c q : Nat) (v : Queue) :
    ((withQueue s c q v).crew c).cl = (s.crew c).cl ∧ ((withQueue s c q v).crew c).slot = (s.crew c).slot := by
  unfold withQueue
  rw [State.crew_setCrew]
  exact ⟨rfl, rfl⟩

/-- A queue's change leaves the room for a token as it is. -/
theorem free_withQueue {q : Nat} {v : Queue} {o : Nat × Tok} (h : Free s a x [o]) :
    canEmit (withQueue s a.c q v) a.c a.sec x a.el [o] = true := by
  show portFree _ ((withQueue s a.c q v).crew a.c).cl x a.el o.1 = true
  rw [(withQueue_place s a.c q v).1, portFree_congr (s := s)]
  · exact h
  · refine entriesUsed_congr rfl fun c p => ?_
    by_cases hc : c = a.c
    · rw [hc, withQueue_sections]
    · unfold withQueue
      rw [State.crew_setCrew_other _ _ hc]

/-- A firing whose body changed a queue of the crew. -/
theorem fire_queues {code q : Nat} {v : Queue} {take : List Nat} {outs : List (Nat × Tok)} {st : ElemState} {fl : Flags}
    (h : ElemTurn s a x code) (hb : elemBody code a x s = .ok (.go take outs st fl) (withQueue s a.c q v))
    (hfree : canEmit (withQueue s a.c q v) a.c a.sec x a.el outs = true) :
    fire code a s = .next (firedAs (withQueue s a.c q v) a x take outs st fl) := by
  rw [fire_moves h hb ((congrArg (Tbl.find? · a.sec) (withQueue_sections ..)).trans h.found) hfree]
  unfold firedAs hadTurn
  obtain ⟨hcl, hslot⟩ := withQueue_place s a.c q v
  rw [hcl, hslot]

theorem src_takes {v : Queue} {t : Tok} {rest : List Tok} {e : QEntry} {es : List QEntry} (h : ElemTurn s a x 0x01)
    (hm : (x.elem a.el).mark = none) (ho : (x.elem a.el).out = []) (hadm : admitted x (x.elem a.el) = true)
    (hfree : Free s a x [(0, t)]) (hv : queueOf s a.c (bits (x.record a.el).param 5 0) = v)
    (hok : queueRefuses v 8 v.width false = none) (he : v.entries = e :: es) (hp : e.p = false)
    (hw : wordTokens e.h e.t (wordsOf e.data) = t :: rest) :
    exec (.elementSrc a.c a.sec a.el) s =
      .next (firedAs (withQueue s a.c (bits (x.record a.el).param 5 0) (v.popped e es)) a x [] [(0, t)]
        (sourceAfter x { beginTile (x.elem a.el) with moved := (x.elem a.el).moved + 1 } t rest) 0) := by
  refine fire_queues h ?_ (free_withQueue hfree)
  refine (srcBody_entry hm ho hadm hfree hv hok he).trans ((m_if_neg (ne_true_of_eq_false hp)).trans ?_)
  rw [m_bind_ok (setQueue_run ..), emitNext_source (t := t) (rest := rest) hw]
  rfl

/-! #### Sinks (R340, R355) -/

/-- A sink has a token, and where it has a guard, one of the token's tag. -/
structure SinkReady (a : ElemRef) (x : Section) (t : Tok) : Prop where
  token : ready x a.el 0 = some t
  guard : (x.record a.el).uses 3 = true → ready x a.el 3 ≠ none ∧ (tokAt x a.el 3).tag = t.tag

/-- The words of a sink's entry with a token's. -/
def sinkWords (a : ElemRef) (x : Section) (t : Tok) : List Nat := (x.elem a.el).nums ++ [t.bits]

/-- The head mark of a sink's entry with a token more. -/
def sinkHead (a : ElemRef) (x : Section) (t : Tok) : Bool := if (x.elem a.el).nums = [] then t.headMark else (x.elem a.el).head

/-- A false guard absorbs what a sink would take. -/
theorem snkBody_guarded {t : Tok} (hr : SinkReady a x t) (h3 : (x.record a.el).uses 3 = true)
    (hno : (tokAt x a.el 3).truth = false) : snkBody a x s = .ok (.go (x.record a.el).usedInputs [] (x.elem a.el) 0) s := by
  obtain ⟨g, hg⟩ := Option.ne_none_iff_exists'.mp (hr.guard h3).1
  have htag := (hr.guard h3).2
  rw [tokAt_of_ready hg] at htag hno
  unfold snkBody
  rw [m_bind_ok (getQueue_run ..)]
  simp only [hr.token, hg, h3, htag, hno, Option.isNone_some, Option.getD_some, bne_self_eq_false, Bool.and_false,
    Bool.not_false, Bool.and_self, Bool.false_eq_true, if_false, if_true]
  rfl

/-- A sink whose token counts: it joins its entry, which is held once it is full or closed. -/
theorem snkBody_counts {t : Tok} (hr : SinkReady a x t)
    (hyes : (x.record a.el).uses 3 = false ∨ (tokAt x a.el 3).truth = true) {v : Queue}
    (hv : queueOf s a.c (bits (x.record a.el).param 5 0) = v) :
    snkBody a x s = (if (t.tail || (sinkWords a x t).length * 4 == entryBytes v.width) = true then
      match holdEntry v (sinkWords a x t) (sinkHead a x t) t.tail with
      | .error (some n) => return .fault n
      | .error none => return .wait
      | .ok v' => do
        setQueue a.c (bits (x.record a.el).param 5 0) v'
        return .go (x.record a.el).usedInputs [] { x.elem a.el with nums := [], head := false, moved := (x.elem a.el).moved + 1 } 0
      else return .go (x.record a.el).usedInputs []
                    { x.elem a.el with nums := sinkWords a x t, head := sinkHead a x t } 0 : M Fired) s := by
  have h1 : ((x.record a.el).uses 3 && (ready x a.el 3).isNone) = false := by
    cases h3 : (x.record a.el).uses 3
    · rfl
    · exact Option.isNone_eq_false_iff.mpr (Option.isSome_iff_ne_none.mpr (hr.guard h3).1)
  have h2 : ((x.record a.el).uses 3 && ((ready x a.el 3).getD (.pred true t.tag)).tag != t.tag) = false ∧
      ((x.record a.el).uses 3 && !((ready x a.el 3).getD (.pred true t.tag)).truth) = false := by
    cases h3 : (x.record a.el).uses 3
    · exact ⟨rfl, rfl⟩
    · obtain ⟨g, hg⟩ := Option.ne_none_iff_exists'.mp (hr.guard h3).1
      have htag := (hr.guard h3).2
      have htruth := hyes.resolve_left (by rw [h3]; decide)
      rw [tokAt_of_ready hg] at htag htruth
      simp [hg, htag, htruth]
  have hhead : (if (x.elem a.el).nums.isEmpty = true then t.headMark else (x.elem a.el).head) = sinkHead a x t := by
    unfold sinkHead
    simp only [List.isEmpty_iff]
  unfold snkBody
  rw [m_bind_ok (getQueue_run ..)]
  simp only [hr.token, h1, h2.1, h2.2, hv, hhead, Bool.false_eq_true, if_false]
  rfl

theorem snk_absorbs {t : Tok} (h : ElemTurn s a x 0x02) (hr : SinkReady a x t) (h3 : (x.record a.el).uses 3 = true)
    (hno : (tokAt x a.el 3).truth = false) :
    exec (.elementSnk a.c a.sec a.el) s = .next (firedAs s a x (x.record a.el).usedInputs [] (x.elem a.el) 0) :=
  fire_looks h (snkBody_guarded hr h3 hno) rfl

theorem snk_keeps {t : Tok} (h : ElemTurn s a x 0x02) (hr : SinkReady a x t)
    (hyes : (x.record a.el).uses 3 = false ∨ (tokAt x a.el 3).truth = true) (ht : t.tail = false)
    (hn : (sinkWords a x t).length * 4 ≠ entryBytes (queueOf s a.c (bits (x.record a.el).param 5 0)).width) :
    exec (.elementSnk a.c a.sec a.el) s = .next (firedAs s a x (x.record a.el).usedInputs []
      { x.elem a.el with nums := sinkWords a x t, head := sinkHead a x t } 0) := by
  refine fire_looks h ((snkBody_counts hr hyes rfl).trans (m_if_neg ?_)) rfl
  simp only [ht, Bool.false_or, beq_iff_eq]
  exact hn

/-- A sink's entry that a token fills or closes: it is held, or the sink waits or faults. -/
theorem snk_full {t : Tok} (h : ElemTurn s a x 0x02) (hr : SinkReady a x t)
    (hyes : (x.record a.el).uses 3 = false ∨ (tokAt x a.el 3).truth = true) {v : Queue}
    (hv : queueOf s a.c (bits (x.record a.el).param 5 0) = v)
    (hn : t.tail = true ∨ (sinkWords a x t).length * 4 = entryBytes v.width) :
    (∀ v', holdEntry v (sinkWords a x t) (sinkHead a x t) t.tail = .ok v' → exec (.elementSnk a.c a.sec a.el) s =
      .next (firedAs (withQueue s a.c (bits (x.record a.el).param 5 0) v') a x (x.record a.el).usedInputs []
        { x.elem a.el with nums := [], head := false, moved := (x.elem a.el).moved + 1 } 0)) ∧
    (holdEntry v (sinkWords a x t) (sinkHead a x t) t.tail = .error none → exec (.elementSnk a.c a.sec a.el) s = .next s) ∧
    (∀ n, holdEntry v (sinkWords a x t) (sinkHead a x t) t.tail = .error (some n) →
      exec (.elementSnk a.c a.sec a.el) s = .next (runM (contextFault a.c a.sec a.el n) s)) := by
  have hb := (snkBody_counts hr hyes hv).trans (m_if_pos (by rw [Bool.or_eq_true, beq_iff_eq]; exact hn))
  refine ⟨fun v' hh => fire_queues h ?_ rfl, fun hh => fire_waits h ?_, fun n hh => fire_faults h ?_⟩
  · exact hb.trans (by rw [hh]; rfl)
  · exact hb.trans (by rw [hh]; rfl)
  · exact hb.trans (by rw [hh]; rfl)

/-! #### Address generators (R341-R343) -/

/-- A reading AGEN that owes no marker and has room for a token goes on by what it has made, its mode and its inputs. -/
theorem agenBody_reads {t : Tok} (hmode : bits (x.record a.el).param 4 3 ≠ 1) (hm : (x.elem a.el).mark = none)
    (hfree : Free s a x [(0, t)]) :
    agenBody a x s = (if (!(x.elem a.el).out.isEmpty) = true then pure (emitNext x [] (x.elem a.el) (x.record a.el).isSource)
      else if bits (x.record a.el).param 4 3 = 2 then pure (agenWalk a x (x.elem a.el))
      else if (x.record a.el).uses 0 = true then agenIndexed a x (x.elem a.el)
      else agenSource a x (x.elem a.el)) s := by
  unfold agenBody
  rw [m_if_neg hmode]
  simp only [hm]
  rw [m_bind_ok (portIsFree_run ..), m_if_neg (by rw [portFree_of_free hfree]; decide)]

/-- An AGEN's state once it has emitted a token: only a source's tile ends by it. -/
theorem agen_emits {t : Tok} {rest : List Tok} (h : ElemTurn s a x 0x03) (hmode : bits (x.record a.el).param 4 3 ≠ 1)
    (hm : (x.elem a.el).mark = none) (ho : (x.elem a.el).out = t :: rest) (hfree : Free s a x [(0, t)]) :
    exec (.elementAgen a.c a.sec a.el) s = .next (firedAs s a x [] [(0, t)]
      (if (x.record a.el).isSource = true then sourceAfter x (x.elem a.el) t rest else { x.elem a.el with out := rest }) 0) := by
  refine fire_looks h ((agenBody_reads hmode hm hfree).trans ((m_if_pos (isEmpty_of_cons ho)).trans ?_)) hfree
  cases hsrc : (x.record a.el).isSource
  · rw [emitNext_other ho]
    rfl
  · rw [emitNext_source ho]
    rfl

theorem agen_walks {t : Tok} {rest : List Tok} (h : ElemTurn s a x 0x03) (hmode : bits (x.record a.el).param 4 3 = 2)
    (hm : (x.elem a.el).mark = none) (ho : (x.elem a.el).out = []) (hadm : admitted x (x.elem a.el) = true)
    (hfree : Free s a x [(0, t)])
    (hw : ((List.range (agenDesc x a.el).box.count).map fun p => Tok.data (BitVec.ofNat 32 p) 0 false
      (decide (p + 1 = (agenDesc x a.el).box.count)) ((agenDesc x a.el).box.endBits ((agenDesc x a.el).box.coords p))) = t :: rest) :
    exec (.elementAgen a.c a.sec a.el) s =
      .next (firedAs s a x [] [(0, t)] (sourceAfter x (beginTile (x.elem a.el)) t rest) 0) := by
  refine fire_looks h ((agenBody_reads (by omega) hm hfree).trans ((m_if_neg (by rw [ho]; decide)).trans ((m_if_pos hmode).trans ?_))) hfree
  have hwalk : agenWalk a x (x.elem a.el) = .go [] [(0, t)] (sourceAfter x (beginTile (x.elem a.el)) t rest) 0 := by
    unfold agenWalk
    simp only [hadm, Bool.not_true, Bool.false_eq_true, if_false]
    rw [emitNext_source (t := t) (rest := rest) hw]
    rfl
  rw [hwalk]
  rfl

theorem agen_tiles {bs : List Byte} {t : Tok} {rest : List Tok} (h : ElemTurn s a x 0x03) (hmode : bits (x.record a.el).param 4 3 = 0)
    (h0 : (x.record a.el).uses 0 = false) (hm : (x.elem a.el).mark = none) (ho : (x.elem a.el).out = [])
    (hadm : admitted x (x.elem a.el) = true) (hkind : (agenDesc x a.el).kind = 0)
    (hpos : (x.elem a.el).pos < (agenDesc x a.el).box.count) (hread : agenTile a x (x.elem a.el).pos s = .ok (.bytes bs) s1)
    (hx : (s1.crew a.c).sections.find? a.sec = some x) (hfree : Free s a x [(0, t)]) (hfree1 : Free s1 a x [(0, t)])
    (hw : wordTokens true true (wordsOf bs) = t :: rest) :
    exec (.elementAgen a.c a.sec a.el) s = .next (hadTurn s a x (movedAs s1 a x [] [(0, t)]
      (sourceAfter x { beginTile (x.elem a.el) with pos := (x.elem a.el).pos + 1 } t rest) 0)) := by
  refine fire_moves h ((agenBody_reads (by omega) hm hfree).trans ((m_if_neg (by rw [ho]; decide)).trans
    ((m_if_neg (by omega)).trans ((m_if_neg (ne_true_of_eq_false h0)).trans ?_)))) hx hfree1
  have hgo : (!admitted x (x.elem a.el) || (agenDesc x a.el).kind == 0 && decide ((agenDesc x a.el).box.count ≤ (x.elem a.el).pos)) =
      false := by
    rw [hadm, decide_eq_false (by omega), Bool.and_false]
    rfl
  unfold agenSource
  dsimp only
  rw [m_if_neg (ne_true_of_eq_false hgo), if_pos hkind, m_bind_ok hread]
  dsimp only
  rw [emitNext_source (t := t) (rest := rest) hw]
  rfl

theorem agen_banks {t i : Tok} (h : ElemTurn s a x 0x03) (hmode : bits (x.record a.el).param 4 3 = 1)
    (h1 : (x.record a.el).uses 1 = true) (h3 : (x.record a.el).uses 3 = false) (hkind : (agenDesc x a.el).kind = 1)
    (ht : ready x a.el 0 = some t) (hi : ready x a.el 1 = some i) (htag : i.tag = t.tag)
    (hbank : (s.crew a.c).banks.getD (agenDesc x a.el).bank 0 = a.sec + 1)
    (hlen : 4 * i.bits + 4 ≤ (agenDesc x a.el).length)
    (hlog : logWrite (s.crew a.c) x a.el true (cellsAt ((agenDesc x a.el).bank * 524288 + (agenDesc x a.el).offset + 4 * i.bits)
      (leBytes 4 t.bits)) (x.elem a.el) = some y) :
    exec (.elementAgen a.c a.sec a.el) s =
      .next (firedAs s a y [0, 1] [] { x.elem a.el with moved := (x.elem a.el).moved + 1 } 0) := by
  have hbody : agenBody a x s = .ok (.go [0, 1] [] { x.elem a.el with moved := (x.elem a.el).moved + 1 } 0)
      (s.putSection a.c a.sec y) := by
    unfold agenBody
    rw [m_if_pos hmode]
    unfold agenWrite
    rw [m_bind_ok (m_get _)]
    have hready : [0, 1].any (fun j => (ready x a.el j).isNone) = false := by simp [ht, hi]
    have htags : [0, 1].any (fun j => ((ready x a.el j).getD (.pred true 0)).tag != t.tag) = false := by simp [ht, hi, htag]
    have hidx : ((x.record a.el).uses 1 && ((x.elem a.el).nums.isEmpty || (agenDesc x a.el).kind == 1)) = true := by simp [h1, hkind]
    simp only [ht, hidx, h3, if_true, Bool.false_eq_true, if_false, List.append_nil, List.cons_append, List.nil_append,
      Bool.false_and]
    rw [m_if_neg (ne_true_of_eq_false hready), m_if_neg (ne_true_of_eq_false htags), m_if_neg (by omega), m_if_neg (by simp [hbank])]
    simp only [hi, Option.getD_some, hlog, h1, if_true]
    rw [m_if_neg (by omega)]
    rfl
  have hplace : y.place a.el = x.place a.el := by
    unfold logWrite at hlog
    split at hlog
    · cases hlog
    · rw [← Option.some.inj hlog]
      rfl
  show fire 0x03 a s = _
  rw [fire_moves h hbody (by rw [sections_putSection, Tbl.find?_insert_same]) rfl, movedAs_putSection]
  unfold firedAs hadTurn
  rw [hplace]

end

/-! #### Markers (R348, R349) -/

section
variable {s s1 : State} {a : ElemRef} {x : Section} {m : Nat}

theorem mapM_option_mem {α β : Type} {f : α → Option β} {u : List α} {l : List β} (h : u.mapM f = some l) :
    ∀ i ∈ u, ∃ v ∈ l, f i = some v := by
  induction u generalizing l with
  | nil => simp
  | cons j u ih =>
    rw [List.mapM_cons] at h
    obtain ⟨v, hv, h⟩ := Option.bind_eq_some_iff.mp h
    obtain ⟨l', hl, h⟩ := Option.bind_eq_some_iff.mp h
    obtain rfl := Option.some.inj h
    intro i hi
    rcases List.mem_cons.mp hi with rfl | hi
    · exact ⟨v, List.mem_cons_self, hv⟩
    · obtain ⟨w, hw, hf⟩ := ih hl i hi
      exact ⟨w, List.mem_cons_of_mem _ hw, hf⟩

theorem mapM_option_const {α β : Type} {f : α → Option β} {u : List α} {m : β} (h : ∀ i ∈ u, f i = some m) :
    u.mapM f = some (u.map fun _ => m) := by
  induction u with
  | nil => rfl
  | cons j u ih =>
    rw [List.mapM_cons, h j List.mem_cons_self, ih fun i hi => h i (List.mem_cons_of_mem _ hi)]
    rfl

/-- The element of a resident crew's section has an operation. -/
structure ElemThere (s : State) (a : ElemRef) (x : Section) : Prop where
  resident : (s.crew a.c).stage = .resident
  found : (s.crew a.c).sections.find? a.sec = some x
  inside : a.el < x.size
  works : (x.record a.el).op ≠ 0

theorem markerForward_runs (h : ElemThere s a x) :
    exec (.markerForward a.c a.sec a.el) s = .next (runM (markerStep a x) s) := by
  have hgo : ((s.crew a.c).stage == .resident && a.el < x.size && (x.record a.el).op != 0) = true := by
    simp [h.resident, h.inside, h.works]
  show execMarkerForward a.c a.sec a.el s = _
  unfold execMarkerForward
  simp only [h.found, hgo, if_true]

theorem markerForward_ok (h : ElemThere s a x) (hm : markerStep a x s = .ok () s1) :
    exec (.markerForward a.c a.sec a.el) s = .next s1 := by
  rw [markerForward_runs h, runM_ok hm]

/-- The marker as it leaves on every connected port. -/
def markerOuts (a : ElemRef) (x : Section) (m : Nat) : List (Nat × Tok) := (x.ports a.el).map fun p => (p, .marker m)

/-- A marker of every used input does not move where one has none, or where two differ. -/
theorem markerStep_uneven (hop : (x.record a.el).op ≠ 0x15) (h : ∀ m, ∃ i ∈ (x.record a.el).usedInputs, markAt x a.el i ≠ some m) :
    markerStep a x s = .ok () s := by
  unfold markerStep
  rw [m_if_neg hop]
  cases hl : (x.record a.el).usedInputs.mapM fun i => markAt x a.el i with
  | none => rfl
  | some l =>
    cases l with
    | nil => rfl
    | cons m rest =>
      refine (m_if_pos ?_).trans rfl
      by_contra hrest
      obtain ⟨i, hi, hne⟩ := h m
      obtain ⟨v, hv, hf⟩ := mapM_option_mem hl i hi
      rcases List.mem_cons.mp hv with rfl | hv
      · exact hne hf
      · refine hrest (List.any_eq_true.mpr ⟨v, hv, ?_⟩)
        simp only [bne_iff_ne, ne_eq]
        rintro rfl
        exact hne hf

/-- A marker that stands at every used input of an element that is no sink is forwarded from all of them. -/
theorem markerStep_even (hop : (x.record a.el).op ≠ 0x15) (hsink : (x.record a.el).isSink = false)
    (hu : (x.record a.el).usedInputs ≠ []) (hm : ∀ i ∈ (x.record a.el).usedInputs, markAt x a.el i = some m) :
    markerStep a x s = (if (x.elem a.el).out.isEmpty = true then
      forwardFrom a x (x.record a.el).usedInputs m (x.elem a.el) else pure ()) s := by
  unfold markerStep
  rw [m_if_neg hop, mapM_option_const hm]
  obtain ⟨i, u, hcons⟩ := List.exists_cons_of_ne_nil hu
  rw [hcons]
  refine (m_if_neg ?_).trans (m_if_neg (ne_true_of_eq_false hsink))
  simp

theorem forwardFrom_waits {take : List Nat} {st : ElemState} (h : 2 ≤ x.waitingMarks a.el) :
    forwardFrom a x take m st s = .ok () s := by
  unfold forwardFrom
  rw [m_bind_ok (m_get _), m_if_neg (by simp; omega)]
  rfl

/-- A marker that an element has room for is put on its connected ports, past a WIDEN as a token is, and recorded. -/
theorem forwardFrom_run {take : List Nat} {st : ElemState} (hx : (s.crew a.c).sections.find? a.sec = some x)
    (hwait : x.waitingMarks a.el < 2) (hfree : Free s a x (markerOuts a x m)) (hop : (x.record a.el).op ≠ 0x18) :
    forwardFrom a x take m st s = recordMarker a.c a.sec a.el m (movedAs s a x take (markerOuts a x m) st 0) := by
  have hgo : (decide (x.waitingMarks a.el < 2) && canEmit s a.c a.sec x a.el (markerOuts a x m)) = true := by
    rw [decide_eq_true hwait, show canEmit s a.c a.sec x a.el _ = true from hfree]
    rfl
  unfold forwardFrom
  rw [m_bind_ok (m_get _)]
  refine (m_if_pos hgo).trans ?_
  rw [m_if_neg hop]
  dsimp only
  rw [m_bind_ok (getSection_run ..), hx]
  rfl

theorem forwardFrom_widens {take : List Nat} {st : ElemState} (hx : (s.crew a.c).sections.find? a.sec = some x)
    (hwait : x.waitingMarks a.el < 2) (hfree : Free s a x (markerOuts a x m)) (hop : (x.record a.el).op = 0x18) :
    forwardFrom a x take m st s = recordMarker a.c a.sec a.el m
      (movedAs (widenRelease s a x) a (widenedBy x a.el) take (markerOuts a x m) st 0) := by
  have hgo : (decide (x.waitingMarks a.el < 2) && canEmit s a.c a.sec x a.el (markerOuts a x m)) = true := by
    rw [decide_eq_true hwait, show canEmit s a.c a.sec x a.el _ = true from hfree]
    rfl
  obtain ⟨t, hpass, hw⟩ := widenPass_run hx
  have hsec : ({ x with widened := (widenedBy x a.el).widened } : Section) = widenedBy x a.el := by
    unfold widenedBy
    split <;> rfl
  unfold forwardFrom
  rw [m_bind_ok (m_get _)]
  refine (m_if_pos hgo).trans ?_
  rw [m_if_pos hop, m_bind_ok hpass]
  dsimp only
  rw [m_bind_ok (getSection_run ..), hw.found]
  dsimp only
  rw [hsec, ← hw.moved]
  rfl

end

/-! #### CARRY discards the markers of its other inputs (R348) -/

section
variable {s s1 : State} {a : ElemRef} {x : Section} {m : Nat}

/-- What becomes of the markers at the inputs of CARRY. -/
theorem markerStep_carry (hop : (x.record a.el).op = 0x15) : markerStep a x s =
    (match markAt x a.el 1, markAt x a.el 3, markAt x a.el 0 with
      | some _, _, _ => setSection a.c a.sec (x.consume a.el [1])
      | none, some _, _ => setSection a.c a.sec (x.consume a.el [3])
      | none, none, some m => if !(x.elem a.el).flag then forwardFrom a x [0] m (x.elem a.el) else pure ()
      | none, none, none => pure ()) s := by
  unfold markerStep
  exact (m_if_pos hop).trans rfl

theorem carry_discards_in1 (hop : (x.record a.el).op = 0x15) (h1 : (markAt x a.el 1).isSome = true) :
    markerStep a x s = .ok () (s.putSection a.c a.sec (x.consume a.el [1])) := by
  obtain ⟨k, hk⟩ := Option.isSome_iff_exists.mp h1
  rw [markerStep_carry hop, hk]
  rfl

theorem carry_discards_in3 (hop : (x.record a.el).op = 0x15) (h1 : markAt x a.el 1 = none)
    (h3 : (markAt x a.el 3).isSome = true) :
    markerStep a x s = .ok () (s.putSection a.c a.sec (x.consume a.el [3])) := by
  obtain ⟨k, hk⟩ := Option.isSome_iff_exists.mp h3
  rw [markerStep_carry hop, h1, hk]
  rfl

theorem carry_waits (hop : (x.record a.el).op = 0x15) (h1 : markAt x a.el 1 = none) (h3 : markAt x a.el 3 = none)
    (h0 : markAt x a.el 0 = some m) (hf : (x.elem a.el).flag = true) : markerStep a x s = .ok () s := by
  rw [markerStep_carry hop, h1, h3, h0]
  exact (m_if_neg (by rw [hf]; decide)).trans rfl

theorem carry_forwards (hop : (x.record a.el).op = 0x15) (h1 : markAt x a.el 1 = none) (h3 : markAt x a.el 3 = none)
    (h0 : markAt x a.el 0 = some m) (hf : (x.elem a.el).flag = false) :
    markerStep a x s = forwardFrom a x [0] m (x.elem a.el) s := by
  rw [markerStep_carry hop, h1, h3, h0]
  exact m_if_pos (by rw [hf]; rfl)

end

/-! #### The alignment abort (R353) -/

/-- A blocked element holds a marker for alignment at one input while another stands at eight entries. -/
theorem mem_blocked {x : Section} {el m : Nat} (h : (el, m) ∈ x.blocked) :
    ∃ i j, i ∈ (x.record el).usedInputs ∧ j ∈ (x.record el).usedInputs ∧ j ≠ i ∧ markAt x el i = some m ∧
      8 ≤ (x.queue el j).length ∧ ((x.record el).op = 0x15 → i = 0) := by
  unfold Section.blocked at h
  obtain ⟨e, -, he⟩ := List.mem_flatMap.mp h
  dsimp only at he
  split at he
  · cases he
  · obtain ⟨i, hi, hm⟩ := List.mem_filterMap.mp he
    obtain ⟨hused, hcarry⟩ := List.mem_filter.mp hi
    split at hm
    · next hfull =>
      obtain ⟨k, hk, heq⟩ := Option.map_eq_some_iff.mp hm
      obtain ⟨rfl, rfl⟩ := Prod.mk.inj heq
      obtain ⟨j, hj, hj8⟩ := List.any_eq_true.mp hfull
      simp only [Bool.and_eq_true, bne_iff_ne, ne_eq, decide_eq_true_eq] at hj8
      refine ⟨i, j, hused, hj, hj8.1, hk, hj8.2, fun hop => ?_⟩
      simpa [hop] using hcarry
    · cases hm

section
variable {s s1 : State} {c sec i el m : Nat} {x : Section}

theorem alignmentAbort_runs (hres : (s.crew c).stage = .resident) (hx : (s.crew c).sections.find? sec = some x) :
    exec (.alignmentAbort c sec) s = .next (runM (abortSection c sec x) s) := by
  show execAlignmentAbort c sec s = _
  unfold execAlignmentAbort
  simp only [hx, hres, beq_self_eq_true, if_true]

theorem pick_crew {lo hi k : Nat} (h : pick lo hi s = .ok k s1) (c : Nat) : s1.crew c = s.crew c := by
  obtain ⟨_, n, hn⟩ := pick_draws lo hi s
  rw [hn] at h
  cases h
  rfl

/-- The element that gives up is counted; then its section rewinds, or faults where it did so at this marker before. -/
theorem abortSection_blocked (hp : pick 0 (x.blocked.length - 1) s = .ok i s1) (hi : x.blocked[i]? = some (el, m)) :
    abortSection c sec x s = (do
      upd fun s => s.setCrew c (countAbort (s.crew c))
      if x.aborted = some m then contextFault c sec el 9
      else upd fun s =>
        let k := rewindSection (s.crew c) sec
        s.setCrew c { k with sections := k.sections.modify sec fun y => { y with aborted := some m } } : M Unit) s1 := by
  have hne : x.blocked.isEmpty = false := by
    cases hb : x.blocked with
    | nil =>
      rw [hb] at hi
      cases hi
    | cons => rfl
  unfold abortSection
  rw [m_if_neg (ne_true_of_eq_false hne), m_bind_ok hp, hi]

theorem abortSection_rewinds (hp : pick 0 (x.blocked.length - 1) s = .ok i s1) (hi : x.blocked[i]? = some (el, m))
    (hm : x.aborted ≠ some m) :
    abortSection c sec x s = .ok () (s1.setCrew c { rewindSection (countAbort (s.crew c)) sec with
      sections := (rewindSection (countAbort (s.crew c)) sec).sections.modify sec fun y => { y with aborted := some m } }) := by
  rw [abortSection_blocked hp hi, m_bind_ok (m_upd ..), m_if_neg hm, m_upd]
  dsimp only
  rw [State.crew_setCrew, setCrew_setCrew, pick_crew hp]

theorem abortSection_faults (hp : pick 0 (x.blocked.length - 1) s = .ok i s1) (hi : x.blocked[i]? = some (el, m))
    (hm : x.aborted = some m) :
    abortSection c sec x s = .ok () (runM (contextFault c sec el 9) (s1.setCrew c (countAbort (s.crew c)))) := by
  rw [abortSection_blocked hp hi, m_bind_ok (m_upd ..), m_if_pos hm, pick_crew hp]
  rfl

end

end Sys2Proof.Machine
end

section
open Sys2Proof Sys2Proof.Machine

/-- Settles O52: what each element's body comes to, by the code of its operation, and how a marker and an alignment abort go on
from the state of its section. -/
theorem elementsMoveTokens : Obligations.ElementsMoveTokens := by
  unfold Obligations.ElementsMoveTokens
  refine ⟨?steer, ?merge, ?carry, ?join, ?widen, ?commit, ?src, ?snk, ?agen, ?marker, ?discard, ?blocked, ?abort⟩
  case steer =>
    intro s a x tag h hr r exit t h0 h3 o
    refine ⟨fun hexit htag => steer_faults h hr h0 h3 hexit htag, fun hpass hfree => steer_fires h hr h0 hpass ?_ hfree⟩
    unfold Tok.lower
    rw [hr.tags 0 (mem_usedInputs (by omega) h0)]
  case merge =>
    intro s a x p t h hp i ht
    exact ⟨merge_fires h hp ht, merge_faults h hp ht⟩
  case carry =>
    intro s a x t p h st
    refine ⟨fun hf ht => ⟨carry_faults h hf ht, carry_enters h hf ht⟩, fun hf hp => ⟨carry_leaves h hf hp, carry_turns h hf hp⟩⟩
  case join =>
    intro s a x h u outs _ hu
    exact join_fires h hu
  case widen => exact fun s a x t => widen_fires
  case commit =>
    intro s a x t h i ht
    exact commit_fires h ht
  case src =>
    intro s s1 a x h st q v
    refine ⟨fun m => src_marks h, fun t rest => src_nexts h, fun e es t rest hm ho hfree hadm hok he => ?_,
      fun o hm ho hadm hfree => src_waits h hm ho hadm hfree⟩
    exact ⟨src_faults h hm ho hadm hfree rfl hok he, src_takes h hm ho hadm hfree rfl hok he⟩
  case snk =>
    intro s a x t h r st q v g ws head ht hg
    have hr : SinkReady a x t := ⟨ht, hg⟩
    exact ⟨snk_absorbs h hr, fun hyes => ⟨snk_keeps h hr hyes, snk_full h hr hyes rfl⟩⟩
  case agen =>
    intro s s1 a x h r st g mode
    refine ⟨fun t rest => agen_emits h, fun t rest hmode _ hm ho hadm => agen_walks h hmode hm ho hadm, ?_, ?_⟩
    · exact fun bs t rest hmode h0 hm ho hadm hkind hpos hread hx => agen_tiles h hmode h0 hm ho hadm hkind hpos hread hx
    · exact fun t i y hmode h1 h3 hkind ht hi htag hbank => agen_banks h hmode h1 h3 hkind ht hi htag hbank
  case marker =>
    intro s s1 a x m code hres hx hin hop hne hne' hsink u outs
    subst hop
    have h : ElemThere s a x := ⟨hres, hx, hin, hne⟩
    refine ⟨?_, ?_, ?_, ?_⟩
    · rintro ⟨i, hi, j, hj, hij⟩
      refine markerForward_ok h (markerStep_uneven hne' fun k => ?_)
      by_cases hk : markAt x a.el i = some k
      · exact ⟨j, hj, fun hj' => hij (hk.trans hj'.symm)⟩
      · exact ⟨i, hi, hk⟩
    · rintro ⟨i, hi, hnone⟩
      exact markerForward_ok h (markerStep_uneven hne' fun k => ⟨i, hi, by rw [hnone]; exact (Option.some_ne_none k).symm⟩)
    · intro hu hm hout hwait hfree
      have hstep := (markerStep_even (s := s) hne' hsink hu hm).trans (m_if_pos (List.isEmpty_iff.mpr hout))
      exact ⟨fun hcode hrec => markerForward_ok h (hstep.trans ((forwardFrom_run hx hwait hfree hcode).trans hrec)),
        fun hcode _ hrec => markerForward_ok h (hstep.trans ((forwardFrom_widens hx hwait hfree hcode).trans hrec))⟩
    · intro hu hm hwait
      refine markerForward_ok h ((markerStep_even hne' hsink hu hm).trans ?_)
      split
      · exact forwardFrom_waits hwait
      · rfl
  case discard =>
    intro s s1 a x hres hx hin hop kept
    have h : ElemThere s a x := ⟨hres, hx, hin, by rw [hop]; decide⟩
    refine ⟨fun h1 => markerForward_ok h (carry_discards_in1 hop h1), fun h1 h3 => markerForward_ok h (carry_discards_in3 hop h1 h3),
      fun m h1 h3 h0 => ⟨fun hf => markerForward_ok h (carry_waits hop h1 h3 h0 hf), fun hf hwait hfree hrec => ?_⟩⟩
    exact markerForward_ok h ((carry_forwards hop h1 h3 h0 hf).trans
      ((forwardFrom_run hx hwait hfree (by rw [hop]; decide)).trans hrec))
  case blocked => exact fun x el m => mem_blocked
  case abort =>
    intro c sec s x hres hx
    rw [alignmentAbort_runs hres hx]
    refine ⟨fun hnone => ?_, fun i el m s1 hp hi => ⟨fun hm => ?_, fun hm => ?_⟩⟩
    · rw [runM_ok (s' := s)]
      unfold abortSection
      exact (m_if_pos (List.isEmpty_iff.mpr hnone)).trans rfl
    · rw [runM_ok (abortSection_rewinds hp hi hm)]
    · rw [runM_ok (abortSection_faults hp hi hm)]

end
